-- ==== Sys2Proof/Word.lean ====
section
/-! DEFINITION. The word types of the KF-9624 and the two halves of the device (00_scope R12, 01_architecture R20). -/

namespace Sys2Proof

/-- A 64-bit register word. -/
abbrev Word := BitVec 64

/-- A byte. -/
abbrev Byte := BitVec 8

/-- A 64-byte line; byte `i` is bits `8i+7..8i` (00_scope R12). -/
abbrev Line := BitVec 512

/-- An 80-byte DRAM burst; symbol `s_i` of 05_dram R137 is bits `8i+7..8i`. -/
abbrev Burst := BitVec 640

/-- The two halves of the device (01_architecture R20). -/
inductive Half where
  | a | b
  deriving DecidableEq, Repr

/-- 0 for Half A, 1 for Half B. -/
def Half.idx : Half → Nat
  | .a => 0
  | .b => 1

/-- The half of an index: 0 is Half A, any other is Half B. -/
def halfOf : Nat → Half
  | 0 => .a
  | _ => .b

/-- The other half. -/
def Half.other : Half → Half
  | .a => .b
  | .b => .a

/-- A pair of values, one for each half. -/
structure Two (α : Type) where
  a : α
  b : α
  deriving DecidableEq, Repr

/-- The value of one half. -/
def Two.get {α : Type} (t : Two α) : Half → α
  | .a => t.a
  | .b => t.b

/-- The pair with the value of one half replaced. -/
def Two.set {α : Type} (t : Two α) : Half → α → Two α
  | .a, v => { t with a := v }
  | .b, v => { t with b := v }

/-- The pair with the value of one half changed by `f`. -/
def Two.upd {α : Type} (t : Two α) (h : Half) (f : α → α) : Two α := t.set h (f (t.get h))

/-- The fields of a CLAIM message (01_architecture R40). -/
structure ClaimMsg where
  dieId : BitVec 32
  diePos : Bool
  leaderSel : Bool
  claim : Bool
  round : BitVec 2
  deriving DecidableEq, Repr

/-- Link power state of a host port (16_power R354; 02_host_ports R67). -/
inductive LinkState where
  | detect | recovery | l0 | l0p | l1 | l2
  deriving DecidableEq, Repr

/-- What sends a response: the request whose response is ready, and the credits of its response channel that the host has
returned to the port since the last one (04_request R117). -/
structure ReadyResponse where
  rid : Fin 65536
  credits : Nat
  deriving DecidableEq, Repr

/-- What sends a back-invalidation: the host to which it goes, and the back-invalidate credits that the host has returned to its
port since the last one (04_request R128). -/
structure BiTarget where
  host : Nat
  credits : Nat
  deriving DecidableEq, Repr

/-- What a word of a shore port belongs to (01_architecture R31): a register access, the logbook, telemetry, the DIMM sideband,
an event, or the traffic of a management interface. -/
inductive ShoreKind where
  | register | logbook | telemetry | sideband | event | management
  deriving DecidableEq, Repr

/-- A word of a shore port [64 bits; 01_architecture R31]. -/
structure ShoreWord where
  kind : ShoreKind
  bits : BitVec 64
  deriving DecidableEq, Repr

/-- Paths to the privileged view (19_register_map Table 19.1): BAR2 of an owner LD (port, LD-ID), BAR2 of the FM-owned LD or of
the G-FAM function of a port, the mailbox of the FM-owned LD of a port, MCTP on SMBus/I3C, MCTP on management Ethernet. -/
inductive RegPath where
  | bar2Owner (port ld : Fin 16) | bar2Fm (port : Fin 16) | mailbox (port : Fin 16) | mctpSmbus | mctpEth
  deriving DecidableEq, Repr

/-- What a register access names: the privileged view over a path, or the BAR0 of a function (port, LD; 16 for the FM-owned
LD or the G-FAM function). -/
inductive RegView where
  | priv (path : RegPath)
  | bar0 (port : Fin 16) (ld : Fin 17)
  deriving DecidableEq, Repr

/-- Bytes that an access covers (19_register_map R409): all eight, the low dword, the high dword. -/
inductive Lanes where
  | qword | low | high
  deriving DecidableEq, Repr

/-- A DIMM as its SPD and the training probe show it (05_dram Table 5.1, R131). -/
structure Module where
  /-- Type: 0 RDIMM, 1 MRDIMM, others any other module [05_dram Table 5.1; reset: no module] -/
  kind : Nat
  /-- Bits of a subchannel, and of a DRAM device [counts; 05_dram Table 5.1; reset: no module] -/
  subBits : Nat
  devBits : Nat
  /-- Gb of a DRAM device, and the devices of a 3DS stack, 1 where monolithic [counts; 05_dram Table 5.1; reset: no module] -/
  gbit : Nat
  stack : Nat
  /-- Logical ranks [count; 05_dram Table 5.1; reset: no module] -/
  ranks : Nat
  /-- Data capacity, GiB [count; 05_dram Table 5.1; reset: no module] -/
  gib : Nat
  /-- SPD rating, MT/s [05_dram R132; reset: no module] -/
  mts : Nat
  /-- SPD part number [160 bits; 05_dram R135; reset: no module] -/
  part : Nat
  /-- SPD serial number [32 bits; 05_dram R135; reset: no module] -/
  serial : Nat
  deriving DecidableEq, Repr

/-- Messages between paired devices (13_pairing Table 13.2). NULL ends a frame's messages and has no constructor. -/
inductive MirMsg where
  | lineWr (dom line : Nat) (data : Line)
  | lineWrPtl (dom line : Nat) (enables : BitVec 64) (data : Line)
  | linePoison (dom line : Nat)
  | zeroRun (dom page count : Nat)
  | commitAck (count : Nat)
  | peerRefuse (dom line cause : Nat)
  | cut (n : Nat)
  | cutAck (n : Nat)
  | rsLine (dom line : Nat) (data : Line)
  | slotData (dom page offset : Nat) (words : List (BitVec 64))
  | pageDone (dom page form : Nat) (repair : Bool) (body : Nat)
  | pageAck (dom page result : Nat)
  | role (dom peer role mode state : Nat) (continuous dirtyOk : Bool) (soloMs epoch mirEpoch : Nat)
  | setFp (active : Nat) (prints : List Nat)
  | repairReq (dom page count : Nat)
  deriving DecidableEq, Repr

end Sys2Proof
end

