-- ==== Sys2Proof/Syntax.lean ====
section
/-! DEFINITION. The commands of the device: one constructor for each row of spec/opcode_table.json. The table gives a row
no operand fields; the operands here are what each row's rule takes from outside (log 11). -/

namespace Sys2Proof

/-- A command. Each constructor's docstring gives its mnemonic and its rule. -/
inductive Instr where
  /-- D2D_FLIT_RECEIVE (R25): The receiving half checks an arriving die-to-die flit, then accepts it, discards it as bad or duplicate, or discards it as ahead of sequence, and takes its acknowledge and credits. -/
  | d2dFlitReceive (h : Half) (words : List Word) (touched : List (Fin 65536))
  /-- D2D_FLIT_SEND (R28): A flit is sent once its virtual channel holds credits and the replay buffer has room. -/
  | d2dFlitSend (h : Half) (handshake : Bool) (vc : Fin 4) (payload : List Word)
  /-- D2D_ACK_ONLY_TIMEOUT (R26): With no reverse traffic, the receiver sends an ACK_ONLY flit 32 ns after accepting a DATA flit. -/
  | d2dAckOnlyTimeout (h : Half)
  /-- D2D_REPLAY_TIMEOUT (R26): After 200 ns without progress of the cumulative acknowledge, the transmitter replays. -/
  | d2dReplayTimeout (h : Half) (touched : List (Fin 65536))
  /-- D2D_TRAIN_DONE (R23): Die-to-die link training completes, mapping failing lanes onto spares, and the handshake sends CLAIM for round 1. -/
  | d2dTrainDone (failingA failingB creditsA creditsB : List Nat)
  /-- D2D_TRAIN_TIMEOUT (R41): 2 ms after core release without a trained link, round 1 is counted as failed. -/
  | d2dTrainTimeout
  /-- CLAIM (R40): A half receives the peer's CLAIM and answers with ECHO. -/
  | claim (h : Half) (msg : ClaimMsg)
  /-- ECHO (R40): A half receives an ECHO; if it matches, the half resolves the leader and sends CONFIRM, otherwise the round fails. -/
  | echo (h : Half) (returned : ClaimMsg) (own : ClaimMsg)
  /-- CONFIRM (R40): A half receives CONFIRM; if it names the same identity, the half sets the result and starts leader or follower services. -/
  | confirm (h : Half) (leaderId : BitVec 32)
  /-- HANDSHAKE_TIMEOUT (R41): No handshake message arrives within 100 µs of the previous step, and the round fails. -/
  | handshakeTimeout (h : Half)
  /-- HANDSHAKE_RETRY (R41): 1 ms after a failed round the halves start a new round, or after three failed rounds they enter Boot Hold. -/
  | handshakeRetry (h : Half)
  /-- SHORE_PORT_WORD (R31): A shore-port word arrives and its parity is checked; a failing word is re-sent up to 3 times. -/
  | shorePortWord (h : Half) (toShore : Bool) (word : ShoreWord) (parity : Bool)
  /-- TB_ALIGN_CHECK (R34): Every 1 ms, the device compares each local tide-clock counter with the master. -/
  | tbAlignCheck (driftA driftB : Int)
  /-- SRAM_FILL_DONE (R36): SRAM self-test and zero fill end, failing bank groups are fenced, and the management cores are released. -/
  | sramFillDone (h : Half) (failed : List (Fin 16))
  /-- TCM_UNCORRECTABLE (R37): An uncorrectable check error on a TCM read halts the core and counts as a loss of that half's management core. -/
  | tcmUncorrectable (h : Half)
  /-- WATCHDOG_EXPIRY (R38): A management core's 100 ms watchdog expires, which counts as a loss of that core. -/
  | watchdogExpiry (h : Half)
  /-- PORT_LINK_TRAIN (R49): Training of a port's link ends at a width and rate, or fails. -/
  | portLinkTrain (p : Fin 16) (flitMode latOpt : Bool) (hostRates eqOk : BitVec 7) (goodLanes : BitVec 16)
  /-- HOST_LINK_REPLAY (R52): A host link-layer replay is counted and marks the requests that it touched. -/
  | hostLinkReplay (p : Fin 16) (touched : List (Fin 65536))
  /-- HOST_LINK_STATE_CHANGE (R354): A host link changes among L0, L0p, L1, L2 and Detect, which changes its power votes. -/
  | hostLinkStateChange (p : Fin 16) (new : LinkState)
  /-- DOE_DISCOVERY (R53): A DOE Discovery request returns the supported DOE protocols. -/
  | doeDiscovery (p : Fin 16) (ld : Fin 17) (index : BitVec 8)
  /-- DOE_CDAT_READ (R57): A CDAT read through DOE returns each HDM range's latency and bandwidth. -/
  | doeCdatRead (p : Fin 16) (ld : Fin 17)
  /-- IDE_KM_KEY_PROG (R223): IDE_KM over a secured SPDM session programs a key set of a port's IDE stream. -/
  | ideKmKeyProg (p : Fin 16) (mem : Bool) (keySet tx : Bool) (skid : Bool) (key : BitVec 256)
  /-- IDE_KM_K_SET_GO (R223): IDE_KM K_SET_GO switches a stream to its other key set. -/
  | ideKmKSetGo (p : Fin 16) (mem : Bool) (keySet : Bool)
  /-- FLR_START (R64): A configuration write starts an FLR of an LD: CXL.io stops, tags are quarantined and offload jobs end ABORTED_FLR. -/
  | flrStart (p : Fin 16) (ld : Fin 17)
  /-- FLR_DONE (R64): The FLR completes and the LD's CXL.io state returns to reset. -/
  | flrDone (p : Fin 16) (ld : Fin 17)
  /-- CXLIO_COMPLETION (R65): A CXL.io completion arrives, and for a quarantined tag it is accepted, discarded and frees the tag. -/
  | cxlioCompletion (p : Fin 16) (ld : Fin 17) (tag : Nat) (data : List Byte)
  /-- CXLIO_COMPLETION_TIMEOUT (R65): A read's completion timeout expires and frees its tag. -/
  | cxlioCompletionTimeout (p : Fin 16) (ld : Fin 17) (tag : Nat)
  /-- BME_CLEAR (R66): Clearing Bus Master Enable stops new CXL.io requests, aborts DMA jobs, stops rings and holds MSI-X as pending. -/
  | bmeClear (p : Fin 16) (ld : Fin 17)
  /-- BME_SET (R66): Setting Bus Master Enable lets held MSI-X messages go and restarts no ring. -/
  | bmeSet (p : Fin 16) (ld : Fin 17)
  /-- PERST_ASSERT (R67): Assertion of PERST_N[p] resets the LDs of port p, as at link loss. -/
  | perstAssert (p : Fin 16)
  /-- PERST_RELEASE (R392): Release of PERST_N[p] lets the port train, or wakes the device from DEEP_SLEEP. -/
  | perstRelease (p : Fin 16)
  /-- LINK_LOSS (R67): Loss of a port's link resets its LDs, ends offload jobs and lets accepted CXL.mem work complete internally. -/
  | linkLoss (p : Fin 16)
  /-- HDM_DECODER_COMMIT (R76): The host commits an HDM decoder, which fails with Error Not Committed for unsupported ways or granularity. -/
  | hdmDecoderCommit (p : Fin 16) (id : Fin 4096) (i : Fin 8) (base size skip : Nat) (ways granularity : Nat) (bi : Bool)
  /-- BAR_SIZING_WRITE (R59): A write of all ones to a BAR returns its size mask, or zero for an absent BAR. -/
  | barSizingWrite (p : Fin 16) (ld : Fin 17) (bar : Fin 6)
  /-- BAR_BAD_ACCESS (R61): An unaligned or wrong-size BAR access gets Unsupported Request or is discarded, and it is counted. -/
  | barBadAccess (p : Fin 16) (ld : Fin 17) (isRead : Bool)
  /-- FEATURE_LOCK (R72): Writing FEATURE_CTRL.LOCK computes and fixes the LD's effective feature set. -/
  | featureLock (p : Fin 16) (ld : Fin 17)
  /-- FM_FEATURE_LOCK (R74): Writing TOP_FM_FEATURE_CTRL.LOCK from a fabric-manager path fixes the fabric manager's feature set. -/
  | fmFeatureLock (path : RegPath)
  /-- MEM_RD (R104): A MemRd or MemRdData arrives and is checked, decoded, policed and given a request-table entry. -/
  | memRd (p : Fin 16) (id : Fin 4096) (hpa : Nat) (tag : BitVec 16) (want : Fin 3) (stage : Fin 11) (parity : Fin 5)
  /-- MEM_INV (R125): A MemInv or MemInvNT changes HDM-DB line ownership without data. -/
  | memInv (p : Fin 16) (id : Fin 4096) (hpa : Nat) (tag : BitVec 16) (want : Fin 3)
  /-- MEM_CLN_EVCT (R125): A MemClnEvct removes the requester from a line's holders. -/
  | memClnEvct (p : Fin 16) (id : Fin 4096) (hpa : Nat) (tag : BitVec 16)
  /-- MEM_SPEC_RD (R109): A MemSpecRd is ignored, with no entry taken and no response. -/
  | memSpecRd (p : Fin 16) (id : Fin 4096) (hpa : Nat) (tag : BitVec 16)
  /-- MEM_WR (R106): A full-line MemWr arrives and passes stages 1 to 5 like a read. -/
  | memWr (p : Fin 16) (id : Fin 4096) (hpa : Nat) (tag : BitVec 16) (want : Fin 3) (data : Line) (poison : Bool) (stage : Fin 11) (parity : Fin 5)
  /-- MEM_WR_PTL (R108): A partial-line MemWrPtl arrives and is handled as a write whose bytes merge at drain. -/
  | memWrPtl (p : Fin 16) (id : Fin 4096) (hpa : Nat) (tag : BitVec 16) (want : Fin 3) (data : Line) (enables : BitVec 64) (poison : Bool) (stage : Fin 11) (parity : Fin 5)
  /-- BI_RSP (R125): A BIRspI, BIRspS or BIRspE ends a back-invalidation or an eviction. -/
  | biRsp (p : Fin 16) (id : Fin 4096) (hpa : Nat) (keeps : Fin 6)
  /-- UNSUPPORTED_MESSAGE (R109): Any other CXL.mem message is answered at stage 2 with poisoned data or Cmp, and counted. -/
  | unsupportedMessage (p : Fin 16) (id : Fin 4096) (tag : BitVec 16) (expectsData : Bool)
  /-- REQUEST_ENTRY_GRANT (R115): A request waiting at stage 2 takes a request-table entry once one is free under its limits. -/
  | requestEntryGrant (h : Half)
  /-- DOMAIN_QUEUE_RELEASE (R233): The shaper lets the head of a domain queue leave, and the request passes the map stage. -/
  | domainQueueRelease (d : Fin 1024) (pick : Nat) (victim : Nat) (stage : Fin 11) (parity : Fin 5)
  /-- BISNP_SEND (R128): A BISnpData or BISnpInv is sent once the host has back-invalidate credits. -/
  | bisnpSend (h : Half) (d : Fin 1024) (line : Nat) (host : BiTarget)
  /-- RQ_BI_TIMEOUT (R127): A back-invalidation waits beyond BI_TIMEOUT: the host is removed, an owned line is poisoned and the waiters proceed. -/
  | rqBiTimeout (h : Half) (d : Fin 1024) (line : Nat) (host : Nat)
  /-- METADATA_FILL (R93): A metadata cache miss's DRAM read returns and the waiting map lookups continue. -/
  | metadataFill (rid : Fin 65536) (errs : List Burst) (victim : Nat)
  /-- PAGE_LOCK_GRANT (R95): A request waiting on a page transition lock proceeds with the entry the transition left. -/
  | pageLockGrant (rid : Fin 65536) (pick : Nat)
  /-- WRITE_BUFFER_INSERT (R106): A write takes a channel write-buffer entry, and its completion is sent, or for SYNC its mirror message is queued. -/
  | writeBufferInsert (rid : Fin 65536)
  /-- PARK_REENTRY (R235): A parked request re-enters its channel queue as an entry frees. -/
  | parkReentry (c : Fin 24)
  /-- CHANNEL_SEQUENCE_START (R236): The channel scheduler starts the first eligible command sequence that passes its gate and the guard band. -/
  | channelSequenceStart (c : Fin 24) (errs : List Burst)
  /-- DRAM_READ_DONE (R139): A DRAM read's burst returns and is decoded into one of the check-code outcomes, then decrypted and checked. -/
  | dramReadDone (rid : Fin 65536) (errs : List Burst) (stage : Fin 11) (parity : Fin 5)
  /-- RESPONSE_SEND (R117): A response leaves against the host's credit for its channel, and its entry is released. -/
  | responseSend (rid : ReadyResponse)
  /-- DOM_SHADOW_WRITE (R100): A write to a shadow DOM_WINDOW or DOM_CTRL that grows the window starts staging a new extent table. -/
  | domShadowWrite (d : Fin 1024) (window : Bool) (value : Word)
  /-- EXTENT_TABLE_STAGED (R100): Staging of a new extent table completes and STAGE_READY is set. -/
  | extentTableStaged (d : Fin 1024) (pick1 pick2 : Nat)
  /-- MAP_ZERO_START (R431): START of MAP_ZERO checks the arguments and starts the run, or ends it refused or done at once. -/
  | mapZeroStart
  /-- MAP_ZERO_PAGE (R102): MAP_ZERO takes a page's transition lock and zeroes the page, splitting a FRAME extent or handling a retired extent. -/
  | mapZeroPage (picks : List Nat)
  /-- MEDIA_DRAIN_DONE (R99): Every request that read an old mapping has completed, so freed media returns to the free lists. -/
  | mediaDrainDone (item : Nat)
  /-- FENCE_WALK_STEP (R91): In a maintenance window, the post-fence walk retires pages and extents whose media lay on the fenced channel. -/
  | fenceWalkStep (c : Fin 24) (picks : List Nat)
  /-- META_COPY_REBUILD (R93): A second copy of a map structure is built on another channel in maintenance windows. -/
  | metaCopyRebuild (d : Fin 1024) (ext : Option Nat) (pick : Nat)
  /-- MATERIALISE_EXTENT (R92): Materialisation gives a committed QC0 extent a 2 MiB frame and writes it. -/
  | materialiseExtent (d : Fin 1024) (ext : Nat) (pick : Nat)
  /-- RETIREMENT_MOVE (R153): The page mover copies a page, slot, frame or metadata copy out of a retired range. -/
  | retirementMove (c : Fin 24) (errs : List Burst) (picks : List Nat)
  /-- EXTENT_CONVERT (R92): The page mover converts an extent between PAGED and FRAME form under its MOVING bit. -/
  | extentConvert (d : Fin 1024) (ext : Nat) (errs : List Burst) (picks : List Nat)
  /-- FRAME_AUDIT (R97): The page mover's audit returns media named by lost structures to the free lists. -/
  | frameAudit (h : Half)
  /-- CHANNEL_TRAIN_DONE (R135): A channel's training ends on the fast or full path, storing a new record on success. -/
  | channelTrainDone (c : Fin 24) (slot0 slot1 : Option Module) (fast ok : Bool)
  /-- HARD_REPAIR (R152): At a full-training boot, one pending row per channel gets DDR5 hard post-package repair. -/
  | hardRepair (c : Fin 24) (ok : Bool)
  /-- CA_PARITY_ALERT (R142): A module signals a command/address parity error, and the command sequences are replayed. -/
  | caParityAlert (c : Fin 24)
  /-- INJECTION_ARM (R143): A write of DMC_INJ_CTRL.ARM arms one injection, unless injection is disabled. -/
  | injectionArm (c : Fin 24) (value : Word)
  /-- REFRESH_DEBT_TICK (R145): Each tREFI raises the channel's refresh debt by one. -/
  | refreshDebtTick (c : Fin 24)
  /-- REFRESH_SWEEP (R144): A same-bank refresh sweep starts in a window that admits MC and fits W, lowering the debt by one. -/
  | refreshSweep (c : Fin 24)
  /-- DIMM_SIDEBAND_POLL (R376): Every 16 ms, module temperatures and PMIC status are read over the sideband, setting tREFI. -/
  | dimmSidebandPoll (c : Fin 24) (temps : List Nat) (pgFault : List Bool)
  /-- CORRECTED_WRITEBACK (R140): A corrected line is written back as a maintenance write, unless a newer write has entered the buffer. -/
  | correctedWriteback (c : Fin 24)
  /-- COMBER_STEP (R149): A due comber step reads the 16 lines of its 1 KiB and handles each outcome. -/
  | comberStep (c : Fin 24) (errs : List Burst)
  /-- SOFT_REPAIR_START (R151): With enough write-buffer entries free, the row's held lines are read into the buffer. -/
  | softRepairStart (c : Fin 24) (errs : List Burst)
  /-- SOFT_REPAIR_SEQUENCE (R151): In one MC window, the DDR5 soft post-package repair sequence runs on the row. -/
  | softRepairSequence (c : Fin 24)
  /-- SOFT_REPAIR_VERIFY (R151): After the entries drain, the row is re-read to verify, and it is logged as pending hard repair or retired. -/
  | softRepairVerify (c : Fin 24) (errs : List Burst)
  /-- SRAM_SCRUB_LAP (R155): An SRAM bank's scrubber completes a lap, correcting words, reporting uncorrectable ones and updating the lap time. -/
  | sramScrubLap (h : Half) (group : Fin 256) (corrected : Nat) (uncorrectable : List Nat) (lapUs : Nat)
  /-- SET_ACTIVATE (R169): ACTIVATE checks a static set's lengths and makes it ACTIVE in both halves, or refuses it. -/
  | setActivate (set : Fin 8)
  /-- SET_CLEAR (R169): CLEAR returns a static set that no slot names to EMPTY. -/
  | setClear (set : Fin 8)
  /-- HIST_CLEAR (R171): SHG_HIST_CTRL.CLEAR zeroes every symbol count. -/
  | histClear
  /-- PAGE_COMPRESS (R182): The page mover reads a NEAR page, compresses it and writes the slot. -/
  | pageCompress (h : Half) (d : Fin 1024) (page : Nat) (errs : List Burst) (cluster : Fin 8) (streams : List (List Byte)) (recheckFail : Bool) (pick : Nat)
  /-- PAGE_COMPRESS_COMMIT (R182): Under the page's lock, the page becomes SHINGLE, or the slot is freed if a write intervened. -/
  | pageCompressCommit (h : Half) (d : Fin 1024) (page : Nat)
  /-- CHUNK_DECODE (R172): A chunk decode ends with output or with a decoder error. -/
  | chunkDecode (h : Half) (d : Fin 1024) (page : Nat) (rid : Option (Fin 65536)) (chunk : Fin 4) (cluster : Fin 8) (fails : Fin 6)
  /-- CHUNK_REDECODE (R173): A failed chunk is decoded once more on another cluster. -/
  | chunkRedecode (h : Half) (d : Fin 1024) (page : Nat) (rid : Option (Fin 65536)) (chunk : Fin 4) (cluster : Fin 8) (fails : Fin 6)
  /-- PAGE_PROMOTE (R183): A write to a SHINGLE page takes the lock and a near frame and starts decoding all four chunks. -/
  | pagePromote (rid : Fin 65536) (errs : List Burst) (pick : Nat)
  /-- PAGE_PROMOTE_COMMIT (R183): After decoding, the write is merged, the lines are buffered, the page becomes NEAR and the lock is released. -/
  | pagePromoteCommit (h : Half) (d : Fin 1024) (page : Nat)
  /-- ERROR_PROMOTION (R174): A page with a failed chunk is promoted, with poison marks on the failed chunk's lines. -/
  | errorPromotion (h : Half) (d : Fin 1024) (page : Nat) (errs : List Burst) (pick : Nat)
  /-- EXTENT_VISIT (R188): The page mover visits an extent, evaluates and decays each page, and offers or promotes pages. -/
  | extentVisit (h : Half) (d : Fin 1024) (ext : Nat)
  /-- TIER_LAP_END (R187): A page-mover lap ends, setting EPOCH_OVERRUN if late, and the next lap starts. -/
  | tierLapEnd (h : Half)
  /-- TIER_CFG_WRITE (R187): A write to TIER_CFG changes the page mover and re-paces the lap in progress. -/
  | tierCfgWrite (value : Word)
  /-- TIER_CAP_CFG_WRITE (R194): A write to TIER_CAP_CFG sets the thresholds at once, or is ignored and sets CFG_REJECT. -/
  | tierCapCfgWrite (value : Word)
  /-- TIER_DOM_WRITE (R189): A write to TIER_DOM_d sets a domain's thresholds, or is ignored when COLD ≥ HOT. -/
  | tierDomWrite (d : Fin 1024) (value : Word)
  /-- LOST_WRITE_RUN_CLOSE (R199): 1 ms after its last page, a lost-write run stops extending. -/
  | lostWriteRunClose (h : Half) (d : Fin 1024)
  /-- COUNTER_FETCH_DONE (R214): A counter block or tree node arrives from DRAM and is checked against its parent. -/
  | counterFetchDone (h : Half) (d : Fin 1024) (level idx : Nat) (errs : List Burst) (victim : Nat)
  /-- COUNTER_ROLLOVER (R206): A write whose minor is at 127 rolls the page's counters over and re-encrypts all 64 lines. -/
  | counterRollover (h : Half) (d : Fin 1024) (page : Nat) (errs : List Burst)
  /-- TREE_LOCAL_REBUILD (R218): A lost node is rebuilt from its children and checked against its parent. -/
  | treeLocalRebuild (h : Half) (d : Fin 1024) (level idx : Nat) (errs : List Burst)
  /-- SUBTREE_REBUILD (R218): Each page of a fenced subtree gets new counters, with partner lines written and others poisoned. -/
  | subtreeRebuild (h : Half) (d : Fin 1024) (level idx page : Nat)
  /-- SUBTREE_INSTALL (R218): The subtree's nodes are built, checked against the parent, and HIGH_MAJOR is raised. -/
  | subtreeInstall (h : Half) (d : Fin 1024) (level idx : Nat)
  /-- ROOT_PARITY_FAIL (R219): A root that fails parity is recomputed from its top node. -/
  | rootParityFail (d : Fin 1024) (errs : List Burst)
  /-- KEY_LOAD (R222): PROT_KEY_CMD LOAD starts the unwrap of a wrapped blob into a slot. -/
  | keyLoad (slot : Nat)
  /-- KEY_LOAD_DONE (R221): The unwrap finishes, and the key is stored or refused with a result code. -/
  | keyLoadDone
  /-- KEY_ERASE (R222): PROT_KEY_CMD ERASE overwrites a slot that is not in use. -/
  | keyErase (slot : Nat)
  /-- IDE_INTEGRITY_FAIL (R224): An IDE MAC check fails: the epoch's work is contained or poisoned, and the port is treated as link lost. -/
  | ideIntegrityFail (p : Fin 16) (mem : Bool) (epoch : List (Fin 65536)) (stored : List (Fin 1024 × Nat))
  /-- TT_PEND_WRITE (R241): A write to the pending tide table sets DIRTY and makes the state UNCHECKED. -/
  | ttPendWrite (i : Fin 26) (reg : Option (Fin 64)) (value : Word)
  /-- TT_CHECK (R241): TT_CTRL.CHECK starts the load-time check on the pending bank. -/
  | ttCheck (i : Fin 26)
  /-- TT_CHECK_DONE (R241): The check ends PASSED with OVERSIZE_MASK, or REFUSED with the first reason. -/
  | ttCheckDone (i : Fin 26)
  /-- TT_TAKEOVER (R242): At TAKEOVER_AT, the pending bank is copied into the active bank and a new cycle starts. -/
  | ttTakeover (i : Fin 26)
  /-- TT_GATE_CHANGE (R33): At a scheduled tide-clock time, the sequencer delivers a new gate mask. -/
  | ttGateChange (i : Fin 26)
  /-- QOS_TELEM_SAMPLE (R246): At each sampling time, every queue's depth and delay increment their histogram bins. -/
  | qosTelemSample (h : Half)
  /-- QOS_TELEM_CLEAR (R246): QOS_TELEM_CTRL.CLEAR zeroes every histogram bin. -/
  | qosTelemClear
  /-- PTP_SYNC (R262): A PTP Sync message is timestamped and yields an offset measurement. -/
  | ptpSync (seq : Nat) (twoStep : Bool) (t1 : Nat) (correction : Int)
  /-- PTP_FOLLOW_UP (R262): A Follow_Up message completes a two-step Sync measurement. -/
  | ptpFollowUp (seq : Nat) (t1 : Nat) (correction : Int)
  /-- PTP_DELAY_REQ_SEND (R262): The device sends an end-to-end Delay_Req. -/
  | ptpDelayReqSend
  /-- PTP_DELAY_RESP (R262): A Delay_Resp gives the path delay. -/
  | ptpDelayResp (seq : Nat) (t4 : Nat) (correction : Int)
  /-- PTP_ANNOUNCE (R262): An Announce message feeds the BMCA choice of master. -/
  | ptpAnnounce (rank : List Nat) (ident : Word)
  /-- PTP_PDELAY_REQ (R262): A Pdelay_Req is answered two-step with Pdelay_Resp. -/
  | ptpPdelayReq (seq : Nat)
  /-- PTP_PDELAY_RESP (R262): A Pdelay_Resp gives the peer delay. -/
  | ptpPdelayResp (seq : Nat) (twoStep : Bool) (t2 : Nat) (correction : Int)
  /-- PTP_PDELAY_RESP_FOLLOW_UP (R262): A Pdelay_Resp_Follow_Up completes a two-step peer delay measurement. -/
  | ptpPdelayRespFollowUp (seq : Nat) (t3 : Nat) (correction : Int)
  /-- PTP_SYNC_TIMEOUT (R261): No Sync for 3 intervals disqualifies PTP. -/
  | ptpSyncTimeout
  /-- PTP_ANNOUNCE_TIMEOUT (R261): Announce lost for 3 intervals disqualifies PTP. -/
  | ptpAnnounceTimeout
  /-- PPS_IN_EDGE (R263): A PPS_IN edge gives a phase measurement, and loads a pending TB_TOD_SET. -/
  | ppsInEdge
  /-- PPS_IN_TIMEOUT (R261): No PPS_IN edge within 1.5 s disqualifies PPS. -/
  | ppsInTimeout
  /-- HOLDOVER_EXPIRY (R264): HOLDOVER_S reaches HOLDOVER_LIMIT_S, and the state moves to FREERUN. -/
  | holdoverExpiry
  /-- TIDE_STEP (R267): A write to TB_STEP steps all tide-clock counters and shifts the lists and queued commits. -/
  | tideStep (stepNs : Word)
  /-- TOD_SET (R263): A write to TB_TOD_SET holds a seconds value for the next PPS_IN edge. -/
  | todSet (ns : Word)
  /-- TB_CFG_WRITE (R261): A write to TB_CFG re-ranks sources at once, or is ignored and sets CFG_REJECT. -/
  | tbCfgWrite (value : Word)
  /-- TB_TIME_READ (R259): A read of TB_TIME_LO latches the upper tide-clock bits into TB_TIME_HI. -/
  | tbTimeRead
  /-- PPS_OUT_PULSE (R263): PPS_OUT rises at each tide-clock whole second and falls after OUT_WIDTH_US. -/
  | ppsOutPulse
  /-- COMMIT_SUBMIT (R269): TOP_COMMIT_REQ SUBMIT is checked and queued with its groups sealed, or refused with a code. -/
  | commitSubmit (value : Word)
  /-- COMMIT_CANCEL (R272): TOP_COMMIT_REQ CANCEL removes a queued entry and unseals its groups. -/
  | commitCancel (value : Word)
  /-- COMMIT_APPLY (R271): At T, each half re-checks a queued entry and applies all its groups or refuses it whole. -/
  | commitApply
  /-- SNAPSHOT (R406): At T, each half copies its counters into the snapshot registers. -/
  | snapshot
  /-- MIRROR_CUT (R274): At T, an extra mirror cut is taken on both halves. -/
  | mirrorCut
  /-- STRAIT_DATA (R285): A DATA frame that passes every check is accepted in order, or triggers a NAK, or is dropped as a duplicate. -/
  | straitData (l : Half) (bytes : List Byte) (corrected : Nat)
  /-- STRAIT_ACK_ONLY (R288): An ACK_ONLY frame delivers an acknowledge and a credit count. -/
  | straitAckOnly (l : Half) (bytes : List Byte) (corrected : Nat)
  /-- STRAIT_NAK (R288): A NAK applies its acknowledge and starts a go-back-N replay. -/
  | straitNak (l : Half) (bytes : List Byte) (corrected : Nat)
  /-- STRAIT_TIME (R291): A TIME request is answered, or a TIME response completes a partner time measurement. -/
  | straitTime (l : Half) (bytes : List Byte) (corrected : Nat)
  /-- STRAIT_INIT (R293): An INIT frame is verified and matched, and answered with INIT_ACK, or initialisation fails. -/
  | straitInit (l : Half) (bytes : List Byte) (corrected : Nat)
  /-- STRAIT_INIT_ACK (R292): An INIT_ACK, with the device's own INIT_ACK sent, brings the link ACTIVE. -/
  | straitInitAck (l : Half) (bytes : List Byte) (corrected : Nat)
  /-- STRAIT_BAD_FRAME (R287): A frame that fails FEC, CRC, header or tag is discarded and triggers a NAK. -/
  | straitBadFrame (l : Half) (bytes : List Byte) (fecFail : Bool) (corrected : Nat)
  /-- STRAIT_FRAME_SEND (R283): The egress sends the next eligible frame by priority, credit and gate. -/
  | straitFrameSend (l : Half)
  /-- STRAIT_ACK_TIMEOUT (R286): An accepted frame or freed count not carried within ACK_MAX_DELAY_NS sends ACK_ONLY. -/
  | straitAckTimeout (l : Half)
  /-- STRAIT_REPLAY_TIMEOUT (R288): REPLAY_TIMEOUT_NS without progress of U starts a replay. -/
  | straitReplayTimeout (l : Half)
  /-- STRAIT_NO_PROGRESS (R288): NO_PROGRESS_US without progress takes the link down. -/
  | straitNoProgress (l : Half)
  /-- STRAIT_TIME_TICK (R291): Every 1 ms while ACTIVE, a TIME request is sent. -/
  | straitTimeTick (l : Half)
  /-- STRAIT_SIGNAL_DETECT (R292): Signal on an aligned lane pair in DETECT starts training. -/
  | straitSignalDetect (l : Half)
  /-- STRAIT_TRAIN_DONE (R292): Equalisation and lane test finish and the link enters INIT at the chosen width. -/
  | straitTrainDone (l : Half) (txLanes rxLanes : BitVec 8)
  /-- STRAIT_TRAIN_TIMEOUT (R292): 50 ms of training without success returns to DETECT. -/
  | straitTrainTimeout (l : Half)
  /-- STRAIT_INIT_TICK (R292): Every 10 µs in INIT, the link sends INIT. -/
  | straitInitTick (l : Half)
  /-- STRAIT_INIT_TIMEOUT (R293): 1 ms without INIT_ACK fails initialisation with TIMEOUT. -/
  | straitInitTimeout (l : Half)
  /-- STRAIT_RETRY_TIMER (R292): The wait in DOWN or after an INIT failure ends and the link re-enters DETECT. -/
  | straitRetryTimer (l : Half)
  /-- STRAIT_LANE_LOSS (R294): A lane loses lock for 2 µs and the receiver sends WIDTH_REQ. -/
  | straitLaneLoss (l : Half) (lost : BitVec 8)
  /-- WIDTH_REQ (R294): A WIDTH_REQ makes the transmitter finish its codeword, send WIDTH_MARK and narrow. -/
  | widthReq (l : Half) (group : Fin 8)
  /-- WIDTH_MARK (R294): A WIDTH_MARK makes the receiver follow the new lane group. -/
  | widthMark (l : Half) (group : Fin 8)
  /-- STRAIT_LOCK_LOSS_TIMEOUT (R295): Loss of lock on all active lanes for LOCK_LOSS_US takes the link down. -/
  | straitLockLossTimeout (l : Half)
  /-- STRAIT_RETRAIN (R292): TW_CTRL.RETRAIN takes an up link down and enters DETECT. -/
  | straitRetrain (l : Half)
  /-- TW_CFG_WRITE (R292): A write to TW_CFG enables or disables the link, or is ignored if out of range. -/
  | twCfgWrite (l : Half) (value : Word)
  /-- STRAIT_KEY_DRAINED (R296): With U = N, the transmitter makes the new key set current and resumes. -/
  | straitKeyDrained (l : Half)
  /-- STRAIT_KEY_SWITCH_TIMEOUT (R296): A drain not complete within 100 µs takes the link down. -/
  | straitKeySwitchTimeout (l : Half)
  /-- LINE_WR (R304): A received full-line mirror write is handled as a host write. -/
  | lineWr (l : Half) (vc : Fin 8)
  /-- LINE_WR_PTL (R304): A received partial mirror write is handled as a host partial write. -/
  | lineWrPtl (l : Half) (vc : Fin 8)
  /-- LINE_POISON (R304): A received LINE_POISON poisons the line. -/
  | linePoison (l : Half) (vc : Fin 8)
  /-- ZERO_RUN (R304): A received ZERO_RUN returns a run of pages to zero. -/
  | zeroRun (l : Half) (vc : Fin 8) (picks : List Nat)
  /-- COMMIT_ACK (R303): A COMMIT_ACK releases the completions of the SYNC writes it covers. -/
  | commitAck (l : Half) (vc : Fin 8)
  /-- COMMIT_ACK_SEND (R304): The partner sends COMMIT_ACK within ACK_MAX_DELAY_NS of a change in its committed count. -/
  | commitAckSend (l : Half)
  /-- PEER_REFUSE (R305): A PEER_REFUSE marks the line's extent dirty and records the refusal. -/
  | peerRefuse (l : Half) (vc : Fin 8)
  /-- CUT (R308): A received CUT is answered once every earlier message is committed. -/
  | cut (l : Half) (vc : Fin 8)
  /-- CUT_ACK_SEND (R308): Once every message before a cut is committed, the partner sends CUT_ACK. -/
  | cutAckSend (l : Half)
  /-- CUT_ACK (R309): A CUT_ACK advances the high-water mark and frees the log of that interval. -/
  | cutAck (l : Half) (vc : Fin 8)
  /-- ASYNC_CUT_TICK (R308): Every 8,000 TCLK cycles, each half cuts its ASYNC primaries and queues a CUT. -/
  | asyncCutTick (h : Half)
  /-- RS_LINE (R315): A received resync or repair line is buffered for its page. -/
  | rsLine (l : Half) (vc : Fin 8)
  /-- SLOT_DATA (R317): A received SLOT_DATA carries slot bytes of a compressed page. -/
  | slotData (l : Half) (vc : Fin 8)
  /-- PAGE_DONE (R316): The secondary applies the page under its lock and answers PAGE_ACK. -/
  | pageDone (l : Half) (vc : Fin 8) (picks : List Nat)
  /-- PAGE_ACK (R316): A PAGE_ACK releases the primary's page lock and may clear MIRROR_DIRTY on its extent. -/
  | pageAck (l : Half) (vc : Fin 8)
  /-- ROLE (R300): A ROLE message is matched against the domain's grant, which drives mirror state changes. -/
  | role (l : Half) (vc : Fin 8)
  /-- SET_FP (R317): A SET_FP records the partner's active static sets and fingerprints. -/
  | setFp (l : Half) (vc : Fin 8)
  /-- REPAIR_REQ (R318): A REPAIR_REQ makes the partner supply the non-zero pages of a range, or refuse it. -/
  | repairReq (l : Half) (vc : Fin 8)
  /-- MIR_ACK_TIMEOUT (R306): A SYNC write waiting beyond SYNC_ACK_TIMEOUT_US puts the domain in PRI_SOLO. -/
  | mirAckTimeout (d : Fin 1024)
  /-- RESYNC_PAGE_SEND (R315): The primary takes a page's lock and sends it as lines, a slot or a zero run. -/
  | resyncPageSend (h : Half) (d : Fin 1024) (errs : List Burst)
  /-- RING_ENABLE (R321): Writing ENABLE = 1 starts the ring or sets ERROR with a reason. -/
  | ringEnable (p : Fin 16) (ld : Fin 16) (r : Fin 4)
  /-- RING_DISABLE (R321): Writing ENABLE = 0 stops fetching and lets jobs in flight finish. -/
  | ringDisable (p : Fin 16) (ld : Fin 16) (r : Fin 4)
  /-- RING_TAIL_WRITE (R321): A write to TAIL offers new descriptors, or moves the ring to ERROR when out of range. -/
  | ringTailWrite (p : Fin 16) (ld : Fin 16) (r : Fin 4) (value : Word)
  /-- RING_ABORT_CLEAR (R331): ABORT_CLR invalidates every abort log entry. -/
  | ringAbortClear (p : Fin 16) (ld : Fin 16) (r : Fin 4)
  /-- DESCRIPTOR_FETCH (R322): A descriptor read returns, or a fetch error moves the ring to ERROR. -/
  | descriptorFetch (p : Fin 16) (ld : Fin 16) (r : Fin 4) (desc : Option (BitVec 512))
  /-- COPY (R325): A COPY job moves LEN bytes from host to host. -/
  | copy (p : Fin 16) (ld : Fin 16) (r : Fin 4) (idx : Nat) (source : Option (List Byte)) (refused : Bool)
  /-- FILL (R325): A FILL job writes a repeated pattern to host memory. -/
  | fill (p : Fin 16) (ld : Fin 16) (r : Fin 4) (idx : Nat) (refused : Bool)
  /-- DEFLATE (R327): A DEFLATE job compresses host data into one stream. -/
  | deflate (p : Fin 16) (ld : Fin 16) (r : Fin 4) (idx : Nat) (source : Option (List Byte)) (blocks : List Byte) (refused : Bool)
  /-- INFLATE (R328): An INFLATE job decodes one stream into host memory. -/
  | inflate (p : Fin 16) (ld : Fin 16) (r : Fin 4) (idx : Nat) (source : Option (List Byte)) (refused : Bool)
  /-- CRC (R325): A CRC job computes a check over host data. -/
  | crc (p : Fin 16) (ld : Fin 16) (r : Fin 4) (idx : Nat) (source : Option (List Byte))
  /-- LOAD_DOMAIN (R330): A LOAD_DOMAIN job writes host data into a domain line by line. -/
  | loadDomain (p : Fin 16) (ld : Fin 16) (r : Fin 4) (idx : Nat) (source : Option (List Byte))
  /-- STORE_DOMAIN (R330): A STORE_DOMAIN job reads domain lines into host memory. -/
  | storeDomain (p : Fin 16) (ld : Fin 16) (r : Fin 4) (idx : Nat) (refused : Bool)
  /-- JOB_COMPLETE (R322): A job ends: its completion record is written, HEAD advances and an interrupt may follow. -/
  | jobComplete (p : Fin 16) (ld : Fin 16) (r : Fin 4) (idx : Nat) (refused : Bool)
  /-- FAULT_RECORD_CLOSE (R338): 10 ms after its first detection, a fault record closes and is logged. -/
  | faultRecordClose (seq : BitVec 32)
  /-- FAULT_ACK (R338): A write to FLT_ACK acknowledges one or all records, closing them. -/
  | faultAck (value : Word)
  /-- UNIT_RESET_DONE (R342): A fenced unit's reset and test end, and it returns to service or stays fenced. -/
  | unitResetDone (unit : BitVec 16) (pass : Bool)
  /-- ITEM_RUN_CLOSE (R344): A run of failed lines ends at 1 ms and gives one aggregate record. -/
  | itemRunClose (unit : BitVec 16)
  /-- ERR_PHASE_END (R348): The 2 ms ERR_N hardware phase ends and a pending RELEASE takes effect. -/
  | errPhaseEnd
  /-- ERR_PIN_RELEASE (R348): RELEASE written to FLT_ERR_PIN_CTRL releases ERR_N, or is held pending or ignored. -/
  | errPinRelease
  /-- ERR_PIN_SW_ASSERT (R348): SW_ASSERT holds ERR_N asserted while it is 1. -/
  | errPinSwAssert (on : Bool)
  /-- ALARM_PHASE_END (R349): The 2 ms ALARM_N hardware phase ends. -/
  | alarmPhaseEnd
  /-- ALARM_PIN_RELEASE (R349): RELEASE written to FLT_ALARM_PIN_CTRL releases ALARM_N. -/
  | alarmPinRelease
  /-- GET_POISON_LIST (R345): Get Poison List returns the LD's poison entries in LD-DPA. -/
  | getPoisonList (p : Fin 16) (ld : Fin 16) (lineAddr len : Nat)
  /-- SCAN_MEDIA (R345): Scan Media starts reading every line of a range in the maintenance class. -/
  | scanMedia (p : Fin 16) (ld : Fin 16) (lineAddr len : Nat)
  /-- SCAN_MEDIA_DONE (R345): A scan finishes and its poisoned lines are listed. -/
  | scanMediaDone (p : Fin 16) (ld : Fin 16) (errs : List Burst)
  /-- GET_SCAN_MEDIA_CAPABILITIES (R345): Get Scan Media Capabilities reports on scanning. -/
  | getScanMediaCapabilities (p : Fin 16) (ld : Fin 16) (lineAddr len : Nat)
  /-- GET_SCAN_MEDIA_RESULTS (R345): Get Scan Media Results reports the scan's findings. -/
  | getScanMediaResults (p : Fin 16) (ld : Fin 16)
  /-- CLEAR_POISON (R345): Clear Poison performs a full-line write of the supplied data. -/
  | clearPoison (p : Fin 16) (ld : Fin 16) (lineAddr : Nat) (data : Line)
  /-- INJECT_POISON (R345): Inject Poison returns Unsupported. -/
  | injectPoison (p : Fin 16) (ld : Fin 16) (lineAddr : Nat)
  /-- GET_EVENT_RECORDS (R416): Get Event Records returns records from an event log. -/
  | getEventRecords (p : Fin 16) (ld : Fin 17) (log : Fin 4) (count : Nat)
  /-- NOP (R352): The vendor mailbox NOP command completes with no effect. -/
  | nop (p : Fin 16) (ld : Fin 17)
  /-- GET_FAULT_RECORD (R352): GET_FAULT_RECORD returns a record's host copy, or NOT_FOUND. -/
  | getFaultRecord (p : Fin 16) (ld : Fin 17)
  /-- MBOX_UNSUPPORTED (R352): Any other vendor mailbox command returns UNSUPPORTED. -/
  | mboxUnsupported (p : Fin 16) (ld : Fin 17) (opcode : BitVec 16)
  /-- DOMAIN_DROP_TIMEOUT (R354): After its last vote is withdrawn and the delay passes, a power domain drops to IDLE or SLEEP. -/
  | domainDropTimeout (n : Fin 33)
  /-- DOMAIN_LEVEL_CHANGE_DONE (R356): A power domain completes a level change and goes to the level its votes then call for. -/
  | domainLevelChangeDone (n : Fin 33)
  /-- DEEP_SLEEP_ENTRY_DONE (R359): DEEP_SLEEP entry completes and the held request slot is acted on. -/
  | deepSleepEntryDone
  /-- OFF_ENTRY_DONE (R359): OFF entry writes the clean-shutdown marker and powers off slots and rails. -/
  | offEntryDone
  /-- DEEP_SLEEP_EXIT_DONE (R362): Exit from DEEP_SLEEP completes and the device reads RUN, or enters DF. -/
  | deepSleepExitDone (badBanks : List (Fin 32)) (saveOk : Bool) (treeErrs : List (Fin 1024 × Nat × Burst))
  /-- MCTP_DEEP_SLEEP (R357): An MCTP power command requests DEEP_SLEEP, checked as a power-targets request. -/
  | mctpDeepSleep
  /-- MCTP_OFF (R359): An MCTP power command requests OFF. -/
  | mctpOff
  /-- MCTP_WAKE (R361): An MCTP power command WAKE wakes the device from DEEP_SLEEP. -/
  | mctpWake
  /-- WAKE_N (R361): WAKE_N held low for 1 µs wakes from DEEP_SLEEP or OFF, or is latched during a transition. -/
  | wakeN
  /-- WAKE_AT_REACHED (R361): The tide clock reaches PWR_WAKE_AT and wakes the device from DEEP_SLEEP. -/
  | wakeAtReached
  /-- VR_STEP_ACK (R364): A VR acknowledges a voltage step and the next step or frequency change proceeds. -/
  | vrStepAck (h : Half)
  /-- PWR_VR_NO_ACK (R364): A step not acknowledged within VR_TIMEOUT_US is recorded and the half stays at the lower frequency. -/
  | pwrVrNoAck (h : Half)
  /-- VR_STEP_RETRY (R364): Once per second, an unacknowledged voltage step is retried. -/
  | vrStepRetry (h : Half)
  /-- THERMAL_SAMPLE (R366): Every 1 ms, die temperatures are read and thermal caps applied. -/
  | thermalSample (tempA tempB tempShore : BitVec 8)
  /-- THERMAL_CAP_RELEASE (R366): After 100 ms below the release threshold, the thermal cap is removed. -/
  | thermalCapRelease (h : Half)
  /-- PWR_SUPPLY_WARN (R368): The card bus at or below WARN_MV for 2 µs applies the supply cap. -/
  | pwrSupplyWarn
  /-- PWR_SUPPLY_DIP (R368): After 1 ms of continuous recovery, the dip is recorded and the cap removed. -/
  | pwrSupplyDip
  /-- PWR_SUPPLY_RESET (R370): The bus at or below RESET_MV for 20 µs removes slots and rails and holds the device in reset. -/
  | pwrSupplyReset
  /-- SUPPLY_REBOOT (R370): After 100 ms of bus recovery, the device boots again. -/
  | supplyReboot
  /-- PWR_RAIL_FAULT (R369): A supervised rail outside ±5 % for 10 µs records a fault with its reaction. -/
  | pwrRailFault (point : Fin 16)
  /-- RAIL_POWER_GOOD (R421): A rail reports power-good and the sequencer enables the next step. -/
  | railPowerGood (rail : Fin 8)
  /-- RAIL_PG_TIMEOUT (R421): A rail without power-good in 5 ms makes the sequence retreat. -/
  | railPgTimeout
  /-- RAIL_SEQUENCE_RETRY (R421): 1 s after a failed sequence, the rails are sequenced up again. -/
  | railSequenceRetry
  /-- HSW_SEAT_CHANGE (R371): A seating pin changes, which starts or stops the seating timer or turns the gates off. -/
  | hswSeatChange (feedB : Bool) (low : Bool)
  /-- HSW_SEATING_DONE (R371): Both seating pins low for 100 ms start the ramp on the chosen feed. -/
  | hswSeatingDone
  /-- HSW_RAMP_DONE (R371): The bus reaches the feed and the gate goes fully on. -/
  | hswRampDone
  /-- HSW_INRUSH_SHORT (R371): Ramp current above 2 × ILIM_RAMP turns the gate off and latches the controller. -/
  | hswInrushShort
  /-- HSW_SOA_TIMEOUT (R371): The safe-operating-area timer reaches SOA_MS, turning the gate off and latching the controller. -/
  | hswSoaTimeout
  /-- HSW_OVERCURRENT (R372): Overcurrent on the active feed turns the gate off and latches the controller. -/
  | hswOvercurrent
  /-- HSW_EN_PIN_CHANGE (R371): HSW_EN_N changes, turning the gates off or clearing a latch. -/
  | hswEnPinChange (low : Bool) (highForMs : Bool)
  /-- HSW_CTRL_WRITE (R371): A write of HSW_CTRL.ENABLE turns the gates off or clears a latch. -/
  | hswCtrlWrite (value : Word)
  /-- FEED_FAIL (R373): The active feed fails and its gate turns off for a switch, or PWR_FEED_LOST is recorded. -/
  | feedFail (feedB : Bool)
  /-- FEED_DEAD_TIME_END (R373): After the 20 µs dead time, the other feed's gate turns on. -/
  | feedDeadTimeEnd
  /-- FEED_SWITCH_BACK (R373): The preferred feed good for 100 ms switches back break-before-make. -/
  | feedSwitchBack
  /-- HSW_SLOT_TRIP (R375): A slot fuse trips: both slots of the channel turn off and the channel is fenced. -/
  | hswSlotTrip (slot : Fin 48)
  /-- SLOT_ENABLE_WRITE (R375): A write to HSW_SLOT_EN powers slots with soft start or clears a latch. -/
  | slotEnableWrite (value : Word)
  /-- TELEMETRY_SAMPLE (R377): At each whole microsecond, every telemetry point is sampled. -/
  | telemetrySample (samples : List Nat)
  /-- CAPTURE_ARM (R377): Setting PWR_CAP_CFG.ARM schedules a capture of 4,096 samples. -/
  | captureArm (value : Word)
  /-- LOGBOOK_WRITE (R378): A logbook block is written and its wear counter advances. -/
  | logbookWrite (block : Fin 1984)
  /-- AUX_POWER_FALL (R422): AUX_3V3 falls below 2.70 V, resetting the always-on domain and turning every gate off. -/
  | auxPowerFall
  /-- AUX_POWER_RISE (R422): AUX_3V3 rises above 2.90 V and the always-on domain starts afresh. -/
  | auxPowerRise
  /-- COLD_RESET (R423): COLD_RST_N asserted for 1 µs or more resets all but the always-on domain, and a boot follows. -/
  | coldReset
  /-- BOOT_START (R379): At t = 0, the straps are latched and the logic rails are sequenced up. -/
  | bootStart (leaderSelA leaderSelB : Bool) (pairId : BitVec 2) (deviceId : BitVec 12)
  /-- IMAGE_CHECK_DONE (R382): The leader finishes reading and checking an image slot and accepts it or tries the other. -/
  | imageCheckDone (readFail : Bool)
  /-- BOOT_TRAIN_DONE (R389): Every channel has trained or been fenced and every set and key is loaded or refused, so APPLY starts. -/
  | bootTrainDone
  /-- BOOT_APPLY_DONE (R389): Every accepted tide-table takeover has taken place, and TIME_WAIT starts. -/
  | bootApplyDone
  /-- BOOT_TIME_WAIT_END (R391): TIME_WAIT ends at a step, lock or timeout, and Memory_Active is set. -/
  | bootTimeWaitEnd (elapsed : Bool)
  /-- ERASE_SLOT (R395): BOOT_FLASH ERASE_SLOT erases an image slot. -/
  | eraseSlot (slotB : Bool)
  /-- PROGRAM (R395): BOOT_FLASH PROGRAM writes the 4 KiB buffer to a block of a slot. -/
  | program (slotB : Bool) (block : Fin 8192)
  /-- VERIFY (R395): BOOT_FLASH VERIFY runs the slot checks without applying anything. -/
  | verify (slotB : Bool)
  /-- FLASH_OP_DONE (R395): A flash command ends with its result. -/
  | flashOpDone (err : Bool)
  /-- PMU_FREEZE_WRITE (R399): A write of PMU_GLOBAL.FREEZE stops or resumes every counter. -/
  | pmuFreezeWrite (value : Word)
  /-- PMU_CTL_WRITE (R399): A write to PMU_CTL_n reprograms a counter from the next cycle. -/
  | pmuCtlWrite (h : Half) (n : Fin 64) (value : Word)
  /-- PMU_COUNTER_WRITE (R399): A write to a counter sets its value. -/
  | pmuCounterWrite (h : Half) (fixed : Bool) (n : Fin 64) (value : Word)
  /-- SAMPLING_ENABLE (R401): Setting PMU_SMP_CFG.ENABLE loads the sampling count with a fresh draw. -/
  | samplingEnable (h : Half) (value : Word)
  /-- REG_READ (R408): A REG_READ command returns register values from a privileged-view offset. -/
  | regRead (path : RegPath) (offset count : Nat)
  /-- REG_WRITE (R408): A REG_WRITE command writes register values in ascending order. -/
  | regWrite (path : RegPath) (offset : Nat) (count : Nat) (values : List Word)
  /-- SHADOW_REVERT (R415): A write to TOP_SHADOW_CTRL.REVERT copies a group's values in effect into its shadows. -/
  | shadowRevert (value : Word)
  /-- READ_CLEAR (R410): An 8-byte read of an RC field returns it and clears it. -/
  | readClear (view : RegView) (offset : Nat) (lanes : Lanes)
  /-- REGISTER_WRITE (R14): A write to a register with no row of its own acts as its fields' access codes state. -/
  | registerWrite (view : RegView) (offset : Nat) (value : Word) (lanes : Lanes)
  /-- STRAIT_LOCK_RETURN (R295): Symbol lock returns on the active lanes of a Strait direction before LOCK_LOSS_US, so the link stays ACTIVE, the lock-loss count stops and the NO_PROGRESS timer resumes. -/
  | straitLockReturn (l : Half)
  /-- SUPPLY_RECOVERY (R368): The card bus rises above WARN_MV + HYST_MV, which starts the continuous-recovery timing that ends the supply cap or allows the reboot after a reset. -/
  | supplyRecovery
  /-- FEED_GOOD (R373): A feed rises to or above GOOD_MV, which sets its good status and starts the 100 ms count after which the device switches back to the preferred feed. -/
  | feedGood (feedB : Bool)
  deriving DecidableEq, Repr

end Sys2Proof
end

