-- ==== Sys2Proof/Machine/Bits.lean ====
section
/-! DEFINITION. Bit fields, byte lists and saturating counts: the helpers every meaning uses (00_scope R12). -/

namespace Sys2Proof.Machine

/-- Bits `lsb .. lsb + width - 1` of a number. -/
def bitsOf (n lsb width : Nat) : Nat := n / 2 ^ lsb % 2 ^ width

/-- A number with bits `lsb .. lsb + width - 1` replaced by `v`. -/
def withBits (n lsb width v : Nat) : Nat :=
  n % 2 ^ lsb + v % 2 ^ width * 2 ^ lsb + n / 2 ^ (lsb + width) * 2 ^ (lsb + width)

/-- Bit `i` of a number. -/
def bitAt (n i : Nat) : Bool := n / 2 ^ i % 2 == 1

/-- A value lies in a range. -/
def within (lo hi v : Nat) : Bool := decide (lo ≤ v ∧ v ≤ hi)

/-- 1 for true, 0 for false. -/
def b2n : Bool → Nat
  | true => 1
  | false => 0

/-- `v + k`, no higher than the largest value of `width` bits. -/
def satAdd (width v k : Nat) : Nat := min (v + k) (2 ^ width - 1)

/-- Even parity: the number of ones is even. -/
def ones : Nat → Nat → Nat
  | 0, _ => 0
  | k + 1, n => n % 2 + ones k (n / 2)

/-- Little-endian bytes of a number (00_scope R12). -/
def leBytes : Nat → Nat → List Byte
  | 0, _ => []
  | k + 1, n => BitVec.ofNat 8 n :: leBytes k (n / 256)

/-- The number that little-endian bytes hold. -/
def leNat : List Byte → Nat
  | [] => 0
  | b :: bs => b.toNat + 256 * leNat bs

/-- The number that big-endian bytes hold. -/
def beNat (bs : List Byte) : Nat := leNat bs.reverse

/-- Big-endian bytes of a number. -/
def beBytes (k n : Nat) : List Byte := (leBytes k n).reverse

/-- The 64 bytes of a line. -/
def lineBytes (l : Line) : List Byte := leBytes 64 l.toNat

/-- The line that up to 64 bytes make, zeros after them. -/
def bytesLine (bs : List Byte) : Line := BitVec.ofNat 512 (leNat (bs.take 64))

/-- The first `k` elements, padded with `d`. -/
def padTo {α : Type} (k : Nat) (d : α) (xs : List α) : List α :=
  xs.take k ++ List.replicate (k - xs.length) d

/-- A list cut into pieces of `k` elements; `fuel` bounds the number of pieces. -/
def chunksOf {α : Type} (k : Nat) : Nat → List α → List (List α)
  | 0, _ => []
  | fuel + 1, xs => if xs.isEmpty then [] else xs.take k :: chunksOf k fuel (xs.drop k)

/-- `n` divided by `d`, rounded up. -/
def ceilDiv (n d : Nat) : Nat := (n + d - 1) / d

/-- Element `i` of a list replaced. -/
def setAt {α : Type} (xs : List α) (i : Nat) (x : α) : List α := xs.set i x

/-- Element `i` of a list, `d` where there is none. -/
def nth {α : Type} (d : α) (xs : List α) (i : Nat) : α := (xs[i]?).getD d

/-- The low `w` bits of an integer, two's complement. -/
def intBits (w : Nat) (i : Int) : Nat := (i % (2 ^ w : Int)).toNat

/-- The integer that the low `w` bits hold, two's complement. -/
def signedOf (w n : Nat) : Int :=
  let m := n % 2 ^ w
  if m < 2 ^ (w - 1) then (m : Int) else (m : Int) - (2 ^ w : Int)

/-- The first element that satisfies `p`, and the list without it. -/
def takeFirst {α : Type} (p : α → Bool) : List α → Option (α × List α)
  | [] => none
  | x :: xs => if p x then some (x, xs) else (takeFirst p xs).map (fun r => (r.1, x :: r.2))

/-- The first element that satisfies `p` changed by `f`. -/
def mapFirst {α : Type} (p : α → Bool) (f : α → α) : List α → List α
  | [] => []
  | x :: xs => if p x then f x :: xs else x :: mapFirst p f xs

end Sys2Proof.Machine
end

