-- ==== Sys2Proof/Machine/Aes.lean ====
section
/-! DEFINITION. AES and the modes that the spec names: E4 (08_protection R202), XTS (R203), counter mode and the tag of a
line (R205), CMAC (R211), and AES-GCM-256 (R221, R225). A block is a list of 16 bytes in the standard's order, each byte a
number below 256. -/

namespace Sys2Proof.Machine

/-- A block or a byte string of numbers below 256. -/
abbrev Bytes := List Nat

/-! ### The cipher (FIPS 197) -/

/-- The S-box, 32 entries a row, entry x in bits 8(x mod 32)+7..8(x mod 32) of row x / 32. -/
def sboxRows : List Nat := [
  0xc072a49cafa2d4adf04759fa7dc982ca76abd7fe2b670130c56f6bf27b777c63,
  0x75b227ebe28012079a059618c323c7041531d871f1e5a534ccf73f362693fdb7,
  0xcf584c4a39becb6a5bb1fc20ed00d153842fe329b3d63b52a05a6e1b1a2c8309,
  0xd2f3ff1021dab6bcf5389d928f40a351a89f3c507f02f94585334d43fbaaefd0,
  0xdb0b5ede14b8ee4688902a22dc4f816073195d643d7ea7c41744975fec130ccd,
  0x08ae7a65eaf4566ca94ed58d6d37c8e779e4959162acd3c25c2406490a3a32e0,
  0x9e1dc186b95735610ef6034866b53e708a8bbd4b1f74dde8c6b4a61c2e2578ba,
  0x16bb54b00f2d99416842e6bf0d89a18cdf2855cee9871e9b948ed9691198f8e1]

/-- The inverse S-box, laid out alike. -/
def ibox : List Nat := [
  0xcbe9dec444438e3487ff2f9b8239e37cfbd7f3819ea340bf38a53630d56a0952,
  0x25d18b6d49a25b76b224d92866a12e084ec3fa420b954cee3d23c2a632947b54,
  0x849d8da75746155edab9edfd5048706c92b6655dcc5ca4d41698688664f6f872,
  0x6b8a130103bdafc1020f3fca8f1e2cd00645b3b80558e4f70ad3bc8c00abd890,
  0x6edf751ce837f9e28535ade72274ac9673e6b4f0cecff297eadc674f4111913a,
  0xf45acd78fec0db9a2079d2c64b3e56fc1bbe18aa0e62b76f89c5291d711af147,
  0xef9cc9939f7ae52d0d4ab519a97f51605fec8027591012b131c7078833a8dd1f,
  0x7d0c2155631469e126d677ba7e042b17619953833cbbebc8b0f52aae4d3be0a0]

/-- An entry of a table of 256 bytes. -/
def tab (t : List Nat) (x : Nat) : Nat := nth 0 t (x / 32) / 2 ^ (8 * (x % 32)) % 256

/-- The S-box. -/
def sbox (x : Nat) : Nat := tab sboxRows x

/-- Multiplication by x in GF(2^8). -/
def xtime (a : Nat) : Nat := if a < 128 then 2 * a else (2 * a - 256) ^^^ 0x1B

/-- Exclusive or of two byte strings. -/
def xorB (a b : Bytes) : Bytes := List.zipWith (· ^^^ ·) a b

/-- The words of the key schedule, newest first; `nk` words of key, `i` the next word's index. -/
def expandKey (nk : Nat) : Nat → Nat → Nat → List Bytes → List Bytes
  | 0, _, _, ws => ws
  | fuel + 1, i, rc, ws =>
    let prev := nth [] ws 0
    let old := nth [] ws (nk - 1)
    if i % nk = 0 then
      let t := (prev.drop 1 ++ prev.take 1).map sbox
      let t := match t with | a :: r => (a ^^^ rc) :: r | [] => []
      expandKey nk fuel (i + 1) (xtime rc) (xorB old t :: ws)
    else if nk > 6 ∧ i % nk = 4 then expandKey nk fuel (i + 1) rc (xorB old (prev.map sbox) :: ws)
    else expandKey nk fuel (i + 1) rc (xorB old prev :: ws)

/-- The round keys of a key of 16 or 32 bytes, in order (FIPS 197 section 5.2). -/
def roundKeys (key : Bytes) : List Bytes :=
  let nk := key.length / 4
  let ws := chunksOf 4 nk key
  chunksOf 16 (nk + 7) (expandKey nk (4 * (nk + 7) - nk) nk 1 ws.reverse).reverse.flatten

/-- ShiftRows: byte 4c + r comes from column c + r. -/
def shiftRows : Bytes → Bytes
  | [a0, a1, a2, a3, b0, b1, b2, b3, c0, c1, c2, c3, d0, d1, d2, d3] =>
    [a0, b1, c2, d3, b0, c1, d2, a3, c0, d1, a2, b3, d0, a1, b2, c3]
  | b => b

/-- Its inverse. -/
def unshiftRows : Bytes → Bytes
  | [a0, b1, c2, d3, b0, c1, d2, a3, c0, d1, a2, b3, d0, a1, b2, c3] =>
    [a0, a1, a2, a3, b0, b1, b2, b3, c0, c1, c2, c3, d0, d1, d2, d3]
  | b => b

/-- MixColumns: each column times the circulant matrix with first row 2, 3, 1, 1. -/
def mixColumns : Bytes → Bytes
  | a :: b :: c :: d :: r =>
    let t := a ^^^ b ^^^ c ^^^ d
    (a ^^^ t ^^^ xtime (a ^^^ b)) :: (b ^^^ t ^^^ xtime (b ^^^ c)) :: (c ^^^ t ^^^ xtime (c ^^^ d))
      :: (d ^^^ t ^^^ xtime (d ^^^ a)) :: mixColumns r
  | _ => []

/-- Its inverse, first row 14, 11, 13, 9: the matrix of MixColumns times the circulant one with first row 5, 0, 4, 0. -/
def unmixColumns : Bytes → Bytes
  | a :: b :: c :: d :: r =>
    let u := xtime (xtime (a ^^^ c))
    let v := xtime (xtime (b ^^^ d))
    mixColumns [a ^^^ u, b ^^^ v, c ^^^ u, d ^^^ v] ++ unmixColumns r
  | _ => []

/-- The rounds after the first key: the last one has no MixColumns. -/
def encRounds : List Bytes → Bytes → Bytes
  | [], b => b
  | [k], b => xorB (shiftRows (b.map sbox)) k
  | k :: ks, b => encRounds ks (xorB (mixColumns (shiftRows (b.map sbox))) k)

/-- The cipher under expanded round keys. -/
def aesWith (ks : List Bytes) (b : Bytes) : Bytes :=
  match ks with
  | [] => b
  | k :: ks => encRounds ks (xorB b k)

/-- The inverse cipher's rounds, over the round keys from the last. -/
def decRounds : List Bytes → Bytes → Bytes
  | [], b => b
  | [k], b => xorB b k
  | k :: ks, b =>
    let b := (unshiftRows (xorB b k)).map (tab ibox)
    match ks with
    | [] => b
    | [k0] => xorB b k0
    | _ => decRounds' ks b
where
  /-- A middle round: key, inverse MixColumns, inverse ShiftRows, inverse SubBytes; the last key alone ends it. -/
  decRounds' : List Bytes → Bytes → Bytes
    | [], b => b
    | [k], b => xorB b k
    | k :: ks, b => decRounds' ks ((unshiftRows (unmixColumns (xorB b k))).map (tab ibox))

/-- The inverse cipher under expanded round keys. -/
def unaesWith (ks : List Bytes) (b : Bytes) : Bytes := decRounds ks.reverse b

/-- E4: the first key and rounds 1 to 4 in full, MixColumns in round 4, no further rounds (R202). -/
def e4 (key b : Bytes) : Bytes :=
  match roundKeys key with
  | k0 :: ks => (ks.take 4).foldl (fun b k => xorB (mixColumns (shiftRows (b.map sbox))) k) (xorB b k0)
  | [] => b

/-! ### Little-endian numbers and byte strings -/

/-- Bytes of a number, little-endian (00_scope R12). -/
def leB : Nat → Nat → Bytes
  | 0, _ => []
  | k + 1, n => n % 256 :: leB k (n / 256)

/-- The number that little-endian bytes hold. -/
def ofLeB : Bytes → Nat
  | [] => 0
  | b :: bs => b + 256 * ofLeB bs

/-- Bytes of a number, big-endian, and back. -/
def beB (k n : Nat) : Bytes := (leB k n).reverse
def ofBeB (b : Bytes) : Nat := ofLeB b.reverse

/-! ### XTS (IEEE 1619; R203) -/

/-- The tweak times α: the number that the block holds, least significant byte first, times x in GF(2^128). -/
def xtsDouble (t : Nat) : Nat := (2 * t % 2 ^ 128) ^^^ (if t / 2 ^ 127 % 2 = 1 then 0x87 else 0)

/-- The blocks of a data unit through `f`, each between two additions of its tweak. -/
def xtsBlocks (f : Bytes → Bytes) : Nat → List Bytes → List Bytes
  | _, [] => []
  | t, b :: bs => let w := leB 16 t; xorB (f (xorB b w)) w :: xtsBlocks f (xtsDouble t) bs

/-- A data unit encrypted or decrypted: Key1 does the blocks, Key2 the tweak. -/
def xts (dec : Bool) (key1 key2 : Bytes) (tweak : Nat) (data : Bytes) : Bytes :=
  let ks := roundKeys key1
  let t := ofLeB (aesWith (roundKeys key2) (leB 16 tweak))
  (xtsBlocks (if dec then unaesWith ks else aesWith ks) t (chunksOf 16 (data.length / 16 + 1) data)).flatten

/-! ### GHASH and GCM -/

/-- Multiplication in the field of GCM: bit 0 of the field is the most significant bit of the number. -/
def ghMul : Nat → Nat → Nat → Nat → Nat
  | 0, _, _, z => z
  | k + 1, x, v, z =>
    ghMul k x (v / 2 ^^^ (if v % 2 = 1 then 0xE1 * 2 ^ 120 else 0)) (if x / 2 ^ k % 2 = 1 then z ^^^ v else z)

/-- GHASH over whole blocks, big-endian. -/
def ghash (h : Nat) (blocks : List Bytes) : Nat := blocks.foldl (fun y b => ghMul 128 (y ^^^ ofBeB b) h 0) 0

/-- Blocks of 16 bytes, the last padded with zeros. -/
def padBlocks (b : Bytes) : List Bytes := (chunksOf 16 (b.length / 16 + 1) b).map (padTo 16 0)

/-- Counter mode from a counter block, the last 32 bits counting. -/
def gctr (ks : List Bytes) : Nat → List Bytes → List Bytes
  | _, [] => []
  | ctr, b :: bs =>
    let next := ctr / 2 ^ 32 * 2 ^ 32 + (ctr + 1) % 2 ^ 32
    xorB b (aesWith ks (beB 16 ctr)) :: gctr ks next bs

/-- AES-GCM with a 96-bit IV: the text through counter mode, and the tag over additional data and ciphertext. -/
def gcmText (key iv text : Bytes) : Bytes :=
  (gctr (roundKeys key) (ofBeB iv * 2 ^ 32 + 2) (chunksOf 16 (text.length / 16 + 1) text)).flatten
def gcmTag (key iv aad cipher : Bytes) : Bytes :=
  let ks := roundKeys key
  let h := ofBeB (aesWith ks (List.replicate 16 0))
  let lens := beB 8 (8 * aad.length) ++ beB 8 (8 * cipher.length)
  xorB (beB 16 (ghash h (padBlocks aad ++ padBlocks cipher ++ [lens]))) (aesWith ks (beB 16 (ofBeB iv * 2 ^ 32 + 1)))

/-! ### CMAC (R211) -/

/-- Doubling of a subkey, most significant bit first. -/
def cmacDouble (x : Nat) : Nat := (2 * x % 2 ^ 128) ^^^ (if x / 2 ^ 127 % 2 = 1 then 0x87 else 0)

/-- AES-CMAC of a message of whole blocks. -/
def cmac (key msg : Bytes) : Bytes :=
  let ks := roundKeys key
  let k1 := cmacDouble (ofBeB (aesWith ks (List.replicate 16 0)))
  let bs := chunksOf 16 (msg.length / 16 + 1) msg
  let n := bs.length
  ((List.zip (List.range n) bs).foldl (fun y ib =>
    let b := if ib.1 + 1 = n then xorB ib.2 (beB 16 k1) else ib.2
    aesWith ks (xorB y b)) (List.replicate 16 0))

end Sys2Proof.Machine
end

