-- ==== Sys2Proof/Machine/Ecc.lean ====
section
/-! DEFINITION. The DRAM check code RS(80,64), the poison mark and the decode outcomes (05_dram R134, R137 to R139, R143). -/

namespace Sys2Proof.Machine

/-- The generator polynomial without its leading term, times α^i, coefficient of x^j in bits 8j+7..8j (R137). -/
def rsGen : List Nat := [
  0x3b0d68bd44d11e08a34129e56232243b, 0x761ad06788bf3c105b8252d7c4644876,
  0xec34bdce0d637820b619a4b395c890ec, 0xc56867811ac6f0407132557b378d3dc5,
  0x97d0ce1f3491fd80e264aaf66e077a97, 0x33bd813e683fe71dd9c849f1dc0ef433,
  0x66671f7cd07ed33aaf8d92ffa51cf566, 0xccce3ef8bdfcbb74430739e35738f7cc]

/-- The whole generator polynomial scaled so that its constant term is α^i: what is added before a division by x. -/
def rsGenDown : List Nat := [
  0xa90116b0fa8bd4b22148bc0c8cde891a01, 0x4f022c7de90bb5794290651805a10f3402,
  0x9e0458facf1677f2843dca300a5f1e6804, 0x2108b0e9832ceef9157a896014be3cd008,
  0x42107dcf1b58c1ef2af40fc0286178bd10, 0x8420fa8336b09fc354f51e9d50c2f06720,
  0x1540e91b6c7d239ba8f73c27a099fdce40, 0x2a80cf36d8fa462b4df3784e5d2fe78180]

/-- The sum of the polynomials that the bits of `v` select. -/
def pickXor : Nat → List Nat → Nat
  | _, [] => 0
  | v, g :: gs => (if v % 2 = 1 then g else 0) ^^^ pickXor (v / 2) gs

/-- A remainder times x plus nothing, with `v` added at the top: one step of the division by the generator. -/
def rsStep (r v : Nat) : Nat := (r * 256 % 2 ^ 128) ^^^ pickXor (r / 2 ^ 120 ^^^ v) rsGen

/-- The check symbols of 64 data symbols, symbol `i` in bits 8i+7..8i: the remainder of their polynomial (R137). -/
def rsCheck (data : Nat) : Nat :=
  (List.range 64).foldl (fun r i => rsStep r (data / 2 ^ (8 * (63 - i)) % 256)) 0

/-- A remainder divided by x modulo the generator. -/
def rsDown (r : Nat) : Nat := (r ^^^ pickXor (r % 256) rsGenDown) / 256

/-- A remainder divided by x `n` times. -/
def rsDowns : Nat → Nat → Nat
  | 0, r => r
  | n + 1, r => rsDowns n (rsDown r)

/-- Nibble of a line that nibble `n` of the 64 data symbols holds: symbol 8d + k has beat 2k in bits 3..0 and beat 2k + 1
in bits 7..4, and lanes 4d to 4d + 3 of beat b carry half of byte 4b + d / 2 (R134, R137). -/
def nibbleAt (n : Nat) : Nat :=
  let d := n / 16
  let k := n / 2 % 8
  2 * (4 * (2 * k + n % 2) + d / 2) + d % 2

/-- The 64 data symbols of a line. -/
def lineSyms (l : Nat) : Nat :=
  (List.range 128).foldl (fun a n => a + l / 2 ^ (4 * nibbleAt n) % 16 * 2 ^ (4 * n)) 0

/-- The line that 64 data symbols hold. -/
def symsLine (x : Nat) : Nat :=
  (List.range 128).foldl (fun a n => a + x / 2 ^ (4 * n) % 16 * 2 ^ (4 * nibbleAt n)) 0

/-- The pattern P of the poison mark: byte j is 0xA5 XOR j (R138). -/
def poisonPattern : Nat := (List.range 16).foldl (fun a j => a + (0xA5 ^^^ j) * 2 ^ (8 * j)) 0

/-- The codeword of a line, with or without the poison mark (R137, R138). -/
def encodeLine (l : Line) (poison : Bool) : Burst :=
  let d := lineSyms l.toNat
  BitVec.ofNat 640 (d + (rsCheck d ^^^ (if poison then poisonPattern else 0)) * 2 ^ 512)

/-- An error confined to one device with this remainder: the device and its eight symbols (R139). Devices 8 and 9 hold
the check symbols; device `d` below 8 holds x^(8d+16) to x^(8d+23). -/
def oneDevice (r : Nat) : Option (Nat × Nat) :=
  if r < 2 ^ 64 then some (8, r)
  else if r % 2 ^ 64 = 0 then some (9, r / 2 ^ 64)
  else
    let rec go : Nat → Nat → Nat → Option (Nat × Nat)
      | 0, _, _ => none
      | n + 1, d, r => if r < 2 ^ 64 then some (d, r) else go n (d + 1) (rsDowns 8 r)
    go 8 0 (rsDowns 16 r)

/-- What decoding a burst came to: the outcome of Table 5.5, the line as corrected, and the device corrected. -/
structure Decoded where
  outcome : Nat
  line : Line
  device : Nat
  deriving DecidableEq, Repr

/-- The line with one device's symbols corrected. -/
def fixLine (data : Nat) (e : Nat × Nat) : Line :=
  BitVec.ofNat 512 (symsLine (if e.1 < 8 then data ^^^ (e.2 * 2 ^ (64 * e.1)) else data))

/-- The decoder: the first outcome of Table 5.5 whose condition holds (R139). -/
def decodeBurst (b : Burst) : Decoded :=
  let data := b.toNat % 2 ^ 512
  let r := rsCheck data ^^^ (b.toNat / 2 ^ 512)
  let plain := BitVec.ofNat 512 (symsLine data)
  if r = 0 then ⟨1, plain, 0⟩
  else if r = poisonPattern then ⟨2, plain, 0⟩
  else
    match oneDevice r with
    | some e => ⟨3, fixLine data e, e.1⟩
    | none =>
      match oneDevice (r ^^^ poisonPattern) with
      | some e => ⟨4, fixLine data e, e.1⟩
      | none => ⟨5, plain, 0⟩

/-- The burst bits that injection mask bit `i` flips: lane i mod 40 of beat i / 40 (R134, R143). -/
def maskBit (i : Nat) : Nat :=
  let l := i % 40
  let b := i / 40
  8 * (8 * (l / 4) + b / 2) + 4 * (b % 2) + l % 4

/-- The burst pattern of an injection mask of 640 bits (R143). -/
def maskBurst (m : Nat) : Burst :=
  BitVec.ofNat 640 ((List.range 640).foldl (fun a i => if bitAt m i then a + 2 ^ maskBit i else a) 0)

end Sys2Proof.Machine
end

