-- ==== Sys2Proof/Config.lean ====
section
/-! DEFINITION. The free values: what the spec leaves open after a step that completes.
Each is a constant with no body, applied to the State field `free`, a plain counter that a step reads and
advances (log 5); no proof can see a value of it. -/

namespace Sys2Proof

/-- An undefined line: the bytes of a merge into a poisoned line (04_request R108), the content of a line that
nothing holds (05_dram R151), random bytes. -/
opaque Config.freeLine : Nat → Line

/-- A random natural number of the device's generator: the sampling draw of 18_pmu R401 and the boot nonce of
08_protection R209. -/
opaque Config.freeNat : Nat → Nat

/-- A latency or bandwidth figure of CDAT for a traffic class, a tier policy and a figure's number: the spec states no
figures (02_host_ports R57). -/
opaque Config.cdatFigure : Nat → Nat → Nat → Nat

end Sys2Proof
end

