-- ==== Sys2Proof/Machine/Names.lean ====
section
/-! DEFINITION. The name codes of fault records (15_faults Table 15.6; 16_power Table 16.13; 17_boot Table 17.8) and the
unit identities (15_faults Table 15.1). -/

namespace Sys2Proof.Machine

/-- Event records that are no fault records, by names of the model's own above the 16 bits of a name code (log 132): lines lost
with a port (02_host_ports R68), a write discarded at the elastic ceiling (03_domains R90), an extent the post-fence walk
retired (03_domains R91), a zeroing run that left pages poisoned (03_domains R432). -/
abbrev eHpLinesLost : Nat := 0x10001
abbrev eDomCeilingReached : Nat := 0x10002
abbrev eMapExtentRetired : Nat := 0x10003
abbrev eMapZeroNoMedia : Nat := 0x10004

/-- TOP_LEADER_HS_FAIL. -/
abbrev cTopLeaderHsFail : Nat := 0x0101
/-- ROLE_CONFLICT. -/
abbrev cRoleConflict : Nat := 0x0102
/-- TOP_D2D_REPLAYED. -/
abbrev cTopD2dReplayed : Nat := 0x0103
/-- TOP_D2D_LINK_FAIL. -/
abbrev cTopD2dLinkFail : Nat := 0x0104
/-- TOP_SHORE_PORT_FAIL. -/
abbrev cTopShorePortFail : Nat := 0x0105
/-- TOP_CORE_LOST. -/
abbrev cTopCoreLost : Nat := 0x0106
/-- TOP_SRAM_BIST_FAIL. -/
abbrev cTopSramBistFail : Nat := 0x0107
/-- TOP_SRAM_UE. -/
abbrev cTopSramUe : Nat := 0x0108
/-- TOP_SRAM_GROUP_FAIL. -/
abbrev cTopSramGroupFail : Nat := 0x0109
/-- FLT_RING_WRAP. -/
abbrev cFltRingWrap : Nat := 0x0201
/-- FLT_ITEM_FAILED. -/
abbrev cFltItemFailed : Nat := 0x0202
/-- HP_CFG_INVALID. -/
abbrev cHpCfgInvalid : Nat := 0x0301
/-- HP_CFG_OVERLAP. -/
abbrev cHpCfgOverlap : Nat := 0x0302
/-- HP_FLIT_MODE_UNSUP. -/
abbrev cHpFlitModeUnsup : Nat := 0x0303
/-- HP_WIDTH_DEGRADE. -/
abbrev cHpWidthDegrade : Nat := 0x0304
/-- MAP_DESC_CHECK. -/
abbrev cMapDescCheck : Nat := 0x0401
/-- MAP_ENTRY_INVALID. -/
abbrev cMapEntryInvalid : Nat := 0x0402
/-- MAP_ADDR_INVALID. -/
abbrev cMapAddrInvalid : Nat := 0x0403
/-- MAP_META_REPAIRED. -/
abbrev cMapMetaRepaired : Nat := 0x0404
/-- MAP_META_LOST. -/
abbrev cMapMetaLost : Nat := 0x0405
/-- MAP_META_SINGLE. -/
abbrev cMapMetaSingle : Nat := 0x0406
/-- RQ_PARITY_REPLAYED. -/
abbrev cRqParityReplayed : Nat := 0x0501
/-- RQ_PARITY_FAIL. -/
abbrev cRqParityFail : Nat := 0x0502
/-- RQ_RESERVE_INVALID. -/
abbrev cRqReserveInvalid : Nat := 0x0503
/-- RQ_BI_TIMEOUT. -/
abbrev cRqBiTimeout : Nat := 0x0504
/-- DMC_CE. -/
abbrev cDmcCe : Nat := 0x0601
/-- DMC_UE. -/
abbrev cDmcUe : Nat := 0x0602
/-- DMC_CA_PARITY. -/
abbrev cDmcCaParity : Nat := 0x0603
/-- DMC_CA_PARITY_FAIL. -/
abbrev cDmcCaParityFail : Nat := 0x0604
/-- DMC_MODULE_UNSUPPORTED. -/
abbrev cDmcModuleUnsupported : Nat := 0x0605
/-- DMC_POPULATION_INVALID. -/
abbrev cDmcPopulationInvalid : Nat := 0x0606
/-- DMC_TRAIN_FAIL. -/
abbrev cDmcTrainFail : Nat := 0x0607
/-- DMC_REFRESH_FORCED. -/
abbrev cDmcRefreshForced : Nat := 0x0608
/-- DMC_PPR_FAIL. -/
abbrev cDmcPprFail : Nat := 0x0609
/-- DMC_ROW_RETIRED. -/
abbrev cDmcRowRetired : Nat := 0x060A
/-- DMC_RETIRE_DEFERRED. -/
abbrev cDmcRetireDeferred : Nat := 0x060B
/-- SHG_ILLEGAL_CODE. -/
abbrev cShgIllegalCode : Nat := 0x0701
/-- SHG_DIST_BEYOND_HISTORY. -/
abbrev cShgDistBeyondHistory : Nat := 0x0702
/-- SHG_LEN_OVERRUN. -/
abbrev cShgLenOverrun : Nat := 0x0703
/-- SHG_LEN_UNDERRUN. -/
abbrev cShgLenUnderrun : Nat := 0x0704
/-- SHG_TABLE_INVALID. -/
abbrev cShgTableInvalid : Nat := 0x0705
/-- SHG_HDR_INVALID. -/
abbrev cShgHdrInvalid : Nat := 0x0706
/-- SHG_CRC_MISMATCH. -/
abbrev cShgCrcMismatch : Nat := 0x0707
/-- SHG_RECHECK_FAIL. -/
abbrev cShgRecheckFail : Nat := 0x0708
/-- SHG_DECODER_MISMATCH. -/
abbrev cShgDecoderMismatch : Nat := 0x0709
/-- SHG_COMP_CLUSTER_FAIL. -/
abbrev cShgCompClusterFail : Nat := 0x070A
/-- SHG_DECOMP_CLUSTER_FAIL. -/
abbrev cShgDecompClusterFail : Nat := 0x070B
/-- SHG_PROMOTE_NO_MEDIA. -/
abbrev cShgPromoteNoMedia : Nat := 0x070C
/-- TIER_LOST_WRITE. -/
abbrev cTierLostWrite : Nat := 0x0801
/-- TIER_COMMIT_NO_MEDIA. -/
abbrev cTierCommitNoMedia : Nat := 0x0802
/-- SECURITY_ALARM. -/
abbrev cSecurityAlarm : Nat := 0x0901
/-- PROT_TREE_REBUILT. -/
abbrev cProtTreeRebuilt : Nat := 0x0902
/-- PROT_SUBTREE_FENCED. -/
abbrev cProtSubtreeFenced : Nat := 0x0903
/-- PROT_ROOT_PARITY. -/
abbrev cProtRootParity : Nat := 0x0904
/-- PROT_MAJOR_EXHAUSTED. -/
abbrev cProtMajorExhausted : Nat := 0x0905
/-- PROT_UNWRAP_FAIL. -/
abbrev cProtUnwrapFail : Nat := 0x0906
/-- PROT_STRAIT_IV_EXHAUSTED. -/
abbrev cProtStraitIvExhausted : Nat := 0x0907
/-- TT_OVERSIZE. -/
abbrev cTtOversize : Nat := 0x0A01
/-- QOS_G0_VIOLATION. -/
abbrev cQosG0Violation : Nat := 0x0A02
/-- TB_ALIGN_ERR. -/
abbrev cTbAlignErr : Nat := 0x0B01
/-- TW_REPLAY. -/
abbrev cTwReplay : Nat := 0x0C01
/-- TW_WIDTH_DEGRADE. -/
abbrev cTwWidthDegrade : Nat := 0x0C02
/-- TW_INIT_FAIL. -/
abbrev cTwInitFail : Nat := 0x0C03
/-- TW_LINK_DOWN. -/
abbrev cTwLinkDown : Nat := 0x0C04
/-- MIR_SOLO. -/
abbrev cMirSolo : Nat := 0x0D01
/-- MIR_ACK_TIMEOUT. -/
abbrev cMirAckTimeout : Nat := 0x0D02
/-- MIR_PEER_REFUSE. -/
abbrev cMirPeerRefuse : Nat := 0x0D03
/-- MIR_GRANT_MISMATCH. -/
abbrev cMirGrantMismatch : Nat := 0x0D04
/-- MIR_REJOIN_EXPIRED. -/
abbrev cMirRejoinExpired : Nat := 0x0D05
/-- MIR_YIELD. -/
abbrev cMirYield : Nat := 0x0D06
/-- MIR_ROLE_TIE. -/
abbrev cMirRoleTie : Nat := 0x0D07
/-- MIR_ORPHANED. -/
abbrev cMirOrphaned : Nat := 0x0D08
/-- MIR_WRITE_DROPPED. -/
abbrev cMirWriteDropped : Nat := 0x0D09
/-- PWR_SUPPLY_WARN. -/
abbrev cPwrSupplyWarn : Nat := 0x0E01
/-- PWR_SUPPLY_DIP. -/
abbrev cPwrSupplyDip : Nat := 0x0E02
/-- PWR_SUPPLY_RESET. -/
abbrev cPwrSupplyReset : Nat := 0x0E03
/-- PWR_UNCLEAN_LOSS. -/
abbrev cPwrUncleanLoss : Nat := 0x0E04
/-- PWR_FEED_SWITCH. -/
abbrev cPwrFeedSwitch : Nat := 0x0E05
/-- PWR_FEED_LOST. -/
abbrev cPwrFeedLost : Nat := 0x0E06
/-- PWR_RAIL_FAULT. -/
abbrev cPwrRailFault : Nat := 0x0E07
/-- PWR_VR_NO_ACK. -/
abbrev cPwrVrNoAck : Nat := 0x0E08
/-- PWR_THERM_THROTTLE. -/
abbrev cPwrThermThrottle : Nat := 0x0E09
/-- PWR_THERMTRIP. -/
abbrev cPwrThermtrip : Nat := 0x0E0A
/-- PWR_WAKE_SUPERSEDED. -/
abbrev cPwrWakeSuperseded : Nat := 0x0E0B
/-- PWR_RETENTION_DISCARD. -/
abbrev cPwrRetentionDiscard : Nat := 0x0E0C
/-- PWR_SAVE_LOST. -/
abbrev cPwrSaveLost : Nat := 0x0E0D
/-- PWR_REQUEST_DISCARDED. -/
abbrev cPwrRequestDiscarded : Nat := 0x0E0E
/-- HSW_INRUSH_SHORT. -/
abbrev cHswInrushShort : Nat := 0x0E21
/-- HSW_SOA_TIMEOUT. -/
abbrev cHswSoaTimeout : Nat := 0x0E22
/-- HSW_OVERCURRENT. -/
abbrev cHswOvercurrent : Nat := 0x0E23
/-- HSW_SLOT_TRIP. -/
abbrev cHswSlotTrip : Nat := 0x0E24
/-- LOGBOOK_SPARE_USED. -/
abbrev cLogbookSpareUsed : Nat := 0x0E31
/-- LOGBOOK_WORN. -/
abbrev cLogbookWorn : Nat := 0x0E32
/-- BOOT_SLOT_INVALID. -/
abbrev cBootSlotInvalid : Nat := 0x0F01
/-- BOOT_NO_IMAGE. -/
abbrev cBootNoImage : Nat := 0x0F02
/-- BOOT_PATCH_SKIPPED. -/
abbrev cBootPatchSkipped : Nat := 0x0F03
/-- BOOT_RECORD_IGNORED. -/
abbrev cBootRecordIgnored : Nat := 0x0F04
/-- BOOT_KEY_REFUSED. -/
abbrev cBootKeyRefused : Nat := 0x0F05
/-- BOOT_SET_REFUSED. -/
abbrev cBootSetRefused : Nat := 0x0F06
/-- BOOT_COMMIT_REFUSED. -/
abbrev cBootCommitRefused : Nat := 0x0F07
/-- BOOT_TIME_WAIT_EXPIRED. -/
abbrev cBootTimeWaitExpired : Nat := 0x0F08
/-- BOOT_ARB_FROZEN. -/
abbrev cBootArbFrozen : Nat := 0x0F09
/-- BOOT_FLASH_ERR. -/
abbrev cBootFlashErr : Nat := 0x0F0A

/-- Classes (15_faults Table 15.3). -/
abbrev clsCe : Nat := 0
abbrev clsUcr : Nat := 1
abbrev clsUcf : Nat := 2
abbrev clsDf : Nat := 3

/-- Unit identities (15_faults Table 15.1). -/
def uChannel (c : Nat) : Nat := 0x1000 + c
def uPort (p : Nat) : Nat := 0x2000 + p
def uComp (h k : Nat) : Nat := 0x3000 + 8 * h + k
def uDecomp (h k : Nat) : Nat := 0x4000 + 8 * h + k
def uCrypto (h k : Nat) : Nat := 0x5000 + 6 * h + k
def uSram (h g : Nat) : Nat := 0x6000 + 16 * h + g
def uStrait (l : Nat) : Nat := 0x7000 + l
def uD2d : Nat := 0x8000
def uHalf (h : Nat) : Nat := 0x9000 + h
def uDevice : Nat := 0xA000

/-- The crypto cluster that serves a device channel (15_faults Table 15.1). -/
def uCryptoOf (c : Nat) : Nat := uCrypto (c / 12) (c % 12 / 2)

/-- The half that contains a unit, where it has one (15_faults Table 15.1). -/
def unitHalf (u : Nat) : Option Nat :=
  let i := u % 0x1000
  match u / 0x1000 with
  | 1 => some (i / 12)
  | 2 => some (i / 8)
  | 3 => some (i / 8)
  | 4 => some (i / 8)
  | 5 => some (i / 6)
  | 6 => some (i / 16)
  | 7 => some i
  | 9 => some i
  | _ => none

/-- Unit `u` is unit `x` or lies in it (15_faults R334, Table 15.1). -/
def unitIn (u x : Nat) : Bool :=
  u == x || (x / 0x1000 == 9 && (match unitHalf u with | some h => h == x % 0x1000 | none => false))

/-- Unit `u` is a neighbour of unit `x` (15_faults Table 15.2). -/
def unitNear (u x : Nat) : Bool :=
  let i := x % 0x1000
  match x / 0x1000 with
  | 1 => u == uCryptoOf i || (u / 0x1000 == 4 && unitHalf u == some (i / 12)) || u == uHalf (i / 12)
  | 2 => u == uHalf (i / 8)
  | 3 => u == uHalf (i / 8)
  | 4 => u == uHalf (i / 8)
  | 5 => u == uChannel (i / 6 * 12 + i % 6 * 2) || u == uChannel (i / 6 * 12 + i % 6 * 2 + 1)
      || u == 0x5000 + (if i % 2 = 0 then i + 1 else i - 1)
  | 6 => u == uHalf (i / 16)
  | 7 => u == uHalf i
  | 8 => u == uHalf 0 || u == uHalf 1
  | 9 => u == uD2d || u == uHalf (1 - i)
  | _ => false

end Sys2Proof.Machine
end

