-- ==== Sys2Proof/Machine/Cells.lean ====
section
/-! DEFINITION. Sparse stores: a list of (key, value) pairs, keys strictly rising, no pair equal to what an
unlisted key reads as. Every sparse piece of state (registers, DRAM lines, page entries, tags, ...) uses it. -/

namespace Sys2Proof.Machine

/-- A sparse store. -/
abbrev Cells (α : Type) := List (Nat × α)

/-- The value at key `k`; `d` is what an unlisted key reads as. -/
def cellGet {α : Type} (d : α) : Cells α → Nat → α
  | [], _ => d
  | (j, v) :: r, k => if k = j then v else if k < j then d else cellGet d r k

/-- The store with key `k` set to `v`; writing `d`, what `k` reads as unlisted, removes the pair. -/
def cellPut {α : Type} [DecidableEq α] (d : α) : Cells α → Nat → α → Cells α
  | [], k, v => if v = d then [] else [(k, v)]
  | (j, u) :: r, k, v =>
    if k = j then (if v = d then r else (k, v) :: r)
    else if k < j then (if v = d then (j, u) :: r else (k, v) :: (j, u) :: r)
    else (j, u) :: cellPut d r k v

/-- All keys are above `lo`, strictly rising, and no pair holds its key's unlisted value. -/
def cellsFrom {α : Type} [DecidableEq α] (d : Nat → α) : Option Nat → Cells α → Bool
  | _, [] => true
  | lo, (k, v) :: r =>
    (match lo with | none => true | some l => decide (l < k)) && decide (v ≠ d k) && cellsFrom d (some k) r

/-- The canonical form of a sparse store. -/
def cellsWf {α : Type} [DecidableEq α] (d : Nat → α) (c : Cells α) : Bool := cellsFrom d none c

/-- The store with every value changed by `f`. -/
def cellMap {α : Type} [DecidableEq α] (d : α) (f : α → α) (c : Cells α) : Cells α :=
  (c.map (fun q => (q.1, f q.2))).filter (fun q => decide (q.2 ≠ d))

/-- A line that a full set gives up: pseudo-LRU leaves those not used since the marks were last cleared, and `pick` names one
of them (log 31). -/
def plruVictim {α : Type} (used : α → Bool) (pick : Nat) (xs : List α) : Option α :=
  let old := xs.filter (fun x => !used x)
  let left := if old.isEmpty then xs else old
  left[pick % max 1 left.length]?

/-- A line of a set of 16 ways is used: it is marked; when every line of a full set is marked, the others lose their marks (log 31). -/
def plruTouch {α : Type} (inSet is used : α → Bool) (mark : Bool → α → α) (xs : List α) : List α :=
  let ys := xs.map fun x => if is x then mark true x else x
  if decide ((ys.filter inSet).length ≥ 16) && ys.all (fun x => !inSet x || used x) then
    ys.map fun x => if inSet x && !is x then mark false x else x
  else ys

/-- The store without the keys that satisfy `p`. -/
def cellDrop {α : Type} (p : Nat → Bool) (c : Cells α) : Cells α := c.filter (fun q => !p q.1)

end Sys2Proof.Machine
end

