-- ==== Sys2Proof/Machine/RegMap.lean ====
section
/-! DEFINITION. The register map: every register of the privileged view and of BAR0, from the register tables of the
chapters and the index of 19_register_map (Tables 19.4, 19.5), with its fields' access codes and reset values. -/

namespace Sys2Proof.Machine

/-- Register access codes (00_scope R14, Table 0.6). -/
inductive Acc where
  | ro | rw | rw1c | rw1s | wo | rc | rwl | rwt
  deriving DecidableEq, Repr

/-- The registers, by their names in the index of 19_register_map without the letters that number their copies. -/
inductive RegName where
  | uvId | uvLdInfo | featureOffered | featureAccepted | featureCtrl | hpPortCfg | hpPortStatus | hpReplayCnt
  | hpEvent | hpErrCnt | hpLock | hpLdCfg | domCtrl | domWindow | domSizes | domPolicy | domMirror | domOwner
  | domOwnerLd | domStatus | domMedia | domAdmit | domCommitResult | mapCfg | mapLock | mapZeroArg0
  | mapZeroArg1 | mapZeroCtrl | mapZeroStatus | mapErrCnt | mapLdrW0 | mapLdrW1 | mapSpidGroup | hpReqCap
  | hpReqOcc | rqCfg | rqDevloadCfg | rqStatus | rqErrCnt | dmcCfg | dmcStatus | dmcLock | dmcEccCnt
  | dmcEccLast | dmcInjMask | dmcInjFilter | dmcInjFilterMask | dmcInjCtrl | dmcInjStatus | dmcRefStatus
  | dmcCombCfg | dmcCombStatus | dmcCombLap | dmcRepairCfg | dmcRepairStatus | dmcSramScrub | dmcSramScrubCfg
  | shgCfg | shgStatus | shgLock | shgSetState | shgSetUse | shgSetCtrl | shgSetResult | shgHistCtrl | shgHist
  | shgPageCnt | shgEvtCnt | shgCcCnt | shgErrLast | shgClass | shgSetLen | tierCfg | tierCapCfg | tierStatus
  | tierCap | tierHead | tierEvt | tierMoveCnt | tierDom | protCfg | protStatus | protLock | protErrCnt
  | protEvtCnt | protAlarmLast | protDevPub | protWrap | protKeyCmd | protKeyResult | protKeyState | protDom
  | qosDrr | qosTelemCfg | qosTelemCtrl | qosCommitResult | qosSrcColour | qosPolA | qosPolB | qosShp
  | qosPolCnt | qosDomState | qosHistDom | qosHistCh | ttAct | ttPend | ttPendLen | ttCtrl | ttStatus
  | ttActCycle | ttActStart | ttTakeoverAt | ttEvt | ttOversizeCnt | ttCommitResult | qosG0Ch | qosG0Rd
  | qosG0Wr | qosG0Max | tbCfg | tbPtpCfg | tbPpsCfg | tbStraitAsym | tbStatus | tbTimeLo | tbTimeHi
  | tbOffset | tbFreqAdj | tbStep | tbTodSet | tbEvt | topCommitTime | topCommitReq | topCommitResult
  | topCommitStatus | twCfg | twVcBuf | twVcMap | twCtrl | twStatus | twSeq | twCntReplay | twCntErr
  | twCntFec | twEvt | twVcStatus | mirCfg | mirKeyset | mirCommitResult | mirCut | mirHwm | mirStatus
  | mirEvt | mirCnt | mirDomW0 | mirDomW1 | mirDomStateW0 | mirDomStateW1 | oflRingBase | oflRingCbase
  | oflRingCfg | oflRingCtrl | oflRingTail | oflRingHead | oflRingStatus | oflAbort | oflAbortW1 | oflCfg
  | fltCfg | fltStatus | fltAck | fltCnt | fltErrPinCtrl | fltAlarmPinCtrl | uvEvtProd | uvEvtCons
  | uvEvtStatus | uvEvtCtrl | uvMboxCmd | uvMboxStatus | uvMboxPayload | pwrCfg | pwrTarget | pwrFmVote0
  | pwrFmVote1 | pwrStatus | pwrCommitResult | pwrEvt | pwrWakeAt | pwrDvfsCfg | pwrThermCfg | pwrSupplyCfg
  | pwrTelemCfg | pwrCapCfg | pwrCapT0 | pwrLogbook | pwrDom | pwrTelem | pwrCapData | hswCtrl | hswStatus
  | hswRampCfg | hswFeedCfg | hswSlotCfg | hswSlotEn | hswSlotTrip | hswSlotPwr | bootStatus | bootImage
  | bootArb | bootIdCfg | bootLock | bootT | bootFlashCtrl | bootFlashStatus | bootFlashBuf | pmuGlobal
  | pmuUserEn | pmuCtl | pmuCnt | pmuFix | pmuSnap | pmuSnapFix | pmuSnapTime | pmuSnapSeq | pmuOvfGen
  | pmuOvfFix | pmuSmpCfg | pmuSmpFilter | pmuSmpStatus | pmuSmpCons | pmuStreamLd | pmuSmpRing | uvPmu
  | uvSmpBase | uvSmpCfg | uvSmpProd | uvSmpCons | uvSmpStatus | topId | topDieId | topLeader | topDevice
  | topFmFeatureOffered | topFmFeatureAccepted | topFmFeatureCtrl | topLockStatus | topShadowStatus
  | topShadowCtrl | domUseNear | domUseShingle | domShingleSectors | domLost | domRetired | domMeta
  | domCharge | topCommitApplied | oflLock | pwrLock | bootBuildId | fltFenced0 | fltFenced1 | fltFenced2
  | fltRing | uvEvt | msixAddr | msixData | msixPba
  deriving DecidableEq, Repr

/-- A field: lowest bit, width, access code, reset value. -/
structure RegField where
  lsb : Nat
  width : Nat
  acc : Acc
  reset : Nat
  deriving DecidableEq, Repr

/-- A register or an array of registers: name, in BAR0 (true) or in the privileged view (false), base offset, count and
stride of the outer and of the inner index, offset of the first instance's lock, and the fields; every bit that no field
lists is reserved (R17). -/
structure RegRow where
  name : RegName
  bar0 : Bool
  base : Nat
  n1 : Nat
  s1 : Nat
  n2 : Nat
  s2 : Nat
  lock : Option Nat
  fields : List RegField
  deriving DecidableEq, Repr

/-- Registers of the privileged view from offset 0x0 on. -/
def regMap1 : List RegRow := [
  ⟨.topId, false, 0x0, 1, 0x0, 1, 0x0, none, [⟨0, 16, .ro, 0xc1a0⟩, ⟨16, 16, .ro, 0x9624⟩, ⟨32, 8, .ro, 0x11⟩, ⟨40, 2, .ro, 0⟩, ⟨48, 8, .ro, 3⟩]⟩,
  ⟨.topDieId, false, 0x8, 1, 0x0, 1, 0x0, none, [⟨0, 32, .ro, 0x3a170c42⟩, ⟨32, 32, .ro, 0x3a170c43⟩]⟩,
  ⟨.topLeader, false, 0x10, 1, 0x0, 1, 0x0, none, [⟨0, 3, .ro, 0⟩, ⟨3, 2, .ro, 0⟩, ⟨5, 1, .ro, 0⟩, ⟨6, 1, .ro, 0⟩, ⟨7, 1, .ro, 0⟩, ⟨8, 1, .ro, 0⟩]⟩,
  ⟨.topDevice, false, 0x18, 1, 0x0, 1, 0x0, none, [⟨0, 12, .ro, 0⟩, ⟨12, 2, .ro, 0⟩, ⟨14, 1, .ro, 1⟩, ⟨15, 1, .ro, 0⟩]⟩,
  ⟨.topFmFeatureOffered, false, 0x100, 1, 0x0, 1, 0x0, none, [⟨0, 64, .ro, 7⟩]⟩,
  ⟨.topFmFeatureOffered, false, 0x108, 3, 0x8, 1, 0x0, none, [⟨0, 64, .ro, 0⟩]⟩,
  ⟨.topFmFeatureAccepted, false, 0x120, 4, 0x8, 1, 0x0, none, [⟨0, 64, .rw, 0⟩]⟩,
  ⟨.topFmFeatureCtrl, false, 0x140, 1, 0x0, 1, 0x0, none, [⟨0, 1, .rw1s, 0⟩]⟩,
  ⟨.topLockStatus, false, 0x200, 1, 0x0, 1, 0x0, none, [⟨0, 8, .ro, 0⟩]⟩,
  ⟨.topShadowStatus, false, 0x208, 1, 0x0, 1, 0x0, none, [⟨0, 5, .ro, 0⟩, ⟨5, 1, .rw1c, 0⟩]⟩]

/-- Registers of the privileged view from offset 0x210 on. -/
def regMap2 : List RegRow := [
  ⟨.topShadowCtrl, false, 0x210, 1, 0x0, 1, 0x0, none, [⟨0, 5, .wo, 0⟩]⟩,
  ⟨.topCommitTime, false, 0x1000, 1, 0x0, 1, 0x0, none, [⟨0, 64, .rw, 0⟩]⟩,
  ⟨.topCommitReq, false, 0x1008, 1, 0x0, 1, 0x0, none, [⟨0, 8, .wo, 0⟩, ⟨8, 3, .wo, 0⟩, ⟨11, 1, .wo, 0⟩, ⟨12, 1, .wo, 0⟩, ⟨13, 16, .wo, 0⟩, ⟨29, 2, .wo, 0⟩]⟩,
  ⟨.topCommitResult, false, 0x1010, 1, 0x0, 1, 0x0, none, [⟨0, 4, .ro, 0⟩, ⟨4, 16, .ro, 0⟩, ⟨20, 8, .ro, 0⟩, ⟨28, 1, .rw1c, 0⟩]⟩,
  ⟨.topCommitApplied, false, 0x1018, 1, 0x0, 1, 0x0, none, [⟨0, 64, .ro, 0⟩]⟩,
  ⟨.topCommitStatus, false, 0x1020, 1, 0x0, 1, 0x0, none, [⟨0, 7, .ro, 0⟩, ⟨7, 8, .ro, 0⟩, ⟨15, 1, .rw1c, 0⟩]⟩,
  ⟨.bootStatus, false, 0x100000, 1, 0x0, 1, 0x0, none, [⟨0, 4, .ro, 0⟩, ⟨4, 2, .ro, 0⟩, ⟨6, 4, .ro, 0⟩, ⟨10, 4, .ro, 0⟩, ⟨14, 7, .ro, 0⟩, ⟨21, 1, .ro, 0⟩, ⟨22, 16, .ro, 0⟩, ⟨38, 1, .ro, 0⟩]⟩,
  ⟨.bootImage, false, 0x100008, 1, 0x0, 1, 0x0, none, [⟨0, 32, .ro, 0⟩, ⟨32, 2, .ro, 0⟩, ⟨34, 1, .ro, 0⟩, ⟨35, 1, .ro, 0⟩]⟩,
  ⟨.bootBuildId, false, 0x100010, 1, 0x0, 1, 0x0, none, [⟨0, 64, .ro, 0⟩]⟩,
  ⟨.bootArb, false, 0x100018, 1, 0x0, 1, 0x0, none, [⟨0, 32, .ro, 0⟩, ⟨32, 1, .ro, 0⟩, ⟨33, 4, .ro, 0⟩]⟩]

/-- Registers of the privileged view from offset 0x100020 on. -/
def regMap3 : List RegRow := [
  ⟨.bootIdCfg, false, 0x100020, 1, 0x0, 1, 0x0, some 0x1000F8, [⟨0, 12, .rwl, 0⟩, ⟨12, 1, .rwl, 0⟩, ⟨13, 12, .ro, 0⟩, ⟨25, 12, .ro, 0⟩, ⟨37, 2, .ro, 0⟩, ⟨39, 1, .ro, 0⟩]⟩,
  ⟨.bootLock, false, 0x1000F8, 1, 0x0, 1, 0x0, none, [⟨0, 1, .rw1s, 0⟩]⟩,
  ⟨.bootT, false, 0x100100, 9, 0x8, 1, 0x0, none, [⟨0, 32, .ro, 0⟩]⟩,
  ⟨.bootFlashCtrl, false, 0x100200, 1, 0x0, 1, 0x0, none, [⟨0, 3, .wo, 0⟩, ⟨3, 1, .wo, 0⟩, ⟨4, 13, .wo, 0⟩]⟩,
  ⟨.bootFlashStatus, false, 0x100208, 1, 0x0, 1, 0x0, none, [⟨0, 1, .ro, 0⟩, ⟨1, 1, .rw1c, 0⟩, ⟨2, 3, .ro, 0⟩, ⟨5, 4, .ro, 0⟩]⟩,
  ⟨.bootFlashBuf, false, 0x101000, 512, 0x8, 1, 0x0, none, [⟨0, 64, .rw, 0⟩]⟩,
  ⟨.fltCfg, false, 0x200000, 1, 0x0, 1, 0x0, none, [⟨0, 1, .rw, 1⟩, ⟨1, 1, .rw, 1⟩]⟩,
  ⟨.fltStatus, false, 0x200008, 1, 0x0, 1, 0x0, none, [⟨0, 32, .ro, 1⟩, ⟨32, 13, .ro, 0⟩, ⟨45, 1, .rw1c, 0⟩, ⟨46, 1, .ro, 0⟩]⟩,
  ⟨.fltAck, false, 0x200010, 1, 0x0, 1, 0x0, none, [⟨0, 32, .wo, 0⟩, ⟨32, 1, .wo, 0⟩]⟩,
  ⟨.fltCnt, false, 0x200018, 1, 0x0, 1, 0x0, none, [⟨0, 16, .rc, 0⟩, ⟨16, 16, .rc, 0⟩, ⟨32, 8, .rc, 0⟩, ⟨40, 16, .rc, 0⟩, ⟨56, 8, .rc, 0⟩]⟩]

/-- Registers of the privileged view from offset 0x200020 on. -/
def regMap4 : List RegRow := [
  ⟨.fltErrPinCtrl, false, 0x200020, 1, 0x0, 1, 0x0, none, [⟨0, 1, .ro, 0⟩, ⟨1, 1, .ro, 0⟩, ⟨2, 1, .ro, 0⟩, ⟨3, 1, .wo, 0⟩, ⟨4, 1, .rw, 0⟩, ⟨5, 1, .ro, 0⟩, ⟨6, 1, .ro, 0⟩]⟩,
  ⟨.fltAlarmPinCtrl, false, 0x200028, 1, 0x0, 1, 0x0, none, [⟨0, 1, .ro, 0⟩, ⟨1, 1, .ro, 0⟩, ⟨2, 1, .ro, 0⟩, ⟨3, 1, .wo, 0⟩, ⟨4, 1, .rw, 0⟩, ⟨5, 1, .ro, 0⟩, ⟨6, 1, .ro, 0⟩]⟩,
  ⟨.fltFenced0, false, 0x200030, 1, 0x0, 1, 0x0, none, [⟨0, 24, .ro, 0⟩, ⟨24, 16, .ro, 0⟩, ⟨40, 1, .ro, 0⟩, ⟨41, 2, .ro, 0⟩, ⟨43, 2, .ro, 0⟩]⟩,
  ⟨.fltFenced1, false, 0x200038, 1, 0x0, 1, 0x0, none, [⟨0, 16, .ro, 0⟩, ⟨16, 16, .ro, 0⟩, ⟨32, 12, .ro, 0⟩]⟩,
  ⟨.fltFenced2, false, 0x200040, 1, 0x0, 1, 0x0, none, [⟨0, 32, .ro, 0⟩]⟩,
  ⟨.fltRing, false, 0x210000, 32768, 0x8, 1, 0x0, none, [⟨0, 64, .ro, 0⟩]⟩,
  ⟨.pwrCfg, false, 0x300000, 1, 0x0, 1, 0x0, none, [⟨0, 16, .rw, 0xff⟩, ⟨16, 16, .rw, 0xff⟩, ⟨32, 1, .rw, 1⟩, ⟨33, 1, .rw, 1⟩]⟩,
  ⟨.pwrTarget, false, 0x300008, 1, 0x0, 1, 0x0, none, [⟨0, 2, .rwt, 0⟩, ⟨2, 2, .rwt, 0⟩, ⟨4, 2, .rwt, 0⟩]⟩,
  ⟨.pwrFmVote0, false, 0x300010, 1, 0x0, 1, 0x0, none, [⟨0, 64, .rwt, 0⟩]⟩,
  ⟨.pwrFmVote1, false, 0x300018, 1, 0x0, 1, 0x0, none, [⟨0, 2, .rwt, 0⟩]⟩]

/-- Registers of the privileged view from offset 0x300020 on. -/
def regMap5 : List RegRow := [
  ⟨.pwrStatus, false, 0x300020, 1, 0x0, 1, 0x0, none, [⟨0, 3, .ro, 0⟩, ⟨3, 2, .ro, 0⟩, ⟨5, 2, .ro, 0⟩, ⟨7, 2, .ro, 0⟩, ⟨9, 1, .ro, 0⟩, ⟨10, 2, .ro, 0⟩, ⟨12, 2, .ro, 0⟩, ⟨14, 2, .ro, 0⟩]⟩,
  ⟨.pwrCommitResult, false, 0x300028, 1, 0x0, 1, 0x0, none, [⟨0, 4, .ro, 0⟩, ⟨4, 1, .rw1c, 0⟩]⟩,
  ⟨.pwrEvt, false, 0x300030, 1, 0x0, 1, 0x0, none, [⟨0, 1, .rw1c, 0⟩, ⟨1, 1, .rw1c, 0⟩, ⟨2, 1, .rw1c, 0⟩, ⟨3, 1, .rw1c, 0⟩, ⟨4, 1, .rw1c, 0⟩, ⟨5, 1, .rw1c, 0⟩, ⟨6, 1, .rw1c, 0⟩, ⟨7, 1, .rw1c, 0⟩, ⟨8, 1, .rw1c, 0⟩]⟩,
  ⟨.pwrWakeAt, false, 0x300038, 1, 0x0, 1, 0x0, none, [⟨0, 64, .rw, 0⟩]⟩,
  ⟨.pwrDvfsCfg, false, 0x300040, 1, 0x0, 1, 0x0, none, [⟨0, 16, .rw, 0x1f4⟩]⟩,
  ⟨.pwrThermCfg, false, 0x300048, 1, 0x0, 1, 0x0, none, [⟨0, 8, .rw, 0x69⟩, ⟨8, 8, .ro, 0⟩, ⟨16, 8, .ro, 0⟩, ⟨24, 8, .ro, 0⟩]⟩,
  ⟨.pwrSupplyCfg, false, 0x300050, 1, 0x0, 1, 0x0, some 0x3000F8, [⟨0, 14, .rwl, 0x2a30⟩, ⟨14, 14, .rwl, 0x2580⟩, ⟨28, 10, .rwl, 0xc8⟩]⟩,
  ⟨.pwrTelemCfg, false, 0x300058, 1, 0x0, 1, 0x0, none, [⟨0, 16, .rw, 0x3e8⟩]⟩,
  ⟨.pwrCapCfg, false, 0x300060, 1, 0x0, 1, 0x0, none, [⟨0, 6, .rw, 0⟩, ⟨6, 1, .rw1s, 0⟩, ⟨7, 57, .rw, 0⟩]⟩,
  ⟨.pwrCapT0, false, 0x300068, 1, 0x0, 1, 0x0, none, [⟨0, 64, .ro, 0⟩]⟩]

/-- Registers of the privileged view from offset 0x300070 on. -/
def regMap6 : List RegRow := [
  ⟨.pwrLogbook, false, 0x300070, 1, 0x0, 1, 0x0, none, [⟨0, 7, .ro, 0x40⟩, ⟨7, 1, .ro, 0⟩, ⟨8, 40, .ro, 0⟩]⟩,
  ⟨.pwrLock, false, 0x3000F8, 1, 0x0, 1, 0x0, none, [⟨0, 1, .rw1s, 0⟩]⟩,
  ⟨.pwrDom, false, 0x300100, 33, 0x8, 1, 0x0, none, [⟨0, 2, .ro, 0⟩, ⟨2, 26, .ro, 0⟩, ⟨28, 26, .ro, 0⟩]⟩,
  ⟨.pwrTelem, false, 0x301000, 64, 0x8, 1, 0x0, none, [⟨0, 20, .ro, 0⟩, ⟨20, 20, .ro, 0⟩, ⟨40, 20, .rc, 0⟩]⟩,
  ⟨.pwrCapData, false, 0x302000, 2048, 0x8, 1, 0x0, none, [⟨0, 20, .ro, 0⟩, ⟨32, 20, .ro, 0⟩]⟩,
  ⟨.hswCtrl, false, 0x340000, 1, 0x0, 1, 0x0, none, [⟨0, 1, .rw, 1⟩]⟩,
  ⟨.hswStatus, false, 0x340008, 1, 0x0, 1, 0x0, none, [⟨0, 3, .ro, 0⟩, ⟨3, 1, .ro, 0⟩, ⟨4, 1, .ro, 0⟩, ⟨5, 1, .ro, 0⟩, ⟨6, 1, .ro, 0⟩, ⟨7, 1, .ro, 0⟩, ⟨8, 1, .ro, 0⟩, ⟨9, 2, .ro, 0⟩]⟩,
  ⟨.hswRampCfg, false, 0x340010, 1, 0x0, 1, 0x0, none, [⟨0, 6, .rw, 4⟩, ⟨6, 7, .rw, 0xa⟩, ⟨13, 7, .rw, 0xa⟩]⟩,
  ⟨.hswFeedCfg, false, 0x340018, 1, 0x0, 1, 0x0, none, [⟨0, 1, .rw, 0⟩, ⟨1, 14, .rw, 0x2bc0⟩, ⟨15, 14, .rw, 0x2cec⟩, ⟨29, 8, .rw, 0x6e⟩]⟩,
  ⟨.hswSlotCfg, false, 0x340020, 1, 0x0, 1, 0x0, none, [⟨0, 7, .rw, 0x28⟩, ⟨7, 4, .rw, 2⟩]⟩]

/-- Registers of the privileged view from offset 0x340028 on. -/
def regMap7 : List RegRow := [
  ⟨.hswSlotEn, false, 0x340028, 1, 0x0, 1, 0x0, none, [⟨0, 48, .rw, 0xffffffffffff⟩]⟩,
  ⟨.hswSlotTrip, false, 0x340030, 1, 0x0, 1, 0x0, none, [⟨0, 48, .ro, 0⟩]⟩,
  ⟨.hswSlotPwr, false, 0x340038, 1, 0x0, 1, 0x0, none, [⟨0, 48, .ro, 0⟩]⟩,
  ⟨.tbCfg, false, 0x400000, 1, 0x0, 1, 0x0, none, [⟨0, 2, .rw, 1⟩, ⟨2, 2, .rw, 3⟩, ⟨4, 2, .rw, 2⟩, ⟨6, 8, .rw, 0x64⟩, ⟨14, 16, .rw, 0x3e8⟩, ⟨30, 10, .rw, 0x3c⟩, ⟨40, 10, .rw, 0xfa⟩, ⟨50, 1, .rw, 1⟩]⟩,
  ⟨.tbPtpCfg, false, 0x400008, 1, 0x0, 1, 0x0, none, [⟨0, 8, .rw, 0⟩, ⟨8, 1, .rw, 0⟩, ⟨9, 1, .rw, 0⟩, ⟨10, 3, .rw, 3⟩]⟩,
  ⟨.tbPpsCfg, false, 0x400010, 1, 0x0, 1, 0x0, none, [⟨0, 1, .rw, 0⟩, ⟨1, 1, .rw, 1⟩, ⟨2, 20, .rw, 0x3e8⟩, ⟨22, 20, .rw, 0⟩]⟩,
  ⟨.tbStraitAsym, false, 0x400018, 1, 0x0, 1, 0x0, none, [⟨0, 16, .rw, 0⟩]⟩,
  ⟨.tbStatus, false, 0x400020, 1, 0x0, 1, 0x0, none, [⟨0, 2, .ro, 0⟩, ⟨2, 2, .ro, 0⟩, ⟨4, 1, .ro, 0⟩, ⟨5, 3, .ro, 0⟩, ⟨8, 10, .ro, 0⟩]⟩,
  ⟨.tbTimeLo, false, 0x400028, 1, 0x0, 1, 0x0, none, [⟨0, 16, .ro, 0⟩, ⟨16, 48, .ro, 0⟩]⟩,
  ⟨.tbTimeHi, false, 0x400030, 1, 0x0, 1, 0x0, none, [⟨0, 16, .ro, 0⟩]⟩]

/-- Registers of the privileged view from offset 0x400038 on. -/
def regMap8 : List RegRow := [
  ⟨.tbOffset, false, 0x400038, 1, 0x0, 1, 0x0, none, [⟨0, 32, .ro, 0⟩]⟩,
  ⟨.tbFreqAdj, false, 0x400040, 1, 0x0, 1, 0x0, none, [⟨0, 32, .ro, 0⟩]⟩,
  ⟨.tbStep, false, 0x400048, 1, 0x0, 1, 0x0, none, [⟨0, 64, .wo, 0⟩]⟩,
  ⟨.tbTodSet, false, 0x400050, 1, 0x0, 1, 0x0, none, [⟨0, 64, .wo, 0⟩]⟩,
  ⟨.tbEvt, false, 0x400058, 1, 0x0, 1, 0x0, none, [⟨0, 1, .rw1c, 0⟩, ⟨1, 1, .rw1c, 0⟩, ⟨2, 1, .rw1c, 0⟩, ⟨3, 1, .rw1c, 0⟩, ⟨4, 1, .rw1c, 0⟩, ⟨5, 1, .rw1c, 0⟩]⟩,
  ⟨.hpPortCfg, false, 0x500000, 16, 0x10000, 1, 0x0, some 0x5000F8, [⟨0, 1, .rwl, 0⟩, ⟨1, 2, .rwl, 0⟩, ⟨3, 4, .rwl, 0⟩, ⟨7, 2, .rwl, 0⟩, ⟨9, 3, .rwl, 6⟩, ⟨12, 5, .rwl, 1⟩, ⟨17, 1, .rwl, 1⟩]⟩,
  ⟨.hpPortStatus, false, 0x500008, 16, 0x10000, 1, 0x0, none, [⟨0, 1, .ro, 0⟩, ⟨1, 3, .ro, 0⟩, ⟨4, 3, .ro, 0⟩, ⟨7, 1, .ro, 0⟩, ⟨8, 2, .ro, 0⟩, ⟨10, 1, .ro, 0⟩]⟩,
  ⟨.hpReplayCnt, false, 0x500010, 16, 0x10000, 1, 0x0, none, [⟨0, 32, .rc, 0⟩]⟩,
  ⟨.hpEvent, false, 0x500018, 16, 0x10000, 1, 0x0, none, [⟨0, 1, .rw1c, 0⟩, ⟨1, 1, .rw1c, 0⟩, ⟨2, 1, .rw1c, 0⟩, ⟨3, 1, .rw1c, 0⟩, ⟨4, 1, .rw1c, 0⟩, ⟨5, 1, .rw1c, 0⟩]⟩,
  ⟨.hpErrCnt, false, 0x500020, 16, 0x10000, 1, 0x0, none, [⟨0, 16, .rc, 0⟩, ⟨16, 16, .rc, 0⟩, ⟨32, 16, .rc, 0⟩]⟩,
  ⟨.hpLock, false, 0x5000F8, 16, 0x10000, 1, 0x0, none, [⟨0, 1, .rw1s, 0⟩]⟩,
  ⟨.hpLdCfg, false, 0x500100, 16, 0x10000, 16, 0x8, none, [⟨0, 1, .rwt, 0⟩, ⟨1, 8, .rwt, 0⟩]⟩,
  ⟨.hpReqCap, false, 0x500200, 16, 0x10000, 1, 0x0, some 0x5000F8, [⟨0, 16, .rwl, 0x1000⟩, ⟨16, 16, .rwl, 0⟩]⟩,
  ⟨.hpReqOcc, false, 0x500208, 16, 0x10000, 1, 0x0, none, [⟨0, 16, .ro, 0⟩, ⟨16, 16, .rc, 0⟩, ⟨32, 9, .ro, 0⟩]⟩]

/-- Registers of the privileged view from offset 0x600000 on. -/
def regMap9 : List RegRow := [
  ⟨.domCtrl, false, 0x600000, 1024, 0x100, 1, 0x0, none, [⟨0, 1, .rwt, 0⟩, ⟨1, 1, .rwt, 0⟩, ⟨2, 1, .rwt, 0⟩, ⟨3, 1, .rwt, 0⟩]⟩,
  ⟨.domWindow, false, 0x600008, 1024, 0x100, 1, 0x0, none, [⟨0, 27, .rwt, 0⟩, ⟨27, 28, .rwt, 0⟩]⟩,
  ⟨.domSizes, false, 0x600010, 1024, 0x100, 1, 0x0, none, [⟨0, 28, .rwt, 0⟩, ⟨28, 28, .rwt, 0⟩]⟩,
  ⟨.domPolicy, false, 0x600018, 1024, 0x100, 1, 0x0, none, [⟨0, 3, .rwt, 7⟩, ⟨3, 2, .rwt, 0⟩, ⟨5, 2, .rwt, 0⟩, ⟨7, 1, .rwt, 0⟩, ⟨8, 3, .rwt, 0⟩, ⟨11, 1, .rwt, 0⟩, ⟨12, 1, .rwt, 1⟩, ⟨13, 10, .rwt, 0⟩, ⟨23, 1, .rwt, 0⟩]⟩,
  ⟨.domMirror, false, 0x600020, 1024, 0x100, 1, 0x0, none, [⟨0, 2, .rwt, 0⟩]⟩,
  ⟨.domOwner, false, 0x600028, 1024, 0x100, 1, 0x0, none, [⟨0, 8, .rwt, 0⟩, ⟨8, 1, .rwt, 0⟩]⟩,
  ⟨.domOwnerLd, false, 0x600030, 1024, 0x100, 4, 0x8, none, [⟨0, 64, .rwt, 0⟩]⟩,
  ⟨.domStatus, false, 0x600080, 1024, 0x100, 1, 0x0, none, [⟨0, 16, .ro, 0⟩, ⟨16, 1, .ro, 0⟩, ⟨17, 1, .ro, 0⟩, ⟨18, 1, .ro, 0⟩, ⟨19, 5, .ro, 0⟩, ⟨24, 1, .ro, 0⟩]⟩,
  ⟨.domUseNear, false, 0x600088, 1024, 0x100, 1, 0x0, none, [⟨0, 37, .ro, 0⟩]⟩,
  ⟨.domUseShingle, false, 0x600090, 1024, 0x100, 1, 0x0, none, [⟨0, 37, .ro, 0⟩]⟩,
  ⟨.domShingleSectors, false, 0x600098, 1024, 0x100, 1, 0x0, none, [⟨0, 44, .ro, 0⟩]⟩,
  ⟨.domLost, false, 0x6000A0, 1024, 0x100, 1, 0x0, none, [⟨0, 37, .ro, 0⟩]⟩,
  ⟨.domRetired, false, 0x6000A8, 1024, 0x100, 1, 0x0, none, [⟨0, 37, .ro, 0⟩]⟩,
  ⟨.domMeta, false, 0x6000B0, 1024, 0x100, 1, 0x0, none, [⟨0, 40, .ro, 0⟩]⟩,
  ⟨.domCharge, false, 0x6000B8, 1024, 0x100, 1, 0x0, none, [⟨0, 28, .ro, 0⟩]⟩]

/-- Registers of the privileged view from offset 0x680000 on. -/
def regMap10 : List RegRow := [
  ⟨.domMedia, false, 0x680000, 2, 0x8, 1, 0x0, none, [⟨0, 28, .ro, 0⟩, ⟨28, 28, .ro, 0⟩]⟩,
  ⟨.domAdmit, false, 0x680010, 2, 0x8, 1, 0x0, none, [⟨0, 28, .ro, 0⟩, ⟨28, 28, .ro, 0⟩]⟩,
  ⟨.domCommitResult, false, 0x680020, 1, 0x0, 1, 0x0, none, [⟨0, 5, .ro, 0⟩, ⟨5, 10, .ro, 0⟩, ⟨15, 8, .ro, 0⟩, ⟨23, 3, .ro, 0⟩, ⟨26, 1, .rw1c, 0⟩]⟩,
  ⟨.mapCfg, false, 0x700000, 1, 0x0, 1, 0x0, some 0x7000F8, [⟨0, 5, .rwl, 8⟩]⟩,
  ⟨.mapLock, false, 0x7000F8, 1, 0x0, 1, 0x0, none, [⟨0, 1, .rw1s, 0⟩]⟩,
  ⟨.mapZeroArg0, false, 0x700100, 1, 0x0, 1, 0x0, none, [⟨0, 10, .rw, 0⟩, ⟨10, 37, .rw, 0⟩]⟩,
  ⟨.mapZeroArg1, false, 0x700108, 1, 0x0, 1, 0x0, none, [⟨0, 37, .rw, 0⟩]⟩,
  ⟨.mapZeroCtrl, false, 0x700110, 1, 0x0, 1, 0x0, none, [⟨0, 1, .wo, 0⟩]⟩,
  ⟨.mapZeroStatus, false, 0x700118, 1, 0x0, 1, 0x0, none, [⟨0, 2, .ro, 0⟩, ⟨2, 2, .ro, 0⟩]⟩,
  ⟨.mapErrCnt, false, 0x700200, 1, 0x0, 1, 0x0, none, [⟨0, 16, .rc, 0⟩, ⟨16, 16, .rc, 0⟩, ⟨32, 16, .rc, 0⟩, ⟨48, 16, .rc, 0⟩]⟩]

/-- Registers of the privileged view from offset 0x710000 on. -/
def regMap11 : List RegRow := [
  ⟨.mapLdrW0, false, 0x710000, 256, 0x80, 8, 0x10, none, [⟨0, 27, .rwt, 0⟩, ⟨63, 1, .rwt, 0⟩]⟩,
  ⟨.mapLdrW1, false, 0x710008, 256, 0x80, 8, 0x10, none, [⟨0, 27, .rwt, 0⟩, ⟨27, 28, .rwt, 0⟩]⟩,
  ⟨.mapSpidGroup, false, 0x720000, 256, 0x200, 63, 0x8, none, [⟨0, 64, .rwt, 0⟩]⟩,
  ⟨.mapSpidGroup, false, 0x7201F8, 256, 0x200, 1, 0x0, none, [⟨0, 63, .rwt, 0⟩]⟩,
  ⟨.rqCfg, false, 0x740000, 1, 0x0, 1, 0x0, some 0x7000F8, [⟨0, 16, .rwl, 0x800⟩, ⟨16, 8, .rwl, 0x40⟩, ⟨24, 3, .rwl, 1⟩]⟩,
  ⟨.rqDevloadCfg, false, 0x740008, 1, 0x0, 1, 0x0, none, [⟨0, 8, .rw, 0x32⟩, ⟨8, 8, .rw, 0x4b⟩, ⟨16, 8, .rw, 0x5a⟩, ⟨24, 12, .rw, 0xc8⟩, ⟨36, 12, .rw, 0x3e8⟩, ⟨48, 12, .rw, 0xfa0⟩]⟩,
  ⟨.rqStatus, false, 0x740010, 2, 0x8, 1, 0x0, none, [⟨0, 16, .ro, 0⟩, ⟨16, 16, .rc, 0⟩, ⟨32, 16, .ro, 0x8000⟩, ⟨48, 9, .ro, 0⟩, ⟨57, 1, .ro, 0⟩]⟩,
  ⟨.rqErrCnt, false, 0x740020, 1, 0x0, 1, 0x0, none, [⟨0, 16, .rc, 0⟩, ⟨16, 16, .rc, 0⟩, ⟨32, 16, .rc, 0⟩, ⟨48, 16, .rc, 0⟩]⟩,
  ⟨.qosDrr, false, 0x800000, 1, 0x0, 1, 0x0, none, [⟨0, 8, .rwt, 0x40⟩, ⟨8, 8, .rwt, 0x30⟩, ⟨16, 8, .rwt, 0x20⟩, ⟨24, 8, .rwt, 0x18⟩, ⟨32, 8, .rwt, 0x10⟩, ⟨40, 8, .rwt, 8⟩, ⟨48, 8, .rwt, 4⟩]⟩,
  ⟨.qosTelemCfg, false, 0x800008, 1, 0x0, 1, 0x0, none, [⟨0, 1, .rw, 1⟩, ⟨1, 16, .rw, 0x40⟩]⟩]

/-- Registers of the privileged view from offset 0x800010 on. -/
def regMap12 : List RegRow := [
  ⟨.qosTelemCtrl, false, 0x800010, 1, 0x0, 1, 0x0, none, [⟨0, 1, .wo, 0⟩]⟩,
  ⟨.qosCommitResult, false, 0x800018, 1, 0x0, 1, 0x0, none, [⟨0, 4, .ro, 0⟩, ⟨4, 10, .ro, 0⟩, ⟨14, 1, .rw1c, 0⟩]⟩,
  ⟨.qosSrcColour, false, 0x800100, 16, 0x8, 1, 0x0, none, [⟨0, 32, .rwt, 0⟩]⟩,
  ⟨.qosPolA, false, 0x810000, 1024, 0x20, 1, 0x0, none, [⟨0, 1, .rwt, 0⟩, ⟨1, 1, .rwt, 0⟩, ⟨2, 20, .rwt, 0⟩, ⟨22, 20, .rwt, 0⟩]⟩,
  ⟨.qosPolB, false, 0x810008, 1024, 0x20, 1, 0x0, none, [⟨0, 20, .rwt, 0⟩, ⟨20, 20, .rwt, 0⟩, ⟨40, 9, .rwt, 0x80⟩]⟩,
  ⟨.qosShp, false, 0x810010, 1024, 0x20, 1, 0x0, none, [⟨0, 1, .rwt, 0⟩, ⟨1, 1, .rwt, 0⟩, ⟨2, 20, .rwt, 0⟩, ⟨22, 20, .rwt, 0⟩]⟩,
  ⟨.qosPolCnt, false, 0x810018, 1024, 0x20, 1, 0x0, none, [⟨0, 32, .rc, 0⟩, ⟨32, 32, .rc, 0⟩]⟩,
  ⟨.qosDomState, false, 0x818000, 1024, 0x8, 1, 0x0, none, [⟨0, 16, .ro, 0⟩, ⟨16, 16, .ro, 0⟩]⟩,
  ⟨.qosHistDom, false, 0x820000, 1024, 0x80, 16, 0x8, none, [⟨0, 32, .ro, 0⟩, ⟨32, 32, .ro, 0⟩]⟩,
  ⟨.qosHistCh, false, 0x840000, 216, 0x80, 16, 0x8, none, [⟨0, 32, .ro, 0⟩, ⟨32, 32, .ro, 0⟩]⟩]

/-- Registers of the privileged view from offset 0x860000 on. -/
def regMap13 : List RegRow := [
  ⟨.qosG0Ch, false, 0x860000, 24, 0x8, 1, 0x0, none, [⟨0, 16, .ro, 0xffff⟩, ⟨16, 5, .ro, 0⟩, ⟨21, 1, .ro, 0⟩, ⟨22, 1, .ro, 0⟩, ⟨23, 1, .ro, 0⟩, ⟨24, 1, .ro, 0⟩, ⟨25, 20, .ro, 0⟩]⟩,
  ⟨.qosG0Rd, false, 0x860100, 2, 0x20, 1, 0x0, none, [⟨0, 32, .rc, 0⟩, ⟨32, 32, .rc, 0⟩]⟩,
  ⟨.qosG0Wr, false, 0x860108, 2, 0x20, 1, 0x0, none, [⟨0, 32, .rc, 0⟩, ⟨32, 32, .rc, 0⟩]⟩,
  ⟨.qosG0Max, false, 0x860110, 2, 0x20, 1, 0x0, none, [⟨0, 16, .rc, 0⟩, ⟨16, 16, .rc, 0⟩, ⟨32, 16, .rc, 0⟩, ⟨48, 16, .rc, 0⟩]⟩,
  ⟨.ttAct, false, 0x880000, 26, 0x1000, 1, 0x0, none, [⟨0, 24, .ro, 0xf4240⟩, ⟨24, 9, .ro, 0x1ff⟩]⟩,
  ⟨.ttAct, false, 0x880008, 26, 0x1000, 63, 0x8, none, [⟨0, 24, .ro, 0⟩, ⟨24, 9, .ro, 0⟩]⟩,
  ⟨.ttPend, false, 0x880200, 26, 0x1000, 1, 0x0, none, [⟨0, 24, .rwt, 0xf4240⟩, ⟨24, 9, .rwt, 0x1ff⟩]⟩,
  ⟨.ttPend, false, 0x880208, 26, 0x1000, 63, 0x8, none, [⟨0, 24, .rwt, 0⟩, ⟨24, 9, .rwt, 0⟩]⟩,
  ⟨.ttPendLen, false, 0x880400, 26, 0x1000, 1, 0x0, none, [⟨0, 7, .rwt, 1⟩]⟩,
  ⟨.ttCtrl, false, 0x880408, 26, 0x1000, 1, 0x0, none, [⟨0, 1, .wo, 0⟩]⟩,
  ⟨.ttStatus, false, 0x880410, 26, 0x1000, 1, 0x0, none, [⟨0, 2, .ro, 2⟩, ⟨2, 4, .ro, 0⟩, ⟨6, 9, .ro, 0⟩, ⟨15, 1, .ro, 0⟩, ⟨16, 1, .ro, 0⟩, ⟨17, 7, .ro, 1⟩]⟩,
  ⟨.ttActCycle, false, 0x880418, 26, 0x1000, 1, 0x0, none, [⟨0, 30, .ro, 0xf4240⟩]⟩,
  ⟨.ttActStart, false, 0x880420, 26, 0x1000, 1, 0x0, none, [⟨0, 64, .ro, 0⟩]⟩,
  ⟨.ttTakeoverAt, false, 0x880428, 26, 0x1000, 1, 0x0, none, [⟨0, 64, .ro, 0⟩]⟩,
  ⟨.ttEvt, false, 0x880430, 26, 0x1000, 1, 0x0, none, [⟨0, 1, .rw1c, 0⟩, ⟨1, 1, .rw1c, 0⟩, ⟨2, 1, .rw1c, 0⟩]⟩,
  ⟨.ttOversizeCnt, false, 0x880438, 26, 0x1000, 1, 0x0, none, [⟨0, 32, .rc, 0⟩]⟩]

/-- Registers of the privileged view from offset 0x89A000 on. -/
def regMap14 : List RegRow := [
  ⟨.ttCommitResult, false, 0x89A000, 1, 0x0, 1, 0x0, none, [⟨0, 2, .ro, 0⟩, ⟨2, 5, .ro, 0⟩, ⟨7, 1, .rw1c, 0⟩]⟩,
  ⟨.dmcCfg, false, 0x900000, 24, 0x10000, 1, 0x0, some 0x9000F8, [⟨0, 3, .rwl, 5⟩, ⟨3, 1, .rwl, 0⟩, ⟨4, 1, .rwl, 0⟩, ⟨5, 1, .rwl, 0⟩]⟩,
  ⟨.dmcStatus, false, 0x900008, 24, 0x10000, 1, 0x0, none, [⟨0, 3, .ro, 0⟩, ⟨3, 1, .ro, 0⟩, ⟨4, 1, .ro, 0⟩, ⟨5, 1, .ro, 0⟩, ⟨6, 2, .ro, 0⟩, ⟨8, 1, .ro, 0⟩, ⟨9, 1, .ro, 0⟩, ⟨10, 3, .ro, 0⟩, ⟨13, 3, .ro, 0⟩, ⟨16, 1, .ro, 0⟩, ⟨17, 11, .ro, 0⟩]⟩,
  ⟨.dmcLock, false, 0x9000F8, 24, 0x10000, 1, 0x0, none, [⟨0, 1, .rw1s, 0⟩]⟩,
  ⟨.dmcEccCnt, false, 0x900100, 24, 0x10000, 1, 0x0, none, [⟨0, 32, .rc, 0⟩, ⟨32, 16, .rc, 0⟩, ⟨48, 16, .rc, 0⟩]⟩,
  ⟨.dmcEccLast, false, 0x900108, 24, 0x10000, 1, 0x0, none, [⟨6, 40, .ro, 0⟩, ⟨46, 4, .ro, 0⟩, ⟨50, 2, .ro, 0⟩]⟩,
  ⟨.dmcInjMask, false, 0x900200, 24, 0x10000, 10, 0x8, none, [⟨0, 64, .rw, 0⟩]⟩,
  ⟨.dmcInjFilter, false, 0x900250, 24, 0x10000, 1, 0x0, none, [⟨6, 40, .rw, 0⟩]⟩,
  ⟨.dmcInjFilterMask, false, 0x900258, 24, 0x10000, 1, 0x0, none, [⟨6, 40, .rw, 0⟩]⟩,
  ⟨.dmcInjCtrl, false, 0x900260, 24, 0x10000, 1, 0x0, none, [⟨0, 1, .rw1s, 0⟩, ⟨1, 1, .rw, 0⟩]⟩,
  ⟨.dmcInjStatus, false, 0x900268, 24, 0x10000, 1, 0x0, none, [⟨0, 1, .rw1c, 0⟩, ⟨1, 40, .ro, 0⟩]⟩,
  ⟨.dmcRefStatus, false, 0x900300, 24, 0x10000, 1, 0x0, none, [⟨0, 3, .ro, 0⟩, ⟨3, 16, .rc, 0⟩]⟩,
  ⟨.dmcCombCfg, false, 0x900400, 24, 0x10000, 1, 0x0, none, [⟨0, 1, .rw, 1⟩, ⟨1, 22, .rw, 0x15180⟩]⟩,
  ⟨.dmcCombStatus, false, 0x900408, 24, 0x10000, 1, 0x0, none, [⟨0, 30, .ro, 0⟩, ⟨30, 1, .ro, 0⟩, ⟨31, 32, .ro, 0⟩]⟩,
  ⟨.dmcCombLap, false, 0x900410, 24, 0x10000, 1, 0x0, none, [⟨0, 32, .ro, 0⟩, ⟨32, 32, .ro, 0⟩]⟩,
  ⟨.dmcRepairCfg, false, 0x900500, 24, 0x10000, 1, 0x0, some 0x9000F8, [⟨0, 8, .rwl, 4⟩, ⟨8, 1, .rwl, 1⟩, ⟨9, 1, .rwl, 1⟩]⟩,
  ⟨.dmcRepairStatus, false, 0x900508, 24, 0x10000, 1, 0x0, none, [⟨0, 12, .ro, 0⟩, ⟨12, 12, .ro, 0⟩, ⟨24, 12, .ro, 0⟩, ⟨36, 12, .ro, 0⟩, ⟨48, 13, .ro, 0⟩]⟩]

/-- Registers of the privileged view from offset 0xA80000 on. -/
def regMap15 : List RegRow := [
  ⟨.dmcSramScrub, false, 0xA80000, 2, 0x8, 1, 0x0, none, [⟨0, 32, .ro, 0⟩, ⟨32, 1, .rw1c, 0⟩, ⟨33, 16, .rc, 0⟩]⟩,
  ⟨.dmcSramScrubCfg, false, 0xA80010, 1, 0x0, 1, 0x0, none, [⟨0, 32, .rw, 0x989680⟩]⟩,
  ⟨.shgCfg, false, 0xB00000, 1, 0x0, 1, 0x0, some 0xB000F8, [⟨0, 3, .rwl, 2⟩, ⟨3, 1, .rwl, 1⟩, ⟨4, 1, .rwl, 1⟩, ⟨5, 1, .rwl, 1⟩]⟩,
  ⟨.shgStatus, false, 0xB00008, 2, 0x8, 1, 0x0, none, [⟨0, 8, .ro, 0⟩, ⟨8, 8, .ro, 0⟩, ⟨16, 5, .ro, 0⟩, ⟨21, 6, .ro, 0⟩, ⟨32, 32, .ro, 0⟩]⟩,
  ⟨.shgLock, false, 0xB000F8, 1, 0x0, 1, 0x0, none, [⟨0, 1, .rw1s, 0⟩]⟩,
  ⟨.shgSetState, false, 0xB00100, 1, 0x0, 1, 0x0, none, [⟨0, 2, .ro, 1⟩, ⟨2, 1, .ro, 1⟩, ⟨32, 32, .ro, 0xbf4bbb61⟩]⟩,
  ⟨.shgSetState, false, 0xB00108, 7, 0x8, 1, 0x0, none, [⟨0, 2, .ro, 0⟩, ⟨2, 1, .ro, 0⟩, ⟨32, 32, .ro, 0⟩]⟩,
  ⟨.shgSetUse, false, 0xB00140, 8, 0x8, 1, 0x0, none, [⟨0, 32, .ro, 0⟩, ⟨32, 32, .ro, 0⟩]⟩,
  ⟨.shgSetCtrl, false, 0xB00200, 1, 0x0, 1, 0x0, none, [⟨0, 3, .wo, 0⟩, ⟨4, 2, .wo, 0⟩]⟩,
  ⟨.shgSetResult, false, 0xB00208, 1, 0x0, 1, 0x0, none, [⟨0, 4, .ro, 0⟩, ⟨4, 3, .ro, 0⟩, ⟨7, 1, .rw1c, 0⟩]⟩]

/-- Registers of the privileged view from offset 0xB00300 on. -/
def regMap16 : List RegRow := [
  ⟨.shgHistCtrl, false, 0xB00300, 1, 0x0, 1, 0x0, none, [⟨0, 1, .rw, 0⟩, ⟨1, 10, .rw, 0⟩, ⟨11, 1, .wo, 0⟩]⟩,
  ⟨.shgPageCnt, false, 0xB00500, 2, 0x8, 1, 0x0, none, [⟨0, 32, .rc, 0⟩, ⟨32, 32, .rc, 0⟩]⟩,
  ⟨.shgEvtCnt, false, 0xB00510, 2, 0x8, 1, 0x0, none, [⟨0, 16, .rc, 0⟩, ⟨16, 16, .rc, 0⟩, ⟨32, 16, .rc, 0⟩, ⟨48, 16, .rc, 0⟩]⟩,
  ⟨.shgCcCnt, false, 0xB00520, 2, 0x8, 1, 0x0, none, [⟨0, 32, .rc, 0⟩, ⟨32, 32, .rc, 0⟩]⟩,
  ⟨.shgErrLast, false, 0xB00600, 1, 0x0, 1, 0x0, none, [⟨0, 4, .ro, 0⟩, ⟨4, 2, .ro, 0⟩, ⟨6, 10, .ro, 0⟩, ⟨16, 40, .ro, 0⟩, ⟨56, 1, .ro, 0⟩]⟩,
  ⟨.shgClass, false, 0xB00700, 2, 0x80, 16, 0x8, none, [⟨0, 24, .ro, 0⟩, ⟨24, 24, .ro, 0⟩]⟩,
  ⟨.shgHist, false, 0xB00800, 153, 0x8, 1, 0x0, none, [⟨0, 32, .ro, 0⟩, ⟨32, 32, .ro, 0⟩]⟩,
  ⟨.shgSetLen, false, 0xB01000, 1, 0x0, 1, 0x0, none, [⟨0, 64, .rw, 0x8888888888888888⟩]⟩,
  ⟨.shgSetLen, false, 0xB01008, 1, 0x0, 1, 0x0, none, [⟨0, 64, .rw, 0x8888888888888888⟩]⟩,
  ⟨.shgSetLen, false, 0xB01010, 1, 0x0, 1, 0x0, none, [⟨0, 64, .rw, 0x8888888888888888⟩]⟩]

/-- Registers of the privileged view from offset 0xB01018 on. -/
def regMap17 : List RegRow := [
  ⟨.shgSetLen, false, 0xB01018, 1, 0x0, 1, 0x0, none, [⟨0, 64, .rw, 0x8888888888888888⟩]⟩,
  ⟨.shgSetLen, false, 0xB01020, 1, 0x0, 1, 0x0, none, [⟨0, 64, .rw, 0x8888888888888888⟩]⟩,
  ⟨.shgSetLen, false, 0xB01028, 1, 0x0, 1, 0x0, none, [⟨0, 64, .rw, 0x8888888888888888⟩]⟩,
  ⟨.shgSetLen, false, 0xB01030, 1, 0x0, 1, 0x0, none, [⟨0, 64, .rw, 0x8888888888888888⟩]⟩,
  ⟨.shgSetLen, false, 0xB01038, 1, 0x0, 1, 0x0, none, [⟨0, 64, .rw, 0x8888888888888888⟩]⟩,
  ⟨.shgSetLen, false, 0xB01040, 1, 0x0, 1, 0x0, none, [⟨0, 64, .rw, 0x8888888888888888⟩]⟩,
  ⟨.shgSetLen, false, 0xB01048, 1, 0x0, 1, 0x0, none, [⟨0, 64, .rw, 0x9999999999999999⟩]⟩,
  ⟨.shgSetLen, false, 0xB01050, 1, 0x0, 1, 0x0, none, [⟨0, 64, .rw, 0x9999999999999999⟩]⟩,
  ⟨.shgSetLen, false, 0xB01058, 1, 0x0, 1, 0x0, none, [⟨0, 64, .rw, 0x9999999999999999⟩]⟩,
  ⟨.shgSetLen, false, 0xB01060, 1, 0x0, 1, 0x0, none, [⟨0, 64, .rw, 0x9999999999999999⟩]⟩]

/-- Registers of the privileged view from offset 0xB01068 on. -/
def regMap18 : List RegRow := [
  ⟨.shgSetLen, false, 0xB01068, 1, 0x0, 1, 0x0, none, [⟨0, 64, .rw, 0x9999999999999999⟩]⟩,
  ⟨.shgSetLen, false, 0xB01070, 1, 0x0, 1, 0x0, none, [⟨0, 64, .rw, 0x9999999999999999⟩]⟩,
  ⟨.shgSetLen, false, 0xB01078, 1, 0x0, 1, 0x0, none, [⟨0, 64, .rw, 0x9999999999999999⟩]⟩,
  ⟨.shgSetLen, false, 0xB01080, 1, 0x0, 1, 0x0, none, [⟨0, 64, .rw, 0x7777777777777777⟩]⟩,
  ⟨.shgSetLen, false, 0xB01088, 1, 0x0, 1, 0x0, none, [⟨0, 64, .rw, 0x4477888877777777⟩]⟩,
  ⟨.shgSetLen, false, 0xB01090, 1, 0x0, 1, 0x0, none, [⟨0, 64, .rw, 0x5555554444444444⟩]⟩,
  ⟨.shgSetLen, false, 0xB01098, 1, 0x0, 1, 0x0, none, [⟨0, 8, .rw, 0x55⟩]⟩,
  ⟨.shgSetLen, false, 0xB010A0, 7, 0xA0, 19, 0x8, none, [⟨0, 64, .rw, 0⟩]⟩,
  ⟨.shgSetLen, false, 0xB01138, 7, 0xA0, 1, 0x0, none, [⟨0, 8, .rw, 0⟩]⟩,
  ⟨.tierCfg, false, 0xC00000, 1, 0x0, 1, 0x0, none, [⟨0, 16, .rw, 0x3c⟩, ⟨16, 3, .rw, 1⟩, ⟨19, 4, .rw, 8⟩, ⟨23, 8, .rw, 8⟩, ⟨31, 16, .rw, 0⟩]⟩]

/-- Registers of the privileged view from offset 0xC00008 on. -/
def regMap19 : List RegRow := [
  ⟨.tierCapCfg, false, 0xC00008, 1, 0x0, 1, 0x0, none, [⟨0, 10, .rw, 0x28⟩, ⟨10, 10, .rw, 0x14⟩, ⟨20, 10, .rw, 5⟩, ⟨30, 10, .rw, 2⟩]⟩,
  ⟨.tierStatus, false, 0xC00010, 2, 0x8, 1, 0x0, none, [⟨0, 2, .ro, 0⟩, ⟨2, 1, .ro, 0⟩, ⟨3, 1, .ro, 0⟩, ⟨4, 32, .ro, 0⟩]⟩,
  ⟨.tierCap, false, 0xC00020, 2, 0x10, 1, 0x0, none, [⟨0, 28, .ro, 0⟩, ⟨28, 28, .ro, 0⟩]⟩,
  ⟨.tierHead, false, 0xC00028, 2, 0x10, 1, 0x0, none, [⟨0, 29, .ro, 0⟩]⟩,
  ⟨.tierEvt, false, 0xC00040, 1, 0x0, 1, 0x0, none, [⟨0, 1, .rw1c, 0⟩, ⟨1, 1, .rw1c, 0⟩, ⟨2, 1, .rw1c, 0⟩, ⟨3, 1, .rw1c, 0⟩, ⟨4, 1, .rw1c, 0⟩, ⟨5, 1, .rw1c, 0⟩, ⟨6, 1, .rw1c, 0⟩]⟩,
  ⟨.tierMoveCnt, false, 0xC00050, 2, 0x8, 1, 0x0, none, [⟨0, 24, .rc, 0⟩, ⟨24, 24, .rc, 0⟩, ⟨48, 16, .rc, 0⟩]⟩,
  ⟨.tierDom, false, 0xC01000, 1024, 0x8, 1, 0x0, none, [⟨0, 8, .rw, 2⟩, ⟨8, 8, .rw, 0x20⟩]⟩,
  ⟨.protCfg, false, 0xD00000, 1, 0x0, 1, 0x0, some 0xD000F8, [⟨0, 1, .rwl, 1⟩, ⟨1, 1, .rwl, 1⟩, ⟨2, 5, .rwl, 4⟩]⟩,
  ⟨.protStatus, false, 0xD00008, 2, 0x8, 1, 0x0, none, [⟨0, 15, .ro, 0⟩, ⟨15, 16, .ro, 0⟩, ⟨31, 1, .ro, 0⟩]⟩,
  ⟨.protLock, false, 0xD000F8, 1, 0x0, 1, 0x0, none, [⟨0, 1, .rw1s, 0⟩]⟩]

/-- Registers of the privileged view from offset 0xD00100 on. -/
def regMap20 : List RegRow := [
  ⟨.protErrCnt, false, 0xD00100, 1, 0x0, 1, 0x0, none, [⟨0, 16, .rc, 0⟩, ⟨16, 16, .rc, 0⟩, ⟨32, 16, .rc, 0⟩, ⟨48, 16, .rc, 0⟩]⟩,
  ⟨.protEvtCnt, false, 0xD00108, 1, 0x0, 1, 0x0, none, [⟨0, 32, .rc, 0⟩, ⟨32, 32, .rc, 0⟩]⟩,
  ⟨.protAlarmLast, false, 0xD00110, 1, 0x0, 1, 0x0, none, [⟨0, 4, .ro, 0⟩, ⟨4, 10, .ro, 0⟩, ⟨14, 42, .ro, 0⟩, ⟨56, 4, .ro, 0⟩, ⟨60, 1, .ro, 0⟩]⟩,
  ⟨.protDevPub, false, 0xD00200, 12, 0x8, 1, 0x0, none, [⟨0, 64, .ro, 0⟩]⟩,
  ⟨.protWrap, false, 0xD00400, 32, 0x8, 1, 0x0, none, [⟨0, 64, .wo, 0⟩]⟩,
  ⟨.protKeyCmd, false, 0xD00500, 1, 0x0, 1, 0x0, none, [⟨0, 11, .wo, 0⟩, ⟨11, 2, .wo, 0⟩]⟩,
  ⟨.protKeyResult, false, 0xD00508, 1, 0x0, 1, 0x0, none, [⟨0, 4, .ro, 0⟩, ⟨4, 11, .ro, 0⟩, ⟨15, 1, .rw1c, 0⟩, ⟨16, 1, .ro, 0⟩]⟩,
  ⟨.protKeyState, false, 0xD01000, 1032, 0x8, 1, 0x0, none, [⟨0, 1, .ro, 0⟩, ⟨1, 2, .ro, 0⟩, ⟨3, 1, .ro, 0⟩, ⟨4, 48, .ro, 0⟩]⟩,
  ⟨.protDom, false, 0xD04000, 1024, 0x8, 1, 0x0, none, [⟨0, 4, .ro, 0⟩, ⟨4, 1, .ro, 0⟩, ⟨5, 16, .ro, 0⟩]⟩,
  ⟨.twCfg, false, 0xE00000, 2, 0x10000, 1, 0x0, none, [⟨0, 1, .rw, 1⟩, ⟨1, 4, .rw, 4⟩, ⟨5, 16, .rw, 0x64⟩, ⟨21, 11, .rw, 0xc8⟩, ⟨32, 15, .rw, 0xbb8⟩, ⟨47, 16, .rw, 0x3e8⟩]⟩,
  ⟨.twVcBuf, false, 0xE00008, 2, 0x10000, 1, 0x0, none, [⟨0, 7, .rw, 8⟩, ⟨7, 7, .rw, 0x30⟩, ⟨14, 7, .rw, 0x30⟩, ⟨21, 7, .rw, 0x18⟩, ⟨28, 7, .rw, 0⟩, ⟨35, 7, .rw, 0⟩, ⟨42, 7, .rw, 0⟩, ⟨49, 7, .rw, 0⟩]⟩,
  ⟨.twVcMap, false, 0xE00010, 2, 0x10000, 1, 0x0, none, [⟨0, 3, .rw, 1⟩, ⟨3, 3, .rw, 2⟩, ⟨6, 3, .rw, 3⟩, ⟨9, 3, .rw, 3⟩]⟩,
  ⟨.twCtrl, false, 0xE00018, 2, 0x10000, 1, 0x0, none, [⟨0, 1, .wo, 0⟩]⟩,
  ⟨.twStatus, false, 0xE00020, 2, 0x10000, 1, 0x0, none, [⟨0, 3, .ro, 0⟩, ⟨3, 2, .ro, 0⟩, ⟨5, 2, .ro, 0⟩, ⟨7, 8, .ro, 0⟩, ⟨15, 12, .ro, 0⟩, ⟨27, 2, .ro, 0⟩, ⟨29, 1, .ro, 0⟩, ⟨30, 1, .ro, 0⟩, ⟨31, 1, .ro, 0⟩, ⟨32, 4, .ro, 0⟩, ⟨36, 4, .ro, 0⟩]⟩,
  ⟨.twSeq, false, 0xE00028, 2, 0x10000, 1, 0x0, none, [⟨0, 12, .ro, 0⟩, ⟨12, 12, .ro, 0⟩, ⟨24, 11, .ro, 0⟩, ⟨35, 1, .ro, 0⟩, ⟨36, 12, .ro, 0⟩]⟩,
  ⟨.twCntReplay, false, 0xE00030, 2, 0x10000, 1, 0x0, none, [⟨0, 16, .rc, 0⟩, ⟨16, 16, .rc, 0⟩, ⟨32, 16, .rc, 0⟩, ⟨48, 16, .rc, 0⟩]⟩,
  ⟨.twCntErr, false, 0xE00038, 2, 0x10000, 1, 0x0, none, [⟨0, 16, .rc, 0⟩, ⟨16, 16, .rc, 0⟩, ⟨32, 16, .rc, 0⟩, ⟨48, 16, .rc, 0⟩]⟩,
  ⟨.twCntFec, false, 0xE00040, 2, 0x10000, 1, 0x0, none, [⟨0, 48, .rc, 0⟩]⟩,
  ⟨.twEvt, false, 0xE00048, 2, 0x10000, 1, 0x0, none, [⟨0, 1, .rw1c, 0⟩, ⟨1, 1, .rw1c, 0⟩, ⟨2, 1, .rw1c, 0⟩, ⟨3, 1, .rw1c, 0⟩, ⟨4, 1, .rw1c, 0⟩, ⟨5, 1, .rw1c, 0⟩]⟩,
  ⟨.twVcStatus, false, 0xE00100, 2, 0x10000, 8, 0x8, none, [⟨0, 12, .ro, 0⟩, ⟨12, 12, .ro, 0⟩]⟩]

/-- Registers of the privileged view from offset 0xE80000 on. -/
def regMap21 : List RegRow := [
  ⟨.mirCfg, false, 0xE80000, 1, 0x0, 1, 0x0, none, [⟨0, 16, .rw, 0x1e⟩, ⟨16, 8, .rw, 0x10⟩, ⟨24, 16, .rw, 0x3e8⟩, ⟨40, 11, .rw, 0x100⟩, ⟨51, 10, .rw, 0⟩]⟩,
  ⟨.mirKeyset, false, 0xE80008, 1, 0x0, 1, 0x0, none, [⟨0, 1, .rwt, 0⟩, ⟨1, 1, .rwt, 0⟩]⟩,
  ⟨.mirCommitResult, false, 0xE80010, 1, 0x0, 1, 0x0, none, [⟨0, 4, .ro, 0⟩, ⟨4, 10, .ro, 0⟩, ⟨14, 1, .rw1c, 0⟩]⟩,
  ⟨.mirCut, false, 0xE80018, 2, 0x8, 1, 0x0, none, [⟨0, 64, .ro, 0⟩]⟩,
  ⟨.mirHwm, false, 0xE80028, 2, 0x8, 1, 0x0, none, [⟨0, 64, .ro, 0⟩]⟩,
  ⟨.mirStatus, false, 0xE80038, 2, 0x8, 1, 0x0, none, [⟨0, 16, .ro, 0xffff⟩, ⟨16, 16, .ro, 0⟩, ⟨32, 1, .ro, 0⟩, ⟨33, 11, .ro, 0⟩, ⟨44, 1, .ro, 0⟩]⟩,
  ⟨.mirEvt, false, 0xE80048, 1, 0x0, 1, 0x0, none, [⟨0, 1, .rw1c, 0⟩, ⟨1, 1, .rw1c, 0⟩, ⟨2, 1, .rw1c, 0⟩, ⟨3, 1, .rw1c, 0⟩, ⟨4, 1, .rw1c, 0⟩, ⟨5, 1, .rw1c, 0⟩, ⟨6, 1, .rw1c, 0⟩, ⟨7, 1, .rw1c, 0⟩]⟩,
  ⟨.mirCnt, false, 0xE80050, 2, 0x8, 1, 0x0, none, [⟨0, 16, .rc, 0⟩, ⟨16, 16, .rc, 0⟩, ⟨32, 16, .rc, 0⟩, ⟨48, 16, .rc, 0⟩]⟩,
  ⟨.mirDomW0, false, 0xE81000, 1024, 0x10, 1, 0x0, none, [⟨0, 2, .rwt, 0⟩, ⟨2, 10, .rwt, 0⟩, ⟨12, 1, .rwt, 0⟩]⟩,
  ⟨.mirDomW1, false, 0xE81008, 1024, 0x10, 1, 0x0, none, [⟨0, 32, .rwt, 0⟩]⟩]

/-- Registers of the privileged view from offset 0xE85000 on. -/
def regMap22 : List RegRow := [
  ⟨.mirDomStateW0, false, 0xE85000, 1024, 0x10, 1, 0x0, none, [⟨0, 4, .ro, 0⟩, ⟨4, 1, .ro, 0⟩, ⟨5, 1, .ro, 0⟩, ⟨6, 1, .ro, 0⟩, ⟨7, 1, .ro, 0⟩, ⟨8, 27, .ro, 0⟩, ⟨35, 29, .ro, 0⟩]⟩,
  ⟨.mirDomStateW1, false, 0xE85008, 1024, 0x10, 1, 0x0, none, [⟨0, 64, .ro, 0⟩]⟩,
  ⟨.oflCfg, false, 0xF00000, 1, 0x0, 1, 0x0, some 0xF000F8, [⟨0, 2, .rwl, 1⟩]⟩,
  ⟨.oflLock, false, 0xF000F8, 1, 0x0, 1, 0x0, none, [⟨0, 1, .rw1s, 0⟩]⟩,
  ⟨.pmuGlobal, false, 0x1000000, 1, 0x0, 1, 0x0, none, [⟨0, 1, .rw, 0⟩]⟩,
  ⟨.pmuUserEn, false, 0x1000100, 4, 0x8, 1, 0x0, none, [⟨0, 64, .rw, 0⟩]⟩,
  ⟨.pmuCtl, false, 0x1100000, 2, 0x100000, 64, 0x8, none, [⟨0, 1, .rw, 0⟩, ⟨1, 1, .rw, 0⟩, ⟨2, 4, .rw, 0⟩, ⟨6, 5, .rw, 0⟩, ⟨11, 7, .rw, 0⟩, ⟨18, 1, .rw, 0⟩, ⟨19, 10, .rw, 0⟩]⟩,
  ⟨.pmuCnt, false, 0x1100400, 2, 0x100000, 64, 0x8, none, [⟨0, 48, .rw, 0⟩]⟩,
  ⟨.pmuFix, false, 0x1100800, 2, 0x100000, 8, 0x8, none, [⟨0, 48, .rw, 0⟩]⟩,
  ⟨.pmuSnap, false, 0x1100900, 2, 0x100000, 64, 0x8, none, [⟨0, 48, .ro, 0⟩]⟩,
  ⟨.pmuSnapFix, false, 0x1100B00, 2, 0x100000, 8, 0x8, none, [⟨0, 48, .ro, 0⟩]⟩,
  ⟨.pmuSnapTime, false, 0x1100C00, 2, 0x100000, 1, 0x0, none, [⟨0, 64, .ro, 0⟩]⟩,
  ⟨.pmuSnapSeq, false, 0x1100C08, 2, 0x100000, 1, 0x0, none, [⟨0, 32, .ro, 0⟩]⟩,
  ⟨.pmuOvfGen, false, 0x1100C10, 2, 0x100000, 1, 0x0, none, [⟨0, 64, .rw1c, 0⟩]⟩,
  ⟨.pmuOvfFix, false, 0x1100C18, 2, 0x100000, 1, 0x0, none, [⟨0, 8, .rw1c, 0⟩]⟩,
  ⟨.pmuSmpCfg, false, 0x1101000, 2, 0x100000, 1, 0x0, none, [⟨0, 1, .rw, 0⟩, ⟨1, 1, .rw, 0⟩, ⟨2, 24, .rw, 0x1000⟩, ⟨26, 16, .rw, 0⟩]⟩,
  ⟨.pmuSmpFilter, false, 0x1101008, 2, 0x100000, 1, 0x0, none, [⟨0, 1, .rw, 0⟩, ⟨1, 10, .rw, 0⟩, ⟨11, 8, .rw, 0xff⟩, ⟨19, 1, .rw, 1⟩, ⟨20, 1, .rw, 1⟩, ⟨21, 1, .rw, 1⟩]⟩,
  ⟨.pmuSmpStatus, false, 0x1101010, 2, 0x100000, 1, 0x0, none, [⟨0, 32, .ro, 0⟩, ⟨32, 16, .rc, 0⟩]⟩,
  ⟨.pmuSmpCons, false, 0x1101018, 2, 0x100000, 1, 0x0, none, [⟨0, 32, .rw, 0⟩]⟩,
  ⟨.pmuStreamLd, false, 0x1101020, 2, 0x100000, 1, 0x0, none, [⟨0, 4, .rw, 0⟩, ⟨4, 4, .rw, 0⟩, ⟨8, 1, .rw, 0⟩]⟩,
  ⟨.pmuSmpRing, false, 0x1140000, 2, 0x100000, 32768, 0x8, none, [⟨0, 64, .ro, 0⟩]⟩]

/-- Registers of BAR0 from offset 0x0 on. -/
def regMap23 : List RegRow := [
  ⟨.uvId, true, 0x0, 1, 0x0, 1, 0x0, none, [⟨0, 16, .ro, 0xc1a0⟩, ⟨16, 16, .ro, 0x9624⟩, ⟨32, 8, .ro, 1⟩, ⟨40, 2, .ro, 0⟩]⟩,
  ⟨.uvLdInfo, true, 0x8, 1, 0x0, 1, 0x0, none, [⟨0, 4, .ro, 0⟩, ⟨4, 4, .ro, 0⟩, ⟨8, 1, .ro, 0⟩, ⟨9, 1, .ro, 0⟩, ⟨10, 1, .ro, 0⟩, ⟨11, 1, .ro, 0⟩]⟩,
  ⟨.featureOffered, true, 0x20, 4, 0x8, 1, 0x0, none, [⟨0, 64, .ro, 0⟩]⟩,
  ⟨.featureAccepted, true, 0x40, 4, 0x8, 1, 0x0, none, [⟨0, 64, .rw, 0⟩]⟩,
  ⟨.featureCtrl, true, 0x60, 1, 0x0, 1, 0x0, none, [⟨0, 1, .rw1s, 0⟩]⟩,
  ⟨.oflRingBase, true, 0x1000, 4, 0x100, 1, 0x0, none, [⟨12, 52, .rw, 0⟩]⟩,
  ⟨.oflRingCbase, true, 0x1008, 4, 0x100, 1, 0x0, none, [⟨12, 52, .rw, 0⟩]⟩,
  ⟨.oflRingCfg, true, 0x1010, 4, 0x100, 1, 0x0, none, [⟨0, 16, .rw, 0⟩, ⟨16, 6, .rw, 0⟩]⟩,
  ⟨.oflRingCtrl, true, 0x1018, 4, 0x100, 1, 0x0, none, [⟨0, 1, .rw, 0⟩, ⟨1, 1, .wo, 0⟩]⟩,
  ⟨.oflRingTail, true, 0x1020, 4, 0x100, 1, 0x0, none, [⟨0, 15, .rw, 0⟩]⟩,
  ⟨.oflRingHead, true, 0x1028, 4, 0x100, 1, 0x0, none, [⟨0, 15, .rw, 0⟩]⟩,
  ⟨.oflRingStatus, true, 0x1030, 4, 0x100, 1, 0x0, none, [⟨0, 2, .ro, 0⟩, ⟨2, 3, .ro, 0⟩, ⟨5, 5, .ro, 0⟩]⟩]

/-- Registers of BAR0 from offset 0x2000 on. -/
def regMap24 : List RegRow := [
  ⟨.oflAbort, true, 0x2000, 4, 0x100, 16, 0x10, none, [⟨0, 8, .ro, 0⟩, ⟨8, 1, .ro, 0⟩, ⟨16, 16, .ro, 0⟩, ⟨32, 15, .ro, 0⟩]⟩,
  ⟨.oflAbortW1, true, 0x2008, 4, 0x100, 16, 0x10, none, [⟨0, 32, .ro, 0⟩, ⟨32, 32, .ro, 0⟩]⟩,
  ⟨.uvPmu, true, 0x4000, 8, 0x8, 1, 0x0, none, [⟨0, 48, .ro, 0⟩]⟩,
  ⟨.uvSmpBase, true, 0x4100, 1, 0x0, 1, 0x0, none, [⟨12, 52, .rw, 0⟩]⟩,
  ⟨.uvSmpCfg, true, 0x4108, 1, 0x0, 1, 0x0, none, [⟨0, 5, .rw, 6⟩, ⟨5, 1, .rw, 0⟩]⟩,
  ⟨.uvSmpProd, true, 0x4110, 1, 0x0, 1, 0x0, none, [⟨0, 32, .ro, 0⟩]⟩,
  ⟨.uvSmpCons, true, 0x4118, 1, 0x0, 1, 0x0, none, [⟨0, 32, .rw, 0⟩]⟩,
  ⟨.uvSmpStatus, true, 0x4120, 1, 0x0, 1, 0x0, none, [⟨0, 1, .ro, 0⟩, ⟨1, 16, .rc, 0⟩]⟩,
  ⟨.uvEvt, true, 0x6000, 512, 0x8, 1, 0x0, none, [⟨0, 64, .ro, 0⟩]⟩,
  ⟨.uvEvtProd, true, 0x7000, 1, 0x0, 1, 0x0, none, [⟨0, 16, .ro, 0⟩]⟩]

/-- Registers of BAR0 from offset 0x7008 on. -/
def regMap25 : List RegRow := [
  ⟨.uvEvtCons, true, 0x7008, 1, 0x0, 1, 0x0, none, [⟨0, 16, .rw, 0⟩]⟩,
  ⟨.uvEvtStatus, true, 0x7010, 1, 0x0, 1, 0x0, none, [⟨0, 1, .rw1c, 0⟩]⟩,
  ⟨.uvEvtCtrl, true, 0x7018, 1, 0x0, 1, 0x0, none, [⟨0, 6, .rw, 0⟩, ⟨6, 1, .rw, 0⟩]⟩,
  ⟨.uvMboxCmd, true, 0x7020, 1, 0x0, 1, 0x0, none, [⟨0, 16, .wo, 0⟩]⟩,
  ⟨.uvMboxStatus, true, 0x7028, 1, 0x0, 1, 0x0, none, [⟨0, 1, .ro, 0⟩, ⟨1, 1, .rw1c, 0⟩, ⟨2, 2, .ro, 0⟩]⟩,
  ⟨.uvMboxPayload, true, 0x7800, 256, 0x8, 1, 0x0, none, [⟨0, 64, .rw, 0⟩]⟩,
  ⟨.msixAddr, true, 0xC000, 64, 0x10, 1, 0x0, none, [⟨0, 64, .rw, 0⟩]⟩,
  ⟨.msixData, true, 0xC008, 64, 0x10, 1, 0x0, none, [⟨0, 32, .rw, 0⟩, ⟨32, 1, .rw, 1⟩]⟩,
  ⟨.msixPba, true, 0xD000, 1, 0x0, 1, 0x0, none, [⟨0, 64, .ro, 0⟩]⟩]

/-- The rows among which an offset of a view lies: BAR0 (true) or the privileged view. -/
def regPart (bar0 : Bool) (off : Nat) : List RegRow :=
  if bar0 then (if off < 0x2000 then regMap23 else (if off < 0x7008 then regMap24 else regMap25))
  else (if off < 0x800010 then (if off < 0x300070 then (if off < 0x100020 then (if off < 0x210 then regMap1 else
    regMap2) else (if off < 0x200020 then regMap3 else (if off < 0x300020 then regMap4 else regMap5))) else (if
    off < 0x600000 then (if off < 0x340028 then regMap6 else (if off < 0x400038 then regMap7 else regMap8)) else
    (if off < 0x680000 then regMap9 else (if off < 0x710000 then regMap10 else regMap11)))) else (if off <
    0xB01018 then (if off < 0x89A000 then (if off < 0x860000 then regMap12 else regMap13) else (if off < 0xA80000
    then regMap14 else (if off < 0xB00300 then regMap15 else regMap16))) else (if off < 0xD00100 then (if off <
    0xB01068 then regMap17 else (if off < 0xC00008 then regMap18 else regMap19)) else (if off < 0xE80000 then
    regMap20 else (if off < 0xE85000 then regMap21 else regMap22)))))

/-- The indices of the instance of a row that lies at an offset. -/
def RegRow.index (r : RegRow) (off : Nat) : Option (Nat × Nat) :=
  if off < r.base then none
  else
    let d := off - r.base
    let i := if r.s1 = 0 then 0 else d / r.s1
    let rem := d - i * r.s1
    let j := if r.s2 = 0 then 0 else rem / r.s2
    if i < r.n1 ∧ j < r.n2 ∧ rem = j * r.s2 then some (i, j) else none

/-- Keys of the register store: an offset of the privileged view as it stands; the value in effect of an RWT register at
`effBase` above its offset; offset `o` of the BAR0 of function `fn` (port × 17 + LD, 16 for the FM-owned LD or the G-FAM
function) at `bar0Base` × (1 + fn) + o. -/
def bar0Base : Nat := 0x100000000

/-- Where the values in effect stand (11_tide_clock R268; log 9). -/
def effBase : Nat := 0x1000000000000

/-- The view and the offset of a key. -/
def keyView (k : Nat) : Bool × Nat :=
  let k := if effBase ≤ k then k - effBase else k
  if bar0Base ≤ k then (true, k % bar0Base) else (false, k)

/-- The row of the register map that a key names. -/
def regRow (k : Nat) : Option RegRow :=
  let v := keyView k
  (regPart v.1 v.2).find? (fun r => (r.index v.2).isSome)

/-- The value of the fields at reset. -/
def fieldsReset : List RegField → Nat
  | [] => 0
  | f :: fs => f.reset * 2 ^ f.lsb + fieldsReset fs

/-- What a register holds at reset (R18; the register tables). -/
def regReset (k : Nat) : Word :=
  match regRow k with
  | some r => BitVec.ofNat 64 (fieldsReset r.fields)
  | none => 0

end Sys2Proof.Machine
end

