-- ==== Sys2Proof/Machine/Regs.lean ====
section
/-! DEFINITION. Names for the registers and fields that the meanings use (offsets: 19_register_map Tables 19.4, 19.5;
bits: the register tables of the chapters). -/

namespace Sys2Proof.Machine

/-- A field of a register: the register's key, the field's lowest bit and its width. -/
structure Fld where
  key : Nat
  lsb : Nat
  width : Nat
  deriving DecidableEq, Repr

/-- The same field of the value in effect (11_tide_clock R268). -/
def Fld.eff (f : Fld) : Fld := { f with key := f.key + effBase }

/-- UV_ID -/
def uvId (fn : Nat) : Nat := 0x100000000 * (1 + fn) + 0x0
/-- UV_ID.ORDER_CODE -/
def uvIdOrderCode (fn : Nat) : Fld := ⟨uvId fn, 40, 2⟩
/-- UV_LD_INFO -/
def uvLdInfo (fn : Nat) : Nat := 0x100000000 * (1 + fn) + 0x8
/-- UV_LD_INFO.PORT -/
def uvLdInfoPort (fn : Nat) : Fld := ⟨uvLdInfo fn, 0, 4⟩
/-- UV_LD_INFO.LD_ID -/
def uvLdInfoLdId (fn : Nat) : Fld := ⟨uvLdInfo fn, 4, 4⟩
/-- UV_LD_INFO.PRIV_OWNER_ACTIVE -/
def uvLdInfoPrivOwnerActive (fn : Nat) : Fld := ⟨uvLdInfo fn, 8, 1⟩
/-- UV_LD_INFO.MEM_ACTIVE -/
def uvLdInfoMemActive (fn : Nat) : Fld := ⟨uvLdInfo fn, 9, 1⟩
/-- UV_LD_INFO.RATE_128 -/
def uvLdInfoRate128 (fn : Nat) : Fld := ⟨uvLdInfo fn, 10, 1⟩
/-- UV_LD_INFO.FM_LD -/
def uvLdInfoFmLd (fn : Nat) : Fld := ⟨uvLdInfo fn, 11, 1⟩
/-- FEATURE_OFFERED -/
def featureOffered (fn i : Nat) : Nat := 0x100000000 * (1 + fn) + 0x20 + i * 0x8
/-- FEATURE_ACCEPTED -/
def featureAccepted (fn i : Nat) : Nat := 0x100000000 * (1 + fn) + 0x40 + i * 0x8
/-- FEATURE_ACCEPTED.ACCEPTED -/
def featureAcceptedAccepted (fn i : Nat) : Fld := ⟨featureAccepted fn i, 0, 64⟩
/-- FEATURE_CTRL -/
def featureCtrl (fn : Nat) : Nat := 0x100000000 * (1 + fn) + 0x60
/-- FEATURE_CTRL.LOCK -/
def featureCtrlLock (fn : Nat) : Fld := ⟨featureCtrl fn, 0, 1⟩
/-- HP_PORT_CFG -/
def hpPortCfg (i : Nat) : Nat := 0x500000 + i * 0x10000
/-- HP_PORT_CFG.ENABLE -/
def hpPortCfgEnable (i : Nat) : Fld := ⟨hpPortCfg i, 0, 1⟩
/-- HP_PORT_CFG.WIDTH -/
def hpPortCfgWidth (i : Nat) : Fld := ⟨hpPortCfg i, 1, 2⟩
/-- HP_PORT_CFG.FIRST_QUAD -/
def hpPortCfgFirstQuad (i : Nat) : Fld := ⟨hpPortCfg i, 3, 4⟩
/-- HP_PORT_CFG.MODE -/
def hpPortCfgMode (i : Nat) : Fld := ⟨hpPortCfg i, 7, 2⟩
/-- HP_PORT_CFG.MAX_RATE -/
def hpPortCfgMaxRate (i : Nat) : Fld := ⟨hpPortCfg i, 9, 3⟩
/-- HP_PORT_CFG.LD_COUNT -/
def hpPortCfgLdCount (i : Nat) : Fld := ⟨hpPortCfg i, 12, 5⟩
/-- HP_PORT_CFG.LAT_OPT_FLIT -/
def hpPortCfgLatOptFlit (i : Nat) : Fld := ⟨hpPortCfg i, 17, 1⟩
/-- HP_PORT_STATUS -/
def hpPortStatus (i : Nat) : Nat := 0x500008 + i * 0x10000
/-- HP_PORT_STATUS.LINK_UP -/
def hpPortStatusLinkUp (i : Nat) : Fld := ⟨hpPortStatus i, 0, 1⟩
/-- HP_PORT_STATUS.CUR_RATE -/
def hpPortStatusCurRate (i : Nat) : Fld := ⟨hpPortStatus i, 1, 3⟩
/-- HP_PORT_STATUS.CUR_WIDTH -/
def hpPortStatusCurWidth (i : Nat) : Fld := ⟨hpPortStatus i, 4, 3⟩
/-- HP_PORT_STATUS.LAT_OPT_ACTIVE -/
def hpPortStatusLatOptActive (i : Nat) : Fld := ⟨hpPortStatus i, 7, 1⟩
/-- HP_PORT_STATUS.TRAIN_FAIL -/
def hpPortStatusTrainFail (i : Nat) : Fld := ⟨hpPortStatus i, 8, 2⟩
/-- HP_PORT_STATUS.CFG_FAILED -/
def hpPortStatusCfgFailed (i : Nat) : Fld := ⟨hpPortStatus i, 10, 1⟩
/-- HP_REPLAY_CNT -/
def hpReplayCnt (i : Nat) : Nat := 0x500010 + i * 0x10000
/-- HP_REPLAY_CNT.REPLAYS -/
def hpReplayCntReplays (i : Nat) : Fld := ⟨hpReplayCnt i, 0, 32⟩
/-- HP_EVENT -/
def hpEvent (i : Nat) : Nat := 0x500018 + i * 0x10000
/-- HP_EVENT.LINK_UP -/
def hpEventLinkUp (i : Nat) : Fld := ⟨hpEvent i, 0, 1⟩
/-- HP_EVENT.LINK_DOWN -/
def hpEventLinkDown (i : Nat) : Fld := ⟨hpEvent i, 1, 1⟩
/-- HP_EVENT.PERST -/
def hpEventPerst (i : Nat) : Fld := ⟨hpEvent i, 2, 1⟩
/-- HP_EVENT.RATE_CHANGE -/
def hpEventRateChange (i : Nat) : Fld := ⟨hpEvent i, 3, 1⟩
/-- HP_EVENT.WIDTH_DEGRADE -/
def hpEventWidthDegrade (i : Nat) : Fld := ⟨hpEvent i, 4, 1⟩
/-- HP_EVENT.FLR_DONE -/
def hpEventFlrDone (i : Nat) : Fld := ⟨hpEvent i, 5, 1⟩
/-- HP_ERR_CNT -/
def hpErrCnt (i : Nat) : Nat := 0x500020 + i * 0x10000
/-- HP_ERR_CNT.BAD_ACCESS -/
def hpErrCntBadAccess (i : Nat) : Fld := ⟨hpErrCnt i, 0, 16⟩
/-- HP_ERR_CNT.UNDECODED -/
def hpErrCntUndecoded (i : Nat) : Fld := ⟨hpErrCnt i, 16, 16⟩
/-- HP_ERR_CNT.UNKNOWN_SPID -/
def hpErrCntUnknownSpid (i : Nat) : Fld := ⟨hpErrCnt i, 32, 16⟩
/-- HP_LOCK -/
def hpLock (i : Nat) : Nat := 0x5000F8 + i * 0x10000
/-- HP_LOCK.LOCK -/
def hpLockLock (i : Nat) : Fld := ⟨hpLock i, 0, 1⟩
/-- HP_LD_CFG -/
def hpLdCfg (i j : Nat) : Nat := 0x500100 + i * 0x10000 + j * 0x8
/-- HP_LD_CFG.PRIV_OWNER -/
def hpLdCfgPrivOwner (i j : Nat) : Fld := ⟨hpLdCfg i j, 0, 1⟩
/-- HP_LD_CFG.FEATURE_WITHHOLD -/
def hpLdCfgFeatureWithhold (i j : Nat) : Fld := ⟨hpLdCfg i j, 1, 8⟩
/-- DOM_CTRL -/
def domCtrl (i : Nat) : Nat := 0x600000 + i * 0x100
/-- DOM_CTRL.VALID -/
def domCtrlValid (i : Nat) : Fld := ⟨domCtrl i, 0, 1⟩
/-- DOM_CTRL.HOME_HALF -/
def domCtrlHomeHalf (i : Nat) : Fld := ⟨domCtrl i, 1, 1⟩
/-- DOM_CTRL.COHERENCE -/
def domCtrlCoherence (i : Nat) : Fld := ⟨domCtrl i, 2, 1⟩
/-- DOM_CTRL.ALLOW_DISCARD -/
def domCtrlAllowDiscard (i : Nat) : Fld := ⟨domCtrl i, 3, 1⟩
/-- DOM_WINDOW -/
def domWindow (i : Nat) : Nat := 0x600008 + i * 0x100
/-- DOM_WINDOW.BASE -/
def domWindowBase (i : Nat) : Fld := ⟨domWindow i, 0, 27⟩
/-- DOM_WINDOW.SIZE -/
def domWindowSize (i : Nat) : Fld := ⟨domWindow i, 27, 28⟩
/-- DOM_SIZES -/
def domSizes (i : Nat) : Nat := 0x600010 + i * 0x100
/-- DOM_SIZES.COMMITTED -/
def domSizesCommitted (i : Nat) : Fld := ⟨domSizes i, 0, 28⟩
/-- DOM_SIZES.CEILING -/
def domSizesCeiling (i : Nat) : Fld := ⟨domSizes i, 28, 28⟩
/-- DOM_POLICY -/
def domPolicy (i : Nat) : Nat := 0x600018 + i * 0x100
/-- DOM_POLICY.TCLASS -/
def domPolicyTclass (i : Nat) : Fld := ⟨domPolicy i, 0, 3⟩
/-- DOM_POLICY.PROT -/
def domPolicyProt (i : Nat) : Fld := ⟨domPolicy i, 3, 2⟩
/-- DOM_POLICY.TIER -/
def domPolicyTier (i : Nat) : Fld := ⟨domPolicy i, 5, 2⟩
/-- DOM_POLICY.SHG_TABLE_MODE -/
def domPolicyShgTableMode (i : Nat) : Fld := ⟨domPolicy i, 7, 1⟩
/-- DOM_POLICY.SHG_TABLE_SET -/
def domPolicyShgTableSet (i : Nat) : Fld := ⟨domPolicy i, 8, 3⟩
/-- DOM_POLICY.VERIFY_RECHECK -/
def domPolicyVerifyRecheck (i : Nat) : Fld := ⟨domPolicy i, 11, 1⟩
/-- DOM_POLICY.VERIFY_CHECKSUM -/
def domPolicyVerifyChecksum (i : Nat) : Fld := ⟨domPolicy i, 12, 1⟩
/-- DOM_POLICY.KEY_SLOT -/
def domPolicyKeySlot (i : Nat) : Fld := ⟨domPolicy i, 13, 10⟩
/-- DOM_POLICY.PIN_COUNTERS -/
def domPolicyPinCounters (i : Nat) : Fld := ⟨domPolicy i, 23, 1⟩
/-- DOM_MIRROR -/
def domMirror (i : Nat) : Nat := 0x600020 + i * 0x100
/-- DOM_MIRROR.MODE -/
def domMirrorMode (i : Nat) : Fld := ⟨domMirror i, 0, 2⟩
/-- DOM_OWNER -/
def domOwner (i : Nat) : Nat := 0x600028 + i * 0x100
/-- DOM_OWNER.SPID_GROUP -/
def domOwnerSpidGroup (i : Nat) : Fld := ⟨domOwner i, 0, 8⟩
/-- DOM_OWNER.SPID_GROUP_EN -/
def domOwnerSpidGroupEn (i : Nat) : Fld := ⟨domOwner i, 8, 1⟩
/-- DOM_OWNER_LD -/
def domOwnerLd (i j : Nat) : Nat := 0x600030 + i * 0x100 + j * 0x8
/-- DOM_OWNER_LD.LD_MASK -/
def domOwnerLdLdMask (i j : Nat) : Fld := ⟨domOwnerLd i j, 0, 64⟩
/-- DOM_STATUS -/
def domStatus (i : Nat) : Nat := 0x600080 + i * 0x100
/-- DOM_STATUS.GEN -/
def domStatusGen (i : Nat) : Fld := ⟨domStatus i, 0, 16⟩
/-- DOM_STATUS.ACTIVE -/
def domStatusActive (i : Nat) : Fld := ⟨domStatus i, 16, 1⟩
/-- DOM_STATUS.MATERIALISED -/
def domStatusMaterialised (i : Nat) : Fld := ⟨domStatus i, 17, 1⟩
/-- DOM_STATUS.STAGE_READY -/
def domStatusStageReady (i : Nat) : Fld := ⟨domStatus i, 18, 1⟩
/-- DOM_STATUS.REFUSE -/
def domStatusRefuse (i : Nat) : Fld := ⟨domStatus i, 19, 5⟩
/-- DOM_STATUS.DRAINING -/
def domStatusDraining (i : Nat) : Fld := ⟨domStatus i, 24, 1⟩
/-- DOM_MEDIA -/
def domMedia (i : Nat) : Nat := 0x680000 + i * 0x8
/-- DOM_MEDIA.USABLE -/
def domMediaUsable (i : Nat) : Fld := ⟨domMedia i, 0, 28⟩
/-- DOM_MEDIA.RESERVE -/
def domMediaReserve (i : Nat) : Fld := ⟨domMedia i, 28, 28⟩
/-- DOM_ADMIT -/
def domAdmit (i : Nat) : Nat := 0x680010 + i * 0x8
/-- DOM_ADMIT.CHARGED -/
def domAdmitCharged (i : Nat) : Fld := ⟨domAdmit i, 0, 28⟩
/-- DOM_ADMIT.CHARGED_SHADOW -/
def domAdmitChargedShadow (i : Nat) : Fld := ⟨domAdmit i, 28, 28⟩
/-- DOM_COMMIT_RESULT -/
def domCommitResult : Nat := 0x680020
/-- DOM_COMMIT_RESULT.REASON -/
def domCommitResultReason : Fld := ⟨domCommitResult, 0, 5⟩
/-- DOM_COMMIT_RESULT.DOMAIN -/
def domCommitResultDomain : Fld := ⟨domCommitResult, 5, 10⟩
/-- DOM_COMMIT_RESULT.LD -/
def domCommitResultLd : Fld := ⟨domCommitResult, 15, 8⟩
/-- DOM_COMMIT_RESULT.RANGE -/
def domCommitResultRange : Fld := ⟨domCommitResult, 23, 3⟩
/-- DOM_COMMIT_RESULT.REFUSED -/
def domCommitResultRefused : Fld := ⟨domCommitResult, 26, 1⟩
/-- MAP_CFG -/
def mapCfg : Nat := 0x700000
/-- MAP_CFG.PIN_MIB -/
def mapCfgPinMib : Fld := ⟨mapCfg, 0, 5⟩
/-- MAP_LOCK -/
def mapLock : Nat := 0x7000F8
/-- MAP_LOCK.LOCK -/
def mapLockLock : Fld := ⟨mapLock, 0, 1⟩
/-- MAP_ZERO_ARG0 -/
def mapZeroArg0 : Nat := 0x700100
/-- MAP_ZERO_ARG0.DOMAIN -/
def mapZeroArg0Domain : Fld := ⟨mapZeroArg0, 0, 10⟩
/-- MAP_ZERO_ARG0.FIRST_PAGE -/
def mapZeroArg0FirstPage : Fld := ⟨mapZeroArg0, 10, 37⟩
/-- MAP_ZERO_ARG1 -/
def mapZeroArg1 : Nat := 0x700108
/-- MAP_ZERO_ARG1.COUNT -/
def mapZeroArg1Count : Fld := ⟨mapZeroArg1, 0, 37⟩
/-- MAP_ZERO_CTRL -/
def mapZeroCtrl : Nat := 0x700110
/-- MAP_ZERO_STATUS -/
def mapZeroStatus : Nat := 0x700118
/-- MAP_ZERO_STATUS.STATE -/
def mapZeroStatusState : Fld := ⟨mapZeroStatus, 0, 2⟩
/-- MAP_ZERO_STATUS.ERROR -/
def mapZeroStatusError : Fld := ⟨mapZeroStatus, 2, 2⟩
/-- MAP_ERR_CNT -/
def mapErrCnt : Nat := 0x700200
/-- MAP_ERR_CNT.NO_DOMAIN -/
def mapErrCntNoDomain : Fld := ⟨mapErrCnt, 0, 16⟩
/-- MAP_ERR_CNT.NOT_OWNER -/
def mapErrCntNotOwner : Fld := ⟨mapErrCnt, 16, 16⟩
/-- MAP_ERR_CNT.META_REPAIRED -/
def mapErrCntMetaRepaired : Fld := ⟨mapErrCnt, 32, 16⟩
/-- MAP_ERR_CNT.META_LOST -/
def mapErrCntMetaLost : Fld := ⟨mapErrCnt, 48, 16⟩
/-- MAP_LDR_W0 -/
def mapLdrW0 (i j : Nat) : Nat := 0x710000 + i * 0x80 + j * 0x10
/-- MAP_LDR_W0.LD_BASE -/
def mapLdrW0LdBase (i j : Nat) : Fld := ⟨mapLdrW0 i j, 0, 27⟩
/-- MAP_LDR_W0.VALID -/
def mapLdrW0Valid (i j : Nat) : Fld := ⟨mapLdrW0 i j, 63, 1⟩
/-- MAP_LDR_W1 -/
def mapLdrW1 (i j : Nat) : Nat := 0x710008 + i * 0x80 + j * 0x10
/-- MAP_LDR_W1.DPA_BASE -/
def mapLdrW1DpaBase (i j : Nat) : Fld := ⟨mapLdrW1 i j, 0, 27⟩
/-- MAP_LDR_W1.LENGTH -/
def mapLdrW1Length (i j : Nat) : Fld := ⟨mapLdrW1 i j, 27, 28⟩
/-- MAP_SPID_GROUP -/
def mapSpidGroup (i j : Nat) : Nat := 0x720000 + i * 0x200 + j * 0x8
/-- MAP_SPID_GROUP.MEMBERS -/
def mapSpidGroupMembers (i j : Nat) : Fld := ⟨mapSpidGroup i j, 0, 64⟩
/-- HP_REQ_CAP -/
def hpReqCap (i : Nat) : Nat := 0x500200 + i * 0x10000
/-- HP_REQ_CAP.MAX_INFLIGHT -/
def hpReqCapMaxInflight (i : Nat) : Fld := ⟨hpReqCap i, 0, 16⟩
/-- HP_REQ_CAP.RESERVE -/
def hpReqCapReserve (i : Nat) : Fld := ⟨hpReqCap i, 16, 16⟩
/-- HP_REQ_OCC -/
def hpReqOcc (i : Nat) : Nat := 0x500208 + i * 0x10000
/-- HP_REQ_OCC.INFLIGHT -/
def hpReqOccInflight (i : Nat) : Fld := ⟨hpReqOcc i, 0, 16⟩
/-- HP_REQ_OCC.PEAK -/
def hpReqOccPeak (i : Nat) : Fld := ⟨hpReqOcc i, 16, 16⟩
/-- HP_REQ_OCC.WAITING -/
def hpReqOccWaiting (i : Nat) : Fld := ⟨hpReqOcc i, 32, 9⟩
/-- RQ_CFG -/
def rqCfg : Nat := 0x740000
/-- RQ_CFG.QC0_TABLE_RESERVE -/
def rqCfgQc0TableReserve : Fld := ⟨rqCfg, 0, 16⟩
/-- RQ_CFG.QC0_WB_RESERVE -/
def rqCfgQc0WbReserve : Fld := ⟨rqCfg, 16, 8⟩
/-- RQ_DEVLOAD_CFG -/
def rqDevloadCfg : Nat := 0x740008
/-- RQ_DEVLOAD_CFG.OCC_OPT -/
def rqDevloadCfgOccOpt : Fld := ⟨rqDevloadCfg, 0, 8⟩
/-- RQ_DEVLOAD_CFG.OCC_MOD -/
def rqDevloadCfgOccMod : Fld := ⟨rqDevloadCfg, 8, 8⟩
/-- RQ_DEVLOAD_CFG.OCC_SEV -/
def rqDevloadCfgOccSev : Fld := ⟨rqDevloadCfg, 16, 8⟩
/-- RQ_DEVLOAD_CFG.DLY_OPT -/
def rqDevloadCfgDlyOpt : Fld := ⟨rqDevloadCfg, 24, 12⟩
/-- RQ_DEVLOAD_CFG.DLY_MOD -/
def rqDevloadCfgDlyMod : Fld := ⟨rqDevloadCfg, 36, 12⟩
/-- RQ_DEVLOAD_CFG.DLY_SEV -/
def rqDevloadCfgDlySev : Fld := ⟨rqDevloadCfg, 48, 12⟩
/-- RQ_STATUS -/
def rqStatus (i : Nat) : Nat := 0x740010 + i * 0x8
/-- RQ_STATUS.TABLE_INUSE -/
def rqStatusTableInuse (i : Nat) : Fld := ⟨rqStatus i, 0, 16⟩
/-- RQ_STATUS.TABLE_PEAK -/
def rqStatusTablePeak (i : Nat) : Fld := ⟨rqStatus i, 16, 16⟩
/-- RQ_STATUS.TABLE_LIMIT -/
def rqStatusTableLimit (i : Nat) : Fld := ⟨rqStatus i, 32, 16⟩
/-- RQ_STATUS.EVICT_INUSE -/
def rqStatusEvictInuse (i : Nat) : Fld := ⟨rqStatus i, 48, 9⟩
/-- RQ_STATUS.RESERVES_VOID -/
def rqStatusReservesVoid (i : Nat) : Fld := ⟨rqStatus i, 57, 1⟩
/-- RQ_ERR_CNT -/
def rqErrCnt : Nat := 0x740020
/-- RQ_ERR_CNT.STAGE_REPLAY -/
def rqErrCntStageReplay : Fld := ⟨rqErrCnt, 0, 16⟩
/-- RQ_ERR_CNT.UNSUP_OPCODE -/
def rqErrCntUnsupOpcode : Fld := ⟨rqErrCnt, 16, 16⟩
/-- RQ_ERR_CNT.BI_TIMEOUT -/
def rqErrCntBiTimeout : Fld := ⟨rqErrCnt, 32, 16⟩
/-- RQ_ERR_CNT.POISON_IN -/
def rqErrCntPoisonIn : Fld := ⟨rqErrCnt, 48, 16⟩
/-- DMC_CFG -/
def dmcCfg (i : Nat) : Nat := 0x900000 + i * 0x10000
/-- DMC_CFG.MAX_RATE -/
def dmcCfgMaxRate (i : Nat) : Fld := ⟨dmcCfg i, 0, 3⟩
/-- DMC_CFG.FORCE_FULL_TRAIN -/
def dmcCfgForceFullTrain (i : Nat) : Fld := ⟨dmcCfg i, 3, 1⟩
/-- DMC_CFG.INJ_DISABLE -/
def dmcCfgInjDisable (i : Nat) : Fld := ⟨dmcCfg i, 4, 1⟩
/-- DMC_CFG.CHANNEL_DISABLE -/
def dmcCfgChannelDisable (i : Nat) : Fld := ⟨dmcCfg i, 5, 1⟩
/-- DMC_STATUS -/
def dmcStatus (i : Nat) : Nat := 0x900008 + i * 0x10000
/-- DMC_STATUS.RATE -/
def dmcStatusRate (i : Nat) : Fld := ⟨dmcStatus i, 0, 3⟩
/-- DMC_STATUS.TRAINED -/
def dmcStatusTrained (i : Nat) : Fld := ⟨dmcStatus i, 3, 1⟩
/-- DMC_STATUS.FENCED -/
def dmcStatusFenced (i : Nat) : Fld := ⟨dmcStatus i, 4, 1⟩
/-- DMC_STATUS.TRAIN_PATH -/
def dmcStatusTrainPath (i : Nat) : Fld := ⟨dmcStatus i, 5, 1⟩
/-- DMC_STATUS.POP -/
def dmcStatusPop (i : Nat) : Fld := ⟨dmcStatus i, 6, 2⟩
/-- DMC_STATUS.MODULE_TYPE -/
def dmcStatusModuleType (i : Nat) : Fld := ⟨dmcStatus i, 8, 1⟩
/-- DMC_STATUS.DENSITY -/
def dmcStatusDensity (i : Nat) : Fld := ⟨dmcStatus i, 9, 1⟩
/-- DMC_STATUS.RANK_BITS -/
def dmcStatusRankBits (i : Nat) : Fld := ⟨dmcStatus i, 10, 3⟩
/-- DMC_STATUS.FAIL -/
def dmcStatusFail (i : Nat) : Fld := ⟨dmcStatus i, 13, 3⟩
/-- DMC_STATUS.REF_EXTENDED -/
def dmcStatusRefExtended (i : Nat) : Fld := ⟨dmcStatus i, 16, 1⟩
/-- DMC_STATUS.CAP_GIB -/
def dmcStatusCapGib (i : Nat) : Fld := ⟨dmcStatus i, 17, 11⟩
/-- DMC_LOCK -/
def dmcLock (i : Nat) : Nat := 0x9000F8 + i * 0x10000
/-- DMC_LOCK.LOCK -/
def dmcLockLock (i : Nat) : Fld := ⟨dmcLock i, 0, 1⟩
/-- DMC_ECC_CNT -/
def dmcEccCnt (i : Nat) : Nat := 0x900100 + i * 0x10000
/-- DMC_ECC_CNT.CE -/
def dmcEccCntCe (i : Nat) : Fld := ⟨dmcEccCnt i, 0, 32⟩
/-- DMC_ECC_CNT.UE -/
def dmcEccCntUe (i : Nat) : Fld := ⟨dmcEccCnt i, 32, 16⟩
/-- DMC_ECC_CNT.POISON_READ -/
def dmcEccCntPoisonRead (i : Nat) : Fld := ⟨dmcEccCnt i, 48, 16⟩
/-- DMC_ECC_LAST -/
def dmcEccLast (i : Nat) : Nat := 0x900108 + i * 0x10000
/-- DMC_ECC_LAST.MA_LINE -/
def dmcEccLastMaLine (i : Nat) : Fld := ⟨dmcEccLast i, 6, 40⟩
/-- DMC_ECC_LAST.DEVICE -/
def dmcEccLastDevice (i : Nat) : Fld := ⟨dmcEccLast i, 46, 4⟩
/-- DMC_ECC_LAST.KIND -/
def dmcEccLastKind (i : Nat) : Fld := ⟨dmcEccLast i, 50, 2⟩
/-- DMC_INJ_MASK -/
def dmcInjMask (i j : Nat) : Nat := 0x900200 + i * 0x10000 + j * 0x8
/-- DMC_INJ_MASK.FLIP -/
def dmcInjMaskFlip (i j : Nat) : Fld := ⟨dmcInjMask i j, 0, 64⟩
/-- DMC_INJ_FILTER -/
def dmcInjFilter (i : Nat) : Nat := 0x900250 + i * 0x10000
/-- DMC_INJ_FILTER.ADDR -/
def dmcInjFilterAddr (i : Nat) : Fld := ⟨dmcInjFilter i, 6, 40⟩
/-- DMC_INJ_FILTER_MASK -/
def dmcInjFilterMask (i : Nat) : Nat := 0x900258 + i * 0x10000
/-- DMC_INJ_FILTER_MASK.ADDR -/
def dmcInjFilterMaskAddr (i : Nat) : Fld := ⟨dmcInjFilterMask i, 6, 40⟩
/-- DMC_INJ_CTRL -/
def dmcInjCtrl (i : Nat) : Nat := 0x900260 + i * 0x10000
/-- DMC_INJ_CTRL.ARM -/
def dmcInjCtrlArm (i : Nat) : Fld := ⟨dmcInjCtrl i, 0, 1⟩
/-- DMC_INJ_CTRL.FILTER_EN -/
def dmcInjCtrlFilterEn (i : Nat) : Fld := ⟨dmcInjCtrl i, 1, 1⟩
/-- DMC_INJ_STATUS -/
def dmcInjStatus (i : Nat) : Nat := 0x900268 + i * 0x10000
/-- DMC_INJ_STATUS.DONE -/
def dmcInjStatusDone (i : Nat) : Fld := ⟨dmcInjStatus i, 0, 1⟩
/-- DMC_INJ_STATUS.MA_LINE -/
def dmcInjStatusMaLine (i : Nat) : Fld := ⟨dmcInjStatus i, 1, 40⟩
/-- DMC_REF_STATUS -/
def dmcRefStatus (i : Nat) : Nat := 0x900300 + i * 0x10000
/-- DMC_REF_STATUS.DEBT -/
def dmcRefStatusDebt (i : Nat) : Fld := ⟨dmcRefStatus i, 0, 3⟩
/-- DMC_REF_STATUS.FORCED -/
def dmcRefStatusForced (i : Nat) : Fld := ⟨dmcRefStatus i, 3, 16⟩
/-- DMC_COMB_CFG -/
def dmcCombCfg (i : Nat) : Nat := 0x900400 + i * 0x10000
/-- DMC_COMB_CFG.ENABLE -/
def dmcCombCfgEnable (i : Nat) : Fld := ⟨dmcCombCfg i, 0, 1⟩
/-- DMC_COMB_CFG.PERIOD -/
def dmcCombCfgPeriod (i : Nat) : Fld := ⟨dmcCombCfg i, 1, 22⟩
/-- DMC_COMB_STATUS -/
def dmcCombStatus (i : Nat) : Nat := 0x900408 + i * 0x10000
/-- DMC_COMB_STATUS.POSITION -/
def dmcCombStatusPosition (i : Nat) : Fld := ⟨dmcCombStatus i, 0, 30⟩
/-- DMC_COMB_STATUS.BEHIND -/
def dmcCombStatusBehind (i : Nat) : Fld := ⟨dmcCombStatus i, 30, 1⟩
/-- DMC_COMB_STATUS.LAPS -/
def dmcCombStatusLaps (i : Nat) : Fld := ⟨dmcCombStatus i, 31, 32⟩
/-- DMC_COMB_LAP -/
def dmcCombLap (i : Nat) : Nat := 0x900410 + i * 0x10000
/-- DMC_COMB_LAP.LAST_LAP_S -/
def dmcCombLapLastLapS (i : Nat) : Fld := ⟨dmcCombLap i, 0, 32⟩
/-- DMC_COMB_LAP.CE_LAST_LAP -/
def dmcCombLapCeLastLap (i : Nat) : Fld := ⟨dmcCombLap i, 32, 32⟩
/-- DMC_REPAIR_CFG -/
def dmcRepairCfg (i : Nat) : Nat := 0x900500 + i * 0x10000
/-- DMC_REPAIR_CFG.ROW_CE_THRESH -/
def dmcRepairCfgRowCeThresh (i : Nat) : Fld := ⟨dmcRepairCfg i, 0, 8⟩
/-- DMC_REPAIR_CFG.SPPR_EN -/
def dmcRepairCfgSpprEn (i : Nat) : Fld := ⟨dmcRepairCfg i, 8, 1⟩
/-- DMC_REPAIR_CFG.HPPR_EN -/
def dmcRepairCfgHpprEn (i : Nat) : Fld := ⟨dmcRepairCfg i, 9, 1⟩
/-- DMC_REPAIR_STATUS -/
def dmcRepairStatus (i : Nat) : Nat := 0x900508 + i * 0x10000
/-- DMC_REPAIR_STATUS.SPPR_DONE -/
def dmcRepairStatusSpprDone (i : Nat) : Fld := ⟨dmcRepairStatus i, 0, 12⟩
/-- DMC_REPAIR_STATUS.HPPR_DONE -/
def dmcRepairStatusHpprDone (i : Nat) : Fld := ⟨dmcRepairStatus i, 12, 12⟩
/-- DMC_REPAIR_STATUS.ROWS_RETIRED -/
def dmcRepairStatusRowsRetired (i : Nat) : Fld := ⟨dmcRepairStatus i, 24, 12⟩
/-- DMC_REPAIR_STATUS.HPPR_PENDING -/
def dmcRepairStatusHpprPending (i : Nat) : Fld := ⟨dmcRepairStatus i, 36, 12⟩
/-- DMC_REPAIR_STATUS.TRACKED -/
def dmcRepairStatusTracked (i : Nat) : Fld := ⟨dmcRepairStatus i, 48, 13⟩
/-- DMC_SRAM_SCRUB -/
def dmcSramScrub (i : Nat) : Nat := 0xA80000 + i * 0x8
/-- DMC_SRAM_SCRUB.LAP_US -/
def dmcSramScrubLapUs (i : Nat) : Fld := ⟨dmcSramScrub i, 0, 32⟩
/-- DMC_SRAM_SCRUB.SLOW -/
def dmcSramScrubSlow (i : Nat) : Fld := ⟨dmcSramScrub i, 32, 1⟩
/-- DMC_SRAM_SCRUB.SEC_CNT -/
def dmcSramScrubSecCnt (i : Nat) : Fld := ⟨dmcSramScrub i, 33, 16⟩
/-- DMC_SRAM_SCRUB_CFG -/
def dmcSramScrubCfg : Nat := 0xA80010
/-- DMC_SRAM_SCRUB_CFG.LAP_LIMIT_US -/
def dmcSramScrubCfgLapLimitUs : Fld := ⟨dmcSramScrubCfg, 0, 32⟩
/-- SHG_CFG -/
def shgCfg : Nat := 0xB00000
/-- SHG_CFG.OFL_DECOMP_MAX -/
def shgCfgOflDecompMax : Fld := ⟨shgCfg, 0, 3⟩
/-- SHG_CFG.CHUNK_CACHE_EN -/
def shgCfgChunkCacheEn : Fld := ⟨shgCfg, 3, 1⟩
/-- SHG_CFG.HDR_CACHE_EN -/
def shgCfgHdrCacheEn : Fld := ⟨shgCfg, 4, 1⟩
/-- SHG_CFG.REDECODE_EN -/
def shgCfgRedecodeEn : Fld := ⟨shgCfg, 5, 1⟩
/-- SHG_STATUS -/
def shgStatus (i : Nat) : Nat := 0xB00008 + i * 0x8
/-- SHG_STATUS.COMP_FENCED -/
def shgStatusCompFenced (i : Nat) : Fld := ⟨shgStatus i, 0, 8⟩
/-- SHG_STATUS.DECOMP_FENCED -/
def shgStatusDecompFenced (i : Nat) : Fld := ⟨shgStatus i, 8, 8⟩
/-- SHG_STATUS.COMP_BUSY -/
def shgStatusCompBusy (i : Nat) : Fld := ⟨shgStatus i, 16, 5⟩
/-- SHG_STATUS.SEQ -/
def shgStatusSeq (i : Nat) : Fld := ⟨shgStatus i, 32, 32⟩
/-- SHG_LOCK -/
def shgLock : Nat := 0xB000F8
/-- SHG_LOCK.LOCK -/
def shgLockLock : Fld := ⟨shgLock, 0, 1⟩
/-- SHG_SET_STATE -/
def shgSetState (i : Nat) : Nat := 0xB00100 + i * 0x8
/-- SHG_SET_STATE.STATE -/
def shgSetStateState (i : Nat) : Fld := ⟨shgSetState i, 0, 2⟩
/-- SHG_SET_STATE.FP -/
def shgSetStateFp (i : Nat) : Fld := ⟨shgSetState i, 32, 32⟩
/-- SHG_SET_USE -/
def shgSetUse (i : Nat) : Nat := 0xB00140 + i * 0x8
/-- SHG_SET_USE.USE_A -/
def shgSetUseUseA (i : Nat) : Fld := ⟨shgSetUse i, 0, 32⟩
/-- SHG_SET_USE.USE_B -/
def shgSetUseUseB (i : Nat) : Fld := ⟨shgSetUse i, 32, 32⟩
/-- SHG_SET_CTRL -/
def shgSetCtrl : Nat := 0xB00200
/-- SHG_SET_CTRL.OP -/
def shgSetCtrlOp : Fld := ⟨shgSetCtrl, 4, 2⟩
/-- SHG_SET_RESULT -/
def shgSetResult : Nat := 0xB00208
/-- SHG_SET_RESULT.RESULT -/
def shgSetResultResult : Fld := ⟨shgSetResult, 0, 4⟩
/-- SHG_SET_RESULT.SET -/
def shgSetResultSet : Fld := ⟨shgSetResult, 4, 3⟩
/-- SHG_SET_RESULT.DONE -/
def shgSetResultDone : Fld := ⟨shgSetResult, 7, 1⟩
/-- SHG_HIST_CTRL -/
def shgHistCtrl : Nat := 0xB00300
/-- SHG_HIST_CTRL.ENABLE -/
def shgHistCtrlEnable : Fld := ⟨shgHistCtrl, 0, 1⟩
/-- SHG_HIST_CTRL.DOMAIN -/
def shgHistCtrlDomain : Fld := ⟨shgHistCtrl, 1, 10⟩
/-- SHG_HIST_CTRL.CLEAR -/
def shgHistCtrlClear : Fld := ⟨shgHistCtrl, 11, 1⟩
/-- SHG_HIST -/
def shgHist (i : Nat) : Nat := 0xB00800 + i * 0x8
/-- SHG_HIST.COUNT_EVEN -/
def shgHistCountEven (i : Nat) : Fld := ⟨shgHist i, 0, 32⟩
/-- SHG_HIST.COUNT_ODD -/
def shgHistCountOdd (i : Nat) : Fld := ⟨shgHist i, 32, 32⟩
/-- SHG_PAGE_CNT -/
def shgPageCnt (i : Nat) : Nat := 0xB00500 + i * 0x8
/-- SHG_PAGE_CNT.COMPRESSED -/
def shgPageCntCompressed (i : Nat) : Fld := ⟨shgPageCnt i, 0, 32⟩
/-- SHG_PAGE_CNT.INCOMPRESSIBLE -/
def shgPageCntIncompressible (i : Nat) : Fld := ⟨shgPageCnt i, 32, 32⟩
/-- SHG_EVT_CNT -/
def shgEvtCnt (i : Nat) : Nat := 0xB00510 + i * 0x8
/-- SHG_EVT_CNT.COMPRESS_ABORT -/
def shgEvtCntCompressAbort (i : Nat) : Fld := ⟨shgEvtCnt i, 0, 16⟩
/-- SHG_EVT_CNT.PROMOTE -/
def shgEvtCntPromote (i : Nat) : Fld := ⟨shgEvtCnt i, 16, 16⟩
/-- SHG_EVT_CNT.DECODE_ERR -/
def shgEvtCntDecodeErr (i : Nat) : Fld := ⟨shgEvtCnt i, 32, 16⟩
/-- SHG_EVT_CNT.SET_FALLBACK -/
def shgEvtCntSetFallback (i : Nat) : Fld := ⟨shgEvtCnt i, 48, 16⟩
/-- SHG_CC_CNT -/
def shgCcCnt (i : Nat) : Nat := 0xB00520 + i * 0x8
/-- SHG_CC_CNT.HIT -/
def shgCcCntHit (i : Nat) : Fld := ⟨shgCcCnt i, 0, 32⟩
/-- SHG_CC_CNT.MISS -/
def shgCcCntMiss (i : Nat) : Fld := ⟨shgCcCnt i, 32, 32⟩
/-- SHG_ERR_LAST -/
def shgErrLast : Nat := 0xB00600
/-- SHG_ERR_LAST.ERROR -/
def shgErrLastError : Fld := ⟨shgErrLast, 0, 4⟩
/-- SHG_ERR_LAST.CHUNK -/
def shgErrLastChunk : Fld := ⟨shgErrLast, 4, 2⟩
/-- SHG_ERR_LAST.DOMAIN -/
def shgErrLastDomain : Fld := ⟨shgErrLast, 6, 10⟩
/-- SHG_ERR_LAST.SLOT -/
def shgErrLastSlot : Fld := ⟨shgErrLast, 16, 40⟩
/-- SHG_ERR_LAST.HALF -/
def shgErrLastHalf : Fld := ⟨shgErrLast, 56, 1⟩
/-- SHG_CLASS -/
def shgClass (i j : Nat) : Nat := 0xB00700 + i * 0x80 + j * 0x8
/-- SHG_CLASS.BLOCKS -/
def shgClassBlocks (i j : Nat) : Fld := ⟨shgClass i j, 0, 24⟩
/-- SHG_CLASS.SLOTS_USED -/
def shgClassSlotsUsed (i j : Nat) : Fld := ⟨shgClass i j, 24, 24⟩
/-- SHG_SET_LEN -/
def shgSetLen (i j : Nat) : Nat := 0xB01000 + i * 0xA0 + j * 0x8
/-- TIER_CFG -/
def tierCfg : Nat := 0xC00000
/-- TIER_CFG.EPOCH_S -/
def tierCfgEpochS : Fld := ⟨tierCfg, 0, 16⟩
/-- TIER_CFG.DECAY_SHIFT -/
def tierCfgDecayShift : Fld := ⟨tierCfg, 16, 3⟩
/-- TIER_CFG.BACKOFF_EPOCHS -/
def tierCfgBackoffEpochs : Fld := ⟨tierCfg, 19, 4⟩
/-- TIER_CFG.LOW_COLD_ADD -/
def tierCfgLowColdAdd : Fld := ⟨tierCfg, 23, 8⟩
/-- TIER_CFG.MOVE_CAP -/
def tierCfgMoveCap : Fld := ⟨tierCfg, 31, 16⟩
/-- TIER_CAP_CFG -/
def tierCapCfg : Nat := 0xC00008
/-- TIER_CAP_CFG.LOW_PM -/
def tierCapCfgLowPm : Fld := ⟨tierCapCfg, 0, 10⟩
/-- TIER_CAP_CFG.PRESSURE_PM -/
def tierCapCfgPressurePm : Fld := ⟨tierCapCfg, 10, 10⟩
/-- TIER_CAP_CFG.CRITICAL_PM -/
def tierCapCfgCriticalPm : Fld := ⟨tierCapCfg, 20, 10⟩
/-- TIER_CAP_CFG.HYST_PM -/
def tierCapCfgHystPm : Fld := ⟨tierCapCfg, 30, 10⟩
/-- TIER_STATUS -/
def tierStatus (i : Nat) : Nat := 0xC00010 + i * 0x8
/-- TIER_STATUS.LEVEL -/
def tierStatusLevel (i : Nat) : Fld := ⟨tierStatus i, 0, 2⟩
/-- TIER_STATUS.UNBACKED -/
def tierStatusUnbacked (i : Nat) : Fld := ⟨tierStatus i, 2, 1⟩
/-- TIER_STATUS.EPOCH_OVERRUN -/
def tierStatusEpochOverrun (i : Nat) : Fld := ⟨tierStatus i, 3, 1⟩
/-- TIER_STATUS.LAPS -/
def tierStatusLaps (i : Nat) : Fld := ⟨tierStatus i, 4, 32⟩
/-- TIER_CAP -/
def tierCap (i : Nat) : Nat := 0xC00020 + i * 0x10
/-- TIER_CAP.FREE -/
def tierCapFree (i : Nat) : Fld := ⟨tierCap i, 0, 28⟩
/-- TIER_CAP.UNSPENT -/
def tierCapUnspent (i : Nat) : Fld := ⟨tierCap i, 28, 28⟩
/-- TIER_HEAD -/
def tierHead (i : Nat) : Nat := 0xC00028 + i * 0x10
/-- TIER_HEAD.HEADROOM -/
def tierHeadHeadroom (i : Nat) : Fld := ⟨tierHead i, 0, 29⟩
/-- TIER_EVT -/
def tierEvt : Nat := 0xC00040
/-- TIER_EVT.LEVEL_CHANGE_A -/
def tierEvtLevelChangeA : Fld := ⟨tierEvt, 0, 1⟩
/-- TIER_EVT.LEVEL_CHANGE_B -/
def tierEvtLevelChangeB : Fld := ⟨tierEvt, 1, 1⟩
/-- TIER_EVT.UNBACKED_A -/
def tierEvtUnbackedA : Fld := ⟨tierEvt, 2, 1⟩
/-- TIER_EVT.UNBACKED_B -/
def tierEvtUnbackedB : Fld := ⟨tierEvt, 3, 1⟩
/-- TIER_EVT.EPOCH_OVERRUN_A -/
def tierEvtEpochOverrunA : Fld := ⟨tierEvt, 4, 1⟩
/-- TIER_EVT.EPOCH_OVERRUN_B -/
def tierEvtEpochOverrunB : Fld := ⟨tierEvt, 5, 1⟩
/-- TIER_EVT.CFG_REJECT -/
def tierEvtCfgReject : Fld := ⟨tierEvt, 6, 1⟩
/-- TIER_MOVE_CNT -/
def tierMoveCnt (i : Nat) : Nat := 0xC00050 + i * 0x8
/-- TIER_MOVE_CNT.OFFERED -/
def tierMoveCntOffered (i : Nat) : Fld := ⟨tierMoveCnt i, 0, 24⟩
/-- TIER_MOVE_CNT.PROMOTED -/
def tierMoveCntPromoted (i : Nat) : Fld := ⟨tierMoveCnt i, 24, 24⟩
/-- TIER_MOVE_CNT.SKIPPED -/
def tierMoveCntSkipped (i : Nat) : Fld := ⟨tierMoveCnt i, 48, 16⟩
/-- TIER_DOM -/
def tierDom (i : Nat) : Nat := 0xC01000 + i * 0x8
/-- TIER_DOM.COLD_THRESH -/
def tierDomColdThresh (i : Nat) : Fld := ⟨tierDom i, 0, 8⟩
/-- TIER_DOM.HOT_THRESH -/
def tierDomHotThresh (i : Nat) : Fld := ⟨tierDom i, 8, 8⟩
/-- PROT_CFG -/
def protCfg : Nat := 0xD00000
/-- PROT_CFG.ALARM_PIN_EN -/
def protCfgAlarmPinEn : Fld := ⟨protCfg, 0, 1⟩
/-- PROT_CFG.REPAIR_EN -/
def protCfgRepairEn : Fld := ⟨protCfg, 1, 1⟩
/-- PROT_CFG.PIN_CTR_MIB -/
def protCfgPinCtrMib : Fld := ⟨protCfg, 2, 5⟩
/-- PROT_STATUS -/
def protStatus (i : Nat) : Nat := 0xD00008 + i * 0x8
/-- PROT_STATUS.CTR_PINNED_KIB -/
def protStatusCtrPinnedKib (i : Nat) : Fld := ⟨protStatus i, 0, 15⟩
/-- PROT_STATUS.FENCED_NOW -/
def protStatusFencedNow (i : Nat) : Fld := ⟨protStatus i, 15, 16⟩
/-- PROT_STATUS.REBUILD_BUSY -/
def protStatusRebuildBusy (i : Nat) : Fld := ⟨protStatus i, 31, 1⟩
/-- PROT_LOCK -/
def protLock : Nat := 0xD000F8
/-- PROT_LOCK.LOCK -/
def protLockLock : Fld := ⟨protLock, 0, 1⟩
/-- PROT_ERR_CNT -/
def protErrCnt : Nat := 0xD00100
/-- PROT_ERR_CNT.MAC_FAIL -/
def protErrCntMacFail : Fld := ⟨protErrCnt, 0, 16⟩
/-- PROT_ERR_CNT.TREE_FAIL -/
def protErrCntTreeFail : Fld := ⟨protErrCnt, 16, 16⟩
/-- PROT_ERR_CNT.TREE_REBUILT -/
def protErrCntTreeRebuilt : Fld := ⟨protErrCnt, 32, 16⟩
/-- PROT_ERR_CNT.SUBTREE_FENCED -/
def protErrCntSubtreeFenced : Fld := ⟨protErrCnt, 48, 16⟩
/-- PROT_EVT_CNT -/
def protEvtCnt : Nat := 0xD00108
/-- PROT_EVT_CNT.ROLLOVER -/
def protEvtCntRollover : Fld := ⟨protEvtCnt, 0, 32⟩
/-- PROT_EVT_CNT.REPAIRED_LINES -/
def protEvtCntRepairedLines : Fld := ⟨protEvtCnt, 32, 32⟩
/-- PROT_ALARM_LAST -/
def protAlarmLast : Nat := 0xD00110
/-- PROT_ALARM_LAST.CAUSE -/
def protAlarmLastCause : Fld := ⟨protAlarmLast, 0, 4⟩
/-- PROT_ALARM_LAST.DOMAIN -/
def protAlarmLastDomain : Fld := ⟨protAlarmLast, 4, 10⟩
/-- PROT_ALARM_LAST.LINE -/
def protAlarmLastLine : Fld := ⟨protAlarmLast, 14, 42⟩
/-- PROT_ALARM_LAST.PORT -/
def protAlarmLastPort : Fld := ⟨protAlarmLast, 56, 4⟩
/-- PROT_ALARM_LAST.LINK -/
def protAlarmLastLink : Fld := ⟨protAlarmLast, 60, 1⟩
/-- PROT_DEV_PUB -/
def protDevPub (i : Nat) : Nat := 0xD00200 + i * 0x8
/-- PROT_WRAP -/
def protWrap (i : Nat) : Nat := 0xD00400 + i * 0x8
/-- PROT_KEY_CMD -/
def protKeyCmd : Nat := 0xD00500
/-- PROT_KEY_CMD.OP -/
def protKeyCmdOp : Fld := ⟨protKeyCmd, 11, 2⟩
/-- PROT_KEY_RESULT -/
def protKeyResult : Nat := 0xD00508
/-- PROT_KEY_RESULT.RESULT -/
def protKeyResultResult : Fld := ⟨protKeyResult, 0, 4⟩
/-- PROT_KEY_RESULT.SLOT -/
def protKeyResultSlot : Fld := ⟨protKeyResult, 4, 11⟩
/-- PROT_KEY_RESULT.DONE -/
def protKeyResultDone : Fld := ⟨protKeyResult, 15, 1⟩
/-- PROT_KEY_RESULT.BUSY -/
def protKeyResultBusy : Fld := ⟨protKeyResult, 16, 1⟩
/-- PROT_KEY_STATE -/
def protKeyState (i : Nat) : Nat := 0xD01000 + i * 0x8
/-- PROT_KEY_STATE.LOADED -/
def protKeyStateLoaded (i : Nat) : Fld := ⟨protKeyState i, 0, 1⟩
/-- PROT_KEY_STATE.TYPE -/
def protKeyStateType (i : Nat) : Fld := ⟨protKeyState i, 1, 2⟩
/-- PROT_KEY_STATE.IN_USE -/
def protKeyStateInUse (i : Nat) : Fld := ⟨protKeyState i, 3, 1⟩
/-- PROT_KEY_STATE.VERSION -/
def protKeyStateVersion (i : Nat) : Fld := ⟨protKeyState i, 4, 48⟩
/-- PROT_DOM -/
def protDom (i : Nat) : Nat := 0xD04000 + i * 0x8
/-- PROT_DOM.TOP_LEVEL -/
def protDomTopLevel (i : Nat) : Fld := ⟨protDom i, 0, 4⟩
/-- PROT_DOM.PIN_PARTIAL -/
def protDomPinPartial (i : Nat) : Fld := ⟨protDom i, 4, 1⟩
/-- PROT_DOM.FENCES -/
def protDomFences (i : Nat) : Fld := ⟨protDom i, 5, 16⟩
/-- QOS_DRR -/
def qosDrr : Nat := 0x800000
/-- QOS_DRR.Q1 -/
def qosDrrQ1 : Fld := ⟨qosDrr, 0, 8⟩
/-- QOS_DRR.Q2 -/
def qosDrrQ2 : Fld := ⟨qosDrr, 8, 8⟩
/-- QOS_DRR.Q3 -/
def qosDrrQ3 : Fld := ⟨qosDrr, 16, 8⟩
/-- QOS_DRR.Q4 -/
def qosDrrQ4 : Fld := ⟨qosDrr, 24, 8⟩
/-- QOS_DRR.Q5 -/
def qosDrrQ5 : Fld := ⟨qosDrr, 32, 8⟩
/-- QOS_DRR.Q6 -/
def qosDrrQ6 : Fld := ⟨qosDrr, 40, 8⟩
/-- QOS_DRR.Q7 -/
def qosDrrQ7 : Fld := ⟨qosDrr, 48, 8⟩
/-- QOS_TELEM_CFG -/
def qosTelemCfg : Nat := 0x800008
/-- QOS_TELEM_CFG.ENABLE -/
def qosTelemCfgEnable : Fld := ⟨qosTelemCfg, 0, 1⟩
/-- QOS_TELEM_CFG.INTERVAL -/
def qosTelemCfgInterval : Fld := ⟨qosTelemCfg, 1, 16⟩
/-- QOS_TELEM_CTRL -/
def qosTelemCtrl : Nat := 0x800010
/-- QOS_COMMIT_RESULT -/
def qosCommitResult : Nat := 0x800018
/-- QOS_COMMIT_RESULT.REASON -/
def qosCommitResultReason : Fld := ⟨qosCommitResult, 0, 4⟩
/-- QOS_COMMIT_RESULT.DOMAIN -/
def qosCommitResultDomain : Fld := ⟨qosCommitResult, 4, 10⟩
/-- QOS_COMMIT_RESULT.REFUSED -/
def qosCommitResultRefused : Fld := ⟨qosCommitResult, 14, 1⟩
/-- QOS_SRC_COLOUR -/
def qosSrcColour (i : Nat) : Nat := 0x800100 + i * 0x8
/-- QOS_SRC_COLOUR.COLOURS -/
def qosSrcColourColours (i : Nat) : Fld := ⟨qosSrcColour i, 0, 32⟩
/-- QOS_POL_A -/
def qosPolA (i : Nat) : Nat := 0x810000 + i * 0x20
/-- QOS_POL_A.EN -/
def qosPolAEn (i : Nat) : Fld := ⟨qosPolA i, 0, 1⟩
/-- QOS_POL_A.COLOUR_AWARE -/
def qosPolAColourAware (i : Nat) : Fld := ⟨qosPolA i, 1, 1⟩
/-- QOS_POL_A.CIR -/
def qosPolACir (i : Nat) : Fld := ⟨qosPolA i, 2, 20⟩
/-- QOS_POL_A.CBS -/
def qosPolACbs (i : Nat) : Fld := ⟨qosPolA i, 22, 20⟩
/-- QOS_POL_B -/
def qosPolB (i : Nat) : Nat := 0x810008 + i * 0x20
/-- QOS_POL_B.PIR -/
def qosPolBPir (i : Nat) : Fld := ⟨qosPolB i, 0, 20⟩
/-- QOS_POL_B.PBS -/
def qosPolBPbs (i : Nat) : Fld := ⟨qosPolB i, 20, 20⟩
/-- QOS_POL_B.SPLIT_A -/
def qosPolBSplitA (i : Nat) : Fld := ⟨qosPolB i, 40, 9⟩
/-- QOS_SHP -/
def qosShp (i : Nat) : Nat := 0x810010 + i * 0x20
/-- QOS_SHP.EN -/
def qosShpEn (i : Nat) : Fld := ⟨qosShp i, 0, 1⟩
/-- QOS_SHP.TOKEN_INIT -/
def qosShpTokenInit (i : Nat) : Fld := ⟨qosShp i, 1, 1⟩
/-- QOS_SHP.RATE -/
def qosShpRate (i : Nat) : Fld := ⟨qosShp i, 2, 20⟩
/-- QOS_SHP.BURST -/
def qosShpBurst (i : Nat) : Fld := ⟨qosShp i, 22, 20⟩
/-- QOS_POL_CNT -/
def qosPolCnt (i : Nat) : Nat := 0x810018 + i * 0x20
/-- QOS_POL_CNT.YELLOW -/
def qosPolCntYellow (i : Nat) : Fld := ⟨qosPolCnt i, 0, 32⟩
/-- QOS_POL_CNT.RED -/
def qosPolCntRed (i : Nat) : Fld := ⟨qosPolCnt i, 32, 32⟩
/-- QOS_DOM_STATE -/
def qosDomState (i : Nat) : Nat := 0x818000 + i * 0x8
/-- QOS_DOM_STATE.QUEUED -/
def qosDomStateQueued (i : Nat) : Fld := ⟨qosDomState i, 0, 16⟩
/-- QOS_DOM_STATE.PARKED -/
def qosDomStateParked (i : Nat) : Fld := ⟨qosDomState i, 16, 16⟩
/-- QOS_HIST_DOM -/
def qosHistDom (i j : Nat) : Nat := 0x820000 + i * 0x80 + j * 0x8
/-- QOS_HIST_DOM.BIN_LO -/
def qosHistDomBinLo (i j : Nat) : Fld := ⟨qosHistDom i j, 0, 32⟩
/-- QOS_HIST_DOM.BIN_HI -/
def qosHistDomBinHi (i j : Nat) : Fld := ⟨qosHistDom i j, 32, 32⟩
/-- QOS_HIST_CH -/
def qosHistCh (i j : Nat) : Nat := 0x840000 + i * 0x80 + j * 0x8
/-- QOS_HIST_CH.BIN_LO -/
def qosHistChBinLo (i j : Nat) : Fld := ⟨qosHistCh i j, 0, 32⟩
/-- QOS_HIST_CH.BIN_HI -/
def qosHistChBinHi (i j : Nat) : Fld := ⟨qosHistCh i j, 32, 32⟩
/-- TT_ACT -/
def ttAct (i j : Nat) : Nat := 0x880000 + i * 0x1000 + j * 0x8
/-- TT_ACT.DURATION -/
def ttActDuration (i j : Nat) : Fld := ⟨ttAct i j, 0, 24⟩
/-- TT_ACT.GATE -/
def ttActGate (i j : Nat) : Fld := ⟨ttAct i j, 24, 9⟩
/-- TT_PEND -/
def ttPend (i j : Nat) : Nat := 0x880200 + i * 0x1000 + j * 0x8
/-- TT_PEND.DURATION -/
def ttPendDuration (i j : Nat) : Fld := ⟨ttPend i j, 0, 24⟩
/-- TT_PEND.GATE -/
def ttPendGate (i j : Nat) : Fld := ⟨ttPend i j, 24, 9⟩
/-- TT_PEND_LEN -/
def ttPendLen (i : Nat) : Nat := 0x880400 + i * 0x1000
/-- TT_PEND_LEN.LEN -/
def ttPendLenLen (i : Nat) : Fld := ⟨ttPendLen i, 0, 7⟩
/-- TT_CTRL -/
def ttCtrl (i : Nat) : Nat := 0x880408 + i * 0x1000
/-- TT_STATUS -/
def ttStatus (i : Nat) : Nat := 0x880410 + i * 0x1000
/-- TT_STATUS.PEND_STATE -/
def ttStatusPendState (i : Nat) : Fld := ⟨ttStatus i, 0, 2⟩
/-- TT_STATUS.REASON -/
def ttStatusReason (i : Nat) : Fld := ⟨ttStatus i, 2, 4⟩
/-- TT_STATUS.OVERSIZE_MASK -/
def ttStatusOversizeMask (i : Nat) : Fld := ⟨ttStatus i, 6, 9⟩
/-- TT_STATUS.DIRTY -/
def ttStatusDirty (i : Nat) : Fld := ⟨ttStatus i, 15, 1⟩
/-- TT_STATUS.TAKEOVER_PENDING -/
def ttStatusTakeoverPending (i : Nat) : Fld := ⟨ttStatus i, 16, 1⟩
/-- TT_STATUS.ACT_LEN -/
def ttStatusActLen (i : Nat) : Fld := ⟨ttStatus i, 17, 7⟩
/-- TT_ACT_CYCLE -/
def ttActCycle (i : Nat) : Nat := 0x880418 + i * 0x1000
/-- TT_ACT_CYCLE.CYCLE_NS -/
def ttActCycleCycleNs (i : Nat) : Fld := ⟨ttActCycle i, 0, 30⟩
/-- TT_ACT_START -/
def ttActStart (i : Nat) : Nat := 0x880420 + i * 0x1000
/-- TT_ACT_START.START_NS -/
def ttActStartStartNs (i : Nat) : Fld := ⟨ttActStart i, 0, 64⟩
/-- TT_TAKEOVER_AT -/
def ttTakeoverAt (i : Nat) : Nat := 0x880428 + i * 0x1000
/-- TT_TAKEOVER_AT.AT_NS -/
def ttTakeoverAtAtNs (i : Nat) : Fld := ⟨ttTakeoverAt i, 0, 64⟩
/-- TT_EVT -/
def ttEvt (i : Nat) : Nat := 0x880430 + i * 0x1000
/-- TT_EVT.CHECK_DONE -/
def ttEvtCheckDone (i : Nat) : Fld := ⟨ttEvt i, 0, 1⟩
/-- TT_EVT.TAKEOVER_DONE -/
def ttEvtTakeoverDone (i : Nat) : Fld := ⟨ttEvt i, 1, 1⟩
/-- TT_EVT.OVERSIZE -/
def ttEvtOversize (i : Nat) : Fld := ⟨ttEvt i, 2, 1⟩
/-- TT_OVERSIZE_CNT -/
def ttOversizeCnt (i : Nat) : Nat := 0x880438 + i * 0x1000
/-- TT_OVERSIZE_CNT.COUNT -/
def ttOversizeCntCount (i : Nat) : Fld := ⟨ttOversizeCnt i, 0, 32⟩
/-- TT_COMMIT_RESULT -/
def ttCommitResult : Nat := 0x89A000
/-- TT_COMMIT_RESULT.REASON -/
def ttCommitResultReason : Fld := ⟨ttCommitResult, 0, 2⟩
/-- TT_COMMIT_RESULT.SCHED -/
def ttCommitResultSched : Fld := ⟨ttCommitResult, 2, 5⟩
/-- TT_COMMIT_RESULT.REFUSED -/
def ttCommitResultRefused : Fld := ⟨ttCommitResult, 7, 1⟩
/-- QOS_G0_CH -/
def qosG0Ch (i : Nat) : Nat := 0x860000 + i * 0x8
/-- QOS_G0_CH.BOUND_10PS -/
def qosG0ChBound10ps (i : Nat) : Fld := ⟨qosG0Ch i, 0, 16⟩
/-- QOS_G0_CH.N -/
def qosG0ChN (i : Nat) : Fld := ⟨qosG0Ch i, 16, 5⟩
/-- QOS_G0_CH.PROFILE_OK -/
def qosG0ChProfileOk (i : Nat) : Fld := ⟨qosG0Ch i, 21, 1⟩
/-- QOS_G0_CH.PEND_PROFILE_OK -/
def qosG0ChPendProfileOk (i : Nat) : Fld := ⟨qosG0Ch i, 22, 1⟩
/-- QOS_G0_CH.CONTRACT_OK -/
def qosG0ChContractOk (i : Nat) : Fld := ⟨qosG0Ch i, 23, 1⟩
/-- QOS_G0_CH.GUARANTEED -/
def qosG0ChGuaranteed (i : Nat) : Fld := ⟨qosG0Ch i, 24, 1⟩
/-- QOS_G0_CH.CIR_LIMIT -/
def qosG0ChCirLimit (i : Nat) : Fld := ⟨qosG0Ch i, 25, 20⟩
/-- QOS_G0_RD -/
def qosG0Rd (i : Nat) : Nat := 0x860100 + i * 0x20
/-- QOS_G0_RD.CONFORMING -/
def qosG0RdConforming (i : Nat) : Fld := ⟨qosG0Rd i, 0, 32⟩
/-- QOS_G0_RD.EXCLUDED -/
def qosG0RdExcluded (i : Nat) : Fld := ⟨qosG0Rd i, 32, 32⟩
/-- QOS_G0_WR -/
def qosG0Wr (i : Nat) : Nat := 0x860108 + i * 0x20
/-- QOS_G0_WR.CONFORMING -/
def qosG0WrConforming (i : Nat) : Fld := ⟨qosG0Wr i, 0, 32⟩
/-- QOS_G0_WR.EXCLUDED -/
def qosG0WrExcluded (i : Nat) : Fld := ⟨qosG0Wr i, 32, 32⟩
/-- QOS_G0_MAX -/
def qosG0Max (i : Nat) : Nat := 0x860110 + i * 0x20
/-- QOS_G0_MAX.RD_MAX_NS -/
def qosG0MaxRdMaxNs (i : Nat) : Fld := ⟨qosG0Max i, 0, 16⟩
/-- QOS_G0_MAX.WR_MAX_NS -/
def qosG0MaxWrMaxNs (i : Nat) : Fld := ⟨qosG0Max i, 16, 16⟩
/-- QOS_G0_MAX.RD_OVER -/
def qosG0MaxRdOver (i : Nat) : Fld := ⟨qosG0Max i, 32, 16⟩
/-- QOS_G0_MAX.WR_OVER -/
def qosG0MaxWrOver (i : Nat) : Fld := ⟨qosG0Max i, 48, 16⟩
/-- TB_CFG -/
def tbCfg : Nat := 0x400000
/-- TB_CFG.PRI0 -/
def tbCfgPri0 : Fld := ⟨tbCfg, 0, 2⟩
/-- TB_CFG.PRI1 -/
def tbCfgPri1 : Fld := ⟨tbCfg, 2, 2⟩
/-- TB_CFG.PRI2 -/
def tbCfgPri2 : Fld := ⟨tbCfg, 4, 2⟩
/-- TB_CFG.SLEW_MAX_PPM -/
def tbCfgSlewMaxPpm : Fld := ⟨tbCfg, 6, 8⟩
/-- TB_CFG.LOCK_LOSS_NS -/
def tbCfgLockLossNs : Fld := ⟨tbCfg, 14, 16⟩
/-- TB_CFG.HOLDOVER_LIMIT_S -/
def tbCfgHoldoverLimitS : Fld := ⟨tbCfg, 30, 10⟩
/-- TB_CFG.STEP_EN -/
def tbCfgStepEn : Fld := ⟨tbCfg, 50, 1⟩
/-- TB_PTP_CFG -/
def tbPtpCfg : Nat := 0x400008
/-- TB_PTP_CFG.DELAY_MECH -/
def tbPtpCfgDelayMech : Fld := ⟨tbPtpCfg, 9, 1⟩
/-- TB_PTP_CFG.SYNC_LOG_INT -/
def tbPtpCfgSyncLogInt : Fld := ⟨tbPtpCfg, 10, 3⟩
/-- TB_PPS_CFG -/
def tbPpsCfg : Nat := 0x400010
/-- TB_PPS_CFG.OUT_EN -/
def tbPpsCfgOutEn : Fld := ⟨tbPpsCfg, 1, 1⟩
/-- TB_PPS_CFG.OUT_WIDTH_US -/
def tbPpsCfgOutWidthUs : Fld := ⟨tbPpsCfg, 2, 20⟩
/-- TB_PPS_CFG.IN_DELAY_NS -/
def tbPpsCfgInDelayNs : Fld := ⟨tbPpsCfg, 22, 20⟩
/-- TB_STRAIT_ASYM -/
def tbStraitAsym : Nat := 0x400018
/-- TB_STRAIT_ASYM.ASYM_PS -/
def tbStraitAsymAsymPs : Fld := ⟨tbStraitAsym, 0, 16⟩
/-- TB_STATUS -/
def tbStatus : Nat := 0x400020
/-- TB_STATUS.STATE -/
def tbStatusState : Fld := ⟨tbStatus, 0, 2⟩
/-- TB_STATUS.SOURCE -/
def tbStatusSource : Fld := ⟨tbStatus, 2, 2⟩
/-- TB_STATUS.EVER_LOCKED -/
def tbStatusEverLocked : Fld := ⟨tbStatus, 4, 1⟩
/-- TB_STATUS.QUALIFIED -/
def tbStatusQualified : Fld := ⟨tbStatus, 5, 3⟩
/-- TB_STATUS.HOLDOVER_S -/
def tbStatusHoldoverS : Fld := ⟨tbStatus, 8, 10⟩
/-- TB_TIME_LO -/
def tbTimeLo : Nat := 0x400028
/-- TB_TIME_HI -/
def tbTimeHi : Nat := 0x400030
/-- TB_TIME_HI.NS_HI -/
def tbTimeHiNsHi : Fld := ⟨tbTimeHi, 0, 16⟩
/-- TB_OFFSET -/
def tbOffset : Nat := 0x400038
/-- TB_OFFSET.OFFSET_NS -/
def tbOffsetOffsetNs : Fld := ⟨tbOffset, 0, 32⟩
/-- TB_FREQ_ADJ -/
def tbFreqAdj : Nat := 0x400040
/-- TB_FREQ_ADJ.ADJ -/
def tbFreqAdjAdj : Fld := ⟨tbFreqAdj, 0, 32⟩
/-- TB_STEP -/
def tbStep : Nat := 0x400048
/-- TB_TOD_SET -/
def tbTodSet : Nat := 0x400050
/-- TB_EVT -/
def tbEvt : Nat := 0x400058
/-- TB_EVT.STATE_CHANGE -/
def tbEvtStateChange : Fld := ⟨tbEvt, 0, 1⟩
/-- TB_EVT.STEP -/
def tbEvtStep : Fld := ⟨tbEvt, 1, 1⟩
/-- TB_EVT.SOURCE_CHANGE -/
def tbEvtSourceChange : Fld := ⟨tbEvt, 2, 1⟩
/-- TB_EVT.HOLDOVER_EXPIRED -/
def tbEvtHoldoverExpired : Fld := ⟨tbEvt, 3, 1⟩
/-- TB_EVT.CFG_REJECT -/
def tbEvtCfgReject : Fld := ⟨tbEvt, 4, 1⟩
/-- TB_EVT.ALIGN_ERR -/
def tbEvtAlignErr : Fld := ⟨tbEvt, 5, 1⟩
/-- TOP_COMMIT_TIME -/
def topCommitTime : Nat := 0x1000
/-- TOP_COMMIT_TIME.T_NS -/
def topCommitTimeTNs : Fld := ⟨topCommitTime, 0, 64⟩
/-- TOP_COMMIT_REQ -/
def topCommitReq : Nat := 0x1008
/-- TOP_COMMIT_RESULT -/
def topCommitResult : Nat := 0x1010
/-- TOP_COMMIT_RESULT.RESULT -/
def topCommitResultResult : Fld := ⟨topCommitResult, 0, 4⟩
/-- TOP_COMMIT_RESULT.TAG -/
def topCommitResultTag : Fld := ⟨topCommitResult, 4, 16⟩
/-- TOP_COMMIT_RESULT.REFUSED_GROUPS -/
def topCommitResultRefusedGroups : Fld := ⟨topCommitResult, 20, 8⟩
/-- TOP_COMMIT_RESULT.DONE -/
def topCommitResultDone : Fld := ⟨topCommitResult, 28, 1⟩
/-- TOP_COMMIT_STATUS -/
def topCommitStatus : Nat := 0x1020
/-- TOP_COMMIT_STATUS.QUEUED -/
def topCommitStatusQueued : Fld := ⟨topCommitStatus, 0, 7⟩
/-- TOP_COMMIT_STATUS.SEALED -/
def topCommitStatusSealed : Fld := ⟨topCommitStatus, 7, 8⟩
/-- TOP_COMMIT_STATUS.SEALED_WRITE -/
def topCommitStatusSealedWrite : Fld := ⟨topCommitStatus, 15, 1⟩
/-- TW_CFG -/
def twCfg (i : Nat) : Nat := 0xE00000 + i * 0x10000
/-- TW_CFG.ENABLE -/
def twCfgEnable (i : Nat) : Fld := ⟨twCfg i, 0, 1⟩
/-- TW_VC_BUF -/
def twVcBuf (i : Nat) : Nat := 0xE00008 + i * 0x10000
/-- TW_VC_MAP -/
def twVcMap (i : Nat) : Nat := 0xE00010 + i * 0x10000
/-- TW_VC_MAP.SYNC -/
def twVcMapSync (i : Nat) : Fld := ⟨twVcMap i, 0, 3⟩
/-- TW_VC_MAP.ASYNC -/
def twVcMapAsync (i : Nat) : Fld := ⟨twVcMap i, 3, 3⟩
/-- TW_VC_MAP.RESYNC -/
def twVcMapResync (i : Nat) : Fld := ⟨twVcMap i, 6, 3⟩
/-- TW_CTRL -/
def twCtrl (i : Nat) : Nat := 0xE00018 + i * 0x10000
/-- TW_STATUS -/
def twStatus (i : Nat) : Nat := 0xE00020 + i * 0x10000
/-- TW_STATUS.STATE -/
def twStatusState (i : Nat) : Fld := ⟨twStatus i, 0, 3⟩
/-- TW_STATUS.TX_WIDTH -/
def twStatusTxWidth (i : Nat) : Fld := ⟨twStatus i, 3, 2⟩
/-- TW_STATUS.RX_WIDTH -/
def twStatusRxWidth (i : Nat) : Fld := ⟨twStatus i, 5, 2⟩
/-- TW_STATUS.RX_LOCKED -/
def twStatusRxLocked (i : Nat) : Fld := ⟨twStatus i, 7, 8⟩
/-- TW_STATUS.PARTNER_ID -/
def twStatusPartnerId (i : Nat) : Fld := ⟨twStatus i, 15, 12⟩
/-- TW_STATUS.PARTNER_PAIR_ID -/
def twStatusPartnerPairId (i : Nat) : Fld := ⟨twStatus i, 27, 2⟩
/-- TW_STATUS.KEY_SET_TX -/
def twStatusKeySetTx (i : Nat) : Fld := ⟨twStatus i, 29, 1⟩
/-- TW_STATUS.KEY_SET_RX -/
def twStatusKeySetRx (i : Nat) : Fld := ⟨twStatus i, 30, 1⟩
/-- TW_STATUS.SWITCHING -/
def twStatusSwitching (i : Nat) : Fld := ⟨twStatus i, 31, 1⟩
/-- TW_STATUS.DOWN_CAUSE -/
def twStatusDownCause (i : Nat) : Fld := ⟨twStatus i, 32, 4⟩
/-- TW_STATUS.INIT_FAIL -/
def twStatusInitFail (i : Nat) : Fld := ⟨twStatus i, 36, 4⟩
/-- TW_SEQ -/
def twSeq (i : Nat) : Nat := 0xE00028 + i * 0x10000
/-- TW_SEQ.TX_NEXT -/
def twSeqTxNext (i : Nat) : Fld := ⟨twSeq i, 0, 12⟩
/-- TW_SEQ.TX_OLDEST -/
def twSeqTxOldest (i : Nat) : Fld := ⟨twSeq i, 12, 12⟩
/-- TW_SEQ.OUTSTANDING -/
def twSeqOutstanding (i : Nat) : Fld := ⟨twSeq i, 24, 11⟩
/-- TW_SEQ.STALLED -/
def twSeqStalled (i : Nat) : Fld := ⟨twSeq i, 35, 1⟩
/-- TW_SEQ.RX_EXPECTED -/
def twSeqRxExpected (i : Nat) : Fld := ⟨twSeq i, 36, 12⟩
/-- TW_CNT_REPLAY -/
def twCntReplay (i : Nat) : Nat := 0xE00030 + i * 0x10000
/-- TW_CNT_REPLAY.ON_NAK -/
def twCntReplayOnNak (i : Nat) : Fld := ⟨twCntReplay i, 0, 16⟩
/-- TW_CNT_REPLAY.ON_TIMEOUT -/
def twCntReplayOnTimeout (i : Nat) : Fld := ⟨twCntReplay i, 16, 16⟩
/-- TW_CNT_REPLAY.NAK_SENT -/
def twCntReplayNakSent (i : Nat) : Fld := ⟨twCntReplay i, 32, 16⟩
/-- TW_CNT_REPLAY.STALLS -/
def twCntReplayStalls (i : Nat) : Fld := ⟨twCntReplay i, 48, 16⟩
/-- TW_CNT_ERR -/
def twCntErr (i : Nat) : Nat := 0xE00038 + i * 0x10000
/-- TW_CNT_ERR.BAD_FRAME -/
def twCntErrBadFrame (i : Nat) : Fld := ⟨twCntErr i, 0, 16⟩
/-- TW_CNT_ERR.FEC_UNCORR -/
def twCntErrFecUncorr (i : Nat) : Fld := ⟨twCntErr i, 16, 16⟩
/-- TW_CNT_ERR.TAG_FAIL -/
def twCntErrTagFail (i : Nat) : Fld := ⟨twCntErr i, 32, 16⟩
/-- TW_CNT_ERR.LINK_DOWNS -/
def twCntErrLinkDowns (i : Nat) : Fld := ⟨twCntErr i, 48, 16⟩
/-- TW_CNT_FEC -/
def twCntFec (i : Nat) : Nat := 0xE00040 + i * 0x10000
/-- TW_CNT_FEC.SYMBOLS -/
def twCntFecSymbols (i : Nat) : Fld := ⟨twCntFec i, 0, 48⟩
/-- TW_EVT -/
def twEvt (i : Nat) : Nat := 0xE00048 + i * 0x10000
/-- TW_EVT.LINK_UP -/
def twEvtLinkUp (i : Nat) : Fld := ⟨twEvt i, 0, 1⟩
/-- TW_EVT.LINK_DOWN -/
def twEvtLinkDown (i : Nat) : Fld := ⟨twEvt i, 1, 1⟩
/-- TW_EVT.WIDTH_CHANGE -/
def twEvtWidthChange (i : Nat) : Fld := ⟨twEvt i, 2, 1⟩
/-- TW_EVT.INIT_FAIL -/
def twEvtInitFail (i : Nat) : Fld := ⟨twEvt i, 3, 1⟩
/-- TW_EVT.KEY_SWITCH_DONE -/
def twEvtKeySwitchDone (i : Nat) : Fld := ⟨twEvt i, 4, 1⟩
/-- TW_EVT.CFG_REJECT -/
def twEvtCfgReject (i : Nat) : Fld := ⟨twEvt i, 5, 1⟩
/-- TW_VC_STATUS -/
def twVcStatus (i j : Nat) : Nat := 0xE00100 + i * 0x10000 + j * 0x8
/-- TW_VC_STATUS.TX_CREDITS -/
def twVcStatusTxCredits (i j : Nat) : Fld := ⟨twVcStatus i j, 0, 12⟩
/-- TW_VC_STATUS.RX_INUSE -/
def twVcStatusRxInuse (i j : Nat) : Fld := ⟨twVcStatus i j, 12, 12⟩
/-- MIR_CFG -/
def mirCfg : Nat := 0xE80000
/-- MIR_CFG.REJOIN_WINDOW_S -/
def mirCfgRejoinWindowS : Fld := ⟨mirCfg, 0, 16⟩
/-- MIR_CFG.MAX_LAG_CUTS -/
def mirCfgMaxLagCuts : Fld := ⟨mirCfg, 16, 8⟩
/-- MIR_CFG.RESYNC_INFLIGHT -/
def mirCfgResyncInflight : Fld := ⟨mirCfg, 40, 11⟩
/-- MIR_CFG.FLIGHT_NS -/
def mirCfgFlightNs : Fld := ⟨mirCfg, 51, 10⟩
/-- MIR_KEYSET -/
def mirKeyset : Nat := 0xE80008
/-- MIR_KEYSET.SET_A -/
def mirKeysetSetA : Fld := ⟨mirKeyset, 0, 1⟩
/-- MIR_KEYSET.SET_B -/
def mirKeysetSetB : Fld := ⟨mirKeyset, 1, 1⟩
/-- MIR_COMMIT_RESULT -/
def mirCommitResult : Nat := 0xE80010
/-- MIR_COMMIT_RESULT.REASON -/
def mirCommitResultReason : Fld := ⟨mirCommitResult, 0, 4⟩
/-- MIR_COMMIT_RESULT.DOMAIN -/
def mirCommitResultDomain : Fld := ⟨mirCommitResult, 4, 10⟩
/-- MIR_COMMIT_RESULT.REFUSED -/
def mirCommitResultRefused : Fld := ⟨mirCommitResult, 14, 1⟩
/-- MIR_CUT -/
def mirCut (i : Nat) : Nat := 0xE80018 + i * 0x8
/-- MIR_CUT.CUT -/
def mirCutCut (i : Nat) : Fld := ⟨mirCut i, 0, 64⟩
/-- MIR_HWM -/
def mirHwm (i : Nat) : Nat := 0xE80028 + i * 0x8
/-- MIR_HWM.HWM -/
def mirHwmHwm (i : Nat) : Fld := ⟨mirHwm i, 0, 64⟩
/-- MIR_STATUS -/
def mirStatus (i : Nat) : Nat := 0xE80038 + i * 0x8
/-- MIR_STATUS.SYNC_ACK_BOUND_10PS -/
def mirStatusSyncAckBound10ps (i : Nat) : Fld := ⟨mirStatus i, 0, 16⟩
/-- MIR_STATUS.LOG_INUSE -/
def mirStatusLogInuse (i : Nat) : Fld := ⟨mirStatus i, 16, 16⟩
/-- MIR_STATUS.LAG_STALL -/
def mirStatusLagStall (i : Nat) : Fld := ⟨mirStatus i, 32, 1⟩
/-- MIR_STATUS.SOLO_DOMAINS -/
def mirStatusSoloDomains (i : Nat) : Fld := ⟨mirStatus i, 33, 11⟩
/-- MIR_STATUS.RESYNC_BUSY -/
def mirStatusResyncBusy (i : Nat) : Fld := ⟨mirStatus i, 44, 1⟩
/-- MIR_EVT -/
def mirEvt : Nat := 0xE80048
/-- MIR_EVT.SOLO -/
def mirEvtSolo : Fld := ⟨mirEvt, 0, 1⟩
/-- MIR_EVT.RESYNC_DONE -/
def mirEvtResyncDone : Fld := ⟨mirEvt, 1, 1⟩
/-- MIR_EVT.YIELD -/
def mirEvtYield : Fld := ⟨mirEvt, 2, 1⟩
/-- MIR_EVT.GRANT_MISMATCH -/
def mirEvtGrantMismatch : Fld := ⟨mirEvt, 3, 1⟩
/-- MIR_EVT.REJOIN_EXPIRED -/
def mirEvtRejoinExpired : Fld := ⟨mirEvt, 4, 1⟩
/-- MIR_EVT.ORPHANED -/
def mirEvtOrphaned : Fld := ⟨mirEvt, 5, 1⟩
/-- MIR_EVT.LAG_STALL -/
def mirEvtLagStall : Fld := ⟨mirEvt, 6, 1⟩
/-- MIR_EVT.CFG_REJECT -/
def mirEvtCfgReject : Fld := ⟨mirEvt, 7, 1⟩
/-- MIR_CNT -/
def mirCnt (i : Nat) : Nat := 0xE80050 + i * 0x8
/-- MIR_CNT.SEC_WRITE_DROP -/
def mirCntSecWriteDrop (i : Nat) : Fld := ⟨mirCnt i, 0, 16⟩
/-- MIR_CNT.YIELD_WRITE_DROP -/
def mirCntYieldWriteDrop (i : Nat) : Fld := ⟨mirCnt i, 16, 16⟩
/-- MIR_CNT.PEER_REFUSE -/
def mirCntPeerRefuse (i : Nat) : Fld := ⟨mirCnt i, 32, 16⟩
/-- MIR_CNT.ACK_TIMEOUT -/
def mirCntAckTimeout (i : Nat) : Fld := ⟨mirCnt i, 48, 16⟩
/-- MIR_DOM_W0 -/
def mirDomW0 (i : Nat) : Nat := 0xE81000 + i * 0x10
/-- MIR_DOM_W0.ROLE -/
def mirDomW0Role (i : Nat) : Fld := ⟨mirDomW0 i, 0, 2⟩
/-- MIR_DOM_W0.PEER_DOMAIN -/
def mirDomW0PeerDomain (i : Nat) : Fld := ⟨mirDomW0 i, 2, 10⟩
/-- MIR_DOM_W0.SEC_READ -/
def mirDomW0SecRead (i : Nat) : Fld := ⟨mirDomW0 i, 12, 1⟩
/-- MIR_DOM_W1 -/
def mirDomW1 (i : Nat) : Nat := 0xE81008 + i * 0x10
/-- MIR_DOM_W1.GRANT_EPOCH -/
def mirDomW1GrantEpoch (i : Nat) : Fld := ⟨mirDomW1 i, 0, 32⟩
/-- MIR_DOM_STATE_W0 -/
def mirDomStateW0 (i : Nat) : Nat := 0xE85000 + i * 0x10
/-- MIR_DOM_STATE_W0.STATE -/
def mirDomStateW0State (i : Nat) : Fld := ⟨mirDomStateW0 i, 0, 4⟩
/-- MIR_DOM_STATE_W0.MATCHED -/
def mirDomStateW0Matched (i : Nat) : Fld := ⟨mirDomStateW0 i, 4, 1⟩
/-- MIR_DOM_STATE_W0.CONTINUOUS -/
def mirDomStateW0Continuous (i : Nat) : Fld := ⟨mirDomStateW0 i, 5, 1⟩
/-- MIR_DOM_STATE_W0.DIRTY_OK -/
def mirDomStateW0DirtyOk (i : Nat) : Fld := ⟨mirDomStateW0 i, 6, 1⟩
/-- MIR_DOM_STATE_W0.PAIRED_ONCE -/
def mirDomStateW0PairedOnce (i : Nat) : Fld := ⟨mirDomStateW0 i, 7, 1⟩
/-- MIR_DOM_STATE_W0.DIRTY_EXTENTS -/
def mirDomStateW0DirtyExtents (i : Nat) : Fld := ⟨mirDomStateW0 i, 8, 27⟩
/-- MIR_DOM_STATE_W0.SOLO_S -/
def mirDomStateW0SoloS (i : Nat) : Fld := ⟨mirDomStateW0 i, 35, 29⟩
/-- MIR_DOM_STATE_W1 -/
def mirDomStateW1 (i : Nat) : Nat := 0xE85008 + i * 0x10
/-- MIR_DOM_STATE_W1.MIR_EPOCH -/
def mirDomStateW1MirEpoch (i : Nat) : Fld := ⟨mirDomStateW1 i, 0, 64⟩
/-- OFL_RING_BASE -/
def oflRingBase (fn i : Nat) : Nat := 0x100000000 * (1 + fn) + 0x1000 + i * 0x100
/-- OFL_RING_BASE.DESC_BASE -/
def oflRingBaseDescBase (fn i : Nat) : Fld := ⟨oflRingBase fn i, 12, 52⟩
/-- OFL_RING_CBASE -/
def oflRingCbase (fn i : Nat) : Nat := 0x100000000 * (1 + fn) + 0x1008 + i * 0x100
/-- OFL_RING_CBASE.CPL_BASE -/
def oflRingCbaseCplBase (fn i : Nat) : Fld := ⟨oflRingCbase fn i, 12, 52⟩
/-- OFL_RING_CFG -/
def oflRingCfg (fn i : Nat) : Nat := 0x100000000 * (1 + fn) + 0x1010 + i * 0x100
/-- OFL_RING_CFG.SIZE -/
def oflRingCfgSize (fn i : Nat) : Fld := ⟨oflRingCfg fn i, 0, 16⟩
/-- OFL_RING_CFG.MSIX_VEC -/
def oflRingCfgMsixVec (fn i : Nat) : Fld := ⟨oflRingCfg fn i, 16, 6⟩
/-- OFL_RING_CTRL -/
def oflRingCtrl (fn i : Nat) : Nat := 0x100000000 * (1 + fn) + 0x1018 + i * 0x100
/-- OFL_RING_CTRL.ENABLE -/
def oflRingCtrlEnable (fn i : Nat) : Fld := ⟨oflRingCtrl fn i, 0, 1⟩
/-- OFL_RING_TAIL -/
def oflRingTail (fn i : Nat) : Nat := 0x100000000 * (1 + fn) + 0x1020 + i * 0x100
/-- OFL_RING_TAIL.TAIL -/
def oflRingTailTail (fn i : Nat) : Fld := ⟨oflRingTail fn i, 0, 15⟩
/-- OFL_RING_HEAD -/
def oflRingHead (fn i : Nat) : Nat := 0x100000000 * (1 + fn) + 0x1028 + i * 0x100
/-- OFL_RING_HEAD.HEAD -/
def oflRingHeadHead (fn i : Nat) : Fld := ⟨oflRingHead fn i, 0, 15⟩
/-- OFL_RING_STATUS -/
def oflRingStatus (fn i : Nat) : Nat := 0x100000000 * (1 + fn) + 0x1030 + i * 0x100
/-- OFL_RING_STATUS.STATE -/
def oflRingStatusState (fn i : Nat) : Fld := ⟨oflRingStatus fn i, 0, 2⟩
/-- OFL_RING_STATUS.REASON -/
def oflRingStatusReason (fn i : Nat) : Fld := ⟨oflRingStatus fn i, 2, 3⟩
/-- OFL_RING_STATUS.INFLIGHT -/
def oflRingStatusInflight (fn i : Nat) : Fld := ⟨oflRingStatus fn i, 5, 5⟩
/-- OFL_ABORT -/
def oflAbort (fn i j : Nat) : Nat := 0x100000000 * (1 + fn) + 0x2000 + i * 0x100 + j * 0x10
/-- OFL_ABORT.STATUS -/
def oflAbortStatus (fn i j : Nat) : Fld := ⟨oflAbort fn i j, 0, 8⟩
/-- OFL_ABORT.VALID -/
def oflAbortValid (fn i j : Nat) : Fld := ⟨oflAbort fn i j, 8, 1⟩
/-- OFL_ABORT.TAG -/
def oflAbortTag (fn i j : Nat) : Fld := ⟨oflAbort fn i j, 16, 16⟩
/-- OFL_ABORT.INDEX -/
def oflAbortIndex (fn i j : Nat) : Fld := ⟨oflAbort fn i j, 32, 15⟩
/-- OFL_ABORT_W1 -/
def oflAbortW1 (fn i j : Nat) : Nat := 0x100000000 * (1 + fn) + 0x2008 + i * 0x100 + j * 0x10
/-- OFL_ABORT_W1.BYTES_OUT -/
def oflAbortW1BytesOut (fn i j : Nat) : Fld := ⟨oflAbortW1 fn i j, 0, 32⟩
/-- OFL_ABORT_W1.SRC_CONSUMED -/
def oflAbortW1SrcConsumed (fn i j : Nat) : Fld := ⟨oflAbortW1 fn i j, 32, 32⟩
/-- OFL_CFG -/
def oflCfg : Nat := 0xF00000
/-- OFL_CFG.COMP_MAX -/
def oflCfgCompMax : Fld := ⟨oflCfg, 0, 2⟩
/-- FLT_CFG -/
def fltCfg : Nat := 0x200000
/-- FLT_CFG.HOST_CE_EN -/
def fltCfgHostCeEn : Fld := ⟨fltCfg, 0, 1⟩
/-- FLT_CFG.LOG_CE_EN -/
def fltCfgLogCeEn : Fld := ⟨fltCfg, 1, 1⟩
/-- FLT_STATUS -/
def fltStatus : Nat := 0x200008
/-- FLT_STATUS.NEXT_SEQ -/
def fltStatusNextSeq : Fld := ⟨fltStatus, 0, 32⟩
/-- FLT_STATUS.OPEN -/
def fltStatusOpen : Fld := ⟨fltStatus, 32, 13⟩
/-- FLT_STATUS.WRAPPED -/
def fltStatusWrapped : Fld := ⟨fltStatus, 45, 1⟩
/-- FLT_STATUS.LOGBOOK_RO -/
def fltStatusLogbookRo : Fld := ⟨fltStatus, 46, 1⟩
/-- FLT_ACK -/
def fltAck : Nat := 0x200010
/-- FLT_CNT -/
def fltCnt : Nat := 0x200018
/-- FLT_CNT.CE -/
def fltCntCe : Fld := ⟨fltCnt, 0, 16⟩
/-- FLT_CNT.UCR -/
def fltCntUcr : Fld := ⟨fltCnt, 16, 16⟩
/-- FLT_CNT.UCF -/
def fltCntUcf : Fld := ⟨fltCnt, 32, 8⟩
/-- FLT_CNT.MERGED -/
def fltCntMerged : Fld := ⟨fltCnt, 40, 16⟩
/-- FLT_CNT.MASKED -/
def fltCntMasked : Fld := ⟨fltCnt, 56, 8⟩
/-- FLT_ERR_PIN_CTRL -/
def fltErrPinCtrl : Nat := 0x200020
/-- FLT_ERR_PIN_CTRL.PIN_ASSERTED -/
def fltErrPinCtrlPinAsserted : Fld := ⟨fltErrPinCtrl, 0, 1⟩
/-- FLT_ERR_PIN_CTRL.HW_PHASE -/
def fltErrPinCtrlHwPhase : Fld := ⟨fltErrPinCtrl, 1, 1⟩
/-- FLT_ERR_PIN_CTRL.HW_LATCHED -/
def fltErrPinCtrlHwLatched : Fld := ⟨fltErrPinCtrl, 2, 1⟩
/-- FLT_ERR_PIN_CTRL.RELEASE -/
def fltErrPinCtrlRelease : Fld := ⟨fltErrPinCtrl, 3, 1⟩
/-- FLT_ERR_PIN_CTRL.SW_ASSERT -/
def fltErrPinCtrlSwAssert : Fld := ⟨fltErrPinCtrl, 4, 1⟩
/-- FLT_ERR_PIN_CTRL.RELEASE_PENDING -/
def fltErrPinCtrlReleasePending : Fld := ⟨fltErrPinCtrl, 5, 1⟩
/-- FLT_ERR_PIN_CTRL.DF_LOCK -/
def fltErrPinCtrlDfLock : Fld := ⟨fltErrPinCtrl, 6, 1⟩
/-- FLT_ALARM_PIN_CTRL -/
def fltAlarmPinCtrl : Nat := 0x200028
/-- FLT_ALARM_PIN_CTRL.PIN_ASSERTED -/
def fltAlarmPinCtrlPinAsserted : Fld := ⟨fltAlarmPinCtrl, 0, 1⟩
/-- FLT_ALARM_PIN_CTRL.HW_PHASE -/
def fltAlarmPinCtrlHwPhase : Fld := ⟨fltAlarmPinCtrl, 1, 1⟩
/-- FLT_ALARM_PIN_CTRL.HW_LATCHED -/
def fltAlarmPinCtrlHwLatched : Fld := ⟨fltAlarmPinCtrl, 2, 1⟩
/-- FLT_ALARM_PIN_CTRL.RELEASE -/
def fltAlarmPinCtrlRelease : Fld := ⟨fltAlarmPinCtrl, 3, 1⟩
/-- FLT_ALARM_PIN_CTRL.SW_ASSERT -/
def fltAlarmPinCtrlSwAssert : Fld := ⟨fltAlarmPinCtrl, 4, 1⟩
/-- FLT_ALARM_PIN_CTRL.RELEASE_PENDING -/
def fltAlarmPinCtrlReleasePending : Fld := ⟨fltAlarmPinCtrl, 5, 1⟩
/-- UV_EVT_PROD -/
def uvEvtProd (fn : Nat) : Nat := 0x100000000 * (1 + fn) + 0x7000
/-- UV_EVT_PROD.PROD -/
def uvEvtProdProd (fn : Nat) : Fld := ⟨uvEvtProd fn, 0, 16⟩
/-- UV_EVT_CONS -/
def uvEvtCons (fn : Nat) : Nat := 0x100000000 * (1 + fn) + 0x7008
/-- UV_EVT_CONS.CONS -/
def uvEvtConsCons (fn : Nat) : Fld := ⟨uvEvtCons fn, 0, 16⟩
/-- UV_EVT_STATUS -/
def uvEvtStatus (fn : Nat) : Nat := 0x100000000 * (1 + fn) + 0x7010
/-- UV_EVT_STATUS.OVERFLOW -/
def uvEvtStatusOverflow (fn : Nat) : Fld := ⟨uvEvtStatus fn, 0, 1⟩
/-- UV_EVT_CTRL -/
def uvEvtCtrl (fn : Nat) : Nat := 0x100000000 * (1 + fn) + 0x7018
/-- UV_EVT_CTRL.MSIX_VEC -/
def uvEvtCtrlMsixVec (fn : Nat) : Fld := ⟨uvEvtCtrl fn, 0, 6⟩
/-- UV_EVT_CTRL.INTR_EN -/
def uvEvtCtrlIntrEn (fn : Nat) : Fld := ⟨uvEvtCtrl fn, 6, 1⟩
/-- UV_MBOX_CMD -/
def uvMboxCmd (fn : Nat) : Nat := 0x100000000 * (1 + fn) + 0x7020
/-- UV_MBOX_STATUS -/
def uvMboxStatus (fn : Nat) : Nat := 0x100000000 * (1 + fn) + 0x7028
/-- UV_MBOX_STATUS.BUSY -/
def uvMboxStatusBusy (fn : Nat) : Fld := ⟨uvMboxStatus fn, 0, 1⟩
/-- UV_MBOX_STATUS.DONE -/
def uvMboxStatusDone (fn : Nat) : Fld := ⟨uvMboxStatus fn, 1, 1⟩
/-- UV_MBOX_STATUS.RESULT -/
def uvMboxStatusResult (fn : Nat) : Fld := ⟨uvMboxStatus fn, 2, 2⟩
/-- UV_MBOX_PAYLOAD -/
def uvMboxPayload (fn i : Nat) : Nat := 0x100000000 * (1 + fn) + 0x7800 + i * 0x8
/-- PWR_CFG -/
def pwrCfg : Nat := 0x300000
/-- PWR_CFG.RET_MASK_A -/
def pwrCfgRetMaskA : Fld := ⟨pwrCfg, 0, 16⟩
/-- PWR_CFG.RET_MASK_B -/
def pwrCfgRetMaskB : Fld := ⟨pwrCfg, 16, 16⟩
/-- PWR_CFG.WAKE_PERST_EN -/
def pwrCfgWakePerstEn : Fld := ⟨pwrCfg, 32, 1⟩
/-- PWR_CFG.WAKE_MCTP_EN -/
def pwrCfgWakeMctpEn : Fld := ⟨pwrCfg, 33, 1⟩
/-- PWR_TARGET -/
def pwrTarget : Nat := 0x300008
/-- PWR_TARGET.DEVICE -/
def pwrTargetDevice : Fld := ⟨pwrTarget, 0, 2⟩
/-- PWR_TARGET.DVFS_A -/
def pwrTargetDvfsA : Fld := ⟨pwrTarget, 2, 2⟩
/-- PWR_TARGET.DVFS_B -/
def pwrTargetDvfsB : Fld := ⟨pwrTarget, 4, 2⟩
/-- PWR_FM_VOTE_0 -/
def pwrFmVote0 : Nat := 0x300010
/-- PWR_FM_VOTE_0.VOTES -/
def pwrFmVote0Votes : Fld := ⟨pwrFmVote0, 0, 64⟩
/-- PWR_FM_VOTE_1 -/
def pwrFmVote1 : Nat := 0x300018
/-- PWR_FM_VOTE_1.VOTE_32 -/
def pwrFmVote1Vote32 : Fld := ⟨pwrFmVote1, 0, 2⟩
/-- PWR_STATUS -/
def pwrStatus : Nat := 0x300020
/-- PWR_STATUS.DEVICE_STATE -/
def pwrStatusDeviceState : Fld := ⟨pwrStatus, 0, 3⟩
/-- PWR_STATUS.SLOT -/
def pwrStatusSlot : Fld := ⟨pwrStatus, 3, 2⟩
/-- PWR_STATUS.CUR_DVFS_A -/
def pwrStatusCurDvfsA : Fld := ⟨pwrStatus, 5, 2⟩
/-- PWR_STATUS.CUR_DVFS_B -/
def pwrStatusCurDvfsB : Fld := ⟨pwrStatus, 7, 2⟩
/-- PWR_STATUS.SUPPLY_WARN -/
def pwrStatusSupplyWarn : Fld := ⟨pwrStatus, 9, 1⟩
/-- PWR_STATUS.THERM_CAP_A -/
def pwrStatusThermCapA : Fld := ⟨pwrStatus, 10, 2⟩
/-- PWR_STATUS.THERM_CAP_B -/
def pwrStatusThermCapB : Fld := ⟨pwrStatus, 12, 2⟩
/-- PWR_STATUS.LAST_WAKE -/
def pwrStatusLastWake : Fld := ⟨pwrStatus, 14, 2⟩
/-- PWR_COMMIT_RESULT -/
def pwrCommitResult : Nat := 0x300028
/-- PWR_COMMIT_RESULT.REASON -/
def pwrCommitResultReason : Fld := ⟨pwrCommitResult, 0, 4⟩
/-- PWR_COMMIT_RESULT.REFUSED -/
def pwrCommitResultRefused : Fld := ⟨pwrCommitResult, 4, 1⟩
/-- PWR_EVT -/
def pwrEvt : Nat := 0x300030
/-- PWR_EVT.SUPPLY_WARN -/
def pwrEvtSupplyWarn : Fld := ⟨pwrEvt, 0, 1⟩
/-- PWR_EVT.SUPPLY_DIP -/
def pwrEvtSupplyDip : Fld := ⟨pwrEvt, 1, 1⟩
/-- PWR_EVT.FEED_SWITCH -/
def pwrEvtFeedSwitch : Fld := ⟨pwrEvt, 2, 1⟩
/-- PWR_EVT.THERM_THROTTLE -/
def pwrEvtThermThrottle : Fld := ⟨pwrEvt, 3, 1⟩
/-- PWR_EVT.VR_NO_ACK -/
def pwrEvtVrNoAck : Fld := ⟨pwrEvt, 4, 1⟩
/-- PWR_EVT.RAIL_FAULT -/
def pwrEvtRailFault : Fld := ⟨pwrEvt, 5, 1⟩
/-- PWR_EVT.WAKE_SUPERSEDED -/
def pwrEvtWakeSuperseded : Fld := ⟨pwrEvt, 6, 1⟩
/-- PWR_EVT.RET_DISCARD -/
def pwrEvtRetDiscard : Fld := ⟨pwrEvt, 7, 1⟩
/-- PWR_EVT.LOGBOOK_WORN -/
def pwrEvtLogbookWorn : Fld := ⟨pwrEvt, 8, 1⟩
/-- PWR_WAKE_AT -/
def pwrWakeAt : Nat := 0x300038
/-- PWR_WAKE_AT.AT_NS -/
def pwrWakeAtAtNs : Fld := ⟨pwrWakeAt, 0, 64⟩
/-- PWR_DVFS_CFG -/
def pwrDvfsCfg : Nat := 0x300040
/-- PWR_THERM_CFG -/
def pwrThermCfg : Nat := 0x300048
/-- PWR_THERM_CFG.THROTTLE_C -/
def pwrThermCfgThrottleC : Fld := ⟨pwrThermCfg, 0, 8⟩
/-- PWR_THERM_CFG.TEMP_A -/
def pwrThermCfgTempA : Fld := ⟨pwrThermCfg, 8, 8⟩
/-- PWR_THERM_CFG.TEMP_B -/
def pwrThermCfgTempB : Fld := ⟨pwrThermCfg, 16, 8⟩
/-- PWR_THERM_CFG.TEMP_SHORE -/
def pwrThermCfgTempShore : Fld := ⟨pwrThermCfg, 24, 8⟩
/-- PWR_SUPPLY_CFG -/
def pwrSupplyCfg : Nat := 0x300050
/-- PWR_SUPPLY_CFG.WARN_MV -/
def pwrSupplyCfgWarnMv : Fld := ⟨pwrSupplyCfg, 0, 14⟩
/-- PWR_SUPPLY_CFG.RESET_MV -/
def pwrSupplyCfgResetMv : Fld := ⟨pwrSupplyCfg, 14, 14⟩
/-- PWR_SUPPLY_CFG.HYST_MV -/
def pwrSupplyCfgHystMv : Fld := ⟨pwrSupplyCfg, 28, 10⟩
/-- PWR_TELEM_CFG -/
def pwrTelemCfg : Nat := 0x300058
/-- PWR_TELEM_CFG.WINDOW_US -/
def pwrTelemCfgWindowUs : Fld := ⟨pwrTelemCfg, 0, 16⟩
/-- PWR_CAP_CFG -/
def pwrCapCfg : Nat := 0x300060
/-- PWR_CAP_CFG.POINT -/
def pwrCapCfgPoint : Fld := ⟨pwrCapCfg, 0, 6⟩
/-- PWR_CAP_CFG.ARM -/
def pwrCapCfgArm : Fld := ⟨pwrCapCfg, 6, 1⟩
/-- PWR_CAP_CFG.START_US -/
def pwrCapCfgStartUs : Fld := ⟨pwrCapCfg, 7, 57⟩
/-- PWR_CAP_T0 -/
def pwrCapT0 : Nat := 0x300068
/-- PWR_CAP_T0.T0_NS -/
def pwrCapT0T0Ns : Fld := ⟨pwrCapT0, 0, 64⟩
/-- PWR_LOGBOOK -/
def pwrLogbook : Nat := 0x300070
/-- PWR_LOGBOOK.SPARES_LEFT -/
def pwrLogbookSparesLeft : Fld := ⟨pwrLogbook, 0, 7⟩
/-- PWR_LOGBOOK.WORN -/
def pwrLogbookWorn : Fld := ⟨pwrLogbook, 7, 1⟩
/-- PWR_LOGBOOK.MAX_WEAR -/
def pwrLogbookMaxWear : Fld := ⟨pwrLogbook, 8, 40⟩
/-- PWR_DOM -/
def pwrDom (i : Nat) : Nat := 0x300100 + i * 0x8
/-- PWR_DOM.STATE -/
def pwrDomState (i : Nat) : Fld := ⟨pwrDom i, 0, 2⟩
/-- PWR_DOM.VOTE_RUN -/
def pwrDomVoteRun (i : Nat) : Fld := ⟨pwrDom i, 2, 26⟩
/-- PWR_DOM.VOTE_IDLE -/
def pwrDomVoteIdle (i : Nat) : Fld := ⟨pwrDom i, 28, 26⟩
/-- PWR_TELEM -/
def pwrTelem (i : Nat) : Nat := 0x301000 + i * 0x8
/-- PWR_TELEM.LAST -/
def pwrTelemLast (i : Nat) : Fld := ⟨pwrTelem i, 0, 20⟩
/-- PWR_TELEM.AVG -/
def pwrTelemAvg (i : Nat) : Fld := ⟨pwrTelem i, 20, 20⟩
/-- PWR_TELEM.PEAK -/
def pwrTelemPeak (i : Nat) : Fld := ⟨pwrTelem i, 40, 20⟩
/-- PWR_CAP_DATA -/
def pwrCapData (i : Nat) : Nat := 0x302000 + i * 0x8
/-- PWR_CAP_DATA.SAMPLE_EVEN -/
def pwrCapDataSampleEven (i : Nat) : Fld := ⟨pwrCapData i, 0, 20⟩
/-- PWR_CAP_DATA.SAMPLE_ODD -/
def pwrCapDataSampleOdd (i : Nat) : Fld := ⟨pwrCapData i, 32, 20⟩
/-- HSW_CTRL -/
def hswCtrl : Nat := 0x340000
/-- HSW_CTRL.ENABLE -/
def hswCtrlEnable : Fld := ⟨hswCtrl, 0, 1⟩
/-- HSW_STATUS -/
def hswStatus : Nat := 0x340008
/-- HSW_STATUS.STATE -/
def hswStatusState : Fld := ⟨hswStatus, 0, 3⟩
/-- HSW_STATUS.SEAT_A -/
def hswStatusSeatA : Fld := ⟨hswStatus, 3, 1⟩
/-- HSW_STATUS.SEAT_B -/
def hswStatusSeatB : Fld := ⟨hswStatus, 4, 1⟩
/-- HSW_STATUS.EN_PIN -/
def hswStatusEnPin : Fld := ⟨hswStatus, 5, 1⟩
/-- HSW_STATUS.ACTIVE_FEED -/
def hswStatusActiveFeed : Fld := ⟨hswStatus, 6, 1⟩
/-- HSW_STATUS.FEED_A_GOOD -/
def hswStatusFeedAGood : Fld := ⟨hswStatus, 7, 1⟩
/-- HSW_STATUS.FEED_B_GOOD -/
def hswStatusFeedBGood : Fld := ⟨hswStatus, 8, 1⟩
/-- HSW_STATUS.LATCH_CAUSE -/
def hswStatusLatchCause : Fld := ⟨hswStatus, 9, 2⟩
/-- HSW_RAMP_CFG -/
def hswRampCfg : Nat := 0x340010
/-- HSW_FEED_CFG -/
def hswFeedCfg : Nat := 0x340018
/-- HSW_FEED_CFG.PREFER -/
def hswFeedCfgPrefer : Fld := ⟨hswFeedCfg, 0, 1⟩
/-- HSW_FEED_CFG.FAIL_MV -/
def hswFeedCfgFailMv : Fld := ⟨hswFeedCfg, 1, 14⟩
/-- HSW_FEED_CFG.GOOD_MV -/
def hswFeedCfgGoodMv : Fld := ⟨hswFeedCfg, 15, 14⟩
/-- HSW_SLOT_CFG -/
def hswSlotCfg : Nat := 0x340020
/-- HSW_SLOT_EN -/
def hswSlotEn : Nat := 0x340028
/-- HSW_SLOT_EN.EN -/
def hswSlotEnEn : Fld := ⟨hswSlotEn, 0, 48⟩
/-- HSW_SLOT_TRIP -/
def hswSlotTrip : Nat := 0x340030
/-- HSW_SLOT_TRIP.TRIP -/
def hswSlotTripTrip : Fld := ⟨hswSlotTrip, 0, 48⟩
/-- HSW_SLOT_PWR -/
def hswSlotPwr : Nat := 0x340038
/-- HSW_SLOT_PWR.PWR -/
def hswSlotPwrPwr : Fld := ⟨hswSlotPwr, 0, 48⟩
/-- BOOT_STATUS -/
def bootStatus : Nat := 0x100000
/-- BOOT_STATUS.PHASE -/
def bootStatusPhase : Fld := ⟨bootStatus, 0, 4⟩
/-- BOOT_STATUS.SLOT_USED -/
def bootStatusSlotUsed : Fld := ⟨bootStatus, 4, 2⟩
/-- BOOT_STATUS.FAIL_A -/
def bootStatusFailA : Fld := ⟨bootStatus, 6, 4⟩
/-- BOOT_STATUS.FAIL_B -/
def bootStatusFailB : Fld := ⟨bootStatus, 10, 4⟩
/-- BOOT_STATUS.PATCHES -/
def bootStatusPatches : Fld := ⟨bootStatus, 14, 7⟩
/-- BOOT_STATUS.PATCH_SKIPPED -/
def bootStatusPatchSkipped : Fld := ⟨bootStatus, 21, 1⟩
/-- BOOT_STATUS.IGNORED_RECORDS -/
def bootStatusIgnoredRecords : Fld := ⟨bootStatus, 22, 16⟩
/-- BOOT_STATUS.TIME_WAIT_EXPIRED -/
def bootStatusTimeWaitExpired : Fld := ⟨bootStatus, 38, 1⟩
/-- BOOT_IMAGE -/
def bootImage : Nat := 0x100008
/-- BOOT_IMAGE.ROLLBACK_VER -/
def bootImageRollbackVer : Fld := ⟨bootImage, 0, 32⟩
/-- BOOT_IMAGE.KEY_INDEX -/
def bootImageKeyIndex : Fld := ⟨bootImage, 32, 2⟩
/-- BOOT_IMAGE.ARB_COMMIT -/
def bootImageArbCommit : Fld := ⟨bootImage, 34, 1⟩
/-- BOOT_IMAGE.REVOKE_LOWER -/
def bootImageRevokeLower : Fld := ⟨bootImage, 35, 1⟩
/-- BOOT_ARB -/
def bootArb : Nat := 0x100018
/-- BOOT_ARB.COUNTER -/
def bootArbCounter : Fld := ⟨bootArb, 0, 32⟩
/-- BOOT_ARB.FROZEN -/
def bootArbFrozen : Fld := ⟨bootArb, 32, 1⟩
/-- BOOT_ARB.REVOKED -/
def bootArbRevoked : Fld := ⟨bootArb, 33, 4⟩
/-- BOOT_ID_CFG -/
def bootIdCfg : Nat := 0x100020
/-- BOOT_ID_CFG.ID -/
def bootIdCfgId : Fld := ⟨bootIdCfg, 0, 12⟩
/-- BOOT_ID_CFG.USE_CFG -/
def bootIdCfgUseCfg : Fld := ⟨bootIdCfg, 12, 1⟩
/-- BOOT_ID_CFG.STRAP_ID -/
def bootIdCfgStrapId : Fld := ⟨bootIdCfg, 13, 12⟩
/-- BOOT_ID_CFG.DEVICE_ID -/
def bootIdCfgDeviceId : Fld := ⟨bootIdCfg, 25, 12⟩
/-- BOOT_ID_CFG.PAIR_ID -/
def bootIdCfgPairId : Fld := ⟨bootIdCfg, 37, 2⟩
/-- BOOT_ID_CFG.LEADER_SEL -/
def bootIdCfgLeaderSel : Fld := ⟨bootIdCfg, 39, 1⟩
/-- BOOT_LOCK -/
def bootLock : Nat := 0x1000F8
/-- BOOT_LOCK.LOCK -/
def bootLockLock : Fld := ⟨bootLock, 0, 1⟩
/-- BOOT_T -/
def bootT (i : Nat) : Nat := 0x100100 + i * 0x8
/-- BOOT_T.T_US -/
def bootTTUs (i : Nat) : Fld := ⟨bootT i, 0, 32⟩
/-- BOOT_FLASH_CTRL -/
def bootFlashCtrl : Nat := 0x100200
/-- BOOT_FLASH_STATUS -/
def bootFlashStatus : Nat := 0x100208
/-- BOOT_FLASH_STATUS.BUSY -/
def bootFlashStatusBusy : Fld := ⟨bootFlashStatus, 0, 1⟩
/-- BOOT_FLASH_STATUS.DONE -/
def bootFlashStatusDone : Fld := ⟨bootFlashStatus, 1, 1⟩
/-- BOOT_FLASH_STATUS.RESULT -/
def bootFlashStatusResult : Fld := ⟨bootFlashStatus, 2, 3⟩
/-- BOOT_FLASH_STATUS.VERIFY_REASON -/
def bootFlashStatusVerifyReason : Fld := ⟨bootFlashStatus, 5, 4⟩
/-- BOOT_FLASH_BUF -/
def bootFlashBuf (i : Nat) : Nat := 0x101000 + i * 0x8
/-- PMU_GLOBAL -/
def pmuGlobal : Nat := 0x1000000
/-- PMU_GLOBAL.FREEZE -/
def pmuGlobalFreeze : Fld := ⟨pmuGlobal, 0, 1⟩
/-- PMU_USER_EN -/
def pmuUserEn (i : Nat) : Nat := 0x1000100 + i * 0x8
/-- PMU_USER_EN.LD_MASK -/
def pmuUserEnLdMask (i : Nat) : Fld := ⟨pmuUserEn i, 0, 64⟩
/-- PMU_CTL -/
def pmuCtl (i j : Nat) : Nat := 0x1100000 + i * 0x100000 + j * 0x8
/-- PMU_CTL.ENABLE -/
def pmuCtlEnable (i j : Nat) : Fld := ⟨pmuCtl i j, 0, 1⟩
/-- PMU_CTL.MODE -/
def pmuCtlMode (i j : Nat) : Fld := ⟨pmuCtl i j, 1, 1⟩
/-- PMU_CTL.BLOCK -/
def pmuCtlBlock (i j : Nat) : Fld := ⟨pmuCtl i j, 2, 4⟩
/-- PMU_CTL.INSTANCE -/
def pmuCtlInstance (i j : Nat) : Fld := ⟨pmuCtl i j, 6, 5⟩
/-- PMU_CTL.EVENT -/
def pmuCtlEvent (i j : Nat) : Fld := ⟨pmuCtl i j, 11, 7⟩
/-- PMU_CTL.DOM_EN -/
def pmuCtlDomEn (i j : Nat) : Fld := ⟨pmuCtl i j, 18, 1⟩
/-- PMU_CTL.DOMAIN -/
def pmuCtlDomain (i j : Nat) : Fld := ⟨pmuCtl i j, 19, 10⟩
/-- PMU_CNT -/
def pmuCnt (i j : Nat) : Nat := 0x1100400 + i * 0x100000 + j * 0x8
/-- PMU_CNT.COUNT -/
def pmuCntCount (i j : Nat) : Fld := ⟨pmuCnt i j, 0, 48⟩
/-- PMU_FIX -/
def pmuFix (i j : Nat) : Nat := 0x1100800 + i * 0x100000 + j * 0x8
/-- PMU_FIX.COUNT -/
def pmuFixCount (i j : Nat) : Fld := ⟨pmuFix i j, 0, 48⟩
/-- PMU_SNAP -/
def pmuSnap (i j : Nat) : Nat := 0x1100900 + i * 0x100000 + j * 0x8
/-- PMU_SNAP.COUNT -/
def pmuSnapCount (i j : Nat) : Fld := ⟨pmuSnap i j, 0, 48⟩
/-- PMU_SNAP_FIX -/
def pmuSnapFix (i j : Nat) : Nat := 0x1100B00 + i * 0x100000 + j * 0x8
/-- PMU_SNAP_FIX.COUNT -/
def pmuSnapFixCount (i j : Nat) : Fld := ⟨pmuSnapFix i j, 0, 48⟩
/-- PMU_SNAP_TIME -/
def pmuSnapTime (i : Nat) : Nat := 0x1100C00 + i * 0x100000
/-- PMU_SNAP_TIME.T_NS -/
def pmuSnapTimeTNs (i : Nat) : Fld := ⟨pmuSnapTime i, 0, 64⟩
/-- PMU_SNAP_SEQ -/
def pmuSnapSeq (i : Nat) : Nat := 0x1100C08 + i * 0x100000
/-- PMU_SNAP_SEQ.SEQ -/
def pmuSnapSeqSeq (i : Nat) : Fld := ⟨pmuSnapSeq i, 0, 32⟩
/-- PMU_OVF_GEN -/
def pmuOvfGen (i : Nat) : Nat := 0x1100C10 + i * 0x100000
/-- PMU_OVF_GEN.OVF -/
def pmuOvfGenOvf (i : Nat) : Fld := ⟨pmuOvfGen i, 0, 64⟩
/-- PMU_OVF_FIX -/
def pmuOvfFix (i : Nat) : Nat := 0x1100C18 + i * 0x100000
/-- PMU_OVF_FIX.OVF -/
def pmuOvfFixOvf (i : Nat) : Fld := ⟨pmuOvfFix i, 0, 8⟩
/-- PMU_SMP_CFG -/
def pmuSmpCfg (i : Nat) : Nat := 0x1101000 + i * 0x100000
/-- PMU_SMP_CFG.ENABLE -/
def pmuSmpCfgEnable (i : Nat) : Fld := ⟨pmuSmpCfg i, 0, 1⟩
/-- PMU_SMP_CFG.MODE -/
def pmuSmpCfgMode (i : Nat) : Fld := ⟨pmuSmpCfg i, 1, 1⟩
/-- PMU_SMP_CFG.PERIOD -/
def pmuSmpCfgPeriod (i : Nat) : Fld := ⟨pmuSmpCfg i, 2, 24⟩
/-- PMU_SMP_CFG.WINDOW -/
def pmuSmpCfgWindow (i : Nat) : Fld := ⟨pmuSmpCfg i, 26, 16⟩
/-- PMU_SMP_FILTER -/
def pmuSmpFilter (i : Nat) : Nat := 0x1101008 + i * 0x100000
/-- PMU_SMP_FILTER.DOM_EN -/
def pmuSmpFilterDomEn (i : Nat) : Fld := ⟨pmuSmpFilter i, 0, 1⟩
/-- PMU_SMP_FILTER.DOMAIN -/
def pmuSmpFilterDomain (i : Nat) : Fld := ⟨pmuSmpFilter i, 1, 10⟩
/-- PMU_SMP_FILTER.CLASS_MASK -/
def pmuSmpFilterClassMask (i : Nat) : Fld := ⟨pmuSmpFilter i, 11, 8⟩
/-- PMU_SMP_FILTER.READS -/
def pmuSmpFilterReads (i : Nat) : Fld := ⟨pmuSmpFilter i, 19, 1⟩
/-- PMU_SMP_FILTER.WRITES -/
def pmuSmpFilterWrites (i : Nat) : Fld := ⟨pmuSmpFilter i, 20, 1⟩
/-- PMU_SMP_FILTER.OFFLOAD -/
def pmuSmpFilterOffload (i : Nat) : Fld := ⟨pmuSmpFilter i, 21, 1⟩
/-- PMU_SMP_STATUS -/
def pmuSmpStatus (i : Nat) : Nat := 0x1101010 + i * 0x100000
/-- PMU_SMP_STATUS.PROD -/
def pmuSmpStatusProd (i : Nat) : Fld := ⟨pmuSmpStatus i, 0, 32⟩
/-- PMU_SMP_STATUS.MISSED -/
def pmuSmpStatusMissed (i : Nat) : Fld := ⟨pmuSmpStatus i, 32, 16⟩
/-- PMU_SMP_CONS -/
def pmuSmpCons (i : Nat) : Nat := 0x1101018 + i * 0x100000
/-- PMU_SMP_CONS.CONS -/
def pmuSmpConsCons (i : Nat) : Fld := ⟨pmuSmpCons i, 0, 32⟩
/-- PMU_STREAM_LD -/
def pmuStreamLd (i : Nat) : Nat := 0x1101020 + i * 0x100000
/-- PMU_STREAM_LD.PORT -/
def pmuStreamLdPort (i : Nat) : Fld := ⟨pmuStreamLd i, 0, 4⟩
/-- PMU_STREAM_LD.LD -/
def pmuStreamLdLd (i : Nat) : Fld := ⟨pmuStreamLd i, 4, 4⟩
/-- PMU_STREAM_LD.EN -/
def pmuStreamLdEn (i : Nat) : Fld := ⟨pmuStreamLd i, 8, 1⟩
/-- PMU_SMP_RING -/
def pmuSmpRing (i j : Nat) : Nat := 0x1140000 + i * 0x100000 + j * 0x8
/-- UV_PMU -/
def uvPmu (fn i : Nat) : Nat := 0x100000000 * (1 + fn) + 0x4000 + i * 0x8
/-- UV_PMU.COUNT -/
def uvPmuCount (fn i : Nat) : Fld := ⟨uvPmu fn i, 0, 48⟩
/-- UV_SMP_BASE -/
def uvSmpBase (fn : Nat) : Nat := 0x100000000 * (1 + fn) + 0x4100
/-- UV_SMP_BASE.BASE -/
def uvSmpBaseBase (fn : Nat) : Fld := ⟨uvSmpBase fn, 12, 52⟩
/-- UV_SMP_CFG -/
def uvSmpCfg (fn : Nat) : Nat := 0x100000000 * (1 + fn) + 0x4108
/-- UV_SMP_CFG.SIZE_LOG2 -/
def uvSmpCfgSizeLog2 (fn : Nat) : Fld := ⟨uvSmpCfg fn, 0, 5⟩
/-- UV_SMP_CFG.ENABLE -/
def uvSmpCfgEnable (fn : Nat) : Fld := ⟨uvSmpCfg fn, 5, 1⟩
/-- UV_SMP_PROD -/
def uvSmpProd (fn : Nat) : Nat := 0x100000000 * (1 + fn) + 0x4110
/-- UV_SMP_PROD.PROD -/
def uvSmpProdProd (fn : Nat) : Fld := ⟨uvSmpProd fn, 0, 32⟩
/-- UV_SMP_CONS -/
def uvSmpCons (fn : Nat) : Nat := 0x100000000 * (1 + fn) + 0x4118
/-- UV_SMP_CONS.CONS -/
def uvSmpConsCons (fn : Nat) : Fld := ⟨uvSmpCons fn, 0, 32⟩
/-- UV_SMP_STATUS -/
def uvSmpStatus (fn : Nat) : Nat := 0x100000000 * (1 + fn) + 0x4120
/-- UV_SMP_STATUS.ACTIVE -/
def uvSmpStatusActive (fn : Nat) : Fld := ⟨uvSmpStatus fn, 0, 1⟩
/-- UV_SMP_STATUS.DROPPED -/
def uvSmpStatusDropped (fn : Nat) : Fld := ⟨uvSmpStatus fn, 1, 16⟩
/-- TOP_ID -/
def topId : Nat := 0x0
/-- TOP_ID.STEPPING -/
def topIdStepping : Fld := ⟨topId, 32, 8⟩
/-- TOP_ID.ORDER_CODE -/
def topIdOrderCode : Fld := ⟨topId, 40, 2⟩
/-- TOP_ID.ROM_REV -/
def topIdRomRev : Fld := ⟨topId, 48, 8⟩
/-- TOP_DIE_ID -/
def topDieId : Nat := 0x8
/-- TOP_DIE_ID.DIE_A -/
def topDieIdDieA : Fld := ⟨topDieId, 0, 32⟩
/-- TOP_DIE_ID.DIE_B -/
def topDieIdDieB : Fld := ⟨topDieId, 32, 32⟩
/-- TOP_LEADER -/
def topLeader : Nat := 0x10
/-- TOP_LEADER.RESULT -/
def topLeaderResult : Fld := ⟨topLeader, 0, 3⟩
/-- TOP_LEADER.ROUNDS -/
def topLeaderRounds : Fld := ⟨topLeader, 3, 2⟩
/-- TOP_LEADER.LEADER -/
def topLeaderLeader : Fld := ⟨topLeader, 5, 1⟩
/-- TOP_LEADER.LEADER_SEL_A -/
def topLeaderLeaderSelA : Fld := ⟨topLeader, 6, 1⟩
/-- TOP_LEADER.LEADER_SEL_B -/
def topLeaderLeaderSelB : Fld := ⟨topLeader, 7, 1⟩
/-- TOP_LEADER.FOLLOWER_FENCED -/
def topLeaderFollowerFenced : Fld := ⟨topLeader, 8, 1⟩
/-- TOP_DEVICE -/
def topDevice : Nat := 0x18
/-- TOP_DEVICE.DEVICE_ID -/
def topDeviceDeviceId : Fld := ⟨topDevice, 0, 12⟩
/-- TOP_DEVICE.PAIR_ID -/
def topDevicePairId : Fld := ⟨topDevice, 12, 2⟩
/-- TOP_DEVICE.STRAIT_PRESENT -/
def topDeviceStraitPresent : Fld := ⟨topDevice, 14, 1⟩
/-- TOP_DEVICE.DF -/
def topDeviceDf : Fld := ⟨topDevice, 15, 1⟩
/-- TOP_FM_FEATURE_OFFERED -/
def topFmFeatureOffered (i : Nat) : Nat := 0x100 + i * 0x8
/-- TOP_FM_FEATURE_OFFERED.OFFERED -/
def topFmFeatureOfferedOffered (i : Nat) : Fld := ⟨topFmFeatureOffered i, 0, 64⟩
/-- TOP_FM_FEATURE_ACCEPTED -/
def topFmFeatureAccepted (i : Nat) : Nat := 0x120 + i * 0x8
/-- TOP_FM_FEATURE_ACCEPTED.ACCEPTED -/
def topFmFeatureAcceptedAccepted (i : Nat) : Fld := ⟨topFmFeatureAccepted i, 0, 64⟩
/-- TOP_FM_FEATURE_CTRL -/
def topFmFeatureCtrl : Nat := 0x140
/-- TOP_FM_FEATURE_CTRL.LOCK -/
def topFmFeatureCtrlLock : Fld := ⟨topFmFeatureCtrl, 0, 1⟩
/-- TOP_LOCK_STATUS -/
def topLockStatus : Nat := 0x200
/-- TOP_LOCK_STATUS.LOCKED -/
def topLockStatusLocked : Fld := ⟨topLockStatus, 0, 8⟩
/-- TOP_SHADOW_STATUS -/
def topShadowStatus : Nat := 0x208
/-- TOP_SHADOW_STATUS.DIRTY -/
def topShadowStatusDirty : Fld := ⟨topShadowStatus, 0, 5⟩
/-- TOP_SHADOW_STATUS.REVERT_IGNORED -/
def topShadowStatusRevertIgnored : Fld := ⟨topShadowStatus, 5, 1⟩
/-- TOP_SHADOW_CTRL -/
def topShadowCtrl : Nat := 0x210
/-- DOM_USE_NEAR -/
def domUseNear (i : Nat) : Nat := 0x600088 + i * 0x100
/-- DOM_USE_NEAR.PAGES -/
def domUseNearPages (i : Nat) : Fld := ⟨domUseNear i, 0, 37⟩
/-- DOM_USE_SHINGLE -/
def domUseShingle (i : Nat) : Nat := 0x600090 + i * 0x100
/-- DOM_USE_SHINGLE.PAGES -/
def domUseShinglePages (i : Nat) : Fld := ⟨domUseShingle i, 0, 37⟩
/-- DOM_SHINGLE_SECTORS -/
def domShingleSectors (i : Nat) : Nat := 0x600098 + i * 0x100
/-- DOM_SHINGLE_SECTORS.SECTORS -/
def domShingleSectorsSectors (i : Nat) : Fld := ⟨domShingleSectors i, 0, 44⟩
/-- DOM_LOST -/
def domLost (i : Nat) : Nat := 0x6000A0 + i * 0x100
/-- DOM_LOST.PAGES -/
def domLostPages (i : Nat) : Fld := ⟨domLost i, 0, 37⟩
/-- DOM_RETIRED -/
def domRetired (i : Nat) : Nat := 0x6000A8 + i * 0x100
/-- DOM_RETIRED.PAGES -/
def domRetiredPages (i : Nat) : Fld := ⟨domRetired i, 0, 37⟩
/-- DOM_META -/
def domMeta (i : Nat) : Nat := 0x6000B0 + i * 0x100
/-- DOM_META.EXT_TABLE -/
def domMetaExtTable (i : Nat) : Fld := ⟨domMeta i, 0, 40⟩
/-- DOM_CHARGE -/
def domCharge (i : Nat) : Nat := 0x6000B8 + i * 0x100
/-- DOM_CHARGE.CHARGE -/
def domChargeCharge (i : Nat) : Fld := ⟨domCharge i, 0, 28⟩
/-- TOP_COMMIT_APPLIED -/
def topCommitApplied : Nat := 0x1018
/-- TOP_COMMIT_APPLIED.T_NS -/
def topCommitAppliedTNs : Fld := ⟨topCommitApplied, 0, 64⟩
/-- OFL_LOCK -/
def oflLock : Nat := 0xF000F8
/-- OFL_LOCK.LOCK -/
def oflLockLock : Fld := ⟨oflLock, 0, 1⟩
/-- PWR_LOCK -/
def pwrLock : Nat := 0x3000F8
/-- PWR_LOCK.LOCK -/
def pwrLockLock : Fld := ⟨pwrLock, 0, 1⟩
/-- BOOT_BUILD_ID -/
def bootBuildId : Nat := 0x100010
/-- BOOT_BUILD_ID.BUILD_ID -/
def bootBuildIdBuildId : Fld := ⟨bootBuildId, 0, 64⟩
/-- FLT_FENCED_0 -/
def fltFenced0 : Nat := 0x200030
/-- FLT_FENCED_0.CHANNEL -/
def fltFenced0Channel : Fld := ⟨fltFenced0, 0, 24⟩
/-- FLT_FENCED_0.PORT -/
def fltFenced0Port : Fld := ⟨fltFenced0, 24, 16⟩
/-- FLT_FENCED_0.D2D -/
def fltFenced0D2d : Fld := ⟨fltFenced0, 40, 1⟩
/-- FLT_FENCED_0.STRAIT -/
def fltFenced0Strait : Fld := ⟨fltFenced0, 41, 2⟩
/-- FLT_FENCED_0.HALF -/
def fltFenced0Half : Fld := ⟨fltFenced0, 43, 2⟩
/-- FLT_FENCED_1 -/
def fltFenced1 : Nat := 0x200038
/-- FLT_FENCED_1.COMP -/
def fltFenced1Comp : Fld := ⟨fltFenced1, 0, 16⟩
/-- FLT_FENCED_1.DECOMP -/
def fltFenced1Decomp : Fld := ⟨fltFenced1, 16, 16⟩
/-- FLT_FENCED_1.CRYPTO -/
def fltFenced1Crypto : Fld := ⟨fltFenced1, 32, 12⟩
/-- FLT_FENCED_2 -/
def fltFenced2 : Nat := 0x200040
/-- FLT_FENCED_2.SRAM -/
def fltFenced2Sram : Fld := ⟨fltFenced2, 0, 32⟩
/-- FLT_RING -/
def fltRing (i : Nat) : Nat := 0x210000 + i * 0x8
/-- UV_EVT -/
def uvEvt (fn i : Nat) : Nat := 0x100000000 * (1 + fn) + 0x6000 + i * 0x8
/-- MSIX_DATA -/
def msixData (fn i : Nat) : Nat := 0x100000000 * (1 + fn) + 0xC008 + i * 0x10
/-- MSIX_DATA.MASK -/
def msixDataMask (fn i : Nat) : Fld := ⟨msixData fn i, 32, 1⟩
/-- MSIX_PBA -/
def msixPba (fn : Nat) : Nat := 0x100000000 * (1 + fn) + 0xD000
/-- MSIX_PBA.PENDING -/
def msixPbaPending (fn : Nat) : Fld := ⟨msixPba fn, 0, 64⟩

end Sys2Proof.Machine
end

