-- ==== Sys2Proof/Machine/Parts.lean ====
section
/-! DEFINITION. The parts of the state, chapter by chapter: plain data. Each field's docstring gives its width, the file
and rule of the spec that names it, and its value at reset. What a register shows of the machine (a status, a counter, a
configuration) stands in the register store alone; these parts hold the rest. -/

namespace Sys2Proof.Machine

/-! ### 01_architecture: the halves -/

/-- A die-to-die flit held for replay (01_architecture R24, R26, R27). -/
structure D2dHeld where
  /-- Sequence number [10 bits; 01_architecture R24; reset: none held] -/
  seq : Nat
  /-- The flit's words as sent [32 x 64 bits; 01_architecture R24; reset: none held] -/
  words : List (BitVec 64)
  /-- Replays of this flit so far [2 bits; 01_architecture R27; reset 0] -/
  replays : Nat
  deriving DecidableEq, Repr

/-- One half's end of the die-to-die link (01_architecture R23 to R28). -/
structure D2dEnd where
  /-- The link has trained since the cores were released [1 bit; 01_architecture R23; reset false] -/
  trained : Bool := false
  /-- A DATA or HANDSHAKE flit has been accepted: ACK_SEQ is meaningful [1 bit; 01_architecture Table 1.3; reset false] -/
  rxAny : Bool := false
  /-- Next SEQ to send [10 bits; 01_architecture R24; reset DESIGN CHOICE 0, log 21] -/
  txSeq : Nat := 0
  /-- Replay buffer, oldest first [256 flits; 01_architecture R26; reset empty] -/
  replay : List D2dHeld := []
  /-- Next SEQ expected [10 bits; 01_architecture R25; reset DESIGN CHOICE 0, log 21] -/
  rxNext : Nat := 0
  /-- A NAK was sent for the present gap [1 bit; 01_architecture R25; reset false] -/
  gapNakked : Bool := false
  /-- An accepted DATA flit waits for its acknowledge [1 bit; 01_architecture R26; reset false] -/
  ackDue : Bool := false
  /-- Transmit credits per virtual channel [4 counts; 01_architecture R28; reset DESIGN CHOICE 0 until trained, log 21] -/
  credits : List Nat := [0, 0, 0, 0]
  /-- Credits owed to the other half [4 counts; 01_architecture R28; reset 0] -/
  owed : List Nat := [0, 0, 0, 0]
  /-- Spare lanes in use per module [8 counts of 0 to 4; 01_architecture R23; reset 0] -/
  spares : List Nat := [0, 0, 0, 0, 0, 0, 0, 0]
  /-- Replays that touched requests [count; 01_architecture R30; reset 0] -/
  replayCount : Nat := 0
  deriving DecidableEq, Repr

/-- States of the leader handshake (01_architecture Table 1.12). -/
inductive HsPhase where
  | idle | claim | echo | confirm | wait | done | bootHold
  deriving DecidableEq, Repr

/-- One half's handshake (01_architecture R40, R41, Table 1.12). -/
structure HsHalf where
  /-- Handshake state [3 bits; 01_architecture Table 1.12; reset HS_IDLE] -/
  phase : HsPhase := .idle
  /-- Round in progress [2 bits; 01_architecture R40; reset 0] -/
  round : Nat := 0
  /-- Rounds counted failed [2 bits; 01_architecture R41; reset 0] -/
  failed : Nat := 0
  /-- The CLAIM received from the peer [68 bits; 01_architecture R40; reset none] -/
  peer : Option ClaimMsg := none
  /-- Die identity resolved as leader [32 bits; 01_architecture R40; reset none] -/
  resolved : Option (BitVec 32) := none
  deriving DecidableEq, Repr

/-- One half of the device as chapter 1 describes it. -/
structure HalfCore where
  /-- Management core released and running [1 bit; 01_architecture R36; reset false] -/
  coreRunning : Bool := false
  /-- Management core lost [1 bit; 01_architecture R37, R38; reset false] -/
  coreLost : Bool := false
  /-- Re-sends of the shore-port word in hand, to and from the shore die [2 counts of 0 to 3; 01_architecture R31; reset 0] -/
  shoreResend : List Nat := [0, 0]
  /-- Handshake [01_architecture R40, Table 1.12; reset HS_IDLE] -/
  hs : HsHalf := {}
  /-- End of the die-to-die link [01_architecture R23 to R28; reset untrained] -/
  d2d : D2dEnd := {}
  /-- Times of TOP_SRAM_UE records of the last second per bank group: group, ns [15_faults Table 15.6; reset none] -/
  ueTimes : List (Nat × Nat) := []
  /-- Last lap of each SRAM bank that has completed one: bank, µs [32 bits each; 05_dram R155; reset none] -/
  laps : List (Nat × Nat) := []
  deriving DecidableEq, Repr

/-! ### 02_host_ports -/

/-- One host port's link (02_host_ports R47 to R52). -/
structure Port where
  /-- Link state [3 bits; 02_host_ports R67; reset Detect] -/
  link : LinkState := .detect
  /-- PERST_N of the port is asserted [pin; 20_pins Table 20.2; reset true, DESIGN CHOICE, log 7] -/
  perst : Bool := true
  /-- The port passed the check of R48 and is enabled [1 bit; 02_host_ports R48; reset false] -/
  active : Bool := false
  /-- Rate at which the port last trained, encoding of MAX_RATE [3 bits; 02_host_ports HP_EVENT.RATE_CHANGE; reset none] -/
  lastRate : Option Nat := none
  /-- The quads the port uses while active [8 bits per half; 02_host_ports R48; reset none] -/
  quads : List Nat := []
  /-- IDE keys programmed: stream (0 io, 1 cachemem) x 4 + key set x 2 + 1 for transmit, and the key [256 bits each; 02_host_ports R57; 08_protection R223; reset none] -/
  ideKeys : List (Nat × BitVec 256) := []
  /-- The cachemem stream runs in skid mode [1 bit; 08_protection R223; reset false] -/
  ideSkid : Bool := false
  /-- Stream states: 0 off, 1 secure, 2 insecure [2 bits each; 08_protection R224; reset 0] -/
  ideState : List Nat := [0, 0]
  /-- IDE key set in use per stream [1 bit each; 02_host_ports R57; reset 0] -/
  ideSet : List Nat := [0, 0]
  /-- Credits that the host holds for requests, requests with data and back-invalidate responses [3 counts; 04_request R117; reset 256, 128, 64] -/
  credits : List Nat := [256, 128, 64]
  /-- Of those, credits that the port does not return while its waiting lists are full [3 counts; 04_request R117; reset 0] -/
  withheld : List Nat := [0, 0, 0]
  /-- Credits of the host that the port holds for data responses, responses without data and back-invalidations [3 counts; 04_request R117, R128; reset 0] -/
  hostCredits : List Nat := [0, 0, 0]
  deriving DecidableEq, Repr

/-- One HDM decoder of an LD or of a G-FAM host (03_domains R76). -/
structure HdmDecoder where
  /-- Committed [1 bit; 03_domains R76; reset false] -/
  committed : Bool := false
  /-- Error Not Committed [1 bit; 03_domains R76; reset false] -/
  error : Bool := false
  /-- First host address covered [64 bits; 03_domains R76; reset DESIGN CHOICE 0, log 22] -/
  base : Nat := 0
  /-- Bytes covered [64 bits; 03_domains R76; reset DESIGN CHOICE 0, log 22] -/
  size : Nat := 0
  /-- DPA the range starts at [48 bits; 03_domains R76; reset DESIGN CHOICE 0, log 22] -/
  dpa : Nat := 0
  /-- Interleave ways [5 bits; 03_domains R76; reset DESIGN CHOICE 1, log 22] -/
  ways : Nat := 1
  /-- Interleave granularity, bytes [15 bits; 03_domains R76; reset DESIGN CHOICE 256, log 22] -/
  gran : Nat := 256
  /-- The host enabled back-invalidation for the range [1 bit; 04_request R128; reset DESIGN CHOICE false, log 22] -/
  bi : Bool := false
  deriving DecidableEq, Repr

/-- One function (an LD, the FM-owned LD or the G-FAM function): its CXL.io state (02_host_ports R53 to R74). -/
structure Func where
  /-- An FLR is running [1 bit; 02_host_ports R64; reset false] -/
  flr : Bool := false
  /-- Bus Master Enable [1 bit; 02_host_ports R66; reset PRESUMED 0 (PCIe), log 23] -/
  bme : Bool := false
  /-- The six BAR dwords as written [6 x 32 bits; 02_host_ports R58; reset PRESUMED 0 (PCIe), log 23] -/
  bars : List (BitVec 32) := [0, 0, 0, 0, 0, 0]
  /-- BAR2 is present: PRIV_OWNER as last taken at an FLR or conventional reset [1 bit; 02_host_ports R60; reset false] -/
  bar2 : Bool := false
  /-- The locked effective feature set [8 bits; 02_host_ports R72, R73; reset 0] -/
  features : Nat := 0
  /-- Tags of reads outstanding [list; 02_host_ports R65; reset empty] -/
  tags : List Nat := []
  /-- Quarantined tags [list; 02_host_ports R65; reset empty] -/
  quarantined : List Nat := []
  deriving DecidableEq, Repr

/-! ### 03_domains -/

/-- Extent kinds (03_domains Table 3.4). -/
inductive ExtKind where
  | unmapped | zero | frame | paged | retired
  deriving DecidableEq, Repr

/-- Page states (03_domains Table 3.6). -/
inductive PgState where
  | zero | near | shingle | lost | retired
  deriving DecidableEq, Repr

/-- An extent descriptor (03_domains Tables 3.4, 3.5). -/
structure Extent where
  /-- KIND [3 bits; 03_domains R87, Table 3.4; reset UNMAPPED] -/
  kind : ExtKind := .unmapped
  /-- MIRROR_DIRTY [1 bit; 03_domains Table 3.4; reset 0] -/
  dirty : Bool := false
  /-- MOVING [1 bit; 03_domains Table 3.4; reset 0] -/
  moving : Bool := false
  /-- ADDR, in 256 B units [40 bits; 03_domains Table 3.4; reset 0] -/
  addr : Nat := 0
  /-- Base of the second page table copy, in 256 B units [40 bits; 03_domains R93; reset none] -/
  copy2 : Option Nat := none
  /-- EXT_ACCESS [8 bits; 03_domains Table 3.5; reset 0] -/
  access : Nat := 0
  deriving DecidableEq, Repr

/-- A page entry (03_domains Table 3.6). -/
structure Page where
  /-- STATE [3 bits; 03_domains Table 3.6; reset ZERO] -/
  state : PgState := .zero
  /-- SIZE_CLASS [4 bits; 03_domains Table 3.6; reset 0] -/
  cls : Nat := 0
  /-- ADDR, in 256 B units [40 bits; 03_domains Table 3.6; reset 0] -/
  addr : Nat := 0
  /-- ACCESS [8 bits; 03_domains Table 3.6; reset 0] -/
  access : Nat := 0
  /-- INCOMP_BACKOFF [4 bits; 03_domains Table 3.6; reset 0] -/
  backoff : Nat := 0
  deriving DecidableEq, Repr

/-- What holds a block of media. -/
inductive MediaOwner where
  | frame (dom page : Nat)
  | bigFrame (dom ext : Nat)
  | shgBlock (k : Nat)
  | pageTable (dom ext copy : Nat)
  | extTable (dom copy : Nat)
  | p2 (dom ext : Nat)
  | draining (item : Nat)
  | orphan
  deriving DecidableEq, Repr

/-- A block of a half's media in use (07_tiering R193; 03_domains R99). -/
structure MediaBlk where
  /-- The half whose media it is [1 bit; 01_architecture R21; reset: no block] -/
  half : Half
  /-- First 256 B unit, MA / 256 [40 bits; 05_dram R133; reset: no block] -/
  base : Nat
  /-- Length in 256 B units [count; 03_domains Tables 3.4, 3.6; 06_shingle R161; reset: no block] -/
  len : Nat
  /-- Its holder [07_tiering R193; reset: no block] -/
  owner : MediaOwner
  deriving DecidableEq, Repr

/-- Tables staged for a shadow entry (03_domains R100). -/
structure StagedTable where
  /-- The half in which they lie [1 bit; 03_domains R100; reset: none] -/
  half : Half
  /-- Primary and second copy, 256 B units [40 bits each; 03_domains R93, R100; reset: none] -/
  first : Nat
  second : Nat
  /-- Extents that they cover [28 bits; 03_domains R100; reset: none] -/
  size : Nat
  /-- Length of each, 256 B units [count; 03_domains R83, R100; reset: none] -/
  len : Nat
  deriving DecidableEq, Repr

/-- A domain's map tables (03_domains R93, R100). -/
structure DomMap where
  /-- Primary extent table, in 256 B units [40 bits; 03_domains DOM_META; reset none] -/
  table1 : Option Nat := none
  /-- Second extent table copy, in 256 B units [40 bits; 03_domains R93; reset none] -/
  table2 : Option Nat := none
  /-- Extents the present table covers [28 bits; 03_domains R100; reset 0] -/
  extents : Nat := 0
  /-- A table is being staged for this SIZE [28 bits; 03_domains R100; reset none] -/
  staging : Option Nat := none
  /-- Staged tables [03_domains R100; reset none] -/
  staged : Option StagedTable := none
  /-- Staging found no media (METADATA_SPACE) [1 bit; 03_domains Table 3.3; reset false] -/
  noSpace : Bool := false
  /-- When DOM_CEILING_REACHED was last sent, ns [03_domains R89; reset none] -/
  ceilingAt : Option Nat := none
  deriving DecidableEq, Repr

/-- The zeroing run in progress (03_domains R431, R102, R432; 13_pairing R304). -/
structure ZeroRun where
  /-- Domain of the run [10 bits; 03_domains R431; reset: no run] -/
  dom : Nat
  /-- Next page [37 bits; 03_domains R431; reset: no run] -/
  next : Nat
  /-- First page after the run [37 bits; 03_domains R431; reset: no run] -/
  stop : Nat
  /-- Extents that stayed poisoned for lack of media [27 bits each; 03_domains R432; reset: no run] -/
  noMedia : List Nat
  /-- The run holds the transition lock of its next page [1 bit; 03_domains R431; reset: no run] -/
  held : Bool := false
  /-- Pages are done; the run waits for the partner's COMMIT_ACK of this count [32 bits; 13_pairing R303; reset: no run] -/
  await : Option Nat := none
  /-- A commit lowered SIZE under the run: it ends OUT_OF_WINDOW [1 bit; 03_domains R431; reset: no run] -/
  cut : Bool := false
  deriving DecidableEq, Repr

/-- Freed media that waits for requests on the old mapping (03_domains R99). -/
structure DrainItem where
  /-- Number that the draining blocks carry [03_domains R99; reset: none] -/
  id : Nat
  /-- The half [1 bit; 03_domains R99; reset: none] -/
  half : Half
  /-- Domain [10 bits; 03_domains R99; reset: none] -/
  dom : Nat
  /-- Request identities that read the old mapping [03_domains R96, R99; reset: none] -/
  waits : List Nat
  /-- It was freed by a commit (DRAINING) [1 bit; 03_domains R99; reset: none] -/
  commit : Bool
  /-- Shingle slots freed with it: base and class [06_shingle R181; reset: none] -/
  slots : List (Nat × Nat)
  deriving DecidableEq, Repr

/-- Names of lines in the metadata cache (03_domains R93; 06_shingle R180; 08_protection R214). -/
inductive McKey where
  | desc (dom line : Nat)
  | pte (dom line : Nat)
  | hdr (h : Half) (slot : Nat)
  | ctr (dom block : Nat)
  | node (dom level idx : Nat)
  | dir (dom line : Nat)
  | tags (dom line : Nat)
  deriving DecidableEq, Repr

/-- A line of the metadata cache (03_domains R93). -/
structure McLine where
  /-- What it holds [64 bytes, by name; 03_domains R93; reset: none] -/
  key : McKey
  /-- Used since its set's marks were last cleared [1 bit; 03_domains R93; reset: none] -/
  used : Bool
  /-- It differs from what its copies in DRAM hold [1 bit; 03_domains R93, 08_protection R214; reset: none] -/
  dirty : Bool
  /-- The slot header that it holds, where it is one [256 bits; 06_shingle R180; reset: none] -/
  hdr : Nat := 0
  deriving DecidableEq, Repr

/-- The move of a 2 MiB frame to a new place under a watermark (03_domains R92). -/
structure FrameMove where
  /-- The half [1 bit; 03_domains R92; reset: none] -/
  half : Half
  /-- Domain and extent [10 and 27 bits; 03_domains R92; reset: none] -/
  dom : Nat
  ext : Nat
  /-- New frame, 256 B units [40 bits; 03_domains R92; reset: none] -/
  dest : Nat
  /-- Pages below it are in the new frame [10 bits; 03_domains R92; reset: none] -/
  mark : Nat
  deriving DecidableEq, Repr

/-- A page transition lock (03_domains R95). -/
structure PageLock where
  /-- The half [1 bit; 03_domains R95; reset: none held] -/
  half : Half
  /-- Domain [10 bits; 03_domains R95; reset: none held] -/
  dom : Nat
  /-- Page, DOFF / 4096 [36 bits; 03_domains R95; reset: none held] -/
  page : Nat
  deriving DecidableEq, Repr

/-- A post-fence walk (03_domains R91). -/
structure FenceWalk where
  /-- The fenced device channel [5 bits; 03_domains R91; reset: none] -/
  channel : Nat
  /-- Extents (domain, extent) still to pass [03_domains R91; reset: none] -/
  todo : List (Nat × Nat)
  deriving DecidableEq, Repr

/-! ### 04_request_path -/

/-- Kinds of request (04_request Table 4.5). -/
inductive ReqKind where
  | rd | inv | clnEvct | wr | wrPtl | zero
  | unsupData | unsupCmp
  deriving DecidableEq, Repr

/-- The state a request asks for (04_request Table 4.7). -/
inductive Want where
  | none | shared | any | invalid
  deriving DecidableEq, Repr

/-- Where a request stands (04_request Table 4.1). -/
inductive Stage where
  | waitEntry      -- stage 2, waits for a request-table entry (R115)
  | cross          -- stage 3, waits to cross to its home half (R22)
  | queued         -- stage 4, in its domain queue
  | metaWait       -- stage 5, waits for a metadata line
  | lockWait       -- stage 5, waits on a page transition lock
  | promoteWait    -- stage 5, a write waits for PAGE_PROMOTE
  | promoting      -- its promotion decodes
  | biWait         -- stage 5, waits for back-invalidations
  | evictWait      -- stage 5, waits on the snoop-filter eviction buffer
  | wbWait         -- passed the map; a write waits for its write-buffer entry
  | parked         -- waits for a channel entry (09_qos R235)
  | channel        -- stage 6, in the channel read queue
  | dram           -- stage 7, issued
  | ctrWait        -- stage 8, waits for a counter block
  | chunkWait      -- stage 7, waits for a chunk decode
  | mirrorWait     -- local completion done, waits for the partner (SYNC)
  | rollWait       -- waits for a counter rollover
  | crossBack      -- stage 9, its response waits to cross back (R22)
  | respond        -- stage 10
  deriving DecidableEq, Repr

/-- The response a request gets (04_request Table 4.5): data of an HDM-DB line carries the state granted, I for none, S or E. -/
inductive RespKind where
  | memData | memDataI | memDataS | memDataE | cmp | cmpS | cmpE
  deriving DecidableEq, Repr

/-- Where a request comes from: a host (port, LD-ID or source identity), an offload job (function, ring, index), a mirror
message (link, virtual channel SYNC or not, its number). -/
inductive Origin where
  | host (port id : Nat)
  | offload (fn ring idx : Nat)
  | mirror (link : Half) (sync : Bool) (num : Nat)
  | internal
  deriving DecidableEq, Repr

/-- Time stamps a request carries, ns (04_request R103, R104; 18_pmu R403). -/
structure Stamps where
  /-- Last bit at the pins, or hand-over to stage 2 [64 bits; 18_pmu R403; reset: no request] -/
  arrive : Nat := 0
  /-- Tide-clock ns of the arrival [64 bits; 18_pmu Table 18.3; reset: no request] -/
  tide : Nat := 0
  /-- End of the wait for COMMIT_ACK [64 bits; 18_pmu Table 18.4; reset: no request] -/
  mirror : Nat := 0
  /-- Entry into the domain queue [64 bits; 18_pmu Table 18.4; reset: no request] -/
  enqueue : Nat := 0
  /-- Release from the domain queue [64 bits; 18_pmu Table 18.4; reset: no request] -/
  release : Nat := 0
  /-- End of stage 5 [64 bits; 18_pmu Table 18.4; reset: no request] -/
  mapped : Nat := 0
  /-- Start of the DRAM sequence [64 bits; 18_pmu Table 18.4; reset: no request] -/
  issue : Nat := 0
  /-- DRAM data, or write-buffer entry [64 bits; 18_pmu Table 18.4; reset: no request] -/
  dram : Nat := 0
  /-- End of decoding [64 bits; 18_pmu Table 18.4; reset: no request] -/
  decoded : Nat := 0
  /-- End of stage 8 [64 bits; 18_pmu Table 18.4; reset: no request] -/
  crypto : Nat := 0
  deriving DecidableEq, Repr

/-- A request held by the device (04_request R104 to R129). -/
structure Req where
  /-- Request identity [16 bits; 04_request R113; reset: no request] -/
  rid : Nat
  /-- Source [04_request R113; 13_pairing R304; 14_offload R330; reset: no request] -/
  org : Origin
  /-- Tag [16 bits; 04_request R113; reset: no request] -/
  tag : Nat
  /-- Message kind [3 bits; 04_request Table 4.5; reset: no request] -/
  kind : ReqKind
  /-- MetaValue / snoop type asked for [2 bits; 04_request Table 4.7; reset: no request] -/
  want : Want
  /-- Write data [512 bits; 04_request R106; reset: no request] -/
  data : Line
  /-- Byte enables of a partial write [64 bits; 04_request R108; reset: no request] -/
  enables : BitVec 64
  /-- The data arrived poisoned [1 bit; 04_request R123; reset: no request] -/
  poison : Bool
  /-- It decoded to a domain [1 bit; 03_domains Table 3.1; reset: no request] -/
  hasDom : Bool := true
  /-- Domain [10 bits; 03_domains R75; reset: no request] -/
  dom : Nat
  /-- Line offset within the domain, DOFF / 64 [42 bits; 03_domains R75; reset: no request] -/
  line : Nat
  /-- DPA [48 bits; 03_domains R75; reset: no request] -/
  dpa : Nat := 0
  /-- Domain generation at the decode point [count; 03_domains R101; reset: no request] -/
  gen : Nat := 0
  /-- Its page as the decode state of its generation names it, where a commit has freed that page since [64 bits; 03_domains R98, R99; reset: no request] -/
  oldPage : Option Page := none
  /-- Home half [1 bit; 01_architecture R21; reset: no request] -/
  home : Half
  /-- Traffic class 0 to 7 [3 bits; 09_qos R227; reset: no request] -/
  cls : Nat
  /-- Colour: 0 green, 1 yellow, 2 red [2 bits; 09_qos R229; reset: no request] -/
  color : Nat
  /-- Where it stands [04_request Table 4.1; reset: no request] -/
  stage : Stage
  /-- Line MA / 64 once the map has delivered it [42 bits; 05_dram R133; reset: no request] -/
  ma : Nat := 0
  /-- Response kind [2 bits; 04_request Table 4.5; reset: no request] -/
  resp : RespKind := .memData
  /-- Response data [512 bits; 04_request R105; reset: no request] -/
  rdata : Line := 0
  /-- Response poison [1 bit; 04_request R122; reset: no request] -/
  rpoison : Bool := false
  /-- The response is discarded: the port lost its link [1 bit; 02_host_ports R67; reset: no request] -/
  mute : Bool := false
  /-- A replay touched it [1 bit; 18_pmu Table 18.3; reset: no request] -/
  replayed : Bool := false
  /-- Class-0 exclusion cause, 0 none [4 bits; 10_latency R258; reset: no request] -/
  excl : Nat := 0
  /-- It is sampled and holds a record builder [1 bit; 18_pmu R402; reset: no request] -/
  sampled : Bool := false
  /-- Page state at stage 5 [3 bits; 18_pmu Table 18.3; reset: no request] -/
  pstate : Nat := 0
  /-- The chunk came from the chunk cache [1 bit; 18_pmu Table 18.3; reset: no request] -/
  ccHit : Bool := false
  /-- Outcome 5 has been re-read once [1 bit; 05_dram R141; reset: no request] -/
  reread : Bool := false
  /-- Slot lines read so far for a SHINGLE read [06_shingle R180; reset: no request] -/
  slotLines : List Line := []
  /-- Mirror message count that its completion waits for [32 bits; 13_pairing R303; reset: no request] -/
  await : Option Nat := none
  /-- It was answered at stage 2: nothing of it is left but its response [1 bit; 03_domains Table 3.1, 04_request Table 4.5, R121; reset: no request] -/
  answered : Bool := false
  /-- The pool its entry came from: 0 shared, 1 the QC0 reserve, 2 its port's reserve [2 bits; 04_request R115; reset: no request] -/
  pool : Nat := 0
  /-- Time stamps [04_request R103; reset: no request] -/
  stamps : Stamps := {}
  deriving DecidableEq, Repr

/-- A tracked line of the snoop filter, or one in the eviction buffer (04_request R124 to R127). -/
structure SfEntry where
  /-- Home half [1 bit; 04_request R124; reset: none] -/
  half : Half
  /-- Domain [10 bits; 04_request R124; reset: none] -/
  dom : Nat
  /-- Line, DOFF / 64 [42 bits; 04_request R124; reset: none] -/
  line : Nat
  /-- Held exclusive or modified [1 bit; 04_request R124; reset: none] -/
  owned : Bool
  /-- Held by the host group as a whole [1 bit; 04_request R124; reset: none] -/
  group : Bool
  /-- Holders: port x 16 + LD-ID, or 256 + source identity [04_request R124; reset: none] -/
  holders : List Nat
  /-- Hosts whose back-invalidation answer is awaited [04_request R125; reset: none] -/
  await : List Nat
  /-- Of those, the messages not yet sent for want of credits [04_request R128; reset: none] -/
  unsent : List Nat
  /-- The back-invalidation asks for data (BISnpData) [1 bit; 04_request R125; reset: none] -/
  biData : Bool
  /-- In the eviction buffer [1 bit; 04_request R126; reset: none] -/
  evicting : Bool
  /-- Used since its set's marks were last cleared [1 bit; 04_request R126; reset: none] -/
  used : Bool
  deriving DecidableEq, Repr

/-- A channel write-buffer entry (04_request R106, R108). -/
structure WbEntry where
  /-- Line MA / 64 in the half [42 bits; 04_request R106; reset: none] -/
  ma : Nat
  /-- Domain [10 bits; 04_request R106; reset: none] -/
  dom : Nat
  /-- Line, DOFF / 64 [42 bits; 04_request R106; reset: none] -/
  line : Nat
  /-- Data [512 bits; 04_request R106; reset: none] -/
  data : Line
  /-- Byte enables [64 bits; 04_request R108; reset: none] -/
  enables : BitVec 64
  /-- Poison [1 bit; 04_request R123; reset: none] -/
  poison : Bool
  /-- Class, 8 for maintenance [4 bits; 04_request Table 4.6; 09_qos R244; reset: none] -/
  cls : Nat
  /-- Colour: 0 green, 1 yellow, 2 red [2 bits; 09_qos Table 9.3; reset: none] -/
  color : Nat
  /-- The poison is the host's own (R123) [1 bit; 15_faults R345; reset: none] -/
  external : Bool
  /-- Reads of the line that are ordered before it and have not started [04_request R110; reset: none] -/
  after : List Nat
  /-- TCLK time of its entry, ns [64 bits; 09_qos R246; reset: none] -/
  since : Nat
  /-- It is a line of a slot, written under this SEQ [32 bits; 06_shingle R182; reset: none] -/
  slot : Option Nat := none
  deriving DecidableEq, Repr

end Sys2Proof.Machine
end

