-- ==== Sys2Proof/Machine/Parts2.lean ====
section
/-! DEFINITION. The parts of the state, chapters 05 to 10: DRAM channels, the shingle tier, tiering, protection, policing
and the tide tables. -/

namespace Sys2Proof.Machine

/-! ### 05_dram_subsystem -/

/-- A row of a channel: its 512 KiB range (MA[41:19]) and the sub-channel, bank group and bank bits (MA[11:6]). -/
structure RowKey where
  /-- MA[41:19], slot, rank and row [23 bits; 05_dram R133; reset: none] -/
  range : Nat
  /-- MA[11:6], sub-channel, bank group, bank [6 bits; 05_dram R133; reset: none] -/
  sub : Nat
  deriving DecidableEq, Repr

/-- An entry of the row table (05_dram R150). -/
structure RowCount where
  /-- The row [29 bits; 05_dram R150; reset: none] -/
  key : RowKey
  /-- Corrected errors counted [8 bits; 05_dram R150; reset: none] -/
  count : Nat
  deriving DecidableEq, Repr

/-- A soft repair in progress (05_dram R152). -/
structure SoftRepair where
  /-- The row [29 bits; 05_dram R152; reset: none] -/
  key : RowKey
  /-- 0 reading the row, 1 sequence issued, 2 verify [2 bits; 05_dram R152; reset: none] -/
  phase : Nat
  /-- The row's lines as read, MA / 64 and burst [128 lines; 05_dram R151; reset: none] -/
  lines : List (Nat × Burst)
  /-- TCLK time of the reading, ns [64 bits; 09_qos R246; reset: none] -/
  since : Nat
  deriving DecidableEq, Repr

/-- A stored training record (05_dram R136). -/
structure TrainRec where
  /-- Parts and serials of the two slots, and the rate [05_dram R136; reset: none] -/
  key : List Nat
  deriving DecidableEq, Repr

/-- A corrected writeback owed (05_dram R148). -/
structure Writeback where
  /-- Line MA / 64 [42 bits; 05_dram R148; reset: none] -/
  ma : Nat
  /-- The burst to store [640 bits; 05_dram R148; reset: none] -/
  burst : Burst
  /-- TCLK time of the read, ns [64 bits; 09_qos R246; reset: none] -/
  since : Nat
  deriving DecidableEq, Repr

/-- A DRAM channel (05_dram R131 to R157). -/
structure Channel where
  /-- Modules found in the two slots; nothing before they are looked at [05_dram R131; reset nothing] -/
  mods : List (Option Module) := []
  /-- Refresh debt, sweeps [4 bits; 05_dram R144; reset 0] -/
  debt : Nat := 0
  /-- Row table, oldest first [4,096 entries; 05_dram R150; reset empty] -/
  rows : List RowCount := []
  /-- Rows soft-repaired since boot [05_dram R152; reset empty] -/
  repaired : List RowKey := []
  /-- Rows whose hard repair is pending (logbook) [05_dram R152; reset empty] -/
  pendingHard : List RowKey := []
  /-- Rows retired, as 512 KiB ranges MA[41:19] (logbook) [05_dram R153; reset empty] -/
  retired : List Nat := []
  /-- Ranges whose retirement is under way [05_dram R153; reset empty] -/
  retiring : List Nat := []
  /-- Ranges whose retirement is deferred [05_dram R153; reset empty] -/
  deferred : List Nat := []
  /-- Soft repair in progress [05_dram R152; reset none] -/
  soft : Option SoftRepair := none
  /-- Rows that wait for a soft repair [05_dram R152; reset empty] -/
  softWait : List RowKey := []
  /-- Write buffer, oldest first [512 entries; 04_request R106; reset empty] -/
  wb : List WbEntry := []
  /-- Corrected writebacks owed [05_dram R148; reset empty] -/
  backs : List Writeback := []
  /-- Replays of the present command sequence after ALERT_N [2 bits; 05_dram R142; reset 0] -/
  caTries : Nat := 0
  /-- The write buffer drains first [1 bit; 04_request R106; reset false] -/
  drainFirst : Bool := false
  /-- Comber lap start, ns [64 bits; 05_dram R149; reset 0] -/
  lapStart : Nat := 0
  /-- Corrected lines in the present lap [count; 05_dram R149; reset 0] -/
  lapCe : Nat := 0
  /-- The comber's schedule: PERIOD as it took effect at step `combFrom`, which was due at `combBase` ns [22, 64 and 64 bits; 05_dram R149; reset 0] -/
  combPeriod : Nat := 0
  combFrom : Nat := 0
  combBase : Nat := 0
  /-- Whose turn has passed last: 0 none, 1 the page mover, 2 mirror resync [2 bits; 05_dram R148; reset 0] -/
  turn : Nat := 0
  /-- A hard repair has been tried in this boot [1 bit; 05_dram R152; reset false] -/
  hardTried : Bool := false
  /-- The channel has trained since reset [1 bit; 05_dram R136; reset false] -/
  trained : Bool := false
  /-- Training record stored in the logbook [05_dram R136; reset none] -/
  record : Option TrainRec := none
  /-- Retired rows and pending hard repairs as the logbook held them when it became read-only [16_power R378; reset none] -/
  frozen : Option (List Nat × List RowKey) := none
  deriving DecidableEq, Repr

/-! ### 06_shingle_tier -/

/-- A 256 KiB block of slots of one size class (06_shingle R161). -/
structure ShgBlock where
  /-- First 256 B unit [40 bits; 06_shingle R161; reset: none] -/
  base : Nat
  /-- Size class [4 bits; 06_shingle Table 6.1; reset: none] -/
  k : Nat
  /-- Slots in use: index, and the static set named plus 1, 0 when dynamic [06_shingle R161, R170; reset: none] -/
  used : List (Nat × Nat)
  deriving DecidableEq, Repr

/-- A chunk held in the chunk cache (06_shingle R179). -/
structure CachedChunk where
  /-- Slot, first 256 B unit [40 bits; 06_shingle R179; reset: none] -/
  slot : Nat
  /-- Chunk, 0 to 3 [2 bits; 06_shingle R179; reset: none] -/
  chunk : Nat
  /-- Its 16 lines [8192 bits; 06_shingle R179; reset: none] -/
  lines : List Line
  /-- Used since its set's marks were last cleared [1 bit; 06_shingle R181; reset: none] -/
  used : Bool
  deriving DecidableEq, Repr

/-- A compression under way (06_shingle R172, R181). -/
structure CompJob where
  /-- Domain and page [10 and 36 bits; 06_shingle R181; reset: none] -/
  dom : Nat
  page : Nat
  /-- Frame compressed, 256 B units [40 bits; 06_shingle R181; reset: none] -/
  frame : Nat
  /-- Slot reserved, 256 B units, and its class [06_shingle R181; reset: none] -/
  slot : Nat
  k : Nat
  /-- Slot image, header and streams [06_shingle Table 6.3; reset: none] -/
  image : List Byte
  /-- Static set named, when static [06_shingle R170; reset: none] -/
  setNo : Option Nat
  /-- A host write has touched the page since [1 bit; 06_shingle R181; reset: none] -/
  dirtied : Bool
  /-- Cluster [3 bits; 06_shingle R172; reset: none] -/
  cluster : Nat
  /-- SEQ of the slot [32 bits; 06_shingle R159; reset: none] -/
  seq : Nat
  /-- The slot's lines are in the write buffer, and the compressor is free again [1 bit; 06_shingle R182; reset: none] -/
  placed : Bool
  deriving DecidableEq, Repr

/-- A promotion under way (06_shingle R183). -/
structure Promo where
  /-- Domain and page [10 and 36 bits; 06_shingle R183; reset: none] -/
  dom : Nat
  page : Nat
  /-- The write that asked for it [16 bits; 06_shingle R183; reset: none] -/
  rid : Option Nat
  /-- Slot and class [06_shingle R183; reset: none] -/
  slot : Nat
  k : Nat
  /-- Frame taken, 256 B units [40 bits; 06_shingle R183; reset: none] -/
  frame : Nat
  /-- Slot lines as decrypted [64 lines; 06_shingle R183; reset: none] -/
  slotLines : List Line
  /-- Chunks decoded: none while pending, some none when failed [4 chunks; 06_shingle R183; reset: none] -/
  chunks : List (Option (Option (List Line)))
  /-- It is an error promotion [1 bit; 06_shingle R184; reset: none] -/
  error : Bool
  deriving DecidableEq, Repr

/-- A first decode that failed and waits for its second (06_shingle R173). -/
structure Redecode where
  /-- Domain, page and slot [06_shingle R173; reset: none] -/
  dom : Nat
  page : Nat
  slot : Nat
  /-- The read that waits, none for a promotion [16 bits; 06_shingle R173; reset: none] -/
  rid : Option Nat
  /-- Chunk [2 bits; 06_shingle R173; reset: none] -/
  chunk : Nat
  /-- Error of the first decode, Table 6.7 [3 bits; 06_shingle R173; reset: none] -/
  error : Nat
  /-- Cluster of the first decode [3 bits; 06_shingle R173; reset: none] -/
  cluster : Nat
  deriving DecidableEq, Repr

/-- One half's shingle tier. -/
structure Shg where
  /-- Slot blocks [06_shingle R161; reset empty] -/
  blocks : List ShgBlock := []
  /-- Slots that only lost structures named: base and class [03_domains R97; reset none] -/
  orphans : List (Nat × Nat) := []
  /-- Chunk cache, each set's ways in order [8 MiB; 06_shingle R179; reset empty] -/
  cache : List CachedChunk := []
  /-- The compare table: compressions under way [256 pages; 06_shingle R182; reset none] -/
  comps : List CompJob := []
  /-- Promotions under way [06_shingle R183; reset none] -/
  promos : List Promo := []
  /-- Second decodes awaited [06_shingle R173; reset none] -/
  redecodes : List Redecode := []
  /-- Times of recheck failures and mismatches of the last second: UNIT, ns [06_shingle R172, R173; reset none] -/
  faults : List (Nat × Nat) := []
  deriving DecidableEq, Repr

/-! ### 07_tiering_and_capacity -/

/-- One half's page mover (07_tiering R189 to R199). -/
structure Mover where
  /-- TCLK time the present lap started [64 bits; 07_tiering R190; reset 0] -/
  lapStart : Nat := 0
  /-- Extents visited in the present lap: domain, extent [07_tiering R190; reset none] -/
  visited : List (Nat × Nat) := []
  /-- Pages offered to the compressor: domain, page [07_tiering R191; reset none] -/
  offers : List (Nat × Nat) := []
  /-- Pages to promote [07_tiering R192; reset none] -/
  promotes : List (Nat × Nat) := []
  /-- Pages of error promotions due [06_shingle R184; reset none] -/
  errPromotes : List (Nat × Nat) := []
  /-- Chunks that have ended in an error and await it: domain, page, chunk [06_shingle R174; reset none] -/
  failed : List (Nat × Nat × Nat) := []
  /-- Pages moved in the present ms: the ms, the count [07_tiering R192; reset 0] -/
  moved : Nat × Nat := (0, 0)
  deriving DecidableEq, Repr

/-- An open lost-write run (07_tiering R199). -/
structure LostRun where
  /-- Domain [10 bits; 07_tiering R199; reset: none] -/
  dom : Nat
  /-- First page and pages [36 bits each; 07_tiering R199; reset: none] -/
  page : Nat
  len : Nat
  /-- SEQ of its record [32 bits; 07_tiering R199; reset: none] -/
  seq : Nat
  /-- TCLK time of its last page [64 bits; 07_tiering R199; reset: none] -/
  lastAt : Nat
  deriving DecidableEq, Repr

/-- Lost-write records of a domain in the present second (07_tiering R199). -/
structure LostSec where
  /-- Domain [10 bits; 07_tiering R199; reset: none] -/
  dom : Nat
  /-- Start of the second, ns [64 bits; 07_tiering R199; reset: none] -/
  start : Nat
  /-- Records opened [count; 07_tiering R199; reset: none] -/
  count : Nat
  /-- SEQ of the record the rest folds into [32 bits; 07_tiering R199; reset: none] -/
  fold : Option Nat
  deriving DecidableEq, Repr

/-! ### 08_memory_protection -/

/-- A key slot's material (08_protection R204, R219). Its state and version stand in PROT_KEY_STATE. -/
structure KeySlot where
  /-- Key material [512 bits; 08_protection R219; reset 0] -/
  key : BitVec 512 := 0
  /-- The slot holds a key [1 bit; 08_protection R219; reset false] -/
  loaded : Bool := false
  /-- KEY_TYPE [8 bits; 08_protection Table 8.5; reset 0] -/
  typ : Nat := 0
  /-- Highest VERSION loaded since boot [64 bits; 08_protection R222; reset 0] -/
  version : Nat := 0
  deriving DecidableEq, Repr

/-- The key command in progress (08_protection R220). -/
structure KeyCmd where
  /-- Operation: 1 LOAD, 2 ERASE [3 bits; 08_protection PROT_KEY_CMD; reset: none] -/
  op : Nat
  /-- Slot [12 bits; 08_protection PROT_KEY_CMD; reset: none] -/
  slot : Nat
  /-- Blob as taken [256 bytes; 08_protection R220; reset: none] -/
  blob : List Byte
  deriving DecidableEq, Repr

/-- A fenced subtree of a P2 domain (08_protection R218). -/
structure Subtree where
  /-- Level and index of its top node [08_protection R218; reset: none] -/
  level : Nat
  idx : Nat
  /-- Phase: 0 lost, its local rebuild due; 1 fenced; 2 fenced, the partner asked [2 bits; 08_protection R218; reset: none] -/
  phase : Nat
  /-- Pages rebuilt so far [08_protection R218; reset: none] -/
  done : List Nat
  /-- Major counter of the rebuild, HIGH_MAJOR + 1 [64 bits; 08_protection R218; reset: none] -/
  major : Nat
  /-- Writes whose data was discarded, lines repaired and lines poisoned since the fence [counts; 08_protection R218; reset: none] -/
  discarded : Nat := 0
  repaired : Nat := 0
  poisoned : Nat := 0
  deriving DecidableEq, Repr

/-- The protection state of a domain (08_protection R208 to R218). -/
structure ProtDom where
  /-- Activation counter A [32 bits; 08_protection R209; reset 0] -/
  act : Nat := 0
  /-- Root of the counter tree [64 bits; 08_protection R214; reset 0] -/
  root : BitVec 64 := 0
  /-- HIGH_MAJOR [64 bits; 08_protection R213; reset 0] -/
  highMajor : Nat := 0
  /-- Fenced subtrees [08_protection R218; reset none] -/
  fences : List Subtree := []
  deriving DecidableEq, Repr

/-- A counter block: a major counter and 64 minor counters (08_protection R204). -/
structure CtrBlock where
  /-- Major counter [64 bits; 08_protection R204; reset 0] -/
  major : Nat := 0
  /-- Minor counters, 7 bits each, minor i at bits 7i+6..7i [448 bits; 08_protection R204; reset 0] -/
  minors : Nat := 0
  deriving DecidableEq, Repr

/-! ### 09_qos_and_tide_tables -/

/-- A policer's two buckets, in 1/1,024 B (09_qos R229). -/
structure Bucket where
  /-- Committed tokens [09_qos R229; reset 0] -/
  tc : Nat := 0
  /-- Peak tokens [09_qos R229; reset 0] -/
  tp : Nat := 0
  /-- TCLK ns of the last update [64 bits; 09_qos R229, 11_tide_clock R260; reset 0] -/
  last : Nat := 0
  deriving DecidableEq, Repr

/-- A shaper's bucket, in 1/1,024 B (09_qos R232). -/
structure Shaper where
  /-- Tokens [09_qos R232; reset 0] -/
  tok : Nat := 0
  /-- TCLK ns of the last update [64 bits; 09_qos R233, 11_tide_clock R260; reset 0] -/
  last : Nat := 0
  /-- Marked: the next QoS commit sets the tokens as TOKEN_INIT states [1 bit; 09_qos R234; reset false] -/
  marked : Bool := false
  deriving DecidableEq, Repr

/-- A scheduler: one of 24 channels or two Strait egresses (09_qos R236 to R245). Its tables, its check and its takeover
stand in the TT registers. -/
structure Sched where
  /-- Gate mask in force, bit 8 MC [9 bits; 09_qos R239; reset 0x1FF] -/
  gate : Nat := 0x1FF
  /-- Entry in force [6 bits; 09_qos R238; reset 0] -/
  entry : Nat := 0
  /-- Tide-clock ns of the next gate change [64 bits; 09_qos R238; reset none] -/
  nextAt : Option Nat := none
  /-- Deficit counters of QC1 to QC7 [7 counts; 09_qos R237; reset 0] -/
  deficit : List Nat := [0, 0, 0, 0, 0, 0, 0]
  /-- Queue the round robin stands at [3 bits; 09_qos R237; reset 0] -/
  rr : Nat := 0
  /-- A check runs on the bank as written, and is not discarded [1 bit; 09_qos R241; reset false] -/
  checking : Bool := false
  /-- The class-0 guarantee does not hold until this tide-clock ns [64 bits; 10_latency R251; reset 0] -/
  junction : Nat := 0
  /-- T of the commit, or the step edge, that set the pending takeover [64 bits; 11_tide_clock R267; reset 0] -/
  takeT : Nat := 0
  deriving DecidableEq, Repr

end Sys2Proof.Machine
end

