-- ==== Sys2Proof/Machine/Parts3.lean ====
section
/-! DEFINITION. The parts of the state, chapters 11 to 18: the tide clock, the Strait, mirroring, offload, faults, power,
boot and the performance counters. -/

namespace Sys2Proof.Machine

/-- A discipline source's measurements (11_tide_clock Table 11.1, R261). -/
structure ClockSource where
  /-- Qualified [1 bit; 11_tide_clock R261; reset false, as TB_STATUS.QUALIFIED] -/
  qualified : Bool := false
  /-- Last offsets, newest first, ns, at most 8 [11_tide_clock Table 11.1; reset empty] -/
  offsets : List Int := []
  /-- Time of the last measurement, TCLK ns [64 bits; 11_tide_clock Table 11.1; reset none] -/
  lastAt : Option Nat := none
  /-- Consecutive good intervals [count; 11_tide_clock Table 11.1; reset 0] -/
  run : Nat := 0
  /-- Source time less TCLK time at the last measurement, 2^-40 ns [11_tide_clock R264; reset none] -/
  lead : Option Int := none
  /-- Consecutive exchanges lost [count; 11_tide_clock Table 11.1; reset 0] -/
  lost : Nat := 0
  deriving DecidableEq, Repr

/-- A PTP master heard (11_tide_clock R262): the values the BMCA compares, in order, the sender's identity last. -/
structure PtpMaster where
  /-- The comparison values [11_tide_clock R262; reset: none heard] -/
  rank : List Nat
  /-- Identity of the sender [64 bits; 11_tide_clock R262; reset: none heard] -/
  ident : Nat
  deriving DecidableEq, Repr

/-- An entry of the commit queue (11_tide_clock R269 to R275). -/
structure CommitEntry where
  /-- T, tide-clock ns [64 bits; 11_tide_clock R269; reset: queue empty] -/
  t : Nat
  /-- Group mask [8 bits; 11_tide_clock Table 11.4] -/
  groups : Nat
  /-- Action [3 bits; 11_tide_clock Table 11.6] -/
  action : Nat
  /-- TAG [16 bits; 11_tide_clock R273] -/
  tag : Nat
  deriving DecidableEq, Repr

/-- The tide clock, its servo and the PTP port (11_tide_clock R259 to R264). -/
structure Tide where
  /-- The master counter, 2^-40 ns: the 80-bit clock and 24 hidden bits [104 bits; 11_tide_clock R259; reset 0] -/
  master : Nat := 0
  /-- Half A's local counter, 2^-40 ns [104 bits; 01_architecture R34; reset 0] -/
  localA : Nat := 0
  /-- Half B's local counter, 2^-40 ns [104 bits; 01_architecture R34; reset 0] -/
  localB : Nat := 0
  ptp : ClockSource := {}
  pps : ClockSource := {}
  partner : ClockSource := {}
  /-- Frequency components of the last 64 measurements from the source in use, newest first [11_tide_clock R264; reset empty] -/
  freqs : List Int := []
  /-- Consecutive measurements within LOCK_LOSS_NS, and beyond it [counts; 11_tide_clock Table 11.2; reset 0] -/
  inRun : Nat := 0
  outRun : Nat := 0
  /-- TCLK time at which HOLDOVER was entered [64 bits; 11_tide_clock Table 11.2; reset 0, DESIGN CHOICE 0, log 33] -/
  holdAt : Nat := 0
  /-- TB_TOD_SET value held for the next PPS_IN edge [64 bits; 11_tide_clock R263; reset none] -/
  tod : Option Nat := none
  /-- A step has taken place since boot [1 bit; 11_tide_clock R267, 17_boot R391; reset false] -/
  stepped : Bool := false
  /-- Masters heard [11_tide_clock R262; reset none] -/
  masters : List PtpMaster := []
  /-- Two-step Syncs waiting for Follow_Up: sequence, t2 in ns [11_tide_clock R262; reset none] -/
  syncs : List (Nat × Nat) := []
  /-- Last t1 and t2 of a complete Sync, ns [11_tide_clock R262; reset none] -/
  sync12 : Option (Nat × Nat) := none
  /-- Delay_Req sent: sequence, t3 [11_tide_clock R262; reset none] -/
  delayReq : Option (Nat × Nat) := none
  /-- Pdelay_Req sent: sequence, t1 [11_tide_clock R262; reset none] -/
  pdelayReq : Option (Nat × Nat) := none
  /-- Two-step Pdelay_Resp received: sequence, t2, t4 [11_tide_clock R262; reset none] -/
  pdelayResp : Option (Nat × Nat × Nat) := none
  /-- Path delay, ns [11_tide_clock R262; reset 0, DESIGN CHOICE 0, log 33] -/
  pathDelay : Int := 0
  /-- The next sequence number of a message the device sends [16 bits; 11_tide_clock R262; reset 0, DESIGN CHOICE 0, log 33] -/
  seq : Nat := 0
  /-- TCLK ns at which PPS_OUT falls again [64 bits; 11_tide_clock R263; reset none] -/
  ppsOut : Option Nat := none
  deriving DecidableEq, Repr

/-- A frame held for replay (12_strait R288, R289): as first encrypted. -/
structure StraitHeld where
  /-- Sequence number [12 bits; 12_strait R285; reset: none held] -/
  seq : Nat
  /-- Invocation value [96 bits; 12_strait R280; reset: none held] -/
  inv : Nat
  /-- The 256 bytes as first sent [12_strait R279; reset: none held] -/
  bytes : List Byte
  deriving DecidableEq, Repr

/-- An accepted frame in a receive buffer (12_strait R283). -/
structure RxFrame where
  /-- Virtual channel [3 bits; 12_strait R283; reset: none held] -/
  vc : Nat
  /-- COLOUR of the frame [2 bits; 12_strait Table 12.3; reset: none held] -/
  color : Nat
  /-- Messages not taken yet [13_pairing R302; reset: none held] -/
  msgs : List MirMsg
  /-- Accepted before the link last went down [1 bit; 12_strait R295; reset: none held] -/
  old : Bool
  deriving DecidableEq, Repr

/-- One Strait link (12_strait R276 to R297). Its state, widths, causes and sequence numbers stand in TW_STATUS and TW_SEQ. -/
structure StraitLink where
  /-- Replay buffer, frames U to N - 1 [1,024 frames; 12_strait R289; reset empty] -/
  replay : List StraitHeld := []
  /-- Frames still to resend in the replay in progress [12_strait R288; reset empty] -/
  resend : List StraitHeld := []
  /-- A NAK was sent for the present E [1 bit; 12_strait R287; reset false] -/
  nakOpen : Bool := false
  /-- A NAK waits to be sent [1 bit; 12_strait R283; reset false] -/
  nakDue : Bool := false
  /-- A DATA frame was accepted since link-up (ACK_VALID) [1 bit; 12_strait Table 12.3; reset false] -/
  ackValid : Bool := false
  /-- Consecutive bad frames [count; 12_strait R280; reset 0] -/
  badRun : Nat := 0
  /-- H, the highest invocation value verified [96 bits; 12_strait R280; reset 0] -/
  high : Nat := 0
  /-- Transmit invocation counter: the value of the next frame [96 bits; 08_protection R225; reset 1] -/
  inv : Nat := 1
  /-- S_v, first transmissions per virtual channel [8 counts; 12_strait R282; reset 0] -/
  sent : List Nat := [0, 0, 0, 0, 0, 0, 0, 0]
  /-- R_v, latest CREDIT_CUM per virtual channel [8 counts; 12_strait R282; reset 0] -/
  freedByPeer : List Nat := [0, 0, 0, 0, 0, 0, 0, 0]
  /-- Partner's TW_VC_BUF from INIT, in frames [8 counts; 12_strait R282; reset 0] -/
  peerBuf : List Nat := [0, 0, 0, 0, 0, 0, 0, 0]
  /-- Freed counts of this receiver [8 counts; 12_strait R282; reset 0] -/
  freed : List Nat := [0, 0, 0, 0, 0, 0, 0, 0]
  /-- Freed counts as last carried [8 counts; 12_strait R282; reset 0] -/
  freedSent : List Nat := [0, 0, 0, 0, 0, 0, 0, 0]
  /-- Next virtual channel of the round robin of freed counts [3 bits; 12_strait R282; reset 0] -/
  creditRr : Nat := 0
  /-- Accepted frames in the receive buffers, oldest first [2,048 frames; 12_strait R283; reset empty] -/
  rx : List RxFrame := []
  /-- An acknowledge has not been carried by a frame yet [1 bit; 12_strait R286; reset false] -/
  ackDue : Bool := false
  /-- INIT_ACK was sent since INIT was entered [1 bit; 12_strait Table 12.8; reset false] -/
  initAckSent : Bool := false
  /-- INIT_ACK was received since INIT was entered [1 bit; 12_strait Table 12.8; reset false] -/
  initAckSeen : Bool := false
  /-- An INIT_ACK waits to be sent [1 bit; 12_strait R283; reset false] -/
  initAckDue : Bool := false
  /-- An INIT waits to be sent [1 bit; 12_strait R283; reset false] -/
  initDue : Bool := false
  /-- TIME frames that wait to be sent: KIND, XID, t1, t2 [12_strait R291; reset none] -/
  timeDue : List (Nat × Nat × Nat × Nat) := []
  /-- TIME request outstanding: XID, t1 once it has departed [12_strait R291; reset none] -/
  timeReq : Option (Nat × Option Nat) := none
  /-- XID of the next TIME request [16 bits; 12_strait R291; reset 0, DESIGN CHOICE, log 82] -/
  xid : Nat := 0
  /-- A key-set switch drains: the new set [1 bit; 12_strait R296; reset none] -/
  drain : Option Nat := none
  /-- The set that the receiver still accepts first [1 bit; 12_strait R296; reset none] -/
  oldSet : Option Nat := none
  /-- Tide-clock ns at which the window of R297 closes [64 bits; 12_strait R297; reset 0] -/
  windowEnd : Nat := 0
  /-- Sequence numbers, not accepted yet, whose DATA frame failed its tag once [12 bits each; 08_protection R226; reset none] -/
  tagFails : List Nat := []
  /-- TW_CFG as taken at the last entry to DETECT [64 bits; 12_strait TW_CFG; reset 0] -/
  cfg : Word := 0
  /-- TW_VC_BUF as taken at the last entry to DETECT [64 bits; 12_strait TW_VC_BUF; reset 0] -/
  vcBuf : Word := 0
  /-- TW_VC_MAP as taken at the last entry to DETECT [64 bits; 12_strait TW_VC_MAP; reset 0] -/
  vcMap : Word := 0
  /-- The configuration check of the last entry to DETECT passed [1 bit; 12_strait Table 12.8; reset false] -/
  cfgOk : Bool := false
  /-- DETECT waits 10 ms after a failed initialisation [1 bit; 12_strait Table 12.8; reset false] -/
  waitRetry : Bool := false
  /-- Messages waiting for the egress: kind (0 control, 1 SYNC, 2 ASYNC, 3 resync, 4 repair), class, colour, message [12_strait R283; reset empty] -/
  queue : List (Nat × Nat × Nat × MirMsg) := []
  /-- Lane group of the transmitter, by Table 12.1: 0 the eight lanes, 1 and 2 the fours, 3 to 6 the pairs [12_strait R294; reset none] -/
  txGroup : Option Nat := none
  /-- Lane group of the receiver [12_strait R294; reset none] -/
  rxGroup : Option Nat := none
  /-- Lane group that this receiver has asked for and not followed yet [12_strait R294; reset none] -/
  rxWant : Option Nat := none
  /-- WIDTH_MARK was sent and no frame of the partner has verified since [1 bit; 12_strait Table 12.8; reset false] -/
  markSent : Bool := false
  deriving DecidableEq, Repr

/-- A fault record (15_faults Table 15.4). -/
structure FaultRec where
  /-- SEQ [32 bits; 15_faults R336; reset: no record] -/
  seq : Nat
  /-- CLASS and MAX_CLASS: 0 CE, 1 UCR, 2 UCF, 3 DF [2 bits each; 15_faults Table 15.3] -/
  cls : Nat
  maxCls : Nat
  /-- OPEN, ACKED, LOGGED, AGGREGATE [1 bit each; 15_faults R337, R338, R344] -/
  isOpen : Bool
  acked : Bool
  logged : Bool
  aggregate : Bool
  /-- UNIT [16 bits; 15_faults R333] -/
  unit : Nat
  /-- NAME, SEC_COUNT, LAST_SEC_NAME, LAST_SEC_UNIT [16 bits each; 15_faults Table 15.4] -/
  name : Nat
  secCount : Nat
  lastName : Nat
  lastUnit : Nat
  /-- TIME and TIME_LAST, tide-clock ns [64 bits each; 15_faults Table 15.4] -/
  time : Nat
  timeLast : Nat
  /-- DOMAIN, where DOMAIN_VALID [10 bits; 15_faults Table 15.4] -/
  dom : Option Nat
  /-- ADDR (a DPA) and LENGTH in lines, where ADDR_VALID [64 and 32 bits; 15_faults Table 15.4] -/
  addr : Option (Nat × Nat)
  /-- MA with the half in bit 47, where MA_VALID [48 bits; 15_faults Table 15.4] -/
  ma : Option Nat
  /-- REQ_ID, where REQ_VALID [16 bits; 15_faults Table 15.4] -/
  req : Option Nat
  /-- DETAIL [64 bits; 15_faults Table 15.5] -/
  detail : Nat
  /-- TCLK time of the opening, for the 10 ms of R338 [64 bits; 15_faults R338] -/
  openedAt : Nat
  deriving DecidableEq, Repr

/-- A unit that has been fenced since reset (15_faults R341, R342). Whether it is fenced now stands in FLT_FENCED_0 to 2. -/
structure UnitState where
  /-- Its reset runs [1 bit; 15_faults R342; reset false] -/
  resetting : Bool := false
  /-- Times fenced since device reset [count; 15_faults R342; reset 0] -/
  fences : Nat := 0
  /-- TCLK time its last reset ended [64 bits; 15_faults R338; reset none] -/
  resetEnd : Option Nat := none
  /-- NAME of the detection that caused the present episode [16 bits; 15_faults R344; reset none] -/
  episode : Option Nat := none
  /-- NAME of the detection that caused the last episode [16 bits; 15_faults R344; reset 0] -/
  cause : Nat := 0
  /-- Items reported one by one in the episode [count; 15_faults R344; reset 0] -/
  items : Nat := 0
  /-- Run records per domain in the episode [15_faults R344; reset none] -/
  runs : List (Nat × Nat) := []
  /-- Folded lines per domain: lowest DPA, highest DPA, count [15_faults R344; reset none] -/
  folded : List (Nat × Nat × Nat × Nat) := []
  /-- Open run: domain, first line, lines, DPA, TCLK time of its first line [15_faults R344; reset none] -/
  openRun : Option (Nat × Nat × Nat × Nat × Nat) := none
  deriving DecidableEq, Repr

/-- A poison-table entry (15_faults R345). -/
structure PoisonEntry where
  half : Half
  dom : Nat
  /-- First line, DOFF / 64 [42 bits; 15_faults R345] -/
  line : Nat
  /-- Length in lines [15_faults R345] -/
  len : Nat
  /-- Source External (R123), not Internal [1 bit; 15_faults R345] -/
  external : Bool
  deriving DecidableEq, Repr

/-- A record of a CXL event log (15_faults R350): log 0 Informational, 1 Warning, 2 Failure, 3 Fatal; kind 0 General Media, 1 DRAM, 2 Memory Module. -/
structure EventRec where
  kind : Nat
  name : Nat
  /-- LD-DPA and lines, where it carries one [15_faults R350] -/
  addr : Option (Nat × Nat)
  time : Nat
  deriving DecidableEq, Repr

/-- A Scan Media in progress or done for an LD (15_faults R345). -/
structure ScanMedia where
  /-- First LD-DPA line and lines of the range [15_faults R345; reset none] -/
  first : Nat
  len : Nat
  /-- It has ended [1 bit; 15_faults R345] -/
  done : Bool
  /-- Lines found poisoned, LD-DPA / 64 [15_faults R345] -/
  found : List Nat
  deriving DecidableEq, Repr

/-! ### 13_pairing_and_mirroring -/

/-- A mirror message of the SYNC kind that the primary has sent and that is not acknowledged (13_pairing R303). -/
structure SyncSent where
  /-- Its number on the link since ACTIVE, modulo 2^32 [32 bits; 13_pairing R304; reset: none] -/
  num : Nat
  /-- Domain and extent [10 and 27 bits; 13_pairing R312; reset: none] -/
  dom : Nat
  ext : Nat
  deriving DecidableEq, Repr

/-- A page assembled by a receiver (13_pairing R315, R317). -/
structure PageIn where
  /-- Domain and page [10 and 36 bits; 13_pairing R315; reset: none] -/
  dom : Nat
  page : Nat
  /-- Lines received: number in the page, data [13_pairing R315; reset: none] -/
  lines : List (Nat × Line)
  /-- Slot words received: offset in words, word [13_pairing R317; reset: none] -/
  slot : List (Nat × BitVec 64)
  deriving DecidableEq, Repr

/-- A page copy in flight on the sender (13_pairing R315). -/
structure PageOut where
  /-- Domain, page, and pages covered [13_pairing R315; reset: none] -/
  dom : Nat
  page : Nat
  len : Nat
  /-- It is a repair [1 bit; 13_pairing R318; reset: none] -/
  repair : Bool
  deriving DecidableEq, Repr

/-- A resync of a domain under way (13_pairing R314, R315). -/
structure Resync where
  /-- Domain [10 bits; 13_pairing R314; reset: none] -/
  dom : Nat
  /-- FULL, not INCREMENTAL [1 bit; 13_pairing R314; reset: none] -/
  full : Bool
  /-- Extents still to copy, and the page within the first [13_pairing R315; reset: none] -/
  todo : List Nat
  next : Nat
  /-- A PAGE_ACK of the first extent answered NO_MEDIA [1 bit; 13_pairing R316; reset: none] -/
  noMedia : Bool
  /-- Pages that the partner refused as slots and that go again as lines [13_pairing R317; reset: none] -/
  again : List Nat
  deriving DecidableEq, Repr

/-- One half's mirror engine (13_pairing R303 to R318). -/
structure Mirror where
  /-- SYNC messages sent since ACTIVE, modulo 2^32 [32 bits; 13_pairing R304; reset 0] -/
  syncSent : Nat := 0
  /-- SYNC messages not yet acknowledged, oldest first [13_pairing R303; reset none] -/
  unacked : List SyncSent := []
  /-- SYNC messages received since ACTIVE, modulo 2^32 [32 bits; 13_pairing R304; reset 0] -/
  syncRecv : Nat := 0
  /-- Numbers of messages received and not yet committed [13_pairing R304; reset none] -/
  uncommitted : List Nat := []
  /-- Count carried by the last COMMIT_ACK [32 bits; 13_pairing R304; reset 0] -/
  ackedTo : Nat := 0
  /-- ASYNC messages received since ACTIVE, modulo 2^32 [32 bits; 13_pairing R308; reset 0] -/
  asyncRecv : Nat := 0
  /-- ASYNC messages received and not committed [13_pairing R308; reset none] -/
  asyncOpen : List Nat := []
  /-- Cuts received and not answered: cut number, ASYNC messages before it still open [13_pairing R308; reset none] -/
  cuts : List (Nat × List Nat) := []
  /-- Unconfirmed log: cut interval, domain, extent [32,768 entries; 13_pairing R310; reset empty] -/
  log : List (Nat × Nat × Nat) := []
  /-- Pages being assembled [13_pairing R315; reset none] -/
  pagesIn : List PageIn := []
  /-- Pages in flight [1,024 pages; 13_pairing R315; reset none] -/
  pagesOut : List PageOut := []
  /-- Resyncs under way, by domain [13_pairing R314; reset none] -/
  resyncs : List Resync := []
  /-- Pages to supply for a repair: the partner's domain, ours, page [13_pairing R318; reset none] -/
  repairs : List (Nat × Nat × Nat) := []
  /-- Partner's SET_FP: ACTIVE bits and fingerprints [8 + 256 bits; 13_pairing R317; reset none] -/
  peerSets : Option (Nat × List Nat) := none
  deriving DecidableEq, Repr

/-- A ROLE message as last received for a domain (13_pairing R300). -/
structure PeerRole where
  /-- Partner's domain, its PEER, ROLE, MODE and STATE [13_pairing Table 13.2; reset: none] -/
  dom : Nat
  peer : Nat
  role : Nat
  mode : Nat
  state : Nat
  /-- CONTINUOUS and DIRTY_OK [1 bit each; 13_pairing Table 13.2; reset: none] -/
  continuous : Bool
  dirtyOk : Bool
  /-- GRANT_EPOCH and MIR_EPOCH [32 and 64 bits; 13_pairing Table 13.2; reset: none] -/
  epoch : Nat
  mirEpoch : Nat
  deriving DecidableEq, Repr

/-- A grant as the logbook holds it (13_pairing R299). -/
structure MirGrant where
  /-- ROLE, PEER_DOMAIN and GRANT_EPOCH [2, 10 and 32 bits; 13_pairing R298; reset: none] -/
  role : Nat
  peer : Nat
  epoch : Nat
  /-- MIR_EPOCH at the grant [64 bits; 13_pairing R299; reset: none] -/
  mirEpoch : Nat
  deriving DecidableEq, Repr

/-- The mirror state of a domain beside MIR_DOM_STATE (13_pairing R311). -/
structure MirDom where
  /-- TCLK ns at which SOLO time started [64 bits; 13_pairing R312; reset none] -/
  soloFrom : Option Nat := none
  /-- EXPIRED: no rejoin before a new grant [1 bit; 13_pairing R314; reset false] -/
  expired : Bool := false
  /-- SYNC to ASYNC: no ASYNC message until this SYNC number is acknowledged [32 bits; 13_pairing R301; reset none] -/
  holdSync : Option Nat := none
  /-- ASYNC to SYNC: no SYNC message until the high-water mark reaches this cut [64 bits; 13_pairing R301; reset none] -/
  holdCut : Option Nat := none
  /-- TCLK ns of the last MIR_WRITE_DROPPED record [64 bits; 13_pairing Table 13.5; reset none] -/
  dropAt : Option Nat := none
  /-- The partner's last ROLE for it [13_pairing R300; reset none] -/
  peer : Option PeerRole := none
  /-- The grant last written to the logbook [13_pairing R299; reset none] -/
  logged : Option MirGrant := none
  deriving DecidableEq, Repr

/-! ### 14_offload_engine -/

/-- A ring's positions beside its registers (14_offload R322). -/
structure Ring where
  /-- PHASE of the record at HEAD [1 bit; 14_offload R322; reset true] -/
  headLap : Bool := true
  /-- PHASE of the record of the next job [1 bit; 14_offload R322; reset true] -/
  lap : Bool := true
  /-- Index of the next descriptor to fetch [15 bits; 14_offload R322; reset 0] -/
  next : Nat := 0
  deriving DecidableEq, Repr

/-- A job in flight (14_offload R322). -/
structure Job where
  /-- Function, ring, index [14_offload R322; reset: none] -/
  fn : Nat
  ring : Nat
  idx : Nat
  /-- Descriptor, 64 bytes [512 bits; 14_offload Table 14.2; reset: none] -/
  desc : Nat
  /-- PHASE of its record [1 bit; 14_offload R322; reset: none] -/
  phase : Bool
  /-- Tag of its read from host memory [10 bits; 02_host_ports R65; reset: none] -/
  rtag : Option Nat
  /-- STATUS once the job has ended [8 bits; 14_offload Table 14.4; reset: none] -/
  status : Option Nat
  /-- CHECK_OUT [32 bits; 14_offload Table 14.4; reset: none] -/
  check : Nat
  /-- BYTES_OUT [32 bits; 14_offload Table 14.4; reset: none] -/
  bytesOut : Nat
  /-- SRC_CONSUMED [32 bits; 14_offload Table 14.4; reset: none] -/
  consumed : Nat
  /-- The record has been written, HEAD has not passed it [1 bit; 14_offload R322; reset: none] -/
  written : Bool
  /-- Lines of a domain job issued so far [14_offload R330; reset: none] -/
  next : Nat
  /-- Lines of a domain job that have completed and, of a STORE, are not delivered yet: line number, data, poison [14_offload R330; reset: none] -/
  lines : List (Nat × Line × Bool)
  deriving DecidableEq, Repr

/-! ### 16_power_and_supply -/

/-- A power domain in transition (16_power R356). -/
structure PowDom where
  /-- The level it is changing to: 0 RUN, 1 IDLE, 2 SLEEP [2 bits; 16_power R356; reset none] -/
  changing : Option Nat := none
  deriving DecidableEq, Repr

/-- One half's voltage and thermal control (16_power R364 to R366). -/
structure Dvfs where
  /-- Voltage point the VR has acknowledged [2 bits; 16_power R364; reset 0] -/
  volt : Nat := 0
  /-- Voltage point asked for and not acknowledged [2 bits; 16_power R364; reset none] -/
  step : Option Nat := none
  /-- The step timed out and is retried once per second [1 bit; 16_power R364; reset false] -/
  noAck : Bool := false
  /-- TCLK ns since which the half has stayed below THROTTLE_C - 5 [64 bits; 16_power R366; reset none] -/
  coolFrom : Option Nat := none
  deriving DecidableEq, Repr

/-- Power, supply and slots beside their registers (16_power R353 to R378; 20_pins R421). -/
structure Power where
  /-- The 33 power domains [16_power R353; reset none changing] -/
  doms : List PowDom := List.replicate 33 {}
  /-- Half A's and Half B's voltage and thermal control [16_power R364; reset at point 0] -/
  dvfs : Two Dvfs := ⟨{}, {}⟩
  /-- State an entry in progress leads to: false DEEP_SLEEP, true OFF [1 bit; 16_power R359; reset none] -/
  entering : Option Bool := none
  /-- Source of the wake in the slot, in the encoding of LAST_WAKE [2 bits; 16_power R363; reset 0] -/
  wakeSrc : Nat := 0
  /-- The device is in OFF [1 bit; 16_power Table 16.5; reset false] -/
  off : Bool := false
  /-- The card bus is between reset and recovery: held in reset by the supply [1 bit; 16_power R370; reset false] -/
  heldReset : Bool := false
  /-- TCLK ns since which the bus has been at recovery [64 bits; 16_power R368, R370; reset none] -/
  recovFrom : Option Nat := none
  /-- THERMTRIP holds everything off [1 bit; 16_power R366; reset false] -/
  tripped : Bool := false
  /-- Save areas written, with the check values (any valid) [1 bit; 16_power R359; reset false] -/
  saved : Bool := false
  /-- Step of the rail sequence in progress, 1 to 4; 5 all rails good [3 bits; 20_pins R421; reset 0] -/
  railStep : Nat := 0
  /-- Rails of the step that have reported power-good [20_pins R421; reset none] -/
  railGood : List Nat := []
  /-- Failed rail sequences [2 bits; 20_pins R421; reset 0] -/
  railFails : Nat := 0
  /-- Feed whose gate is to be turned on after the dead time [1 bit; 16_power R373; reset none] -/
  switching : Option Bool := none
  /-- A feed gate is on [1 bit; 16_power R371; reset false] -/
  gateOn : Bool := false
  /-- A slot fuse's EN bit has been written 0 since its trip, by slot [48 bits; 16_power R375; reset 0] -/
  slotCleared : Nat := 0
  /-- HSW_CTRL.ENABLE has been written 0 since the latch [1 bit; 16_power R371; reset false] -/
  enCleared : Bool := false
  /-- The latch holds the rails down after three failed sequences [1 bit; 20_pins R421; reset false] -/
  railsLatched : Bool := false
  /-- A latch clear has begun: HSW_EN_N went high [1 bit; 16_power R371; reset false] -/
  enSeenHigh : Bool := false
  /-- AUX_3V3 is good [1 bit; 20_pins R422; reset true, DESIGN CHOICE, log 34] -/
  auxGood : Bool := true
  /-- Samples of the present window per telemetry point, newest first [64 x 65,535 x 20 bits; 16_power R377; reset none] -/
  samples : Cells (List Nat) := []
  /-- Samples of the capture taken [13 bits; 16_power R377; reset none] -/
  capture : Option Nat := none
  /-- Wear counters of the logbook's blocks [1,984 x 40 bits; 16_power R378; reset 0] -/
  wear : Cells Nat := []
  /-- Clean-shutdown marker in the logbook [1 bit; 16_power R359, R374; reset false] -/
  marker : Bool := false
  /-- Last tide-clock time that the logbook holds [64 bits; 16_power R374; reset 0] -/
  lastTime : Nat := 0
  /-- Fault records copied to the logbook, newest first [16,384 records; 15_faults R337; reset empty] -/
  logbook : List FaultRec := []
  deriving DecidableEq, Repr

/-! ### 17_boot_and_configuration -/

/-- A section of an image (17_boot Table 17.4). -/
structure ImgSection where
  /-- TYPE [16 bits; 17_boot Table 17.4; reset: none] -/
  typ : Nat
  /-- Its bytes [17_boot Table 17.4; reset: none] -/
  bytes : List Byte
  deriving DecidableEq, Repr

/-- The boot in progress (17_boot R379 to R393). -/
structure Boot where
  /-- A boot runs and the cores are released [1 bit; 17_boot R380; reset false] -/
  running : Bool := false
  /-- TCLK ns of t = 0 [64 bits; 17_boot Table 17.1; reset 0] -/
  t0 : Nat := 0
  /-- SRAM fill is done [1 bit; 01_architecture R36; reset false] -/
  filled : Bool := false
  /-- Slot being read: false A, true B [1 bit; 17_boot R383; reset false] -/
  slotB : Bool := false
  /-- Sections of the image in use [17_boot R381; reset none] -/
  sections : List ImgSection := []
  /-- STEP_EN of the image, held aside [1 bit; 17_boot R388; reset false] -/
  stepEn : Bool := false
  /-- BOOT_RECORD_IGNORED has been recorded in this boot [1 bit; 17_boot R387; reset false] -/
  ignoredSeen : Bool := false
  /-- Blobs of KEYS that wait for their load [256 bytes each; 17_boot R389; reset none] -/
  blobs : List (List Byte) := []
  /-- ROM patches: half (bit 0 A, bit 1 B), ROM_ADDR, VALUE [64 per half; 17_boot R386; reset none] -/
  patches : List (Nat × Nat × Word) := []
  /-- Memory_Info_Valid, Memory_Active [1 bit each; 02_host_ports R62; reset false] -/
  infoValid : Bool := false
  memActive : Bool := false
  /-- The TW blocks have left reset [1 bit; 17_boot R391; reset false] -/
  strait : Bool := false
  /-- Flash contents, 64-bit words by address / 8, slot A first; unlisted reads erased [2 x 32 MiB; 17_boot R381; reset erased, DESIGN CHOICE, log 35] -/
  flash : Cells Word := []
  /-- Flash command in progress: OP, SLOT, BLOCK [17_boot R395; reset none] -/
  flashCmd : Option (Nat × Nat × Nat) := none
  deriving DecidableEq, Repr

/-! ### 18_performance_counters -/

/-- One half's performance counter unit beside its registers (18_pmu R396 to R406). -/
structure Pmu where
  /-- Eligible requests until the next sample [24 bits; 18_pmu R401; reset 0] -/
  count : Nat := 0
  /-- Values presented in the cycle before by the event of each general counter [64 values; 18_pmu R397; reset 0] -/
  last : Cells Nat := []
  /-- Fractions of a clock cycle left over, in 1/1,000,000 cycles: 0 CCLK, 1 SCLK, 2 + k DCLK of channel k [18_pmu R396; reset 0] -/
  frac : Cells Nat := []
  deriving DecidableEq, Repr

end Sys2Proof.Machine
end

