-- ==== Sys2Proof/Machine/State.lean ====
section
/-! DEFINITION. The state of the device, what it sends out, and the reasons a step can stop. -/

namespace Sys2Proof.Machine

/-- What leaves the device, in the model's own terms (log 2). -/
inductive Out where
  /-- A CXL.mem response: port, host, tag, kind, data, poison, DevLoad (04_request Table 4.5, R129). -/
  | response (port id tag : Nat) (kind : RespKind) (data : Line) (poison : Bool) (devLoad : Nat)
  /-- A back-invalidation: host, DPA line, BISnpData and not BISnpInv (04_request R125). -/
  | biSnp (host dom line : Nat) (data : Bool)
  /-- The back-invalidate broadcast to a host of a shared domain (01_architecture Table 1.8). -/
  | biBroadcast (host dom : Nat)
  /-- An Unsupported Request completion of a function (02_host_ports R61). -/
  | unsupported (fn : Nat)
  /-- A configuration request of a function answered Configuration Request Retry Status (02_host_ports R64). -/
  | retryLater (fn : Nat)
  /-- The CDAT change notification of a function (02_host_ports R57, R62). -/
  | cdatChanged (fn : Nat)
  /-- A value a function or a path reads (02_host_ports R59, 19_register_map R407). -/
  | readData (fn : Nat) (value : Word)
  /-- A DMA read request: function, address, bytes (14_offload R322). -/
  | dmaRead (fn addr len : Nat)
  /-- A DMA write: function, address, bytes (14_offload R323). -/
  | dmaWrite (fn addr : Nat) (bytes : List Byte)
  /-- An MSI-X message: function, vector (02_host_ports R66). -/
  | msix (fn vec : Nat)
  /-- An event for the fabric manager: code of the event or name, and its values (19_register_map R416). -/
  | toFm (event : String) (args : List Nat)
  /-- An event notification pushed to the fabric manager, over the path through which its
  feature set was locked (19_register_map R416, Table 19.3). -/
  | pushed (via : Option RegPath) (event : String) (args : List Nat)
  /-- A die-to-die flit of a half: its words (01_architecture R24). -/
  | d2dFlit (h : Half) (words : List Word)
  /-- Handshake messages of a half (01_architecture R40). -/
  | claim (h : Half) (msg : ClaimMsg)
  | echo (h : Half) (returned own : ClaimMsg)
  | confirm (h : Half) (leaderId : BitVec 32)
  /-- A shore-port word that crosses, or is re-sent (01_architecture R31). -/
  | shore (h : Half) (toShore : Bool) (word : ShoreWord) (resend : Bool)
  /-- A Strait frame (12_strait Table 12.3). -/
  | strait (l : Half) (bytes : List Byte)
  /-- A Strait control word of the width change: 0 WIDTH_REQ, 1 WIDTH_MARK, and the lane group (12_strait R294). -/
  | straitWidth (l : Half) (mark : Bool) (group : Nat)
  /-- A PTP message the device sends: kind, sequence number, times (11_tide_clock R262). -/
  | ptp (kind : String) (seq : Nat) (times : List Nat)
  /-- The level of a pin (20_pins Table 20.2). -/
  | pin (name : String) (high : Bool)
  /-- A voltage request to a VR: half, point (16_power R364). -/
  | vr (h : Half) (point : Nat)
  /-- A rail is enabled or disabled (20_pins R421). -/
  | rail (n : Nat) (on : Bool)
  /-- A reply: return code and values (19_register_map R408; 15_faults R345, R352; 02_host_ports R53). -/
  | reply (code : String) (values : List Nat)
  deriving DecidableEq, Repr

/-- The fused values (19_register_map TOP_ID, TOP_DIE_ID; 17_boot R382, R384; 08_protection R220). -/
structure Fuses where
  /-- Silicon stepping [8 bits; 19_register_map TOP_ID; reset DESIGN CHOICE 0x11, log 6] -/
  stepping : Nat := 0x11
  /-- ORDER_CODE: 0 KF-9624-P, 1 KF-9624-S [2 bits; 19_register_map TOP_ID; reset DESIGN CHOICE 0, log 6] -/
  orderCode : Nat := 0
  /-- ROM revision [8 bits; 19_register_map TOP_ID; reset DESIGN CHOICE 3, log 6] -/
  romRev : Nat := 3
  /-- Die identities [32 bits each; 01_architecture R40; reset DESIGN CHOICE 0x3A170C42 and 0x3A170C43, log 6] -/
  dieId : Two (BitVec 32) := ⟨0x3A170C42, 0x3A170C43⟩
  /-- Root-key hashes, none where blank [4 x 384 bits; 17_boot Table 17.6; reset DESIGN CHOICE blank, log 6] -/
  rootHash : List (Option Nat) := [none, none, none, none]
  /-- Revoke fuses [4 bits; 17_boot R384; reset DESIGN CHOICE 0, log 6] -/
  revoked : Nat := 0
  /-- Device private key [384 bits; 08_protection R220; reset DESIGN CHOICE 1, log 6] -/
  devKey : Nat := 1
  /-- Voltage trims of the halves, mV [signed; 16_power Table 16.10; reset DESIGN CHOICE 0, log 6] -/
  trim : Two Int := ⟨0, 0⟩
  deriving DecidableEq, Repr

/-- The pins and straps that the device reads (20_pins Table 20.2). -/
structure Pins where
  /-- LEADER_SEL as delivered to each half [1 bit each; 01_architecture R39; reset false, DESIGN CHOICE, log 7] -/
  leaderSel : Two Bool := ⟨false, false⟩
  /-- HSW_EN_N is low [1 bit; 16_power R371; reset false, DESIGN CHOICE, log 7] -/
  hswEn : Bool := false
  /-- ERR_N asserted through a power-path record (R347) [1 bit; 15_faults R347; reset false] -/
  errHeld : Bool := false
  deriving DecidableEq, Repr

/-- The whole state. -/
structure State where
  /-- Commands that wait, the front first [list; the model's own; reset empty] -/
  pending : List Instr
  /-- TCLK cycles since reset, ns [64 bits; 01_architecture Table 1.6; reset 0] -/
  now : Nat := 0
  /-- The model's own field: the next free value (log 5) [count; the model's own; reset DESIGN CHOICE 0, log 5] -/
  free : Nat := 0
  /-- The registers: keys and values as RegMap says [19_register_map Tables 19.4, 19.5; reset: each field's own, by regReset] -/
  regs : Cells Word := []
  /-- What has left the device, newest first [list; the model's own record, log 2; reset empty] -/
  out : List Out := []
  /-- Fused values [fuses; 19_register_map TOP_ID; reset as each field says] -/
  fuses : Fuses := {}
  /-- Pins and straps [pins; 20_pins Table 20.2; reset as each field says] -/
  pins : Pins := {}
  /-- The halves [01_architecture R20; reset as each field says] -/
  halves : Two HalfCore := ⟨{}, {}⟩
  /-- The 16 host ports [02_host_ports R47; reset as each field says] -/
  ports : List Port := List.replicate 16 {}
  /-- CXL.io functions, by port x 17 + LD [02_host_ports R53; reset as each field says] -/
  funcs : Cells Func := []
  /-- HDM decoders, by host key x 8 + index [03_domains R76; reset uncommitted] -/
  hdm : Cells HdmDecoder := []
  /-- Map tables of the domains [03_domains R93; reset none] -/
  maps : Cells DomMap := []
  /-- Extent descriptors, by domain x 2^27 + extent [03_domains Table 3.4; reset UNMAPPED] -/
  extents : Cells Extent := []
  /-- Page entries, by domain x 2^36 + page [03_domains Table 3.6; reset ZERO] -/
  pages : Cells Page := []
  /-- Media in use [07_tiering R193; reset empty] -/
  media : List MediaBlk := []
  /-- Metadata cache of each half, each set's ways in order [32 MiB; 03_domains R93; reset empty] -/
  mcache : Two (List McLine) := ⟨[], []⟩
  /-- 2 MiB frames that move under a watermark [03_domains R92; reset none] -/
  frameMoves : List FrameMove := []
  /-- Page transition locks held [03_domains R95; reset none] -/
  locks : List PageLock := []
  /-- Zeroing runs in progress: MAP_ZERO's, and those of received ZERO_RUN messages per half [03_domains R431; 13_pairing R304; reset none] -/
  zero : Option ZeroRun := none
  /-- Freed media waiting [03_domains R99; reset none] -/
  drains : List DrainItem := []
  /-- Number of the next drain item [count; 03_domains R99; reset 0] -/
  drainNext : Nat := 0
  /-- Post-fence walks [03_domains R91; reset none] -/
  walks : List FenceWalk := []
  /-- Requests held, oldest first [32,768 per half; 04_request R114; reset none] -/
  reqs : List Req := []
  /-- Next request identity of each half [15 bits; 04_request R113; reset 0] -/
  nextRid : Two Nat := ⟨0, 0⟩
  /-- Queue times of the last microsecond in each half: TCLK ns, class, ns [04_request R129; reset none] -/
  queueTimes : Two (List (Nat × Nat × Nat)) := ⟨[], []⟩
  /-- Port over which each fabric host was last heard, by source identity [4 bits each; 02_host_ports R68; reset 0, log 133] -/
  spidPort : Cells Nat := []
  /-- Snoop filter and eviction buffer [04_request R124; reset empty] -/
  snoop : List SfEntry := []
  /-- The 24 channels [05_dram R131; reset as each field says] -/
  channels : List Channel := List.replicate 24 {}
  /-- DRAM bursts, by half x 2^42 + MA / 64 [640 bits each; 05_dram R137, R154; reset: unlisted bursts read 0, DESIGN CHOICE, log 8] -/
  dram : Cells Burst := []
  /-- Shingle tier of each half [06_shingle R161; reset empty] -/
  shg : Two Shg := ⟨{}, {}⟩
  /-- Page mover of each half [07_tiering R189; reset idle] -/
  mover : Two Mover := ⟨{}, {}⟩
  /-- Open lost-write runs of each half [07_tiering R199; reset none] -/
  lostRuns : Two (List LostRun) := ⟨[], []⟩
  /-- Lost-write seconds of each half [07_tiering R199; reset none] -/
  lostSecs : Two (List LostSec) := ⟨[], []⟩
  /-- Key slots, by slot [08_protection R219; reset empty] -/
  keys : Cells KeySlot := []
  /-- Key command in progress [08_protection R220; reset none] -/
  keyCmd : Option KeyCmd := none
  /-- Blob words written, word 0 first [32 x 64 bits; 08_protection PROT_WRAP; reset 0] -/
  wrap : Cells Word := []
  /-- Protection state of the domains [08_protection R208; reset as each field says] -/
  prot : Cells ProtDom := []
  /-- Counter blocks as trusted, by domain x 2^36 + page [08_protection R211; reset 0] -/
  ctrs : Cells CtrBlock := []
  /-- Tree nodes as trusted, by domain x 2^44 + level x 2^40 + index: eight tags [08_protection R214; reset 0] -/
  nodes : Cells Line := []
  /-- Line tags, by domain x 2^42 + line [64 bits; 08_protection R210; reset 0] -/
  tags : Cells Word := []
  /-- Base of each P2 extent's MAC and counter area, by domain x 2^27 + extent [03_domains Table 3.4; 08_protection R210; reset none] -/
  areas : Cells Nat := []
  /-- Boot nonce BN [256 bits; 08_protection R209; reset 0, DESIGN CHOICE, log 36] -/
  nonce : Nat := 0
  /-- Activation counter of the device [32 bits; 08_protection R209; reset 0] -/
  actCount : Nat := 0
  /-- Policer buckets, by domain x 2 + half [09_qos R229; reset 0] -/
  buckets : Cells Bucket := []
  /-- Shapers, by domain [09_qos R232; reset 0] -/
  shapers : Cells Shaper := []
  /-- The 26 schedulers: channels 0 to 23, Strait-A, Strait-B [09_qos R236; reset as each field says] -/
  scheds : List Sched := List.replicate 26 {}
  /-- Last queue sample of each domain: depth, delay in ns [16 and 32 bits; 09_qos Table 9.5; reset 0] -/
  telemLast : Cells (Nat × Nat) := []
  /-- Tide clock [11_tide_clock R259; reset as each field says] -/
  tide : Tide := {}
  /-- Commit queue, in order of T and acceptance [64 entries; 11_tide_clock R269; reset empty] -/
  commits : List CommitEntry := []
  /-- Strait links [12_strait R276; reset as each field says] -/
  strait : Two StraitLink := ⟨{}, {}⟩
  /-- Mirror engines [13_pairing R303; reset as each field says] -/
  mirror : Two Mirror := ⟨{}, {}⟩
  /-- Mirror state of the domains [13_pairing R311; reset as each field says] -/
  mirDoms : Cells MirDom := []
  /-- Offload jobs in flight, oldest first [1,024 per half; 14_offload R322; reset none] -/
  jobs : List Job := []
  /-- Ring positions beside the registers, by function x 4 + ring [14_offload R322; reset as each field says] -/
  rings : Cells Ring := []
  /-- Fault records in the ring, newest first [4,096 records; 15_faults R336; reset none] -/
  records : List FaultRec := []
  /-- Breakwaters that have been fenced, by UNIT [15_faults R342; reset none] -/
  units : Cells UnitState := []
  /-- Poison table of each half [8,192 entries; 15_faults R345; reset empty] -/
  poison : Two (List PoisonEntry) := ⟨[], []⟩
  /-- Poison List Overflow: tide-clock time of the first line not listed, and whether a covering scan has ended since [64 and 1 bits; 15_faults R345; reset none] -/
  poisonOvf : Two (Option (Nat × Bool)) := ⟨none, none⟩
  /-- CXL event logs, by function x 4 + log, newest first [64, 64, 64, 16 records; 15_faults R350; reset empty] -/
  events : Cells (List EventRec) := []
  /-- Event log of the fabric manager, newest first [256 records; 19_register_map Table 19.3; reset empty] -/
  fmLog : List (String × List Nat) := []
  /-- Path through which TOP_FM_FEATURE_CTRL.LOCK was set, to which messages are pushed [19_register_map R416; reset none] -/
  fmPath : Option RegPath := none
  /-- Media scans, by function [15_faults R345; reset none] -/
  scans : Cells (Option ScanMedia) := []
  /-- Power and supply [16_power R353; reset as each field says] -/
  power : Power := {}
  /-- Boot and flash [17_boot R379; reset as each field says] -/
  boot : Boot := {}
  /-- Performance counter units [18_pmu R396; reset as each field says] -/
  pmu : Two Pmu := ⟨{}, {}⟩
  deriving DecidableEq, Repr

/-- Faults. No command of this device stops the machine: the spec gives every failure an effect on the state (a record, a
fence, a device-fatal state), and the model takes it. The one constructor is raised by nothing and is safe. -/
inductive Fault where
  /-- Raised by no meaning; safe. -/
  | unused
  deriving DecidableEq, Repr

/-- Refusals. -/
inductive Refusal where
  /-- The command has no meaning in the model yet; raised by Dispatch alone; safe. -/
  | notModelled (mnemonic : String)
  deriving DecidableEq, Repr

/-- The machine right after reset: every field at the value that its docstring names. -/
def State.reset : State := { pending := [] }

end Sys2Proof.Machine
end

