-- ==== Sys2Proof/Machine/Ops.lean ====
section
/-! DEFINITION. The named operations over the state that every meaning uses: registers and their fields, what leaves the
device, free values, times, and the decode configuration in effect. -/

namespace Sys2Proof.Machine

/-! ### Registers -/

/-- What the register store holds at a key (19_register_map Tables 19.4, 19.5). -/
def State.reg (s : State) (k : Nat) : Word := cellGet (regReset k) s.regs k

/-- The state with a register set. -/
def State.setReg (s : State) (k : Nat) (v : Word) : State := { s with regs := cellPut (regReset k) s.regs k v }

/-- A field of a register. -/
def State.fld (s : State) (f : Fld) : Nat := bitsOf (s.reg f.key).toNat f.lsb f.width

/-- A one-bit field of a register. -/
def State.flag (s : State) (f : Fld) : Bool := s.fld f == 1

/-- The state with a field of a register set. -/
def State.setFld (s : State) (f : Fld) (v : Nat) : State :=
  s.setReg f.key (BitVec.ofNat 64 (withBits (s.reg f.key).toNat f.lsb f.width v))

/-- The state with a one-bit field of a register set. -/
def State.setFlag (s : State) (f : Fld) (b : Bool) : State := s.setFld f (b2n b)

/-- The state with a saturating counter field advanced. -/
def State.count (s : State) (f : Fld) (n : Nat) : State := s.setFld f (satAdd f.width (s.fld f) n)

/-- Bit `i` of a field. -/
def State.bit (s : State) (f : Fld) (i : Nat) : Bool := bitAt (s.fld f) i

/-- The state with bit `i` of a field set or cleared. -/
def State.setBit (s : State) (f : Fld) (i : Nat) (b : Bool) : State := s.setFld f (withBits (s.fld f) i 1 (b2n b))

/-- A field of the value in effect of an RWT register (11_tide_clock R268). -/
def State.eff (s : State) (f : Fld) : Nat := s.fld f.eff

/-- A one-bit field of the value in effect. -/
def State.effFlag (s : State) (f : Fld) : Bool := s.eff f == 1

/-! ### Lists of 16 ports, 24 channels, 26 schedulers, and sparse parts -/

/-- A host port. -/
def State.port (s : State) (p : Nat) : Port := nth {} s.ports p

/-- The state with a host port changed. -/
def State.updPort (s : State) (p : Nat) (f : Port → Port) : State := { s with ports := s.ports.modify p f }

/-- A channel. -/
def State.chan (s : State) (c : Nat) : Channel := nth {} s.channels c

/-- The state with a channel changed. -/
def State.updChan (s : State) (c : Nat) (f : Channel → Channel) : State := { s with channels := s.channels.modify c f }

/-- A scheduler. -/
def State.sched (s : State) (i : Nat) : Sched := nth {} s.scheds i

/-- The state with a scheduler changed. -/
def State.updSched (s : State) (i : Nat) (f : Sched → Sched) : State := { s with scheds := s.scheds.modify i f }

/-- A CXL.io function. -/
def State.func (s : State) (fn : Nat) : Func := cellGet {} s.funcs fn

/-- The state with a function changed. -/
def State.updFunc (s : State) (fn : Nat) (f : Func → Func) : State :=
  { s with funcs := cellPut {} s.funcs fn (f (s.func fn)) }

/-- The state with one half's core changed. -/
def State.updHalf (s : State) (h : Half) (f : HalfCore → HalfCore) : State := { s with halves := s.halves.upd h f }

/-- Mirror state of a domain beside its register. -/
def State.mirDom (s : State) (d : Nat) : MirDom := cellGet {} s.mirDoms d

/-- The state with a domain's mirror state changed. -/
def State.updMirDom (s : State) (d : Nat) (f : MirDom → MirDom) : State :=
  { s with mirDoms := cellPut {} s.mirDoms d (f (s.mirDom d)) }

/-- The map tables of a domain. -/
def State.map (s : State) (d : Nat) : DomMap := cellGet {} s.maps d

/-- The state with a domain's map tables changed. -/
def State.updMap (s : State) (d : Nat) (f : DomMap → DomMap) : State :=
  { s with maps := cellPut {} s.maps d (f (s.map d)) }

/-- An extent descriptor. -/
def State.ext (s : State) (d e : Nat) : Extent := cellGet {} s.extents (d * 2 ^ 27 + e)

/-- The state with an extent descriptor set. -/
def State.setExt (s : State) (d e : Nat) (x : Extent) : State :=
  { s with extents := cellPut {} s.extents (d * 2 ^ 27 + e) x }

/-- A page entry. -/
def State.page (s : State) (d p : Nat) : Page := cellGet {} s.pages (d * 2 ^ 36 + p)

/-- The state with a page entry set. -/
def State.setPage (s : State) (d p : Nat) (x : Page) : State :=
  { s with pages := cellPut {} s.pages (d * 2 ^ 36 + p) x }

/-- The fenced-unit state of a breakwater. -/
def State.unit (s : State) (u : Nat) : UnitState := cellGet {} s.units u

/-- The state with a breakwater's state changed. -/
def State.updUnit (s : State) (u : Nat) (f : UnitState → UnitState) : State :=
  { s with units := cellPut {} s.units u (f (s.unit u)) }

/-! ### Out, free values, time -/

/-- The state with something sent out. -/
def State.emit (s : State) (o : Out) : State := { s with out := o :: s.out }

/-- A free line and the state with the counter advanced (log 5). -/
def State.freeLine (s : State) : Line × State := (Config.freeLine s.free, { s with free := s.free + 1 })

/-- A random number and the state with the counter advanced (log 5). -/
def State.freeNat (s : State) : Nat × State := (Config.freeNat s.free, { s with free := s.free + 1 })

/-- The tide clock, ns (11_tide_clock R259). -/
def State.tns (s : State) : Nat := s.tide.master / 2 ^ 40

/-! ### Features and the fabric manager -/

/-- A bit of the fabric manager's effective set (19_register_map R416, 02_host_ports R74). -/
def State.fmFeature (s : State) (b : Nat) : Bool :=
  s.flag topFmFeatureCtrlLock && s.bit (topFmFeatureAcceptedAccepted 0) b

/-- A bit of an LD's effective feature set (02_host_ports R73). -/
def State.feature (s : State) (fn b : Nat) : Bool := bitAt (s.func fn).features b

/-- An event sent to the fabric manager: into its log of 256 records, and pushed where EVENT_PUSH is accepted (R416). -/
def State.toFm (s : State) (e : String) (args : List Nat) : State :=
  let s := ({ s with fmLog := ((e, args) :: s.fmLog).take 256 }).emit (.toFm e args)
  if s.fmFeature 0 then s.emit (.pushed s.fmPath e args) else s

/-! ### Ports and functions -/

/-- The function of an LD (02_host_ports R54): 16 is the FM-owned LD, or the G-FAM function. -/
def fnOf (p ld : Nat) : Nat := p * 17 + ld

/-- The half of a port (15_faults Table 15.1). -/
def portHalf (p : Nat) : Half := halfOf (p / 8)

/-- The half of a device channel (01_architecture Table 1.1). -/
def chanHalf (c : Nat) : Half := halfOf (c / 12)

/-- The port is in G-FAM mode (02_host_ports HP_PORT_CFG). -/
def State.gfam (s : State) (p : Nat) : Bool := s.fld (hpPortCfgMode p) == 1

/-- The port is enabled and passed R48. -/
def State.portOn (s : State) (p : Nat) : Bool := (s.port p).active

/-- The LDs of the MLD ports in use, as (port, LD-ID) (02_host_ports R54). -/
def State.lds (s : State) : List (Nat × Nat) :=
  (List.range 16).flatMap fun p =>
    if s.portOn p && !s.gfam p then (List.range (s.fld (hpPortCfgLdCount p))).map (fun n => (p, n)) else []

/-- An MSI-X message of a function: sent, or pending while Bus Master Enable is 0 or the vector is masked
(02_host_ports R66). -/
def State.msix (s : State) (fn vec : Nat) : State :=
  if (s.func fn).bme && !s.flag (msixDataMask fn vec) then s.emit (.msix fn vec)
  else s.setBit (msixPbaPending fn) vec true

/-- A function that its port presents to a host while the link is up (R54, R55): an LD, or the FM-owned LD or the G-FAM
function. -/
def State.present (s : State) (p ld : Nat) : Bool :=
  s.portOn p && s.flag (hpPortStatusLinkUp p) && (ld == 16 || (!s.gfam p && ld < s.fld (hpPortCfgLdCount p)))

/-- A BAR access of a function: answered Unsupported Request, or discarded, while an FLR runs (R64). -/
def State.barWrite (s : State) (p ld : Nat) (f : State → State) : State :=
  if !s.present p ld || (s.func (fnOf p ld)).flr then s else f s

/-! ### Decode configuration in effect (03_domains R75 to R80) -/

/-- The domain is active. -/
def State.domOn (s : State) (d : Nat) : Bool := s.effFlag (domCtrlValid d)

/-- Home half of a domain (01_architecture R21). -/
def State.home (s : State) (d : Nat) : Half := halfOf (s.eff (domCtrlHomeHalf d))

/-- Window base and size of a domain, in 2 MiB units. -/
def State.winBase (s : State) (d : Nat) : Nat := s.eff (domWindowBase d)
def State.winSize (s : State) (d : Nat) : Nat := s.eff (domWindowSize d)

/-- Lines of 64 B in 2 MiB. -/
def extLines : Nat := 32768

/-- DPA of a line of a domain (03_domains R75). -/
def State.dpaOf (s : State) (d line : Nat) : Nat := (s.winBase d * extLines + line) * 64

/-- The active domain whose window holds a DPA, and the line in it (03_domains R75 step 3). -/
def State.domOfDpa (s : State) (dpa : Nat) : Option (Nat × Nat) :=
  let l := dpa / 64
  ((List.range 1024).find? fun d =>
    s.domOn d && s.winBase d * extLines ≤ l && l < (s.winBase d + s.winSize d) * extLines).map
      fun d => (d, l - s.winBase d * extLines)

/-- The valid LD ranges of an LD in effect: LD base, length, DPA base, in 2 MiB units (03_domains R75 step 2). -/
def State.ldRanges (s : State) (p n : Nat) : List (Nat × Nat × Nat) :=
  ((List.range 8).filter fun i => s.effFlag (mapLdrW0Valid (p * 16 + n) i)).map fun i =>
    (s.eff (mapLdrW0LdBase (p * 16 + n) i), s.eff (mapLdrW1Length (p * 16 + n) i), s.eff (mapLdrW1DpaBase (p * 16 + n) i))

/-- DPA of an LD-DPA, both in bytes (03_domains R75 step 2). -/
def State.ldToDpa (s : State) (p n a : Nat) : Option Nat :=
  ((s.ldRanges p n).find? fun r => r.1 * 2 ^ 21 ≤ a && a < (r.1 + r.2.1) * 2 ^ 21).map
    fun r => a - r.1 * 2 ^ 21 + r.2.2 * 2 ^ 21

/-- LD-DPA of a DPA that a valid range of the LD covers, both in bytes (15_faults R350). -/
def State.dpaToLd (s : State) (p n a : Nat) : Option Nat :=
  ((s.ldRanges p n).find? fun r => r.2.2 * 2 ^ 21 ≤ a && a < (r.2.2 + r.2.1) * 2 ^ 21).map
    fun r => a - r.2.2 * 2 ^ 21 + r.1 * 2 ^ 21

/-- An LD passes the owner check of a domain (03_domains R77). -/
def State.ownerLd (s : State) (d p n : Nat) : Bool :=
  n < 16 && bitAt (s.eff (domOwnerLdLdMask d (p / 4))) (p % 4 * 16 + n)

/-- A source identity passes the owner check of a domain (03_domains R77). -/
def State.ownerSpid (s : State) (d spid : Nat) : Bool :=
  s.effFlag (domOwnerSpidGroupEn d) && bitAt (s.eff (mapSpidGroupMembers (s.eff (domOwnerSpidGroup d)) (spid / 64))) (spid % 64)

/-! ### Device state -/

/-- The leader half (19_register_map TOP_LEADER). -/
def State.leader (s : State) : Half := halfOf (s.fld topLeaderLeader)

/-- The device is in DF (15_faults R346). -/
def State.df (s : State) : Bool := s.flag topDeviceDf

/-- The device is a KF-9624-S (00_scope R4). -/
def State.isS (s : State) : Bool := s.fuses.orderCode == 1

/-- The register field and bit that show a unit fenced (15_faults FLT_FENCED). -/
def fencedBit (u : Nat) : Option (Fld × Nat) :=
  let i := u % 0x1000
  match u / 0x1000 with
  | 1 => some (fltFenced0Channel, i)
  | 2 => some (fltFenced0Port, i)
  | 3 => some (fltFenced1Comp, i)
  | 4 => some (fltFenced1Decomp, i)
  | 5 => some (fltFenced1Crypto, i)
  | 6 => some (fltFenced2Sram, i)
  | 7 => some (fltFenced0Strait, i)
  | 8 => some (fltFenced0D2d, 0)
  | 9 => some (fltFenced0Half, i)
  | _ => none

/-- A unit is fenced. -/
def State.fenced (s : State) (u : Nat) : Bool :=
  match fencedBit u with
  | some (f, i) => s.bit f i
  | none => false

/-- The state with a unit's fence bit set or cleared. -/
def State.setFenced (s : State) (u : Nat) (b : Bool) : State :=
  match fencedBit u with
  | some (f, i) => s.setBit f i b
  | none => s

/-- A unit, or the half that contains it, is fenced. -/
def State.fencedIn (s : State) (u : Nat) : Bool :=
  s.fenced u || (match unitHalf u with | some h => s.fenced (uHalf h) | none => false)

/-! ### When a register can be reached (19_register_map R411 to R414; 17_boot R380, R393, R395) -/

/-- The phase of the boot (17_boot Table 17.1). -/
def State.phase (s : State) : Nat := s.fld bootStatusPhase

/-- The boot enters a phase: BOOT_STATUS.PHASE, and BOOT_T_n for phases 0 to 8, in µs from t = 0 (17_boot R379). -/
def State.enterPhase (s : State) (n : Nat) : State :=
  let s := s.setFld bootStatusPhase n
  if n ≤ 8 then s.setFld (bootTTUs n) ((s.now - s.boot.t0) / 1000) else s

/-- The device is in OFF, in DEEP_SLEEP, or its management cores are not released (R412). -/
def State.regsShut (s : State) : Bool :=
  !s.boot.running || s.fld pwrStatusDeviceState == 2
    || (s.fld pwrStatusDeviceState == 3 && !(s.halves.a.coreRunning && s.halves.b.coreRunning))

/-- What a write goes to, for R380, R393 and R395: an ordinary register, FLT_ACK or a pin control, a BOOT_FLASH register. -/
inductive RegKind where
  | plain | ack | flash
  deriving DecidableEq, Repr

/-- A register is held in a half that is fenced as the follower (R411). -/
def State.heldAway (s : State) (held : Option Half) : Bool :=
  match held with
  | some h => h != s.leader && s.fenced (uHalf h.idx)
  | none => false

/-- A register can be reached: `shore` those of the PWR, HSW and TB blocks (R412); in Boot Hold none (01_architecture R43). -/
def State.regReach (s : State) (shore : Bool) : Bool :=
  if s.regsShut then shore && s.power.auxGood else s.phase != 9

/-- A write of the privileged view is taken. -/
def State.takesWrite (s : State) (kind : RegKind) (shore : Bool) (held : Option Half) : Bool :=
  s.regReach shore && !s.heldAway held
    && (s.regsShut || s.phase == 7 || s.phase == 8
      || (match kind with
          | .plain => false
          | .ack => true
          | .flash => s.phase == 10))

/-- A write of the privileged view: what it does where it is taken. -/
def State.write (s : State) (kind : RegKind) (shore : Bool) (held : Option Half) (f : State → State) : State :=
  if s.takesWrite kind shore held then f s else s

/-- A write to an RWT register of a commit group: ignored while the group is sealed (11_tide_clock R271), else it marks the
group's shadows (R414). -/
def State.groupWrite (s : State) (g : Nat) (f : State → State) : State :=
  if s.bit topCommitStatusSealed g then s.setFlag topCommitStatusSealedWrite true
  else (f s).setBit topShadowStatusDirty g true

/-- Fold a state function over a list. -/
def State.each {α : Type} (s : State) (xs : List α) (f : State → α → State) : State := xs.foldl f s

end Sys2Proof.Machine
end

