-- ==== Sys2Proof/Machine/Records.lean ====
section
/-! DEFINITION. Fault records: detection, merging, masking, the ring, the logbook copy, what hosts and the fabric manager
are told, and the poison table (15_faults R336 to R341, R345, R349 to R351). The reactions to a UCF and a DF are in
Fence.lean. -/

namespace Sys2Proof.Machine

/-- A detection (15_faults R335): name code, class, unit, and what the record names. -/
structure Det where
  code : Nat
  cls : Nat
  unit : Nat
  dom : Option Nat := none
  addr : Option (Nat × Nat) := none
  ma : Option Nat := none
  req : Option Nat := none
  detail : Nat := 0
  facing : Option Nat := none
  deriving DecidableEq, Repr

/-! ### Pins (R348, R349) -/

/-- PIN_ASSERTED follows the hardware latch and SW_ASSERT; the pin is active low (R348). -/
def State.errPin (s : State) : State :=
  let on := s.flag fltErrPinCtrlHwLatched || s.flag fltErrPinCtrlSwAssert || s.pins.errHeld
  if s.flag fltErrPinCtrlPinAsserted == on then s
  else (s.setFlag fltErrPinCtrlPinAsserted on).emit (.pin "ERR_N" (!on))

/-- The same for ALARM_N (R349). -/
def State.alarmPin (s : State) : State :=
  let on := s.flag fltAlarmPinCtrlHwLatched || s.flag fltAlarmPinCtrlSwAssert
  if s.flag fltAlarmPinCtrlPinAsserted == on then s
  else (s.setFlag fltAlarmPinCtrlPinAsserted on).emit (.pin "ALARM_N" (!on))

/-- A hardware assertion of ERR_N: it starts the 2 ms phase and cancels a pending RELEASE (R348). -/
def State.assertErr (s : State) : State :=
  (((s.setFlag fltErrPinCtrlHwPhase true).setFlag fltErrPinCtrlHwLatched true).setFlag
    fltErrPinCtrlReleasePending false).errPin

/-- A hardware assertion of ALARM_N (R349). -/
def State.assertAlarm (s : State) : State :=
  (((s.setFlag fltAlarmPinCtrlHwPhase true).setFlag fltAlarmPinCtrlHwLatched true).setFlag
    fltAlarmPinCtrlReleasePending false).alarmPin

/-! ### The words of a record (Table 15.4) -/

/-- A field of a word. -/
def at_ (lsb v : Nat) : Nat := v * 2 ^ lsb

/-- The eight words of a record. -/
def FaultRec.words (r : FaultRec) (ldKind : Bool) : List Nat :=
  [ r.seq + at_ 32 r.cls + at_ 34 r.maxCls + at_ 36 (b2n r.isOpen) + at_ 37 (b2n r.acked) + at_ 38 (b2n r.logged)
      + at_ 39 (b2n r.aggregate) + at_ 40 r.unit,
    r.name + at_ 16 r.secCount + at_ 32 r.lastName + at_ 48 r.lastUnit,
    r.time, r.timeLast,
    (r.dom.getD 0) + at_ 10 (b2n r.dom.isSome) + at_ 11 (b2n r.addr.isSome) + at_ 12 (b2n ldKind)
      + at_ 13 (b2n r.ma.isSome) + at_ 14 (b2n r.req.isSome) + at_ 16 (r.req.getD 0)
      + at_ 32 ((r.addr.map (·.2)).getD 0),
    (r.addr.map (·.1)).getD 0,
    r.ma.getD 0,
    r.detail ]

/-- The host copy: MA and MA_VALID zero, and the indices of UNIT fields other than host ports zero; ADDR is given (R351). -/
def FaultRec.hostWords (r : FaultRec) (ldAddr : Option Nat) : List Nat :=
  let hide := fun u => if u / 0x1000 = 2 then u else u / 0x1000 * 0x1000
  ({ r with
      unit := hide r.unit, lastUnit := hide r.lastUnit, ma := none,
      addr := r.addr.bind (fun a => ldAddr.map (fun l => (l, a.2))) } : FaultRec).words ldAddr.isSome

/-! ### Who is told (R350, R351) -/

/-- An LD to which R350 would send a record, by its address, its domain and its class; with the LD-DPA where there is one. -/
def State.tells (s : State) (r : FaultRec) (p n : Nat) : Option (Option Nat) :=
  match r.addr, r.dom with
  | some a, some d =>
    match s.dpaToLd p n a.1 with
    | some l => if s.ownerLd d p n then some (some l) else if r.cls ≥ clsUcf then some none else none
    | none => if r.cls ≥ clsUcf then some none else none
  | _, some d => if s.ownerLd d p n || r.cls ≥ clsUcf then some none else none
  | _, none => if r.cls ≥ clsUcf then some none else none

/-- The CXL event log and record kind of a name (Table 15.8): log 0 to 3, kind 0 General Media, 1 DRAM, 2 Memory Module. -/
def eventOf (r : FaultRec) (ceEn : Bool) : Option (Nat × Nat) :=
  if r.cls = clsDf then some (3, 2)
  else if r.cls = clsUcf then some (1, 2)
  else if r.name = cDmcCe then (if ceEn ∧ r.addr.isSome then some (0, 1) else none)
  else if r.name = cDmcUe then some (2, 1)
  else if (cShgIllegalCode ≤ r.name ∧ r.name ≤ cShgCrcMismatch) ∨ (r.name = cSecurityAlarm ∧ r.detail % 16 = 1)
      ∨ r.name = cProtSubtreeFenced ∨ r.name = cMapMetaLost ∨ r.name = cTtOversize ∨ r.name = cRqBiTimeout
      ∨ r.name = cTierLostWrite ∨ r.name = cTierCommitNoMedia ∨ r.name = cShgPromoteNoMedia ∨ r.name = cFltItemFailed
    then some (2, 0)
  else none

/-- Capacity of a CXL event log (R350). -/
def eventCap (log : Nat) : Nat := if log = 3 then 16 else 64

/-- A record written to an LD's CXL event log (R350). -/
def State.logEvent (s : State) (fn log : Nat) (e : EventRec) : State :=
  { s with events := cellPut [] s.events (fn * 4 + log) ((e :: cellGet [] s.events (fn * 4 + log)).take (eventCap log)) }

/-- An event record in the Failure log of each LD that R350 gives a record of its address (log 132). -/
def State.eventLog (s : State) (name d dpa lines : Nat) : State :=
  s.each s.lds fun s pn =>
    match s.dpaToLd pn.1 pn.2 dpa with
    | some l =>
      if s.ownerLd d pn.1 pn.2 then s.logEvent (fnOf pn.1 pn.2) 2 { kind := 0, name, addr := some (l, lines), time := s.tns } else s
    | none => s

/-- An event record that names a domain and a DPA range and is no fault record: a General Media Event Record in the Failure log of
each LD that R350 gives a record of that address, and an event of the fabric manager (log 132). -/
def State.eventRecord (s : State) (name : Nat) (event : String) (d dpa lines : Nat) : State :=
  (s.eventLog name d dpa lines).toFm event [d, dpa, lines]

/-- A copy of a record written to an LD's Clairoa event ring (R351). -/
def State.ringCopy (s : State) (fn : Nat) (words : List Nat) : State :=
  let prod := s.fld (uvEvtProdProd fn)
  let s := s.each (List.range 8) fun s i => s.setReg (uvEvt fn (prod % 64 * 8 + i)) (BitVec.ofNat 64 (nth 0 words i))
  let full := (prod + 65536 - s.fld (uvEvtConsCons fn)) % 65536 + 1 > 64
  let s := s.setFld (uvEvtProdProd fn) (prod + 1)
  let s := if full then s.setFlag (uvEvtStatusOverflow fn) true else s
  if s.feature fn 3 && s.flag (uvEvtCtrlIntrEn fn) then s.msix fn (s.fld (uvEvtCtrlMsixVec fn)) else s

/-- A record told to the LDs (R350, R351). -/
def State.tellHosts (s : State) (r : FaultRec) : State :=
  let ev := eventOf r (s.flag fltCfgHostCeEn)
  let ce := r.cls = clsCe ∧ r.addr.isSome ∧ s.flag fltCfgHostCeEn
  s.each s.lds fun s pn =>
    let fn := fnOf pn.1 pn.2
    match s.tells r pn.1 pn.2 with
    | none => s
    | some la =>
      let s := match ev with
        | some (log, kind) => s.logEvent fn log { kind, name := r.name, addr := la.bind (fun l => r.addr.map (fun a => (l, a.2))), time := r.time }
        | none => s
      if ev.isSome ∨ ce then s.ringCopy fn (r.hostWords la) else s

/-- The values by which a record is pushed to the fabric manager (19_register_map Table 19.3). -/
def State.pushRecord (s : State) (r : FaultRec) : State :=
  if s.fmFeature 2 then s.emit (.pushed s.fmPath "FAULT_RECORD" (r.words false)) else s

/-! ### The ring and the logbook (R336 to R338) -/

/-- A record copied to the logbook, unless it is worn (R337, 16_power R378). -/
def State.logRecord (s : State) (r : FaultRec) : State :=
  if s.flag fltStatusLogbookRo then s
  else { s with power := { s.power with logbook := (r :: s.power.logbook).take 16384, lastTime := s.tns } }

/-- A record closes: it is logged (a CE record only with LOG_CE_EN) and pushed (R337, R338, R416). -/
def State.closeRecord (s : State) (seq : Nat) : State :=
  match s.records.find? (fun r => r.seq == seq && r.isOpen) with
  | none => s
  | some r =>
    let log := (r.maxCls > clsCe || s.flag fltCfgLogCeEn) && !s.flag fltStatusLogbookRo
    let r' := { r with isOpen := false, logged := r.logged || log }
    let s := { s with records := mapFirst (fun q => q.seq == seq) (fun _ => r') s.records }
    let s := s.setFld fltStatusOpen (s.fld fltStatusOpen - 1)
    let s := if log then s.logRecord r' else s
    s.pushRecord r'

/-- The next SEQ (R336). -/
def seqAfter (n : Nat) : Nat := if n = 0xFFFFFFFF then 1 else n + 1

/-- A new record of a detection, as it stands at its opening (Table 15.4). -/
def State.recordOf (s : State) (d : Det) (agg : Bool) : FaultRec :=
  { seq := s.fld fltStatusNextSeq, cls := d.cls, maxCls := d.cls, isOpen := true, acked := false, logged := false,
    aggregate := agg, unit := d.unit, name := d.code, secCount := 0, lastName := 0, lastUnit := 0, time := s.tns,
    timeLast := s.tns, dom := d.dom, addr := d.addr, ma := d.ma, req := d.req, detail := d.detail, openedAt := s.now }

/-- A record enters the ring: the occupant of its slot is closed and overwritten, a UCF or DF is logged at once, hosts and
the fabric manager are told. Answers whether it overwrote an unacknowledged record (R336, R337). -/
def State.enter (s : State) (d : Det) (agg : Bool) : State × Bool :=
  let r0 := s.recordOf d agg
  let occ := s.records.find? (fun q => q.seq % 4096 == r0.seq % 4096)
  let s := match occ with
    | some q => if q.isOpen then s.closeRecord q.seq else s
    | none => s
  let early := decide (d.cls ≥ clsUcf) && !s.flag fltStatusLogbookRo
  let r := { r0 with logged := early }
  let s := { s with records := r :: s.records.filter (fun q => q.seq % 4096 != r.seq % 4096) }
  let s := (s.setFld fltStatusNextSeq (seqAfter r.seq)).setFld fltStatusOpen (s.fld fltStatusOpen + 1)
  let s := if early then s.logRecord r else s
  let s := (s.tellHosts r).pushRecord r
  let wrap := match occ with | some q => !q.acked | none => false
  (if wrap then s.setFlag fltStatusWrapped true else s, wrap)

/-- The oldest open record that a detection merges into, and whether as consequential (R339). -/
def State.mergeTarget (s : State) (d : Det) : Option (FaultRec × Bool) :=
  if d.cls = clsDf then none
  else
    let open_ := (s.records.filter (fun r => r.isOpen && r.name != cTierLostWrite && r.name != cFltItemFailed)).reverse
    if d.code = cSecurityAlarm then
      (open_.find? (fun r => r.name == cSecurityAlarm && r.unit == d.unit && r.detail % 16 == d.detail % 16)).map (·, false)
    else
      let case1 := fun (r : FaultRec) => d.unit != 0 && unitIn d.unit r.unit
      let case2 := fun (r : FaultRec) => unitNear d.unit r.unit && s.fenced r.unit && d.facing == some r.unit
      (open_.find? (fun r => case1 r || case2 r)).map (fun r => (r, !case1 r))

/-- A detector is masked: its unit is in reset or stays fenced (R341). -/
def State.masked (s : State) (d : Det) : Bool := s.fencedIn d.unit

/-- What a detection came to: masked, consequential, or to be answered in full. -/
inductive Noted where
  | masked | consequential | full
  deriving DecidableEq, Repr

/-- A detection counted by its class (FLT_CNT). -/
def State.countClass (s : State) (cls : Nat) : State :=
  match cls with
  | 0 => s.count fltCntCe 1
  | 1 => s.count fltCntUcr 1
  | 2 => s.count fltCntUcf 1
  | _ => s

/-- A detection recorded: masked, merged, or opening a record; `fuel` bounds the record FLT_RING_WRAP of a wrap. -/
def State.noteN : Nat → State → Det → State × Noted
  | 0, s, _ => (s, .full)
  | fuel + 1, s, d =>
    if s.masked d then (s.count fltCntMasked 1, .masked)
    else
      let s := s.countClass d.cls
      let s := if d.code = cSecurityAlarm ∧ s.flag protCfgAlarmPinEn then s.assertAlarm else s
      match s.mergeTarget d with
      | some (r, cons) =>
        let upd := fun (q : FaultRec) =>
          { q with secCount := satAdd 16 q.secCount 1, maxCls := max q.maxCls d.cls, lastName := d.code,
                   lastUnit := d.unit, timeLast := s.tns }
        let s := { s with records := mapFirst (fun q => q.seq == r.seq) upd s.records }
        (s.count fltCntMerged 1, if cons then .consequential else .full)
      | none =>
        let (s, wrap) := s.enter d false
        if wrap then ((noteN fuel s { code := cFltRingWrap, cls := clsCe, unit := uDevice }).1, .full) else (s, .full)

/-- A detection recorded, with what it came to. -/
def State.noteR (s : State) (d : Det) : State × Noted := State.noteN 3 s d

/-- A CE or UCR detection recorded. -/
def State.note (s : State) (d : Det) : State := (s.noteR d).1

/-- A detection with no more than a name, a class and a unit. -/
def State.say (s : State) (code cls unit : Nat) : State := s.note { code, cls, unit }

/-- An item record of an episode (R344): it is not counted and merges nowhere. -/
def State.itemRecord (s : State) (d : Det) (agg : Bool) : State :=
  let (s, wrap) := s.enter { d with code := cFltItemFailed, cls := clsUcr } agg
  if wrap then s.say cFltRingWrap clsCe uDevice else s

/-! ### The poison table (R345) -/

/-- Entries of a half's poison table (R345). -/
def poisonMax : Nat := 8192

/-- Lines added to the poison table; when it is full the first line not listed gives the overflow time (R345). -/
def State.addPoison (s : State) (h : Half) (dom line len : Nat) (external : Bool) : State :=
  let t := s.poison.get h
  if t.any (fun e => e.dom == dom && e.line ≤ line && line + len ≤ e.line + e.len && e.external == external) then s
  else if t.length < poisonMax then
    { s with poison := s.poison.set h (t ++ [{ half := h, dom, line, len, external }]) }
  else if (s.poisonOvf.get h).isSome then s
  else { s with poisonOvf := s.poisonOvf.set h (some (s.tns, false)) }

/-- Pieces of an entry that are left when lines `line .. line + len - 1` leave it. -/
def PoisonEntry.minus (e : PoisonEntry) (line len : Nat) : List PoisonEntry :=
  let a := if e.line < line then [{ e with len := min e.len (line - e.line) }] else []
  let b := if line + len < e.line + e.len then
      [{ e with line := max e.line (line + len), len := e.line + e.len - max e.line (line + len) }] else []
  a ++ b

/-- The overflow clears when the table is below 7,168 entries after a covering scan (R345). -/
def ovfAfter (n : Nat) : Option (Nat × Bool) → Option (Nat × Bool)
  | some (t, true) => if n < 7168 then none else some (t, true)
  | o => o

/-- A stored line leaves the table: its entry is shrunk, or split while the table has room (R345). -/
def State.dropPoison (s : State) (h : Half) (dom line len : Nat) : State :=
  let rec go (room : Nat) : List PoisonEntry → List PoisonEntry
    | [] => []
    | e :: es =>
      if e.dom == dom && e.line < line + len && line < e.line + e.len then
        let ps := e.minus line len
        if ps.length ≤ 1 + room then ps ++ go (room - (ps.length - 1)) es else e :: go room es
      else e :: go room es
  let t := s.poison.get h
  let left := go (poisonMax - t.length) t
  { s with poison := s.poison.set h left, poisonOvf := s.poisonOvf.upd h (ovfAfter left.length) }

/-- A line is listed as poisoned. -/
def State.listed (s : State) (h : Half) (dom line : Nat) : Bool :=
  (s.poison.get h).any (fun e => e.dom == dom && e.line ≤ line && line < e.line + e.len)

end Sys2Proof.Machine
end

