-- ==== Sys2Proof/Machine/PmuCore.lean ====
section
/-! DEFINITION. Counting and sampling: what the performance counter unit does as the other blocks work (18_pmu R396 to
R406). The commands of the unit are in Pmu.lean. -/

namespace Sys2Proof.Machine

/-- Blocks of Table 18.1. -/
abbrev bHp : Nat := 0
abbrev bRq : Nat := 1
abbrev bMap : Nat := 2
abbrev bQos : Nat := 3
abbrev bDmc : Nat := 4
abbrev bShg : Nat := 5
abbrev bProt : Nat := 6
abbrev bTier : Nat := 7
abbrev bTw : Nat := 8
abbrev bMir : Nat := 9
abbrev bOfl : Nat := 10
abbrev bD2d : Nat := 11

/-- Events marked D (Table 18.1): the ones DOM_EN filters. -/
def eventD (block ev : Nat) : Bool :=
  match block with
  | 0 => ev ≤ 1
  | 1 => ev == 3 || ev == 4
  | 2 => ev ≤ 3 || ev == 5
  | 3 => ev ≤ 2
  | 5 => ev ≤ 3 || ev == 5
  | 6 => ev ≤ 5
  | 7 => ev ≤ 3
  | 9 => ev == 0 || ev == 1 || ev == 3
  | _ => false

/-- Adds to a 48-bit counter; a wrap sets its sticky bit (R396). -/
def State.addCounter (s : State) (f ovf : Fld) (bit n : Nat) : State :=
  let v := s.fld f + n
  let s := s.setFld f v
  if v ≥ 2 ^ 48 then s.setBit ovf bit true else s

/-- General counter `n` of half `i` takes event `ev` of a block's instance (R397, R398, Table 18.1). -/
def State.counterTakes (s : State) (i n block inst ev : Nat) (dom : Option Nat) : Bool :=
  s.flag (pmuCtlEnable i n) && s.fld (pmuCtlBlock i n) == block && s.fld (pmuCtlEvent i n) == ev
    && (s.fld (pmuCtlInstance i n) == inst || s.fld (pmuCtlInstance i n) == 31)
    && (!(s.flag (pmuCtlDomEn i n) && eventD block ev) || dom == some (s.fld (pmuCtlDomain i n)))

/-- A pulse event occurs `n` times (R397): LEVEL adds the occurrences, EDGE adds one (log 12). -/
def State.pulses (s : State) (h : Half) (block inst ev : Nat) (dom : Option Nat) (n : Nat) : State :=
  if s.flag pmuGlobalFreeze ∨ n = 0 then s
  else
    let i := h.idx
    s.each (List.range 64) fun s k =>
      if s.counterTakes i k block inst ev dom then
        s.addCounter (pmuCntCount i k) (pmuOvfGenOvf i) k (if s.flag (pmuCtlMode i k) then 1 else n)
      else s

/-- A pulse event occurs once. -/
def State.pulse (s : State) (h : Half) (block inst ev : Nat) (dom : Option Nat) : State := s.pulses h block inst ev dom 1

/-- A fixed counter advances (Table 18.2). -/
def State.fixed (s : State) (h : Half) (k n : Nat) : State :=
  if s.flag pmuGlobalFreeze then s else s.addCounter (pmuFixCount h.idx k) (pmuOvfFixOvf h.idx) k n

/-- A user counter of an LD advances (R400, Table 18.6). -/
def State.userCount (s : State) (fn k n : Nat) : State :=
  s.setFld (uvPmuCount fn k) (s.fld (uvPmuCount fn k) + n)

/-! ### Request sampling (R401 to R405) -/

/-- Half whose unit counts a request: that of its port (R401). -/
def Req.ingress (r : Req) : Half :=
  match r.org with
  | .host p _ => portHalf p
  | .offload fn _ _ => portHalf (fn / 17)
  | .mirror l _ _ => l
  | .internal => r.home

/-- A request is eligible and passes PMU_SMP_FILTER (R401). -/
def State.sampleAdmits (s : State) (r : Req) : Bool :=
  let i := r.ingress.idx
  let isRd := decide (r.kind = .rd)
  (match r.org with
    | .host _ _ => true
    | .offload _ _ _ => s.flag (pmuSmpFilterOffload i)
    | _ => false)
  && (if isRd then s.flag (pmuSmpFilterReads i) else s.flag (pmuSmpFilterWrites i))
  && (if s.flag (pmuSmpFilterDomEn i) then r.hasDom && r.dom == s.fld (pmuSmpFilterDomain i) else true)
  && (!r.hasDom || s.bit (pmuSmpFilterClassMask i) (s.eff (domPolicyTclass r.dom)))

/-- A fresh draw of the countdown (R401). -/
def State.drawCount (s : State) (h : Half) : State :=
  let (v, s) := s.freeNat
  let n := s.fld (pmuSmpCfgPeriod h.idx) + v % (s.fld (pmuSmpCfgWindow h.idx) + 1)
  { s with pmu := s.pmu.upd h (fun u => { u with count := n }) }

/-- Record builders in use in a half (R402). -/
def State.builders (s : State) (h : Half) : Nat :=
  (s.reqs.filter (fun r => r.sampled && r.ingress == h)).length

/-- A request is counted at stage 2 and, when the count reaches 0, takes a record builder (R401, R402, R404). -/
def State.sampleAt2 (s : State) (r : Req) : State × Req :=
  let h := r.ingress
  let i := h.idx
  if !s.flag (pmuSmpCfgEnable i) || !s.sampleAdmits r then (s, r)
  else
    let c := (s.pmu.get h).count
    if c > 1 then ({ s with pmu := s.pmu.upd h (fun u => { u with count := c - 1 }) }, r)
    else
      let s := s.drawCount h
      let used := (s.fld (pmuSmpStatusProd i) + 2 ^ 32 - s.fld (pmuSmpConsCons i)) % 2 ^ 32
      if s.builders h ≥ 64 ∨ (s.flag (pmuSmpCfgMode i) ∧ used + s.builders h ≥ 4096) then
        (s.count (pmuSmpStatusMissed i) 1, r)
      else (s, { r with sampled := true })

/-- A duration in 10 ps units, saturating (R403). -/
def tenPs (a b : Nat) : Nat := min ((b - a) * 100) 0xFFFFFFFF

/-- The eight words of a sample record (Table 18.3), with the address and its kind. -/
def State.sampleWords (s : State) (r : Req) (seq devLoad : Nat) : List Nat :=
  let t := r.stamps
  let (src, fabric, port, ld, spid) := match r.org with
    | .host p id => if s.gfam p then (0, 1, p, 0, id) else (0, 0, p, id, 0)
    | .offload fn _ _ => (1, 0, fn / 17, fn % 17, 0)
    | _ => (0, 0, 0, 0, 0)
  let op := match r.kind with | .rd => 0 | .wr => 1 | .wrPtl => 2 | _ => 3
  let d := if r.hasDom then 1 else 0
  let mirror := if t.mirror > t.dram then t.mirror - t.dram else 0
  let done := max (max t.dram t.crypto) (max t.decoded t.mirror)
  [ t.tide,
    r.rid + at_ 16 (d * r.dom) + at_ 26 op + at_ 28 (d * r.pstate) + at_ 31 (b2n r.ccHit)
      + at_ 32 (d * s.eff (domPolicyProt r.dom)) + at_ 34 (d * r.cls) + at_ 37 (d * r.color) + at_ 39 r.excl
      + at_ 43 (b2n r.replayed) + at_ 44 src + at_ 45 fabric + at_ 46 port + at_ 50 ld + at_ 54 r.home.idx
      + at_ 55 (1 - d),
    r.dpa % 2 ^ 48 + at_ 48 spid,
    tenPs t.arrive t.enqueue + at_ 32 (min (tenPs t.enqueue t.release + tenPs t.mapped t.issue) 0xFFFFFFFF),
    tenPs t.release t.mapped + at_ 32 (tenPs t.issue t.dram),
    tenPs t.dram t.crypto + at_ 32 (tenPs (max t.dram t.crypto) t.decoded),
    tenPs done s.now + at_ 32 (min (mirror * 100) 0xFFFFFFFF),
    seq + at_ 32 devLoad ]

/-- The little-endian bytes of eight words. -/
def wordsBytes (ws : List Nat) : List Byte := ws.flatMap (leBytes 8)

/-- The copy of a record in the stream of an LD (R405). -/
def State.streamCopy (s : State) (r : Req) (ws : List Nat) : State :=
  let i := r.ingress.idx
  let p := s.fld (pmuStreamLdPort i)
  let n := s.fld (pmuStreamLdLd i)
  let fn := fnOf p n
  let size := s.fld (uvSmpCfgSizeLog2 fn)
  if !(s.flag (pmuStreamLdEn i) && s.feature fn 5 && s.flag (uvSmpCfgEnable fn) && r.hasDom
        && s.ownerLd r.dom p n && decide (6 ≤ size ∧ size ≤ 16)) then s
  else
    let prod := s.fld (uvSmpProdProd fn)
    if !(s.func fn).bme ∨ (prod + 2 ^ 32 - s.fld (uvSmpConsCons fn)) % 2 ^ 32 = 2 ^ size then
      s.count (uvSmpStatusDropped fn) 1
    else
      let own := match r.org with
        | .host p' id => p' == p && !s.gfam p' && id == n
        | .offload fn' _ _ => fn' == fn
        | _ => false
      let w1 := nth 0 ws 1
      let w1 := if own then w1 else withBits (withBits w1 0 16 0) 46 8 0
      let w2 := nth 0 ws 2
      let w2 := withBits w2 0 48 ((s.dpaToLd p n r.dpa).getD 0)
      let w2 := withBits (if own then w2 else withBits w2 48 12 0) 60 1 1
      let ws := (ws.set 1 w1).set 2 w2
      let addr := s.fld (uvSmpBaseBase fn) * 4096 + prod % 2 ^ size * 64
      (s.emit (.dmaWrite fn addr (wordsBytes ws))).setFld (uvSmpProdProd fn) (prod + 1)

/-- The record of a sampled request is written, and streamed (R402 to R405). -/
def State.sampleDone (s : State) (r : Req) (devLoad : Nat) : State :=
  if !r.sampled then s
  else
    let i := r.ingress.idx
    let seq := (s.fld (pmuSmpStatusProd i) + 1) % 2 ^ 32
    let ws := s.sampleWords r seq devLoad
    let slot := (seq + 4096 - 1) % 4096
    let s := s.each (List.range 8) fun s k =>
      s.setReg (pmuSmpRing i (slot * 8 + k)) (BitVec.ofNat 64 (nth 0 ws k))
    let s := s.setFld (pmuSmpStatusProd i) seq
    s.streamCopy r ws

/-! ### Snapshots (R406) -/

/-- One half copies its counters (R406). -/
def State.snapHalf (s : State) (h : Half) (t : Nat) : State :=
  let i := h.idx
  let s := s.each (List.range 64) fun s k => s.setFld (pmuSnapCount i k) (s.fld (pmuCntCount i k))
  let s := s.each (List.range 8) fun s k => s.setFld (pmuSnapFixCount i k) (s.fld (pmuFixCount i k))
  (s.setFld (pmuSnapTimeTNs i) t).setFld (pmuSnapSeqSeq i) (s.fld (pmuSnapSeqSeq i) + 1)

end Sys2Proof.Machine
end

