-- ==== Sys2Proof/Machine/PowerCore.lean ====
section
/-! DEFINITION. Power domains, device states, voltage and frequency (16_power R353 to R366). The votes are
in Votes.lean, the commands in Power.lean. -/

namespace Sys2Proof.Machine

/-! ### Power domains and what keeps them up (R353 to R355) -/

/-- The Strait link is ACTIVE (12_strait TW_STATUS.STATE; WIDTH_CHANGE keeps the link up). -/
def State.straitUp (s : State) (l : Nat) : Bool := s.fld (twStatusState l) == 4 || s.fld (twStatusState l) == 5

/-- A link state keeps the link up for R354: L0, L0p or Recovery. -/
def linkBusy : LinkState → Bool
  | .l0 | .l0p | .recovery => true
  | _ => false

/-- An offload ring of a half holds a job in flight. -/
def State.offloadBusy (s : State) (h : Half) : Bool := s.jobs.any (fun j => portHalf (j.fn / 17) == h && !j.written)

/-- The half of a core, channel group, Strait or quad domain (Table 16.1). -/
def domainHalf (n : Nat) : Half :=
  if n < 2 then halfOf n else if n < 14 then halfOf ((n - 2) / 6) else if n < 16 then halfOf (n - 14) else halfOf ((n - 16) / 8)

/-- A domain is DOWN (R353). -/
def State.domainDown (s : State) (n : Nat) : Bool :=
  s.power.off || s.fld pwrStatusDeviceState == 2
    || ((n == 14 || n == 15) && s.isS)
    || (decide (16 ≤ n ∧ n < 32) && !s.ports.any (fun p => p.active && p.quads.contains (n - 16)))

/-- The level a domain runs at: 0 RUN, 1 IDLE, 2 SLEEP, 3 DOWN; the shore domain is always RUN (R353). -/
def State.level (s : State) (n : Nat) : Nat :=
  if n = 32 then (if s.power.off then 3 else 0)
  else if s.domainDown n then 3 else s.fld (pwrDomState n)

/-- Every domain that a port votes RUN is RUN (R355). -/
def State.portDomainsRun (s : State) (p : Nat) : Bool :=
  (List.range 32).all fun n => (n ≥ 14 && !(n ≥ 16 && (s.port p).quads.contains (n - 16))) || s.level n == 0

/-- Every domain that a Strait link votes RUN is RUN (R355). -/
def State.straitDomainsRun (s : State) (l : Nat) : Bool :=
  (List.range 16).all fun n =>
    !(n == 14 + l || (n < 14 && domainHalf n == halfOf l)) || s.level n == 0

/-! ### Requests for DEEP_SLEEP and OFF (R357, R363) -/

/-- A tide-table takeover is pending (R357). -/
def State.takeoverPending (s : State) : Bool := (List.range 26).any fun i => s.flag (ttStatusTakeoverPending i)

/-- The reason that refuses a request for DEEP_SLEEP or OFF, the lowest that holds; `queued` is the commit condition of
R357, `reserved` that of RESERVED_ENCODING (Table 16.6). -/
def State.powerReason (s : State) (queued reserved : Bool) : Nat :=
  if s.ports.any (fun p => p.active && (linkBusy p.link || p.link == .l1)) then 1
  else if s.straitUp 0 || s.straitUp 1 then 2
  else if s.offloadBusy .a || s.offloadBusy .b then 3
  else if reserved then 4
  else if queued || s.takeoverPending then 5
  else if s.fld mapZeroStatusState == 1 then 6
  else if s.flag protKeyResultBusy then 7
  else 0

/-- Entry starts: the request is taken, and DEVICE is cleared in both copies (R359, PWR_TARGET). -/
def State.startEntry (s : State) (off : Bool) : State :=
  let s := (s.setFld pwrTargetDevice 0).setFld pwrTargetDevice.eff 0
  { s.setFld pwrStatusDeviceState 1 with power := { s.power with entering := some off } }

/-- Exit from DEEP_SLEEP starts (R361, R362). -/
def State.startExit (s : State) (src : Nat) : State := (s.setFld pwrStatusDeviceState 3).setFld pwrStatusLastWake src

/-- A request is placed in the single-deep slot: 1 WAKE, 2 DEEP_SLEEP, 3 OFF; the newest wins (R363). -/
def State.placeSlot (s : State) (req src : Nat) : State :=
  let s := if s.fld pwrStatusSlot = 1 then
      (s.say cPwrWakeSuperseded clsCe uDevice).setFlag pwrEvtWakeSuperseded true else s
  { s.setFld pwrStatusSlot req with power := { s.power with wakeSrc := src } }

/-- A request that is not reachable is discarded and recorded (R363). -/
def State.discardRequest (s : State) : State := s.say cPwrRequestDiscarded clsCe uDevice

/-- A wake event of Table 16.8; `src` in the encoding of LAST_WAKE. -/
def State.wake (s : State) (src : Nat) : State :=
  match s.fld pwrStatusDeviceState with
  | 1 => s.placeSlot 1 src
  | 2 => s.startExit src
  | _ => s

/-! ### Voltage and frequency (R364, R365) -/

/-- The point at which a half's CCLK may run: the slowest of the target, the thermal cap and the supply cap (R364). -/
def State.wantedPoint (s : State) (h : Half) : Nat :=
  let (target, cap) := match h with
    | .a => (s.eff pwrTargetDvfsA, s.fld pwrStatusThermCapA)
    | .b => (s.eff pwrTargetDvfsB, s.fld pwrStatusThermCapB)
  max (max target cap) (if s.flag pwrStatusSupplyWarn then 3 else 0)

/-- The voltage target of a half: the point of PWR_TARGET (R364). -/
def State.voltTarget (s : State) (h : Half) : Nat :=
  match h with | .a => s.eff pwrTargetDvfsA | .b => s.eff pwrTargetDvfsB

/-- The field that reports a half's CCLK point. -/
def curDvfs : Half → Fld
  | .a => pwrStatusCurDvfsA
  | .b => pwrStatusCurDvfsB

/-- Frequency follows at once where voltage allows, and voltage moves one point towards its target (R364). -/
def State.dvfs (s : State) (h : Half) : State :=
  let d := s.power.dvfs.get h
  let s := s.setFld (curDvfs h) (max (s.wantedPoint h) (max d.volt (d.step.getD 0)))
  let t := s.voltTarget h
  if d.step.isSome ∨ d.volt = t then s
  else
    let next := if d.volt < t then d.volt + 1 else d.volt - 1
    ({ s with power := { s.power with dvfs := s.power.dvfs.set h { d with step := some next } } }).emit (.vr h next)

/-- Both halves. -/
def State.dvfsAll (s : State) : State := (s.dvfs .a).dvfs .b

/-! ### Refusals of the power targets group (R357, Table 16.6) -/

/-- Reserved encodings of the group's shadows (Table 16.6). -/
def State.powerReserved (s : State) : Bool :=
  s.fld pwrTargetDevice == 3 || (s.reg pwrTarget).toNat / 2 ^ 6 != 0
    || (List.range 32).any (fun n => bitsOf (s.fld pwrFmVote0Votes) (2 * n) 2 == 3)
    || s.fld pwrFmVote1Vote32 == 3 || (s.reg pwrFmVote1).toNat / 4 != 0

end Sys2Proof.Machine
end

