-- ==== Sys2Proof/Machine/TtCore.lean ====
section
/-! DEFINITION. Tide tables, windows, the guard band, and the class-0 guarantee (05_dram R144, Table 5.7; 09_qos R238 to
R244; 10_latency R251 to R254). The commands are in Qos.lean. -/

namespace Sys2Proof.Machine

/-! ### Rates and occupancies (05_dram Tables 5.1, 5.7) -/

/-- The data rate of an encoding of MAX_RATE, MT/s; 6 and 7 are treated as 5. -/
def rateOf (i : Nat) : Nat := nth 8800 [4800, 5600, 6400, 7200, 8000, 8800] i

/-- tRP, read, write and merge occupancies, in 0.1 ns (Table 5.7). -/
def trp10 (i : Nat) : Nat := nth 160 [183, 178, 175, 170, 165, 160] i
def occRead10 (i : Nat) : Nat := nth 502 [620, 590, 560, 538, 520, 502] i
def occWrite10 (i : Nat) : Nat := nth 860 [1040, 1000, 940, 910, 885, 860] i
def occMerge10 (i : Nat) : Nat := nth 1362 [1660, 1590, 1500, 1448, 1405, 1362] i

/-- The channel is trained and not fenced. -/
def State.chanUp (s : State) (c : Nat) : Bool := s.flag (dmcStatusTrained c) && !s.fencedIn (uChannel c)

/-- Both crypto clusters of the pair that serves a channel are fenced (08_protection R201). -/
def State.cryptoLost (s : State) (c : Nat) : Bool :=
  let k := c % 12 / 4 * 2
  s.fencedIn (uCrypto (c / 12) k) && s.fencedIn (uCrypto (c / 12) (k + 1))

/-- Requests to a channel are served: it is trained and not fenced, and so is a crypto cluster for it. -/
def State.serves (s : State) (c : Nat) : Bool := s.chanUp c && !s.cryptoLost c

/-- The breakwater by whose fence a channel does not serve. -/
def State.fencedBy (s : State) (c : Nat) : Nat := if s.chanUp c then uCryptoOf c else uChannel c

/-- Encoding of a channel's rate. -/
def State.chanRate (s : State) (c : Nat) : Nat := s.fld (dmcStatusRate c)

/-- Logical ranks on a channel. -/
def State.ranks (s : State) (c : Nat) : Nat :=
  2 ^ s.fld (dmcStatusRankBits c) * (if s.fld (dmcStatusPop c) = 2 then 2 else 1)

/-- W of R144 in units of 1 / (10 x rate) ns: exact. -/
def State.sweepExact (s : State) (c : Nat) : Nat :=
  let i := s.chanRate c
  (trp10 i + 900 + (if s.flag (dmcStatusDensity c) then 1300 else 1150)) * rateOf i + (s.ranks c - 1) * 160000

/-- W rounded up to 0.1 ns, and to 0.01 ns. -/
def State.sweep10 (s : State) (c : Nat) : Nat := ceilDiv (s.sweepExact c) (rateOf (s.chanRate c))
def State.sweep100 (s : State) (c : Nat) : Nat := ceilDiv (s.sweepExact c * 10) (rateOf (s.chanRate c))

/-! ### Lists -/

/-- The active and the pending list of a scheduler: durations and gates (R239). -/
def State.ttActive (s : State) (i : Nat) : List (Nat × Nat) :=
  (List.range (s.fld (ttStatusActLen i))).map fun k => (s.fld (ttActDuration i k), s.fld (ttActGate i k))
def State.ttPending (s : State) (i : Nat) : List (Nat × Nat) :=
  (List.range (s.fld (ttPendLenLen i))).map fun k => (s.fld (ttPendDuration i k), s.fld (ttPendGate i k))

/-- The cycle of a list. -/
def ttCycle (es : List (Nat × Nat)) : Nat := (es.map (·.1)).foldl (· + ·) 0

/-- The index of the entry open at an offset in the cycle, and the time left of it. -/
def entryAt : List (Nat × Nat) → Nat → Nat → Nat × Nat
  | [], _, k => (k, 0)
  | e :: es, t, k => if t < e.1 then (k, e.1 - t) else entryAt es (t - e.1) (k + 1)

/-- Durations of the leading entries that open a class. -/
def leadOpen (k : Nat) : List (Nat × Nat) → Nat
  | [] => 0
  | e :: es => if bitAt e.2 k then e.1 + leadOpen k es else 0

/-- Time from offset `t` of the cycle to the close of class `k`'s window, 0 where its gate is closed; none where the class
has no close (R239, R243). -/
def untilClose (es : List (Nat × Nat)) (t k : Nat) : Option Nat :=
  if es.all (fun e => bitAt e.2 k) then none
  else
    let (i, left) := entryAt es t 0
    if !bitAt (nth (0, 0) es i).2 k then some 0
    else some (left + leadOpen k (es.drop (i + 1) ++ es.take i))

/-- The windows of a class, open and close, of one cycle taken from its start, split at the cycle end (R241). -/
def windowsFrom (k : Nat) : Nat → List (Nat × Nat) → List (Nat × Nat)
  | _, [] => []
  | t, e :: es =>
    let rest := windowsFrom k (t + e.1) es
    if !bitAt e.2 k then rest
    else match rest with
      | (o, c) :: r => if o = t + e.1 then (t, c) :: r else (t, t + e.1) :: (o, c) :: r
      | [] => [(t, t + e.1)]

/-- A list turned so that it starts with an entry that class `k` does not have open; none where it is always open. -/
def turnTo (k : Nat) (es : List (Nat × Nat)) : Option (List (Nat × Nat)) :=
  match es.findIdx? (fun e => !bitAt e.2 k) with
  | some i => some (es.drop i ++ es.take i)
  | none => none

/-- The longest window of a class, counted cyclically; none where the class is always open. -/
def longestWindow (es : List (Nat × Nat)) (k : Nat) : Option Nat :=
  (turnTo k es).map fun t => (windowsFrom k 0 t).foldl (fun m w => max m (w.2 - w.1)) 0

/-! ### The load-time check (Table 9.4, R146) -/

/-- The refresh criterion in whole units: `w` a sweep, `tr` tREFI, `d` the debt times tREFI (R241's procedure). -/
def refreshLoop (w tr cycle : Nat) : Nat → List (Nat × Nat) → Int → Int → Int → Bool
  | 0, _, _, _, _ => false
  | _ + 1, [], t, d, _ => decide (d + ((cycle : Int) - t) ≤ 2 * tr)
  | n + 1, (o, c) :: ws, t, d, busy =>
    let st := max (max busy o) (t + ((tr : Int) - d))
    if st + w > c then refreshLoop w tr cycle n ws t d busy
    else
      let d' := d + (st - t)
      if d' > 4 * tr then false else refreshLoop w tr cycle n ((o, c) :: ws) st (d' - tr) (st + w)

/-- A list meets the refresh criterion on a channel (R146). -/
def State.refreshOk (s : State) (c : Nat) (es : List (Nat × Nat)) : Bool :=
  let u := 10 * rateOf (s.chanRate c)
  let ws := (windowsFrom 8 0 es).map fun w => (w.1 * u, w.2 * u)
  let cycle := ttCycle es
  refreshLoop (s.sweepExact c) (1950 * u) (cycle * u) (ws.length + cycle / 1000 + 8) ws 0 (2 * 1950 * u) 0

/-- The refusal of a pending bank: the first reason of Table 9.4. -/
def State.ttCheck (s : State) (i : Nat) : Nat :=
  let len := s.fld (ttPendLenLen i)
  let es := s.ttPending i
  if len = 0 then 1
  else if len > 64 then 2
  else if es.any (fun e => e.1 == 0) then 3
  else if ttCycle es > 1000000000 then 4
  else if (List.range len).any (fun k => (s.reg (ttPend i k)).toNat / 2 ^ 33 != 0) then 5
  else if i < 24 then (if s.chanUp i ∧ !s.refreshOk i es then 6 else 0)
  else if (List.range 9).any (fun k => match longestWindow es k with | some n => n < 8 | none => false) then 7
  else 0

/-- OVERSIZE_MASK of a list on a scheduler (R241). -/
def State.oversizeMask (s : State) (i : Nat) (es : List (Nat × Nat)) : Nat :=
  if i ≥ 24 ∨ !s.chanUp i then 0
  else
    (List.range 9).foldl (fun m k =>
      let need := if k = 8 then s.sweep100 i else occMerge10 (s.chanRate i) * 10
      match longestWindow es k with
      | some n => if n * 100 < need then m + 2 ^ k else m
      | none => m) 0

/-! ### The profile (R251, R252) -/

/-- Nanoseconds of QC0 alone at the end of a list. -/
def tailAlone (es : List (Nat × Nat)) : Nat :=
  (es.reverse.takeWhile (fun e => e.2 == 1)).foldl (fun a e => a + e.1) 0

/-- Clauses 2 to 4 for one maintenance window: its entries, and what precedes it; `w`, `or`, `ow` in 0.01 ns. -/
def windowOk (w or ow : Nat) (before win : List (Nat × Nat)) : Bool :=
  let len := ttCycle win * 100
  win.all (fun e => bitsOf e.2 1 7 == 0) && decide (w ≤ len ∧ len < w + or) && decide (ow ≤ tailAlone before * 100)

/-- Clauses 2 to 4 for every maintenance window of a list that starts outside one; `pre` is what precedes the list. -/
def windowsOk (w or ow : Nat) : Nat → List (Nat × Nat) → List (Nat × Nat) → Bool
  | 0, _, _ => true
  | n + 1, pre, es =>
    let gap := es.takeWhile (fun e => !bitAt e.2 8)
    let rest := es.dropWhile (fun e => !bitAt e.2 8)
    let win := rest.takeWhile (fun e => bitAt e.2 8)
    if win.isEmpty then true
    else windowOk w or ow (pre ++ gap) win && windowsOk w or ow n (pre ++ gap ++ win) (rest.dropWhile (fun e => bitAt e.2 8))

/-- W, O_r and O_w of a channel in 0.01 ns. -/
def State.occ100 (s : State) (c : Nat) : Nat × Nat × Nat :=
  (s.sweep100 c, occRead10 (s.chanRate c) * 10, occWrite10 (s.chanRate c) * 10)

/-- A list meets R251 on a channel. -/
def State.profileOf (s : State) (c : Nat) (es : List (Nat × Nat)) : Bool :=
  let (w, or, ow) := s.occ100 c
  es.all (fun e => bitAt e.2 0) && s.refreshOk c es
    && (match turnTo 8 es with
        | none => false
        | some t => windowsOk w or ow (t.length + 1) t t)

/-- The pending list meets R251, and so does the window at the junction with the active list (R252). -/
def State.junctionOf (s : State) (c : Nat) (act pend : List (Nat × Nat)) : Bool :=
  let (w, or, ow) := s.occ100 c
  let back := (act.reverse.takeWhile (fun e => bitAt e.2 8)).reverse
  let before := act.take (act.length - back.length)
  let front := pend.takeWhile (fun e => bitAt e.2 8)
  s.profileOf c pend && ((back ++ front).isEmpty || windowOk w or ow before (back ++ front))

/-! ### The contract and the bound (R253, R254) -/

/-- The domain holds a frame on a device channel. -/
def State.framesOn (s : State) (d c : Nat) : Bool :=
  s.media.any fun b =>
    b.half == chanHalf c && b.base / 2 ^ 34 == c % 12
      && (match b.owner with | .frame d' _ => d' == d | .bigFrame d' _ => d' == d | _ => false)

/-- The QC0 domains that hold frames on a channel. -/
def State.g0Doms (s : State) (c : Nat) : List Nat :=
  (List.range 1024).filter fun d => s.domOn d && s.eff (domPolicyTclass d) == 0 && s.framesOn d c

/-- QOS_G0_CH of one channel, computed (R252 to R254). -/
def State.g0Channel (s : State) (c : Nat) : State :=
  let i := s.chanRate c
  let (w, _, ow) := s.occ100 c
  let ds := s.g0Doms c
  let times := fun d => if s.eff (domPolicyProt d) = 2 then 2 else 1
  let sum := fun (f : Nat → Fld) => (ds.map (fun d => times d * s.eff (f d))).foldl (· + ·) 0
  let n := sum qosPolACbs - 1
  let limit := if w + (n + 1) * ow = 0 then 0 else 6400000 / (w + (n + 1) * ow)
  let up := s.chanUp c
  let bounded := up && decide (2 ≤ i)
  let bound := (if i = 5 then 17000 else 17700) + 400 + ceilDiv 800000 (rateOf i) + w + n * ow
  let prof := up && s.profileOf c (s.ttActive c)
  let pend := up && s.fld (ttStatusPendState c) == 2 && s.ttCheck c == 0
    && s.junctionOf c (s.ttActive c) (s.ttPending c)
  let contract := up && ds.all (fun d => s.effFlag (qosPolAEn d)) && decide (n ≤ 31)
    && decide (n + 1 ≤ s.fld rqCfgQc0WbReserve) && decide (sum qosPolACir ≤ limit)
  let ok := prof && contract && bounded && decide (bound ≤ 52000) && decide ((s.sched c).junction ≤ s.tns)
  let s := s.setFld (qosG0ChBound10ps c) (if bounded then min bound 0xFFFE else 0xFFFF)
  let s := s.setFld (qosG0ChN c) (min n 31)
  let s := s.setFlag (qosG0ChProfileOk c) prof
  let s := s.setFlag (qosG0ChPendProfileOk c) pend
  let s := s.setFlag (qosG0ChContractOk c) contract
  let s := s.setFlag (qosG0ChGuaranteed c) ok
  s.setFld (qosG0ChCirLimit c) (if up then min limit (2 ^ 20 - 1) else 0)

/-- Every channel's guarantee computed anew (R254). -/
def State.guarantee (s : State) : State := s.each (List.range 24) fun s c => s.g0Channel c

/-! ### Gates and the guard band (R238, R243, R244) -/

/-- The offset of a tide-clock time in the cycle of the active list (R240). -/
def State.ttOffset (s : State) (i : Nat) (t : Nat) : Nat :=
  let cyc := max 1 (s.fld (ttActCycleCycleNs i))
  ((t : Int) - (s.fld (ttActStartStartNs i) : Int)).emod cyc |>.toNat

/-- The time by which a scheduler's sequencer acts: the local tide-clock counter of its half, ns (01_architecture R33;
11_tide_clock R259). -/
def State.schedNs (s : State) (i : Nat) : Nat :=
  (match (if i < 24 then chanHalf i else halfOf (i - 24)) with | .a => s.tide.localA | .b => s.tide.localB) / 2 ^ 40

/-- Class `k`'s gate is open in the entry in force. -/
def State.gateOpen (s : State) (i k : Nat) : Bool := bitAt (s.sched i).gate k

/-- Time to the close that limits class `k` now, over the active list up to a pending takeover and the pending list from
then on; none where there is no close (R243). -/
def State.closeIn (s : State) (i k : Nat) : Option Nat :=
  let act := s.ttActive i
  let here := untilClose act (s.ttOffset i (s.schedNs i)) k
  if !s.flag (ttStatusTakeoverPending i) then here
  else
    let left := s.fld (ttTakeoverAtAtNs i) - s.schedNs i
    let cut := match here with | none => true | some n => decide (left ≤ n)
    if !cut then here
    else (untilClose (s.ttPending i) 0 k).map (left + ·)

/-- A sequence of `occ` tenths of a nanosecond fits before the close of its class (R243). -/
def State.fits (s : State) (i k occ : Nat) : Bool :=
  match s.closeIn i k with
  | none => true
  | some n => decide (occ ≤ n * 10)

/-- A sequence is oversize for its class in the active list (R244). -/
def State.oversize (s : State) (i k occ : Nat) : Bool :=
  match longestWindow (s.ttActive i) k with
  | none => false
  | some n => decide (n * 10 < occ)

/-- DRAM is in self-refresh: in DF, and from the entry into DEEP_SLEEP to the end of its exit (15_faults R346; 16_power R359, R362). -/
def State.selfRefresh (s : State) : Bool := s.df || decide (2 ≤ s.fld pwrStatusDeviceState)

/-- A maintenance operation of `occ` tenths of a nanosecond may run on a channel now: the channel is up, the MC gate is open
and it fits. -/
def State.mcFits (s : State) (c occ : Nat) : Bool := s.chanUp c && !s.selfRefresh && s.gateOpen c 8 && s.fits c 8 occ

/-! ### Seals (11_tide_clock R271) -/

/-- QUEUED and SEALED follow the commit queue; the tide-tables group stays sealed while a takeover is pending (R271). -/
def State.sealTally (s : State) : State :=
  let taken := (List.range 26).any fun i => s.flag (ttStatusTakeoverPending i)
  let sealed := s.commits.foldl (fun (m : Nat) (e : CommitEntry) => m ||| e.groups) (if taken then 4 else 0)
  (s.setFld topCommitStatusQueued s.commits.length).setFld topCommitStatusSealed sealed

end Sys2Proof.Machine
end

