-- ==== Sys2Proof/Machine/Media.lean ====
section
/-! DEFINITION. Media: allocation and release, free media and headroom, capacity levels, usage registers, lost-write records
(03_domains R86, R89, R99; 06_shingle R161; 07_tiering R193 to R200; 08_protection R210). Media is counted in units of
256 B. -/

namespace Sys2Proof.Machine

/-! ### Channels of media (05_dram R133) -/

/-- Units in a channel's address field, in a 2 MiB extent, in a page, in a 512 KiB range. -/
def chanUnits : Nat := 2 ^ 34
def extUnits : Nat := 8192
def pageUnits : Nat := 16
def rangeUnits : Nat := 2048

/-- The device channel of a unit of a half's media. -/
def chanOf (h : Half) (unit : Nat) : Nat := 12 * h.idx + unit / chanUnits

/-- Device channels of a half. -/
def chansOf (h : Half) : List Nat := (List.range 12).map (12 * h.idx + ·)

/-- Data capacity of a channel, units; 0 unless it is trained and not fenced. -/
def State.chanCap (s : State) (c : Nat) : Nat := if s.chanUp c then s.fld (dmcStatusCapGib c) * 2 ^ 22 else 0

/-- The media of a unit lies on a fenced channel, or on a channel that is not there. -/
def State.mediaLost (s : State) (h : Half) (unit : Nat) : Bool := !s.chanUp (chanOf h unit)

/-- An MA names media of the half: MAP_ADDR_INVALID does not hold (R133). -/
def State.unitValid (s : State) (h : Half) (unit : Nat) : Bool :=
  decide (unit / chanUnits < 12)
    && decide (unit % chanUnits < s.fld (dmcStatusCapGib (chanOf h unit)) * 2 ^ 22)

/-! ### Free media -/

/-- The units that a block of media keeps from others: a P2 area keeps its whole 2 MiB protection block (R210). -/
def MediaBlk.span (b : MediaBlk) : Nat × Nat :=
  match b.owner with
  | .p2 _ _ => (b.base / extUnits * extUnits, extUnits)
  | _ => (b.base, b.len)

/-- Ranges of a channel in which nothing is allocated: retired, being retired, or under a soft repair (R151, R153). A range whose
retirement is deferred to the next lap is open to allocation until then (log 141). -/
def Channel.closed (c : Channel) : List Nat :=
  c.retired ++ c.retiring ++ (match c.soft with | some r => [r.key.range] | none => [])

/-- Units that two spans share. -/
def overlaps (a n b m : Nat) : Bool := decide (a < b + m ∧ b < a + n)

/-- The units `base .. base + len - 1` of a half may be allocated. -/
def State.unitsFree (s : State) (h : Half) (base len : Nat) : Bool :=
  let c := chanOf h base
  let off := base % chanUnits
  decide (base / chanUnits < 12) && decide (off + len ≤ s.chanCap c)
    && !s.media.any (fun b => b.half == h && overlaps b.span.1 b.span.2 base len)
    && !(s.chan c).closed.any (fun r => overlaps (r * rangeUnits) rangeUnits off len)

/-- A number rounded up to a multiple. -/
def alignUp (n a : Nat) : Nat := ceilDiv n a * a

/-- The lowest aligned place of `len` units on one of the channels: the start of a channel, or the end of something there. -/
def State.lowest (s : State) (h : Half) (chans : List Nat) (len align : Nat) : Option Nat :=
  let starts := chans.flatMap fun c =>
    let b := c % 12 * chanUnits
    b :: ((s.media.filter (fun m => m.half == h && m.base / chanUnits == c % 12)).map (fun m => alignUp (m.span.1 + m.span.2) align)
      ++ (s.chan c).closed.map (fun r => alignUp (b + (r + 1) * rangeUnits) align))
  let ok := starts.filter (fun b => s.unitsFree h b len)
  ok.foldl (fun m b => match m with | none => some b | some x => some (min x b)) none

/-- Media held by a half, units: protection blocks count whole (R193, R210). -/
def State.held (s : State) (h : Half) : Nat :=
  let mine := s.media.filter (fun b => b.half == h && s.chanUp (chanOf h b.base))
  let p2 := (mine.filterMap (fun b => match b.owner with | .p2 _ _ => some (b.base / extUnits) | _ => none)).eraseDups
  ((mine.filter (fun b => match b.owner with | .p2 _ _ => false | _ => true)).map (·.len)).foldl (· + ·) 0
    + p2.length * extUnits

/-- Media that a domain holds, units: frames, slots, page tables and its share of metadata (R193). -/
def State.domHeld (s : State) (d : Nat) : Nat :=
  let mine := s.media.filter fun b =>
    s.chanUp (chanOf b.half b.base) && (match b.owner with
      | .frame d' _ => d' == d | .bigFrame d' _ => d' == d | .pageTable d' _ _ => d' == d
      | .extTable d' _ => d' == d | .p2 d' _ => d' == d | _ => false)
  (mine.map (·.len)).foldl (· + ·) 0 + s.fld (domShingleSectorsSectors d)

/-! ### Capacity (R86, R193, R194, R195, R200) -/

/-- USABLE of a half, in 2 MiB units (R86). -/
def State.usable (s : State) (h : Half) : Nat :=
  ((chansOf h).map (fun c => s.chanCap c - (if s.chanUp c then (s.chan c).retired.length * rangeUnits else 0))).foldl (· + ·) 0
    / extUnits

/-- RESERVE of a half as fixed at boot, in 2 MiB units: one 256th of all installed DIMMs, rounded up (R86). -/
def State.reserveUnits (s : State) (h : Half) : Nat :=
  let gib := ((chansOf h).map (fun c => (((s.chan c).mods.filterMap id).map (·.gib)).foldl (· + ·) 0)).foldl (· + ·) 0
  ceilDiv (gib * 512) 256

/-- The valid domains homed on a half, in effect. -/
def State.homed (s : State) (h : Half) : List Nat :=
  (List.range 1024).filter fun d => s.domOn d && s.home d == h

/-- F(h) in units, K(h) in units, and H(h) in units, signed (R193). -/
def State.freeUnits (s : State) (h : Half) : Int := (s.usable h * extUnits : Int) - s.held h
def State.unspent (s : State) (h : Half) : Nat :=
  ((s.homed h).map (fun d => s.fld (domChargeCharge d) * extUnits - s.domHeld d)).foldl (· + ·) 0
def State.headroom (s : State) (h : Half) : Int :=
  s.freeUnits h - (s.fld (domMediaReserve h.idx) * extUnits : Int) - s.unspent h

/-- The level that headroom gives, from the present level (R194). -/
def levelAfter (now : Nat) (head : Int) (thr : Nat → Int) (hyst : Int) : Nat :=
  let down := if head ≤ thr 3 then 3 else if head ≤ thr 2 then 2 else if head ≤ thr 1 then 1 else 0
  let up := (List.range 3).foldl (fun l _ => if 0 < l ∧ head > thr l + hyst then l - 1 else l) (max now down)
  up

/-- A half's capacity is reported, and its level and its backing are re-evaluated (R193 to R195, R200). -/
def State.recap (s : State) (h : Half) : State :=
  let i := h.idx
  let u := s.usable h
  let s := s.setFld (domMediaUsable i) u
  let f := s.freeUnits h
  let k := s.unspent h
  let head := s.headroom h
  let s := s.setFld (tierCapFree i) ((max f 0).toNat / extUnits)
  let s := s.setFld (tierCapUnspent i) (k / extUnits)
  let s := s.setFld (tierHeadHeadroom i) (intBits 29 (head / extUnits))
  let un := decide (head < 0)
  let s := if un ∧ !s.flag (tierStatusUnbacked i) then
      ((s.setFlag (tierStatusUnbacked i) true).setFlag (if i = 0 then tierEvtUnbackedA else tierEvtUnbackedB) true).toFm
        "TIER_UNBACKED" [i]
    else s.setFlag (tierStatusUnbacked i) un
  let thr := fun (l : Nat) => ((u * s.fld (nth tierCapCfgLowPm [tierCapCfgLowPm, tierCapCfgLowPm, tierCapCfgPressurePm, tierCapCfgCriticalPm] l)
    / 1000 * extUnits : Nat) : Int)
  let hyst := ((u * s.fld tierCapCfgHystPm / 1000 * extUnits : Nat) : Int)
  let old := s.fld (tierStatusLevel i)
  let new := levelAfter old head thr hyst
  if new = old then s
  else
    ((s.setFld (tierStatusLevel i) new).setFlag (if i = 0 then tierEvtLevelChangeA else tierEvtLevelChangeB) true).toFm
      "TIER_CAP_LEVEL" [i, old, new, intBits 29 (head / extUnits)]

/-- RESERVE is fixed for both halves when the DIMMs have been looked at (R86). -/
def State.fixReserve (s : State) : State :=
  s.each [Half.a, Half.b] fun s h => s.setFld (domMediaReserve h.idx) (s.reserveUnits h)

/-- Both halves. -/
def State.recapAll (s : State) : State := (s.recap .a).recap .b

/-! ### Allocation -/

/-- A block of media given to a holder: the place asked for where it is free and aligned, else the lowest free one, off
channel `avoid` (log 29). Needs F(h) to cover it. -/
def State.alloc (s : State) (h : Half) (len align : Nat) (owner : MediaOwner) (pick : Nat) (avoid : Option Nat) :
    Option (Nat × State) :=
  let want := alignUp len 1
  if s.freeUnits h < want then none
  else
    let chans := (chansOf h).filter (fun c => avoid != some c)
    let there := pick % align == 0 && chans.contains (chanOf h pick) && s.unitsFree h pick len
    match (if there then some pick else s.lowest h chans len align) with
    | none => none
    | some b => some (b, { s with media := { half := h, base := b, len, owner } :: s.media })

/-- The six places of a protection block at which an area may stand (R210). -/
def p2Places (block : Nat) : List Nat := (List.range 6).map (fun j => block * extUnits + j * 0x4A0)

/-- A protection area of an extent: in a protection block that has room, else in a new block (R210). -/
def State.allocArea (s : State) (h : Half) (d e pick : Nat) : Option (Nat × State) :=
  let blocks := (s.media.filterMap (fun b => match b.owner with
    | .p2 _ _ => if b.half == h && s.chanUp (chanOf h b.base) then some (b.base / extUnits) else none
    | _ => none)).eraseDups
  let shut := fun (b : Nat) => (s.chan (chanOf h b)).closed.any (fun r => overlaps (r * rangeUnits) rangeUnits (b % chanUnits) 0x4A0)
  let free := (blocks.flatMap p2Places).filter (fun b => !s.media.any (fun m => m.half == h && m.base == b) && !shut b)
  let put := fun (b : Nat) (s : State) =>
    (b, { s with media := { half := h, base := b, len := 0x4A0, owner := .p2 d e } :: s.media,
                 areas := cellPut 0 s.areas (d * 2 ^ 27 + e) (b + 1) })
  match (if free.contains pick then some pick else free.head?) with
  | some b => some (put b s)
  | none =>
    if s.freeUnits h < extUnits then none
    else (s.lowest h (chansOf h) extUnits extUnits).map (fun b => put b s)

/-- The base of an extent's protection area, where it has one. -/
def State.area (s : State) (d e : Nat) : Option Nat :=
  match cellGet 0 s.areas (d * 2 ^ 27 + e) with
  | 0 => none
  | b + 1 => some b

/-! ### Slots (06_shingle R161) -/

/-- The registers of a size class follow its blocks. -/
def State.classRegs (s : State) (h : Half) (k : Nat) : State :=
  let bs := (s.shg.get h).blocks.filter (fun b => b.k == k)
  (s.setFld (shgClassBlocks h.idx k) bs.length).setFld (shgClassSlotsUsed h.idx k)
    ((bs.map (·.used.length)).foldl (· + ·) 0)

/-- Free media of a channel, units: what is held, protection blocks whole, and what is retired are taken off. -/
def State.chanFree (s : State) (h : Half) (c : Nat) : Nat :=
  let mine := s.media.filter fun b => b.half == h && b.base / chanUnits == c % 12
  let p2 := (mine.filterMap (fun b => match b.owner with | .p2 _ _ => some (b.base / extUnits) | _ => none)).eraseDups
  s.chanCap c - (s.chan c).retired.length * rangeUnits - p2.length * extUnits
    - ((mine.filter (fun b => match b.owner with | .p2 _ _ => false | _ => true)).map (·.len)).foldl (· + ·) 0

/-- A channel with its free media put into a list that falls. -/
def insertRoom (x : Nat × Nat) : List (Nat × Nat) → List (Nat × Nat)
  | [] => [x]
  | y :: ys => if x.1 > y.1 then x :: y :: ys else y :: insertRoom x ys

/-- The channels of a half in the order of their free media, the most first (R161). -/
def State.byRoom (s : State) (h : Half) : List Nat :=
  ((((chansOf h).filter s.chanUp).map (fun c => (s.chanFree h c, c))).foldl (fun acc x => insertRoom x acc) []).map (·.2)

/-- The count of the slots of a half that name a set (R170); `mark` is the set plus 1, 0 for none. -/
def State.setUse (s : State) (h : Half) (mark : Nat) (by_ : Int) : State :=
  match mark with
  | 0 => s
  | n + 1 =>
    let f := match h with | .a => shgSetUseUseA n | .b => shgSetUseUseB n
    s.setFld f (((s.fld f : Int) + by_).toNat)

/-- Place `j` of a block of class `k` is taken; `mark` names the static set in use, 0 for none (R161, R170). -/
def State.useSlot (s : State) (h : Half) (k base j mark : Nat) : State :=
  let s := { s with shg := s.shg.upd h (fun g => { g with
    blocks := mapFirst (fun b => b.base == base) (fun b => { b with used := (j, mark) :: b.used }) g.blocks }) }
  (s.setUse h mark 1).classRegs h k

/-- A slot of class `k`: a free one of the class, the one picked where it is free, else the first of a new block on the channel
with the most free media that has a place for one (R161; 07_tiering R196). -/
def State.takeSlot (s : State) (h : Half) (k pick : Nat) (setNo : Option Nat) : Option (Nat × State) :=
  let bs := (s.shg.get h).blocks
  let n := 256 / k
  let open_ := bs.filter (fun b => b.k == k && decide (b.used.length < n) && s.chanUp (chanOf h b.base)
    && !(s.chan (chanOf h b.base)).closed.any (fun r => overlaps (r * rangeUnits) rangeUnits (b.base % chanUnits) 256))
  let spots := open_.flatMap (fun b => ((List.range n).filter (fun j => !b.used.any (fun u => u.1 == j))).map (fun j => (b.base, j)))
  let mark := match setNo with | some n => n + 1 | none => 0
  match (match spots.find? (fun p => p.1 + p.2 * k == pick) with | some p => some p | none => spots.head?) with
  | some (b, j) => some (b + j * k, s.useSlot h k b j mark)
  | none =>
    if s.freeUnits h < 256 then none
    else match (s.byRoom h).findSome? (fun c => s.lowest h [c] 256 256) with
      | none => none
      | some b =>
        let s := { s with media := { half := h, base := b, len := 256, owner := .shgBlock k } :: s.media,
                          shg := s.shg.upd h (fun g => { g with blocks := { base := b, k, used := [] } :: g.blocks }) }
        some (b, s.useSlot h k b 0 mark)

/-- A slot returned: the set that it names is used once less; its block goes back to free media when no slot is in use
(R161, R170). The chunk cache, the cached header and the write buffer forget it (R181). -/
def State.dropSlot (s : State) (h : Half) (base k : Nat) : State :=
  let bs := (s.shg.get h).blocks
  match bs.find? (fun b => decide (b.base ≤ base ∧ base < b.base + 256)) with
  | none => s
  | some b =>
    let j := (base - b.base) / k
    let mark := ((b.used.find? (fun u => u.1 == j)).map (·.2)).getD 0
    let s := s.setUse h mark (-1)
    let s := s.updChan (chanOf h base) fun ch => { ch with
      wb := ch.wb.filter fun w => !(w.slot.isSome && decide (base * 4 ≤ w.ma ∧ w.ma < (base + k) * 4)) }
    let b' : ShgBlock := { b with used := b.used.filter (fun u => u.1 != j) }
    let s := { s with shg := s.shg.upd h (fun g => { g with
      blocks := if b'.used.isEmpty then g.blocks.filter (fun x => x.base != b.base) else mapFirst (fun x => x.base == b.base) (fun _ => b') g.blocks
      cache := g.cache.filter (fun c => c.slot != base) }) }
    let s := { s with mcache := s.mcache.upd h (fun c => c.filter (fun l => l.key != McKey.hdr h base)) }
    let s := if b'.used.isEmpty then { s with media := s.media.filter (fun m => !(m.half == h && m.base == b.base)) } else s
    s.classRegs h k

/-! ### Release (03_domains R96, R99) -/

/-- Requests that have read a mapping of the pages `p .. p + n - 1` of a domain and are not complete. -/
def State.readers (s : State) (d p n : Nat) : List Nat :=
  (s.reqs.filter fun r => r.hasDom && r.dom == d && decide (p * 64 ≤ r.line ∧ r.line < (p + n) * 64)
    && (match r.stage with
      | .waitEntry | .cross | .queued | .metaWait | .lockWait | .biWait | .evictWait => r.oldPage.isSome
      | .crossBack | .respond => !r.answered
      | _ => true)).map (·.rid)

/-- Media of the pages `p .. p + n - 1` of a domain is freed: the blocks named, and slots with their classes. It waits for
those who read the old mapping. -/
def State.release (s : State) (h : Half) (d p n : Nat) (bases : List Nat) (slots : List (Nat × Nat)) (commit : Bool) : State :=
  if bases.isEmpty ∧ slots.isEmpty then s
  else
    let id := s.drainNext
    let item : DrainItem := { id, half := h, dom := d, waits := s.readers d p n, commit, slots }
    { s with drainNext := id + 1, drains := s.drains ++ [item],
             media := s.media.map (fun b => if b.half == h && bases.contains b.base then { b with owner := .draining id } else b) }

/-- Requests waiting on a drain item are done, where they are gone. -/
def State.dropWait (s : State) (rid : Nat) : State :=
  { s with drains := s.drains.map (fun i => { i with waits := i.waits.filter (· != rid) }) }

/-! ### Usage of a domain (03_domains DOM_USE_NEAR to DOM_RETIRED) -/

/-- Page entries of a domain, and extent descriptors of a domain. -/
def State.pagesOf (s : State) (d : Nat) : List (Nat × Page) :=
  (s.pages.filter (fun q => q.1 / 2 ^ 36 == d)).map (fun q => (q.1 % 2 ^ 36, q.2))
def State.extsOf (s : State) (d : Nat) : List (Nat × Extent) :=
  (s.extents.filter (fun q => q.1 / 2 ^ 27 == d)).map (fun q => (q.1 % 2 ^ 27, q.2))

/-- Pages of a domain that are not ZERO (R89, R197). -/
def State.backed (s : State) (d : Nat) : Nat :=
  s.fld (domUseNearPages d) + s.fld (domUseShinglePages d) + s.fld (domLostPages d) + s.fld (domRetiredPages d)

/-- Every committed extent of a QC0 domain is a FRAME extent, and no page of it is SHINGLE any more (R92; 07_tiering R191). -/
def State.allFrames (s : State) (d : Nat) : Bool :=
  s.eff (domPolicyTclass d) == 0 && s.domOn d && !(s.pagesOf d).any (fun p => p.2.state == .shingle)
    && decide (((s.extsOf d).filter (fun x => decide (x.1 < s.eff (domSizesCommitted d)) && x.2.kind == .frame)).length
        = s.eff (domSizesCommitted d))

/-- The usage registers of a domain follow its pages and extents. -/
def State.tally (s : State) (d : Nat) : State :=
  let ps := s.pagesOf d
  let es := s.extsOf d
  let n := fun (st : PgState) => (ps.filter (fun p => p.2.state == st)).length
  let e := fun (k : ExtKind) => (es.filter (fun x => x.2.kind == k)).length
  let s := s.setFld (domUseNearPages d) (n .near + 512 * e .frame)
  let s := s.setFld (domUseShinglePages d) (n .shingle)
  let s := s.setFld (domShingleSectorsSectors d) (((ps.filter (fun p => p.2.state == .shingle)).map (·.2.cls)).foldl (· + ·) 0)
  let s := s.setFld (domLostPages d) (n .lost)
  let s := s.setFld (domRetiredPages d) (n .retired + 512 * e .retired)
  s.setFlag (domStatusMaterialised d) (s.allFrames d)

/-- After a change of a domain's pages or media: its usage, its half's capacity, and the guarantee where it is QC0
(R193, R254). -/
def State.settle (s : State) (d : Nat) : State :=
  let s := (s.tally d).recap (s.home d)
  if s.eff (domPolicyTclass d) = 0 then s.guarantee else s

/-! ### Lost writes (R199) and the ceiling (R89) -/

/-- The ceiling event, at most once per domain per 10 ms (R89). -/
def State.ceilingReached (s : State) (d : Nat) : State :=
  match (s.map d).ceilingAt with
  | some t => if s.now < t + 10000000 then s
      else (s.updMap d (fun m => { m with ceilingAt := some s.now })).toFm "DOM_CEILING_REACHED" [d]
  | none => (s.updMap d (fun m => { m with ceilingAt := some s.now })).toFm "DOM_CEILING_REACHED" [d]

/-- A TIER_LOST_WRITE record opens: it merges nowhere (R199). -/
def State.lostRecord (s : State) (h : Half) (d page n : Nat) (agg : Bool) : State :=
  let det : Det := { code := cTierLostWrite, cls := clsUcr, unit := uHalf h.idx, dom := some d,
                     addr := some (s.dpaOf d (page * 64), n * 64), detail := if agg then n else 0 }
  let (s, wrap) := (s.countClass clsUcr).enter det agg
  if wrap then s.say cFltRingWrap clsCe uDevice else s

/-- The summary record of a domain's second that has passed closes (R199). -/
def State.closeFold (s : State) (h : Half) (d : Nat) : State :=
  match (s.lostSecs.get h).find? (fun x => x.dom == d && decide (x.start + 1000000000 ≤ s.now)) with
  | some x =>
    let s := match x.fold with | some q => s.closeRecord q | none => s
    { s with lostSecs := s.lostSecs.upd h (fun (xs : List LostSec) => xs.filter (fun y => y != x)) }
  | none => s

/-- Pages refused under R197 or R198: they extend the open run, open a record, or fold into the second's summary (R199). -/
def State.lostWrite (s : State) (d page n : Nat) : State :=
  let h := s.home d
  let s := s.closeFold h d
  let runs := s.lostRuns.get h
  let dpa := s.dpaOf d (page * 64)
  match runs.find? (fun r => r.dom == d && r.page + r.len == page && decide (s.now ≤ r.lastAt + 1000000)) with
  | some r =>
    let s := { s with lostRuns := s.lostRuns.set h (mapFirst (fun x => x == r) (fun x => { x with len := x.len + n, lastAt := s.now }) runs) }
    { s with records := mapFirst (fun q => q.seq == r.seq) (fun q => { q with
        timeLast := s.tns, addr := q.addr.map (fun a => (a.1, a.2 + n * 64)) }) s.records }
  | none =>
    let secs := s.lostSecs.get h
    let cur : LostSec := (secs.find? (fun x => x.dom == d && decide (s.now < x.start + 1000000000))).getD
      { dom := d, start := s.now, count := 0, fold := none }
    let others := secs.filter (fun x => x.dom != d)
    if cur.count < 64 then
      let seq := s.fld fltStatusNextSeq
      let s := s.lostRecord h d page n false
      let old := (runs.filter (fun x => x.dom == d)).map (·.seq)
      let s := s.each old fun s q => s.closeRecord q
      { s with lostRuns := s.lostRuns.set h ({ dom := d, page, len := n, seq, lastAt := s.now } :: runs.filter (fun x => x.dom != d)),
               lostSecs := s.lostSecs.set h ({ cur with count := cur.count + 1 } :: others) }
    else
      match cur.fold with
      | none =>
        let seq := s.fld fltStatusNextSeq
        let s := s.lostRecord h d page n true
        { s with lostSecs := s.lostSecs.set h ({ cur with fold := some seq } :: others) }
      | some q =>
        { s with
          records := mapFirst (fun r => r.seq == q) (fun r => { r with
            timeLast := s.tns, detail := r.detail + n,
            addr := r.addr.map (fun a =>
              let lo := min a.1 dpa
              (lo, (max (a.1 + a.2 * 64) (dpa + n * 4096) - lo) / 64)) }) s.records
          lostSecs := s.lostSecs.set h (cur :: others) }

/-! ### Media for a write (R89, R184, R197, R200) -/

/-- What the media rules answer for a write that needs a new page: granted, refused by the ceiling, refused as growth. -/
inductive Grant where
  | ok | ceiling | growth
  deriving DecidableEq, Repr

/-- The domain backs its ceiling (R89). -/
def State.atCeiling (s : State) (d : Nat) : Bool := decide (s.backed d ≥ s.eff (domSizesCeiling d) * 512)

/-- The decision for `n` new pages of a domain, `add` of them not yet counted: growth at CRITICAL is refused as growth though
the domain stands at its ceiling too (R89, R197, R199). -/
def State.grant (s : State) (d add : Nat) : Grant :=
  if s.backed d + add > s.eff (domSizesCommitted d) * 512 ∧ s.fld (tierStatusLevel (s.home d).idx) = 3 then .growth
  else if s.atCeiling d then .ceiling
  else .ok

/-- The write is growth (chapter 7, Growth at CRITICAL). -/
def State.isGrowth (s : State) (d add : Nat) : Bool := decide (s.backed d + add > s.eff (domSizesCommitted d) * 512)

end Sys2Proof.Machine
end

