-- ==== Sys2Proof/Machine/Sha.lean ====
section
/-! DEFINITION. SHA-384 and the curve P-384, as the boot image check and the key unwrap use them (17_boot R381, R382;
08_protection R220, R221). The constants are those of FIPS 180-4, computed here
from the roots of primes that they are, and of FIPS 186-4, which the spec's names stand for. -/

namespace Sys2Proof.Machine

/-! ### SHA-384 -/

/-- The largest number below 2^n, found bit by bit upon `x`, whose `k`-th power does not pass `a`. -/
def rootBelow (k a : Nat) : Nat → Nat → Nat
  | 0, x => x
  | n + 1, x => rootBelow k a n (if (x + 2 ^ n) ^ k ≤ a then x + 2 ^ n else x)

/-- The first 64 bits of the fraction of the `k`-th root of a prime below 512. -/
def rootWord (k p : Nat) : BitVec 64 := BitVec.ofNat 64 (rootBelow k (p * 2 ^ (64 * k)) 69 0)

/-- The 80 primes below 410. -/
def shaPrimes : List Nat := (List.range 410).filter fun p => 2 ≤ p && (List.range 21).all fun q => q < 2 || p ≤ q || p % q != 0

/-- A word of the schedule or of the state, by number. -/
def shaAt (ws : List (BitVec 64)) (i : Nat) : BitVec 64 := nth 0 ws i

/-- Two rotations of a word and a third term, added without carries. -/
def shaMix (a b : Nat) (w third : BitVec 64) : BitVec 64 := third ^^^ w.rotateRight a ^^^ w.rotateRight b

/-- The schedule of a block, newest word first: `k` words more than those given. -/
def shaExtend (ws : List (BitVec 64)) : Nat → List (BitVec 64)
  | 0 => ws
  | k + 1 =>
    let sofar := shaExtend ws k
    let w := shaAt sofar
    (w 15 + w 6 + shaMix 1 8 (w 14) (w 14 >>> 7) + shaMix 19 61 (w 1) (w 1 >>> 6)) :: sofar

/-- The state after one round: `x` is the sum of the round's constant and its schedule word. -/
def shaTurn (st : List (BitVec 64)) (x : BitVec 64) : List (BitVec 64) :=
  let v := shaAt st
  let up := v 7 + x + shaMix 14 18 (v 4) ((v 4).rotateRight 41) + (v 6 ^^^ (v 4 &&& (v 5 ^^^ v 6)))
  let down := shaMix 28 34 (v 0) ((v 0).rotateRight 39) + ((v 0 &&& v 1) ||| (v 2 &&& (v 0 ||| v 1)))
  (up + down) :: (st.set 3 (v 3 + up)).take 7

/-- One block of 16 words. -/
def shaBlock (hs ws : List (BitVec 64)) : List (BitVec 64) :=
  let xs := List.zipWith (· + ·) (shaPrimes.map (rootWord 3)) (shaExtend ws.reverse 64).reverse
  List.zipWith (· + ·) hs (xs.foldl shaTurn hs)

/-- The padded message. -/
def shaPad (msg : List Byte) : List Byte :=
  let n := msg.length
  msg ++ [0x80] ++ List.replicate ((239 - n % 128) % 128) 0 ++ beBytes 16 (8 * n)

/-- SHA-384 of bytes: 48 bytes. -/
def sha384 (msg : List Byte) : List Byte :=
  let p := shaPad msg
  let blocks := chunksOf 128 (p.length / 128 + 1) p
  let words := fun (b : List Byte) => (chunksOf 8 17 b).map (fun c => BitVec.ofNat 64 (beNat c))
  let h := blocks.foldl (fun hs b => shaBlock hs (words b)) (((shaPrimes.drop 8).take 8).map (rootWord 2))
  (h.take 6).flatMap (fun w => beBytes 8 w.toNat)

/-! ### P-384 -/

/-- The field prime, the order, the coefficient b and the base point. -/
def p384P : Nat := 0xfffffffffffffffffffffffffffffffffffffffffffffffffffffffffffffffeffffffff0000000000000000ffffffff
def p384N : Nat := 0xffffffffffffffffffffffffffffffffffffffffffffffffc7634d81f4372ddf581a0db248b0a77aecec196accc52973
def p384B : Nat := 0xb3312fa7e23ee7e4988e056be3f82d19181d9c6efe8141120314088f5013875ac656398d8a2ed19d2a85c8edd3ec2aef
def p384G : Nat × Nat := (0xaa87ca22be8b05378eb1c71ef320ad746e1d3b628ba79b9859f741e082542a385502f25dbf55296c3a545e3872760ab7, 0x3617de4a96262c6f5d9e98bf9292dc29f8f41dbd289a147ce9da3113b5f0b8c00a60b1ce1d7e819d7a431d7c90ea0e5f)

/-- `b ^ e` modulo `m`, with the bits of `e` taken from the lowest; `fuel` bounds them. -/
def powMod (m : Nat) : Nat → Nat → Nat → Nat → Nat
  | 0, _, _, acc => acc
  | fuel + 1, b, e, acc => powMod m fuel (b * b % m) (e / 2) (if e % 2 = 1 then acc * b % m else acc)

/-- The inverse modulo a prime. -/
def invMod (m a : Nat) : Nat := powMod m 400 (a % m) (m - 2) 1

/-- The sum of two points; none is the point at infinity. -/
def p384Add : Option (Nat × Nat) → Option (Nat × Nat) → Option (Nat × Nat)
  | none, q => q
  | p, none => p
  | some (x1, y1), some (x2, y2) =>
    let m := p384P
    if x1 = x2 ∧ (y1 + y2) % m = 0 then none
    else
      let l := if x1 = x2 then (3 * x1 * x1 + (m - 3)) * invMod m (2 * y1) % m
        else (y2 + m - y1) * invMod m ((x2 + m - x1) % m) % m
      let x3 := (l * l + 2 * m - x1 - x2) % m
      some (x3, (l * ((x1 + m - x3) % m) + m - y1) % m)

/-- A multiple of a point, with the bits of the scalar taken from the lowest. -/
def p384Mul : Nat → Nat → Option (Nat × Nat) → Option (Nat × Nat) → Option (Nat × Nat)
  | 0, _, _, acc => acc
  | fuel + 1, k, q, acc =>
    p384Mul fuel (k / 2) (p384Add q q) (if k % 2 = 1 then p384Add acc q else acc)

/-- `k` times a point. -/
def p384Scale (k : Nat) (q : Option (Nat × Nat)) : Option (Nat × Nat) := p384Mul 384 k q none

/-- A pair of coordinates is a point of the curve. -/
def p384On (x y : Nat) : Bool :=
  decide (x < p384P ∧ y < p384P) && (y * y) % p384P == (x * x * x + (p384P - 3) * x + p384B) % p384P

/-- ECDSA verification of a digest: public key (x, y), signature (r, s) (17_boot R381). -/
def ecdsaVerify (digest : List Byte) (x y r s : Nat) : Bool :=
  if r = 0 ∨ s = 0 ∨ r ≥ p384N ∨ s ≥ p384N ∨ !p384On x y then false
  else
    let z := beNat digest
    let w := invMod p384N s
    match p384Add (p384Scale (z * w % p384N) (some p384G)) (p384Scale (r * w % p384N) (some (x, y))) with
    | none => false
    | some (px, _) => px % p384N == r

end Sys2Proof.Machine
end

