-- ==== Sys2Proof/Machine/Codes.lean ====
section
/-! DEFINITION. Checks over bytes and the DEFLATE format (14_offload R327, R328; RFC 1950, 1951 and 1952 as the spec names
them; CRC-32C of 05_dram R158 by the same routine). -/

namespace Sys2Proof.Machine

/-! ### Checks -/

/-- One reflected CRC step of eight bits with a polynomial of 32 bits. -/
def crcBits (poly : BitVec 32) : Nat → BitVec 32 → BitVec 32
  | 0, c => c
  | k + 1, c => crcBits poly k (if c.getLsbD 0 then (c >>> 1) ^^^ poly else c >>> 1)

/-- A reflected 32-bit CRC continued from a value: the register is complemented before and after. -/
def crc32With (poly : BitVec 32) (start : Nat) (bs : List Byte) : Nat :=
  (~~~ (bs.foldl (fun c b => crcBits poly 8 (c ^^^ b.zeroExtend 32)) (~~~ BitVec.ofNat 32 start))).toNat

/-- CRC-32 of RFC 1952. -/
def crc32 (start : Nat) (bs : List Byte) : Nat := crc32With 0xEDB88320 start bs

/-- CRC-32C. -/
def crc32c (start : Nat) (bs : List Byte) : Nat := crc32With 0x82F63B78 start bs

/-- Adler-32 of RFC 1950, continued from a value. -/
def adler32 (start : Nat) (bs : List Byte) : Nat :=
  let (a, b) := bs.foldl (fun (p : Nat × Nat) x =>
    let a := (p.1 + x.toNat) % 65521
    (a, (p.2 + a) % 65521)) (start % 65536, start / 65536)
  b * 65536 + a

/-! ### INFLATE -/

/-- Bits of bytes, least significant first. -/
def byteBits (bs : List Byte) : List Bool := bs.flatMap fun b => (List.range 8).map fun i => b.getLsbD i

/-- A canonical code: symbols per length from 1, and the symbols in code order. -/
structure HuffCode where
  counts : List Nat
  syms : List Nat

/-- The canonical code of lengths of up to `maxLen` bits. -/
def huffOf (maxLen : Nat) (lens : List Nat) : HuffCode :=
  let pairs := List.zip (List.range lens.length) lens
  let of := fun k => (pairs.filter (fun p => p.2 == k)).map (·.1)
  let ks := (List.range maxLen).map (· + 1)
  ⟨ks.map (fun k => (of k).length), ks.flatMap of⟩

/-- Codes left over at the end of a code: negative when oversubscribed, 0 when complete. -/
def huffLeft (h : HuffCode) : Int := h.counts.foldl (fun (l : Int) (c : Nat) => 2 * l - (c : Int)) 1

/-- The first codes of a length oversubscribe the code. -/
def huffOver (h : HuffCode) : Bool :=
  (h.counts.foldl (fun (p : Int × Bool) (c : Nat) => let l := 2 * p.1 - (c : Int); (l, p.2 || decide (l < 0))) (1, false)).2

/-- What reading a symbol came to. -/
inductive SymR where
  | sym (v : Nat) (rest : List Bool)
  | none_
  | short
  deriving DecidableEq

/-- A symbol read bit by bit: `counts` left, the code so far, the first code and index of this length. -/
def huffRead (syms : List Nat) : List Nat → Nat → Nat → Nat → List Bool → SymR
  | [], _, _, _, _ => .none_
  | _ :: _, _, _, _, [] => .short
  | c :: cs, code, first, index, b :: bs =>
    let code := code + b2n b
    if code < first + c then .sym (nth 0 syms (index + (code - first))) bs
    else if cs.all (· == 0) then .none_
    else huffRead syms cs (2 * code) (2 * (first + c)) (index + c) bs

/-- A number of `n` bits, least significant first. -/
def takeNum : Nat → List Bool → Option (Nat × List Bool)
  | 0, bs => some (0, bs)
  | _ + 1, [] => none
  | n + 1, b :: bs => (takeNum n bs).map (fun r => (b2n b + 2 * r.1, r.2))

/-- Error values of SHG_ERR_LAST.ERROR (06_shingle Table 6.7), which the statuses of Table 14.6 follow. -/
abbrev eIllegal : Nat := 1
abbrev eDist : Nat := 2
abbrev eOverrun : Nat := 3
abbrev eUnderrun : Nat := 4
abbrev eTable : Nat := 5
abbrev eHdr : Nat := 6
abbrev eCrc : Nat := 7

/-- The decoder: bits left, output newest first and its length; and, of what was decoded, the type and end of each block,
the longest code and the longest distance. -/
structure Inf where
  bits : List Bool
  out : List Byte := []
  n : Nat := 0
  blocks : List (Nat × Nat) := []
  maxCode : Nat := 0
  maxDist : Nat := 0

/-- A result: the decoder, or an error with the decoder where it arose. -/
abbrev InfR := Except (Nat × Inf) Inf

/-- The base and extra bits of length symbols 257 to 285 (RFC 1951). -/
def lenBase : List (Nat × Nat) := [(3, 0), (4, 0), (5, 0), (6, 0), (7, 0), (8, 0), (9, 0), (10, 0), (11, 1), (13, 1),
  (15, 1), (17, 1), (19, 2), (23, 2), (27, 2), (31, 2), (35, 3), (43, 3), (51, 3), (59, 3), (67, 4), (83, 4), (99, 4),
  (115, 4), (131, 5), (163, 5), (195, 5), (227, 5), (258, 0)]

/-- The base and extra bits of distance symbols 0 to 29 (RFC 1951). -/
def distBase : List (Nat × Nat) := [(1, 0), (2, 0), (3, 0), (4, 0), (5, 1), (7, 1), (9, 2), (13, 2), (17, 3), (25, 3),
  (33, 4), (49, 4), (65, 5), (97, 5), (129, 6), (193, 6), (257, 7), (385, 7), (513, 8), (769, 8), (1025, 9), (1537, 9),
  (2049, 10), (3073, 10), (4097, 11), (6145, 11), (8193, 12), (12289, 12), (16385, 13), (24577, 13)]

/-- A match copied, byte by byte. -/
def copyMatch : Nat → Nat → List Byte → List Byte
  | 0, _, out => out
  | k + 1, d, out => copyMatch k d (nth 0 out (d - 1) :: out)

/-- The symbols of a block up to its end; `fuel` bounds them by the bits left. -/
def infSymbols (cap : Nat) (lit dist : HuffCode) : Nat → Inf → InfR
  | 0, s => .error (eUnderrun, s)
  | fuel + 1, s =>
    match huffRead lit.syms lit.counts 0 0 0 s.bits with
    | .short => .error (eUnderrun, s)
    | .none_ => .error (eIllegal, s)
    | .sym v bits =>
      if v < 256 then
        if s.n + 1 > cap then .error (eOverrun, s)
        else infSymbols cap lit dist fuel { s with bits, out := BitVec.ofNat 8 v :: s.out, n := s.n + 1 }
      else if v = 256 then .ok { s with bits }
      else if v > 285 then .error (eIllegal, s)
      else
        let (lb, le) := nth (0, 0) lenBase (v - 257)
        match takeNum le bits with
        | none => .error (eUnderrun, s)
        | some (lx, bits) =>
          match huffRead dist.syms dist.counts 0 0 0 bits with
          | .short => .error (eUnderrun, s)
          | .none_ => .error (eIllegal, s)
          | .sym dv bits =>
            if dv > 29 then .error (eIllegal, s)
            else
              let (db, de) := nth (0, 0) distBase dv
              match takeNum de bits with
              | none => .error (eUnderrun, s)
              | some (dx, bits) =>
                let len := lb + lx
                let d := db + dx
                if d > s.n then .error (eDist, s)
                else if s.n + len > cap then .error (eOverrun, s)
                else infSymbols cap lit dist fuel
                  { s with bits, out := copyMatch len d s.out, n := s.n + len, maxDist := max s.maxDist d }

/-- The order of the code length code's lengths (RFC 1951). -/
def clOrder : List Nat := [16, 17, 18, 0, 8, 7, 9, 6, 10, 5, 11, 4, 12, 3, 13, 2, 14, 1, 15]

/-- `k` numbers of three bits. -/
def takeThrees : Nat → List Bool → Option (List Nat × List Bool)
  | 0, bs => some ([], bs)
  | k + 1, bs =>
    match takeNum 3 bs with
    | none => none
    | some (v, bs) => (takeThrees k bs).map (fun r => (v :: r.1, r.2))

/-- The lengths of a dynamic block, newest first, up to `want`; the error is the one of Table 14.6. -/
def readLens (want : Nat) (cl : HuffCode) : Nat → List Nat → List Bool → Except Nat (List Nat × List Bool)
  | 0, _, _ => .error eUnderrun
  | fuel + 1, acc, bits =>
    if acc.length = want then .ok (acc, bits)
    else
      match huffRead cl.syms cl.counts 0 0 0 bits with
      | .short => .error eUnderrun
      | .none_ => .error eIllegal
      | .sym v bits =>
        if v < 16 then readLens want cl fuel (v :: acc) bits
        else
          let (w, base) := if v = 16 then (2, 3) else if v = 17 then (3, 3) else (7, 11)
          match takeNum w bits with
          | none => .error eUnderrun
          | some (x, bits) =>
            if (v = 16 ∧ acc = []) ∨ acc.length + base + x > want then .error eTable
            else readLens want cl fuel (List.replicate (base + x) (if v = 16 then nth 0 acc 0 else 0) ++ acc) bits

/-- The two codes of a dynamic block (RFC 1951; Table 14.6). -/
def dynCodes (bits : List Bool) : Except Nat (HuffCode × HuffCode × Nat × List Bool) :=
  match takeNum 5 bits with
  | none => .error eUnderrun
  | some (hlit, bits) =>
    match takeNum 5 bits with
    | none => .error eUnderrun
    | some (hdist, bits) =>
      match takeNum 4 bits with
      | none => .error eUnderrun
      | some (hclen, bits) =>
        if hlit > 29 ∨ hdist > 29 then .error eTable
        else
          match takeThrees (hclen + 4) bits with
          | none => .error eUnderrun
          | some (cl, bits) =>
            let lens := (List.range 19).map fun sy => nth 0 cl (clOrder.idxOf sy)
            let code := huffOf 7 lens
            if huffOver code ∨ huffLeft code ≠ 0 then .error eTable
            else
              match readLens (hlit + 257 + hdist + 1) code 400 [] bits with
              | .error e => .error e
              | .ok (acc, bits) =>
                let all := acc.reverse
                let lit := huffOf 15 (all.take (hlit + 257))
                let dist := huffOf 15 (all.drop (hlit + 257))
                let used := dist.counts.foldl (· + ·) 0
                let single := used = 0 ∨ (used = 1 ∧ nth 0 dist.counts 0 = 1)
                if huffOver lit ∨ huffLeft lit ≠ 0 ∨ huffOver dist ∨ (huffLeft dist ≠ 0 ∧ ¬ single) then .error eTable
                else .ok (lit, dist, all.foldl max 0, bits)

/-- The fixed codes (RFC 1951). -/
def fixedLit : HuffCode :=
  huffOf 15 (List.replicate 144 8 ++ List.replicate 112 9 ++ List.replicate 24 7 ++ List.replicate 8 8)
def fixedDist : HuffCode := huffOf 15 (List.replicate 32 5)

/-- One block: its final bit, and the decoder after it. -/
def infBlock (cap : Nat) (s : Inf) : Except (Nat × Inf) (Bool × Inf) :=
  match takeNum 3 s.bits with
  | none => .error (eUnderrun, s)
  | some (h, bits) =>
    let final := h % 2 = 1
    let done := fun (t : Nat) (m : Nat) (r : InfR) => match r with
      | .error e => Except.error e
      | .ok (s' : Inf) => .ok (decide final, { s' with blocks := (t, s'.n) :: s'.blocks, maxCode := max s'.maxCode m })
    match h / 2 with
    | 0 =>
      let bits := bits.drop (bits.length % 8)
      match takeNum 16 bits with
      | none => .error (eUnderrun, s)
      | some (len, bits) =>
        match takeNum 16 bits with
        | none => .error (eUnderrun, s)
        | some (nlen, bits) =>
          if len + nlen ≠ 0xFFFF then .error (eHdr, s)
          else if s.n + len > cap then .error (eOverrun, s)
          else if bits.length < 8 * len then .error (eUnderrun, s)
          else
            let bytes := (chunksOf 8 (len + 1) (bits.take (8 * len))).map fun b =>
              BitVec.ofNat 8 (((takeNum 8 b).map (·.1)).getD 0)
            done 0 0 (.ok { s with bits := bits.drop (8 * len), out := bytes.reverse ++ s.out, n := s.n + len })
    | 1 => done 1 0 (infSymbols cap fixedLit fixedDist (bits.length + 1) { s with bits })
    | 2 =>
      match dynCodes bits with
      | .error e => .error (e, s)
      | .ok (lit, dist, m, bits) => done 2 m (infSymbols cap lit dist (bits.length + 1) { s with bits })
    | _ => .error (eHdr, s)

/-- Blocks up to the final one; `fuel` bounds them by the bits. -/
def infBlocks (cap : Nat) : Nat → Inf → InfR
  | 0, s => .error (eUnderrun, s)
  | fuel + 1, s =>
    match infBlock cap s with
    | .error e => .error e
    | .ok (final, s) => if final then .ok s else infBlocks cap fuel s

/-- A raw stream decoded from bytes into at most `cap` bytes. -/
def inflateRaw (cap : Nat) (src : List Byte) : InfR :=
  let bits := byteBits src
  infBlocks cap (bits.length + 1) { bits }

/-- What an INFLATE job came to: status code (0 OK, else the error of Table 14.6), output, bytes consumed, check. -/
structure InfDone where
  err : Nat
  out : List Byte
  consumed : Nat
  check : Nat

/-- Source bytes that a decoder has consumed. -/
def Inf.used (s : Inf) (total : Nat) : Nat := total - s.bits.length / 8

/-- The gzip header: its length, or the error (R328, Table 14.6). -/
def gzipHead (src : List Byte) : Except Nat Nat :=
  let g := fun i => (nth 0 src i).toNat
  if src.length < 10 then .error (if (src.take 2) ≠ (List.take 2 [0x1F, 0x8B]).take src.length then eHdr else eUnderrun)
  else if g 0 ≠ 0x1F ∨ g 1 ≠ 0x8B ∨ g 2 ≠ 8 ∨ g 3 ≥ 32 then .error eHdr
  else
    let fl := g 3
    let skipZ := fun (off : Nat) => off + ((src.drop off).takeWhile (· ≠ 0)).length + 1
    let off := if bitAt fl 2 then 12 + g 10 + 256 * g 11 else 10
    let off := if bitAt fl 3 then skipZ off else off
    let off := if bitAt fl 4 then skipZ off else off
    if bitAt fl 1 then
      if src.length < off + 2 then .error eUnderrun
      else if crc32 0 (src.take off) % 65536 ≠ g off + 256 * g (off + 1) then .error eCrc else .ok (off + 2)
    else if src.length < off then .error eUnderrun else .ok off

/-- An INFLATE job's decoding (R328): format 0 raw, 1 zlib, 2 gzip. -/
def inflateJob (format cap : Nat) (src : List Byte) : InfDone :=
  let n := src.length
  let head : Except Nat Nat := match format with
    | 0 => .ok 0
    | 1 =>
      if n < 2 then .error eUnderrun
      else
        let a := (nth 0 src 0).toNat
        let b := (nth 0 src 1).toNat
        if a % 16 ≠ 8 ∨ a / 16 > 7 ∨ (a * 256 + b) % 31 ≠ 0 ∨ bitAt b 5 then .error eHdr else .ok 2
    | _ => gzipHead src
  match head with
  | .error e => ⟨e, [], 0, 0⟩
  | .ok h =>
    match inflateRaw cap (src.drop h) with
    | .error (e, s) => ⟨e, s.out.reverse, s.used n, 0⟩
    | .ok s =>
      let out := s.out.reverse
      let at0 := n - s.bits.length / 8
      match format with
      | 0 => ⟨0, out, at0, 0⟩
      | 1 =>
        let a := adler32 1 out
        if n < at0 + 4 then ⟨eUnderrun, out, n, 0⟩
        else ⟨if beNat ((src.drop at0).take 4) = a then 0 else eCrc, out, at0 + 4, a⟩
      | _ =>
        let c := crc32 0 out
        if n < at0 + 8 then ⟨eUnderrun, out, n, 0⟩
        else
          let ok := leNat ((src.drop at0).take 4) = c ∧ leNat (((src.drop (at0 + 4))).take 4) = out.length % 2 ^ 32
          ⟨if ok then 0 else eCrc, out, at0 + 8, c⟩

/-! ### DEFLATE -/

/-- A raw stream is one that DEFLATE may write for an input (R327): it decodes to the input and ends there, each block
covers 16 KiB of it, blocks are dynamic or stored, codes are of at most 12 bits and distances of at most 1,024. -/
def deflateValid (input stream : List Byte) : Bool :=
  match inflateRaw input.length stream with
  | .error _ => false
  | .ok s =>
    let k := ceilDiv input.length 16384
    decide (s.out.reverse = input) && decide (s.bits.length < 8) && decide (s.maxCode ≤ 12 ∧ s.maxDist ≤ 1024)
      && s.blocks.all (fun b => b.1 != 1)
      && decide (s.blocks.reverse.map (·.2) = (List.range k).map (fun i => min input.length (16384 * (i + 1))))

/-- The complete stream: header, raw blocks, trailer (R327). -/
def deflateWrap (format : Nat) (input raw : List Byte) : List Byte :=
  match format with
  | 0 => raw
  | 1 => [0x28, 0x15] ++ raw ++ beBytes 4 (adler32 1 input)
  | _ => [0x1F, 0x8B, 8, 0, 0, 0, 0, 0, 0, 0xFF] ++ raw ++ leBytes 4 (crc32 0 input) ++ leBytes 4 input.length

end Sys2Proof.Machine
end

