-- ==== Sys2Proof/Machine/ShgCode.lean ====
section
/-! DEFINITION. The slot and the chunk bit-stream of the shingle tier (06_shingle R156 to R172). -/

namespace Sys2Proof.Machine

/-! ### Code lengths (R165, R166, R168, R171) -/

/-- Static set 0 (Table 6.6). -/
def romLens : List Nat :=
  List.replicate 144 8 ++ List.replicate 112 9 ++ List.replicate 24 7 ++ List.replicate 4 8 ++ List.replicate 2 7
    ++ List.replicate 12 4 ++ List.replicate 8 5

/-- A distance or code-length code is complete, or has exactly one symbol of length 1; a distance code may also be empty
(R166). -/
def codeOk (c : HuffCode) (emptyOk : Bool) : Bool :=
  let used := c.counts.foldl (· + ·) 0
  !huffOver c && (huffLeft c == 0 || (used == 1 && nth 0 c.counts 0 == 1) || (emptyOk && used == 0))

/-- The literal/length and the distance code of 306 lengths. -/
def litOf (lens : List Nat) : HuffCode := huffOf 12 (lens.take 286)
def distOf (lens : List Nat) : HuffCode := huffOf 12 ((lens.drop 286).take 20)

/-- The check of R169: 0, or the RESULT code of SHG_SET_RESULT. -/
def checkLens (lens : List Nat) : Nat :=
  if (lens.take 306).any (fun l => decide (l > 12)) then 4
  else if huffOver (litOf lens) then 6
  else if huffLeft (litOf lens) ≠ 0 then 5
  else if nth 0 lens 256 = 0 then 7
  else if !codeOk (distOf lens) true then 8
  else 0

/-- The fingerprint of a set: CRC-32C of its 153 bytes of packed lengths (R171). -/
def fingerprint (lens : List Nat) : Nat :=
  crc32c 0 ((List.range 153).map fun i => BitVec.ofNat 8 (nth 0 lens (2 * i) + 16 * nth 0 lens (2 * i + 1)))

/-! ### The dynamic header (R167, Tables 6.5, 6.7) -/

/-- The order of the code-length code's lengths. -/
def shgOrder : List Nat := [13, 14, 15, 0, 12, 8, 4, 7, 9, 5, 3, 10, 6, 11, 2, 1]

/-- The lengths of the header, newest first, up to `want`. That a repeat of the previous length has none before it is found once its
extra bits are read, so that bits which end there report the underrun first: DESIGN CHOICE (log 152), for Table 6.7 does not say which
error comes first (R172). -/
def shgLens (want : Nat) (cl : HuffCode) : Nat → List Nat → List Bool → Except Nat (List Nat × List Bool)
  | 0, _, _ => .error eUnderrun
  | fuel + 1, acc, bits =>
    if acc.length = want then .ok (acc, bits)
    else
      match huffRead cl.syms cl.counts 0 0 0 bits with
      | .short => .error eUnderrun
      | .none_ => .error eIllegal
      | .sym v bits =>
        if v < 13 then shgLens want cl fuel (v :: acc) bits
        else
          let (w, base) := if v = 13 then (2, 3) else if v = 14 then (3, 3) else (7, 11)
          match takeNum w bits with
          | none => .error eUnderrun
          | some (x, bits) =>
            if (v = 13 ∧ acc = []) ∨ acc.length + base + x > want then .error eTable
            else shgLens want cl fuel (List.replicate (base + x) (if v = 13 then nth 0 acc 0 else 0) ++ acc) bits

/-- The 306 lengths of a dynamic header and the bits after it. -/
def shgHeader (bits : List Bool) : Except Nat (List Nat × List Bool) :=
  match takeNum 5 bits with
  | none => .error eUnderrun
  | some (hlit, bits) =>
    if hlit > 29 then .error eTable
    else match takeNum 5 bits with
      | none => .error eUnderrun
      | some (hdist, bits) =>
        if hdist > 19 then .error eTable
        else match takeNum 4 bits with
          | none => .error eUnderrun
          | some (hclen, bits) =>
            if hclen > 12 then .error eTable
            else match takeThrees (hclen + 4) bits with
              | none => .error eUnderrun
              | some (cl, bits) =>
                let code := huffOf 7 ((List.range 16).map fun sy => nth 0 cl (shgOrder.idxOf sy))
                if !codeOk code false then .error eTable
                else match shgLens (258 + hlit + hdist) code 320 [] bits with
                  | .error e => .error e
                  | .ok (acc, bits) =>
                    let all := acc.reverse
                    let ll := padTo 286 0 (all.take (257 + hlit))
                    let lens := ll ++ padTo 20 0 (all.drop (257 + hlit))
                    if checkLens lens = 0 then .ok (lens, bits) else .error eTable

/-! ### Chunk streams (R162 to R164) -/

/-- The base and extra bits of the distance symbols (Table 6.4). -/
def shgDist : List (Nat × Nat) := distBase.take 20

/-- A chunk under decoding: bits left, output newest first, its length, symbols seen newest first. -/
structure ChunkDec where
  bits : List Bool
  out : List Byte := []
  n : Nat := 0
  seen : List Nat := []

/-- The symbols of a chunk up to END, then the padding (R163; Table 6.7). A match that both reaches before the chunk's start and passes
its 1,024 bytes reports the distance: DESIGN CHOICE (log 152), for Table 6.7 does not say which error comes first (R172). -/
def shgSymbols (lit dist : HuffCode) : Nat → ChunkDec → Except Nat ChunkDec
  | 0, _ => .error eUnderrun
  | fuel + 1, s =>
    match huffRead lit.syms lit.counts 0 0 0 s.bits with
    | .short => .error eUnderrun
    | .none_ => .error eIllegal
    | .sym v bits =>
      let s := { s with seen := v :: s.seen }
      if v < 256 then
        if s.n + 1 > 1024 then .error eOverrun
        else shgSymbols lit dist fuel { s with bits, out := BitVec.ofNat 8 v :: s.out, n := s.n + 1 }
      else if v = 256 then
        if s.n < 1024 then .error eUnderrun
        else if bits.length ≥ 8 ∨ bits.contains true then .error eHdr
        else .ok { s with bits }
      else
        let (lb, le) := nth (0, 0) lenBase (v - 257)
        match takeNum le bits with
        | none => .error eUnderrun
        | some (lx, bits) =>
          if v = 284 ∧ lx = 31 then .error eIllegal
          else match huffRead dist.syms dist.counts 0 0 0 bits with
            | .short => .error eUnderrun
            | .none_ => .error eIllegal
            | .sym dv bits =>
              let (db, de) := nth (0, 0) shgDist dv
              match takeNum de bits with
              | none => .error eUnderrun
              | some (dx, bits) =>
                let len := lb + lx
                let d := db + dx
                if d > s.n then .error eDist
                else if s.n + len > 1024 then .error eOverrun
                else shgSymbols lit dist fuel
                  { s with bits, out := copyMatch len d s.out, n := s.n + len, seen := (286 + dv) :: s.seen }

/-- A chunk stream decoded with a static set, or with its own header: 1,024 bytes and the symbols seen (R160, R163). -/
def decodeStream (static : Option (List Nat)) (stream : List Byte) : Except Nat (List Byte × List Nat) :=
  if stream.isEmpty then .ok (List.replicate 1024 0, [])
  else
    let bits := byteBits stream
    let start := match static with
      | some lens => Except.ok (lens, bits)
      | none => shgHeader bits
    match start with
    | .error e => .error e
    | .ok (lens, bits) =>
      match shgSymbols (litOf lens) (distOf lens) (bits.length + 1) { bits } with
      | .error e => .error e
      | .ok s => .ok (s.out.reverse, s.seen)

/-! ### Slots (R157, R158, Table 6.1) -/

/-- The fields of a slot header. -/
structure SlotHdr where
  format : Nat
  flags : Nat
  sizeClass : Nat
  ends : List Nat
  crcs : List Nat
  seq : Nat
  deriving DecidableEq, Repr

/-- A header as 32 bytes, and as read from a slot. -/
def SlotHdr.bytes (h : SlotHdr) : List Byte :=
  leBytes 2 h.format ++ leBytes 1 h.flags ++ leBytes 1 h.sizeClass ++ (padTo 4 0 h.ends).flatMap (leBytes 2)
    ++ (padTo 4 0 h.crcs).flatMap (leBytes 4) ++ leBytes 4 h.seq
def hdrOf (b : List Byte) : SlotHdr :=
  let n := fun off k => leNat ((b.drop off).take k)
  { format := n 0 2, flags := n 2 1, sizeClass := n 3 1, ends := (List.range 4).map fun i => n (4 + 2 * i) 2,
    crcs := (List.range 4).map fun i => n (12 + 4 * i) 4, seq := n 28 4 }

/-- Where chunk `i`'s stream starts and ends in the slot. -/
def SlotHdr.start (h : SlotHdr) (i : Nat) : Nat := if i = 0 then 32 else nth 0 h.ends (i - 1)
def SlotHdr.stop (h : SlotHdr) (i : Nat) : Nat := nth 0 h.ends i

/-- The static set that a header names. -/
def SlotHdr.setNo (h : SlotHdr) : Option Nat := if h.flags % 2 = 1 then none else some (h.flags / 2 % 8)

/-- The header conditions of Table 6.7; `k` is the page entry's SIZE_CLASS, `active` the sets that are ACTIVE. -/
def SlotHdr.valid (h : SlotHdr) (k : Nat) (active : Nat → Bool) : Bool :=
  h.format == 1 && h.flags < 64 && !(h.flags % 2 == 1 && h.flags / 2 % 8 != 0) && h.sizeClass == k
    && decide (32 ≤ nth 0 h.ends 0) && (List.range 3).all (fun i => nth 0 h.ends i ≤ nth 0 h.ends (i + 1))
    && decide (nth 0 h.ends 3 ≤ k * 256) && (match h.setNo with | some n => active n | none => true)

/-- A chunk decoded from a slot's plaintext (R172, R176): its 1,024 bytes, or the error of Table 6.7. -/
def decodeChunk (slot : List Byte) (k i : Nat) (active : Nat → Bool) (lens : Nat → List Nat) : Except Nat (List Byte) :=
  let h := hdrOf slot
  if !h.valid k active then .error eHdr
  else
    match decodeStream (h.setNo.map lens) ((slot.drop (h.start i)).take (h.stop i - h.start i)) with
    | .error e => .error e
    | .ok (out, _) =>
      if bitAt h.flags 5 ∧ crc32c 0 out ≠ nth 0 h.crcs i then .error eCrc else .ok out

/-- Size class of a slot that holds a header and streams of this many bytes, none where the page is incompressible
(R157). -/
def slotClass (total : Nat) : Option Nat := if 32 + total < 3840 then some (max 1 (ceilDiv (32 + total) 256)) else none

/-- A slot's bytes: header, streams, zeros (R157). -/
def slotImage (h : SlotHdr) (streams : List (List Byte)) : List Byte :=
  padTo (h.sizeClass * 256) 0 (h.bytes ++ streams.flatten)

end Sys2Proof.Machine
end

