-- ==== Sys2Proof/Machine/Store.lean ====
section
/-! DEFINITION. Lines of media: protection by level, counters, tags and the counter tree, check code and injection
(05_dram R137 to R143; 08_protection R202 to R214). -/

namespace Sys2Proof.Machine

/-! ### Keys (08_protection R202, R203, R209) -/

/-- Bytes `a .. a + n - 1` of a key slot. -/
def State.keyBytes (s : State) (slot a n : Nat) : Bytes :=
  leB n ((cellGet ({} : KeySlot) s.keys slot).key.toNat / 2 ^ (8 * a))

/-- A list of numbers below 256 as bytes, and back. -/
def toByteList (b : Bytes) : List Byte := b.map (BitVec.ofNat 8)
def ofByteList (b : List Byte) : Bytes := b.map (·.toNat)

/-- Protection state of a domain. -/
def State.prot_ (s : State) (d : Nat) : ProtDom := cellGet {} s.prot d
def State.updProt (s : State) (d : Nat) (f : ProtDom → ProtDom) : State :=
  { s with prot := cellPut {} s.prot d (f (s.prot_ d)) }

/-- A working key of a P2 domain: 0x44 the data key Kd, 0x54 the tree key Kt (R209). -/
def State.workKey (s : State) (d mark : Nat) : Bytes :=
  let half := s.keyBytes (s.eff (domPolicyKeySlot d)) (if mark = 0x44 then 0 else 32) 32
  let msg := half ++ leB 32 s.nonce ++ leB 2 d ++ leB 4 (s.prot_ d).act ++ [mark]
  (ofByteList (sha384 (toByteList msg))).take 32

/-! ### Counters and the tree (R204, R206, R211, R214) -/

/-- A counter block. -/
def State.ctr (s : State) (d page : Nat) : CtrBlock := cellGet {} s.ctrs (d * 2 ^ 36 + page)
def State.setCtr (s : State) (d page : Nat) (c : CtrBlock) : State :=
  { s with ctrs := cellPut {} s.ctrs (d * 2 ^ 36 + page) c }

/-- Minor counter of a line (R204). -/
def CtrBlock.minor (c : CtrBlock) (i : Nat) : Nat := bitsOf c.minors (7 * i) 7

/-- The 64 bytes of a counter block (R204). -/
def CtrBlock.bytes (c : CtrBlock) : Bytes := leB 64 (c.major % 2 ^ 64 + c.minors % 2 ^ 448 * 2 ^ 64)

/-- The counter block that 64 bytes hold. -/
def ctrOf (l : Line) : CtrBlock := { major := l.toNat % 2 ^ 64, minors := l.toNat / 2 ^ 64 }

/-- Level of the top node of a P2 domain of `e` extents (R210's Table 8.2). -/
def topLevel (e : Nat) : Nat :=
  let rec go : Nat → Nat → Nat → Nat
    | 0, l, _ => l
    | n + 1, l, k => if k ≤ 1 then l else go n (l + 1) (ceilDiv k 8)
  go 12 3 e

/-- Top level of a domain, 0 when it is not P2. -/
def State.top (s : State) (d : Nat) : Nat :=
  if s.domOn d ∧ s.eff (domPolicyProt d) = 2 then topLevel (s.winSize d) else 0

/-- Key of a tree node, and the node as trusted. -/
def nodeKey (d level idx : Nat) : Nat := d * 2 ^ 44 + level * 2 ^ 40 + idx
def State.node (s : State) (d level idx : Nat) : Line := cellGet 0 s.nodes (nodeKey d level idx)

/-- The 64 bytes of a node or counter block as trusted. -/
def State.nodeBytes (s : State) (d level idx : Nat) : Bytes :=
  if level = 0 then (s.ctr d idx).bytes else leB 64 (s.node d level idx).toNat

/-- The tag of a node's 64 bytes: 8 bytes of CMAC under Kt over them and the identity block (R211). -/
def State.nodeTag (s : State) (d level idx : Nat) (content : Bytes) : Nat :=
  ofLeB ((cmac (s.workKey d 0x54) (content ++ leB 16 (d + level * 2 ^ 10 + idx * 2 ^ 14))).take 8)

/-- A tag of a child in its parent's line. -/
def childTag (l : Line) (c : Nat) : Nat := bitsOf l.toNat (64 * c) 64

/-- The tags on the way from a node to the root follow it (R214); `fuel` is the number of levels. -/
def State.retag : Nat → State → Nat → Nat → Nat → State
  | 0, s, _, _, _ => s
  | n + 1, s, d, level, idx =>
    let tag := s.nodeTag d level idx (s.nodeBytes d level idx)
    if level ≥ s.top d then s.updProt d (fun p => { p with root := BitVec.ofNat 64 tag })
    else
      let l := s.node d (level + 1) (idx / 8)
      let l' : Line := BitVec.ofNat 512 (withBits l.toNat (64 * (idx % 8)) 64 tag)
      let s := { s with nodes := cellPut 0 s.nodes (nodeKey d (level + 1) (idx / 8)) l' }
      State.retag n s d (level + 1) (idx / 8)

/-- A counter block set, with its tree and the highest major counter (R214, R218). -/
def State.putCtr (s : State) (d page : Nat) (c : CtrBlock) : State :=
  let s := (s.setCtr d page c).updProt d (fun p => { p with highMajor := max p.highMajor c.major })
  State.retag 14 s d 0 page

/-! ### The ciphers of a line (R202, R203, R205) -/

/-- Where a line stands: its media line MA / 64, its domain, its line within the domain or page and slot line, whether it is
a slot line, and SEQ of the slot. -/
structure Place where
  half : Half
  ma : Nat
  dom : Nat
  line : Nat
  slot : Bool
  seq : Nat
  deriving DecidableEq, Repr

/-- The keystream of P0 (R202). -/
def p0Stream (key : Bytes) (p : Place) : Nat :=
  ofLeB ((List.range 4).flatMap fun j => e4 key (leB 16 (p.ma % 2 ^ 40 + j * 2 ^ 40 + p.half.idx * 2 ^ 42)))

/-- The tweak of P1 (R203). -/
def p1Tweak (p : Place) : Nat :=
  if p.slot then
    p.ma % 2 ^ 40 + p.half.idx * 2 ^ 40 + p.dom * 2 ^ 41 + (if p.line % 64 = 0 then 0 else p.seq * 2 ^ 51) + 2 ^ 127
  else p.line % 2 ^ 42 + p.dom * 2 ^ 42

/-- The nonce block N with BLK (R205). -/
def p2Nonce (p : Place) (c : CtrBlock) (blk : Nat) : Bytes :=
  leB 16 (blk + c.minor (p.line % 64) * 2 ^ 3 + c.major * 2 ^ 10 + p.line % 2 ^ 42 * 2 ^ 74
    + b2n p.slot * 2 ^ 116 + p.dom * 2 ^ 117)

/-- The counter-mode stream of P2. -/
def p2Stream (kd : Bytes) (p : Place) (c : CtrBlock) : Nat :=
  let ks := roundKeys kd
  ofLeB ((List.range 4).flatMap fun i => aesWith ks (p2Nonce p c (i + 1)))

/-- The tag of a line's ciphertext (R205). -/
def p2Tag (kd : Bytes) (p : Place) (c : CtrBlock) (cipher : Line) : Nat :=
  let ks := roundKeys kd
  let h := ofBeB (aesWith ks (List.replicate 16 0))
  let g := beB 16 (ghash h (chunksOf 16 4 (leB 64 cipher.toNat) ++ [beB 8 0 ++ beB 8 512]))
  ofLeB ((xorB g (aesWith ks (p2Nonce p c 0))).take 8)

/-- A line through its domain's cipher, encrypting (`dec` false) or decrypting. -/
def State.cipher (s : State) (dec : Bool) (p : Place) (l : Line) : Line :=
  let slot := s.eff (domPolicyKeySlot p.dom)
  match s.eff (domPolicyProt p.dom) with
  | 0 => l ^^^ BitVec.ofNat 512 (p0Stream (s.keyBytes slot 0 16) p)
  | 1 => BitVec.ofNat 512 (ofLeB (xts dec (s.keyBytes slot 0 32) (s.keyBytes slot 32 32) (p1Tweak p) (leB 64 l.toNat)))
  | _ => l ^^^ BitVec.ofNat 512 (p2Stream (s.workKey p.dom 0x44) p (s.ctr p.dom (p.line / 64)))

/-- The key of a line's tag, near (`slot` false) or of a slot, and the tag stored: those of a slot take the near ones' places in the
protection area when the page entry comes to name the slot (log 143). -/
def tagKey (d : Nat) (slot : Bool) (line : Nat) : Nat := (2 * d + b2n slot) * 2 ^ 42 + line
def State.tag (s : State) (d : Nat) (slot : Bool) (line : Nat) : Word := cellGet 0 s.tags (tagKey d slot line)

/-! ### Bursts (R137, R143, R154) -/

/-- The key of a burst, and the burst stored. -/
def burstKey (h : Half) (ma : Nat) : Nat := h.idx * 2 ^ 42 + ma
def State.burst (s : State) (h : Half) (ma : Nat) : Burst := cellGet 0 s.dram (burstKey h ma)

/-- A DRAM write command: an armed injection whose filter matches flips the burst (R143). A corrected write-back of the line that is
still owed is dropped (R140); of a line that a soft repair holds, the write buffer's entry is replaced (R151). -/
def State.putBurst (s : State) (h : Half) (ma : Nat) (b : Burst) : State :=
  let c := chanOf h (ma / 4)
  let hit := s.flag (dmcInjCtrlArm c)
    && (!s.flag (dmcInjCtrlFilterEn c)
      || ((ma % 2 ^ 40) ^^^ s.fld (dmcInjFilterAddr c)) &&& s.fld (dmcInjFilterMaskAddr c) == 0)
  let mask := (List.range 10).foldl (fun a w => a + s.fld (dmcInjMaskFlip c w) * 2 ^ (64 * w)) 0
  let b' := if hit then b ^^^ maskBurst mask else b
  let s := { s with dram := cellPut 0 s.dram (burstKey h ma) b' }
  let s := s.updChan c fun ch => { ch with
    backs := ch.backs.filter (fun w => w.ma != ma)
    soft := ch.soft.map (fun r => { r with lines := r.lines.map (fun q => if q.1 == ma then (ma, b') else q) }) }
  if hit then
    ((s.setFlag (dmcInjCtrlArm c) false).setFlag (dmcInjStatusDone c) true).setFld (dmcInjStatusMaLine c) (ma % 2 ^ 40)
  else s

/-- A line stored raw: a metadata line, or the poison mark over a line's stored data. -/
def State.putRaw (s : State) (h : Half) (ma : Nat) (l : Line) (poison : Bool) : State := s.putBurst h ma (encodeLine l poison)

/-- A line of a row under a soft repair, as the write buffer holds it (R151). -/
def State.softLine (s : State) (h : Half) (ma : Nat) : Option Burst :=
  ((s.chan (chanOf h (ma / 4))).soft).bind fun r => if r.phase = 0 then (r.lines.find? (fun q => q.1 == ma)).map (·.2) else none

/-- A line as read, with the error pattern of the read, and its decoding (R139); a line that the write buffer holds for a
soft repair comes from there (R151). `base` is what the stored burst is a difference from: the encoding of a metadata line
(log 140), 0 for other lines. -/
def State.readOn (s : State) (base : Burst) (h : Half) (ma : Nat) (err : Burst) : Decoded :=
  match s.softLine h ma with
  | some b => decodeBurst (base ^^^ b)
  | none => decodeBurst (base ^^^ s.burst h ma ^^^ err)
def State.readBurst (s : State) (h : Half) (ma : Nat) (err : Burst) : Decoded := s.readOn 0 h ma err

/-- A line encrypted, tagged where P2, encoded and written, under the counters as they stand. -/
def State.seal (s : State) (p : Place) (l : Line) (poison : Bool) : State :=
  let c := s.cipher false p l
  let s := if s.eff (domPolicyProt p.dom) = 2 then
      let t : Word := BitVec.ofNat 64 (p2Tag (s.workKey p.dom 0x44) p (s.ctr p.dom (p.line / 64)) c)
      { s with tags := cellPut 0 s.tags (tagKey p.dom p.slot p.line) t }
    else s
  s.putRaw p.half p.ma c poison

/-- A line decrypted and, for P2, checked against its tag: none when the check fails (R205, R217). -/
def State.unseal (s : State) (p : Place) (cipher : Line) : Option Line :=
  if s.eff (domPolicyProt p.dom) = 2
      ∧ p2Tag (s.workKey p.dom 0x44) p (s.ctr p.dom (p.line / 64)) cipher ≠ (s.tag p.dom p.slot p.line).toNat then none
  else some (s.cipher true p cipher)

/-- The next write of a near line rolls its page's counters over (R206). -/
def State.atRollover (s : State) (d line : Nat) : Bool :=
  s.eff (domPolicyProt d) == 2 && (s.ctr d (line / 64)).minor (line % 64) == 127

/-- A near line written: its minor counter advances for P2 (R206), and the poison table follows (15_faults R345). -/
def State.writeNear (s : State) (h : Half) (d line ma : Nat) (l : Line) (poison external : Bool) : State :=
  let s := if s.eff (domPolicyProt d) = 2 then
      let c := s.ctr d (line / 64)
      let i := line % 64
      s.putCtr d (line / 64) { c with minors := withBits c.minors (7 * i) 7 (c.minor i + 1) }
    else s
  let s := s.seal ⟨h, ma, d, line, false, 0⟩ l poison
  if poison then s.addPoison h d line 1 external else s.dropPoison h d line 1

/-- A near line as the media holds it, with no read error: its data, and whether it reads poisoned. -/
def State.peekNear (s : State) (h : Half) (d line ma : Nat) (err : Burst) : Line × Bool × Decoded :=
  let r := s.readBurst h ma err
  if r.outcome = 1 ∨ r.outcome = 3 then
    match s.unseal ⟨h, ma, d, line, false, 0⟩ r.line with
    | some l => (l, false, r)
    | none => (0, true, r)
  else (s.cipher true ⟨h, ma, d, line, false, 0⟩ r.line, true, r)

/-! ### Slots (06_shingle R158; 08_protection R203, R207) -/

/-- The place of line `j` of a slot that starts at unit `base` and holds a page. -/
def slotPlace (h : Half) (base d page j seq : Nat) : Place := ⟨h, base * 4 + j, d, page * 64 + j, true, seq⟩

/-- A slot written, line by line, encrypted with its SEQ. -/
def State.writeSlot (s : State) (h : Half) (base d page seq : Nat) (image : List Byte) : State :=
  s.each ((List.range (image.length / 64))) fun s j =>
    s.seal (slotPlace h base d page j seq) (bytesLine ((image.drop (64 * j)).take 64)) false

/-- A slot line as read: its plaintext, or none when it is uncorrectable or fails its tag. -/
def State.readSlotLine (s : State) (h : Half) (base d page j seq : Nat) (err : Burst) : Option Line × Decoded :=
  let r := s.readBurst h (base * 4 + j) err
  if r.outcome = 1 ∨ r.outcome = 3 then (s.unseal (slotPlace h base d page j seq) r.line, r) else (none, r)

/-- SEQ of the slot, from line 0's plaintext (R203). -/
def seqOf (l0 : Line) : Nat := l0.toNat / 2 ^ 224 % 2 ^ 32

/-! ### Lengths of the static sets (06_shingle R168) -/

/-- The 306 lengths of a set. -/
def State.setLens (s : State) (n : Nat) : List Nat :=
  if n = 0 then romLens else (List.range 306).map fun i => bitsOf (s.reg (shgSetLen n (i / 16))).toNat (4 * (i % 16)) 4

/-- A set is ACTIVE. -/
def State.setActive (s : State) (n : Nat) : Bool := n == 0 || s.fld (shgSetStateState n) == 1

end Sys2Proof.Machine
end

