-- ==== Sys2Proof/Machine/DramCore.lean ====
section
/-! DEFINITION. What a DRAM read records, row counts and the repair decision (05_dram R139 to R141, R150). -/

namespace Sys2Proof.Machine

/-- The row of a line MA / 64 (R133, R150). -/
def rowOf (ma : Nat) : RowKey := { range := ma % 2 ^ 36 / 2 ^ 13, sub := ma % 64 }

/-- MA of a line as a record names it: the home half in bit 47 (15_faults Table 15.4). -/
def recordMa (h : Half) (ma : Nat) : Nat := ma * 64 + h.idx * 2 ^ 47

/-- The soft-repair resource of a row: its slot and rank, its bank group and its subchannel (R133, R150; log 52). -/
def State.repairUnit (s : State) (c : Nat) (k : RowKey) : Nat × Nat × Nat :=
  (k.range / 2 ^ (if s.flag (dmcStatusDensity c) then 17 else 16), k.sub / 8, k.sub % 2)

/-- A stage replay of a half is counted (04_request R119, R120). -/
def State.stageReplay (s : State) (h : Half) : State := (s.count rqErrCntStageReplay 1).pulse h bRq 0 2 none

/-- The active table of a channel has an MC window of 1,800 ns plus W (Table 5.8). -/
def State.repairWindow (s : State) (c : Nat) : Bool :=
  match longestWindow (s.ttActive c) 8 with
  | none => true
  | some n => decide (18000 + s.sweep10 c ≤ n * 10)

/-- Rows of a channel that have been soft-repaired since boot, or are about to be. -/
def Channel.repairs (c : Channel) : List RowKey := c.repaired ++ c.softWait ++ (match c.soft with | some r => [r.key] | none => [])

/-- A row may be soft-repaired (Table 5.8): a repair that waits or runs has its resource, and its row is not repaired twice. -/
def State.canRepair (s : State) (c : Nat) (k : RowKey) : Bool :=
  let ch := s.chan c
  s.flag (dmcRepairCfgSpprEn c) && !ch.repairs.contains k
    && !ch.repairs.any (fun r => s.repairUnit c r == s.repairUnit c k) && s.repairWindow c

/-- The 512 KiB range of a row is to be retired (R153); a repair of the row that waits is given up (Table 5.8). -/
def State.retireRow (s : State) (c : Nat) (k : RowKey) : State :=
  s.updChan c fun ch =>
    let ch := { ch with softWait := ch.softWait.filter (· != k) }
    if ch.retired.contains k.range || ch.retiring.contains k.range || ch.deferred.contains k.range then ch
    else { ch with retiring := ch.retiring ++ [k.range] }

/-- A full row table gives up the entry with the lowest count, the oldest of equals (R150). -/
def evictRow (rows : List RowCount) : List RowCount :=
  let low := rows.foldl (fun m r => min m r.count) 255
  match takeFirst (fun r => r.count == low) rows with
  | some (_, rest) => rest
  | none => rows

/-- A CE of a row is counted, and Table 5.8 decides when the count reaches the threshold (R150). -/
def State.rowCe (s : State) (c : Nat) (k : RowKey) : State :=
  let ch := s.chan c
  let old := ((ch.rows.find? (fun r => r.key == k)).map (·.count)).getD 0
  let cnt := satAdd 8 old 1
  let rows :=
    if ch.rows.any (fun r => r.key == k) then mapFirst (fun r => r.key == k) (fun r => { r with count := cnt }) ch.rows
    else (if ch.rows.length < 4096 then ch.rows else evictRow ch.rows) ++ [{ key := k, count := cnt }]
  let s := s.updChan c fun ch => { ch with rows }
  let s := s.setFld (dmcRepairStatusTracked c) rows.length
  let thr := s.fld (dmcRepairCfgRowCeThresh c)
  if decide (old < thr) && decide (thr ≤ cnt) then
    if s.canRepair c k then s.updChan c fun ch => { ch with softWait := ch.softWait ++ [k] }
    else if (s.chan c).softWait.contains k || ((s.chan c).soft.any fun r => r.key == k) then s
    else s.retireRow c k
  else s

/-- The last error of a channel (DMC_ECC_LAST). -/
def State.eccLast (s : State) (c ma dev kind : Nat) : State :=
  ((s.setFld (dmcEccLastMaLine c) (ma % 2 ^ 40)).setFld (dmcEccLastDevice c) dev).setFld (dmcEccLastKind c) kind

/-- A line read is counted (Table 18.1, Table 18.2). -/
def State.countRead (s : State) (h : Half) (ma : Nat) : State :=
  ((s.pulse h bDmc (chanOf h (ma / 4) % 12) 0 none).pulse h bDmc (chanOf h (ma / 4) % 12) 1 none).fixed h 5 1

/-- A line write is counted. -/
def State.countWrite (s : State) (h : Half) (ma : Nat) : State :=
  ((s.pulse h bDmc (chanOf h (ma / 4) % 12) 0 none).pulse h bDmc (chanOf h (ma / 4) % 12) 2 none).fixed h 6 1

/-- Where a line that was read belongs: domain, first line, lines of the DPA range that a record of it names. -/
structure Of where
  dom : Nat
  line : Nat
  len : Nat
  deriving DecidableEq, Repr

/-- What a read that ended in an outcome records: counts, records, the write-back owed, the row's count, and for a confirmed
outcome 5 the poison mark and the row's retirement (R139 to R141). `base` is as `readOn` has it; `comber` is DETAIL[4]. A record of
a slot line names the DPA range of the slot's page (log 142). `tell` says that DMC_UE is recorded here. -/
def State.readNote (s : State) (base : Burst) (h : Half) (ma : Nat) (r : Decoded) (of_ : Option Of) (comber tell : Bool) : State :=
  let c := chanOf h (ma / 4)
  let det : Det := { code := cDmcCe, cls := clsCe, unit := uChannel c, dom := of_.map (·.dom),
                     addr := of_.map (fun q => (s.dpaOf q.dom q.line, q.len)), ma := some (recordMa h ma),
                     detail := (if r.outcome = 5 then 15 else r.device) + 16 * b2n comber }
  let owe := fun (poison : Bool) (s : State) => s.updChan c fun ch => { ch with
    backs := ch.backs ++ [{ ma, burst := base ^^^ encodeLine r.line poison, since := s.now }]
    lapCe := ch.lapCe + b2n comber }
  match r.outcome with
  | 2 => s.count (dmcEccCntPoisonRead c) 1
  | 3 =>
    let s := ((s.count (dmcEccCntCe c) 1).eccLast c ma r.device 1).pulse h bDmc (c % 12) 4 none
    ((owe false s).note det).rowCe c (rowOf ma)
  | 4 =>
    let s := (((s.count (dmcEccCntCe c) 1).count (dmcEccCntPoisonRead c) 1).eccLast c ma r.device 3).pulse h bDmc (c % 12) 4 none
    ((owe true s).note det).rowCe c (rowOf ma)
  | 5 =>
    let s := (s.count (dmcEccCntUe c) 1).eccLast c ma 0 2
    let s := s.putBurst h ma (base ^^^ encodeLine r.line true)
    let s := match of_ with | some q => (if q.len = 1 then s.addPoison h q.dom q.line 1 false else s) | none => s
    (if tell then s.note { det with code := cDmcUe, cls := clsUcr } else s).retireRow c (rowOf ma)
  | _ => s

/-- A line that the device itself reads, once again where outcome 5 comes first, which counts as a stage replay (R141): what it
decodes to, and the patterns left. -/
def State.deviceRead (s : State) (base : Burst) (h : Half) (ma : Nat) (errs : List Burst) (of_ : Option Of) (comber tell : Bool) :
    Decoded × List Burst × State :=
  let r := s.readOn base h ma (errs.headD 0)
  let s := s.countRead h ma
  if r.outcome = 5 then
    let again := s.readOn base h ma (errs.tail.headD 0)
    (again, errs.tail.tail, ((s.stageReplay h).countRead h ma).readNote base h ma again of_ comber tell)
  else (r, errs.tail, s.readNote base h ma r of_ comber tell)

end Sys2Proof.Machine
end

