-- ==== Sys2Proof/Machine/MirCore.lean ====
section
/-! DEFINITION. The sending side of mirroring: states, the dirty log, and messages (13_pairing R300 to R313). The commands
are in Mirror.lean. -/

namespace Sys2Proof.Machine

/-- States of Table 13.4, as MIR_DOM_STATE encodes them. -/
abbrev mUnpaired : Nat := 0
abbrev mPriSolo : Nat := 1
abbrev mPriResync : Nat := 2
abbrev mPriMirrored : Nat := 3
abbrev mPriYielded : Nat := 4
abbrev mSecDetached : Nat := 5
abbrev mSecResync : Nat := 6
abbrev mSecMirrored : Nat := 7
abbrev mOrphaned : Nat := 8

/-- State of a mirrored domain, and its mirror mode in effect: 0 NONE, 1 SYNC, 2 ASYNC. -/
def State.mState (s : State) (d : Nat) : Nat := s.fld (mirDomStateW0State d)
def State.mMode (s : State) (d : Nat) : Nat := s.eff (domMirrorMode d)

/-- The state is one of the secondary ones. -/
def secState (st : Nat) : Bool := decide (mSecDetached ≤ st ∧ st ≤ mSecMirrored)

/-- A primary that sends to a matched partner. -/
def State.mirroring (s : State) (d : Nat) : Bool :=
  (s.mState d == mPriResync || s.mState d == mPriMirrored) && s.flag (mirDomStateW0Matched d)

/-- A message queued for the egress of a link that is up: kind (0 control, 1 SYNC, 2 ASYNC, 3 resync, 4 repair), class, colour
(12_strait R283). -/
def State.send (s : State) (l : Half) (kind cls color : Nat) (m : MirMsg) : State :=
  if !s.straitUp l.idx then s
  else { s with strait := s.strait.upd l (fun k => { k with queue := k.queue ++ [(kind, cls, color, m)] }) }

/-- Milliseconds of SOLO time (R312). -/
def State.soloMs (s : State) (d : Nat) : Nat :=
  match (s.mirDom d).soloFrom with
  | some t => min ((s.now - t) / 1000000) (2 ^ 30 - 1)
  | none => 0

/-- A domain's ROLE message (R300), where its link is up. -/
def State.sendRole (s : State) (d : Nat) : State :=
  let l := s.home d
  if !s.straitUp l.idx then s
  else s.send l 0 0 0 (.role d (s.eff (mirDomW0PeerDomain d)) (s.eff (mirDomW0Role d)) (s.mMode d) (s.mState d)
    (s.flag (mirDomStateW0Continuous d)) (s.flag (mirDomStateW0DirtyOk d)) (s.soloMs d) (s.eff (mirDomW1GrantEpoch d))
    (s.fld (mirDomStateW1MirEpoch d)))

/-- SOLO_DOMAINS and RESYNC_BUSY of a half follow the domains' states. -/
def State.mirTally (s : State) (h : Half) : State :=
  let solo := ((List.range 1024).filter (fun d => s.mState d == mPriSolo && s.home d == h)).length
  let m := s.mirror.get h
  (s.setFld (mirStatusSoloDomains h.idx) solo).setFlag (mirStatusResyncBusy h.idx) (!m.resyncs.isEmpty || !m.repairs.isEmpty)

/-- A state change of a domain: its ROLE message follows (R300). -/
def State.setMState (s : State) (d st : Nat) : State :=
  ((s.setFld (mirDomStateW0State d) st).sendRole d).mirTally (s.home d)

/-- An extent marked MIRROR_DIRTY, or cleaned; DIRTY_EXTENTS follows (R312). -/
def State.setDirty (s : State) (d e : Nat) (b : Bool) : State :=
  let x := s.ext d e
  if x.dirty == b then s
  else
    let f := mirDomStateW0DirtyExtents d
    let n := s.fld f
    (s.setExt d e { x with dirty := b }).setFld f (if b then n + 1 else n - 1)

/-- A record of the mirror engine about a domain. -/
def State.mirSay (s : State) (d code cls : Nat) (line : Option Nat) (detail : Nat) : State :=
  s.note { code, cls, unit := uHalf (s.home d).idx, dom := some d, addr := line.map (fun l => (s.dpaOf d l, 1)), detail }

/-- The unconfirmed log takes an extent, once per cut interval (R310). -/
def State.logExtent (s : State) (h : Half) (d e : Nat) : State :=
  let key := (s.fld (mirCutCut h.idx), d, e)
  if (s.mirror.get h).log.contains key then s
  else
    let s := { s with mirror := s.mirror.upd h (fun m => { m with log := m.log ++ [key] }) }
    let n := (s.mirror.get h).log.length
    s.setFld (mirStatusLogInuse h.idx) (if n ≥ 32768 then 0xFFFF else n)

/-- The half sends no ASYNC message now (R310). -/
def State.lagging (s : State) (h : Half) : Bool :=
  decide (s.fld (mirCutCut h.idx) - s.fld (mirHwmHwm h.idx) ≥ s.fld mirCfgMaxLagCuts)
    || decide ((s.mirror.get h).log.length ≥ 32768)

/-- LAG_STALL follows, with its event when it rises (R310). -/
def State.lagStall (s : State) (h : Half) : State :=
  let on := s.lagging h
  let was := s.flag (mirStatusLagStall h.idx)
  let s := s.setFlag (mirStatusLagStall h.idx) on
  if on && !was then s.setFlag mirEvtLagStall true else s

/-- Mirror writes of a domain wait after stage 5 (R301, R310). -/
def State.mirHeld (s : State) (d : Nat) : Bool :=
  s.mirroring d && (match s.mMode d with
    | 1 => (s.mirDom d).holdCut.isSome
    | 2 => (s.mirDom d).holdSync.isSome || s.lagging (s.home d)
    | _ => false)

/-- A write, or a run of pages, that takes effect now is mirrored or marked dirty: `msg` is its message to the partner's
domain. Answers the count that its completion waits for (R303, R308, R310, R312). -/
def State.mirrorOut (s : State) (d e cls color : Nat) (msg : Nat → MirMsg) : State × Option Nat :=
  let h := s.home d
  if s.mState d = mPriSolo then (s.setDirty d e true, none)
  else if !s.mirroring d then (s, none)
  else
    let m := msg (s.eff (mirDomW0PeerDomain d))
    if s.mMode d = 1 then
      let n := ((s.mirror.get h).syncSent + 1) % 2 ^ 32
      let s := { s with mirror := s.mirror.upd h (fun (k : Mirror) => { k with
        syncSent := n, unacked := k.unacked ++ [({ num := n, dom := d, ext := e } : SyncSent)] }) }
      ((s.send h 1 cls color m).pulse h bMir 0 0 (some d), some n)
    else if s.mMode d = 2 then
      ((((s.logExtent h d e).send h 2 cls color m).pulse h bMir 0 1 (some d)).lagStall h, none)
    else (s, none)

/-- A count covers another, both modulo 2^32. -/
def covers32 (count n : Nat) : Bool := decide ((count + 2 ^ 32 - n % 2 ^ 32) % 2 ^ 32 < 2 ^ 31)

/-- A count of the link was covered or its domain went SOLO: a hold of R301 on that count ends. -/
def State.endHolds (s : State) (count : Nat) : State :=
  { s with mirDoms := (s.mirDoms.map (fun q => (q.1, match q.2.holdSync with
    | some n => if covers32 count n then { q.2 with holdSync := none } else q.2
    | none => q.2))).filter (fun q => q.2 != {}) }

/-- Extents of a domain that R312 marks: unacknowledged SYNC messages and the unconfirmed log. -/
def State.openExtents (s : State) (d : Nat) : List Nat :=
  let m := s.mirror.get (s.home d)
  (((m.unacked.filter (fun u => u.dom == d)).map (·.ext)) ++ ((m.log.filter (fun k => k.2.1 == d)).map (·.2.2))).eraseDups

/-- Pages in flight on a link are given up: their locks go back (R315). -/
def State.dropPages (s : State) (l : Half) (p : PageOut → Bool) : State :=
  let out := (s.mirror.get l).pagesOut.filter p
  let held := fun (k : PageLock) => out.any (fun o => o.dom == k.dom && decide (o.page ≤ k.page ∧ k.page < o.page + o.len))
  let locks := s.locks.filter (fun k => !held k)
  { s with locks, mirror := s.mirror.upd l (fun (m : Mirror) => { m with pagesOut := m.pagesOut.filter (fun o => !p o) }) }

/-- A primary enters PRI_SOLO (R312): `rec` is MIR_SOLO's record; the caller lets the waiting writes complete. A zeroing run
waits for its acknowledgement no more. -/
def State.enterSolo (s : State) (d : Nat) (rec : Bool) : State :=
  let h := s.home d
  let s := s.each (s.openExtents d) fun s e => s.setDirty d e true
  let s := { s with mirror := s.mirror.upd h (fun m => { m with
    log := m.log.filter (fun k => k.2.1 != d), resyncs := m.resyncs.filter (fun r => r.dom != d) }) }
  let s := s.dropPages h (fun p => p.dom == d)
  let n := (s.mirror.get h).log.length
  let s := s.setFld (mirStatusLogInuse h.idx) (if n ≥ 32768 then 0xFFFF else n)
  let s := s.updMirDom d fun m => { m with soloFrom := some s.now, holdSync := none, holdCut := none }
  let s := { s with zero := s.zero.map (fun (z : ZeroRun) => if z.dom == d then { z with await := none } else z) }
  let s := (s.setFlag (mirDomStateW0Matched d) false).setFld (mirDomStateW0SoloS d) 0
  let s := ((s.setFlag mirEvtSolo true).setMState d mPriSolo).lagStall h
  if rec then s.mirSay d cMirSolo clsCe none 0 else s

/-- A mirrored primary goes SOLO, a secondary is detached: the link is down, or the partner no longer matches
(Table 13.4). -/
def State.unmatch (s : State) (d : Nat) : State :=
  let st := s.mState d
  if st = mPriResync ∨ st = mPriMirrored then s.enterSolo d true
  else if st = mSecResync ∨ st = mSecMirrored then (s.setFlag (mirDomStateW0Matched d) false).setMState d mSecDetached
  else s.setFlag (mirDomStateW0Matched d) false

/-- A message of the partner is committed: it counts no more as open (R304, R308). -/
def State.mirrorDone (s : State) (l : Half) (sync : Bool) (n : Nat) : State :=
  { s with mirror := s.mirror.upd l (fun m =>
    if sync then { m with uncommitted := m.uncommitted.filter (· != n) }
    else { m with asyncOpen := m.asyncOpen.filter (· != n), cuts := m.cuts.map (fun c => (c.1, c.2.filter (· != n))) }) }

/-- A secondary loses data: its copy is no longer continuous (Table 13.4). -/
def State.dataLost (s : State) (d : Nat) : State :=
  if secState (s.mState d) && s.flag (mirDomStateW0Continuous d) then
    (s.setFlag (mirDomStateW0Continuous d) false).sendRole d
  else s

/-- What a host finds at a domain (Table 13.5): reads poisoned, writes dropped and how they count. -/
def State.mirReads (s : State) (d : Nat) : Bool :=
  let st := s.mState d
  !(st == mOrphaned || (secState st && !s.effFlag (mirDomW0SecRead d)))

/-- A host write is dropped by Table 13.5: it is counted, and recorded at most once per domain per 10 ms. -/
def State.mirDrop (s : State) (d : Nat) : Option State :=
  let st := s.mState d
  if !(st == mOrphaned || st == mPriYielded || secState st) then none
  else
    let i := (s.home d).idx
    let s := s.count (if st = mPriYielded then mirCntYieldWriteDrop i else mirCntSecWriteDrop i) 1
    let due := match (s.mirDom d).dropAt with | some t => decide (s.now ≥ t + 10000000) | none => true
    if due then
      some ((s.updMirDom d fun m => { m with dropAt := some s.now }).mirSay d cMirWriteDropped clsUcr none 0)
    else some s

end Sys2Proof.Machine
end

