-- ==== Sys2Proof/Machine/ReqCore.lean ====
section
/-! DEFINITION. The request table, the completion of requests, items that a fence fails, and alarms of the protection block
(04_request R113 to R116; 15_faults R343, R344; 08_protection R217). -/

namespace Sys2Proof.Machine

/-! ### Pages -/

/-- The page as its extent and its entry give it (03_domains R87); a page of a frame that moves is in the new frame below the
watermark (R92). -/
def State.pageNow (s : State) (d p : Nat) : Page :=
  let x := s.ext d (p / 512)
  match x.kind with
  | .unmapped | .zero => {}
  | .frame =>
    let base := match s.frameMoves.find? (fun m => m.dom == d && m.ext == p / 512) with
      | some m => if p % 512 < m.mark then m.dest else x.addr
      | none => x.addr
    { state := .near, addr := base + p % 512 * 16 }
  | .retired => { state := .retired }
  | .paged => s.page d p

/-! ### The request table -/

/-- A request by identity, and a request changed. -/
def State.req (s : State) (rid : Nat) : Option Req := s.reqs.find? (fun r => r.rid == rid && r.stage != .waitEntry)
def State.updReq (s : State) (rid : Nat) (f : Req → Req) : State :=
  { s with reqs := mapFirst (fun r => r.rid == rid && r.stage != .waitEntry) f s.reqs }
def State.setStage (s : State) (rid : Nat) (st : Stage) : State := s.updReq rid fun r => { r with stage := st }

/-- The half that a request identity names (R113). -/
def ridHalf (rid : Nat) : Half := halfOf (rid / 32768)

/-- The port of a request's host. -/
def Req.port (r : Req) : Option Nat := match r.org with | .host p _ => some p | _ => none

/-- The request is a read or a write of data. -/
def Req.isRead (r : Req) : Bool := r.kind == .rd || r.kind == .unsupData
def Req.isWrite (r : Req) : Bool := r.kind == .wr || r.kind == .wrPtl

/-- The request's domain is QC0 (R115). -/
def State.reqQc0 (s : State) (r : Req) : Bool := r.hasDom && s.eff (domPolicyTclass r.dom) == 0

/-- A green QC0 request (09_qos R231). -/
def Req.green0 (r : Req) : Bool := r.hasDom && r.cls == 0 && r.color == 0

/-- A buffered write is a green operation of QC0. -/
def WbEntry.green0 (w : WbEntry) : Bool := w.cls == 0 && w.color == 0

/-- The registers that show the request tables and the ports' use of them. -/
def State.reqTally (s : State) : State :=
  let s := s.each [Half.a, Half.b] fun s h =>
    let n := (s.reqs.filter (fun r => r.stage != .waitEntry && ridHalf r.rid == h)).length
    (s.setFld (rqStatusTableInuse h.idx) n).setFld (rqStatusTablePeak h.idx) (max n (s.fld (rqStatusTablePeak h.idx)))
  s.each (List.range 16) fun s p =>
    let mine := s.reqs.filter (fun r => r.port == some p)
    let n := (mine.filter (fun r => r.stage != .waitEntry)).length
    ((s.setFld (hpReqOccInflight p) n).setFld (hpReqOccPeak p) (max n (s.fld (hpReqOccPeak p)))).setFld
      (hpReqOccWaiting p) (mine.filter (fun r => r.stage == .waitEntry)).length

/-- The port reserve in effect (R116). -/
def State.portReserve (s : State) (p : Nat) : Nat :=
  if s.flag (rqStatusReservesVoid (p / 8)) then 0 else s.fld (hpReqCapReserve p)

/-- The sum of the reserves of a half's enabled ports. -/
def State.portReserves (s : State) (h : Half) : Nat :=
  (((List.range 8).map (8 * h.idx + ·)).filter s.portOn).foldl (fun a p => a + s.portReserve p) 0

/-- The reserves are checked (R116). -/
def State.checkReserves (s : State) (h : Half) : State :=
  let sum := (((List.range 8).map (8 * h.idx + ·)).filter s.portOn).foldl (fun a p => a + s.fld (hpReqCapReserve p)) 0
  if (s.fld rqCfgQc0TableReserve + sum) * 2 > s.fld (rqStatusTableLimit h.idx) ∧ !s.flag (rqStatusReservesVoid h.idx) then
    (s.setFlag (rqStatusReservesVoid h.idx) true).say cRqReserveInvalid clsCe (uHalf h.idx)
  else s

/-- The pool from which a request may take an entry, where it may: 0 shared, 1 the QC0 reserve, 2 its port's (R115). -/
def State.poolFor (s : State) (r : Req) : Option Nat :=
  let h := r.ingress
  let held := s.reqs.filter (fun q => q.stage != .waitEntry && ridHalf q.rid == h)
  let mine := fun (p : Nat) => (held.filter (fun (q : Req) => q.port == some p)).length
  let full := match r.port with
    | some p => decide (mine p ≥ s.fld (hpReqCapMaxInflight p))
    | none => false
  let room := decide ((held.filter (fun (q : Req) => q.pool == 0)).length
    < s.fld (rqStatusTableLimit h.idx) - s.fld rqCfgQc0TableReserve - s.portReserves h)
  let shared := if room then some 0 else none
  if full then none
  else if s.reqQc0 r && decide ((held.filter (fun (q : Req) => q.pool == 1)).length < s.fld rqCfgQc0TableReserve) then some 1
  else match r.port with
    | some p => if mine p < s.portReserve p then some 2 else shared
    | none => shared

/-- The first free index at or after `i` (R113, Table 1.8); `fuel` is the size of the table. -/
def freeIndex (used : Nat → Bool) : Nat → Nat → Nat
  | 0, i => i
  | n + 1, i => if used (i % 32768) then freeIndex used n (i + 1) else i % 32768

/-- An index of a half's table: not held, and not in a fenced bank group. -/
def State.takeIndex (s : State) (h : Half) : Nat :=
  let mine := (s.reqs.filter (fun r => r.stage != .waitEntry && ridHalf r.rid == h)).map (·.rid % 32768)
  freeIndex (fun i => mine.contains i || s.fenced (uSram h.idx (10 + i / 16384))) 32768 (s.nextRid.get h)

/-- A request takes an entry from a pool: it is sampled, and joins the end of its domain's queue (R111, R113). -/
def State.enterReq (s : State) (r : Req) (pool : Nat) (stage : Stage) : State :=
  let h := r.ingress
  let i := s.takeIndex h
  let (s, r) := s.sampleAt2 r
  let r := { r with rid := i + 32768 * h.idx, pool, stage, stamps := { r.stamps with enqueue := s.now } }
  ({ s with reqs := s.reqs ++ [r], nextRid := s.nextRid.set h ((i + 1) % 32768) }).reqTally

/-- Exclusion cause `n` occurred to a request of class 0 (10_latency R257): the lowest code stays. -/
def Req.exclude (r : Req) (n : Nat) : Req :=
  if r.green0 ∧ (r.excl = 0 ∨ n < r.excl) then { r with excl := n } else r

/-- The request's half and its home half differ: it crosses the die-to-die link, and its response crosses back (01_architecture
R22). -/
def Req.crosses (r : Req) : Bool := r.ingress != r.home

/-- Where a request goes from stage 2: to its response where it is answered, over the die-to-die link to its home half, or
to its domain queue (R104; 01_architecture R22). -/
def Req.first (r : Req) : Stage := if r.answered then .respond else if r.crosses then .cross else .queued

/-- A request at stage 2: it takes an entry or waits (R115). -/
def State.admitReq (s : State) (r : Req) : State :=
  let blocked := s.reqs.any (fun q => q.stage == .waitEntry && q.port == r.port && q.ingress == r.ingress
    && s.reqQc0 q == s.reqQc0 r)
  match (if blocked then none else s.poolFor r) with
  | some p => s.enterReq r p r.first
  | none => ({ s with reqs := s.reqs ++ [{ r.exclude 4 with stage := .waitEntry }] }).reqTally

def State.exclude (s : State) (rid n : Nat) : State := s.updReq rid (·.exclude n)

/-! ### Completion -/

/-- A request leaves the table: drains no longer wait for it. -/
def State.dropReq (s : State) (rid : Nat) : State :=
  let left : List Req := s.reqs.filter (fun (r : Req) => r.rid != rid || r.stage == .waitEntry)
  let free := fun (w : WbEntry) => { w with after := w.after.filter (· != rid) }
  let channels : List Channel := s.channels.map fun (c : Channel) => { c with wb := c.wb.map free }
  (({ s with reqs := left, channels } : State).dropWait rid).reqTally

/-- A line of a domain job has come back, or been taken (14_offload R330). -/
def State.jobLine (s : State) (fn ring idx : Nat) (r : Req) : State :=
  let mine := fun (j : Job) => j.fn == fn && j.ring == ring && j.idx == idx && !j.written
  { s with jobs := mapFirst mine (fun (j : Job) => { j with lines := j.lines ++ [(r.line, r.rdata, r.rpoison)] }) s.jobs }

/-- A request reaches stage 10 in its receiving half. A host's waits for RESPONSE_SEND; the others complete here. -/
def State.finishReq (s : State) (r : Req) : State :=
  let rid := r.rid
  match r.org with
  | .host _ _ => s.updReq rid fun _ => { r with stage := .respond }
  | .offload fn ring idx =>
    let s := (s.jobLine fn ring idx r).sampleDone r 0
    s.dropReq rid
  | .mirror l sync n => (s.mirrorDone l sync n).dropReq rid
  | .internal => s.dropReq rid

/-- The die-to-die link and both halves are whole (01_architecture R45). -/
def State.linkWhole (s : State) : Bool := !s.fenced uD2d && !s.fenced (uHalf 0) && !s.fenced (uHalf 1)

/-- A request's result is known: its response crosses back where it is not in its receiving half (stage 9), or is at stage 10
(R104; 01_architecture R22). -/
def State.answer (s : State) (rid : Nat) (data : Line) (poison : Bool) : State :=
  match s.req rid with
  | none => s
  | some r =>
    let away := r.crosses && r.stage != .cross && r.stage != .crossBack && r.stage != .respond
    let r := { r with rdata := data, rpoison := poison }
    if away && s.linkWhole then s.updReq rid fun _ => { r with stage := .crossBack } else s.finishReq r

/-- A request that has crossed joins the end of its domain's queue (R110, R111). -/
def State.joinQueue (s : State) (r : Req) : State :=
  let rest : List Req := s.reqs.filter (fun (q : Req) => q.rid != r.rid || q.stage == .waitEntry)
  { s with reqs := rest ++ [{ r with stage := .queued, stamps := { r.stamps with enqueue := s.now } }] }

/-- An accepted flit carries a request across on virtual channel 1, in the order of its port, or a response on channel 2
(01_architecture R22, Table 1.3; R111). -/
def State.carry (s : State) (h : Half) (vc rid : Nat) : State :=
  match s.req rid with
  | none => s
  | some r =>
    let ahead := (s.reqs.takeWhile (fun q => q.rid != rid || q.stage == .waitEntry)).any fun q =>
      q.stage == .cross && q.ingress == r.ingress && q.port == r.port
    if vc = 1 ∧ r.stage = .cross ∧ r.home = h ∧ !ahead then s.joinQueue r
    else if vc = 2 ∧ r.stage = .crossBack ∧ r.ingress = h then s.finishReq r
    else s

/-- A read completes with data or poisoned (R122); zeros stand for the data of a poisoned one. -/
def State.answerRead (s : State) (rid : Nat) (data : Line) (poison : Bool) : State :=
  s.answer rid (if poison then 0 else data) poison

/-- Writes of a domain that waited for an acknowledgement complete (13_pairing R303, R312). -/
def State.releaseSync (s : State) (ok : Req → Bool) : State :=
  s.each ((s.reqs.filter (fun r => r.stage == .mirrorWait && ok r)).map (·.rid)) fun s rid =>
    (s.updReq rid fun r => { r with stamps := { r.stamps with mirror := s.now }, await := none }).answer rid 0 false

/-- A mirrored primary enters PRI_SOLO and its waiting writes complete (13_pairing R312). -/
def State.goSolo (s : State) (d : Nat) (rec : Bool) : State :=
  (s.enterSolo d rec).releaseSync (fun r => r.dom == d)

/-- The partner no longer matches, or the link is down (Table 13.4). -/
def State.splitPair (s : State) (d : Nat) : State := (s.unmatch d).releaseSync (fun r => r.dom == d && s.mState d != mPriSolo)

/-- All 64 bytes. -/
def allBytes : BitVec 64 := BitVec.ofNat 64 (2 ^ 64 - 1)

/-! ### Items that a fence fails (R343, R344) -/

/-- A run of failed lines ends: one aggregate record (R344). -/
def State.closeRun (s : State) (u : Nat) : State :=
  let x := s.unit u
  match x.openRun, x.episode with
  | some (d, _, n, dpa, _), some name =>
    let s := s.itemRecord { code := cFltItemFailed, cls := clsUcr, unit := u, dom := some d, addr := some (dpa, n),
                            detail := name * 2 ^ 32 } true
    s.updUnit u fun x => { x with
      openRun := none
      runs := if x.runs.any (fun q => q.1 == d) then mapFirst (fun q => q.1 == d) (fun q => (d, q.2 + 1)) x.runs else (d, 1) :: x.runs }
  | _, _ => s

/-- The folded lines of a domain take one more (R344). -/
def foldLine (d dpa : Nat) (xs : List (Nat × Nat × Nat × Nat)) : List (Nat × Nat × Nat × Nat) :=
  if xs.any (fun q => q.1 == d) then mapFirst (fun q => q.1 == d) (fun q => (d, min q.2.1 dpa, max q.2.2.1 dpa, q.2.2.2 + 1)) xs
  else xs ++ [(d, dpa, dpa, 1)]

/-- A line fails by the fence of a unit: reported one by one, in runs, or folded; after the episode one summary per domain
per second (R344). -/
def State.itemFailed (s : State) (u d line : Nat) : State :=
  let x := s.unit u
  let dpa := s.dpaOf d line
  match x.episode with
  | none =>
    let same := fun (r : FaultRec) => r.name == cFltItemFailed && r.unit == u && r.dom == some d && r.aggregate
      && r.openedAt / 1000000000 == s.now / 1000000000
    if s.records.any same then
      { s with records := mapFirst same (fun r => { r with
          detail := r.detail + 1, timeLast := s.tns,
          addr := r.addr.map (fun a =>
            let lo := min a.1 dpa
            (lo, (max (a.1 + a.2 * 64) (dpa + 64) - lo) / 64)) }) s.records }
    else s.itemRecord { code := cFltItemFailed, cls := clsUcr, unit := u, dom := some d, addr := some (dpa, 1), detail := 1 + x.cause * 2 ^ 32 } true
  | some name =>
    if x.items < 16 then
      (s.itemRecord { code := cFltItemFailed, cls := clsUcr, unit := u, dom := some d, addr := some (dpa, 1),
                      detail := name * 2 ^ 32 } false).updUnit u fun x => { x with items := x.items + 1 }
    else
      let extends_ := match x.openRun with
        | some (d', first, n, _, t) => d' == d && line == first + n && decide (s.now < t + 1000000)
        | none => false
      if extends_ then s.updUnit u fun x => { x with openRun := x.openRun.map (fun r => (r.1, r.2.1, r.2.2.1 + 1, r.2.2.2)) }
      else
        let s := s.closeRun u
        let count : Nat := (((s.unit u).runs.find? (fun q => q.1 == d)).map (·.2)).getD 0
        if count ≥ 64 then s.updUnit u fun x => { x with folded := foldLine d dpa x.folded }
        else s.updUnit u fun x => { x with openRun := some (d, line, 1, dpa, s.now) }

/-- The episode of a unit ends: its run and its summaries are reported (R344). -/
def State.endEpisode (s : State) (u : Nat) : State :=
  let s := s.closeRun u
  let x := s.unit u
  let name := x.episode.getD 0
  let s := s.each x.folded fun s q =>
    s.itemRecord { code := cFltItemFailed, cls := clsUcr, unit := u, dom := some q.1,
                   addr := some (q.2.1, (q.2.2.1 - q.2.1) / 64 + 1), detail := q.2.2.2 + name * 2 ^ 32 } true
  s.updUnit u fun x => { x with episode := none, items := 0, runs := [], folded := [], openRun := none }

/-- A line poisoned where its media cannot be reached: it enters the poison list (R343, R345). -/
def State.poisonLine (s : State) (d line : Nat) : State := s.addPoison (s.home d) d line 1 false

/-- Reads of a line that still take its data from the media or from the write buffer (R110). -/
def Req.readsLine (r : Req) (d line : Nat) : Bool :=
  r.isRead && r.hasDom && r.dom == d && r.line == line
    && (r.stage == .channel || r.stage == .parked || r.stage == .dram || r.stage == .ctrWait)

/-- An entry joins a channel's write buffer: corrected write-backs of its line are dropped (05_dram R140), and at 448 entries the
buffer drains first (09_qos R238). -/
def State.buffer (s : State) (c : Nat) (w : WbEntry) : State :=
  s.updChan c fun ch => { ch with
    wb := ch.wb ++ [w], backs := ch.backs.filter (fun b => b.ma != w.ma)
    drainFirst := ch.drainFirst || decide (ch.wb.length + 1 ≥ 448) }

/-- A line that is lost is poisoned in memory (R343; R127; 02_host_ports R68): where its page is NEAR and its media can be
reached, by the poison mark, behind what the buffer and older reads of the line still hold; else by the list, which reads of a
page that is not NEAR obey (log 138). -/
def State.poisonAt (s : State) (d line : Nat) : State :=
  let h := s.home d
  let pg := s.pageNow d (line / 64)
  let ma := pg.addr * 4 + line % 64
  let c := chanOf h pg.addr
  let older := (s.reqs.filter (fun (r : Req) => r.readsLine d line)).map (·.rid)
  if pg.state != .near || s.mediaLost h pg.addr then s.poisonLine d line
  else if older.isEmpty && !((s.chan c).wb.any (fun w => w.ma == ma)) && (s.softLine h ma).isNone then
    (s.putRaw h ma (s.readBurst h ma 0).line true).addPoison h d line 1 false
  else
    let w : WbEntry := { ma, dom := d, line, data := (s.readBurst h ma 0).line, enables := allBytes, poison := true, cls := 8,
                         color := 0, external := false, after := older, since := s.now }
    (s.buffer c w).addPoison h d line 1 false

/-- A line is listed by itself: a read of a page that is not NEAR finds it poisoned. -/
def State.listedLine (s : State) (d line : Nat) : Bool :=
  (s.poison.get (s.home d)).any fun e => e.dom == d && e.line == line && e.len == 1

/-- The message of the partner is refused (13_pairing R304). -/
def State.peerRefuse (s : State) (l : Half) (sync : Bool) (peer line cause : Nat) : State :=
  s.send l (if sync then 1 else 2) 0 0 (.peerRefuse peer line cause)

/-- A request fails by the fence of a unit (R343): a read completes poisoned; a write completes and its line is poisoned; a
mirror message is refused as FENCED. -/
def State.failReq (s : State) (rid u : Nat) : State :=
  match s.req rid with
  | none => s
  | some r =>
    let s := if r.hasDom then s.itemFailed u r.dom r.line else s
    let s := s.exclude rid 11
    let s := match r.org with
      | .mirror l sync _ => s.peerRefuse l sync (s.eff (mirDomW0PeerDomain r.dom)) r.line 3
      | _ => s
    if r.isRead then s.answerRead rid 0 true
    else
      let s := if r.isWrite && r.hasDom then s.poisonAt r.dom r.line else s
      s.answer rid 0 false

/-! ### Alarms (08_protection R217; 15_faults R349) -/

/-- A security alarm is raised: PROT_ALARM_LAST names it, and it is recorded. -/
def State.alarm (s : State) (cause unit : Nat) (d line : Option Nat) (port link : Nat) : State :=
  let s := ((s.setFld protAlarmLastCause cause).setFld protAlarmLastDomain (d.getD 0)).setFld protAlarmLastLine (line.getD 0)
  let s := (s.setFld protAlarmLastPort port).setFld protAlarmLastLink link
  s.note { code := cSecurityAlarm, cls := clsUcr, unit, dom := d,
           addr := match d, line with | some d, some l => some (s.dpaOf d l, 1) | _, _ => none,
           detail := cause + 16 * port }

/-- The MAC check of a line failed (R217). -/
def State.macFail (s : State) (h : Half) (ma d line : Nat) : State :=
  let c := chanOf h (ma / 4)
  let s := (s.count protErrCntMacFail 1).pulse h bProt (c % 12 / 2) 5 (some d)
  s.alarm 1 (uCryptoOf c) (some d) (some line) 0 0

/-- A near line whose MAC check failed takes the poison mark, unless a newer write waits in the buffer (R217). -/
def State.markNear (s : State) (h : Half) (ma d line : Nat) : State :=
  if (s.chan (chanOf h (ma / 4))).wb.any (fun w => w.ma == ma) then s
  else
    let r := s.readBurst h ma 0
    (s.putRaw h ma r.line true).addPoison h d line 1 false

end Sys2Proof.Machine
end

