-- ==== Sys2Proof/Machine/MapCore.lean ====
section
/-! DEFINITION. The page map: metadata lines and their checks, page states, new media for a page, refusals (03_domains R87 to
R97; 07_tiering R196 to R200). -/

namespace Sys2Proof.Machine

/-! ### Encodings (Tables 3.4 to 3.6) -/

/-- CRC-8 with polynomial x^8 + x^2 + x + 1, most significant bit first (Table 3.5). -/
def crc8 (bs : List Nat) : Nat :=
  bs.foldl (fun c b => (List.range 8).foldl (fun x _ => if x ≥ 128 then (x * 2 % 256) ^^^ 7 else x * 2 % 256) (c ^^^ b)) 0

def ExtKind.code : ExtKind → Nat
  | .unmapped => 0
  | .zero => 1
  | .frame => 2
  | .paged => 3
  | .retired => 4

def PgState.code : PgState → Nat
  | .zero => 0
  | .near => 1
  | .shingle => 2
  | .lost => 3
  | .retired => 4

/-- The page mover holds an extent: it is converted or zeroed, or its frame moves under a watermark (R92, R102). -/
def State.extMoving (s : State) (d e : Nat) : Bool := (s.ext d e).moving || s.frameMoves.any (fun m => m.dom == d && m.ext == e)

/-- The 16 bytes of a descriptor (Tables 3.4, 3.5). -/
def State.descBytes (s : State) (d e : Nat) : Bytes :=
  let x := s.ext d e
  let n := fun (st : PgState) => ((List.range 512).filter (fun p => (s.page d (e * 512 + p)).state == st)).length
  let paged := x.kind == .paged
  let w0 := x.kind.code + d * 8 + b2n (s.eff (domPolicyTclass d) == 0) * 2 ^ 13 + b2n x.dirty * 2 ^ 14 + b2n (s.extMoving d e) * 2 ^ 15
    + x.addr * 2 ^ 16
  let w1 := if paged then n .near + n .shingle * 2 ^ 10 + (n .lost + n .retired) * 2 ^ 20
    else if x.kind == .frame then x.access * 2 ^ 30 else 0
  let b := leB 8 w0 ++ leB 7 w1
  b ++ [crc8 b]

/-- The 8 bytes of a page entry (Table 3.6). -/
def Page.bytes (p : Page) : Bytes :=
  leB 8 (p.state.code + p.cls * 8 + p.addr * 2 ^ 7 + p.access * 2 ^ 47 + p.backoff * 2 ^ 55)

/-- The error of a descriptor's bytes, 0 for none (Table 3.9). -/
def State.descError (s : State) (h : Half) (d : Nat) (b : Bytes) : Nat :=
  let w0 := ofLeB (b.take 8)
  let kind := bitsOf w0 0 3
  let addr := bitsOf w0 16 40
  if crc8 (b.take 15) ≠ nth 0 b 15 ∨ bitsOf w0 3 10 ≠ d ∨ kind > 4 ∨ (kind = 2 ∧ addr % extUnits ≠ 0) ∨ (kind = 3 ∧ addr % 16 ≠ 0)
  then cMapDescCheck
  else if (kind = 2 ∨ kind = 3) ∧ !s.unitValid h addr then cMapAddrInvalid else 0

/-- The error of a page entry's bytes, 0 for none (Table 3.9). -/
def State.entryError (s : State) (h : Half) (b : Bytes) : Nat :=
  let w := ofLeB b
  let st := bitsOf w 0 3
  let cls := bitsOf w 3 4
  let addr := bitsOf w 7 40
  if st > 4 ∨ (st = 2 ∧ cls = 0) ∨ (st ≠ 2 ∧ cls ≠ 0) ∨ (st = 1 ∧ addr % 16 ≠ 0) then cMapEntryInvalid
  else if (st = 1 ∨ st = 2) ∧ !s.unitValid h addr then cMapAddrInvalid else 0

/-- The 8 bytes of a directory entry: the base of the extent's area and VALID (08_protection R213). -/
def State.dirBytes (s : State) (d e : Nat) : Bytes :=
  leB 8 (match s.area d e with | some b => b + 2 ^ 40 | none => 0)

/-- The 64 bytes of a metadata line: four descriptors, eight page entries, eight directory entries, a counter block, a node or
eight tags. -/
def State.metaBytes (s : State) : McKey → Bytes
  | .desc d l => (List.range 4).flatMap fun i => s.descBytes d (l * 4 + i)
  | .pte d l => (List.range 8).flatMap fun i => (s.page d (l * 8 + i)).bytes
  | .dir d l => (List.range 8).flatMap fun i => s.dirBytes d (l * 8 + i)
  | .ctr d b => s.nodeBytes d 0 b
  | .node d l i => s.nodeBytes d l i
  | .tags d l => (List.range 8).flatMap fun i => leB 8 (s.tag d ((s.pageNow d (l / 8)).state == .shingle) (l * 8 + i)).toNat
  | .hdr _ _ => []

/-- Entries of a metadata line that are structures of their own, and the domain of a line. -/
def McKey.entries : McKey → Nat
  | .desc _ _ => 4
  | .pte _ _ | .dir _ _ => 8
  | _ => 1
def McKey.dom : McKey → Option Nat
  | .desc d _ | .pte d _ | .dir d _ | .ctr d _ | .node d _ _ | .tags d _ => some d
  | .hdr _ _ => none

/-- The error of each entry of a metadata line as read, 0 for none. -/
def State.entryErrors (s : State) (h : Half) (k : McKey) (b : Bytes) : List Nat :=
  match k with
  | .desc d _ => (chunksOf 16 4 b).map (s.descError h d)
  | .pte _ _ => (chunksOf 8 8 b).map (s.entryError h)
  | _ => []

/-- The line of a domain's tables at which its directory starts, and its summit area (03_domains R83; 08_protection R213). -/
def dirStart (size : Nat) : Nat := ceilDiv size 16 * 4
def summitStart (size : Nat) : Nat := dirStart size + ceilDiv size 32 * 4

/-- Nodes of the levels 4 to below `level` in a summit area (08_protection R213, Table 8.2). -/
def summitBelow (size level : Nat) : Nat := ((List.range (level - 4)).map fun i => ceilDiv size (8 ^ (i + 1))).foldl (· + ·) 0

/-- A line of the protection area of an extent (08_protection Table 8.3). -/
def State.areaLine (s : State) (d e off : Nat) : List Nat :=
  match s.area d e with
  | some b => [b * 4 + off]
  | none => []

/-- A line of both copies of a domain's tables. -/
def State.tableLines (s : State) (d off : Nat) : List Nat := [(s.map d).table1, (s.map d).table2].filterMap (·.map (· * 4 + off))

/-- The lines MA / 64 of the copies of a metadata line, primary first (R93; 08_protection Table 8.3, R213). The top two levels of
a tree stand in the metadata cache alone (Table 8.2). -/
def State.metaPlaces (s : State) : McKey → List Nat
  | .desc d l => s.tableLines d l
  | .pte d l =>
    let x := s.ext d (l / 64)
    [some x.addr, x.copy2].filterMap (·.map (· * 4 + l % 64))
  | .dir d l => s.tableLines d (dirStart (s.map d).extents + l)
  | .ctr d b => s.areaLine d (b / 512) (b % 512)
  | .tags d l => s.areaLine d (l / 4096) (512 + l % 4096)
  | .node d level i =>
    if level + 1 ≥ s.top d then []
    else match level with
      | 1 => s.areaLine d (i / 64) (4608 + i % 64)
      | 2 => s.areaLine d (i / 8) (4672 + i % 8)
      | 3 => s.areaLine d i 4680
      | _ => s.tableLines d (summitStart (s.map d).extents + summitBelow (s.map d).extents level + i)
  | .hdr _ _ => []

/-! ### The metadata cache (R93) -/

/-- Sets of 16 ways that the cache of a half has: 4,096 in each bank group that is not fenced. -/
def State.mcSets (s : State) (h : Half) : Nat := ((List.range 8).filter (fun g => !s.fenced (uSram h.idx g))).length * 4096

/-- The number whose remainder gives a line's set (log 31). -/
def McKey.hash : McKey → Nat
  | .desc d l | .pte d l | .dir d l | .ctr d l | .tags d l => d + l
  | .node d level i => d + level + i
  | .hdr _ slot => slot

/-- Two lines share a set of the cache. -/
def State.sameSet (s : State) (h : Half) (k : McKey) (l : McLine) : Bool := l.key.hash % s.mcSets h == k.hash % s.mcSets h

/-- A line is in the cache of a half. -/
def State.inCache (s : State) (h : Half) (k : McKey) : Bool := (s.mcache.get h).any (fun l => l.key == k)

/-- A metadata line is on die: in the cache, or pinned there as the descriptors of QC0 domains are. -/
def State.cached (s : State) (h : Half) (k : McKey) : Bool :=
  (match k with | .desc d _ => s.eff (domPolicyTclass d) == 0 | _ => false) || s.inCache h k

/-- A line of the cache is used. -/
def State.mcTouch (s : State) (h : Half) (k : McKey) : State :=
  let lines := plruTouch (s.sameSet h k) (fun (l : McLine) => l.key == k) (·.used) (fun b l => { l with used := b }) (s.mcache.get h)
  { s with mcache := s.mcache.set h lines }

/-- A metadata line is written to a place in DRAM, sound but for what an armed injection flips: what DRAM holds of it is kept as
its difference from the line's encoding (R93; 05_dram R143; log 140). -/
def State.putFlip (s : State) (h : Half) (ma : Nat) : State :=
  if s.mediaLost h (ma / 4) then s else (s.countWrite h ma).putBurst h ma 0

/-- A metadata line is written to its copies. -/
def State.putMeta (s : State) (h : Half) (k : McKey) : State := s.each (s.metaPlaces k) fun s ma => s.putFlip h ma

/-- A line of the cache differs from its copies now. -/
def State.markDirty (s : State) (h : Half) (k : McKey) : State :=
  { s with mcache := s.mcache.upd h (fun c => c.map fun l => if l.key == k then { l with dirty := true } else l) }

/-- The node that holds the tag of a counter block or node (08_protection R211). -/
def McKey.parent : McKey → Option McKey
  | .ctr d b => some (.node d 1 (b / 8))
  | .node d level i => some (.node d (level + 1) (i / 8))
  | _ => none

/-- A metadata line is written back: the tag in its parent follows, and the parent differs from its own copies then (08_protection
R214); `fuel` is the number of levels. -/
def State.writeMeta : Nat → State → Half → McKey → State
  | 0, s, _, _ => s
  | n + 1, s, h, k =>
    let s := s.putMeta h k
    match k.parent with
    | some q => if s.inCache h q then s.markDirty h q else State.writeMeta n s h q
    | none => s

/-- Extents of a half whose counter blocks are pinned, as (domain, extent): those of the domains with PIN_COUNTERS, in the
order in which their areas were allocated, 32 KiB each, within PIN_CTR_MIB (08_protection R214). -/
def State.pinnedCtrs (s : State) (h : Half) : List (Nat × Nat) :=
  ((s.media.reverse.filterMap fun (b : MediaBlk) => match b.owner with
    | .p2 d e => if b.half == h && s.effFlag (domPolicyPinCounters d) then some (d, e) else none
    | _ => none)).take (s.fld protCfgPinCtrMib * 32)

/-- A counter block is pinned on die. -/
def State.ctrPinned (s : State) (d page : Nat) : Bool :=
  s.effFlag (domPolicyPinCounters d) && (s.pinnedCtrs (s.home d)).contains (d, page / 512)

/-- A metadata line has changed: the cache holds it dirty, a pinned counter block stays on die, or its copies are written at once
(R93; 08_protection R214). -/
def State.saveMeta (s : State) (h : Half) (k : McKey) : State :=
  if s.inCache h k then s.markDirty h k
  else if (match k with | .ctr d b => s.ctrPinned d b | _ => false) then s
  else State.writeMeta 13 s h k

/-- The lines of the map that hold a page have changed. -/
def State.savePage (s : State) (d p : Nat) : State :=
  let h := s.home d
  if (s.ext d (p / 512)).kind == .paged then s.saveMeta h (.pte d (p / 8)) else s.saveMeta h (.desc d (p / 2048))

/-- Lines of a table placed anew are written, all of them. -/
def State.putTable (s : State) (h : Half) (unit lines : Nat) : State := s.each (List.range lines) fun s i => s.putFlip h (unit * 4 + i)

/-- A line enters the cache; a full set gives up a line by pseudo-LRU, which is written back where it is dirty (R93; log 31). -/
def State.mcFill (s : State) (h : Half) (k : McKey) (victim : Nat) : State :=
  let c := s.mcache.get h
  let fresh : McLine := { key := k, used := false, dirty := false }
  if s.mcSets h = 0 then s
  else if s.inCache h k then s.mcTouch h k
  else
    let set := c.filter (s.sameSet h k)
    if set.length < 16 then ({ s with mcache := s.mcache.set h (c ++ [fresh]) } : State).mcTouch h k
    else match plruVictim (·.used) victim set with
      | none => s
      | some v =>
        let s := if v.dirty then State.writeMeta 13 s h v.key else s
        ({ s with mcache := s.mcache.set h (mapFirst (fun l => l.key == v.key) (fun _ => fresh) c) } : State).mcTouch h k

/-! ### Pages -/

/-- A page is locked, or its extent is moving (R92, R95). -/
def State.locked (s : State) (d p : Nat) : Bool :=
  s.locks.any (fun l => l.dom == d && l.page == p) || (s.ext d (p / 512)).moving

/-- Locks of a half are left (R95). -/
def State.lockFree (s : State) (h : Half) : Bool := decide ((s.locks.filter (fun l => l.half == h)).length < 4096)

/-- A page's lock taken and given back. -/
def State.lock (s : State) (h : Half) (d p : Nat) : State := { s with locks := s.locks ++ [{ half := h, dom := d, page := p }] }
def State.unlock (s : State) (d p : Nat) : State :=
  { s with locks := s.locks.filter (fun l => !(l.dom == d && l.page == p)) }

/-- Pages that become LOST_WRITE or RETIRED are listed as poisoned (15_faults R345); a secondary's copy is no longer
continuous when a page is made RETIRED (Table 13.4). -/
def State.listPages (s : State) (d p n : Nat) (retired : Bool) : State :=
  let s := s.addPoison (s.home d) d (p * 64) (n * 64) false
  if retired then s.dataLost d else s

/-- Pages that hold data, or are zero, are listed no longer. -/
def State.unlistPages (s : State) (d p n : Nat) : State := s.dropPoison (s.home d) d (p * 64) (n * 64)

/-- An extent becomes RETIRED_EXT; media that it named is the caller's. -/
def State.retireExt (s : State) (d e : Nat) : State :=
  let x := s.ext d e
  ((s.setExt d e { kind := .retired, dirty := x.dirty, moving := x.moving }).saveMeta (s.home d) (.desc d (e / 4))).listPages
    d (e * 512) 512 true

/-- Page entries of an extent removed. -/
def State.clearPages (s : State) (d e : Nat) : State :=
  { s with pages := cellDrop (fun k => k / 2 ^ 36 == d && k % 2 ^ 36 / 512 == e) s.pages }

/-- A structure stays on its one copy (R93). -/
def State.single (s : State) (d unit page n : Nat) : State :=
  s.note { code := cMapMetaSingle, cls := clsCe, unit := uChannel (chanOf (s.home d) unit), dom := some d,
           addr := some (s.dpaOf d (page * 64), n * 64) }

/-- What an armed injection had flipped in lines that are written anew is gone. -/
def State.dropFlips (s : State) (h : Half) (ma n : Nat) : State :=
  { s with dram := cellDrop (fun k => burstKey h ma ≤ k && k < burstKey h (ma + n)) s.dram }

/-! ### Tag lines (08_protection R216) -/

/-- What the read of a line's tag comes to: found, no data, or not the tag that was stored. -/
inductive TagRead where
  | found | unread | wrong
  deriving DecidableEq, Repr

/-- The tag line of a P2 line is read beside it, unless the cache has it (08_protection R216). -/
def State.readTag (s : State) (h : Half) (d line : Nat) (of_ : Option Of) (errs : List Burst) : TagRead × List Burst × State :=
  let k : McKey := .tags d (line / 8)
  if s.eff (domPolicyProt d) ≠ 2 then (.found, errs, s)
  else if s.inCache h k then (.found, errs, s.mcTouch h k)
  else match s.metaPlaces k with
    | [] => (.unread, errs, s)
    | ma :: _ =>
      let content : Line := BitVec.ofNat 512 (ofLeB (s.metaBytes k))
      let (r, rest, s) := s.deviceRead (encodeLine content false) h ma errs of_ false true
      if r.outcome ≠ 1 ∧ r.outcome ≠ 3 then (.unread, rest, s)
      else if bitsOf r.line.toNat (64 * (line % 8)) 64 ≠ bitsOf content.toNat (64 * (line % 8)) 64 then (.wrong, rest, s)
      else (.found, rest, s.mcFill h k 0)

/-- A line of a page that the device moves: what it holds, whether it reads poisoned, the patterns left, and what the read recorded.
A line whose tag does not match raises the alarm and takes the poison mark (08_protection R217). -/
def State.fetchNear (s : State) (h : Half) (d line ma : Nat) (errs : List Burst) : Line × Bool × List Burst × State :=
  let (r, rest, s) := s.deviceRead 0 h ma errs (some ⟨d, line, 1⟩) false true
  if r.outcome = 1 ∨ r.outcome = 3 then
    let (t, rest, s) := s.readTag h d line (some ⟨d, line, 1⟩) rest
    let bad := (s.macFail h ma d line).markNear h ma d line
    match t with
    | .unread => (0, true, rest, s)
    | .wrong => (0, true, rest, bad)
    | .found =>
      match s.unseal ⟨h, ma, d, line, false, 0⟩ r.line with
      | some l => (l, false, rest, s)
      | none => (0, true, rest, bad)
  else (s.cipher true ⟨h, ma, d, line, false, 0⟩ r.line, true, rest, s)

/-! ### New media -/

/-- A page table for an extent: two copies on two channels, or one where there is no media for the second; each entry as
`fill` gives it (R93, R196). -/
def State.giveTable (s : State) (d e pick : Nat) (fill : Nat → Page) : Option State :=
  let h := s.home d
  match s.alloc h 16 16 (.pageTable d e 0) pick none with
  | none => none
  | some (a, s) =>
    let (c2, s) := match s.alloc h 16 16 (.pageTable d e 1) 0 (some (chanOf h a)) with
      | some (b, s) => (some b, s)
      | none => (none, s.single d a (e * 512) 512)
    let x := s.ext d e
    let s := (s.setExt d e { x with kind := .paged, addr := a, copy2 := c2, access := 0 }).saveMeta h (.desc d (e / 4))
    let s := s.each (List.range 512) fun s i => s.setPage d (e * 512 + i) (fill i)
    some (s.each (a :: c2.toList) fun s u => s.putTable h u 64)

/-- The protection area of an extent of a P2 domain, where it has none yet: its lines are written with the present counters and
nodes, and its directory entry names it (08_protection R210, R213). -/
def State.needArea (s : State) (d e : Nat) : Option State :=
  let h := s.home d
  if s.eff (domPolicyProt d) = 2 ∧ (s.area d e).isNone then
    (s.allocArea h d e 0).map fun q => (q.2.dropFlips h (q.1 * 4) 4681).saveMeta h (.dir d (e / 8))
  else some s

/-- The counters and tags of a line of a P2 domain have changed (08_protection R214). -/
def State.saveCtr (s : State) (h : Half) (d line : Nat) : State :=
  if s.eff (domPolicyProt d) = 2 then (s.saveMeta h (.ctr d (line / 64))).saveMeta h (.tags d (line / 8)) else s

/-- A near line is written (08_protection R206). -/
def State.storeNear (s : State) (h : Half) (d line ma : Nat) (l : Line) (poison external : Bool) : State :=
  ((s.countWrite h ma).writeNear h d line ma l poison external).saveCtr h d line

/-- A near line is written under the counters as they stand: those of its page have just been advanced. -/
def State.sealNear (s : State) (h : Half) (d line ma : Nat) (l : Line) (poison : Bool) : State :=
  let s := (((s.countWrite h ma).seal ⟨h, ma, d, line, false, 0⟩ l poison).saveCtr h d line)
  if poison then s.addPoison h d line 1 false else s.dropPoison h d line 1

/-- A page's counters roll over because all its lines are written anew (08_protection R206, R207): they start at 0 under the next
major counter. Answers whether they can (R208). -/
def State.rollFresh (s : State) (h : Half) (d page unit : Nat) : State × Bool :=
  let c := s.ctr d page
  if c.major ≥ 2 ^ 64 - 2 then
    (s.note { code := cProtMajorExhausted, cls := clsUcr, unit := uCryptoOf (chanOf h unit), dom := some d,
              addr := some (s.dpaOf d (page * 64), 64) }, false)
  else
    ((((s.putCtr d page { major := c.major + 1, minors := 0 }).count protEvtCntRollover 1).pulse h bProt
      (chanOf h unit % 12 / 2) 4 (some d)), true)

/-- The 64 near lines of a page from a unit written as `fill` gives them, but for the line `skip` (R90; 08_protection R207). Where
a minor counter stands at its end the page's counters roll over first, and all lines are written under the new ones (R206). -/
def State.writePageLines (s : State) (h : Half) (d page unit : Nat) (skip : Option Nat) (fill : Nat → Line × Bool) : State :=
  let todo := (List.range 64).filter (fun i => skip != some i)
  let full := s.eff (domPolicyProt d) == 2 && (List.range 64).any (fun i => (s.ctr d page).minor i == 127)
  if full then
    let (s, ok) := s.rollFresh h d page unit
    if !ok then s
    else s.each todo fun s i =>
      s.sealNear h d (page * 64 + i) (unit * 4 + i) (fill i).1 (fill i).2
  else s.each todo fun s i => s.storeNear h d (page * 64 + i) (unit * 4 + i) (fill i).1 (fill i).2 false

/-- The pages of a whole 2 MiB frame written so. -/
def State.writeFrameLines (s : State) (h : Half) (d e unit : Nat) (skip : Option Nat) (fill : Nat → Line × Bool) : State :=
  s.each (List.range 512) fun s i =>
    let mine := skip.bind fun k => if k / 64 = i then some (k % 64) else none
    s.writePageLines h d (e * 512 + i) (unit + 16 * i) mine (fun j => fill (i * 64 + j))

/-- The units that a write may still need: a 2 MiB frame in a QC0 domain whose extent is not still PAGED (R92), else a 4 KiB
frame, and a page table first. The written line apart, the lines hold zeros, or poison where the page is LOST_WRITE or RETIRED or
the line is listed as poisoned. -/
def State.makeNear (s : State) (d p pick : Nat) (skip : Option Nat) : Option State :=
  let h := s.home d
  let e := p / 512
  let x := s.ext d e
  let bad := match (s.pageNow d p).state with | .lost | .retired => true | _ => false
  let listed := s.listedLine d
  let fill : Nat → Line × Bool := fun line => (0, bad || listed line)
  match s.needArea d e with
  | none => none
  | some s =>
    if s.eff (domPolicyTclass d) = 0 ∧ x.kind ≠ .paged then
      (s.alloc h extUnits extUnits (.bigFrame d e) pick none).map fun (a, s) =>
        let s := ((s.setExt d e { kind := .frame, addr := a, dirty := x.dirty }).saveMeta h (.desc d (e / 4))).unlistPages d (e * 512) 512
        s.writeFrameLines h d e a (skip.map (p % 512 * 64 + ·)) (fun i => fill (e * 32768 + i))
    else
      let table := match x.kind with
        | .unmapped | .zero => s.giveTable d e 0 (fun _ => {})
        | .retired => s.giveTable d e 0 (fun _ => { state := .retired })
        | _ => some s
      table.bind fun s => (s.alloc h 16 16 (.frame d p) pick none).map fun (a, s) =>
        let s := ((s.setPage d p { s.page d p with state := .near, cls := 0, addr := a }).saveMeta h (.pte d (p / 8))).unlistPages d p 1
        s.writePageLines h d p a skip (fun i => fill (p * 64 + i))

/-- What a write that needs media comes to. -/
inductive Made where
  | near (s : State)
  | refused (s : State)

/-- The page that a write could not have media for (R197, R198, Table 3.7): what becomes of it, and how many pages the
lost-write record names. -/
def State.refusePage (s : State) (d p : Nat) : State × Nat × Nat :=
  let e := p / 512
  match (s.ext d e).kind with
  | .unmapped | .zero =>
    if s.eff (domPolicyTclass d) = 0 then (s.retireExt d e, e * 512, 512)
    else match s.giveTable d e 0 (fun _ => {}) with
      | some s => (((s.setPage d p { state := .lost }).savePage d p).listPages d p 1 false, p, 1)
      | none => (s.retireExt d e, e * 512, 512)
  | .paged =>
    if (s.page d p).state = .zero then
      (((s.setPage d p { s.page d p with state := .lost }).savePage d p).listPages d p 1 false, p, 1)
    else (s, p, 1)
  | _ => (s, if s.eff (domPolicyTclass d) = 0 then e * 512 else p, if s.eff (domPolicyTclass d) = 0 then 512 else 1)

/-- A write that gets no media: its pages are refused, and what is said of it depends on why (R88, R90). -/
def State.noMedia (s : State) (d p : Nat) (how : Grant) : State :=
  let res := s.refusePage d p
  let fresh := (s.pageNow d p).state == .zero
  let s := match how with
    | .ceiling =>
      let t := res.1.ceilingReached d
      if fresh then t.eventLog eDomCeilingReached d (t.dpaOf d (res.2.1 * 64)) (res.2.2 * 64) else t
    | .growth =>
      let t := res.1.lostWrite d res.2.1 res.2.2
      if s.atCeiling d then t.ceilingReached d else t
    | .ok => res.1.note { code := cTierCommitNoMedia, cls := clsUcr, unit := uHalf (res.1.home d).idx, dom := some d,
                          addr := some (res.1.dpaOf d (p * 64), 64) }
  s.settle d

/-- New media for a write to a page that is not NEAR or SHINGLE, or its refusal (R89, R90, R92, R197, R198, R200). -/
def State.media_ (s : State) (d p pick : Nat) (skip : Option Nat) : Made :=
  let add := match (s.pageNow d p).state with
    | .zero => if s.eff (domPolicyTclass d) = 0 ∧ (s.ext d (p / 512)).kind ≠ .paged then 512 else 1
    | _ => 0
  match s.grant d add with
  | .ok =>
    match s.makeNear d p pick skip with
    | some s => .near (s.settle d)
    | none => .refused (s.noMedia d p (if s.isGrowth d add then .growth else .ok))
  | g => .refused (s.noMedia d p g)

/-! ### Lost structures (R97) -/

/-- Media of a page that a lost structure named waits for the audit: its frame, or its slot. -/
def State.orphanPage (s : State) (d p : Nat) : State :=
  let q := s.page d p
  let h := s.home d
  match q.state with
  | .near => { s with media := s.media.map (fun (b : MediaBlk) => if b.owner == .frame d p then { b with owner := .orphan } else b) }
  | .shingle => { s with shg := s.shg.upd h (fun (g : Shg) => { g with orphans := g.orphans ++ [(q.addr, q.cls)] }) }
  | _ => s

/-- A lost descriptor: its extent is retired, and what it named waits for the audit. -/
def State.loseDesc (s : State) (d e : Nat) : State :=
  if (s.ext d e).kind == .unmapped then s
  else
    let s := if (s.ext d e).kind == .paged then s.each (List.range 512) fun s i => s.orphanPage d (e * 512 + i) else s
    let s := { s with
      media := s.media.map (fun (b : MediaBlk) => match b.owner with
        | .bigFrame d' e' => if d' == d && e' == e then { b with owner := .orphan } else b
        | .pageTable d' e' _ => if d' == d && e' == e then { b with owner := .orphan } else b
        | _ => b)
      frameMoves := s.frameMoves.filter (fun m => !(m.dom == d && m.ext == e)) }
    (s.clearPages d e).retireExt d e

/-- A map structure is lost (R97): of a line of descriptors those that `bad` names, each of which is a structure of its own
(log 53), of a page table all 512 entries. A directory entry names its area no longer, which is a lost extent node (08_protection
R213, R218). -/
def State.metaLost (s : State) (k : McKey) (bad : List Nat) : State :=
  let (d, es) := match k with
    | .desc d l => (d, bad.map (l * 4 + ·))
    | .pte d l => (d, [l / 64])
    | .dir d l => (d, bad.map (l * 8 + ·))
    | _ => (0, [])
  let c := (s.metaPlaces k).headD 0 / 4
  let s := s.count mapErrCntMetaLost 1
  let s := s.note { code := cMapMetaLost, cls := clsUcr, unit := uChannel (chanOf (s.home d) c), dom := some d,
                    addr := some (s.dpaOf d (es.headD 0 * 32768), es.length * 32768) }
  let s := (s.setFlag (mirDomStateW0DirtyOk d) false).dataLost d
  let s := match k with
    | .desc _ _ => s.each es fun s e => s.loseDesc d e
    | .pte _ _ => s.each es fun s e => (s.each (List.range 512) fun s i =>
      ((s.orphanPage d (e * 512 + i)).setPage d (e * 512 + i) { state := .retired }).listPages d (e * 512 + i) 1 true).saveMeta
        (s.home d) (.pte d (e * 64))
    | _ => s
  s.settle d

/-- One copy of a metadata line as read: the entries that are not sound, the name of what is wrong, and the patterns left (Table 3.9;
05_dram R139). A copy that decodes to no data is unsound as a whole. -/
structure CopyRead where
  bad : List Nat
  name : Nat
  rest : List Burst
  deriving DecidableEq, Repr

/-- One copy of a metadata line is read; what the read of the line itself records follows Table 5.5. -/
def State.readCopy (s : State) (h : Half) (k : McKey) (ma : Nat) (errs : List Burst) (comber : Bool) : CopyRead × State :=
  let content : Line := BitVec.ofNat 512 (ofLeB (s.metaBytes k))
  let (r, rest, s) := s.deviceRead (encodeLine content false) h ma errs none comber false
  let n := k.entries
  if r.outcome = 1 ∨ r.outcome = 3 then
    let each := s.entryErrors h k (leB 64 r.line.toNat)
    let bad := (List.range n).filter fun i => nth 0 each i != 0
    ({ bad, name := (each.find? (· != 0)).getD 0, rest }, s)
  else ({ bad := List.range n, name := cDmcUe, rest }, s)

/-- The error that a copy had is recorded (R97; 05_dram R141). -/
def State.noteCopy (s : State) (h : Half) (ma name : Nat) (comber : Bool) : State :=
  s.note { code := name, cls := if name = cDmcUe then clsUcr else clsCe, unit := uChannel (chanOf h (ma / 4)),
           ma := some (recordMa h ma), detail := if name = cDmcUe then 15 + 16 * b2n comber else 0 }

/-- A metadata line is read from the copy at `a`, and where that is not sound from its other copy: found there, it is repaired and
the copy at `a` is written anew; else it is lost (R93, R97). Answers whether it was found. -/
def State.readFrom (s : State) (h : Half) (k : McKey) (a : Nat) (others : List Nat) (errs : List Burst) (comber : Bool) :
    Bool × List Burst × State :=
  let (x, s) := s.readCopy h k a errs comber
  if x.bad.isEmpty then (true, x.rest, s)
  else match others with
    | [] => (false, x.rest, (s.metaLost k x.bad).noteCopy h a x.name comber)
    | b :: _ =>
      let (y, s) := s.readCopy h k b x.rest comber
      let lost := x.bad.filter y.bad.contains
      if lost.isEmpty then
        let s := s.count mapErrCntMetaRepaired 1
        let s := s.note { code := cMapMetaRepaired, cls := clsCe, unit := uChannel (chanOf h (a / 4)), dom := k.dom, ma := some (recordMa h a) }
        let s := (s.noteCopy h a x.name comber).putFlip h a
        (true, y.rest, if y.bad.isEmpty then s else (s.noteCopy h b y.name comber).putFlip h b)
      else (false, y.rest, ((s.metaLost k lost).noteCopy h a x.name comber).noteCopy h b y.name comber)

/-- A metadata line is read, the primary copy first (R93, R97): found, or lost; the patterns left. -/
def State.readMeta (s : State) (h : Half) (k : McKey) (errs : List Burst) : Bool × List Burst × State :=
  match (s.metaPlaces k).filter (fun ma => !s.mediaLost h (ma / 4)) with
  | [] => (false, errs, s.metaLost k (List.range k.entries))
  | a :: rest => s.readFrom h k a rest errs false

end Sys2Proof.Machine
end

