-- ==== Sys2Proof/Machine/DrainCore.lean ====
section
/-! DEFINITION. The drain of the write buffer: merges, counters and rollovers (04_request R106, R108; 08_protection R206 to
R208, R218). -/

namespace Sys2Proof.Machine

/-- A page lies under the node of a lost subtree. -/
def Subtree.covers (f : Subtree) (page : Nat) : Bool := page / 8 ^ f.level == f.idx

/-- A line of a domain lies in a fenced subtree, in a page that is not rebuilt yet (08_protection R218). -/
def State.treeFenced (s : State) (d line : Nat) : Bool :=
  (s.prot_ d).fences.any fun f => f.covers (line / 64) && decide (f.phase ≥ 1) && !f.done.contains (line / 64)

/-- A write to a fenced line is discarded, and counted (08_protection R218 step 2). -/
def State.fenceDiscard (s : State) (d line : Nat) : State :=
  s.updProt d fun p => { p with
    fences := mapFirst (fun (f : Subtree) => f.covers (line / 64) && decide (f.phase ≥ 1)) (fun f => { f with discarded := f.discarded + 1 }) p.fences }

/-- A counter block is on die: pinned, or in the metadata cache (R214). -/
def State.ctrOnDie (s : State) (d page : Nat) : Bool := s.inCache (s.home d) (.ctr d page) || s.ctrPinned d page

/-- The counter block of a line is on die, or the domain has none (08_protection R214). -/
def State.ctrReady (s : State) (d line : Nat) : Bool :=
  s.eff (domPolicyProt d) != 2 || s.ctrOnDie d (line / 64)

/-- The bytes that `enables` names taken from one line, the others from another. -/
def mergeLine (enables : BitVec 64) (new old : Line) : Line :=
  bytesLine (((lineBytes new).zip (lineBytes old)).zipIdx.map fun x => if enables.getLsbD x.2 then x.1.1 else x.1.2)

/-- What a buffered write stores, once its line is read where it is partial (R108): data, poison, and the state after the
read. A line that reads poisoned keeps its poison; the bytes that the read did not define are free values. -/
def State.mergeEntry (s : State) (h : Half) (w : WbEntry) (errs : List Burst) : Line × Bool × List Burst × State :=
  if w.enables = allBytes then (w.data, w.poison, errs, s)
  else
    let (l, bad, rest, s) := s.fetchNear h w.dom w.line w.ma errs
    if bad then
      let (f, s) := s.freeLine
      (mergeLine w.enables w.data f, true, rest, s)
    else (mergeLine w.enables w.data l, w.poison, rest, s)

/-- A page's counters roll over: the other 63 lines are read, the major counter advances, every minor is 0, and all 64 lines
are written under them (08_protection R206). `w` is the write that is merged. -/
def State.rollover (s : State) (h : Half) (w : WbEntry) (errs : List Burst) : State :=
  let d := w.dom
  let page := w.line / 64
  let base := w.ma - w.line % 64
  let res := s.mergeEntry h w errs
  let mine := res.1
  let bad := res.2.1
  let errs := res.2.2.1
  let s := res.2.2.2
  let res := (List.range 64).foldl (fun (acc : List (Line × Bool) × List Burst × State) i =>
    let (ls, errs, s) := acc
    if i = w.line % 64 then (ls ++ [(mine, bad)], errs, s)
    else
      let res := s.fetchNear h d (page * 64 + i) (base + i) errs
      let l := res.1
      let b := res.2.1
      let rest := res.2.2.1
      let s := res.2.2.2
      (ls ++ [(l, b)], rest, s)) (([], errs, s) : List (Line × Bool) × List Burst × State)
  let lines := res.1
  let s := res.2.2
  let s := s.putCtr d page { major := (s.ctr d page).major + 1, minors := 0 }
  let s := (s.count protEvtCntRollover 1).pulse h bProt (chanOf h (base / 4) % 12 / 2) 4 (some d)
  s.each lines.zipIdx fun s x => s.sealNear h d (page * 64 + x.2) (base + x.2) x.1.1 x.1.2

/-- A buffered write reaches DRAM (R106). A line of a slot is sealed under its SEQ and the page's present counters (06_shingle R182;
08_protection R207). In a fenced subtree the data of a near line is discarded; a rollover that would pass the last major counter
discards it too (08_protection R208, R218). -/
def State.drainEntry (s : State) (h : Half) (w : WbEntry) (errs : List Burst) : State :=
  let c := chanOf h (w.ma / 4)
  let s := s.updChan c fun ch => { ch with wb := ch.wb.filter (· != w) }
  match w.slot with
  | some seq => (((s.countWrite h w.ma).pulse h bProt (c % 12 / 2) 1 (some w.dom)).seal ⟨h, w.ma, w.dom, w.line, true, seq⟩ w.data w.poison)
  | none =>
    if s.treeFenced w.dom w.line then s.fenceDiscard w.dom w.line
    else if s.atRollover w.dom w.line then
      if (s.ctr w.dom (w.line / 64)).major ≥ 2 ^ 64 - 2 then
        s.note { code := cProtMajorExhausted, cls := clsUcr, unit := uCryptoOf c, dom := some w.dom, addr := some (s.dpaOf w.dom w.line, 1) }
      else s.rollover h w errs
    else
      let (l, bad, _, s) := s.mergeEntry h w errs
      (s.pulse h bProt (c % 12 / 2) 1 (some w.dom)).storeNear h w.dom w.line w.ma l bad w.external

/-- Every write buffer drains (16_power R359). -/
def State.flushAll (s : State) : State :=
  s.each (List.range 24) fun s c => s.each (s.chan c).wb fun s w => s.drainEntry (chanHalf c) w []

end Sys2Proof.Machine
end

