-- ==== Sys2Proof/Machine/TideCore.lean ====
section
/-! DEFINITION. The tide clock: its counters and the choice of its source (11_tide_clock R259 to R264). The commands are in
Tide.lean. -/

namespace Sys2Proof.Machine

/-! ### Counters (R259) -/

/-- 2^-40 ns in 1 ns, and the counter's modulus. -/
def tideNs : Nat := 2 ^ 40
def tideMod : Nat := 2 ^ 104

/-- A counter moved by a signed amount of 2^-40 ns. -/
def tideAdd (c : Nat) (n : Int) : Nat := (((c : Int) + n) % (tideMod : Int)).toNat

/-- Absolute value. -/
def absNat (n : Int) : Nat := n.natAbs

/-! ### Sources (R261, Table 11.1) -/

/-- A source by its TB_CFG encoding: 1 PTP, 2 PPS, 3 PARTNER. -/
def Tide.source (t : Tide) : Nat → ClockSource
  | 1 => t.ptp
  | 2 => t.pps
  | _ => t.partner

def Tide.setSource (t : Tide) (k : Nat) (c : ClockSource) : Tide :=
  match k with
  | 1 => { t with ptp := c }
  | 2 => { t with pps := c }
  | _ => { t with partner := c }

/-- The sources that TB_CFG ranks, highest first. -/
def State.ranked (s : State) : List Nat :=
  ([s.fld tbCfgPri0, s.fld tbCfgPri1, s.fld tbCfgPri2].filter (· != 0)).eraseDups

/-- TB_STATUS.QUALIFIED follows the sources. -/
def State.qualTally (s : State) : State :=
  let q := fun (c : ClockSource) (b : Nat) => if c.qualified then b else 0
  s.setFld tbStatusQualified (q s.tide.ptp 1 + q s.tide.pps 2 + q s.tide.partner 4)

/-- The mean of the frequency components, 0 of none (R264). -/
def meanFreq (fs : List Int) : Int := if fs.isEmpty then 0 else fs.foldl (· + ·) 0 / (fs.length : Int)

/-- The largest increment correction: SLEW_MAX_PPM of 1 ns, in 2^-40 ns (R264). -/
def State.adjMax (s : State) : Int := ((s.fld tbCfgSlewMaxPpm * tideNs / 1000000 : Nat) : Int)

/-- A correction kept within SLEW_MAX_PPM. -/
def clampAdj (m n : Int) : Int := max (-m) (min m n)

/-- TB_FREQ_ADJ set. -/
def State.setAdj (s : State) (n : Int) : State := s.setFld tbFreqAdjAdj (intBits 32 n)

/-- The present estimate of the rate difference. -/
def State.freqNow (s : State) : Int := clampAdj s.adjMax (meanFreq s.tide.freqs)

/-- The slew term for an offset: towards the source, of a size that the spec leaves open, within SLEW_MAX_PPM (R264; log 24). -/
def State.slew (s : State) (off : Int) : State :=
  let f := s.freqNow
  let room := if 0 < off then s.adjMax - f else s.adjMax + f
  if off = 0 ∨ room ≤ 0 then s.setAdj f
  else
    let (n, s) := s.freeNat
    let k : Int := ((1 + n % room.toNat : Nat) : Int)
    s.setAdj (if 0 < off then f + k else f - k)

/-- A change of the discipline state, with its event (Table 11.2). -/
def State.tideState (s : State) (new : Nat) : State :=
  let old := s.fld tbStatusState
  if old = new then s
  else
    let s := { s.setFld tbStatusState new with tide := { s.tide with inRun := 0, outRun := 0 } }
    let s := if new = 2 then s.setFlag tbStatusEverLocked true else s
    let s := if new = 3 then { s.setAdj s.freqNow with tide := { s.tide with holdAt := s.now } } else s
    let s := s.setFld tbStatusHoldoverS 0
    (s.setFlag tbEvtStateChange true).toFm "TB_STATE" [old, new, s.fld tbStatusSource]

/-- HOLDOVER ends for want of a source (Table 11.2). -/
def State.holdoverEnd (s : State) : State :=
  if s.fld tbStatusState = 3 then (s.setFlag tbEvtHoldoverExpired true).tideState 0 else s

/-- A source comes into use: its measurements start the estimate and the counts afresh (R264). -/
def State.useSource (s : State) (k : Nat) : State :=
  { s.setFld tbStatusSource k with tide := { s.tide with freqs := [], inRun := 0, outRun := 0 } }

/-- The source in use is chosen anew: the highest-ranked qualified one; `lost` says that the source in use is lost or
disqualified (R261, Table 11.2). -/
def State.reselect (s : State) (lost : Bool) : State :=
  let cur := s.fld tbStatusSource
  let st := s.fld tbStatusState
  match s.ranked.find? (fun k => (s.tide.source k).qualified) with
  | some k =>
    if k = cur then (if st = 0 ∨ st = 3 then s.tideState 1 else s)
    else
      let s := if cur ≠ 0 then s.setFlag tbEvtSourceChange true else s
      let s := s.useSource k
      if st = 0 ∨ st = 3 then s.tideState 1 else s
  | none =>
    if cur = 0 ∨ !(lost || !s.ranked.contains cur) then s
    else
      let s := s.setFld tbStatusSource 0
      if st = 1 ∨ st = 2 then
        if s.flag tbStatusEverLocked then
          let s := s.tideState 3
          if s.fld tbCfgHoldoverLimitS = 0 then s.holdoverEnd else s
        else s.tideState 0
      else s

/-- A source is lost or disqualified (Table 11.1). -/
def State.loseSource (s : State) (k : Nat) : State :=
  let s := ({ s with tide := s.tide.setSource k {} } : State).qualTally
  s.reselect (s.fld tbStatusSource == k)

end Sys2Proof.Machine
end

