-- ==== Sys2Proof/Machine/LinkCore.lean ====
section
/-! DEFINITION. The snoop filter; what ends with a port, a function or a Strait link (02_host_ports R64 to R68; 04_request
R124 to R128; 12_strait R295; 14_offload R331, R332). -/

namespace Sys2Proof.Machine

/-! ### The snoop filter (04_request R124 to R127) -/

/-- The number that names a host in the filter: port x 16 + LD-ID, or 256 + source identity. -/
def State.hostNum (s : State) (p id : Nat) : Nat := if s.gfam p then 256 + id else p * 16 + id

/-- The port behind which a host lies: an LD's own, a fabric host's the G-FAM port over which it was last heard (R68; log 133). -/
def State.hostPort (s : State) (n : Nat) : Nat := if n < 256 then n / 16 else cellGet 0 s.spidPort (n - 256)

/-- The host that sent a request. -/
def State.holder (s : State) (r : Req) : Option Nat :=
  match r.org with | .host p id => some (s.hostNum p id) | _ => none

/-- Every host of a domain's owner set (R124, 03_domains R77). -/
def State.ownerHosts (s : State) (d : Nat) : List Nat :=
  ((List.range 256).filter (fun n => s.ownerLd d (n / 16) (n % 16)))
    ++ (if s.effFlag (domOwnerSpidGroupEn d) then (List.range 4096).filter (s.ownerSpid d) |>.map (256 + ·) else [])

/-- The entry of a line. -/
def State.sfEntry (s : State) (d line : Nat) : Option SfEntry := s.snoop.find? (fun e => e.dom == d && e.line == line)

/-- The entry of a line changed; an entry with no holder and nothing awaited leaves the filter. -/
def State.updSf (s : State) (d line : Nat) (f : SfEntry → SfEntry) : State :=
  let xs := mapFirst (fun (e : SfEntry) => e.dom == d && e.line == line) f s.snoop
  { s with snoop := xs.filter (fun e => !(e.holders.isEmpty && e.await.isEmpty && !e.group)) }

/-- EVICT_INUSE of a half. -/
def State.sfTally (s : State) (h : Half) : State :=
  s.setFld (rqStatusEvictInuse h.idx) (min 256 (s.snoop.filter (fun e => e.half == h && e.evicting)).length)

/-- Sets of 16 ways that the filter of a half has: 16,384 in each of groups 13 and 14 (01_architecture Table 1.8). -/
def State.sfSets (s : State) (h : Half) : Nat := ((List.range 2).filter (fun g => !s.fenced (uSram h.idx (13 + g)))).length * 16384

/-- An entry stands in the set of a line (log 30). -/
def State.inSfSet (s : State) (h : Half) (d line : Nat) (e : SfEntry) : Bool :=
  e.half == h && !e.evicting && (e.dom + e.line) % s.sfSets h == (d + line) % s.sfSets h

/-- An entry is used (R126). -/
def State.sfTouch (s : State) (h : Half) (d line : Nat) : State :=
  let snoop := plruTouch (s.inSfSet h d line) (fun (e : SfEntry) => e.dom == d && e.line == line) (·.used)
    (fun b e => { e with used := b }) s.snoop
  { s with snoop }

/-- Holders of an entry: the owner set when it is GROUP. -/
def State.holdersOf (s : State) (e : SfEntry) : List Nat := if e.group then s.ownerHosts e.dom else e.holders

/-- A back-invalidation starts to some hosts (R125, R126). -/
def State.invalidate (s : State) (d line : Nat) (hosts : List Nat) (data evict : Bool) : State :=
  s.updSf d line fun e => { e with
    holders := s.holdersOf e, group := false, await := hosts, unsent := hosts, biData := data, evicting := e.evicting || evict }

/-- A line that needs an entry gets one; a full set gives up a victim to the eviction buffer: of the entries with no
back-invalidation in progress, SHARED before OWNED, then by pseudo-LRU (R126, log 30). False where the request must wait: the
eviction buffer is full, or no entry of the set can be given up. -/
def State.sfTake (s : State) (h : Half) (d line victim : Nat) (owned : Bool) (holder : Nat) : State × Bool :=
  let fresh : SfEntry := { half := h, dom := d, line, owned, group := false, holders := [holder], await := [], unsent := [],
                           biData := false, evicting := false, used := false }
  let enter := fun (s : State) => ({ s with snoop := s.snoop ++ [fresh] } : State).sfTouch h d line
  let set := s.snoop.filter (s.inSfSet h d line)
  if s.sfSets h = 0 then (s, false)
  else if set.length < 16 then (enter s, true)
  else
    let idle := set.filter (fun e => e.await.isEmpty)
    let pool := if idle.any (fun e => !e.owned) then idle.filter (fun e => !e.owned) else idle
    match plruVictim (·.used) victim pool with
    | none => (s, false)
    | some v =>
      if (s.snoop.filter (fun e => e.half == h && e.evicting)).length ≥ 256 then (s, false)
      else ((enter ((s.invalidate v.dom v.line (s.holdersOf v) false true).pulse h bRq 0 5 none)).sfTally h, true)

/-- A host is added to a line held SHARED: the fifth makes it GROUP (R124). -/
def addHolder (n : Nat) (e : SfEntry) : SfEntry :=
  if e.group || e.holders.contains n then e
  else if e.holders.length ≥ 4 then { e with group := true, holders := [] } else { e with holders := e.holders ++ [n] }

/-- A host that has modified a line writes it back before it answers the line's back-invalidation (R125). -/
def State.writesBack (s : State) (r : Req) : Bool :=
  r.isWrite && s.effFlag (domCtrlCoherence r.dom)
    && (match s.holder r, s.sfEntry r.dom r.line with
      | some n, some e => e.await.contains n
      | _, _ => false)

/-- A request to a line of an HDM-DB domain (Table 4.7): it proceeds, or it waits at stage 5. The write-back of a host whose
answer is awaited proceeds (R125). Where Table 4.7 has no row, a read that asks for no state or for shared state, from the
host that owns the line, leaves it OWNED; and a write from the only holder of a SHARED line leaves it untracked (log 136). -/
def State.snoopStep (s : State) (r : Req) (victim : Nat) : State × Option Stage :=
  let me := s.holder r
  let own := match me with | some n => n | none => 0xFFFF
  match s.sfEntry r.dom r.line with
  | some e =>
    if s.writesBack r then (s, none)
    else if e.evicting then (s, some .evictWait)
    else if !e.await.isEmpty then (s, some .biWait)
    else
      let s := s.sfTouch e.half r.dom r.line
      let all := s.holdersOf e
      let others := all.filter (· != own)
      match r.kind, r.want with
      | .clnEvct, _ => (if e.group then s else s.updSf r.dom r.line fun e => { e with holders := all.filter (· != own) }, none)
      | .wr, w | .wrPtl, w =>
        if e.owned && all == [own] then
          (if w = .invalid then s.updSf r.dom r.line fun e => { e with holders := [] } else s, none)
        else if others.isEmpty then (s.updSf r.dom r.line fun e => { e with holders := [], group := false }, none)
        else (s.invalidate r.dom r.line others false false, some .biWait)
      | _, .any =>
        if others.isEmpty then (s.updSf r.dom r.line fun e => { e with owned := true, group := false, holders := [own] }, none)
        else (s.invalidate r.dom r.line others false false, some .biWait)
      | _, w =>
        if e.owned && !others.isEmpty then (s.invalidate r.dom r.line others true false, some .biWait)
        else if w = .shared then (s.updSf r.dom r.line (addHolder own), none)
        else (s, none)
  | none =>
    match r.kind, r.want, me with
    | .rd, .any, some n | .inv, .any, some n =>
      let (s, ok) := s.sfTake (s.home r.dom) r.dom r.line victim true n
      (s, if ok then none else some .evictWait)
    | .rd, .shared, some n | .inv, .shared, some n =>
      let (s, ok) := s.sfTake (s.home r.dom) r.dom r.line victim false n
      (s, if ok then none else some .evictWait)
    | _, _, _ => (s, none)

/-- A host's answer, or its removal: the line's wait goes on, or ends; what the host keeps follows (R125, R127). Answers
whether the wait has ended. -/
def State.biAnswer (s : State) (d line host : Nat) (keeps : Bool) : State × Bool :=
  match s.sfEntry d line with
  | none => (s, false)
  | some e =>
    if !e.await.contains host then (s, false)
    else
      let left := e.await.filter (· != host)
      let keep := keeps && e.biData && !e.evicting
      let s := s.updSf d line fun e => { e with
        await := left, unsent := e.unsent.filter (· != host), evicting := e.evicting && !left.isEmpty,
        owned := e.owned && !(left.isEmpty && e.biData), holders := if keep then e.holders else e.holders.filter (· != host) }
      (s.sfTally e.half, left.isEmpty)

/-- Requests that wait on a line are due again: they stand as waiting on a lock that is free. -/
def State.wakeLine (s : State) (d line : Nat) : State :=
  { s with reqs := s.reqs.map (fun (r : Req) =>
    if r.hasDom && r.dom == d && r.line == line && (r.stage == .biWait || r.stage == .evictWait) then { r with stage := .lockWait } else r) }

/-- The eviction buffer of a half has room again: requests that wait for an entry are due (R126). -/
def State.wakeEvict (s : State) (h : Half) : State :=
  if (s.snoop.filter (fun e => e.half == h && e.evicting)).length ≥ 256 then s
  else { s with reqs := s.reqs.map (fun (r : Req) => if r.stage == .evictWait && r.home == h then { r with stage := .lockWait } else r) }

/-! ### Offload jobs that end without a record (14_offload R331, R332) -/

/-- A job ends in the abort log of its ring. -/
def State.logAbort (s : State) (j : Job) (status : Nat) : State :=
  match (List.range 16).find? (fun e => !s.flag (oflAbortValid j.fn j.ring e)) with
  | none => s
  | some e =>
    let s := ((s.setFld (oflAbortStatus j.fn j.ring e) status).setFlag (oflAbortValid j.fn j.ring e) true).setFld
      (oflAbortTag j.fn j.ring e) (bitsOf j.desc 16 16)
    let s := s.setFld (oflAbortIndex j.fn j.ring e) j.idx
    (s.setFld (oflAbortW1BytesOut j.fn j.ring e) j.bytesOut).setFld (oflAbortW1SrcConsumed j.fn j.ring e) j.consumed

/-- Every job in flight of a function ends with a status (R332). -/
def State.abortJobs (s : State) (fn status : Nat) : State :=
  let mine := s.jobs.filter (fun j => j.fn == fn && !j.written)
  let s := s.each mine fun s j => (s.logAbort j status).pulse (portHalf (fn / 17)) bOfl 0 1 none
  let s := s.each (List.range 4) fun s r => s.setFld (oflRingStatusInflight fn r) 0
  { s with jobs := s.jobs.filter (fun j => j.fn != fn) }

/-- A ring's positions. -/
def State.ring (s : State) (fn r : Nat) : Ring := cellGet {} s.rings (fn * 4 + r)

/-- The state with a ring's positions changed. -/
def State.updRing (s : State) (fn r : Nat) (f : Ring → Ring) : State :=
  { s with rings := cellPut {} s.rings (fn * 4 + r) (f (s.ring fn r)) }

/-- Bus Master Enable is cleared: jobs end, rings stop (R332, 02_host_ports R66). -/
def State.stopRings (s : State) (fn : Nat) : State :=
  let run := (List.range 4).filter (fun r => s.fld (oflRingStatusState fn r) == 1)
  let s := s.abortJobs fn 0x20
  s.each run fun s r =>
    let s := (s.setFld (oflRingHeadHead fn r) (s.ring fn r).next).updRing fn r fun x => { x with headLap := x.lap }
    (s.setFld (oflRingStatusState fn r) 2).setFld (oflRingStatusReason fn r) 4

/-! ### Functions and ports (02_host_ports R64 to R68) -/

/-- BAR0 of a function returns to reset, but for its abort logs (Table 2.9; log 55). -/
def State.clearBar0 (s : State) (fn : Nat) : State :=
  let base := 0x100000000 * (1 + fn)
  { s with regs := cellDrop (fun k => base ≤ k && k < base + 0x100000000 && !(base + 0x2000 ≤ k && k < base + 0x3000)) s.regs,
           rings := cellDrop (fun k => k / 4 == fn) s.rings }

/-- An FLR starts (R64, R65). -/
def State.startFlr (s : State) (fn : Nat) : State :=
  let s := s.abortJobs fn 0x21
  s.updFunc fn fun f => { f with flr := true, bme := false, quarantined := f.quarantined ++ f.tags, tags := [] }

/-- CXL.io state of a function at its reset (R60, R64): BAR2 presence is taken now. -/
def State.resetFunc (s : State) (fn : Nat) : State :=
  let p := fn / 17
  let n := fn % 17
  let quarantined := (s.func fn).quarantined
  let f : Func := { quarantined, bar2 := n == 16 || s.effFlag (hpLdCfgPrivOwner p n) }
  ({ s with funcs := cellPut {} s.funcs fn f } : State).clearBar0 fn

/-- A host named by a port's lost link: its own hosts, of a G-FAM port the fabric hosts that it routes (R68). -/
def State.lostHost (s : State) (p n : Nat) : Bool := s.hostPort n == p && decide ((n ≥ 256) = s.gfam p)

/-- The snoop filter drops the hosts of a port from one of its lines; a line that one of them owned is poisoned (R68). -/
def State.dropHosts (s : State) (p : Nat) (e : SfEntry) : State :=
  let mine := s.lostHost p
  let s := if e.owned then s.poisonAt e.dom e.line else s
  let all := s.holdersOf e
  let s := s.updSf e.dom e.line fun x => { x with
    holders := all.filter (fun n => !mine n), group := false, await := x.await.filter (fun n => !mine n),
    unsent := x.unsent.filter (fun n => !mine n), evicting := x.evicting && x.await.any (fun n => !mine n) }
  if (s.sfEntry e.dom e.line).all (fun x => x.await.isEmpty) then s.wakeLine e.dom e.line else s

/-- A port's link is lost, or its PERST_N is asserted (R67, R68): its LDs are reset, jobs end, responses are discarded, and
the snoop filter drops its hosts. -/
def State.linkLost (s : State) (p : Nat) : State :=
  let s := s.each (List.range 17) fun s n =>
    ((s.abortJobs (fnOf p n) 0x22).resetFunc (fnOf p n)).updFunc (fnOf p n) fun f => { f with quarantined := [] }
  let s := { s with hdm := cellDrop (fun k => k / 8 / 4096 == p) s.hdm }
  let s := s.updPort p fun q => { q with
    link := .detect, ideKeys := [], ideSkid := false, ideState := [0, 0], ideSet := [0, 0]
    credits := [256, 128, 64], withheld := [0, 0, 0], hostCredits := [0, 0, 0] }
  let reqs : List Req := s.reqs.map fun (r : Req) => if r.port == some p then { r with mute := true } else r
  let s := { s with reqs }
  let held := s.snoop.filter (fun e => (s.holdersOf e).any (s.lostHost p))
  let s := s.each held fun s e => s.dropHosts p e
  let s := (((s.sfTally .a).sfTally .b).wakeEvict .a).wakeEvict .b
  let lost := held.filter (·.owned)
  let s := s.each lost fun s e => s.eventRecord eHpLinesLost "HP_LINES_LOST" e.dom (s.dpaOf e.dom e.line) 1
  let s := if !s.flag (hpPortStatusLinkUp p) then s
    else ((s.setFlag (hpPortStatusLinkUp p) false).setFlag (hpEventLinkDown p) true).toFm "HP_LINK_DOWN" [p]
  s.reqTally

/-! ### A Strait link goes down (12_strait R295) -/

/-- Domains that a link serves: those homed on its half with a mirror state. -/
def State.linkDomains (s : State) (l : Half) : List Nat :=
  (List.range 1024).filter fun d => s.mState d != mUnpaired && s.home d == l

/-- What of an accepted frame the mirror engine still acts on once the link is down: the partner's writes (R295;
13_pairing R309). -/
def RxFrame.late (f : RxFrame) : RxFrame :=
  { f with old := true, msgs := f.msgs.filter fun (m : MirMsg) => match m with
      | .lineWr _ _ _ | .lineWrPtl _ _ _ _ | .linePoison _ _ | .zeroRun _ _ _ => true
      | _ => false }

/-- The link's receive and transmit state is discarded; invocation values stay (R295). A key-set switch that was draining is
complete (log 78). -/
def StraitLink.cleared (k : StraitLink) : StraitLink :=
  { high := k.high, inv := if k.drain.isSome then 1 else k.inv, xid := k.xid, cfg := k.cfg, vcBuf := k.vcBuf, vcMap := k.vcMap,
    cfgOk := k.cfgOk, windowEnd := k.windowEnd, rx := (k.rx.map RxFrame.late).filter (fun (f : RxFrame) => !f.msgs.isEmpty) }

/-- Answers of the partner that were accepted before the link went down are acted on at link down: acknowledged messages, a
confirmed cut, refusals (R295; 13_pairing R304, R305, R309). -/
def State.lastAnswers (s : State) (l : Half) : State :=
  let ms := (s.strait.get l).rx.flatMap (fun (f : RxFrame) => if f.old then [] else f.msgs)
  s.each ms fun s m => match m with
    | .commitAck n => { s with mirror := s.mirror.upd l (fun (k : Mirror) => { k with unacked := k.unacked.filter (fun u => !covers32 n u.num) }) }
    | .cutAck n =>
      if n ≤ s.fld (mirHwmHwm l.idx) ∨ s.fld (mirCutCut l.idx) < n then s
      else
        let s := s.setFld (mirHwmHwm l.idx) n
        { s with mirror := s.mirror.upd l (fun (k : Mirror) => { k with log := k.log.filter (fun x => n ≤ x.1) }) }
    | .peerRefuse d line cause =>
      if cause = 0 ∨ 4 < cause ∨ s.home d ≠ l ∨ !s.mirroring d then s
      else ((s.setDirty d (line / extLines) true).count (mirCntPeerRefuse l.idx) 1).mirSay d cMirPeerRefuse clsCe (some line) cause
    | _ => s

/-- The transmit and receive reports of a link return to those of a link that is not up. -/
def State.straitIdle (s : State) (i : Nat) : State :=
  let s := (((s.setFld (twStatusTxWidth i) 0).setFld (twStatusRxWidth i) 0).setFld (twStatusRxLocked i) 0).setFlag (twStatusSwitching i) false
  let s := s.setReg (twSeq i) 0
  s.each (List.range 8) fun s v => s.setReg (twVcStatus i v) 0

/-- A link that is up goes down with a cause of Table 12.11: `next` is the state it enters. Frames accepted stay with the
mirror engine; the others are undelivered, and their domains go SOLO or are detached (R295; 13_pairing R311, R312). -/
def State.straitDown (s : State) (l : Half) (cause next : Nat) : State :=
  let i := l.idx
  if !s.straitUp i then s
  else
    let k := s.strait.get l
    let s := s.lastAnswers l
    let s := match k.drain with | some set => s.setFld (twStatusKeySetTx i) set | none => s
    let s := if k.oldSet.isSome || k.drain.isSome then s.setFlag (twEvtKeySwitchDone i) true else s
    let s := { s with strait := s.strait.upd l StraitLink.cleared }
    let s := (((s.setFld (twStatusState i) next).setFld (twStatusDownCause i) cause).setFlag (twEvtLinkDown i) true).count
      (twCntErrLinkDowns i) 1
    let s := s.straitIdle i
    let s := s.note { code := cTwLinkDown, cls := clsUcr, unit := uStrait i, detail := cause }
    let s := s.toFm "TW_LINK_DOWN" [i, cause]
    let s := s.each (s.linkDomains l) fun s d =>
      let s := s.splitPair d
      if (s.prot_ d).fences.any (fun f => f.phase == 2) then
        s.updProt d fun p => { p with fences := p.fences.map (fun f => if f.phase = 2 then { f with phase := 1 } else f) }
      else s
    let s := { s with mirror := s.mirror.upd l (fun (m : Mirror) => { m with
      unacked := [], log := [], resyncs := [], repairs := [], pagesIn := [] }) }
    let s := s.dropPages l (fun _ => true)
    let reqs : List Req := s.reqs.map fun (r : Req) => match r.org with
      | .mirror k sync _ => if k = l then { r with org := .mirror k sync (2 ^ 32) } else r
      | _ => r
    let s := { s with reqs }
    let s := (s.setFld (mirStatusLogInuse i) 0).mirTally l
    if s.straitUp (1 - i) then s else s.loseSource 3

end Sys2Proof.Machine
end

