-- ==== Sys2Proof/Machine/Fence.lean ====
section
/-! DEFINITION. The reactions to a UCF and a DF: fences, and the device-fatal state (15_faults R342 to R346; 01_architecture
R45, R46, Table 1.8). -/

namespace Sys2Proof.Machine

/-! ### Lost subtrees (08_protection R218) -/

/-- FENCED_NOW and REBUILD_BUSY of a half (PROT_STATUS). -/
def State.fenceTally (s : State) (h : Half) : State :=
  let n := ((s.prot.filter (fun q => s.home q.1 == h)).map (fun q => (q.2.fences.filter (fun f => decide (f.phase ≥ 1))).length)).foldl (· + ·) 0
  (s.setFld (protStatusFencedNow h.idx) n).setFlag (protStatusRebuildBusy h.idx) (decide (n > 0))

/-- The fenced subtree of a domain at a node. -/
def State.subtree (s : State) (d level idx : Nat) : Option Subtree := (s.prot_ d).fences.find? (fun f => f.level == level && f.idx == idx)

/-- A subtree of a domain changed. -/
def State.updSubtree (s : State) (d level idx : Nat) (f : Subtree → Subtree) : State :=
  s.updProt d fun p => { p with fences := mapFirst (fun (x : Subtree) => x.level == level && x.idx == idx) f p.fences }

/-- The domain may be repaired from its partner (13_pairing R318). -/
def State.mayRepair (s : State) (d : Nat) : Bool :=
  s.flag protCfgRepairEn && s.mMode d == 1 && (s.mState d == mPriMirrored || s.mState d == mSecMirrored)
    && !((s.mirror.get (s.home d)).unacked.any (fun u => u.dom == d))

/-- The subtree under a node is fenced; the partner is asked where it may be (R218 steps 2 and 3). Reads that wait for its
counters complete poisoned. -/
def State.fenceSubtree (s : State) (d level idx : Nat) : State :=
  let h := s.home d
  let ask := s.mayRepair d
  let pages := 8 ^ level
  let s := if (s.subtree d level idx).isSome then s else
    s.updProt d fun p => { p with fences := { level, idx, phase := 1, done := [], major := p.highMajor + 1 } :: p.fences }
  let s := s.updSubtree d level idx fun f => { f with phase := if ask then 2 else 1 }
  let s := (s.count protErrCntSubtreeFenced 1).count (protDomFences d) 1
  let c := chanOf h ((s.area d (idx * pages / 512)).getD 0)
  let s := s.note { code := cProtSubtreeFenced, cls := clsUcr, unit := uCryptoOf c, dom := some d,
                    addr := some (s.dpaOf d (idx * pages * 64), pages * 64) }
  let s := if ask then s.send h 4 8 0 (.repairReq (s.eff (mirDomW0PeerDomain d)) (idx * pages) pages) else s
  let s := s.fenceTally h
  s.each ((s.reqs.filter (fun (r : Req) => r.stage == .ctrWait && r.dom == d && s.treeFenced d r.line)).map (·.rid)) fun s rid =>
    s.answerRead rid 0 true

/-- A node of a counter tree is lost: its local rebuild is due (08_protection R218 step 1). -/
def State.loseNode (s : State) (d level idx : Nat) : State :=
  s.updProt d fun p => { p with fences := { level, idx, phase := 0, done := [], major := p.highMajor + 1 } :: p.fences }

/-- A node or counter block is lost (R218): a failed check raises the alarm; a node above level 0 first gets a local rebuild. -/
def State.nodeLost (s : State) (d level idx : Nat) (badTag : Bool) : State :=
  let c := chanOf (s.home d) ((s.area d (idx * 8 ^ level / 512)).getD 0)
  let s := if badTag then
      (s.count protErrCntTreeFail 1).alarm 2 (uCryptoOf c) (some d) (some (idx * 8 ^ level * 64)) 0 0
    else s
  if (s.subtree d level idx).isSome then s
  else if level = 0 then s.fenceSubtree d 0 idx
  else s.loseNode d level idx

/-! ### Fences of units (Table 15.7) -/

/-- Requests fail in order, by the fence of a unit. -/
def State.failAll (s : State) (u : Nat) (p : Req → Bool) : State :=
  s.each ((s.reqs.filter (fun r => r.stage != .waitEntry && r.stage != .crossBack && r.stage != .respond && r.stage != .mirrorWait
      && p r)).map (·.rid))
    fun s rid => s.failReq rid u

/-- Responses that wait to cross a link that is lost: a read's data is lost with it (01_architecture R45). -/
def State.failCrossing (s : State) (u : Nat) : State :=
  s.each (s.reqs.filter (fun r => r.stage == .crossBack)) fun s r =>
    if r.isRead then (if r.hasDom then s.itemFailed u r.dom r.line else s).finishReq { r with rdata := 0, rpoison := true }
    else s.finishReq r

/-- COMP_BUSY of a half: compressions that hold a compressor. -/
def State.compBusy (s : State) (h : Half) : State :=
  s.setFld (shgStatusCompBusy h.idx) (min 16 ((s.shg.get h).comps.filter (fun j => !j.placed)).length)

/-- A compression ends without its page: the slot, its buffered lines and the job go (06_shingle R182). -/
def State.dropComp (s : State) (h : Half) (j : CompJob) : State :=
  let c := chanOf h j.slot
  let s := s.updChan c fun ch => { ch with wb := ch.wb.filter fun w => !(w.slot == some j.seq && w.dom == j.dom && w.line / 64 == j.page) }
  let s := { s with shg := s.shg.upd h (fun (g : Shg) => { g with comps := g.comps.filter (· != j) }) }
  ((s.dropSlot h j.slot j.k).count (shgEvtCntCompressAbort h.idx) 1).compBusy h

/-- The buffered writes of a channel are lost: each near line enters the poison list (15_faults Table 15.7). -/
def State.loseBuffer (s : State) (c u : Nat) : State :=
  let s := s.each ((s.chan c).wb.filter (·.slot.isNone)) fun s w => (s.itemFailed u w.dom w.line).poisonLine w.dom w.line
  s.updChan c fun ch => { ch with wb := [] }

/-- A crypto cluster: the operations in it fail; when the other cluster of its pair is fenced too, every request on their four channels
does, and their buffered writes are lost (08_protection R201). -/
def State.fenceCrypto (s : State) (i u : Nat) : State :=
  let h := halfOf (i / 6)
  let s := s.failAll u fun r => r.stage == .ctrWait && uCryptoOf (chanOf r.home (r.ma / 4)) == u
  let lost := (chansOf h).filter s.cryptoLost
  let s := s.failAll u fun r => r.home == h && lost.contains (chanOf h (r.ma / 4))
    && (r.stage == .channel || r.stage == .dram || r.stage == .ctrWait || r.stage == .chunkWait || r.stage == .wbWait || r.stage == .parked)
  s.each lost fun s c => s.loseBuffer c u

/-- A DRAM channel: its reads fail, its buffered writes enter the poison list, its maintenance work ends. -/
def State.fenceChannel (s : State) (c u : Nat) : State :=
  let h := chanHalf c
  let s := s.setFlag (dmcStatusFenced c) true
  let s := s.failAll u fun r => r.home == h && chanOf h (r.ma / 4) == c && (r.stage == .channel || r.stage == .dram)
  let s := s.loseBuffer c u
  let s := s.updChan c fun ch => { ch with backs := [], soft := none, softWait := [], retiring := [], deferred := [] }
  let off := fun (j : CompJob) => chanOf h j.slot == c || chanOf h j.frame == c
  let s := s.each ((s.shg.get h).comps.filter off) fun s j => s.dropComp h j
  s.recapAll.guarantee

/-- A compressor cluster: its compressions abort and their pages stay NEAR. -/
def State.fenceComp (s : State) (h : Half) (k : Nat) : State :=
  let mine := (s.shg.get h).comps.filter (fun j => j.cluster == k && !j.placed)
  let s := s.each mine fun s j => s.dropComp h j
  (s.setBit (shgStatusCompFenced h.idx) k true).recap h

/-- The snoop filter loses a bank group (`g` 0 for group 13, 1 for 14): each shared domain homed on the half is sent the
back-invalidate broadcast, and the lines tracked in the group are taken as held by all hosts of their domains until these
have answered; the filter goes on with the sets that are left (Table 1.8; log 54). -/
def State.fenceSnoop (s : State) (h : Half) (g : Nat) : State :=
  let alone := s.sfSets h == 0
  let shared := (List.range 1024).filter fun d => s.domOn d && s.effFlag (domCtrlCoherence d) && s.home d == h
  let s := s.each shared fun s d => s.each (s.ownerHosts d) fun s n => s.emit (.biBroadcast n d)
  let s := s.each (s.snoop.filter (fun e => e.half == h && !e.evicting && (alone || (e.dom + e.line) / 16384 % 2 == g))) fun s e =>
    s.invalidate e.dom e.line (s.ownerHosts e.dom) false true
  s.sfTally h

/-- The bank group that held a set of a cache just before group `g` was fenced; the cache's groups start at `first`, there are `n`,
of `sets` sets each. -/
def State.groupOfSet (s : State) (h : Half) (first n sets g hash : Nat) : Nat :=
  let groups := ((List.range n).map (first + ·)).filter fun x => x == g || !s.fenced (uSram h.idx x)
  nth g groups (hash % (sets * groups.length) / sets)

/-- The pinned levels of a domain's tree: its top node, and those directly below it (08_protection Table 8.2). -/
def State.pinnedNodes (s : State) (d : Nat) : List (Nat × Nat) :=
  let top := s.top d
  if top = 0 then [] else (top, 0) :: (List.range (min 8 (ceilDiv (s.winSize d) (8 ^ (top - 4))))).map (top - 1, ·)

/-- A line that a fenced bank group held and that differed from its copies: a counter block or a node is lost (08_protection R219), other
lines are written back first (log 145). -/
def State.loseLine (s : State) (h : Half) (k : McKey) : State :=
  match k with
  | .ctr d page => s.nodeLost d 0 page false
  | .node d level idx => s.nodeLost d level idx false
  | _ => State.writeMeta 13 s h k

/-- A bank group of the metadata cache is fenced (Table 1.8): its lines go, the cache re-indexes over the groups that are left, and the
pinned tree levels and counter blocks that it held are recovered (08_protection R218, R219). -/
def State.shrinkCache (s : State) (h : Half) (g : Nat) : State :=
  let lost := fun (k : McKey) => s.groupOfSet h 0 8 4096 g k.hash == g
  let gone := (s.mcache.get h).filter fun l => lost l.key
  let pins := s.ctrs.filter fun q => lost (.ctr (q.1 / 2 ^ 36) (q.1 % 2 ^ 36)) && s.home (q.1 / 2 ^ 36) == h && s.ctrPinned (q.1 / 2 ^ 36) (q.1 % 2 ^ 36)
  let s := s.each (gone.filter (·.dirty)) fun s l => s.loseLine h l.key
  let s := s.each pins fun s q => s.loseLine h (.ctr (q.1 / 2 ^ 36) (q.1 % 2 ^ 36))
  let left := (s.mcache.get h).filter fun l => !lost l.key
  let kept := left.foldl (fun (acc : List McLine) l => if (acc.filter (s.sameSet h l.key)).length < 16 then acc ++ [l] else acc) []
  let spilled := left.filter fun l => !kept.contains l
  let s := s.each (spilled.filter (·.dirty)) fun s l => State.writeMeta 13 s h l.key
  let s := { s with mcache := s.mcache.set h (if s.mcSets h = 0 then [] else kept) }
  s.each (s.homed h) fun s d => s.each ((s.pinnedNodes d).filter (fun q => lost (.node d q.1 q.2) && childTag (s.node d q.1 q.2) 0 != 0)) fun s q => s.nodeLost d q.1 q.2 false

/-- Number of a chunk whose remainder gives its set in the chunk cache (06_shingle R181; log 31). -/
def CachedChunk.hash (c : CachedChunk) : Nat := c.slot * 4 + c.chunk

/-- Sets of 16 ways of a half's chunk cache: 256 in each of groups 8 and 9 (R181; 01_architecture Table 1.8). -/
def State.ccSets (s : State) (h : Half) : Nat := ((List.range 2).filter (fun g => !s.fenced (uSram h.idx (8 + g)))).length * 256

/-- A chunk of the chunk cache is used (R181). -/
def State.ccTouch (s : State) (h : Half) (slot chunk : Nat) : State :=
  let n := s.ccSets h
  { s with shg := s.shg.upd h (fun (g : Shg) => { g with
    cache := plruTouch (fun (c : CachedChunk) => c.hash % n == (slot * 4 + chunk) % n)
      (fun c => c.slot == slot && c.chunk == chunk) (·.used) (fun b c => { c with used := b }) g.cache }) }

/-- A bank group of the chunk cache is fenced: its entries, clean copies, are discarded, and the cache goes on with the sets of the
other group (Table 1.8). -/
def State.shrinkChunks (s : State) (h : Half) (g : Nat) : State :=
  let n := s.ccSets h
  let left := (s.shg.get h).cache.filter fun c => s.groupOfSet h 8 2 256 g c.hash != g
  let kept := left.foldl (fun (acc : List CachedChunk) c =>
    if (acc.filter (fun x => x.hash % n == c.hash % n)).length < 16 then acc ++ [c] else acc) []
  { s with shg := s.shg.upd h (fun (g : Shg) => { g with cache := if n = 0 then [] else kept }) }

/-- A bank group of the request table: the half's limit falls and the requests held in the group fail (Table 1.8, R116). -/
def State.fenceTable (s : State) (h : Half) (g u : Nat) : State :=
  let s := s.setFld (rqStatusTableLimit h.idx) 16384
  let s := s.failAll u fun r => ridHalf r.rid == h && r.rid % 32768 / 16384 == g - 10
  s.checkReserves h

/-! ### DF (R346) -/

/-- The device enters DF (R346, R348). -/
def State.enterDf (s : State) : State :=
  let s := (s.setFlag topDeviceDf true).setFlag fltErrPinCtrlDfLock true
  let s := s.failAll uDevice (fun _ => true)
  let dead := (List.range 16).filter fun p => s.portOn p && (s.fenced (uHalf (p / 8)) || (s.halves.get (portHalf p)).coreLost)
  let s := s.each dead fun s p => s.linkLost p
  let s := { s with jobs := s.jobs.map (fun (j : Job) => if j.status.isNone then { j with status := some 0x0A } else j) }
  let s := s.each [Half.a, Half.b] fun s l => (((s.straitDown l 9 0).setFld (twStatusState l.idx) 0).straitIdle l.idx).setFlag (twCfgEnable l.idx) false
  ({ s with commits := [] } : State).sealTally

/-! ### Fences of a half and of the die-to-die link (R45, R46) -/

/-- The follower half: its ports leave link-up, its channels, Strait link and engines are fenced, and requests to its
domains fail. -/
def State.fenceHalf (s : State) (h : Half) : State :=
  let u := uHalf h.idx
  let s := s.setFenced u true
  if s.leader = h then s.enterDf
  else
    let s := s.setFlag topLeaderFollowerFenced true
    let s := s.each (((List.range 8).map (8 * h.idx + ·)).filter s.portOn) fun s p => s.linkLost p
    let s := s.straitDown h 9 6
    let s := s.setFenced (uStrait h.idx) true
    let s := s.each (chansOf h) fun s c => ((s.setFenced (uChannel c) true).setFld (dmcStatusFail c) 6).fenceChannel c u
    let s := s.each (List.range 8) fun s k => (s.setFenced (uComp h.idx k) true).fenceComp h k
    let s := s.each (List.range 8) fun s k =>
      (s.setFenced (uDecomp h.idx k) true).setBit (shgStatusDecompFenced h.idx) k true
    let s := s.each (List.range 6) fun s k => s.setFenced (uCrypto h.idx k) true
    let s := (s.failAll u fun r => r.home == h || ridHalf r.rid == h).failCrossing u
    s.recapAll

/-- DMC_STATUS.FAIL for the detection that fences a channel (05_dram DMC_STATUS). -/
def failCode (name : Nat) : Nat :=
  if name = cDmcModuleUnsupported then 1 else if name = cDmcPopulationInvalid then 2 else if name = cDmcTrainFail then 3
  else if name = cDmcCaParityFail then 4 else if name = cHswSlotTrip then 5 else 6

/-- A unit is fenced for a detection (R342, Table 15.7). -/
def State.fence (s : State) (u name : Nat) : State :=
  let i := u % 0x1000
  let again := s.fenced u
  let s := (s.setFenced u true).updUnit u fun x => { x with
    fences := x.fences + 1, resetting := u / 0x1000 != 8 && u / 0x1000 != 9,
    episode := if again then x.episode else some name, cause := if again then x.cause else name, items := if again then x.items else 0 }
  match u / 0x1000 with
  | 1 => (s.setFld (dmcStatusFail i) (failCode name)).fenceChannel i u
  | 2 => s.linkLost i
  | 3 => s.fenceComp (halfOf (i / 8)) (i % 8)
  | 4 => s.setBit (shgStatusDecompFenced (i / 8)) (i % 8) true
  | 5 => s.fenceCrypto i u
  | 6 =>
    let h := halfOf (i / 16)
    match i % 16 with
    | 8 | 9 => s.shrinkChunks h (i % 16)
    | 10 | 11 => if s.fenced (uSram h.idx (21 - i % 16)) then s.fenceHalf h else s.fenceTable h (i % 16) u
    | 12 | 15 => s.fenceHalf h
    | 13 | 14 => s.fenceSnoop h (i % 16 - 13)
    | _ => s.shrinkCache h (i % 16)
  | 7 =>
    if name = cProtStraitIvExhausted then (s.straitDown (halfOf i) 8 0).setFld (twStatusState i) 0
    else s.straitDown (halfOf i) 9 6
  | 8 => s.fenceHalf s.leader.other
  | 9 => s.fenceHalf (halfOf i)
  | _ => s

/-- A detection in full: recorded, and answered as its class asks (R335, R340, R342, R346, R348). -/
def State.raise (s : State) (d : Det) : State :=
  let (s, how) := s.noteR d
  if how ≠ .full then s
  else if d.cls = clsUcf then s.assertErr.fence d.unit d.code
  else if d.cls = clsDf then s.assertErr.enterDf
  else s

end Sys2Proof.Machine
end

