-- ==== Sys2Proof/Machine/Reset.lean ====
section
/-! DEFINITION. The reset of the device, and the rails (20_pins R421 to R423; 17_boot R394). -/

namespace Sys2Proof.Machine

/-! ### Rails (R421) -/

/-- Rails: 0 VDD_SHORE; 1, 2 VDD_CORE; 3, 4 VDD_SERDES; 5 VDD_STRAIT; 6, 7 VDDQ_PHY. The rails of a step. -/
def State.railsOf (s : State) (step : Nat) : List Nat :=
  match step with
  | 1 => [0]
  | 2 => [1, 2]
  | 3 => if s.isS then [3, 4] else [3, 4, 5]
  | 4 => [6, 7]
  | _ => []

/-- Step `k` of the sequence starts: its rails are enabled. -/
def State.railStart (s : State) (k : Nat) : State :=
  let s := { s with power := { s.power with railStep := k, railGood := [] } }
  s.each (s.railsOf k) fun s r => s.emit (.rail r true)

/-- The rails raised so far are disabled in reverse order. -/
def State.railsDown (s : State) : State :=
  let up := (List.range (s.power.railStep + 1)).flatMap s.railsOf
  let s := s.each up.reverse fun s r => s.emit (.rail r false)
  { s with power := { s.power with railStep := 0, railGood := [] } }

/-! ### Reset -/

/-- Registers that a device reset leaves: the HSW block, the logbook's wear and the anti-rollback counter with the revoke
fuses (R423, R394). -/
def survivesReset (k : Nat) : Bool :=
  (0x340000 ≤ k && k < 0x350000) || k == pwrLogbook || k == bootArb

/-- Registers that show fused values are loaded from the fuses. -/
def State.loadFuses (s : State) : State :=
  let f := s.fuses
  let s := ((s.setFld topIdStepping f.stepping).setFld topIdOrderCode f.orderCode).setFld topIdRomRev f.romRev
  let s := (s.setFld topDieIdDieA f.dieId.a.toNat).setFld topDieIdDieB f.dieId.b.toNat
  let s := (s.setFlag topDeviceStraitPresent (!s.isS)).setFld tbCfgPri1 (if s.isS then 0 else 3)
  (s.setFlag fltStatusLogbookRo (s.flag pwrLogbookWorn)).setFlag bootArbFrozen false

/-- What the logbook keeps of a channel (R394): its training record, retired rows and pending hard repairs, as they were when
it became read-only (16_power R378). -/
def keptChannel (c : Channel) : Channel :=
  match c.frozen with
  | none => { retired := c.retired, pendingHard := c.pendingHard, record := c.record }
  | some (rs, ps) => { retired := rs, pendingHard := ps, record := c.record, frozen := c.frozen }

/-- The device resets: all but the always-on domain, the hot-swap controller, the logbook, the fuses and the flash takes
its reset value; DRAM contents are lost (R423, R394, R370). -/
def State.deviceReset (s : State) : State :=
  let regs := cellDrop (fun k => !survivesReset k) s.regs
  let logged := (s.mirDoms.map (fun q => (q.1, ({ logged := q.2.logged } : MirDom)))).filter (fun q => q.2 != {})
  let t : State :=
    { pending := s.pending, now := s.now, free := s.free, regs, out := s.out, fuses := s.fuses, pins := s.pins,
      ports := s.ports.map (fun p => { perst := p.perst }), channels := s.channels.map keptChannel, mirDoms := logged,
      power := { s.power with
        doms := List.replicate 33 {}, dvfs := ⟨{}, {}⟩, entering := none, wakeSrc := 0, saved := false, samples := [],
        capture := none }
      boot := { flash := s.boot.flash } }
  t.loadFuses.errPin

/-- The card bus goes off, or the rails are removed for a cause of R347: slots and rails off, and everything in the logic
is lost. -/
def State.powerLost (s : State) : State :=
  let s := s.railsDown
  (s.setFld hswSlotPwrPwr 0).deviceReset

/-- One of the five DF records of the power path: logged from the always-on domain, ERR_N held; no DF state (R347). -/
def State.powerDf (s : State) (code : Nat) : State :=
  let r := s.recordOf { code, cls := clsDf, unit := uDevice } false
  let s := s.logRecord { r with logged := true }
  ({ s with pins := { s.pins with errHeld := true } }).errPin

end Sys2Proof.Machine
end

