-- ==== Sys2Proof/Machine/Power.lean ====
section
/-! DEFINITION. Power states, supply and the card's power path: the meanings of the commands (16_power R353 to R378;
20_pins R421, R422). -/

namespace Sys2Proof.Machine

/-- Every meaning of this model answers a next state. -/
abbrev Result := Host.Outcome State Fault Refusal

/-! ### Device states (R357 to R363) -/

/-- The slot is emptied. -/
def State.clearSlot (s : State) : State :=
  { s.setFld pwrStatusSlot 0 with power := { s.power with wakeSrc := 0 } }

/-- A DEEP_SLEEP or OFF request over MCTP (R357): checked in RUN, placed in the slot while a transition runs; OFF goes on
from DEEP_SLEEP. In Boot Hold no MCTP path answers (01_architecture R43). -/
def State.mctpPower (s : State) (off : Bool) : State :=
  if s.power.off || s.phase == 9 then s
  else
    match s.fld pwrStatusDeviceState with
    | 0 =>
      let r := s.powerReason (!s.commits.isEmpty) false
      if r = 0 then (s.startEntry off).emit (.reply "MCTP_POWER" [0])
      else s.emit (.reply "MCTP_POWER" [r])
    | 2 => if off then s.startEntry true else s
    | _ => s.placeSlot (if off then 3 else 2) 0

/-- Open records close, and what bank group 15 of the SRAM held is lost (R360, Table 1.8; log 40). -/
def State.loseBank15 (s : State) : State :=
  let s := s.each (s.records.filter (·.isOpen)).reverse fun s r => s.closeRecord r.seq
  let ring := fun k => (0x1140000 ≤ k && k < 0x1180000) || (0x1240000 ≤ k && k < 0x1280000)
  { s with records := [], regs := cellDrop ring s.regs }

/-- Counters of the performance counter units do not survive DEEP_SLEEP (18_pmu R396). -/
def State.loseCounters (s : State) : State :=
  s.each [0, 1] fun s i =>
    let s := s.each (List.range 64) fun s k => s.setFld (pmuCntCount i k) 0
    s.each (List.range 8) fun s k => s.setFld (pmuFixCount i k) 0

/-- Dirty lines of the metadata caches and pinned counter blocks are written back, and every root is brought up to date (R359;
08_protection R215). -/
def State.writeBackAll (s : State) : State :=
  let s := s.each [Half.a, Half.b] fun s h =>
    let s := s.each ((s.mcache.get h).filter (·.dirty)) fun s l => State.writeMeta 13 s h l.key
    { s with mcache := s.mcache.upd h (fun c => c.map fun (l : McLine) => { l with dirty := false }) }
  let s := s.each (s.ctrs.filter (fun q => s.ctrPinned (q.1 / 2 ^ 36) (q.1 % 2 ^ 36))) fun s q =>
    State.writeMeta 13 s (s.home (q.1 / 2 ^ 36)) (.ctr (q.1 / 2 ^ 36) (q.1 % 2 ^ 36))
  s.each ((List.range 1024).filter (fun d => s.top d != 0)) fun s d =>
    s.updProt d fun p => { p with root := BitVec.ofNat 64 (s.nodeTag d (s.top d) 0 (s.nodeBytes d (s.top d) 0)) }

/-- DEEP_SLEEP entry completes (R359, Table 16.7), and the slot is acted on (R363). -/
def State.sleepDone (s : State) : State :=
  if s.fld pwrStatusDeviceState = 1 ∧ s.power.entering = some false then
    let s := s.flushAll.writeBackAll.loseBank15.loseCounters
    let down := fun (c : HalfCore) => { c with coreRunning := false, d2d := {} }
    let s := { s.setFld pwrStatusDeviceState 2 with
      power := { s.power with entering := none, saved := true, doms := List.replicate 33 {} }, snoop := [],
      halves := (s.halves.upd .a down).upd .b down }
    let req := s.fld pwrStatusSlot
    let src := s.power.wakeSrc
    let s := s.clearSlot
    match req with
    | 1 => s.startExit src
    | 2 => s.discardRequest
    | 3 => s.startEntry true
    | _ => s
  else s

/-- OFF entry completes: the marker is written, slots and rails go off, and the slot is acted on (R359, R363). -/
def State.offDone (s : State) : State :=
  if s.fld pwrStatusDeviceState = 1 ∧ s.power.entering = some true then
    let req := s.fld pwrStatusSlot
    let src := s.power.wakeSrc
    let marker := s.power.marker || !s.flag fltStatusLogbookRo
    let t := s.tns
    let s := (if s.power.saved then s else s.flushAll).powerLost
    let s := { s with power := { s.power with marker, lastTime := t, off := true } }
    match req with
    | 0 => s
    | 1 => if src = 0 then { s with power := { s.power with off := false } } else s.discardRequest
    | _ => s.discardRequest
  else s

/-- WAKE_N: from OFF a full boot follows; else as a wake event (R361, R363). -/
def State.wakePin (s : State) : State :=
  if s.power.off then { s with power := { s.power with off := false } } else s.wake 0

def execDeepSleepEntryDone (s : State) : Result := .next s.sleepDone
def execOffEntryDone (s : State) : Result := .next s.offDone
def execMctpDeepSleep (s : State) : Result := .next (s.mctpPower false)
def execMctpOff (s : State) : Result := .next (s.mctpPower true)
def execMctpWake (s : State) : Result :=
  .next (if s.flag pwrCfgWakeMctpEn ∧ !s.power.off ∧ s.phase ≠ 9 then s.wake 2 else s)
def execWakeN (s : State) : Result := .next s.wakePin
def execWakeAtReached (s : State) : Result :=
  .next (if s.fld pwrWakeAtAtNs ≠ 0 ∧ s.fld pwrWakeAtAtNs ≤ s.tns ∧ !s.power.off then s.wake 3 else s)

/-! ### Voltage, temperature (R364 to R366) -/

/-- The VR acknowledges a step (R364). -/
def State.vrAck (s : State) (h : Half) : State :=
  let d := s.power.dvfs.get h
  match d.step with
  | none => s
  | some p =>
    ({ s with power := { s.power with dvfs := s.power.dvfs.set h { d with volt := p, step := none, noAck := false } } }).dvfs h

/-- A step not acknowledged in time (R364). -/
def State.vrNoAck (s : State) (h : Half) : State :=
  let d := s.power.dvfs.get h
  if d.step.isNone ∨ d.noAck then s
  else
    let s := { s with power := { s.power with dvfs := s.power.dvfs.set h { d with noAck := true } } }
    ((s.say cPwrVrNoAck clsCe (uHalf h.idx)).setFlag pwrEvtVrNoAck true).dvfs h

/-- The step is retried once per second (R364). -/
def State.vrRetry (s : State) (h : Half) : State :=
  let d := s.power.dvfs.get h
  match d.step with
  | some p => if d.noAck then
      ({ s with power := { s.power with dvfs := s.power.dvfs.set h { d with noAck := false } } }).emit (.vr h p)
    else s
  | none => s

/-- The field that reports a half's thermal cap. -/
def thermCap : Half → Fld
  | .a => pwrStatusThermCapA
  | .b => pwrStatusThermCapB

/-- A thermal cap changes: recorded, and CCLK follows (R366). -/
def State.setCap (s : State) (h : Half) (cap : Nat) : State :=
  if s.fld (thermCap h) = cap then s
  else
    let s := s.setFld (thermCap h) cap
    ((s.say cPwrThermThrottle clsCe (uHalf h.idx)).setFlag pwrEvtThermThrottle true).dvfs h

/-- A half's temperature against THROTTLE_C (R366; log 37: a cap at point 3 stays until it is removed). -/
def State.halfTemp (s : State) (h : Half) (t : Nat) : State :=
  let th := s.fld pwrThermCfgThrottleC
  let s := if t ≥ th + 5 then s.setCap h 3 else if t ≥ th ∧ s.fld (thermCap h) = 0 then s.setCap h 2 else s
  let d := s.power.dvfs.get h
  let cool := if t + 5 < th then (if d.coolFrom.isSome then d.coolFrom else some s.now) else none
  { s with power := { s.power with dvfs := s.power.dvfs.set h { d with coolFrom := cool } } }

/-- Temperatures are read; 125 °C on any die trips the device (R366). -/
def State.thermal (s : State) (a b sh : Nat) : State :=
  let s := ((s.setFld pwrThermCfgTempA a).setFld pwrThermCfgTempB b).setFld pwrThermCfgTempShore sh
  if a ≥ 125 ∨ b ≥ 125 ∨ sh ≥ 125 then
    let s := (s.emit (.pin "THERMTRIP_N" false)).powerDf cPwrThermtrip
    let s := s.powerLost
    { s with power := { s.power with tripped := true } }
  else (s.halfTemp .a a).halfTemp .b b

/-- The cap is removed after 100 ms below THROTTLE_C − 5 °C (R366). -/
def State.capRelease (s : State) (h : Half) : State :=
  if (s.power.dvfs.get h).coolFrom.isSome ∧ s.fld (thermCap h) ≠ 0 then s.setCap h 0 else s

def execVrStepAck (h : Half) (s : State) : Result := .next (s.vrAck h)
def execPwrVrNoAck (h : Half) (s : State) : Result := .next (s.vrNoAck h)
def execVrStepRetry (h : Half) (s : State) : Result := .next (s.vrRetry h)
def execThermalSample (a b sh : BitVec 8) (s : State) : Result := .next (s.thermal a.toNat b.toNat sh.toNat)
def execThermalCapRelease (h : Half) (s : State) : Result := .next (s.capRelease h)

/-! ### Supply (R367 to R370) -/

/-- Warning: the supply cap applies; a further warning restarts the recovery timer (R368). -/
def State.supplyWarn (s : State) : State :=
  let s := { s.setFlag pwrStatusSupplyWarn true with power := { s.power with recovFrom := none } }
  ((s.say cPwrSupplyWarn clsCe uDevice).setFlag pwrEvtSupplyWarn true).dvfsAll

/-- 1 ms of continuous recovery: the dip is recorded and the cap removed (R368). -/
def State.supplyDip (s : State) : State :=
  if s.flag pwrStatusSupplyWarn ∧ s.power.recovFrom.isSome then
    let s := { s.setFlag pwrStatusSupplyWarn false with power := { s.power with recovFrom := none } }
    ((s.say cPwrSupplyDip clsCe uDevice).setFlag pwrEvtSupplyDip true).dvfsAll
  else s

/-- Reset by the supply (R370): it overrides every transition and empties the slot (R363). -/
def State.supplyReset (s : State) : State :=
  let s := (s.powerDf cPwrSupplyReset).powerLost
  { s with power := { s.power with heldReset := true, recovFrom := none, off := false } }

/-- 100 ms of recovery after a reset: the device boots again (R370). -/
def State.supplyReboot (s : State) : State :=
  if s.power.heldReset ∧ s.power.recovFrom.isSome then
    { s with power := { s.power with heldReset := false, recovFrom := none } }
  else s

/-- The bus rises above WARN_MV + HYST_MV (R367). -/
def State.supplyRecover (s : State) : State :=
  if s.flag pwrStatusSupplyWarn ∨ s.power.heldReset then
    { s with power := { s.power with recovFrom := some (s.power.recovFrom.getD s.now) } }
  else s

/-- The device supervises the rail of a telemetry point: it has enabled the rail (R369). -/
def State.supervised (s : State) (point : Nat) : Bool :=
  decide (5 ≤ point) && (point == 15 || (s.power.railStep == 5
    && (point == 14 || s.fld pwrStatusDeviceState != 2) && !(point == 13 && s.isS)))

/-- A rail fault with the reaction of Table 16.12 (R369). -/
def State.railFault (s : State) (point : Nat) : State :=
  if !s.supervised point then s
  else
    let s := s.setFlag pwrEvtRailFault true
    let ucf := fun (s : State) (u : Nat) => s.raise { code := cPwrRailFault, cls := clsUcf, unit := u }
    match point with
    | 5 | 6 => ucf s (uHalf 0)
    | 7 | 8 => ucf s (uHalf 1)
    | 9 | 11 => ucf s (uHalf 0)
    | 10 | 12 => ucf s (uHalf 1)
    | 13 => ucf (ucf s (uStrait 0)) (uStrait 1)
    | _ => (s.note { code := cPwrRailFault, cls := clsUcf, unit := uDevice }).supplyReset

def execPwrSupplyWarn (s : State) : Result := .next s.supplyWarn
def execPwrSupplyDip (s : State) : Result := .next s.supplyDip
def execPwrSupplyReset (s : State) : Result := .next s.supplyReset
def execSupplyReboot (s : State) : Result := .next s.supplyReboot
def execSupplyRecovery (s : State) : Result := .next s.supplyRecover
def execPwrRailFault (point : Fin 16) (s : State) : Result := .next (s.railFault point)

/-! ### Rail sequence (20_pins R421) -/

/-- A rail reports power-good; when all of the step have, the next step starts. -/
def State.railGood (s : State) (r : Nat) : State :=
  let k := s.power.railStep
  if (s.railsOf k).contains r ∧ !s.power.railGood.contains r then
    let s := { s with power := { s.power with railGood := r :: s.power.railGood } }
    if !(s.railsOf k).all (fun x => s.power.railGood.contains x) then s
    else if k = 4 then ({ s with power := { s.power with railFails := 0 } } : State).railStart 5
    else s.railStart (k + 1)
  else s

/-- No power-good within 5 ms: logged, the rails go down, and after three failures they stay down. -/
def State.railTimeout (s : State) : State :=
  if 1 ≤ s.power.railStep ∧ s.power.railStep ≤ 4 then
    let s := s.logRecord { s.recordOf { code := cPwrRailFault, cls := clsUcf, unit := uDevice } false with logged := true }
    let s := s.railsDown
    let n := s.power.railFails + 1
    { s with power := { s.power with railFails := n, railsLatched := decide (n ≥ 3) } }
  else s

/-- 1 s after a failed sequence, it starts again. -/
def State.railRetry (s : State) : State :=
  if s.power.railStep = 0 ∧ s.power.railFails ≠ 0 ∧ !s.power.railsLatched ∧ s.fld hswStatusState = 3 then s.railStart 1 else s

def execRailPowerGood (r : Fin 8) (s : State) : Result := .next (s.railGood r)
def execRailPgTimeout (s : State) : Result := .next s.railTimeout
def execRailSequenceRetry (s : State) : Result := .next s.railRetry

/-! ### Hot swap (R371, R372, Table 16.11) -/

/-- The seating timer starts: AUX good, HSW_EN_N low, ENABLE 1, either seating pin low (Table 16.11). -/
def State.hswTry (s : State) : State :=
  if s.fld hswStatusState = 0 ∧ s.power.auxGood ∧ s.pins.hswEn ∧ s.flag hswCtrlEnable
      ∧ (s.flag hswStatusSeatA ∨ s.flag hswStatusSeatB) then s.setFld hswStatusState 1 else s

/-- Gates off: the controller goes to OFF; from ON the card bus falls and the logic loses power (R372, R374). -/
def State.gatesOff (s : State) : State :=
  let was := s.fld hswStatusState
  let s := { s.setFld hswStatusState 0 with power := { s.power with gateOn := false, switching := none } }
  if was = 3 then s.powerLost else s

/-- A seating pin changes (Table 16.11, 20_pins Table 20.12). -/
def State.seatChange (s : State) (feedB low : Bool) : State :=
  let s := s.setFlag (if feedB then hswStatusSeatB else hswStatusSeatA) low
  if low then s.hswTry
  else if 1 ≤ s.fld hswStatusState ∧ s.fld hswStatusState ≤ 3 then s.gatesOff else s

/-- Both pins low for 100 ms: the ramp starts on the preferred feed when it is good, else on the other (R371). -/
def State.seatingDone (s : State) : State :=
  if s.fld hswStatusState = 1 ∧ s.flag hswStatusSeatA ∧ s.flag hswStatusSeatB then
    let good := fun (b : Bool) => s.flag (if b then hswStatusFeedBGood else hswStatusFeedAGood)
    let pref := s.flag hswFeedCfgPrefer
    let f := if good pref then pref else !pref
    { (s.setFld hswStatusState 2).setFlag hswStatusActiveFeed f with power := { s.power with gateOn := true } }
  else s

/-- The bus reaches the feed. -/
def State.rampDone (s : State) : State :=
  if s.fld hswStatusState = 2 then s.setFld hswStatusState 3 else s

/-- A latch-off from a state, with its cause and record (R371, R372). -/
def State.latch (s : State) (from_ cause code : Nat) : State :=
  if s.fld hswStatusState = from_ then
    let s := (s.setFld hswStatusState 4).setFld hswStatusLatchCause cause
    let s := { s with power := { s.power with gateOn := false, switching := none, enSeenHigh := false, enCleared := false } }
    let s := s.powerDf code
    if from_ = 3 then s.powerLost else s
  else s

/-- The latch is cleared, and the controller may seat again (Table 16.11). -/
def State.unlatch (s : State) : State := ((s.setFld hswStatusState 0).setFld hswStatusLatchCause 0).hswTry

/-- HSW_EN_N changes: high turns the gates off; high for 1 ms and then low clears a latch, THERMTRIP's hold and a failed
rail sequence (R371, R366, 20_pins R421). -/
def State.enPin (s : State) (low highForMs : Bool) : State :=
  let s := { s.setFlag hswStatusEnPin low with pins := { s.pins with hswEn := low } }
  if !low then
    let s := { s with power := { s.power with enSeenHigh := true } }
    if [1, 2, 3].contains (s.fld hswStatusState) then s.gatesOff else s
  else
    let clear := s.power.enSeenHigh && highForMs
    let tripped := s.power.tripped
    let s := { s with power := { s.power with
      enSeenHigh := false, tripped := s.power.tripped && !clear,
      railsLatched := s.power.railsLatched && !clear, railFails := if clear then 0 else s.power.railFails } }
    let s := if tripped && clear then s.emit (.pin "THERMTRIP_N" true) else s
    if s.fld hswStatusState = 4 then (if clear then s.unlatch else s) else s.hswTry

/-- A write of HSW_CTRL (Table 16.11). -/
def State.hswCtrlWrite (s : State) (v : Nat) : State :=
  let s := s.setFlag hswCtrlEnable (v % 2 == 1)
  if v % 2 = 0 then
    let s := { s with power := { s.power with enCleared := true } }
    if [1, 2, 3].contains (s.fld hswStatusState) then s.gatesOff else s
  else if s.fld hswStatusState = 4 then (if s.power.enCleared then s.unlatch else s) else s.hswTry

def execHswSeatChange (feedB low : Bool) (s : State) : Result := .next (s.seatChange feedB low)
def execHswSeatingDone (s : State) : Result := .next s.seatingDone
def execHswRampDone (s : State) : Result := .next s.rampDone
def execHswInrushShort (s : State) : Result := .next (s.latch 2 1 cHswInrushShort)
def execHswSoaTimeout (s : State) : Result := .next (s.latch 2 2 cHswSoaTimeout)
def execHswOvercurrent (s : State) : Result := .next (s.latch 3 3 cHswOvercurrent)
def execHswEnPinChange (low highForMs : Bool) (s : State) : Result := .next (s.enPin low highForMs)
def execHswCtrlWrite (v : Word) (s : State) : Result := .next (s.write .plain true none fun s => s.hswCtrlWrite v.toNat)

/-! ### Feeds (R373) -/

/-- The status bit of a feed. -/
def feedGoodFld (feedB : Bool) : Fld := if feedB then hswStatusFeedBGood else hswStatusFeedAGood

/-- A feed fails: the active one is switched away from when the other is good, else PWR_FEED_LOST is recorded. -/
def State.feedFail (s : State) (feedB : Bool) : State :=
  let s := s.setFlag (feedGoodFld feedB) false
  if s.fld hswStatusState = 3 ∧ s.flag hswStatusActiveFeed = feedB ∧ s.power.switching.isNone then
    if s.flag (feedGoodFld !feedB) then
      { s with power := { s.power with gateOn := false, switching := some !feedB } }
    else s.say cPwrFeedLost clsCe uDevice
  else s

/-- The dead time ends: the other gate turns on and the switch is recorded. -/
def State.feedSwitched (s : State) : State :=
  match s.power.switching with
  | none => s
  | some f =>
    let s := { s.setFlag hswStatusActiveFeed f with power := { s.power with gateOn := true, switching := none } }
    (s.say cPwrFeedSwitch clsCe uDevice).setFlag pwrEvtFeedSwitch true

/-- The preferred feed has been good for 100 ms while the other conducts: break before make. -/
def State.feedBack (s : State) : State :=
  let pref := s.flag hswFeedCfgPrefer
  if s.fld hswStatusState = 3 ∧ s.flag hswStatusActiveFeed ≠ pref ∧ s.flag (feedGoodFld pref) ∧ s.power.switching.isNone then
    { s with power := { s.power with gateOn := false, switching := some pref } }
  else s

def execFeedFail (feedB : Bool) (s : State) : Result := .next (s.feedFail feedB)
def execFeedDeadTimeEnd (s : State) : Result := .next s.feedSwitched
def execFeedSwitchBack (s : State) : Result := .next s.feedBack
def execFeedGood (feedB : Bool) (s : State) : Result := .next (s.setFlag (feedGoodFld feedB) true)

/-! ### Slots (R375) -/

/-- A slot fuse trips: both slots of the channel turn off and latch, and the channel is fenced (R375; log 47). -/
def State.slotTrip (s : State) (slot : Nat) : State :=
  let a := slot / 2 * 2
  if !(s.bit hswSlotPwrPwr slot) then s
  else
    let s := s.each [a, a + 1] fun s i =>
      let was := s.bit hswSlotPwrPwr i
      let s := s.setBit hswSlotPwrPwr i false
      if was then s.setBit hswSlotTripTrip i true else s
    let s := { s with power := { s.power with slotCleared := withBits s.power.slotCleared a 2 0 } }
    s.raise { code := cHswSlotTrip, cls := clsUcf, unit := uChannel (slot / 2) }

/-- A slot may be powered: past EARLY, and its channel not disabled (R375; 05_dram DMC_CFG; 17_boot Table 17.1). -/
def State.slotMay (s : State) (i : Nat) : Bool :=
  within 4 8 (s.fld bootStatusPhase) && !s.flag (dmcCfgChannelDisable (i / 2)) && s.power.railStep == 5

/-- A write of HSW_SLOT_EN: a bit at 0 turns its slot off; 0 and then 1 clears a latch and powers the slot (R375). -/
def State.slotEnable (s : State) (v : Nat) : State :=
  let s := s.setFld hswSlotEnEn v
  s.each (List.range 48) fun s i =>
    if !bitAt v i then
      let s := s.setBit hswSlotPwrPwr i false
      { s with power := { s.power with slotCleared := withBits s.power.slotCleared i 1 1 } }
    else
      let clear := s.bit hswSlotTripTrip i && bitAt s.power.slotCleared i
      let s := if clear then s.setBit hswSlotTripTrip i false else s
      let s := { s with power := { s.power with slotCleared := withBits s.power.slotCleared i 1 0 } }
      if s.bit hswSlotTripTrip i ∨ !s.slotMay i then s else s.setBit hswSlotPwrPwr i true

def execHswSlotTrip (slot : Fin 48) (s : State) : Result := .next (s.slotTrip slot)
def execSlotEnableWrite (v : Word) (s : State) : Result := .next (s.write .plain true none fun s => s.slotEnable v.toNat)

/-! ### Telemetry (R377) -/

/-- One point takes a sample: last, mean over the window, peak. -/
def State.telemPoint (s : State) (n v : Nat) : State :=
  let v := if n = 13 ∧ s.isS then 0 else v % 2 ^ 20
  let w := max 1 (s.fld pwrTelemCfgWindowUs)
  let xs := (v :: cellGet [] s.power.samples n).take w
  let s := { s with power := { s.power with samples := cellPut [] s.power.samples n xs } }
  let s := (s.setFld (pwrTelemLast n) v).setFld (pwrTelemAvg n) (xs.foldl (· + ·) 0 / xs.length)
  s.setFld (pwrTelemPeak n) (max (s.fld (pwrTelemPeak n)) v)

/-- The armed capture takes a sample once its start has come (R377). -/
def State.captureTake (s : State) : State :=
  match s.power.capture with
  | none => s
  | some n =>
    if s.tns / 1000 < s.fld pwrCapCfgStartUs then s
    else
      let v := s.fld (pwrTelemLast (s.fld pwrCapCfgPoint))
      let s := if n = 0 then s.setFld pwrCapT0T0Ns s.tns else s
      let s := s.setFld (if n % 2 = 0 then pwrCapDataSampleEven (n / 2) else pwrCapDataSampleOdd (n / 2)) v
      if n + 1 = 4096 then { s.setFlag pwrCapCfgArm false with power := { s.power with capture := none } }
      else { s with power := { s.power with capture := some (n + 1) } }

/-- Every point is sampled. -/
def State.telemetry (s : State) (xs : List Nat) : State :=
  (s.each (List.range 64) fun s n => s.telemPoint n (nth 0 xs n)).captureTake

/-- A write of PWR_CAP_CFG (R377): ARM sets, and starts a capture of 4,096 samples. -/
def State.captureArm (s : State) (v : Nat) : State :=
  let was := s.flag pwrCapCfgArm
  let s := (s.setFld pwrCapCfgPoint v).setFld pwrCapCfgStartUs (v / 2 ^ 7)
  if bitAt v 6 ∧ !was then { s.setFlag pwrCapCfgArm true with power := { s.power with capture := some 0 } } else s

def execTelemetrySample (xs : List Nat) (s : State) : Result := .next (s.telemetry xs)
def execCaptureArm (v : Word) (s : State) : Result := .next (s.write .plain true none fun s => s.captureArm v.toNat)

/-! ### Logbook wear (R378) -/

/-- Writes that a block takes (R378). -/
def wearMax : Nat := 10000000000

/-- A block of the logbook is written: its wear advances; at 10^10 a spare takes its place, or the logbook is worn. -/
def State.logbookWrite (s : State) (b : Nat) : State :=
  if s.flag fltStatusLogbookRo then s
  else
    let n := cellGet 0 s.power.wear b + 1
    let s := s.setFld pwrLogbookMaxWear (max (s.fld pwrLogbookMaxWear) n)
    if n < wearMax then { s with power := { s.power with wear := cellPut 0 s.power.wear b n } }
    else if s.fld pwrLogbookSparesLeft > 0 then
      let s := s.setFld pwrLogbookSparesLeft (s.fld pwrLogbookSparesLeft - 1)
      ({ s with power := { s.power with wear := cellPut 0 s.power.wear b 0 } }).say cLogbookSpareUsed clsCe uDevice
    else
      let s := { s with power := { s.power with wear := cellPut 0 s.power.wear b n } }
      let s := { s with channels := s.channels.map (fun (c : Channel) => { c with frozen := some (c.frozen.getD (c.retired, c.pendingHard)) }) }
      let s := ((s.setFlag pwrLogbookWorn true).setFlag fltStatusLogbookRo true).setFlag pwrEvtLogbookWorn true
      s.say cLogbookWorn clsCe uDevice

def execLogbookWrite (b : Fin 1984) (s : State) : Result := .next (s.logbookWrite b)

/-! ### AUX_3V3 (20_pins R422) -/

/-- AUX_3V3 falls: every gate is off, and the always-on domain with its latches is lost; the logbook, the fuses and the
flash stay. -/
def State.auxFall (s : State) : State :=
  let s := s.powerLost
  let hsw := fun k => 0x340000 ≤ k && k < 0x350000 && k != hswStatus
  let seatA := s.flag hswStatusSeatA
  let seatB := s.flag hswStatusSeatB
  let s := { s with
    regs := cellDrop hsw s.regs,
    power := { auxGood := false, wear := s.power.wear, marker := s.power.marker, lastTime := s.power.lastTime,
               logbook := s.power.logbook },
    pins := { s.pins with errHeld := false } }
  let s := s.setReg hswStatus 0
  (((s.setFlag hswStatusSeatA seatA).setFlag hswStatusSeatB seatB).setFlag hswStatusEnPin s.pins.hswEn).errPin

/-- AUX_3V3 rises: the always-on domain starts afresh. -/
def State.auxRise (s : State) : State := ({ s with power := { s.power with auxGood := true } }).hswTry

def execAuxPowerFall (s : State) : Result := .next s.auxFall
def execAuxPowerRise (s : State) : Result := .next s.auxRise

end Sys2Proof.Machine
end

