-- ==== Sys2Proof/Machine/QosCore.lean ====
section
/-! DEFINITION. Policers, shapers and the class of a request (09_qos R228 to R235). -/

namespace Sys2Proof.Machine

/-- A half's share of a domain's rates, in 1/256 (R228). -/
def State.share (s : State) (h : Half) (d : Nat) : Nat :=
  match h with
  | .a => s.eff (qosPolBSplitA d)
  | .b => 256 - s.eff (qosPolBSplitA d)

/-- Bucket units, 1/1,024 B, that a rate of MB/s scaled by a share adds in some ns (R229). -/
def fill (ns rate share : Nat) : Nat := ns * rate * share * 1024 / 256000

/-- Bucket capacity of some units of 64 B scaled by a share. -/
def capacity (units share : Nat) : Nat := units * 64 * 1024 * share / 256

/-- 64 bytes in bucket units. -/
def lineCost : Nat := 65536

/-- A bucket pair of a domain in a half. -/
def State.bucket (s : State) (h : Half) (d : Nat) : Bucket := cellGet {} s.buckets (d * 2 + h.idx)

/-- A request is marked by its domain's policer (Table 9.1): 0 green, 1 yellow, 2 red. -/
def State.police (s : State) (h : Half) (d pre : Nat) : State × Nat :=
  if !s.effFlag (qosPolAEn d) then (s, 0)
  else
    let b := s.bucket h d
    let sh := s.share h d
    let dt := s.now - b.last
    let tc := min (b.tc + fill dt (s.eff (qosPolACir d)) sh) (capacity (s.eff (qosPolACbs d)) sh)
    let tp := min (b.tp + fill dt (s.eff (qosPolBPir d)) sh) (capacity (s.eff (qosPolBPbs d)) sh)
    let aware := s.effFlag (qosPolAColourAware d)
    let (color, tc', tp') :=
      if aware && pre == 2 then (2, tc, tp)
      else if tp < lineCost then (2, tc, tp)
      else if (aware && pre == 1) || decide (tc < lineCost) then (1, tc, tp - lineCost)
      else (0, tc - lineCost, tp - lineCost)
    let s := { s with buckets := cellPut {} s.buckets (d * 2 + h.idx) { tc := tc', tp := tp', last := s.now } }
    (if color = 1 then s.count (qosPolCntYellow d) 1 else if color = 2 then s.count (qosPolCntRed d) 1 else s, color)

/-- The scheduling class of a domain class and a colour (Table 9.3). -/
def schedClass (cls color : Nat) : Nat := if color = 2 then 7 else if color = 1 ∧ cls = 0 then 1 else cls

/-- The pre-colour of a host's requests (R230). -/
def State.preColour (s : State) (p ld : Nat) : Nat :=
  bitsOf (s.eff (qosSrcColourColours p)) (2 * (if s.gfam p then 0 else ld)) 2

/-- A request is marked, and its class follows; the event counts by the domain's class (Table 18.1). -/
def State.mark (s : State) (h : Half) (r : Req) (pre : Nat) : State × Req :=
  let (s, color) := s.police h r.dom pre
  let dc := s.eff (domPolicyTclass r.dom)
  let s := s.pulse h bQos dc color (some r.dom)
  let s := match r.org with
    | .host p id => if s.gfam p || color == 0 then s else s.userCount (fnOf p id) (4 + color) 1
    | _ => s
  (s, { r with color, cls := schedClass dc color })

/-- A domain's shaper, its bucket filled to now (R233). -/
def State.shaperNow (s : State) (d : Nat) : Shaper :=
  let b := cellGet ({} : Shaper) s.shapers d
  { b with tok := min (b.tok + fill (s.now - b.last) (s.eff (qosShpRate d)) 256) (capacity (s.eff (qosShpBurst d)) 256), last := s.now }

/-- The shaper holds nothing of the domain: it is off, or the domain is QC0 (R233). -/
def State.unshaped (s : State) (d : Nat) : Bool := !s.effFlag (qosShpEn d) || s.eff (domPolicyTclass d) == 0

/-- The head of a domain queue leaves against the shaper's bucket; none while the bucket is short (R233). -/
def State.shape (s : State) (d : Nat) : Option State :=
  if s.unshaped d then some s
  else
    let b := s.shaperNow d
    if b.tok < lineCost then none
    else some { s with shapers := cellPut {} s.shapers d { b with tok := b.tok - lineCost } }

/-- Policer buckets start full, and each shaper bucket as its TOKEN_INIT states (16_power R362 step 4). -/
def State.bucketsFull (s : State) : State :=
  let pol := (List.range 2048).filter fun k => s.effFlag (qosPolAEn (k / 2))
  let shp := (List.range 1024).filter fun d => s.effFlag (qosShpEn d)
  let s : State := { s with buckets := [], shapers := cellMap {} (fun (x : Shaper) => ({ marked := x.marked } : Shaper)) s.shapers }
  let s := s.each pol fun s k =>
    let sh := s.share (halfOf (k % 2)) (k / 2)
    { s with buckets := cellPut {} s.buckets k { tc := capacity (s.eff (qosPolACbs (k / 2))) sh, tp := capacity (s.eff (qosPolBPbs (k / 2))) sh, last := s.now } }
  s.each shp fun s d =>
    { s with shapers := cellPut {} s.shapers d { cellGet ({} : Shaper) s.shapers d with
        tok := if s.effFlag (qosShpTokenInit d) then capacity (s.eff (qosShpBurst d)) 256 else 0, last := s.now } }

/-- A request's queue time enters the mean of its class in its home half (04_request R129). -/
def State.noteQueue (s : State) (r : Req) (wait : Nat) : State :=
  { s with queueTimes := s.queueTimes.upd r.home (fun q => (s.now, r.cls, wait) :: q.filter (fun x => decide (s.now ≤ x.1 + 1000))) }

/-- Time of a request in its domain queue. -/
def Req.domainWait (r : Req) : Nat := r.stamps.release - r.stamps.enqueue

/-- QOS_DOM_STATE of a domain: requests queued, and parked. -/
def State.domTally (s : State) (d : Nat) : State :=
  let mine := s.reqs.filter (fun (r : Req) => r.hasDom && r.dom == d)
  (s.setFld (qosDomStateQueued d) (mine.filter (fun (r : Req) => r.stage == .queued || r.stage == .parked)).length).setFld (qosDomStateParked d)
    (mine.filter (fun (r : Req) => r.stage == .parked)).length

end Sys2Proof.Machine
end

