-- ==== Sys2Proof/Machine/ReqPath.lean ====
section
/-! DEFINITION. The path of a request: decode, stage parity, the map stage, the channel queues and write buffers (03_domains
R75 to R78, R89, R90; 04_request R106 to R128; 09_qos R235). -/

namespace Sys2Proof.Machine

/-! ### Decode (03_domains R75 to R78) -/

/-- The key of an HDM decoder. -/
def hdmKey (p id i : Nat) : Nat := (p * 4096 + id) * 8 + i

/-- The committed decoder of a host that covers an address, and the address it gives with the interleave taken out (R75, R76;
CXL 3.2). -/
def State.hdmOf (s : State) (p id hpa : Nat) : Option (HdmDecoder × Nat) :=
  let ds := (List.range 8).map fun i => cellGet ({} : HdmDecoder) s.hdm (hdmKey p id i)
  (ds.find? (fun c => c.committed && decide (c.base ≤ hpa ∧ hpa < c.base + c.size))).map fun c =>
    let off := hpa - c.base
    (c, c.dpa + off / (c.gran * c.ways) * c.gran + off % c.gran)

/-- What the decode of an address comes to (Table 3.1). -/
inductive Decoding where
  | undecoded | noDomain (dpa : Nat) | notOwner (dpa : Nat) | ok (d line dpa : Nat)
  deriving DecidableEq, Repr

/-- The decode of a host's address under the state in effect (R75 to R78, R128); until Memory_Active no decoder counts as
committed (17_boot R392). -/
def State.decodeHpa (s : State) (p id hpa : Nat) : Decoding :=
  match (if s.boot.memActive then s.hdmOf p id hpa else none) with
  | none => .undecoded
  | some (c, a) =>
    match (if s.gfam p then some a else s.ldToDpa p id a) with
    | none => .noDomain 0
    | some dpa =>
      match s.domOfDpa dpa with
      | none => .noDomain dpa
      | some (d, line) =>
        let owner := if s.gfam p then s.ownerSpid d id else s.ownerLd d p id
        if !owner || (s.effFlag (domCtrlCoherence d) && !c.bi) then .notOwner dpa else .ok d line dpa

/-- A G-FAM port knows a source identity: not 0xFFF, and a member of an SPID group in effect or the holder of a committed
decoder (02_host_ports R55; log 56). -/
def State.knownSpid (s : State) (p id : Nat) : Bool :=
  id != 0xFFF
    && ((List.range 256).any (fun g => bitAt (s.eff (mapSpidGroupMembers g (id / 64))) (id % 64))
      || (List.range 8).any (fun i => (cellGet ({} : HdmDecoder) s.hdm (hdmKey p id i)).committed))

/-- A port takes CXL.mem traffic: it is enabled and its link is up (16_power R355). -/
def State.portUp (s : State) (p : Nat) : Bool := s.portOn p && ((s.port p).link == .l0 || (s.port p).link == .l0p)

/-! ### Stage parity (04_request R119 to R121) -/

/-- The breakwater of a stage of Table 4.1, or of the write buffer, numbered 0 (Table 4.7a); none where the stage has no work
for the request: a crossing of a request that does not cross (R104). -/
def Req.stageUnit (r : Req) (stage : Nat) : Option Nat :=
  let c := chanOf r.home (r.ma / 4)
  match stage with
  | 1 | 10 => some (match r.port with | some p => uPort p | none => uHalf r.ingress.idx)
  | 3 | 9 => if r.crosses then some uD2d else none
  | 7 | 0 => some (uChannel c)
  | 8 => some (uCryptoOf c)
  | 2 => some (uHalf r.ingress.idx)
  | _ => some (uHalf r.home.idx)

/-- Parity errors of a stage on the breakwater `u`: `n` of 1 to 3 where replay `n` succeeds, 4 where the third replay fails (R119,
R121). Answers whether it failed. -/
def State.parity (s : State) (h : Half) (u stage n : Nat) (rid dom : Option Nat) : State × Bool :=
  if n = 0 then (s, false)
  else
    let s := match rid with | some i => (s.updReq i fun r => { r with replayed := true }).exclude i 1 | none => s
    let det : Det := { code := cRqParityReplayed, cls := clsCe, unit := u, dom, req := rid, detail := if stage = 0 then 11 else stage }
    if n ≤ 3 then (((s.count rqErrCntStageReplay 1).pulse h bRq 0 2 none).note det, false)
    else (s.raise { det with code := cRqParityFail, cls := clsUcf }, true)

/-- The parity errors of a stage of a request that holds an entry: a third replay that fails fails the request (R121). A stage
that is not among those that `here` names, or that has no work for the request, checks nothing. -/
def State.stageParity (s : State) (rid stage n : Nat) (here : List Nat) : State × Bool :=
  match s.req rid with
  | none => (s, false)
  | some r =>
    match (if here.contains stage then r.stageUnit stage else none) with
    | none => (s, false)
    | some u =>
      let h := if stage = 10 then r.ingress else r.home
      let (s, bad) := s.parity h u stage n (some rid) (if r.hasDom then some r.dom else none)
      if bad then (s.failReq rid u, true) else (s, false)

/-! ### Queues of a channel (Table 4.6; 09_qos R235) -/

/-- Reads of a half that hold an entry of a channel's read queue. -/
def State.readQueue (s : State) (c : Nat) : List Req :=
  s.reqs.filter fun r => r.stage == .channel && r.home == chanHalf c && chanOf r.home (r.ma / 4) == c

/-- The read queue of a channel has room for a request: 256 entries, 32 of them for green QC0. -/
def State.readRoom (s : State) (c : Nat) (r : Req) : Bool :=
  decide ((s.readQueue c).length < if r.green0 then 256 else 224)

/-- The write buffer of a channel has room for a request: 512 entries, QC0_WB_RESERVE of them for green QC0. -/
def State.wbRoom (s : State) (c : Nat) (r : Req) : Bool :=
  let ch := s.chan c
  let soft := match ch.soft with | some x => if x.phase = 0 then x.lines.length else 0 | none => 0
  decide (ch.wb.length + soft < if r.green0 then 512 else 512 - s.fld rqCfgQc0WbReserve)

/-- The stage of a request changes; its domain's queue registers follow. -/
def State.moveReq (s : State) (rid : Nat) (st : Stage) : State :=
  match s.req rid with
  | none => s
  | some r => (s.setStage rid st).domTally r.dom

/-- An older write to the line, of a kind, has passed the map and has no entry yet (R110). -/
def State.olderWrites (s : State) (r : Req) (kind : Req → Bool) : Bool :=
  (s.reqs.takeWhile (fun q => q.rid != r.rid || q.stage == .waitEntry)).any fun q =>
    q.isWrite && q.hasDom && q.dom == r.dom && q.line == r.line && (q.stage == .wbWait || q.stage == .parked) && kind q

/-- A read joins its channel's queue, or is parked (R235); what excludes a class-0 read is noted (10_latency R257). Where the counter
block of its page is not on die, its fetch may start now (08_protection R216). -/
def State.toChannel (s : State) (rid ma : Nat) : State :=
  match s.req rid with
  | none => s
  | some r =>
    let c := chanOf r.home (ma / 4)
    let s := s.updReq rid fun r => { r with ma, stamps := { r.stamps with mapped := s.now } }
    if !s.serves c then s.failReq rid (s.fencedBy c)
    else
      let s := if s.ctrReady r.dom r.line then s
        else (s.pulse r.home bProt (c % 12 / 2) 2 (some r.dom)).exclude rid 6
      let ahead := ((s.readQueue c).filter (·.green0)).length + ((s.chan c).wb.filter (·.green0)).length
      let merge := (s.chan c).wb.any (fun w => w.green0 && w.enables != allBytes)
      let behind := (s.readQueue c).any (fun q => !q.green0 && q.hasDom && q.dom == r.dom && q.line == r.line)
        || (s.chan c).wb.any (fun w => !w.green0 && w.dom == r.dom && w.line == r.line && w.slot.isNone && w.enables != allBytes)
        || s.olderWrites r (!·.green0)
      let s := if s.flag (qosG0ChGuaranteed c) then s else s.exclude rid 3
      let s := if decide (ahead > s.fld (qosG0ChN c)) || merge then s.exclude rid 10 else s
      let s := if behind then s.exclude rid 9 else s
      if s.readRoom c r then s.moveReq rid .channel else s.moveReq rid .parked

/-! ### The map stage (stage 5) -/

/-- Exclusion causes that a class-0 request has from the state of its domain and halves (10_latency Table 10.5). -/
def State.excludeState (s : State) (r : Req) : State :=
  let s := if s.flag (domStatusMaterialised r.dom) then s else s.exclude r.rid 5
  let slow := s.fld (curDvfs r.home) != 0 || s.fld (curDvfs r.ingress) != 0
  if r.isRead && slow then s.exclude r.rid 12 else s

/-- An older request to the line, or a request to the page that waits on its lock, stands before this one (R95, R110). -/
def State.stage5Before (s : State) (r : Req) : Bool :=
  (s.reqs.takeWhile (fun q => q.rid != r.rid || q.stage == .waitEntry)).any fun q =>
    q.hasDom && q.dom == r.dom
      && ((q.line / 64 == r.line / 64 && (q.stage == .lockWait || q.stage == .promoteWait || q.stage == .promoting))
        || (q.line == r.line && (q.stage == .metaWait || q.stage == .biWait || q.stage == .evictWait)))

/-- The access count of a page, or of a FRAME extent, takes one (07_tiering R185). -/
def State.access (s : State) (d p : Nat) : State :=
  if s.eff (domPolicyTclass d) = 0 then s
  else
    let x := s.ext d (p / 512)
    let s := s.savePage d p
    match x.kind with
    | .frame => s.setExt d (p / 512) { x with access := satAdd 8 x.access 1 }
    | .paged => let q := s.page d p; s.setPage d p { q with access := satAdd 8 q.access 1 }
    | _ => s

/-- The page is made NEAR by allocation: its ACCESS is at least COLD + 1 (07_tiering R186). -/
def State.warm (s : State) (d p : Nat) : State :=
  match (s.ext d (p / 512)).kind with
  | .paged => let q := s.page d p; s.setPage d p { q with access := max q.access (satAdd 8 (s.fld (tierDomColdThresh d)) 1) }
  | _ => s

/-- The mirror message of a write: its data, its bytes, or its poison (13_pairing R303). -/
def writeMsg (r : Req) (discarded : Bool) (peer : Nat) : MirMsg :=
  if discarded || r.poison then .linePoison peer r.line
  else if r.kind = .wrPtl then .lineWrPtl peer r.line r.enables r.data else .lineWr peer r.line r.data

/-- A write completes with its data discarded: its partner's line is poisoned too, or a message is refused (R89, R197;
13_pairing R303, R304). -/
def State.discardWrite (s : State) (rid cause : Nat) : State :=
  match s.req rid with
  | none => s
  | some r =>
    match r.org with
    | .mirror l sync _ => (s.peerRefuse l sync (s.eff (mirDomW0PeerDomain r.dom)) r.line cause).answer rid 0 false
    | _ =>
      let (s, await) := s.mirrorOut r.dom (r.line / 32768) r.cls r.color (writeMsg r true)
      if await.isSome then s.updReq rid fun r => { r with await, stage := .mirrorWait } else s.answer rid 0 false

/-- A chunk is in the chunk cache (06_shingle R179). -/
def State.chunkHit (s : State) (h : Half) (slot chunk : Nat) : Option (List Line) :=
  if !s.flag shgCfgChunkCacheEn then none
  else ((s.shg.get h).cache.find? (fun c => c.slot == slot && c.chunk == chunk)).map (·.lines)

/-- The page of a read at stage 5 (R88, R89; 06_shingle R179). A line that is listed as poisoned by itself reads poisoned
though its page is not NEAR (R127). -/
def State.readPage (s : State) (r : Req) (pg : Page) : State :=
  let h := r.home
  let rid := r.rid
  let early := fun (s : State) => s.noteQueue r r.domainWait
  match pg.state with
  | .zero => (early (s.pulse h bMap 0 5 (some r.dom))).answerRead rid 0 (s.listedLine r.dom r.line)
  | .lost | .retired => (early s).answerRead rid 0 true
  | .near =>
    let s := s.access r.dom (r.line / 64)
    if s.treeFenced r.dom r.line then (early s).answerRead rid 0 true
    else s.toChannel rid (pg.addr * 4 + r.line % 64)
  | .shingle =>
    let s := s.access r.dom (r.line / 64)
    if s.treeFenced r.dom r.line then (early s).answerRead rid 0 true
    else match s.chunkHit h pg.addr (r.line % 64 / 16) with
      | some ls =>
        let s := ((s.ccTouch h pg.addr (r.line % 64 / 16)).updReq rid fun r => { r with ccHit := true, stamps := { r.stamps with mapped := s.now } }).count (shgCcCntHit h.idx) 1
        (early (s.pulse h bShg 31 1 (some r.dom))).answerRead rid (nth 0 ls (r.line % 16)) (s.listedLine r.dom r.line)
      | none => ((s.count (shgCcCntMiss h.idx) 1).pulse h bShg 31 2 (some r.dom)).toChannel rid (pg.addr * 4)

/-- A write goes on to its line in a frame. -/
def State.toFrame (s : State) (r : Req) (unit : Nat) : State :=
  let c := chanOf r.home unit
  let s := s.updReq r.rid fun r => { r with ma := unit * 4 + r.line % 64, stamps := { r.stamps with mapped := s.now } }
  if s.serves c then s.moveReq r.rid .wbWait else s.failReq r.rid (s.fencedBy c)

/-- A write to a page under compression reaches stage 5 (06_shingle R182). -/
def State.touchComp (s : State) (h : Half) (d p : Nat) : State :=
  { s with shg := s.shg.upd h (fun (g : Shg) => { g with
    comps := g.comps.map (fun (j : CompJob) => if j.dom == d && j.page == p then { j with dirtied := true } else j) }) }

/-- The page of a write at stage 5: its frame, its promotion, new media, or its refusal (R89, R90, R106). -/
def State.writePage (s : State) (r : Req) (pg : Page) (pick : Nat) : State :=
  let rid := r.rid
  let p := r.line / 64
  let s := s.touchComp r.home r.dom p
  match pg.state with
  | .near =>
    let s := s.access r.dom p
    if s.treeFenced r.dom r.line then (s.fenceDiscard r.dom r.line).discardWrite rid 3 else s.toFrame r pg.addr
  | .shingle =>
    let s := s.access r.dom p
    if s.treeFenced r.dom r.line then (s.fenceDiscard r.dom r.line).discardWrite rid 3 else s.moveReq rid .promoteWait
  | _ =>
    let s := s.exclude rid 5
    if !s.lockFree r.home then (s.exclude rid 8).moveReq rid .lockWait
    else match s.media_ r.dom p pick (if r.kind = .wr then some (r.line % 64) else none) with
    | .refused s => s.discardWrite rid 2
    | .near s => let s := s.warm r.dom p; s.toFrame r (s.pageNow r.dom p).addr

/-- A write-back that goes ahead of the requests that wait for its host's answer stands before them in the line's order (R125). -/
def State.orderFirst (s : State) (r : Req) : State :=
  let waits := fun (q : Req) => q.hasDom && q.dom == r.dom && q.line == r.line
    && (q.stage == .biWait || q.stage == .evictWait || q.stage == .lockWait)
  let before := s.reqs.takeWhile (fun q => q.rid != r.rid || q.stage == .waitEntry)
  if before.any waits then
    let rest := s.reqs.filter (fun q => q.rid != r.rid || q.stage == .waitEntry)
    { s with reqs := rest.takeWhile (fun q => !waits q) ++ r :: rest.dropWhile (fun q => !waits q) }
  else s

/-- A request that was decoded before a commit that freed its page keeps the mapping of its generation (03_domains R98): a read finds
the page as it was; what a write would store can be read by nothing any more. -/
def State.mapOld (s : State) (r : Req) : State :=
  let pg := r.oldPage.getD {}
  let s := s.updReq r.rid fun r => { r with pstate := pg.state.code, stamps := { r.stamps with mapped := s.now } }
  if !r.isRead then s.answer r.rid 0 false
  else match pg.state with
    | .near => s.toChannel r.rid (pg.addr * 4 + r.line % 64)
    | .shingle => s.toChannel r.rid (pg.addr * 4)
    | .zero => s.answerRead r.rid 0 false
    | .lost | .retired => s.answerRead r.rid 0 true

/-- The map stage: `look` says which lookups are counted here, 2 both, 1 the page entry alone, 0 none. -/
def State.mapStage (s : State) (rid pick victim look : Nat) : State :=
  match s.req rid with
  | none => s
  | some r =>
    let h := r.home
    let d := r.dom
    let p := r.line / 64
    let host := match r.org with | .mirror _ _ _ => false | _ => true
    let s := if s.writesBack r then (s.orderFirst r).excludeState r else s.excludeState r
    if s.df then s.failReq rid uDevice
    else if s.fenced (uHalf h.idx) then s.failReq rid (uHalf h.idx)
    else if r.oldPage.isSome then s.mapOld r
    else if s.stage5Before r then s.moveReq rid .lockWait
    else if s.locked d p then (s.exclude rid 8).moveReq rid .lockWait
    else
      let hit := s.cached h (.desc d (p / 2048))
      let s := if look = 2 then s.pulse h bMap 0 (if hit then 0 else 1) (some d) else s
      if !hit then s.moveReq rid .metaWait
      else
        let paged := (s.ext d (p / 512)).kind == .paged
        let hit2 := !paged || s.cached h (.pte d (p / 8))
        let s := if paged && look ≥ 1 then s.pulse h bMap 0 (if hit2 then 2 else 3) (some d) else s
        if !hit2 then s.moveReq rid .metaWait
        else
          let (s, wait) := if s.effFlag (domCtrlCoherence d) then s.snoopStep r victim else (s, none)
          match wait with
          | some st => (s.exclude rid 7).moveReq rid st
          | none =>
            let pg := s.pageNow d p
            let s := s.updReq rid fun r => { r with pstate := pg.state.code, stamps := { r.stamps with mapped := s.now } }
            if r.kind = .inv ∨ r.kind = .clnEvct then s.answer rid 0 false
            else if r.isRead then
              (if host && !s.mirReads d then s.answerRead rid 0 true else s.readPage r pg)
            else match (if host then s.mirDrop d else none) with
              | some s => s.answer rid 0 false
              | none => s.writePage r pg pick

/-- Requests that wait at stage 5 behind what has just ended are looked up again, in order. -/
def State.wakeStage5 (s : State) (d p : Nat) : State :=
  let due := (s.reqs.filter (fun (r : Req) => r.hasDom && r.dom == d && r.line / 64 == p && r.stage == .lockWait)).map (·.rid)
  s.each due fun s rid => s.mapStage rid 0 0 0

/-! ### The write buffer (R106 to R108; 13_pairing R303) -/

/-- Reads of a line that stand before a write and have not taken their data yet. -/
def State.readsBefore (s : State) (r : Req) : List Nat :=
  ((s.reqs.takeWhile (fun q => q.rid != r.rid || q.stage == .waitEntry)).filter (·.readsLine r.dom r.line)).map (·.rid)

/-- An older write to the line has passed the map and has no entry yet (R110). -/
def State.writeBefore (s : State) (r : Req) : Bool := s.olderWrites r fun _ => true

/-- An older read of the line is still queued on its channel (09_qos R238). -/
def State.readBefore (s : State) (r : Req) : Bool :=
  (s.reqs.takeWhile (fun q => q.rid != r.rid || q.stage == .waitEntry)).any fun q =>
    q.isRead && q.hasDom && q.dom == r.dom && q.line == r.line && q.stage == .channel

/-- The newest buffered write of a line that a read is ordered after. -/
def State.bufferHit (s : State) (r : Req) : Option WbEntry :=
  ((s.chan (chanOf r.home (r.ma / 4))).wb.filter (fun w => w.dom == r.dom && w.line == r.line && w.slot.isNone && !w.after.contains r.rid)).getLast?

/-- A write takes its entry: it is complete, or waits for the partner (R106, 13_pairing R303). -/
def State.insertWrite (s : State) (rid : Nat) : State :=
  match s.req rid with
  | none => s
  | some r =>
    let c := chanOf r.home (r.ma / 4)
    if r.stage != .wbWait then s
    else if !s.serves c then s.failReq rid (s.fencedBy c)
    else if (s.mirHeld r.dom && !(match r.org with | .mirror _ _ _ => true | _ => false)) then s
    else if s.writeBefore r then (if s.olderWrites r (!·.green0) then s.exclude rid 9 else s)
    else if !s.wbRoom c r then s.moveReq rid .parked
    else
      let w : WbEntry := { ma := r.ma, dom := r.dom, line := r.line, data := r.data, enables := r.enables, poison := r.poison,
                           cls := r.cls, color := r.color, external := r.poison, after := s.readsBefore r, since := s.now }
      let s := s.buffer c w
      let s := s.noteQueue r (r.domainWait + (s.now - r.stamps.mapped))
      let s := s.updReq rid fun r => { r with stamps := { r.stamps with dram := s.now, issue := s.now } }
      let (s, await) := match r.org with
        | .mirror _ _ _ => (s, none)
        | _ => s.mirrorOut r.dom (r.line / 32768) r.cls r.color (writeMsg r false)
      if await.isSome then (s.exclude rid 13).updReq rid fun r => { r with await, stage := .mirrorWait }
      else s.answer rid 0 false

end Sys2Proof.Machine
end

