-- ==== Sys2Proof/Machine/Request.lean ====
section
/-! DEFINITION. The request path: the meanings of its commands (04_request R103 to R129; 10_latency R257, R258). Starting
channel sequences is in Channel.lean, and the return of DRAM reads in Dram.lean. -/

namespace Sys2Proof.Machine

/-! ### Arrival (stages 1 and 2) -/

/-- A fresh request from a host. -/
def State.hostReq (s : State) (p id : Nat) (tag : Nat) (kind : ReqKind) (want : Want) : Req :=
  { rid := 0, org := .host p id, tag, kind, want, data := 0, enables := 0, poison := false, hasDom := false, dom := 0, line := 0,
    home := portHalf p, cls := 7, color := 0, stage := .waitEntry, stamps := { arrive := s.now, tide := s.tns } }

/-- The state that a want operand asks for. -/
def wantOf (w : Nat) : Want := if w = 1 then .any else if w = 2 then .shared else .none

/-- A fabric host is heard over a G-FAM port (log 133). -/
def State.heard (s : State) (p id : Nat) : State := if s.gfam p then { s with spidPort := cellPut 0 s.spidPort id p } else s

/-- An answer at stage 2: the request takes an entry and completes with no later stage (Table 3.1, Table 4.5). -/
def State.answerEarly (s : State) (r : Req) : State :=
  s.admitReq { r with rpoison := r.isRead, answered := true }

/-- The response kind of a message (Table 4.5): for an HDM-DB line it says the state granted. -/
def State.respOf (s : State) (kind : ReqKind) (want : Want) (d : Option Nat) : RespKind :=
  let shared := match d with | some d => s.effFlag (domCtrlCoherence d) | none => false
  match kind with
  | .rd => if !shared then .memData else if want = .any then .memDataE else if want = .shared then .memDataS else .memDataI
  | .unsupData => .memData
  | .inv => if !shared then .cmp else if want = .any then .cmpE else if want = .shared then .cmpS else .cmp
  | _ => .cmp

/-! ### Credits of a port (R117, R128) -/

/-- The credits that a message takes: 0 those for requests, 1 those for requests with data. -/
def ReqKind.channel : ReqKind → Nat
  | .wr | .wrPtl => 1
  | _ => 0

/-- The host holds a credit for a message. -/
def State.hasCredit (s : State) (p ch : Nat) : Bool := decide (0 < nth 0 (s.port p).credits ch)

/-- Requests in the two waiting lists of a port. -/
def State.waiting (s : State) (p : Nat) : Nat := (s.reqs.filter (fun r => r.stage == .waitEntry && r.port == some p)).length

/-- A message has left the receive buffer: its credit is returned, or held back while the waiting lists hold 256 requests (R117). -/
def State.creditBack (s : State) (p ch : Nat) : State :=
  if s.waiting p < 256 then s
  else s.updPort p fun q => { q with
    credits := setAt q.credits ch (nth 0 q.credits ch - 1), withheld := setAt q.withheld ch (nth 0 q.withheld ch + 1) }

/-- A waiting request has taken an entry: the credits held back are returned, once the lists hold fewer than 256 (R117, log 135). -/
def State.creditsDue (s : State) (p : Nat) : State :=
  if s.waiting p < 256 then
    s.updPort p fun q => { q with credits := List.zipWith (· + ·) q.credits q.withheld, withheld := [0, 0, 0] }
  else s

/-- The credits that a host has returned to its port enter the port's count; one is taken where there is one (R117, R128). -/
def State.takeHostCredit (s : State) (p ch returned : Nat) : State × Bool :=
  let n := nth 0 (s.port p).hostCredits ch + returned
  (s.updPort p fun q => { q with hostCredits := setAt q.hostCredits ch (n - 1) }, decide (0 < n))

/-! ### Requests that arrive -/

/-- A request that was decoded passes the policer and takes an entry; one that a parity error or a fence fails is answered (R104,
R115, R121). -/
def State.enterPath (s : State) (p id : Nat) (r : Req) (failed : Option Nat) (replayed : Bool) : State :=
  let d := r.dom
  let (s, r) := s.mark (portHalf p) r (s.preColour p id)
  let r := if replayed then r.exclude 1 else r
  let why := match failed with
    | some u => some u
    | none => if s.df then some uDevice else if s.fenced (uHalf r.home.idx) then some (uHalf r.home.idx) else none
  match why with
  | none => (s.admitReq r).domTally d
  | some u =>
    let s := s.itemFailed u d r.line
    let s := if r.isWrite then s.poisonAt d r.line else s
    (s.answerEarly (r.exclude 11)).domTally d

/-- A message of a host that accesses memory: decoded, policed, and given an entry (R104, R106, R115). A poisoned write counts
as soon as it is taken, before its address is decoded (R123, log 137). -/
def State.arrive (s : State) (p id hpa : Nat) (r : Req) (stage parity : Nat) : State :=
  let h := portHalf p
  if !s.portUp p ∨ s.fenced (uHalf h.idx) ∨ !s.hasCredit p r.kind.channel then s
  else if s.gfam p && !s.knownSpid p id then s.count (hpErrCntUnknownSpid p) 1
  else
    let s := s.heard p id
    let ev := if r.isRead then 0 else 1
    let s := if r.poison then s.count rqErrCntPoisonIn 1 else s
    let found := s.decodeHpa p id hpa
    let r := match found with
      | .ok d line dpa => { r with hasDom := true, dom := d, line, dpa, home := s.home d, gen := s.fld (domStatusGen d) }
      | .noDomain dpa | .notOwner dpa => { r with dpa }
      | .undecoded => r
    let r := { r with resp := s.respOf r.kind r.want (if r.hasDom then some r.dom else none) }
    let u := if [1, 2, 3].contains stage then r.stageUnit stage else none
    let (s, bad) := match u with | some u => s.parity h u stage parity none none | none => (s, false)
    let again := u.isSome && decide (parity ≠ 0)
    let r := { r with replayed := again, mute := !s.portUp p }
    let s := match found with
      | .undecoded => s.count (hpErrCntUndecoded p) 1
      | .noDomain _ => ((s.pulse h bHp (p % 8) ev none).count mapErrCntNoDomain 1).answerEarly r
      | .notOwner _ => ((s.pulse h bHp (p % 8) ev none).count mapErrCntNotOwner 1).answerEarly r
      | .ok d _ _ => (s.pulse h bHp (p % 8) ev (some d)).enterPath p id r (if bad then u else none) again
    s.creditBack p r.kind.channel

def execMemRd (p : Fin 16) (id : Fin 4096) (hpa : Nat) (tag : BitVec 16) (want : Fin 3) (stage : Fin 11) (parity : Fin 5)
    (s : State) : Result :=
  .next (s.arrive p id hpa (s.hostReq p id tag.toNat .rd (wantOf want)) stage parity)

def execMemInv (p : Fin 16) (id : Fin 4096) (hpa : Nat) (tag : BitVec 16) (want : Fin 3) (s : State) : Result :=
  .next (s.arrive p id hpa (s.hostReq p id tag.toNat .inv (wantOf want)) 0 0)

def execMemClnEvct (p : Fin 16) (id : Fin 4096) (hpa : Nat) (tag : BitVec 16) (s : State) : Result :=
  .next (s.arrive p id hpa (s.hostReq p id tag.toNat .clnEvct .none) 0 0)

/-- A MemSpecRd has no effect (Table 4.5). -/
def execMemSpecRd (_p : Fin 16) (_id : Fin 4096) (_hpa : Nat) (_tag : BitVec 16) (s : State) : Result := .next s

/-- What a write's want operand asks for: 1 leaves the line invalid at the writer. -/
def wantAfter (w : Nat) : Want := if w = 1 then .invalid else .none

def execMemWr (p : Fin 16) (id : Fin 4096) (hpa : Nat) (tag : BitVec 16) (want : Fin 3) (data : Line) (poison : Bool)
    (stage : Fin 11) (parity : Fin 5) (s : State) : Result :=
  let r := s.hostReq p id tag.toNat .wr (wantAfter want)
  .next (s.arrive p id hpa { r with data, enables := allBytes, poison } stage parity)

def execMemWrPtl (p : Fin 16) (id : Fin 4096) (hpa : Nat) (tag : BitVec 16) (want : Fin 3) (data : Line) (enables : BitVec 64)
    (poison : Bool) (stage : Fin 11) (parity : Fin 5) (s : State) : Result :=
  let r := s.hostReq p id tag.toNat .wrPtl (wantAfter want)
  .next (s.arrive p id hpa { r with data, enables, poison } stage parity)

/-- Any other message: an entry, and an answer at stage 2 (Table 4.5); from a source identity not in the routing it is dropped and
counted (02_host_ports R55). -/
def State.unsupportedMsg (s : State) (p id tag : Nat) (expectsData : Bool) : State :=
  if !s.portUp p ∨ !s.hasCredit p 0 then s
  else if s.gfam p && !s.knownSpid p id then s.count (hpErrCntUnknownSpid p) 1
  else
    let s := s.heard p id
    let kind := if expectsData then .unsupData else .unsupCmp
    let s := s.count rqErrCntUnsupOpcode 1
    (s.answerEarly { s.hostReq p id tag kind .none with resp := s.respOf kind .none none }).creditBack p 0

def execUnsupportedMessage (p : Fin 16) (id : Fin 4096) (tag : BitVec 16) (expectsData : Bool) (s : State) : Result :=
  .next (s.unsupportedMsg p id tag.toNat expectsData)

/-! ### Entries (R115) -/

/-- The first request of a waiting list that can take an entry takes it. -/
def State.grantEntry (s : State) (h : Half) : State :=
  let heads := s.reqs.filter fun r => r.stage == .waitEntry && r.ingress == h
    && ((s.reqs.find? (fun q => q.stage == .waitEntry && q.port == r.port && q.ingress == h && s.reqQc0 q == s.reqQc0 r)) == some r)
  match heads.find? (fun r => (s.poolFor r).isSome) with
  | none => s
  | some r =>
    match s.poolFor r with
    | none => s
    | some pool =>
      let s : State := { s with reqs := s.reqs.erase r }
      let s := s.enterReq r pool r.first
      let s := if r.hasDom then s.domTally r.dom else s
      match r.port with | some p => s.creditsDue p | none => s

def execRequestEntryGrant (h : Half) (s : State) : Result := .next (s.grantEntry h)

/-! ### Domain queues (R233, R235) -/

/-- The head of a domain's queue leaves and passes the map stage. The parity operand stands for an error of stage 4 or 5 before
the map, or of stage 6 or the write buffer where the request has come to it. -/
def State.releaseQueue (s : State) (d pick victim stage parity : Nat) : State :=
  match s.reqs.find? (fun r => r.hasDom && r.dom == d && r.stage == .queued) with
  | none => s
  | some r =>
    match s.shape d with
    | none => s
    | some s =>
      let s := (s.updReq r.rid fun r => { r with stamps := { r.stamps with release := s.now } })
      let (s, bad) := s.stageParity r.rid stage parity [4, 5]
      let s := if bad then s else s.mapStage r.rid pick victim 2
      let at_ : Option Stage := (s.req r.rid).map (·.stage)
      let s := if at_ = some .channel then (s.stageParity r.rid stage parity [6]).1
        else if at_ = some .wbWait then (s.stageParity r.rid stage parity [0]).1 else s
      s.domTally d

def execDomainQueueRelease (d : Fin 1024) (pick : Nat) (victim : Nat) (stage : Fin 11) (parity : Fin 5) (s : State) : Result :=
  .next (s.releaseQueue d pick victim stage parity)

/-- A metadata line that a request waits for arrives; the lookups go on (R93, R97). -/
def State.metaFill (s : State) (rid : Nat) (errs : List Burst) (victim : Nat) : State :=
  match s.req rid with
  | none => s
  | some r =>
    if r.stage != .metaWait then s
    else
      let h := r.home
      let p := r.line / 64
      let kd : McKey := .desc r.dom (p / 2048)
      let kp : McKey := .pte r.dom (p / 8)
      let again := fun (s : State) (look : Nat) => (s.setStage rid .queued).mapStage rid 0 0 look
      if !s.cached h kd then
        let (ok, _, s) := s.readMeta h kd errs
        if ok then again (s.mcFill h kd victim) 1
        else if r.isWrite then again (s.mcFill h kd victim) 1 else (s.mcFill h kd victim).answerRead rid 0 true
      else if (s.ext r.dom (p / 512)).kind == .paged && !s.cached h kp then
        let (ok, _, s) := s.readMeta h kp errs
        if ok then again (s.mcFill h kp victim) 0
        else if r.isWrite then again (s.mcFill h kp victim) 0 else (s.mcFill h kp victim).answerRead rid 0 true
      else again s 0

def execMetadataFill (rid : Fin 65536) (errs : List Burst) (victim : Nat) (s : State) : Result := .next (s.metaFill rid errs victim)

/-- A request that waited at stage 5 proceeds where nothing holds it any longer (R95). -/
def State.lockGrant (s : State) (rid pick : Nat) : State :=
  match s.req rid with
  | some r => if r.stage = .lockWait then s.mapStage rid pick 0 0 else s
  | none => s

def execPageLockGrant (rid : Fin 65536) (pick : Nat) (s : State) : Result := .next (s.lockGrant rid pick)

def execWriteBufferInsert (rid : Fin 65536) (s : State) : Result := .next (s.insertWrite rid)

/-- The first parked request of a channel re-enters its queue when an entry is free (R235). -/
def State.reenter (s : State) (c : Nat) : State :=
  match s.reqs.find? (fun r => r.stage == .parked && r.home == chanHalf c && chanOf r.home (r.ma / 4) == c
      && (if r.isRead then s.readRoom c r else s.wbRoom c r)) with
  | none => s
  | some r =>
    if !s.serves c then s.failReq r.rid (s.fencedBy c)
    else if r.isRead then s.moveReq r.rid .channel
    else (s.moveReq r.rid .wbWait).insertWrite r.rid

def execParkReentry (c : Fin 24) (s : State) : Result := .next (s.reenter c)

/-! ### Back-invalidation (R125 to R128) -/

/-- A line's wait is over: those who waited for it are looked up again, and those who waited for the eviction buffer are due. -/
def State.endBi (s : State) (h : Half) (d line : Nat) : State := ((s.wakeLine d line).wakeEvict h).wakeStage5 d (line / 64)

/-- A host answers for one line; its address is decoded as any other (R125). -/
def State.biLine (s : State) (p id hpa : Nat) (keeps : Bool) : State :=
  match s.decodeHpa p id hpa with
  | .ok d line _ =>
    let (s, ended) := s.biAnswer d line (s.hostNum p id) keeps
    if ended then s.endBi (s.home d) d line else s
  | _ => s

/-- Lines of a 256-byte block that a block form answers for, by bits [7:6] of its address (CXL 3.2; log 139). -/
def blockLines (hpa : Nat) : List Nat := nth [] [[], [0, 1], [2, 3], [0, 1, 2, 3]] (hpa / 64 % 4)

/-- A host answers (R125). `keeps`: 0 BIRspI, 1 BIRspS, 2 BIRspE, 3 to 5 their block forms (Table 4.5). The message's credit
is returned at once (R117). -/
def State.biRsp (s : State) (p id hpa keeps : Nat) : State :=
  if !s.portUp p then s
  else if keeps < 3 then s.biLine p id hpa (keeps != 0)
  else s.each (blockLines hpa) fun s i => s.biLine p id (hpa / 256 * 256 + 64 * i) (keeps != 3)

def execBiRsp (p : Fin 16) (id : Fin 4096) (hpa : Nat) (keeps : Fin 6) (s : State) : Result := .next (s.biRsp p id hpa keeps)

/-- A back-invalidation message leaves against a credit of its host (R128). -/
def State.sendBi (s : State) (h : Half) (d line host returned : Nat) : State :=
  match s.sfEntry d line with
  | some e =>
    if e.half == h && e.unsent.contains host then
      let (s, ok) := s.takeHostCredit (s.hostPort host) 2 returned
      if !ok then s
      else
        let s := s.updSf d line fun e => { e with unsent := e.unsent.filter (· != host) }
        (s.emit (.biSnp host d line e.biData)).pulse h bRq 0 4 (some d)
    else s
  | none => s

def execBisnpSend (h : Half) (d : Fin 1024) (line : Nat) (host : BiTarget) (s : State) : Result :=
  .next (s.sendBi h d line host.host host.credits)

/-- The port and the identity that a host number names, in RQ_BI_TIMEOUT's DETAIL. -/
def State.biDetail (s : State) (host : Nat) : Nat × Nat :=
  if host < 256 then (host / 16, host / 16 + host % 16 * 16)
  else
    let p := s.hostPort host
    (p, p + (host - 256) * 2 ^ 8 + 2 ^ 20)

/-- A back-invalidation times out (R127). -/
def State.biTimeout (s : State) (h : Half) (d line host : Nat) : State :=
  match s.sfEntry d line with
  | some e =>
    if !(e.half == h && e.await.contains host) then s
    else
      let (p, detail) := s.biDetail host
      let s := (s.count rqErrCntBiTimeout 1).note { code := cRqBiTimeout, cls := clsUcr, unit := uPort p, dom := some d,
                                                    addr := some (s.dpaOf d line, 1), detail }
      let s := if e.owned then s.poisonAt d line else s
      let (s, ended) := s.biAnswer d line host false
      if ended then s.endBi h d line else s
  | none => s

def execRqBiTimeout (h : Half) (d : Fin 1024) (line : Nat) (host : Nat) (s : State) : Result := .next (s.biTimeout h d line host)

/-! ### Responses (R117, R129; 10_latency R258) -/

/-- A level of DevLoad by its three thresholds (R129). -/
def loadLevel (v opt mod_ sev : Nat) : Nat := if sev ≤ v then 3 else if mod_ ≤ v then 2 else if opt ≤ v then 1 else 0

/-- DevLoad of a response (R129). A request that decoded to no domain has no class and no home half: its delay level is that of
class 7 in its receiving half (log 137). -/
def State.devLoad (s : State) (r : Req) : Nat :=
  let i := (ridHalf r.rid).idx
  let occ := s.fld (rqStatusTableInuse i) * 100 / max 1 (s.fld (rqStatusTableLimit i))
  let mine := (s.queueTimes.get r.home).filter (fun q => q.2.1 == r.cls && decide (s.now ≤ q.1 + 1000))
  let mean := if mine.isEmpty then 0 else (mine.map (·.2.2)).foldl (· + ·) 0 / mine.length
  max (loadLevel occ (s.fld rqDevloadCfgOccOpt) (s.fld rqDevloadCfgOccMod) (s.fld rqDevloadCfgOccSev))
    (loadLevel mean (s.fld rqDevloadCfgDlyOpt) (s.fld rqDevloadCfgDlyMod) (s.fld rqDevloadCfgDlySev))

/-- The class-0 monitor of the receiving half (R258): with the record of a violation go its stage times, as words 3 to 6 of a
sample record hold them (log 154). -/
def State.monitor (s : State) (r : Req) : State :=
  let i := r.ingress.idx
  let lat := s.now - r.stamps.arrive
  if !(r.green0 && (r.isRead || r.isWrite)) then s
  else if r.excl ≠ 0 then s.count (if r.isRead then qosG0RdExcluded i else qosG0WrExcluded i) 1
  else
    let s := s.count (if r.isRead then qosG0RdConforming i else qosG0WrConforming i) 1
    let f := if r.isRead then qosG0MaxRdMaxNs i else qosG0MaxWrMaxNs i
    let s := s.setFld f (min (2 ^ f.width - 1) (max (s.fld f) lat))
    if lat > (if r.isRead then 520 else 400) then
      (s.count (if r.isRead then qosG0MaxRdOver i else qosG0MaxWrOver i) 1).note
        { code := cQosG0Violation, cls := clsCe, unit := uHalf i, dom := some r.dom, req := some r.rid }
      |>.toFm "QOS_G0_VIOLATION" ([r.rid, r.dom] ++ ((s.sampleWords r 0 0).drop 3).take 4)
    else s

/-- What the counters of the device and of the LD take from a response (Tables 18.1, 18.2, 18.6). -/
def State.countResponse (s : State) (r : Req) (load : Nat) : State :=
  let h := r.ingress
  let lat := s.now - r.stamps.arrive
  let s := if r.isRead then s.fixed h 2 1 else if r.isWrite then s.fixed h 3 1 else s
  let s := if r.rpoison then (s.fixed h 4 1).pulse h bRq 0 3 (if r.hasDom then some r.dom else none) else s
  match r.org with
  | .host p id =>
    if s.gfam p then s
    else
      let fn := fnOf p id
      let s := if r.isRead then (s.userCount fn 0 1).userCount fn 2 lat else if r.isWrite then (s.userCount fn 1 1).userCount fn 3 lat else s
      let s := if r.isRead && r.rpoison then s.userCount fn 4 1 else s
      if load ≥ 2 then s.userCount fn 7 1 else s
  | _ => s

/-- The credits that a response takes: 0 those for data, 1 those for completions. -/
def Req.respChannel (r : Req) : Nat := if r.isRead then 0 else 1

/-- A response leaves against a credit of its host, and its entry is released; without one it waits. A port that lost its link
sends nothing (R114, R117; 02_host_ports R67). -/
def State.respond (s : State) (rid returned : Nat) : State :=
  match s.req rid with
  | none => s
  | some r =>
    if r.stage != .respond then s
    else match r.org with
    | .host p id =>
      if r.mute then s.dropReq rid
      else
        let (s, ok) := s.takeHostCredit p r.respChannel returned
        if !ok then s
        else
          let load := s.devLoad r
          let s := s.emit (.response p id r.tag r.resp (if r.rpoison then 0 else r.rdata) r.rpoison load)
          (((s.countResponse r load).monitor r).sampleDone r load).dropReq rid
    | _ => s.dropReq rid

def execResponseSend (rid : ReadyResponse) (s : State) : Result := .next (s.respond rid.rid rid.credits)

end Sys2Proof.Machine
end

