-- ==== Sys2Proof/Machine/Channel.lean ====
section
/-! DEFINITION. The channel scheduler: sweeps, write-backs, class 0, maintenance work and the round robin of QC1 to QC7
(05_dram R140, R144 to R148; 09_qos R236 to R238, R244). -/

namespace Sys2Proof.Machine

/-! ### Refresh -/

/-- A command of a channel is confirmed: a replay after a parity error has succeeded (R142; log 58). -/
def State.caConfirm (s : State) (c : Nat) : State :=
  if (s.chan c).caTries = 0 then s
  else (s.updChan c fun ch => { ch with caTries := 0 }).say cDmcCaParity clsCe (uChannel c)

/-- A refresh sweep starts: the debt falls by one (R145). -/
def State.sweepNow (s : State) (c : Nat) : State :=
  let s := (s.caConfirm c).updChan c fun ch => { ch with debt := ch.debt - 1 }
  (s.setFld (dmcRefStatusDebt c) (s.chan c).debt).pulse (chanHalf c) bDmc (c % 12) 3 none

/-- A sweep is due and allowed (R144, R145). -/
def State.sweepDue (s : State) (c : Nat) : Bool := decide ((s.chan c).debt ≥ 1) && s.mcFits c (s.sweep10 c)

/-! ### Corrected write-backs (R140) -/

/-- The first write-back owed by a channel is written. Writes of the line that came since the read have dropped it (R140). -/
def State.writeBack (s : State) (c : Nat) : State :=
  match (s.chan c).backs with
  | [] => s
  | w :: rest =>
    let h := chanHalf c
    let s := (s.caConfirm c).updChan c fun ch => { ch with backs := rest }
    (s.countWrite h w.ma).putBurst h w.ma w.burst

/-- Maintenance work other than a sweep may start: no debt, and it fits (R148). -/
def State.maintFits (s : State) (c occ : Nat) : Bool := decide ((s.chan c).debt = 0) && s.mcFits c occ

/-! ### The order of maintenance work (R148; 07_tiering R192) -/

/-- Occupancy of a comber step, 0.1 ns (Table 5.7). -/
def occComb10 (i : Nat) : Nat := nth 1200 [1600, 1500, 1400, 1320, 1260, 1200] i

/-- The lines of a row that are to be held in the write buffer, and the room for them (R151). -/
def State.softRoom (s : State) (c n : Nat) : Bool := decide ((s.chan c).wb.length + n ≤ 512 - s.fld rqCfgQc0WbReserve)

/-- A repair step may start after write-backs (R148): the sequence needs its window, the others that of a read. -/
def State.repairMay (s : State) (c : Nat) : Bool :=
  (s.chan c).backs.isEmpty
    && s.maintFits c (match (s.chan c).soft with | some r => if r.phase = 0 then 18000 else occRead10 (s.chanRate c)
                                                  | none => occRead10 (s.chanRate c))

/-- A repair step is due on a channel and may start. -/
def State.repairDue (s : State) (c : Nat) : Bool :=
  (match (s.chan c).soft with | some _ => true | none => !(s.chan c).softWait.isEmpty && s.softRoom c 128) && s.repairMay c

/-- Steps of a lap of a channel's comber. -/
def State.combSteps (s : State) (c : Nat) : Nat := s.chanCap c / 4

/-- When a step of the lap is due, ns: PERIOD is spread evenly from the step at which it took effect (R149). -/
def State.combTime (s : State) (c pos : Nat) : Nat :=
  let ch := s.chan c
  ch.combBase + (pos - ch.combFrom) * (ch.combPeriod * 1000000000) / max 1 (s.combSteps c)

/-- BEHIND follows the lag of the schedule (R149). -/
def State.combLag (s : State) (c : Nat) : State :=
  let lag := s.now - s.combTime c (s.fld (dmcCombStatusPosition c))
  s.setFlag (dmcCombStatusBehind c)
    (s.flag (dmcCombCfgEnable c) && decide (0 < s.combSteps c) && decide (lag > (s.chan c).combPeriod * 10000000))

/-- A comber step may start after write-backs and repair (R148); an entry into DEEP_SLEEP stops it (16_power R359). -/
def State.combMay (s : State) (c : Nat) : Bool :=
  s.flag (dmcCombCfgEnable c) && s.fld pwrStatusDeviceState == 0 && decide (0 < s.combSteps c) && (s.chan c).backs.isEmpty && !s.repairDue c
    && s.maintFits c (occComb10 (s.chanRate c))

/-- A comber step is overdue and may start. -/
def State.combDue (s : State) (c : Nat) : Bool :=
  s.combMay c && decide (s.combTime c (s.fld (dmcCombStatusPosition c)) < s.now)

/-- A write to the page has passed stage 5 and has not reached DRAM: it waits for its write-buffer entry, or stands in the buffer. -/
def State.writesPast (s : State) (d p : Nat) : Bool :=
  (s.reqs.any fun r => r.hasDom && r.dom == d && r.line / 64 == p && r.isWrite && (r.stage == .wbWait || r.stage == .parked))
    || s.channels.any (fun ch => ch.wb.any (fun w => w.dom == d && w.line / 64 == p && w.slot.isNone))

/-- A page of the page mover's lists lies on a channel, and nothing holds it. -/
def State.listedOn (s : State) (h : Half) (c : Nat) (q : Nat × Nat) : Bool :=
  !s.locked q.1 q.2 && chanOf h (s.pageNow q.1 q.2).addr == c

/-- A retirement on a channel goes on: a block of the range waits for nothing (05_dram R153). -/
def State.retireDue (s : State) (h : Half) (c : Nat) : Bool :=
  match (s.chan c).retiring with
  | [] => false
  | r :: _ =>
    let start := c % 12 * chanUnits + r * rangeUnits
    (s.media.filter fun b => b.half == h && overlaps b.base b.len start rangeUnits).all fun b => match b.owner with
      | .draining _ | .orphan => false
      | .frame d p => !s.locked d p && !s.writesPast d p
      | .shgBlock _ => false
      | _ => true

/-- A committed extent of a QC0 domain, or one that holds SHINGLE pages, is not a FRAME yet (03_domains R92; 07_tiering R191). -/
def State.unmade (s : State) (d e : Nat) : Bool :=
  s.domOn d && s.eff (domPolicyTclass d) == 0 && (s.ext d e).kind != .frame && !(s.ext d e).moving
    && (decide (e < s.eff (domSizesCommitted d))
      || ((s.ext d e).kind == .paged && (List.range 512).any (fun i => (s.page d (e * 512 + i)).state == .shingle)))

/-- Some extent of the half waits for its frame, and media for it is free. -/
def State.madeDue (s : State) (h : Half) : Bool :=
  decide (s.freeUnits h ≥ extUnits) && (s.homed h).any fun d => s.eff (domPolicyTclass d) == 0
    && !s.flag (domStatusMaterialised d)
    && ((List.range (s.eff (domSizesCommitted d))).any (s.unmade d) || (s.extsOf d).any (fun x => s.unmade d x.1))

/-- Page-mover work of a channel that stands before item `k` of R192's order, and could go on. -/
def State.moverFirst (s : State) (h : Half) (c k : Nat) : Bool :=
  let m := s.mover.get h
  let low := decide (s.fld (tierStatusLevel h.idx) ≥ 1)
  (decide (k > 1) && (s.walks.any (fun w => chanHalf w.channel == h) || s.retireDue h c))
    || (decide (k > 2) && m.errPromotes.any (s.listedOn h c))
    || (decide (k > 3) && s.madeDue h)
    || (decide (k > 4) && low && m.offers.any (s.listedOn h c))
    || (decide (k > 5) && m.promotes.any (s.listedOn h c))
    || (decide (k > 6) && !low && m.offers.any (s.listedOn h c))
    || (decide (k > 7) && (!(s.shg.get h).orphans.isEmpty || s.media.any (fun b => b.half == h && b.owner == MediaOwner.orphan)))

/-- A page of a resync is still to be sent from a channel (13_pairing R314; log 146). -/
def State.resyncDue (s : State) (h : Half) (c : Nat) : Bool :=
  (s.mirror.get h).resyncs.any fun r => match r.todo with
    | e :: _ => s.listedOn h c (r.dom, e * 512 + r.next)
    | [] => false

/-- The work of item 5 of R148 may start on a channel: nothing before it is due there, and no entry into
DEEP_SLEEP has stopped it (16_power R359). -/
def State.moveMay (s : State) (c : Nat) : Bool :=
  s.fld pwrStatusDeviceState == 0 && (s.chan c).backs.isEmpty && !s.repairDue c && !s.combDue c && s.maintFits c (occWrite10 (s.chanRate c))

/-- The page mover may work on item `k` of R192's order on a channel: it is its turn beside mirror resync (R148). -/
def State.moverMay (s : State) (h : Half) (c k : Nat) : Bool :=
  s.moveMay c && !s.moverFirst h c k && !((s.chan c).turn == 1 && s.resyncDue h c)

/-- The turn on a channel has been used. -/
def State.took (s : State) (c who : Nat) : State := s.updChan c fun ch => { ch with turn := who }

/-! ### Operations that wait on a channel -/

/-- A line operation that waits on a channel. -/
inductive ChanOp where
  | read (r : Req)
  | write (w : WbEntry)
  deriving DecidableEq, Repr

/-- Its worst-case occupancy, 0.1 ns (Table 5.7). -/
def ChanOp.occ (rate : Nat) : ChanOp → Nat
  | .read _ => occRead10 rate
  | .write w => if w.enables = allBytes then occWrite10 rate else occMerge10 rate

/-- A read waits for an older read of its line that is still queued, or for an older write that is not in the buffer yet or that
a merge completes (R108, R238). -/
def State.readBlocked (s : State) (r : Req) : Bool := s.writeBefore r || s.readBefore r || (s.bufferHit r).isSome

/-- A buffered write waits: for an older operation of its line (R238), for its counter block (08_protection R214), or for its
page's rollover (R206). -/
def State.writeBlocked (s : State) (c : Nat) (w : WbEntry) : Bool :=
  s.reqs.any (fun (r : Req) => w.after.contains r.rid && r.readsLine w.dom w.line)
    || ((s.chan c).wb.takeWhile (· != w)).any (fun x => x.ma == w.ma)
    || (w.slot.isNone && (!s.ctrReady w.dom w.line || (s.atRollover w.dom w.line && !s.treeFenced w.dom w.line)))

/-- The operations of a class and colour, reads before writes but while the buffer drains first (R238). -/
def State.subQueue (s : State) (c k color : Nat) : List ChanOp :=
  let rs := ((s.readQueue c).filter (fun r => r.cls == k && r.color == color)).map ChanOp.read
  let ws := (((s.chan c).wb).filter (fun w => w.cls == k && w.color == color)).map ChanOp.write
  if (s.chan c).drainFirst then ws ++ rs else rs ++ ws

/-- The operations of a class: green, yellow, red (R237). -/
def State.classOps (s : State) (c k : Nat) : List ChanOp := s.subQueue c k 0 ++ s.subQueue c k 1 ++ s.subQueue c k 2

/-- An operation waits behind another of its line, or for the protection block. -/
def State.opBlocked (s : State) (c : Nat) : ChanOp → Bool
  | .read r => s.readBlocked r
  | .write w => s.writeBlocked c w

/-- An operation of class `k` may start now (R236, R238, R243). -/
def State.opEligible (s : State) (c k : Nat) (o : ChanOp) : Bool :=
  !s.opBlocked c o && s.serves c && !s.selfRefresh && s.gateOpen c k && s.fits c k (o.occ (s.chanRate c))

/-! ### What an operation does when it starts -/

/-- A read's sequence starts (stage 7): its queue time counts (04_request R129). -/
def State.startRead (s : State) (r : Req) : State :=
  let s := s.noteQueue r (r.domainWait + (s.now - r.stamps.mapped))
  (s.updReq r.rid fun r => { r with stage := .dram, stamps := { r.stamps with issue := s.now } }).domTally r.dom

/-- A buffered write drains: the buffer's preference for writes ends at 384 entries (R238). -/
def State.startWrite (s : State) (c : Nat) (w : WbEntry) (errs : List Burst) : State :=
  (s.drainEntry (chanHalf c) w errs).updChan c fun ch => { ch with drainFirst := ch.drainFirst && decide (ch.wb.length > 384) }

/-- An operation starts. -/
def State.startOp (s : State) (c : Nat) (errs : List Burst) : ChanOp → State
  | .read r => s.startRead r
  | .write w => s.startWrite c w errs

/-! ### Buffer hits and oversize operations -/

/-- Reads that a whole buffered write answers complete from the buffer (R107; Table 4.3). -/
def State.bufferReads (s : State) (c : Nat) : State :=
  s.each (s.readQueue c) fun s r =>
    match s.bufferHit r with
    | some w =>
      if w.enables = allBytes ∧ !s.writeBefore r then
        let s := s.noteQueue r (r.domainWait + (s.now - r.stamps.mapped))
        (s.updReq r.rid fun r => { r with stamps := { r.stamps with issue := s.now, dram := s.now } }).answerRead r.rid w.data w.poison
      else s
    | none => s

/-- An oversize operation is recorded and completes: a read is poisoned; a write becomes a maintenance write of the poison
mark (R244). -/
def State.oversizeOp (s : State) (c : Nat) (o : ChanOp) : State :=
  let d := match o with | .read r => r.dom | .write w => w.dom
  let s := (s.count (ttOversizeCntCount c) 1).setFlag (ttEvtOversize c) true
  let s := s.note { code := cTtOversize, cls := clsUcr, unit := uChannel c, dom := some d }
  match o with
  | .read r => s.answerRead r.rid 0 true
  | .write w =>
    let (f, s) := s.freeLine
    let w' : WbEntry := { w with data := mergeLine w.enables w.data f, enables := allBytes, poison := true, cls := 8 }
    s.updChan c fun ch => { ch with wb := mapFirst (· == w) (fun _ => w') ch.wb }

/-- The operations of a channel that are oversize, and would start but for that, are completed (R244). -/
def State.clearOversize (s : State) (c : Nat) : State :=
  s.each ((List.range 8).flatMap fun k => ((s.classOps c k).filter (fun o => s.oversize c k (o.occ (s.chanRate c)))).map (k, ·))
    fun s ko => if s.opBlocked c ko.2 then s else s.oversizeOp c ko.2

/-! ### The order of R236 -/

/-- A green operation of QC0, and not one that was demoted. -/
def State.green0Op (s : State) (c : Nat) : Option ChanOp := (s.subQueue c 0 0).find? (s.opEligible c 0)

/-- A maintenance write of the buffer that may start (R244). -/
def State.maintWrite (s : State) (c : Nat) : Option WbEntry :=
  ((s.chan c).wb).find? fun w => w.cls == 8 && !s.writeBlocked c w && s.maintFits c (occWrite10 (s.chanRate c))

/-- The quantum of a class, bytes (R237). -/
def State.quantum (s : State) (k : Nat) : Nat :=
  64 * s.eff (nth qosDrrQ1 [qosDrrQ1, qosDrrQ2, qosDrrQ3, qosDrrQ4, qosDrrQ5, qosDrrQ6, qosDrrQ7] (k - 1))

/-- The round moves to the next class, whose deficit grows by its quantum (R237). -/
def State.nextClass (s : State) (i : Nat) : State :=
  let rr := ((s.sched i).rr + 1) % 7
  s.updSched i fun t => { t with rr, deficit := t.deficit.modify rr (· + s.quantum (rr + 1)) }

/-- The deficit of the class that the round stands at is set. -/
def State.setDeficit (s : State) (i v : Nat) : State := s.updSched i fun t => { t with deficit := t.deficit.modify t.rr (fun _ => v) }

/-- The round robin of QC1 to QC7 (R237): the operation that starts, where one does. `ops` gives the operations of a class and
`ok` the eligible ones; `fuel` bounds the classes passed. -/
def State.drr {α : Type} (i : Nat) (ops : State → Nat → List α) (ok : State → Nat → α → Bool) : Nat → State → State × Option α
  | 0, s => (s, none)
  | n + 1, s =>
    let k := (s.sched i).rr + 1
    let xs := ops s k
    let d := nth 0 (s.sched i).deficit (k - 1)
    if xs.isEmpty then State.drr i ops ok n ((s.setDeficit i 0).nextClass i)
    else match xs.find? (ok s k) with
      | none => State.drr i ops ok n ((s.setDeficit i (min d (s.quantum k))).nextClass i)
      | some o => if d ≥ 64 then (s.setDeficit i (d - 64), some o) else State.drr i ops ok n (s.nextClass i)

/-- Turns of the round that can pass before an operation starts. -/
def drrTurns : Nat := 15

/-- The channel scheduler starts at most one sequence (R236). -/
def State.sequence (s : State) (c : Nat) (errs : List Burst) : State :=
  let s := ((s.caConfirm c).bufferReads c).clearOversize c
  if s.sweepDue c then s.sweepNow c
  else match s.green0Op c with
    | some o => s.startOp c errs o
    | none =>
      if !(s.chan c).backs.isEmpty && s.maintFits c (occWrite10 (s.chanRate c)) then s.writeBack c
      else match s.maintWrite c with
        | some w => s.startWrite c w errs
        | none =>
          if (List.range 7).all (fun k => (s.classOps c (k + 1)).isEmpty) then s
          else
            let (s, o) := State.drr c (fun s k => s.classOps c k) (fun s k o => s.opEligible c k o) drrTurns s
            match o with
            | some o =>
              let s := s.startOp c errs o
              if (s.classOps c ((s.sched c).rr + 1)).isEmpty then s.setDeficit c 0 else s
            | none => s

def execChannelSequenceStart (c : Fin 24) (errs : List Burst) (s : State) : Result := .next (s.sequence c errs)

end Sys2Proof.Machine
end

