-- ==== Sys2Proof/Machine/Dram.lean ====
section
/-! DEFINITION. DRAM channels: the return of reads, training, refresh, the comber and repair (05_dram R130 to R155; 06_shingle
R180; 08_protection R217). -/

namespace Sys2Proof.Machine

/-! ### Reads that return (R139 to R141) -/

/-- A request has been replayed inside the device (04_request R120). -/
def State.replayed (s : State) (rid : Nat) : State := (s.updReq rid fun r => { r with replayed := true }).exclude rid 1

/-- A read line reaches the protection stage with its counters on die (08_protection R205, R217). -/
def State.finishNear (s : State) (r : Req) (cipher : Line) : State :=
  let c := chanOf r.home (r.ma / 4)
  let s := (s.pulse r.home bProt (c % 12 / 2) 0 (some r.dom)).updReq r.rid fun q => { q with stamps := { q.stamps with crypto := s.now } }
  let s := if s.fenced (uCryptoOf c) then s.exclude r.rid 11 else s
  match s.unseal ⟨r.home, r.ma, r.dom, r.line, false, 0⟩ cipher with
  | some l => s.answerRead r.rid l false
  | none => ((s.macFail r.home r.ma r.dom r.line).markNear r.home r.ma r.dom r.line).answerRead r.rid 0 true

/-- A read waits for its counter block, whose fetch has started at stage 5 (08_protection R214, R216). -/
def State.waitCtr (s : State) (r : Req) (lines : List Line) : State :=
  s.updReq r.rid fun q => { q with stage := .ctrWait, slotLines := lines }

/-- The line of a read and its tag line have arrived (08_protection R216): outcomes that give no data get no check. -/
def State.nearBack (s : State) (r : Req) (d : Decoded) (errs : List Burst) : State :=
  if d.outcome ≠ 1 ∧ d.outcome ≠ 3 then s.answerRead r.rid 0 true
  else
    let (t, _, s) := s.readTag r.home r.dom r.line (some ⟨r.dom, r.line, 1⟩) errs
    match t with
    | .unread => s.answerRead r.rid 0 true
    | .wrong => ((s.macFail r.home r.ma r.dom r.line).markNear r.home r.ma r.dom r.line).answerRead r.rid 0 true
    | .found => if s.ctrReady r.dom r.line then s.finishNear r d.line else s.waitCtr r [d.line]

/-- A read of class 0 is read again at once, since that class has no close; others wait for their next window (R141). -/
def State.againNow (s : State) (r : Req) (c : Nat) : Bool := r.cls == 0 && s.gateOpen c 0 && s.fits c 0 (occRead10 (s.chanRate c))

/-- A read that has to be read again (R141): it counts as a stage replay (04_request R120). -/
def State.noteAgain (s : State) (r : Req) : State :=
  ((s.stageReplay r.home).replayed r.rid).updReq r.rid fun q => { q with reread := true }

/-- A near line returns. -/
def State.nearDone (s : State) (r : Req) (errs : List Burst) : State :=
  let c := chanOf r.home (r.ma / 4)
  let of_ : Option Of := some ⟨r.dom, r.line, 1⟩
  let first := s.readBurst r.home r.ma (errs.headD 0)
  let s := s.countRead r.home r.ma
  if first.outcome = 5 ∧ !r.reread then
    let s := s.noteAgain r
    if s.againNow r c then
      let again := s.readBurst r.home r.ma (errs.tail.headD 0)
      ((s.countRead r.home r.ma).readNote 0 r.home r.ma again of_ false true).nearBack r again errs.tail.tail
    else s.moveReq r.rid .channel
  else (s.readNote 0 r.home r.ma first of_ false true).nearBack r first errs.tail

/-! ### Slots (06_shingle R180) -/

/-- The size class of the slot at a unit. -/
def State.slotClassAt (s : State) (h : Half) (base : Nat) : Nat :=
  (((s.shg.get h).blocks.find? (fun b => decide (b.base ≤ base ∧ base < b.base + 256))).map (·.k)).getD 1

/-- What a read of a slot line does at outcome 5: it reads again at once, takes the outcome as final, or leaves the re-read to
another sequence (05_dram R141). -/
inductive Again where
  | atOnce | final | later
  deriving DecidableEq, Repr

/-- A slot line as read: its plaintext, or none; whether it had to be, or is to be, read again; and the patterns left. -/
structure SlotLine where
  line : Option Line
  again : Bool
  rest : List Burst
  deriving DecidableEq, Repr

/-- A slot line read: its plaintext, or none; what the read records, an alarm among it (08_protection R217). A line that waits in
the write buffer is taken from there (04_request R107). -/
def State.takeSlotLine (s : State) (h : Half) (base d page j seq : Nat) (errs : List Burst) (how : Again) : SlotLine × State :=
  let ma := base * 4 + j
  let of_ : Option Of := some ⟨d, page * 64, 64⟩
  match (s.chan (chanOf h base)).wb.find? (fun w => w.ma == ma && w.slot.isSome) with
  | some w => (⟨some w.data, false, errs⟩, s)
  | none =>
    let first := s.readBurst h ma (errs.headD 0)
    if first.outcome = 5 ∧ how = .later then (⟨none, true, errs.tail⟩, s.countRead h ma)
    else
      let again := decide (first.outcome = 5 ∧ how = .atOnce)
      let (r, rest, s) := if again then s.deviceRead 0 h ma errs of_ false true
        else (first, errs.tail, (s.countRead h ma).readNote 0 h ma first of_ false true)
      if r.outcome ≠ 1 ∧ r.outcome ≠ 3 then (⟨none, again, rest⟩, s)
      else
        let (t, rest, s) := s.readTag h d (page * 64 + j) of_ rest
        let bad := s.macFail h ma d (page * 64 + j)
        match t with
        | .unread => (⟨none, again, rest⟩, s)
        | .wrong => (⟨none, again, rest⟩, bad)
        | .found =>
          match s.unseal (slotPlace h base d page j seq) r.line with
          | some l => (⟨some l, again, rest⟩, s)
          | none => (⟨none, again, rest⟩, bad)

/-- Lines of a slot that hold some chunks. -/
def slotNeeds (hdr : SlotHdr) (k : Nat) (chunks : List Nat) : List Nat :=
  (chunks.flatMap fun i =>
    let a := hdr.start i
    let b := min (hdr.stop i) (k * 256)
    if a < b then (List.range ((b - 1) / 64 + 1)).drop (a / 64) else []).eraseDups

/-- What reading a slot gave: its plaintext with zeros for lines not read, the lines that could not be read, whether a line had to
be, or is to be, read again, and the patterns left. -/
structure SlotRead where
  lines : List Line
  bad : List Nat
  again : Bool
  rest : List Burst
  deriving DecidableEq, Repr

/-- The header of a slot in the metadata cache (R180, R181). -/
def State.hdrOn (s : State) (h : Half) (base : Nat) : Option Line :=
  if s.flag shgCfgHdrCacheEn then
    ((s.mcache.get h).find? (fun l => l.key == McKey.hdr h base)).map (fun l => BitVec.ofNat 512 l.hdr)
  else none

/-- What the header of a slot came to: its line where it could be had, the lines read for it, and whether one had to be, or is to be,
read again. -/
structure SlotHead where
  line : Option Line
  again : Bool
  known : List Nat
  rest : List Burst
  deriving DecidableEq, Repr

/-- The header of a slot: cached, or read with line 0 (R180). -/
def State.slotHead (s : State) (h : Half) (base d page : Nat) (errs : List Burst) (how : Again) : SlotHead × State :=
  match s.hdrOn h base with
  | some l => (⟨some l, false, [], errs⟩, s)
  | none =>
    let (x, s) := s.takeSlotLine h base d page 0 0 errs how
    (⟨x.line, x.again, [0], x.rest⟩, s)

/-- The header and the lines of some chunks of a slot are read; a cached header spares line 0 where no chunk needs it (R180). -/
def State.readSlot (s : State) (h : Half) (base k d page : Nat) (chunks : List Nat) (errs : List Burst) (how : Again) :
    SlotRead × State :=
  let blank : List Line := List.replicate (k * 4) 0
  let (hd, s) := s.slotHead h base d page errs how
  match hd.line with
  | none => ({ lines := blank, bad := List.range (k * 4), again := hd.again, rest := hd.rest }, s)
  | some l0 =>
    let need := (slotNeeds (hdrOf (lineBytes l0)) k chunks).filter (fun j => !hd.known.contains j)
    let init : SlotRead := { lines := blank.set 0 l0, bad := [], again := hd.again, rest := hd.rest }
    need.foldl (fun (acc : SlotRead × State) j =>
      let (x, s) := acc.2.takeSlotLine h base d page j (if j = 0 then 0 else seqOf l0) acc.1.rest how
      let acc1 := { acc.1 with again := acc.1.again || x.again, rest := x.rest }
      match x.line with
      | some l => ({ acc1 with lines := acc1.lines.set j l }, s)
      | none => ({ acc1 with bad := acc1.bad ++ [j] }, s)) (init, s)

/-- A chunk has bytes in a slot line that could not be read, or the header could not. -/
def SlotRead.chunkBad (r : SlotRead) (i : Nat) : Bool :=
  decide (r.bad.length = r.lines.length)
    || (slotNeeds (hdrOf (lineBytes (nth 0 r.lines 0))) (r.lines.length / 4) [i]).any r.bad.contains

/-- An error promotion of a page is due (06_shingle R174). -/
def State.wantPromote (s : State) (h : Half) (d page : Nat) : State :=
  if ((s.mover.get h).errPromotes).contains (d, page) then s
  else { s with mover := s.mover.upd h (fun m => { m with errPromotes := m.errPromotes ++ [(d, page)] }) }

/-! ### Chunk decodes (06_shingle R172 to R174, R180, R181) -/

/-- A chunk decoded from a slot's plaintext: its 16 lines, or its error. An engine that errs by itself reports the illegal-code error:
the spec does not name the error that a defective engine shows (R173, log 147). -/
def State.decode (s : State) (lines : List Line) (i : Nat) (fails : Bool) : Except Nat (List Line) :=
  if fails then .error eIllegal
  else
    match decodeChunk (lines.flatMap lineBytes) (lines.length / 4) i s.setActive s.setLens with
    | .ok out => .ok ((List.range 16).map fun j => bytesLine ((out.drop (64 * j)).take 64))
    | .error e => .error e

/-- A decoded chunk enters the chunk cache; a full set gives up a chunk by pseudo-LRU, of equals the first (R181; log 31). -/
def State.ccFill (s : State) (h : Half) (slot chunk : Nat) (lines : List Line) : State :=
  let n := s.ccSets h
  let fresh : CachedChunk := { slot, chunk, lines, used := false }
  let old := (s.shg.get h).cache.filter (fun c => !(c.slot == slot && c.chunk == chunk))
  let set := old.filter (fun c => c.hash % n == fresh.hash % n)
  if n = 0 then s
  else
    let left := if set.length < 16 then old
      else match plruVictim (·.used) 0 set with
        | some v => old.filter (fun c => !(c.slot == v.slot && c.chunk == v.chunk))
        | none => old
    ({ s with shg := s.shg.upd h (fun (g : Shg) => { g with cache := left ++ [fresh] }) } : State).ccTouch h slot chunk

/-- A decoded chunk enters the chunk cache, and the slot's header the metadata cache (R180, R181). -/
def State.cacheChunk (s : State) (h : Half) (slot chunk : Nat) (lines : List Line) (l0 : Line) : State :=
  let s := if s.flag shgCfgChunkCacheEn then s.ccFill h slot chunk lines else s
  if s.flag shgCfgHdrCacheEn then
    let s := s.mcFill h (.hdr h slot) 0
    { s with mcache := s.mcache.upd h (fun c => c.map fun l => if l.key == McKey.hdr h slot then { l with hdr := l0.toNat % 2 ^ 256 } else l) }
  else s

/-- A chunk of a page ends in an error (R174): it is counted and recorded; the slot's MA is named where the half stores it. -/
def State.chunkErr (s : State) (h : Half) (d page : Nat) (slot : Option Nat) (chunk e : Nat) : State :=
  let s := (s.count (shgEvtCntDecodeErr h.idx) 1).pulse h bShg 31 5 (some d)
  let s := ((s.setFld shgErrLastError e).setFld shgErrLastChunk chunk).setFld shgErrLastDomain d
  let s := (s.setFld shgErrLastSlot (slot.getD 0)).setFld shgErrLastHalf h.idx
  s.note { code := cShgIllegalCode + (e - 1), cls := clsUcr, dom := some d, detail := chunk,
           unit := match slot with | some a => uChannel (chanOf h a) | none => uHalf h.idx,
           addr := some (s.dpaOf d (page * 64 + chunk * 16), 16), ma := slot.map fun a => recordMa h (a * 4) }

/-- A chunk of a SHINGLE page ends in an error (R174): an error promotion is due as well. -/
def State.chunkFailed (s : State) (h : Half) (d page slot chunk e : Nat) : State :=
  (s.chunkErr h d page (some slot) chunk e).wantPromote h d page

/-- What a chunk came to, for the reads that wait for it or for the promotion of its page. A line that is listed as poisoned reads
poisoned (04_request R127). -/
def State.chunkEnd (s : State) (h : Half) (d page slot chunk : Nat) (rid : Option Nat) (got : Option (List Line)) : State :=
  match rid with
  | some rid =>
    (match s.req rid with
    | some r =>
      let s := s.updReq rid fun q => { q with stamps := { q.stamps with decoded := s.now } }
      (match got with
      | some ls => s.answerRead rid (nth 0 ls (r.line % 16)) (s.listedLine r.dom r.line)
      | none => s.answerRead rid 0 true)
    | none => s)
  | none =>
    let mine := fun (p : Promo) => p.dom == d && p.page == page && p.slot == slot
    let put := fun (p : Promo) => { p with chunks := p.chunks.set chunk (some got) }
    { s with shg := s.shg.upd h (fun (g : Shg) => { g with promos := mapFirst mine put g.promos }) }

/-- A chunk of a read slot takes no bits: its header alone is checked, and no decoder is taken (R160, R180). -/
def chunkEmpty (lines : List Line) (i : Nat) : Bool :=
  let hdr := hdrOf (lineBytes (nth 0 lines 0))
  hdr.start i == hdr.stop i

/-- A chunk's error kept for the error promotion that it starts (R174). -/
def State.keepFailed (s : State) (h : Half) (d page chunk : Nat) : State :=
  { s with mover := s.mover.upd h (fun (m : Mover) => { m with failed := if m.failed.contains (d, page, chunk) then m.failed else m.failed ++ [(d, page, chunk)] }) }

/-- The slot lines of a read of a SHINGLE line return: the chunk waits for its decode, or needs none (R180). -/
def State.slotDone (s : State) (r : Req) (errs : List Burst) : State :=
  let h := r.home
  let base := r.ma / 4
  let c := chanOf h base
  let k := s.slotClassAt h base
  let page := r.line / 64
  let i := r.line % 64 / 16
  if !s.ctrReady r.dom r.line then s.waitCtr r []
  else
    let how : Again := if r.reread then .final else if s.againNow r c then .atOnce else .later
    let (got, s) := s.readSlot h base k r.dom page [i] errs how
    let s := if got.again then s.noteAgain r else s
    if got.again ∧ how = .later then s.moveReq r.rid .channel
    else
      let s := s.pulse h bProt (c % 12 / 2) 0 (some r.dom)
      let s := s.updReq r.rid fun q => { q with slotLines := got.lines, stamps := { q.stamps with crypto := s.now } }
      if got.chunkBad i then ((s.keepFailed h r.dom page i).wantPromote h r.dom page).answerRead r.rid 0 true
      else if chunkEmpty got.lines i then
        (match s.decode got.lines i false with
        | .ok ls => (s.cacheChunk h base i ls (nth 0 got.lines 0)).chunkEnd h r.dom page base i (some r.rid) (some ls)
        | .error e => ((s.keepFailed h r.dom page i).chunkFailed h r.dom page base i e).chunkEnd h r.dom page base i (some r.rid) none)
      else s.setStage r.rid .chunkWait

/-- A DRAM read returns (stage 7), with the parity errors of a stage (04_request R119). -/
def State.readDone (s : State) (rid : Nat) (errs : List Burst) (stage parity : Nat) : State :=
  match s.req rid with
  | none => s
  | some r =>
    if r.stage != .dram then s
    else
      let c := chanOf r.home (r.ma / 4)
      let (s, bad) := (s.caConfirm c).stageParity rid stage parity [7, 8, 9, 10]
      let s := s.updReq rid fun q => { q with stamps := { q.stamps with dram := s.now, decoded := s.now, crypto := s.now } }
      if bad then s
      else if s.treeFenced r.dom r.line then s.answerRead rid 0 true
      else if r.pstate = 2 then s.slotDone r errs else s.nearDone r errs

def execDramReadDone (rid : Fin 65536) (errs : List Burst) (stage : Fin 11) (parity : Fin 5) (s : State) : Result :=
  .next (s.readDone rid errs stage parity)

/-! ### Training (R130 to R136) -/

/-- The rates of Table 5.1, MT/s, in the order of MAX_RATE's encoding. -/
def rates : List Nat := [4800, 5600, 6400, 7200, 8000, 8800]

/-- A module is an MRDIMM; it has 32 Gb devices; log2 of its logical ranks; its rating by MAX_RATE's encoding (R132, R133). -/
def modMr (m : Module) : Bool := m.kind == 1
def modDens32 (m : Module) : Bool := m.gbit == 32
def modRankBits (m : Module) : Nat := (List.range 4).findIdx (fun k => 2 ^ k == m.ranks)
def modRate (m : Module) : Nat := rates.findIdx (· == m.mts)

/-- A module lies within Table 5.1 (R130). -/
def modSupported (m : Module) : Bool :=
  decide (m.kind ≤ 1) && m.subBits == 40 && m.devBits == 4 && [16, 32].contains m.gbit && [1, 2, 4].contains m.stack
    && [1, 2, 4, 8].contains m.ranks && [32, 64, 128, 256, 512].contains m.gib && rates.contains m.mts

/-- The rate of a channel with these modules (R132). -/
def State.rateFor (s : State) (c : Nat) (ms : List Module) : Nat :=
  ms.foldl (fun r m => min r (modRate m)) (min (min 5 (s.fld (dmcCfgMaxRate c))) (if ms.length = 2 then 2 else 5))

/-- Two modules may share a channel (Table 5.2). -/
def pairOk (a b : Module) : Bool := !modMr a && !modMr b && a.part == b.part

/-- HPPR_PENDING and ROWS_RETIRED follow the channel's lists. -/
def State.repairTally (s : State) (c : Nat) : State :=
  let ch := s.chan c
  ((s.setFld (dmcRepairStatusHpprPending c) ch.pendingHard.length).setFld (dmcRepairStatusRowsRetired c) ch.retired.length).setFld
    (dmcRepairStatusTracked c) ch.rows.length

/-- A range is retired: it leaves USABLE and stands in the logbook (R153). -/
def State.rangeRetired (s : State) (c r : Nat) : State :=
  if (s.chan c).retired.contains r then s
  else
    let s := s.updChan c fun ch => { ch with retired := ch.retired ++ [r] }
    ((s.repairTally c).say cDmcRowRetired clsCe (uChannel c)).recap (chanHalf c)

/-- Soft repair is applied again to the pending rows at boot. A row that it cannot cover is retired, and DRAM holds nothing yet that
would have to move; the row is pending no longer: DESIGN CHOICE (log 158), for the spec does not say whether it stays on the list
(R152). -/
def State.bootRepair (s : State) (c : Nat) : State :=
  (s.each (s.chan c).pendingHard fun s k =>
    if s.flag (dmcRepairCfgSpprEn c) && !((s.chan c).repaired.any (fun r => s.repairUnit c r == s.repairUnit c k)) then
      (s.updChan c fun ch => { ch with repaired := ch.repaired ++ [k] }).setFld (dmcRepairStatusSpprDone c)
        (s.fld (dmcRepairStatusSpprDone c) + 1)
    else (s.updChan c fun ch => { ch with pendingHard := ch.pendingHard.filter (· != k) }).rangeRetired c k.range).repairTally c

/-- A channel that trained (R132, R135), whose comber starts its schedule (R149). The logbook keeps one record of results for each
channel, and a new one replaces it: DESIGN CHOICE (log 156), for the spec does not say how many it keeps. -/
def State.trainedOn (s : State) (c : Nat) (ms : List Module) (m : Module) (key : List Nat) (full : Bool) : State :=
  let s := (s.setFld (dmcStatusRate c) (s.rateFor c ms)).setFlag (dmcStatusTrained c) true
  let s := (s.setFlag (dmcStatusTrainPath c) full).setFld (dmcStatusPop c) ms.length
  let s := ((s.setFlag (dmcStatusModuleType c) (modMr m)).setFlag (dmcStatusDensity c) (modDens32 m)).setFld (dmcStatusRankBits c) (modRankBits m)
  let s := (s.setFld (dmcStatusFail c) 0).setFld (dmcStatusCapGib c) ((ms.map (·.gib)).foldl (· + ·) 0)
  let s := s.updChan c fun ch => { ch with trained := true, record := (if s.flag fltStatusLogbookRo then ch.record else some { key }), lapStart := s.now,
                                           combPeriod := s.fld (dmcCombCfgPeriod c), combFrom := 0, combBase := s.now }
  ((s.bootRepair c).recap (chanHalf c)).guarantee

/-- A channel's training ends: `fast` says that the stored results passed verification, `ok` that a full training succeeded
(R130 to R136). A slot without power reads as empty. -/
def State.trainDone (s : State) (c : Nat) (slot0 slot1 : Option Module) (fast ok : Bool) : State :=
  let fail := fun (s : State) (code name : Nat) => (s.setFld (dmcStatusFail c) code).raise { code := name, cls := clsUcf, unit := uChannel c }
  let slot0 := if s.bit hswSlotPwrPwr (2 * c) then slot0 else none
  let slot1 := if s.bit hswSlotPwrPwr (2 * c + 1) then slot1 else none
  let s := if within 4 8 s.phase then s.updChan c fun ch => { ch with mods := [slot0, slot1] } else s
  if !within 4 8 s.phase ∨ s.flag (dmcCfgChannelDisable c) ∨ s.flag (dmcStatusTrained c) ∨ s.fencedIn (uChannel c) then s
  else
    let ms := [slot0, slot1].filterMap id
    if ms.any (fun m => !modSupported m) then fail s 1 cDmcModuleUnsupported
    else match slot0, slot1 with
      | none, none => s
      | none, some _ => fail s 2 cDmcPopulationInvalid
      | some m, other =>
        if !(match other with | some m2 => pairOk m m2 | none => true) then fail s 2 cDmcPopulationInvalid
        else
          let key := (ms.flatMap fun m => [m.part, m.serial]) ++ [s.rateFor c ms, s.fuses.stepping]
          let short := (s.chan c).record == some { key } && !s.flag (dmcCfgForceFullTrain c) && (s.chan c).pendingHard.isEmpty && fast
          if short then s.trainedOn c ms m key false
          else if ok then s.trainedOn c ms m key true
          else fail s 3 cDmcTrainFail

def execChannelTrainDone (c : Fin 24) (slot0 slot1 : Option Module) (fast ok : Bool) (s : State) : Result :=
  .next (s.trainDone c slot0 slot1 fast ok)

/-- A hard repair of one pending row at a boot that took the full path, before Memory_Active (R152). The row leaves the pending list;
that soft repair was applied to it at this boot stays true. -/
def State.hardRepair (s : State) (c : Nat) (ok : Bool) : State :=
  match (s.chan c).pendingHard with
  | [] => s
  | _ :: rest =>
    if !(!s.boot.memActive && s.flag (dmcStatusTrainPath c) && s.flag (dmcRepairCfgHpprEn c) && s.chanUp c && !(s.chan c).hardTried) then s
    else
      let s := s.updChan c fun ch => { ch with hardTried := true }
      if ok then
        let s := s.updChan c fun ch => { ch with pendingHard := rest }
        (s.setFld (dmcRepairStatusHpprDone c) (s.fld (dmcRepairStatusHpprDone c) + 1)).repairTally c
      else s.say cDmcPprFail clsCe (uChannel c)

def execHardRepair (c : Fin 24) (ok : Bool) (s : State) : Result := .next (s.hardRepair c ok)

/-! ### Command parity and injection (R142, R143) -/

/-- A module signals a command parity error: the sequences since the last confirmed command are replayed; after the third
replay the channel is fenced (log 58). -/
def State.caAlert (s : State) (c : Nat) : State :=
  if !s.chanUp c then s
  else if (s.chan c).caTries ≥ 3 then
    (s.updChan c fun ch => { ch with caTries := 0 }).raise { code := cDmcCaParityFail, cls := clsUcf, unit := uChannel c }
  else
    let h := chanHalf c
    let s := (s.updChan c fun ch => { ch with caTries := ch.caTries + 1 }).stageReplay h
    s.each ((s.reqs.filter (fun r => r.stage == .dram && r.home == h && chanOf h (r.ma / 4) == c)).map (·.rid)) fun s rid => s.replayed rid

def execCaParityAlert (c : Fin 24) (s : State) : Result := .next (s.caAlert c)

/-- A write of DMC_INJ_CTRL (R143). -/
def State.injArm (s : State) (c v : Nat) : State :=
  let s := s.setFlag (dmcInjCtrlFilterEn c) (bitAt v 1)
  if bitAt v 0 && !s.flag (dmcCfgInjDisable c) then s.setFlag (dmcInjCtrlArm c) true else s

def execInjectionArm (c : Fin 24) (value : Word) (s : State) : Result :=
  .next (s.write .plain false (some (chanHalf c)) fun s => s.injArm c value.toNat)

/-! ### Refresh (R144 to R147; 16_power R375, R376) -/

/-- The debt rises by one; at four with no sweep possible a forced sweep runs (R145, R147). -/
def State.debtTick (s : State) (c : Nat) : State :=
  if !s.chanUp c then s
  else
    let d := (s.chan c).debt + 1
    let s := ((s.updChan c fun ch => { ch with debt := d }).setFld (dmcRefStatusDebt c) d).combLag c
    if d < 4 then s
    else if s.sweepDue c then s.sweepNow c
    else
      let s := ((s.sweepNow c).count (dmcRefStatusForced c) 1).say
        cDmcRefreshForced clsCe (uChannel c)
      s.each ((s.readQueue c).map (·.rid)) fun s rid => s.exclude rid 2

def execRefreshDebtTick (c : Fin 24) (s : State) : Result := .next (s.debtTick c)

def execRefreshSweep (c : Fin 24) (s : State) : Result := .next (if s.sweepDue c then s.sweepNow c else s)

/-- The sideband is read: temperatures set tREFI, and a PMIC's power-good fault trips its slot (R145; 16_power R375). -/
def State.sideband (s : State) (c : Nat) (temps : List Nat) (pg : List Bool) : State :=
  let s := if temps.any (· > 85) then s.setFlag (dmcStatusRefExtended c) true
    else if temps.all (· ≤ 83) then s.setFlag (dmcStatusRefExtended c) false else s
  s.each (pg.take 2).zipIdx fun s x => if x.1 then s.slotTrip (2 * c + x.2) else s

def execDimmSidebandPoll (c : Fin 24) (temps : List Nat) (pgFault : List Bool) (s : State) : Result := .next (s.sideband c temps pgFault)

/-- The write-back owed first is written, where it fits (R140, R148). -/
def State.writeBackStep (s : State) (c : Nat) : State :=
  if s.maintFits c (occWrite10 (s.chanRate c)) then s.writeBack c else s

def execCorrectedWriteback (c : Fin 24) (s : State) : Result := .next (s.writeBackStep c)

/-! ### The comber (R149) -/

/-- What holds a line of a half's media (R154): a line of a NEAR page, of a slot and the page that names it, or of a metadata
structure. -/
inductive LineUse where
  | unheld
  | near (d line : Nat)
  | slot (page : Option (Nat × Nat))
  | meta_ (k : McKey)
  deriving DecidableEq, Repr

/-- A slot's page: the page of the half that names it. -/
def State.slotPage (s : State) (h : Half) (base : Nat) : Option (Nat × Nat) :=
  (s.pages.find? (fun q => q.2.state == .shingle && q.2.addr == base && s.home (q.1 / 2 ^ 36) == h)).map fun q => (q.1 / 2 ^ 36, q.1 % 2 ^ 36)

/-- What a line of a domain's tables holds: descriptors, directory entries, or a node of the summit (03_domains R83; 08_protection
R213). -/
def State.tableUse (s : State) (d off : Nat) : LineUse :=
  let size := (s.map d).extents
  let nodes := off - summitStart size
  if off < ceilDiv size 4 then .meta_ (.desc d off)
  else if dirStart size ≤ off ∧ off < dirStart size + ceilDiv size 8 then .meta_ (.dir d (off - dirStart size))
  else if off < summitStart size then .unheld
  else match ((List.range 14).map (s.top d - 2 - ·)).find? (fun l => decide (4 ≤ l ∧ summitBelow size l ≤ nodes)) with
    | some l => if nodes - summitBelow size l < ceilDiv size (8 ^ (l - 3)) then .meta_ (.node d l (nodes - summitBelow size l)) else .unheld
    | none => .unheld

/-- What a line of an extent's protection area holds (08_protection Table 8.3); the top two levels of a tree stand on die alone. -/
def State.areaUse (s : State) (d e off : Nat) : LineUse :=
  let node := fun (l i : Nat) => if l + 1 < s.top d then LineUse.meta_ (.node d l i) else .unheld
  if off < 512 then .meta_ (.ctr d (e * 512 + off))
  else if off < 4608 then .meta_ (.tags d (e * 4096 + (off - 512)))
  else if off < 4672 then node 1 (e * 64 + (off - 4608))
  else if off < 4680 then node 2 (e * 8 + (off - 4672))
  else if off = 4680 then node 3 e else .unheld

/-- What holds a line MA / 64. -/
def State.lineUse (s : State) (h : Half) (ma : Nat) : LineUse :=
  let u := ma / 4
  match s.media.find? (fun b => b.half == h && decide (b.base ≤ u ∧ u < b.base + b.len)) with
  | none => .unheld
  | some b =>
    let off := ma - b.base * 4
    let near := fun (d p : Nat) => if (s.pageNow d p).state == .near && (s.pageNow d p).addr == u / 16 * 16 then LineUse.near d (p * 64 + ma % 64) else .unheld
    match b.owner with
    | .frame d p => near d p
    | .bigFrame d e => near d (e * 512 + off / 64)
    | .shgBlock k =>
      let j := off / 4 / k
      if (s.shg.get h).blocks.any (fun x => x.base == b.base && x.used.any (fun q => q.1 == j)) then .slot (s.slotPage h (b.base + j * k))
      else .unheld
    | .pageTable d e _ => if (s.metaPlaces (.pte d (e * 64 + off))).contains ma then .meta_ (.pte d (e * 64 + off)) else .unheld
    | .extTable d _ => if ((s.map d).table1 == some b.base || (s.map d).table2 == some b.base) then s.tableUse d off else .unheld
    | .p2 d e => if s.area d e == some b.base then s.areaUse d e off else .unheld
    | .draining _ | .orphan => .unheld

/-- What the stored burst of a line is a difference from (log 140). -/
def State.lineBase (s : State) : LineUse → Burst
  | .meta_ k => encodeLine (BitVec.ofNat 512 (ofLeB (s.metaBytes k))) false
  | _ => 0

/-- Where a line belongs, as a record of it says (log 142). -/
def LineUse.of : LineUse → Option Of
  | .near d line => some ⟨d, line, 1⟩
  | .slot (some q) => some ⟨q.1, q.2 * 64, 64⟩
  | _ => none

/-- A comber read of a line that is not a map structure (R149). -/
def State.combPlain (s : State) (h : Half) (ma : Nat) (use : LineUse) (errs : List Burst) : List Burst × State :=
  let (_, rest, s) := s.deviceRead (s.lineBase use) h ma errs use.of true true
  (rest, s)

/-- The comber reads one line (R149, R154); what the write buffer is about to write anew is left (log 151). A metadata structure with
two copies is read from the copy met first, and where that is not sound it is repaired from the other, or lost (03_domains R93,
R97). -/
def State.combLine (s : State) (h : Half) (ma : Nat) (errs : List Burst) : List Burst × State :=
  let use := s.lineUse h ma
  match use with
  | .unheld => (errs, s)
  | .near d line =>
    if s.treeFenced d line || (s.chan (chanOf h (ma / 4))).wb.any (fun w => w.ma == ma) then (errs, s)
    else s.combPlain h ma use errs
  | .slot _ => s.combPlain h ma use errs
  | .meta_ k => match k with
    | .desc _ _ | .pte _ _ | .dir _ _ =>
      let (_, rest, s) := s.readFrom h k ma ((s.metaPlaces k).filter (fun m => m != ma && !s.mediaLost h (m / 4))) errs true
      (rest, s)
    | _ => s.combPlain h ma use errs

/-- A lap ends: counts are halved, and deferred retirements are tried again (R149, R150, R153). The next lap's first step is due where
the last one's interval ends. -/
def State.lapEnd (s : State) (c : Nat) : State :=
  let ch := s.chan c
  let s := (s.setFld (dmcCombStatusPosition c) 0).setFld (dmcCombStatusLaps c) (s.fld (dmcCombStatusLaps c) + 1)
  let s := (s.setFld (dmcCombLapLastLapS c) ((s.now - ch.lapStart) / 1000000000)).setFld (dmcCombLapCeLastLap c) ch.lapCe
  s.updChan c fun ch => { ch with
    lapStart := s.now, lapCe := 0, combBase := s.combTime c (s.combSteps c), combFrom := 0, rows := ch.rows.map (fun r => { r with count := r.count / 2 })
    retiring := ch.retiring ++ ch.deferred, deferred := [] }

/-- A new PERIOD takes effect with the step that comes next (R149). -/
def State.combPlan (s : State) (c : Nat) : State :=
  let pos := s.fld (dmcCombStatusPosition c)
  let period := s.fld (dmcCombCfgPeriod c)
  if (s.chan c).combPeriod = period then s
  else
    let due := s.combTime c pos
    s.updChan c fun ch => { ch with combPeriod := period, combFrom := pos, combBase := due }

/-- A comber step that is due (R149): steps that are owed follow each other until the schedule is caught up with. -/
def State.combStep (s : State) (c : Nat) (errs : List Burst) : State :=
  let h := chanHalf c
  let s := s.combLag c
  let pos := s.fld (dmcCombStatusPosition c)
  if !s.combMay c ∨ s.now < s.combTime c pos then s
  else
    let s := (s.caConfirm c).combPlan c
    let start := c % 12 * chanUnits * 4 + pos * 16
    let (_, s) := (List.range 16).foldl (fun (acc : List Burst × State) i => acc.2.combLine h (start + i) acc.1) (errs, s)
    let s := (s.pulse h bDmc (c % 12) 8 none).setFld (dmcCombStatusPosition c) (pos + 1)
    if pos + 1 ≥ s.combSteps c then (s.lapEnd c).combLag c else s.combLag c

def execComberStep (c : Fin 24) (errs : List Burst) (s : State) : Result := .next (s.combStep c errs)

/-! ### Soft repair (R151) -/

/-- The held lines of a row. -/
def State.rowLines (s : State) (c : Nat) (k : RowKey) : List Nat :=
  ((List.range 128).map (fun i => (c % 12) * chanUnits * 4 + k.range * 8192 + i * 64 + k.sub)).filter
    (fun ma => s.lineUse (chanHalf c) ma != .unheld)

/-- A line of a row is read, corrected, for its repair: the burst that the buffer holds, as a difference where it is a metadata line
(R151, log 140). -/
def State.softRead (s : State) (h : Half) (ma : Nat) (errs : List Burst) : Burst × List Burst × State :=
  let use := s.lineUse h ma
  let base := s.lineBase use
  let (r, rest, s) := s.deviceRead base h ma errs use.of false true
  let bad := r.outcome == 2 || r.outcome == 4 || r.outcome == 5
  (base ^^^ encodeLine r.line bad, rest, s)

/-- A repair starts where enough entries are free: the row's held lines are read, corrected, into the write buffer (R151). The write
that corrects a line is among what the repair writes. An outcome 5 that is confirmed ends the repair (Table 5.8). -/
def State.softStart (s : State) (c : Nat) (errs : List Burst) : State :=
  match (s.chan c).softWait, (s.chan c).soft with
  | k :: rest, none =>
    let h := chanHalf c
    let lines := s.rowLines c k
    if !(s.softRoom c lines.length && s.repairMay c) then s
    else
      let s := s.caConfirm c
      let (held, _, s) := lines.foldl (fun (acc : List (Nat × Burst) × List Burst × State) ma =>
        let (b, errs, s) := acc.2.2.softRead h ma acc.2.1
        (acc.1 ++ [(ma, b)], errs, s)) (([], errs, s) : List (Nat × Burst) × List Burst × State)
      if (s.chan c).retiring.contains k.range then s
      else s.updChan c fun ch => { ch with
        softWait := rest, soft := some { key := k, phase := 0, lines := held, since := s.now }
        backs := ch.backs.filter (fun w => !(held.any (fun q => q.1 == w.ma))) }
  | _, _ => s

def execSoftRepairStart (c : Fin 24) (errs : List Burst) (s : State) : Result := .next (s.softStart c errs)

/-- The repair sequence runs in one MC window; the entries then drain to the repaired row (R151). A line that nothing holds any more
is not written (R154). -/
def State.softSequence (s : State) (c : Nat) : State :=
  match (s.chan c).soft with
  | some r =>
    if r.phase ≠ 0 ∨ !s.repairMay c then s
    else
      let h := chanHalf c
      let held := r.lines.filter (fun q => s.lineUse h q.1 != .unheld)
      let s := s.each held fun s q => (s.countWrite h q.1).putBurst h q.1 q.2
      (s.caConfirm c).updChan c fun ch => { ch with soft := some { r with phase := 1, lines := held } }
  | none => s

def execSoftRepairSequence (c : Fin 24) (s : State) : Result := .next (s.softSequence c)

/-- The lines that are still held are read again: each must decode without error (R151, R154; log 59). The row is logged as a pending
hard repair, or retired. Its entry of the row table is dropped, and its count starts again at 0: DESIGN CHOICE (log 157), for the spec
does not say what becomes of the entry after a repair (R150). -/
def State.softVerify (s : State) (c : Nat) (errs : List Burst) : State :=
  match (s.chan c).soft with
  | some r =>
    if r.phase ≠ 1 ∨ !s.repairMay c then s
    else
      let h := chanHalf c
      let s := (s.caConfirm c).updChan c fun ch => { ch with soft := none }
      let held := (r.lines.map (·.1)).filter (fun ma => s.lineUse h ma != .unheld)
      let (ok, _, s) := held.foldl (fun (acc : Bool × List Burst × State) ma =>
        let d := acc.2.2.readOn (acc.2.2.lineBase (acc.2.2.lineUse h ma)) h ma (acc.2.1.headD 0)
        (acc.1 && decide (d.outcome ≤ 2), acc.2.1.tail, acc.2.2.countRead h ma)) ((true, errs, s) : Bool × List Burst × State)
      if ok then
        let s := s.updChan c fun ch => { ch with
          repaired := ch.repaired ++ [r.key], pendingHard := ch.pendingHard ++ [r.key], rows := ch.rows.filter (fun x => x.key != r.key) }
        (s.setFld (dmcRepairStatusSpprDone c) (s.fld (dmcRepairStatusSpprDone c) + 1)).repairTally c
      else (s.say cDmcPprFail clsCe (uChannel c)).retireRow c r.key
  | none => s

def execSoftRepairVerify (c : Fin 24) (errs : List Burst) (s : State) : Result := .next (s.softVerify c errs)

end Sys2Proof.Machine
end

