-- ==== Sys2Proof/Machine/Half.lean ====
section
/-! DEFINITION. The two halves: the die-to-die link, the shore ports, the management cores and the leader handshake
(01_architecture R23 to R46). The payload of a flit is opaque here; the handshake's messages have commands of their own
(log 21). -/

namespace Sys2Proof.Machine

/-! ### Flits (Tables 1.3, 1.4) -/

/-- The trailer of a flit's first 31 words (Table 1.4). -/
def flitTrailer (ws : List Word) : Word :=
  let p := ((List.range 31).map fun i => (ones 64 (nth 0 ws i).toNat % 2) * 2 ^ i).foldl (· + ·) 0
  BitVec.ofNat 64 (p + (ones 31 p % 2) * 2 ^ 63)

/-- A held flit as it is sent again: it carries the cumulative acknowledge of this moment (R26). -/
def flitAcked (ack : Nat) (valid : Bool) (ws : List Word) : List Word :=
  let n := (nth 0 ws 0).toNat
  let ws := BitVec.ofNat 64 (withBits (withBits n 16 10 ack) 26 1 (b2n valid)) :: (ws.drop 1).take 30
  ws ++ [flitTrailer ws]

/-- A whole flit: header fields in the order of Table 1.3 without the counts of the payload, then the payload. -/
def flitOf (typ vc seq ack : Nat) (ackValid : Bool) (creditVc credits : Nat) (payload : List Word) : List Word :=
  let head := BitVec.ofNat 64 (typ + at_ 4 vc + at_ 6 seq + at_ 16 ack + at_ 26 (b2n ackValid) + at_ 27 creditVc
    + at_ 29 credits + at_ 37 payload.length)
  let ws := head :: padTo 30 0 payload
  ws ++ [flitTrailer ws]

/-- A flit passes the checks of R25. -/
def flitGood (ws : List Word) : Bool :=
  let n := (nth 0 ws 0).toNat
  ws.length == 32
    && (List.range 31).all (fun i => (ones 64 (nth 0 ws i).toNat + b2n ((nth 0 ws 31).getLsbD i)) % 2 == 0)
    && ones 64 (nth 0 ws 31).toNat % 2 == 0
    && bitsOf n 0 4 ≤ 4 && bitsOf n 37 5 ≤ 30 && bitsOf n 42 22 == 0

/-- Credits of a payload: 64 B units of buffer, the header aside (R28; log 21). -/
def flitUnits (words : Nat) : Nat := ceilDiv words 8

/-- The state with one end of the die-to-die link changed. -/
def State.updD2d (s : State) (h : Half) (f : D2dEnd → D2dEnd) : State := s.updHalf h fun c => { c with d2d := f c.d2d }

/-- One end of the die-to-die link. -/
def State.d2d (s : State) (h : Half) : D2dEnd := (s.halves.get h).d2d

/-- A flit leaves a half (R26, R28): it carries the acknowledge, and the credits owed on the lowest virtual channel that is
owed any (log 84). A DATA or HANDSHAKE flit takes the next SEQ and is held for replay. -/
def State.sendFlit (s : State) (h : Half) (typ vc : Nat) (payload : List Word) : State :=
  let e := s.d2d h
  let cv := ((List.range 4).find? (fun v => nth 0 e.owed v > 0)).getD 0
  let n := min 255 (nth 0 e.owed cv)
  let held := typ == 1 || typ == 4
  let ws := flitOf typ vc (if held then e.txSeq else 0) ((e.rxNext + 1023) % 1024) e.rxAny cv n payload
  let s := s.updD2d h fun e => { e with
    owed := setAt e.owed cv (nth 0 e.owed cv - n), ackDue := false,
    txSeq := if held then (e.txSeq + 1) % 1024 else e.txSeq,
    replay := if held then e.replay ++ [({ seq := e.txSeq, words := ws, replays := 0 } : D2dHeld)] else e.replay }
  (s.emit (.d2dFlit h ws)).pulse h bD2d 0 0 none

/-- The link is in use. -/
def State.d2dOn (s : State) (h : Half) : Bool := (s.d2d h).trained && !s.fenced uD2d && !s.fenced (uHalf 0) && !s.fenced (uHalf 1)

/-- Every unacknowledged flit is sent again, with the acknowledge of this moment (R26); a flit that three replays have not brought across
fences the link (R27). A replay that touches requests is counted and marks them (R30). -/
def State.d2dReplay (s : State) (h : Half) (touched : List (Fin 65536)) : State :=
  let e := s.d2d h
  if e.replay.isEmpty then s
  else if (nth { seq := 0, words := [], replays := 0 } e.replay 0).replays ≥ 3 then
    s.raise { code := cTopD2dLinkFail, cls := clsUcf, unit := uD2d }
  else
    let s := s.each e.replay fun s f =>
      (s.emit (.d2dFlit h (flitAcked ((e.rxNext + 1023) % 1024) e.rxAny f.words))).pulse h bD2d 0 0 none
    let s := s.updD2d h fun e => { e with
      ackDue := false,
      replay := e.replay.map (fun (f : D2dHeld) => { f with replays := f.replays + 1 }),
      replayCount := e.replayCount + (if touched.isEmpty then 0 else 1) }
    (s.pulse h bD2d 0 2 none).each touched fun s r => s.replayed r.val

/-- A cumulative acknowledge: the flits up to it are freed; a replay that succeeded is recorded (R27). -/
def State.d2dAcked (s : State) (h : Half) (ack : Nat) : State :=
  let e := s.d2d h
  match e.replay.findIdx? (fun f => f.seq == ack) with
  | none => s
  | some k =>
    let again := (e.replay.take (k + 1)).any (fun f => f.replays > 0)
    let s := s.updD2d h fun e => { e with replay := e.replay.drop (k + 1) }
    if again then s.say cTopD2dReplayed clsCe uD2d else s

/-- A request's domain shows its queue (09_qos Table 9.5). -/
def State.tallyOf (s : State) (rid : Nat) : State :=
  match s.req rid with
  | some r => if r.hasDom then s.domTally r.dom else s
  | none => s

/-- What a flit that passes the checks does (R25, R26, R28). `touched` names, for a DATA flit, the requests and responses that it
carries (R22, log 144), and for a NAK the requests that the replay touches. The credits of a sequenced flit count when it is accepted, as a
replay brings them again (log 85). -/
def State.takeFlit (s : State) (h : Half) (ws : List Word) (touched : List (Fin 65536)) : State :=
  let n := (nth 0 ws 0).toNat
  let typ := bitsOf n 0 4
  let vc := bitsOf n 4 2
  let seq := bitsOf n 6 10
  let s := s.pulse h bD2d 0 1 none
  let s := if bitsOf n 26 1 = 1 then s.d2dAcked h (bitsOf n 16 10) else s
  let credit := fun (s : State) => s.updD2d h fun e => { e with
    credits := setAt e.credits (bitsOf n 27 2) (nth 0 e.credits (bitsOf n 27 2) + bitsOf n 29 8) }
  if typ = 3 then (credit s).d2dReplay h touched
  else if typ = 0 ∨ typ = 2 then credit s
  else
    let e := s.d2d h
    let d := (seq + 1024 - e.rxNext) % 1024
    if d = 0 then
      let s := (credit s).updD2d h fun e => { e with
        rxNext := (e.rxNext + 1) % 1024, rxAny := true, gapNakked := false, ackDue := true,
        owed := setAt e.owed vc (nth 0 e.owed vc + flitUnits (bitsOf n 37 5)) }
      if typ = 1 then s.each touched fun s r => (s.carry h vc r.val).tallyOf r.val else s
    else if d < 512 then
      if e.gapNakked then s else (s.updD2d h fun e => { e with gapNakked := true }).sendFlit h 3 0 []
    else s.updD2d h fun e => { e with ackDue := true }

/-- D2D_FLIT_RECEIVE. -/
def execD2dFlitReceive (h : Half) (words : List Word) (touched : List (Fin 65536)) (s : State) : Result :=
  .next (
    if !s.d2dOn h then s
    else if flitGood words then s.takeFlit h words touched
    else s.sendFlit h 3 0 [])

/-- D2D_FLIT_SEND: a flit waits for credits of its own virtual channel and for room in the replay buffer (R26, R28); a
HANDSHAKE flit goes on virtual channel 0 (R40). -/
def execD2dFlitSend (h : Half) (handshake : Bool) (vc : Fin 4) (payload : List Word) (s : State) : Result :=
  let v := if handshake then 0 else vc.val
  let e := s.d2d h
  let n := flitUnits payload.length
  .next (
    if !s.d2dOn h ∨ payload.length > 30 ∨ e.replay.length ≥ 256 ∨ nth 0 e.credits v < n then s
    else
      (s.updD2d h fun e => { e with credits := setAt e.credits v (nth 0 e.credits v - n) }).sendFlit h
        (if handshake then 4 else 1) v payload)

/-- D2D_ACK_ONLY_TIMEOUT: 32 ns have passed since a flit was accepted, without reverse traffic (R26). -/
def execD2dAckOnlyTimeout (h : Half) (s : State) : Result :=
  .next (if s.d2dOn h && (s.d2d h).ackDue then s.sendFlit h 2 0 [] else s)

/-- D2D_REPLAY_TIMEOUT: 200 ns without progress of the acknowledge (R26). -/
def execD2dReplayTimeout (h : Half) (touched : List (Fin 65536)) (s : State) : Result :=
  .next (if s.d2dOn h then s.d2dReplay h touched else s)

/-! ### The leader handshake (R39 to R44, Table 1.12) -/

/-- The state with one half's handshake changed. -/
def State.updHs (s : State) (h : Half) (f : HsHalf → HsHalf) : State := s.updHalf h fun c => { c with hs := f c.hs }

/-- One half's handshake. -/
def State.hs (s : State) (h : Half) : HsHalf := (s.halves.get h).hs

/-- A half's own CLAIM (R39, R40). -/
def State.ownClaim (s : State) (h : Half) : ClaimMsg :=
  let pos := h == .b
  let sel := s.pins.leaderSel.get h
  { dieId := s.fuses.dieId.get h, diePos := pos, leaderSel := sel, claim := sel == pos,
    round := BitVec.ofNat 2 (s.hs h).round }

/-- A round starts: the CLAIM is sent. -/
def State.sendClaim (s : State) (h : Half) (round : Nat) : State :=
  let s := s.updHs h fun x => { x with phase := .claim, round, peer := none, resolved := none }
  s.emit (.claim h (s.ownClaim h))

/-- A round has failed. -/
def State.roundFailed (s : State) (h : Half) : State :=
  s.updHs h fun x => { x with phase := .wait, failed := x.failed + 1 }

/-- The leader that two CLAIMs make (R40). -/
def leaderOf (own peer : ClaimMsg) : BitVec 32 :=
  if own.claim && !peer.claim then own.dieId
  else if peer.claim && !own.claim then peer.dieId
  else if own.dieId.toNat < peer.dieId.toNat then own.dieId else peer.dieId

/-- The result of a round that completes (Table 1.11). -/
def resultOf (own peer : ClaimMsg) : Nat := if own.claim != peer.claim then 1 else if own.claim then 2 else 3

/-- Boot Hold (R43, R346, R348): the record goes to the logbook from the shore die. -/
def State.bootHold (s : State) : State :=
  if s.phase = 9 then s
  else
    let s := (s.setFld topLeaderResult 4).setFld topLeaderRounds 3
    let s := s.enterPhase 9
    let s := s.logRecord { s.recordOf { code := cTopLeaderHsFail, cls := clsDf, unit := uDevice } false with logged := true }
    ((s.setFlag topDeviceDf true).setFlag fltErrPinCtrlDfLock true).assertErr

/-- A half leaves its handshake with the leader resolved (Table 1.12, R42, R44); when both have, the phase is IMAGE. -/
def State.handshakeDone (s : State) (h : Half) (peer : ClaimMsg) (leader : BitVec 32) : State :=
  let own := s.ownClaim h
  let lead := if leader = own.dieId then h else h.other
  let s := s.updHs h fun x => { x with phase := .done }
  let s := ((s.setFld topLeaderResult (resultOf own peer)).setFld topLeaderRounds (s.hs h).round).setFld topLeaderLeader lead.idx
  let s := if resultOf own peer ≠ 1 ∧ lead = h then s.say cRoleConflict clsCe uDevice else s
  if (s.hs h.other).phase = .done then s.enterPhase 2 else s

/-- CLAIM received by half `h`. -/
def execClaim (h : Half) (msg : ClaimMsg) (s : State) : Result :=
  .next (
    if (s.hs h).phase ≠ .claim ∨ !s.d2dOn h then s
    else if msg.dieId = (s.ownClaim h).dieId then s.roundFailed h
    else
      let s := s.updHs h fun x => { x with phase := .echo, peer := some msg }
      s.emit (.echo h msg (s.ownClaim h)))

/-- A round is in progress: the half is in HS_CLAIM, HS_ECHO or HS_CONFIRM. -/
def HsPhase.inRound : HsPhase → Bool
  | .claim | .echo | .confirm => true
  | _ => false

/-- ECHO received by half `h`: `returned` are its own CLAIM's fields. One that does not match, or that names the half's own
identity, fails the round in any of its states; a matching one moves HS_ECHO on. -/
def execEcho (h : Half) (returned own : ClaimMsg) (s : State) : Result :=
  .next (
    if !(s.hs h).phase.inRound || !s.d2dOn h then s
    else if returned ≠ s.ownClaim h ∨ own.dieId = (s.ownClaim h).dieId then s.roundFailed h
    else match (s.hs h).peer with
    | none => s
    | some peer =>
      if (s.hs h).phase ≠ .echo then s
      else
        let l := leaderOf (s.ownClaim h) peer
        let s := s.updHs h fun x => { x with phase := .confirm, resolved := some l }
        s.emit (.confirm h l))

/-- CONFIRM received by half `h`. One that differs fails the round in HS_CONFIRM, and in HS_ECHO as soon as the half knows both
CLAIMs; in HS_CLAIM the half has no identity to compare, and a CONFIRM that names neither half differs (log 100). -/
def execConfirm (h : Half) (leaderId : BitVec 32) (s : State) : Result :=
  .next (
    if !s.d2dOn h then s
    else match (s.hs h).phase, (s.hs h).peer, (s.hs h).resolved with
    | .claim, _, _ =>
      if leaderId = s.fuses.dieId.a ∨ leaderId = s.fuses.dieId.b then s else s.roundFailed h
    | .echo, some peer, _ => if leaderId = leaderOf (s.ownClaim h) peer then s else s.roundFailed h
    | .confirm, some peer, some l => if leaderId = l then s.handshakeDone h peer l else s.roundFailed h
    | _, _, _ => s)

/-- HANDSHAKE_TIMEOUT: 100 µs since the previous step (R41). -/
def execHandshakeTimeout (h : Half) (s : State) : Result :=
  .next (
    match (s.hs h).phase with
    | .claim | .echo | .confirm => s.roundFailed h
    | _ => s)

/-- HANDSHAKE_RETRY: 1 ms after a failed round (R41, R43). -/
def execHandshakeRetry (h : Half) (s : State) : Result :=
  .next (
    if (s.hs h).phase ≠ .wait then s
    else if (s.hs h).failed < 3 then s.sendClaim h ((s.hs h).round + 1)
    else (s.updHs h fun x => { x with phase := .bootHold }).bootHold)

/-- D2D_TRAIN_DONE: lanes found failing per module in either direction, and the credits of each end. A module that needs more
than four spare lanes fails training (R23). -/
def execD2dTrainDone (failingA failingB creditsA creditsB : List Nat) (s : State) : Result :=
  .next (
    if !(s.halves.a.coreRunning && s.halves.b.coreRunning) || s.halves.a.d2d.trained then s
    else if (padTo 8 0 failingA ++ padTo 8 0 failingB).any (· > 4) then s
    else
      let up := fun (s : State) (h : Half) (fs cs : List Nat) =>
        let s := s.updD2d h fun e => { e with trained := true, spares := padTo 8 0 fs, credits := padTo 4 0 cs }
        if (s.hs h).phase = .idle then s.sendClaim h 1 else s
      up (up s .a failingA creditsA) .b failingB creditsB)

/-- D2D_TRAIN_TIMEOUT: 2 ms after core release (Table 1.12). -/
def execD2dTrainTimeout (s : State) : Result :=
  .next (
    if !(s.halves.a.coreRunning && s.halves.b.coreRunning) || s.halves.a.d2d.trained then s
    else
      s.each [Half.a, Half.b] fun s h =>
        if (s.hs h).phase = .idle then (s.updHs h fun x => { x with round := 1 }).roundFailed h else s)

/-! ### Shore ports, local counters, SRAM and cores (R31, R34, R36 to R38) -/

/-- The traffic that a half's shore port carries: the leader's all of it, the follower's its own logbook, telemetry, sideband
and event words (R31; register accesses pass the leader's bridge, 19_register_map R409). -/
def State.shoreCarries (s : State) (h : Half) (k : ShoreKind) : Bool :=
  h == s.leader || (k != .management && k != .register)

/-- SHORE_PORT_WORD: a word with its parity bit; a bad one is sent again, three times at most. A word of traffic that the port
does not carry is not sent there (R31). -/
def execShorePortWord (h : Half) (toShore : Bool) (word : ShoreWord) (parity : Bool) (s : State) : Result :=
  let d := b2n toShore
  let n := nth 0 (s.halves.get h).shoreResend d
  let set := fun (s : State) (k : Nat) => s.updHalf h fun c => { c with shoreResend := setAt c.shoreResend d k }
  .next (
    if !s.shoreCarries h word.kind then s
    else if (ones 64 word.bits.toNat + b2n parity) % 2 = 0 then (set s 0).emit (.shore h toShore word false)
    else if n < 3 then (set s (n + 1)).emit (.shore h toShore word true)
    else (set s 0).raise { code := cTopShorePortFail, cls := clsUcf, unit := uHalf h.idx })

/-- A local counter that has drifted is compared with the master: more than 2 ns apart, it is reloaded (R34). -/
def State.alignHalf (s : State) (h : Half) (drift : Int) : State :=
  let set := fun (s : State) (c : Nat) =>
    { s with tide := match h with | .a => { s.tide with localA := c } | .b => { s.tide with localB := c } }
  let c := tideAdd (match h with | .a => s.tide.localA | .b => s.tide.localB) drift
  let off := signedOf 104 ((c + tideMod - s.tide.master % tideMod) % tideMod)
  if off.natAbs > 2 * tideNs then ((set s s.tide.master).setFlag tbEvtAlignErr true).say cTbAlignErr clsCe (uHalf h.idx) else set s c

/-- TB_ALIGN_CHECK: 1 ms has passed; the drifts are those of the local counters since the last comparison, in 2^-40 ns. -/
def execTbAlignCheck (driftA driftB : Int) (s : State) : Result := .next ((s.alignHalf .a driftA).alignHalf .b driftB)

/-- The management cores are released (17_boot Table 17.1 steps 4, 5; 15_faults R347). -/
def State.releaseCores (s : State) : State :=
  let s := ({ s with boot := { s.boot with running := true, filled := true } }).enterPhase 0
  let s := (s.setFlag tbCfgStepEn false).enterPhase 1
  if s.pins.errHeld then ({ s with pins := { s.pins with errHeld := false } }).assertErr else s

/-- SRAM_FILL_DONE: self-test and fill of a half are over; `failed` are the bank groups that fail and cannot be repaired. The
cores are released once both halves are filled, after power-up and at an exit from DEEP_SLEEP, where the handshake is not
repeated (R36; 16_power R362 steps 2, 3). -/
def execSramFillDone (h : Half) (failed : List (Fin 16)) (s : State) : Result :=
  .next (
    if s.power.railStep ≠ 5 ∨ (s.halves.get h).coreRunning ∨ s.fld pwrStatusDeviceState = 2 then s
    else
      let s := s.each failed fun s g => s.raise { code := cTopSramBistFail, cls := clsUcf, unit := uSram h.idx g }
      let s := s.updHalf h fun c => { c with coreRunning := true }
      if (s.halves.get h.other).coreRunning && !s.boot.running then s.releaseCores else s)

/-- A half's management core is lost: a UCF of the follower half, a DF of the leader's (R37, R38). -/
def State.coreLoss (s : State) (h : Half) : State :=
  if !(s.halves.get h).coreRunning || (s.halves.get h).coreLost then s
  else
    let s := s.updHalf h fun c => { c with coreLost := true }
    s.raise { code := cTopCoreLost, cls := if s.leader = h then clsDf else clsUcf, unit := uHalf h.idx }

def execTcmUncorrectable (h : Half) (s : State) : Result := .next (s.coreLoss h)
def execWatchdogExpiry (h : Half) (s : State) : Result := .next (s.coreLoss h)

end Sys2Proof.Machine
end

