-- ==== Sys2Proof/Machine/Qos.lean ====
section
/-! DEFINITION. Tide tables and queue telemetry: the meanings of their commands (09_qos R238 to R247; 10_latency R252). -/

namespace Sys2Proof.Machine

/-! ### Pending banks (R241) -/

/-- The scheduler is there: a KF-9624-S has no Strait schedulers (R245). -/
def State.schedOn (s : State) (i : Nat) : Bool := i < 24 || !s.isS

/-- A write to a pending bank: its length, or one of its entries; reserved bits are dropped (00_scope R17). -/
def State.pendWrite (s : State) (i : Nat) (reg : Option (Fin 64)) (v : Word) : State :=
  if !s.schedOn i ∨ s.flag (ttStatusTakeoverPending i) then s
  else
    let s := match reg with
      | none => s.setFld (ttPendLenLen i) (v.toNat % 128)
      | some k => s.setReg (ttPend i k) (BitVec.ofNat 64 (v.toNat % 2 ^ 33))
    let s := ((s.setFlag (ttStatusDirty i) true).setFld (ttStatusPendState i) 0).updSched i fun t => { t with checking := false }
    if i < 24 then s.g0Channel i else s

def execTtPendWrite (i : Fin 26) (reg : Option (Fin 64)) (value : Word) (s : State) : Result :=
  .next (s.write .plain false none fun s => if s.schedOn i then s.groupWrite 2 fun s => s.pendWrite i reg value else s)

/-- TT_CTRL.CHECK (R241). -/
def State.startCheck (s : State) (i : Nat) : State :=
  if !s.schedOn i ∨ s.fld (ttStatusPendState i) = 1 then s
  else (s.setFld (ttStatusPendState i) 1).updSched i fun t => { t with checking := true }

def execTtCheck (i : Fin 26) (s : State) : Result := .next (s.write .plain false none fun s => s.startCheck i)

/-- The check ends: PASSED with the oversize mask, or REFUSED with the first reason (R241, Table 9.4). -/
def State.endCheck (s : State) (i : Nat) : State :=
  if !(s.sched i).checking then s
  else
    let reason := s.ttCheck i
    let s := s.updSched i fun t => { t with checking := false }
    let s := (s.setFld (ttStatusReason i) reason).setFlag (ttEvtCheckDone i) true
    let s := if reason = 0 then
        (s.setFld (ttStatusPendState i) 2).setFld (ttStatusOversizeMask i) (s.oversizeMask i (s.ttPending i))
      else (s.setFld (ttStatusPendState i) 3).setFld (ttStatusOversizeMask i) 0
    if i < 24 then s.g0Channel i else s

def execTtCheckDone (i : Fin 26) (s : State) : Result := .next (s.endCheck i)

/-! ### Takeovers and gates (R239, R240, R242) -/

/-- The gates follow the entry that is open now; the time of the next edge (R240). -/
def State.gateNow (s : State) (i : Nat) : State :=
  let es := s.ttActive i
  let (k, left) := entryAt es (s.ttOffset i (s.schedNs i)) 0
  s.updSched i fun t => { t with entry := k, gate := (nth (0, 0x1FF) es k).2, nextAt := some (s.schedNs i + left) }

def execTtGateChange (i : Fin 26) (s : State) : Result := .next (if s.schedOn i then s.gateNow i else s)

/-- The pending bank becomes the active one (R242). Where PEND_PROFILE_OK is 0 the guarantee waits for the end of the first
cycle of the new list (10_latency R252). -/
def State.takeover (s : State) (i : Nat) : State :=
  if !s.flag (ttStatusTakeoverPending i) then s
  else
    let at_ := s.fld (ttTakeoverAtAtNs i)
    let es := s.ttPending i
    let prof := decide (i < 24) && s.flag (qosG0ChPendProfileOk i)
    let s := s.each (List.range 64) fun s k => s.setReg (ttAct i k) (s.reg (ttPend i k))
    let s := ((s.setFld (ttStatusActLen i) es.length).setFld (ttActCycleCycleNs i) (ttCycle es)).setFld (ttActStartStartNs i) at_
    let s := ((s.setFlag (ttStatusDirty i) false).setFlag (ttStatusTakeoverPending i) false).setFlag (ttEvtTakeoverDone i) true
    let s := s.updSched i fun t => { t with junction := if prof then 0 else at_ + ttCycle es }
    let s := (s.gateNow i).sealTally
    if i < 24 then s.g0Channel i else s

def execTtTakeover (i : Fin 26) (s : State) : Result := .next (s.takeover i)

/-! ### Telemetry (R246) -/

/-- The bin of a value whose bins double: bin 0 below `unit`, bin i below `unit` x 2^i, bin 15 for the rest. -/
def binOf (unit v : Nat) : Nat := ((List.range 15).find? (fun i => v < unit * 2 ^ i)).getD 15

/-- A bin of a histogram of 16 words counts one more, saturating; depth bins first. -/
def State.binUp (s : State) (lo hi : Nat → Fld) (bin : Nat) : State :=
  let f := if bin % 2 = 0 then lo (bin / 2) else hi (bin / 2)
  s.count f 1

/-- One queue is sampled: its depth and its delay. -/
def State.sampleQueue (s : State) (lo hi : Nat → Fld) (depth delay : Nat) : State :=
  (s.binUp lo hi (binOf 1 depth)).binUp lo hi (16 + binOf 16 delay)

/-- The age of the oldest of some times. -/
def State.age (s : State) (ts : List Nat) : Nat := ts.foldl (fun m t => max m (s.now - t)) 0

/-- A domain's queue is sampled. -/
def State.sampleDom (s : State) (d : Nat) : State :=
  let q := s.reqs.filter fun r => r.hasDom && r.dom == d && (r.stage == .queued || r.stage == .parked)
  let depth := q.length
  let delay := s.age (q.map (·.stamps.enqueue))
  let s := { s with telemLast := cellPut (0, 0) s.telemLast d (min depth 0xFFFF, min delay 0xFFFFFFFF) }
  s.sampleQueue (qosHistDomBinLo d) (qosHistDomBinHi d) depth delay

/-- The operations of a class on a channel are sampled; 8 is MC. -/
def State.sampleClass (s : State) (c k : Nat) : State :=
  let ch := s.chan c
  let reads := ((s.readQueue c).filter (fun r => r.cls == k)).map (·.stamps.mapped)
  let writes := (ch.wb.filter (fun w => w.cls == k)).map (·.since)
  let maint := if k = 8 then ch.backs.map (·.since) ++ (match ch.soft with | some r => r.lines.map (fun _ => r.since) | none => []) else []
  let ts := reads ++ writes ++ maint
  s.sampleQueue (qosHistChBinLo (9 * c + k)) (qosHistChBinHi (9 * c + k)) ts.length (s.age ts)

/-- A half samples its queues (R246). -/
def State.telemSample (s : State) (h : Half) : State :=
  if !s.flag qosTelemCfgEnable then s
  else
    let s := s.each ((List.range 1024).filter (fun d => s.home d == h)) fun s d => s.sampleDom d
    s.each (chansOf h) fun s c => s.each (List.range 9) fun s k => s.sampleClass c k

def execQosTelemSample (h : Half) (s : State) : Result := .next (s.telemSample h)

/-- Every bin is zeroed (R246). -/
def State.telemClear (s : State) : State :=
  let inDom := fun (k : Nat) => decide (qosHistDom 0 0 ≤ k ∧ k < qosHistDom 1024 0)
  let inChan := fun (k : Nat) => decide (qosHistCh 0 0 ≤ k ∧ k < qosHistCh 216 0)
  { s with regs := cellDrop (fun k => inDom k || inChan k) s.regs }

def execQosTelemClear (s : State) : Result := .next (s.write .plain false none State.telemClear)

end Sys2Proof.Machine
end

