-- ==== Sys2Proof/Machine/Prot.lean ====
section
/-! DEFINITION. Memory protection: counter fetches and rollovers, the recovery of lost subtrees, key commands, and IDE failures
(08_protection R206 to R224; 13_pairing R318). -/

namespace Sys2Proof.Machine

/-! ### Fetches (R214) -/

/-- The name of a node in the metadata cache. -/
def nodeName (d level idx : Nat) : McKey := if level = 0 then .ctr d idx else .node d level idx

/-- A node is trusted on die: the top two levels are pinned (Table 8.2). -/
def State.trusted (s : State) (h : Half) (d level idx : Nat) : Bool :=
  decide (level + 1 ≥ s.top d) || s.inCache h (nodeName d level idx) || (level == 0 && s.ctrOnDie d idx)

/-- Reads that waited for a page's counters go on: a near line is decrypted, the lines of a slot are read. -/
def State.ctrArrived (s : State) (d page : Nat) : State :=
  s.each (s.reqs.filter (fun (r : Req) => r.stage == .ctrWait && r.dom == d && r.line / 64 == page)) fun s r =>
    match r.slotLines with
    | l :: _ => s.finishNear r l
    | [] => s.setStage r.rid .dram

/-- A copy of a counter block or node as read: its content, unless it does not decode; and whether it is what its parent's tag names. A
counter block with a major counter of all ones never is (R208, R211). -/
inductive NodeRead where
  | sound | unread | wrong
  deriving DecidableEq, Repr

/-- One copy is read and checked against its trusted parent. -/
def State.readNode (s : State) (h : Half) (d level idx ma : Nat) (errs : List Burst) : NodeRead × List Burst × State :=
  let content : Line := BitVec.ofNat 512 (ofLeB (s.nodeBytes d level idx))
  let (r, rest, s) := s.deviceRead (encodeLine content false) h ma errs none false true
  let want := childTag (s.node d (level + 1) (idx / 8)) (idx % 8)
  let maxed := level == 0 && (leB 64 r.line.toNat).take 8 == List.replicate 8 255
  if r.outcome ≠ 1 ∧ r.outcome ≠ 3 then (.unread, rest, s)
  else if s.nodeTag d level idx (leB 64 r.line.toNat) ≠ want ∨ maxed then (.wrong, rest, s)
  else (.sound, rest, s)

/-- A counter block or node is read: of a summit node the other copy serves where the first is not sound, and the first is written anew
(R213; 03_domains R97). -/
def State.fetchNode (s : State) (h : Half) (d level idx : Nat) (errs : List Burst) : NodeRead × State :=
  match (s.metaPlaces (nodeName d level idx)).filter (fun ma => !s.mediaLost h (ma / 4)) with
  | [] => (.unread, s)
  | a :: others =>
    let (x, rest, s) := s.readNode h d level idx a errs
    match x, others with
    | .sound, _ | _, [] => (x, s)
    | _, b :: _ =>
      let (y, _, s) := s.readNode h d level idx b rest
      if y = .sound then
        let s := s.count mapErrCntMetaRepaired 1
        let s := s.note { code := cMapMetaRepaired, cls := clsCe, unit := uChannel (chanOf h (a / 4)), dom := some d, ma := some (recordMa h a) }
        (.sound, s.putFlip h a)
      else
        let s := (s.count mapErrCntMetaLost 1).note { code := cMapMetaLost, cls := clsUcr, unit := uChannel (chanOf h (a / 4)), dom := some d,
                                                      ma := some (recordMa h a) }
        (if x = .wrong ∨ y = .wrong then .wrong else .unread, s)

/-- The directory entry of an extent is on die and valid; where it is not, the extent's node fails its check (R213). -/
def State.areaKnown (s : State) (h : Half) (d e : Nat) (errs : List Burst) (victim : Nat) : Bool × List Burst × State :=
  let k : McKey := .dir d (e / 8)
  if s.inCache h k then ((s.area d e).isSome, errs, s.mcTouch h k)
  else
    let (ok, rest, s) := s.readMeta h k errs
    (ok && (s.area d e).isSome, rest, if ok then s.mcFill h k victim else s)

/-- A counter block or node is fetched and checked against its trusted parent (R208, R211, R213, R214). A child that is not present is
never fetched: its content is that of the first use. -/
def State.ctrFetch (s : State) (h : Half) (d level idx : Nat) (errs : List Burst) (victim : Nat) : State :=
  let k := nodeName d level idx
  let enter := fun (s : State) => let s := s.mcFill h k victim; if level = 0 then s.ctrArrived d idx else s
  if s.eff (domPolicyProt d) ≠ 2 ∨ s.home d ≠ h ∨ level + 1 ≥ s.top d ∨ !s.trusted h d (level + 1) (idx / 8) then s
  else if s.trusted h d level idx then enter s
  else
    let (ok, errs, s) := if level ≤ 3 then s.areaKnown h d (idx * 8 ^ level / 512) errs victim else (true, errs, s)
    if !ok then s.nodeLost d 3 (idx * 8 ^ level / 512) true
    else if childTag (s.node d (level + 1) (idx / 8)) (idx % 8) = 0 then enter s
    else
      let unit := (s.area d (idx * 8 ^ level / 512)).getD 0
      let s := if level ≥ 1 then s.pulse h bProt (chanOf h unit % 12 / 2) 3 (some d) else s
      let (x, s) := s.fetchNode h d level idx errs
      match x with
      | .sound => enter s
      | .unread => s.nodeLost d level idx false
      | .wrong => s.nodeLost d level idx true

def execCounterFetchDone (h : Half) (d : Fin 1024) (level idx : Nat) (errs : List Burst) (victim : Nat) (s : State) : Result :=
  .next (s.ctrFetch h d level idx errs victim)

/-- A rollover may start for a buffered write: its counters are on die, its page has no older write in the buffer, its line no older read, and the first of its line
operations may start at the write's class (R206; log 148). -/
def State.rollMay (s : State) (c : Nat) (w : WbEntry) : Bool :=
  let older := s.reqs.any (fun (r : Req) => w.after.contains r.rid && r.readsLine w.dom w.line)
    || ((s.chan c).wb.takeWhile (· != w)).any (fun x => x.dom == w.dom && x.line / 64 == w.line / 64 && x.slot.isNone)
  s.ctrReady w.dom w.line && s.serves c && !older
    && (if w.cls = 8 then s.maintFits c (occRead10 (s.chanRate c)) else !s.selfRefresh && s.gateOpen c w.cls && s.fits c w.cls (occRead10 (s.chanRate c)))

/-- A rollover of a page: the oldest buffered write that needs it drains with it (R206, R208). -/
def State.doRollover (s : State) (h : Half) (d page : Nat) (errs : List Burst) : State :=
  if s.home d ≠ h ∨ s.locked d page then s
  else
    let pg := s.pageNow d page
    let c := chanOf h pg.addr
    match (s.chan c).wb.find? (fun w => w.dom == d && w.line / 64 == page && w.slot.isNone) with
    | some w => if s.atRollover d w.line && s.rollMay c w then s.startWrite c w errs else s
    | none => s

def execCounterRollover (h : Half) (d : Fin 1024) (page : Nat) (errs : List Burst) (s : State) : Result :=
  .next (s.doRollover h d page errs)

/-! ### Local rebuild, page rebuild, install (R218) -/

/-- The channel on which the nodes at and below a node stand first: recovery works there in the maintenance class (R218). -/
def State.treeMay (s : State) (h : Half) (d level idx : Nat) : Bool :=
  match s.area d (idx * 8 ^ level / 512) with
  | some b => s.maintFits (chanOf h b) (occRead10 (s.chanRate (chanOf h b)))
  | none => true

/-- The tag of a child as a local rebuild computes it: of the trusted one where it is on die, else of the child as read. -/
def State.childRead (s : State) (h : Half) (d level idx : Nat) (errs : List Burst) : Option Nat × List Burst × State :=
  let content : Line := BitVec.ofNat 512 (ofLeB (s.nodeBytes d level idx))
  if s.trusted h d level idx then (some (s.nodeTag d level idx (s.nodeBytes d level idx)), errs, s)
  else match (s.metaPlaces (nodeName d level idx)).filter (fun ma => !s.mediaLost h (ma / 4)) with
    | [] => (none, errs, s)
    | a :: _ =>
      let (r, rest, s) := s.deviceRead (encodeLine content false) h a errs none false true
      (if r.outcome = 1 ∨ r.outcome = 3 then some (s.nodeTag d level idx (leB 64 r.line.toNat)) else none, rest, s)

/-- A summit node is taken from its copies; a lower node has none (R218 step 1). -/
def State.summitCopy (s : State) (h : Half) (d level idx : Nat) (errs : List Burst) : NodeRead × State :=
  if level ≥ 4 then s.fetchNode h d level idx errs else (.unread, s)

/-- The tags of the eight children of a node, as a local rebuild computes them; none is read where `sound` says that the node is, and an
absent child has none. -/
def State.childTags (s : State) (h : Half) (d level idx : Nat) (sound : Bool) (errs : List Burst) :
    List (Option Nat) × List Burst × State :=
  (List.range 8).foldl (fun (acc : List (Option Nat) × List Burst × State) c =>
    if sound || childTag (acc.2.2.node d level idx) c == 0 then (acc.1 ++ [some 0], acc.2.1, acc.2.2)
    else
      let (k, rest, s) := acc.2.2.childRead h d (level - 1) (idx * 8 + c) acc.2.1
      (acc.1 ++ [k], rest, s)) ([], errs, s)

/-- A lost node is assembled from the tags of its children and checked against its parent, or the root; a summit node is first taken
from its copies (R218 step 1). -/
def State.localRebuild (s : State) (h : Half) (d level idx : Nat) (errs : List Burst) : State :=
  match s.subtree d level idx with
  | some f =>
    if f.phase ≠ 0 ∨ s.home d ≠ h ∨ level = 0 ∨ !s.treeMay h d level idx then s
    else
      let (copy, s) := s.summitCopy h d level idx errs
      let (kids, _, s) := s.childTags h d level idx (copy == .sound) errs
      let built := kids.foldr (fun k acc => leB 8 (k.getD 0) ++ acc) ([] : Bytes)
      let want := if level ≥ s.top d then (s.prot_ d).root.toNat else childTag (s.node d (level + 1) (idx / 8)) (idx % 8)
      if copy = .sound ∨ (kids.all Option.isSome && s.nodeTag d level idx built == want) then
        let c := chanOf h ((s.area d (idx * 8 ^ level / 512)).getD 0)
        let s := s.updProt d fun p => { p with fences := p.fences.filter (fun x => !(x.level == level && x.idx == idx)) }
        let s := (s.count protErrCntTreeRebuilt 1).note { code := cProtTreeRebuilt, cls := clsCe, unit := uCryptoOf c, dom := some d }
        s.mcFill h (nodeName d level idx) 0
      else s.fenceSubtree d level idx
  | none => s

def execTreeLocalRebuild (h : Half) (d : Fin 1024) (level idx : Nat) (errs : List Burst) (s : State) : Result :=
  .next (s.localRebuild h d level idx errs)

/-- A page of a fenced subtree is rebuilt: a new counter block, and each line as the partner supplied it, or poisoned (R218
step 4). Answers whether the page found media. -/
def State.rebuildPage (s : State) (d : Nat) (f : Subtree) (page : Nat) (supply : Option (Nat → Line × Bool)) : State × Bool :=
  let h := s.home d
  let pg := s.pageNow d page
  let s := s.putCtr d page { major := f.major, minors := 0 }
  let good := match supply with | some g => ((List.range 64).filter (fun i => !(g i).2)).length | none => 0
  let s := s.updSubtree d f.level f.idx fun x => { x with
    done := page :: x.done, repaired := x.repaired + good, poisoned := x.poisoned + (64 - good) }
  let put := fun (s : State) (unit : Nat) =>
    s.each (List.range 64) fun s i =>
      let v := match supply with | some g => g i | none => (0, true)
      s.sealNear h d (page * 64 + i) (unit * 4 + i) v.1 v.2
  let lose := fun (s : State) =>
    ((((s.release h d page 1 [] [(pg.addr, pg.cls)] false).setPage d page { s.page d page with state := .lost, cls := 0, addr := 0 }).savePage d page).listPages
      d page 1 false).settle d
  let (s, ok) : State × Bool := match pg.state with
    | .near => ((put s pg.addr).count protEvtCntRepairedLines good, true)
    | .shingle =>
      if supply.isNone then (lose s, true)
      else match s.alloc h 16 16 (.frame d page) 0 none with
        | none => (lose s, false)
        | some (a, s) =>
          let s := ((s.release h d page 1 [] [(pg.addr, pg.cls)] false).setPage d page { pg with state := .near, addr := a, cls := 0 }).savePage d page
          ((((put s a).warm d page).count protEvtCntRepairedLines good).settle d, true)
    | _ => (s, true)
  (s.wakeStage5 d page, ok)

/-- SUBTREE_REBUILD: a page that no partner supplied. -/
def State.rebuildAlone (s : State) (h : Half) (d level idx page : Nat) : State :=
  match s.subtree d level idx with
  | some f =>
    if f.phase = 0 ∨ s.home d ≠ h ∨ !f.covers page ∨ f.done.contains page ∨ s.locked d page ∨ !s.treeMay h d 0 page then s
    else (s.rebuildPage d f page none).1
  | none => s

def execSubtreeRebuild (h : Half) (d : Fin 1024) (level idx page : Nat) (s : State) : Result :=
  .next (s.rebuildAlone h d level idx page)

/-- The subtree's nodes are built and its tag goes into the parent, where every page with content is rebuilt (R218 step 5). The counts
of R218 go to the fabric manager: the record of the fence has no room for them (15_faults Table 15.5; log 153). -/
def State.subtreeInstall (s : State) (h : Half) (d level idx : Nat) : State :=
  match s.subtree d level idx with
  | some f =>
    let left := (s.pagesOf d).any (fun q => f.covers q.1 && q.2.state != .zero && !f.done.contains q.1)
      || (s.extsOf d).any (fun q => q.2.kind == .frame && (List.range 512).any (fun i => f.covers (q.1 * 512 + i) && !f.done.contains (q.1 * 512 + i)))
    if f.phase = 0 ∨ s.home d ≠ h ∨ left ∨ !s.treeMay h d level idx then s
    else
      let old := ((s.ctrs.map (·.1)).filter (fun k => k / 2 ^ 36 == d && f.covers (k % 2 ^ 36) && !f.done.contains (k % 2 ^ 36))).map (· % 2 ^ 36)
      let s := s.each old fun s p => s.putCtr d p { major := f.major, minors := 0 }
      let s := s.updProt d fun p => { p with
        fences := p.fences.filter (fun x => !(x.level == level && x.idx == idx)), highMajor := max p.highMajor f.major }
      ((s.saveMeta h (nodeName d level idx)).fenceTally h).toFm "PROT_SUBTREE_FENCED" [d, level, idx, f.repaired, f.poisoned, f.discarded]
  | none => s

def execSubtreeInstall (h : Half) (d : Fin 1024) (level idx : Nat) (s : State) : Result := .next (s.subtreeInstall h d level idx)

/-- A root fails its parity check: it is recomputed from the top node, whose loss (a pattern that does not decode) fences the
whole tree (R219). -/
def State.rootParity (s : State) (d : Nat) (errs : List Burst) : State :=
  let top := s.top d
  if top = 0 then s
  else
    let c := chanOf (s.home d) ((s.area d 0).getD 0)
    let s := s.note { code := cProtRootParity, cls := clsCe, unit := uCryptoOf c, dom := some d }
    let r := decodeBurst (encodeLine (s.node d top 0) false ^^^ errs.headD 0)
    if r.outcome = 1 ∨ r.outcome = 3 then
      s.updProt d fun p => { p with root := BitVec.ofNat 64 (s.nodeTag d top 0 (s.nodeBytes d top 0)) }
    else s.fenceSubtree d top 0

def execRootParityFail (d : Fin 1024) (errs : List Burst) (s : State) : Result := .next (s.rootParity d errs)

/-! ### Key slots (R219 to R222) -/

/-- A key slot is in use (R222). -/
def State.slotInUse (s : State) (slot : Nat) : Bool :=
  if slot < 1024 then (List.range 1024).any fun d => s.domOn d && s.eff (domPolicyKeySlot d) == slot
  else
    let i := slot - 1024
    let l := i / 4
    let set := i % 2
    if i / 2 % 2 = 0 then s.fld (twStatusKeySetTx l) == set
    else s.fld (twStatusKeySetRx l) == set || (s.strait.get (halfOf l)).oldSet == some set

/-- A field of a blob: `n` bytes at `a`, little-endian. -/
def blobNum (b : List Byte) (a n : Nat) : Nat := leNat ((b.drop a).take n)
/-- Bytes of a blob. -/
def blobBytes (b : List Byte) (a n : Nat) : Bytes := ofByteList ((b.drop a).take n)

/-- The 64 bytes that a blob wraps, where its tag verifies (R221). -/
def State.unwrap (s : State) (b : List Byte) : Option Bytes :=
  let x := ofBeB (blobBytes b 16 48)
  let y := ofBeB (blobBytes b 64 48)
  if !p384On x y then none
  else match p384Scale s.fuses.devKey (some (x, y)) with
    | none => none
    | some (z, _) =>
      let tail : Bytes := [0x4B, 0x46, 0x2D, 0x4B, 0x45, 0x4B]
      let kek := (ofByteList (sha384 (toByteList (beB 48 z ++ tail ++ blobBytes b 0 16)))).take 32
      let iv := blobBytes b 112 12
      let wrapped := blobBytes b 124 64
      if gcmTag kek iv (blobBytes b 0 112) wrapped = blobBytes b 188 16 then some (gcmText kek iv wrapped) else none

/-- The result of a load and the key it gives: the first code of Table 8.6 that applies (R222). -/
def State.loadResult (s : State) (slot : Nat) (b : List Byte) : Nat × Bytes :=
  let typ := blobNum b 4 1
  let bslot := blobNum b 2 2
  let zeros := fun (k : Bytes) (a : Nat) => (k.drop a).all (· == 0)
  if blobNum b 0 2 ≠ 1 ∨ bslot ≥ 2048 ∨ blobNum b 5 3 ≠ 0 ∨ blobNum b 204 52 ≠ 0 then (1, [])
  else if typ > 3 ∨ bslot > 1031 ∨ bslot ≠ slot ∨ (typ < 3 ∧ bslot ≥ 1024) ∨ (typ = 3 ∧ bslot < 1024) then (2, [])
  else match s.unwrap b with
    | none => (3, [])
    | some k =>
      if (typ = 0 ∧ !zeros k 16) ∨ (typ = 3 ∧ !zeros k 32) ∨ (typ = 1 ∧ k.take 32 = k.drop 32) then (4, [])
      else if (cellGet ({} : KeySlot) s.keys slot).loaded && s.slotInUse slot then (5, [])
      else if blobNum b 8 8 < (cellGet ({} : KeySlot) s.keys slot).version then (6, []) else (0, k)

/-- A key command ends with a result (PROT_KEY_RESULT). -/
def State.keyResult (s : State) (code slot : Nat) : State :=
  (((s.setFld protKeyResultResult code).setFld protKeyResultSlot slot).setFlag protKeyResultDone true).setFlag protKeyResultBusy false

/-- A LOAD is taken with the blob as it stands in PROT_WRAP; a command is ignored while one runs (R220, R222). -/
def State.keyLoad (s : State) (slot : Nat) : State :=
  if s.flag protKeyResultBusy then s
  else
    let blob := (List.range 32).flatMap fun i => leBytes 8 (cellGet (0 : Word) s.wrap i).toNat
    { s.setFlag protKeyResultBusy true with keyCmd := some { op := 1, slot := slot % 2048, blob } }

def execKeyLoad (slot : Nat) (s : State) : Result := .next (s.write .plain false none fun s => s.keyLoad slot)

/-- The load ends (Tables 8.6, 8.7). -/
def State.keyLoadDone (s : State) : State :=
  match s.keyCmd with
  | none => s
  | some k =>
    let (code, key) := s.loadResult k.slot k.blob
    let s : State := { s with keyCmd := none }
    let s := if code = 3 then s.say cProtUnwrapFail clsCe uDevice else s
    let s := if code ≠ 0 then s else
      let version := blobNum k.blob 8 8
      let typ := blobNum k.blob 4 1
      let s := { s with keys := cellPut ({} : KeySlot) s.keys k.slot { key := BitVec.ofNat 512 (ofLeB key), loaded := true, typ, version } }
      ((s.setFlag (protKeyStateLoaded k.slot) true).setFld (protKeyStateType k.slot) typ).setFld (protKeyStateVersion k.slot) version
    s.keyResult code k.slot

/-- In TRAIN the next blob of KEYS is loaded into the slot that it names (17_boot R389). -/
def State.nextBlob (s : State) : State :=
  match s.boot.blobs with
  | [] => s
  | b :: bs =>
    { s.setFlag protKeyResultBusy true with
      boot := { s.boot with blobs := bs }, keyCmd := some { op := 1, slot := blobNum b 2 2 % 2048, blob := b } }

/-- KEY_LOAD_DONE; in TRAIN a refused blob is recorded, and the next one starts. -/
def State.keyDone (s : State) : State :=
  if s.keyCmd.isNone then s
  else
    let boot := s.phase == 4
    let s := s.keyLoadDone
    if !boot then s
    else (if s.fld protKeyResultResult = 0 then s else s.say cBootKeyRefused clsCe uDevice).nextBlob

def execKeyLoadDone (s : State) : Result := .next s.keyDone

/-- An ERASE overwrites a key that is not in use (Table 8.7); the version last loaded stays known. -/
def State.keyEraseCmd (s : State) (slot : Nat) : State :=
  if s.flag protKeyResultBusy then s
  else if slot > 1031 then s.keyResult 2 (slot % 2048)
  else if s.slotInUse slot then s.keyResult 5 slot
  else
    let old := cellGet ({} : KeySlot) s.keys slot
    let s := { s with keys := cellPut ({} : KeySlot) s.keys slot { version := old.version } }
    ((s.setFlag (protKeyStateLoaded slot) false).setFld (protKeyStateType slot) 0).keyResult 0 slot

def execKeyErase (slot : Nat) (s : State) : Result := .next (s.write .plain false none fun s => s.keyEraseCmd slot)

/-! ### IDE (R224) -/

/-- An integrity check of a stream fails: in skid mode the reads of the epoch complete poisoned and its writes, `stored` those
complete already, are stored with the poison mark; the port loses its link. -/
def State.ideFail (s : State) (p : Nat) (mem : Bool) (epoch : List (Fin 65536)) (stored : List (Fin 1024 × Nat)) : State :=
  let s := s.alarm 4 (uPort p) none none p 0
  let s := if !(mem && (s.port p).ideSkid) then s
    else
      let s := s.each epoch fun s i =>
        match s.req i with
        | some r =>
          if r.port != some p then s
          else if r.isRead then (if r.stage = .respond then s else s.answerRead r.rid 0 true)
          else if r.isWrite then s.updReq r.rid fun q => { q with poison := true } else s
        | none => s
      s.each stored fun s w => s.poisonAt w.1 w.2
  let s := s.updPort p fun q => { q with ideState := q.ideState.set (if mem then 1 else 0) 2 }
  s.linkLost p

def execIdeIntegrityFail (p : Fin 16) (mem : Bool) (epoch : List (Fin 65536)) (stored : List (Fin 1024 × Nat)) (s : State) : Result :=
  .next (s.ideFail p mem epoch stored)

/-! ### Exit from DEEP_SLEEP (R215; 16_power R362) -/

/-- The 64 bytes of a node whose tags of some children are computed anew. -/
def State.nodeWith (s : State) (d level idx : Nat) (tags : List (Nat × Nat)) : Bytes :=
  (List.range 8).flatMap fun c =>
    leB 8 (((tags.find? (fun q => q.1 == idx * 8 + c)).map (·.2)).getD (childTag (s.node d level idx) c))

/-- The root of a P2 domain as the exit rebuilds it, through the level directly below the top, from the nodes one level lower
(R215). `errs` are the errors with which some of these are read; none where one of them does not decode. -/
def State.rebuiltRoot (s : State) (d : Nat) (errs : List (Nat × Burst)) : Option Nat :=
  let top := s.top d
  let low := top - 2
  let used := errs.filter fun q => childTag (s.node d (low + 1) (q.1 / 8)) (q.1 % 8) != 0
  let kids := used.map fun q =>
    let content : Line := BitVec.ofNat 512 (ofLeB (s.nodeBytes d low q.1))
    let r := decodeBurst (encodeLine content false ^^^ q.2)
    if r.outcome = 1 ∨ r.outcome = 3 then some (q.1, s.nodeTag d low q.1 (leB 64 r.line.toNat)) else none
  if !kids.all Option.isSome then none
  else
    let low' := kids.filterMap id
    let mid := ((low'.map (·.1 / 8)).eraseDups).map fun n => (n, s.nodeTag d (top - 1) n (s.nodeWith d (top - 1) n low'))
    some (s.nodeTag d top 0 (s.nodeWith d top 0 mid))

/-- A P2 domain is checked against its retained root: with a mismatch the alarm is raised, and its whole tree is fenced
(R215). With no error the nodes in DRAM are the trusted ones, and the domain matches. -/
def State.retentionCheck (s : State) (d : Nat) (errs : List (Nat × Burst)) : State :=
  if s.top d = 0 ∨ s.rebuiltRoot d errs = some (s.prot_ d).root.toNat then s
  else (s.alarm 3 (uHalf (s.home d).idx) (some d) none 0 0).fenceSubtree d (s.top d) 0

/-- Exit from DEEP_SLEEP completes once the SRAM is filled, the die-to-die link has trained and the cores are released (R362): bad banks are discarded, the configuration is restored or the device enters DF,
refresh debt starts at 0, each P2 domain is checked against its root (R215), and the slot is acted on (R363). -/
def State.exitDone (s : State) (bad : List (Fin 32)) (saveOk : Bool) (treeErrs : List (Fin 1024 × Nat × Burst)) : State :=
  let ready := fun (c : HalfCore) => c.coreRunning && c.d2d.trained
  if s.fld pwrStatusDeviceState ≠ 3 ∨ !(ready s.halves.a && ready s.halves.b) then s
  else
    let kept := fun (b : Nat) => bitAt (if b < 16 then s.fld pwrCfgRetMaskA else s.fld pwrCfgRetMaskB) (b % 16) && b % 16 < 10
    let good := fun (b : Nat) => kept b && !(bad.any (fun x => x.val == b))
    let s := s.each (bad.filter (fun x => kept x.val)) fun s b =>
      (s.say cPwrRetentionDiscard clsCe (uSram (b.val / 16) (b.val % 16))).setFlag pwrEvtRetDiscard true
    let s := s.each [Half.a, Half.b] fun s h =>
      let lives := fun (first n sets hash : Nat) => good (16 * h.idx + s.groupOfSet h first n sets 16 hash)
      { s with
        mcache := s.mcache.upd h (fun c => c.filter fun l => lives 0 8 4096 l.key.hash)
        shg := s.shg.upd h (fun t => { t with cache := t.cache.filter fun c => lives 8 2 256 c.hash }) }
    let s : State := { s with power := { s.power with saved := false } }
    if !saveOk then s.raise { code := cPwrSaveLost, cls := clsDf, unit := uDevice }
    else
      let s := s.bucketsFull
      let s : State := { s with channels := s.channels.map (fun (c : Channel) => ({ c with debt := 0 } : Channel)) }
      let s : State := { s with tide := { s.tide with localA := s.tide.master, localB := s.tide.master } }
      let s := s.each ((treeErrs.map (·.1)).eraseDups) fun s d =>
        s.retentionCheck d.val ((treeErrs.filter (fun q => q.1 == d)).map (·.2))
      let s := s.setFld pwrStatusDeviceState 0
      let req := s.fld pwrStatusSlot
      let s := s.clearSlot
      if req = 2 ∨ req = 3 then
        let r := s.powerReason (!s.commits.isEmpty) false
        if r = 0 then s.startEntry (req = 3) else s.emit (.reply "MCTP_POWER" [r])
      else s

def execDeepSleepExitDone (bad : List (Fin 32)) (saveOk : Bool) (treeErrs : List (Fin 1024 × Nat × Burst)) (s : State) : Result :=
  .next (s.exitDone bad saveOk treeErrs)

/-! ### SRAM (05_dram R155; 15_faults Table 15.6) -/

/-- One uncorrectable word of a bank group: four within a second fail the group. -/
def State.sramUe (s : State) (h : Half) (g : Nat) : State :=
  let s := s.note { code := cTopSramUe, cls := clsUcr, unit := uSram h.idx g }
  let recent := ((s.halves.get h).ueTimes).filter (fun q => decide (s.now < q.2 + 1000000000))
  let s := s.updHalf h fun c => { c with ueTimes := (g, s.now) :: recent }
  if (recent.filter (fun q => q.1 == g)).length ≥ 3 then s.raise { code := cTopSramGroupFail, cls := clsUcf, unit := uSram h.idx g } else s

/-- The lines of the metadata cache and the pinned nodes that a set of a bank group holds, in the order of its ways (log 149). -/
def State.setLines (s : State) (h : Half) (g set : Nat) : List McLine :=
  let there := fun (k : McKey) => s.groupOfSet h 0 8 4096 16 k.hash == g && k.hash % 4096 == set
  let pins : List McLine := ((s.homed h).flatMap fun d => (s.pinnedNodes d).map fun q => McKey.node d q.1 q.2).map fun k => { key := k, used := true, dirty := true }
  ((s.mcache.get h).filter (fun l => there l.key)) ++ pins.filter (fun l => there l.key)

/-- A line of the metadata cache cannot be read: a counter block or a node is lost (08_protection R218); of other lines the copies in
DRAM serve, unless the line differed from them: then what it held is lost (03_domains R97; log 149). -/
def State.loseCached (s : State) (h : Half) (l : McLine) : State :=
  let s := { s with mcache := s.mcache.upd h (fun c => c.filter (fun x => x.key != l.key)) }
  match l.key with
  | .ctr d page => s.nodeLost d 0 page false
  | .node d level idx => s.nodeLost d level idx false
  | .tags d line => if !l.dirty then s else s.each (List.range 8) fun s i => s.poisonAt d (line * 8 + i)
  | .hdr _ _ => s
  | k => if l.dirty then s.metaLost k (List.range k.entries) else s

/-- The block that owns an uncorrectable word reacts to it (05_dram R155, 01_architecture Table 1.8): `w` is the word's number in its
bank group, of 524,288 (log 149). Groups 12 and 15 hold no entry that a number names. -/
def State.sramWord (s : State) (h : Half) (g w : Nat) : State :=
  if g < 8 then
    match (s.setLines h g (w / 128))[w / 8 % 16]? with
    | some l => s.loseCached h l
    | none => s
  else if g < 10 then
    let set := ((s.shg.get h).cache.filter fun c => s.groupOfSet h 8 2 256 16 c.hash == g && c.hash % 256 == w / 2048)
    match set[w / 128 % 16]? with
    | some c => { s with shg := s.shg.upd h (fun (x : Shg) => { x with cache := x.cache.filter (· != c) }) }
    | none => s
  else if g < 12 then
    match s.req ((g - 10) * 16384 + w / 32 + 32768 * h.idx) with
    | some r => if r.stage = .respond ∨ r.stage = .crossBack then s.updReq r.rid fun q => { q with rdata := 0, rpoison := q.isRead }
                else s.failReq r.rid (uSram h.idx g)
    | none => s
  else if g = 13 ∨ g = 14 then
    let set := s.snoop.filter fun e => e.half == h && !e.evicting && s.groupOfSet h 13 2 16384 16 (e.dom + e.line) == g
      && (e.dom + e.line) % 16384 == w / 32
    match set[w / 2 % 16]? with
    | some e => (s.invalidate e.dom e.line (s.ownerHosts e.dom) false true).sfTally h
    | none => s
  else s

/-- The scrubber of a bank ends a lap (R155): words corrected, the numbers of its uncorrectable words, and the lap's time in µs. The
half reports the longest last lap of its banks, 16 to a bank group. -/
def State.scrubLap (s : State) (h : Half) (bank corrected : Nat) (bad : List Nat) (lapUs : Nat) : State :=
  let i := h.idx
  let s := s.updHalf h fun c => { c with laps := (bank, min lapUs 0xFFFFFFFF) :: c.laps.filter (fun q => q.1 != bank) }
  let longest := ((s.halves.get h).laps).foldl (fun m q => max m q.2) 0
  let s := (s.count (dmcSramScrubSecCnt i) corrected).setFld (dmcSramScrubLapUs i) longest
  let s := s.each bad fun s w => (s.sramWord h (bank / 16) (bank % 16 * 32768 + w % 32768)).sramUe h (bank / 16)
  if longest > s.fld dmcSramScrubCfgLapLimitUs then
    (s.setFlag (dmcSramScrubSlow i) true).toFm "DMC_SRAM_SCRUB_SLOW" [i, longest]
  else s

def execSramScrubLap (h : Half) (group : Fin 256) (corrected : Nat) (uncorrectable : List Nat) (lapUs : Nat) (s : State) : Result :=
  .next (s.scrubLap h group corrected uncorrectable lapUs)

end Sys2Proof.Machine
end

