-- ==== Sys2Proof/Machine/Shingle.lean ====
section
/-! DEFINITION. The shingle tier: static sets, compression, chunk decodes and promotions (06_shingle R156 to R184). -/

namespace Sys2Proof.Machine

/-! ### The cold threshold (07_tiering R189) -/

/-- C of a domain at its half's capacity level. -/
def State.coldNow (s : State) (d : Nat) : Nat :=
  let cold := s.fld (tierDomColdThresh d)
  let hot := s.fld (tierDomHotThresh d)
  match s.fld (tierStatusLevel (s.home d).idx) with
  | 0 => cold
  | 1 => min (cold + s.fld tierCfgLowColdAdd) (hot - 1)
  | _ => hot - 1

/-! ### Static sets (R168 to R171) -/

/-- The partner is told the sets and their fingerprints over a link that is up (13_pairing R317). -/
def State.sendFp (s : State) (l : Half) : State :=
  if !s.straitUp l.idx then s
  else
    let active := (List.range 8).foldl (fun m i => if s.setActive i then m + 2 ^ i else m) 0
    s.send l 0 0 0 (.setFp active ((List.range 8).map fun i => s.fld (shgSetStateFp i)))

/-- A set operation ends (SHG_SET_RESULT). -/
def State.setResult (s : State) (set code : Nat) : State :=
  ((s.setFld shgSetResultResult code).setFld shgSetResultSet set).setFlag shgSetResultDone true

/-- ACTIVATE (R169). -/
def State.setActivate (s : State) (set : Nat) : State :=
  if set = 0 then s.setResult set 1
  else if s.setActive set then s.setResult set 2
  else
    let code := checkLens (s.setLens set)
    if code ≠ 0 then s.setResult set code
    else
      let s := (s.setFld (shgSetStateState set) 1).setFld (shgSetStateFp set) (fingerprint (s.setLens set))
      ((s.setResult set 0).sendFp .a).sendFp .b

def execSetActivate (set : Fin 8) (s : State) : Result := .next (s.write .plain false none fun s => s.setActivate set)

/-- CLEAR (R169). -/
def State.setClear (s : State) (set : Nat) : State :=
  if set = 0 then s.setResult set 1
  else if !s.setActive set then s.setResult set 0
  else if s.fld (shgSetUseUseA set) + s.fld (shgSetUseUseB set) ≠ 0 then s.setResult set 3
  else
    let s := (s.setFld (shgSetStateState set) 0).setFld (shgSetStateFp set) 0
    ((s.setResult set 0).sendFp .a).sendFp .b

def execSetClear (set : Fin 8) (s : State) : Result := .next (s.write .plain false none fun s => s.setClear set)

/-- SHG_HIST_CTRL.CLEAR. -/
def State.histClear (s : State) : State := s.each (List.range 153) fun s i => s.setReg (shgHist i) 0

def execHistClear (s : State) : Result := .next (s.write .plain false none State.histClear)

/-! ### Clusters that fail (R172, R173, Table 6.12) -/

/-- A cluster errs: the third time within a second it is fenced. -/
def State.clusterErr (s : State) (h : Half) (u code : Nat) : State :=
  let recent := ((s.shg.get h).faults).filter (fun q => decide (s.now < q.2 + 1000000000))
  let s := { s with shg := s.shg.upd h (fun (g : Shg) => { g with faults := (u, s.now) :: recent }) }
  if (recent.filter (fun q => q.1 == u)).length ≥ 2 then s.raise { code, cls := clsUcf, unit := u } else s

/-! ### Compression (R170, R175, R176, R182) -/

/-- A line as a read ordered now would find it: from the channel's write buffer, merged where its entries are partial, and else from DRAM
(04_request R107). -/
def State.currentLine (s : State) (h : Half) (d line ma : Nat) (errs : List Burst) : (Line × Bool) × List Burst × State :=
  let ws := (s.chan (chanOf h (ma / 4))).wb.filter (fun w => w.ma == ma && w.dom == d && w.line == line && w.slot.isNone)
  let merge := fun (x : Line × Bool) (w : WbEntry) =>
    if w.enables = allBytes then (w.data, w.poison) else (mergeLine w.enables w.data x.1, x.2 || w.poison)
  if ws.any (fun w => w.enables == allBytes) then (ws.foldl merge (0, false), errs, s)
  else
    let (l, bad, rest, s) := s.fetchNear h d line ma errs
    (ws.foldl merge (l, bad), rest, s)

/-- The 64 lines of a NEAR page as they stand, the patterns left, and what the reads recorded. -/
def State.readPageLines (s : State) (h : Half) (d page unit : Nat) (errs : List Burst) : List (Line × Bool) × List Burst × State :=
  (List.range 64).foldl (fun (acc : List (Line × Bool) × List Burst × State) i =>
    let (x, rest, s) := acc.2.2.currentLine h d (page * 64 + i) (unit * 4 + i) acc.2.1
    (acc.1 ++ [x], rest, s)) (([], errs, s) : List (Line × Bool) × List Burst × State)

/-- A write to a page has passed stage 5 and has no write-buffer entry yet: what would be read of the page is not current. -/
def State.writesAhead (s : State) (d p : Nat) : Bool :=
  s.reqs.any fun r => r.hasDom && r.dom == d && r.line / 64 == p && r.isWrite && (r.stage == .wbWait || r.stage == .parked)

/-- The next value of a half's SEQ counter, which a slot takes (R159). -/
def State.nextSeq (s : State) (h : Half) : Nat × State :=
  let seq := if s.fld (shgStatusSeq h.idx) = 0xFFFFFFFF then 1 else s.fld (shgStatusSeq h.idx) + 1
  (seq, s.setFld (shgStatusSeq h.idx) seq)

/-- The lines of a slot join their channel's write buffer in the maintenance class (R182); none where it has no room for them. -/
def State.bufferSlot (s : State) (h : Half) (slot d page seq : Nat) (image : List Byte) : Option State :=
  let c := chanOf h slot
  let n := image.length / 64
  if !(s.softRoom c n && s.serves c) then none
  else some (s.each (List.range n) fun s j =>
    s.buffer c { ma := slot * 4 + j, dom := d, line := page * 64 + j, data := bytesLine ((image.drop (64 * j)).take 64), enables := allBytes,
                 poison := false, cls := 8, color := 0, external := false, after := [], since := s.now, slot := some seq })

/-! ### The decompressors of a half (R177, R178) -/

/-- The chunk decodes that a half's decompressors are asked for, in the order in which they are granted: those of host reads, QC0 first
and then by arrival; those of promotions that a write asked for; those of the other promotions (R178). -/
def State.decodeOrder (s : State) (h : Half) : List (Nat × Nat × Option Nat × Nat) :=
  let reads := s.reqs.filter (fun r => r.stage == .chunkWait && r.home == h)
  let name := fun (r : Req) => (r.dom, r.line / 64, some r.rid, r.line % 64 / 16)
  let promos := fun (ask : Bool) => ((s.shg.get h).promos.filter (fun p => p.rid.isSome == ask)).flatMap fun (p : Promo) =>
    ((List.range 4).filter (fun i => nth (some none) p.chunks i == none)).map fun i => (p.dom, p.page, (none : Option Nat), i)
  (reads.filter (fun r => r.cls == 0)).map name ++ (reads.filter (fun r => r.cls != 0)).map name ++ promos true ++ promos false

/-- Decompressors of a half's clusters, six to each that is not fenced, but for those that compressors are paired with (R175, R177). -/
def State.decoders (s : State) (h : Half) : Nat :=
  ((List.range 8).filter (fun k => !s.fenced (uDecomp h.idx k))).length * 6
    - ((s.shg.get h).comps.filter (fun j => !j.placed && s.effFlag (domPolicyVerifyRecheck j.dom))).length

/-- A decode is granted: those that stand before it leave a decompressor free. -/
def State.granted (s : State) (h : Half) (d page : Nat) (rid : Option Nat) (chunk : Nat) : Bool :=
  decide ((s.decodeOrder h).findIdx (fun q => q == (d, page, rid, chunk)) < s.decoders h)

/-- The decodes of reads and of writes leave a decompressor for a RECHECK pairing. -/
def State.recheckGranted (s : State) (h : Half) : Bool :=
  let before := (s.decodeOrder h).filter fun q => q.2.2.1.isSome
    || (s.shg.get h).promos.any (fun p => p.rid.isSome && p.dom == q.1 && p.page == q.2.1)
  decide (before.length < s.decoders h)

/-- The domain's set can code every byte of the page, and is ACTIVE (R170). -/
def State.setServes (s : State) (set : Nat) (bytes : List Byte) : Bool :=
  s.setActive set && (let lens := s.setLens set; bytes.all fun b => nth 0 lens b.toNat != 0)

/-- Symbols counted in the histogram (SHG_HIST_i). -/
def State.histCount (s : State) (syms : List Nat) : State :=
  s.each syms fun s v => s.count (if v % 2 = 0 then shgHistCountEven (v / 2) else shgHistCountOdd (v / 2)) 1

/-- An offered page is no longer on offer. -/
def State.takeOffer (s : State) (h : Half) (d page : Nat) : State :=
  { s with mover := s.mover.upd h (fun (m : Mover) => { m with offers := m.offers.filter (· != (d, page)) }) }

/-- The attempt on a page ends without a slot. -/
def State.compAbort (s : State) (h : Half) : State := s.count (shgEvtCntCompressAbort h.idx) 1

/-- The bytes of a page's lines, the 1,024 bytes of one of its chunks, and its chunk streams, empty for a chunk of zeros (R160). -/
def pageBytes (ls : List (Line × Bool)) : List Byte := ls.flatMap fun l => lineBytes l.1
def chunkBytes (data : List Byte) (i : Nat) : List Byte := (data.drop (1024 * i)).take 1024
def chunkStreams (data : List Byte) (streams : List (List Byte)) : List (List Byte) :=
  (List.range 4).map fun i => if (chunkBytes data i).all (· == 0) then [] else nth [] streams i

/-- An offered page is read and compressed; `streams` are the chunk streams as the compressor produced them, but for chunks of zeros,
whose streams are empty; `recheckFail` is a mismatch of the paired decoder (R160, R175, R182). The page stays on offer while its turn
has not come. -/
def State.compress (s : State) (h : Half) (d page : Nat) (errs : List Burst) (cluster : Nat) (streams : List (List Byte))
    (recheckFail : Bool) (pick : Nat) : State :=
  let g := s.shg.get h
  let pg := s.pageNow d page
  let c := chanOf h pg.addr
  let recheck := s.effFlag (domPolicyVerifyRecheck d)
  let item := if s.fld (tierStatusLevel h.idx) ≥ 1 then 4 else 6
  if !((s.mover.get h).offers.contains (d, page)) ∨ s.fenced (uComp h.idx cluster) ∨ g.comps.length ≥ 256
      ∨ (g.comps.filter (fun j => j.cluster == cluster && !j.placed)).length ≥ 2 then s
  else if pg.state ≠ .near ∨ (s.ext d (page / 512)).kind ≠ .paged ∨ s.treeFenced d (page * 64)
      ∨ !s.serves c ∨ g.comps.any (fun j => j.dom == d && j.page == page) then s.takeOffer h d page
  else if s.locked d page ∨ !s.ctrReady d (page * 64) ∨ s.writesAhead d page ∨ !s.moverMay h c item ∨ (recheck ∧ !s.recheckGranted h) then s
  else
    let (ls, _, s) := ((s.takeOffer h d page).took c 1).readPageLines h d page pg.addr errs
    if ls.any (·.2) then s.compAbort h
    else
      let data := pageBytes ls
      let part := chunkBytes data
      let streams := chunkStreams data streams
      let set := s.eff (domPolicyShgTableSet d)
      let static := s.eff (domPolicyShgTableMode d) = 0
      let serves := s.setServes set data
      let s := if static ∧ !serves then s.count (shgEvtCntSetFallback h.idx) 1 else s
      let setNo := if static ∧ serves then some set else none
      let decs := streams.map fun t => decodeStream (setNo.map s.setLens) t
      let good := (decs.zipIdx).all (fun x => match x.1 with
        | .ok (out, _) => out == part x.2
        | .error _ => false)
      let s := if s.flag shgHistCtrlEnable ∧ s.fld shgHistCtrlDomain = d then
          s.histCount (decs.flatMap fun x => match x with | .ok (_, syms) => syms | .error _ => [])
        else s
      if recheck ∧ (recheckFail ∨ !good) then
        (s.note { code := cShgRecheckFail, cls := clsCe, unit := uComp h.idx cluster }).clusterErr h (uComp h.idx cluster) cShgCompClusterFail
      else match slotClass (streams.flatten.length) with
        | none =>
          let s := s.count (shgPageCntIncompressible h.idx) 1
          let q := s.page d page
          ((s.setPage d page { q with backoff := s.fld tierCfgBackoffEpochs }).savePage d page).pulse h bTier 0 2 (some d)
        | some k =>
          match s.takeSlot h k pick setNo with
          | none => s.compAbort h
          | some (slot, s) =>
            let (seq, s) := s.nextSeq h
            let check := s.effFlag (domPolicyVerifyChecksum d)
            let ends := (List.range 4).map fun i => 32 + (streams.take (i + 1)).flatten.length
            let hdr : SlotHdr := {
              format := 1
              flags := (match setNo with | some n => 2 * n | none => 1) + 16 * b2n recheck + 32 * b2n check
              sizeClass := k, ends, seq
              crcs := if check then (List.range 4).map fun i => crc32c 0 (part i) else [] }
            let image := slotImage hdr streams
            let (s, placed) := match s.bufferSlot h slot d page seq image with
              | some s => (s, true)
              | none => (s, false)
            let job : CompJob := { dom := d, page, frame := pg.addr, slot, k, image, setNo, dirtied := false, cluster, seq, placed }
            let s := { s with shg := s.shg.upd h (fun (g : Shg) => { g with comps := g.comps ++ [job] }) }
            (((s.pulse h bShg cluster 3 (some d)).settle d).recap h).compBusy h

def execPageCompress (h : Half) (d : Fin 1024) (page : Nat) (errs : List Burst) (cluster : Fin 8) (streams : List (List Byte))
    (recheckFail : Bool) (pick : Nat) (s : State) : Result :=
  .next (s.compress h d page errs cluster streams recheckFail pick)

/-- The slot's lines go to the write buffer where they still wait for room in it; else the lock is taken, and the compression commits
or ends as aborted where a write has touched the page (R182). A write from before the compression reaches the old frame first. -/
def State.compressCommit (s : State) (h : Half) (d page : Nat) : State :=
  match (s.shg.get h).comps.find? (fun j => j.dom == d && j.page == page) with
  | none => s
  | some j =>
    let pg := s.pageNow d page
    if s.locked d page then s
    else if j.dirtied ∨ pg.state ≠ .near ∨ pg.addr ≠ j.frame ∨ (s.ext d (page / 512)).kind ≠ .paged then
      ((s.dropComp h j).settle d).recap h
    else if !j.placed then
      match s.bufferSlot h j.slot d page j.seq j.image with
      | none => s
      | some s =>
        let put := fun (x : CompJob) => { x with placed := true }
        ({ s with shg := s.shg.upd h (fun (g : Shg) => { g with comps := mapFirst (· == j) put g.comps }) } : State).compBusy h
    else if s.writesPast d page ∨ !s.lockFree h then s
    else
      let s := ({ s with shg := s.shg.upd h (fun (g : Shg) => { g with comps := g.comps.filter (· != j) }) } : State).compBusy h
      let s := s.release h d page 1 [j.frame] [] false
      let q := s.page d page
      let s := (s.setPage d page { q with state := .shingle, cls := j.k, addr := j.slot }).savePage d page
      (((s.count (shgPageCntCompressed h.idx) 1).settle d).recap h).wakeStage5 d page

def execPageCompressCommit (h : Half) (d : Fin 1024) (page : Nat) (s : State) : Result := .next (s.compressCommit h d page)

/-! ### Chunk decodes (R172 to R174, R178, R180) -/

/-- An unfenced decompressor cluster other than `not`. -/
def State.otherCluster (s : State) (h : Half) (not : Option Nat) : Bool :=
  (List.range 8).any fun k => !s.fenced (uDecomp h.idx k) && not != some k

/-- The slot and its lines that a decode works on: those of a waiting read, or of a promotion whose chunk is pending. -/
def State.decodeInput (s : State) (h : Half) (d page chunk : Nat) (rid : Option Nat) : Option (Nat × List Line) :=
  match rid with
  | some rid => (s.req rid).bind fun r =>
      if r.stage == .chunkWait && r.home == h && r.dom == d && r.line / 64 == page && r.line % 64 / 16 == chunk then
        some (r.ma / 4, r.slotLines) else none
  | none => ((s.shg.get h).promos.find? (fun p => p.dom == d && p.page == page)).bind fun p =>
      if nth (some none) p.chunks chunk == none then some (p.slot, p.slotLines) else none

/-- A first decode that failed waits for its second on another cluster, where there is one (R173). -/
def State.awaitSecond (s : State) (h : Half) (x : Redecode) : Option State :=
  if s.flag shgCfgRedecodeEn && s.otherCluster h (some x.cluster) then
    some { s with shg := s.shg.upd h (fun (g : Shg) => { g with redecodes := g.redecodes ++ [x] }) }
  else none

/-- A chunk ends in an error, which its error promotion keeps (R174). -/
def State.chunkLost (s : State) (h : Half) (d page slot chunk : Nat) (rid : Option Nat) (e : Nat) : State :=
  ((s.keepFailed h d page chunk).chunkFailed h d page slot chunk e).chunkEnd h d page slot chunk rid none

/-- Stage 7 on a decompressor cluster: `n` parity errors (04_request R119, R121). Where the third replay fails, the cluster is fenced and
the request fails; a chunk of a promotion is decoded again on another cluster (R178). Answers whether it failed. -/
def State.decodeParity (s : State) (h : Half) (d : Nat) (rid : Option Nat) (cluster n : Nat) : State × Bool :=
  let u := uDecomp h.idx cluster
  let (s, bad) := s.parity h u 7 n rid (some d)
  if !bad then (s, false)
  else match rid with
    | some r => (s.failReq r u, true)
    | none => (s, true)

/-- A chunk decodes on a cluster. `fails` is 1 where the engine errs by itself, and 2 to 5 for one to four parity errors. A first failure
waits for its second decode (R173). -/
def State.chunkDecode (s : State) (h : Half) (d page : Nat) (rid : Option Nat) (chunk cluster fails : Nat) : State :=
  match s.decodeInput h d page chunk rid with
  | none => s
  | some (slot, lines) =>
    let waits := (s.shg.get h).redecodes.any (fun x => x.dom == d && x.page == page && x.rid == rid && x.chunk == chunk)
    if waits then s
    else if !s.otherCluster h none then s.chunkEnd h d page slot chunk rid none
    else if s.fenced (uDecomp h.idx cluster) ∨ !s.granted h d page rid chunk then s
    else
      let (s, bad) := s.decodeParity h d rid cluster (fails - 1)
      if bad then s
      else
        let s := s.pulse h bShg cluster 0 (some d)
        match s.decode lines chunk (fails = 1) with
        | .ok ls => (s.cacheChunk h slot chunk ls (nth 0 lines 0)).chunkEnd h d page slot chunk rid (some ls)
        | .error e =>
          match s.awaitSecond h { dom := d, page, slot, rid, chunk, error := e, cluster } with
          | some s => s
          | none => s.chunkLost h d page slot chunk rid e

def execChunkDecode (h : Half) (d : Fin 1024) (page : Nat) (rid : Option (Fin 65536)) (chunk : Fin 4) (cluster : Fin 8) (fails : Fin 6)
    (s : State) : Result :=
  .next (s.chunkDecode h d page (rid.map (·.val)) chunk cluster fails)

/-- The second decode, on another cluster: its output is used and the first cluster is at fault, or its error stands (R173). -/
def State.chunkRedecode (s : State) (h : Half) (d page : Nat) (rid : Option Nat) (chunk cluster fails : Nat) : State :=
  match (s.shg.get h).redecodes.find? (fun x => x.dom == d && x.page == page && x.rid == rid && x.chunk == chunk) with
  | none => s
  | some x =>
    let drop := fun (s : State) => { s with shg := s.shg.upd h (fun (g : Shg) => { g with redecodes := g.redecodes.filter (· != x) }) }
    match s.decodeInput h d page chunk rid with
    | none => drop s
    | some (slot, lines) =>
      if !s.otherCluster h (some x.cluster) then (drop s).chunkLost h d page slot chunk rid x.error
      else if cluster = x.cluster ∨ s.fenced (uDecomp h.idx cluster) ∨ !s.granted h d page rid chunk then s
      else
        let (s, bad) := s.decodeParity h d rid cluster (fails - 1)
        if bad then (if rid.isSome then drop s else s)
        else
          let s := (drop s).pulse h bShg cluster 0 (some d)
          match s.decode lines chunk (fails = 1) with
          | .ok ls =>
            let u := uDecomp h.idx x.cluster
            let s := (s.cacheChunk h slot chunk ls (nth 0 lines 0)).chunkEnd h d page slot chunk rid (some ls)
            (s.note { code := cShgDecoderMismatch, cls := clsCe, unit := u }).clusterErr h u cShgDecompClusterFail
          | .error e => s.chunkLost h d page slot chunk rid e

def execChunkRedecode (h : Half) (d : Fin 1024) (page : Nat) (rid : Option (Fin 65536)) (chunk : Fin 4) (cluster : Fin 8) (fails : Fin 6)
    (s : State) : Result :=
  .next (s.chunkRedecode h d page (rid.map (·.val)) chunk cluster fails)

/-! ### Promotion (R183, R184) -/

/-- The slot of a page is read for its promotion, under the page's lock (R183 step 2): what each chunk needs. A chunk that has ended in
an error already is taken as failed (R174). -/
def State.startPromo (s : State) (h : Half) (d page frame : Nat) (pg : Page) (rid : Option Nat) (error : Bool) (errs : List Burst) : State :=
  let cached := (List.range 4).map (s.chunkHit h pg.addr)
  let gone := fun (i : Nat) => (s.mover.get h).failed.contains (d, page, i)
  let need := (List.range 4).filter (fun i => (nth none cached i).isNone && !gone i)
  let (got, s) := if need.isEmpty then (({ lines := [], bad := [], again := false, rest := [] } : SlotRead), s)
    else s.readSlot h pg.addr pg.cls d page need errs .atOnce
  let none_ := !s.otherCluster h none
  let chunks := (List.range 4).map fun i =>
    match nth none cached i with
    | some ls => some (some ls)
    | none =>
      if gone i || got.chunkBad i then some none
      else if chunkEmpty got.lines i then
        (match s.decode got.lines i false with
        | .ok ls => some (some ls)
        | .error _ => none)
      else if none_ then some none else none
  let s := s.lock h d page
  { s with shg := s.shg.upd h (fun (g : Shg) => { g with
    promos := g.promos ++ [({ dom := d, page, rid, slot := pg.addr, k := pg.cls, frame, slotLines := got.lines, chunks, error } : Promo)] }) }

/-- A write to a SHINGLE page takes the lock and a frame; without one the page becomes LOST_WRITE (R183, R184). Its access has been
counted at stage 5 (07_tiering R185). -/
def State.promote (s : State) (rid : Nat) (errs : List Burst) (pick : Nat) : State :=
  match s.req rid with
  | none => s
  | some r =>
    let h := r.home
    let page := r.line / 64
    let pg := s.pageNow r.dom page
    let c := chanOf h pg.addr
    if r.stage != .promoteWait ∨ s.locked r.dom page then s
    else match pg.state with
      | .near => if s.treeFenced r.dom r.line then (s.fenceDiscard r.dom r.line).discardWrite rid 3 else s.toFrame r pg.addr
      | .shingle =>
        if s.treeFenced r.dom r.line then (s.fenceDiscard r.dom r.line).discardWrite rid 3
        else if !s.serves c then s.failReq rid (s.fencedBy c)
        else if !s.lockFree h then s.exclude rid 8
        else if !s.ctrReady r.dom r.line then s
        else match s.alloc h 16 16 (.frame r.dom page) pick none with
          | some (a, s) =>
            ((((s.startPromo h r.dom page a pg (some rid) false errs).setStage rid .promoting)).settle r.dom).recap h
          | none =>
            let s := s.release h r.dom page 1 [] [(pg.addr, pg.cls)] false
            let q := s.page r.dom page
            let s := ((s.setPage r.dom page { q with state := .lost, cls := 0, addr := 0 }).savePage r.dom page).listPages r.dom page 1 false
            let s := s.note { code := cShgPromoteNoMedia, cls := clsUcr, unit := uHalf h.idx, dom := some r.dom,
                              addr := some (s.dpaOf r.dom (page * 64), 64) }
            ((s.settle r.dom).discardWrite rid 2).wakeStage5 r.dom page
      | _ => s.writePage r pg pick

def execPagePromote (rid : Fin 65536) (errs : List Burst) (pick : Nat) (s : State) : Result := .next (s.promote rid errs pick)

/-- A promoting write completes: its data is in its line (R183; 13_pairing R303). -/
def State.finishWrite (s : State) (r : Req) : State :=
  let s := s.updReq r.rid fun q => { q with stamps := { q.stamps with dram := s.now, issue := s.now } }
  let (s, await) := match r.org with
    | .mirror _ _ _ => (s, none)
    | _ => s.mirrorOut r.dom (r.line / 32768) r.cls r.color (writeMsg r false)
  if await.isSome then (s.exclude r.rid 13).updReq r.rid fun q => { q with await, stage := .mirrorWait } else s.answer r.rid 0 false

/-- The lines of a promoted page, the write merged (R183 step 3): data, poison, and whether the poison is the host's. A line that is
listed by itself keeps its poison (04_request R127). -/
def promoLines (p : Promo) (r : Option Req) (listed : Nat → Bool) : List (Line × Bool × Bool) :=
  (List.range 64).map fun i =>
    let (l, bad) : Line × Bool := match nth none p.chunks (i / 16) with
      | some (some ls) => (nth 0 ls (i % 16), listed (p.page * 64 + i))
      | _ => (0, true)
    match r with
    | some r =>
      if r.line % 64 ≠ i then (l, bad, false)
      else if r.enables = allBytes then (r.data, r.poison, r.poison)
      else (mergeLine r.enables r.data l, bad || r.poison, r.poison)
    | none => (l, bad, false)

/-- Reads that are ordered before a promotion still take lines of the page's slot. -/
def State.slotReads (s : State) (d page : Nat) : Bool :=
  s.reqs.any fun r => r.hasDom && r.dom == d && r.line / 64 == page && r.isRead
    && (r.stage == .channel || r.stage == .parked || r.stage == .dram || r.stage == .ctrWait)

/-- A promotion whose frame cannot be written ends: the page stays SHINGLE, and the write fails as one to fenced media. -/
def State.promoCut (s : State) (h : Half) (p : Promo) : State :=
  let c := chanOf h p.frame
  let s := { s with shg := s.shg.upd h (fun (g : Shg) => { g with promos := g.promos.filter (· != p) })
                    media := s.media.filter (fun b => !(b.half == h && b.base == p.frame)) }
  let s := s.unlock p.dom p.page
  let s := match p.rid with | some rid => s.failReq rid (s.fencedBy c) | none => s
  ((s.settle p.dom).recap h).wakeStage5 p.dom p.page

/-- A promotion ends: the 64 lines join the frame's channel's write buffer at the write's class, the page is NEAR in its frame, the slot is
freed, the write completes and those behind it go on (R183). In a P2 domain the counters wait for reads of the slot (log 150), and
where a minor counter stands at its end the page's counters roll over first (08_protection R206, R207). -/
def State.promoteCommit (s : State) (h : Half) (d page : Nat) : State :=
  match (s.shg.get h).promos.find? (fun p => p.dom == d && p.page == page) with
  | none => s
  | some p =>
    let r := p.rid.bind s.req
    let c := chanOf h p.frame
    let full : Bool := match r with
      | some q => decide ((s.chan c).wb.length + 64 > (if q.green0 then 512 else 512 - s.fld rqCfgQc0WbReserve))
      | none => !s.softRoom c 64
    let p2 := s.eff (domPolicyProt d) == 2
    if p.chunks.any Option.isNone ∨ (s.mirHeld d && r.isSome) then s
    else if !s.serves c then s.promoCut h p
    else if full ∨ (p2 ∧ s.slotReads d page) then s
    else
      let s := { s with shg := s.shg.upd h (fun (g : Shg) => { g with promos := g.promos.filter (· != p) })
                        mover := s.mover.upd h (fun (m : Mover) => { m with failed := m.failed.filter (fun q => !(q.1 == d && q.2.1 == page)) }) }
      let s := if p2 && (List.range 64).any (fun i => (s.ctr d page).minor i == 127) then (s.rollFresh h d page p.frame).1 else s
      let q := s.page d page
      let s := ((s.setPage d page { q with state := .near, cls := 0, addr := p.frame }).warm d page).savePage d page
      let s := s.each (promoLines p r (s.listedLine d)).zipIdx fun s x =>
        s.buffer c { ma := p.frame * 4 + x.2, dom := d, line := page * 64 + x.2, data := x.1.1, enables := allBytes, poison := x.1.2.1,
                     cls := (match r with | some r => r.cls | none => 8), color := (match r with | some r => r.color | none => 0),
                     external := x.1.2.2, after := [], since := s.now }
      let s := (s.release h d page 1 [] [(p.slot, p.k)] false).unlock d page
      let s := (s.count (shgEvtCntPromote h.idx) 1).pulse h bTier 0 1 (some d)
      let s := match r with | some r => s.finishWrite r | none => s
      ((s.settle d).recap h).wakeStage5 d page

def execPagePromoteCommit (h : Half) (d : Fin 1024) (page : Nat) (s : State) : Result := .next (s.promoteCommit h d page)

/-- A promotion that no write asked for: of a page with a failed chunk (R174), or by the page mover (07_tiering R190, R192). Without a
frame the page stays SHINGLE. -/
def State.promoteAlone (s : State) (h : Half) (d page : Nat) (errs : List Burst) (pick : Nat) : State :=
  let m := s.mover.get h
  let err := m.errPromotes.contains (d, page)
  let pg := s.pageNow d page
  let c := chanOf h pg.addr
  if !(err || m.promotes.contains (d, page)) ∨ s.locked d page then s
  else
    let take := fun (s : State) => { s with mover := s.mover.upd h (fun (m : Mover) => { m with
      errPromotes := m.errPromotes.filter (· != (d, page)), promotes := m.promotes.filter (· != (d, page)) }) }
    if pg.state ≠ .shingle ∨ !s.serves c ∨ s.treeFenced d (page * 64) then take s
    else if !s.ctrReady d (page * 64) ∨ !s.lockFree h ∨ !s.moverMay h c (if err then 2 else 5) then s
    else match s.alloc h 16 16 (.frame d page) pick none with
      | some (a, s) => ((((take s).took c 1).startPromo h d page a pg none err errs).settle d).recap h
      | none => take s

def execErrorPromotion (h : Half) (d : Fin 1024) (page : Nat) (errs : List Burst) (pick : Nat) (s : State) : Result :=
  .next (s.promoteAlone h d page errs pick)

end Sys2Proof.Machine
end

