-- ==== Sys2Proof/Machine/Map.lean ====
section
/-! DEFINITION. The page map's own work: staging, MAP_ZERO, drains, walks, copies, materialisation, retirement moves and
conversions (03_domains R91 to R102, R431, R432; 05_dram R153; 07_tiering R191). -/

namespace Sys2Proof.Machine

/-! ### Staging of extent tables (R100) -/

/-- A field of the store set from a written value. -/
def State.take (s : State) (f : Fld) (v : Nat) : State := s.setFld f (bitsOf v f.lsb f.width)

/-- Nodes of a summit area: levels 4 to two below the top (08_protection R213). -/
def summitNodes (size : Nat) : Nat :=
  let top := topLevel size
  ((List.range (top - 5)).map fun i => ceilDiv size (8 ^ (i + 1))).foldl (· + ·) 0

/-- Units of a domain's extent table, with its directory and summit where it is P2 (03_domains R83; 08_protection R213). -/
def tableUnits (size prot : Nat) : Nat :=
  ceilDiv size 16 + (if prot = 2 then ceilDiv size 32 + ceilDiv (summitNodes size) 4 else 0)

/-- Staged tables that are not taken up go back. -/
def State.dropStaged (s : State) (d : Nat) : State :=
  match (s.map d).staged with
  | some t =>
    let mine := fun (m : MediaBlk) => m.half == t.half && (m.base == t.first || m.base == t.second)
      && (match m.owner with | .extTable d' _ => d' == d | _ => false)
    let s := { s with media := s.media.filter (fun m => !mine m) }
    (s.updMap d fun m => { m with staged := none }).recap t.half
  | none => s

/-- The shadow state of a domain asks for a new table, or not; a staged one that has the wrong size, or lies in the wrong half, is given
up (R100; log 68). -/
def State.wantTable (s : State) (d : Nat) : State :=
  let size := s.fld (domWindowSize d)
  let grows := s.flag (domCtrlValid d) && (!s.domOn d || decide (size > s.winSize d))
  let len := tableUnits size (s.fld (domPolicyProt d))
  let ready : Bool := match (s.map d).staged with
    | some t => t.size == size && t.len == len && t.half == halfOf (s.fld (domCtrlHomeHalf d))
    | none => false
  if grows && ready then s
  else
    let s := (s.dropStaged d).setFlag (domStatusStageReady d) false
    s.updMap d fun m => { m with staging := if grows then some size else none, noSpace := false }

/-- A write to the shadow of DOM_WINDOW or DOM_CTRL. -/
def State.shadowWrite (s : State) (d : Nat) (window : Bool) (v : Nat) : State :=
  let s := if window then (s.take (domWindowBase d) v).take (domWindowSize d) v
    else (((s.take (domCtrlValid d) v).take (domCtrlHomeHalf d) v).take (domCtrlCoherence d) v).take (domCtrlAllowDiscard d) v
  s.wantTable d

def execDomShadowWrite (d : Fin 1024) (window : Bool) (value : Word) (s : State) : Result :=
  .next (s.write .plain false none fun s => s.groupWrite 0 fun s => s.shadowWrite d window value.toNat)

/-- Staging ends: two copies on two channels, or METADATA_SPACE (R100, Table 3.3). -/
def State.stageTable (s : State) (d pick1 pick2 : Nat) : State :=
  match (s.map d).staging with
  | none => s
  | some size =>
    let h := halfOf (s.fld (domCtrlHomeHalf d))
    let n := tableUnits size (s.fld (domPolicyProt d))
    let fail := fun (s : State) => s.updMap d fun m => { m with staging := none, noSpace := true }
    match s.alloc h n 16 (.extTable d 0) pick1 none with
    | none => fail s
    | some (a, s1) =>
      match s1.alloc h n 16 (.extTable d 1) pick2 (some (chanOf h a)) with
      | none => fail s
      | some (b, s) =>
        let t : StagedTable := { half := h, first := a, second := b, size, len := n }
        let s := s.updMap d fun m => { m with staging := none, staged := some t }
        let s := (s.dropFlips h (a * 4) (n * 4)).dropFlips h (b * 4) (n * 4)
        (s.setFlag (domStatusStageReady d) true).recap h

def execExtentTableStaged (d : Fin 1024) (pick1 pick2 : Nat) (s : State) : Result := .next (s.stageTable d pick1 pick2)

/-! ### Requests past the map stage -/

/-- Requests to some lines of a domain have passed stage 5 and still read or write their media: reads whose data has not come, and
writes that have not reached DRAM (R95, R96). -/
def State.linesBusy (s : State) (d line0 n : Nat) : Bool :=
  let mine := fun (l : Nat) => decide (line0 ≤ l ∧ l < line0 + n)
  (s.reqs.any fun r => r.hasDom && r.dom == d && mine r.line
    && (if r.isRead then r.stage == .channel || r.stage == .parked || r.stage == .dram || r.stage == .ctrWait
        else r.isWrite && (r.stage == .wbWait || r.stage == .parked)))
    || s.channels.any (fun ch => ch.wb.any (fun w => w.dom == d && mine w.line && w.slot.isNone))

/-- A page, or a whole extent, is busy so. -/
def State.pageBusy (s : State) (d p : Nat) : Bool := s.linesBusy d (p * 64) 64
def State.extBusy (s : State) (d e : Nat) : Bool := s.linesBusy d (e * 32768) 32768

/-- A page of an extent is locked, or the page mover holds the extent (R92, R95). -/
def State.extLocked (s : State) (d e : Nat) : Bool :=
  s.extMoving d e || s.locks.any (fun l => l.dom == d && l.page / 512 == e)

/-- The page map of an extent as it is read, the primary copy first (R97; 07_tiering R187): its descriptor's line, and its page
table's lines where it has one. -/
def State.readTable (s : State) (h : Half) (d e : Nat) : State :=
  let look := fun (s : State) (k : McKey) => if s.cached h k then s else (s.readMeta h k []).2.2
  let s := look s (.desc d (e / 4))
  if (s.ext d e).kind = .paged then s.each (List.range 64) fun s i => look s (.pte d (e * 64 + i)) else s

/-- The channel of the copy of a domain's extent table that is read. -/
def State.tableChan (s : State) (d : Nat) : Option Nat :=
  let h := s.home d
  (([(s.map d).table1, (s.map d).table2].filterMap id).find? (fun u => !s.mediaLost h u)).map (chanOf h)

/-! ### Splits and joins (R92, R102, R191) -/

/-- A frame's block of 2 MiB becomes 512 frames of pages. -/
def splitBlock (d e : Nat) (b : MediaBlk) : List MediaBlk :=
  match b.owner with
  | .bigFrame d' e' =>
    if d' == d && e' == e then (List.range 512).map fun i => { b with base := b.base + 16 * i, len := 16, owner := .frame d (e * 512 + i) }
    else [b]
  | _ => [b]

/-- A FRAME extent becomes PAGED: 512 entries NEAR at the frame's pages (R102). None where no table can be had. -/
def State.splitExt (s : State) (d e pick : Nat) : Option State :=
  let x := s.ext d e
  (s.giveTable d e pick (fun i => { state := .near, addr := x.addr + 16 * i })).map fun s =>
    { s with media := s.media.flatMap (splitBlock d e) }

/-- An extent whose 512 pages are NEAR in one aligned 2 MiB frame, none of which is being compressed or on offer (R92). -/
def State.joinBase (s : State) (d e : Nat) : Option Nat :=
  let h := s.home d
  let x := s.ext d e
  let b := (s.page d (e * 512)).addr
  let wanted := (s.mover.get h).offers.any (fun q => q.1 == d && q.2 / 512 == e)
    || (s.shg.get h).comps.any (fun (j : CompJob) => j.dom == d && j.page / 512 == e)
  if x.kind = .paged ∧ !s.extLocked d e ∧ !wanted ∧ b % extUnits = 0
      ∧ (List.range 512).all (fun i => (s.page d (e * 512 + i)).state == .near && (s.page d (e * 512 + i)).addr == b + 16 * i)
  then some b else none

/-- Such an extent becomes FRAME; its page table is freed (R92, R191). -/
def State.joinExt (s : State) (d e b : Nat) : State :=
  let h := s.home d
  let x := s.ext d e
  let top := (List.range 512).foldl (fun m i => max m (s.page d (e * 512 + i)).access) 0
  let s := s.release h d (e * 512) 512 (x.addr :: x.copy2.toList) [] false
  let mine := fun (m : MediaBlk) => match m.owner with | .frame d' p => d' == d && p / 512 == e | _ => false
  let s := { s with media := { half := h, base := b, len := extUnits, owner := .bigFrame d e } :: s.media.filter (fun m => !mine m) }
  (((s.clearPages d e).setExt d e { kind := .frame, addr := b, dirty := x.dirty, access := top }).saveMeta h (.desc d (e / 4))).settle d

/-- A compression of a page of the extent ends as aborted: the page is no longer as it was (06_shingle R182). -/
def State.touchExt (s : State) (d e : Nat) : State :=
  { s with shg := s.shg.upd (s.home d) (fun (g : Shg) => { g with
    comps := g.comps.map (fun (j : CompJob) => if j.dom == d && j.page / 512 == e then { j with dirtied := true } else j) }) }

/-- The page mover converts an extent between its forms in a maintenance window of its frame's channel (R92, R191, R192). -/
def State.convert (s : State) (d e : Nat) (pick : Nat) : State :=
  let h := s.home d
  let may := fun (u : Nat) => s.moverMay h (chanOf h u) 7
  if !s.domOn d ∨ s.eff (domPolicyTclass d) = 0 ∨ s.extLocked d e then s
  else match s.joinBase d e with
    | some b =>
      if s.fld (tierStatusLevel h.idx) = 0 ∧ !s.mediaLost h b ∧ may b then (s.took (chanOf h b) 1).joinExt d e b else s
    | none =>
      let x := s.ext d e
      let tier := s.eff (domPolicyTier d)
      if x.kind = .frame ∧ tier ≠ 0 ∧ (tier = 2 ∨ x.access ≤ s.coldNow d) ∧ may x.addr then
        (match s.splitExt d e pick with | some s => (s.took (chanOf h x.addr) 1).settle d | none => s)
      else s

def execExtentConvert (d : Fin 1024) (ext : Nat) (_errs : List Burst) (picks : List Nat) (s : State) : Result :=
  .next (s.convert d ext (picks.headD 0))

/-! ### MAP_ZERO (R102, R431, R432) -/

/-- A run starts, or ends at once. -/
def State.zeroStart (s : State) : State :=
  if s.fld mapZeroStatusState = 1 then s
  else
    let d := s.fld mapZeroArg0Domain
    let first := s.fld mapZeroArg0FirstPage
    let count := s.fld mapZeroArg1Count
    let stop := fun (s : State) (st e : Nat) => (s.setFld mapZeroStatusState st).setFld mapZeroStatusError e
    if !s.domOn d then stop s 3 1
    else if s.winSize d * 512 ≤ first ∨ first + count > s.winSize d * 512 then stop s 3 2
    else if count = 0 then stop s 2 0
    else { stop s 1 0 with zero := some { dom := d, next := first, stop := first + count, noMedia := [] } }

def execMapZeroStart (s : State) : Result := .next (s.write .plain false none State.zeroStart)

/-- A near page is written with zeros (R92, R102). -/
def State.zeroLines (s : State) (h : Half) (d p unit : Nat) : State := s.writePageLines h d p unit none (fun _ => (0, false))

/-- A page of a PAGED extent returns to ZERO; its media is freed. -/
def State.zeroPaged (s : State) (d p : Nat) : State :=
  let h := s.home d
  let q := s.page d p
  let s := match q.state with
    | .near => s.release h d p 1 [q.addr] [] false
    | .shingle => s.release h d p 1 [] [(q.addr, q.cls)] false
    | _ => s
  ((s.setPage d p {}).savePage d p).unlistPages d p 1

/-- A whole extent returns to ZERO. -/
def State.zeroExt (s : State) (d e : Nat) : State :=
  let x := s.ext d e
  ((s.setExt d e { kind := .zero, dirty := x.dirty }).saveMeta (s.home d) (.desc d (e / 4))).unlistPages d (e * 512) 512

/-- The pages that a step of a run takes at once: a whole extent that returns to ZERO or is ZERO already, or one page. -/
def State.zeroSpan (s : State) (d p stop : Nat) : Nat :=
  let k := (s.ext d (p / 512)).kind
  if p % 512 = 0 ∧ p + 512 ≤ stop ∧ k ≠ .paged ∧ !(k == .frame && s.eff (domPolicyTclass d) == 0) then 512 else 1

/-- One step of a run: page `p`, or its whole extent (R102, R432). Answers whether it stayed poisoned for lack of media. -/
def State.zeroStep (s : State) (d p n pick : Nat) : State × Bool :=
  let h := s.home d
  let e := p / 512
  let x := s.ext d e
  let unit := (s.pageNow d p).addr
  let s := s.touchExt d e
  match x.kind with
  | .unmapped | .zero => (s, false)
  | .paged => (s.zeroPaged d p, false)
  | .frame =>
    if n = 512 then ((s.release h d (e * 512) 512 [x.addr] [] false).zeroExt d e, false)
    else if s.eff (domPolicyTclass d) = 0 then (s.zeroLines h d p unit, false)
    else match s.splitExt d e pick with
      | some s => (s.zeroPaged d p, false)
      | none => (s.zeroLines h d p unit, false)
  | .retired =>
    if n = 512 then (s.zeroExt d e, false)
    else if s.eff (domPolicyTclass d) = 0 then
      match s.grant d 0 with
      | .ok =>
        (match s.makeNear d p pick none with
        | some s => (s.zeroLines h d p (s.pageNow d p).addr, false)
        | none => (s, true))
      | _ => (s, true)
    else match s.giveTable d e pick (fun _ => { state := .retired }) with
      | some s => (s.zeroPaged d p, false)
      | none => (s, true)

/-- MAP_ZERO ends (R431, R432): an event record for each extent that it left poisoned for lack of media. -/
def State.zeroEnd (s : State) (z : ZeroRun) : State :=
  let s : State := { s with zero := none }
  let s := if z.cut then (s.setFld mapZeroStatusState 3).setFld mapZeroStatusError 2
    else (s.setFld mapZeroStatusState 2).setFld mapZeroStatusError (if z.noMedia.isEmpty then 0 else 3)
  s.each z.noMedia fun s e => s.eventRecord eMapZeroNoMedia "MAP_ZERO_NO_MEDIA" z.dom (s.dpaOf z.dom (e * 32768)) 32768

/-- The transition lock of a run's next page, or of its next extent, is taken and given back (R431). -/
def State.zeroLock (s : State) (d p n : Nat) : State :=
  if n = 512 then s.setExt d (p / 512) { s.ext d (p / 512) with moving := true } else s.lock (s.home d) d p
def State.zeroUnlock (s : State) (d p : Nat) : State :=
  let x := s.ext d (p / 512)
  (if x.moving then s.setExt d (p / 512) { x with moving := false } else s).unlock d p

/-- What stands before a run at its next pages: a lock, or a request that has reached stage 5 and waits there for its turn. -/
def State.zeroWaits (s : State) (d p n : Nat) : Bool :=
  (if n = 512 then s.extLocked d (p / 512) else s.locked d p || s.extMoving d (p / 512) || !s.lockFree (s.home d))
    || s.reqs.any (fun r => r.hasDom && r.dom == d && decide (p ≤ r.line / 64 ∧ r.line / 64 < p + n)
      && (r.stage == .lockWait || r.stage == .promoteWait))

/-- A run's step: the lock is taken, requests that passed stage 5 before it end, the pages become zero, and the lock is given back
(R431); the partner is told (13_pairing R303). -/
def State.zeroNext (s : State) (picks : List Nat) : State :=
  match s.zero with
  | none => s
  | some z =>
    let d := z.dom
    let n := s.zeroSpan d z.next z.stop
    if z.next ≥ z.stop then (if z.await.isSome then s else s.zeroEnd z)
    else if !z.held ∧ (s.zeroWaits d z.next n ∨ s.mirHeld d) then s
    else
      let s := if z.held then s else s.zeroLock d z.next n
      if s.linesBusy d (z.next * 64) (n * 64) ∨ s.mirHeld d then { s with zero := some { z with held := true } }
      else
        let (s, short) := s.zeroStep d z.next n (picks.headD 0)
        let s := s.zeroUnlock d z.next
        let (s, await) := s.mirrorOut d (z.next / 512) (s.eff (domPolicyTclass d)) 0 (fun peer => .zeroRun peer z.next n)
        let z' := { z with
          next := z.next + n, held := false, await := (if await.isSome then await else z.await),
          noMedia := (if short && !z.noMedia.contains (z.next / 512) then z.noMedia ++ [z.next / 512] else z.noMedia) }
        let s := ({ s with zero := some z' } : State).settle d
        let s := s.each (List.range n) fun s i => s.wakeStage5 d (z.next + i)
        if z'.next ≥ z'.stop ∧ z'.await.isNone then s.zeroEnd z' else s

def execMapZeroPage (picks : List Nat) (s : State) : Result := .next (s.zeroNext picks)

/-! ### Drains (R99) -/

/-- A drain item ends: every request that read the old mapping is complete. -/
def State.drainDone (s : State) (id : Nat) : State :=
  match s.drains.find? (fun i => i.id == id) with
  | none => s
  | some i =>
    if !i.waits.isEmpty then s
    else
      let s := { s with media := s.media.filter (fun (b : MediaBlk) => b.owner != MediaOwner.draining id), drains := s.drains.filter (· != i) }
      let s := s.each i.slots fun s q => s.dropSlot i.half q.1 q.2
      let s := s.setFlag (domStatusDraining i.dom) (s.drains.any (fun x => x.dom == i.dom && x.commit))
      s.settle i.dom

def execMediaDrainDone (item : Nat) (s : State) : Result := .next (s.drainDone item)

/-! ### The walk after a fence (R91) -/

/-- Media named by nothing any more leaves at once: it lies on a channel that is fenced. -/
def State.forget (s : State) (h : Half) (bases : List Nat) : State :=
  { s with media := s.media.filter (fun b => !(b.half == h && bases.contains b.base)) }

/-- A copy of a page table on a fenced channel is given up; an extent whose table has no copy left becomes RETIRED (R97). -/
def State.dropCopy (s : State) (d e c : Nat) : State :=
  let h := s.home d
  let x := s.ext d e
  let on := fun (u : Nat) => chanOf h u == c
  let save := fun (s : State) => s.saveMeta h (.desc d (e / 4))
  match x.copy2 with
  | some b =>
    if on x.addr then save ((s.forget h [x.addr]).setExt d e { x with addr := b, copy2 := none })
    else if on b then save ((s.forget h [b]).setExt d e { x with copy2 := none }) else s
  | none => if on x.addr then (((s.metaLost (.pte d (e * 64)) []).forget h [x.addr]).clearPages d e).retireExt d e else s

/-- The counters of an extent lay on the fenced channel: its tree is lost below the extent's node (08_protection R218). -/
def State.areaLost (s : State) (d e c pick : Nat) : State :=
  let h := s.home d
  match s.area d e with
  | some b =>
    if chanOf h b ≠ c then s
    else
      let s := s.forget h [b]
      let s := match s.allocArea h d e pick with
        | some (a, s) => s.dropFlips h (a * 4) 4681
        | none => { s with areas := cellPut 0 s.areas (d * 2 ^ 27 + e) 0 }
      (s.saveMeta h (.dir d (e / 8))).fenceSubtree d 3 e
  | none => s

/-- The walk's event record of an extent (R91). -/
def State.walkNote (s : State) (d e : Nat) : State :=
  s.eventRecord eMapExtentRetired "MAP_EXTENT_RETIRED" d (s.dpaOf d (e * 32768)) 32768

/-- A page of the walk whose media lay on the channel. -/
def State.walkPage (s : State) (d p : Nat) : State :=
  let h := s.home d
  let q := s.page d p
  let s := if q.state = .near then s.forget h [q.addr] else s.dropSlot h q.addr q.cls
  ((s.setPage d p { state := .retired, access := q.access }).savePage d p).listPages d p 1 true

/-- One extent of the walk: what lay on the channel is retired, and recorded. A frame that was moving is retired where either of its
two places lay there. -/
def State.walkExt (s : State) (d e c pick : Nat) : State :=
  let h := s.home d
  let s := (s.readTable h d e).areaLost d e c pick
  let x := s.ext d e
  let on := fun (u : Nat) => chanOf h u == c
  match x.kind with
  | .frame =>
    let places := x.addr :: (s.frameMoves.filter (fun m => m.dom == d && m.ext == e)).map (·.dest)
    if !places.any on then s.settle d
    else
      let s := { s with frameMoves := s.frameMoves.filter (fun m => !(m.dom == d && m.ext == e)) }
      let s := (s.forget h (places.filter on)).release h d (e * 512) 512 (places.filter (fun u => !on u)) [] false
      ((s.retireExt d e).walkNote d e).settle d
  | .paged =>
    let hit := (List.range 512).filter fun i =>
      let q := s.page d (e * 512 + i)
      (q.state == .near || q.state == .shingle) && on q.addr
    let s := (s.each hit fun s i => s.walkPage d (e * 512 + i)).dropCopy d e c
    (if hit.isEmpty then s else s.walkNote d e).settle d
  | _ => s.settle d

/-- The walk may take its next step: the extent is not held, and the channel of the map's good copy is in a window (R91, R192). -/
def State.walkMay (s : State) (c d e : Nat) : Bool :=
  !(s.ext d e).moving && !s.locks.any (fun l => l.dom == d && l.page / 512 == e)
    && (match s.tableChan d with | some k => s.moverMay (chanHalf c) k 1 | none => true)

/-- A step of the walk; its end ends the fence's episode (R91). -/
def State.walkStep (s : State) (c pick : Nat) : State :=
  match s.walks.find? (fun w => w.channel == c) with
  | none => s
  | some w =>
    let finish := fun (s : State) =>
      (({ s with walks := s.walks.filter (fun x => x.channel != c) } : State).toFm "MAP_WALK_DONE" [c]).endEpisode (uChannel c)
    match w.todo with
    | [] => finish s
    | (d, e) :: rest =>
      if !s.walkMay c d e then s
      else
        let s := match s.tableChan d with | some k => s.took k 1 | none => s
        let s := s.walkExt d e c pick
        let s : State := { s with walks := mapFirst (fun x => x.channel == c) (fun x => { x with todo := rest }) s.walks }
        if rest.isEmpty then finish s else s

def execFenceWalkStep (c : Fin 24) (picks : List Nat) (s : State) : Result := .next (s.walkStep c (picks.headD 0))

/-! ### Second copies (R93) -/

/-- The copy that is left may be read now, in the maintenance class (R93). -/
def State.copyMay (s : State) (h : Half) (unit : Nat) : Bool := s.moveMay (chanOf h unit)

/-- A second copy of a page table, or of the domain's extent table, is built on another channel. -/
def State.rebuildCopy (s : State) (d : Nat) (ext : Option Nat) (pick : Nat) : State :=
  let h := s.home d
  match ext with
  | some e =>
    let x := s.ext d e
    let two : Bool := match x.copy2 with | some b => !s.mediaLost h b | none => false
    if x.kind ≠ .paged ∨ s.mediaLost h x.addr ∨ two ∨ s.extMoving d e ∨ !s.copyMay h x.addr then s
    else
      let s := match x.copy2 with | some b => s.forget h [b] | none => s
      let s := (s.took (chanOf h x.addr) 1).readTable h d e
      match s.alloc h 16 16 (.pageTable d e 1) pick (some (chanOf h x.addr)) with
      | some (b, s) => (((s.putTable h b 64).setExt d e { x with copy2 := some b }).saveMeta h (.desc d (e / 4))).settle d
      | none => ((s.setExt d e { x with copy2 := none }).saveMeta h (.desc d (e / 4))).single d x.addr (e * 512) 512
  | none =>
    let m := s.map d
    match [m.table1, m.table2].filterMap id |>.filter (fun u => !s.mediaLost h u) with
    | [a] =>
      if !s.copyMay h a then s
      else
        let s := (s.took (chanOf h a) 1).forget h ([m.table1, m.table2].filterMap id |>.filter (· != a))
        let n := tableUnits m.extents (s.eff (domPolicyProt d))
        match s.alloc h n 16 (.extTable d 1) pick (some (chanOf h a)) with
        | some (b, s) =>
          (((s.dropFlips h (b * 4) (n * 4)).updMap d fun m => { m with table1 := some a, table2 := some b }).setFld
            (domMetaExtTable d) a).settle d
        | none =>
          ((s.updMap d fun m => { m with table1 := some a, table2 := none }).setFld (domMetaExtTable d) a).single d a 0 (m.extents * 512)
    | _ => s

def execMetaCopyRebuild (d : Fin 1024) (ext : Option Nat) (pick : Nat) (s : State) : Result := .next (s.rebuildCopy d ext pick)

/-! ### Content of pages that move -/

/-- The lines of a page as they stand: near lines, slot lines decoded, zeros, or poison; the patterns left. A line that is listed by
itself reads poisoned (04_request R127). -/
def State.pageContent (s : State) (d p : Nat) (errs : List Burst) : List (Line × Bool) × List Burst × State :=
  let h := s.home d
  let pg := s.pageNow d p
  let lost : List (Line × Bool) := List.replicate 64 (0, true)
  let listed := fun (i : Nat) => s.listedLine d (p * 64 + i)
  match pg.state with
  | .zero => ((List.range 64).map fun i => (0, listed i), errs, s)
  | .lost | .retired => (lost, errs, s)
  | .near => if s.mediaLost h pg.addr then (lost, errs, s) else s.readPageLines h d p pg.addr errs
  | .shingle =>
    if s.mediaLost h pg.addr then (lost, errs, s)
    else
      let (got, s) := s.readSlot h pg.addr pg.cls d p [0, 1, 2, 3] errs .atOnce
      let one := fun (i : Nat) =>
        if got.chunkBad i then List.replicate 16 ((0 : Line), true)
        else match s.decode got.lines i false with
          | .ok ls => ls.zipIdx.map fun x => (x.1, listed (i * 16 + x.2))
          | .error _ => List.replicate 16 (0, true)
      ((List.range 4).flatMap one, got.rest, s)

/-- Lines written to a page's new place. -/
def State.putPage (s : State) (h : Half) (d p unit : Nat) (ls : List (Line × Bool)) : State :=
  s.writePageLines h d p unit none (fun i => nth (0, true) ls i)

/-! ### Materialisation (R92) -/

/-- An extent of a QC0 domain gets its frame, with zeros or its present contents, in a maintenance window of the frame's channel (R92;
07_tiering R191, R192). -/
def State.materialise (s : State) (d e pick : Nat) : State :=
  let h := s.home d
  let x := s.ext d e
  if !s.unmade d e ∨ s.extLocked d e ∨ s.extBusy d e then s
  else match (s.needArea d e).bind (fun s => s.alloc h extUnits extUnits (.bigFrame d e) pick none) with
    | none => s
    | some (a, t) =>
      let c := chanOf h a
      if !s.moverMay h c 3 then s
      else
        let s := (t.took c 1).touchExt d e
        let pages := (List.range 512).map (e * 512 + ·)
        let old := if x.kind = .paged then x.addr :: x.copy2.toList else []
        let near := pages.filterMap fun p => let q := s.page d p; if x.kind = .paged ∧ q.state = .near then some q.addr else none
        let slots := pages.filterMap fun p => let q := s.page d p; if x.kind = .paged ∧ q.state = .shingle then some (q.addr, q.cls) else none
        let s := s.each pages fun s p =>
          let (ls, _, s) := s.pageContent d p []
          s.putPage h d p (a + p % 512 * 16) ls
        let s := s.release h d (e * 512) 512 (old ++ near) slots false
        (((s.clearPages d e).setExt d e { kind := .frame, addr := a, dirty := x.dirty }).saveMeta h (.desc d (e / 4))).settle d

def execMaterialiseExtent (d : Fin 1024) (ext : Nat) (pick : Nat) (s : State) : Result := .next (s.materialise d ext pick)

/-! ### Retirement moves (05_dram R153) -/

/-- The next page of a FRAME extent that moves is copied; behind the last one the old frame is freed (R92). -/
def State.moveFrame (s : State) (m : FrameMove) (errs : List Burst) : State :=
  let p := m.ext * 512 + m.mark
  let put := fun (s : State) (k : Nat) => { s with
    frameMoves := s.frameMoves.map fun x => if x.dom == m.dom && x.ext == m.ext then { x with mark := k } else x }
  let (ls, _, s) := s.pageContent m.dom p errs
  let s := put (s.putPage m.half m.dom p (m.dest + m.mark * 16) ls) (m.mark + 1)
  if m.mark + 1 < 512 then s
  else
    let x := s.ext m.dom m.ext
    let s := { s with frameMoves := s.frameMoves.filter (fun y => !(y.dom == m.dom && y.ext == m.ext)) }
    let s := s.release m.half m.dom (m.ext * 512) 512 [x.addr] [] false
    ((s.setExt m.dom m.ext { x with addr := m.dest }).saveMeta m.half (.desc m.dom (m.ext / 4))).settle m.dom

/-- A slot is written to new media under the next SEQ (R159). -/
def State.moveSlot (s : State) (h : Half) (d p old new k : Nat) (errs : List Burst) : State :=
  let (got, s) := s.readSlot h old k d p [0, 1, 2, 3] errs .atOnce
  let (seq, s) := s.nextSeq h
  let image := got.lines.flatMap lineBytes
  let image := { hdrOf image with seq }.bytes ++ image.drop 32
  let s := s.each (List.range (k * 4)) fun s i =>
    (s.countWrite h (new * 4 + i)).seal (slotPlace h new d p i seq) (bytesLine ((image.drop (64 * i)).take 64)) (got.bad.contains i)
  let q := s.page d p
  (((s.release h d p 1 [] [(old, k)] false).setPage d p { q with addr := new }).savePage d p).settle d

/-- The first slot in use of a block: its base and the mark of its set. -/
def State.firstSlot (s : State) (h : Half) (base k : Nat) : Option (Nat × Nat) :=
  ((((s.shg.get h).blocks.find? (fun x => x.base == base)).map (·.used)).getD []).head?.map fun u => (base + u.1 * k, u.2)

/-- A block waits before it can leave a retiring range: it drains, its pages are locked, or requests still use its media. -/
def State.blockHeld (s : State) (h : Half) (b : MediaBlk) : Bool :=
  match b.owner with
  | .draining _ | .orphan => true
  | .frame d p => s.locked d p || s.pageBusy d p
  | .bigFrame d e =>
    (s.ext d e).moving || (match s.frameMoves.find? (fun m => m.dom == d && m.ext == e) with
      | some m => m.dest == b.base || s.locked d (e * 512 + m.mark) || s.pageBusy d (e * 512 + m.mark)
      | none => false)
  | .shgBlock k =>
    (match s.firstSlot h b.base k with
    | none => true
    | some (old, _) =>
      let g := s.shg.get h
      g.comps.any (fun j => j.slot == old) || g.promos.any (fun j => j.slot == old) || g.orphans.any (fun q => q.1 == old)
        || s.drains.any (fun i => i.half == h && i.slots.any (fun q => q.1 == old))
        || (match s.slotPage h old with | some (d, p) => s.locked d p || s.slotReads d p | none => false))
  | .pageTable d e _ => (s.ext d e).moving
  | _ => false

/-- A block of media that overlaps a retired range is moved, a FRAME extent page by page; none where there is no media for it. -/
def State.moveBlock (s : State) (h : Half) (b : MediaBlk) (errs : List Burst) (pick : Nat) : Option State :=
  match b.owner with
  | .frame d p =>
    (s.alloc h 16 16 b.owner pick none).map fun (a, s) =>
      let (ls, _, s) := (s.touchExt d (p / 512)).pageContent d p errs
      let q := s.page d p
      let s := ((s.release h d p 1 [b.base] [] false).setPage d p { q with addr := a }).savePage d p
      (s.putPage h d p a ls).settle d
  | .bigFrame d e =>
    (match s.frameMoves.find? (fun m => m.dom == d && m.ext == e) with
    | some m => some (s.moveFrame m errs)
    | none => (s.alloc h extUnits extUnits b.owner pick none).map fun (a, s) =>
      let m : FrameMove := { half := h, dom := d, ext := e, dest := a, mark := 0 }
      (({ s with frameMoves := s.frameMoves ++ [m] } : State).saveMeta h (.desc d (e / 4))).settle d)
  | .pageTable d e _ =>
    let s := s.readTable h d e
    let x := s.ext d e
    let other := if x.addr = b.base then x.copy2 else some x.addr
    (s.alloc h 16 16 b.owner pick (other.map (chanOf h))).map fun (a, s) =>
      let x' := if x.addr = b.base then { x with addr := a } else { x with copy2 := some a }
      ((((s.putTable h a 64).forget h [b.base]).setExt d e x').saveMeta h (.desc d (e / 4))).settle d
  | .extTable d _ =>
    let m := s.map d
    let first := m.table1 = some b.base
    let other := if first then m.table2 else if m.table2 = some b.base then m.table1 else
      match m.staged with | some t => some (if t.first = b.base then t.second else t.first) | none => none
    (s.alloc h b.len 16 b.owner pick (other.map (chanOf h))).map fun (a, s) =>
      let moved := fun (u : Nat) => if u = b.base then a else u
      let s := s.updMap d fun m => { m with
        table1 := m.table1.map moved, table2 := m.table2.map moved
        staged := m.staged.map fun t => { t with first := moved t.first, second := moved t.second } }
      let s := if first then s.setFld (domMetaExtTable d) a else s
      ((s.dropFlips h (a * 4) (b.len * 4)).forget h [b.base]).settle d
  | .p2 d e =>
    ((s.forget h [b.base]).allocArea h d e pick).map fun (a, s) =>
      ((s.dropFlips h (a * 4) 4681).saveMeta h (.dir d (e / 8))).settle d
  | .shgBlock k =>
    match s.firstSlot h b.base k with
    | none => some s
    | some (old, mark) =>
      match s.slotPage h old with
      | none => some ((s.dropSlot h old k).recap h)
      | some (d, p) =>
        (s.takeSlot h k pick (if mark = 0 then none else some (mark - 1))).map fun (new, s) => s.moveSlot h d p old new k errs
  | _ => none

/-- A retirement goes on in a maintenance window of the channel: one block leaves the range; when none is left, the range is retired
(R153; 07_tiering R192). -/
def State.retireStep (s : State) (c : Nat) (errs : List Burst) (picks : List Nat) : State :=
  match (s.chan c).retiring with
  | [] => s
  | r :: rest =>
    let h := chanHalf c
    let start := c % 12 * chanUnits + r * rangeUnits
    let inside := s.media.filter fun b => b.half == h && overlaps b.base b.len start rangeUnits
    match inside with
    | [] => (s.updChan c fun ch => { ch with retiring := rest }).rangeRetired c r
    | _ =>
      match inside.find? (fun b => !s.blockHeld h b) with
      | none => s
      | some b =>
        if !s.moverMay h c 1 then s
        else match (s.took c 1).moveBlock h b errs (picks.headD 0) with
          | some s => s
          | none =>
            (s.updChan c fun ch => { ch with retiring := rest, deferred := ch.deferred ++ [r] }).say cDmcRetireDeferred clsCe (uChannel c)

def execRetirementMove (c : Fin 24) (errs : List Burst) (picks : List Nat) (s : State) : Result := .next (s.retireStep c errs picks)

/-! ### The audit (R97) -/

/-- A request that has read an entry of the map and is not complete: it stands behind stage 5. -/
def Req.pastMap (r : Req) : Bool :=
  match r.stage with
  | .waitEntry | .cross | .queued | .metaWait | .lockWait | .biWait | .evictWait => false
  | _ => r.hasDom

/-- Media that only lost structures named returns to the free lists, once the requests that have read those structures are complete
(R96, R97). -/
def State.audit (s : State) (h : Half) : State :=
  if s.reqs.any (fun r => r.pastMap && r.home == h && !r.answered) then s
  else
    let slots := (s.shg.get h).orphans
    let s := { s with media := s.media.filter (fun b => !(b.half == h && b.owner == MediaOwner.orphan))
                      shg := s.shg.upd h (fun (g : Shg) => { g with orphans := [] }) }
    (s.each slots fun s q => s.dropSlot h q.1 q.2).recap h

def execFrameAudit (h : Half) (s : State) : Result := .next (s.audit h)

end Sys2Proof.Machine
end

