-- ==== Sys2Proof/Machine/Tier.lean ====
section
/-! DEFINITION. The page mover's visits, its settings, and lost-write runs (07_tiering R186 to R199). -/

namespace Sys2Proof.Machine

/-! ### Visits (R187 to R192) -/

/-- What Table 7.1 asks for a page: nothing, an offer, a promotion. -/
inductive Verdict where
  | none | offer | promote
  deriving DecidableEq, Repr

/-- Table 7.1; `tier` is DOM_POLICY.TIER, `cold` is C of R189. -/
def verdict (tier level cold hot : Nat) (pg : Page) : Verdict :=
  match pg.state, tier with
  | .near, 1 => if pg.access ≤ cold ∧ pg.backoff = 0 then .offer else .none
  | .near, 2 => if pg.access < hot ∧ pg.backoff = 0 then .offer else .none
  | .shingle, 1 => if hot ≤ pg.access ∧ level = 0 then .promote else .none
  | .shingle, 0 => if level ≤ 2 then .promote else .none
  | _, _ => .none

/-- A half may move one more page in this millisecond (R192); the count is advanced. -/
def State.mayMove (s : State) (h : Half) : Bool × State :=
  let m := s.mover.get h
  let ms := s.now / 1000000
  let n := if m.moved.1 = ms then m.moved.2 else 0
  if s.fld tierCfgMoveCap = 0 ∨ n < s.fld tierCfgMoveCap then
    (true, { s with mover := s.mover.upd h (fun (m : Mover) => { m with moved := (ms, n + 1) }) })
  else (false, s)

/-- A compressor cluster of the half serves (15_faults Table 15.7). -/
def State.anyComp (s : State) (h : Half) : Bool := (List.range 8).any fun k => !s.fencedIn (uComp h.idx k)

/-- A page is offered to the compressor (R190). -/
def State.offerPage (s : State) (h : Half) (d p : Nat) : State :=
  if !s.anyComp h ∨ (s.mover.get h).offers.contains (d, p) then s
  else match s.mayMove h with
    | (false, s) => s
    | (true, s) =>
      let s : State := { s with mover := s.mover.upd h (fun (m : Mover) => { m with offers := m.offers ++ [(d, p)] }) }
      (s.count (tierMoveCntOffered h.idx) 1).pulse h bTier 0 0 (some d)

/-- A page is put up for a promotion (R190). -/
def State.wantPage (s : State) (h : Half) (d p : Nat) : State :=
  if (s.mover.get h).promotes.contains (d, p) then s
  else match s.mayMove h with
    | (false, s) => s
    | (true, s) =>
      let s : State := { s with mover := s.mover.upd h (fun (m : Mover) => { m with promotes := m.promotes ++ [(d, p)] }) }
      (s.count (tierMoveCntPromoted h.idx) 1).pulse h bTier 0 1 (some d)

/-- One page at a visit: evaluated, decayed, its back-off lowered (R188). -/
def State.visitPage (s : State) (h : Half) (d p : Nat) : State :=
  let pg := s.page d p
  let s' := match verdict (s.eff (domPolicyTier d)) (s.fld (tierStatusLevel h.idx)) (s.coldNow d)
      (s.fld (tierDomHotThresh d)) pg with
    | .offer => s.offerPage h d p
    | .promote => s.wantPage h d p
    | .none => s
  s'.setPage d p { pg with access := pg.access / 2 ^ s.fld tierCfgDecayShift, backoff := pg.backoff - 1 }

/-- The pages of an extent at a visit; both copies of its table follow (R187). -/
def State.visitPages (s : State) (h : Half) (d e : Nat) : State :=
  let s := s.each (List.range 512) fun s i => s.visitPage h d (e * 512 + i)
  s.each (List.range 64) fun s i => s.savePage d (e * 512 + 8 * i)

/-- A FRAME extent is split at a visit (R191). -/
def State.visitSplits (s : State) (d : Nat) (x : Extent) : Bool :=
  match s.eff (domPolicyTier d) with
  | 1 => x.access ≤ s.coldNow d
  | 2 => x.access < min 255 (512 * s.fld (tierDomHotThresh d)) || x.access == 255
  | _ => false

/-- A PAGED extent is joined where it can be, and no page of it has just been offered (R190, R191). -/
def State.tryJoin (s : State) (h : Half) (d e : Nat) : State :=
  match s.joinBase d e with
  | some b => if s.fld (tierStatusLevel h.idx) = 0 ∧ !s.mediaLost h b then s.joinExt d e b else s
  | none => s

/-- A visit of a FRAME extent: it is split and its pages are visited, or its count decays (R191). -/
def State.visitFrame (s : State) (h : Half) (d e : Nat) : State :=
  let x := s.ext d e
  let stays := (s.setExt d e { x with access := x.access / 2 ^ s.fld tierCfgDecayShift }).saveMeta h (.desc d (e / 4))
  if s.visitSplits d x then
    (match s.splitExt d e 0 with
    | some s => (s.settle d).visitPages h d e
    | none => stays)
  else stays

/-- A visit may run: in a window of the channel of the primary copy that it reads, when no other work is due there (R187, R192). -/
def State.visitMay (s : State) (h : Half) (d e : Nat) : Bool :=
  let x := s.ext d e
  match (if x.kind = .paged then some (chanOf h x.addr) else s.tableChan d) with
  | some c => s.moverMay h c 8
  | none => true

/-- A visit of an extent (R187 to R191). -/
def State.visit (s : State) (h : Half) (d e : Nat) : State :=
  if !s.domOn d ∨ s.home d ≠ h ∨ s.eff (domPolicyTclass d) = 0 ∨ s.winSize d ≤ e
      ∨ (s.mover.get h).visited.contains (d, e) ∨ !s.visitMay h d e then s
  else
    let s : State := { s with mover := s.mover.upd h (fun (m : Mover) => { m with visited := (d, e) :: m.visited }) }
    let s := s.pulse h bTier 0 3 (some d)
    let s := match (if (s.ext d e).kind = .paged then some (chanOf h (s.ext d e).addr) else s.tableChan d) with
      | some c => s.took c 1
      | none => s
    let s := s.readTable h d e
    let x := s.ext d e
    if s.extMoving d e then s.count (tierMoveCntSkipped h.idx) 1
    else match x.kind with
      | .paged => (s.visitPages h d e).tryJoin h d e
      | .frame => s.visitFrame h d e
      | _ => s

def execExtentVisit (h : Half) (d : Fin 1024) (ext : Nat) (s : State) : Result := .next (s.visit h d ext)

/-- Every extent of the half that holds anything to evaluate has been visited in this lap; at the others a visit does nothing (R187). -/
def State.lapDone (s : State) (h : Half) : Bool :=
  (s.homed h).all fun d => s.eff (domPolicyTclass d) == 0 || (s.extsOf d).all fun x =>
    decide (s.winSize d ≤ x.1) || !(x.2.kind == .paged || x.2.kind == .frame) || (s.mover.get h).visited.contains (d, x.1)

/-- A lap that has passed every extent ends, EPOCH_S after its start or late; the next one starts at once (R187). -/
def State.moverLap (s : State) (h : Half) : State :=
  let due := (s.mover.get h).lapStart + s.fld tierCfgEpochS * 1000000000
  let late := decide (due < s.now)
  let i := h.idx
  if !s.lapDone h ∨ s.now < due then s
  else
  let s := (s.setFlag (tierStatusEpochOverrun i) late).setFld (tierStatusLaps i) (s.fld (tierStatusLaps i) + 1)
  let s := if late then s.setFlag (if i = 0 then tierEvtEpochOverrunA else tierEvtEpochOverrunB) true else s
  { s with mover := s.mover.upd h (fun (m : Mover) => { m with lapStart := s.now, visited := [] }) }

def execTierLapEnd (h : Half) (s : State) : Result := .next (s.moverLap h)

/-! ### Settings -/

/-- TIER_CFG, its reserved encodings ignored (00_scope R17). -/
def State.tierCfg (s : State) (v : Nat) : State :=
  let put := fun (s : State) (f : Fld) => if bitsOf v f.lsb f.width = 0 then s else s.take f v
  (((put (put (put s tierCfgEpochS) tierCfgDecayShift) tierCfgBackoffEpochs).take tierCfgLowColdAdd v).take tierCfgMoveCap v)

def execTierCfgWrite (value : Word) (s : State) : Result := .next (s.write .plain false none fun s => s.tierCfg value.toNat)

/-- TIER_CAP_CFG (R194). -/
def State.tierCapCfg (s : State) (v : Nat) : State :=
  let g := fun (f : Fld) => bitsOf v f.lsb f.width
  if g tierCapCfgLowPm > g tierCapCfgPressurePm ∧ g tierCapCfgPressurePm > g tierCapCfgCriticalPm
      ∧ g tierCapCfgLowPm ≤ 1000 ∧ g tierCapCfgHystPm ≤ 1000 then
    (s.each [tierCapCfgLowPm, tierCapCfgPressurePm, tierCapCfgCriticalPm, tierCapCfgHystPm] fun s f => s.take f v).recapAll
  else s.setFlag tierEvtCfgReject true

def execTierCapCfgWrite (value : Word) (s : State) : Result := .next (s.write .plain false none fun s => s.tierCapCfg value.toNat)

/-- TIER_DOM_d (R189). -/
def State.tierDomSet (s : State) (d v : Nat) : State :=
  if bitsOf v 0 8 < bitsOf v 8 8 then (s.take (tierDomColdThresh d) v).take (tierDomHotThresh d) v
  else s.setFlag tierEvtCfgReject true

def execTierDomWrite (d : Fin 1024) (value : Word) (s : State) : Result :=
  .next (s.write .plain false none fun s => s.tierDomSet d value.toNat)

/-! ### Lost-write runs (R199) -/

/-- The open run of a domain stops extending, and its record closes; so does the summary of a second that has passed. -/
def State.closeLostRun (s : State) (h : Half) (d : Nat) : State :=
  let s := s.closeFold h d
  match (s.lostRuns.get h).find? (fun (x : LostRun) => x.dom == d) with
  | none => s
  | some r => ({ s with lostRuns := s.lostRuns.upd h (fun (xs : List LostRun) => xs.filter (fun x => x.dom != d)) } : State).closeRecord r.seq

def execLostWriteRunClose (h : Half) (d : Fin 1024) (s : State) : Result := .next (s.closeLostRun h d)

end Sys2Proof.Machine
end

