-- ==== Sys2Proof/Machine/Offload.lean ====
section
/-! DEFINITION. The offload engine: rings, descriptors and jobs (14_offload R320 to R332). -/

namespace Sys2Proof.Machine

/-! ### Rings (R320 to R322, Table 14.1) -/

/-- A ring moves to ERROR with a reason; jobs in flight finish. -/
def State.ringError (s : State) (fn r reason : Nat) : State :=
  (s.setFld (oflRingStatusState fn r) 3).setFld (oflRingStatusReason fn r) reason

/-- The first failing condition of R321: 0 none, 1 SIZE_INVALID, 2 TAIL_INVALID, 3 LOG_PENDING, 4 BME. -/
def State.ringRefusal (s : State) (fn r : Nat) : Nat :=
  let size := s.fld (oflRingCfgSize fn r)
  if !((List.range 13).any fun k => size == 2 ^ (k + 3)) then 1
  else if size ≤ s.fld (oflRingTailTail fn r) then 2
  else if (List.range 16).any (fun e => s.flag (oflAbortValid fn r e)) then 3
  else if !(s.func fn).bme then 4
  else 0

/-- ENABLE = 1 is written. -/
def State.ringEnable (s : State) (fn r : Nat) : State :=
  if !s.feature fn 0 ∨ s.fld (oflRingStatusState fn r) = 1 then s
  else
    let s := s.setFlag (oflRingCtrlEnable fn r) true
    match s.ringRefusal fn r with
    | 0 =>
      let s := s.updRing fn r fun x => { x with lap := x.headLap, next := s.fld (oflRingHeadHead fn r) }
      let s : State := { s with jobs := s.jobs.filter (fun (j : Job) => !(j.fn == fn && j.ring == r && j.written)) }
      (s.setFld (oflRingStatusState fn r) 1).setFld (oflRingStatusReason fn r) 0
    | reason => s.ringError fn r reason

def execRingEnable (p ld : Fin 16) (r : Fin 4) (s : State) : Result := 
  .next (s.barWrite p ld fun s => s.ringEnable (fnOf p ld) r)

/-- Jobs of a ring that have not written their record. -/
def State.inFlight (s : State) (fn r : Nat) : List Job := s.jobs.filter fun j => j.fn == fn && j.ring == r && !j.written

/-- INFLIGHT follows; a ring that has been disabled stops when no job remains. -/
def State.ringTally (s : State) (fn r : Nat) : State :=
  let n := (s.inFlight fn r).length
  let s := s.setFld (oflRingStatusInflight fn r) n
  if n = 0 ∧ s.fld (oflRingStatusState fn r) = 1 ∧ !s.flag (oflRingCtrlEnable fn r) then
    s.setFld (oflRingStatusState fn r) 2
  else s

/-- ENABLE = 0 is written. -/
def State.ringDisable (s : State) (fn r : Nat) : State := (s.setFlag (oflRingCtrlEnable fn r) false).ringTally fn r

def execRingDisable (p ld : Fin 16) (r : Fin 4) (s : State) : Result := 
  .next (s.barWrite p ld fun s => s.ringDisable (fnOf p ld) r)

/-- TAIL is written. -/
def State.ringTail (s : State) (fn r v : Nat) : State :=
  let s := s.setFld (oflRingTailTail fn r) v
  if s.fld (oflRingStatusState fn r) = 1 ∧ s.fld (oflRingCfgSize fn r) ≤ s.fld (oflRingTailTail fn r) then s.ringError fn r 2
  else s

def execRingTailWrite (p ld : Fin 16) (r : Fin 4) (value : Word) (s : State) : Result :=
  .next (s.barWrite p ld fun s => s.ringTail (fnOf p ld) r value.toNat)

/-- ABORT_CLR (R331). -/
def State.abortClear (s : State) (fn r : Nat) : State :=
  s.each (List.range 16) fun s e => s.setFlag (oflAbortValid fn r e) false

def execRingAbortClear (p ld : Fin 16) (r : Fin 4) (s : State) : Result := 
  .next (s.barWrite p ld fun s => s.abortClear (fnOf p ld) r)

/-! ### Descriptors (R325, Table 14.2) -/

/-- Fields of a descriptor. -/
def Job.word (j : Job) (k : Nat) : Nat := bitsOf j.desc (64 * k) 64
def Job.op (j : Job) : Nat := bitsOf j.desc 0 8
def Job.fence (j : Job) : Bool := bitAt j.desc 8
def Job.intr (j : Job) : Bool := bitAt j.desc 9
def Job.format (j : Job) : Nat := bitsOf j.desc 10 2
def Job.kind (j : Job) : Nat := bitsOf j.desc 12 2
def Job.chain (j : Job) : Bool := bitAt j.desc 14
def Job.tag (j : Job) : Nat := bitsOf j.desc 16 16
def Job.len (j : Job) : Nat := bitsOf j.desc 32 32
def Job.src (j : Job) : Nat := j.word 1
def Job.dst (j : Job) : Nat := j.word 2
def Job.cap (j : Job) : Nat := bitsOf j.desc 192 32
def Job.checkIn (j : Job) : Nat := bitsOf j.desc 224 32

/-- The check of some bytes continued from a value (Table 14.2). -/
def checkFrom (kind start : Nat) (bs : List Byte) : Nat :=
  match kind with
  | 1 => crc32 start bs
  | 2 => adler32 start bs
  | 3 => crc32c start bs
  | _ => start

/-- Where a job's check starts: CHECK_IN with CHAIN, else fresh. -/
def Job.checkStart (j : Job) : Nat := if j.chain then j.checkIn else if j.kind = 2 then 1 else 0

/-- The check of a job's data. -/
def Job.checkOf (j : Job) (bs : List Byte) : Nat :=
  if j.kind = 0 then (if j.chain then j.checkIn else 0) else checkFrom j.kind j.checkStart bs

/-- A descriptor that R325 step 2 refuses. -/
def Job.bad (j : Job) : Bool :=
  let packs := j.op == 3 || j.op == 4
  bitAt j.desc 15 || j.word 5 != 0 || j.word 6 != 0 || j.word 7 != 0
    || (packs && j.format == 3) || (!packs && (j.format != 0 || j.cap != 0))
    || (j.op == 2 && j.src != 0) || (j.op == 5 && (j.dst != 0 || j.kind == 0))
    || (packs && (j.format == 1 || j.format == 2) && (j.chain || j.kind != 0))

/-- The domain side of a domain job: an LD-DPA, and the domain byte range it names, or the status that refuses it (R329). -/
def State.domSide (s : State) (fn a len : Nat) : Except Nat (Nat × Nat) :=
  let p := fn / 17
  let n := fn % 17
  match (s.ldRanges p n).find? (fun r => r.1 * 2 ^ 21 ≤ a && a + len ≤ (r.1 + r.2.1) * 2 ^ 21) with
  | none => .error 0x05
  | some r =>
    let dpa := a - r.1 * 2 ^ 21 + r.2.2 * 2 ^ 21
    match s.domOfDpa dpa, s.domOfDpa (dpa + len - 1) with
    | some (d, l), some (d', _) => if d ≠ d' then .error 0x05 else if s.ownerLd d p n then .ok (d, l * 64 + dpa % 64) else .error 0x06
    | _, _ => .error 0x05

/-- The LD-DPA of a domain job. -/
def Job.ldDpa (j : Job) : Nat := if j.op = 6 then j.dst else j.src

/-- The first status of R325 that applies, none where the job runs. -/
def State.descStatus (s : State) (j : Job) : Option Nat :=
  let need := match j.op with | 1 | 2 | 5 => some 0 | 3 | 4 => some 1 | 6 | 7 => some 2 | _ => none
  match need with
  | none => some 0x02
  | some b =>
    if !s.feature j.fn b then some 0x02
    else if j.bad then some 0x03
    else if j.len = 0 then some 0x01
    else if j.op = 1 ∧ j.src < j.dst + j.len ∧ j.dst < j.src + j.len then some 0x04
    else if j.op = 6 ∨ j.op = 7 then
      (match s.domSide j.fn j.ldDpa j.len with | .error e => some e | .ok _ => none)
    else none

/-- A job that reads host memory: COPY, DEFLATE, INFLATE, CRC, LOAD_DOMAIN (Table 14.3). -/
def Job.readsHost (j : Job) : Bool := j.op == 1 || (3 ≤ j.op && j.op ≤ 6)

/-- The tags of a function that reads may not take: those outstanding and those quarantined (02_host_ports R65). -/
def Func.busyTags (f : Func) : List Nat := f.tags ++ f.quarantined

/-- A job's read takes the lowest tag that is free (02_host_ports R65). -/
def State.takeTag (s : State) (j : Job) : State :=
  match (List.range 1024).find? (fun t => !(s.func j.fn).busyTags.contains t) with
  | none => s
  | some t =>
    let s := s.updFunc j.fn fun f => { f with tags := f.tags ++ [t] }
    { s with jobs := s.jobs.map (fun (x : Job) => if x == j then { x with rtag := some t } else x) }

/-- A job ends with a status; the tag of its read is free again. -/
def State.endJob (s : State) (j : Job) (status bytesOut consumed check : Nat) : State :=
  let s := match j.rtag with
    | some t => s.updFunc j.fn fun f => { f with tags := f.tags.filter (· != t) }
    | none => s
  { s with jobs := s.jobs.map fun (x : Job) =>
      if x == j then { x with status := some status, bytesOut, consumed, check := check % 2 ^ 32 } else x }

/-- The check of a job that carried none to its end: a free value. -/
def State.endFree (s : State) (j : Job) (status bytesOut consumed : Nat) : State :=
  let (v, s) := s.freeNat
  s.endJob j status bytesOut consumed v

/-- A descriptor read returns, or fails: the job starts, where the ring may hold one more (R322). -/
def State.fetchDesc (s : State) (fn r : Nat) (desc : Option (BitVec 512)) : State :=
  let size := s.fld (oflRingCfgSize fn r)
  let ring := s.ring fn r
  let h := portHalf (fn / 17)
  let all := s.jobs.filter fun j => j.fn == fn && j.ring == r
  if s.df ∨ s.fenced (uHalf h.idx) ∨ s.fld (oflRingStatusState fn r) ≠ 1 ∨ !s.flag (oflRingCtrlEnable fn r)
      ∨ !(s.func fn).bme ∨ ring.next = s.fld (oflRingTailTail fn r) ∨ (s.inFlight fn r).length ≥ 16
      ∨ (s.jobs.filter (fun j => portHalf (j.fn / 17) == h && !j.written)).length ≥ 1024 then s
  else
    let s := s.emit (.dmaRead fn (s.fld (oflRingBaseDescBase fn r) * 4096 + ring.next * 64) 64)
    match desc with
    | none => s.ringError fn r 5
    | some w =>
      let j : Job := { fn, ring := r, idx := ring.next, desc := w.toNat, phase := ring.lap, rtag := none, status := none, check := 0,
                       bytesOut := 0, consumed := 0, written := false, next := 0, lines := [] }
      if j.fence ∧ all.any (fun x => !x.written) then s
      else
        let wraps := decide (ring.next + 1 = size)
        let s := s.updRing fn r fun x => { x with next := if wraps then 0 else x.next + 1, lap := if wraps then !x.lap else x.lap }
        let j := { j with check := j.checkStart }
        let s : State := { s with jobs := s.jobs ++ [j] }
        let s := (s.pulse h bOfl 0 0 none).ringTally fn r
        match s.descStatus j with
        | some 0x01 => s.endJob j 0x01 0 0 (if j.chain then j.checkIn else 0)
        | some e => s.endFree j e 0 0
        | none => if j.readsHost then s.takeTag j else s

def execDescriptorFetch (p ld : Fin 16) (r : Fin 4) (desc : Option (BitVec 512)) (s : State) : Result :=
  .next (s.fetchDesc (fnOf p ld) r desc)

/-! ### Jobs between host addresses (R325 to R328) -/

/-- The job that a command names, while it runs. -/
def State.running (s : State) (fn r idx op : Nat) : Option Job :=
  s.jobs.find? fun j => j.fn == fn && j.ring == r && j.idx == idx && j.op == op && j.status.isNone && !j.written

/-- Source bytes are read by DMA. -/
def State.readSrc (s : State) (j : Job) : State :=
  (s.emit (.dmaRead j.fn j.src j.len)).pulses (portHalf (j.fn / 17)) bOfl 0 2 none (ceilDiv j.len 64)

/-- Bytes are written to host memory by DMA. -/
def State.writeDst (s : State) (j : Job) (addr : Nat) (bs : List Byte) : State :=
  if bs.isEmpty then s
  else (s.emit (.dmaWrite j.fn addr bs)).pulses (portHalf (j.fn / 17)) bOfl 0 3 none (ceilDiv bs.length 64)

/-- A DMA error ends a job; how far it came is open (Table 14.5). -/
def State.dmaFail (s : State) (j : Job) : State :=
  let (a, s) := s.freeNat
  let (b, s) := s.freeNat
  s.endFree j 0x07 (a % (j.len + 1)) (b % (j.len + 1))

/-- COPY. -/
def State.copyJob (s : State) (fn r idx : Nat) (source : Option (List Byte)) (refused : Bool) : State :=
  match s.running fn r idx 1 with
  | none => s
  | some j =>
    let s := s.readSrc j
    match source with
    | none => s.dmaFail j
    | some bs =>
      let bs := padTo j.len 0 bs
      let s := s.writeDst j j.dst bs
      if refused then s.dmaFail j else s.endJob j 0 j.len j.len (j.checkOf bs)

def execCopy (p ld : Fin 16) (r : Fin 4) (idx : Nat) (source : Option (List Byte)) (refused : Bool) (s : State) : Result :=
  .next (s.copyJob (fnOf p ld) r idx source refused)

/-- FILL: the pattern repeated from its byte 0. -/
def State.fillJob (s : State) (fn r idx : Nat) (refused : Bool) : State :=
  match s.running fn r idx 2 with
  | none => s
  | some j =>
    let bs := ((List.replicate (ceilDiv j.len 8) (leBytes 8 (j.word 4))).flatten).take j.len
    let s := s.writeDst j j.dst bs
    if refused then s.dmaFail j else s.endJob j 0 j.len 0 (j.checkOf bs)

def execFill (p ld : Fin 16) (r : Fin 4) (idx : Nat) (refused : Bool) (s : State) : Result :=
  .next (s.fillJob (fnOf p ld) r idx refused)

/-- Jobs of an operation that run on a half's engines ahead of a job. -/
def State.jobsAhead (s : State) (h : Half) (op : Nat) (j : Job) : Nat :=
  ((s.jobs.takeWhile (fun x => !(x.fn == j.fn && x.ring == j.ring && x.idx == j.idx))).filter
    (fun x => x.op == op && x.status.isNone && portHalf (x.fn / 17) == h)).length

/-- A compressor is free for a job: of each cluster offload may hold COMP_MAX, and what the page mover leaves (R326). -/
def State.compFree (s : State) (h : Half) (j : Job) : Bool :=
  let most := min 2 (s.fld oflCfgCompMax)
  let room := ((List.range 8).filter (fun k => !s.fencedIn (uComp h.idx k))).map fun k =>
    min most (2 - ((s.shg.get h).comps.filter (fun c => c.cluster == k && !c.placed)).length)
  decide (s.jobsAhead h 3 j < room.foldl (· + ·) 0)

/-- DEFLATE: `raw` is the raw stream as the compressor produced it, one that R327 allows. -/
def State.deflateJob (s : State) (fn r idx : Nat) (source : Option (List Byte)) (raw : List Byte) (refused : Bool) : State :=
  match s.running fn r idx 3 with
  | none => s
  | some j =>
    let h := portHalf (fn / 17)
    if !s.anyComp h then s.endFree j 0x0A 0 0
    else if !s.compFree h j then s
    else match source with
      | none => (s.readSrc j).dmaFail j
      | some bs =>
        let bs := padTo j.len 0 bs
        if !deflateValid bs raw then s
        else
          let s := s.readSrc j
          let out := deflateWrap j.format bs raw
          let s := s.writeDst j j.dst (out.take j.cap)
          if refused then s.dmaFail j
          else if out.length > j.cap then
            let (v, s) := s.freeNat
            s.endFree j 0x09 j.cap (v % (j.len + 1))
          else
            s.endJob j 0 out.length j.len (match j.format with | 0 => j.checkOf bs | 1 => adler32 1 bs | _ => crc32 0 bs)

def execDeflate (p ld : Fin 16) (r : Fin 4) (idx : Nat) (source : Option (List Byte)) (blocks : List Byte) (refused : Bool)
    (s : State) : Result :=
  .next (s.deflateJob (fnOf p ld) r idx source blocks refused)

/-- A decompressor cluster of the half serves. -/
def State.anyDecomp (s : State) (h : Half) : Bool := (List.range 8).any fun k => !s.fencedIn (uDecomp h.idx k)

/-- A decompressor is free for a job: of each cluster offload may hold OFL_DECOMP_MAX, and every chunk decode comes before it (R326;
06_shingle R178). -/
def State.decompFree (s : State) (h : Half) (j : Job) : Bool :=
  let clusters := ((List.range 8).filter (fun k => !s.fencedIn (uDecomp h.idx k))).length
  let n := s.jobsAhead h 4 j
  decide (n < min 6 (s.fld shgCfgOflDecompMax) * clusters) && decide (n + (s.decodeOrder h).length < s.decoders h)

/-- INFLATE. -/
def State.inflateJob (s : State) (fn r idx : Nat) (source : Option (List Byte)) (refused : Bool) : State :=
  match s.running fn r idx 4 with
  | none => s
  | some j =>
    if !s.anyDecomp (portHalf (fn / 17)) then s.endFree j 0x0A 0 0
    else if !s.decompFree (portHalf (fn / 17)) j then s
    else
      let s := s.readSrc j
      match source with
      | none => s.dmaFail j
      | some bs =>
        let d := Sys2Proof.Machine.inflateJob j.format j.cap (padTo j.len 0 bs)
        let s := s.writeDst j j.dst d.out
        if refused then s.dmaFail j
        else if d.err ≠ 0 then s.endFree j (0x10 + d.err) d.out.length d.consumed
        else s.endJob j 0 d.out.length d.consumed (if j.format = 0 then j.checkOf d.out else d.check)

def execInflate (p ld : Fin 16) (r : Fin 4) (idx : Nat) (source : Option (List Byte)) (refused : Bool) (s : State) : Result :=
  .next (s.inflateJob (fnOf p ld) r idx source refused)

/-- CRC. -/
def State.crcJob (s : State) (fn r idx : Nat) (source : Option (List Byte)) : State :=
  match s.running fn r idx 5 with
  | none => s
  | some j =>
    let s := s.readSrc j
    match source with
    | none =>
      let (b, s) := s.freeNat
      s.endFree j 0x07 0 (b % (j.len + 1))
    | some bs => s.endJob j 0 0 j.len (j.checkOf (padTo j.len 0 bs))

def execCrc (p ld : Fin 16) (r : Fin 4) (idx : Nat) (source : Option (List Byte)) (s : State) : Result :=
  .next (s.crcJob (fnOf p ld) r idx source)

/-! ### Domain jobs (R329, R330) -/

/-- Lines that a domain job covers, from the byte offset of its first byte within the domain. -/
def Job.total (j : Job) (off : Nat) : Nat := (off % 64 + j.len + 63) / 64

/-- Of line `k` of a domain job: its first byte in the job's data, the byte of the line where that falls, and how many. -/
def Job.piece (j : Job) (off k : Nat) : Nat × Nat × Nat :=
  let skip := off % 64
  let first := if k = 0 then 0 else 64 * k - skip
  let lo := if k = 0 then skip else 0
  (first, lo, min (64 - lo) (j.len - first))

/-- The line that a STORE_DOMAIN job delivers next. -/
def Job.due (j : Job) (off : Nat) : Nat := if j.bytesOut = 0 then 0 else (off % 64 + j.bytesOut) / 64

/-- A request of a domain job enters stage 2 (R330): as a host request of the LD, policed in the domain's class. -/
def State.jobReq (s : State) (j : Job) (d line : Nat) (kind : ReqKind) (data : Line) (enables : BitVec 64) : State :=
  let h := portHalf (j.fn / 17)
  let r : Req := { rid := 0, org := .offload j.fn j.ring j.idx, tag := 0, kind, want := .none, data, enables, poison := false,
                   dom := d, line, dpa := s.dpaOf d line, gen := s.fld (domStatusGen d), home := s.home d, cls := 7, color := 0,
                   stage := .waitEntry, resp := if kind = .rd then .memData else .cmp,
                   stamps := { arrive := s.now, tide := s.tns } }
  let (s, r) := s.mark h r (s.preColour (j.fn / 17) (j.fn % 17))
  let s := (s.admitReq r).domTally d
  match (s.reqs.getLast?).map (fun q => (q.rid, q.stage)) with
  | some (rid, Stage.queued) =>
    if s.df then s.failReq rid uDevice
    else if s.fenced (uHalf (s.home d).idx) then s.failReq rid (uHalf (s.home d).idx) else s
  | _ => s

/-- A job of the ring changed. -/
def State.updJob (s : State) (j : Job) (f : Job → Job) : State :=
  { s with jobs := mapFirst (fun (x : Job) => x.fn == j.fn && x.ring == j.ring && x.idx == j.idx && !x.written) f s.jobs }

/-- LOAD_DOMAIN issues its next line: `source` is the part of the source that the line takes (R330). -/
def State.loadLine (s : State) (fn r idx : Nat) (source : Option (List Byte)) : State :=
  match s.running fn r idx 6 with
  | none => s
  | some j =>
    match s.domSide fn j.dst j.len with
    | .error e => s.endFree j e j.bytesOut j.consumed
    | .ok (d, off) =>
      if j.total off ≤ j.next then s
      else
        let (first, lo, n) := j.piece off j.next
        let s := (s.emit (.dmaRead fn (j.src + first) n)).pulses (portHalf (fn / 17)) bOfl 0 2 none 1
        match source with
        | none => s.dmaFail j
        | some bs =>
          let bs := padTo n 0 bs
          let data : Line := bytesLine (List.replicate lo 0 ++ bs)
          let en : BitVec 64 := if n = 64 then allBytes else BitVec.ofNat 64 ((2 ^ n - 1) * 2 ^ lo)
          let s := s.updJob j fun x => { x with
            next := x.next + 1, bytesOut := x.bytesOut + n, consumed := x.consumed + n,
            check := checkFrom x.kind x.check bs }
          s.jobReq j d (off / 64 + j.next) (if n = 64 then .wr else .wrPtl) data en

def execLoadDomain (p ld : Fin 16) (r : Fin 4) (idx : Nat) (source : Option (List Byte)) (s : State) : Result :=
  .next (s.loadLine (fnOf p ld) r idx source)

/-- STORE_DOMAIN delivers the lines that have come back, in order; `fuel` bounds them. A poisoned one ends the job (R330). -/
def State.deliver : Nat → State → Nat → Nat → Nat → Bool → State
  | 0, s, _, _, _, _ => s
  | fuel + 1, s, fn, r, idx, refused =>
    match s.running fn r idx 7 with
    | none => s
    | some j =>
      match s.domSide fn j.src j.len with
      | .error e => s.endFree j e j.bytesOut j.consumed
      | .ok (_, off) =>
        let k := j.due off
        match j.lines.find? (fun q => q.1 == off / 64 + k) with
        | none => s
        | some q =>
          let (first, lo, n) := j.piece off k
          if q.2.2 then s.endFree j 0x08 j.bytesOut j.consumed
          else
            let bs := ((lineBytes q.2.1).drop lo).take n
            let s := s.writeDst j (j.dst + first) bs
            if refused then s.dmaFail j
            else
              let s := s.updJob j fun x => { x with
                bytesOut := x.bytesOut + n, consumed := x.consumed + n, check := checkFrom x.kind x.check bs,
                lines := x.lines.erase q }
              State.deliver fuel s fn r idx false

/-- STORE_DOMAIN delivers what has come back and issues its next line. -/
def State.storeLine (s : State) (fn r idx : Nat) (refused : Bool) : State :=
  let s := State.deliver 64 s fn r idx refused
  match s.running fn r idx 7 with
  | none => s
  | some j =>
    match s.domSide fn j.src j.len with
    | .error e => s.endFree j e j.bytesOut j.consumed
    | .ok (d, off) =>
      if j.total off ≤ j.next then s
      else
        let s := s.updJob j fun x => { x with next := x.next + 1 }
        s.jobReq j d (off / 64 + j.next) .rd 0 0

def execStoreDomain (p ld : Fin 16) (r : Fin 4) (idx : Nat) (refused : Bool) (s : State) : Result :=
  .next (s.storeLine (fnOf p ld) r idx refused)

/-! ### Completion (R322 to R324) -/

/-- The status a job ends with, where it has ended: a LOAD waits for every write it issued (R323). -/
def Job.ended (j : Job) : Option Nat :=
  let loaded := decide (j.op ≠ 6 ∨ j.next ≤ j.lines.length)
  match j.status with
  | some e => if loaded then some e else none
  | none =>
    if (j.op = 6 ∨ j.op = 7) ∧ j.bytesOut = j.len ∧ loaded then some 0 else none

/-- HEAD passes every index whose record, and every earlier one, is written; `fuel` bounds them. -/
def State.passHead : Nat → State → Nat → Nat → State
  | 0, s, _, _ => s
  | fuel + 1, s, fn, r =>
    let head := s.fld (oflRingHeadHead fn r)
    match s.jobs.find? (fun j => j.fn == fn && j.ring == r) with
    | none => s
    | some j =>
      if j.written ∧ j.idx = head then
        let wraps := decide (head + 1 = s.fld (oflRingCfgSize fn r))
        let s := s.setFld (oflRingHeadHead fn r) (if wraps then 0 else head + 1)
        let s := s.updRing fn r fun x => { x with headLap := if wraps then !x.headLap else x.headLap }
        State.passHead fuel { s with jobs := s.jobs.erase j } fn r
      else s

/-- A job that has ended writes its completion record, and HEAD and the interrupt follow; where the write is refused, the ring
goes to ERROR (Table 14.1). -/
def State.completeJob (s : State) (fn r idx : Nat) (refused : Bool) : State :=
  match s.jobs.find? (fun j => j.fn == fn && j.ring == r && j.idx == idx && !j.written) with
  | none => s
  | some j =>
    match j.ended with
    | none => s
    | some status =>
      let w0 := status + at_ 8 (b2n j.phase) + at_ 16 j.tag + at_ 32 (j.check % 2 ^ 32)
      let w1 := j.bytesOut + at_ 32 j.consumed
      let s := s.emit (.dmaWrite fn (s.fld (oflRingCbaseCplBase fn r) * 4096 + idx * 16) (leBytes 8 w0 ++ leBytes 8 w1))
      let s := s.pulse (portHalf (fn / 17)) bOfl 0 1 none
      if refused then
        (({ s with jobs := s.jobs.erase j } : State).ringError fn r 6).ringTally fn r
      else
        let s := s.updJob j fun x => { x with written := true }
        let s := (State.passHead s.jobs.length s fn r).ringTally fn r
        if j.intr then s.msix fn (s.fld (oflRingCfgMsixVec fn r)) else s

def execJobComplete (p ld : Fin 16) (r : Fin 4) (idx : Nat) (refused : Bool) (s : State) : Result :=
  .next (s.completeJob (fnOf p ld) r idx refused)

end Sys2Proof.Machine
end

