-- ==== Sys2Proof/Machine/Ports.lean ====
section
/-! DEFINITION. Host ports and functions: link training and loss, PERST_N, resets of a function, Bus Master Enable, BARs, DOE,
IDE keys, HDM decoders and feature locks (02_host_ports R47 to R74; 03_domains R76; 08_protection R223). -/

namespace Sys2Proof.Machine

/-! ### Who answers -/

/-- A configuration request of a function: answered by a retry while an FLR runs (R64). -/
def State.config (s : State) (p ld : Nat) (f : State → State) : State :=
  if !s.present p ld then s else if (s.func (fnOf p ld)).flr then s.emit (.retryLater (fnOf p ld)) else f s

/-! ### Links (R49 to R52, R67; 16_power R354, R355) -/

/-- Lanes of a configured width, and of a trained one (HP_PORT_CFG, HP_PORT_STATUS). -/
def cfgLanes (w : Nat) : Nat := 4 * 2 ^ w

/-- A width fits: its lanes at the bottom are good, or, with lane reversal, those at the top (R49; log 86). -/
def widthOk (cfg good w : Nat) : Bool :=
  decide (w ≤ cfg) && ((List.range w).all (bitAt good) || (List.range w).all (fun i => bitAt good (cfg - 1 - i)))

/-- The widest of x16, x8, x4, x2 and x1 that the good lanes support: log2 of its lanes (R49). -/
def widestPort (cfg good : Nat) : Option Nat := [4, 3, 2, 1, 0].find? fun k => widthOk cfg good (2 ^ k)

/-- The highest rate that both ends support, that MAX_RATE allows and whose equalisation succeeds (R51). -/
def State.portRate (s : State) (p hostRates eqOk : Nat) : Option Nat :=
  [6, 5, 4, 3, 2, 1, 0].find? fun r => decide (r ≤ s.fld (hpPortCfgMaxRate p)) && bitAt hostRates r && bitAt eqOk r

/-- A port may train: past EARLY, PERST_N released, not fenced, the device running and no Boot Hold (17_boot R392; R43). -/
def State.mayTrain (s : State) (p : Nat) : Bool :=
  s.portOn p && !(s.port p).perst && s.boot.infoValid && !s.fencedIn (uPort p) && s.fld pwrStatusDeviceState == 0
    && !s.power.off && ((s.port p).link == .detect || (s.port p).link == .recovery)

/-- A link reaches L0 at a rate and a width (R49 to R51, HP_PORT_STATUS, HP_EVENT). -/
def State.portTrained (s : State) (p rate width : Nat) (latOpt : Bool) : State :=
  let s := ((s.setFld (hpPortStatusCurRate p) rate).setFld (hpPortStatusCurWidth p) width).setFld (hpPortStatusTrainFail p) 0
  let s := s.setFlag (hpPortStatusLatOptActive p) (latOpt && s.flag (hpPortCfgLatOptFlit p))
  let s := match (s.port p).lastRate with
    | some r => if r = rate then s else s.setFlag (hpEventRateChange p) true
    | none => s
  let s := s.updPort p fun q => { q with link := .l0, lastRate := some rate }
  let s := if s.flag (hpPortStatusLinkUp p) then s else (s.setFlag (hpPortStatusLinkUp p) true).setFlag (hpEventLinkUp p) true
  if 2 ^ width < cfgLanes (s.fld (hpPortCfgWidth p)) then
    (s.setFlag (hpEventWidthDegrade p) true).say cHpWidthDegrade clsCe (uPort p)
  else s

/-- A link trains. The port votes RUN from the start of training, and L0 waits until every domain it votes for is RUN
(16_power R355). -/
def State.portTrain (s : State) (p : Nat) (flitMode latOpt : Bool) (hostRates eqOk goodLanes : Nat) : State :=
  if !s.mayTrain p then s
  else if !flitMode then
    ((s.setFld (hpPortStatusTrainFail p) 1).updPort p fun q => { q with link := .detect }).say cHpFlitModeUnsup clsCe (uPort p)
  else
    match s.portRate p hostRates eqOk, widestPort (cfgLanes (s.fld (hpPortCfgWidth p))) goodLanes with
    | some rate, some width =>
      let s := s.updPort p fun q => { q with link := .recovery }
      if s.portDomainsRun p then s.portTrained p rate width latOpt else s
    | _, _ => s.setFld (hpPortStatusTrainFail p) 2

def execPortLinkTrain (p : Fin 16) (flitMode latOpt : Bool) (hostRates eqOk : BitVec 7) (goodLanes : BitVec 16) (s : State) :
    Result := .next (s.portTrain p flitMode latOpt hostRates.toNat eqOk.toNat goodLanes.toNat)

/-- HOST_LINK_REPLAY: a replay of the link layer that touches some requests (R52). -/
def State.hostReplay (s : State) (p : Nat) (touched : List (Fin 65536)) : State :=
  if !s.flag (hpPortStatusLinkUp p) then s
  else (s.count (hpReplayCntReplays p) 1).each touched fun s r => s.replayed r.val

def execHostLinkReplay (p : Fin 16) (touched : List (Fin 65536)) (s : State) : Result := .next (s.hostReplay p touched)

/-- The link of a port is lost: it leaves for Detect, or Recovery fails (R67, R68). -/
def State.portLost (s : State) (p : Nat) : State := if s.portOn p then s.linkLost p else s

def execLinkLoss (p : Fin 16) (s : State) : Result := .next (s.portLost p)

/-- HOST_LINK_STATE_CHANGE: the link power state that a port votes by; L0 waits for the domains (16_power R354, R355). -/
def State.linkState (s : State) (p : Nat) (new : LinkState) : State :=
  if !s.portOn p || !s.flag (hpPortStatusLinkUp p) then s
  else
    match new with
    | .detect => s.portLost p
    | .l0 | .l0p =>
      if (s.port p).link = .l0 ∨ (s.port p).link = .l0p ∨ s.portDomainsRun p then s.updPort p fun q => { q with link := new }
      else s.updPort p fun q => { q with link := .recovery }
    | _ => s.updPort p fun q => { q with link := new }

def execHostLinkStateChange (p : Fin 16) (new : LinkState) (s : State) : Result := .next (s.linkState p new)

/-- PERST_N of a port is asserted (R67). -/
def execPerstAssert (p : Fin 16) (s : State) : Result :=
  .next (
    let s := s.updPort p fun q => { q with perst := true }
    let s := s.setFlag (hpEventPerst p) true
    s.portLost p)

/-- PERST_N of a port is released: the port may train (17_boot R392), and a device in DEEP_SLEEP wakes (16_power Table
16.8). -/
def execPerstRelease (p : Fin 16) (s : State) : Result :=
  .next (
    if !(s.port p).perst then s
    else
      let s := s.updPort p fun q => { q with perst := false }
      if s.portOn p && s.flag pwrCfgWakePerstEn then s.wake 1 else s)

/-! ### Resets of a function, Bus Master Enable, completions (R64 to R66) -/

def execFlrStart (p : Fin 16) (ld : Fin 17) (s : State) : Result :=
  .next (s.config p ld fun s => s.startFlr (fnOf p ld))

/-- An FLR ends: configuration space, BARs and feature words are reset; HDM decoders and IDE streams stay (Table 2.9). -/
def State.flrDone (s : State) (fn : Nat) : State :=
  if !(s.func fn).flr then s else (s.resetFunc fn).setFlag (hpEventFlrDone (fn / 17)) true

def execFlrDone (p : Fin 16) (ld : Fin 17) (s : State) : Result := .next (s.flrDone (fnOf p ld))

/-- Bus Master Enable is cleared. -/
def State.bmeClear (s : State) (fn : Nat) : State :=
  let s := s.stopRings fn
  s.updFunc fn fun f => { f with bme := false, quarantined := f.quarantined ++ f.tags, tags := [] }

def execBmeClear (p : Fin 16) (ld : Fin 17) (s : State) : Result :=
  .next (s.config p ld fun s => s.bmeClear (fnOf p ld))

/-- Bus Master Enable is set: pending messages whose vectors are not masked leave. -/
def State.bmeSet (s : State) (fn : Nat) : State :=
  let s := s.updFunc fn fun f => { f with bme := true }
  s.each (List.range 64) fun s v =>
    if s.bit (msixPbaPending fn) v && !s.flag (msixDataMask fn v) then (s.setBit (msixPbaPending fn) v false).emit (.msix fn v) else s

def execBmeSet (p : Fin 16) (ld : Fin 17) (s : State) : Result :=
  .next (s.config p ld fun s => s.bmeSet (fnOf p ld))

/-- A quarantined tag is free again. -/
def State.freeTag (s : State) (fn tag : Nat) : State :=
  s.updFunc fn fun f => { f with quarantined := f.quarantined.filter (· != tag) }

/-- CXLIO_COMPLETION: a completion of a quarantined tag is accepted and discarded; the data of an outstanding read reach the
engine with the commands of its job. -/
def execCxlioCompletion (p : Fin 16) (ld : Fin 17) (tag : Nat) (_data : List Byte) (s : State) : Result :=
  .next (s.freeTag (fnOf p ld) tag)

/-- CXLIO_COMPLETION_TIMEOUT: a quarantined tag is freed; a job whose read is outstanding ends with OFL_DMA_ERR (14_offload
Table 14.4). -/
def execCxlioCompletionTimeout (p : Fin 16) (ld : Fin 17) (tag : Nat) (s : State) : Result :=
  .next (
    let fn := fnOf p ld
    if (s.func fn).quarantined.contains tag then s.freeTag fn tag
    else
      match s.jobs.find? (fun j => j.fn == fn && j.rtag == some tag && j.status.isNone) with
      | some j => s.dmaFail j
      | none => s)

/-! ### Configuration space and BAR4 (R53, R56, R58, R62) -/

/-- The items of a function's configuration space that Tables 2.3 to 2.5 state, those of BAR4 (Table 2.6), and the marks of
DF (15_faults R346). -/
inductive ConfigItem where
  | vendorId | deviceId | revisionId | classCode | headerType | serialNumber
  | memCapable | cacheCapable | hdmCount | memInfoValid | memActive | memActiveTimeout
  | flexBusIo | flexBusMem | flexBus256 | flexBusLatOpt | flexBusPbr | flexBus68
  | componentRegs | deviceRegs | mldCount
  | vendorDvsecId | vendorDvsecRev | vendorBar0 | vendorBar2 | vendorPort | vendorLd | vendorRate128
  | memDeviceFatal | rasInternal
  | doe | aer | dataLinkFeature | laneMargining | deviceSerial | msix | msi | sriov | ats | pri | pasid | gpf
  | persistentCapacity | dynamicRegions
  | barHdm | barRas | barIde | barLink | barCapArray | barMailbox | barMemStatus
  deriving DecidableEq, Repr

/-- What an item reads in a function (Tables 2.3 to 2.6): a capability that is there reads 1, one that is absent 0; a place in
BAR4 reads its block's base. The layouts of PCIe and CXL around them are those standards' own (log 130). -/
def State.configItem (s : State) (p ld : Nat) : ConfigItem → Nat
  | .vendorId | .vendorDvsecId => 0xC1A0
  | .deviceId => 0x9624
  | .revisionId => s.fuses.stepping
  | .classCode => 0x050210
  | .headerType => 0
  | .serialNumber => (s.fuses.dieId.get s.leader).toNat + 2 ^ 32 * s.fld topDeviceDeviceId
  | .memCapable => 1
  | .cacheCapable => 0
  | .hdmCount => 2
  | .memInfoValid => b2n s.boot.infoValid
  | .memActive => b2n s.boot.memActive
  | .memActiveTimeout => 2
  | .flexBusIo | .flexBusMem | .flexBus256 | .flexBusLatOpt => 1
  | .flexBusPbr => b2n (s.gfam p)
  | .flexBus68 => 0
  | .componentRegs => 0
  | .deviceRegs => 0x10000
  | .mldCount => if s.gfam p then 0 else s.fld (hpPortCfgLdCount p)
  | .vendorDvsecRev => 1
  | .vendorBar0 => 1
  | .vendorBar2 => b2n (ld == 16 || (s.func (fnOf p ld)).bar2)
  | .vendorPort => p
  | .vendorLd => if ld = 16 then 0 else ld
  | .vendorRate128 => b2n (decide (6 ≤ s.fld (hpPortCfgMaxRate p)))
  | .memDeviceFatal | .rasInternal => b2n s.df
  | .doe | .aer | .dataLinkFeature | .laneMargining | .deviceSerial | .msix => 1
  | .msi | .sriov | .ats | .pri | .pasid | .gpf | .persistentCapacity | .dynamicRegions => 0
  | .barHdm | .barRas | .barIde | .barLink => 0
  | .barCapArray | .barMailbox | .barMemStatus => 0x10000

/-! ### BARs (R58 to R61) -/

/-- The readback of a BAR dword after all ones were written (Table 2.7). -/
def barOnes (bar2 : Bool) (bar : Nat) : BitVec 32 :=
  match bar with
  | 0 => 0xFFFF0004
  | 2 => if bar2 then 0xF0000004 else 0
  | 3 => if bar2 then 0xFFFFFFFF else 0
  | 4 => 0xFFFE0004
  | _ => 0xFFFFFFFF

/-- BAR_SIZING_WRITE: all ones are written to a BAR dword, and it is read back. -/
def execBarSizingWrite (p : Fin 16) (ld : Fin 17) (bar : Fin 6) (s : State) : Result :=
  .next (s.config p ld fun s =>
    let fn := fnOf p ld
    let v := barOnes (s.func fn).bar2 bar
    (s.updFunc fn fun f => { f with bars := setAt f.bars bar v }).emit (.readData fn (v.setWidth 64)))

/-- BAR_BAD_ACCESS: an access to BAR0 or BAR2 that is not an aligned one of 4 or 8 bytes (R61). -/
def State.badAccess (s : State) (p ld : Nat) (isRead : Bool) : State :=
  if !s.present p ld then s
  else
    let s := s.count (hpErrCntBadAccess p) 1
    if isRead then s.emit (.unsupported (fnOf p ld)) else s

def execBarBadAccess (p : Fin 16) (ld : Fin 17) (isRead : Bool) (s : State) : Result := .next (s.badAccess p ld isRead)

/-! ### Feature negotiation (R71 to R73) -/

/-- The offer of a function (R71): each of bits 0 to 6 that the LD can use now: not withheld in the configuration in effect, bit 4
only where PMU_USER_EN is set, and its prerequisite of Table 2.11 offered too; none of the FM-owned LD and of the G-FAM
function (R54, R55). -/
def State.offered (s : State) (fn : Nat) : Nat :=
  let p := fn / 17
  let n := fn % 17
  if n = 16 then 0
  else
    let user := bitAt (s.fld (pmuUserEnLdMask (p / 4))) (p % 4 * 16 + n)
    let free := fun (i : Nat) => !bitAt (s.eff (hpLdCfgFeatureWithhold p n)) i && (i != 4 || user)
    let need := fun (i : Nat) => match i with | 1 | 2 => free 0 | 5 => free 4 | _ => true
    ((List.range 7).map fun i => b2n (free i && need i) * 2 ^ i).foldl (· + ·) 0

/-- The effective set (R72): accepted and offered, less each feature whose prerequisite in Table 2.11 is not in that set. -/
def effectiveSet (accepted offered : Nat) : Nat :=
  let has := fun (i : Nat) => bitAt accepted i && bitAt offered i
  let need := fun (i : Nat) => match i with | 1 | 2 => has 0 | 5 => has 4 | _ => true
  ((List.range 7).map fun i => b2n (has i && need i) * 2 ^ i).foldl (· + ·) 0

/-- FEATURE_CTRL.LOCK is written 1 (R72). -/
def State.featureLock (s : State) (fn : Nat) : State :=
  if s.flag (featureCtrlLock fn) then s
  else
    let e := effectiveSet (s.fld (featureAcceptedAccepted fn 0)) (s.offered fn)
    let s := ((s.setFlag (featureCtrlLock fn) true).setFld (featureAcceptedAccepted fn 0) e).updFunc fn fun f => { f with features := e }
    s.each [1, 2, 3] fun s k => s.setFld (featureAcceptedAccepted fn k) 0

def execFeatureLock (p : Fin 16) (ld : Fin 17) (s : State) : Result :=
  .next (s.barWrite p ld fun s => s.featureLock (fnOf p ld))

/-! ### HDM decoders (03_domains R76) -/

/-- Interleave ways and granularities that the device supports (R76). -/
def hdmWays : List Nat := [1, 2, 3, 4, 6, 8, 12, 16]
def hdmGrans : List Nat := [256, 512, 1024, 2048, 4096, 8192, 16384]

/-- The first DPA past those that the committed decoders below `i` cover. -/
def State.hdmNext (s : State) (p id i : Nat) : Nat :=
  (List.range i).foldl (fun a k =>
    let c := cellGet ({} : HdmDecoder) s.hdm (hdmKey p id k)
    if c.committed then c.dpa + c.size / c.ways else a) 0

/-- HDM_DECODER_COMMIT: a decoder of an LD, or of a G-FAM host; other ways or granularities get Error Not Committed. -/
def State.hdmCommit (s : State) (p id i base size skip ways gran : Nat) (bi : Bool) : State :=
  let ok := if s.gfam p then id != 0xFFF else decide (id < s.fld (hpPortCfgLdCount p))
  if !s.present p (if s.gfam p then 16 else id % 17) || !ok || (!s.gfam p && (s.func (fnOf p id)).flr) then s
  else
    let k := hdmKey p id i
    if hdmWays.contains ways && hdmGrans.contains gran then
      { s with hdm := cellPut {} s.hdm k { committed := true, error := false, base, size, dpa := s.hdmNext p id i + skip, ways, gran, bi } }
    else { s with hdm := cellPut {} s.hdm k { cellGet ({} : HdmDecoder) s.hdm k with committed := false, error := true } }

def execHdmDecoderCommit (p : Fin 16) (id : Fin 4096) (i : Fin 8) (base size skip : Nat) (ways granularity : Nat) (bi : Bool)
    (s : State) : Result := .next (s.hdmCommit p id i base size skip ways granularity bi)

/-! ### DOE and IDE (R53, R57; 08_protection R223) -/

/-- The DOE protocols by their index: vendor, type, index of the next (R53; the numbers: log 87). -/
def doeProtocol (i : Nat) : List Nat :=
  match i with
  | 0 => [0x0001, 0, 1]
  | 1 => [0x0001, 1, 2]
  | 2 => [0x0001, 2, 3]
  | 3 => [0x1E98, 2, 0]
  | _ => [0xFFFF, 0, 0]

/-- DOE_DISCOVERY. -/
def execDoeDiscovery (p : Fin 16) (ld : Fin 17) (index : BitVec 8) (s : State) : Result :=
  .next (s.config p ld fun s => s.emit (.reply "DOE_DISCOVERY" (doeProtocol index.toNat)))

/-- The read latency that Table 4.2 states for a class-0 domain and a port, ns: the typical total at 8,800 or 6,400 MT/s where
every trained channel of the home half runs at that rate, and the two crossings from a port of the other half (04_request
R105). It states none for other classes and rates. -/
def State.statedLatency (s : State) (p d : Nat) : Option Nat :=
  let h := s.home d
  let up := (chansOf h).filter fun c => s.flag (dmcStatusTrained c)
  let cross := if portHalf p = h then 0 else 11
  if s.eff (domPolicyTclass d) ≠ 0 ∨ up.isEmpty then none
  else if up.all (fun c => s.chanRate c == 5) then some (165 + cross)
  else if up.all (fun c => s.chanRate c == 2) then some (172 + cross)
  else none

/-- The figures of a range of a domain: read latency, and as the spec states no others (log 88) free values for write latency and
the bandwidths. -/
def State.cdatFigures (s : State) (p d : Nat) : List Nat :=
  let c := s.eff (domPolicyTclass d)
  let t := s.eff (domPolicyTier d)
  [(s.statedLatency p d).getD (Config.cdatFigure c t 0)] ++ [1, 2, 3].map (Config.cdatFigure c t)

/-- The CDAT entries of an LD: for each range in effect, and each domain whose window meets it, the LD base and length of the
part, the domain's class and tier policy, and four figures: read and write latency and bandwidth (R57). -/
def State.cdat (s : State) (p n : Nat) : List Nat :=
  (s.ldRanges p n).flatMap fun r =>
    ((List.range 1024).filter s.domOn).flatMap fun d =>
      let lo := max r.2.2 (s.winBase d)
      let hi := min (r.2.2 + r.2.1) (s.winBase d + s.winSize d)
      if hi ≤ lo then []
      else [r.1 + (lo - r.2.2), hi - lo, s.eff (domPolicyTclass d), s.eff (domPolicyTier d)] ++ s.cdatFigures p d

/-- DOE_CDAT_READ. -/
def execDoeCdatRead (p : Fin 16) (ld : Fin 17) (s : State) : Result :=
  .next (s.config p ld fun s => s.emit (.reply "CDAT" (if ld.val = 16 then [] else s.cdat p ld)))

/-- IDE_KM_KEY_PROG: a key of a stream, key set and direction, and, for the cachemem stream, its mode (Table 8.8). -/
def execIdeKmKeyProg (p : Fin 16) (mem : Bool) (keySet tx : Bool) (skid : Bool) (key : BitVec 256) (s : State) : Result :=
  .next (s.config p 16 fun s =>
    let k := 4 * b2n mem + 2 * b2n keySet + b2n tx
    s.updPort p fun q => { q with
      ideKeys := q.ideKeys.filter (fun x => x.1 != k) ++ [(k, key)], ideSkid := if mem then skid else q.ideSkid })

/-- IDE_KM_K_SET_GO: a key set whose two keys are programmed comes into use, and the stream is Secure. -/
def execIdeKmKSetGo (p : Fin 16) (mem : Bool) (keySet : Bool) (s : State) : Result :=
  .next (s.config p 16 fun s =>
    let i := b2n mem
    let has := fun (k : Nat) => (s.port p).ideKeys.any (fun x => x.1 == k)
    let k := 4 * i + 2 * b2n keySet
    if has k && has (k + 1) then
      s.updPort p fun q => { q with ideSet := setAt q.ideSet i (b2n keySet), ideState := setAt q.ideState i 1 }
    else s)

end Sys2Proof.Machine
end

