-- ==== Sys2Proof/Machine/StraitCode.lean ====
section
/-! DEFINITION. Strait frames and mirror messages as bytes (12_strait R278, R279, Tables 12.2 to 12.4; 13_pairing Table 13.2). -/

namespace Sys2Proof.Machine

/-! ### CRC-64 (R279) -/

/-- The CRC of some bits, the most significant first. -/
def crc64Bits : List Bool → BitVec 64 → BitVec 64
  | [], c => c
  | b :: bs, c => if c.getLsbD 63 != b then crc64Bits bs ((c <<< 1) ^^^ 0x42F0E1EBA9EA3693) else crc64Bits bs (c <<< 1)

/-- The CRC-64 of bytes in address order. -/
def crc64 (bs : Bytes) : Nat :=
  (crc64Bits (bs.flatMap fun b => (List.range 8).map fun i => b.testBit (7 - i)) 0).toNat

/-! ### The header (Table 12.3) -/

/-- The fields of a frame header. -/
structure FrameHead where
  typ : Nat
  vc : Nat
  seq : Nat
  ack : Nat
  ackValid : Bool
  creditVc : Nat
  creditCum : Nat
  color : Nat
  invLo : Nat
  deriving DecidableEq, Repr

/-- The header that a 64-bit value holds. -/
def headOf (n : Nat) : FrameHead :=
  { typ := bitsOf n 0 4, vc := bitsOf n 4 3, seq := bitsOf n 7 12, ack := bitsOf n 19 12, ackValid := bitAt n 31,
    creditVc := bitsOf n 32 3, creditCum := bitsOf n 35 11, color := bitsOf n 46 2, invLo := bitsOf n 48 16 }

/-- Header bits [18:0]: TYPE, VC and SEQ. -/
def FrameHead.core (h : FrameHead) : Nat := h.typ % 16 + h.vc % 8 * 2 ^ 4 + h.seq % 4096 * 2 ^ 7

/-- The 64-bit value of a header. -/
def FrameHead.word (h : FrameHead) : Nat :=
  h.core + h.ack % 4096 * 2 ^ 19 + b2n h.ackValid * 2 ^ 31 + h.creditVc % 8 * 2 ^ 32 + h.creditCum % 2048 * 2 ^ 35
    + h.color % 4 * 2 ^ 46 + h.invLo % 65536 * 2 ^ 48

/-- Frame types (Table 12.4). -/
abbrev tData : Nat := 1
abbrev tAckOnly : Nat := 2
abbrev tNak : Nat := 3
abbrev tTime : Nat := 4
abbrev tInit : Nat := 5
abbrev tInitAck : Nat := 6

/-- INIT and INIT_ACK carry their whole invocation value. -/
def FrameHead.initial (h : FrameHead) : Bool := h.typ == tInit || h.typ == tInitAck

/-- The header is valid (R279): no reserved TYPE, a configured VC, VC and SEQ zero but in DATA, no reserved COLOUR. -/
def FrameHead.valid (h : FrameHead) (vcCount : Nat) : Bool :=
  decide (1 ≤ h.typ ∧ h.typ ≤ 6) && decide (h.vc < vcCount) && (h.typ == tData || (h.vc == 0 && h.seq == 0)) && h.color != 3

/-! ### Building and opening (R279) -/

/-- The additional data: header bits [18:0] as 3 bytes. -/
def FrameHead.aad (h : FrameHead) : Bytes := leB 3 h.core

/-- The frame of a header and a plaintext payload (224 bytes; 212 in INIT and INIT_ACK) under a key and an invocation value. -/
def buildFrame (key : Bytes) (h : FrameHead) (inv : Nat) (plain : Bytes) : Bytes :=
  let iv := beB 12 inv
  let cipher := gcmText key iv plain
  let body := leB 8 h.word ++ (if h.initial then leB 12 inv else []) ++ cipher ++ gcmTag key iv h.aad cipher
  body ++ leB 8 (crc64 body)

/-- The invocation value in clear of an INIT or INIT_ACK. -/
def clearInv (bytes : Bytes) : Nat := ofLeB ((bytes.drop 8).take 12)

/-- The plaintext of a frame under a key and an invocation value, where the tag verifies. -/
def openFrame (key : Bytes) (h : FrameHead) (inv : Nat) (bytes : Bytes) : Option Bytes :=
  let at_ := if h.initial then 20 else 8
  let cipher := (bytes.drop at_).take (232 - at_)
  let iv := beB 12 inv
  if gcmTag key iv h.aad cipher = (bytes.drop 232).take 16 then some (gcmText key iv cipher) else none

/-- The CRC of 256 bytes matches. -/
def crcOk (bytes : Bytes) : Bool := bytes.length == 256 && crc64 (bytes.take 248) == ofLeB (bytes.drop 248)

/-- The value V of R280: congruent to INV_LO, above H - 32,768 and no higher than H + 32,768; none below 0. -/
def nearInv (high lo : Nat) : Option Nat :=
  let v : Int := (high : Int) + ((lo : Int) - (high : Int) + 32767) % 65536 - 32767
  if v < 0 then none else some v.toNat

/-! ### Messages (13_pairing R302, Table 13.2) -/

/-- Word 0 of a message about a line or a page. -/
def word0 (kind dom rest : Nat) : Nat := kind + dom % 1024 * 16 + rest * 2 ^ 14

/-- The words of a message. -/
def msgWords : MirMsg → List Nat
  | .lineWr d line data => word0 1 d line :: (chunksOf 8 8 (lineBytes data)).map leNat
  | .lineWrPtl d line en data => word0 2 d line :: en.toNat :: (chunksOf 8 8 (lineBytes data)).map leNat
  | .linePoison d line => [word0 3 d line]
  | .zeroRun d page count => [word0 4 d page, count % 2 ^ 37]
  | .commitAck n => [5 + n % 2 ^ 32 * 16]
  | .peerRefuse d line cause => [word0 6 d line, cause % 16]
  | .cut n => [7, n]
  | .cutAck n => [8, n]
  | .rsLine d line data => word0 9 d line :: (chunksOf 8 8 (lineBytes data)).map leNat
  | .slotData d page off ws => (word0 0xA d page + off % 512 * 2 ^ 50 + ws.length % 32 * 2 ^ 59) :: ws.map (·.toNat)
  | .pageDone d page form repair body => [word0 0xB d page + form % 4 * 2 ^ 50 + b2n repair * 2 ^ 52, body]
  | .pageAck d page result => [word0 0xC d page + result % 4 * 2 ^ 50]
  | .role d peer role mode st cont dirty solo epoch mirEpoch =>
    [0xD + d % 1024 * 16 + peer % 1024 * 2 ^ 14 + role % 4 * 2 ^ 24 + mode % 4 * 2 ^ 26 + st % 16 * 2 ^ 28 + b2n cont * 2 ^ 32
      + b2n dirty * 2 ^ 33 + solo % 2 ^ 30 * 2 ^ 34, epoch % 2 ^ 32, mirEpoch, 0]
  | .setFp active prints =>
    (0xE + active % 256 * 16) :: (List.range 4).map fun i => nth 0 prints (2 * i) % 2 ^ 32 + nth 0 prints (2 * i + 1) % 2 ^ 32 * 2 ^ 32
  | .repairReq d page count => [word0 0xF d page, count % 2 ^ 37]

/-- Size of a message, in words. -/
def msgSize (m : MirMsg) : Nat := (msgWords m).length

/-- Words of the message that a word 0 starts; 0 for NULL. -/
def sizeOf0 (w : Nat) : Nat :=
  match w % 16 with
  | 0 => 0
  | 1 => 9
  | 2 => 10
  | 3 => 1
  | 4 => 2
  | 5 => 1
  | 9 => 9
  | 0xA => 1 + bitsOf w 59 5
  | 0xC => 1
  | 0xD => 4
  | 0xE => 5
  | _ => 2

/-- Eight words as a line. -/
def wordsLine (ws : List Nat) : Line := bytesLine ((ws.take 8).flatMap (leBytes 8))

/-- The message that its words hold. -/
def msgOf (ws : List Nat) : Option MirMsg :=
  let w := ws.headD 0
  let d := bitsOf w 4 10
  let line := bitsOf w 14 42
  let page := bitsOf w 14 36
  let x := nth 0 ws 1
  match w % 16 with
  | 0 => none
  | 1 => some (.lineWr d line (wordsLine ws.tail))
  | 2 => some (.lineWrPtl d line (BitVec.ofNat 64 x) (wordsLine (ws.drop 2)))
  | 3 => some (.linePoison d line)
  | 4 => some (.zeroRun d page (bitsOf x 0 37))
  | 5 => some (.commitAck (bitsOf w 4 32))
  | 6 => some (.peerRefuse d line (x % 16))
  | 7 => some (.cut x)
  | 8 => some (.cutAck x)
  | 9 => some (.rsLine d line (wordsLine ws.tail))
  | 0xA => if ws.length = 1 then none else some (.slotData d page (bitsOf w 50 9) (ws.tail.map (BitVec.ofNat 64)))
  | 0xB => some (.pageDone d page (bitsOf w 50 2) (bitAt w 52) x)
  | 0xC => some (.pageAck d page (bitsOf w 50 2))
  | 0xD => some (.role d (bitsOf w 14 10) (bitsOf w 24 2) (bitsOf w 26 2) (bitsOf w 28 4) (bitAt w 32) (bitAt w 33) (bitsOf w 34 30)
      (x % 2 ^ 32) (nth 0 ws 2))
  | 0xE => some (.setFp (bitsOf w 4 8) (ws.tail.flatMap fun v => [v % 2 ^ 32, v / 2 ^ 32]))
  | _ => some (.repairReq d page (bitsOf x 0 37))

/-- The messages that lie back to back in some words, up to NULL; `fuel` bounds their number. -/
def msgsOf : Nat → List Nat → List MirMsg
  | 0, _ => []
  | fuel + 1, ws =>
    let n := sizeOf0 (ws.headD 0)
    if n = 0 ∨ ws.length < n then []
    else (msgOf (ws.take n)).toList ++ msgsOf fuel (ws.drop n)

/-- The messages of a DATA payload. -/
def payloadMsgs (plain : Bytes) : List MirMsg := msgsOf 28 ((chunksOf 8 28 plain).map ofLeB)

/-- The 224-byte payload of some messages: NULL and zeros follow them (R284). -/
def msgsPayload (ms : List MirMsg) : Bytes := padTo 224 0 ((ms.flatMap msgWords).flatMap (leB 8))

end Sys2Proof.Machine
end

