-- ==== Sys2Proof/Machine/Mirror.lean ====
section
/-! DEFINITION. The receiving side of mirroring, cuts, resync and repair: the meanings of their commands (13_pairing R300 to
R318). -/

namespace Sys2Proof.Machine

/-! ### Taking messages (12_strait R283) -/

/-- The message at the front of a virtual channel's receive buffer, with its frame's colour. -/
def State.rxHead (s : State) (l : Half) (vc : Nat) : Option (MirMsg × Nat) :=
  match (s.strait.get l).rx.find? (fun f => f.vc == vc) with
  | some { color := c, msgs := m :: _, .. } => some (m, c)
  | _ => none

/-- That message came in before the link last went down (12_strait R295). -/
def State.rxOld (s : State) (l : Half) (vc : Nat) : Bool :=
  match (s.strait.get l).rx.find? (fun f => f.vc == vc) with
  | some f => f.old
  | none => false

/-- RX_INUSE of a virtual channel. -/
def State.rxTally (s : State) (l : Half) (vc : Nat) : State :=
  s.setFld (twVcStatusRxInuse l.idx vc) (((s.strait.get l).rx.filter (fun f => f.vc == vc && !f.old)).length)

/-- That message is taken; a frame with none left frees its buffer (12_strait R282). -/
def State.rxPop (s : State) (l : Half) (vc : Nat) : State :=
  let k := s.strait.get l
  match k.rx.find? (fun f => f.vc == vc) with
  | none => s
  | some f =>
    let rest := f.msgs.tail
    let k := if !rest.isEmpty then { k with rx := mapFirst (· == f) (fun f => { f with msgs := rest }) k.rx }
      else if f.old then { k with rx := k.rx.erase f }
      else { k with rx := k.rx.erase f, freed := k.freed.set vc ((nth 0 k.freed vc + 1) % 2048) }
    ({ s with strait := s.strait.set l k } : State).rxTally l vc

/-! ### Mirror writes (R304) -/

/-- A domain takes mirror data from the link: it is matched and secondary there (R300, R304). What came in before the link
went down is still taken (12_strait R295). -/
def State.takesFrom (s : State) (l : Half) (d : Nat) (old : Bool) : Bool :=
  s.domOn d && s.home d == l && (if old then secState (s.mState d)
    else s.flag (mirDomStateW0Matched d) && (s.mState d == mSecResync || s.mState d == mSecMirrored))

/-- A mirror message of the SYNC or ASYNC kind is counted as received and not committed: its number (R304, R308). The kind
is the mode of the domain. The counts of a link that is up do not take one that came in before. -/
def State.mirNumber (s : State) (l : Half) (sync old : Bool) : State × Nat :=
  let m := s.mirror.get l
  let n := ((if sync then m.syncRecv else m.asyncRecv) + 1) % 2 ^ 32
  let m := if sync then { m with syncRecv := n, uncommitted := m.uncommitted ++ [n] }
    else { m with asyncRecv := n, asyncOpen := m.asyncOpen ++ [n] }
  if old then (s, 2 ^ 32) else ({ s with mirror := s.mirror.set l m }, n)

/-- A line message is handled as a host write (R304): refused, or a request in its domain's queue. -/
def State.mirWrite (s : State) (l : Half) (vc d line : Nat) (color : Nat) (kind : ReqKind) (data : Line) (enables : BitVec 64)
    (poison : Bool) : State :=
  let old := s.rxOld l vc
  let s := s.rxPop l vc
  let sync := s.mMode d == 1
  let (s, n) := s.mirNumber l sync old
  let refuse := fun (s : State) (cause : Nat) =>
    if old then s else (s.peerRefuse l sync (s.eff (mirDomW0PeerDomain d)) line cause).mirrorDone l sync n
  if !s.takesFrom l d old then refuse s 4
  else if s.winSize d * extLines ≤ line then refuse s 1
  else if s.treeFenced d line then refuse s 3
  else
    let r : Req := { rid := 0, org := .mirror l sync n, tag := 0, kind, want := .none, data, enables, poison, dom := d, line,
                     dpa := s.dpaOf d line, gen := s.fld (domStatusGen d), home := l, cls := 7, color := 0, stage := .waitEntry,
                     resp := .cmp, stamps := { arrive := s.now, tide := s.tns } }
    let (s, r) := s.mark l r color
    let s := (s.admitReq r).domTally d
    match (s.reqs.getLast?).map (fun q => (q.rid, q.stage)) with
    | some (rid, Stage.queued) => if s.df then s.failReq rid uDevice else if s.fenced (uHalf l.idx) then s.failReq rid (uHalf l.idx) else s
    | _ => s

/-- LINE_WR. -/
def State.lineWr (s : State) (l : Half) (vc : Nat) : State :=
  match s.rxHead l vc with
  | some (.lineWr d line data, c) => s.mirWrite l vc d line c .wr data allBytes false
  | _ => s

def execLineWr (l : Half) (vc : Fin 8) (s : State) : Result := .next (s.lineWr l vc)

/-- LINE_WR_PTL. -/
def State.lineWrPtl (s : State) (l : Half) (vc : Nat) : State :=
  match s.rxHead l vc with
  | some (.lineWrPtl d line en data, c) => s.mirWrite l vc d line c .wrPtl data en false
  | _ => s

def execLineWrPtl (l : Half) (vc : Fin 8) (s : State) : Result := .next (s.lineWrPtl l vc)

/-- LINE_POISON: a full write of a poisoned line. -/
def State.linePoison (s : State) (l : Half) (vc : Nat) : State :=
  match s.rxHead l vc with
  | some (.linePoison d line, c) => s.mirWrite l vc d line c .wr 0 allBytes true
  | _ => s

def execLinePoison (l : Half) (vc : Fin 8) (s : State) : Result := .next (s.linePoison l vc)

/-! ### ZERO_RUN (R303, R304, R315) -/

/-- Pages of a run return to zero, step by step; `fuel` bounds the steps. -/
def State.zeroRunPages : Nat → State → Nat → Nat → Nat → List Nat → State × Bool
  | 0, s, _, _, _, _ => (s, false)
  | fuel + 1, s, d, p, stop, picks =>
    if stop ≤ p then (s, false)
    else
      let n := s.zeroSpan d p stop
      let (s, short) := s.zeroStep d p n (picks.headD 0)
      let (s, short') := State.zeroRunPages fuel s d (p + n) stop picks.tail
      (s, short || short')

/-- A PAGE_ACK of a page that came from the partner (R316): kind 3 resync, 4 repair. -/
def State.pageAckSend (s : State) (l : Half) (kind d page result : Nat) : State :=
  s.send l kind 8 0 (.pageAck (s.eff (mirDomW0PeerDomain d)) page result)

/-- A run of pages waits: a message of the partner for one of them is open, one of them is locked, or requests still use their media. -/
def State.runWaits (s : State) (d page count : Nat) : Bool :=
  let stop := page + count
  s.reqs.any (fun (r : Req) => r.hasDom && r.dom == d && decide (page ≤ r.line / 64 ∧ r.line / 64 < stop)
      && (match r.org with | .mirror _ _ _ => true | _ => false))
    || s.locks.any (fun k => k.dom == d && decide (page ≤ k.page ∧ k.page < stop))
    || (s.extsOf d).any (fun x => s.extMoving d x.1 && decide (page < x.1 * 512 + 512 ∧ x.1 * 512 < stop))
    || s.linesBusy d (page * 64) (count * 64)

/-- A run is taken when no earlier message of its pages is open, none of its pages is locked, and no request that passed stage 5 still
uses their media. A run on the resync virtual
channel in SEC_RESYNC is a copied page or extent and gets its PAGE_ACK (log 65). -/
def State.zeroRunIn (s : State) (l : Half) (vc : Nat) (picks : List Nat) : State :=
  match s.rxHead l vc with
  | some (.zeroRun d page count, _) =>
    let stop := page + count
    let old := s.rxOld l vc
    let resync := !old && s.mState d == mSecResync && decide (vc = s.fld (twVcMapResync l.idx) ∧ vc ≠ s.fld (twVcMapSync l.idx)
      ∧ vc ≠ s.fld (twVcMapAsync l.idx))
    if s.takesFrom l d old ∧ stop ≤ s.winSize d * 512 ∧ s.runWaits d page count then s
    else
      let s := s.rxPop l vc
      let sync := s.mMode d == 1
      let (s, n) := if resync then (s, 0) else s.mirNumber l sync old
      let done := fun (s : State) (cause : Option Nat) =>
        let s := match cause with
          | some c => if old then s else s.peerRefuse l sync (s.eff (mirDomW0PeerDomain d)) (page * 64) c
          | none => s
        if resync then s.pageAckSend l 3 d page (match cause with | none => 0 | some _ => 1) else s.mirrorDone l sync n
      if !s.takesFrom l d old then done s (some 4)
      else if s.winSize d * 512 < stop then done s (some 1)
      else
        let (s, short) := State.zeroRunPages count s d page stop picks
        done ((s.settle d).wakeStage5 d page) (if short then some 2 else none)
  | _ => s

def execZeroRun (l : Half) (vc : Fin 8) (picks : List Nat) (s : State) : Result := .next (s.zeroRunIn l vc picks)

/-! ### Acknowledgements and refusals (R303 to R306) -/

/-- COMMIT_ACK: the writes that the count covers complete. -/
def State.commitAckIn (s : State) (l : Half) (vc : Nat) : State :=
  match s.rxHead l vc with
  | some (.commitAck n, _) =>
    let s := s.rxPop l vc
    let s := { s with mirror := s.mirror.upd l (fun (m : Mirror) => { m with unacked := m.unacked.filter (fun u => !covers32 n u.num) }) }
    let s := (s.endHolds n).releaseSync (fun r => r.home == l && (match r.await with | some k => covers32 n k | none => false))
    match s.zero with
    | some z =>
      (match z.await with
      | some k =>
        if s.home z.dom = l ∧ covers32 n k then
          (if z.stop ≤ z.next then s.zeroEnd z else { s with zero := some { z with await := none } })
        else s
      | none => s)
    | none => s
  | _ => s

def execCommitAck (l : Half) (vc : Fin 8) (s : State) : Result := .next (s.commitAckIn l vc)

/-- The highest count up to which every SYNC message is committed (R304). -/
def Mirror.committed (m : Mirror) : Nat :=
  match m.uncommitted with
  | n :: _ => (n + 2 ^ 32 - 1) % 2 ^ 32
  | [] => m.syncRecv

/-- COMMIT_ACK is sent when the count has changed. -/
def State.commitAckSend (s : State) (l : Half) : State :=
  let n := (s.mirror.get l).committed
  if !s.straitUp l.idx ∨ n = (s.mirror.get l).ackedTo then s
  else
    let s := { s with mirror := s.mirror.upd l (fun (m : Mirror) => { m with ackedTo := n }) }
    s.send l 1 0 0 (.commitAck n)

def execCommitAckSend (l : Half) (s : State) : Result := .next (s.commitAckSend l)

/-- PEER_REFUSE: the extent is dirty and the refusal recorded (R305); a repair that was refused goes on alone (R318). -/
def State.peerRefuseIn (s : State) (l : Half) (vc : Nat) : State :=
  match s.rxHead l vc with
  | some (.peerRefuse d line cause, _) =>
    let s := s.rxPop l vc
    if cause = 0 ∨ 4 < cause ∨ s.home d ≠ l then s
    else
      let asked := (s.prot_ d).fences.any (fun f => f.phase == 2 && f.covers (line / 64))
      if cause = 4 ∧ asked then
        s.updProt d fun p => { p with fences := p.fences.map (fun f => if f.phase == 2 && f.covers (line / 64) then { f with phase := 1 } else f) }
      else if s.mirroring d then
        (((s.setDirty d (line / extLines) true).count (mirCntPeerRefuse l.idx) 1).mirSay d cMirPeerRefuse clsCe (some line) cause)
      else s
  | _ => s

def execPeerRefuse (l : Half) (vc : Fin 8) (s : State) : Result := .next (s.peerRefuseIn l vc)

/-- A SYNC write waits too long: the domain goes SOLO (R306). -/
def State.ackTimeout (s : State) (d : Nat) : State :=
  let run : Bool := match s.zero with | some z => z.dom == d && z.await.isSome | none => false
  if s.mirroring d ∧ s.mMode d = 1 ∧ (run ∨ s.reqs.any (fun (r : Req) => r.hasDom && r.dom == d && r.stage == .mirrorWait)) then
    ((s.count (mirCntAckTimeout (s.home d).idx) 1).mirSay d cMirAckTimeout clsCe none 0).goSolo d true
  else s

def execMirAckTimeout (d : Fin 1024) (s : State) : Result := .next (s.ackTimeout d)

/-! ### Cuts (R308 to R310) -/

/-- A half cuts its ASYNC primaries: the cut number advances, and CUT follows the messages queued before it. -/
def State.takeCut (s : State) (h : Half) : State :=
  if s.isS then s
  else
    let n := s.fld (mirCutCut h.idx) + 1
    let s := (s.setFld (mirCutCut h.idx) n).pulse h bMir 0 2 none
    let s := if s.straitUp h.idx then s.send h 2 8 0 (.cut n) else s
    s.lagStall h

/-- The cut of every 8,000 TCLK cycles. -/
def State.cutTick (s : State) (h : Half) : State :=
  if !s.boot.memActive then s
  else
    s.takeCut h

def execAsyncCutTick (h : Half) (s : State) : Result := .next (s.cutTick h)

/-- CUT. -/
def State.cutIn (s : State) (l : Half) (vc : Nat) : State :=
  match s.rxHead l vc with
  | some (.cut n, _) =>
    let s := s.rxPop l vc
    { s with mirror := s.mirror.upd l (fun (m : Mirror) => { m with cuts := m.cuts ++ [(n, m.asyncOpen)] }) }
  | _ => s

def execCut (l : Half) (vc : Fin 8) (s : State) : Result := .next (s.cutIn l vc)

/-- CUT_ACK is sent for the first cut whose earlier messages are all committed. -/
def State.cutAckSend (s : State) (l : Half) : State :=
  match (s.mirror.get l).cuts with
  | (n, []) :: rest =>
    let s := { s with mirror := s.mirror.upd l (fun (m : Mirror) => { m with cuts := rest }) }
    s.send l 2 8 0 (.cutAck n)
  | _ => s

def execCutAckSend (l : Half) (s : State) : Result := .next (s.cutAckSend l)

/-- CUT_ACK: the high-water mark advances, the log of the confirmed intervals is freed, and holds on the cut end. -/
def State.cutAckIn (s : State) (l : Half) (vc : Nat) : State :=
  match s.rxHead l vc with
  | some (.cutAck n, _) =>
    let s := s.rxPop l vc
    if n ≤ s.fld (mirHwmHwm l.idx) ∨ s.fld (mirCutCut l.idx) < n then s
    else
      let s := s.setFld (mirHwmHwm l.idx) n
      let s := { s with mirror := s.mirror.upd l (fun (m : Mirror) => { m with log := m.log.filter (fun k => n ≤ k.1) }) }
      let k := (s.mirror.get l).log.length
      let s := s.setFld (mirStatusLogInuse l.idx) (if k ≥ 32768 then 0xFFFF else k)
      let mirDoms : Cells MirDom := (s.mirDoms.map (fun q => (q.1, match q.2.holdCut with
        | some c => if s.home q.1 = l ∧ c ≤ n then { q.2 with holdCut := none } else q.2
        | none => q.2))).filter (fun q => q.2 != {})
      ({ s with mirDoms } : State).lagStall l
  | _ => s

def execCutAck (l : Half) (vc : Fin 8) (s : State) : Result := .next (s.cutAckIn l vc)

/-- A MIRROR_CUT action of the commit queue (11_tide_clock R274). -/
def State.cutBoth (s : State) : State := (s.takeCut .a).takeCut .b

/-! ### Pages that come from the partner (R315 to R318) -/

/-- The page under assembly, changed. -/
def State.updPageIn (s : State) (l : Half) (d page : Nat) (f : PageIn → PageIn) : State :=
  { s with mirror := s.mirror.upd l (fun (m : Mirror) => { m with
      pagesIn := if m.pagesIn.any (fun p => p.dom == d && p.page == page) then
          mapFirst (fun p => p.dom == d && p.page == page) f m.pagesIn
        else m.pagesIn ++ [f { dom := d, page, lines := [], slot := [] }] }) }

/-- The domain takes copied pages, or asked for a repair of this page. -/
def State.takesPage (s : State) (l : Half) (d page : Nat) : Bool :=
  s.home d == l && s.flag (mirDomStateW0Matched d)
    && (s.mState d == mSecResync || (s.prot_ d).fences.any (fun f => f.phase == 2 && f.covers page))

/-- A message of a page that comes for a resync or a repair is refused, on the virtual channel that it came by (R304). -/
def State.pageRefuse (s : State) (l : Half) (d line cause : Nat) : State :=
  let kind := if (s.prot_ d).fences.any (fun f => f.phase == 2 && f.covers (line / 64)) then 4 else 3
  s.send l kind 8 0 (.peerRefuse (s.eff (mirDomW0PeerDomain d)) line cause)

/-- RS_LINE. -/
def State.rsLineIn (s : State) (l : Half) (vc : Nat) : State :=
  match s.rxHead l vc with
  | some (.rsLine d line data, _) =>
    let s := s.rxPop l vc
    if s.takesPage l d (line / 64) ∧ s.winSize d * extLines ≤ line then s.pageRefuse l d line 1
    else if s.takesPage l d (line / 64) then s.updPageIn l d (line / 64) fun p => { p with lines := p.lines ++ [(line % 64, data)] }
    else if s.flag (mirDomStateW0Matched d) then s
    else s.pageRefuse l d line 4
  | _ => s

def execRsLine (l : Half) (vc : Fin 8) (s : State) : Result := .next (s.rsLineIn l vc)

/-- SLOT_DATA. -/
def State.slotDataIn (s : State) (l : Half) (vc : Nat) : State :=
  match s.rxHead l vc with
  | some (.slotData d page offset words, _) =>
    let s := s.rxPop l vc
    if s.takesPage l d page ∧ s.winSize d * 512 ≤ page then s.pageRefuse l d (page * 64) 1
    else if s.takesPage l d page then
      s.updPageIn l d page fun p => { p with slot := p.slot ++ (words.zipIdx.map fun w => (offset + w.2, w.1)) }
    else if s.flag (mirDomStateW0Matched d) then s
    else s.pageRefuse l d (page * 64) 4
  | _ => s

def execSlotData (l : Half) (vc : Fin 8) (s : State) : Result := .next (s.slotDataIn l vc)

/-- What applying a page comes to: applied, or the cause of Table 12's PEER_REFUSE for which it is not (R304, R316). -/
inductive Placed where
  | applied | noMedia | fenced
  deriving DecidableEq, Repr

/-- A page that was refused media becomes LOST_WRITE, and its media is freed (R316). -/
def State.placeLost (s : State) (d p : Nat) : State :=
  let h := s.home d
  let pg := s.page d p
  let s := match pg.state with
    | .near => s.release h d p 1 [pg.addr] [] false
    | .shingle => s.release h d p 1 [] [(pg.addr, pg.cls)] false
    | _ => s
  ((s.setPage d p { state := .lost, access := pg.access }).savePage d p).listPages d p 1 false

/-- A page takes its copied lines, as a write of each would (R316). -/
def State.placeLines (s : State) (d p : Nat) (ls : List (Line × Bool)) (pick : Nat) : State × Placed :=
  let h := s.home d
  let s := s.touchComp h d p
  let pg := s.pageNow d p
  match pg.state with
  | .near => if s.mediaLost h pg.addr then (s, .fenced) else (s.putPage h d p pg.addr ls, .applied)
  | .shingle =>
    if s.mediaLost h pg.addr then (s, .fenced)
    else match s.alloc h 16 16 (.frame d p) pick none with
      | some (a, s) =>
        let s := s.release h d p 1 [] [(pg.addr, pg.cls)] false
        let q := s.page d p
        let s := ((s.setPage d p { q with state := .near, cls := 0, addr := a }).warm d p).savePage d p
        (s.putPage h d p a ls, .applied)
      | none => (s.placeLost d p, .noMedia)
  | _ =>
    match s.media_ d p pick none with
    | .near s => let s := (s.warm d p).savePage d p; (s.putPage h d p (s.pageNow d p).addr ls, .applied)
    | .refused s => (s, .noMedia)

/-- The extent of a page stands in the PAGED form, for a slot to be named; in a P2 domain it has its area (08_protection R210). -/
def State.pagedFor (s : State) (d e pick : Nat) : Option State :=
  (s.needArea d e).bind fun s => match (s.ext d e).kind with
    | .paged => some s
    | .frame => s.splitExt d e pick
    | .zero | .unmapped => s.giveTable d e pick (fun _ => {})
    | .retired => s.giveTable d e pick (fun _ => { state := .retired })

/-- A page takes its slot as the partner sent it, under a SEQ of its own (R317). -/
def State.placeSlotImage (s : State) (d p k : Nat) (hdr : SlotHdr) (image : List Byte) (picks : List Nat) : State × Placed :=
  let h := s.home d
  let s := s.touchComp h d p
  let pg := s.pageNow d p
  let held := pg.state == .near || pg.state == .shingle
  if held && s.mediaLost h pg.addr then (s, .fenced)
  else match s.pagedFor d (p / 512) (picks.getD 1 0) with
    | none => ((s.refusePage d p).1, .noMedia)
    | some s =>
      if !held ∧ s.grant d (if pg.state = .zero then 1 else 0) = .ceiling then (s.placeLost d p, .noMedia)
      else match s.takeSlot h k (picks.headD 0) hdr.setNo with
        | none => (s.placeLost d p, .noMedia)
        | some (slot, s) =>
          let (seq, s) := s.nextSeq h
          let image := ({ hdr with seq } : SlotHdr).bytes ++ image.drop 32
          let s := match s.bufferSlot h slot d p seq image with
            | some s => s
            | none => s.writeSlot h slot d p seq image
          let q := s.page d p
          let s := match pg.state with
            | .near => s.release h d p 1 [q.addr] [] false
            | .shingle => s.release h d p 1 [] [(pg.addr, pg.cls)] false
            | _ => s
          (((s.setPage d p { q with state := .shingle, cls := k, addr := slot }).savePage d p).unlistPages d p 1, .applied)

/-- The answer to a page of a resync (R316): PAGE_ACK, and for a page that is not applied for another cause than its media a
PEER_REFUSE before it; the lock goes back with NO_MEDIA, so that the extent stays dirty (log 65). -/
def State.pageAnswer (s : State) (l : Half) (d page : Nat) : Placed → State
  | .applied => s.pageAckSend l 3 d page 0
  | .noMedia => s.pageAckSend l 3 d page 1
  | .fenced => (s.pageRefuse l d (page * 64) 3).pageAckSend l 3 d page 1

/-- A resync or repair operation may run on the channel of a page's media: it is the maintenance class's turn there, beside the page
mover (05_dram R148). -/
def State.resyncMay (s : State) (d p : Nat) : Bool :=
  let h := s.home d
  let pg := s.pageNow d p
  let c := chanOf h pg.addr
  if (pg.state == .near || pg.state == .shingle) && !s.mediaLost h pg.addr then
    s.moveMay c && !((s.chan c).turn == 2 && s.moverFirst h c 9)
  else true

/-- Such an operation has had its turn. -/
def State.resyncTook (s : State) (d p : Nat) : State :=
  let pg := s.pageNow d p
  if pg.state == .near || pg.state == .shingle then s.took (chanOf (s.home d) pg.addr) 2 else s

/-- A page whose PAGE_DONE has come waits: for its lock, for requests that still use its media, for its counters, for its turn. -/
def State.pageWaits (s : State) (d p : Nat) (repair : Bool) : Bool :=
  s.locked d p || s.extMoving d (p / 512) || (!repair && (s.pageBusy d p || !s.ctrReady d (p * 64))) || !s.resyncMay d p

/-- PAGE_DONE: the assembled page is applied under its lock, and answered (R316 to R318). -/
def State.pageDoneIn (s : State) (l : Half) (vc : Nat) (picks : List Nat) : State :=
  match s.rxHead l vc with
  | some (.pageDone d page form repair body, _) =>
    if !s.takesPage l d page then
      let s := s.rxPop l vc
      if s.flag (mirDomStateW0Matched d) then s else s.pageRefuse l d (page * 64) 4
    else if s.winSize d * 512 ≤ page then
      ((s.rxPop l vc).pageRefuse l d (page * 64) 1).pageAckSend l (if repair then 4 else 3) d page 1
    else if s.pageWaits d page repair then s
    else
      let s := (s.rxPop l vc).resyncTook d page
      let got := ((s.mirror.get l).pagesIn.find? (fun p => p.dom == d && p.page == page)).getD { dom := d, page, lines := [], slot := [] }
      let s := { s with mirror := s.mirror.upd l (fun (m : Mirror) => { m with
        pagesIn := m.pagesIn.filter (fun p => !(p.dom == d && p.page == page)) }) }
      let lineOf := fun (i : Nat) => if bitAt body i then ((0 : Line), true)
        else match got.lines.find? (fun q => q.1 == i) with | some q => (q.2, false) | none => (0, true)
      let place := fun (s : State) (ls : List (Line × Bool)) =>
        let (s, how) := s.placeLines d page ls (picks.headD 0)
        ((s.settle d).wakeStage5 d page).pageAnswer l d page how
      if repair then
        (match (s.prot_ d).fences.find? (fun f => f.covers page) with
        | some f => ((s.rebuildPage d f page (some lineOf)).1).pageAckSend l 4 d page 0
        | none => s.pageAckSend l 4 d page 0)
      else if s.treeFenced d (page * 64) then s.pageAnswer l d page .fenced
      else if form = 0 then place s ((List.range 64).map lineOf)
      else if form = 1 then
        let len := bitsOf body 0 12
        let k := bitsOf body 12 4
        let wordAt := fun (i : Nat) => ((got.slot.find? (fun q => q.1 == i)).map (fun q => q.2.toNat)).getD 0
        let image := ((List.range (ceilDiv len 8)).flatMap fun i => leBytes 8 (wordAt i)).take len
        let hdr := hdrOf image
        if k = 0 ∨ 14 < k ∨ 256 * k < len ∨ nth 0 hdr.ends 3 ≠ len ∨ !hdr.valid k s.setActive then s.pageAckSend l 3 d page 2
        else if s.eff (domPolicyTier d) ≠ 0 then
          let (s, how) := s.placeSlotImage d page k hdr (padTo (k * 256) 0 image) picks
          (((s.settle d).recap l).wakeStage5 d page).pageAnswer l d page how
        else
          let got := (List.range 4).map fun i => decodeChunk image k i s.setActive s.setLens
          let s := s.each (got.zipIdx) fun s q => match q.1 with
            | .ok _ => s
            | .error e => s.chunkErr l d page none q.2 e
          place s (got.flatMap fun q => match q with
            | .ok b => (chunksOf 64 16 b).map fun x => (bytesLine x, false)
            | .error _ => List.replicate 16 ((0 : Line), true))
      else s
  | _ => s

def execPageDone (l : Half) (vc : Fin 8) (picks : List Nat) (s : State) : Result := .next (s.pageDoneIn l vc picks)

/-! ### Resync and repair, the sending side (R314 to R318) -/

/-- A resync that has copied its last extent ends: the domain is mirrored (Table 13.4). -/
def State.resyncEnd (s : State) (d : Nat) : State :=
  let h := s.home d
  let s := { s with mirror := s.mirror.upd h (fun (m : Mirror) => { m with resyncs := m.resyncs.filter (fun r => r.dom != d) }) }
  let s := s.setFld (mirDomStateW1MirEpoch d) (s.fld (mirDomStateW1MirEpoch d) + 1)
  let s := (s.setFlag (mirDomStateW0DirtyOk d) true).setFlag (mirDomStateW0PairedOnce d) true
  let s := (s.setFlag mirEvtResyncDone true).setMState d mPriMirrored
  s.updMirDom d fun m => { m with soloFrom := none, expired := false }

/-- A resync of a domain starts: the dirty extents, or every extent of the window (R314). -/
def State.resyncStart (s : State) (d : Nat) (full : Bool) : State :=
  let h := s.home d
  let todo := if full then List.range (s.winSize d) else ((s.extsOf d).filter (fun x => x.2.dirty)).map (·.1)
  let s := if full then s.setFlag (mirDomStateW0DirtyOk d) false else s
  let s := s.setMState d mPriResync
  let run : Resync := { dom := d, full, todo, next := 0, noMedia := false, again := [] }
  let s := ({ s with mirror := s.mirror.upd h (fun (m : Mirror) => { m with resyncs := m.resyncs ++ [run] }) } : State).mirTally h
  if todo.isEmpty then s.resyncEnd d else s

/-- The resync of a domain, changed. -/
def State.updResync (s : State) (d : Nat) (f : Resync → Resync) : State :=
  { s with mirror := s.mirror.upd (s.home d) (fun (m : Mirror) => { m with resyncs := mapFirst (fun r => r.dom == d) f m.resyncs }) }

/-- An extent whose pages have all been answered is clean, but for a NO_MEDIA answer; the next one follows (R316). -/
def State.resyncTurn (s : State) (d : Nat) : State :=
  let m := s.mirror.get (s.home d)
  match m.resyncs.find? (fun r => r.dom == d) with
  | none => s
  | some r =>
    match r.todo with
    | [] => s
    | e :: rest =>
      if r.next < 512 ∨ !r.again.isEmpty ∨ m.pagesOut.any (fun o => o.dom == d && !o.repair && o.page / 512 == e) then s
      else
        let s := if r.noMedia then s else s.setDirty d e false
        let s := s.updResync d fun r => { r with todo := rest, next := 0, noMedia := false }
        if rest.isEmpty then s.resyncEnd d else s

/-- The bytes of a page's slot that may travel as they are (R317): its slot image and class; the patterns left. -/
def State.slotTravels (s : State) (d page : Nat) (errs : List Burst) : Option (List Byte × Nat) × List Burst × State :=
  let pg := s.pageNow d page
  let h := s.home d
  if pg.state ≠ .shingle ∨ s.mediaLost h pg.addr then (none, errs, s)
  else
    let (got, s) := s.readSlot h pg.addr pg.cls d page [0, 1, 2, 3] errs .atOnce
    let bytes := got.lines.flatMap lineBytes
    let hdr := hdrOf bytes
    let known := match hdr.setNo with
      | none => true
      | some n => match (s.mirror.get h).peerSets with
        | some (active, prints) => bitAt active n && nth 0 prints n == s.fld (shgSetStateFp n)
        | none => false
    let listed := (List.range 64).any fun i => s.listedLine d (page * 64 + i)
    (if (List.range 4).any got.chunkBad ∨ !hdr.valid pg.cls s.setActive ∨ !known ∨ listed then none
     else some (bytes.take (nth 0 hdr.ends 3), pg.cls), got.rest, s)

/-- A page is taken under its lock and sent as lines, its poisoned ones named (R315). -/
def State.sendLines (s : State) (l : Half) (kind d peer page : Nat) (repair : Bool) (errs : List Burst) : State :=
  let (ls, _, s) := s.pageContent d page errs
  let s := s.each (List.range 64) fun s i =>
    let x := nth (0, true) ls i
    if x.2 then s else s.send l kind 8 0 (.rsLine peer (page * 64 + i) x.1)
  let mask := (List.range 64).foldl (fun m i => if (nth (0, true) ls i).2 then m + 2 ^ i else m) 0
  s.send l kind 8 0 (.pageDone peer page 0 repair mask)

/-- Pages in flight take one more, with their locks. -/
def State.pageOut (s : State) (l : Half) (d page n : Nat) (repair : Bool) : State :=
  let s := s.each (List.range n) fun s i => s.lock l d (page + i)
  { s with mirror := s.mirror.upd l (fun (m : Mirror) => { m with pagesOut := m.pagesOut ++ [({ dom := d, page, len := n, repair } : PageOut)] }) }

/-- `n` more pages may be locked (03_domains R95). -/
def State.locksLeft (s : State) (h : Half) (n : Nat) : Bool := decide ((s.locks.filter (fun l => l.half == h)).length + n ≤ 4096)

/-- A page cannot be taken now: it is locked, a write of it has no write-buffer entry yet, its counters are not on die, or it is not its
turn. -/
def State.sendWaits (s : State) (d p : Nat) : Bool :=
  s.locked d p || s.writesAhead d p || !s.ctrReady d (p * 64) || !s.locksLeft (s.home d) 1 || !s.resyncMay d p

/-- One page of a resync is sent (R315, R317). -/
def State.resyncSend (s : State) (l : Half) (d : Nat) (r : Resync) (errs : List Burst) : State :=
  let upd := fun (f : Resync → Resync) => s.updResync d f
  let peer := s.eff (mirDomW0PeerDomain d)
  match r.again with
  | page :: rest =>
    if s.sendWaits d page then s
    else ((((upd fun q => { q with again := rest }).resyncTook d page).pageOut l d page 1 false).sendLines l 3 d peer page false errs).pulse l
      bMir 0 3 (some d)
  | [] =>
    match r.todo with
    | [] => s
    | e :: _ =>
      let page := e * 512 + r.next
      let x := s.ext d e
      if r.next ≥ 512 then s.resyncTurn d
      else if s.winSize d ≤ e ∨ x.kind = .unmapped then (s.updResync d fun r => { r with next := 512 }).resyncTurn d
      else if x.kind = .zero ∧ r.next = 0 then
        if s.extLocked d e ∨ !s.locksLeft l 512 then s
        else (((s.updResync d fun r => { r with next := 512 }).pageOut l d page 512 false).send l 3 8 0 (.zeroRun peer page 512)).pulse l
          bMir 0 3 (some d)
      else if s.sendWaits d page then s
      else
        let s := (((s.updResync d fun r => { r with next := r.next + 1 }).resyncTook d page).pageOut l d page 1 false).pulse l bMir 0 3 (some d)
        if (s.pageNow d page).state = .zero then s.send l 3 8 0 (.zeroRun peer page 1)
        else match s.slotTravels d page errs with
          | (some (image, k), _, s) =>
            let words := (chunksOf 8 512 image).map fun b => (BitVec.ofNat 64 (leNat b) : BitVec 64)
            let s := s.each ((chunksOf 27 20 words).zipIdx) fun s w => s.send l 3 8 0 (.slotData peer page (27 * w.2) w.1)
            s.send l 3 8 0 (.pageDone peer page 1 false (image.length + 4096 * k))
          | (none, rest, s) => s.sendLines l 3 d peer page false rest

/-- A page owed for a repair is sent, or one of the domain's resync. -/
def State.pageSend (s : State) (h : Half) (d : Nat) (errs : List Burst) : State :=
  let m := s.mirror.get h
  if s.home d ≠ h ∨ !s.straitUp h.idx ∨ !s.flag (mirDomStateW0Matched d) ∨ m.pagesOut.length ≥ s.fld mirCfgResyncInflight then s
  else match m.repairs.find? (fun x => x.2.1 == d) with
    | some (peer, _, page) =>
      if s.sendWaits d page then s
      else
        let s := s.resyncTook d page
        let s := { s with mirror := s.mirror.upd h (fun (m : Mirror) => { m with repairs := m.repairs.erase (peer, d, page) }) }
        if (s.pageNow d page).state = .zero then s.mirTally h
        else ((s.pageOut h d page 1 true).sendLines h 4 d peer page true errs).mirTally h
    | none =>
      match m.resyncs.find? (fun r => r.dom == d) with
      | some r => if s.mState d = mPriResync then s.resyncSend h d r errs else s
      | none => s

def execResyncPageSend (h : Half) (d : Fin 1024) (errs : List Burst) (s : State) : Result := .next (s.pageSend h d errs)

/-- PAGE_ACK: the page's lock goes back; the answer counts for its extent (R316). -/
def State.pageAckIn (s : State) (l : Half) (vc : Nat) : State :=
  match s.rxHead l vc with
  | some (.pageAck d page result, _) =>
    let s := s.rxPop l vc
    match (s.mirror.get l).pagesOut.find? (fun o => o.dom == d && o.page == page) with
    | none => s
    | some o =>
      let s := s.dropPages l (fun x => x == o)
      let s := s.each (List.range o.len) fun s i => s.wakeStage5 d (page + i)
      if o.repair then s
      else
        let s := match result with
          | 1 => ((s.updResync d fun r => { r with noMedia := true }).count (mirCntPeerRefuse l.idx) 1).mirSay d cMirPeerRefuse clsCe
              (some (page * 64)) 2
          | 2 => s.updResync d fun r => { r with again := r.again ++ [page] }
          | _ => s
        s.resyncTurn d
  | _ => s

def execPageAck (l : Half) (vc : Fin 8) (s : State) : Result := .next (s.pageAckIn l vc)

/-- REPAIR_REQ: each page of the range is owed, or the whole is refused (R318). -/
def State.repairIn (s : State) (l : Half) (vc : Nat) : State :=
  match s.rxHead l vc with
  | some (.repairReq d page count, _) =>
    let s := s.rxPop l vc
    let peer := s.eff (mirDomW0PeerDomain d)
    if !(s.flag (mirDomStateW0Matched d)) ∨ s.home d ≠ l then s.send l 4 8 0 (.peerRefuse peer (page * 64) 4)
    else
      let n := min count (s.winSize d * 512 - page)
      let owed := ((List.range n).map (page + ·)).filter (fun p => (s.pageNow d p).state != .zero)
      ({ s with mirror := s.mirror.upd l (fun (m : Mirror) => { m with repairs := m.repairs ++ owed.map (fun p => (peer, d, p)) }) } : State).mirTally l
  | _ => s

def execRepairReq (l : Half) (vc : Fin 8) (s : State) : Result := .next (s.repairIn l vc)

/-! ### Matching (R300, R313, R314) -/

/-- The rejoin decision of a PRI_SOLO primary: 0 INCREMENTAL, 1 FULL, 2 EXPIRED (R314). -/
def State.rejoin (s : State) (d : Nat) (p : PeerRole) : Nat :=
  let once := s.flag (mirDomStateW0PairedOnce d)
  let inTime : Bool := match (s.mirDom d).soloFrom with
    | some t => decide (s.now - t ≤ s.fld mirCfgRejoinWindowS * 1000000000)
    | none => true
  if (s.mirDom d).expired then 2
  else if once ∧ inTime ∧ s.fld (mirDomStateW1MirEpoch d) = p.mirEpoch ∧ p.continuous ∧ s.flag (mirDomStateW0DirtyOk d) then 0
  else if !once ∨ inTime then 1
  else 2

/-- The device gives up its PRIMARY role (R313): its waiting writes complete. -/
def State.yieldDomain (s : State) (d : Nat) (tie : Bool) : State :=
  let h := s.home d
  let s := { s with mirror := s.mirror.upd h (fun (m : Mirror) => { m with
    log := m.log.filter (fun k => k.2.1 != d), resyncs := m.resyncs.filter (fun r => r.dom != d) }) }
  let s := s.dropPages h (fun p => p.dom == d)
  let s := s.setFld (mirStatusLogInuse h.idx) (s.mirror.get h).log.length
  let s := (s.updMirDom d fun m => { m with holdSync := none, holdCut := none }).setFlag (mirDomStateW0Matched d) false
  let s := ((s.setFlag mirEvtYield true).setMState d mPriYielded).lagStall h
  let s := s.mirSay d (if tie then cMirRoleTie else cMirYield) clsUcr none 0
  (s.toFm (if tie then "MIR_ROLE_TIE" else "MIR_YIELD") [d]).releaseSync (fun r => r.dom == d)

/-- The roles, modes and epochs of a domain and its partner match (R300). -/
def State.rolesMatch (s : State) (l : Half) (d : Nat) (p : PeerRole) : Bool :=
  let role := s.eff (mirDomW0Role d)
  s.home d == l && s.eff (mirDomW0PeerDomain d) == p.dom && p.peer == d
    && ((role == 1 && p.role == 2) || (role == 2 && p.role == 1)) && s.mMode d == p.mode && s.eff (mirDomW1GrantEpoch d) == p.epoch

/-- A matched domain moves as its partner's state calls for (Table 13.4, R314). -/
def State.matchMove (s : State) (d : Nat) (p : PeerRole) : State :=
  let was := s.flag (mirDomStateW0Matched d)
  let s := s.setFlag (mirDomStateW0Matched d) true
  let st := s.mState d
  if st = mPriSolo then
    if was then s
    else match s.rejoin d p with
      | 0 => s.resyncStart d false
      | 1 => s.resyncStart d true
      | _ =>
        let s := (s.updMirDom d fun m => { m with expired := true }).setFlag mirEvtRejoinExpired true
        s.mirSay d cMirRejoinExpired clsCe none 0
  else if st = mSecDetached then
    if p.state = mPriResync then
      let s := if p.dirtyOk then s else s.setFlag (mirDomStateW0Continuous d) false
      s.setMState d mSecResync
    else s
  else if st = mSecResync ∧ p.state = mPriMirrored then
    let s := (s.setFld (mirDomStateW1MirEpoch d) p.mirEpoch).setFlag (mirDomStateW0Continuous d) true
    s.setMState d mSecMirrored
  else if (st = mSecResync ∨ st = mSecMirrored) ∧ p.state = mPriSolo then s.setMState d mSecDetached
  else s

/-- ROLE: two primaries, a match, or a mismatch. -/
def State.roleIn (s : State) (l : Half) (vc : Nat) : State :=
  match s.rxHead l vc with
  | some (.role e peer role mode state continuous dirtyOk _ epoch mirEpoch, _) =>
    let s := s.rxPop l vc
    let p : PeerRole := { dom := e, peer, role, mode, state, continuous, dirtyOk, epoch, mirEpoch }
    let mismatch := fun (s : State) (d : Nat) =>
      ((s.splitPair d).setFlag mirEvtGrantMismatch true).mirSay d cMirGrantMismatch clsCe none 0
    let d := peer
    let s := s.each ((s.linkDomains l).filter (fun x => x != d && s.eff (mirDomW0PeerDomain x) == e && s.mState x != mPriYielded))
      fun s x => mismatch (s.updMirDom x fun m => { m with peer := some p }) x
    if s.mState d = mUnpaired ∨ s.home d ≠ l ∨ s.mState d = mOrphaned then s
    else
      let s := s.updMirDom d fun m => { m with peer := some p }
      let mine := s.eff (mirDomW1GrantEpoch d)
      if s.eff (mirDomW0Role d) = 1 ∧ role = 1 ∧ s.eff (mirDomW0PeerDomain d) = e then
        if s.mState d = mPriYielded then s
        else if mine < epoch then s.yieldDomain d false
        else if mine = epoch then s.yieldDomain d true
        else s.splitPair d
      else if s.mState d = mPriYielded then s
      else if s.rolesMatch l d p then s.matchMove d p
      else if s.eff (mirDomW0PeerDomain d) ≠ e ∧ s.flag (mirDomStateW0Matched d) then s
      else mismatch s d
  | _ => s

def execRole (l : Half) (vc : Fin 8) (s : State) : Result := .next (s.roleIn l vc)

/-- SET_FP. -/
def State.setFpIn (s : State) (l : Half) (vc : Nat) : State :=
  match s.rxHead l vc with
  | some (.setFp active prints, _) =>
    let s := s.rxPop l vc
    { s with mirror := s.mirror.upd l (fun (m : Mirror) => { m with peerSets := some (active, prints) }) }
  | _ => s

def execSetFp (l : Half) (vc : Fin 8) (s : State) : Result := .next (s.setFpIn l vc)

end Sys2Proof.Machine
end

