-- ==== Sys2Proof/Machine/Fault.lean ====
section
/-! DEFINITION. Fault records, fenced units, the status pins, the media commands and the vendor mailbox: the meanings of their
commands (15_faults R337 to R352; 19_register_map R416). -/

namespace Sys2Proof.Machine

/-! ### Records (R338, R344) -/

/-- A record may close: not a lost-write record, whose unit is not in reset (R338, R339). -/
def State.closable (s : State) (r : FaultRec) : Bool := r.isOpen && r.name != cTierLostWrite && !(s.unit r.unit).resetting

/-- 10 ms after its first detection, or 100 µs after its unit's reset, a record closes. -/
def State.recordClose (s : State) (seq : Nat) : State :=
  match s.records.find? (fun r => r.seq == seq) with
  | some r => if s.closable r then s.closeRecord seq else s
  | none => s

def execFaultRecordClose (seq : BitVec 32) (s : State) : Result := .next (s.recordClose seq.toNat)

/-- A record is acknowledged; it closes unless its unit's reset ended less than 100 µs ago. -/
def State.ackRecord (s : State) (r : FaultRec) : State :=
  let s := { s with records := mapFirst (fun q => q.seq == r.seq) (fun q => { q with acked := true }) s.records }
  let late : Bool := match (s.unit r.unit).resetEnd with | some t => decide (t + 100000 ≤ s.now) | none => true
  if s.closable r && late then s.closeRecord r.seq else s

/-- FLT_ACK. -/
def State.faultAck (s : State) (v : Nat) : State :=
  let all := bitAt v 32
  s.each (s.records.filter (fun r => all || r.seq == v % 2 ^ 32)).reverse fun s r => s.ackRecord r

def execFaultAck (value : Word) (s : State) : Result := .next (s.write .ack false none fun s => s.faultAck value.toNat)

def execItemRunClose (unit : BitVec 16) (s : State) : Result := .next (s.closeRun unit.toNat)

/-! ### The end of a unit's reset (R342, Table 15.7) -/

/-- A unit of the kinds that Table 15.7 lets return to service. -/
def returnsKind (u : Nat) : Bool := [2, 3, 4, 5, 7].contains (u / 0x1000)

/-- The extents that a post-fence walk passes: those of the valid domains homed on the channel's half (03_domains R91). -/
def State.walkList (s : State) (h : Half) : List (Nat × Nat) :=
  (s.homed h).flatMap fun d => ((s.extsOf d).filter (fun x => x.2.kind != .unmapped)).map fun x => (d, x.1)

/-- A fenced unit's reset and test end. -/
def State.unitResetDone (s : State) (u : Nat) (pass : Bool) : State :=
  if !(s.unit u).resetting then s
  else
    let i := u % 0x1000
    let s := s.updUnit u fun x => { x with resetting := false, resetEnd := some s.now }
    if u / 0x1000 = 1 then
      { s with walks := s.walks ++ [{ channel := i, todo := s.walkList (chanHalf i) }] }
    else
      let s := s.endEpisode u
      let ivOut := decide (u / 0x1000 = 7) && s.fld (twStatusDownCause i) == 8
      if !returnsKind u || !pass || decide ((s.unit u).fences ≥ 3) || ivOut then s
      else
        let s := s.setFenced u false
        match u / 0x1000 with
        | 3 => s.setBit (shgStatusCompFenced (i / 8)) (i % 8) false
        | 4 => s.setBit (shgStatusDecompFenced (i / 8)) (i % 8) false
        | _ => s

def execUnitResetDone (unit : BitVec 16) (pass : Bool) (s : State) : Result := .next (s.unitResetDone unit.toNat pass)

/-! ### Pins (R348, R349) -/

/-- The 2 ms phase of ERR_N ends; a RELEASE held takes effect. -/
def State.errPhaseEnd (s : State) : State :=
  if !s.flag fltErrPinCtrlHwPhase then s
  else
    let s := s.setFlag fltErrPinCtrlHwPhase false
    if s.flag fltErrPinCtrlReleasePending then
      ((s.setFlag fltErrPinCtrlReleasePending false).setFlag fltErrPinCtrlHwLatched false).errPin
    else s

def execErrPhaseEnd (s : State) : Result := .next s.errPhaseEnd

/-- RELEASE of ERR_N. -/
def State.errRelease (s : State) : State :=
  if s.flag fltErrPinCtrlDfLock then s
  else if s.flag fltErrPinCtrlHwPhase then s.setFlag fltErrPinCtrlReleasePending true
  else (s.setFlag fltErrPinCtrlHwLatched false).errPin

def execErrPinRelease (s : State) : Result := .next (s.write .ack false none State.errRelease)

def execErrPinSwAssert (on : Bool) (s : State) : Result :=
  .next (s.write .ack false none fun s => (s.setFlag fltErrPinCtrlSwAssert on).errPin)

/-- The 2 ms phase of ALARM_N ends. -/
def State.alarmPhaseEnd (s : State) : State :=
  if !s.flag fltAlarmPinCtrlHwPhase then s
  else
    let s := s.setFlag fltAlarmPinCtrlHwPhase false
    if s.flag fltAlarmPinCtrlReleasePending then
      ((s.setFlag fltAlarmPinCtrlReleasePending false).setFlag fltAlarmPinCtrlHwLatched false).alarmPin
    else s

def execAlarmPhaseEnd (s : State) : Result := .next s.alarmPhaseEnd

/-- RELEASE of ALARM_N. -/
def State.alarmRelease (s : State) : State :=
  if s.flag fltAlarmPinCtrlHwPhase then s.setFlag fltAlarmPinCtrlReleasePending true
  else (s.setFlag fltAlarmPinCtrlHwLatched false).alarmPin

def execAlarmPinRelease (s : State) : Result := .next (s.write .ack false none State.alarmRelease)

/-! ### Media commands (R345) -/

/-- The lines of an LD's ranges that overlap `n` lines from a DPA line, as LD-DPA lines and lengths. -/
def State.ldPieces (s : State) (p n dpaLine len : Nat) : List (Nat × Nat) :=
  (s.ldRanges p n).filterMap fun r =>
    let base := r.2.2 * extLines
    let lo := max dpaLine base
    let hi := min (dpaLine + len) (base + r.2.1 * extLines)
    if lo < hi then some (lo - base + r.1 * extLines, hi - lo) else none

/-- The poison entries that an LD is told, in a range of LD-DPA lines: first line, lines, 1 for External (R345). -/
def State.poisonList (s : State) (p n first len : Nat) : List (Nat × Nat × Nat) :=
  (s.poison.a ++ s.poison.b).flatMap fun e =>
    if !s.ownerLd e.dom p n then []
    else (s.ldPieces p n (s.winBase e.dom * extLines + e.line) e.len).filterMap fun x =>
      let lo := max x.1 first
      let hi := min (x.1 + x.2) (first + len)
      if lo < hi then some (lo, hi - lo, b2n e.external) else none

/-- Get Poison List: the entries, and the overflow's time where there is one. -/
def State.getPoison (s : State) (p n first len : Nat) : State :=
  let ovf := [s.poisonOvf.a, s.poisonOvf.b].filterMap fun o => o.map (·.1)
  let list := (s.poisonList p n first len).flatMap fun e => [e.1, e.2.1, e.2.2]
  s.emit (.reply "GET_POISON_LIST" (ovf.length :: ovf ++ list))

def execGetPoisonList (p ld : Fin 16) (lineAddr len : Nat) (s : State) : Result := .next (s.getPoison p ld lineAddr len)

/-- The LD's scan. -/
def State.scan (s : State) (fn : Nat) : Option ScanMedia := cellGet none s.scans fn

/-- Scan Media starts, unless one runs (log 66). -/
def State.scanStart (s : State) (fn first len : Nat) : State :=
  match s.scan fn with
  | some { done := false, .. } => s.emit (.reply "SCAN_MEDIA_BUSY" [])
  | _ => ({ s with scans := cellPut none s.scans fn (some { first, len, done := false, found := [] }) } : State).emit (.reply "SCAN_MEDIA" [])

def execScanMedia (p ld : Fin 16) (lineAddr len : Nat) (s : State) : Result := .next (s.scanStart (fnOf p ld) lineAddr len)

/-- The pages of an LD's domains that a range of LD-DPA lines touches: LD-DPA line of the first line in it, the domain, its
line, and how many lines of the page lie in the range. -/
def State.scanPages (s : State) (p n first len : Nat) : List (Nat × Nat × Nat × Nat) :=
  let line := fun (l : Nat) => (s.ldToDpa p n (l * 64)).bind s.domOfDpa
  ((List.range ((first % 64 + len + 63) / 64)).filterMap fun k =>
    let l := if k = 0 then first else first / 64 * 64 + 64 * k
    let stop := min (first + len) (first / 64 * 64 + 64 * (k + 1))
    match line l with
    | some (d, x) => if s.ownerLd d p n then some (l, d, x, stop - l) else none
    | none => none)

/-- The scan ends: every line of the range has been read, but for ZERO pages; those that read poisoned are listed. -/
def State.scanEnd (s : State) (p n : Nat) (errs : List Burst) : State :=
  let fn := fnOf p n
  match s.scan fn with
  | some { first, len, done := false, .. } =>
    let (s, found, _) := (s.scanPages p n first len).foldl (fun (acc : State × List Nat × List Burst) q =>
      let (s, found, errs) := acc
      let (l, d, x, k) := q
      if (s.pageNow d (x / 64)).state = .zero then acc
      else
        let (ls, errs, s) := s.pageContent d (x / 64) errs
        let bad := (List.range k).filter fun i => (nth (0, true) ls (x % 64 + i)).2
        let s := s.each bad fun s i => s.addPoison (s.home d) d (x + i) 1 false
        (s, found ++ bad.map (l + ·), errs)) (s, [], errs)
    let s := { s with scans := cellPut none s.scans fn (some { first, len, done := true, found }) }
    if (s.ldRanges p n).all (fun r => first ≤ r.1 * extLines && (r.1 + r.2.1) * extLines ≤ first + len) then
      s.each [Half.a, Half.b] fun s h =>
        let f := fun (o : Option (Nat × Bool)) => ovfAfter (s.poison.get h).length (o.map fun t => (t.1, true))
        { s with poisonOvf := s.poisonOvf.upd h f }
    else s
  | _ => s

def execScanMediaDone (p ld : Fin 16) (errs : List Burst) (s : State) : Result := .next (s.scanEnd p ld errs)

/-- Get Scan Media Capabilities: the estimate is open. -/
def State.scanCaps (s : State) : State :=
  let (v, s) := s.freeNat
  s.emit (.reply "GET_SCAN_MEDIA_CAPABILITIES" [v])

def execGetScanMediaCapabilities (_p _ld : Fin 16) (_lineAddr _len : Nat) (s : State) : Result := .next s.scanCaps

/-- Get Scan Media Results: whether a scan has ended, and the lines it found. -/
def State.scanResults (s : State) (fn : Nat) : State :=
  match s.scan fn with
  | some x => s.emit (.reply "GET_SCAN_MEDIA_RESULTS" (b2n x.done :: x.found))
  | none => s.emit (.reply "GET_SCAN_MEDIA_RESULTS" [0])

def execGetScanMediaResults (p ld : Fin 16) (s : State) : Result := .next (s.scanResults (fnOf p ld))

/-- Clear Poison: a full-line write of the supplied data at the domain's class. -/
def State.clearPoison (s : State) (p n line : Nat) (data : Line) : State :=
  match (s.ldToDpa p n (line * 64)).bind s.domOfDpa with
  | none => s.emit (.reply "INVALID_ADDRESS" [])
  | some (d, l) =>
    if !s.ownerLd d p n then s.emit (.reply "INVALID_ADDRESS" [])
    else
      let r : Req := { rid := 0, org := .internal, tag := 0, kind := .wr, want := .none, data, enables := allBytes, poison := false,
                       dom := d, line := l, dpa := s.dpaOf d l, gen := s.fld (domStatusGen d), home := s.home d, cls := 7, color := 0,
                       stage := .waitEntry, resp := .cmp, stamps := { arrive := s.now, tide := s.tns } }
      let (s, r) := s.mark (s.home d) r 0
      let s := ((s.admitReq r).domTally d).emit (.reply "CLEAR_POISON" [])
      match (s.reqs.getLast?).map (fun q => (q.rid, q.stage)) with
      | some (rid, Stage.queued) =>
        if s.df then s.failReq rid uDevice
        else if s.fenced (uHalf (s.home d).idx) then s.failReq rid (uHalf (s.home d).idx) else s
      | _ => s

def execClearPoison (p ld : Fin 16) (lineAddr : Nat) (data : Line) (s : State) : Result := .next (s.clearPoison p ld lineAddr data)

def execInjectPoison (_p _ld : Fin 16) (_lineAddr : Nat) (s : State) : Result := .next (s.emit (.reply "UNSUPPORTED" []))

/-! ### Events and the vendor mailbox (R350, R352, R416) -/

/-- Get Event Records: the oldest records of a log of an LD, or of the fabric manager's log. -/
def State.getEvents (s : State) (p n log count : Nat) : State :=
  if n = 16 then
    (s.fmLog.reverse.take count).foldl (fun s e => s.emit (.reply e.1 e.2)) s
  else
    (((cellGet [] s.events (fnOf p n * 4 + log)).reverse).take count).foldl (fun s e =>
      s.emit (.reply "EVENT_RECORD" ([e.kind, e.name, e.time] ++ (match e.addr with | some a => [a.1, a.2] | none => [])))) s

def execGetEventRecords (p : Fin 16) (ld : Fin 17) (log : Fin 4) (count : Nat) (s : State) : Result :=
  .next (s.getEvents p ld log count)

/-- A mailbox command ends with a result: 0 OK, 1 NOT_FOUND, 2 UNSUPPORTED. -/
def State.mboxEnd (s : State) (fn result : Nat) : State :=
  (s.setFld (uvMboxStatusResult fn) result).setFlag (uvMboxStatusDone fn) true

/-- A mailbox command is taken: none runs. -/
def State.mboxFree (s : State) (fn : Nat) : Bool := !s.flag (uvMboxStatusBusy fn)

/-- A write of UV_MBOX_CMD of an LD; the FM-owned LD and the G-FAM function have no vendor mailbox (02_host_ports R54, R55). -/
def State.mboxWrite (s : State) (p ld : Nat) (f : State → State) : State :=
  if ld = 16 then s else s.barWrite p ld fun s => if s.mboxFree (fnOf p ld) then f s else s

def execNop (p : Fin 16) (ld : Fin 17) (s : State) : Result :=
  .next (s.mboxWrite p ld fun s => s.mboxEnd (fnOf p ld) 0)

/-- GET_FAULT_RECORD: the record's host copy, where the record is in the ring and R350 would send it to the LD. -/
def State.getRecord (s : State) (p n : Nat) : State :=
  let fn := fnOf p n
  let seq := (s.reg (uvMboxPayload fn 0)).toNat % 2 ^ 32
  match s.records.find? (fun r => r.seq == seq) with
  | none => s.mboxEnd fn 1
  | some r =>
    match s.tells r p n, eventOf r (s.flag fltCfgHostCeEn) with
    | some la, some _ =>
      let ws := r.hostWords la
      (s.each (List.range 8) fun s i => s.setReg (uvMboxPayload fn i) (BitVec.ofNat 64 (nth 0 ws i))).mboxEnd fn 0
    | _, _ => s.mboxEnd fn 1

def execGetFaultRecord (p : Fin 16) (ld : Fin 17) (s : State) : Result :=
  .next (s.mboxWrite p ld fun s => s.getRecord p ld)

def execMboxUnsupported (p : Fin 16) (ld : Fin 17) (opcode : BitVec 16) (s : State) : Result :=
  .next (if opcode.toNat < 2 then s else s.mboxWrite p ld fun s => s.mboxEnd (fnOf p ld) 2)

end Sys2Proof.Machine
end

