-- ==== Sys2Proof/Machine/Admit.lean ====
section
/-! DEFINITION. The commit group of windows and decoders: its admission check and its switch (03_domains R80 to R86, R98 to
R101; 08_protection R209, R210; 02_host_ports R60). -/

namespace Sys2Proof.Machine

/-! ### Commit groups (11_tide_clock Table 11.4) -/

/-- The commit group of the RWT register at an offset of the privileged view. -/
def groupOf (k : Nat) : Option Nat :=
  if 0x500000 ≤ k ∧ k < 0x600000 then (if 0x100 ≤ k % 0x10000 ∧ k % 0x10000 < 0x180 then some 0 else none)
  else if 0x600000 ≤ k ∧ k < 0x640000 then
    (if k % 0x100 = 0x20 then some 3 else if k % 0x100 < 0x50 then some 0 else none)
  else if 0x710000 ≤ k ∧ k < 0x740000 then some 0
  else if k = qosDrr ∨ (qosSrcColour 0 ≤ k ∧ k < qosSrcColour 16) ∨ (qosPolA 0 ≤ k ∧ k < qosPolA 1024 ∧ k % 0x20 < 0x18) then some 1
  else if 0x880000 ≤ k ∧ k < 0x89A000 then (if 0x200 ≤ k % 0x1000 ∧ k % 0x1000 ≤ 0x400 then some 2 else none)
  else if k = mirKeyset ∨ (mirDomW0 0 ≤ k ∧ k < mirDomW0 1024) then some 3
  else if k = pwrTarget ∨ k = pwrFmVote0 ∨ k = pwrFmVote1 then some 4
  else none

/-- The shadows of a group become the values in effect (R268). -/
def State.adopt (s : State) (g : Nat) : State :=
  let sh := s.regs.filter fun q => decide (q.1 < bar0Base) && groupOf q.1 == some g
  let rest := cellDrop (fun k => decide (effBase ≤ k) && groupOf (k - effBase) == some g) s.regs
  { s with regs := sh.foldl (fun (c : Cells Word) q => cellPut (regReset (q.1 + effBase)) c (q.1 + effBase) q.2) rest }

/-- The values in effect of a group are copied into its shadows (19_register_map R415). -/
def State.disown (s : State) (g : Nat) : State :=
  let on := s.regs.filter fun q => decide (effBase ≤ q.1) && groupOf (q.1 - effBase) == some g
  let rest := cellDrop (fun k => decide (k < bar0Base) && groupOf k == some g) s.regs
  { s with regs := on.foldl (fun (c : Cells Word) q => cellPut (regReset (q.1 - effBase)) c (q.1 - effBase) q.2) rest }

/-! ### Entries (Table 3.2) -/

/-- A domain entry as read, shadow or in effect. -/
structure DomView where
  valid : Bool
  home : Half
  base : Nat
  size : Nat
  committed : Nat
  ceiling : Nat
  tclass : Nat
  prot : Nat
  tier : Nat
  key : Nat
  deriving DecidableEq, Repr

/-- The shadow entry of a domain (`act` false), or the entry in effect. -/
def State.domView (s : State) (act : Bool) (d : Nat) : DomView :=
  let rd := if act then s.eff else s.fld
  { valid := rd (domCtrlValid d) == 1, home := halfOf (rd (domCtrlHomeHalf d)), base := rd (domWindowBase d), size := rd (domWindowSize d),
    committed := rd (domSizesCommitted d), ceiling := rd (domSizesCeiling d), tclass := rd (domPolicyTclass d),
    prot := rd (domPolicyProt d), tier := rd (domPolicyTier d), key := rd (domPolicyKeySlot d) }

/-- The admission charge, in 2 MiB units (R83). -/
def DomView.charge (v : DomView) : Nat :=
  if !v.valid then 0
  else
    let mib2 := 2 ^ 21
    ceilDiv (v.committed * mib2 + v.size * 32 + (if v.tclass = 0 then 0 else v.size * 8192)
      + (if v.prot = 2 then 37 * v.committed * (mib2 / 256) else 0)) mib2

/-- The charge that an entry puts on a half. -/
def DomView.chargeOn (v : DomView) (h : Half) : Nat := if v.home == h then v.charge else 0

/-- Bytes of pinned descriptors that an entry puts on a half (R85). -/
def DomView.pinsOn (v : DomView) (h : Half) : Nat := if v.valid && v.home == h && v.tclass == 0 then v.size * 16 else 0

/-- A sum over the 1,024 entries. -/
def domSum (f : Nat → Nat) : Nat := (List.range 1024).foldl (fun n d => n + f d) 0

/-- S(h) of the shadow entries, or of the active ones (R84). -/
def State.charged (s : State) (act : Bool) (h : Half) : Nat := domSum fun d => (s.domView act d).chargeOn h

/-! ### The admission check (R81, Table 3.3) -/

/-- A domain holds a page at or above an extent that is not ZERO. -/
def State.dataFrom (s : State) (d first : Nat) : Bool :=
  (s.pagesOf d).any (fun p => decide (first ≤ p.1 / 512) && p.2.state != .zero)
    || (s.extsOf d).any (fun x => decide (first ≤ x.1) && (x.2.kind == .frame || x.2.kind == .retired))

/-- A domain's own reasons of Table 3.3, all but those that compare entries: 1, 2, 4, 6, 8 to 13 and 15. Reasons 2, 4, 6, 9 and the
growth of 13 are asked of entries with VALID = 1 alone: DESIGN CHOICE (log 155), for the table states VALID for reasons 1 and 3 only
(R81). -/
def State.ownReasons (s : State) (d : Nat) : List Nat :=
  let v := s.domView false d
  let a := s.domView true d
  let mode := s.fld (domMirrorMode d)
  let raw := fun (k : Nat) => (s.reg k).toNat
  let grows := v.valid && (!a.valid || decide (v.size > a.size))
  let first := if v.valid then v.size else 0
  let r := fun (n : Nat) (b : Bool) => if b then [n] else []
  r 1 (v.valid && v.size == 0)
    ++ r 2 (v.valid && decide (v.base + v.size > 0x8000000))
    ++ r 4 (v.valid && (v.ceiling == 0 || decide (v.ceiling < v.committed) || decide (v.ceiling > v.size)))
    ++ r 6 (v.valid && v.tclass == 0 && v.tier != 0)
    ++ r 8 (s.isS && (mode == 1 || mode == 2))
    ++ r 9 (v.valid && v.prot != 3 && !(cellGet ({} : KeySlot) s.keys v.key).loaded)
    ++ r 10 (a.valid && decide (0 < s.backed d) && (v.home != a.home || v.prot != a.prot || v.key != a.key))
    ++ r 11 (a.valid && !s.flag (domCtrlAllowDiscard d) && (!v.valid || decide (v.size < a.size)) && s.dataFrom d first)
    ++ r 12 (v.prot == 3 || v.tier == 3 || mode == 3 || decide (raw (domCtrl d) ≥ 2 ^ 4) || decide (raw (domWindow d) ≥ 2 ^ 55)
        || decide (raw (domSizes d) ≥ 2 ^ 56) || decide (raw (domPolicy d) ≥ 2 ^ 24) || decide (raw (domMirror d) ≥ 4)
        || decide (raw (domOwner d) ≥ 2 ^ 9))
    ++ r (if (s.map d).noSpace then 15 else 13) (grows && !s.flag (domStatusStageReady d))

/-- Valid shadow windows that share a unit with another: reason 3. -/
def State.overlapReasons (s : State) (d : Nat) : List Nat :=
  let v := s.domView false d
  if v.valid && (List.range 1024).any (fun e => e != d && (s.domView false e).valid
      && overlaps v.base v.size (s.domView false e).base (s.domView false e).size) then [3] else []

/-- Reasons 5 and 7 against a half: the commit raises what the half is asked for, above what it has. -/
def State.halfReasons (s : State) (h : Half) (d : Nat) : List Nat :=
  let v := s.domView false d
  let a := s.domView true d
  let beyond := fun (_ : Unit) => let new := s.charged false h
    decide (new > s.charged true h) && decide (new > s.fld (domMediaUsable h.idx) - s.fld (domMediaReserve h.idx))
  let pins := fun (_ : Unit) => decide (domSum (fun e => (s.domView false e).pinsOn h) > s.fld mapCfgPinMib * 2 ^ 20)
  (if decide (v.chargeOn h > a.chargeOn h) && beyond () then [5] else [])
    ++ (if decide (v.pinsOn h > a.pinsOn h) && pins () then [7] else [])

/-- Every reason that names a domain. -/
def State.domReasons (s : State) (d : Nat) : List Nat :=
  s.ownReasons d ++ s.overlapReasons d ++ s.halfReasons .a d ++ s.halfReasons .b d

/-- A shadow LD range: base, length, DPA base, where it is valid. -/
def State.shadowRange (s : State) (ld r : Nat) : Option (Nat × Nat × Nat) :=
  if s.flag (mapLdrW0Valid ld r) then some (s.fld (mapLdrW0LdBase ld r), s.fld (mapLdrW1Length ld r), s.fld (mapLdrW1DpaBase ld r)) else none

/-- Reason 14 holds for a range (Table 3.3). -/
def State.rangeBad (s : State) (ld r : Nat) : Bool :=
  match s.shadowRange ld r with
  | none => false
  | some (b, n, p) => n == 0 || decide (b + n > 0x8000000) || decide (p + n > 0x8000000)
      || (List.range 8).any (fun q => q != r && (match s.shadowRange ld q with | some (b', n', _) => overlaps b n b' n' | none => false))

/-- The first range that meets reason 14: LD and range. -/
def State.badRange (s : State) : Option (Nat × Nat) :=
  ((List.range 256).flatMap (fun ld => (List.range 8).map (fun r => (ld, r)))).find? (fun q => s.rangeBad q.1 q.2)

/-- Reason 12 outside the entries: reserved bits of an LD range, a reserved PIN_MIB. -/
def State.rangeReserved (s : State) : Bool :=
  decide (s.fld mapCfgPinMib > 16) || decide ((s.reg mapCfg).toNat ≥ 32)
    || (List.range 256).any (fun ld => (List.range 8).any (fun r =>
      bitsOf (s.reg (mapLdrW0 ld r)).toNat 27 36 != 0 || decide ((s.reg (mapLdrW1 ld r)).toNat ≥ 2 ^ 55)))

/-- A half's pins pass the budget though no domain raises them: reason 7 that names none. -/
def State.pinsOver (s : State) (h : Half) : Bool :=
  decide (domSum (fun e => (s.domView false e).pinsOn h) > s.fld mapCfgPinMib * 2 ^ 20)

/-- The lowest of some reasons, none where there is none. -/
def lowestOf (rs : List Nat) : Option Nat := rs.foldl (fun m r => match m with | none => some r | some x => some (min x r)) none

/-- The admission check: the reason that refuses the group, 0 for none; a refusal is reported (R81). -/
def State.checkDecode (s : State) : State × Bool :=
  let named := ((List.range 1024).map (fun d => (d, s.domReasons d))).filter (fun q => !q.2.isEmpty)
  let bad := s.badRange
  let all := named.flatMap (·.2) ++ (if bad.isSome then [14] else []) ++ (if s.rangeReserved then [12] else [])
    ++ (if s.pinsOver .a || s.pinsOver .b then [7] else [])
  match lowestOf all with
  | none => (s, true)
  | some r =>
    let s := s.each named fun s q => s.setFld (domStatusRefuse q.1) ((lowestOf q.2).getD 0)
    let s := s.setFld domCommitResultReason r
    let s := s.setFld domCommitResultDomain (match named.find? (fun q => q.2.contains r) with | some q => q.1 | none => 0)
    let (ld, rg) := if r = 14 then bad.getD (0, 0) else (0, 0)
    (((s.setFld domCommitResultLd ld).setFld domCommitResultRange rg).setFlag domCommitResultRefused true, false)

/-! ### The switch (R98 to R101) -/

/-- Media that a commit frees waits for every request of the domain's older generations (R99). -/
def State.releaseCommit (s : State) (h : Half) (d : Nat) (bases : List Nat) (slots : List (Nat × Nat)) : State :=
  if bases.isEmpty ∧ slots.isEmpty then s
  else
    let id := s.drainNext
    let item : DrainItem := { id, half := h, dom := d, waits := (s.reqs.filter (fun (r : Req) => r.hasDom && r.dom == d)).map (·.rid), commit := true, slots }
    let s := { s with drainNext := id + 1, drains := s.drains ++ [item],
                      media := s.media.map (fun (b : MediaBlk) => if b.half == h && bases.contains b.base then { b with owner := MediaOwner.draining id } else b) }
    s.setFlag (domStatusDraining d) true

/-- Promotions of pages that a commit frees end; the write that asked for one completes with its data discarded. -/
def State.dropPromos (s : State) (h : Half) (d first : Nat) : State :=
  let mine := (s.shg.get h).promos.filter (fun (p : Promo) => p.dom == d && decide (first ≤ p.page / 512))
  let s := { s with shg := s.shg.upd h (fun (g : Shg) => { g with promos := g.promos.filter (fun (p : Promo) => !(p.dom == d && decide (first ≤ p.page / 512))) }) }
  s.each mine fun s p =>
    let s := s.unlock d p.page
    match p.rid with | some rid => s.discardWrite rid 1 | none => s

/-- The media of a domain's extents from `first` on, of its areas and of its tables, as asked. -/
def State.mediaFrom (s : State) (h : Half) (d first : Nat) (areas table : Bool) : List Nat :=
  let staged := match (s.map d).staged with | some t => if t.half == h then [t.first, t.second] else [] | none => []
  (s.media.filter (fun (b : MediaBlk) => b.half == h && (match b.owner with
    | .frame d' p => d' == d && decide (first ≤ p / 512)
    | .bigFrame d' e => d' == d && decide (first ≤ e)
    | .pageTable d' e _ => d' == d && decide (first ≤ e)
    | .p2 d' _ => areas && d' == d
    | .extTable d' _ => table && d' == d && !staged.contains b.base
    | _ => false))).map (·.base)

/-- Buffered writes of the lines of a domain from `line0` on reach DRAM, oldest first. -/
def State.flushFrom (s : State) (d line0 : Nat) : State :=
  s.each (List.range 24) fun s c =>
    s.each ((s.chan c).wb.filter (fun w => w.dom == d && decide (line0 ≤ w.line) && w.slot.isNone)) fun s w => s.startWrite c w []

/-- Requests that a commit overtakes keep what they decoded (R98; log 134): one that has not been looked up keeps the mapping of its
page as it stands; a write that has takes its entry now, which reaches its line before the line is freed, or is discarded. -/
def State.keepOld (s : State) (d line0 : Nat) : State :=
  let mine := fun (r : Req) => r.hasDom && r.dom == d && decide (line0 ≤ r.line)
  let keep := fun (r : Req) =>
    if mine r && !r.pastMap && r.oldPage.isNone then { r with oldPage := some (s.pageNow d (r.line / 64)) } else r
  let s : State := { s with reqs := s.reqs.map keep }
  let s := s.each ((s.reqs.filter (fun r => mine r && r.isWrite && r.stage == .wbWait)).map (·.rid)) fun s rid => s.insertWrite rid
  s.each ((s.reqs.filter (fun r => mine r && r.isWrite && (r.stage == .wbWait || r.stage == .parked || r.stage == .promoteWait))).map (·.rid))
    fun s rid => s.discardWrite rid 1

/-- Lines of a domain's map that the cache holds leave it. -/
def State.dropCached (s : State) (h : Half) (gone : McKey → Bool) : State :=
  { s with mcache := s.mcache.upd h (fun c => c.filter (fun l => !gone l.key)) }

/-- A commit frees a domain's pages from an extent on, with its areas and its tables as asked (R98, R99; 08_protection
R210). -/
def State.freeFrom (s : State) (d first : Nat) (areas table : Bool) : State :=
  let h := s.home d
  let s := (s.keepOld d (first * 32768)).flushFrom d (first * 32768)
  let s := { s with frameMoves := s.frameMoves.filter (fun m => !(m.dom == d && decide (first ≤ m.ext))) }
  let s := s.dropPromos h d first
  let slots := ((s.pagesOf d).filter (fun p => decide (first ≤ p.1 / 512) && p.2.state == .shingle)).map (fun p => (p.2.addr, p.2.cls))
  let marks := ((s.extsOf d).filter (fun x => decide (first ≤ x.1) && x.2.dirty)).length
  let s := s.setFld (mirDomStateW0DirtyExtents d) (s.fld (mirDomStateW0DirtyExtents d) - marks)
  let s := s.releaseCommit h d (s.mediaFrom h d first areas table) slots
  let s := s.unlistPages d (first * 512) (2 ^ 36)
  let inPages := fun (k : Nat) => decide (k / 2 ^ 36 = d ∧ first ≤ k % 2 ^ 36 / 512)
  let inExts := fun (k : Nat) => decide (k / 2 ^ 27 = d ∧ first ≤ k % 2 ^ 27)
  let s : State := { s with pages := cellDrop inPages s.pages, extents := cellDrop inExts s.extents }
  s.dropCached h fun k => match k with
    | .pte d' l => d' == d && decide (first ≤ l / 64)
    | .desc d' l => d' == d && decide (first ≤ l * 4)
    | _ => false

/-- A domain that holds no page but those of zeros moves to the other half: its areas, page tables and tables in the old one are
given back, and requests that have not been looked up follow it (01_architecture R21). -/
def State.leaveHome (s : State) (d : Nat) (dest : Half) : State :=
  let h := s.home d
  let s := s.releaseCommit h d (s.mediaFrom h d 0 true true) []
  let inPages := fun (k : Nat) => decide (k / 2 ^ 36 = d)
  let bare := fun (q : Nat × Extent) => if q.1 / 2 ^ 27 = d then (q.1, ({ dirty := q.2.dirty } : Extent)) else q
  let follow := fun (r : Req) => if r.hasDom ∧ r.dom = d ∧ !r.pastMap then { r with home := dest } else r
  let s : State := { s with pages := cellDrop inPages s.pages, reqs := s.reqs.map follow,
                            extents := (s.extents.map bare).filter (fun q => q.2 != ({} : Extent)) }
  s.dropCached h fun k => k.dom == some d

/-- The areas of a domain that has moved stand in its new half; one for which there is no media is a lost extent node (08_protection
R213, R218). -/
def State.enterHome (s : State) (d : Nat) : State :=
  let h := s.home d
  let es := (s.areas.filter (fun q => q.1 / 2 ^ 27 == d)).map (·.1 % 2 ^ 27)
  s.each es fun s e => match s.allocArea h d e 0 with
    | some (a, s) => (s.dropFlips h (a * 4) 4681).saveMeta h (.dir d (e / 8))
    | none => ({ s with areas := cellPut 0 s.areas (d * 2 ^ 27 + e) 0 } : State).fenceSubtree d 3 e

/-- The tree of a domain whose SIZE has changed within an activation: the nodes from level 4 on are built anew over the extent nodes of
the window, and the root with them (08_protection R211, R214). -/
def State.regrow (s : State) (d : Nat) : State :=
  let level := fun (k : Nat) => k / 2 ^ 40 % 16
  let s : State := { s with nodes := cellDrop (fun k => k / 2 ^ 44 == d && decide (4 ≤ level k)) s.nodes }
  let s := s.dropCached (s.home d) fun k => match k with | .node d' l _ => d' == d && decide (4 ≤ l) | _ => false
  let es := (s.nodes.filter (fun q => q.1 / 2 ^ 44 == d && level q.1 == 3)).map (·.1 % 2 ^ 40)
  let s := s.each (es.filter (fun e => decide (e < s.winSize d))) fun s e => State.retag 14 s d 3 e
  let top := s.top d
  s.updProt d fun p => { p with root := BitVec.ofNat 64 (s.nodeTag d top 0 (s.nodeBytes d top 0)) }

/-- Both copies of a table placed now: the lowest free places on two channels. -/
def State.placeTable (s : State) (d : Nat) (h : Half) (n size : Nat) : State :=
  let s := (s.updMap d fun m => { m with table1 := none, table2 := none, extents := size, staging := none }).setFlag (domStatusStageReady d) false
  match s.alloc h n 16 (.extTable d 0) 0 none with
  | none => s.setFld (domMetaExtTable d) 0
  | some (a, s) =>
    let s := ((s.dropFlips h (a * 4) (n * 4)).updMap d fun m => { m with table1 := some a }).setFld (domMetaExtTable d) a
    match s.alloc h n 16 (.extTable d 1) 0 (some (chanOf h a)) with
    | none => s.single d a 0 (size * 512)
    | some (b, s) => (s.dropFlips h (b * 4) (n * 4)).updMap d fun m => { m with table2 := some b }

/-- A domain whose window or media layout the commit changes gets its table: the staged one, or one placed now (R100;
log 68). -/
def State.takeTable (s : State) (d : Nat) : State :=
  let h := s.home d
  let v := s.domView true d
  let n := tableUnits v.size v.prot
  match (s.map d).staged with
  | some t =>
    if t.size == v.size && t.len == n && t.half == h then
      let s := s.updMap d fun m => { m with
        table1 := some t.first, table2 := some t.second, extents := v.size, staged := none, staging := none }
      (s.setFld (domMetaExtTable d) t.first).setFlag (domStatusStageReady d) false
    else
      let s := s.dropStaged d
      s.placeTable d h n v.size
  | none => s.placeTable d h n v.size

/-- A new activation of a P2 domain: its number, and counters, tags and tree from zero (08_protection R209, R210). -/
def State.activate (s : State) (d : Nat) : State :=
  let s := { s with
    ctrs := cellDrop (fun k => k / 2 ^ 36 == d) s.ctrs
    nodes := cellDrop (fun k => k / 2 ^ 44 == d) s.nodes
    tags := cellDrop (fun k => k / 2 ^ 43 == d) s.tags
    areas := cellDrop (fun k => k / 2 ^ 27 == d) s.areas }
  let s := s.dropCached (s.home d) fun k => match k with
    | .ctr d' _ | .node d' _ _ | .tags d' _ | .dir d' _ => d' == d
    | _ => false
  let s := s.updProt d fun p => { p with act := s.actCount, highMajor := 0, fences := [] }
  let s := s.setFld (protDomFences d) 0
  let top := s.top d
  (s.updProt d fun p => { p with root := BitVec.ofNat 64 (s.nodeTag d top 0 (s.nodeBytes d top 0)) }).fenceTally (s.home d)

/-- The zeroing run follows a commit (R431); a lock that it holds goes back where its page is no longer there. -/
def State.zeroCut (s : State) : State :=
  match s.zero with
  | none => s
  | some z =>
    let last := s.winSize z.dom * 512
    let gone := z.held && (!s.domOn z.dom || decide (last < z.next + 512))
    let s := if gone then s.zeroUnlock z.dom z.next else s
    let z := { z with held := z.held && !gone }
    let s : State := { s with zero := some z }
    if !s.domOn z.dom then (({ s with zero := none } : State).setFld mapZeroStatusState 3).setFld mapZeroStatusError 1
    else if last < z.stop then
      let z' := { z with stop := last, cut := true }
      if last ≤ z.next ∧ z.await.isNone then ({ s with zero := some z' } : State).zeroEnd z' else { s with zero := some z' }
    else s

/-- The keys of a domain's entry in the group. -/
def domKeys (d : Nat) : List Nat :=
  [domCtrl d, domWindow d, domSizes d, domPolicy d, domOwner d] ++ (List.range 4).map (domOwnerLd d)

/-- The commit changes the domain's active entry. -/
def State.domChanged (s : State) (d : Nat) : Bool := (domKeys d).any fun k => s.reg k != s.reg (k + effBase)

/-- The next generation: 0xFFFF is followed by 1 (DOM_STATUS.GEN). -/
def genAfter (g : Nat) : Nat := if g ≥ 0xFFFF then 1 else g + 1

/-- S(h) of the active entries (DOM_ADMIT). -/
def State.admitTally (s : State) : State :=
  s.each [Half.a, Half.b] fun s h => s.setFld (domAdmitCharged h.idx) (s.charged true h)

/-- What a commit frees of a domain before the switch: its old view and its new one. -/
def State.freeOld (s : State) (d : Nat) (a v : DomView) : State :=
  let wasP2 := a.valid && a.prot == 2
  let p2 := v.valid && v.prot == 2
  let areas := wasP2 && (!p2 || v.key != a.key)
  let table := !v.valid || v.size > a.size || v.home != a.home || p2 != wasP2
  if !a.valid then s
  else if !v.valid then s.freeFrom d 0 areas true
  else if v.home != a.home then (if v.size < a.size then s.keepOld d (v.size * 32768) else s).leaveHome d v.home
  else if v.size < a.size then s.freeFrom d v.size areas table
  else s.freeFrom d (max a.size v.size) areas table

/-- What a domain becomes after the switch. -/
def State.takeNew (s : State) (d : Nat) (a v : DomView) : State :=
  let wasP2 := a.valid && a.prot == 2
  let p2 := v.valid && v.prot == 2
  let s := ((s.setFld (domStatusGen d) (genAfter (s.fld (domStatusGen d)))).setFlag (domStatusActive d) v.valid).setFld (domChargeCharge d) v.charge
  let s := if !v.valid then
      (s.updMap d fun m => { m with table1 := none, table2 := none, extents := 0 }).setFld (domMetaExtTable d) 0
    else if !a.valid || v.size > a.size || v.home != a.home || p2 != wasP2 then s.takeTable d
    else s
  let s := if p2 && (!wasP2 || v.key != a.key) then s.activate d
    else
      let s := if p2 && a.valid && v.home != a.home then s.enterHome d else s
      if p2 && v.size != a.size then s.regrow d else s
  ((s.setFlag (domCtrlAllowDiscard d) false).setFlag (domCtrlAllowDiscard d).eff false).tally d

/-- The group applies: domains, LD ranges, SPID groups and HP_LD_CFG switch at once (R98; 02_host_ports R60). -/
def State.applyDecode (s : State) : State :=
  let moved := ((List.range 1024).filter s.domChanged).map fun d => (d, s.domView true d, s.domView false d)
  let fresh := moved.any fun q => q.2.2.valid && q.2.2.prot == 2 && (!(q.2.1.valid && q.2.1.prot == 2) || q.2.2.key != q.2.1.key)
  let s := s.each moved fun s q => s.freeOld q.1 q.2.1 q.2.2
  let ranges := s.lds.map fun q => (q, s.ldRanges q.1 q.2)
  let s := s.adopt 0
  let s := s.each ranges fun s q => if s.ldRanges q.1.1 q.1.2 = q.2 then s else s.emit (.cdatChanged (fnOf q.1.1 q.1.2))
  let s := if fresh then { s with actCount := (s.actCount + 1) % 2 ^ 32 } else s
  let s := s.each moved fun s q => s.takeNew q.1 q.2.1 q.2.2
  (s.admitTally.zeroCut.recapAll).guarantee

end Sys2Proof.Machine
end

