-- ==== Sys2Proof/Machine/Commit.lean ====
section
/-! DEFINITION. Timed commits: the checks and switches of the groups QoS, tide tables, mirror settings and power targets, the
queue, and the actions (11_tide_clock R268 to R275; 09_qos R232, R234, R242, R248; 13_pairing R298 to R301, Table 13.4;
12_strait R296, R297; 16_power R357). -/

namespace Sys2Proof.Machine

/-! ### QoS (R248) -/

/-- Reasons 1 to 3 of Table 9.6 that name a domain. -/
def State.qosReasons (s : State) (d : Nat) : List Nat :=
  let cir := s.fld (qosPolACir d)
  let cbs := s.fld (qosPolACbs d)
  let pir := s.fld (qosPolBPir d)
  let pol := s.flag (qosPolAEn d) && (pir == 0 || decide (pir < cir) || s.fld (qosPolBPbs d) == 0 || (cir == 0) != (cbs == 0))
  let shp := s.flag (qosShpEn d) && (s.fld (qosShpRate d) == 0 || s.fld (qosShpBurst d) == 0)
  (if pol then [1] else []) ++ (if shp then [2] else []) ++ (if s.fld (qosPolBSplitA d) > 256 then [3] else [])

/-- A round-robin quantum is 0 (reason 4). -/
def State.quantumZero (s : State) : Bool := (List.range 7).any fun k => bitsOf (s.reg qosDrr).toNat (8 * k) 8 == 0

/-- Reserved encodings of the group (reason 5). -/
def State.qosReserved (s : State) : Bool :=
  (List.range 16).any (fun p => (List.range 16).any (fun n => bitsOf (s.fld (qosSrcColourColours p)) (2 * n) 2 == 3)
      || decide ((s.reg (qosSrcColour p)).toNat ≥ 2 ^ 32))
    || decide ((s.reg qosDrr).toNat ≥ 2 ^ 56)
    || (List.range 1024).any fun d => decide ((s.reg (qosPolA d)).toNat ≥ 2 ^ 42) || decide ((s.reg (qosPolB d)).toNat ≥ 2 ^ 49)
        || decide ((s.reg (qosShp d)).toNat ≥ 2 ^ 42)

/-- The QoS check: the first reason of Table 9.6 (R248). -/
def State.checkQos (s : State) : State × Bool :=
  let named := ((List.range 1024).map (fun d => (d, s.qosReasons d))).filter (fun q => !q.2.isEmpty)
  let all := named.flatMap (·.2) ++ (if s.quantumZero then [4] else []) ++ (if s.qosReserved then [5] else [])
  match lowestOf all with
  | none => (s, true)
  | some r =>
    let d := match named.find? (fun q => q.2.contains r) with | some q => q.1 | none => 0
    (((s.setFld qosCommitResultReason r).setFld qosCommitResultDomain d).setFlag qosCommitResultRefused true, false)

/-- The group applies: buckets keep their tokens within their new capacity; marked shapers start as TOKEN_INIT states (R232,
R234). -/
def State.applyQos (s : State) : State :=
  let s := s.adopt 1
  let clamp := fun (q : Nat × Bucket) =>
    let d := q.1 / 2
    let sh := s.share (halfOf (q.1 % 2)) d
    (q.1, { q.2 with tc := min q.2.tc (capacity (s.eff (qosPolACbs d)) sh), tp := min q.2.tp (capacity (s.eff (qosPolBPbs d)) sh) })
  let shape := fun (q : Nat × Shaper) =>
    if q.2.marked then
      let full := capacity (s.eff (qosShpBurst q.1)) 256
      (q.1, ({ tok := if s.effFlag (qosShpTokenInit q.1) then full else 0, last := s.now, marked := false } : Shaper))
    else q
  let s := { s with buckets := (s.buckets.map clamp).filter (fun (q : Nat × Bucket) => q.2 != ({} : Bucket)), shapers := (s.shapers.map shape).filter (fun (q : Nat × Shaper) => q.2 != ({} : Shaper)) }
  s.guarantee

/-! ### Tide tables (R242) -/

/-- The tide-tables check: a scheduler written and not checked refuses the group (TT_COMMIT_RESULT). -/
def State.checkTables (s : State) : State × Bool :=
  match (List.range 26).find? (fun i => s.schedOn i && s.flag (ttStatusDirty i) && s.fld (ttStatusPendState i) != 2) with
  | none => (s, true)
  | some i => (((s.setFld ttCommitResultReason 1).setFld ttCommitResultSched i).setFlag ttCommitResultRefused true, false)

/-- The first cycle start of a scheduler's active list at or after a time (R242). -/
def State.cycleFrom (s : State) (i : Nat) (t : Nat) : Nat :=
  let c := s.fld (ttActCycleCycleNs i)
  let st := s.fld (ttActStartStartNs i)
  if c = 0 then t
  else if st ≤ t then st + ceilDiv (t - st) c * c
  else st - (st - t) / c * c

/-- The half of a scheduler. -/
def schedHalf (i : Nat) : Half := if i < 24 then chanHalf i else halfOf (i - 24)

/-- The group applies at a time: each scheduler written sets its takeover (R242); those of a fenced half are left alone
(11_tide_clock R271). -/
def State.applyTables (s : State) (t : Nat) : State :=
  let mine := (List.range 26).filter (fun i => s.schedOn i && s.flag (ttStatusDirty i) && !s.flag (ttStatusTakeoverPending i)
    && !s.fenced (uHalf (schedHalf i).idx))
  (s.each mine fun s i =>
    ((s.setFld (ttTakeoverAtAtNs i) (s.cycleFrom i t)).setFlag (ttStatusTakeoverPending i) true).updSched i fun x => { x with takeT := t }).sealTally

/-! ### Mirror settings (R299 to R301; R296, R297) -/

/-- Reasons of Table 13.1 that name a domain. -/
def State.mirReasons (s : State) (d : Nat) : List Nat :=
  let mode := s.fld (domMirrorMode d)
  let role := s.fld (mirDomW0Role d)
  let moved := role != s.eff (mirDomW0Role d) || s.fld (mirDomW0PeerDomain d) != s.eff (mirDomW0PeerDomain d)
  (if s.isS && (mode == 1 || mode == 2) then [1] else [])
    ++ (if moved && decide (s.fld (mirDomW1GrantEpoch d) ≤ s.eff (mirDomW1GrantEpoch d)) then [2] else [])
    ++ (if role != 0 && (mode == 0 || !s.domOn d) then [3] else [])

/-- A link's key-set bit, shadow and in effect. -/
def keysetFld (l : Nat) : Fld := if l = 0 then mirKeysetSetA else mirKeysetSetB

/-- The commit selects an empty key slot for a link whose set it changes (reason 4). -/
def State.keysetEmpty (s : State) : Bool :=
  !s.isS && [0, 1].any fun l =>
    let n := s.fld (keysetFld l)
    n != s.eff (keysetFld l) && [0, 1].any fun dir => !(cellGet ({} : KeySlot) s.keys (1024 + 4 * l + 2 * dir + n)).loaded

/-- Reserved encodings of the group (reason 5). -/
def State.mirReserved (s : State) : Bool :=
  decide ((s.reg mirKeyset).toNat ≥ 4) || (List.range 1024).any fun d =>
    s.fld (domMirrorMode d) == 3 || decide ((s.reg (domMirror d)).toNat ≥ 4) || s.fld (mirDomW0Role d) == 3
      || decide ((s.reg (mirDomW0 d)).toNat ≥ 2 ^ 13) || decide ((s.reg (mirDomW1 d)).toNat ≥ 2 ^ 32)

/-- The mirror-settings check: the first reason of Table 13.1 (R299). MIRROR_UNSUPPORTED shows in the entry too (00_scope
R5). -/
def State.checkMirror (s : State) : State × Bool :=
  let named := ((List.range 1024).map (fun d => (d, s.mirReasons d))).filter (fun q => !q.2.isEmpty)
  let all := named.flatMap (·.2) ++ (if s.keysetEmpty then [4] else []) ++ (if s.mirReserved then [5] else [])
  match lowestOf all with
  | none => (s, true)
  | some r =>
    let d := match named.find? (fun q => q.2.contains r) with | some q => q.1 | none => 0
    let s := s.each (named.filter (fun q => q.2.contains 1)) fun s q => s.setFld (domStatusRefuse q.1) 8
    (((s.setFld mirCommitResultReason r).setFld mirCommitResultDomain (if r ≤ 3 then d else 0)).setFlag mirCommitResultRefused true, false)

/-- The transmitter takes its new key set up once nothing is outstanding (R296). -/
def State.drainedKeys (s : State) (l : Nat) : State :=
  let h := halfOf l
  match (s.strait.get h).drain with
  | some set =>
    if s.fld (twSeqOutstanding l) = 0 then
      let s := { s with strait := s.strait.upd h (fun (k : StraitLink) => { k with drain := none, inv := 1 }) }
      let s := s.setFld (twStatusKeySetTx l) set
      if (s.strait.get h).oldSet.isNone then s.setFlag (twStatusSwitching l) false else s
    else s
  | none => s

/-- A link's key set changes at the commit time: by a drain where it is up, else at once (R296, R297). -/
def State.switchKeys (s : State) (l set : Nat) : State :=
  let h := halfOf l
  let old := s.fld (twStatusKeySetRx l)
  let s := s.setFld (twStatusKeySetRx l) set
  if s.straitUp l then
    let s := { s with strait := s.strait.upd h (fun (k : StraitLink) => { k with drain := some set, oldSet := some old }) }
    (s.setFlag (twStatusSwitching l) true).drainedKeys l
  else
    let s := { s with strait := s.strait.upd h (fun (k : StraitLink) => { k with drain := none, oldSet := none, inv := 1, high := 0, windowEnd := s.tns + 100000 }) }
    (s.setFld (twStatusKeySetTx l) set).setFlag (twEvtKeySwitchDone l) true

/-- A domain's grant before a commit: ROLE, PEER_DOMAIN, GRANT_EPOCH, MODE. -/
def State.grantOf (s : State) (d : Nat) : Nat × Nat × Nat × Nat :=
  (s.eff (mirDomW0Role d), s.eff (mirDomW0PeerDomain d), s.eff (mirDomW1GrantEpoch d), s.eff (domMirrorMode d))

/-- A domain leaves its present mirror state for a grant, or for none: its waiting writes complete, and what it was doing
with its partner ends (Table 13.4). -/
def State.leaveMirror (s : State) (d : Nat) : State :=
  let h := s.home d
  let s := if s.mState d = mPriResync ∨ s.mState d = mPriMirrored then s.goSolo d false else s
  let s := { s with mirror := s.mirror.upd h (fun (m : Mirror) => { m with
    pagesIn := m.pagesIn.filter (fun (p : PageIn) => p.dom != d), resyncs := m.resyncs.filter (fun (r : Resync) => r.dom != d) }) }
  (s.setFlag (mirDomStateW0Matched d) false).updMirDom d fun m => { m with soloFrom := none, expired := false, holdSync := none, holdCut := none }

/-- A grant takes its place in the logbook, unless the logbook is read-only (R299; 16_power R378). -/
def State.logGrant (s : State) (d : Nat) : State :=
  if s.flag fltStatusLogbookRo then s
  else s.updMirDom d fun m => { m with logged := some { role := s.eff (mirDomW0Role d), peer := s.eff (mirDomW0PeerDomain d),
                                                          epoch := s.eff (mirDomW1GrantEpoch d), mirEpoch := s.fld (mirDomStateW1MirEpoch d) } }

/-- At boot, a grant that the logbook holds is restored (Table 13.4, 17_boot R390): the epoch with it. -/
def State.restored (s : State) (d : Nat) : Option Nat :=
  if s.phase != 5 then none
  else match (s.mirDom d).logged with
    | some g => if g.role == s.eff (mirDomW0Role d) && g.peer == s.eff (mirDomW0PeerDomain d) && g.epoch == s.eff (mirDomW1GrantEpoch d)
        then some g.mirEpoch else none
    | none => none

/-- A grant of a role, or its restoration at boot (Table 13.4). -/
def State.grantRole (s : State) (d : Nat) : State :=
  match s.restored d with
  | some e =>
    let s := s.setFld (mirDomStateW1MirEpoch d) e
    if s.eff (mirDomW0Role d) = 1 then
      ((((s.setFlag mirEvtOrphaned true).setMState d mOrphaned).mirSay d cMirOrphaned clsUcr none 0)).toFm "MIR_ORPHANED" [d]
    else (s.setFlag (mirDomStateW0Continuous d) false).setMState d mSecDetached
  | none =>
    if s.eff (mirDomW0Role d) = 1 then
      let was := s.mState d
      let s := (s.setFlag (mirDomStateW0DirtyOk d) false).setFlag (mirDomStateW0PairedOnce d) false
      let s := (s.updMirDom d fun m => { m with soloFrom := some s.now }).setFld (mirDomStateW0SoloS d) 0
      let s := s.setMState d mPriSolo
      if was = mPriSolo then s else (s.setFlag mirEvtSolo true).mirSay d cMirSolo clsCe none 0
    else (s.setFlag (mirDomStateW0Continuous d) false).setMState d mSecDetached

/-- A change of MODE between SYNC and ASYNC under one grant (R301; log 70). -/
def State.modeSwitch (s : State) (d was : Nat) : State :=
  let h := s.home d
  let now := s.eff (domMirrorMode d)
  let s := s.updMirDom d fun m => { m with peer := m.peer.map fun p => if s.flag (mirDomStateW0Matched d) then { p with mode := now } else p }
  if !s.mirroring d ∨ was = now then s
  else if now = 2 then
    match ((s.mirror.get h).unacked.filter (fun (u : SyncSent) => u.dom == d)).getLast? with
    | some u => s.updMirDom d fun m => { m with holdSync := some u.num, holdCut := none }
    | none => s
  else
    let s := s.takeCut h
    s.updMirDom d fun m => { m with holdCut := some (s.fld (mirCutCut h.idx)), holdSync := none }

/-- A partner whose ROLE is known already may match the new grant at once (R300). -/
def State.tryMatch (s : State) (d : Nat) : State :=
  match (s.mirDom d).peer with
  | some p => if s.straitUp (s.home d).idx && s.rolesMatch (s.home d) d p then s.matchMove d p else s
  | none => s

/-- A domain's mirror settings have switched; `old` is its grant before (Table 13.4). -/
def State.switchDomain (s : State) (d : Nat) (old : Nat × Nat × Nat × Nat) : State :=
  let new := s.grantOf d
  if new = old then s
  else
    let grant := new.1 != old.1 || new.2.1 != old.2.1 || new.2.2.1 != old.2.2.1
    let s := if old.2.2.2 != new.2.2.2 then s.setFld (domStatusGen d) (genAfter (s.fld (domStatusGen d))) else s
    if new.1 = 0 ∨ new.2.2.2 = 0 then
      let s := (s.leaveMirror d).setMState d mUnpaired
      if grant then s.logGrant d else s
    else if grant ∨ old.2.2.2 = 0 then
      let s := ((s.leaveMirror d).grantRole d).logGrant d
      (s.sendRole d).tryMatch d
    else s.modeSwitch d old.2.2.2

/-- The group applies (R301); the link of a fenced half is left alone (11_tide_clock R271). -/
def State.applyMirror (s : State) : State :=
  let before := ((List.range 1024).filter (fun d => s.reg (domMirror d) != s.reg (domMirror d + effBase)
      || s.reg (mirDomW0 d) != s.reg (mirDomW0 d + effBase) || s.reg (mirDomW1 d) != s.reg (mirDomW1 d + effBase))).map
    fun d => (d, s.grantOf d)
  let sets := [0, 1].map fun l => (l, s.fld (keysetFld l), s.fld (keysetFld l) != s.eff (keysetFld l))
  let s := s.adopt 3
  let s := s.each before fun s q => s.switchDomain q.1 q.2
  if s.isS then s else s.each (sets.filter (fun q => q.2.2 && !s.fenced (uHalf q.1))) fun s q => s.switchKeys q.1 q.2.1

/-! ### Power targets (16_power R357, R364) -/

/-- The power-targets check (Table 16.6): `later` is the commit condition of R357. -/
def State.checkPower (s : State) (later : Bool) : State × Bool :=
  let asks := s.fld pwrTargetDevice == 1 || s.fld pwrTargetDevice == 2
  let r := if asks then s.powerReason later s.powerReserved else if s.powerReserved then 4 else 0
  if r = 0 then (s, true)
  else ((s.setFld pwrCommitResultReason r).setFlag pwrCommitResultRefused true, false)

/-- The group applies: votes and targets are in effect, and a request for DEEP_SLEEP or OFF is taken (R359, R364). -/
def State.applyPower (s : State) : State :=
  let s := s.adopt 4
  let s := match s.eff pwrTargetDevice with
    | 1 => s.startEntry false
    | 2 => s.startEntry true
    | _ => s
  s.dvfsAll

/-! ### The queue (R269 to R274) -/

/-- The checks of the groups that an entry names, and the groups that fail (R268, R271). -/
def State.checkGroups (s : State) (groups : Nat) (later : Bool) : State × Nat :=
  let run := fun (q : State × Nat) (g : Nat) =>
    if !bitAt groups g then q
    else
      let (s, ok) := match g with
        | 0 => q.1.checkDecode
        | 1 => q.1.checkQos
        | 2 => q.1.checkTables
        | 3 => q.1.checkMirror
        | _ => q.1.checkPower later
      (s, if ok then q.2 else q.2 + 2 ^ g)
  (List.range 5).foldl run (s, 0)

/-- An outcome is reported (TOP_COMMIT_RESULT). -/
def State.commitResult (s : State) (code tag t refused : Nat) : State :=
  let s := ((s.setFld topCommitResultResult code).setFld topCommitResultTag tag).setFld topCommitResultRefusedGroups refused
  (s.setFlag topCommitResultDone true).setFld topCommitAppliedTNs t

/-- An entry takes its place: by T, then by acceptance (R271). -/
def insertEntry (e : CommitEntry) : List CommitEntry → List CommitEntry
  | [] => [e]
  | x :: xs => if e.t < x.t then e :: x :: xs else x :: insertEntry e xs

/-- T of an immediate commit: the first whole microsecond at least 10 µs after receipt (R270). -/
def State.soonest (s : State) : Nat := ceilDiv (s.tide.master + 10000 * 2 ^ 40) (1000 * 2 ^ 40) * 1000

/-- A power entry or an exit from DEEP_SLEEP runs, or the device sleeps (16_power R358). -/
def State.powerBusy (s : State) : Bool := s.fld pwrStatusDeviceState != 0

/-- SUBMIT: the first code of Table 11.5 that applies (R269). -/
def State.submit (s : State) (v : Nat) : State :=
  let groups := bitsOf v 0 8
  let action := bitsOf v 8 3
  let immediate := bitAt v 11
  let coordinated := bitAt v 12
  let tag := bitsOf v 13 16
  let t := if immediate then s.soonest else s.fld topCommitTimeTNs
  let lead := fun (ns : Nat) => s.tide.master + ns * 2 ^ 40
  if (groups == 0) == (action == 0) || decide (groups ≥ 32) || decide (action > 2) || (immediate && coordinated) then
    s.commitResult 2 tag t 0
  else if t * 2 ^ 40 < lead (if coordinated then 1000000 else 10000) then s.commitResult 3 tag t 0
  else if t * 2 ^ 40 > lead 3600000000000 then s.commitResult 4 tag t 0
  else if coordinated && s.fld tbStatusState == 0 then s.commitResult 5 tag t 0
  else if s.fld topCommitStatusSealed &&& groups ≠ 0 then s.commitResult 6 tag t 0
  else if s.commits.length ≥ 64 then s.commitResult 7 tag t 0
  else
    let (s, bad) := s.checkGroups groups (s.commits.any (fun (e : CommitEntry) => decide (t < e.t)))
    if bad ≠ 0 then s.commitResult 8 tag t bad
    else if s.commits.any (fun (e : CommitEntry) => e.tag == tag) then s.commitResult 12 tag t 0
    else if s.powerBusy then s.commitResult 13 tag t 0
    else (({ s with commits := insertEntry { t, groups, action, tag } s.commits } : State).sealTally).commitResult 0 tag t 0

/-- CANCEL (R272). -/
def State.cancel (s : State) (v : Nat) : State :=
  let tag := bitsOf v 13 16
  match s.commits.find? (fun (e : CommitEntry) => e.tag == tag) with
  | none => s.commitResult 11 tag (s.fld topCommitAppliedTNs) 0
  | some e =>
    if e.t * 2 ^ 40 < s.tide.master + 5000 * 2 ^ 40 then s.commitResult 10 tag e.t 0
    else (({ s with commits := s.commits.filter (fun (x : CommitEntry) => x.tag != tag) } : State).sealTally).commitResult 9 tag e.t 0

/-- The groups of an entry apply, in the order of their bits. -/
def State.applyGroups (s : State) (groups t : Nat) : State :=
  s.each ((List.range 5).filter (bitAt groups)) fun s g =>
    match g with
    | 0 => s.applyDecode
    | 1 => s.applyQos
    | 2 => s.applyTables t
    | 3 => s.applyMirror
    | _ => s.applyPower

/-- An entry's outcome at its time: reported, and told to the fabric manager (R271). -/
def State.commitDone (s : State) (e : CommitEntry) (code refused at_ : Nat) : State :=
  (s.sealTally.commitResult code e.tag at_ refused).toFm "TOP_COMMIT" [e.tag, code, at_]

/-- The front entry's time has come: its groups are checked again and applied whole, or refused whole; or its action is
launched (R271, R274). In DF the queue is discarded (15_faults R346; log 71). -/
def State.applyFront (s : State) : State :=
  match s.commits with
  | [] => s
  | e :: rest =>
    let at_ := max e.t s.tns
    let s : State := { s with commits := rest }
    if s.df then ({ s with commits := [] } : State).sealTally
    else if e.action = 1 then ((s.snapHalf .a at_).snapHalf .b at_).commitDone e 1 0 at_
    else if e.action ≠ 0 then s.cutBoth.commitDone e 1 0 at_
    else
      let (s, bad) := s.checkGroups e.groups (!rest.isEmpty)
      if bad ≠ 0 then s.commitDone e 8 bad at_
      else
        let s := s.applyGroups e.groups at_
        let s := s.setFld topShadowStatusDirty (s.fld topShadowStatusDirty &&& (0xFF ^^^ e.groups))
        s.commitDone e 1 0 at_

/-- Every entry whose time has come applies, in queue order (R267, R271). -/
def State.applyDue : Nat → State → State
  | 0, s => s
  | n + 1, s =>
    match s.commits with
    | e :: _ => if e.t ≤ s.tns then State.applyDue n s.applyFront else s
    | [] => s

/-- The front entry is one whose action is this. -/
def State.frontIs (s : State) (action : Nat) : Bool :=
  match s.commits with
  | e :: _ => e.action == action
  | [] => false

/-- A write of TOP_COMMIT_REQ (R269, R272): OP 3 is reserved. -/
def State.commitReq (s : State) (v : Nat) : State :=
  match bitsOf v 29 2 with
  | 1 => s.submit v
  | 2 => s.cancel v
  | 3 => s.commitResult 2 (bitsOf v 13 16) (s.fld topCommitTimeTNs) 0
  | _ => s

def execCommitSubmit (value : Word) (s : State) : Result := .next (s.write .plain false none fun s => s.submit value.toNat)
def execCommitCancel (value : Word) (s : State) : Result := .next (s.write .plain false none fun s => s.cancel value.toNat)
def execCommitApply (s : State) : Result := .next (if s.frontIs 0 then s.applyFront else s)
def execSnapshot (s : State) : Result := .next (if s.frontIs 1 then s.applyFront else s)
def execMirrorCut (s : State) : Result := .next (if s.frontIs 2 then s.applyFront else s)

end Sys2Proof.Machine
end

