-- ==== Sys2Proof/Machine/Tide.lean ====
section
/-! DEFINITION. The tide clock: sources, the servo, steps, and the commands of PTP, PPS and the TB block (11_tide_clock R259
to R267). -/

namespace Sys2Proof.Machine

/-! ### Steps (R267) -/

/-- A signed shift of a 64-bit time. -/
def shift64 (t : Nat) (ns : Int) : Nat := (((t : Int) + ns) % (2 ^ 64 : Int)).toNat

/-- A scheduler follows a step: realigned before Memory_Active, shifted after it. -/
def State.stepSched (s : State) (i : Nat) (ns : Int) : State :=
  let pend := s.flag (ttStatusTakeoverPending i)
  let s := if s.boot.memActive then
      let s := s.setFld (ttActStartStartNs i) (shift64 (s.fld (ttActStartStartNs i)) ns)
      let s := s.updSched i fun x => { x with junction := if x.junction = 0 then 0 else shift64 x.junction ns }
      if pend then s.setFld (ttTakeoverAtAtNs i) (shift64 (s.fld (ttTakeoverAtAtNs i)) ns) else s
    else
      let c := s.fld (ttActCycleCycleNs i)
      let s := s.setFld (ttActStartStartNs i) (if c = 0 then s.tns else s.tns / c * c)
      if pend then s.setFld (ttTakeoverAtAtNs i) (s.cycleFrom i (max (s.sched i).takeT s.tns)) else s
  s.gateNow i

/-- A step of the master by an amount in 2^-40 ns, after which both local counters are loaded from it (01_architecture R34); exchanges that straddle it give no offset (R267;
log 67). -/
def State.stepBy (s : State) (n : Int) : State :=
  if n = 0 then s
  else
    let t := s.tide
    let s := { s with
      tide := { t with master := tideAdd t.master n, localA := tideAdd t.master n, localB := tideAdd t.master n, stepped := true,
                       syncs := [], sync12 := none, delayReq := none, pdelayReq := none, pdelayResp := none }
      strait := ⟨{ s.strait.a with timeReq := none }, { s.strait.b with timeReq := none }⟩ }
    let s := s.each ((List.range 26).filter s.schedOn) fun s i => s.stepSched i (n / (tideNs : Int))
    let s := (s.setFlag tbEvtStep true).toFm "TB_STEPPED" [intBits 64 (n / (tideNs : Int))]
    State.applyDue 64 s

/-! ### Measurements (R261, R264) -/

/-- The highest less the lowest of some offsets. -/
def spread (xs : List Int) : Nat :=
  match xs with
  | [] => 0
  | x :: r => (r.foldl max x - r.foldl min x).toNat

/-- The servo takes a measurement from the source in use (Table 11.2). -/
def State.servo (s : State) (off : Int) (qualified : Bool) : State :=
  let near := decide (absNat off ≤ s.fld tbCfgLockLossNs)
  let s := s.setFld tbOffsetOffsetNs (intBits 32 (max (-(2 ^ 31 : Int)) (min (2 ^ 31 - 1 : Int) off)))
  let s := { s with tide := { s.tide with
    inRun := if near && qualified then s.tide.inRun + 1 else 0, outRun := if near then 0 else s.tide.outRun + 1 } }
  match s.fld tbStatusState with
  | 1 =>
    if 1000 < absNat off ∧ s.flag tbCfgStepEn ∧ !s.flag tbStatusEverLocked then
      (s.stepBy (off * (tideNs : Int))).slew 0
    else
      let s := if s.tide.inRun ≥ 8 then s.tideState 2 else s
      s.slew off
  | 2 =>
    let s := if s.tide.outRun ≥ 8 then s.tideState 1 else s
    s.slew off
  | _ => s

/-- The rate difference that two measurements of one source show, 2^-40 ns per TCLK; PPS shows it modulo a second (log 25). -/
def rateOfLeads (k : Nat) (old new : Int) (ns : Nat) : Option Int :=
  if ns = 0 then none
  else
    let sec : Int := 1000000000 * (tideNs : Int)
    let d := new - old
    let d := if k = 2 then (d + sec / 2) % sec - sec / 2 else d
    some (d / (ns : Int))

/-- A measurement of a source: an offset, source less tide clock, in ns (R261, R264). `ok` says that it continues the run that
qualifies the source. -/
def State.measure (s : State) (k : Nat) (off : Int) (ok : Bool) : State :=
  let c := s.tide.source k
  let lead : Int := (s.tide.master : Int) + off * (tideNs : Int) - ((s.now * tideNs : Nat) : Int)
  let rate := match c.lead, c.lastAt with
    | some l, some t => rateOfLeads k l lead (s.now - t)
    | _, _ => none
  let run := if ok then c.run + 1 else if k = 2 then 0 else 1
  let offs := if ok then (off :: c.offsets).take 8 else [off]
  let q := match k with
    | 1 => c.qualified || (decide (run ≥ 8) && decide (spread offs < 200))
    | 2 => c.qualified || decide (run ≥ 4)
    | _ => c.qualified || (decide (run ≥ 8) && decide (spread offs < 20))
  let s := ({ s with tide := s.tide.setSource k { qualified := q, offsets := offs, lastAt := some s.now, run, lead := some lead, lost := 0 } } : State).qualTally
  if !s.ranked.contains k then s
  else
    let s := s.reselect false
    let s := if s.fld tbStatusState = 0 then
        (if s.fld tbStatusSource = 0 then s.useSource k else s).tideState 1
      else s
    if s.fld tbStatusSource ≠ k then s
    else
      let s := match rate with
        | some r => { s with tide := { s.tide with freqs := (r :: s.tide.freqs).take 64 } }
        | none => s
      s.servo off q

/-! ### PTP (R262) -/

/-- The expected Sync interval, ns (TB_PTP_CFG). -/
def State.syncNs (s : State) : Nat := 1000000000 / 2 ^ s.fld tbPtpCfgSyncLogInt

/-- A Sync with its departure time is complete: an offset, where a master is selected (R262). -/
def State.syncDone (s : State) (t1 : Nat) (corr : Int) (t2 : Nat) : State :=
  if s.tide.masters.isEmpty then s
  else
    let sent : Int := (t1 : Int) + corr
    let ok := match s.tide.ptp.lastAt with | some t => decide (s.now - t < 2 * s.syncNs) | none => false
    let s := { s with tide := { s.tide with sync12 := some (sent.toNat, t2) } }
    s.measure 1 (sent + s.tide.pathDelay - (t2 : Int)) ok

/-- PTP_SYNC: one-step, or the first half of two steps. -/
def State.ptpSync (s : State) (seq : Nat) (two : Bool) (t1 : Nat) (corr : Int) : State :=
  if two then { s with tide := { s.tide with syncs := (seq, s.tns) :: s.tide.syncs.filter (fun q => q.1 != seq) } }
  else s.syncDone t1 corr s.tns

/-- PTP_FOLLOW_UP. -/
def State.ptpFollowUp (s : State) (seq t1 : Nat) (corr : Int) : State :=
  match s.tide.syncs.find? (fun q => q.1 == seq) with
  | none => s
  | some (_, t2) =>
    ({ s with tide := { s.tide with syncs := s.tide.syncs.filter (fun q => q.1 != seq) } } : State).syncDone t1 corr t2

/-- The device asks for the path delay: Delay_Req, or Pdelay_Req under the peer-to-peer mechanism (R262; log 72). -/
def State.ptpDelayReq (s : State) : State :=
  let seq := s.tide.seq
  let peer := s.fld tbPtpCfgDelayMech = 1
  let s := { s with tide := { s.tide with
    seq := (seq + 1) % 65536
    delayReq := if peer then s.tide.delayReq else some (seq, s.tns)
    pdelayReq := if peer then some (seq, s.tns) else s.tide.pdelayReq } }
  s.emit (.ptp (if peer then "Pdelay_Req" else "Delay_Req") seq [s.tns])

/-- PTP_DELAY_RESP: the path delay of the last Sync and the last Delay_Req. -/
def State.ptpDelayResp (s : State) (seq t4 : Nat) (corr : Int) : State :=
  match s.tide.delayReq, s.tide.sync12 with
  | some (n, t3), some (t1, t2) =>
    if n = seq ∧ s.fld tbPtpCfgDelayMech = 0 then
      let d : Int := (((t2 : Int) - t1) + ((t4 : Int) - corr - t3)) / 2
      { s with tide := { s.tide with delayReq := none, pathDelay := d } }
    else s
  | _, _ => s

/-- PTP_PDELAY_REQ: answered two-step. -/
def State.ptpPdelayReq (s : State) (seq : Nat) : State :=
  if s.fld tbPtpCfgDelayMech = 1 then
    (s.emit (.ptp "Pdelay_Resp" seq [s.tns])).emit (.ptp "Pdelay_Resp_Follow_Up" seq [s.tns])
  else s

/-- A peer delay is complete: t1 to t4, the corrections taken off t4. -/
def State.peerDelay (s : State) (t1 t2 t3 : Nat) (t4 : Int) : State :=
  { s with tide := { s.tide with pdelayReq := none, pdelayResp := none, pathDelay := ((t4 - t1) - ((t3 : Int) - t2)) / 2 } }

/-- PTP_PDELAY_RESP: one-step (its turnaround lies in the correction), or the first half of two steps. -/
def State.ptpPdelayResp (s : State) (seq : Nat) (two : Bool) (t2 : Nat) (corr : Int) : State :=
  match s.tide.pdelayReq with
  | some (n, t1) =>
    if n ≠ seq ∨ s.fld tbPtpCfgDelayMech ≠ 1 then s
    else if two then { s with tide := { s.tide with pdelayResp := some (seq, t2, ((s.tns : Int) - corr).toNat) } }
    else s.peerDelay t1 t2 t2 ((s.tns : Int) - corr)
  | none => s

/-- PTP_PDELAY_RESP_FOLLOW_UP. -/
def State.ptpPdelayFollow (s : State) (seq t3 : Nat) (corr : Int) : State :=
  match s.tide.pdelayReq, s.tide.pdelayResp with
  | some (_, t1), some (n, t2, t4) => if n = seq then s.peerDelay t1 t2 t3 ((t4 : Int) - corr) else s
  | _, _ => s

/-- One list of numbers comes before another (log 26). -/
def listBefore : List Nat → List Nat → Bool
  | [], [] => false
  | [], _ :: _ => true
  | _ :: _, [] => false
  | a :: as, b :: bs => if a = b then listBefore as bs else decide (a < b)

/-- A master is better than another: its values, then its identity. -/
def PtpMaster.better (a b : PtpMaster) : Bool :=
  listBefore a.rank b.rank || (a.rank == b.rank && decide (a.ident < b.ident))

/-- The master that the BMCA selects among those heard (R262). -/
def bestMaster : List PtpMaster → Option PtpMaster
  | [] => none
  | m :: ms => match bestMaster ms with
    | some b => some (if m.better b then m else b)
    | none => some m

/-- PTP_ANNOUNCE: a master is heard. -/
def State.ptpAnnounce (s : State) (rank : List Nat) (ident : Nat) : State :=
  { s with tide := { s.tide with masters := { rank, ident } :: s.tide.masters.filter (fun m => m.ident != ident) } }

/-- The selected master's Announce is lost: it is heard no more, and PTP is disqualified (Table 11.1). -/
def State.announceLost (s : State) : State :=
  let rest := match bestMaster s.tide.masters with
    | some b => s.tide.masters.filter (· != b)
    | none => []
  ({ s with tide := { s.tide with masters := rest } } : State).loseSource 1

def execPtpSync (seq : Nat) (twoStep : Bool) (t1 : Nat) (correction : Int) (s : State) : Result :=
  .next (s.ptpSync seq twoStep t1 correction)
def execPtpFollowUp (seq t1 : Nat) (correction : Int) (s : State) : Result := .next (s.ptpFollowUp seq t1 correction)
def execPtpDelayReqSend (s : State) : Result := .next s.ptpDelayReq
def execPtpDelayResp (seq t4 : Nat) (correction : Int) (s : State) : Result := .next (s.ptpDelayResp seq t4 correction)
def execPtpAnnounce (rank : List Nat) (ident : Word) (s : State) : Result := .next (s.ptpAnnounce rank ident.toNat)
def execPtpPdelayReq (seq : Nat) (s : State) : Result := .next (s.ptpPdelayReq seq)
def execPtpPdelayResp (seq : Nat) (twoStep : Bool) (t2 : Nat) (correction : Int) (s : State) : Result :=
  .next (s.ptpPdelayResp seq twoStep t2 correction)
def execPtpPdelayRespFollowUp (seq t3 : Nat) (correction : Int) (s : State) : Result := .next (s.ptpPdelayFollow seq t3 correction)
def execPtpSyncTimeout (s : State) : Result := .next (s.loseSource 1)
def execPtpAnnounceTimeout (s : State) : Result := .next s.announceLost

/-! ### PPS (R263) -/

/-- A TB_TOD_SET value is loaded as a step (R263; log 27). -/
def State.loadTod (s : State) : State :=
  match s.tide.tod with
  | none => s
  | some v =>
    ({ s with tide := { s.tide with tod := none } } : State).stepBy (((v * tideNs : Nat) : Int) - ((s.tide.master % (2 ^ 64 * tideNs) : Nat) : Int))

/-- PPS_IN_EDGE: a held TB_TOD_SET is loaded; the offset is that from the nearest whole second (Table 11.1). -/
def State.ppsEdge (s : State) : State :=
  let s := s.loadTod
  let sec : Int := 1000000000
  let t : Int := (s.tns : Int) - s.fld tbPpsCfgInDelayNs
  let off := (t + sec / 2) / sec * sec - t
  let good := match s.tide.pps.lastAt with
    | some l => decide (s.now - l ≤ 1000001000 ∧ 999999000 ≤ s.now - l)
    | none => false
  let bad := !good && s.tide.pps.qualified
  let s := if bad then s.loseSource 2 else s
  s.measure 2 off good

/-- PPS_OUT rises at a whole second; the passing of OUT_WIDTH_US lowers it (R263). -/
def State.ppsPulse (s : State) : State :=
  if s.flag tbPpsCfgOutEn then
    ({ s with tide := { s.tide with ppsOut := some (s.now + s.fld tbPpsCfgOutWidthUs * 1000) } } : State).emit (.pin "PPS_OUT" true)
  else s

def execPpsInEdge (s : State) : Result := .next s.ppsEdge
def execPpsInTimeout (s : State) : Result := .next (s.loseSource 2)
def execPpsOutPulse (s : State) : Result := .next s.ppsPulse
def execHoldoverExpiry (s : State) : Result := .next s.holdoverEnd

/-! ### TB registers -/

/-- A write of TB_STEP. -/
def State.tbStep (s : State) (v : Nat) : State := s.stepBy (signedOf 64 v * (tideNs : Int))

/-- A write of TB_TOD_SET. -/
def State.tbTod (s : State) (v : Nat) : State := { s with tide := { s.tide with tod := some v } }

/-- A TB_CFG value holds a reserved value, or names PARTNER on a KF-9624-S. -/
def State.tbCfgBad (s : State) (v : Nat) : Bool :=
  bitsOf v 6 8 == 0 || bitsOf v 14 16 == 0 || decide (bitsOf v 40 10 > 1000)
    || (s.isS && (bitsOf v 0 2 == 3 || bitsOf v 2 2 == 3 || bitsOf v 4 2 == 3))

/-- A write of TB_CFG: ignored as a whole, or in effect at once (R261; 00_scope R6). -/
def State.tbCfgWrite (s : State) (v : Nat) : State :=
  if s.tbCfgBad v then s.setFlag tbEvtCfgReject true
  else (s.setReg tbCfg (BitVec.ofNat 64 (bitsOf v 0 51))).reselect false

/-- A read of TB_TIME_LO: the upper bits are latched (TB_TIME_LO). -/
def State.timeRead (s : State) : State × Word :=
  let v := s.tide.master / 2 ^ 24
  let s := (s.setReg tbTimeLo (BitVec.ofNat 64 v)).setFld tbTimeHiNsHi (v / 2 ^ 64 % 2 ^ 16)
  (s, BitVec.ofNat 64 v)

def execTideStep (stepNs : Word) (s : State) : Result := .next (s.write .plain true none fun s => s.tbStep stepNs.toNat)
def execTodSet (ns : Word) (s : State) : Result := .next (s.write .plain true none fun s => s.tbTod ns.toNat)
def execTbCfgWrite (value : Word) (s : State) : Result := .next (s.write .plain true none fun s => s.tbCfgWrite value.toNat)
def execTbTimeRead (s : State) : Result :=
  if s.regReach true then
    let (s, v) := s.timeRead
    .next (s.emit (.reply "READ" [v.toNat]))
  else .next s

end Sys2Proof.Machine
end

