-- ==== Sys2Proof/Machine/Strait.lean ====
section
/-! DEFINITION. The Strait link: frames in and out, its states, its width and its key sets (12_strait R276 to R297; 08_protection
R225, R226; 09_qos R245; 13_pairing R300, R309). -/

namespace Sys2Proof.Machine

/-! ### Lane groups (Table 12.1) -/

/-- Lanes of group `g`: 0 the eight lanes, 1 and 2 the fours, 3 to 6 the pairs. -/
def groupLanes (g : Nat) : Nat := nth 0 [0xFF, 0x0F, 0xF0, 0x03, 0x0C, 0x30, 0xC0] g

/-- Width encoding of a group, as TX_WIDTH: 3 x8, 2 x4, 1 x2. -/
def groupWidth (g : Nat) : Nat := nth 0 [3, 2, 2, 1, 1, 1, 1] g

/-- The widest group that holds only lanes of a mask, the lowest-numbered one on ties. -/
def widest (mask : Nat) : Option Nat := (List.range 7).find? fun g => mask &&& groupLanes g == groupLanes g

/-- Occupancy of a frame at a width, 0.1 ns, rounded up (R243). -/
def frameOcc (w : Nat) : Nat := nth 52 [52, 52, 26, 13] w

/-! ### The link -/

/-- A link with its own parts changed. -/
def State.updLink (s : State) (l : Half) (f : StraitLink → StraitLink) : State := { s with strait := s.strait.upd l f }

/-- VC_COUNT in effect. -/
def StraitLink.vcCount (k : StraitLink) : Nat := bitsOf k.cfg.toNat 1 4

/-- Receive frames of a virtual channel: TW_VC_BUF in effect x 16. -/
def StraitLink.bufOf (k : StraitLink) (v : Nat) : Nat := bitsOf k.vcBuf.toNat (7 * v) 7 * 16

/-- The virtual channel of a traffic kind (Table 12.5). -/
def StraitLink.vcOf (k : StraitLink) (kind : Nat) : Nat :=
  if kind = 0 then 0 else bitsOf k.vcMap.toNat (3 * (kind - 1)) 3

/-- Credits held for a virtual channel (R282). -/
def StraitLink.credits (k : StraitLink) (v : Nat) : Nat :=
  nth 0 k.peerBuf v - (nth 0 k.sent v + 2048 - nth 0 k.freedByPeer v) % 2048

/-- TX_CREDITS of a link. -/
def State.creditTally (s : State) (l : Half) : State :=
  s.each (List.range (s.strait.get l).vcCount) fun s v => s.setFld (twVcStatusTxCredits l.idx v) ((s.strait.get l).credits v)

/-- The key slot of a link, direction (0 transmit, 1 receive) and set (08_protection R225), and its key where it is loaded. -/
def straitSlot (l dir set : Nat) : Nat := 1024 + 4 * l + 2 * dir + set
def State.straitKey (s : State) (l dir set : Nat) : Option Bytes :=
  if (cellGet {} s.keys (straitSlot l dir set)).loaded then some (s.keyBytes (straitSlot l dir set) 0 32) else none

/-- A link may leave DISABLED: enabled, not fenced, not a KF-9624-S, out of reset (Table 12.8; 17_boot R391). -/
def State.straitMay (s : State) (i : Nat) : Bool :=
  s.flag (twCfgEnable i) && !s.fencedIn (uStrait i) && !s.isS && s.boot.strait

/-- The configuration check at DETECT passes (TW_VC_BUF, TW_VC_MAP). -/
def StraitLink.configOk (k : StraitLink) : Bool :=
  let n := k.vcCount
  let buf := fun (v : Nat) => bitsOf k.vcBuf.toNat (7 * v) 7
  decide (2 ≤ n ∧ n ≤ 8) && ((List.range 8).all fun v => if v < n then buf v != 0 else buf v == 0)
    && decide (((List.range 8).map buf).foldl (· + ·) 0 ≤ 128)
    && ((List.range 4).all fun i => decide (1 ≤ k.vcOf (i + 1) ∧ k.vcOf (i + 1) < n))

/-- Initialisation fails with a cause of TW_STATUS.INIT_FAIL (R293). -/
def State.initFails (s : State) (l : Half) (cause : Nat) : State :=
  let s := (s.setFld (twStatusInitFail l.idx) cause).setFlag (twEvtInitFail l.idx) true
  s.note { code := cTwInitFail, cls := clsCe, unit := uStrait l.idx, detail := cause }

/-- DETECT is entered: the configuration is taken and checked (Table 12.8, TW_CFG). -/
def State.enterDetect (s : State) (l : Half) : State :=
  let i := l.idx
  let s := (s.setFld (twStatusState i) 1).straitIdle i
  let s := s.updLink l fun k =>
    let k := { k.cleared with cfg := s.reg (twCfg i), vcBuf := s.reg (twVcBuf i), vcMap := s.reg (twVcMap i) }
    { k with cfgOk := k.configOk }
  if (s.strait.get l).cfgOk then s else s.initFails l 8

/-- INIT gives up: DETECT after 10 ms (Table 12.8). -/
def State.initAbort (s : State) (l : Half) (cause : Nat) : State :=
  ((s.initFails l cause).enterDetect l).updLink l fun k => { k with waitRetry := true }

/-- The boot is DONE once the TW blocks are out of reset and no link that may run is still to enter ACTIVE (17_boot Table 17.1
step 12; log 93). -/
def State.straitPaired (s : State) : State :=
  if s.phase = 7 ∧ (List.range 2).all (fun i => !s.straitMay i || s.straitUp i) then
    s.enterPhase 8
  else s

/-- Both INIT_ACKs have passed and the domains run: the link enters ACTIVE (Table 12.8; 13_pairing R300, R309, R317; 16_power
R355). -/
def State.tryActive (s : State) (l : Half) : State :=
  let i := l.idx
  let k := s.strait.get l
  if s.fld (twStatusState i) ≠ 3 ∨ !s.straitMay i ∨ !k.initAckSeen ∨ !k.initAckSent ∨ !s.straitDomainsRun i then s
  else
    let s := ((s.setFld (twStatusState i) 4).setFlag (twEvtLinkUp i) true).setReg (twSeq i) 0
    let s := s.updLink l fun k => { k with initDue := false, tagFails := [], badRun := 0 }
    let s := s.creditTally l
    let s := { s with mirror := s.mirror.upd l (fun (m : Mirror) => { m with
      syncSent := 0, unacked := [], syncRecv := 0, uncommitted := [], ackedTo := 0, asyncRecv := 0, asyncOpen := [], cuts := [] }) }
    let s := s.setFld (mirHwmHwm i) (s.fld (mirCutCut i))
    let s := (s.lagStall l).sendFp l
    (s.each (s.linkDomains l) fun s d => s.sendRole d).straitPaired

/-! ### Sending (R279, R283) -/

/-- The virtual channel whose freed count the next frame carries: the next one that changed since it was sent, where there is
one (R282). -/
def StraitLink.creditTurn (k : StraitLink) : Nat :=
  let order := (List.range 8).map fun i => (k.creditRr + i) % 8
  (order.find? fun v => nth 0 k.freed v != nth 0 k.freedSent v).getD k.creditRr

/-- A frame is built, counted and sent (R279, R286; 08_protection R225); its bytes are answered. The counter's last value
fences the link. -/
def State.launch (s : State) (l : Half) (typ vc seq color : Nat) (plain : Bytes) : State × List Byte :=
  let i := l.idx
  let k := s.strait.get l
  match s.straitKey i 0 (s.fld (twStatusKeySetTx i)) with
  | none => (s, [])
  | some key =>
    let cv := k.creditTurn
    let h : FrameHead := { typ, vc, seq, ack := (s.fld (twSeqRxExpected i) + 4095) % 4096, ackValid := k.ackValid, creditVc := cv,
                           creditCum := nth 0 k.freed cv, color, invLo := k.inv % 65536 }
    let bytes := toByteList (buildFrame key h k.inv plain)
    let s := s.updLink l fun k => { k with
      inv := k.inv + 1, ackDue := false, creditRr := (cv + 1) % 8, freedSent := k.freedSent.set cv (nth 0 k.freed cv) }
    let s := (s.pulse l bTw 0 0 none).emit (.strait l bytes)
    let s := if k.inv + 1 ≥ 2 ^ 96 - 1 then
        s.raise { code := cProtStraitIvExhausted, cls := clsUcf, unit := uStrait i }
      else s
    (s, bytes)

/-- The payload of INIT and INIT_ACK, from byte 20 on (Table 12.9). -/
def State.initPayload (s : State) (l : Half) : Bytes :=
  let k := s.strait.get l
  padTo 212 0 (leB 2 (s.fld bootIdCfgDeviceId) ++ [s.fld bootIdCfgPairId + l.idx * 4 + s.fld (twStatusKeySetTx l.idx) * 8, k.vcCount]
    ++ leB 8 k.vcBuf.toNat)

/-- The tide clock's 80-bit value: 2^-16 ns (11_tide_clock R259). -/
def State.tide80 (s : State) : Nat := s.tide.master / 2 ^ 24

/-- A TIME frame's payload (Table 12.7). -/
def State.timePayload (s : State) (kind xid a b c : Nat) : Bytes :=
  padTo 224 0 ([kind, s.fld tbStatusState + s.fld tbStatusSource * 4] ++ leB 2 xid ++ leB 10 a ++ leB 10 b ++ leB 10 c)

/-- Messages that answer the partner's SYNC messages: they have an order of their own (13_pairing Table 13.2). -/
def reverseMsg : MirMsg → Bool
  | .commitAck _ => true
  | .peerRefuse _ _ _ => true
  | _ => false

/-- The egress streams: kinds 0 to 4 of the queue, and 5 for the answers of kind 1. -/
def streamOf (q : Nat × Nat × Nat × MirMsg) : Nat := if q.1 = 1 ∧ reverseMsg q.2.2.2 then 5 else q.1

/-- The traffic kind of a stream, and the class that gates a message of it (R245). -/
def streamKind (n : Nat) : Nat := if n = 5 then 1 else n
def streamClass (q : Nat × Nat × Nat × MirMsg) : Nat := if q.1 = 1 then q.2.1 else 8

/-- The first messages of a stream, of one class and colour, that fit 28 words; the rest of the queue (R284). -/
def takeFrame (n cls color : Nat) : Nat → List (Nat × Nat × Nat × MirMsg) → List MirMsg × List (Nat × Nat × Nat × MirMsg)
  | _, [] => ([], [])
  | room, q :: rest =>
    if streamOf q ≠ n then
      let (ms, left) := takeFrame n cls color room rest
      (ms, q :: left)
    else if q.2.1 = cls ∧ q.2.2.1 = color ∧ msgSize q.2.2.2 ≤ room then
      let (ms, left) := takeFrame n cls color (room - msgSize q.2.2.2) rest
      (q.2.2.2 :: ms, left)
    else ([], q :: rest)

/-- The head of a stream. -/
def StraitLink.head (k : StraitLink) (n : Nat) : Option (Nat × Nat × Nat × MirMsg) := k.queue.find? fun q => streamOf q == n

/-- Streams whose head is gated by a class, green before yellow before red (R237). -/
def StraitLink.streamsOf (k : StraitLink) (cls : Nat) : List Nat :=
  [0, 1, 2].flatMap fun color => [5, 1, 2, 3, 4].filter fun n =>
    match k.head n with | some q => streamClass q == cls && q.2.2.1 == color | none => false

/-- A stream may send a frame now: a credit, an open gate and room before its close (R243, R245, R282). -/
def State.streamMay (s : State) (l : Half) (cls n : Nat) : Bool :=
  let k := s.strait.get l
  decide (k.credits (k.vcOf (streamKind n)) ≠ 0) && s.gateOpen (24 + l.idx) cls
    && s.fits (24 + l.idx) cls (frameOcc (s.fld (twStatusTxWidth l.idx)))

/-- A DATA frame of a stream is sent for the first time (R282, R288, R289). -/
def State.sendData (s : State) (l : Half) (n : Nat) : State :=
  let i := l.idx
  let k := s.strait.get l
  match k.head n with
  | none => s
  | some q =>
    let (ms, queue) := takeFrame n q.2.1 q.2.2.1 28 k.queue
    let vc := k.vcOf (streamKind n)
    let seq := s.fld (twSeqTxNext i)
    let s := s.updLink l fun k => { k with queue, sent := k.sent.set vc ((nth 0 k.sent vc + 1) % 2048) }
    let (s, bytes) := s.launch l tData vc seq (if vc = 0 then 0 else q.2.2.1) (msgsPayload ms)
    if !s.straitUp i then s
    else
      let s := s.updLink l fun x => { x with replay := x.replay ++ [({ seq, inv := k.inv, bytes } : StraitHeld)] }
      let out := (s.strait.get l).replay.length
      let s := (s.setFld (twSeqTxNext i) ((seq + 1) % 4096)).setFld (twSeqOutstanding i) out
      let s := if out ≥ 1024 then (s.setFlag (twSeqStalled i) true).count (twCntReplayStalls i) 1 else s
      s.creditTally l

/-- The next new DATA frame in the order of R283, R236 and R237. -/
def State.nextData (s : State) (l : Half) : State :=
  let i := l.idx
  let k := s.strait.get l
  if k.drain.isSome ∨ k.replay.length ≥ 1024 then s
  else if (k.head 0).isSome ∧ k.credits 0 ≠ 0 then s.sendData l 0
  else
    let first := fun (cls : Nat) => (k.streamsOf cls).find? (s.streamMay l cls)
    match first 0, first 8 with
    | some n, _ => s.sendData l n
    | none, some n => s.sendData l n
    | none, none =>
      if (List.range 7).all fun c => (k.streamsOf (c + 1)).isEmpty then s
      else
        let (s, n) := State.drr (24 + i) (fun s cls => (s.strait.get l).streamsOf cls) (fun s cls n => s.streamMay l cls n) drrTurns s
        match n with
        | some n =>
          let s := s.sendData l n
          if ((s.strait.get l).streamsOf ((s.sched (24 + i)).rr + 1)).isEmpty then s.setDeficit (24 + i) 0 else s
        | none => s

/-- A replayed frame lies more than 16,384 below the invocation counter (R280). -/
def StraitLink.tooOld (k : StraitLink) (f : StraitHeld) : Bool := decide (k.inv - f.inv > 16384)

/-- The egress sends the next eligible frame (R283). -/
def State.frameSend (s : State) (l : Half) : State :=
  let i := l.idx
  let k := s.strait.get l
  if s.straitUp i then
    match k.resend with
    | f :: rest =>
      if k.tooOld f then s.straitDown l 4 6
      else
        let s := s.updLink l fun k => { k with resend := rest }
        ((s.pulse l bTw 0 0 none).pulse l bTw 0 2 none).emit (.strait l f.bytes)
    | [] =>
      if k.nakDue then
        let s := (s.updLink l fun k => { k with nakDue := false }).count (twCntReplayNakSent i) 1
        (s.launch l tNak 0 0 0 (List.replicate 224 0)).1
      else if k.initAckDue then
        ((s.updLink l fun k => { k with initAckDue := false }).launch l tInitAck 0 0 0 (s.initPayload l)).1
      else match k.timeDue with
        | (kind, xid, a, b) :: rest =>
          let now := s.tide80
          let s := s.updLink l fun k => { k with timeDue := rest, timeReq := if kind = 0 then some (xid, some now) else k.timeReq }
          if kind = 0 then (s.launch l tTime 0 0 0 (s.timePayload 0 xid now 0 0)).1
          else (s.launch l tTime 0 0 0 (s.timePayload 1 xid a b now)).1
        | [] => s.nextData l
  else if s.fld (twStatusState i) = 3 then
    if k.initDue then ((s.updLink l fun k => { k with initDue := false }).launch l tInit 0 0 0 (s.initPayload l)).1
    else if k.initAckDue then
      let s := s.updLink l fun k => { k with initAckDue := false, initAckSent := true }
      ((s.launch l tInitAck 0 0 0 (s.initPayload l)).1).tryActive l
    else s
  else s

def execStraitFrameSend (l : Half) (s : State) : Result := .next (s.frameSend l)

/-- An acknowledge or a freed count has waited ACK_MAX_DELAY_NS: ACK_ONLY (R286). -/
def State.ackTimeoutSend (s : State) (l : Half) : State :=
  let k := s.strait.get l
  if s.straitUp l.idx ∧ (k.ackDue ∨ k.freed ≠ k.freedSent) then (s.launch l tAckOnly 0 0 0 (List.replicate 224 0)).1 else s

def execStraitAckTimeout (l : Half) (s : State) : Result := .next (s.ackTimeoutSend l)

/-! ### Receiving (R279, R280) -/

/-- What the checks of R279 make of a frame. -/
inductive FrameIn where
  /-- FEC, CRC or header failed. -/
  | broken
  /-- The tag failed. -/
  | forged (h : FrameHead)
  /-- Every check passed: invocation value, key set, plaintext. -/
  | good (h : FrameHead) (inv set : Nat) (plain : Bytes)
  deriving DecidableEq, Repr

/-- The key sets that the receiver tries, in order, with the H of each (R280, R296, R297). -/
def State.straitSets (s : State) (l : Half) : List (Nat × Nat) :=
  let k := s.strait.get l
  let cur := s.fld (twStatusKeySetRx l.idx)
  if s.straitUp l.idx then
    match k.oldSet with
    | some o => [(o, k.high), (cur, 0)]
    | none => [(cur, k.high)]
  else [(cur, k.high), (1 - cur, k.high)]

/-- A frame under one key set. -/
def State.openUnder (s : State) (l : Half) (h : FrameHead) (bytes : Bytes) (set high : Nat) : Option FrameIn :=
  let inv := if h.initial then some (clearInv bytes) else nearInv high h.invLo
  match s.straitKey l.idx 1 set, inv with
  | some key, some v => (openFrame key h v bytes).map (FrameIn.good h v set ·)
  | _, _ => none

/-- The checks of R279, in order. -/
def State.frameIn (s : State) (l : Half) (bytes : List Byte) (fecFail : Bool) : FrameIn :=
  let bs := ofByteList bytes
  let h := headOf (ofLeB (bs.take 8))
  if fecFail || !crcOk bs || !h.valid (s.strait.get l).vcCount then .broken
  else ((s.straitSets l).findSome? fun x => s.openUnder l h bs x.1 x.2).getD (.forged h)

/-- A frame has verified: H, the run of bad frames, the key set and the width change follow (R280, R294, R296). -/
def State.frameGood (s : State) (l : Half) (v set : Nat) : State :=
  let i := l.idx
  let k := s.strait.get l
  let s := s.pulse l bTw 0 1 none
  let s := if k.oldSet.isSome ∧ k.oldSet ≠ some set then
      let s := (s.updLink l fun k => { k with oldSet := none, high := v }).setFlag (twEvtKeySwitchDone i) true
      if k.drain.isNone then s.setFlag (twStatusSwitching i) false else s
    else s.updLink l fun k => { k with high := max k.high v }
  let s := s.updLink l fun k => { k with badRun := 0, markSent := false }
  if s.fld (twStatusState i) = 5 ∧ k.rxWant.isNone then s.setFld (twStatusState i) 4 else s

/-- A NAK is owed, once for each value of E (R287). -/
def State.oweNak (s : State) (l : Half) : State :=
  if (s.strait.get l).nakOpen then s else s.updLink l fun k => { k with nakOpen := true, nakDue := true }

/-- An acknowledge is taken (R288). -/
def State.takeAck (s : State) (l : Half) (h : FrameHead) : State :=
  let i := l.idx
  let u := s.fld (twSeqTxOldest i)
  let n := s.fld (twSeqOutstanding i)
  if !h.ackValid then s
  else if (h.ack + 4096 - u) % 4096 < n then
    let done := (h.ack + 4096 - u) % 4096 + 1
    let s := s.updLink l fun k =>
      let replay := k.replay.drop done
      { k with replay, resend := k.resend.filter fun f => replay.any fun g => g.seq == f.seq }
    ((s.setFld (twSeqTxOldest i) ((h.ack + 1) % 4096)).setFld (twSeqOutstanding i) (n - done)).setFlag (twSeqStalled i) false
  else if (u + 4095 - h.ack) % 4096 < 2048 then s
  else s.straitDown l 5 6

/-- The acknowledge and the credit count of a verified frame are taken (R285). -/
def State.takeBoth (s : State) (l : Half) (h : FrameHead) : State :=
  let s := s.takeAck l h
  if !s.straitUp l.idx then s
  else (s.updLink l fun k => { k with freedByPeer := k.freedByPeer.set h.creditVc h.creditCum }).creditTally l

/-- A DATA frame that verified (R285): accepted, a NAK, or a duplicate. -/
def State.acceptData (s : State) (l : Half) (h : FrameHead) (plain : Bytes) : State :=
  let i := l.idx
  let k := s.strait.get l
  let e := s.fld (twSeqRxExpected i)
  let d := (h.seq + 4096 - e) % 4096
  if d = 0 then
    if (k.rx.filter fun f => f.vc == h.vc && !f.old).length ≥ k.bufOf h.vc then s.straitDown l 5 6
    else
      let ms := payloadMsgs plain
      let s := s.updLink l fun k => { k with
        rx := if ms.isEmpty then k.rx else k.rx ++ [({ vc := h.vc, color := h.color, msgs := ms, old := false } : RxFrame)]
        freed := if ms.isEmpty then k.freed.set h.vc ((nth 0 k.freed h.vc + 1) % 2048) else k.freed
        ackValid := true, ackDue := true, nakOpen := false, nakDue := false, tagFails := k.tagFails.filter (· != h.seq) }
      ((s.setFld (twSeqRxExpected i) ((e + 1) % 4096)).rxTally l h.vc).takeBoth l h
  else if d < 2048 then (s.oweNak l).takeBoth l h
  else s.takeBoth l h

/-- A replay starts: every frame from U to N - 1, unless the oldest is too old (R280, R288). -/
def State.startReplay (s : State) (l : Half) (cnt : Fld) : State :=
  let k := s.strait.get l
  match k.replay with
  | [] => s
  | f :: _ =>
    if k.tooOld f then s.straitDown l 4 6
    else ((s.updLink l fun k => { k with resend := k.replay }).count cnt 1).note { code := cTwReplay, cls := clsCe, unit := uStrait l.idx }

/-- FEC symbols corrected in the codewords of a frame (TW_CNT_FEC). -/
def State.fecCount (s : State) (l : Half) (corrected : Nat) : State := s.count (twCntFecSymbols l.idx) corrected

/-- A frame of a type is taken by `f` where it verifies on a link that is up; else nothing changes (log 3). -/
def State.takeFrameOf (s : State) (l : Half) (typ : Nat) (bytes : List Byte) (corrected : Nat)
    (f : State → FrameHead → Bytes → State) : State :=
  if !s.straitUp l.idx then s
  else match s.frameIn l bytes false with
    | .good h v set plain => if h.typ = typ then f ((s.fecCount l corrected).frameGood l v set) h plain else s
    | _ => s

/-- STRAIT_DATA. -/
def State.straitDataIn (s : State) (l : Half) (bytes : List Byte) (corrected : Nat) : State :=
  s.takeFrameOf l tData bytes corrected fun s h plain => s.acceptData l h plain

def execStraitData (l : Half) (bytes : List Byte) (corrected : Nat) (s : State) : Result := .next (s.straitDataIn l bytes corrected)

/-- STRAIT_ACK_ONLY. -/
def State.straitAckIn (s : State) (l : Half) (bytes : List Byte) (corrected : Nat) : State :=
  s.takeFrameOf l tAckOnly bytes corrected fun s h _ => s.takeBoth l h

def execStraitAckOnly (l : Half) (bytes : List Byte) (corrected : Nat) (s : State) : Result := .next (s.straitAckIn l bytes corrected)

/-- STRAIT_NAK: its acknowledge is applied, then every unacknowledged frame is sent again. -/
def State.straitNakIn (s : State) (l : Half) (bytes : List Byte) (corrected : Nat) : State :=
  s.takeFrameOf l tNak bytes corrected fun s h _ =>
    let s := (s.pulse l bTw 0 4 none).takeBoth l h
    if s.straitUp l.idx then s.startReplay l (twCntReplayOnNak l.idx) else s

def execStraitNak (l : Half) (bytes : List Byte) (corrected : Nat) (s : State) : Result := .next (s.straitNakIn l bytes corrected)

/-! ### The time exchange (R291; 11_tide_clock Table 11.1) -/

/-- The link delay, 2^-16 ns: ((t4 - t1) - (t3 - t2)) / 2 - ASYM_PS. -/
def State.linkDelay (s : State) (t1 t2 t3 t4 : Nat) : Int :=
  (((t4 : Int) - t1) - ((t3 : Int) - t2)) / 2 - signedOf 16 (s.fld tbStraitAsymAsymPs) * 65536 / 1000

/-- The partner is LOCKED to a source other than PARTNER, as its TIME frames say. -/
def partnerFit (st : Nat) : Bool := st % 4 == 2 && st / 4 % 4 != 3

/-- An exchange is lost: the third in a row disqualifies the source, and a run of eight starts again. -/
def State.exchangeLost (s : State) : State :=
  let c := s.tide.partner
  if c.lost + 1 ≥ 3 then s.loseSource 3
  else { s with tide := { s.tide with partner := { c with lost := c.lost + 1, run := 0, offsets := [] } } }

/-- A TIME frame's content is acted on. -/
def State.timeContent (s : State) (l : Half) (plain : Bytes) : State :=
  let kind := plain.headD 0
  let st := nth 0 plain 1
  let xid := ofLeB ((plain.drop 2).take 2)
  let at_ := fun (i : Nat) => ofLeB ((plain.drop i).take 10)
  let now := s.tide80
  if kind = 0 then
    let s := if s.tide.partner.qualified ∧ !partnerFit st then s.loseSource 3 else s
    s.updLink l fun k => { k with timeDue := k.timeDue ++ [(1, xid, at_ 4, now)] }
  else if kind = 1 then
    match (s.strait.get l).timeReq with
    | some (x, some t1) =>
      if x ≠ xid ∨ at_ 4 ≠ t1 then s
      else
        let s := s.updLink l fun k => { k with timeReq := none }
        if !partnerFit st then s.loseSource 3
        else s.measure 3 (((at_ 24 : Int) + s.linkDelay t1 (at_ 14) (at_ 24) now - (now : Int) + 32768) / 65536) true
    | _ => s
  else s

/-- STRAIT_TIME. -/
def State.straitTimeIn (s : State) (l : Half) (bytes : List Byte) (corrected : Nat) : State :=
  s.takeFrameOf l tTime bytes corrected fun s h plain =>
    let s := s.takeBoth l h
    if s.straitUp l.idx then s.timeContent l plain else s

def execStraitTime (l : Half) (bytes : List Byte) (corrected : Nat) (s : State) : Result := .next (s.straitTimeIn l bytes corrected)

/-- Every 1 ms while ACTIVE a request is sent; one still unanswered is lost. -/
def State.timeTick (s : State) (l : Half) : State :=
  if !s.straitUp l.idx then s
  else
    let s := if (s.strait.get l).timeReq.isSome then s.exchangeLost else s
    s.updLink l fun k => { k with
      timeReq := some (k.xid, none), xid := (k.xid + 1) % 65536,
      timeDue := k.timeDue.filter (fun t => t.1 != 0) ++ [(0, k.xid, 0, 0)] }

def execStraitTimeTick (l : Half) (s : State) : Result := .next (s.timeTick l)

/-! ### Initialisation (R292, R293, R297) -/

/-- The cause with which an INIT or INIT_ACK under a key set fails, 0 for none (R293, R297). -/
def State.initCause (s : State) (l : Half) (set : Nat) (plain : Bytes) : Nat :=
  let cur := s.fld (twStatusKeySetRx l.idx)
  let pair := nth 0 plain 2
  if (set ≠ cur ∧ s.tns ≥ (s.strait.get l).windowEnd) ∨ bitsOf pair 3 1 ≠ cur then 9
  else if bitsOf pair 2 1 ≠ l.idx then 3
  else if pair % 4 ≠ s.fld bootIdCfgPairId then 4
  else if ofLeB (plain.take 2) % 4096 = s.fld bootIdCfgDeviceId then 5
  else if nth 0 plain 3 ≠ (s.strait.get l).vcCount then 6
  else 0

/-- The tag of a frame failed: counted, and an alarm (08_protection R226). -/
def State.tagFailed (s : State) (l : Half) : State :=
  (s.count (twCntErrTagFail l.idx) 1).alarm 5 (uStrait l.idx) none none 0 l.idx

/-- An INIT or INIT_ACK in INIT: what it says of the partner is taken, or initialisation fails. -/
def State.initIn (s : State) (l : Half) (typ : Nat) (bytes : List Byte) (corrected : Nat) : State :=
  if s.fld (twStatusState l.idx) ≠ 3 then s
  else match s.frameIn l bytes false with
    | .broken => s
    | .forged h => if h.typ = typ then ((s.fecCount l corrected).tagFailed l).initAbort l 2 else s
    | .good h v set plain =>
      if h.typ ≠ typ then s
      else
        let s := (s.fecCount l corrected).pulse l bTw 0 1 none
        let cause := s.initCause l set plain
        if cause ≠ 0 then s.initAbort l cause
        else
          let i := l.idx
          let s := (s.setFld (twStatusPartnerId i) (ofLeB (plain.take 2) % 4096)).setFld (twStatusPartnerPairId i) (nth 0 plain 2 % 4)
          let buf := ofLeB ((plain.drop 4).take 8)
          let s := s.updLink l fun k => { k with
            high := v, badRun := 0, peerBuf := (List.range 8).map fun j => bitsOf buf (7 * j) 7 * 16 }
          if typ = tInit then s.updLink l fun k => { k with initAckDue := true }
          else (s.updLink l fun k => { k with initAckSeen := true }).tryActive l

/-- STRAIT_INIT. -/
def State.straitInitIn (s : State) (l : Half) (bytes : List Byte) (corrected : Nat) : State := s.initIn l tInit bytes corrected

def execStraitInit (l : Half) (bytes : List Byte) (corrected : Nat) (s : State) : Result := .next (s.straitInitIn l bytes corrected)

/-- STRAIT_INIT_ACK. -/
def State.straitInitAckIn (s : State) (l : Half) (bytes : List Byte) (corrected : Nat) : State := s.initIn l tInitAck bytes corrected

def execStraitInitAck (l : Half) (bytes : List Byte) (corrected : Nat) (s : State) : Result := .next (s.straitInitAckIn l bytes corrected)

/-! ### Bad frames (R279, R280, R287; 08_protection R226) -/

/-- A bad frame on a link that is up: a NAK, and the run of bad frames. -/
def State.badFrame (s : State) (l : Half) : State :=
  if !s.straitUp l.idx then s
  else
    let s := (s.updLink l fun k => { k with badRun := k.badRun + 1 }).oweNak l
    if (s.strait.get l).badRun ≥ 8192 then s.straitDown l 3 6 else s

/-- STRAIT_BAD_FRAME; `fecFail` says that the frame has a block in an uncorrectable codeword that no earlier frame reported. -/
def State.straitBad (s : State) (l : Half) (bytes : List Byte) (fecFail : Bool) (corrected : Nat) : State :=
  let i := l.idx
  let k := s.strait.get l
  if !(s.straitUp i || s.fld (twStatusState i) == 3) then s
  else match s.frameIn l bytes fecFail with
    | .good _ _ _ _ => s
    | .broken =>
      let s := (s.fecCount l corrected).count (twCntErrBadFrame i) 1
      (if fecFail then s.count (twCntErrFecUncorr i) 1 else s).badFrame l
    | .forged h =>
      let s := (s.fecCount l corrected).tagFailed l
      if s.straitUp i then
        if h.typ = tData ∧ k.tagFails.contains h.seq then s.straitDown l 6 6
        else (if h.typ = tData then s.updLink l fun k => { k with tagFails := k.tagFails ++ [h.seq] } else s).badFrame l
      else if h.initial then s.initAbort l 2
      else s

def execStraitBadFrame (l : Half) (bytes : List Byte) (fecFail : Bool) (corrected : Nat) (s : State) : Result :=
  .next (s.straitBad l bytes fecFail corrected)

/-- The replay timer ran out with frames unacknowledged (R288). -/
def State.replayTimeout (s : State) (l : Half) : State :=
  if s.straitUp l.idx then s.startReplay l (twCntReplayOnTimeout l.idx) else s

def execStraitReplayTimeout (l : Half) (s : State) : Result := .next (s.replayTimeout l)

/-- No progress for NO_PROGRESS_US with frames unacknowledged, a lane being locked (R288). -/
def State.noProgress (s : State) (l : Half) : State :=
  if (s.strait.get l).replay.isEmpty ∨ s.fld (twStatusRxLocked l.idx) = 0 then s else s.straitDown l 2 6

def execStraitNoProgress (l : Half) (s : State) : Result := .next (s.noProgress l)

/-! ### Link states (Table 12.8) -/

/-- Signal in DETECT: TRAIN. -/
def State.signalDetect (s : State) (l : Half) : State :=
  let k := s.strait.get l
  if s.straitMay l.idx ∧ s.fld (twStatusState l.idx) = 1 ∧ k.cfgOk ∧ !k.waitRetry then s.setFld (twStatusState l.idx) 2 else s

def execStraitSignalDetect (l : Half) (s : State) : Result := .next (s.signalDetect l)

/-- Training is done: the widest group of the lanes that pass, in each direction; INIT, or KEY_EMPTY. -/
def State.straitTrained (s : State) (l : Half) (tx rx : Nat) : State :=
  let i := l.idx
  match widest tx, widest rx with
  | some t, some r =>
    if s.fld (twStatusState i) ≠ 2 ∨ !s.straitMay i then s
    else
      let s := ((s.setFld (twStatusTxWidth i) (groupWidth t)).setFld (twStatusRxWidth i) (groupWidth r)).setFld
        (twStatusRxLocked i) (groupLanes r)
      let s := (s.setFld (twStatusState i) 3).updLink l fun k => { k with txGroup := some t, rxGroup := some r, initDue := true }
      if (s.straitKey i 0 (s.fld (twStatusKeySetTx i))).isNone then s.initAbort l 7 else s
  | _, _ => s

def execStraitTrainDone (l : Half) (txLanes rxLanes : BitVec 8) (s : State) : Result :=
  .next (s.straitTrained l txLanes.toNat rxLanes.toNat)

/-- 50 ms of training without success. -/
def State.trainTimeout (s : State) (l : Half) : State :=
  if s.fld (twStatusState l.idx) = 2 then s.enterDetect l else s

def execStraitTrainTimeout (l : Half) (s : State) : Result := .next (s.trainTimeout l)

/-- INIT is sent every 10 µs; a link that waits for its domains tries again. -/
def State.initTick (s : State) (l : Half) : State :=
  if s.fld (twStatusState l.idx) = 3 then (s.updLink l fun k => { k with initDue := true }).tryActive l else s

def execStraitInitTick (l : Half) (s : State) : Result := .next (s.initTick l)

/-- 1 ms without INIT_ACK. -/
def State.initTimeout (s : State) (l : Half) : State :=
  if s.fld (twStatusState l.idx) = 3 ∧ !(s.strait.get l).initAckSeen then s.initAbort l 1 else s

def execStraitInitTimeout (l : Half) (s : State) : Result := .next (s.initTimeout l)

/-- The wait in DOWN, or after a failed initialisation, is over. -/
def State.retryTimer (s : State) (l : Half) : State :=
  let k := s.strait.get l
  let st := s.fld (twStatusState l.idx)
  if s.straitMay l.idx ∧ (st = 6 ∨ (st = 1 ∧ (k.waitRetry ∨ !k.cfgOk))) then s.enterDetect l else s

def execStraitRetryTimer (l : Half) (s : State) : Result := .next (s.retryTimer l)

/-- TW_CTRL.RETRAIN takes an up link down and enters DETECT at once. -/
def State.retrain (s : State) (l : Half) : State :=
  if s.straitUp l.idx then (s.straitDown l 9 1).enterDetect l else s

def execStraitRetrain (l : Half) (s : State) : Result := .next (s.write .plain false (some l) fun s => s.retrain l)

/-- A TW_CFG value is within its ranges. -/
def twCfgOk (v : Nat) : Bool :=
  decide (2 ≤ bitsOf v 1 4 ∧ bitsOf v 1 4 ≤ 8) && decide (1 ≤ bitsOf v 5 16 ∧ bitsOf v 5 16 ≤ 50000)
    && decide (16 ≤ bitsOf v 21 11 ∧ bitsOf v 21 11 ≤ 2000) && decide (500 ≤ bitsOf v 32 15 ∧ bitsOf v 32 15 ≤ 20000)
    && decide (10 ≤ bitsOf v 47 16 ∧ bitsOf v 47 16 ≤ 50000)

/-- A TW_CFG write: ignored as a whole, or taken, with ENABLE in effect at once. -/
def State.twCfgWrite (s : State) (l : Half) (v : Nat) : State :=
  let i := l.idx
  if s.isS then s
  else if !twCfgOk v then (if s.boot.strait then s.setFlag (twEvtCfgReject i) true else s)
  else
    let s := s.setReg (twCfg i) (BitVec.ofNat 64 (v % 2 ^ 63))
    if !s.boot.strait then s
    else if !s.flag (twCfgEnable i) then
      let s := s.straitDown l 9 0
      if s.fld (twStatusState i) = 0 then s
      else ((s.setFld (twStatusState i) 0).straitIdle i).updLink l fun k => { k.cleared with waitRetry := false }
    else if s.fld (twStatusState i) = 0 ∧ s.straitMay i then s.enterDetect l
    else s

def execTwCfgWrite (l : Half) (value : Word) (s : State) : Result :=
  .next (s.write .plain false (some l) fun s => s.twCfgWrite l value.toNat)

/-! ### Width and lock (R294, R295) -/

/-- Lanes of the receiver lose lock: a narrower group is asked for; with no aligned pair left, nothing is. -/
def State.laneLoss (s : State) (l : Half) (lost : Nat) : State :=
  let i := l.idx
  if !s.straitUp i ∨ s.fld (twStatusRxLocked i) &&& lost = 0 then s
  else
    let left := s.fld (twStatusRxLocked i) &&& (255 - lost % 256)
    let s := s.setFld (twStatusRxLocked i) left
    match widest left with
    | none => s
    | some g =>
      let s := (s.updLink l fun k => { k with rxWant := some g }).setFld (twStatusState i) 5
      (s.note { code := cTwWidthDegrade, cls := clsCe, unit := uStrait i }).emit (.straitWidth l false g)

def execStraitLaneLoss (l : Half) (lost : BitVec 8) (s : State) : Result := .next (s.laneLoss l lost.toNat)

/-- WIDTH_REQ: WIDTH_MARK is sent and the transmitter goes on with the group named. -/
def State.widthReqIn (s : State) (l : Half) (g : Nat) : State :=
  let i := l.idx
  if !s.straitUp i ∨ 7 ≤ g then s
  else
    let s := ((s.setFld (twStatusTxWidth i) (groupWidth g)).setFld (twStatusState i) 5).setFlag (twEvtWidthChange i) true
    (s.updLink l fun k => { k with txGroup := some g, markSent := true }).emit (.straitWidth l true g)

def execWidthReq (l : Half) (group : Fin 8) (s : State) : Result := .next (s.widthReqIn l group)

/-- WIDTH_MARK: the receiver follows. -/
def State.widthMarkIn (s : State) (l : Half) (g : Nat) : State :=
  let i := l.idx
  if (s.strait.get l).rxWant ≠ some g then s
  else
    let s := ((s.setFld (twStatusRxWidth i) (groupWidth g)).setFld (twStatusRxLocked i) (groupLanes g)).setFlag (twEvtWidthChange i) true
    let s := s.updLink l fun k => { k with rxGroup := some g, rxWant := none }
    if (s.strait.get l).markSent then s else s.setFld (twStatusState i) 4

def execWidthMark (l : Half) (group : Fin 8) (s : State) : Result := .next (s.widthMarkIn l group)

/-- Lock was lost on all active lanes for LOCK_LOSS_US (R295). -/
def State.lockLost (s : State) (l : Half) : State := s.straitDown l 1 6

def execStraitLockLossTimeout (l : Half) (s : State) : Result := .next (s.lockLost l)

/-- Lock returns on the lanes of the receiver's group before that (R295). -/
def State.lockReturn (s : State) (l : Half) : State :=
  match (s.strait.get l).rxGroup with
  | some g => if s.straitUp l.idx ∧ (widest (s.fld (twStatusRxLocked l.idx))).isNone then s.setFld (twStatusRxLocked l.idx) (groupLanes g) else s
  | none => s

def execStraitLockReturn (l : Half) (s : State) : Result := .next (s.lockReturn l)

/-! ### Key sets (R296) -/

def execStraitKeyDrained (l : Half) (s : State) : Result := .next (s.drainedKeys l.idx)

/-- A drain did not complete within 100 µs. -/
def State.keySwitchTimeout (s : State) (l : Half) : State :=
  if (s.strait.get l).drain.isSome then s.straitDown l 7 6 else s

def execStraitKeySwitchTimeout (l : Half) (s : State) : Result := .next (s.keySwitchTimeout l)

end Sys2Proof.Machine
end

