-- ==== Sys2Proof/Machine/Votes.lean ====
section
/-! DEFINITION. The votes for power domains (16_power R354 to R356). -/

namespace Sys2Proof.Machine

/-! ### Votes (R354, Table 16.2) -/

/-- Visits of the lap are behind the even spread of R187. -/
def State.visitsDue (s : State) (h : Half) : Bool :=
  let m := s.mover.get h
  let all := (s.homed h).flatMap fun d =>
    if s.eff (domPolicyTclass d) == 0 then [] else (s.extsOf d).filter fun x =>
      decide (x.1 < s.winSize d) && (x.2.kind == .paged || x.2.kind == .frame)
  !s.lapDone h && decide (m.visited.length * (s.fld tierCfgEpochS * 1000000000) ≤ (s.now - m.lapStart) * all.length)

/-- The page mover of a half has work of R192 due: items 1 to 7, or a visit. -/
def State.moverDue (s : State) (h : Half) : Bool :=
  let m := s.mover.get h
  s.walks.any (fun w => chanHalf w.channel == h) || (List.range 24).any (fun c => chanHalf c == h && s.retireDue h c)
    || !m.errPromotes.isEmpty || s.madeDue h || !m.offers.isEmpty || !m.promotes.isEmpty
    || !(s.shg.get h).orphans.isEmpty || s.media.any (fun b => b.half == h && b.owner == MediaOwner.orphan)
    || s.visitsDue h

/-- The comber of a channel has a step due (R354; 05_dram R149). -/
def State.comberDue (s : State) (c : Nat) : Bool :=
  s.flag (dmcCombCfgEnable c) && s.chanUp c && decide (0 < s.combSteps c)
    && decide (s.combTime c (s.fld (dmcCombStatusPosition c)) ≤ s.now)

/-- The vote of voter `v` for domain `n`: 0 none, 1 IDLE, 2 RUN (Table 16.2). -/
def State.vote (s : State) (n v : Nat) : Nat :=
  if (n = 14 ∨ n = 15) ∧ s.isS then 0
  else if v < 16 then
    let p := s.port v
    let mine := n < 14 || (16 ≤ n && n < 32 && p.quads.contains (n - 16))
    if !p.active ∨ !mine then 0 else if linkBusy p.link then 2 else if p.link = .l1 then 1 else 0
  else if v < 18 then (if n = v - 16 then 1 else 0)
  else if v < 20 then
    let l := v - 18
    let st := s.fld (twStatusState l)
    if s.isS ∨ !s.flag (twCfgEnable l) then 0
    else if n = 14 + l then 2
    else if 2 ≤ st ∧ st ≤ 5 ∧ n < 14 ∧ domainHalf n = halfOf l then 2 else 0
  else if v = 20 then
    (if n < 32 then bitsOf (s.eff pwrFmVote0Votes) (2 * n) 2 else s.eff pwrFmVote1Vote32) % 3
  else if v < 23 then (if n = v - 21 ∧ s.offloadBusy (halfOf (v - 21)) then 2 else 0)
  else if v = 23 then
    (if 2 ≤ n ∧ n < 14 ∧ (s.comberDue (2 * (n - 2)) ∨ s.comberDue (2 * (n - 2) + 1)) then 2 else 0)
  else if v < 26 then
    (if n < 14 ∧ domainHalf n = halfOf (v - 24) ∧ s.moverDue (halfOf (v - 24)) then 2 else 0)
  else 0

/-- The level that the votes for a domain call for: 0 RUN, 1 IDLE, 2 SLEEP (R354). -/
def State.voted (s : State) (n : Nat) : Nat := 2 - ((List.range 26).map (s.vote n)).foldl max 0

/-! ### Power domains -/

/-- After its last vote is withdrawn and the delay has passed, a domain starts its drop to the level that its votes call
for (R354, Table 16.4). -/
def State.domainDrop (s : State) (n : Nat) : State :=
  let d := nth {} s.power.doms n
  if s.domainDown n ∨ n = 32 ∨ d.changing.isSome ∨ s.voted n ≤ s.level n then s
  else { s with power := { s.power with doms := s.power.doms.set n { changing := some (s.voted n) } } }

/-- A level change completes: a drop reaches its level; otherwise the domain rises to the level its votes call for
(R356). -/
def State.levelDone (s : State) (n : Nat) : State :=
  let d := nth {} s.power.doms n
  if s.domainDown n ∨ n = 32 then s
  else
    let l := d.changing.getD (min (s.voted n) (s.level n))
    let s := s.setFld (pwrDomState n) l
    { s with power := { s.power with doms := s.power.doms.set n {} } }

def execDomainDropTimeout (n : Fin 33) (s : State) : Result := .next (s.domainDrop n)
def execDomainLevelChangeDone (n : Fin 33) (s : State) : Result := .next (s.levelDone n)

end Sys2Proof.Machine
end

