-- ==== Sys2Proof/Machine/View.lean ====
section
/-! DEFINITION. What a read of a register returns: the stored fields, and those that follow other state
(19_register_map R407 to R413, Tables 19.4, 19.5). -/

namespace Sys2Proof.Machine

/-- The value of a word with a field replaced. -/
def put (f : Fld) (v w : Nat) : Nat := withBits w f.lsb f.width v

/-! ### Fields that follow other state -/

/-- SYNC_ACK_BOUND_10PS of a half: A of R307 in 10 ps while its conditions hold as far as the device can see them, else
0xFFFF (13_pairing R307; log 89). -/
def State.syncAckBound (s : State) (h : Half) : Nat :=
  let i := h.idx
  let k := s.strait.get h
  let openAll := (s.ttActive (24 + i)).all fun e => bitAt e.2 0
  if s.isS || !s.straitUp i || s.fld (twStatusTxWidth i) != 3 || s.fld (twStatusRxWidth i) != 3 || !k.resend.isEmpty
      || s.fld (curDvfs h) != 0 || !openAll then 0xFFFF
  else
    let doms := (List.range 1024).filter fun d =>
      s.domOn d && s.home d == h && s.eff (domPolicyTclass d) == 0 && s.mMode d == 1 && s.mirroring d
    let cbs := max 1 ((doms.map fun d => s.eff (qosPolACbs d)).foldl (· + ·) 0)
    min 0xFFFF (20932 + 200 * s.fld mirCfgFlightNs + 128 * ceilDiv (cbs - 1) 3)

/-- TOP_LOCK_STATUS.LOCKED: a lock of many copies counts when the one of every enabled port, or of every channel, is set. -/
def State.lockBits (s : State) : Nat :=
  let hp := (List.range 16).filter fun p => s.portOn p
  let bits := [s.flag bootLockLock, !hp.isEmpty && hp.all (fun p => s.flag (hpLockLock p)), s.flag mapLockLock,
    (List.range 24).all (fun c => s.flag (dmcLockLock c)), s.flag shgLockLock, s.flag protLockLock, s.flag oflLockLock,
    s.flag pwrLockLock]
  (bits.zipIdx.map fun x => b2n x.1 * 2 ^ x.2).foldl (· + ·) 0

/-- The voters that vote a level for a power domain, one bit each (PWR_DOM). -/
def State.voters (s : State) (n lvl : Nat) : Nat :=
  ((List.range 26).map fun v => b2n (s.vote n v == lvl) * 2 ^ v).foldl (· + ·) 0

/-- A word of the device's public key, in the byte order of EPH_PUB (PROT_DEV_PUB). -/
def State.devPub (s : State) (w : Nat) : Nat :=
  match p384Scale s.fuses.devKey (some p384G) with
  | none => 0
  | some (x, y) => leNat (((beBytes 48 x ++ beBytes 48 y).drop (8 * w)).take 8)

/-- A word of the fault ring: the record in slot SEQ mod 4,096 (15_faults R336). -/
def State.ringWord (s : State) (i : Nat) : Nat :=
  match s.records.find? (fun (r : FaultRec) => r.seq % 4096 == i / 8) with
  | some r => nth 0 (r.words false) (i % 8)
  | none => 0

/-- The domain is P2 and some of its counter blocks do not fit the budget (08_protection R214). -/
def State.pinPartial (s : State) (d : Nat) : Bool :=
  let h := s.home d
  let mine := s.media.filter fun (b : MediaBlk) => match b.owner with | .p2 d' _ => d' == d && b.half == h | _ => false
  s.domOn d && s.effFlag (domPolicyPinCounters d)
    && decide (((s.pinnedCtrs h).filter (fun q => q.1 == d)).length < mine.length)

/-- The LD's user page reads: USER_PMU is in its effective set, and its bit in PMU_USER_EN is 1 (18_pmu R400). -/
def State.userPage (s : State) (fn : Nat) : Bool :=
  s.feature fn 4 && bitAt (s.fld (pmuUserEnLdMask (fn / 17 / 4))) (fn / 17 % 4 * 16 + fn % 17)

/-- R405 lets the stream of an LD run: some half names the LD, its feature and ENABLE are set, Bus Master Enable is 1. -/
def State.streamOn (s : State) (fn : Nat) : Bool :=
  s.feature fn 5 && s.flag (uvSmpCfgEnable fn) && (s.func fn).bme
    && decide (6 ≤ s.fld (uvSmpCfgSizeLog2 fn) ∧ s.fld (uvSmpCfgSizeLog2 fn) ≤ 16)
    && [0, 1].any fun i => s.flag (pmuStreamLdEn i) && s.fld (pmuStreamLdPort i) == fn / 17 && s.fld (pmuStreamLdLd i) == fn % 17

/-- The domains that an LD's telemetry page lists (09_qos R247). -/
def State.telemDoms (s : State) (fn : Nat) : List Nat :=
  ((List.range 1024).filter fun d => s.domOn d && s.ownerLd d (fn / 17) (fn % 17)).take 63

/-- A word of an LD's telemetry page (09_qos Table 9.5). -/
def State.telemWord (s : State) (fn off : Nat) : Nat :=
  if !s.feature fn 6 then 0
  else
    let ds := s.telemDoms fn
    if off = 0x8000 then s.fld qosTelemCfgInterval + ds.length * 2 ^ 16
    else if off < 0x8100 then 0
    else
      let e := (off - 0x8100) / 256
      let o := (off - 0x8100) % 256
      match ds[e]? with
      | none => 0
      | some d =>
        let (depth, delay) := cellGet (0, 0) s.telemLast d
        if o = 0 then d
        else if o = 8 then depth + delay * 2 ^ 16
        else if 0x10 ≤ o ∧ o < 0x90 then
          let w := (o - 0x10) / 8
          s.fld (qosHistDomBinLo d w) + s.fld (qosHistDomBinHi d w) * 2 ^ 32
        else 0

/-- Seconds in HOLDOVER (TB_STATUS). -/
def State.holdoverS (s : State) : Nat :=
  if s.fld tbStatusState = 3 then min 1023 ((s.now - s.tide.holdAt) / 10 ^ 9) else 0

/-! ### A register of the privileged view -/

/-- The half that holds a register, for R411. -/
def heldIn (r : RegName) (i : Nat) : Option Half :=
  match r with
  | .hpPortCfg | .hpPortStatus | .hpReplayCnt | .hpEvent | .hpErrCnt | .hpLock | .hpLdCfg | .hpReqCap | .hpReqOcc => some (portHalf i)
  | .dmcCfg | .dmcStatus | .dmcLock | .dmcEccCnt | .dmcEccLast | .dmcInjMask | .dmcInjFilter | .dmcInjFilterMask
  | .dmcInjCtrl | .dmcInjStatus | .dmcRefStatus | .dmcCombCfg | .dmcCombStatus | .dmcCombLap | .dmcRepairCfg
  | .dmcRepairStatus => some (chanHalf i)
  | .twCfg | .twVcBuf | .twVcMap | .twCtrl | .twStatus | .twSeq | .twCntReplay | .twCntErr | .twCntFec | .twEvt
  | .twVcStatus => some (halfOf i)
  | .shgStatus | .tierStatus | .protStatus | .mirStatus => some (halfOf i)
  | .pmuCtl | .pmuCnt | .pmuFix | .pmuSnap | .pmuSnapFix | .pmuSnapTime | .pmuSnapSeq | .pmuOvfGen | .pmuOvfFix
  | .pmuSmpCfg | .pmuSmpFilter | .pmuSmpStatus | .pmuSmpCons | .pmuStreamLd | .pmuSmpRing => some (halfOf i)
  | _ => none

/-- Registers of the TW and MIR blocks, and of the Strait schedulers 24 and 25, that a KF-9624-S reads as zero (00_scope R4;
09_qos R245). -/
def pairReg (off : Nat) : Bool :=
  (decide (0xE00000 ≤ off ∧ off < 0xF00000) && off != mirCommitResult) || decide (0x898000 ≤ off ∧ off < 0x89A000)

/-- Registers of the TW blocks that read their reset values while the blocks are held in reset (17_boot R391). -/
def twHeld (off : Nat) : Bool :=
  decide (0xE00000 ≤ off ∧ off < 0xE20000) && !(off % 0x10000 == 0 || off % 0x10000 == 8 || off % 0x10000 == 0x10)

/-- The word of a register with its fields that follow other state; `i` is its outer index. -/
def State.follow (s : State) (r : RegName) (i w : Nat) : Nat :=
  match r with
  | .topLockStatus => put topLockStatusLocked s.lockBits w
  | .bootArb => put bootArbRevoked s.fuses.revoked w
  | .pwrDom =>
    put (pwrDomState 0) (s.level i) (put (pwrDomVoteIdle 0) (s.voters i 1) (put (pwrDomVoteRun 0) (s.voters i 2) w))
  | .domAdmit => put (domAdmitChargedShadow 0) (s.charged false (halfOf i)) w
  | .protStatus => put (protStatusCtrPinnedKib 0) (32 * (s.pinnedCtrs (halfOf i)).length) w
  | .protDom =>
    put (protDomPinPartial 0) (b2n (s.pinPartial i)) (put (protDomTopLevel 0) (if s.domOn i then s.top i else 0) w)
  | .protDevPub => s.devPub i
  | .protKeyState => put (protKeyStateInUse 0) (b2n (s.slotInUse i)) w
  | .mirStatus => put (mirStatusSyncAckBound10ps 0) (s.syncAckBound (halfOf i)) w
  | .mirDomStateW0 =>
    if (s.mirDom i).soloFrom.isSome then put (mirDomStateW0SoloS 0) (min (2 ^ 29 - 1) (s.soloMs i / 1000)) w else w
  | .tbStatus => put tbStatusHoldoverS s.holdoverS w
  | .fltRing => s.ringWord i
  | _ => w

/-- The index of a register's outer copies, and its row, at an offset of the privileged view. -/
def privRow (off : Nat) : Option (RegRow × Nat) :=
  match regRow off with
  | some r => if r.bar0 then none else (r.index off).map fun q => (r, if r.n1 = 1 then q.2 else q.1)
  | none => none

/-- A read of the privileged view, without its effects: 0 where no register lies (R411). -/
def State.viewPriv (s : State) (off : Nat) : Nat :=
  let active := decide (0x640000 ≤ off ∧ off < 0x680000)
  let off := if active then off - 0x40000 else off
  match privRow off with
  | none => 0
  | some (r, i) =>
    let w := (s.reg off).toNat
    if s.heldAway (heldIn r.name i) then 0
    else if s.isS && pairReg off then 0
    else if !s.boot.strait && twHeld off then (regReset off).toNat
    else if active ∧ groupOf off ≠ none then (s.reg (off + effBase)).toNat
    else if r.fields.all (fun (f : RegField) => f.acc == .wo) then 0
    else s.follow r.name i w

/-! ### A register of BAR0 -/

/-- UV_LD_INFO of a function. -/
def State.ldInfo (s : State) (fn : Nat) : Nat :=
  let p := fn / 17
  let n := fn % 17
  put (uvLdInfoPort 0) p (put (uvLdInfoLdId 0) (if n = 16 then 0 else n)
    (put (uvLdInfoPrivOwnerActive 0) (b2n (n == 16 || (s.func fn).bar2)) (put (uvLdInfoMemActive 0) (b2n s.boot.memActive)
      (put (uvLdInfoRate128 0) (b2n (s.flag (hpPortStatusLinkUp p) && s.fld (hpPortStatusCurRate p) == 6))
        (put (uvLdInfoFmLd 0) (b2n (n == 16)) 0)))))

/-- Offsets of BAR0 that the FM-owned LD and the G-FAM function have (02_host_ports R54, R55). -/
def fmBar0 (off : Nat) : Bool := decide (off < 0x1000) || (decide (0xC000 ≤ off ∧ off < 0xC400)) || off == 0xD000

/-- A read of a function's BAR0, without its effects. -/
def State.viewBar0 (s : State) (fn off : Nat) : Nat :=
  if fn % 17 = 16 ∧ !fmBar0 off then 0
  else if 0x8000 ≤ off ∧ off < 0xC000 then s.telemWord fn off
  else if 0x4000 ≤ off ∧ off < 0x6000 ∧ !s.userPage fn then 0
  else
    let k := bar0Base * (1 + fn) + off
    match regRow k with
    | none => 0
    | some r =>
      let w := (s.reg k).toNat
      if r.fields.all (fun (f : RegField) => f.acc == .wo) then 0
      else match r.name with
        | .uvId => put (uvIdOrderCode 0) s.fuses.orderCode w
        | .uvLdInfo => s.ldInfo fn
        | .featureOffered => if off = 0x20 then s.offered fn else 0
        | .uvSmpStatus => put (uvSmpStatusActive 0) (b2n (s.streamOn fn)) w
        | _ => w

end Sys2Proof.Machine
end

