-- ==== Sys2Proof/Machine/Image.lean ====
section
/-! DEFINITION. The configuration image: its layout in the flash and the checks of a slot (17_boot R381 to R383, Tables 17.3 to
17.7). -/

namespace Sys2Proof.Machine

/-! ### Flash (17_boot R381) -/

/-- 64-bit words of a slot, and of a 4 KiB block. -/
def slotWords : Nat := 0x400000
def blockWords : Nat := 512

/-- An erased word. -/
def erased : Word := BitVec.allOnes 64

/-- A word of a slot. -/
def State.flashWord (s : State) (slotB : Bool) (w : Nat) : Word := cellGet erased s.boot.flash (b2n slotB * slotWords + w)

/-- Bytes `a .. a + n - 1` of a slot. -/
def State.slotBytes (s : State) (slotB : Bool) (a n : Nat) : List Byte :=
  let first := a / 8
  let words := (List.range ((a + n + 7) / 8 - first)).flatMap fun i => leBytes 8 (s.flashWord slotB (first + i)).toNat
  (words.drop (a % 8)).take n

/-- A little-endian field of a slot: `n` bytes at `a`. -/
def State.slotNum (s : State) (slotB : Bool) (a n : Nat) : Nat := leNat (s.slotBytes slotB a n)

/-! ### Sections (Tables 17.4, 17.5) -/

/-- A section table entry: TYPE, OFFSET, LENGTH. -/
def State.sectionEntry (s : State) (slotB : Bool) (i : Nat) : Nat × Nat × Nat :=
  (s.slotNum slotB (256 + 16 * i) 2, s.slotNum slotB (260 + 16 * i) 4, s.slotNum slotB (264 + 16 * i) 4)

/-- Entry size of a section type; 0 where the type is reserved. -/
def entrySize (typ : Nat) : Nat :=
  match typ with
  | 1 => 16
  | 2 => 16
  | 3 => 160
  | 4 => 256
  | 5 => 16
  | _ => 0

/-- The sections of an image. -/
def State.imgSections (s : State) (slotB : Bool) : List ImgSection :=
  (List.range (s.slotNum slotB 16 2)).map fun i =>
    let e := s.sectionEntry slotB i
    { typ := e.1, bytes := s.slotBytes slotB e.2.1 e.2.2 }

/-- A little-endian field of some bytes. -/
def numAt (b : List Byte) (a n : Nat) : Nat := leNat ((b.drop a).take n)

/-- Entries of `n` bytes. -/
def entriesOf (n : Nat) (b : List Byte) : List (List Byte) := chunksOf n (b.length / n + 1) b

/-- The register records of a section: offset and value (Table 17.5). -/
def recordsOf (b : List Byte) : List (Nat × Nat) := (entriesOf 16 b).map fun e => (numAt e 0 4, numAt e 8 8)

/-- The bytes of the sections of a type. -/
def ofType (typ : Nat) (ss : List ImgSection) : List Byte := (ss.filter (fun (x : ImgSection) => x.typ == typ)).flatMap fun x => x.bytes

/-! ### Registers that a section may name (Table 17.7) -/

/-- EARLY_REGS. -/
def earlyReg : RegName → Bool
  | .bootIdCfg | .hpPortCfg | .hpReqCap | .hpLdCfg | .mapCfg | .rqCfg | .rqDevloadCfg | .dmcCfg | .dmcRepairCfg | .dmcCombCfg
  | .dmcSramScrubCfg | .shgCfg | .protCfg | .oflCfg | .pwrCfg | .pwrSupplyCfg | .pwrDvfsCfg | .pwrThermCfg | .pwrTelemCfg
  | .hswRampCfg | .hswFeedCfg | .hswSlotCfg | .hswSlotEn | .tbCfg | .tbPtpCfg | .tbPpsCfg | .tbStraitAsym | .twCfg | .twVcBuf
  | .twVcMap | .mirCfg | .fltCfg | .qosTelemCfg | .tierCfg | .tierCapCfg => true
  | _ => false

/-- CONFIG_REGS. -/
def configReg : RegName → Bool
  | .domCtrl | .domWindow | .domSizes | .domPolicy | .domMirror | .domOwner | .domOwnerLd | .mapLdrW0 | .mapLdrW1
  | .mapSpidGroup | .qosDrr | .qosSrcColour | .qosPolA | .qosPolB | .qosShp | .ttPend | .ttPendLen | .mirKeyset | .mirDomW0
  | .mirDomW1 | .tierDom | .pwrTarget | .pwrFmVote0 | .pwrFmVote1 => true
  | _ => false

/-- A record may stand in its section: PWR_TARGET only with DEVICE = 0. -/
def recordOk (early : Bool) (r : Nat × Nat) : Bool :=
  match privRow r.1 with
  | some (q, _) =>
    if early then earlyReg q.name
    else configReg q.name && (q.name != .pwrTarget || bitsOf r.2 pwrTargetDevice.lsb pwrTargetDevice.width == 0)
  | none => false

/-! ### The checks of a slot (Table 17.6) -/

/-- ROM_PATCH obeys its format (Table 17.5, R386). -/
def patchOk (b : List Byte) : Bool :=
  let n := numAt b 4 4
  decide (1 ≤ n ∧ n ≤ 64) && numAt b 8 8 == 0 && b.length == 16 * (n + 1)
    && (entriesOf 16 (b.drop 16)).all fun e =>
      let addr := numAt e 0 4
      let halves := numAt e 4 1
      addr % 8 == 0 && decide (addr < 0x80000) && decide (1 ≤ halves ∧ halves ≤ 3) && numAt e 5 3 == 0

/-- STATIC_SETS obeys its format, and names no set twice. -/
def setsOk (b : List Byte) : Bool :=
  let es := entriesOf 160 b
  let sets := es.map fun e => numAt e 0 1
  es.all (fun e => decide (1 ≤ numAt e 0 1 ∧ numAt e 0 1 ≤ 7) && numAt e 1 6 == 0) && sets.eraseDups.length == sets.length

/-- A section obeys the rules of its type. -/
def sectionOk (x : ImgSection) : Bool :=
  match x.typ with
  | 1 => patchOk x.bytes
  | 2 => (recordsOf x.bytes).all (recordOk true)
  | 3 => setsOk x.bytes
  | 5 => (recordsOf x.bytes).all (recordOk false)
  | _ => true

/-- The structure check of step 9 (R382). -/
def State.structureOk (s : State) (slotB : Bool) : Bool :=
  let n := s.slotNum slotB 16 2
  let len := s.slotNum slotB 12 4
  let es := (List.range n).map (s.sectionEntry slotB)
  let zero := fun (a k : Nat) => s.slotNum slotB a k == 0
  decide (1 ≤ n ∧ n ≤ 32) && zero 18 2 && zero 28 4 && zero 128 128 && zero 768 256
    && zero (256 + 16 * n) (16 * (32 - n))
    && (List.range n).all (fun i => zero (258 + 16 * i) 2 && zero (268 + 16 * i) 4)
    && (es.map fun e => e.1).eraseDups.length == n
    && es.all (fun e => entrySize e.1 != 0 && e.2.1 % 16 == 0 && decide (1024 ≤ e.2.1) && e.2.2 != 0
        && e.2.2 % entrySize e.1 == 0 && decide (e.2.1 + e.2.2 ≤ len - 96))
    && (List.range n).all (fun i => (List.range i).all fun j =>
        let a := nth (0, 0, 0) es i
        let b := nth (0, 0, 0) es j
        !overlaps a.2.1 a.2.2 b.2.1 b.2.2)
    && (s.imgSections slotB).all sectionOk

/-- The signature verifies (R381). -/
def State.signatureOk (s : State) (slotB : Bool) : Bool :=
  let len := s.slotNum slotB 12 4
  let be := fun (a : Nat) => beNat (s.slotBytes slotB a 48)
  ecdsaVerify (sha384 (s.slotBytes slotB 0 (len - 96))) (be 32) (be 80) (be (len - 96)) (be (len - 48))

/-- The first failure of a slot, 0 for none (Table 17.6); `readFail` says that the flash does not answer. -/
def State.slotCheck (s : State) (slotB readFail : Bool) : Nat :=
  let num := s.slotNum slotB
  let key := num 6 1
  let len := num 12 4
  if readFail then 1
  else if s.slotBytes slotB 0 4 ≠ [0x4B, 0x46, 0x43, 0x49] then 2
  else if num 4 2 ≠ 1 ∨ key > 3 ∨ num 7 1 > 3 then 3
  else if len < 4096 ∨ len > 8388608 ∨ len % 256 ≠ 0 then 4
  else if bitAt s.fuses.revoked key then 5
  else if nth none s.fuses.rootHash key ≠ some (beNat (sha384 (s.slotBytes slotB 32 96))) then 6
  else if !s.signatureOk slotB then 7
  else if num 8 4 < s.fld bootArbCounter then 8
  else if !s.structureOk slotB then 9
  else 0

end Sys2Proof.Machine
end

