-- ==== Sys2Proof/Machine/Flash.lean ====
section
/-! DEFINITION. The BOOT_FLASH commands (17_boot R395). -/

namespace Sys2Proof.Machine

/-- A flash command ends with a result (BOOT_FLASH_STATUS). -/
def State.flashEnd (s : State) (result reason : Nat) : State :=
  let s : State := { s with boot := { s.boot with flashCmd := none } }
  (((s.setFld bootFlashStatusResult result).setFld bootFlashStatusVerifyReason reason).setFlag bootFlashStatusDone true).setFlag
    bootFlashStatusBusy false

/-- A flash command: 1 ERASE_SLOT, 2 PROGRAM, 3 VERIFY. It is ignored while one runs, and ends NOT_ALLOWED outside ACTIVE, DONE
and RECOVERY (log 92). -/
def State.flashStart (s : State) (op slot block : Nat) : State :=
  if !s.regReach false || s.flag bootFlashStatusBusy then s
  else if !s.takesWrite .flash false none then s.flashEnd 2 0
  else { s.setFlag bootFlashStatusBusy true with boot := { s.boot with flashCmd := some (op, slot, block) } }

def execEraseSlot (slotB : Bool) (s : State) : Result := .next (s.flashStart 1 (b2n slotB) 0)
def execProgram (slotB : Bool) (block : Fin 8192) (s : State) : Result := .next (s.flashStart 2 (b2n slotB) block)
def execVerify (slotB : Bool) (s : State) : Result := .next (s.flashStart 3 (b2n slotB) 0)

/-- A word of the flash set. -/
def State.putFlash (s : State) (k : Nat) (v : Word) : State :=
  { s with boot := { s.boot with flash := cellPut erased s.boot.flash k v } }

/-- A word of the flash becomes a free value (log 91). -/
def State.freeFlash (s : State) (k : Nat) : State :=
  let (n, s) := s.freeNat
  s.putFlash k (BitVec.ofNat 64 n)

/-- The listed words of a slot. -/
def State.slotKeys (s : State) (slot : Nat) : List Nat := (s.boot.flash.map (·.1)).filter fun k => k / slotWords == slot

/-- FLASH_OP_DONE: what a flash error leaves of the block or slot is open (log 91). -/
def State.flashDone (s : State) (err : Bool) : State :=
  match s.boot.flashCmd with
  | none => s
  | some (op, slot, block) =>
    let first := slot * slotWords + block * blockWords
    if err then
      let s := match op with
        | 1 => s.each (s.slotKeys slot) State.freeFlash
        | 2 => s.each (List.range blockWords) fun s i => s.freeFlash (first + i)
        | _ => s
      (s.say cBootFlashErr clsCe uDevice).flashEnd 1 (if op = 3 then 1 else 0)
    else match op with
      | 1 => ({ s with boot := { s.boot with flash := cellDrop (fun k => k / slotWords == slot) s.boot.flash } } : State).flashEnd 0 0
      | 2 => (s.each (List.range blockWords) fun s i => s.putFlash (first + i) (s.reg (bootFlashBuf i))).flashEnd 0 0
      | _ =>
        let reason := s.slotCheck (slot == 1) false
        s.flashEnd (if reason = 0 then 0 else 3) reason

def execFlashOpDone (err : Bool) (s : State) : Result := .next (s.flashDone err)

end Sys2Proof.Machine
end

