-- ==== Sys2Proof/Machine/Pmu.lean ====
section
/-! DEFINITION. The performance counter unit: the cycles of the clocks, value events, and the commands of its registers
(18_pmu R396 to R406). -/

namespace Sys2Proof.Machine

/-! ### Value events (Table 18.1) -/

/-- Requests of a half that meet a condition. -/
def State.reqCount (s : State) (ok : Req → Bool) : Nat := (s.reqs.filter ok).length

/-- The value that a value event of a block's instance presents in a half; 0 for the others. A chunk decode is one
command (log 90). -/
def State.valueOf (s : State) (h : Half) (block inst ev : Nat) : Nat :=
  let i := h.idx
  let c := 12 * i + inst
  match block, ev with
  | 0, 2 => ((s.port (8 * i + inst)).withheld).foldl (· + ·) 0
  | 1, 0 => s.fld (rqStatusTableInuse i)
  | 1, 1 => s.reqCount fun r => r.ingress == h && r.stage == .waitEntry
  | 2, 4 => s.reqCount fun r => r.home == h && r.stage == .lockWait
  | 3, 3 =>
    s.reqCount fun r => r.home == h && r.hasDom && r.stage == .queued && s.eff (domPolicyTclass r.dom) == inst
      && !s.unshaped r.dom && (s.shape r.dom).isNone
  | 3, 4 => s.reqCount fun r => r.home == h && r.hasDom && r.stage == .parked && s.eff (domPolicyTclass r.dom) == inst
  | 4, 5 => (s.readQueue c).length
  | 4, 6 => (s.chan c).wb.length
  | 4, 7 =>
    ((List.range 8).map fun k =>
      ((s.classOps c k).filter fun o => !s.gateOpen c k || !s.fits c k (o.occ (s.chanRate c))).length).foldl (· + ·) 0
  | 8, 3 =>
    let k := s.strait.get h
    ((List.range k.vcCount).filter fun v => (k.head v).isSome && k.credits v == 0).length
  | 9, 4 => s.reqCount fun r => r.home == h && r.stage == .mirrorWait
  | _, _ => 0

/-- Instances of a block in a half. -/
def blockInstances (block : Nat) : Nat :=
  match block with
  | 0 => 8
  | 3 => 8
  | 4 => 12
  | 5 => 8
  | 6 => 6
  | _ => 1

/-! ### Clocks (01_architecture Table 1.6; 16_power Tables 16.3, 16.10) -/

/-- kHz of a clock of a half: 0 CCLK, 1 SCLK, 2 + k DCLK of its channel k, 14 PCLK; a clock whose power domain is not RUN stands. -/
def State.clockKhz (s : State) (h : Half) (clk : Nat) : Nat :=
  let i := h.idx
  match clk with
  | 0 => if s.level i = 0 ∧ s.boot.running then nth 0 [2000000, 1600000, 1200000, 800000] (s.fld (curDvfs h)) else 0
  | 1 => if s.level (14 + i) = 0 ∧ !s.isS then 1328125 else 0
  | 14 => if s.boot.running then 1000000 else 0
  | k + 2 => if s.level (2 + (12 * i + k) / 2) = 0 ∧ s.chanUp (12 * i + k) then 125 * rateOf (s.chanRate (12 * i + k)) else 0

/-- Cycles of a clock in one TCLK cycle: the fraction left over is kept. -/
def State.clockTick (s : State) (h : Half) (clk : Nat) : State × Nat :=
  let f := cellGet 0 (s.pmu.get h).frac clk + s.clockKhz h clk
  ({ s with pmu := s.pmu.upd h (fun u => { u with frac := cellPut 0 u.frac clk (f % 1000000) }) }, f / 1000000)

/-- The clock of a value event of an instance, and whether the event is one. -/
def valueClock (block inst : Nat) : Nat :=
  match block with
  | 0 => 14
  | 4 => 2 + inst
  | 8 => 1
  | _ => 0

/-- A general counter takes the cycles of one TCLK cycle (R397): in LEVEL mode the value of each, in EDGE mode one where the
value was zero in the cycle before. -/
def State.valueTick (s : State) (h : Half) (cycles : List Nat) (n : Nat) : State :=
  let i := h.idx
  if !s.flag (pmuCtlEnable i n) then s
  else
    let block := s.fld (pmuCtlBlock i n)
    let insts := (List.range (blockInstances block)).filter fun x =>
      s.fld (pmuCtlInstance i n) == x || s.fld (pmuCtlInstance i n) == 31
    let vals := insts.map fun x => (s.valueOf h block x (s.fld (pmuCtlEvent i n)), nth 0 cycles (valueClock block x))
    let now := (vals.map fun q => q.1).foldl (· + ·) 0
    if !vals.any (fun q => decide (q.2 > 0)) then s
    else
      let was := cellGet 0 (s.pmu.get h).last n
      let add : Nat := if s.flag (pmuCtlMode i n) then b2n (was == 0 && now != 0) else (vals.map fun q => q.1 * q.2).foldl (· + ·) 0
      let s : State := { s with pmu := s.pmu.upd h (fun u => { u with last := cellPut 0 u.last n now }) }
      if add = 0 ∨ s.flag pmuGlobalFreeze then s else s.addCounter (pmuCntCount i n) (pmuOvfGenOvf i) n add

/-- One TCLK cycle passes in a half's unit. -/
def State.pmuTick (s : State) (h : Half) : State :=
  let (s, cs) := (List.range 15).foldl (fun (q : State × List Nat) clk =>
    let (s, c) := q.1.clockTick h clk
    (s, q.2 ++ [c])) (s, [])
  let s := if nth 0 cs 0 = 0 then s else s.fixed h 0 (nth 0 cs 0)
  let s := if s.regsShut then s else s.fixed h 1 1
  s.each (List.range 64) fun s n => s.valueTick h cs n

/-! ### Writes of its registers (R399, R401) -/

/-- PMU_GLOBAL. -/
def State.freezeWrite (s : State) (v : Nat) : State := s.setFlag pmuGlobalFreeze (bitAt v 0)

def execPmuFreezeWrite (value : Word) (s : State) : Result := .next (s.write .plain false none fun s => s.freezeWrite value.toNat)

/-- PMU_CTL_n: the count stays; a reserved value counts nothing. -/
def State.ctlWrite (s : State) (h : Half) (n v : Nat) : State := s.setReg (pmuCtl h.idx n) (BitVec.ofNat 64 (v % 2 ^ 29))

def execPmuCtlWrite (h : Half) (n : Fin 64) (value : Word) (s : State) : Result :=
  .next (s.write .plain false (some h) fun s => s.ctlWrite h n value.toNat)

/-- A general or a fixed counter is set. -/
def State.counterWrite (s : State) (h : Half) (fixed : Bool) (n v : Nat) : State :=
  if fixed then (if n < 8 then s.setFld (pmuFixCount h.idx n) v else s) else s.setFld (pmuCntCount h.idx n) v

def execPmuCounterWrite (h : Half) (fixed : Bool) (n : Fin 64) (value : Word) (s : State) : Result :=
  .next (s.write .plain false (some h) fun s => s.counterWrite h fixed n value.toNat)

/-- PMU_SMP_CFG: a reserved PERIOD keeps the field's value; ENABLE from 0 to 1 draws the count. -/
def State.samplingWrite (s : State) (h : Half) (v : Nat) : State :=
  let i := h.idx
  let was := s.flag (pmuSmpCfgEnable i)
  let period := if bitsOf v 2 24 = 0 then s.fld (pmuSmpCfgPeriod i) else bitsOf v 2 24
  let s := s.setReg (pmuSmpCfg i) (BitVec.ofNat 64 (withBits (v % 2 ^ 42) 2 24 period))
  if !was ∧ s.flag (pmuSmpCfgEnable i) then s.drawCount h else s

def execSamplingEnable (h : Half) (value : Word) (s : State) : Result :=
  .next (s.write .plain false (some h) fun s => s.samplingWrite h value.toNat)

end Sys2Proof.Machine
end

