-- ==== Sys2Proof/Machine/RegAccess.lean ====
section
/-! DEFINITION. Reads and writes of registers by their fields' access codes, with what each register's own rules add
(00_scope R14 to R17; 19_register_map R407 to R416). -/

namespace Sys2Proof.Machine

/-! ### Fields (00_scope R14, R16, R17) -/

/-- Bits that an access covers (R409). -/
def laneMask : Lanes → Nat
  | .qword => 2 ^ 64 - 1
  | .low => 2 ^ 32 - 1
  | .high => 2 ^ 64 - 2 ^ 32

/-- A field keeps its value: what is written to it is a reserved encoding to which its register states no other answer (R17).
Registers whose chapter ignores a bad write as a whole are checked in `State.plainSet`. -/
def keeps (r : RegName) (lsb v : Nat) : Bool :=
  match r, lsb with
  | .hpReqCap, 0 => !within 1 32768 v
  | .rqCfg, 0 => v > 8192
  | .rqCfg, 24 => v ≥ 4
  | .rqDevloadCfg, 0 => v > 100
  | .rqDevloadCfg, 8 => v > 100
  | .rqDevloadCfg, 16 => v > 100
  | .mapCfg, 0 => v > 16
  | .dmcCombCfg, 1 => !within 3600 2592000 v
  | .dmcRepairCfg, 0 => v == 0
  | .protCfg, 2 => v > 16
  | .tbPpsCfg, 2 => !within 1 999999 v
  | .pwrDvfsCfg, 0 => v < 10
  | .pwrThermCfg, 0 => !within 85 115 v
  | .pwrTelemCfg, 0 => v == 0
  | .hswRampCfg, 0 => !within 1 40 v
  | .hswRampCfg, 6 => !within 1 100 v
  | .hswRampCfg, 13 => !within 1 100 v
  | .hswFeedCfg, 29 => !within 10 150 v
  | .hswSlotCfg, 0 => !within 10 80 v
  | .hswSlotCfg, 7 => !within 1 15 v
  | _, _ => false

/-- The word of a register after a write of `v` under `mask`: each field by its access code (Table 0.6). -/
def wordAfter (r : RegRow) (locked : Bool) (old v mask : Nat) : Nat :=
  r.fields.foldl (fun w (f : RegField) =>
    let o := bitsOf old f.lsb f.width
    let x := bitsOf (v &&& mask) f.lsb f.width
    let m := bitsOf mask f.lsb f.width
    let set := (o &&& (m ^^^ (2 ^ f.width - 1))) ||| x
    let keep := fun (n : Nat) => if keeps r.name f.lsb n then w else withBits w f.lsb f.width n
    match f.acc with
    | .rw | .rwt => keep set
    | .rwl => if locked then w else keep set
    | .rw1c => withBits w f.lsb f.width (o &&& (x ^^^ (2 ^ f.width - 1)))
    | .rw1s => withBits w f.lsb f.width (o ||| x)
    | .ro | .wo | .rc => w) old

/-! ### Features of the fabric manager (R407, R416) -/

/-- The path of an owner host, which is none of the fabric manager's (R407). -/
def ownerPath : RegPath → Bool
  | .bar2Owner _ _ => true
  | _ => false

/-- TOP_FM_FEATURE_CTRL.LOCK is written 1 over a path of the fabric manager (02_host_ports R72, R74). -/
def State.fmLock (s : State) (path : RegPath) : State :=
  if ownerPath path ∨ s.flag topFmFeatureCtrlLock then s
  else
    let a := s.fld (topFmFeatureAcceptedAccepted 0) &&& s.fld (topFmFeatureOfferedOffered 0)
    let a := if bitAt a 0 then a else withBits a 2 1 0
    let s := (s.setFlag topFmFeatureCtrlLock true).setFld (topFmFeatureAcceptedAccepted 0) a
    let s := s.each [1, 2, 3] fun s k => s.setFld (topFmFeatureAcceptedAccepted k) 0
    { s with fmPath := some path }

/-- The function of a path serves it: it is there, no FLR runs, an LD has its BAR2 (PRIV_OWNER in effect, 00_scope R9;
02_host_ports R60, R64), and a mailbox is that of an FM-owned LD. -/
def State.pathServed (s : State) (path : RegPath) : Bool :=
  match path with
  | .bar2Owner p n => s.present p n && !(s.func (fnOf p n)).flr && (s.func (fnOf p n)).bar2
  | .bar2Fm p => s.present p 16 && !(s.func (fnOf p 16)).flr
  | .mailbox p => s.present p 16 && !s.gfam p && !(s.func (fnOf p 16)).flr
  | _ => true

/-- A path reaches the privileged view: in DEEP_SLEEP, in OFF and before the cores are released, only SMBus or I3C does (R412). -/
def State.pathOpen (s : State) (path : RegPath) : Bool := (!s.regsShut || path == .mctpSmbus) && s.pathServed path

def execFmFeatureLock (path : RegPath) (s : State) : Result :=
  .next (if s.pathOpen path then s.write .plain false none fun s => s.fmLock path else s)

/-! ### Shadows (R415) -/

/-- One group is reverted, or its REVERT is ignored. -/
def State.revertGroup (s : State) (g : Nat) : State :=
  if g = 2 ∨ s.bit topCommitStatusSealed g then s.setFlag topShadowStatusRevertIgnored true
  else
    let s := (s.disown g).setBit topShadowStatusDirty g false
    match g with
    | 0 =>
      s.each ((s.maps.filter (fun q => q.2.staging.isSome || q.2.staged.isSome || q.2.noSpace)).map (·.1)) fun s d =>
        ((s.dropStaged d).setFlag (domStatusStageReady d) false).updMap d fun m => { m with staging := none, noSpace := false }
    | 1 => { s with shapers := cellMap {} (fun x => { x with marked := false }) s.shapers }
    | 4 => s.setFld pwrTargetDevice 0
    | _ => s

/-- TOP_SHADOW_CTRL.REVERT. -/
def State.revert (s : State) (v : Nat) : State :=
  s.each (List.range 5) fun s g => if bitAt v g then s.revertGroup g else s

def execShadowRevert (value : Word) (s : State) : Result := .next (s.write .plain false none fun s => s.revert value.toNat)

/-! ### Writes of the privileged view -/

/-- An RWT register takes its new shadow: DOM_CTRL and DOM_WINDOW stage tables, tide tables lose their check, a shaper is
marked (03_domains R100; 09_qos R234, R241). -/
def State.shadowSet (s : State) (r : RegName) (i off new : Nat) : State :=
  match r with
  | .domCtrl => s.shadowWrite i false new
  | .domWindow => s.shadowWrite i true new
  | .domPolicy => (s.setReg off (BitVec.ofNat 64 new)).wantTable i
  | .ttPend =>
    let e := (off - ttPend i 0) / 8
    if h : e < 64 then s.pendWrite i (some ⟨e, h⟩) (BitVec.ofNat 64 new) else s
  | .ttPendLen => s.pendWrite i none (BitVec.ofNat 64 new)
  | .qosShp =>
    let s := s.setReg off (BitVec.ofNat 64 new)
    { s with shapers := cellPut {} s.shapers i { cellGet ({} : Shaper) s.shapers i with marked := true } }
  | _ => s.setReg off (BitVec.ofNat 64 new)

/-- FLT_ERR_PIN_CTRL and FLT_ALARM_PIN_CTRL: SW_ASSERT as written, then RELEASE (15_faults R348, R349). -/
def State.pinCtrl (s : State) (alarm : Bool) (new act : Nat) : State :=
  if alarm then
    let s := (s.setFlag fltAlarmPinCtrlSwAssert (bitAt new fltAlarmPinCtrlSwAssert.lsb)).alarmPin
    if bitAt act fltAlarmPinCtrlRelease.lsb then s.alarmRelease else s
  else
    let s := (s.setFlag fltErrPinCtrlSwAssert (bitAt new fltErrPinCtrlSwAssert.lsb)).errPin
    if bitAt act fltErrPinCtrlRelease.lsb then s.errRelease else s

/-- MIR_CFG: out of range, the write is ignored as a whole (13_pairing MIR_CFG). -/
def mirCfgOk (v : Nat) : Bool :=
  within 1 65535 (bitsOf v 0 16) && within 1 255 (bitsOf v 16 8) && within 10 50000 (bitsOf v 24 16)
    && within 1 1024 (bitsOf v 40 11) && within 0 500 (bitsOf v 51 10)

/-- PWR_SUPPLY_CFG: a write outside the ranges is ignored as a whole (16_power PWR_SUPPLY_CFG). -/
def supplyCfgOk (v : Nat) : Bool :=
  let at_ := fun (f : Fld) => bitsOf v f.lsb f.width
  within 10000 11500 (at_ pwrSupplyCfgWarnMv) && within 9000 (at_ pwrSupplyCfgWarnMv - 500) (at_ pwrSupplyCfgResetMv)
    && within 50 1000 (at_ pwrSupplyCfgHystMv)

/-- HSW_FEED_CFG: a write that breaks the orders of the levels is ignored as a whole (16_power HSW_FEED_CFG). -/
def State.feedCfgOk (s : State) (v : Nat) : Bool :=
  let at_ := fun (f : Fld) => bitsOf v f.lsb f.width
  decide (s.fld pwrSupplyCfgWarnMv < at_ hswFeedCfgFailMv ∧ at_ hswFeedCfgFailMv < at_ hswFeedCfgGoodMv)

/-- A register outside the commit groups takes a write: `new` is its word by the access codes, `act` the bits written. -/
def State.plainSet (s : State) (path : RegPath) (r : RegName) (i j off new act : Nat) (whole : Bool) : State :=
  let store := s.setReg off (BitVec.ofNat 64 new)
  match r with
  | .topFmFeatureAccepted => if ownerPath path ∨ s.flag topFmFeatureCtrlLock then s else store
  | .topFmFeatureCtrl => if bitAt act 0 then s.fmLock path else s
  | .topCommitReq => s.commitReq act
  | .topShadowCtrl => s.revert act
  | .fltAck => s.faultAck act
  | .fltErrPinCtrl => s.pinCtrl false new act
  | .fltAlarmPinCtrl => s.pinCtrl true new act
  | .tbCfg => s.tbCfgWrite new
  | .tbStep => if whole then s.tbStep act else s
  | .tbTodSet => if whole then s.tbTod act else s
  | .mapZeroCtrl => if bitAt act 0 then s.zeroStart else s
  | .ttCtrl => if bitAt act 0 then s.startCheck i else s
  | .qosTelemCfg => if bitsOf new qosTelemCfgInterval.lsb qosTelemCfgInterval.width = 0 then s else store
  | .qosTelemCtrl => if bitAt act 0 then s.telemClear else s
  | .dmcInjCtrl => s.injArm i (withBits new 0 1 act)
  | .shgSetCtrl =>
    match bitsOf act shgSetCtrlOp.lsb shgSetCtrlOp.width with
    | 1 => s.setActivate (act % 8)
    | 2 => s.setClear (act % 8)
    | _ => s
  | .shgHistCtrl => if bitAt act shgHistCtrlClear.lsb then store.histClear else store
  | .shgSetLen =>
    let set := (off - shgSetLen 0 0) / 0xA0
    if s.fld (shgSetStateState set) = 0 ∧ set ≠ 0 then store else s
  | .tierCfg => s.tierCfg new
  | .tierCapCfg => s.tierCapCfg new
  | .tierDom => s.tierDomSet i new
  | .protWrap => if whole then { s with wrap := cellPut 0 s.wrap i (BitVec.ofNat 64 act) } else s
  | .protKeyCmd =>
    match bitsOf act protKeyCmdOp.lsb protKeyCmdOp.width with
    | 1 => s.keyLoad (act % 2048)
    | 2 => s.keyEraseCmd (act % 2048)
    | _ => s
  | .twCfg => s.twCfgWrite (halfOf i) new
  | .twCtrl => if bitAt act 0 then s.retrain (halfOf i) else s
  | .mirCfg => if mirCfgOk new then store else s.setFlag mirEvtCfgReject true
  | .pwrSupplyCfg => if supplyCfgOk new then store else s
  | .hswFeedCfg => if s.feedCfgOk new then store else s
  | .pwrCfg => s.setReg off (BitVec.ofNat 64 (withBits (withBits new 10 6 0) 26 6 0))
  | .pwrCapCfg => s.captureArm (withBits new 6 1 (act / 64))
  | .hswCtrl => s.hswCtrlWrite new
  | .hswSlotEn => s.slotEnable new
  | .bootFlashCtrl =>
    let op := act % 8
    if within 1 3 op then s.flashStart op (bitsOf act 3 1) (bitsOf act 4 13) else s
  | .pmuSmpCfg => s.samplingWrite (halfOf i) new
  | .pmuCnt => s.counterWrite (halfOf i) false j new
  | .pmuFix => s.counterWrite (halfOf i) true j new
  | .hpReqCap => store.checkReserves (portHalf i)
  | .rqCfg => (store.checkReserves .a).checkReserves .b
  | _ => store

/-- What a write goes to, for R380. -/
def regKind : RegName → RegKind
  | .fltAck | .fltErrPinCtrl | .fltAlarmPinCtrl => .ack
  | .bootFlashCtrl | .bootFlashStatus | .bootFlashBuf => .flash
  | _ => .plain

/-- Offsets of the PWR, HSW and TB blocks (R412). -/
def shoreOff (off : Nat) : Bool := within 0x300000 0x4FFFFF off

/-- A write at an offset of the privileged view by the rules of the register alone, without those of R380, R411 and R412. -/
def State.setPriv (s : State) (path : RegPath) (off v : Nat) (lanes : Lanes) : State :=
  match regRow off with
  | none => s
  | some r =>
    match r.bar0, r.index off with
    | false, some (i, j) =>
      if s.isS && pairReg off then s
      else
        let n := if r.n1 = 1 then j else i
        let mask := laneMask lanes
        let locked := match r.lock with
          | some l => bitAt (s.reg (l + i * r.s1)).toNat 0
          | none => false
        let new := wordAfter r locked (s.reg off).toNat v mask
        match groupOf off with
        | some g => s.groupWrite g fun s => s.shadowSet r.name n off new
        | none => s.plainSet path r.name n j off new (v &&& mask) (lanes == .qword)
    | _, _ => s

/-- A write over a path of Table 19.1. -/
def State.writePriv (s : State) (path : RegPath) (off v : Nat) (lanes : Lanes) : State :=
  match privRow off with
  | none => s
  | some (r, i) =>
    let shore := shoreOff off
    if !s.pathOpen path then s
    else if r.name = .bootFlashCtrl then (if s.regReach false then s.setPriv path off v lanes else s)
    else s.write (regKind r.name) shore (heldIn r.name i) fun s => s.setPriv path off v lanes

/-! ### Reads of the privileged view (R410) -/

/-- What the RC fields of a register restart at: the quantity's present value for a peak, else 0. -/
def State.restart (s : State) (r : RegName) (i lsb : Nat) : Nat :=
  match r, lsb with
  | .hpReqOcc, 16 => s.fld (hpReqOccInflight i)
  | .rqStatus, 16 => s.fld (rqStatusTableInuse i)
  | .pwrTelem, 40 => s.fld (pwrTelemLast i)
  | _, _ => 0

/-- The RC fields of a register are cleared. -/
def State.clearRc (s : State) (r : RegRow) (i k : Nat) : State :=
  if r.fields.any (fun (f : RegField) => f.acc == .rc) then
    s.setReg k (BitVec.ofNat 64 (r.fields.foldl (fun w (f : RegField) =>
      if f.acc = .rc then withBits w f.lsb f.width (s.restart r.name i f.lsb) else w) (s.reg k).toNat))
  else s

/-- The part of a word that an access returns. -/
def laneOf (lanes : Lanes) (w : Nat) : Nat :=
  match lanes with
  | .qword => w
  | .low => w % 2 ^ 32
  | .high => w / 2 ^ 32

/-- A read at an offset: the value and the state after it. An 8-byte read clears the RC fields it returns; a read of TB_TIME_LO
latches TB_TIME_HI. -/
def State.readPriv (s : State) (off : Nat) (lanes : Lanes) : State × Nat :=
  if off = tbTimeLo then
    let (s, v) := s.timeRead
    (s, laneOf lanes v.toNat)
  else
    let v := laneOf lanes (s.viewPriv off)
    match privRow off with
    | none => (s, v)
    | some (r, i) =>
      if lanes ≠ .qword ∨ s.heldAway (heldIn r.name i) ∨ (s.isS && pairReg off) ∨ (!s.boot.strait && twHeld off) then (s, v)
      else (s.clearRc r i off, v)

/-! ### BAR0 -/

/-- A write at an offset of a function's BAR0. -/
def State.setBar0 (s : State) (fn off v : Nat) (lanes : Lanes) : State :=
  let k := bar0Base * (1 + fn) + off
  match regRow k with
  | none => s
  | some r =>
    let mask := laneMask lanes
    let old := (s.reg k).toNat
    let new := wordAfter r false old v mask
    let act := v &&& mask
    let store := s.setReg k (BitVec.ofNat 64 new)
    let (i, j) := (r.index off).getD (0, 0)
    let ring := if r.n1 = 1 then j else i
    let running := s.fld (oflRingStatusState fn ring) == 1
    match r.name with
    | .featureAccepted => if s.flag (featureCtrlLock fn) then s else store
    | .featureCtrl => if bitAt act 0 then s.featureLock fn else s
    | .oflRingBase | .oflRingCbase | .oflRingHead => if running then s else store
    | .oflRingCfg =>
      s.setReg k (BitVec.ofNat 64 (if running then withBits new 0 16 (bitsOf old 0 16) else new))
    | .oflRingCtrl =>
      if lanes = .high then s
      else
        let s := if bitAt act 0 then s.ringEnable fn ring else s.ringDisable fn ring
        if bitAt act 1 then s.abortClear fn ring else s
    | .oflRingTail => s.ringTail fn ring new
    | .uvMboxCmd =>
      if lanes = .high then s
      else s.mboxWrite (fn / 17) (fn % 17) fun s =>
        match act % 65536 with
        | 0 => s.mboxEnd fn 0
        | 1 => s.getRecord (fn / 17) (fn % 17)
        | _ => s.mboxEnd fn 2
    | .msixData =>
      let vec := ring
      if !bitAt new 32 && s.bit (msixPbaPending fn) vec && (s.func fn).bme then
        (store.setBit (msixPbaPending fn) vec false).emit (.msix fn vec)
      else store
    | _ => store

/-- A write to BAR0 of a function that is there, outside what the FM-owned LD and the G-FAM function lack. -/
def State.writeBar0 (s : State) (p ld off v : Nat) (lanes : Lanes) : State :=
  if ld = 16 ∧ !fmBar0 off then s else s.barWrite p ld fun s => s.setBar0 (fnOf p ld) off v lanes

/-- A read of BAR0: the value and the state after it. -/
def State.readBar0 (s : State) (fn off : Nat) (lanes : Lanes) : State × Nat :=
  let v := laneOf lanes (s.viewBar0 fn off)
  let k := bar0Base * (1 + fn) + off
  match regRow k with
  | none => (s, v)
  | some r =>
    if lanes ≠ .qword ∨ (fn % 17 = 16 ∧ !fmBar0 off) ∨ (0x4000 ≤ off ∧ off < 0x6000 ∧ !s.userPage fn) then (s, v)
    else (s.clearRc r 0 k, v)

/-! ### The rows -/

/-- An access form that a path has: BAR2 takes 4 and 8 bytes; a REG command is whole registers (Table 19.1, R408). -/
def pathForm (path : RegPath) (lanes : Lanes) : Bool :=
  match path with
  | .bar2Owner _ _ | .bar2Fm _ => true
  | _ => lanes == .qword

/-- The function of a port that a register access goes to through a BAR: port and LD. -/
def viewFunction : RegView → Option (Nat × Nat)
  | .bar0 p ld => some (p, ld)
  | .priv (.bar2Owner p n) => some (p, n)
  | .priv (.bar2Fm p) => some (p, 16)
  | .priv _ => none

/-- REGISTER_WRITE. A misaligned access of a BAR is a bad access (R61). -/
def State.accessWrite (s : State) (view : RegView) (off v : Nat) (lanes : Lanes) : State :=
  if off % 8 ≠ 0 then (match viewFunction view with | some (p, ld) => s.badAccess p ld false | none => s)
  else match view with
    | .priv path => if pathForm path lanes then s.writePriv path off v lanes else s
    | .bar0 p ld => s.writeBar0 p ld off v lanes

def execRegisterWrite (view : RegView) (offset : Nat) (value : Word) (lanes : Lanes) (s : State) : Result :=
  .next (s.accessWrite view offset value.toNat lanes)

/-- READ_CLEAR: an absent function, or one in an FLR, or an LD without BAR2 answers Unsupported Request (02_host_ports R60,
R64). A misaligned access of a BAR is a bad access (R61). -/
def State.accessRead (s : State) (view : RegView) (off : Nat) (lanes : Lanes) : State :=
  if off % 8 ≠ 0 then (match viewFunction view with | some (p, ld) => s.badAccess p ld true | none => s)
  else match view with
    | .priv path =>
      if pathForm path lanes && !s.pathServed path then
        (match viewFunction view with | some (p, ld) => s.emit (.unsupported (fnOf p ld)) | none => s)
      else if pathForm path lanes && s.pathOpen path && s.regReach (shoreOff off) then
        let (s, v) := s.readPriv off lanes
        s.emit (.reply "READ" [v])
      else s
    | .bar0 p ld =>
      let fn := fnOf p ld
      if !s.present p ld || (s.func fn).flr then s.emit (.unsupported fn)
      else
        let (s, v) := s.readBar0 fn off lanes
        s.emit (.readData fn (BitVec.ofNat 64 v))

def execReadClear (view : RegView) (offset : Nat) (lanes : Lanes) (s : State) : Result :=
  .next (s.accessRead view offset lanes)

/-- COUNT and OFFSET of a REG command are good (R408). -/
def State.regArgsOk (s : State) (off count : Nat) : Bool :=
  within 1 (if s.fmFeature 1 then 32 else 1) count && off % 8 == 0 && decide (off + 8 * count ≤ 0x10000000)

/-- A path that carries REG commands. -/
def regPath : RegPath → Bool
  | .mailbox _ | .mctpSmbus | .mctpEth => true
  | _ => false

/-- A REG command: no path but SMBus or I3C reaches the device while the registers are shut, and there a block other than PWR,
HSW and TB answers Busy; in Boot Hold nothing answers (R412; 01_architecture R43). -/
def State.regCommand (s : State) (path : RegPath) (off count : Nat) (argsOk : Bool) (f : State → State) : State :=
  if !regPath path || !s.pathOpen path || (s.regsShut && !s.power.auxGood) || (!s.regsShut && s.phase == 9) then s
  else if !argsOk || !s.regArgsOk off count then s.emit (.reply "INVALID_INPUT" [])
  else if s.regsShut && !((List.range count).all fun i => shoreOff (off + 8 * i)) then s.emit (.reply "BUSY" [])
  else f s

def execRegRead (path : RegPath) (offset count : Nat) (s : State) : Result :=
  .next (s.regCommand path offset count true fun s =>
    let (s, vs) := (List.range count).foldl (fun (q : State × List Nat) i =>
      let (s, v) := q.1.readPriv (offset + 8 * i) .qword
      (s, q.2 ++ [v])) (s, [])
    s.emit (.reply "REG_READ" vs))

def execRegWrite (path : RegPath) (offset : Nat) (count : Nat) (values : List Word) (s : State) : Result :=
  .next (s.regCommand path offset count (values.length == count) fun s =>
    (s.each values.zipIdx fun s q => s.writePriv path (offset + 8 * q.2) q.1.toNat .qword).emit (.reply "REG_WRITE" []))

end Sys2Proof.Machine
end

