-- ==== Sys2Proof/Machine/Boot.lean ====
section
/-! DEFINITION. The boot: straps, image, EARLY, TRAIN, APPLY, TIME_WAIT and RECOVERY, and the cold reset (17_boot R379 to R394;
20_pins R423; 02_host_ports R48). -/

namespace Sys2Proof.Machine

/-! ### Cold reset and t = 0 (20_pins R423; 17_boot Table 17.1 steps 1, 2; 16_power R374) -/

/-- COLD_RESET: the device resets and the rails go down; the card bus stays as it is, and BOOT_START follows. -/
def execColdReset (s : State) : Result := .next s.deviceReset.railsDown

/-- The clean-shutdown marker is looked for: its absence is recorded, naming the last time that the logbook holds; then it is
cleared, where the logbook can be written (16_power R374, R378; log 95). -/
def State.cleanCheck (s : State) : State :=
  let t := s.power.lastTime
  let s := if s.power.marker then s else
    let r : FaultRec := { s.recordOf { code := cPwrUncleanLoss, cls := clsCe, unit := uDevice } false with time := t, timeLast := t, logged := true }
    { s.logRecord r with power := { (s.logRecord r).power with lastTime := t } }
  if s.flag fltStatusLogbookRo then s else { s with power := { s.power with marker := false } }

/-- The straps are latched (Table 17.1 step 2). -/
def State.latchStraps (s : State) (selA selB : Bool) (pair dev : Nat) : State :=
  let s := { s with pins := { s.pins with leaderSel := ⟨selA, selB⟩ } }
  let s := (s.setFlag topLeaderLeaderSelA selA).setFlag topLeaderLeaderSelB selB
  let s := (s.setFld bootIdCfgStrapId dev).setFld bootIdCfgDeviceId dev
  let s := (s.setFld bootIdCfgPairId pair).setFlag bootIdCfgLeaderSel selA
  (s.setFld topDeviceDeviceId dev).setFld topDevicePairId pair

/-- t = 0 may be now: the card bus is on, and nothing holds the rails down (R379; 16_power R361, R366, R370; 20_pins R421). -/
def State.mayBoot (s : State) : Bool :=
  s.fld hswStatusState == 3 && s.power.railStep == 0
    && !(s.power.off || s.power.heldReset || s.power.tripped || s.power.railsLatched)

/-- t = 0: the straps are latched, the boot nonce is drawn and the logic rails are sequenced (R379; 08_protection R209). -/
def State.bootBegin (s : State) (selA selB : Bool) (pair dev : Nat) : State :=
  let (n, s) := s.freeNat
  let s := { s with nonce := n % 2 ^ 256, boot := { s.boot with t0 := s.now } }
  (s.cleanCheck.latchStraps selA selB pair dev).railStart 1

def execBootStart (leaderSelA leaderSelB : Bool) (pairId : BitVec 2) (deviceId : BitVec 12) (s : State) : Result :=
  .next (if s.mayBoot then s.bootBegin leaderSelA leaderSelB pairId.toNat deviceId.toNat else s)

/-! ### The port configuration (02_host_ports R47, R48, R60) -/

/-- The quads that a port's configuration names; none where WIDTH is reserved. -/
def State.cfgQuads (s : State) (p : Nat) : List Nat :=
  let w := s.fld (hpPortCfgWidth p)
  if w = 3 then [] else (List.range (2 ^ w)).map (s.fld (hpPortCfgFirstQuad p) + ·)

/-- A port's configuration is right in itself (Table 2.1, R47, HP_PORT_CFG). -/
def State.portCfgOk (s : State) (p : Nat) : Bool :=
  let w := s.fld (hpPortCfgWidth p)
  let q := s.fld (hpPortCfgFirstQuad p)
  let mode := s.fld (hpPortCfgMode p)
  w != 3 && q % 2 ^ w == 0 && q / 8 == p / 8 && mode ≤ 1 && (mode == 1 || within 1 16 (s.fld (hpPortCfgLdCount p)))

/-- An enabled port shares a quad with another enabled port. -/
def State.quadShared (s : State) (p : Nat) : Bool :=
  (List.range 16).any fun q => q != p && s.flag (hpPortCfgEnable q) && (s.cfgQuads p).any fun x => (s.cfgQuads q).contains x

/-- One port is enabled, or fails the check. Its functions leave their first conventional reset (R60). -/
def State.enablePort (s : State) (p : Nat) : State :=
  if !s.flag (hpPortCfgEnable p) then s
  else
    let fail := fun (code : Nat) => (s.setFlag (hpPortStatusCfgFailed p) true).say code clsCe (uPort p)
    if !s.portCfgOk p then fail cHpCfgInvalid
    else if s.quadShared p then fail cHpCfgOverlap
    else
      let s := s.updPort p fun q => { q with active := true, quads := s.cfgQuads p }
      s.each (List.range 17) fun s n => s.resetFunc (fnOf p n)

/-- The ports are enabled, and Memory_Info_Valid is set (R388 steps 5, 6; 02_host_ports R62; 04_request R116). -/
def State.enablePorts (s : State) : State :=
  let s := { s with boot := { s.boot with infoValid := true } }
  ((s.each (List.range 16) State.enablePort).checkReserves .a).checkReserves .b

/-! ### Locks (R388 step 2) -/

/-- Every lock is set: each port's and each channel's with the rest. -/
def State.setLocks (s : State) : State :=
  let locks := [bootLockLock, mapLockLock, shgLockLock, protLockLock, oflLockLock, pwrLockLock]
    ++ (List.range 16).map hpLockLock ++ (List.range 24).map dmcLockLock
  s.each locks fun s f => s.setFlag f true

/-! ### Register records (R387) -/

/-- The record names the TW or the MIR block. -/
def pairBlock (off : Nat) : Bool := within 0xE00000 0xEFFFFF off

/-- The writable bits of a register. -/
def writable (r : RegRow) : Nat :=
  r.fields.foldl (fun m (f : RegField) =>
    if f.acc == .rw || f.acc == .rwl || f.acc == .rwt then withBits m f.lsb f.width (2 ^ f.width - 1) else m) 0

/-- A record that its register ignores is counted, and recorded once per boot. -/
def State.recordIgnored (s : State) : State :=
  let s := s.setFld bootStatusIgnoredRecords (satAdd 16 (s.fld bootStatusIgnoredRecords) 1)
  if s.boot.ignoredSeen then s
  else ({ s with boot := { s.boot with ignoredSeen := true } } : State).say cBootRecordIgnored clsCe uDevice

/-- A record is applied; STEP_EN of TB_CFG is held aside (R388 step 1). It counts as ignored where a writable bit of its
register does not read the value that it carries (log 96). -/
def State.applyRecord (s : State) (r : Nat × Nat) : State :=
  match privRow r.1 with
  | none => s
  | some (row, _) =>
    if s.isS && pairBlock r.1 then s
    else
      let tb := row.name == .tbCfg
      let v := if tb then withBits r.2 tbCfgStepEn.lsb 1 0 else r.2
      let s := s.setPriv .mctpEth r.1 v .qword
      if ((s.reg r.1).toNat ^^^ v) &&& writable row ≠ 0 then s.recordIgnored
      else if tb then { s with boot := { s.boot with stepEn := bitAt r.2 tbCfgStepEn.lsb } } else s

/-- The records of a section type are applied in order. -/
def State.applyRecords (s : State) (typ : Nat) : State := s.each (recordsOf (ofType typ s.boot.sections)) State.applyRecord

/-! ### Commits of the boot (R388, R389) -/

/-- Hiken submits an immediate commit of one group: it is refused and leaves its group, or it applies at its T. Its TAG is a
free value (log 97). -/
def State.bootCommit (s : State) (g : Nat) : State :=
  let (n, s) := s.freeNat
  let e : CommitEntry := { t := s.soonest, groups := 2 ^ g, action := 0, tag := n % 65536 }
  let (s, bad) := s.checkGroups e.groups false
  if bad ≠ 0 then (s.commitResult 8 e.tag e.t bad).say cBootCommitRefused clsCe uDevice
  else
    let s := s.applyGroups e.groups e.t
    (s.setBit topShadowStatusDirty g false).commitDone e 1 0 e.t

/-! ### IMAGE and EARLY (R382 to R388) -/

/-- A section of ROM patches is loaded into the comparators, or skipped (R386). -/
def State.loadPatches (s : State) : State :=
  let b := ofType 1 s.boot.sections
  if b.isEmpty then s
  else if numAt b 0 4 ≠ s.fuses.romRev then (s.setFlag bootStatusPatchSkipped true).say cBootPatchSkipped clsCe uDevice
  else
    let es := entriesOf 16 (b.drop 16)
    let patches := es.map fun e => (numAt e 4 1, numAt e 0 4, BitVec.ofNat 64 (numAt e 8 8))
    ({ s with boot := { s.boot with patches } } : State).setFld bootStatusPatches es.length

/-- BOOT_IMAGE and BOOT_BUILD_ID of the slot in use. -/
def State.describe (s : State) (slotB : Bool) : State :=
  let fl := s.slotNum slotB 7 1
  let s := (s.setFld bootStatusSlotUsed (1 + b2n slotB)).setFld bootImageRollbackVer (s.slotNum slotB 8 4)
  let s := (s.setFld bootImageKeyIndex (s.slotNum slotB 6 1)).setFlag bootImageArbCommit (bitAt fl 0)
  (s.setFlag bootImageRevokeLower (bitAt fl 1)).setFld bootBuildIdBuildId (s.slotNum slotB 20 8)

/-- The device identity (R388 step 3). -/
def State.fixIdentity (s : State) : State :=
  let d := s.fld (if s.flag bootIdCfgUseCfg then bootIdCfgId else bootIdCfgStrapId)
  (s.setFld bootIdCfgDeviceId d).setFld topDeviceDeviceId d

/-- The slots are powered that are enabled, have not tripped and may be (Table 17.1 step 7; 16_power R375). -/
def State.powerSlots (s : State) : State :=
  s.each (List.range 48) fun s i => s.setBit hswSlotPwrPwr i (s.bit hswSlotEnEn i && !s.bit hswSlotTripTrip i && s.slotMay i)

/-- Static sets are written and activated, or refused (R389; 06_shingle R169). -/
def State.loadSets (s : State) : State :=
  s.each (entriesOf 160 (ofType 3 s.boot.sections)) fun s e =>
    let set := numAt e 0 1
    let s := s.each (List.range 20) fun s w => s.setReg (shgSetLen set w) (BitVec.ofNat 64 (numAt e (7 + 8 * w) 8))
    let s := s.setActivate set
    if s.fld shgSetResultResult = 0 then s else s.say cBootSetRefused clsCe uDevice

/-- EARLY, and the start of TRAIN: the records, the locks, the identity, the commit of HP_LD_CFG, Memory_Info_Valid, the ports
and slots; then the sets, and the first key (R386 to R389). -/
def State.early (s : State) (slotB : Bool) : State :=
  let s := (s.describe slotB).enterPhase 3
  let s := { s with boot := { s.boot with
    sections := s.imgSections slotB, stepEn := (regReset tbCfg).getLsbD tbCfgStepEn.lsb } }
  let s := (s.loadPatches.applyRecords 2).setLocks.fixIdentity.bootCommit 0
  let s := (s.enablePorts.enterPhase 4).powerSlots.loadSets
  ({ s with boot := { s.boot with blobs := entriesOf 256 (ofType 4 s.boot.sections) } } : State).nextBlob

/-- RECOVERY: ports 0, 4, 8 and 12 as x16 MLD ports of one LD, every lock set, no channel trained (R393). -/
def State.recovery (s : State) : State :=
  let s := ((s.say cBootNoImage clsCe uDevice).enterPhase 10).setFlag fltErrPinCtrlSwAssert true
  let s := s.errPin.each [0, 4, 8, 12] fun s p =>
    let s := ((s.setFlag (hpPortCfgEnable p) true).setFld (hpPortCfgWidth p) 2).setFld (hpPortCfgMode p) 0
    (s.setFld (hpPortCfgLdCount p) 1).setFld (hpPortCfgFirstQuad p) p
  (s.setLocks.setFlag tbCfgStepEn ((regReset tbCfg).getLsbD tbCfgStepEn.lsb)).enablePorts

/-- A slot has been read and checked: A is used when it passes, B when A failed and B passes (R382, R383). -/
def State.imageDone (s : State) (readFail : Bool) : State :=
  if s.phase ≠ 2 ∨ s.df then s
  else
    let b := s.boot.slotB
    let code := s.slotCheck b readFail
    if code = 0 then s.early b
    else
      let s := (s.setFld (if b then bootStatusFailB else bootStatusFailA) code).say cBootSlotInvalid clsCe uDevice
      if b then s.recovery else { s with boot := { s.boot with slotB := true } }

def execImageCheckDone (readFail : Bool) (s : State) : Result := .next (s.imageDone readFail)

/-! ### APPLY (R389, R390) -/

/-- TRAIN is over: every channel has trained, is fenced or disabled, or was found empty, and no blob waits (R389). -/
def State.trainOver (s : State) : Bool :=
  s.keyCmd.isNone && s.boot.blobs.isEmpty && (List.range 24).all fun c =>
    s.flag (dmcCfgChannelDisable c) || s.fencedIn (uChannel c) || !(s.chan c).mods.isEmpty

/-- Grants that the logbook holds with a higher epoch take the place of the image's (R390). -/
def State.restoreGrants (s : State) : State :=
  s.each s.mirDoms fun s q =>
    match q.2.logged with
    | some g =>
      if g.epoch > s.fld (mirDomW1GrantEpoch q.1) then
        ((s.setFld (mirDomW0Role q.1) g.role).setFld (mirDomW0PeerDomain q.1) g.peer).setFld (mirDomW1GrantEpoch q.1) g.epoch
      else s
    | none => s

/-- APPLY: CONFIG_REGS, the checks of the tide tables, the staging of the tables, the logged grants, and the five commits in
their order (R389, R390). -/
def State.apply (s : State) : State :=
  let s := ((s.enterPhase 5).fixReserve.recapAll).applyRecords 5
  let s := s.each ((List.range 26).filter (fun i => s.flag (ttStatusDirty i))) fun s i => (s.startCheck i).endCheck i
  let s := s.each ((s.maps.filter (fun q => q.2.staging.isSome)).map (·.1)) fun s d => s.stageTable d 0 0
  let s := s.each [2, 1, 0] State.bootCommit
  s.restoreGrants.each [3, 4] State.bootCommit

def execBootTrainDone (s : State) : Result := .next (if s.phase = 4 ∧ !s.df ∧ s.trainOver then s.apply else s)

/-! ### TIME_WAIT and ACTIVE (R384, R385, R391) -/

/-- Revoke bits burnt (R384). -/
def State.burnRevoked (s : State) (mask : Nat) : State :=
  { s with fuses := { s.fuses with revoked := s.fuses.revoked ||| mask } }

/-- At Memory_Active: the anti-rollback counter advances, or is frozen, and lower root keys are revoked (R384, R385). -/
def State.rollbackAdvance (s : State) : State :=
  let ver := s.fld bootImageRollbackVer
  let s := if !s.flag bootImageArbCommit ∨ ver ≤ s.fld bootArbCounter then s
    else if s.flag fltStatusLogbookRo then (s.setFlag bootArbFrozen true).say cBootArbFrozen clsCe uDevice
    else s.setFld bootArbCounter ver
  if !s.flag bootImageRevokeLower then s
  else s.burnRevoked (2 ^ s.fld bootImageKeyIndex - 1)

/-- Memory_Active is set in every LD, and the TW blocks leave reset: their links go to DETECT where they are enabled
(R391; 02_host_ports R63; 12_strait Table 12.8). -/
def State.memoryOn (s : State) : State :=
  let s := { s with boot := { s.boot with memActive := true } }
  let s := (s.enterPhase 7).rollbackAdvance
  let s := { s with boot := { s.boot with strait := true } }
  (s.each [Half.a, Half.b] fun s l => if s.straitMay l.idx then s.enterDetect l else s).straitPaired

/-- TIME_WAIT ends: BOOT_WAIT_MS has elapsed where `elapsed` says so, else the tide clock has stepped, which it can only do in
TIME_WAIT, or is locked (R391). -/
def State.timeWaitEnd (s : State) (elapsed : Bool) : State :=
  if s.phase ≠ 6 ∨ s.df ∨ !(elapsed || s.tide.stepped || s.fld tbStatusState == 2) then s
  else
    (if elapsed then (s.setFlag bootStatusTimeWaitExpired true).say cBootTimeWaitExpired clsCe uDevice else s).memoryOn

def execBootTimeWaitEnd (elapsed : Bool) (s : State) : Result := .next (s.timeWaitEnd elapsed)

/-- Every accepted takeover of tide tables has taken place: TIME_WAIT starts by writing the image's STEP_EN, and ends at once
where STEP_EN was 1 and the tide clock is locked (R389, R391). -/
def State.applyOver (s : State) : State :=
  if s.phase ≠ 5 ∨ s.df ∨ (List.range 26).any (fun i => s.flag (ttStatusTakeoverPending i)) then s
  else
    let was := s.flag tbCfgStepEn
    let s := s.enterPhase 6
    let s := s.tbCfgWrite (withBits (s.reg tbCfg).toNat tbCfgStepEn.lsb 1 (b2n s.boot.stepEn))
    if was && s.fld tbStatusState == 2 then s.timeWaitEnd false else s

def execBootApplyDone (s : State) : Result := .next s.applyOver

/-! ### The size that an LD reports (02_host_ports R62; 03_domains) -/

/-- The memory size of an LD, in 2 MiB units: the highest LD_BASE + LENGTH of its valid ranges, those among the image's
CONFIG_REGS up to APPLY, then those in effect (R388 step 5). -/
def State.ldSize (s : State) (p n : Nat) : Nat :=
  let top := fun (xs : List Nat) => xs.foldl max 0
  if s.phase = 3 ∨ s.phase = 4 then
    let rs := recordsOf (ofType 5 s.boot.sections)
    let last := fun (off : Nat) => (((rs.filter (fun r => r.1 == off)).getLast?).map (·.2)).getD 0
    let field := fun (off : Nat) (f : Fld) => bitsOf (last off) f.lsb f.width
    let ld := p * 16 + n
    top ((List.range 8).map fun i =>
      if field (mapLdrW0 ld i) (mapLdrW0Valid ld i) = 1 then
        field (mapLdrW0 ld i) (mapLdrW0LdBase ld i) + field (mapLdrW1 ld i) (mapLdrW1Length ld i)
      else 0)
  else top ((s.ldRanges p n).map fun r => r.1 + r.2.1)

end Sys2Proof.Machine
end

