-- ==== Sys2Proof/Machine/Dispatch.lean ====
section
/-! DEFINITION. The dispatch: one arm per command, each a direct call of its meaning. -/

namespace Sys2Proof.Machine

/-- What a command does to everything but the queue. -/
def exec (i : Instr) (s : State) : Host.Outcome State Fault Refusal :=
  match i with
  | .d2dFlitReceive h words touched => Sys2Proof.Machine.execD2dFlitReceive h words touched s
  | .d2dFlitSend h handshake vc payload => Sys2Proof.Machine.execD2dFlitSend h handshake vc payload s
  | .d2dAckOnlyTimeout h => Sys2Proof.Machine.execD2dAckOnlyTimeout h s
  | .d2dReplayTimeout h touched => Sys2Proof.Machine.execD2dReplayTimeout h touched s
  | .d2dTrainDone failingA failingB creditsA creditsB => Sys2Proof.Machine.execD2dTrainDone failingA failingB creditsA creditsB s
  | .d2dTrainTimeout => Sys2Proof.Machine.execD2dTrainTimeout s
  | .claim h msg => Sys2Proof.Machine.execClaim h msg s
  | .echo h returned own => Sys2Proof.Machine.execEcho h returned own s
  | .confirm h leaderId => Sys2Proof.Machine.execConfirm h leaderId s
  | .handshakeTimeout h => Sys2Proof.Machine.execHandshakeTimeout h s
  | .handshakeRetry h => Sys2Proof.Machine.execHandshakeRetry h s
  | .shorePortWord h toShore word parity => Sys2Proof.Machine.execShorePortWord h toShore word parity s
  | .tbAlignCheck driftA driftB => Sys2Proof.Machine.execTbAlignCheck driftA driftB s
  | .sramFillDone h failed => Sys2Proof.Machine.execSramFillDone h failed s
  | .tcmUncorrectable h => Sys2Proof.Machine.execTcmUncorrectable h s
  | .watchdogExpiry h => Sys2Proof.Machine.execWatchdogExpiry h s
  | .portLinkTrain p flitMode latOpt hostRates eqOk goodLanes => Sys2Proof.Machine.execPortLinkTrain p flitMode latOpt hostRates eqOk goodLanes s
  | .hostLinkReplay p touched => Sys2Proof.Machine.execHostLinkReplay p touched s
  | .hostLinkStateChange p new => Sys2Proof.Machine.execHostLinkStateChange p new s
  | .doeDiscovery p ld index => Sys2Proof.Machine.execDoeDiscovery p ld index s
  | .doeCdatRead p ld => Sys2Proof.Machine.execDoeCdatRead p ld s
  | .ideKmKeyProg p mem keySet tx skid key => Sys2Proof.Machine.execIdeKmKeyProg p mem keySet tx skid key s
  | .ideKmKSetGo p mem keySet => Sys2Proof.Machine.execIdeKmKSetGo p mem keySet s
  | .flrStart p ld => Sys2Proof.Machine.execFlrStart p ld s
  | .flrDone p ld => Sys2Proof.Machine.execFlrDone p ld s
  | .cxlioCompletion p ld tag data => Sys2Proof.Machine.execCxlioCompletion p ld tag data s
  | .cxlioCompletionTimeout p ld tag => Sys2Proof.Machine.execCxlioCompletionTimeout p ld tag s
  | .bmeClear p ld => Sys2Proof.Machine.execBmeClear p ld s
  | .bmeSet p ld => Sys2Proof.Machine.execBmeSet p ld s
  | .perstAssert p => Sys2Proof.Machine.execPerstAssert p s
  | .perstRelease p => Sys2Proof.Machine.execPerstRelease p s
  | .linkLoss p => Sys2Proof.Machine.execLinkLoss p s
  | .hdmDecoderCommit p id k base size skip ways granularity bi => Sys2Proof.Machine.execHdmDecoderCommit p id k base size skip ways granularity bi s
  | .barSizingWrite p ld bar => Sys2Proof.Machine.execBarSizingWrite p ld bar s
  | .barBadAccess p ld isRead => Sys2Proof.Machine.execBarBadAccess p ld isRead s
  | .featureLock p ld => Sys2Proof.Machine.execFeatureLock p ld s
  | .fmFeatureLock path => Sys2Proof.Machine.execFmFeatureLock path s
  | .memRd p id hpa tag want stage parity => Sys2Proof.Machine.execMemRd p id hpa tag want stage parity s
  | .memInv p id hpa tag want => Sys2Proof.Machine.execMemInv p id hpa tag want s
  | .memClnEvct p id hpa tag => Sys2Proof.Machine.execMemClnEvct p id hpa tag s
  | .memSpecRd p id hpa tag => Sys2Proof.Machine.execMemSpecRd p id hpa tag s
  | .memWr p id hpa tag want data poison stage parity => Sys2Proof.Machine.execMemWr p id hpa tag want data poison stage parity s
  | .memWrPtl p id hpa tag want data enables poison stage parity => Sys2Proof.Machine.execMemWrPtl p id hpa tag want data enables poison stage parity s
  | .biRsp p id hpa keeps => Sys2Proof.Machine.execBiRsp p id hpa keeps s
  | .unsupportedMessage p id tag expectsData => Sys2Proof.Machine.execUnsupportedMessage p id tag expectsData s
  | .requestEntryGrant h => Sys2Proof.Machine.execRequestEntryGrant h s
  | .domainQueueRelease d pick victim stage parity => Sys2Proof.Machine.execDomainQueueRelease d pick victim stage parity s
  | .bisnpSend h d line host => Sys2Proof.Machine.execBisnpSend h d line host s
  | .rqBiTimeout h d line host => Sys2Proof.Machine.execRqBiTimeout h d line host s
  | .metadataFill rid errs victim => Sys2Proof.Machine.execMetadataFill rid errs victim s
  | .pageLockGrant rid pick => Sys2Proof.Machine.execPageLockGrant rid pick s
  | .writeBufferInsert rid => Sys2Proof.Machine.execWriteBufferInsert rid s
  | .parkReentry c => Sys2Proof.Machine.execParkReentry c s
  | .channelSequenceStart c errs => Sys2Proof.Machine.execChannelSequenceStart c errs s
  | .dramReadDone rid errs stage parity => Sys2Proof.Machine.execDramReadDone rid errs stage parity s
  | .responseSend rid => Sys2Proof.Machine.execResponseSend rid s
  | .domShadowWrite d window value => Sys2Proof.Machine.execDomShadowWrite d window value s
  | .extentTableStaged d pick1 pick2 => Sys2Proof.Machine.execExtentTableStaged d pick1 pick2 s
  | .mapZeroStart => Sys2Proof.Machine.execMapZeroStart s
  | .mapZeroPage picks => Sys2Proof.Machine.execMapZeroPage picks s
  | .mediaDrainDone item => Sys2Proof.Machine.execMediaDrainDone item s
  | .fenceWalkStep c picks => Sys2Proof.Machine.execFenceWalkStep c picks s
  | .metaCopyRebuild d ext pick => Sys2Proof.Machine.execMetaCopyRebuild d ext pick s
  | .materialiseExtent d ext pick => Sys2Proof.Machine.execMaterialiseExtent d ext pick s
  | .retirementMove c errs picks => Sys2Proof.Machine.execRetirementMove c errs picks s
  | .extentConvert d ext errs picks => Sys2Proof.Machine.execExtentConvert d ext errs picks s
  | .frameAudit h => Sys2Proof.Machine.execFrameAudit h s
  | .channelTrainDone c slot0 slot1 fast ok => Sys2Proof.Machine.execChannelTrainDone c slot0 slot1 fast ok s
  | .hardRepair c ok => Sys2Proof.Machine.execHardRepair c ok s
  | .caParityAlert c => Sys2Proof.Machine.execCaParityAlert c s
  | .injectionArm c value => Sys2Proof.Machine.execInjectionArm c value s
  | .refreshDebtTick c => Sys2Proof.Machine.execRefreshDebtTick c s
  | .refreshSweep c => Sys2Proof.Machine.execRefreshSweep c s
  | .dimmSidebandPoll c temps pgFault => Sys2Proof.Machine.execDimmSidebandPoll c temps pgFault s
  | .correctedWriteback c => Sys2Proof.Machine.execCorrectedWriteback c s
  | .comberStep c errs => Sys2Proof.Machine.execComberStep c errs s
  | .softRepairStart c errs => Sys2Proof.Machine.execSoftRepairStart c errs s
  | .softRepairSequence c => Sys2Proof.Machine.execSoftRepairSequence c s
  | .softRepairVerify c errs => Sys2Proof.Machine.execSoftRepairVerify c errs s
  | .sramScrubLap h group corrected uncorrectable lapUs => Sys2Proof.Machine.execSramScrubLap h group corrected uncorrectable lapUs s
  | .setActivate set => Sys2Proof.Machine.execSetActivate set s
  | .setClear set => Sys2Proof.Machine.execSetClear set s
  | .histClear => Sys2Proof.Machine.execHistClear s
  | .pageCompress h d page errs cluster streams recheckFail pick => Sys2Proof.Machine.execPageCompress h d page errs cluster streams recheckFail pick s
  | .pageCompressCommit h d page => Sys2Proof.Machine.execPageCompressCommit h d page s
  | .chunkDecode h d page rid chunk cluster fails => Sys2Proof.Machine.execChunkDecode h d page rid chunk cluster fails s
  | .chunkRedecode h d page rid chunk cluster fails => Sys2Proof.Machine.execChunkRedecode h d page rid chunk cluster fails s
  | .pagePromote rid errs pick => Sys2Proof.Machine.execPagePromote rid errs pick s
  | .pagePromoteCommit h d page => Sys2Proof.Machine.execPagePromoteCommit h d page s
  | .errorPromotion h d page errs pick => Sys2Proof.Machine.execErrorPromotion h d page errs pick s
  | .extentVisit h d ext => Sys2Proof.Machine.execExtentVisit h d ext s
  | .tierLapEnd h => Sys2Proof.Machine.execTierLapEnd h s
  | .tierCfgWrite value => Sys2Proof.Machine.execTierCfgWrite value s
  | .tierCapCfgWrite value => Sys2Proof.Machine.execTierCapCfgWrite value s
  | .tierDomWrite d value => Sys2Proof.Machine.execTierDomWrite d value s
  | .lostWriteRunClose h d => Sys2Proof.Machine.execLostWriteRunClose h d s
  | .counterFetchDone h d level idx errs victim => Sys2Proof.Machine.execCounterFetchDone h d level idx errs victim s
  | .counterRollover h d page errs => Sys2Proof.Machine.execCounterRollover h d page errs s
  | .treeLocalRebuild h d level idx errs => Sys2Proof.Machine.execTreeLocalRebuild h d level idx errs s
  | .subtreeRebuild h d level idx page => Sys2Proof.Machine.execSubtreeRebuild h d level idx page s
  | .subtreeInstall h d level idx => Sys2Proof.Machine.execSubtreeInstall h d level idx s
  | .rootParityFail d errs => Sys2Proof.Machine.execRootParityFail d errs s
  | .keyLoad slot => Sys2Proof.Machine.execKeyLoad slot s
  | .keyLoadDone => Sys2Proof.Machine.execKeyLoadDone s
  | .keyErase slot => Sys2Proof.Machine.execKeyErase slot s
  | .ideIntegrityFail p mem epoch stored => Sys2Proof.Machine.execIdeIntegrityFail p mem epoch stored s
  | .ttPendWrite k reg value => Sys2Proof.Machine.execTtPendWrite k reg value s
  | .ttCheck k => Sys2Proof.Machine.execTtCheck k s
  | .ttCheckDone k => Sys2Proof.Machine.execTtCheckDone k s
  | .ttTakeover k => Sys2Proof.Machine.execTtTakeover k s
  | .ttGateChange k => Sys2Proof.Machine.execTtGateChange k s
  | .qosTelemSample h => Sys2Proof.Machine.execQosTelemSample h s
  | .qosTelemClear => Sys2Proof.Machine.execQosTelemClear s
  | .ptpSync seq twoStep t1 correction => Sys2Proof.Machine.execPtpSync seq twoStep t1 correction s
  | .ptpFollowUp seq t1 correction => Sys2Proof.Machine.execPtpFollowUp seq t1 correction s
  | .ptpDelayReqSend => Sys2Proof.Machine.execPtpDelayReqSend s
  | .ptpDelayResp seq t4 correction => Sys2Proof.Machine.execPtpDelayResp seq t4 correction s
  | .ptpAnnounce rank ident => Sys2Proof.Machine.execPtpAnnounce rank ident s
  | .ptpPdelayReq seq => Sys2Proof.Machine.execPtpPdelayReq seq s
  | .ptpPdelayResp seq twoStep t2 correction => Sys2Proof.Machine.execPtpPdelayResp seq twoStep t2 correction s
  | .ptpPdelayRespFollowUp seq t3 correction => Sys2Proof.Machine.execPtpPdelayRespFollowUp seq t3 correction s
  | .ptpSyncTimeout => Sys2Proof.Machine.execPtpSyncTimeout s
  | .ptpAnnounceTimeout => Sys2Proof.Machine.execPtpAnnounceTimeout s
  | .ppsInEdge => Sys2Proof.Machine.execPpsInEdge s
  | .ppsInTimeout => Sys2Proof.Machine.execPpsInTimeout s
  | .holdoverExpiry => Sys2Proof.Machine.execHoldoverExpiry s
  | .tideStep stepNs => Sys2Proof.Machine.execTideStep stepNs s
  | .todSet ns => Sys2Proof.Machine.execTodSet ns s
  | .tbCfgWrite value => Sys2Proof.Machine.execTbCfgWrite value s
  | .tbTimeRead => Sys2Proof.Machine.execTbTimeRead s
  | .ppsOutPulse => Sys2Proof.Machine.execPpsOutPulse s
  | .commitSubmit value => Sys2Proof.Machine.execCommitSubmit value s
  | .commitCancel value => Sys2Proof.Machine.execCommitCancel value s
  | .commitApply => Sys2Proof.Machine.execCommitApply s
  | .snapshot => Sys2Proof.Machine.execSnapshot s
  | .mirrorCut => Sys2Proof.Machine.execMirrorCut s
  | .straitData l bytes corrected => Sys2Proof.Machine.execStraitData l bytes corrected s
  | .straitAckOnly l bytes corrected => Sys2Proof.Machine.execStraitAckOnly l bytes corrected s
  | .straitNak l bytes corrected => Sys2Proof.Machine.execStraitNak l bytes corrected s
  | .straitTime l bytes corrected => Sys2Proof.Machine.execStraitTime l bytes corrected s
  | .straitInit l bytes corrected => Sys2Proof.Machine.execStraitInit l bytes corrected s
  | .straitInitAck l bytes corrected => Sys2Proof.Machine.execStraitInitAck l bytes corrected s
  | .straitBadFrame l bytes fecFail corrected => Sys2Proof.Machine.execStraitBadFrame l bytes fecFail corrected s
  | .straitFrameSend l => Sys2Proof.Machine.execStraitFrameSend l s
  | .straitAckTimeout l => Sys2Proof.Machine.execStraitAckTimeout l s
  | .straitReplayTimeout l => Sys2Proof.Machine.execStraitReplayTimeout l s
  | .straitNoProgress l => Sys2Proof.Machine.execStraitNoProgress l s
  | .straitTimeTick l => Sys2Proof.Machine.execStraitTimeTick l s
  | .straitSignalDetect l => Sys2Proof.Machine.execStraitSignalDetect l s
  | .straitTrainDone l txLanes rxLanes => Sys2Proof.Machine.execStraitTrainDone l txLanes rxLanes s
  | .straitTrainTimeout l => Sys2Proof.Machine.execStraitTrainTimeout l s
  | .straitInitTick l => Sys2Proof.Machine.execStraitInitTick l s
  | .straitInitTimeout l => Sys2Proof.Machine.execStraitInitTimeout l s
  | .straitRetryTimer l => Sys2Proof.Machine.execStraitRetryTimer l s
  | .straitLaneLoss l lost => Sys2Proof.Machine.execStraitLaneLoss l lost s
  | .widthReq l group => Sys2Proof.Machine.execWidthReq l group s
  | .widthMark l group => Sys2Proof.Machine.execWidthMark l group s
  | .straitLockLossTimeout l => Sys2Proof.Machine.execStraitLockLossTimeout l s
  | .straitRetrain l => Sys2Proof.Machine.execStraitRetrain l s
  | .twCfgWrite l value => Sys2Proof.Machine.execTwCfgWrite l value s
  | .straitKeyDrained l => Sys2Proof.Machine.execStraitKeyDrained l s
  | .straitKeySwitchTimeout l => Sys2Proof.Machine.execStraitKeySwitchTimeout l s
  | .lineWr l vc => Sys2Proof.Machine.execLineWr l vc s
  | .lineWrPtl l vc => Sys2Proof.Machine.execLineWrPtl l vc s
  | .linePoison l vc => Sys2Proof.Machine.execLinePoison l vc s
  | .zeroRun l vc picks => Sys2Proof.Machine.execZeroRun l vc picks s
  | .commitAck l vc => Sys2Proof.Machine.execCommitAck l vc s
  | .commitAckSend l => Sys2Proof.Machine.execCommitAckSend l s
  | .peerRefuse l vc => Sys2Proof.Machine.execPeerRefuse l vc s
  | .cut l vc => Sys2Proof.Machine.execCut l vc s
  | .cutAckSend l => Sys2Proof.Machine.execCutAckSend l s
  | .cutAck l vc => Sys2Proof.Machine.execCutAck l vc s
  | .asyncCutTick h => Sys2Proof.Machine.execAsyncCutTick h s
  | .rsLine l vc => Sys2Proof.Machine.execRsLine l vc s
  | .slotData l vc => Sys2Proof.Machine.execSlotData l vc s
  | .pageDone l vc picks => Sys2Proof.Machine.execPageDone l vc picks s
  | .pageAck l vc => Sys2Proof.Machine.execPageAck l vc s
  | .role l vc => Sys2Proof.Machine.execRole l vc s
  | .setFp l vc => Sys2Proof.Machine.execSetFp l vc s
  | .repairReq l vc => Sys2Proof.Machine.execRepairReq l vc s
  | .mirAckTimeout d => Sys2Proof.Machine.execMirAckTimeout d s
  | .resyncPageSend h d errs => Sys2Proof.Machine.execResyncPageSend h d errs s
  | .ringEnable p ld r => Sys2Proof.Machine.execRingEnable p ld r s
  | .ringDisable p ld r => Sys2Proof.Machine.execRingDisable p ld r s
  | .ringTailWrite p ld r value => Sys2Proof.Machine.execRingTailWrite p ld r value s
  | .ringAbortClear p ld r => Sys2Proof.Machine.execRingAbortClear p ld r s
  | .descriptorFetch p ld r desc => Sys2Proof.Machine.execDescriptorFetch p ld r desc s
  | .copy p ld r idx source refused => Sys2Proof.Machine.execCopy p ld r idx source refused s
  | .fill p ld r idx refused => Sys2Proof.Machine.execFill p ld r idx refused s
  | .deflate p ld r idx source blocks refused => Sys2Proof.Machine.execDeflate p ld r idx source blocks refused s
  | .inflate p ld r idx source refused => Sys2Proof.Machine.execInflate p ld r idx source refused s
  | .crc p ld r idx source => Sys2Proof.Machine.execCrc p ld r idx source s
  | .loadDomain p ld r idx source => Sys2Proof.Machine.execLoadDomain p ld r idx source s
  | .storeDomain p ld r idx refused => Sys2Proof.Machine.execStoreDomain p ld r idx refused s
  | .jobComplete p ld r idx refused => Sys2Proof.Machine.execJobComplete p ld r idx refused s
  | .faultRecordClose seq => Sys2Proof.Machine.execFaultRecordClose seq s
  | .faultAck value => Sys2Proof.Machine.execFaultAck value s
  | .unitResetDone unit pass => Sys2Proof.Machine.execUnitResetDone unit pass s
  | .itemRunClose unit => Sys2Proof.Machine.execItemRunClose unit s
  | .errPhaseEnd => Sys2Proof.Machine.execErrPhaseEnd s
  | .errPinRelease => Sys2Proof.Machine.execErrPinRelease s
  | .errPinSwAssert on => Sys2Proof.Machine.execErrPinSwAssert on s
  | .alarmPhaseEnd => Sys2Proof.Machine.execAlarmPhaseEnd s
  | .alarmPinRelease => Sys2Proof.Machine.execAlarmPinRelease s
  | .getPoisonList p ld lineAddr len => Sys2Proof.Machine.execGetPoisonList p ld lineAddr len s
  | .scanMedia p ld lineAddr len => Sys2Proof.Machine.execScanMedia p ld lineAddr len s
  | .scanMediaDone p ld errs => Sys2Proof.Machine.execScanMediaDone p ld errs s
  | .getScanMediaCapabilities p ld lineAddr len => Sys2Proof.Machine.execGetScanMediaCapabilities p ld lineAddr len s
  | .getScanMediaResults p ld => Sys2Proof.Machine.execGetScanMediaResults p ld s
  | .clearPoison p ld lineAddr data => Sys2Proof.Machine.execClearPoison p ld lineAddr data s
  | .injectPoison p ld lineAddr => Sys2Proof.Machine.execInjectPoison p ld lineAddr s
  | .getEventRecords p ld log count => Sys2Proof.Machine.execGetEventRecords p ld log count s
  | .nop p ld => Sys2Proof.Machine.execNop p ld s
  | .getFaultRecord p ld => Sys2Proof.Machine.execGetFaultRecord p ld s
  | .mboxUnsupported p ld opcode => Sys2Proof.Machine.execMboxUnsupported p ld opcode s
  | .domainDropTimeout n => Sys2Proof.Machine.execDomainDropTimeout n s
  | .domainLevelChangeDone n => Sys2Proof.Machine.execDomainLevelChangeDone n s
  | .deepSleepEntryDone => Sys2Proof.Machine.execDeepSleepEntryDone s
  | .offEntryDone => Sys2Proof.Machine.execOffEntryDone s
  | .deepSleepExitDone badBanks saveOk treeErrs => Sys2Proof.Machine.execDeepSleepExitDone badBanks saveOk treeErrs s
  | .mctpDeepSleep => Sys2Proof.Machine.execMctpDeepSleep s
  | .mctpOff => Sys2Proof.Machine.execMctpOff s
  | .mctpWake => Sys2Proof.Machine.execMctpWake s
  | .wakeN => Sys2Proof.Machine.execWakeN s
  | .wakeAtReached => Sys2Proof.Machine.execWakeAtReached s
  | .vrStepAck h => Sys2Proof.Machine.execVrStepAck h s
  | .pwrVrNoAck h => Sys2Proof.Machine.execPwrVrNoAck h s
  | .vrStepRetry h => Sys2Proof.Machine.execVrStepRetry h s
  | .thermalSample tempA tempB tempShore => Sys2Proof.Machine.execThermalSample tempA tempB tempShore s
  | .thermalCapRelease h => Sys2Proof.Machine.execThermalCapRelease h s
  | .pwrSupplyWarn => Sys2Proof.Machine.execPwrSupplyWarn s
  | .pwrSupplyDip => Sys2Proof.Machine.execPwrSupplyDip s
  | .pwrSupplyReset => Sys2Proof.Machine.execPwrSupplyReset s
  | .supplyReboot => Sys2Proof.Machine.execSupplyReboot s
  | .pwrRailFault point => Sys2Proof.Machine.execPwrRailFault point s
  | .railPowerGood rail => Sys2Proof.Machine.execRailPowerGood rail s
  | .railPgTimeout => Sys2Proof.Machine.execRailPgTimeout s
  | .railSequenceRetry => Sys2Proof.Machine.execRailSequenceRetry s
  | .hswSeatChange feedB low => Sys2Proof.Machine.execHswSeatChange feedB low s
  | .hswSeatingDone => Sys2Proof.Machine.execHswSeatingDone s
  | .hswRampDone => Sys2Proof.Machine.execHswRampDone s
  | .hswInrushShort => Sys2Proof.Machine.execHswInrushShort s
  | .hswSoaTimeout => Sys2Proof.Machine.execHswSoaTimeout s
  | .hswOvercurrent => Sys2Proof.Machine.execHswOvercurrent s
  | .hswEnPinChange low highForMs => Sys2Proof.Machine.execHswEnPinChange low highForMs s
  | .hswCtrlWrite value => Sys2Proof.Machine.execHswCtrlWrite value s
  | .feedFail feedB => Sys2Proof.Machine.execFeedFail feedB s
  | .feedDeadTimeEnd => Sys2Proof.Machine.execFeedDeadTimeEnd s
  | .feedSwitchBack => Sys2Proof.Machine.execFeedSwitchBack s
  | .hswSlotTrip slot => Sys2Proof.Machine.execHswSlotTrip slot s
  | .slotEnableWrite value => Sys2Proof.Machine.execSlotEnableWrite value s
  | .telemetrySample samples => Sys2Proof.Machine.execTelemetrySample samples s
  | .captureArm value => Sys2Proof.Machine.execCaptureArm value s
  | .logbookWrite block => Sys2Proof.Machine.execLogbookWrite block s
  | .auxPowerFall => Sys2Proof.Machine.execAuxPowerFall s
  | .auxPowerRise => Sys2Proof.Machine.execAuxPowerRise s
  | .coldReset => Sys2Proof.Machine.execColdReset s
  | .bootStart leaderSelA leaderSelB pairId deviceId => Sys2Proof.Machine.execBootStart leaderSelA leaderSelB pairId deviceId s
  | .imageCheckDone readFail => Sys2Proof.Machine.execImageCheckDone readFail s
  | .bootTrainDone => Sys2Proof.Machine.execBootTrainDone s
  | .bootApplyDone => Sys2Proof.Machine.execBootApplyDone s
  | .bootTimeWaitEnd elapsed => Sys2Proof.Machine.execBootTimeWaitEnd elapsed s
  | .eraseSlot slotB => Sys2Proof.Machine.execEraseSlot slotB s
  | .program slotB block => Sys2Proof.Machine.execProgram slotB block s
  | .verify slotB => Sys2Proof.Machine.execVerify slotB s
  | .flashOpDone err => Sys2Proof.Machine.execFlashOpDone err s
  | .pmuFreezeWrite value => Sys2Proof.Machine.execPmuFreezeWrite value s
  | .pmuCtlWrite h n value => Sys2Proof.Machine.execPmuCtlWrite h n value s
  | .pmuCounterWrite h fixed n value => Sys2Proof.Machine.execPmuCounterWrite h fixed n value s
  | .samplingEnable h value => Sys2Proof.Machine.execSamplingEnable h value s
  | .regRead path offset count => Sys2Proof.Machine.execRegRead path offset count s
  | .regWrite path offset count values => Sys2Proof.Machine.execRegWrite path offset count values s
  | .shadowRevert value => Sys2Proof.Machine.execShadowRevert value s
  | .readClear view offset lanes => Sys2Proof.Machine.execReadClear view offset lanes s
  | .registerWrite view offset value lanes => Sys2Proof.Machine.execRegisterWrite view offset value lanes s
  | .straitLockReturn l => Sys2Proof.Machine.execStraitLockReturn l s
  | .supplyRecovery => Sys2Proof.Machine.execSupplyRecovery s
  | .feedGood feedB => Sys2Proof.Machine.execFeedGood feedB s

end Sys2Proof.Machine
end

