-- ==== Sys2Proof/Machine/Tick.lean ====
section
/-! DEFINITION. A TCLK cycle that passes with no command (log 1): time, the tide clock, PPS_OUT and the counters of cycles. -/

namespace Sys2Proof.Machine

/-- The tide-clock counters advance by 1 ns and TB_FREQ_ADJ x 2^-40 ns while the shore die is powered (11_tide_clock R259;
01_architecture R34; 20_pins R421). -/
def State.tideTick (s : State) : State :=
  if s.power.railStep = 0 then s
  else
    let step : Int := (tideNs : Int) + signedOf 32 (s.fld tbFreqAdjAdj)
    { s with tide := { s.tide with
        master := tideAdd s.tide.master step, localA := tideAdd s.tide.localA step, localB := tideAdd s.tide.localB step } }

/-- PPS_OUT falls when its width has passed (11_tide_clock R263). -/
def State.ppsFall (s : State) : State :=
  match s.tide.ppsOut with
  | some t => if t ≤ s.now then ({ s with tide := { s.tide with ppsOut := none } }).emit (.pin "PPS_OUT" false) else s
  | none => s

/-- One TCLK cycle. -/
def State.idle (s : State) : State :=
  let s := ({ s with now := s.now + 1 } : State).tideTick.ppsFall
  (s.pmuTick .a).pmuTick .b

end Sys2Proof.Machine
end

