-- ==== Sys2Proof/Safety.lean ====
section
/-! DEFINITION. What claims about runs are stated in: the forms that every state of a run has, what a step may never do, and
when a run goes on. -/

namespace Sys2Proof.Machine

/-- The canonical form of the DRAM contents: keys rising, no burst equal to what an unlisted one reads as. -/
def Memory.wf (m : Cells Burst) : Bool := cellsWf (fun _ => 0) m

/-- The canonical form of the register store: keys rising, no register listed at its reset value. -/
def State.regsWf (s : State) : Bool := cellsWf regReset s.regs

/-- The device has 16 ports, 24 channels and 26 schedulers (02_host_ports R47; 05_dram; 09_qos R236). -/
def State.shaped (s : State) : Bool := s.ports.length == 16 && s.channels.length == 24 && s.scheds.length == 26

/-- The forms that every state of a run has. -/
def State.sound (s : State) : Bool := s.regsWf && Memory.wf s.dram && s.shaped

/-- Fuses only burn: nothing but revoke bits changes, and no revoke bit is lost (17_boot R384). -/
def Fuses.burnt (f g : Fuses) : Prop := { g with revoked := f.revoked } = f ∧ f.revoked &&& g.revoked = f.revoked

/-- `k` steps of the machine, none of which stops. -/
def runs : Nat → State → State → Prop
  | 0, s, t => t = s
  | k + 1, s, t => ∃ u, step s = .next u ∧ runs k u t

/-- What a Strait link that goes down leaves: the state DOWN with its cause, nothing to replay, no width, and H kept
(12_strait R295, Table 12.11). -/
abbrev linkFell (s t : State) (l : Half) (cause : Nat) : Prop :=
  t.fld (twStatusState l.idx) = 6 ∧ t.fld (twStatusDownCause l.idx) = cause ∧ t.flag (twEvtLinkDown l.idx) = true ∧
    (t.strait.get l).replay = [] ∧ (t.strait.get l).resend = [] ∧ t.fld (twSeqOutstanding l.idx) = 0 ∧
    t.fld (twStatusTxWidth l.idx) = 0 ∧ (t.strait.get l).high = (s.strait.get l).high ∧ t.dram = s.dram

/-- Where a host's request stands once its result is known: at stage 9, on its way back across a whole die-to-die link, or at stage
10 in its receiving half (04_request R104; 01_architecture R22). -/
abbrev State.answerStage (s : State) (r : Req) : Stage := if r.crosses && s.linkWhole then .crossBack else .respond

/-- An offered page may be read and compressed on a cluster now (06_shingle R182; 05_dram R148; 07_tiering R192). -/
abbrev State.mayCompress (s : State) (h : Half) (d page cluster : Nat) : Prop :=
  (s.mover.get h).offers.contains (d, page) = true ∧ s.fenced (uComp h.idx cluster) = false ∧ (s.shg.get h).comps.length < 256 ∧
    ((s.shg.get h).comps.filter (fun j => j.cluster == cluster && !j.placed)).length < 2 ∧
    (s.shg.get h).comps.any (fun j => j.dom == d && j.page == page) = false ∧ (s.pageNow d page).state = .near ∧
    (s.ext d (page / 512)).kind = .paged ∧ s.treeFenced d (page * 64) = false ∧
    s.serves (chanOf h (s.pageNow d page).addr) = true ∧ s.locked d page = false ∧ s.ctrReady d (page * 64) = true ∧
    s.writesAhead d page = false ∧
    s.moverMay h (chanOf h (s.pageNow d page).addr) (if s.fld (tierStatusLevel h.idx) ≥ 1 then 4 else 6) = true

/-- A read waits for a chunk of its page, on its own half (06_shingle R180). -/
abbrev Req.waitsChunk (r : Req) (h : Half) (d page chunk : Nat) : Prop :=
  r.stage = .chunkWait ∧ r.home = h ∧ r.dom = d ∧ r.line / 64 = page ∧ r.line % 64 / 16 = chunk

/-- A command names a job that runs, as its ring's only job of that index that has no record yet (14_offload R322, R323). -/
abbrev State.runs (s : State) (fn r idx op : Nat) (j : Job) : Prop :=
  s.running fn r idx op = some j ∧
    s.jobs.find? (fun x => x.fn == fn && x.ring == r && x.idx == idx && !x.written) = some j

/-- A ring takes its next descriptor: it runs, may master the bus, and has room (14_offload R322). -/
abbrev State.mayFetch (s : State) (fn r : Nat) : Prop :=
  s.df = false ∧ s.fenced (uHalf (portHalf (fn / 17)).idx) = false ∧ s.fld (oflRingStatusState fn r) = 1 ∧
    s.flag (oflRingCtrlEnable fn r) = true ∧ (s.func fn).bme = true ∧ (s.ring fn r).next ≠ s.fld (oflRingTailTail fn r) ∧
    (s.inFlight fn r).length < 16 ∧
    (s.jobs.filter (fun j => portHalf (j.fn / 17) == portHalf (fn / 17) && !j.written)).length < 1024

/-- A message stands at the front of a virtual channel of a half's Strait receiver, from after the link last went down (12_strait R282,
R295). -/
abbrev State.receives (s : State) (l : Half) (vc : Nat) (m : MirMsg) (color : Nat) : Prop :=
  s.rxHead l vc = some (m, color) ∧ s.rxOld l vc = false

/-- That message has been taken: the receive buffer is as it leaves it (12_strait R282, R283). -/
abbrev State.received (s t : State) (l : Half) (vc : Nat) : Prop :=
  (t.strait.get l).rx = ((s.rxPop l vc).strait.get l).rx

/-- A request waits at stage 5 for its page or its line, or for the eviction buffer of a half (04_request R125, R126; 03_domains R95). -/
abbrev Req.waitsAt5 (r : Req) (h : Half) (d page : Nat) : Prop :=
  (r.hasDom = true ∧ r.dom = d ∧ r.line / 64 = page ∧ (r.stage = .lockWait ∨ r.stage = .biWait ∨ r.stage = .evictWait)) ∨
    (r.home = h ∧ r.stage = .evictWait)

end Sys2Proof.Machine
end

