-- ==== Sys2Proof/Certificates/Slice0/Obligations.lean ====
section
/-! DEFINITION. The statements for the provers, by kind of state and family of commands. A statement about a command ends in a
next state of `exec`: the one that the cited rules give it under hypotheses on the state and the operands alone. -/

open Sys2Proof Sys2Proof.Machine

/-! ### The machine as a whole -/

/-- The front command of the queue runs, on the state with the rest of the queue (log 4: the queue is the model's own). The
model's choices that it rests on: log 4. -/
def Obligations.StepRunsFrontCommand : Prop :=
  ∀ (s : State) (c : Instr) (rest : List Instr), s.pending = c :: rest → step s = exec c { s with pending := rest }

/-- With no command waiting, one TCLK cycle passes: the free-running count of nanoseconds moves on, and nothing waits (log 1;
01_architecture Table 1.6). The model's choices that it rests on: log 1. -/
def Obligations.IdleStepIsOneTclk : Prop :=
  ∀ s : State, s.pending = [] → ∃ t, step s = .next t ∧ t.pending = [] ∧ s.now < t.now

/-- Every command answers a next state: the spec gives every failure an effect, and the model takes it. No command touches the
queue; with the first statement, a step takes exactly the front command away. The model's choices that it rests on: logs 3,
10. -/
def Obligations.EveryCommandAnswers : Prop :=
  (∀ (s : State) (c : Instr), ∃ t, exec c s = .next t) ∧
  (∀ (s t : State) (c : Instr), exec c s = .next t → t.pending = s.pending)

/-- Every step keeps the forms of the state: registers and DRAM contents canonical, and 16 ports, 24 channels and
26 schedulers (02_host_ports R47, 05_dram, 09_qos R236). -/
def Obligations.StepKeepsStateSound : Prop :=
  ∀ s t : State, s.sound = true → step s = .next t → t.sound = true

/-- The state right after reset has these forms. The model's choices that it rests on: logs 6, 7, 8, 34. -/
def Obligations.ResetIsSound : Prop := State.reset.sound = true

/-- Over any step, fuses only burn: nothing but revoke bits changes, and none of them is lost (17_boot R384). Over any
run, fuses only burn and the forms stay (17_boot R384). -/
def Obligations.RunsKeepFormsAndFuses : Prop :=
  (∀ s t : State, step s = .next t → s.fuses.burnt t.fuses) ∧
  (∀ (k : Nat) (s t : State), runs k s t → s.fuses.burnt t.fuses ∧ (s.sound = true → t.sound = true))

/-! ### Power, supply and the card (16_power, 20_pins) -/

/-- A power domain whose votes call for a lower level starts its drop after the delay (R354), and a level change that
completes is reported in DOM_STATE and nowhere else (R356). Temperatures: below THROTTLE_C, the sensors are shown and no cap
changes; at 125 °C on any die the device trips, THERMTRIP_N falls and the rails go down (R366). The model's choices that it
rests on: logs 37, 45. -/
def Obligations.LevelsAndTemperatures : Prop :=
  (∀ (s : State) (n : Fin 33), s.domainDown n = false → n.val ≠ 32 → (nth {} s.power.doms n).changing = none →
    s.level n < s.voted n →
    exec (.domainDropTimeout n) s =
      .next { s with power := { s.power with doms := s.power.doms.set n { changing := some (s.voted n) } } }) ∧
  (∀ (s : State) (n : Fin 33) (l : Nat), s.sound = true → s.domainDown n = false → n.val ≠ 32 → l < 4 →
    (nth {} s.power.doms n).changing = some l →
    ∃ t, exec (.domainLevelChangeDone n) s = .next t ∧ t.fld (pwrDomState n) = l ∧ t.power.doms = s.power.doms.set n {} ∧
      (∀ f : Fld, f.key ≠ (pwrDomState n).key → t.fld f = s.fld f) ∧ t.dram = s.dram) ∧
  (∀ (s : State) (a b sh : BitVec 8), s.sound = true → a.toNat < 125 → b.toNat < 125 → sh.toNat < 125 →
    a.toNat < s.fld pwrThermCfgThrottleC → b.toNat < s.fld pwrThermCfgThrottleC →
    ∃ t, exec (.thermalSample a b sh) s = .next t ∧ t.fld pwrThermCfgTempA = a.toNat ∧ t.fld pwrThermCfgTempB = b.toNat ∧
      t.fld pwrThermCfgTempShore = sh.toNat ∧ (∀ f : Fld, f.key ≠ pwrThermCfgTempA.key → t.fld f = s.fld f) ∧
      t.out = s.out ∧ t.dram = s.dram) ∧
  (∀ (s : State) (a b sh : BitVec 8), s.sound = true → (125 ≤ a.toNat ∨ 125 ≤ b.toNat ∨ 125 ≤ sh.toNat) →
    ∃ t, exec (.thermalSample a b sh) s = .next t ∧ t.power.tripped = true ∧ t.power.railStep = 0 ∧ t.dram = [] ∧
      Out.pin "THERMTRIP_N" false ∈ t.out)

/-- DEEP_SLEEP and OFF over MCTP: granted in RUN where no reason of Table 16.6 refuses it, with PWR_TARGET.DEVICE cleared in
both copies (R357, R359); refused with the lowest reason; and the wake events of Table 16.8 start the exit (R361). In Boot
Hold no MCTP command is taken (01_architecture R43). The ends of the transitions, with an empty request slot: DEEP_SLEEP is
reached with the records and the counters gone (R359, R360; 18_pmu R396), OFF with the logic unpowered and DRAM lost (R359),
and RUN is restored with full buckets, no refresh debt and both local clocks set from the shore's (R362). The model's choices
that it rests on: logs 40, 44, 46. -/
def Obligations.DeviceStates : Prop :=
  (∀ (s : State) (off : Bool), s.sound = true → s.power.off = false → s.phase ≠ 9 → s.fld pwrStatusDeviceState = 0 →
    s.powerReason (!s.commits.isEmpty) false = 0 →
    ∃ t, exec (if off then .mctpOff else .mctpDeepSleep) s = .next t ∧ t.fld pwrStatusDeviceState = 1 ∧
      t.power.entering = some off ∧ t.fld pwrTargetDevice = 0 ∧ t.fld pwrTargetDevice.eff = 0 ∧
      t.out = .reply "MCTP_POWER" [0] :: s.out ∧ t.dram = s.dram) ∧
  (∀ (s : State) (off : Bool), s.power.off = false → s.phase ≠ 9 → s.fld pwrStatusDeviceState = 0 →
    s.powerReason (!s.commits.isEmpty) false ≠ 0 →
    exec (if off then .mctpOff else .mctpDeepSleep) s =
      .next (s.emit (.reply "MCTP_POWER" [s.powerReason (!s.commits.isEmpty) false]))) ∧
  (∀ s : State, s.sound = true → s.power.off = false → s.fld pwrStatusDeviceState = 2 →
    (s.flag pwrCfgWakeMctpEn = true → s.phase ≠ 9 →
      ∃ t, exec .mctpWake s = .next t ∧ t.fld pwrStatusDeviceState = 3 ∧ t.fld pwrStatusLastWake = 2) ∧
    (∃ t, exec .wakeN s = .next t ∧ t.fld pwrStatusDeviceState = 3 ∧ t.fld pwrStatusLastWake = 0) ∧
    (s.fld pwrWakeAtAtNs ≠ 0 → s.fld pwrWakeAtAtNs ≤ s.tns →
      ∃ t, exec .wakeAtReached s = .next t ∧ t.fld pwrStatusDeviceState = 3 ∧ t.fld pwrStatusLastWake = 3)) ∧
  (∀ (s : State) (off : Bool), s.phase = 9 → exec (if off then .mctpOff else .mctpDeepSleep) s = .next s) ∧
  (∀ s : State, s.power.off = true → exec .wakeN s = .next { s with power := { s.power with off := false } }) ∧
  (∀ s : State, s.sound = true → s.fld pwrStatusDeviceState = 1 → s.power.entering = some false →
    s.flushAll.loseBank15.loseCounters.fld pwrStatusSlot = 0 →
    ∃ t, exec .deepSleepEntryDone s = .next t ∧ t.fld pwrStatusDeviceState = 2 ∧ t.power.entering = none ∧
      t.power.saved = true ∧ t.snoop = [] ∧ t.fld pwrStatusSlot = 0) ∧
  (∀ s : State, s.sound = true → s.fld pwrStatusDeviceState = 1 → s.power.entering = some true → s.fld pwrStatusSlot = 0 →
    ∃ t, exec .offEntryDone s = .next t ∧ t.power.off = true ∧ t.power.railStep = 0 ∧ t.dram = [] ∧ t.reqs = [] ∧
      t.commits = []) ∧
  (∀ (s : State) (bad : List (Fin 32)), s.sound = true → s.fld pwrStatusDeviceState = 3 → s.fld pwrStatusSlot = 0 →
    (s.halves.a.coreRunning && s.halves.a.d2d.trained && s.halves.b.coreRunning && s.halves.b.d2d.trained) = true →
    ∃ t, exec (.deepSleepExitDone bad true []) s = .next t ∧ t.fld pwrStatusDeviceState = 0 ∧ t.power.saved = false ∧
      (∀ k, k < 2048 → s.effFlag (qosPolAEn (k / 2)) = true →
        (cellGet ({} : Bucket) t.buckets k).tc = capacity (s.eff (qosPolACbs (k / 2))) (s.share (halfOf (k % 2)) (k / 2)) ∧
        (cellGet ({} : Bucket) t.buckets k).tp = capacity (s.eff (qosPolBPbs (k / 2))) (s.share (halfOf (k % 2)) (k / 2))) ∧
      t.tide.localA = t.tide.master ∧ t.tide.localB = t.tide.master ∧ (∀ c, (t.chan c).debt = 0))

/-- Voltage and frequency: an acknowledged step becomes the half's point; one that is not acknowledged is recorded and told
in PWR_EVENT, and is asked for again at the retry (R364). A cap is removed once the half has been cool (R366). -/
def Obligations.VoltageSteps : Prop :=
  (∀ (s : State) (h : Half) (p : Nat), (s.power.dvfs.get h).step = some p →
    exec (.vrStepAck h) s = .next (({ s with
      power := { s.power with
        dvfs := s.power.dvfs.set h { s.power.dvfs.get h with volt := p, step := none, noAck := false } } } : State).dvfs h)) ∧
  (∀ (s : State) (h : Half) (p : Nat), (s.power.dvfs.get h).step = some p → (s.power.dvfs.get h).noAck = false →
    exec (.pwrVrNoAck h) s = .next (((({ s with
      power := { s.power with
        dvfs := s.power.dvfs.set h { s.power.dvfs.get h with noAck := true } } } : State).say cPwrVrNoAck clsCe
          (uHalf h.idx)).setFlag pwrEvtVrNoAck true).dvfs h)) ∧
  (∀ (s : State) (h : Half) (p : Nat), s.sound = true → (s.power.dvfs.get h).step = some p → (s.power.dvfs.get h).noAck = true →
    ∃ t, exec (.vrStepRetry h) s = .next t ∧ t.out = .vr h p :: s.out ∧ (t.power.dvfs.get h).step = some p ∧
      (t.power.dvfs.get h).noAck = false ∧ t.regs = s.regs ∧ t.dram = s.dram) ∧
  (∀ (s : State) (h : Half), (s.power.dvfs.get h).coolFrom.isSome = true → s.fld (thermCap h) ≠ 0 →
    exec (.thermalCapRelease h) s = .next (((((s.setFld (thermCap h) 0).say cPwrThermThrottle clsCe (uHalf h.idx)).setFlag
      pwrEvtThermThrottle true)).dvfs h))

/-- The supply: a warning shows SUPPLY_WARN and both halves follow the supply cap (R368); recovery starts the timer and ends a
dip (R367, R368); a reset leaves nothing of the logic, with the device held until 100 ms of recovery have passed (R370).
Rails: power-good of the last rail of a step starts the next step, and of step 4 ends the sequence; a step without power-good
in 5 ms takes the rails down, and the third failure holds them down; the sequence starts again after 1 s (20_pins R421). A
supervised rail that fails is told in PWR_EVENT, and a die's rail fences its half (16_power R369). The model's choices that it
rests on: log 10. -/
def Obligations.SupplyAndRails : Prop :=
  (∀ s : State, exec .pwrSupplyWarn s = .next ((((({ s.setFlag pwrStatusSupplyWarn true with
      power := { s.power with recovFrom := none } } : State).say cPwrSupplyWarn clsCe uDevice).setFlag pwrEvtSupplyWarn true)).dvfsAll)) ∧
  (∀ s : State, (s.flag pwrStatusSupplyWarn = true ∨ s.power.heldReset = true) →
    exec .supplyRecovery s =
      .next { s with power := { s.power with recovFrom := some (s.power.recovFrom.getD s.now) } }) ∧
  (∀ s : State, s.flag pwrStatusSupplyWarn = true → s.power.recovFrom.isSome = true →
    exec .pwrSupplyDip s = .next ((((({ s.setFlag pwrStatusSupplyWarn false with
      power := { s.power with recovFrom := none } } : State).say cPwrSupplyDip clsCe uDevice).setFlag pwrEvtSupplyDip true)).dvfsAll)) ∧
  (∀ s : State, s.sound = true → ∃ t, exec .pwrSupplyReset s = .next t ∧ t.power.heldReset = true ∧ t.power.recovFrom = none ∧
      t.power.railStep = 0 ∧ t.dram = [] ∧ t.reqs = [] ∧ t.commits = []) ∧
  (∀ s : State, s.power.heldReset = true → s.power.recovFrom.isSome = true →
    exec .supplyReboot s = .next { s with power := { s.power with heldReset := false, recovFrom := none } }) ∧
  (∀ (s : State) (r : Fin 8), s.sound = true →
    (s.railsOf s.power.railStep).contains r.val = true → s.power.railGood.contains r.val = false →
    (s.railsOf s.power.railStep).all (fun x => (r.val :: s.power.railGood).contains x) = true → s.power.railStep < 4 →
    ∃ t, exec (.railPowerGood r) s = .next t ∧ t.power.railStep = s.power.railStep + 1 ∧ t.power.railGood = [] ∧
      (∀ x ∈ s.railsOf (s.power.railStep + 1), Out.rail x true ∈ t.out) ∧ t.regs = s.regs) ∧
  (∀ s : State, s.sound = true → 1 ≤ s.power.railStep → s.power.railStep ≤ 4 →
    ∃ t, exec .railPgTimeout s = .next t ∧ t.power.railStep = 0 ∧ t.power.railFails = s.power.railFails + 1 ∧
      t.power.railsLatched = decide (3 ≤ s.power.railFails + 1)) ∧
  (∀ s : State, s.sound = true →
    s.power.railStep = 0 → s.power.railFails ≠ 0 → s.power.railsLatched = false → s.fld hswStatusState = 3 →
    ∃ t, exec .railSequenceRetry s = .next t ∧ t.power.railStep = 1 ∧ t.out = .rail 0 true :: s.out ∧ t.regs = s.regs) ∧
  (∀ (s : State) (point : Fin 16), s.supervised point = true → (point.val = 5 ∨ point.val = 6 ∨ point.val = 9 ∨ point.val = 11) →
    exec (.pwrRailFault point) s =
      .next ((s.setFlag pwrEvtRailFault true).raise { code := cPwrRailFault, cls := clsUcf, unit := uHalf 0 })) ∧
  (∀ (s : State) (point : Fin 16), s.supervised point = true →
    (point.val = 7 ∨ point.val = 8 ∨ point.val = 10 ∨ point.val = 12) →
    exec (.pwrRailFault point) s =
      .next ((s.setFlag pwrEvtRailFault true).raise { code := cPwrRailFault, cls := clsUcf, unit := uHalf 1 }))

/-- Hot swap (Table 16.11): seating with AUX_3V3 good, HSW_EN_N low and ENABLE 1 starts the seating timer; both pins low for
100 ms start the ramp on the preferred feed when it is good, else on the other; the ramp ends in ON; each of the three latch-
offs shows its cause in LATCH_CAUSE (R371, R372). The controls of hot swap: HSW_EN_N high, or ENABLE cleared, leaves ON by
turning the gates off; the pin's level is shown in HSW_STATUS (R371, R372). A slot's fuse turns its channel's two slots off
(R375). The model's choices that it rests on: logs 10, 47. -/
def Obligations.HotSwap : Prop :=
  (∀ (s : State) (b : Bool), s.sound = true → s.fld hswStatusState = 0 → s.power.auxGood = true → s.pins.hswEn = true →
    s.flag hswCtrlEnable = true →
    ∃ t, exec (.hswSeatChange b true) s = .next t ∧ t.fld hswStatusState = 1 ∧
      t.flag (if b then hswStatusSeatB else hswStatusSeatA) = true ∧
      (∀ f : Fld, f.key ≠ hswStatus → t.fld f = s.fld f)) ∧
  (∀ (s : State), s.sound = true → s.fld hswStatusState = 1 → s.flag hswStatusSeatA = true → s.flag hswStatusSeatB = true →
    ∃ t, exec .hswSeatingDone s = .next t ∧ t.fld hswStatusState = 2 ∧ t.power.gateOn = true ∧
      t.flag hswStatusActiveFeed =
        (if s.flag (if s.flag hswFeedCfgPrefer then hswStatusFeedBGood else hswStatusFeedAGood) then s.flag hswFeedCfgPrefer
          else !s.flag hswFeedCfgPrefer) ∧
      (∀ f : Fld, f.key ≠ hswStatus → t.fld f = s.fld f)) ∧
  (∀ s : State, s.fld hswStatusState = 2 → exec .hswRampDone s = .next (s.setFld hswStatusState 3)) ∧
  (∀ s : State, s.sound = true → s.fld hswStatusState = 2 →
    (∃ t, exec .hswInrushShort s = .next t ∧ t.fld hswStatusState = 4 ∧ t.fld hswStatusLatchCause = 1 ∧
      t.power.gateOn = false ∧ t.pins.errHeld = true) ∧
    (∃ t, exec .hswSoaTimeout s = .next t ∧ t.fld hswStatusState = 4 ∧ t.fld hswStatusLatchCause = 2 ∧
      t.power.gateOn = false ∧ t.pins.errHeld = true)) ∧
  (∀ s : State, s.sound = true → s.fld hswStatusState = 3 →
    ∃ t, exec .hswOvercurrent s = .next t ∧ t.fld hswStatusState = 4 ∧ t.fld hswStatusLatchCause = 3 ∧ t.power.gateOn = false ∧ t.pins.errHeld = true ∧ t.power.railStep = 0 ∧
      t.dram = []) ∧
  (∀ (s : State) (m : Bool), s.sound = true → s.fld hswStatusState = 0 →
    ∃ t, exec (.hswEnPinChange false m) s = .next t ∧ t.pins.hswEn = false ∧ t.flag hswStatusEnPin = false ∧
      t.power.enSeenHigh = true ∧ (∀ f : Fld, f.key ≠ hswStatus → t.fld f = s.fld f) ∧ t.dram = s.dram) ∧
  (∀ (s : State) (m : Bool), s.sound = true → s.fld hswStatusState = 3 →
    ∃ t, exec (.hswEnPinChange false m) s = .next t ∧ t.power.gateOn = false ∧ t.power.railStep = 0 ∧ t.dram = [] ∧
      t.reqs = []) ∧
  (∀ (s : State) (v : Word), s.sound = true → s.takesWrite .plain true none = true → v.toNat % 2 = 0 → s.fld hswStatusState = 0 →
    ∃ t, exec (.hswCtrlWrite v) s = .next t ∧ t.flag hswCtrlEnable = false ∧ t.power.enCleared = true ∧
      (∀ f : Fld, f.key ≠ hswCtrlEnable.key → t.fld f = s.fld f)) ∧
  (∀ (s : State) (slot : Fin 48), s.bit hswSlotPwrPwr slot = false → exec (.hswSlotTrip slot) s = .next s) ∧
  (∀ (s : State) (slot : Fin 48), s.bit hswSlotPwrPwr slot = true → exec (.hswSlotTrip slot) s =
    .next (({ s.each [slot.val / 2 * 2, slot.val / 2 * 2 + 1] (fun u i =>
        if u.bit hswSlotPwrPwr i then (u.setBit hswSlotPwrPwr i false).setBit hswSlotTripTrip i true
        else u.setBit hswSlotPwrPwr i false) with
      power := { s.power with slotCleared := withBits s.power.slotCleared (slot.val / 2 * 2) 2 0 } } : State).raise
        { code := cHswSlotTrip, cls := clsUcf, unit := uChannel (slot.val / 2) }))

/-- Feeds (R373): a feed that fails is shown; the active one is left for a good one, its gate off first; the dead time ends on
the other feed, which is recorded and told in PWR_EVENT; a preferred feed that is good again is switched back to. HSW_SLOT_EN
is stored, and a slot whose bit is 0 is off (R375); PWR_CAP_CFG arms a capture of 4,096 samples, and a sample of the telemetry
is stored as the last value of each of the 64 points (R377). The logbook: a write of a block before its last is counted, and
the greatest count is shown (R378); AUX_3V3 that falls takes the always-on domain with it and leaves the logbook's blocks
(20_pins R422); that rises, it starts afresh. The model's choices that it rests on: log 95. -/
def Obligations.FeedsSlotsAndLogbook : Prop :=
  (∀ (s : State) (b : Bool), exec (.feedGood b) s = .next (s.setFlag (feedGoodFld b) true)) ∧
  (∀ (s : State) (b : Bool), s.sound = true →
    s.fld hswStatusState = 3 → s.flag hswStatusActiveFeed = b → s.power.switching = none →
    s.flag (feedGoodFld !b) = true →
    exec (.feedFail b) s = .next { s.setFlag (feedGoodFld b) false with
      power := { s.power with gateOn := false, switching := some !b } }) ∧
  (∀ (s : State) (f : Bool), s.power.switching = some f →
    exec .feedDeadTimeEnd s = .next ((({ s.setFlag hswStatusActiveFeed f with
      power := { s.power with gateOn := true, switching := none } } : State).say cPwrFeedSwitch clsCe uDevice).setFlag
        pwrEvtFeedSwitch true)) ∧
  (∀ s : State, s.fld hswStatusState = 3 → s.flag hswStatusActiveFeed = (!s.flag hswFeedCfgPrefer) →
    s.flag (feedGoodFld (s.flag hswFeedCfgPrefer)) = true → s.power.switching = none →
    exec .feedSwitchBack s = .next { s with power := { s.power with gateOn := false, switching := some (s.flag hswFeedCfgPrefer) } }) ∧
  (∀ (s : State) (v : Word) (i : Nat), s.sound = true → s.takesWrite .plain true none = true → v.toNat < 2 ^ 48 → i < 48 →
    bitAt v.toNat i = false →
    ∃ t, exec (.slotEnableWrite v) s = .next t ∧ t.fld hswSlotEnEn = v.toNat ∧ t.bit hswSlotPwrPwr i = false) ∧
  (∀ (s : State) (v : Word), s.sound = true → s.takesWrite .plain true none = true → bitAt v.toNat 6 = true →
    s.flag pwrCapCfgArm = false →
    ∃ t, exec (.captureArm v) s = .next t ∧ t.flag pwrCapCfgArm = true ∧ t.power.capture = some 0 ∧
      t.fld pwrCapCfgPoint = v.toNat % 64 ∧ (∀ f : Fld, f.key ≠ pwrCapCfgArm.key → t.fld f = s.fld f)) ∧
  (∀ (s : State) (xs : List Nat) (n : Nat), s.sound = true → n < 64 → (n ≠ 13 ∨ s.isS = false) →
    ∃ t, exec (.telemetrySample xs) s = .next t ∧ t.fld (pwrTelemLast n) = nth 0 xs n % 2 ^ 20 ∧ t.dram = s.dram) ∧
  (∀ (s : State) (b : Fin 1984), s.flag fltStatusLogbookRo = false → cellGet 0 s.power.wear b + 1 < wearMax →
    exec (.logbookWrite b) s = .next { s.setFld pwrLogbookMaxWear (max (s.fld pwrLogbookMaxWear) (cellGet 0 s.power.wear b + 1)) with
      power := { s.power with wear := cellPut 0 s.power.wear b (cellGet 0 s.power.wear b + 1) } }) ∧
  (∀ (s : State) (b : Fin 1984), s.flag fltStatusLogbookRo = true → exec (.logbookWrite b) s = .next s) ∧
  (∀ s : State, s.sound = true →
    ∃ t, exec .auxPowerFall s = .next t ∧ t.power.auxGood = false ∧ t.power.logbook = s.power.logbook ∧
    t.power.wear = s.power.wear ∧ t.fuses = s.fuses ∧ t.dram = []) ∧
  (∀ s : State, s.sound = true → ∃ t, exec .auxPowerRise s = .next t ∧ t.power.auxGood = true ∧ t.dram = s.dram ∧ t.out = s.out)


/-! ### Boot and flash (17_boot, 20_pins) -/

/-- A cold reset keeps the hot-swap block's registers, the fuses, the flash and the pins, and loses the DRAM contents, the
requests and the commits; the rails go down (20_pins R423; 17_boot R394). At t = 0 the straps are latched and the first rail
is raised (17_boot R379, Table 17.1). The model's choices that it rests on: logs 7, 34, 42. -/
def Obligations.ResetAndStraps : Prop :=
  (∀ s : State, s.sound = true → ∃ t, exec .coldReset s = .next t ∧ t.power.railStep = 0 ∧ t.dram = [] ∧ t.reqs = [] ∧
    t.commits = [] ∧ t.records = [] ∧ t.fuses = s.fuses ∧ t.boot = { flash := s.boot.flash } ∧
    (∀ f : Fld, 0x340000 ≤ f.key → f.key < 0x350000 → t.fld f = s.fld f)) ∧
  (∀ (s : State) (a b : Bool) (pair : BitVec 2) (dev : BitVec 12), s.sound = true → s.mayBoot = true →
    ∃ t, exec (.bootStart a b pair dev) s = .next t ∧ t.boot.t0 = s.now ∧ t.power.railStep = 1 ∧
      t.pins.leaderSel = ⟨a, b⟩ ∧ t.flag topLeaderLeaderSelA = a ∧ t.flag topLeaderLeaderSelB = b ∧
      t.fld topDevicePairId = pair.toNat ∧ t.fld topDeviceDeviceId = dev.toNat ∧ t.fld bootIdCfgStrapId = dev.toNat ∧
      Out.rail 0 true ∈ t.out ∧ t.dram = s.dram)

/-- A slot that fails is recorded with its reason; after A, B is read; after B, the device enters RECOVERY, with SW_ASSERT
set, ports 0, 4, 8 and 12 enabled as x16 ports and Memory_Active and DRAM as they were (R382, R383, R393). A slot that passes,
and RECOVERY, set Memory_Info_Valid (R386 to R388, R393). APPLY: when TRAIN is over, the media reserve is fixed (03_domains
R86), CONFIG_REGS are written, the tide tables checked, the map tables staged, and five commits are done in the order policy,
domain and port groups, then, with the logged grants restored, tide tables and pairing (R389, R390). The model's choices that
it rests on: log 97. -/
def Obligations.BootImageAndApply : Prop :=
  (∀ (s : State) (rf : Bool), s.phase = 2 → s.df = false → s.boot.slotB = false → s.slotCheck false rf ≠ 0 →
    exec (.imageCheckDone rf) s = .next { (s.setFld bootStatusFailA (s.slotCheck false rf)).say cBootSlotInvalid clsCe uDevice with
      boot := { ((s.setFld bootStatusFailA (s.slotCheck false rf)).say cBootSlotInvalid clsCe uDevice).boot with slotB := true } }) ∧
  (∀ (s : State) (rf : Bool), s.sound = true → s.phase = 2 → s.df = false → s.boot.slotB = true → s.slotCheck true rf ≠ 0 →
    ∃ t, exec (.imageCheckDone rf) s = .next t ∧ t.boot.infoValid = true ∧ t.boot.memActive = s.boot.memActive ∧
      t.dram = s.dram ∧ t.phase = 10 ∧ t.flag fltErrPinCtrlSwAssert = true ∧
      ∀ p ∈ [0, 4, 8, 12], t.flag (hpPortCfgEnable p) = true ∧ t.fld (hpPortCfgWidth p) = 2 ∧ t.fld (hpPortCfgFirstQuad p) = p) ∧
  (∀ (s : State) (rf : Bool), s.sound = true → s.phase = 2 → s.df = false → (s.boot.slotB = true ∨ s.slotCheck false rf = 0) →
    ∃ t, exec (.imageCheckDone rf) s = .next t ∧ t.boot.infoValid = true) ∧
  (∀ s : State, s.phase = 4 → s.df = false → s.trainOver = true →
    exec .bootTrainDone s = .next (
      let s := ((s.enterPhase 5).fixReserve.recapAll).applyRecords 5
      let s := ((List.range 26).filter (fun i => s.flag (ttStatusDirty i))).foldl (fun s i => (s.startCheck i).endCheck i) s
      let s := ((s.maps.filter (fun q => q.2.staging.isSome)).map (·.1)).foldl (fun s d => s.stageTable d 0 0) s
      ((((s.bootCommit 2).bootCommit 1).bootCommit 0).restoreGrants.bootCommit 3).bootCommit 4)) ∧
  (∀ s : State, s.phase = 4 → s.trainOver = false → exec .bootTrainDone s = .next s)

/-- TIME_WAIT: it follows APPLY, and ends with Memory_Active set and the Strait blocks out of reset, at once where the image's
STEP_EN was 1 and the tide clock is locked; an end by BOOT_WAIT_MS shows in TIME_WAIT_EXPIRED; until then, or until the clock has
stepped or is locked, it goes on (R389, R391). -/
def Obligations.BootReachesActive : Prop :=
  (∀ s u : State, s.phase = 5 → s.df = false → (List.range 26).any (fun i => s.flag (ttStatusTakeoverPending i)) = false →
    (s.enterPhase 6).tbCfgWrite
      (withBits ((s.enterPhase 6).reg tbCfg).toNat tbCfgStepEn.lsb 1 (b2n s.boot.stepEn)) = u →
    (s.flag tbCfgStepEn = false ∨ u.fld tbStatusState ≠ 2 → exec .bootApplyDone s = .next u) ∧
    (s.sound = true → s.flag tbCfgStepEn = true → u.fld tbStatusState = 2 →
      ∃ t, exec .bootApplyDone s = .next t ∧ t.boot.memActive = true ∧ t.boot.strait = true)) ∧
  (∀ (s : State) (e : Bool), s.sound = true → s.phase = 6 → s.df = false →
    (e || s.tide.stepped || s.fld tbStatusState == 2) = true →
    ∃ t, exec (.bootTimeWaitEnd e) s = .next t ∧ t.boot.memActive = true ∧ t.boot.strait = true ∧
      t.flag bootStatusTimeWaitExpired = (e || s.flag bootStatusTimeWaitExpired)) ∧
  (∀ (s : State) (e : Bool), (s.phase ≠ 6 ∨ (e || s.tide.stepped || s.fld tbStatusState == 2) = false) →
    exec (.bootTimeWaitEnd e) s = .next s)

/-- The flash commands: a command that may run makes BUSY read 1 and waits for its end; outside ACTIVE, DONE and RECOVERY it
ends NOT_ALLOWED; while one runs it is ignored (R395). The ends of the flash commands: an erased slot reads all ones and the
other slot is as it was; a programmed block holds the 512 words of the buffer; a verified slot has the result of its check
(R395, R382). The model's choices that it rests on: logs 91, 92. -/
def Obligations.FlashCommands : Prop :=
  (∀ (s : State) (b : Bool) (k : Fin 8192), s.regReach false = true → s.flag bootFlashStatusBusy = false →
    s.takesWrite .flash false none = true →
    exec (.eraseSlot b) s = .next { s.setFlag bootFlashStatusBusy true with
      boot := { s.boot with flashCmd := some (1, b2n b, 0) } } ∧
    exec (.program b k) s = .next { s.setFlag bootFlashStatusBusy true with
      boot := { s.boot with flashCmd := some (2, b2n b, k) } } ∧
    exec (.verify b) s = .next { s.setFlag bootFlashStatusBusy true with
      boot := { s.boot with flashCmd := some (3, b2n b, 0) } }) ∧
  (∀ (s : State) (b : Bool) (k : Fin 8192), s.sound = true → s.regReach false = true → s.flag bootFlashStatusBusy = false →
    s.takesWrite .flash false none = false → ∀ c ∈ [Instr.eraseSlot b, Instr.program b k, Instr.verify b],
    ∃ t, exec c s = .next t ∧ t.fld bootFlashStatusResult = 2 ∧ t.flag bootFlashStatusDone = true ∧
      t.flag bootFlashStatusBusy = false ∧ t.boot.flash = s.boot.flash ∧
      (∀ f : Fld, f.key ≠ bootFlashStatus → t.fld f = s.fld f)) ∧
  (∀ (s : State) (b : Bool) (k : Fin 8192), s.flag bootFlashStatusBusy = true →
    ∀ c ∈ [Instr.eraseSlot b, Instr.program b k, Instr.verify b], exec c s = .next s) ∧
  (∀ (s : State) (slot blk : Nat), s.sound = true → s.boot.flashCmd = some (1, slot, blk) →
    ∃ t, exec (.flashOpDone false) s = .next t ∧ t.boot.flashCmd = none ∧ t.fld bootFlashStatusResult = 0 ∧
      t.flag bootFlashStatusDone = true ∧ t.flag bootFlashStatusBusy = false ∧
      (∀ w < slotWords, cellGet erased t.boot.flash (slot * slotWords + w) = erased) ∧
      (∀ q ∈ s.boot.flash, q.1 / slotWords ≠ slot → q ∈ t.boot.flash) ∧
      (∀ f : Fld, f.key ≠ bootFlashStatus → t.fld f = s.fld f)) ∧
  (∀ (s : State) (slot blk : Nat), s.sound = true → s.boot.flashCmd = some (2, slot, blk) →
    ∃ t, exec (.flashOpDone false) s = .next t ∧ t.fld bootFlashStatusResult = 0 ∧
      t.boot.flash = (List.range 512).foldl (fun m i =>
        cellPut erased m (slot * slotWords + blk * 512 + i) (s.reg (bootFlashBuf i))) s.boot.flash ∧
      t.flag bootFlashStatusBusy = false ∧ (∀ f : Fld, f.key ≠ bootFlashStatus → t.fld f = s.fld f)) ∧
  (∀ (s : State) (slot blk : Nat), s.sound = true → s.boot.flashCmd = some (3, slot, blk) →
    ∃ t, exec (.flashOpDone false) s = .next t ∧ t.boot.flash = s.boot.flash ∧
      t.fld bootFlashStatusVerifyReason = s.slotCheck (slot == 1) false ∧
      t.fld bootFlashStatusResult = (if s.slotCheck (slot == 1) false = 0 then 0 else 3) ∧
      (∀ f : Fld, f.key ≠ bootFlashStatus → t.fld f = s.fld f))


/-! ### Registers, features and shadows (00_scope, 19_register_map, 02_host_ports) -/

/-- Reads: an 8-byte read answers what the register shows and changes no other register (19_register_map R407 to R411); it
starts a peak again at the present value, while a 4-byte read changes nothing (R410). A function that is absent, or in an
FLR, or an LD without BAR2 (00_scope R9), answers Unsupported Request (02_host_ports R64); an access of a BAR that is not
aligned is a bad access, counted (R61); a read of TB_TIME_LO is that of the tide clock (11_tide_clock R258). REG commands:
one register is read or written as over the memory path, and answered; a count or an offset that is not good is answered
Invalid Input; before the cores are released, and in DEEP_SLEEP, a block other than PWR, HSW and TB answers Busy over
SMBus or I3C (R408, R412). -/
def Obligations.RegisterReadsAndCommands : Prop :=
  (∀ (s : State) (path : RegPath) (off : Nat), s.sound = true → s.pathOpen path = true → s.regReach (shoreOff off) = true →
    off % 8 = 0 → off ≠ tbTimeLo →
    ∃ t, exec (.readClear (.priv path) off .qword) s = .next t ∧ t.out = .reply "READ" [s.viewPriv off] :: s.out ∧
      (∀ k, k ≠ off → t.reg k = s.reg k) ∧ t.dram = s.dram) ∧
  (∀ (s : State) (path : RegPath) (p : Fin 16), s.sound = true → s.pathOpen path = true → s.regReach false = true →
    s.heldAway (some (portHalf p)) = false →
    ∃ t, exec (.readClear (.priv path) (hpReqOcc p) .qword) s = .next t ∧
      t.fld (hpReqOccPeak p) = s.fld (hpReqOccInflight p) ∧ t.fld (hpReqOccInflight p) = s.fld (hpReqOccInflight p)) ∧
  (∀ (s : State) (path : RegPath) (lanes : Lanes) (off : Nat), pathForm path lanes = true → lanes ≠ .qword →
    s.pathOpen path = true → s.regReach (shoreOff off) = true → off % 8 = 0 → off ≠ tbTimeLo →
    exec (.readClear (.priv path) off lanes) s = .next (s.emit (.reply "READ" [laneOf lanes (s.viewPriv off)]))) ∧
  (∀ (s : State) (p : Fin 16) (ld : Fin 17) (off : Nat) (lanes : Lanes), s.sound = true → s.present p ld = true →
    (s.func (fnOf p ld)).flr = false → off % 8 = 0 →
    ∃ t, exec (.readClear (.bar0 p ld) off lanes) s = .next t ∧
      t.out = .readData (fnOf p ld) (BitVec.ofNat 64 (laneOf lanes (s.viewBar0 (fnOf p ld) off))) :: s.out) ∧
  (∀ (s : State) (p : Fin 16) (ld : Fin 17) (off : Nat) (lanes : Lanes),
    (s.present p ld = false ∨ (s.func (fnOf p ld)).flr = true) → off % 8 = 0 →
    exec (.readClear (.bar0 p ld) off lanes) s = .next (s.emit (.unsupported (fnOf p ld)))) ∧
  (∀ (s : State) (p n : Fin 16) (off : Nat) (lanes : Lanes), off % 8 = 0 → s.pathServed (.bar2Owner p n) = false →
    exec (.readClear (.priv (.bar2Owner p n)) off lanes) s = .next (s.emit (.unsupported (fnOf p n)))) ∧
  (∀ (s : State) (view : RegView) (p ld off : Nat) (v : Word) (lanes : Lanes), off % 8 ≠ 0 → viewFunction view = some (p, ld) →
    exec (.readClear view off lanes) s = .next (s.badAccess p ld true) ∧
    exec (.registerWrite view off v lanes) s = .next (s.badAccess p ld false)) ∧
  (∀ (s : State) (path : RegPath), s.sound = true → s.pathOpen path = true → s.regReach true = true →
    ∃ t, exec (.readClear (.priv path) tbTimeLo .qword) s = .next t ∧
      t.out = .reply "READ" [s.tide.master / 2 ^ 24 % 2 ^ 64] :: s.out ∧
      t.fld tbTimeHiNsHi = s.tide.master / 2 ^ 88 % 2 ^ 16 ∧ t.tide = s.tide ∧ t.dram = s.dram) ∧
  (∀ (s : State) (path : RegPath) (off : Nat), s.sound = true → regPath path = true → s.pathOpen path = true → s.regsShut = false → s.phase ≠ 9 →
    s.regArgsOk off 1 = true → off ≠ tbTimeLo →
    ∃ t, exec (.regRead path off 1) s = .next t ∧ t.out = .reply "REG_READ" [s.viewPriv off] :: s.out ∧ t.dram = s.dram) ∧
  (∀ (s : State) (path : RegPath) (off : Nat) (v : Word), regPath path = true → s.pathOpen path = true → s.regsShut = false → s.phase ≠ 9 →
    s.regArgsOk off 1 = true →
    exec (.regWrite path off 1 [v]) s = .next ((s.writePriv path off v.toNat .qword).emit (.reply "REG_WRITE" []))) ∧
  (∀ (s : State) (path : RegPath) (off n : Nat), s.sound = true → regPath path = true → s.pathOpen path = true → s.regsShut = false → s.phase ≠ 9 →
    s.regArgsOk off n = true → ∃ t vs, exec (.regRead path off n) s = .next t ∧ vs.length = n ∧
      Out.reply "REG_READ" vs ∈ t.out) ∧
  (∀ (s : State) (path : RegPath) (off n : Nat) (vs : List Word), regPath path = true → s.pathOpen path = true → s.regsShut = false → s.phase ≠ 9 →
    s.regArgsOk off n = false →
    exec (.regRead path off n) s = .next (s.emit (.reply "INVALID_INPUT" [])) ∧
    exec (.regWrite path off n vs) s = .next (s.emit (.reply "INVALID_INPUT" []))) ∧
  (∀ (s : State) (off : Nat) (v : Word), s.regsShut = true → s.power.auxGood = true → s.regArgsOk off 1 = true →
    shoreOff off = false →
    exec (.regRead .mctpSmbus off 1) s = .next (s.emit (.reply "BUSY" [])) ∧
    exec (.regWrite .mctpSmbus off 1 [v]) s = .next (s.emit (.reply "BUSY" [])))

/-- Writes by access code: a lock is set by 1 and by nothing cleared (R13, 17_boot R388); a locked field keeps its value,
an unlocked one takes what it has an encoding for (00_scope R14, R17); an event is cleared by 1 (R16). Writes that are
ignored: those to a register while the registers are shut (R412) or outside ACTIVE and DONE (17_boot R380), those to a
sealed commit group, which are shown in SEALED_WRITE (11_tide_clock R271), and those to an absent function. -/
def Obligations.RegisterWrites : Prop :=
  (∀ (s : State) (path : RegPath) (v : Word), s.sound = true → s.pathOpen path = true → s.takesWrite .plain false none = true →
    ∃ t, exec (.registerWrite (.priv path) bootLock v .qword) s = .next t ∧
      t.flag bootLockLock = (s.flag bootLockLock || bitAt v.toNat 0) ∧ (∀ k, k ≠ bootLock → t.reg k = s.reg k) ∧
      t.dram = s.dram) ∧
  (∀ (s : State) (path : RegPath) (v : Word), s.sound = true → s.pathOpen path = true → s.takesWrite .plain false none = true →
    ∃ t, exec (.registerWrite (.priv path) mapCfg v .qword) s = .next t ∧
      t.fld mapCfgPinMib =
        (if s.flag mapLockLock then s.fld mapCfgPinMib
          else if 16 < v.toNat % 32 then s.fld mapCfgPinMib else v.toNat % 32) ∧
      (∀ k, k ≠ mapCfg → t.reg k = s.reg k)) ∧
  (∀ (s : State) (path : RegPath) (v : Word), s.sound = true → s.pathOpen path = true → s.takesWrite .plain true none = true →
    ∃ t, exec (.registerWrite (.priv path) pwrEvt v .qword) s = .next t ∧
      (∀ f ∈ [pwrEvtSupplyWarn, pwrEvtSupplyDip, pwrEvtVrNoAck, pwrEvtRailFault],
        t.flag f = (s.flag f && !bitAt v.toNat f.lsb)) ∧
      (∀ k, k ≠ pwrEvt → t.reg k = s.reg k)) ∧
  (∀ (s : State) (path : RegPath) (off : Nat) (v : Word) (lanes : Lanes), s.regsShut = true → shoreOff off = false → off % 8 = 0 →
    exec (.registerWrite (.priv path) off v lanes) s = .next s) ∧
  (∀ (s : State) (path : RegPath) (off : Nat) (r : RegRow) (i : Nat) (v : Word), privRow off = some (r, i) →
    off % 8 = 0 → regKind r.name = .plain → s.regsShut = false → s.phase ≠ 7 → s.phase ≠ 8 →
    exec (.registerWrite (.priv path) off v .qword) s = .next s) ∧
  (∀ (s : State) (path : RegPath) (off g : Nat) (r : RegRow) (i : Nat) (v : Word), privRow off = some (r, i) → off % 8 = 0 →
    r.name ≠ .bootFlashCtrl → (s.isS && pairReg off) = false → s.pathOpen path = true →
    s.takesWrite (regKind r.name) (shoreOff off) (heldIn r.name i) = true → groupOf off = some g →
    s.bit topCommitStatusSealed g = true →
    exec (.registerWrite (.priv path) off v .qword) s = .next (s.setFlag topCommitStatusSealedWrite true)) ∧
  (∀ (s : State) (p : Fin 16) (ld : Fin 17) (off : Nat) (v : Word) (lanes : Lanes),
    off % 8 = 0 →
    (s.present p ld = false ∨ (s.func (fnOf p ld)).flr = true) → exec (.registerWrite (.bar0 p ld) off v lanes) s = .next s)

/-- The fabric manager's features: LOCK over one of its paths fixes the accepted features that are offered, and messages
go to that path (02_host_ports R72, R74; 19_register_map R416); BAR2 of an owner does not lock them, nor does a second
write. REVERT: the shadows of an unsealed group become the values in effect and are no longer dirty; that of the tide
tables, or of a sealed group, is ignored and shown (R415). -/
def Obligations.ManagerFeaturesAndShadows : Prop :=
  (∀ (s : State) (path : RegPath), s.sound = true → s.pathOpen path = true → s.takesWrite .plain false none = true →
    ownerPath path = false → s.flag topFmFeatureCtrlLock = false →
    ∃ t, exec (.fmFeatureLock path) s = .next t ∧ t.flag topFmFeatureCtrlLock = true ∧ t.fmPath = some path ∧
      t.fld (topFmFeatureAcceptedAccepted 0) =
        (if bitAt (s.fld (topFmFeatureAcceptedAccepted 0) &&& s.fld (topFmFeatureOfferedOffered 0)) 0 then
            s.fld (topFmFeatureAcceptedAccepted 0) &&& s.fld (topFmFeatureOfferedOffered 0)
          else withBits (s.fld (topFmFeatureAcceptedAccepted 0) &&& s.fld (topFmFeatureOfferedOffered 0)) 2 1 0) ∧
      (∀ k ∈ [1, 2, 3], t.fld (topFmFeatureAcceptedAccepted k) = 0) ∧ t.dram = s.dram ∧ t.out = s.out) ∧
  (∀ (s : State) (path : RegPath), (ownerPath path = true ∨ s.flag topFmFeatureCtrlLock = true) →
    exec (.fmFeatureLock path) s = .next s) ∧
  (∀ (s : State) (g : Nat), s.sound = true → s.takesWrite .plain false none = true → (g = 1 ∨ g = 3) →
    s.bit topCommitStatusSealed g = false →
    ∃ t, exec (.shadowRevert (BitVec.ofNat 64 (2 ^ g))) s = .next t ∧ t.bit topShadowStatusDirty g = false ∧
      (∀ k, k < bar0Base → groupOf k = some g → t.reg k = s.reg (k + effBase)) ∧
      (∀ k, effBase ≤ k → t.reg k = s.reg k) ∧ t.dram = s.dram) ∧
  (∀ s : State, s.sound = true → s.takesWrite .plain false none = true → s.bit topCommitStatusSealed 4 = false →
    ∃ t, exec (.shadowRevert 16) s = .next t ∧ t.bit topShadowStatusDirty 4 = false ∧ t.fld pwrTargetDevice = 0 ∧
      t.reg pwrFmVote0 = s.reg (pwrFmVote0 + effBase) ∧ t.reg pwrFmVote1 = s.reg (pwrFmVote1 + effBase)) ∧
  (∀ s : State, s.sound = true → s.takesWrite .plain false none = true → s.bit topCommitStatusSealed 0 = false →
    (∀ q ∈ s.maps, q.1 < 1024) →
    ∃ t, exec (.shadowRevert 1) s = .next t ∧ t.bit topShadowStatusDirty 0 = false ∧
      (∀ k, k < bar0Base → groupOf k = some 0 → t.reg k = s.reg (k + effBase))) ∧
  (∀ (s : State) (g : Nat), s.takesWrite .plain false none = true → g < 5 → (g = 2 ∨ s.bit topCommitStatusSealed g = true) →
    exec (.shadowRevert (BitVec.ofNat 64 (2 ^ g))) s = .next (s.setFlag topShadowStatusRevertIgnored true))

/-! ### Performance counters (18_pmu) -/

/-- The registers of the counter unit: a freeze stops and starts all counters at once and changes no count (R399); a control
write changes no count (R397); a counter takes the value written (R396); sampling takes a period other than 0, and its
enabling draws the count (R401). -/
def Obligations.CounterUnitRegisters : Prop :=
  (∀ (s : State) (v : Word), s.sound = true → s.takesWrite .plain false none = true →
    ∃ t, exec (.pmuFreezeWrite v) s = .next t ∧ t.flag pmuGlobalFreeze = bitAt v.toNat 0 ∧
      (∀ k, k ≠ pmuGlobal → t.reg k = s.reg k) ∧ t.pmu = s.pmu) ∧
  (∀ (s : State) (h : Half) (n : Fin 64) (v : Word), s.sound = true → s.takesWrite .plain false (some h) = true →
    ∃ t, exec (.pmuCtlWrite h n v) s = .next t ∧ (∀ lsb w, lsb + w ≤ 29 →
        bitsOf (t.reg (pmuCtl h.idx n)).toNat lsb w = bitsOf v.toNat lsb w) ∧
      t.fld (pmuCntCount h.idx n) = s.fld (pmuCntCount h.idx n) ∧ (∀ k, k ≠ pmuCtl h.idx n → t.reg k = s.reg k)) ∧
  (∀ (s : State) (h : Half) (n : Fin 64) (v : Word), s.sound = true → s.takesWrite .plain false (some h) = true →
    ∃ t, exec (.pmuCounterWrite h false n v) s = .next t ∧ t.fld (pmuCntCount h.idx n) = v.toNat % 2 ^ 48 ∧
      (∀ k, k ≠ pmuCnt h.idx n → t.reg k = s.reg k)) ∧
  (∀ (s : State) (h : Half) (n : Fin 64) (v : Word), s.sound = true → s.takesWrite .plain false (some h) = true → n.val < 8 →
    ∃ t, exec (.pmuCounterWrite h true n v) s = .next t ∧ t.fld (pmuFixCount h.idx n) = v.toNat % 2 ^ 48 ∧
      (∀ k, k ≠ pmuFix h.idx n → t.reg k = s.reg k)) ∧
  (∀ (s : State) (h : Half) (v : Word), s.sound = true → s.takesWrite .plain false (some h) = true →
    ∃ t, exec (.samplingEnable h v) s = .next t ∧ t.flag (pmuSmpCfgEnable h.idx) = bitAt v.toNat 0 ∧
      t.fld (pmuSmpCfgPeriod h.idx) =
        (if bitsOf v.toNat 2 24 = 0 then s.fld (pmuSmpCfgPeriod h.idx) else bitsOf v.toNat 2 24) ∧
      ((s.flag (pmuSmpCfgEnable h.idx) = true ∨ bitAt v.toNat 0 = false) → t.pmu = s.pmu) ∧
      (s.flag (pmuSmpCfgEnable h.idx) = false → bitAt v.toNat 0 = true → ∃ n : Nat, (t.pmu.get h).count =
        t.fld (pmuSmpCfgPeriod h.idx) + n % (t.fld (pmuSmpCfgWindow h.idx) + 1)) ∧
      (∀ k, k ≠ pmuSmpCfg h.idx → t.reg k = s.reg k))

/-! ### Host ports and functions (02_host_ports) -/

/-- Training: the highest rate that both ends and MAX_RATE allow and the widest width that the good lanes support are shown
with the link up in L0 (R49, R51; 16_power R355); a host without flit mode, or no rate or width in common, fails (R50). Links:
a replay is counted (R52); a lost link leaves the port in Detect with LINK_UP 0 and its IDE keys gone (R67, R68); a power
state of the link is held, L0 once its domains run (16_power R354, R355); PERST_N asserted takes the link down, and released
it wakes the device from DEEP_SLEEP (16_power Table 16.8). The model's choices that it rests on: log 86. -/
def Obligations.PortLinks : Prop :=
  (∀ (s : State) (p : Fin 16) (lo : Bool) (hr eq : BitVec 7) (gl : BitVec 16) (r w : Nat), s.sound = true → s.mayTrain p = true →
    s.portRate p hr.toNat eq.toNat = some r → widestPort (cfgLanes (s.fld (hpPortCfgWidth p))) gl.toNat = some w →
    (s.updPort p fun q => { q with link := .recovery }).portDomainsRun p = true →
    ∃ t, exec (.portLinkTrain p true lo hr eq gl) s = .next t ∧ (t.port p).link = .l0 ∧ (t.port p).lastRate = some r ∧
      t.fld (hpPortStatusCurRate p) = r ∧ t.fld (hpPortStatusCurWidth p) = w ∧ t.flag (hpPortStatusLinkUp p) = true ∧
      (s.flag (hpPortStatusLinkUp p) = false → t.flag (hpEventLinkUp p) = true) ∧ t.dram = s.dram ∧ t.reqs = s.reqs) ∧
  (∀ (s : State) (p : Fin 16) (lo : Bool) (hr eq : BitVec 7) (gl : BitVec 16), s.mayTrain p = true →
    exec (.portLinkTrain p false lo hr eq gl) s = .next (((s.setFld (hpPortStatusTrainFail p) 1).updPort p fun q =>
      { q with link := .detect }).say cHpFlitModeUnsup clsCe (uPort p))) ∧
  (∀ (s : State) (p : Fin 16) (lo : Bool) (hr eq : BitVec 7) (gl : BitVec 16), s.mayTrain p = true →
    (s.portRate p hr.toNat eq.toNat = none ∨ widestPort (cfgLanes (s.fld (hpPortCfgWidth p))) gl.toNat = none) →
    exec (.portLinkTrain p true lo hr eq gl) s = .next (s.setFld (hpPortStatusTrainFail p) 2)) ∧
  (∀ (s : State) (p : Fin 16) (touched : List (Fin 65536)), s.sound = true → s.flag (hpPortStatusLinkUp p) = true →
    ∃ t, exec (.hostLinkReplay p touched) s = .next t ∧
      t.fld (hpReplayCntReplays p) = satAdd 32 (s.fld (hpReplayCntReplays p)) 1 ∧ t.reqs.length = s.reqs.length ∧ t.dram = s.dram) ∧
  (∀ (s : State) (p : Fin 16), s.sound = true → s.portOn p = true →
    ∃ t, exec (.linkLoss p) s = .next t ∧ exec (.hostLinkStateChange p .detect) s =
        (if s.flag (hpPortStatusLinkUp p) then .next t else .next s) ∧
      (t.port p).link = .detect ∧ (t.port p).ideKeys = [] ∧ (t.port p).active = true ∧ t.flag (hpPortStatusLinkUp p) = false ∧
      (∀ q, q ≠ p.val → t.port q = s.port q)) ∧
  (∀ (s : State) (p : Fin 16) (new : LinkState), s.portOn p = true → s.flag (hpPortStatusLinkUp p) = true →
    (new = .recovery ∨ new = .l1 ∨ new = .l2 ∨ ((new = .l0 ∨ new = .l0p) ∧
      (s.portDomainsRun p = true ∨ (s.port p).link = .l0 ∨ (s.port p).link = .l0p))) →
    exec (.hostLinkStateChange p new) s = .next (s.updPort p fun q => { q with link := new })) ∧
  (∀ (s : State) (p : Fin 16) (new : LinkState), s.portOn p = true → s.flag (hpPortStatusLinkUp p) = true →
    (new = .l0 ∨ new = .l0p) → s.portDomainsRun p = false → (s.port p).link ≠ .l0 → (s.port p).link ≠ .l0p →
    exec (.hostLinkStateChange p new) s = .next (s.updPort p fun q => { q with link := .recovery })) ∧
  (∀ (s : State) (p : Fin 16), s.sound = true → ∃ t, exec (.perstAssert p) s = .next t ∧ (t.port p).perst = true ∧
      t.flag (hpEventPerst p) = true ∧ (s.portOn p = true → (t.port p).link = .detect) ∧
      (∀ q, q ≠ p.val → t.port q = s.port q)) ∧
  (∀ (s : State) (p : Fin 16), s.sound = true → (s.port p).perst = true →
    ∃ t, exec (.perstRelease p) s = .next t ∧ (t.port p).perst = false ∧
      (s.portOn p = true → s.flag pwrCfgWakePerstEn = true → s.fld pwrStatusDeviceState = 2 →
        t.fld pwrStatusDeviceState = 3 ∧ t.fld pwrStatusLastWake = 1))

/-- Resets of a function: an FLR ends its jobs and quarantines the tags of its reads (R64, R65); its end returns
configuration space and BAR0, but for the abort logs, to reset (Table 2.9); Bus Master Enable cleared ends jobs, and set again
lets the messages that wait, whose vectors are not masked, leave (R66). -/
def Obligations.FunctionResets : Prop :=
  (∀ (s : State) (p : Fin 16) (ld : Fin 17), s.present p ld = true → (s.func (fnOf p ld)).flr = false →
    (∃ t, exec (.flrStart p ld) s = .next t ∧ t.jobs = s.jobs.filter (fun j => j.fn != fnOf p ld) ∧
      t.funcs = cellPut {} s.funcs (fnOf p ld) { s.func (fnOf p ld) with
        flr := true, bme := false, quarantined := (s.func (fnOf p ld)).quarantined ++ (s.func (fnOf p ld)).tags, tags := [] }) ∧
    (∃ t, exec (.bmeClear p ld) s = .next t ∧ t.jobs = s.jobs.filter (fun j => j.fn != fnOf p ld) ∧
      t.funcs = cellPut {} s.funcs (fnOf p ld) { s.func (fnOf p ld) with
        bme := false, quarantined := (s.func (fnOf p ld)).quarantined ++ (s.func (fnOf p ld)).tags, tags := [] }) ∧
    (∃ t, exec (.bmeSet p ld) s = .next t ∧ t.jobs = s.jobs ∧
      t.funcs = cellPut {} s.funcs (fnOf p ld) { s.func (fnOf p ld) with bme := true } ∧
      (s.sound = true → ∀ v < 64, s.bit (msixPbaPending (fnOf p ld)) v = true → s.flag (msixDataMask (fnOf p ld) v) = false →
        Out.msix (fnOf p ld) v ∈ t.out ∧ t.bit (msixPbaPending (fnOf p ld)) v = false))) ∧
  (∀ (s : State) (p : Fin 16) (ld : Fin 17), s.sound = true → (s.func (fnOf p ld)).flr = true →
    ∃ t, exec (.flrDone p ld) s = .next t ∧ t.flag (hpEventFlrDone p) = true ∧
      t.funcs = cellPut {} s.funcs (fnOf p ld)
        { quarantined := (s.func (fnOf p ld)).quarantined
          bar2 := ld.val == 16 || s.effFlag (hpLdCfgPrivOwner p ld) } ∧
      (∀ off < 0x100000000, (off < 0x2000 ∨ 0x3000 ≤ off) →
        t.reg (bar0Base * (1 + fnOf p ld) + off) = regReset (bar0Base * (1 + fnOf p ld) + off)) ∧
      t.hdm = s.hdm ∧ t.ports = s.ports)

/-- Completions: one of a quarantined tag is discarded and frees the tag (R65); a timeout frees it too, and ends the job whose
read was outstanding with OFL_DMA_ERR at a place that the spec leaves open (14_offload Table 14.4, Table 14.5). Configuration
space: a BAR dword written with all ones is kept and read back as its size says (R58); a bad access is counted and a bad read
answered Unsupported Request (R61); DOE discovery and CDAT are answered (R53, R57); during an FLR a configuration request is
answered by a retry (R64). The model's choices that it rests on: logs 5, 87, 88. -/
def Obligations.CompletionsAndConfiguration : Prop :=
  (∀ (s : State) (p : Fin 16) (ld : Fin 17) (tag : Nat) (bs : List Byte),
    exec (.cxlioCompletion p ld tag bs) s = .next (s.updFunc (fnOf p ld) fun f =>
      { f with quarantined := f.quarantined.filter (· != tag) })) ∧
  (∀ (s : State) (p : Fin 16) (ld : Fin 17) (tag : Nat), (s.func (fnOf p ld)).quarantined.contains tag = true →
    exec (.cxlioCompletionTimeout p ld tag) s = .next (s.updFunc (fnOf p ld) fun f =>
      { f with quarantined := f.quarantined.filter (· != tag) })) ∧
  (∀ (s : State) (p : Fin 16) (ld : Fin 17) (tag : Nat) (j : Job), s.sound = true →
    (s.func (fnOf p ld)).quarantined.contains tag = false →
    s.jobs.find? (fun j => j.fn == fnOf p ld && j.rtag == some tag && j.status.isNone) = some j →
    ∃ t a b v, exec (.cxlioCompletionTimeout p ld tag) s = .next t ∧ a ≤ j.len ∧ b ≤ j.len ∧
      t.jobs = s.jobs.map (fun (x : Job) =>
        if x == j then { x with status := some 7, bytesOut := a, consumed := b, check := v } else x) ∧ t.regs = s.regs) ∧
  (∀ (s : State) (p : Fin 16) (ld : Fin 17), s.present p ld = true → (s.func (fnOf p ld)).flr = false →
    (∀ bar : Fin 6, exec (.barSizingWrite p ld bar) s = .next ((s.updFunc (fnOf p ld) fun f =>
        { f with bars := setAt f.bars bar (barOnes (s.func (fnOf p ld)).bar2 bar) }).emit
          (.readData (fnOf p ld) ((barOnes (s.func (fnOf p ld)).bar2 bar).setWidth 64)))) ∧
    (∀ i : BitVec 8, exec (.doeDiscovery p ld i) s = .next (s.emit (.reply "DOE_DISCOVERY" (doeProtocol i.toNat)))) ∧
    exec (.doeCdatRead p ld) s = .next (s.emit (.reply "CDAT" (if ld.val = 16 then [] else s.cdat p ld)))) ∧
  (∀ (s : State) (p : Fin 16) (ld : Fin 17), s.present p ld = true →
    exec (.barBadAccess p ld true) s = .next ((s.count (hpErrCntBadAccess p) 1).emit (.unsupported (fnOf p ld))) ∧
    exec (.barBadAccess p ld false) s = .next (s.count (hpErrCntBadAccess p) 1)) ∧
  (∀ (s : State) (p : Fin 16) (ld : Fin 17) (bar : Fin 6) (i : BitVec 8), s.present p ld = true →
    (s.func (fnOf p ld)).flr = true →
    ∀ c ∈ [Instr.flrStart p ld, .bmeClear p ld, .bmeSet p ld, .barSizingWrite p ld bar, .doeDiscovery p ld i, .doeCdatRead p ld],
      exec c s = .next (s.emit (.retryLater (fnOf p ld)))) ∧
  (barOnes true 0 = 0xFFFF0004 ∧ barOnes true 2 = 0xF0000004 ∧ barOnes false 2 = 0)

/-- IDE keys and features: a key is programmed in its stream, key set and direction, and a set with both keys goes into
use, Secure (08_protection Table 8.8); FEATURE_CTRL.LOCK fixes what is accepted, offered, and has its prerequisites (R72).
HDM decoders (03_domains R76): a commit with supported ways and granularity covers DPA after the decoders below it; any
other gets Error Not Committed. -/
def Obligations.IdeFeaturesAndDecoders : Prop :=
  (∀ (s : State) (p : Fin 16) (mem set tx skid : Bool) (key : BitVec 256), s.present p 16 = true →
    (s.func (fnOf p 16)).flr = false →
    exec (.ideKmKeyProg p mem set tx skid key) s = .next (s.updPort p fun q => { q with
      ideKeys := q.ideKeys.filter (fun x => x.1 != 4 * b2n mem + 2 * b2n set + b2n tx) ++
        [(4 * b2n mem + 2 * b2n set + b2n tx, key)]
      ideSkid := if mem then skid else q.ideSkid })) ∧
  (∀ (s : State) (p : Fin 16) (mem set : Bool), s.sound = true → s.present p 16 = true → (s.func (fnOf p 16)).flr = false →
    (s.port p).ideState.length = 2 → (s.port p).ideSet.length = 2 →
    (∀ tx : Bool, (s.port p).ideKeys.any (fun k => k.1 == 4 * b2n mem + 2 * b2n set + b2n tx) = true) →
    ∃ t, exec (.ideKmKSetGo p mem set) s = .next t ∧ nth 0 (t.port p).ideState (b2n mem) = 1 ∧
      nth 0 (t.port p).ideSet (b2n mem) = b2n set ∧ (t.port p).ideKeys = (s.port p).ideKeys ∧ t.regs = s.regs) ∧
  (∀ (s : State) (p : Fin 16) (ld : Fin 17), s.sound = true → s.present p ld = true → (s.func (fnOf p ld)).flr = false →
    s.flag (featureCtrlLock (fnOf p ld)) = false →
    ∃ t, exec (.featureLock p ld) s = .next t ∧ t.flag (featureCtrlLock (fnOf p ld)) = true ∧
      t.funcs = cellPut {} s.funcs (fnOf p ld) { s.func (fnOf p ld) with
        features := effectiveSet (s.fld (featureAcceptedAccepted (fnOf p ld) 0)) (s.offered (fnOf p ld)) } ∧
      t.fld (featureAcceptedAccepted (fnOf p ld) 0) =
        effectiveSet (s.fld (featureAcceptedAccepted (fnOf p ld) 0)) (s.offered (fnOf p ld))) ∧
  (∀ a o : Nat, bitAt (effectiveSet a o) 1 = (bitAt a 1 && bitAt o 1 && bitAt a 0 && bitAt o 0)) ∧
  (∀ (s : State) (p : Fin 16) (id : Fin 4096) (i : Fin 8) (base size skip w g : Nat) (bi : Bool), s.gfam p = false →
    id.val < s.fld (hpPortCfgLdCount p) → s.present p (id.val % 17) = true → (s.func (fnOf p id)).flr = false →
    w ∈ [1, 2, 3, 4, 6, 8, 12, 16] → g ∈ [256, 512, 1024, 2048, 4096, 8192, 16384] →
    exec (.hdmDecoderCommit p id i base size skip w g bi) s = .next { s with
      hdm := cellPut {} s.hdm (hdmKey p id i)
        { committed := true, error := false, base, size, dpa := s.hdmNext p id i + skip, ways := w, gran := g, bi } }) ∧
  (∀ (s : State) (p : Fin 16) (id : Fin 4096) (i : Fin 8) (base size skip w g : Nat) (bi : Bool), s.gfam p = true →
    id.val ≠ 0xFFF → s.present p 16 = true → w ∈ [1, 2, 3, 4, 6, 8, 12, 16] → g ∈ [256, 512, 1024, 2048, 4096, 8192, 16384] →
    exec (.hdmDecoderCommit p id i base size skip w g bi) s = .next { s with
      hdm := cellPut {} s.hdm (hdmKey p id i)
        { committed := true, error := false, base, size, dpa := s.hdmNext p id i + skip, ways := w, gran := g, bi } }) ∧
  (∀ (s : State) (p : Fin 16) (id : Fin 4096) (i : Fin 8) (base size skip w g : Nat) (bi : Bool), s.gfam p = false →
    id.val < s.fld (hpPortCfgLdCount p) → s.present p (id.val % 17) = true → (s.func (fnOf p id)).flr = false →
    (w ∉ [1, 2, 3, 4, 6, 8, 12, 16] ∨ g ∉ [256, 512, 1024, 2048, 4096, 8192, 16384]) →
    exec (.hdmDecoderCommit p id i base size skip w g bi) s = .next { s with
      hdm := cellPut {} s.hdm (hdmKey p id i)
        { cellGet ({} : HdmDecoder) s.hdm (hdmKey p id i) with committed := false, error := true } }) ∧
  (∀ (s : State) (p : Fin 16) (id : Fin 4096) (i : Fin 8) (base size skip w g : Nat) (bi : Bool), s.gfam p = true →
    id.val ≠ 0xFFF → s.present p 16 = true →
    (w ∉ [1, 2, 3, 4, 6, 8, 12, 16] ∨ g ∉ [256, 512, 1024, 2048, 4096, 8192, 16384]) →
    exec (.hdmDecoderCommit p id i base size skip w g bi) s = .next { s with
      hdm := cellPut {} s.hdm (hdmKey p id i)
        { cellGet ({} : HdmDecoder) s.hdm (hdmKey p id i) with committed := false, error := true } })


/-! ### The request path (03_domains, 04_request) -/

/-- A read or a write of a host that holds a credit and decodes to an active domain it owns stands at the end of the requests,
with what it carries: on its way to its home half, in its domain's queue, or waiting for an entry (04_request R104, R106,
R115; 03_domains R75; 01_architecture R22). The model's choices that it rests on: log 11. -/
def Obligations.RequestArrival : Prop :=
  ∀ (s : State) (p : Fin 16) (id : Fin 4096) (hpa d line dpa : Nat) (tag : BitVec 16) (want : Fin 3) (stage : Fin 11)
    (parity : Fin 5), s.sound = true → d < 1024 → s.portUp p = true → s.fenced (uHalf (portHalf p).idx) = false →
    s.hasCredit p 0 = true → s.hasCredit p 1 = true → (s.gfam p = true → s.knownSpid p id = true) →
    s.decodeHpa p id hpa = .ok d line dpa → s.df = false → s.fenced (uHalf (s.home d).idx) = false → parity.val ≤ 3 →
    (∃ t r, exec (.memRd p id hpa tag want stage parity) s = .next t ∧ t.reqs = s.reqs ++ [r] ∧ r.org = .host p id ∧
      r.tag = tag.toNat ∧ r.kind = .rd ∧ r.hasDom = true ∧ r.dom = d ∧ r.line = line ∧ r.home = s.home d ∧
      (r.stage = .waitEntry ∨ r.stage = if s.home d = portHalf p then .queued else .cross) ∧ t.dram = s.dram) ∧
    (∃ t r, exec (.memInv p id hpa tag want) s = .next t ∧ t.reqs = s.reqs ++ [r] ∧ r.org = .host p id ∧
      r.tag = tag.toNat ∧ r.kind = .inv ∧ r.dom = d ∧ r.line = line ∧
      (r.stage = .waitEntry ∨ r.stage = if s.home d = portHalf p then .queued else .cross) ∧ t.dram = s.dram) ∧
    (∃ t r, exec (.memClnEvct p id hpa tag) s = .next t ∧ t.reqs = s.reqs ++ [r] ∧ r.org = .host p id ∧
      r.tag = tag.toNat ∧ r.kind = .clnEvct ∧ r.dom = d ∧ r.line = line ∧
      (r.stage = .waitEntry ∨ r.stage = if s.home d = portHalf p then .queued else .cross) ∧ t.dram = s.dram) ∧
    (∀ (data : Line) (poison : Bool),
      ∃ t r, exec (.memWr p id hpa tag want data poison stage parity) s = .next t ∧ t.reqs = s.reqs ++ [r] ∧
        r.org = .host p id ∧ r.tag = tag.toNat ∧ r.kind = .wr ∧ r.data = data ∧ r.enables = allBytes ∧ r.poison = poison ∧
        r.dom = d ∧ r.line = line ∧ (r.stage = .waitEntry ∨ r.stage = if s.home d = portHalf p then .queued else .cross) ∧
        t.dram = s.dram) ∧
    (∀ (data : Line) (enables : BitVec 64) (poison : Bool),
      ∃ t r, exec (.memWrPtl p id hpa tag want data enables poison stage parity) s = .next t ∧ t.reqs = s.reqs ++ [r] ∧
        r.org = .host p id ∧ r.tag = tag.toNat ∧ r.kind = .wrPtl ∧ r.data = data ∧ r.enables = enables ∧ r.poison = poison ∧
        r.dom = d ∧ r.line = line ∧ (r.stage = .waitEntry ∨ r.stage = if s.home d = portHalf p then .queued else .cross) ∧
        t.dram = s.dram)

/-- Messages that reach no domain: a speculative read has no effect (04_request Table 4.5); an unsupported message is counted
and answered by its kind; an address that no committed decoder covers, and an unknown source identity, are counted and get no
answer; a link that is not up takes none (03_domains Table 3.1; 02_host_ports R55). The first request that waits in a half
takes an entry that it may have, from the pool that R115 names, and stands at the end of the requests, where stage 2 sends it
(04_request R111, R115). The model's choices that it rests on: logs 105, 135, 137. -/
def Obligations.MessagesAndEntries : Prop :=
  (∀ (s : State) (p : Fin 16) (id : Fin 4096) (hpa : Nat) (tag : BitVec 16),
    exec (.memSpecRd p id hpa tag) s = .next s) ∧
  (∀ (s : State) (p : Fin 16) (id : Fin 4096) (tag : BitVec 16) (data : Bool), s.sound = true → s.portUp p = true →
    s.hasCredit p 0 = true → (s.gfam p = true → s.knownSpid p id = true) →
    ∃ t r, exec (.unsupportedMessage p id tag data) s = .next t ∧ t.reqs = s.reqs ++ [r] ∧
      r.org = .host p id ∧ r.tag = tag.toNat ∧ r.rpoison = data ∧ r.resp = (if data then .memData else .cmp) ∧
      r.hasDom = false ∧ (r.stage = .respond ∨ r.stage = .waitEntry) ∧
      t.fld rqErrCntUnsupOpcode = satAdd rqErrCntUnsupOpcode.width (s.fld rqErrCntUnsupOpcode) 1) ∧
  (∀ (s : State) (p : Fin 16) (id : Fin 4096) (tag : BitVec 16) (data : Bool), s.portUp p = true → s.hasCredit p 0 = true →
    s.gfam p = true → s.knownSpid p id = false →
    exec (.unsupportedMessage p id tag data) s = .next (s.count (hpErrCntUnknownSpid p) 1)) ∧
  (∀ (s : State) (p : Fin 16) (id : Fin 4096) (hpa : Nat) (tag : BitVec 16) (want : Fin 3) (stage : Fin 11), s.sound = true →
    s.portUp p = true → s.fenced (uHalf (portHalf p).idx) = false → s.hasCredit p 0 = true →
    (s.gfam p = true → s.knownSpid p id = true) → s.decodeHpa p id hpa = .undecoded →
    ∃ t, exec (.memRd p id hpa tag want stage 0) s = .next t ∧ t.reqs = s.reqs ∧ t.dram = s.dram ∧ t.out = s.out ∧
      t.fld (hpErrCntUndecoded p) = satAdd (hpErrCntUndecoded p).width (s.fld (hpErrCntUndecoded p)) 1 ∧
      (∀ f : Fld, f.key ≠ (hpErrCntUndecoded p).key → t.fld f = s.fld f)) ∧
  (∀ (s : State) (p : Fin 16) (id : Fin 4096) (hpa : Nat) (tag : BitVec 16) (want : Fin 3) (stage : Fin 11) (parity : Fin 5),
    s.portUp p = true → s.fenced (uHalf (portHalf p).idx) = false → s.hasCredit p 0 = true → s.gfam p = true →
    s.knownSpid p id = false →
    exec (.memRd p id hpa tag want stage parity) s = .next (s.count (hpErrCntUnknownSpid p) 1)) ∧
  (∀ (s : State) (p : Fin 16) (id : Fin 4096) (hpa : Nat) (tag : BitVec 16) (want : Fin 3) (stage : Fin 11) (parity : Fin 5),
    s.portUp p = false → exec (.memRd p id hpa tag want stage parity) s = .next s) ∧
  (∀ (s : State) (h : Half) (r : Req) (pool : Nat), s.sound = true → (r.hasDom = true → r.dom < 1024) →
     s.reqs.find? (fun q => q.stage == .waitEntry && q.ingress == h) = some r → s.poolFor r = some pool →
     ∃ t q, exec (.requestEntryGrant h) s = .next t ∧ t.reqs = s.reqs.erase r ++ [q] ∧ q.org = r.org ∧ q.tag = r.tag ∧
       q.kind = r.kind ∧ q.dom = r.dom ∧ q.line = r.line ∧ q.data = r.data ∧ q.pool = pool ∧ q.stage = r.first ∧ t.dram = s.dram)

/-- The map stage: the head of a domain's queue, a read of a page that was never written, is answered with zeros; a read of a
FRAME extent that waited at stage 5, and that nothing holds any longer, goes to the channel with the line's media address; a
parked read re-enters its channel's queue; a metadata line that comes back is in the cache (03_domains R87, R88, R93, R95;
04_request R104, R105; 09_qos R235). A write is complete when it has its entry in the channel's write buffer (04_request
R106), with its data, its byte enables and its poison, behind the older reads of its line (R110); nothing is written to DRAM
yet. The model's choices that it rests on: logs 31, 51, 116. -/
def Obligations.MapStageAndWriteBuffer : Prop :=
  (∀ (s u : State) (d : Fin 1024) (r : Req) (p id pick victim : Nat) (stage : Fin 11), s.sound = true →
    s.reqs.find? (fun q => q.hasDom && q.dom == d.val && q.stage == .queued) = some r → s.req r.rid = some r →
    r.kind = .rd → r.org = .host p id → s.shape d = some u → s.df = false → s.fenced (uHalf r.home.idx) = false →
    r.oldPage = none → s.stage5Before r = false → s.locked d (r.line / 64) = false →
    s.cached r.home (.desc d (r.line / 64 / 2048)) = true →
    ((s.ext d (r.line / 64 / 512)).kind = .unmapped ∨ (s.ext d (r.line / 64 / 512)).kind = .zero) →
    s.effFlag (domCtrlCoherence d) = false → s.mirReads d = true → s.listedLine d r.line = false →
    ∃ t q, exec (.domainQueueRelease d pick victim stage 0) s = .next t ∧ t.req r.rid = some q ∧ q.tag = r.tag ∧
      q.stage = s.answerStage r ∧ q.rdata = 0 ∧ q.rpoison = false ∧ t.reqs.length = s.reqs.length ∧ t.dram = s.dram) ∧
  (∀ (s : State) (rid : Fin 65536) (r : Req) (p id pick : Nat), s.sound = true → s.req rid = some r → r.hasDom = true →
    r.dom < 1024 → r.stage = .lockWait → r.kind = .rd → r.org = .host p id → s.df = false →
    s.fenced (uHalf r.home.idx) = false → r.oldPage = none → s.stage5Before r = false → s.locked r.dom (r.line / 64) = false →
    s.cached r.home (.desc r.dom (r.line / 64 / 2048)) = true → (s.ext r.dom (r.line / 64 / 512)).kind = .frame →
    s.effFlag (domCtrlCoherence r.dom) = false → s.mirReads r.dom = true → s.treeFenced r.dom r.line = false →
    s.serves (chanOf r.home (s.pageNow r.dom (r.line / 64)).addr) = true →
    s.readRoom (chanOf r.home (s.pageNow r.dom (r.line / 64)).addr) r = true →
    ∃ t q, exec (.pageLockGrant rid pick) s = .next t ∧ t.req rid = some q ∧ q.tag = r.tag ∧ q.stage = .channel ∧
      q.ma = (s.pageNow r.dom (r.line / 64)).addr * 4 + r.line % 64 ∧ t.reqs.length = s.reqs.length ∧ t.dram = s.dram) ∧
  (∀ (s : State) (c : Fin 24) (r : Req), s.sound = true →
    s.reqs.find? (fun q => q.stage == .parked && q.home == chanHalf c && chanOf q.home (q.ma / 4) == c.val
      && (if q.isRead then s.readRoom c q else s.wbRoom c q)) = some r →
    s.req r.rid = some r → r.kind = .rd → r.dom < 1024 → s.serves c = true →
    ∃ t, exec (.parkReentry c) s = .next t ∧ t.req r.rid = some { r with stage := .channel } ∧
      t.reqs.length = s.reqs.length ∧ t.dram = s.dram) ∧
  (∀ (s : State) (rid : Fin 65536) (r : Req) (victim : Nat) (errs : List Burst), s.sound = true → s.req rid = some r →
    r.dom < 1024 → r.hasDom = true → r.stage = .metaWait → r.kind = .rd → s.mcSets r.home ≠ 0 →
    s.cached r.home (.desc r.dom (r.line / 64 / 2048)) = false →
    ∃ t, exec (.metadataFill rid errs victim) s = .next t ∧
      t.cached r.home (.desc r.dom (r.line / 64 / 2048)) = true ∧ t.reqs.length = s.reqs.length) ∧
  (∀ (s : State) (rid : Fin 65536) (c : Fin 24) (r : Req) (p id : Nat), s.sound = true → s.req rid = some r →
     r.stage = .wbWait → r.org = .host p id → chanOf r.home (r.ma / 4) = c → s.serves c = true →
     s.mirroring r.dom = false → s.mState r.dom ≠ mPriSolo → s.writeBefore r = false → s.wbRoom c r = true →
     ∃ t q, exec (.writeBufferInsert rid) s = .next t ∧ t.req rid = some q ∧ q.tag = r.tag ∧ q.stage = s.answerStage r ∧
       t.reqs.length = s.reqs.length ∧ t.dram = s.dram ∧
       (t.chan c).wb = (s.chan c).wb ++ [{
         ma := r.ma, dom := r.dom, line := r.line, data := r.data, enables := r.enables, poison := r.poison, cls := r.cls
         color := r.color, external := r.poison, after := s.readsBefore r, since := s.now }] ∧
       (∀ x, x ≠ c.val → t.chan x = s.chan x))

/-- Back-invalidation (04_request R125 to R128). A message leaves against a credit of its host for a host that has not had it,
and without a credit it waits. A host's answer ends its part of the wait, and the host keeps the line SHARED only where it
says so; a line that nobody holds leaves the filter; a read that waited for the last answer alone goes on to its channel. A
timeout is counted and ends the host's part in the same way, and an OWNED line that is lost is listed as poisoned. A completed
request leaves against a credit of its host with its data, its poison and a load level, and its entry is free (R114, R117,
R129); without a credit it waits; a port that lost its link sends nothing, and the entry is free (02_host_ports R67). The
model's choices that it rests on: logs 32, 136, 137, 139. -/
def Obligations.BackInvalidationAndResponses : Prop :=
  (∀ (s : State) (h : Half) (d : Fin 1024) (line : Nat) (to_ : BiTarget) (e : SfEntry), s.sound = true →
    s.sfEntry d line = some e → e.half = h → e.unsent.contains to_.host = true → e.await ≠ [] →
    (0 < nth 0 (s.port (s.hostPort to_.host)).hostCredits 2 + to_.credits →
      ∃ t, exec (.bisnpSend h d line to_) s = .next t ∧ t.out = .biSnp to_.host d line e.biData :: s.out ∧
        t.sfEntry d line = some { e with unsent := e.unsent.filter (· != to_.host) } ∧ t.reqs = s.reqs ∧ t.dram = s.dram) ∧
    (nth 0 (s.port (s.hostPort to_.host)).hostCredits 2 + to_.credits = 0 →
      ∃ t, exec (.bisnpSend h d line to_) s = .next t ∧ t.out = s.out ∧ t.snoop = s.snoop ∧ t.reqs = s.reqs ∧
        t.dram = s.dram)) ∧
  (∀ (s : State) (p : Fin 16) (id : Fin 4096) (hpa d line dpa : Nat) (keeps : Fin 6) (e : SfEntry), s.sound = true →
    s.portUp p = true → keeps.val < 3 → s.decodeHpa p id hpa = .ok d line dpa → s.sfEntry d line = some e →
    e.await.contains (s.hostNum p id) = true →
    (e.await.filter (· != s.hostNum p id) ≠ [] ∨ ∀ r ∈ s.reqs, ¬ r.waitsAt5 (s.home d) d (line / 64)) →
    ∃ t, exec (.biRsp p id hpa keeps) s = .next t ∧ t.reqs = s.reqs ∧ t.dram = s.dram ∧ t.snoop = (s.updSf d line fun e => { e with
      await := e.await.filter (· != s.hostNum p id), unsent := e.unsent.filter (· != s.hostNum p id)
      evicting := e.evicting && !(e.await.filter (· != s.hostNum p id)).isEmpty
      owned := e.owned && !((e.await.filter (· != s.hostNum p id)).isEmpty && e.biData)
      holders := if keeps.val ≠ 0 ∧ e.biData = true ∧ e.evicting = false then e.holders
        else e.holders.filter (· != s.hostNum p id) }).snoop) ∧
  (∀ (s : State) (p : Fin 16) (id : Fin 4096) (hpa d line dpa pt ident : Nat) (keeps : Fin 6) (e : SfEntry) (r : Req),
    s.sound = true → s.portUp p = true → keeps.val < 3 → s.decodeHpa p id hpa = .ok d line dpa → s.sfEntry d line = some e →
    e.await.contains (s.hostNum p id) = true → e.await.filter (· != s.hostNum p id) = [] → (e.biData = true ∨ e.owned = false) →
    s.req r.rid = some r → r.hasDom = true → r.dom = d → d < 1024 → r.line = line → r.home = s.home d → r.stage = .biWait →
    r.kind = .rd → r.want = .none → r.org = .host pt ident → (∀ y ∈ s.reqs, y.waitsAt5 (s.home d) d (line / 64) → y = r) →
    s.df = false → s.fenced (uHalf r.home.idx) = false → r.oldPage = none → s.stage5Before r = false →
    s.locked d (line / 64) = false → s.cached r.home (.desc d (line / 64 / 2048)) = true →
    (s.ext d (line / 64 / 512)).kind = .frame → s.mirReads d = true → s.treeFenced d line = false →
    s.serves (chanOf r.home (s.pageNow d (line / 64)).addr) = true →
    s.readRoom (chanOf r.home (s.pageNow d (line / 64)).addr) r = true →
    ∃ t q, exec (.biRsp p id hpa keeps) s = .next t ∧ t.req r.rid = some q ∧ q.tag = r.tag ∧ q.stage = .channel ∧
      t.reqs.length = s.reqs.length ∧ t.dram = s.dram) ∧
  (∀ (s : State) (h : Half) (d : Fin 1024) (line host : Nat) (e : SfEntry), s.sound = true → s.sfEntry d line = some e →
    e.half = h → e.await.contains host = true →
    (e.await.filter (· != host) ≠ [] ∨ ∀ r ∈ s.reqs, ¬ r.waitsAt5 h d (line / 64)) →
    ∃ t, exec (.rqBiTimeout h d line host) s = .next t ∧ t.reqs = s.reqs ∧
      t.fld rqErrCntBiTimeout = satAdd rqErrCntBiTimeout.width (s.fld rqErrCntBiTimeout) 1 ∧
      (e.owned = false → t.dram = s.dram ∧ t.poison = s.poison) ∧
      (e.owned = true → (s.poison.get (s.home d)).length < poisonMax → t.listed (s.home d) d line = true) ∧
      t.snoop = (s.updSf d line fun e => { e with
        await := e.await.filter (· != host), unsent := e.unsent.filter (· != host)
        evicting := e.evicting && !(e.await.filter (· != host)).isEmpty
        owned := e.owned && !((e.await.filter (· != host)).isEmpty && e.biData)
        holders := e.holders.filter (· != host) }).snoop) ∧
  (∀ (s : State) (x : ReadyResponse) (r : Req) (p id : Nat), s.sound = true → s.req x.rid = some r → r.stage = .respond →
    r.org = .host p id → r.mute = false → 0 < nth 0 (s.port p).hostCredits r.respChannel + x.credits →
    ∃ t, exec (.responseSend x) s = .next t ∧
      Out.response p id r.tag r.resp (if r.rpoison then 0 else r.rdata) r.rpoison (s.devLoad r) ∈ t.out ∧
      t.reqs = s.reqs.filter (fun q => q.rid != x.rid.val || q.stage == .waitEntry) ∧ t.dram = s.dram) ∧
  (∀ (s : State) (x : ReadyResponse) (r : Req) (p id : Nat), s.sound = true → s.req x.rid = some r → r.stage = .respond →
    r.org = .host p id → r.mute = false → nth 0 (s.port p).hostCredits r.respChannel + x.credits = 0 →
    ∃ t, exec (.responseSend x) s = .next t ∧ t.out = s.out ∧ t.reqs = s.reqs ∧ t.regs = s.regs ∧ t.dram = s.dram) ∧
  (∀ (s : State) (x : ReadyResponse) (r : Req) (p id : Nat), s.sound = true →
    s.req x.rid = some r → r.stage = .respond → r.org = .host p id → r.mute = true →
    ∃ t, exec (.responseSend x) s = .next t ∧ t.out = s.out ∧
      t.reqs = s.reqs.filter (fun q => q.rid != x.rid.val || q.stage == .waitEntry) ∧ t.dram = s.dram) ∧
  (∀ (s : State) (x : ReadyResponse), s.req x.rid = none → exec (.responseSend x) s = .next s)


/-! ### DRAM channels (05_dram, 09_qos) -/

/-- DRAM reads that return. A near read with no error, or with one that the code corrects, answers the line decrypted where no
integrity check applies to it; one that is marked poisoned, or that cannot be corrected a second time, answers poisoned; one
that cannot be corrected the first time is read again (05_dram R139 to R141; 04_request R122). A read of a slot leaves the
channel (06_shingle R180). The order of a channel (R236): a sweep that is due and allowed starts before any operation; else
the first green operation of class 0 that may start does, where no read of the channel is answered by the buffer and no
operation is oversize: a read goes to DRAM, a whole write leaves the buffer and is stored; with none, the first corrected
write-back is written (05_dram R140, R144, R145; 09_qos R236, R238, R244). The model's choices that it rests on: logs 13, 126,
142, 148. -/
def Obligations.DramReadsAndOrder : Prop :=
  (∀ (s : State) (rid : Fin 65536) (r : Req) (p id : Nat) (errs : List Burst) (stage : Fin 11), s.sound = true →
    s.req rid = some r → r.stage = .dram → r.kind = .rd → r.org = .host p id → r.dom < 1024 → r.pstate ≠ 2 →
    s.treeFenced r.dom r.line = false → s.eff (domPolicyProt r.dom) ≠ 2 →
    (∀ l, ((s.readBurst r.home r.ma (errs.headD 0)).outcome = 1 ∨ (s.readBurst r.home r.ma (errs.headD 0)).outcome = 3) →
      s.unseal ⟨r.home, r.ma, r.dom, r.line, false, 0⟩ (s.readBurst r.home r.ma (errs.headD 0)).line = some l →
      ∃ t q, exec (.dramReadDone rid errs stage 0) s = .next t ∧ t.req rid = some q ∧ q.tag = r.tag ∧
        q.stage = s.answerStage r ∧ q.rdata = l ∧ q.rpoison = false ∧ t.reqs.length = s.reqs.length ∧ t.dram = s.dram) ∧
    (((s.readBurst r.home r.ma (errs.headD 0)).outcome = 2 ∨ (s.readBurst r.home r.ma (errs.headD 0)).outcome = 4 ∨
        ((s.readBurst r.home r.ma (errs.headD 0)).outcome = 5 ∧ r.reread = true)) →
      ∃ t q, exec (.dramReadDone rid errs stage 0) s = .next t ∧ t.req rid = some q ∧ q.tag = r.tag ∧
        q.stage = s.answerStage r ∧ q.rdata = 0 ∧ q.rpoison = true ∧ t.reqs.length = s.reqs.length) ∧
    ((s.readBurst r.home r.ma (errs.headD 0)).outcome = 5 → r.reread = false →
      s.againNow r (chanOf r.home (r.ma / 4)) = false →
      ∃ t q, exec (.dramReadDone rid errs stage 0) s = .next t ∧ t.req rid = some q ∧ q.tag = r.tag ∧ q.stage = .channel ∧
        q.reread = true ∧ q.replayed = true ∧
        t.fld rqErrCntStageReplay = satAdd rqErrCntStageReplay.width (s.fld rqErrCntStageReplay) 1 ∧ t.dram = s.dram)) ∧
  (∀ (s : State) (rid : Fin 65536) (r : Req) (p id : Nat) (errs : List Burst) (stage : Fin 11), s.sound = true →
    s.req rid = some r → r.stage = .dram → r.kind = .rd → r.org = .host p id → r.dom < 1024 → r.pstate = 2 →
    s.treeFenced r.dom r.line = false → s.ctrReady r.dom r.line = true →
    ∃ t q, exec (.dramReadDone rid errs stage 0) s = .next t ∧ t.req rid = some q ∧ q.tag = r.tag ∧
      (q.stage = .chunkWait ∨ q.stage = .channel ∨ q.stage = s.answerStage r) ∧ t.reqs.length = s.reqs.length) ∧
  (∀ (s : State) (c : Fin 24) (errs : List Burst), s.sound = true → s.sweepDue c = true →
    ∃ t, exec (.channelSequenceStart c errs) s = .next t ∧ (t.chan c).debt = (s.chan c).debt - 1 ∧ t.dram = s.dram ∧
      (∀ x, x ≠ c.val → (t.chan x).debt = (s.chan x).debt)) ∧
  (∀ (s : State) (c : Fin 24) (errs : List Burst) (r : Req), s.sound = true → s.sweepDue c = false →
    (∀ q ∈ s.readQueue c, s.bufferHit q = none) →
    (∀ k, k < 8 → ∀ o ∈ s.classOps c k, s.oversize c k (o.occ (s.chanRate c)) = false) →
    (s.subQueue c 0 0).find? (s.opEligible c 0) = some (.read r) → s.req r.rid = some r →
    ∃ t, exec (.channelSequenceStart c errs) s = .next t ∧
      t.req r.rid = some { r with stage := .dram, stamps := { r.stamps with issue := s.now } } ∧
      t.reqs.length = s.reqs.length ∧ (t.chan c).wb = (s.chan c).wb ∧ t.dram = s.dram) ∧
  (∀ (s : State) (c : Fin 24) (w : WbEntry), s.sound = true → s.sweepDue c = false →
    (∀ q ∈ s.readQueue c, s.bufferHit q = none) →
    (∀ k, k < 8 → ∀ o ∈ s.classOps c k, s.oversize c k (o.occ (s.chanRate c)) = false) →
    (s.subQueue c 0 0).find? (s.opEligible c 0) = some (.write w) → w.enables = allBytes → w.slot = none →
    chanOf (chanHalf c) (w.ma / 4) = c → s.eff (domPolicyProt w.dom) ≠ 2 → s.treeFenced w.dom w.line = false →
    s.flag (dmcInjCtrlArm c) = false →
    ∃ t, exec (.channelSequenceStart c []) s = .next t ∧ (t.chan c).wb = (s.chan c).wb.filter (· != w) ∧ t.reqs = s.reqs ∧
      t.dram = cellPut 0 s.dram (burstKey (chanHalf c) w.ma)
        (encodeLine (s.cipher false ⟨chanHalf c, w.ma, w.dom, w.line, false, 0⟩ w.data) w.poison)) ∧
  (∀ (s : State) (c : Fin 24) (errs : List Burst) (w : Writeback) (rest : List Writeback), s.sound = true →
    s.sweepDue c = false → (∀ q ∈ s.readQueue c, s.bufferHit q = none) →
    (∀ k, k < 8 → ∀ o ∈ s.classOps c k, s.oversize c k (o.occ (s.chanRate c)) = false) → s.green0Op c = none →
    (s.chan c).backs = w :: rest → s.maintFits c (occWrite10 (s.chanRate c)) = true → chanOf (chanHalf c) (w.ma / 4) = c →
    s.flag (dmcInjCtrlArm c) = false →
    ∃ t, exec (.channelSequenceStart c errs) s = .next t ∧ (t.chan c).backs = rest.filter (fun x => x.ma != w.ma) ∧
      t.reqs = s.reqs ∧ t.dram = cellPut 0 s.dram (burstKey (chanHalf c) w.ma) w.burst)

/-- Refresh: the debt grows by one; at four, with no sweep allowed, a forced sweep is counted; a sweep that is due and allowed
takes one off (R144, R145, R147); temperatures above 85 °C double the refresh rate until all are at most 83 °C, and a slot
whose power-good has failed is turned off and latched with its channel's other slot (R145; 16_power R375). Training: supported
modules, one or a pair that Table 5.2 allows, train at the rate of R132, by the short path where the stored results pass, and
the channel shows its capacity; an unsupported module, or a pair that it does not allow, fences the channel; an empty channel
stays as it is (R130 to R136). A pending hard repair that succeeds before Memory_Active is no longer pending, and one that
fails is recorded and stays (R152). The model's choices that it rests on: log 156. -/
def Obligations.RefreshAndTraining : Prop :=
  (∀ (s : State) (c : Fin 24), s.sound = true → s.chanUp c = true → (s.chan c).debt + 1 < 4 →
    ∃ t, exec (.refreshDebtTick c) s = .next t ∧ (t.chan c).debt = (s.chan c).debt + 1 ∧
      t.fld (dmcRefStatusDebt c) = (s.chan c).debt + 1 ∧ (∀ x, x ≠ c.val → t.chan x = s.chan x) ∧
      (∀ f : Fld, f.key ≠ (dmcRefStatusDebt c).key → f.key ≠ (dmcCombStatusBehind c).key → t.fld f = s.fld f) ∧
      t.reqs = s.reqs ∧ t.dram = s.dram) ∧
  (∀ (s : State) (c : Fin 24), s.sound = true → s.chanUp c = true → (s.chan c).debt = 3 → s.mcFits c (s.sweep10 c) = false →
    ∃ t, exec (.refreshDebtTick c) s = .next t ∧ (t.chan c).debt = 3 ∧ t.fld (dmcRefStatusDebt c) = 3 ∧
      t.fld (dmcRefStatusForced c) = satAdd 16 (s.fld (dmcRefStatusForced c)) 1 ∧ t.dram = s.dram) ∧
  (∀ (s : State) (c : Fin 24), s.sound = true → s.sweepDue c = true →
    ∃ t, exec (.refreshSweep c) s = .next t ∧ (t.chan c).debt = (s.chan c).debt - 1 ∧ t.reqs = s.reqs ∧ t.dram = s.dram ∧
      (∀ x, x ≠ c.val → t.chan x = s.chan x)) ∧
  (∀ (s : State) (c : Fin 24) (temps : List Nat), temps.any (· > 85) = true →
    exec (.dimmSidebandPoll c temps []) s = .next (s.setFlag (dmcStatusRefExtended c) true)) ∧
  (∀ (s : State) (c : Fin 24) (temps : List Nat), temps.all (· ≤ 83) = true →
    exec (.dimmSidebandPoll c temps []) s = .next (s.setFlag (dmcStatusRefExtended c) false)) ∧
  (∀ (s : State) (c : Fin 24) (temps : List Nat), s.sound = true → s.bit hswSlotPwrPwr (2 * c.val) = true →
    ∃ t, exec (.dimmSidebandPoll c temps [true]) s = .next t ∧ t.bit hswSlotPwrPwr (2 * c.val) = false ∧
      t.bit hswSlotPwrPwr (2 * c.val + 1) = false ∧ t.bit hswSlotTripTrip (2 * c.val) = true ∧
      t.fencedIn (uChannel c) = true) ∧
  (∀ (s : State) (c : Fin 24) (m : Module) (fast : Bool), s.sound = true → within 4 8 s.phase = true →
    s.bit hswSlotPwrPwr (2 * c.val) = true → s.flag (dmcCfgChannelDisable c) = false → s.flag (dmcStatusTrained c) = false →
    s.fencedIn (uChannel c) = false → modSupported m = true →
    ∃ t, exec (.channelTrainDone c (some m) none fast true) s = .next t ∧ t.flag (dmcStatusTrained c) = true ∧
      t.fld (dmcStatusRate c) = s.rateFor c [m] ∧ t.fld (dmcStatusPop c) = 1 ∧ t.fld (dmcStatusCapGib c) = m.gib ∧
      t.flag (dmcStatusModuleType c) = modMr m ∧ (t.chan c).trained = true ∧ t.dram = s.dram) ∧
  (∀ (s : State) (c : Fin 24) (m n : Module) (fast : Bool), s.sound = true → within 4 8 s.phase = true →
    s.bit hswSlotPwrPwr (2 * c.val) = true → s.bit hswSlotPwrPwr (2 * c.val + 1) = true →
    s.flag (dmcCfgChannelDisable c) = false → s.flag (dmcStatusTrained c) = false → s.fencedIn (uChannel c) = false →
    modSupported m = true → modSupported n = true →
    (pairOk m n = true → ∃ t, exec (.channelTrainDone c (some m) (some n) fast true) s = .next t ∧
      t.flag (dmcStatusTrained c) = true ∧ t.fld (dmcStatusRate c) = s.rateFor c [m, n] ∧ t.fld (dmcStatusPop c) = 2 ∧
      t.fld (dmcStatusCapGib c) = m.gib + n.gib ∧ (t.chan c).trained = true ∧ t.dram = s.dram) ∧
    (pairOk m n = false → ∀ ok : Bool, ∃ t, exec (.channelTrainDone c (some m) (some n) fast ok) s = .next t ∧
      t.flag (dmcStatusTrained c) = false ∧ t.fld (dmcStatusFail c) = 2 ∧ t.fencedIn (uChannel c) = true)) ∧
  (∀ (s : State) (c : Fin 24) (m : Module) (fast ok : Bool), within 4 8 s.phase = true →
    s.bit hswSlotPwrPwr (2 * c.val) = true → s.flag (dmcCfgChannelDisable c) = false → s.flag (dmcStatusTrained c) = false →
    s.fencedIn (uChannel c) = false → modSupported m = false →
    exec (.channelTrainDone c (some m) none fast ok) s =
      .next (((s.updChan c fun ch => { ch with mods := [some m, none] }).setFld (dmcStatusFail c) 1).raise
        { code := cDmcModuleUnsupported, cls := clsUcf, unit := uChannel c })) ∧
  (∀ (s : State) (c : Fin 24) (fast ok : Bool), within 4 8 s.phase = true →
    exec (.channelTrainDone c none none fast ok) s = .next (s.updChan c fun ch => { ch with mods := [none, none] })) ∧
  (∀ (s : State) (c : Fin 24) (k : RowKey) (rest : List RowKey), s.sound = true → (s.chan c).pendingHard = k :: rest →
    s.boot.memActive = false → s.flag (dmcStatusTrainPath c) = true → s.flag (dmcRepairCfgHpprEn c) = true →
    s.chanUp c = true → (s.chan c).hardTried = false →
    (∃ t, exec (.hardRepair c true) s = .next t ∧ (t.chan c).pendingHard = rest ∧ (t.chan c).hardTried = true ∧
      t.fld (dmcRepairStatusHpprDone c) = (s.fld (dmcRepairStatusHpprDone c) + 1) % 4096 ∧ t.dram = s.dram) ∧
    (∃ t, exec (.hardRepair c false) s = .next t ∧ (t.chan c).pendingHard = k :: rest ∧ (t.chan c).hardTried = true ∧
      t.fld (dmcRepairStatusHpprDone c) = s.fld (dmcRepairStatusHpprDone c) ∧ t.dram = s.dram))

/-- Command parity: a channel replays up to three times and is then fenced (R142); an armed injection waits for the next
write, unless INJ_DISABLE is set (R143). The model's choices that it rests on: log 58. -/
def Obligations.ParityAndInjection : Prop :=
  (∀ (s : State) (c : Fin 24), s.sound = true → s.chanUp c = true → (s.chan c).caTries < 3 →
    ∃ t, exec (.caParityAlert c) s = .next t ∧ (t.chan c).caTries = (s.chan c).caTries + 1 ∧
      t.fld rqErrCntStageReplay = satAdd 16 (s.fld rqErrCntStageReplay) 1 ∧ t.dram = s.dram ∧
      t.reqs.length = s.reqs.length) ∧
  (∀ (s : State) (c : Fin 24), s.chanUp c = true → 3 ≤ (s.chan c).caTries →
    exec (.caParityAlert c) s = .next ((s.updChan c fun ch => { ch with caTries := 0 }).raise
      { code := cDmcCaParityFail, cls := clsUcf, unit := uChannel c })) ∧
  (∀ (s : State) (c : Fin 24) (v : Word), s.sound = true → s.takesWrite .plain false (some (chanHalf c)) = true →
    ∃ t, exec (.injectionArm c v) s = .next t ∧ t.flag (dmcInjCtrlFilterEn c) = bitAt v.toNat 1 ∧
      t.flag (dmcInjCtrlArm c) =
        (s.flag (dmcInjCtrlArm c) || (bitAt v.toNat 0 && !s.flag (dmcCfgInjDisable c))) ∧
      (∀ k, k ≠ dmcInjCtrl c → t.reg k = s.reg k) ∧ t.dram = s.dram)

/-- The comber moves on by one step of 1 KiB when the step is due and may start, and a lap is counted at its end (R149); a
write-back owed is written once (R140). A soft repair reads its row's held lines, unless one of them is lost and the row is
retired instead; its sequence writes the lines that are still held; and it is logged as a pending hard repair where every such
line then reads without error, else given up (R150 to R152, R154). A lap of an SRAM bank's scrubber: the words corrected are
counted, the longest last lap of the half's banks is shown, and one longer than the limit is told to the fabric manager; a
bank group's uncorrectable word is noted with its time (R155). The model's choices that it rests on: logs 59, 60, 148, 149,
151, 157. -/
def Obligations.ScrubbingAndRepair : Prop :=
  (∀ (s : State) (c : Fin 24) (errs : List Burst), s.sound = true → s.combMay c = true →
    s.combTime c (s.fld (dmcCombStatusPosition c)) ≤ s.now → s.fld (dmcCombStatusPosition c) + 1 < 2 ^ 30 →
    (s.fld (dmcCombStatusPosition c) + 1 < s.combSteps c →
      ∃ t, exec (.comberStep c errs) s = .next t ∧ t.fld (dmcCombStatusPosition c) = s.fld (dmcCombStatusPosition c) + 1 ∧
        t.fld (dmcCombStatusLaps c) = s.fld (dmcCombStatusLaps c) ∧ (s.media = [] → t.dram = s.dram)) ∧
    (s.combSteps c ≤ s.fld (dmcCombStatusPosition c) + 1 →
      ∃ t, exec (.comberStep c errs) s = .next t ∧ t.fld (dmcCombStatusPosition c) = 0 ∧
        t.fld (dmcCombStatusLaps c) = (s.fld (dmcCombStatusLaps c) + 1) % 2 ^ 32 ∧ (t.chan c).lapStart = s.now ∧
        (t.chan c).deferred = [] ∧ (s.media = [] → t.dram = s.dram))) ∧
  (∀ (s : State) (c : Fin 24) (w : Writeback) (rest : List Writeback), s.sound = true → (s.chan c).backs = w :: rest →
    s.maintFits c (occWrite10 (s.chanRate c)) = true → chanOf (chanHalf c) (w.ma / 4) = c → s.flag (dmcInjCtrlArm c) = false →
    ∃ t, exec (.correctedWriteback c) s = .next t ∧ (t.chan c).backs = rest.filter (fun x => x.ma != w.ma) ∧ t.reqs = s.reqs ∧
      t.dram = cellPut 0 s.dram (burstKey (chanHalf c) w.ma) w.burst) ∧
  (∀ (s : State) (c : Fin 24) (errs : List Burst) (k : RowKey) (rest : List RowKey), s.sound = true →
    (s.chan c).softWait = k :: rest → (s.chan c).soft = none → s.softRoom c (s.rowLines c k).length = true →
    s.repairMay c = true →
    ∃ t, exec (.softRepairStart c errs) s = .next t ∧ ((t.chan c).retiring.contains k.range = true ∨
      ((t.chan c).softWait = rest ∧ (t.chan c).soft.map (fun x => (x.key, x.phase, x.lines.map (·.1), x.since)) =
        some (k, 0, s.rowLines c k, s.now)))) ∧
  (∀ (s : State) (c : Fin 24) (r : SoftRepair), s.sound = true → (s.chan c).soft = some r → r.phase = 0 → s.repairMay c = true →
    ∃ t, exec (.softRepairSequence c) s = .next t ∧ t.reqs = s.reqs ∧ (t.chan c).soft = some { r with
        phase := 1, lines := r.lines.filter (fun q => s.lineUse (chanHalf c) q.1 != .unheld) } ∧
      (s.flag (dmcInjCtrlArm c) = false → (∀ q ∈ r.lines, chanOf (chanHalf c) (q.1 / 4) = c.val ∧ q.1 < 2 ^ 42) →
        (r.lines.map (·.1)).Nodup → ∀ q ∈ r.lines, s.lineUse (chanHalf c) q.1 ≠ .unheld →
        cellGet 0 t.dram (burstKey (chanHalf c) q.1) = q.2)) ∧
  (∀ (s : State) (c : Fin 24) (r : SoftRepair), s.sound = true → (s.chan c).soft = some r → r.phase = 1 → s.repairMay c = true →
    ((∀ q ∈ r.lines, s.lineUse (chanHalf c) q.1 ≠ .unheld →
        (s.readOn (s.lineBase (s.lineUse (chanHalf c) q.1)) (chanHalf c) q.1 0).outcome ≤ 2) →
      ∃ t, exec (.softRepairVerify c []) s = .next t ∧ (t.chan c).soft = none ∧
        (t.chan c).repaired = (s.chan c).repaired ++ [r.key] ∧ (t.chan c).pendingHard = (s.chan c).pendingHard ++ [r.key] ∧
        t.fld (dmcRepairStatusSpprDone c) = (s.fld (dmcRepairStatusSpprDone c) + 1) % 4096 ∧ t.dram = s.dram) ∧
    (∀ q ∈ r.lines, s.lineUse (chanHalf c) q.1 ≠ .unheld →
      2 < (s.readOn (s.lineBase (s.lineUse (chanHalf c) q.1)) (chanHalf c) q.1 0).outcome →
      ∃ t, exec (.softRepairVerify c []) s = .next t ∧ (t.chan c).soft = none ∧ (t.chan c).repaired = (s.chan c).repaired ∧
        ((t.chan c).retired.contains r.key.range = true ∨ (t.chan c).retiring.contains r.key.range = true ∨
          (t.chan c).deferred.contains r.key.range = true) ∧ t.dram = s.dram)) ∧
  (∀ (s : State) (h : Half) (bank : Fin 256) (n us longest : Nat), s.sound = true → us < 2 ^ 32 →
    longest = ((s.halves.get h).laps.filter (fun q => q.1 != bank.val)).foldl (fun m q => max m q.2) us → longest < 2 ^ 32 →
    (longest ≤ s.fld dmcSramScrubCfgLapLimitUs →
      ∃ t, exec (.sramScrubLap h bank n [] us) s = .next t ∧ t.fld (dmcSramScrubLapUs h.idx) = longest ∧
        t.fld (dmcSramScrubSecCnt h.idx) = satAdd 16 (s.fld (dmcSramScrubSecCnt h.idx)) n ∧
        (∀ f : Fld, f.key ≠ dmcSramScrub h.idx → t.fld f = s.fld f) ∧ t.out = s.out ∧ t.dram = s.dram) ∧
    (s.fld dmcSramScrubCfgLapLimitUs < longest →
      ∃ t, exec (.sramScrubLap h bank n [] us) s = .next t ∧ t.flag (dmcSramScrubSlow h.idx) = true ∧
        Out.toFm "DMC_SRAM_SCRUB_SLOW" [h.idx, longest] ∈ t.out ∧ t.dram = s.dram)) ∧
  (∀ (s : State) (h : Half) (bank : Fin 256) (n w us : Nat), s.sound = true →
    ∃ t, exec (.sramScrubLap h bank n [w] us) s = .next t ∧ (bank.val / 16, s.now) ∈ (t.halves.get h).ueTimes)


/-! ### Tide tables and telemetry (09_qos) -/

/-- Tide tables: a write to a pending bank makes it DIRTY and unchecked; a check ends PASSED or REFUSED with the first reason
of Table 9.4 (R241); the gates follow the entry in force (R240); at a takeover the active bank is the pending one, with its
start (R242). Queue telemetry: a sample counts, for each domain of the half, one in the bin of its queue's depth and one in
the bin of its oldest request's age, the lowest where the domain holds no queued or parked request; a sample with ENABLE 0
does nothing; a clear zeroes every bin and nothing else (R246). The model's choices that it rests on: log 61. -/
def Obligations.TideTablesAndTelemetry : Prop :=
  (∀ (s : State) (i : Fin 26) (k : Fin 64) (v : Word), s.sound = true → s.takesWrite .plain false none = true →
    s.schedOn i = true → s.bit topCommitStatusSealed 2 = false → s.flag (ttStatusTakeoverPending i) = false →
    (∃ t, exec (.ttPendWrite i (some k) v) s = .next t ∧ (t.reg (ttPend i k)).toNat = v.toNat % 2 ^ 33 ∧
      t.flag (ttStatusDirty i) = true ∧ t.fld (ttStatusPendState i) = 0 ∧ t.bit topShadowStatusDirty 2 = true ∧
      (t.sched i).checking = false ∧ t.reg (ttPendLen i) = s.reg (ttPendLen i)) ∧
    (∃ t, exec (.ttPendWrite i none v) s = .next t ∧ t.fld (ttPendLenLen i) = v.toNat % 128 ∧
      t.flag (ttStatusDirty i) = true ∧ t.fld (ttStatusPendState i) = 0)) ∧
  (∀ (s : State) (i : Fin 26), s.sound = true → s.takesWrite .plain false none = true → s.schedOn i = true →
    s.fld (ttStatusPendState i) ≠ 1 →
    ∃ t, exec (.ttCheck i) s = .next t ∧ t.fld (ttStatusPendState i) = 1 ∧ (t.sched i).checking = true ∧
      (∀ f : Fld, f.key ≠ ttStatus i → t.fld f = s.fld f)) ∧
  (∀ (s : State) (i : Fin 26), s.sound = true → (s.sched i).checking = true →
    ∃ t, exec (.ttCheckDone i) s = .next t ∧ t.fld (ttStatusReason i) = s.ttCheck i ∧
      t.fld (ttStatusPendState i) = (if s.ttCheck i = 0 then 2 else 3) ∧ t.flag (ttEvtCheckDone i) = true ∧
      (t.sched i).checking = false ∧ t.dram = s.dram) ∧
  (∀ (s : State) (i : Fin 26), s.sound = true → s.schedOn i = true →
    ∃ t, exec (.ttGateChange i) s = .next t ∧ t.regs = s.regs ∧
      (t.sched i).entry = (entryAt (s.ttActive i) (s.ttOffset i (s.schedNs i)) 0).1 ∧
      (t.sched i).gate = (nth (0, 0x1FF) (s.ttActive i) (entryAt (s.ttActive i) (s.ttOffset i (s.schedNs i)) 0).1).2 ∧
      (∀ j, j ≠ i.val → t.sched j = s.sched j)) ∧
  (∀ (s : State) (i : Fin 26), s.sound = true → s.flag (ttStatusTakeoverPending i) = true →
    ∃ t, exec (.ttTakeover i) s = .next t ∧ (∀ k < 64, t.reg (ttAct i k) = s.reg (ttPend i k)) ∧
      t.fld (ttStatusActLen i) = (s.ttPending i).length % 128 ∧ t.fld (ttActStartStartNs i) = s.fld (ttTakeoverAtAtNs i) ∧
      t.flag (ttStatusTakeoverPending i) = false ∧ t.flag (ttStatusDirty i) = false ∧ t.flag (ttEvtTakeoverDone i) = true ∧
      t.dram = s.dram) ∧
  (∀ (s : State) (h : Half) (d : Fin 1024) (q : List Req) (n : Nat), s.sound = true → s.flag qosTelemCfgEnable = true →
    s.home d = h → q = s.reqs.filter (fun r => r.hasDom && r.dom == d.val && (r.stage == .queued || r.stage == .parked)) →
    n = q.length →
    ∃ t, exec (.qosTelemSample h) s = .next t ∧ t.reqs = s.reqs ∧ t.dram = s.dram ∧
      (n = 0 → t.fld (qosHistDomBinLo d 0) = satAdd 32 (s.fld (qosHistDomBinLo d 0)) 1 ∧
        t.fld (qosHistDomBinLo d 8) = satAdd 32 (s.fld (qosHistDomBinLo d 8)) 1) ∧
      (n = 1 → t.fld (qosHistDomBinHi d 0) = satAdd 32 (s.fld (qosHistDomBinHi d 0)) 1) ∧
      (2 ^ 14 ≤ n → t.fld (qosHistDomBinHi d 7) = satAdd 32 (s.fld (qosHistDomBinHi d 7)) 1)) ∧
  (∀ (s : State) (h : Half), s.flag qosTelemCfgEnable = false → exec (.qosTelemSample h) s = .next s) ∧
  (∀ s : State, s.sound = true → s.takesWrite .plain false none = true →
    ∃ t, exec .qosTelemClear s = .next t ∧ (∀ d < 1024, ∀ w < 16, t.reg (qosHistDom d w) = 0) ∧
      (∀ c < 216, ∀ w < 16, t.reg (qosHistCh c w) = 0) ∧
      (∀ k, (k < qosHistDom 0 0 ∨ qosHistCh 216 0 ≤ k) → t.reg k = s.reg k) ∧ t.telemLast = s.telemLast)

/-! ### Memory protection (08_protection) -/

/-- Key slots: a LOAD takes the blob as it stands and makes BUSY read 1 (R220, R222); a blob that is refused leaves the
slot as it was and shows the first code of Table 8.6; one that is accepted shows type and version; an ERASE of a slot that
is not in use removes the key and keeps the version (Table 8.7). A failed integrity check of an IDE stream raises the
alarm with cause 4 and the port's number, and takes the link down (R217, R224). -/
def Obligations.KeySlotsAndIde : Prop :=
  (∀ (s : State) (slot : Nat), s.sound = true → s.takesWrite .plain false none = true → s.flag protKeyResultBusy = false →
    ∃ t, exec (.keyLoad slot) s = .next t ∧ t.flag protKeyResultBusy = true ∧ t.keys = s.keys ∧
      t.keyCmd = some { op := 1, slot := slot % 2048
                        blob := (List.range 32).flatMap fun i => leBytes 8 (cellGet (0 : Word) s.wrap i).toNat }) ∧
  (∀ (s : State) (slot : Nat), s.takesWrite .plain false none = true → s.flag protKeyResultBusy = true →
    exec (.keyLoad slot) s = .next s ∧ exec (.keyErase slot) s = .next s) ∧
  (∀ (s : State) (k : KeyCmd), s.sound = true → (s.phase = 4 → s.boot.blobs = []) → s.keyCmd = some k → (s.loadResult k.slot k.blob).1 ≠ 0 →
    ∃ t, exec .keyLoadDone s = .next t ∧ t.keys = s.keys ∧ t.keyCmd = none ∧ t.flag protKeyResultBusy = false ∧
      t.flag protKeyResultDone = true ∧ t.fld protKeyResultResult = (s.loadResult k.slot k.blob).1) ∧
  (∀ (s : State) (k : KeyCmd), s.sound = true → (s.phase = 4 → s.boot.blobs = []) → s.keyCmd = some k → (s.loadResult k.slot k.blob).1 = 0 →
    ∃ t, exec .keyLoadDone s = .next t ∧ t.keyCmd = none ∧ t.fld protKeyResultResult = 0 ∧
      t.keys = cellPut ({} : KeySlot) s.keys k.slot { key := BitVec.ofNat 512 (ofLeB (s.loadResult k.slot k.blob).2), loaded := true
                                                      typ := blobNum k.blob 4 1, version := blobNum k.blob 8 8 } ∧
      t.flag (protKeyStateLoaded k.slot) = true ∧ t.fld (protKeyStateType k.slot) = blobNum k.blob 4 1) ∧
  (∀ (s : State) (slot : Nat), s.sound = true → s.takesWrite .plain false none = true → s.flag protKeyResultBusy = false →
    slot ≤ 1031 → s.slotInUse slot = false →
    ∃ t, exec (.keyErase slot) s = .next t ∧ t.fld protKeyResultResult = 0 ∧ t.flag (protKeyStateLoaded slot) = false ∧
      t.keys = cellPut ({} : KeySlot) s.keys slot { version := (cellGet ({} : KeySlot) s.keys slot).version }) ∧
  (∀ (s : State) (slot : Nat), s.sound = true → s.takesWrite .plain false none = true → s.flag protKeyResultBusy = false →
    slot ≤ 1031 → s.slotInUse slot = true →
    ∃ t, exec (.keyErase slot) s = .next t ∧ t.fld protKeyResultResult = 5 ∧ t.keys = s.keys) ∧
  (∀ (s : State) (p : Fin 16) (mem : Bool) (epoch : List (Fin 65536)) (stored : List (Fin 1024 × Nat)), s.sound = true →
     ∃ t, exec (.ideIntegrityFail p mem epoch stored) s = .next t ∧ t.fld protAlarmLastCause = 4 ∧
       t.fld protAlarmLastPort = p ∧ (t.port p).link = .detect ∧ (t.port p).ideKeys = [] ∧
       t.flag (hpPortStatusLinkUp p) = false ∧ (∀ q, q ≠ p.val → t.port q = s.port q))

/-- Counters and the tree of a P2 domain: a child of a trusted node comes to stand in the cache where it has never been
written, or is read with no error and agrees with its tag; one that decodes but disagrees raises the alarm with cause 2, and
one that does not decode is lost (R211, R214, R217, R218); a read that waited for its page's counters reads its slot. A page
that rolls over takes the next major counter with every minor 0, and the write leaves the buffer (R206); a root is recomputed
from the top node (R219). A lost subtree (R218): a local rebuild, where its channel allows it, ends with the node no longer
lost, or with the subtree fenced; a NEAR page that no partner supplied is rebuilt with every line listed as poisoned, where
the list has room, and a counter block above all before; when every page with content is done the subtree is installed, and
its counts are told to the fabric manager. The model's choices that it rests on: logs 13, 148, 153. -/
def Obligations.CountersAndTrees : Prop :=
  (∀ (s : State) (h : Half) (d : Fin 1024) (level idx victim e : Nat) (errs : List Burst), s.sound = true →
    s.eff (domPolicyProt d) = 2 → s.home d = h → level + 1 < s.top d → s.trusted h d (level + 1) (idx / 8) = true →
    s.mcSets h ≠ 0 → e = idx * 8 ^ level / 512 →
    (level ≤ 3 → s.inCache h (.dir d (e / 8)) = true ∧ (s.area d e).isSome = true) →
    childTag (s.node d (level + 1) (idx / 8)) (idx % 8) = 0 →
    ∃ t, exec (.counterFetchDone h d level idx errs victim) s = .next t ∧ t.inCache h (nodeName d level idx) = true ∧
      (∀ r ∈ s.reqs, level = 0 → r.stage = .ctrWait → r.dom = d → r.line / 64 = idx → r.slotLines = [] →
        s.req r.rid = some r → (∀ y ∈ s.reqs, y.rid = r.rid → y.stage = .waitEntry ∨ y = r) →
        t.req r.rid = some { r with stage := .dram })) ∧
  (∀ (s : State) (h : Half) (d : Fin 1024) (level idx victim e ma : Nat) (errs : List Burst) (line : Line), s.sound = true →
    s.eff (domPolicyProt d) = 2 → s.home d = h → 0 < level → level ≤ 3 → level + 1 < s.top d →
    s.trusted h d (level + 1) (idx / 8) = true → s.trusted h d level idx = false → s.mcSets h ≠ 0 → e = idx * 8 ^ level / 512 →
    s.inCache h (.dir d (e / 8)) = true → (s.area d e).isSome = true →
    childTag (s.node d (level + 1) (idx / 8)) (idx % 8) ≠ 0 → s.metaPlaces (nodeName d level idx) = [ma] →
    s.mediaLost h (ma / 4) = false → s.subtree d level idx = none →
    (((s.readOn (encodeLine (BitVec.ofNat 512 (ofLeB (s.nodeBytes d level idx))) false) h ma (errs.headD 0)).outcome = 1 →
      (s.readOn (encodeLine (BitVec.ofNat 512 (ofLeB (s.nodeBytes d level idx))) false) h ma (errs.headD 0)).line = line →
      (s.nodeTag d level idx (leB 64 line.toNat) = childTag (s.node d (level + 1) (idx / 8)) (idx % 8) →
        ∃ t, exec (.counterFetchDone h d level idx errs victim) s = .next t ∧ t.inCache h (nodeName d level idx) = true ∧
          t.reqs = s.reqs ∧ (t.prot_ d).fences = (s.prot_ d).fences) ∧
      (s.nodeTag d level idx (leB 64 line.toNat) ≠ childTag (s.node d (level + 1) (idx / 8)) (idx % 8) →
        ∃ t, exec (.counterFetchDone h d level idx errs victim) s = .next t ∧ t.fld protAlarmLastCause = 2 ∧
          t.fld protErrCntTreeFail = satAdd protErrCntTreeFail.width (s.fld protErrCntTreeFail) 1 ∧
          t.subtree d level idx = some { level, idx, phase := 0, done := [], major := (s.prot_ d).highMajor + 1 } ∧
          t.reqs = s.reqs)) ∧
    ((s.readOn (encodeLine (BitVec.ofNat 512 (ofLeB (s.nodeBytes d level idx))) false) h ma (errs.headD 0)).outcome = 5 →
      (s.readOn (encodeLine (BitVec.ofNat 512 (ofLeB (s.nodeBytes d level idx))) false) h ma (errs.tail.headD 0)).outcome = 5 →
      ∃ t, exec (.counterFetchDone h d level idx errs victim) s = .next t ∧ t.inCache h (nodeName d level idx) = false ∧ t.reqs = s.reqs ∧
        t.subtree d level idx = some { level, idx, phase := 0, done := [], major := (s.prot_ d).highMajor + 1 }))) ∧
  (∀ (s : State) (h : Half) (d : Fin 1024) (page : Nat) (errs : List Burst) (w : WbEntry), s.sound = true →
    s.home d = h → s.locked d page = false →
    (s.chan (chanOf h (s.pageNow d page).addr)).wb.find? (fun w => w.dom == d.val && w.line / 64 == page && w.slot.isNone) = some w →
    chanOf h (w.ma / 4) = chanOf h (s.pageNow d page).addr → chanOf h (w.ma / 4) < 24 →
    s.atRollover d w.line = true → s.rollMay (chanOf h (w.ma / 4)) w = true → s.treeFenced d w.line = false →
    (s.ctr d page).major < 2 ^ 64 - 2 → chanHalf (chanOf h (w.ma / 4)) = h →
    ∃ t, exec (.counterRollover h d page errs) s = .next t ∧
      t.ctrs = (s.putCtr d page { major := (s.ctr d page).major + 1, minors := 0 }).ctrs ∧
      w ∉ (t.chan (chanOf h (w.ma / 4))).wb ∧
      t.fld protEvtCntRollover = satAdd protEvtCntRollover.width (s.fld protEvtCntRollover) 1) ∧
  (∀ (s : State) (d : Fin 1024) (errs : List Burst), s.sound = true → s.top d ≠ 0 →
    ((decodeBurst (encodeLine (s.node d (s.top d) 0) false ^^^ errs.headD 0)).outcome = 1 ∨
      (decodeBurst (encodeLine (s.node d (s.top d) 0) false ^^^ errs.headD 0)).outcome = 3 →
      ∃ t, exec (.rootParityFail d errs) s = .next t ∧ t.prot = (s.updProt d fun p =>
        { p with root := BitVec.ofNat 64 (s.nodeTag d (s.top d) 0 (s.nodeBytes d (s.top d) 0)) }).prot ∧ t.reqs = s.reqs ∧
        t.dram = s.dram) ∧
    ((decodeBurst (encodeLine (s.node d (s.top d) 0) false ^^^ errs.headD 0)).outcome = 5 →
      ∃ t, exec (.rootParityFail d errs) s = .next t ∧
        (t.subtree d (s.top d) 0).map (·.phase) = some (if s.mayRepair d then 2 else 1) ∧ t.dram = s.dram)) ∧
  (∀ (s : State) (h : Half) (d : Fin 1024) (level idx : Nat) (errs : List Burst) (f : Subtree), s.sound = true →
    s.subtree d level idx = some f → f.phase = 0 → s.home d = h → 0 < level → s.treeMay h d level idx = true →
    ∃ t, exec (.treeLocalRebuild h d level idx errs) s = .next t ∧ (t.subtree d level idx = none ∨
      (t.subtree d level idx).map (·.phase) = some (if s.mayRepair d then 2 else 1))) ∧
  (∀ (s : State) (h : Half) (d : Fin 1024) (level idx page : Nat) (f : Subtree), s.sound = true →
    s.subtree d level idx = some f → f.phase ≠ 0 → s.home d = h → f.covers page = true → f.done.contains page = false →
    s.locked d page = false → s.treeMay h d 0 page = true → (s.pageNow d page).state = .near →
    ∃ t, exec (.subtreeRebuild h d level idx page) s = .next t ∧
      t.ctrs = (s.putCtr d page { major := f.major, minors := 0 }).ctrs ∧
      (t.subtree d level idx).map (·.done) = some (page :: f.done) ∧
      (t.subtree d level idx).map (·.poisoned) = some (f.poisoned + 64) ∧
      ((s.poison.get h).length + 64 ≤ poisonMax → ∀ i < 64, t.listed h d (page * 64 + i) = true)) ∧
  (∀ (s : State) (h : Half) (d : Fin 1024) (level idx : Nat) (f : Subtree), s.sound = true → s.subtree d level idx = some f →
    f.phase ≠ 0 → s.home d = h → s.treeMay h d level idx = true →
    (∀ q ∈ s.pagesOf d, f.covers q.1 = true → q.2.state = .zero ∨ f.done.contains q.1 = true) →
    (∀ q ∈ s.extsOf d, q.2.kind = .frame → ∀ i, i < 512 → f.covers (q.1 * 512 + i) = true → f.done.contains (q.1 * 512 + i) = true) →
    ∃ t, exec (.subtreeInstall h d level idx) s = .next t ∧
      (t.prot_ d).fences = (s.prot_ d).fences.filter (fun x => !(x.level == level && x.idx == idx)) ∧
      f.major ≤ (t.prot_ d).highMajor ∧ t.reqs = s.reqs ∧
      Out.toFm "PROT_SUBTREE_FENCED" [d, level, idx, f.repaired, f.poisoned, f.discarded] ∈ t.out)


/-! ### The shingle tier (06_shingle) -/

/-- Static sets: ACTIVATE answers 1 for set 0 and 2 for a set that is active, else the check of R169; a set that passes
becomes ACTIVE with its fingerprint (R169, R171). CLEAR answers 1 for set 0, 0 for a set that is not active, 3 for one that
slots use; else the set is inactive. CLEAR of the histogram sets every count to 0. The model's choices that it rests on: log
107. -/
def Obligations.StaticSets : Prop :=
  (∀ (s : State) (set : Fin 8), s.sound = true → s.takesWrite .plain false none = true →
    ∃ t, exec (.setActivate set) s = .next t ∧ t.fld shgSetResultSet = set.val ∧ t.flag shgSetResultDone = true ∧
      t.fld shgSetResultResult = (if set.val = 0 then 1 else if s.setActive set = true then 2 else checkLens (s.setLens set)) ∧
      (t.fld shgSetResultResult ≠ 0 → ∀ f : Fld, f.key ≠ shgSetResult → t.fld f = s.fld f) ∧
      (t.fld shgSetResultResult = 0 → t.fld (shgSetStateState set) = 1 ∧
        t.fld (shgSetStateFp set) = fingerprint (s.setLens set) ∧
        (∀ f : Fld, f.key ≠ shgSetResult → f.key ≠ shgSetState set → t.fld f = s.fld f)) ∧ t.dram = s.dram) ∧
  (∀ (s : State) (set : Fin 8), s.sound = true → s.takesWrite .plain false none = true →
    ∃ t, exec (.setClear set) s = .next t ∧ t.fld shgSetResultSet = set.val ∧ t.flag shgSetResultDone = true ∧
      t.fld shgSetResultResult = (if set.val = 0 then 1 else if s.setActive set = false then 0
        else if s.fld (shgSetUseUseA set) + s.fld (shgSetUseUseB set) ≠ 0 then 3 else 0) ∧
      (t.fld shgSetResultResult = 0 → s.setActive set = true → t.fld (shgSetStateState set) = 0 ∧ t.fld (shgSetStateFp set) = 0) ∧
      (∀ f : Fld, f.key ≠ shgSetResult → f.key ≠ shgSetState set → t.fld f = s.fld f) ∧ t.dram = s.dram) ∧
  (∀ s : State, s.sound = true → s.takesWrite .plain false none = true →
    ∃ t, exec .histClear s = .next t ∧ (∀ i, i < 153 → t.fld (shgHistCountEven i) = 0 ∧ t.fld (shgHistCountOdd i) = 0) ∧
      (∀ f : Fld, (∀ i, i < 153 → f.key ≠ shgHist i) → t.fld f = s.fld f) ∧ t.dram = s.dram)

/-- Compression: a NEAR page on offer whose turn has come, whose lines are good and whose streams, empty for chunks of zeros,
fit a slot class that has room, in a domain with neither a static set nor RECHECK, is kept as a compression under way and
stays NEAR; the commit makes it SHINGLE in its slot once the slot's lines are in the write buffer, unless a write has touched
it (R160, R175, R182). Chunks: a chunk that decodes answers the read that waits for it with its line, poisoned where the line
is listed so; a first failure waits for its second decode on another cluster; without a second decode, or with a second
failure, the read is answered poisoned and the page's promotion is due; a second decode that succeeds is used (R172 to R174,
R180). The model's choices that it rests on: logs 11, 57, 143, 147. -/
def Obligations.CompressionAndChunks : Prop :=
  (∀ (s u : State) (h : Half) (d : Fin 1024) (page : Nat) (errs rest : List Burst) (cluster : Fin 8)
      (streams : List (List Byte)) (pick k : Nat) (ls : List (Line × Bool)), s.sound = true →
    s.mayCompress h d page cluster →
    ((s.takeOffer h d page).took (chanOf h (s.pageNow d page).addr) 1).readPageLines h d page (s.pageNow d page).addr errs =
      (ls, rest, u) → ls.any (·.2) = false →
    u.eff (domPolicyShgTableMode d) ≠ 0 → u.effFlag (domPolicyVerifyRecheck d) = false → u.flag shgHistCtrlEnable = false →
    s.effFlag (domPolicyVerifyRecheck d) = false →
    slotClass (chunkStreams (pageBytes ls) streams).flatten.length = some k → (u.takeSlot h k pick none).isSome = true →
    ∃ t j, exec (.pageCompress h d page errs cluster streams false pick) s = .next t ∧
      (t.shg.get h).comps = (s.shg.get h).comps ++ [j] ∧ j.dom = d.val ∧ j.page = page ∧ j.frame = (s.pageNow d page).addr ∧
      j.k = k ∧ j.setNo = none ∧ j.dirtied = false ∧ j.cluster = cluster.val ∧ t.pages = s.pages ∧
      (t.mover.get h).offers = (s.mover.get h).offers.filter (· != (d.val, page))) ∧
  (∀ (s : State) (h : Half) (d : Fin 1024) (page : Nat) (j : CompJob), s.sound = true →
    (s.shg.get h).comps.find? (fun j => j.dom == d.val && j.page == page) = some j → s.locked d page = false →
    j.dirtied = false → (s.ext d (page / 512)).kind = .paged → (s.page d page).state = .near → (s.page d page).addr = j.frame →
    j.placed = true → s.writesPast d page = false → s.lockFree h = true → (∀ x ∈ s.reqs, ¬ x.waitsAt5 h d page) →
    ∃ t, exec (.pageCompressCommit h d page) s = .next t ∧ (t.shg.get h).comps = (s.shg.get h).comps.filter (· != j) ∧
      t.pages = cellPut {} s.pages (d * 2 ^ 36 + page) { s.page d page with state := .shingle, cls := j.k, addr := j.slot } ∧
      t.reqs = s.reqs) ∧
  (∀ (s : State) (h : Half) (d : Fin 1024) (page : Nat) (j : CompJob), s.sound = true →
    (s.shg.get h).comps.find? (fun j => j.dom == d.val && j.page == page) = some j → s.locked d page = false → j.dirtied = true →
    ∃ t, exec (.pageCompressCommit h d page) s = .next t ∧ (t.shg.get h).comps = (s.shg.get h).comps.filter (· != j) ∧
      t.pages = s.pages ∧ t.reqs = s.reqs ∧ t.dram = s.dram) ∧
  (∀ (s : State) (h : Half) (d : Fin 1024) (page : Nat) (chunk : Fin 4) (cluster : Fin 8) (r : Req) (p id : Nat)
      (rid : Fin 65536), s.sound = true → s.req rid = some r → r.org = .host p id → r.waitsChunk h d page chunk →
    (s.shg.get h).redecodes.any (fun x => x.dom == d.val && x.page == page && x.rid == some rid.val && x.chunk == chunk.val) = false →
    s.otherCluster h none = true → s.fenced (uDecomp h.idx cluster) = false → s.granted h d page (some rid.val) chunk = true →
    (∀ ls, (s.decode r.slotLines chunk false).toOption = some ls →
      ∃ t q, exec (.chunkDecode h d page (some rid) chunk cluster 0) s = .next t ∧ t.req rid = some q ∧ q.tag = r.tag ∧
        q.stage = s.answerStage r ∧ q.rpoison = s.listedLine d r.line ∧
        q.rdata = (if s.listedLine d r.line then 0 else nth 0 ls (r.line % 16)) ∧ t.reqs.length = s.reqs.length ∧
        t.pages = s.pages ∧ t.dram = s.dram) ∧
    (s.flag shgCfgRedecodeEn = true → s.otherCluster h (some cluster.val) = true →
      ∃ t, exec (.chunkDecode h d page (some rid) chunk cluster 1) s = .next t ∧ t.reqs = s.reqs ∧
        (t.shg.get h).redecodes = (s.shg.get h).redecodes ++
          [{ dom := d, page, slot := r.ma / 4, rid := some rid, chunk, error := eIllegal, cluster }] ∧ t.dram = s.dram) ∧
    (s.flag shgCfgRedecodeEn = false →
      ∃ t q, exec (.chunkDecode h d page (some rid) chunk cluster 1) s = .next t ∧ t.req rid = some q ∧ q.tag = r.tag ∧
        q.stage = s.answerStage r ∧ q.rdata = 0 ∧ q.rpoison = true ∧ t.reqs.length = s.reqs.length ∧
        (t.mover.get h).errPromotes.contains (d.val, page) = true)) ∧
  (∀ (s : State) (h : Half) (d : Fin 1024) (page : Nat) (chunk : Fin 4) (cluster : Fin 8) (r : Req) (p id : Nat)
      (rid : Fin 65536) (x : Redecode), s.sound = true → s.req rid = some r → r.org = .host p id →
    r.waitsChunk h d page chunk →
    (s.shg.get h).redecodes.find? (fun x => x.dom == d.val && x.page == page && x.rid == some rid.val && x.chunk == chunk.val) = some x →
    x.cluster ≠ cluster → s.otherCluster h (some x.cluster) = true → s.fenced (uDecomp h.idx cluster) = false →
    s.granted h d page (some rid.val) chunk = true →
    (∀ ls, (s.decode r.slotLines chunk false).toOption = some ls →
      ((s.shg.get h).faults.filter (fun q => q.1 == uDecomp h.idx x.cluster)).length < 2 →
      ∃ t q, exec (.chunkRedecode h d page (some rid) chunk cluster 0) s = .next t ∧ t.req rid = some q ∧ q.tag = r.tag ∧
        q.stage = s.answerStage r ∧ q.rpoison = s.listedLine d r.line ∧
        q.rdata = (if s.listedLine d r.line then 0 else nth 0 ls (r.line % 16)) ∧ t.reqs.length = s.reqs.length ∧
        (t.shg.get h).redecodes = (s.shg.get h).redecodes.filter (· != x)) ∧
    (∃ t q, exec (.chunkRedecode h d page (some rid) chunk cluster 1) s = .next t ∧ t.req rid = some q ∧ q.tag = r.tag ∧
      q.stage = s.answerStage r ∧ q.rdata = 0 ∧ q.rpoison = true ∧ t.reqs.length = s.reqs.length ∧
      (t.shg.get h).redecodes = (s.shg.get h).redecodes.filter (· != x) ∧
      (t.mover.get h).errPromotes.contains (d.val, page) = true))

/-- Promotion: a write to a SHINGLE page takes the page's lock and a frame (R183); without a frame the page becomes LOST_WRITE
(R184); an error promotion, or one of the page mover, takes them without a write (R174; 07_tiering R190). When every chunk has
come, the page is NEAR in the frame, its 64 lines are in the write buffer of the frame's channel, the lock is given back and
the write completes (R183). The model's choices that it rests on: logs 29, 108, 150. -/
def Obligations.Promotions : Prop :=
  (∀ (s u : State) (r : Req) (rid : Fin 65536) (errs : List Burst) (pick a : Nat), s.sound = true → s.req rid = some r →
    r.stage = .promoteWait → s.locked r.dom (r.line / 64) = false → (s.pageNow r.dom (r.line / 64)).state = .shingle →
    s.treeFenced r.dom r.line = false → s.serves (chanOf r.home (s.pageNow r.dom (r.line / 64)).addr) = true →
    s.lockFree r.home = true → s.ctrReady r.dom r.line = true →
    s.alloc r.home 16 16 (.frame r.dom (r.line / 64)) pick none = some (a, u) →
    ∃ t q p, exec (.pagePromote rid errs pick) s = .next t ∧ t.req rid = some q ∧ q.tag = r.tag ∧ q.stage = .promoting ∧
      t.reqs.length = s.reqs.length ∧ t.locks = s.locks ++ [{ half := r.home, dom := r.dom, page := r.line / 64 }] ∧
      (t.shg.get r.home).promos = (s.shg.get r.home).promos ++ [p] ∧ p.rid = some rid.val ∧ p.frame = a ∧ p.dom = r.dom ∧
      p.page = r.line / 64 ∧ p.slot = (s.pageNow r.dom (r.line / 64)).addr ∧ t.media = u.media ∧ t.pages = s.pages) ∧
  (∀ (s : State) (r : Req) (p id : Nat) (rid : Fin 65536) (errs : List Burst) (pick : Nat), s.sound = true →
    s.req rid = some r → r.org = .host p id →
    r.stage = .promoteWait → s.locked r.dom (r.line / 64) = false → (s.pageNow r.dom (r.line / 64)).state = .shingle →
    s.treeFenced r.dom r.line = false → s.serves (chanOf r.home (s.pageNow r.dom (r.line / 64)).addr) = true →
    s.lockFree r.home = true → s.ctrReady r.dom r.line = true →
    s.alloc r.home 16 16 (.frame r.dom (r.line / 64)) pick none = none → s.mirroring r.dom = false →
    s.mState r.dom ≠ mPriSolo → (∀ x ∈ s.reqs, ¬ x.waitsAt5 r.home r.dom (r.line / 64)) →
    ∃ t q, exec (.pagePromote rid errs pick) s = .next t ∧ t.req rid = some q ∧ q.tag = r.tag ∧
      q.stage = s.answerStage r ∧ q.rpoison = false ∧ t.reqs.length = s.reqs.length ∧
      t.pages = cellPut {} s.pages (r.dom * 2 ^ 36 + r.line / 64)
        { s.page r.dom (r.line / 64) with state := .lost, cls := 0, addr := 0 }) ∧
  (∀ (s u : State) (h : Half) (d : Fin 1024) (page : Nat) (errs : List Burst) (pick a : Nat), s.sound = true →
    ((s.mover.get h).errPromotes.contains (d.val, page) || (s.mover.get h).promotes.contains (d.val, page)) = true →
    s.locked d page = false → (s.pageNow d page).state = .shingle →
    s.serves (chanOf h (s.pageNow d page).addr) = true → s.treeFenced d (page * 64) = false → s.ctrReady d (page * 64) = true →
    s.lockFree h = true →
    s.moverMay h (chanOf h (s.pageNow d page).addr) (if (s.mover.get h).errPromotes.contains (d.val, page) then 2 else 5) = true →
    s.alloc h 16 16 (.frame d page) pick none = some (a, u) →
    ∃ t p, exec (.errorPromotion h d page errs pick) s = .next t ∧
      t.locks = s.locks ++ [{ half := h, dom := d.val, page }] ∧ (t.shg.get h).promos = (s.shg.get h).promos ++ [p] ∧
      p.rid = none ∧ p.frame = a ∧ p.error = (s.mover.get h).errPromotes.contains (d.val, page) ∧ t.reqs = s.reqs ∧
      t.media = u.media ∧ t.pages = s.pages) ∧
  (∀ (s : State) (h : Half) (d : Fin 1024) (page : Nat) (p : Promo), s.sound = true →
    (s.shg.get h).promos.find? (fun p => p.dom == d.val && p.page == page) = some p → p.rid = none →
    p.chunks.any Option.isNone = false → s.serves (chanOf h p.frame) = true → s.softRoom (chanOf h p.frame) 64 = true →
    (s.eff (domPolicyProt d) = 2 → s.slotReads d page = false) → (s.ext d (page / 512)).kind = .paged →
    (∀ x ∈ s.reqs, ¬ x.waitsAt5 h d page) →
    ∃ t q, exec (.pagePromoteCommit h d page) s = .next t ∧ (t.shg.get h).promos = (s.shg.get h).promos.filter (· != p) ∧
      t.locks = s.locks.filter (fun l => !(l.dom == d.val && l.page == page)) ∧ q.state = .near ∧ q.cls = 0 ∧ q.addr = p.frame ∧
      t.pages = cellPut {} s.pages (d * 2 ^ 36 + page) q ∧ t.reqs = s.reqs ∧
      (∀ i, i < 64 → (t.chan (chanOf h p.frame)).wb.any (fun w => w.ma == p.frame * 4 + i && w.dom == d.val &&
        w.line == page * 64 + i && w.cls == 8 && w.enables == allBytes) = true)) ∧
  (∀ (s : State) (h : Half) (d : Fin 1024) (page : Nat) (p : Promo) (r : Req) (port id : Nat), s.sound = true →
    (s.shg.get h).promos.find? (fun p => p.dom == d.val && p.page == page) = some p → p.rid = some r.rid →
    p.chunks.any Option.isNone = false → s.req r.rid = some r → r.org = .host port id → r.dom = d → r.stage = .promoting →
    s.serves (chanOf h p.frame) = true →
    (s.chan (chanOf h p.frame)).wb.length + 64 ≤ (if r.green0 then 512 else 512 - s.fld rqCfgQc0WbReserve) →
    (s.eff (domPolicyProt d) = 2 → s.slotReads d page = false) → s.mirHeld d = false → s.mirroring d = false →
    s.mState d ≠ mPriSolo → (∀ x ∈ s.reqs, ¬ x.waitsAt5 h d page) →
    ∃ t q, exec (.pagePromoteCommit h d page) s = .next t ∧ (t.shg.get h).promos = (s.shg.get h).promos.filter (· != p) ∧
      t.locks = s.locks.filter (fun l => !(l.dom == d.val && l.page == page)) ∧ t.req r.rid = some q ∧ q.tag = r.tag ∧
      q.stage = s.answerStage r ∧ q.rpoison = false ∧ t.reqs.length = s.reqs.length ∧
      (∀ i, i < 64 → (t.chan (chanOf h p.frame)).wb.any (fun w => w.ma == p.frame * 4 + i && w.dom == d.val &&
        w.line == page * 64 + i && w.cls == r.cls && w.enables == allBytes) = true))

/-! ### The page map (03_domains) and the page mover (07_tiering) -/

/-- A shadow write of DOM_WINDOW or DOM_CTRL is stored and marks the group's shadows, or, where the group is sealed, is
ignored and shown (03_domains R100; 11_tide_clock R271). Staging takes two copies on two channels, or finds no space (R100).
MAP_ZERO: a run of an inactive domain or past its window stops with ERROR 1 or 2, an empty one is done, and any other runs
(R102). A page of a PAGED extent, on which no request is under way, returns to ZERO and its media is freed after the reads of
its old mapping; after the last page the run is done (R99, R102, R431). A drain whose readers are all complete ends. The
model's choices that it rests on: log 29. -/
def Obligations.ExtentTablesAndZero : Prop :=
  (∀ (s : State) (d : Fin 1024) (v : Word), s.sound = true → s.takesWrite .plain false none = true →
    s.bit topCommitStatusSealed 0 = false →
    (∃ t, exec (.domShadowWrite d true v) s = .next t ∧ t.fld (domWindowBase d) = bitsOf v.toNat 0 27 ∧
      t.fld (domWindowSize d) = bitsOf v.toNat 27 28 ∧ t.bit topShadowStatusDirty 0 = true ∧ t.extents = s.extents ∧
      t.dram = s.dram) ∧
    (∃ t, exec (.domShadowWrite d false v) s = .next t ∧ t.fld (domCtrlValid d) = bitsOf v.toNat 0 1 ∧
      t.fld (domCtrlHomeHalf d) = bitsOf v.toNat 1 1 ∧ t.fld (domCtrlCoherence d) = bitsOf v.toNat 2 1 ∧
      t.fld (domCtrlAllowDiscard d) = bitsOf v.toNat 3 1 ∧ t.bit topShadowStatusDirty 0 = true ∧ t.extents = s.extents ∧
      t.dram = s.dram)) ∧
  (∀ (s : State) (d : Fin 1024) (w : Bool) (v : Word), s.takesWrite .plain false none = true →
    s.bit topCommitStatusSealed 0 = true →
    exec (.domShadowWrite d w v) s = .next (s.setFlag topCommitStatusSealedWrite true)) ∧
  (∀ (s u v : State) (d : Fin 1024) (h : Half) (size n pick1 pick2 a b : Nat), s.sound = true → (s.map d).staging = some size →
    h = halfOf (s.fld (domCtrlHomeHalf d)) → n = tableUnits size (s.fld (domPolicyProt d)) →
    s.alloc h n 16 (.extTable d 0) pick1 none = some (a, u) →
    u.alloc h n 16 (.extTable d 1) pick2 (some (chanOf h a)) = some (b, v) →
    ∃ t, exec (.extentTableStaged d pick1 pick2) s = .next t ∧ t.flag (domStatusStageReady d) = true ∧ t.media = v.media ∧
      t.maps = cellPut {} s.maps d { s.map d with staging := none, staged := some ⟨h, a, b, size, n⟩ } ∧ t.reqs = s.reqs) ∧
  (∀ (s : State) (d : Fin 1024) (size pick1 pick2 : Nat), (s.map d).staging = some size →
    s.alloc (halfOf (s.fld (domCtrlHomeHalf d))) (tableUnits size (s.fld (domPolicyProt d))) 16 (.extTable d 0) pick1 none = none →
    exec (.extentTableStaged d pick1 pick2) s = .next (s.updMap d fun m => { m with staging := none, noSpace := true })) ∧
  (∀ s : State, s.sound = true → s.takesWrite .plain false none = true → s.fld mapZeroStatusState ≠ 1 →
    ∃ t, exec .mapZeroStart s = .next t ∧
      t.fld mapZeroStatusState = (if s.domOn (s.fld mapZeroArg0Domain) = false ∨
          s.winSize (s.fld mapZeroArg0Domain) * 512 ≤ s.fld mapZeroArg0FirstPage ∨
          s.winSize (s.fld mapZeroArg0Domain) * 512 < s.fld mapZeroArg0FirstPage + s.fld mapZeroArg1Count then 3
        else if s.fld mapZeroArg1Count = 0 then 2 else 1) ∧
      t.fld mapZeroStatusError = (if s.domOn (s.fld mapZeroArg0Domain) = false then 1
        else if s.winSize (s.fld mapZeroArg0Domain) * 512 ≤ s.fld mapZeroArg0FirstPage ∨
          s.winSize (s.fld mapZeroArg0Domain) * 512 < s.fld mapZeroArg0FirstPage + s.fld mapZeroArg1Count then 2 else 0) ∧
      (t.fld mapZeroStatusState = 1 → t.zero = some ⟨s.fld mapZeroArg0Domain, s.fld mapZeroArg0FirstPage,
        s.fld mapZeroArg0FirstPage + s.fld mapZeroArg1Count, [], false, none, false⟩) ∧
      (∀ f : Fld, f.key ≠ mapZeroStatus → t.fld f = s.fld f) ∧ t.pages = s.pages ∧ t.dram = s.dram) ∧
  (∀ (s : State) (picks : List Nat) (z : ZeroRun), s.sound = true → s.zero = some z → z.dom < 1024 → z.next < z.stop →
    (z.held = true ∨ s.zeroWaits z.dom z.next 1 = false) → s.linesBusy z.dom (z.next * 64) 64 = false →
    s.mirHeld z.dom = false → s.mirroring z.dom = false → s.mState z.dom ≠ mPriSolo →
    (∀ x ∈ s.reqs, ¬ x.waitsAt5 (s.home z.dom) z.dom z.next) → (s.ext z.dom (z.next / 512)).kind = .paged →
    (s.ext z.dom (z.next / 512)).moving = false → (s.page z.dom z.next).state = .near →
    ∃ t, exec (.mapZeroPage picks) s = .next t ∧ t.pages = cellPut {} s.pages (z.dom * 2 ^ 36 + z.next) {} ∧
      t.media = s.media.map (fun (b : MediaBlk) => if b.half == s.home z.dom && b.base == (s.page z.dom z.next).addr then
        { b with owner := MediaOwner.draining s.drainNext } else b) ∧ t.reqs = s.reqs ∧
      t.locks.any (fun l => l.dom == z.dom && l.page == z.next) = false ∧
      (z.next + 1 < z.stop → t.zero = some { z with next := z.next + 1, held := false }) ∧
      (z.next + 1 = z.stop → z.await = none → z.cut = false → t.zero = none ∧ t.fld mapZeroStatusState = 2 ∧
        t.fld mapZeroStatusError = (if z.noMedia.isEmpty then 0 else 3))) ∧
  (∀ (s : State) (i : DrainItem) (item : Nat), s.sound = true → s.drains.find? (fun i => i.id == item) = some i →
    i.waits = [] → i.slots = [] → i.dom < 1024 →
    ∃ t, exec (.mediaDrainDone item) s = .next t ∧ t.drains = s.drains.filter (· != i) ∧
      t.flag (domStatusDraining i.dom) = (s.drains.filter (· != i)).any (fun x => x.dom == i.dom && x.commit) ∧
      t.media = s.media.filter (fun (b : MediaBlk) => b.owner != MediaOwner.draining item) ∧ t.pages = s.pages ∧ t.dram = s.dram)

/-- The walk after a fence retires a FRAME extent on the fenced channel and records it (R91); a lost second copy is built on
another channel (R93); a QC0 extent is materialised in a 2 MiB frame (R92); an audit returns the media that only lost
structures named (R97). Settings of the page mover: TIER_CFG keeps its three fields of which 0 is reserved where 0 is written
(00_scope R17); TIER_CAP_CFG and TIER_DOM_d are taken where they are in order, else refused with CFG_REJECT (R189, R194). A
lost-write run closes its record (R199). The model's choices that it rests on: logs 29, 104, 113. -/
def Obligations.MapAndTierSettings : Prop :=
  (∀ (s u : State) (c : Fin 24) (d e : Nat) (rest : List (Nat × Nat)) (picks : List Nat), s.sound = true → d < 1024 →
    s.walks.find? (fun w => w.channel == c.val) = some { channel := c, todo := (d, e) :: rest } → s.walkMay c d e = true →
    s.area d e = none → (s.ext d e).kind = .frame → (s.frameMoves.any fun m => m.dom == d && m.ext == e) = false →
    chanOf (s.home d) (s.ext d e).addr = c →
    (match s.tableChan d with | some k => s.took k 1 | none => s).readTable (s.home d) d e = u → (u.ext d e).kind = .frame →
    ∃ t, exec (.fenceWalkStep c picks) s = .next t ∧
      t.walks = (if rest = [] then s.walks.filter (fun w => w.channel != c.val)
        else mapFirst (fun w => w.channel == c.val) (fun w => { w with todo := rest }) s.walks) ∧
      Out.toFm "MAP_EXTENT_RETIRED" [d, s.dpaOf d (e * 32768), 32768] ∈ t.out ∧
      (rest = [] → Out.toFm "MAP_WALK_DONE" [c.val] ∈ t.out) ∧ (t.ext d e).kind = .retired) ∧
  (∀ (s u v : State) (d : Fin 1024) (e pick b : Nat) (x : Extent), s.sound = true → s.ext d e = x →
    x.kind = .paged → s.mediaLost (s.home d) x.addr = false → x.copy2 = none → s.extMoving d e = false →
    s.copyMay (s.home d) x.addr = true → (s.took (chanOf (s.home d) x.addr) 1).readTable (s.home d) d e = u →
    u.alloc (s.home d) 16 16 (.pageTable d e 1) pick (some (chanOf (s.home d) x.addr)) = some (b, v) →
    ∃ t, exec (.metaCopyRebuild d (some e) pick) s = .next t ∧ t.media = v.media ∧
      t.ext d e = { x with copy2 := some b } ∧ t.reqs = u.reqs) ∧
  (∀ (s u : State) (d : Fin 1024) (pick a b : Nat), s.sound = true → (s.map d).table1 = some a → (s.map d).table2 = none →
    a < 2 ^ 40 → s.mediaLost (s.home d) a = false → s.copyMay (s.home d) a = true →
    ((s.took (chanOf (s.home d) a) 1).forget (s.home d) []).alloc (s.home d)
      (tableUnits (s.map d).extents (s.eff (domPolicyProt d))) 16 (.extTable d 1) pick (some (chanOf (s.home d) a)) = some (b, u) →
    ∃ t, exec (.metaCopyRebuild d none pick) s = .next t ∧ t.media = u.media ∧
      t.maps = cellPut {} s.maps d { s.map d with table1 := some a, table2 := some b } ∧ t.fld (domMetaExtTable d) = a ∧
      t.reqs = s.reqs) ∧
  (∀ (s u : State) (d : Fin 1024) (e pick a : Nat), s.sound = true → s.unmade d e = true → s.extLocked d e = false →
    s.extBusy d e = false → ((s.ext d e).kind = .unmapped ∨ (s.ext d e).kind = .zero) →
    (s.needArea d e).bind (fun w => w.alloc (s.home d) extUnits extUnits (.bigFrame d e) pick none) = some (a, u) →
    s.moverMay (s.home d) (chanOf (s.home d) a) 3 = true →
    ∃ t, exec (.materialiseExtent d e pick) s = .next t ∧ t.media = u.media ∧ t.reqs = s.reqs ∧
      t.ext d e = { kind := .frame, addr := a, dirty := (s.ext d e).dirty }) ∧
  (∀ (s : State) (h : Half), s.sound = true → s.reqs.any (fun r => r.pastMap && r.home == h && !r.answered) = false →
    ∃ t, exec (.frameAudit h) s = .next t ∧ t.pages = s.pages ∧ t.extents = s.extents ∧ (t.shg.get h).orphans = [] ∧
      ((s.shg.get h).orphans = [] →
        t.media = s.media.filter (fun (b : MediaBlk) => !(b.half == h && b.owner == .orphan))) ∧ t.dram = s.dram) ∧
  (∀ (s : State) (v : Word), s.sound = true → s.takesWrite .plain false none = true →
    ∃ t, exec (.tierCfgWrite v) s = .next t ∧
      t.fld tierCfgEpochS = (if bitsOf v.toNat 0 16 = 0 then s.fld tierCfgEpochS else bitsOf v.toNat 0 16) ∧
      t.fld tierCfgDecayShift = (if bitsOf v.toNat 16 3 = 0 then s.fld tierCfgDecayShift else bitsOf v.toNat 16 3) ∧
      t.fld tierCfgBackoffEpochs = (if bitsOf v.toNat 19 4 = 0 then s.fld tierCfgBackoffEpochs else bitsOf v.toNat 19 4) ∧
      t.fld tierCfgLowColdAdd = bitsOf v.toNat 23 8 ∧ t.fld tierCfgMoveCap = bitsOf v.toNat 31 16 ∧
      (∀ f : Fld, f.key ≠ tierCfg → t.fld f = s.fld f) ∧ t.dram = s.dram) ∧
  (∀ (s : State) (v : Word), s.sound = true → s.takesWrite .plain false none = true →
    (bitsOf v.toNat 20 10 < bitsOf v.toNat 10 10 ∧ bitsOf v.toNat 10 10 < bitsOf v.toNat 0 10 ∧ bitsOf v.toNat 0 10 ≤ 1000 ∧
      bitsOf v.toNat 30 10 ≤ 1000 →
      ∃ t, exec (.tierCapCfgWrite v) s = .next t ∧ t.fld tierCapCfgLowPm = bitsOf v.toNat 0 10 ∧
        t.fld tierCapCfgPressurePm = bitsOf v.toNat 10 10 ∧ t.fld tierCapCfgCriticalPm = bitsOf v.toNat 20 10 ∧
        t.fld tierCapCfgHystPm = bitsOf v.toNat 30 10 ∧ t.dram = s.dram) ∧
    (¬ (bitsOf v.toNat 20 10 < bitsOf v.toNat 10 10 ∧ bitsOf v.toNat 10 10 < bitsOf v.toNat 0 10 ∧ bitsOf v.toNat 0 10 ≤ 1000 ∧
      bitsOf v.toNat 30 10 ≤ 1000) → exec (.tierCapCfgWrite v) s = .next (s.setFlag tierEvtCfgReject true))) ∧
  (∀ (s : State) (d : Fin 1024) (v : Word), s.sound = true → s.takesWrite .plain false none = true →
    (bitsOf v.toNat 0 8 < bitsOf v.toNat 8 8 →
      ∃ t, exec (.tierDomWrite d v) s = .next t ∧ t.fld (tierDomColdThresh d) = bitsOf v.toNat 0 8 ∧
        t.fld (tierDomHotThresh d) = bitsOf v.toNat 8 8 ∧ (∀ f : Fld, f.key ≠ tierDom d → t.fld f = s.fld f) ∧ t.dram = s.dram) ∧
    (bitsOf v.toNat 8 8 ≤ bitsOf v.toNat 0 8 → exec (.tierDomWrite d v) s = .next (s.setFlag tierEvtCfgReject true))) ∧
  (∀ (s : State) (h : Half) (d : Fin 1024) (r : LostRun) (q : FaultRec), s.sound = true →
    (s.lostSecs.get h).any (fun x => x.dom == d.val && decide (x.start + 1000000000 ≤ s.now)) = false →
    (s.lostRuns.get h).find? (fun x => x.dom == d.val) = some r →
    s.records.find? (fun q => q.seq == r.seq && q.isOpen) = some q → (∀ x ∈ s.records, x.seq = r.seq → x = q) →
    ∃ t r', exec (.lostWriteRunClose h d) s = .next t ∧
      t.lostRuns.get h = (s.lostRuns.get h).filter (fun x => x.dom != d.val) ∧
      t.records.find? (fun q => q.seq == r.seq) = some r' ∧ r'.isOpen = false ∧ t.records.length = s.records.length ∧
      t.fld fltStatusOpen = s.fld fltStatusOpen - 1 ∧ t.dram = s.dram)

/-- Conversions and moves: a FRAME extent of an ALWAYS-cold domain becomes PAGED, its pages NEAR at their places; 512 pages
that are NEAR in one aligned frame become a FRAME extent at level 0 (R92; 07_tiering R191). A retirement moves a page out of
the range; a range with nothing in it is retired (05_dram R153). The page mover: a visit of an extent, whose map lines are on
die, decays its counts and lowers its pages' back-off (07_tiering R188, R191); a lap's end is counted, and is late or not
(R187). The model's choices that it rests on: logs 146, 159. -/
def Obligations.ConversionsMovesAndVisits : Prop :=
  (∀ (s u : State) (d : Fin 1024) (e : Nat) (errs : List Burst) (pick : Nat), s.sound = true →
    cellsWf (fun _ => ({} : Page)) s.pages = true →
    s.domOn d = true → s.eff (domPolicyTclass d) ≠ 0 → s.extLocked d e = false → (s.ext d e).kind = .frame →
    s.eff (domPolicyTier d) = 2 → s.moverMay (s.home d) (chanOf (s.home d) (s.ext d e).addr) 7 = true →
    s.splitExt d e pick = some u →
    ∃ t, exec (.extentConvert d e errs [pick]) s = .next t ∧ t.extents = u.extents ∧ t.media = u.media ∧
      ∀ i, i < 512 → t.page d (e * 512 + i) = { state := .near, addr := (s.ext d e).addr + 16 * i }) ∧
  (∀ (s : State) (d : Fin 1024) (e b : Nat) (errs : List Burst) (picks : List Nat), s.sound = true → s.domOn d = true →
    s.eff (domPolicyTclass d) ≠ 0 → s.joinBase d e = some b → s.fld (tierStatusLevel (s.home d).idx) = 0 →
    s.mediaLost (s.home d) b = false → s.moverMay (s.home d) (chanOf (s.home d) b) 7 = true →
    ∃ t x, exec (.extentConvert d e errs picks) s = .next t ∧ t.extents = cellPut {} s.extents (d * 2 ^ 27 + e) x ∧
      x.kind = .frame ∧ x.addr = b ∧ x.dirty = (s.ext d e).dirty) ∧
  (∀ (s : State) (c : Fin 24) (r : Nat) (rest : List Nat) (errs : List Burst) (picks : List Nat), s.sound = true →
    (s.chan c).retiring = r :: rest → (s.chan c).retired.contains r = false →
    s.media.filter (fun b => b.half == chanHalf c && overlaps b.base b.len (c % 12 * chanUnits + r * rangeUnits) rangeUnits) = [] →
    ∃ t, exec (.retirementMove c errs picks) s = .next t ∧ (t.chan c).retiring = rest ∧
      (t.chan c).retired = (s.chan c).retired ++ [r] ∧ (∀ x, x ≠ c.val → t.chan x = s.chan x) ∧ t.pages = s.pages ∧
      t.dram = s.dram) ∧
  (∀ (s u : State) (c : Fin 24) (r d p pick a : Nat) (rest : List Nat) (errs : List Burst) (b : MediaBlk), s.sound = true →
    (s.chan c).retiring = r :: rest → b.owner = .frame d p → d < 1024 → s.home d = chanHalf c →
    (s.media.filter (fun b => b.half == chanHalf c &&
      overlaps b.base b.len (c % 12 * chanUnits + r * rangeUnits) rangeUnits)).find? (fun b => !s.blockHeld (chanHalf c) b) = some b →
    s.moverMay (chanHalf c) c 1 = true → (s.ext d (p / 512)).kind = .paged → (s.page d p).state = .near →
    (s.page d p).addr = b.base → (s.took c 1).alloc (chanHalf c) 16 16 b.owner pick none = some (a, u) →
    ∃ t, exec (.retirementMove c errs [pick]) s = .next t ∧ t.reqs = s.reqs ∧
      t.pages = cellPut {} s.pages (d * 2 ^ 36 + p) { s.page d p with addr := a } ∧
      t.media = u.media.map (fun (x : MediaBlk) => if x.half == chanHalf c && x.base == b.base then
        { x with owner := MediaOwner.draining s.drainNext } else x)) ∧
  (∀ (s : State) (h : Half) (d : Fin 1024) (e : Nat), s.sound = true →
    cellsWf (fun _ => ({} : Page)) s.pages = true → s.domOn d = true →
    s.home d = h → s.eff (domPolicyTclass d) ≠ 0 → e < s.winSize d → (s.mover.get h).visited.contains (d.val, e) = false →
    s.visitMay h d e = true → s.cached h (.desc d (e / 4)) = true → (∀ i, i < 64 → s.cached h (.pte d (e * 64 + i)) = true) →
    s.extMoving d e = false → (s.ext d e).kind = .paged → s.fld (tierStatusLevel h.idx) ≠ 0 →
    ∃ t, exec (.extentVisit h d e) s = .next t ∧ (t.mover.get h).visited = (d.val, e) :: (s.mover.get h).visited ∧
      t.extents = s.extents ∧ ∀ i, i < 512 → t.page d (e * 512 + i) =
        { s.page d (e * 512 + i) with
          access := (s.page d (e * 512 + i)).access / 2 ^ s.fld tierCfgDecayShift
          backoff := (s.page d (e * 512 + i)).backoff - 1 }) ∧
  (∀ (s : State) (h : Half) (d : Fin 1024) (e : Nat), s.sound = true → s.domOn d = true →
    s.home d = h → s.eff (domPolicyTclass d) ≠ 0 → e < s.winSize d → (s.mover.get h).visited.contains (d.val, e) = false →
    s.visitMay h d e = true → s.cached h (.desc d (e / 4)) = true →
    s.extMoving d e = false → (s.ext d e).kind = .frame → s.eff (domPolicyTier d) = 0 →
    ∃ t, exec (.extentVisit h d e) s = .next t ∧ (t.mover.get h).visited = (d.val, e) :: (s.mover.get h).visited ∧
      t.extents = cellPut {} s.extents (d * 2 ^ 27 + e)
        { s.ext d e with access := (s.ext d e).access / 2 ^ s.fld tierCfgDecayShift } ∧ t.pages = s.pages) ∧
  (∀ (s : State) (h : Half), s.sound = true → s.lapDone h = true →
    (s.mover.get h).lapStart + s.fld tierCfgEpochS * 1000000000 ≤ s.now →
    ∃ t, exec (.tierLapEnd h) s = .next t ∧ t.fld (tierStatusLaps h.idx) = (s.fld (tierStatusLaps h.idx) + 1) % 2 ^ 32 ∧
      t.flag (tierStatusEpochOverrun h.idx) = decide ((s.mover.get h).lapStart + s.fld tierCfgEpochS * 1000000000 < s.now) ∧
      (t.mover.get h).lapStart = s.now ∧ (t.mover.get h).visited = [] ∧
      (∀ f : Fld, f.key ≠ tierStatus h.idx → f.key ≠ tierEvt → t.fld f = s.fld f) ∧ t.dram = s.dram)


/-! ### The offload engine (14_offload) -/

/-- Rings: ENABLE starts a ring that R321 does not refuse, and stops in ERROR with the reason one that it refuses; a ring that
is disabled stops when no job is left; TAIL beyond the ring is an error; ABORT_CLR empties the log (R321, R331, Table 14.1). A
descriptor that is fetched starts a job in its slot, or a job that R325 refuses with its status; a fetch that fails is an
error of the ring (R322, R325). A job that has ended writes its 16-byte record with the phase; where it is the job that HEAD
waits for, and no later record of the ring is written, HEAD passes it (R323); a record that is refused is an error of the
ring. The model's choices that it rests on: log 11. -/
def Obligations.RingsAndJobs : Prop :=
  (∀ (s : State) (p ld : Fin 16) (r : Fin 4), s.sound = true → s.present p ld = true → (s.func (fnOf p ld)).flr = false →
    s.feature (fnOf p ld) 0 = true → s.fld (oflRingStatusState (fnOf p ld) r) ≠ 1 →
    ∃ t, exec (.ringEnable p ld r) s = .next t ∧ t.flag (oflRingCtrlEnable (fnOf p ld) r) = true ∧
      t.fld (oflRingStatusState (fnOf p ld) r) = (if s.ringRefusal (fnOf p ld) r = 0 then 1 else 3) ∧
      t.fld (oflRingStatusReason (fnOf p ld) r) = s.ringRefusal (fnOf p ld) r ∧
      (∀ f : Fld, f.key ≠ oflRingCtrl (fnOf p ld) r → f.key ≠ oflRingStatus (fnOf p ld) r → t.fld f = s.fld f) ∧
      t.dram = s.dram) ∧
  (∀ (s : State) (p ld : Fin 16) (r : Fin 4), s.sound = true → s.present p ld = true → (s.func (fnOf p ld)).flr = false →
    (s.inFlight (fnOf p ld) r).length < 32 →
    ∃ t, exec (.ringDisable p ld r) s = .next t ∧ t.flag (oflRingCtrlEnable (fnOf p ld) r) = false ∧
      t.fld (oflRingStatusInflight (fnOf p ld) r) = (s.inFlight (fnOf p ld) r).length ∧
      t.fld (oflRingStatusState (fnOf p ld) r) =
        (if s.inFlight (fnOf p ld) r = [] ∧ s.fld (oflRingStatusState (fnOf p ld) r) = 1 then 2
          else s.fld (oflRingStatusState (fnOf p ld) r)) ∧
      (∀ f : Fld, f.key ≠ oflRingCtrl (fnOf p ld) r → f.key ≠ oflRingStatus (fnOf p ld) r → t.fld f = s.fld f) ∧
      t.jobs = s.jobs ∧ t.dram = s.dram) ∧
  (∀ (s : State) (p ld : Fin 16) (r : Fin 4) (v : Word), s.sound = true → s.present p ld = true →
    (s.func (fnOf p ld)).flr = false →
    ∃ t, exec (.ringTailWrite p ld r v) s = .next t ∧ t.fld (oflRingTailTail (fnOf p ld) r) = v.toNat % 2 ^ 15 ∧
      t.fld (oflRingStatusState (fnOf p ld) r) =
        (if s.fld (oflRingStatusState (fnOf p ld) r) = 1 ∧ s.fld (oflRingCfgSize (fnOf p ld) r) ≤ v.toNat % 2 ^ 15 then 3
          else s.fld (oflRingStatusState (fnOf p ld) r)) ∧
      (∀ f : Fld, f.key ≠ oflRingTail (fnOf p ld) r → f.key ≠ oflRingStatus (fnOf p ld) r → t.fld f = s.fld f) ∧
      t.jobs = s.jobs ∧ t.dram = s.dram) ∧
  (∀ (s : State) (p ld : Fin 16) (r : Fin 4), s.sound = true → s.present p ld = true → (s.func (fnOf p ld)).flr = false →
    ∃ t, exec (.ringAbortClear p ld r) s = .next t ∧ (∀ e, e < 16 → t.flag (oflAbortValid (fnOf p ld) r e) = false) ∧
      (∀ f : Fld, (∀ e, e < 16 → f.key ≠ oflAbort (fnOf p ld) r e) → t.fld f = s.fld f) ∧ t.jobs = s.jobs ∧ t.dram = s.dram) ∧
  (∀ (s : State) (p ld : Fin 16) (r : Fin 4) (w : BitVec 512), s.sound = true → s.mayFetch (fnOf p ld) r →
    (s.inFlight (fnOf p ld) r).any (fun x => x.idx == (s.ring (fnOf p ld) r).next) = false →
    (s.inFlight (fnOf p ld) r = [] ∨ bitAt w.toNat 8 = false) →
    ∃ t j, exec (.descriptorFetch p ld r (some w)) s = .next t ∧ t.jobs = s.jobs ++ [j] ∧ j.fn = fnOf p ld ∧ j.ring = r.val ∧
      j.idx = (s.ring (fnOf p ld) r).next ∧ j.desc = w.toNat ∧ j.phase = (s.ring (fnOf p ld) r).lap ∧ j.written = false ∧
      j.status = s.descStatus j ∧ t.fld (oflRingStatusInflight (fnOf p ld) r) = (s.inFlight (fnOf p ld) r).length + 1 ∧
      t.dram = s.dram) ∧
  (∀ (s : State) (p ld : Fin 16) (r : Fin 4), s.sound = true → s.mayFetch (fnOf p ld) r →
    ∃ t, exec (.descriptorFetch p ld r none) s = .next t ∧ t.jobs = s.jobs ∧ t.fld (oflRingStatusState (fnOf p ld) r) = 3 ∧
      t.fld (oflRingStatusReason (fnOf p ld) r) = 5 ∧ t.dram = s.dram) ∧
  (∀ (s : State) (p ld : Fin 16) (r : Fin 4) (idx status : Nat) (j : Job), s.sound = true →
    s.jobs.find? (fun x => x.fn == fnOf p ld && x.ring == r.val && x.idx == idx && !x.written) = some j →
    s.jobs.find? (fun x => x.fn == fnOf p ld && x.ring == r.val) = some j → j.ended = some status →
    s.jobs.any (fun x => x.fn == fnOf p ld && x.ring == r.val && x.written) = false →
    s.fld (oflRingHeadHead (fnOf p ld) r) = idx → idx < s.fld (oflRingCfgSize (fnOf p ld) r) → idx + 1 < 2 ^ 15 →
    ∃ t, exec (.jobComplete p ld r idx false) s = .next t ∧ t.jobs = s.jobs.erase j ∧
      Out.dmaWrite (fnOf p ld) (s.fld (oflRingCbaseCplBase (fnOf p ld) r) * 4096 + idx * 16)
        (leBytes 8 (status + b2n j.phase * 2 ^ 8 + j.tag * 2 ^ 16 + j.check % 2 ^ 32 * 2 ^ 32)
          ++ leBytes 8 (j.bytesOut + j.consumed * 2 ^ 32)) ∈ t.out ∧
      t.fld (oflRingHeadHead (fnOf p ld) r) = (if idx + 1 = s.fld (oflRingCfgSize (fnOf p ld) r) then 0 else idx + 1) ∧
      t.dram = s.dram) ∧
  (∀ (s : State) (p ld : Fin 16) (r : Fin 4) (idx status : Nat) (j : Job), s.sound = true →
    s.jobs.find? (fun x => x.fn == fnOf p ld && x.ring == r.val && x.idx == idx && !x.written) = some j → j.ended = some status →
    ∃ t, exec (.jobComplete p ld r idx true) s = .next t ∧ t.jobs = s.jobs.erase j ∧
      t.fld (oflRingStatusState (fnOf p ld) r) = 3 ∧ t.fld (oflRingStatusReason (fnOf p ld) r) = 6 ∧ t.dram = s.dram)

/-- Jobs between host addresses end with status 0, their counts and their check: COPY, FILL, DEFLATE whose output fits,
INFLATE of a good stream, CRC; a source that cannot be read ends COPY with status 7 (R325 to R328, Tables 14.3 to 14.5). No
other job of a ring changes. Domain jobs go through the memory path: LOAD_DOMAIN issues its next line as a write of its domain
with the bytes of the line it covers, STORE_DOMAIN issues its next line as a read while its next delivery has not come back,
and delivers to host memory a line that has (R329, R330). The model's choices that it rests on: logs 11, 48. -/
def Obligations.JobEffects : Prop :=
  (∀ (s : State) (p ld : Fin 16) (r : Fin 4) (idx : Nat) (bs : List Byte) (j : Job), s.sound = true →
    s.running (fnOf p ld) r idx 1 = some j → bs.length = j.len → 0 < j.len →
    ∃ t, exec (.copy p ld r idx (some bs) false) s = .next t ∧ Out.dmaWrite (fnOf p ld) j.dst bs ∈ t.out ∧
      t.jobs = s.jobs.map (fun x => if x == j then
        { j with status := some 0, bytesOut := j.len, consumed := j.len, check := j.checkOf bs % 2 ^ 32 } else x) ∧
      t.dram = s.dram) ∧
  (∀ (s : State) (p ld : Fin 16) (r : Fin 4) (idx : Nat) (j : Job), s.sound = true → s.running (fnOf p ld) r idx 1 = some j →
    ∃ t q, exec (.copy p ld r idx none false) s = .next t ∧ t.jobs = s.jobs.map (fun x => if x == j then q else x) ∧
      q.desc = j.desc ∧ q.status = some 7 ∧ q.bytesOut ≤ j.len ∧ q.consumed ≤ j.len ∧ t.dram = s.dram) ∧
  (∀ (s : State) (p ld : Fin 16) (r : Fin 4) (idx : Nat) (j : Job) (bs : List Byte), s.sound = true →
    s.running (fnOf p ld) r idx 2 = some j → bs.length = j.len → 0 < j.len →
    (∀ i, i < j.len → nth 0 bs i = nth 0 (leBytes 8 (j.word 4)) (i % 8)) →
    ∃ t, exec (.fill p ld r idx false) s = .next t ∧ Out.dmaWrite (fnOf p ld) j.dst bs ∈ t.out ∧
      t.jobs = s.jobs.map (fun x => if x == j then
        { j with status := some 0, bytesOut := j.len, consumed := 0, check := j.checkOf bs % 2 ^ 32 } else x) ∧
      t.dram = s.dram) ∧
  (∀ (s : State) (p ld : Fin 16) (r : Fin 4) (idx : Nat) (bs raw : List Byte) (j : Job), s.sound = true →
    s.running (fnOf p ld) r idx 3 = some j → bs.length = j.len → s.anyComp (portHalf (fnOf p ld / 17)) = true →
    s.compFree (portHalf (fnOf p ld / 17)) j = true → deflateValid bs raw = true →
    (deflateWrap j.format bs raw).length ≤ j.cap → deflateWrap j.format bs raw ≠ [] →
    ∃ t q, exec (.deflate p ld r idx (some bs) raw false) s = .next t ∧
      t.jobs = s.jobs.map (fun x => if x == j then q else x) ∧ q.desc = j.desc ∧ q.status = some 0 ∧
      Out.dmaWrite (fnOf p ld) j.dst (deflateWrap j.format bs raw) ∈ t.out ∧ q.consumed = j.len ∧
      q.bytesOut = (deflateWrap j.format bs raw).length ∧ t.dram = s.dram) ∧
  (∀ (s : State) (p ld : Fin 16) (r : Fin 4) (idx : Nat) (bs : List Byte) (j : Job), s.sound = true →
    s.running (fnOf p ld) r idx 4 = some j → bs.length = j.len →
    s.anyDecomp (portHalf (fnOf p ld / 17)) = true → s.decompFree (portHalf (fnOf p ld / 17)) j = true →
    ∃ t q, exec (.inflate p ld r idx (some bs) false) s = .next t ∧ t.jobs = s.jobs.map (fun x => if x == j then q else x) ∧
      q.desc = j.desc ∧
      q.status = some (if (inflateJob j.format j.cap bs).err = 0 then 0 else 0x10 + (inflateJob j.format j.cap bs).err) ∧
      q.bytesOut = (inflateJob j.format j.cap bs).out.length ∧ q.consumed = (inflateJob j.format j.cap bs).consumed ∧
      t.dram = s.dram) ∧
  (∀ (s : State) (p ld : Fin 16) (r : Fin 4) (idx : Nat) (bs : List Byte) (j : Job), s.sound = true →
    s.running (fnOf p ld) r idx 5 = some j → bs.length = j.len →
    ∃ t, exec (.crc p ld r idx (some bs)) s = .next t ∧
      t.jobs = s.jobs.map (fun x => if x == j then
        { j with status := some 0, bytesOut := 0, consumed := j.len, check := j.checkOf bs % 2 ^ 32 } else x) ∧
      t.dram = s.dram) ∧
  (∀ (s : State) (p ld : Fin 16) (r : Fin 4) (idx d off : Nat) (bs : List Byte) (j : Job), s.sound = true →
    s.runs (fnOf p ld) r idx 6 j →
    (s.domSide (fnOf p ld) j.dst j.len).toOption = some (d, off) → j.next < j.total off → bs.length = (j.piece off j.next).2.2 →
    s.df = false → s.fenced (uHalf (s.home d).idx) = false →
    ∃ t q, exec (.loadDomain p ld r idx (some bs)) s = .next t ∧ t.reqs = s.reqs ++ [q] ∧
      q.org = .offload (fnOf p ld) r idx ∧
      q.dom = d ∧ q.line = off / 64 + j.next ∧ q.data = bytesLine (List.replicate (j.piece off j.next).2.1 0 ++ bs) ∧
      q.kind = (if (j.piece off j.next).2.2 = 64 then .wr else .wrPtl) ∧ q.poison = false ∧
      t.jobs = mapFirst (fun x => x.fn == fnOf p ld && x.ring == r.val && x.idx == idx && !x.written) (fun _ => { j with
        next := j.next + 1
        bytesOut := j.bytesOut + (j.piece off j.next).2.2
        consumed := j.consumed + (j.piece off j.next).2.2
        check := checkFrom j.kind j.check bs }) s.jobs ∧ t.dram = s.dram) ∧
  (∀ (s : State) (p ld : Fin 16) (r : Fin 4) (idx d off : Nat) (j : Job), s.sound = true → s.runs (fnOf p ld) r idx 7 j →
    (s.domSide (fnOf p ld) j.src j.len).toOption = some (d, off) →
    j.lines.find? (fun x => x.1 == off / 64 + j.due off) = none → j.next < j.total off → s.df = false →
    s.fenced (uHalf (s.home d).idx) = false →
    ∃ t q, exec (.storeDomain p ld r idx false) s = .next t ∧ t.reqs = s.reqs ++ [q] ∧
      q.org = .offload (fnOf p ld) r idx ∧ q.dom = d ∧ q.line = off / 64 + j.next ∧ q.kind = .rd ∧
      t.jobs = mapFirst (fun x => x.fn == fnOf p ld && x.ring == r.val && x.idx == idx && !x.written)
        (fun _ => { j with next := j.next + 1 }) s.jobs ∧ t.dram = s.dram) ∧
  (∀ (s : State) (p ld : Fin 16) (r : Fin 4) (idx d off : Nat) (l : Line) (n k : Nat) (j : Job), s.sound = true →
    s.runs (fnOf p ld) r idx 7 j → 0 < j.len → (s.domSide (fnOf p ld) j.src j.len).toOption = some (d, off) →
    k = j.due off → n = (j.piece off k).2.2 → 0 < n → j.total off ≤ j.next →
    j.lines.find? (fun x => x.1 == off / 64 + k) = some (off / 64 + k, l, false) →
    (j.lines.erase (off / 64 + k, l, false)).find?
      (fun x => x.1 == off / 64 + ({ j with bytesOut := j.bytesOut + n } : Job).due off) = none →
    ∃ t, exec (.storeDomain p ld r idx false) s = .next t ∧
      t.jobs = mapFirst (fun x => x.fn == fnOf p ld && x.ring == r.val && x.idx == idx && !x.written) (fun _ => { j with
        bytesOut := j.bytesOut + n, consumed := j.consumed + n, lines := j.lines.erase (off / 64 + k, l, false)
        check := checkFrom j.kind j.check (((lineBytes l).drop (j.piece off k).2.1).take n) }) s.jobs ∧
      Out.dmaWrite (fnOf p ld) (j.dst + (j.piece off k).1) (((lineBytes l).drop (j.piece off k).2.1).take n) ∈ t.out ∧
      t.reqs = s.reqs ∧ t.dram = s.dram)


/-! ### The two halves (01_architecture) -/

/-- Die-to-die flits: a DATA or HANDSHAKE flit takes the next SEQ and credits, and is held for replay (R26, R28); a flit in
sequence is accepted and owed an acknowledge, and a request that it carries joins its queue, a response that it carries is at
stage 10 (R22); one that fails its checks is answered with a NAK (R25, R26); an acknowledge without reverse traffic has a flit
of its own; a timeout sends what is held again (R26, R27). The model's choices that it rests on: logs 21, 84, 85, 144. -/
def Obligations.DieToDieFlits : Prop :=
  (∀ (s : State) (h : Half) (hand : Bool) (vc : Fin 4) (payload : List Word), s.sound = true →
    s.d2dOn h = true → payload.length ≤ 30 →
    (s.d2d h).replay.length < 256 → flitUnits payload.length ≤ nth 0 (s.d2d h).credits (if hand then 0 else vc.val) →
    ∃ t f, exec (.d2dFlitSend h hand vc payload) s = .next t ∧ (t.d2d h).replay = (s.d2d h).replay ++ [f] ∧
      f.seq = (s.d2d h).txSeq ∧ f.replays = 0 ∧ (t.d2d h).txSeq = ((s.d2d h).txSeq + 1) % 1024 ∧ Out.d2dFlit h f.words ∈ t.out ∧
      bitsOf (nth 0 f.words 0).toNat 0 4 = (if hand then 4 else 1) ∧ (t.d2d h).ackDue = false ∧ t.d2d h.other = s.d2d h.other ∧
      (t.d2d h).credits = setAt (s.d2d h).credits (if hand then 0 else vc.val)
        (nth 0 (s.d2d h).credits (if hand then 0 else vc.val) - flitUnits payload.length) ∧ t.dram = s.dram) ∧
  (∀ (s : State) (h : Half) (ws : List Word), s.sound = true →
    s.d2dOn h = true → flitGood ws = true → bitsOf (nth 0 ws 0).toNat 26 1 = 0 →
    (bitsOf (nth 0 ws 0).toNat 0 4 = 1 ∨ bitsOf (nth 0 ws 0).toNat 0 4 = 4) →
    bitsOf (nth 0 ws 0).toNat 6 10 = (s.d2d h).rxNext →
    ∃ t, exec (.d2dFlitReceive h ws []) s = .next t ∧ (t.d2d h).rxNext = ((s.d2d h).rxNext + 1) % 1024 ∧
      (t.d2d h).rxAny = true ∧ (t.d2d h).ackDue = true ∧ (t.d2d h).replay = (s.d2d h).replay ∧ t.out = s.out ∧
      (t.d2d h).credits = setAt (s.d2d h).credits (bitsOf (nth 0 ws 0).toNat 27 2)
        (nth 0 (s.d2d h).credits (bitsOf (nth 0 ws 0).toNat 27 2) + bitsOf (nth 0 ws 0).toNat 29 8) ∧ t.dram = s.dram) ∧
  (∀ (s : State) (h : Half) (ws : List Word) (rid : Fin 65536) (r : Req) (p id : Nat), s.sound = true →
    s.d2dOn h = true → flitGood ws = true → bitsOf (nth 0 ws 0).toNat 26 1 = 0 → bitsOf (nth 0 ws 0).toNat 0 4 = 1 →
    bitsOf (nth 0 ws 0).toNat 6 10 = (s.d2d h).rxNext → s.req rid = some r → r.org = .host p id → r.dom < 1024 →
    (bitsOf (nth 0 ws 0).toNat 4 2 = 1 → r.stage = .cross → r.home = h → s.df = false →
      (s.reqs.takeWhile (fun q => q.rid != rid.val || q.stage == .waitEntry)).any
        (fun q => q.stage == .cross && q.ingress == r.ingress && q.port == r.port) = false →
      ∃ t q, exec (.d2dFlitReceive h ws [rid]) s = .next t ∧ q.rid = r.rid ∧ q.tag = r.tag ∧ q.stage = .queued ∧
        t.reqs = s.reqs.filter (fun y => y.rid != rid.val || y.stage == .waitEntry) ++ [q] ∧ (t.d2d h).rxNext = ((s.d2d h).rxNext + 1) % 1024 ∧ t.dram = s.dram) ∧
    (bitsOf (nth 0 ws 0).toNat 4 2 = 2 → r.stage = .crossBack → r.ingress = h →
      ∃ t q, exec (.d2dFlitReceive h ws [rid]) s = .next t ∧ t.req rid = some q ∧ q.tag = r.tag ∧ q.stage = .respond ∧
        q.rdata = r.rdata ∧ q.rpoison = r.rpoison ∧ t.reqs.length = s.reqs.length ∧
        (t.d2d h).rxNext = ((s.d2d h).rxNext + 1) % 1024 ∧ t.dram = s.dram)) ∧
  (∀ (s : State) (h : Half) (ws : List Word) (touched : List (Fin 65536)), s.sound = true →
    s.d2dOn h = true → flitGood ws = false →
    ∃ t nak, exec (.d2dFlitReceive h ws touched) s = .next t ∧ t.out = .d2dFlit h nak :: s.out ∧
      bitsOf (nth 0 nak 0).toNat 0 4 = 3 ∧ (t.d2d h).rxNext = (s.d2d h).rxNext ∧ (t.d2d h).replay = (s.d2d h).replay) ∧
  (∀ (s : State) (h : Half), s.sound = true → s.d2dOn h = true → (s.d2d h).ackDue = true →
    ∃ t f, exec (.d2dAckOnlyTimeout h) s = .next t ∧ t.out = .d2dFlit h f :: s.out ∧ bitsOf (nth 0 f 0).toNat 0 4 = 2 ∧
      (t.d2d h).ackDue = false ∧ (t.d2d h).txSeq = (s.d2d h).txSeq ∧ (t.d2d h).replay = (s.d2d h).replay) ∧
  (∀ (s : State) (h : Half) (f : D2dHeld) (rest : List D2dHeld), s.sound = true → s.d2dOn h = true →
    (s.d2d h).replay = f :: rest → f.replays < 3 →
    ∃ t, exec (.d2dReplayTimeout h []) s = .next t ∧
      (∀ g ∈ (s.d2d h).replay, Out.d2dFlit h (flitAcked (((s.d2d h).rxNext + 1023) % 1024) (s.d2d h).rxAny g.words) ∈ t.out) ∧
      (t.d2d h).replay = (s.d2d h).replay.map (fun g => { g with replays := g.replays + 1 }) ∧ t.reqs = s.reqs ∧ t.dram = s.dram)

/-- The leader handshake (Table 1.12): a CLAIM of another die is echoed; an ECHO of its own CLAIM resolves the leader and is
confirmed, and any other ECHO fails the round; a CONFIRM of the same leader ends it, with the result of Table 1.11 (R40, R42);
the same identity, a different leader and a timeout fail the round (R41); a retry claims again, and after three failures the
device is held (R43). The model's choices that it rests on: log 100. -/
def Obligations.LeaderHandshake : Prop :=
  (∀ (s : State) (h : Half) (msg : ClaimMsg), s.d2dOn h = true → (s.hs h).phase = .claim →
    (msg.dieId ≠ s.fuses.dieId.get h → exec (.claim h msg) s =
      .next ((s.updHs h fun x => { x with phase := .echo, peer := some msg }).emit (.echo h msg (s.ownClaim h)))) ∧
    (msg.dieId = s.fuses.dieId.get h → exec (.claim h msg) s = .next (s.roundFailed h))) ∧
  (∀ (s : State) (h : Half) (peer returned own : ClaimMsg), s.d2dOn h = true → (s.hs h).phase = .echo →
    (s.hs h).peer = some peer →
    (returned = s.ownClaim h → own.dieId ≠ s.fuses.dieId.get h → exec (.echo h returned own) s =
      .next ((s.updHs h fun x => { x with phase := .confirm, resolved := some (leaderOf (s.ownClaim h) peer) }).emit
        (.confirm h (leaderOf (s.ownClaim h) peer)))) ∧
    (returned = s.ownClaim h → own.dieId = s.fuses.dieId.get h → exec (.echo h returned own) s = .next (s.roundFailed h))) ∧
  (∀ (s : State) (h : Half) (returned own : ClaimMsg), s.d2dOn h = true → (s.hs h).phase.inRound = true →
    returned ≠ s.ownClaim h → exec (.echo h returned own) s = .next (s.roundFailed h)) ∧
  (∀ (s : State) (h : Half) (peer : ClaimMsg) (l : BitVec 32), s.sound = true → s.d2dOn h = true → (s.hs h).phase = .confirm →
    (s.hs h).peer = some peer → (s.hs h).resolved = some l →
    (∃ t, exec (.confirm h l) s = .next t ∧ (t.hs h).phase = .done ∧
      ((s.hs h.other).phase = .done → t.fld bootStatusPhase = 2) ∧
      t.fld topLeaderResult = resultOf (s.ownClaim h) peer ∧
      t.fld topLeaderLeader = (if l = s.fuses.dieId.get h then h.idx else h.other.idx) ∧ t.dram = s.dram) ∧
    (∀ m : BitVec 32, m ≠ l → exec (.confirm h m) s = .next (s.roundFailed h))) ∧
  (∀ (s : State) (h : Half), ((s.hs h).phase = .claim ∨ (s.hs h).phase = .echo ∨ (s.hs h).phase = .confirm) →
    exec (.handshakeTimeout h) s = .next (s.updHs h fun x => { x with phase := .wait, failed := (s.hs h).failed + 1 })) ∧
  (∀ (s : State) (h : Half), s.sound = true → (s.hs h).phase = .wait → (s.hs h).failed < 3 →
    ∃ t m, exec (.handshakeRetry h) s = .next t ∧ (t.hs h).phase = .claim ∧ (t.hs h).round = (s.hs h).round + 1 ∧
      t.out = .claim h m :: s.out ∧ m.dieId = s.fuses.dieId.get h ∧ m.claim = (m.leaderSel == m.diePos) ∧ t.regs = s.regs) ∧
  (∀ (s : State) (h : Half), s.sound = true → (s.hs h).phase = .wait → 3 ≤ (s.hs h).failed → s.phase ≠ 9 →
    ∃ t, exec (.handshakeRetry h) s = .next t ∧ (t.hs h).phase = .bootHold ∧ t.fld bootStatusPhase = 9 ∧
      t.fld topLeaderResult = 4 ∧ t.df = true ∧ t.dram = s.dram)

/-- Core release: the fill of the second half releases both cores at power-up, with STEP_EN cleared; at an exit from
DEEP_SLEEP each half starts by itself (R36; 17_boot Table 17.1; 16_power R362); the die-to-die link trains with at most four
spare lanes a module, and both halves claim (R23, R40), or time out (R41). The shore ports pass a word of the traffic that
they carry with even parity and ask again, at most three times, for one without; other traffic is not sent there (R31); a
local counter more than 2 ns from the master is reloaded (R34); a lost management core is a DF of the leader's half and a UCF
of the other (R37, R38). The model's choices that it rests on: log 131. -/
def Obligations.CoresShoreAndCounters : Prop :=
  (∀ (s : State) (h : Half), s.power.railStep = 5 → (s.halves.get h).coreRunning = false → s.fld pwrStatusDeviceState ≠ 2 →
    ((s.halves.get h.other).coreRunning = false ∨ s.boot.running = true) →
    exec (.sramFillDone h []) s = .next (s.updHalf h fun c => { c with coreRunning := true })) ∧
  (∀ (s : State) (h : Half), s.sound = true → s.power.railStep = 5 → (s.halves.get h).coreRunning = false →
    s.fld pwrStatusDeviceState ≠ 2 → (s.halves.get h.other).coreRunning = true → s.boot.running = false →
    ∃ t, exec (.sramFillDone h []) s = .next t ∧ (t.halves.get h).coreRunning = true ∧ t.boot.running = true ∧
      t.boot.filled = true ∧ t.fld bootStatusPhase = 1 ∧ t.flag tbCfgStepEn = false ∧ t.dram = s.dram) ∧
  (∀ (s : State) (fa fb ca cb : List Nat), s.sound = true → s.halves.a.coreRunning = true → s.halves.b.coreRunning = true →
    s.halves.a.d2d.trained = false → (padTo 8 0 fa).any (· > 4) = false → (padTo 8 0 fb).any (· > 4) = false →
    s.halves.a.hs.phase = .idle → s.halves.b.hs.phase = .idle →
    ∃ t m n, exec (.d2dTrainDone fa fb ca cb) s = .next t ∧ t.halves.a.d2d.trained = true ∧ t.halves.b.d2d.trained = true ∧
      t.halves.a.d2d.credits = padTo 4 0 ca ∧ t.halves.b.d2d.credits = padTo 4 0 cb ∧ t.halves.a.hs.phase = .claim ∧
      t.halves.b.hs.phase = .claim ∧ t.out = .claim .b n :: .claim .a m :: s.out ∧ t.regs = s.regs) ∧
  (∀ (s : State) (fa fb ca cb : List Nat), (padTo 8 0 fa ++ padTo 8 0 fb).any (· > 4) = true →
    exec (.d2dTrainDone fa fb ca cb) s = .next s) ∧
  (∀ s : State, s.sound = true → s.halves.a.coreRunning = true → s.halves.b.coreRunning = true → s.halves.a.d2d.trained = false →
    s.halves.a.hs.phase = .idle → s.halves.b.hs.phase = .idle →
    ∃ t, exec .d2dTrainTimeout s = .next t ∧ t.halves.a.hs.phase = .wait ∧ t.halves.b.hs.phase = .wait ∧
      t.halves.a.hs.failed = s.halves.a.hs.failed + 1 ∧ t.halves.b.hs.failed = s.halves.b.hs.failed + 1 ∧ t.regs = s.regs) ∧
  (∀ (s : State) (h : Half) (out : Bool) (w : ShoreWord) (parity : Bool), s.shoreCarries h w.kind = true →
    (ones 64 w.bits.toNat + b2n parity) % 2 = 0 →
    exec (.shorePortWord h out w parity) s = .next ((s.updHalf h fun c => { c with
      shoreResend := setAt c.shoreResend (b2n out) 0 }).emit (.shore h out w false))) ∧
  (∀ (s : State) (h : Half) (out : Bool) (w : ShoreWord) (parity : Bool), s.shoreCarries h w.kind = true →
    (ones 64 w.bits.toNat + b2n parity) % 2 = 1 → nth 0 (s.halves.get h).shoreResend (b2n out) < 3 →
    exec (.shorePortWord h out w parity) s = .next ((s.updHalf h fun c => { c with
      shoreResend := setAt c.shoreResend (b2n out) (nth 0 (s.halves.get h).shoreResend (b2n out) + 1) }).emit
        (.shore h out w true))) ∧
  (∀ (s : State) (h : Half) (out : Bool) (w : ShoreWord) (parity : Bool), h ≠ s.leader →
    (w.kind = .management ∨ w.kind = .register) → exec (.shorePortWord h out w parity) s = .next s) ∧
  (∀ (s : State) (a b : Int), s.sound = true →
    ∃ t, exec (.tbAlignCheck a b) s = .next t ∧ t.tide.master = s.tide.master ∧ t.dram = s.dram ∧
      t.tide.localA = (if (signedOf 104 ((tideAdd s.tide.localA a + tideMod - s.tide.master % tideMod) % tideMod)).natAbs >
        2 * tideNs then s.tide.master else tideAdd s.tide.localA a) ∧
      t.tide.localB = (if (signedOf 104 ((tideAdd s.tide.localB b + tideMod - s.tide.master % tideMod) % tideMod)).natAbs >
        2 * tideNs then s.tide.master else tideAdd s.tide.localB b)) ∧
  (∀ (s : State) (h : Half), (s.halves.get h).coreRunning = true → (s.halves.get h).coreLost = false →
    exec (.tcmUncorrectable h) s = .next ((s.updHalf h fun c => { c with coreLost := true }).raise
      { code := cTopCoreLost, cls := if s.leader = h then clsDf else clsUcf, unit := uHalf h.idx }) ∧
    exec (.watchdogExpiry h) s = .next ((s.updHalf h fun c => { c with coreLost := true }).raise
      { code := cTopCoreLost, cls := if s.leader = h then clsDf else clsUcf, unit := uHalf h.idx }))


/-! ### Mirroring (13_pairing) -/

/-- Mirror writes: a line message at the front of its virtual channel becomes a request of its domain, numbered as received and
not committed, and leaves the receive buffer; one that the domain does not take is refused (R304). A ZERO_RUN of a NEAR page, on which
no request is under way, returns it to ZERO and is committed (R303, R304). -/
def Obligations.MirrorWrites : Prop :=
  (∀ (s : State) (l : Half) (vc : Fin 8) (d line c : Nat) (m : MirMsg) (data : Line) (en : BitVec 64) (poison : Bool), s.sound = true →
    d < 1024 → s.receives l vc m c → s.takesFrom l d false = true → line < s.winSize d * extLines →
    s.treeFenced d line = false → s.df = false → s.fenced (uHalf l.idx) = false →
    ((m = .lineWr d line data ∧ en = allBytes ∧ poison = false) ∨ (m = .lineWrPtl d line en data ∧ poison = false) ∨
      (m = .linePoison d line ∧ data = 0 ∧ en = allBytes ∧ poison = true)) →
    ∃ t q, exec (match m with | .lineWr _ _ _ => .lineWr l vc | .lineWrPtl _ _ _ _ => .lineWrPtl l vc | _ => .linePoison l vc) s =
        .next t ∧ t.reqs = s.reqs ++ [q] ∧ q.org = .mirror l (s.mMode d == 1)
        (((if s.mMode d = 1 then (s.mirror.get l).syncRecv else (s.mirror.get l).asyncRecv) + 1) % 2 ^ 32) ∧ q.dom = d ∧
      q.line = line ∧ q.data = data ∧ q.enables = en ∧ q.poison = poison ∧ s.received t l vc ∧
      (s.mMode d = 1 → (t.mirror.get l).syncRecv = ((s.mirror.get l).syncRecv + 1) % 2 ^ 32 ∧
        (t.mirror.get l).uncommitted = (s.mirror.get l).uncommitted ++ [((s.mirror.get l).syncRecv + 1) % 2 ^ 32]) ∧
      (s.mMode d ≠ 1 → (t.mirror.get l).asyncRecv = ((s.mirror.get l).asyncRecv + 1) % 2 ^ 32 ∧
        (t.mirror.get l).asyncOpen = (s.mirror.get l).asyncOpen ++ [((s.mirror.get l).asyncRecv + 1) % 2 ^ 32]) ∧
      t.dram = s.dram) ∧
  (∀ (s : State) (l : Half) (vc : Fin 8) (d line c : Nat) (data : Line), s.sound = true →
    d < 1024 → s.receives l vc (.lineWr d line data) c → s.takesFrom l d false = false → s.straitUp l.idx = true →
    ∃ t, exec (.lineWr l vc) s = .next t ∧ t.reqs = s.reqs ∧ s.received t l vc ∧ t.dram = s.dram ∧
      (t.strait.get l).queue = (s.strait.get l).queue ++
        [(if s.mMode d = 1 then 1 else 2, 0, 0, .peerRefuse (s.eff (mirDomW0PeerDomain d)) line 4)]) ∧
  (∀ (s : State) (l : Half) (vc : Fin 8) (d page c : Nat) (picks : List Nat), s.sound = true → d < 1024 →
    s.receives l vc (.zeroRun d page 1) c → s.takesFrom l d false = true → s.runWaits d page 1 = false →
    s.mState d = mSecMirrored → s.mMode d = 1 → page + 1 ≤ s.winSize d * 512 → (s.ext d (page / 512)).kind = .paged →
    (s.page d page).state = .near → (∀ x ∈ s.reqs, ¬ x.waitsAt5 (s.home d) d page) →
    ∃ t, exec (.zeroRun l vc picks) s = .next t ∧ t.pages = cellPut {} s.pages (d * 2 ^ 36 + page) {} ∧
      s.received t l vc ∧ (t.mirror.get l).syncRecv = ((s.mirror.get l).syncRecv + 1) % 2 ^ 32 ∧
      (t.mirror.get l).uncommitted = (s.mirror.get l).uncommitted.filter (· != ((s.mirror.get l).syncRecv + 1) % 2 ^ 32) ∧
      t.reqs = s.reqs)

/-- Acknowledgements: COMMIT_ACK completes a write that its count covers (R303); the count of what is committed is sent when
it has changed (R304); a refusal marks the extent and is recorded, where its record is neither masked nor merged (R305); a
write that waits too long puts its domain in PRI_SOLO and completes (R306). Cuts: each advances the cut number and follows the
messages before it (R308); the other side answers when all before it is committed (R308); its answer raises the high-water
mark and frees the log of the intervals it confirms (R309, R310). The model's choices that it rests on: log 120. -/
def Obligations.MirrorAnswersAndCuts : Prop :=
  (∀ (s : State) (l : Half) (vc : Fin 8) (n k c p id : Nat) (r : Req), s.sound = true → s.rxHead l vc = some (.commitAck n, c) →
    s.req r.rid = some r → r.org = .host p id → r.stage = .mirrorWait → r.home = l → r.await = some k → covers32 n k = true →
    ∃ t q, exec (.commitAck l vc) s = .next t ∧ t.req r.rid = some q ∧ q.tag = r.tag ∧ q.stage = s.answerStage r ∧
      q.rpoison = false ∧ (t.mirror.get l).unacked = (s.mirror.get l).unacked.filter (fun u => !covers32 n u.num) ∧
      s.received t l vc ∧ t.dram = s.dram) ∧
  (∀ (s : State) (l : Half), s.sound = true → s.straitUp l.idx = true → (s.mirror.get l).committed ≠ (s.mirror.get l).ackedTo →
    ∃ t, exec (.commitAckSend l) s = .next t ∧ (t.mirror.get l).ackedTo = (s.mirror.get l).committed ∧
      (t.strait.get l).queue = (s.strait.get l).queue ++ [(1, 0, 0, .commitAck (s.mirror.get l).committed)] ∧ t.regs = s.regs ∧
      t.reqs = s.reqs ∧ t.dram = s.dram) ∧
  (∀ (s : State) (l : Half) (vc : Fin 8) (d line cause c : Nat) (x : Det), s.sound = true → d < 1024 →
    s.rxHead l vc = some (.peerRefuse d line cause, c) → 1 ≤ cause → cause ≤ 3 → s.home d = l →
    s.mirroring d = true → (s.ext d (line / extLines)).dirty = false →
    x = { code := cMirPeerRefuse, cls := clsCe, unit := uHalf l.idx, dom := some d, addr := some (s.dpaOf d line, 1), detail := cause } →
    s.masked x = false → s.mergeTarget x = none →
    ∃ t r', exec (.peerRefuse l vc) s = .next t ∧ s.received t l vc ∧ r' ∈ t.records ∧ r'.name = cMirPeerRefuse ∧
      r'.dom = some d ∧ r'.addr = some (s.dpaOf d line, 1) ∧ r'.detail = cause ∧ r'.isOpen = true ∧ t.reqs = s.reqs ∧
      t.extents = cellPut {} s.extents (d * 2 ^ 27 + line / extLines) { s.ext d (line / extLines) with dirty := true } ∧
      t.fld (mirDomStateW0DirtyExtents d) = (s.fld (mirDomStateW0DirtyExtents d) + 1) % 2 ^ 27 ∧
      t.fld (mirCntPeerRefuse l.idx) = satAdd 16 (s.fld (mirCntPeerRefuse l.idx)) 1 ∧ t.dram = s.dram) ∧
  (∀ (s : State) (d : Fin 1024) (r : Req) (p id : Nat), s.sound = true → s.req r.rid = some r → r.org = .host p id →
    r.hasDom = true → r.dom = d.val → r.stage = .mirrorWait → s.mirroring d = true → s.mMode d = 1 →
    ∃ t q, exec (.mirAckTimeout d) s = .next t ∧ t.mState d = mPriSolo ∧ t.flag (mirDomStateW0Matched d) = false ∧
      t.req r.rid = some q ∧ q.tag = r.tag ∧ q.stage = s.answerStage r ∧ q.rpoison = false ∧ t.dram = s.dram) ∧
  (∀ (s : State) (h : Half), s.sound = true → s.boot.memActive = true → s.isS = false → s.straitUp h.idx = true →
    ∃ t, exec (.asyncCutTick h) s = .next t ∧ t.fld (mirCutCut h.idx) = (s.fld (mirCutCut h.idx) + 1) % 2 ^ 64 ∧
      (t.strait.get h).queue = (s.strait.get h).queue ++ [(2, 8, 0, .cut (s.fld (mirCutCut h.idx) + 1))] ∧
      t.mirror = s.mirror ∧ t.reqs = s.reqs ∧ t.dram = s.dram) ∧
  (∀ (s : State) (l : Half) (vc : Fin 8) (n c : Nat), s.sound = true → s.rxHead l vc = some (.cut n, c) →
    ∃ t, exec (.cut l vc) s = .next t ∧ (t.mirror.get l).cuts = (s.mirror.get l).cuts ++ [(n, (s.mirror.get l).asyncOpen)] ∧
      s.received t l vc ∧ t.reqs = s.reqs ∧ t.dram = s.dram) ∧
  (∀ (s : State) (l : Half) (n : Nat) (rest : List (Nat × List Nat)), s.sound = true → (s.mirror.get l).cuts = (n, []) :: rest →
    s.straitUp l.idx = true →
    ∃ t, exec (.cutAckSend l) s = .next t ∧ (t.mirror.get l).cuts = rest ∧
      (t.strait.get l).queue = (s.strait.get l).queue ++ [(2, 8, 0, .cutAck n)] ∧ t.regs = s.regs ∧ t.reqs = s.reqs ∧
      t.dram = s.dram) ∧
  (∀ (s : State) (l : Half) (vc : Fin 8) (n c : Nat), s.sound = true → s.rxHead l vc = some (.cutAck n, c) →
    s.fld (mirHwmHwm l.idx) < n → n ≤ s.fld (mirCutCut l.idx) →
    ∃ t, exec (.cutAck l vc) s = .next t ∧ t.fld (mirHwmHwm l.idx) = n ∧
      (t.mirror.get l).log = (s.mirror.get l).log.filter (fun k => n ≤ k.1) ∧ s.received t l vc ∧ t.reqs = s.reqs ∧
      t.dram = s.dram)

/-- Resync: a page is taken under its lock and sent, its lines before their PAGE_DONE, and a ZERO extent as one run (R315);
its lines and its slot words are assembled, PAGE_DONE puts them in the page and is answered (R316, R317); the last answer ends
the resync in PRI_MIRRORED with its extent clean (R316, Table 13.4); a repair is owed for each page that is not ZERO (R318).
The model's choices that it rests on: logs 29, 65, 146. -/
def Obligations.MirrorPages : Prop :=
  (∀ (s : State) (h : Half) (d : Fin 1024) (errs : List Burst) (r : Resync) (e : Nat) (rest : List Nat), s.sound = true →
    s.home d = h → s.straitUp h.idx = true → s.flag (mirDomStateW0Matched d) = true →
    (s.mirror.get h).pagesOut.length < s.fld mirCfgResyncInflight → (s.mirror.get h).repairs.find? (fun x => x.2.1 == d.val) = none →
    (s.mirror.get h).resyncs.find? (fun r => r.dom == d.val) = some r → s.mState d = mPriResync → r.again = [] →
    r.todo = e :: rest → e < s.winSize d →
    (r.next = 0 → (s.ext d e).kind = .zero → s.extLocked d e = false → s.locksLeft h 512 = true →
      ∃ t, exec (.resyncPageSend h d errs) s = .next t ∧
        (t.mirror.get h).pagesOut = (s.mirror.get h).pagesOut ++ [⟨d, e * 512, 512, false⟩] ∧
        (t.mirror.get h).resyncs = mapFirst (fun r => r.dom == d.val) (fun _ => { r with next := 512 }) (s.mirror.get h).resyncs ∧
        t.locked d (e * 512) = true ∧ (t.strait.get h).queue =
          (s.strait.get h).queue ++ [(3, 8, 0, .zeroRun (s.eff (mirDomW0PeerDomain d)) (e * 512) 512)] ∧ t.reqs = s.reqs ∧
        t.dram = s.dram) ∧
    (r.next < 512 → (s.ext d e).kind = .paged → (s.page d (e * 512 + r.next)).state = .near → s.sendWaits d (e * 512 + r.next) = false →
      ∃ t, exec (.resyncPageSend h d errs) s = .next t ∧
        (t.mirror.get h).pagesOut = (s.mirror.get h).pagesOut ++ [⟨d, e * 512 + r.next, 1, false⟩] ∧
        (t.mirror.get h).resyncs = mapFirst (fun r => r.dom == d.val) (fun _ => { r with next := r.next + 1 })
          (s.mirror.get h).resyncs ∧ t.locked d (e * 512 + r.next) = true ∧ t.reqs = s.reqs ∧ t.pages = s.pages ∧
        ((t.strait.get h).queue.getLast?.map fun x => match x.2.2.2 with
          | .pageDone peer page form repair _ => (x.1, peer, page, form, repair)
          | _ => (0, 0, 0, 0, true)) = some (3, s.eff (mirDomW0PeerDomain d), e * 512 + r.next, 0, false))) ∧
  (∀ (s : State) (l : Half) (vc : Fin 8) (d line c : Nat) (data : Line), s.sound = true → d < 1024 →
    s.rxHead l vc = some (.rsLine d line data, c) → s.takesPage l d (line / 64) = true → line < s.winSize d * extLines →
    ∃ t, exec (.rsLine l vc) s = .next t ∧ s.received t l vc ∧ t.reqs = s.reqs ∧ t.dram = s.dram ∧
      (t.mirror.get l).pagesIn = (if (s.mirror.get l).pagesIn.any (fun p => p.dom == d && p.page == line / 64) then
        mapFirst (fun p => p.dom == d && p.page == line / 64) (fun p => { p with lines := p.lines ++ [(line % 64, data)] })
          (s.mirror.get l).pagesIn else (s.mirror.get l).pagesIn ++ [⟨d, line / 64, [(line % 64, data)], []⟩])) ∧
  (∀ (s : State) (l : Half) (vc : Fin 8) (d page offset c : Nat) (words : List (BitVec 64)), s.sound = true → d < 1024 →
    s.rxHead l vc = some (.slotData d page offset words, c) → s.takesPage l d page = true → page < s.winSize d * 512 →
    ∃ t, exec (.slotData l vc) s = .next t ∧ s.received t l vc ∧ t.reqs = s.reqs ∧ t.dram = s.dram ∧
      (t.mirror.get l).pagesIn = (if (s.mirror.get l).pagesIn.any (fun p => p.dom == d && p.page == page) then
        mapFirst (fun p => p.dom == d && p.page == page)
          (fun p => { p with slot := p.slot ++ words.zipIdx.map fun w => (offset + w.2, w.1) }) (s.mirror.get l).pagesIn
        else (s.mirror.get l).pagesIn ++ [⟨d, page, [], words.zipIdx.map fun w => (offset + w.2, w.1)⟩])) ∧
  (∀ (s : State) (l : Half) (vc : Fin 8) (d page body c : Nat) (picks : List Nat), s.sound = true →
    d < 1024 → s.rxHead l vc = some (.pageDone d page 0 false body, c) → s.takesPage l d page = true → page < s.winSize d * 512 →
    s.pageWaits d page false = false → s.treeFenced d (page * 64) = false → (s.pageNow d page).state = .near →
    s.mediaLost l (s.pageNow d page).addr = false → s.straitUp l.idx = true → (∀ x ∈ s.reqs, ¬ x.waitsAt5 l d page) →
    ∃ t, exec (.pageDone l vc picks) s = .next t ∧ t.pages = s.pages ∧ s.received t l vc ∧ (t.strait.get l).queue =
        (s.strait.get l).queue ++ [(3, 8, 0, .pageAck (s.eff (mirDomW0PeerDomain d)) page 0)] ∧
      (t.mirror.get l).pagesIn = (s.mirror.get l).pagesIn.filter (fun p => !(p.dom == d && p.page == page)) ∧ t.reqs = s.reqs) ∧
  (∀ (s : State) (l : Half) (vc : Fin 8) (d page e c : Nat) (r : Resync), s.sound = true → d < 1024 →
    s.home d = l → s.rxHead l vc = some (.pageAck d page 0, c) → page / 512 = e →
    (s.mirror.get l).pagesOut.find? (fun o => o.dom == d && o.page == page) = some ⟨d, page, 1, false⟩ →
    (s.mirror.get l).pagesOut.any (fun o => o != ⟨d, page, 1, false⟩ && o.dom == d && !o.repair && o.page / 512 == e) = false →
    (s.mirror.get l).resyncs.find? (fun r => r.dom == d) = some r → r.todo = [e] →
    r.next = 512 → r.again = [] → r.noMedia = false → (s.ext d e).dirty = true → (∀ x ∈ s.reqs, ¬ x.waitsAt5 l d page) →
    ∃ t, exec (.pageAck l vc) s = .next t ∧ (t.mirror.get l).pagesOut = (s.mirror.get l).pagesOut.filter (· != ⟨d, page, 1, false⟩) ∧
      (t.mirror.get l).resyncs = (s.mirror.get l).resyncs.filter (fun r => r.dom != d) ∧
      t.mState d = mPriMirrored ∧ t.fld (mirDomStateW1MirEpoch d) = (s.fld (mirDomStateW1MirEpoch d) + 1) % 2 ^ 64 ∧
      t.locks = s.locks.filter (fun k => !(k.dom == d && k.page == page)) ∧
      t.extents = cellPut {} s.extents (d * 2 ^ 27 + e) { s.ext d e with dirty := false } ∧ t.reqs = s.reqs ∧ t.dram = s.dram) ∧
  (∀ (s : State) (l : Half) (vc : Fin 8) (d page count c : Nat), s.sound = true →
    d < 1024 → s.rxHead l vc = some (.repairReq d page count, c) →
    s.flag (mirDomStateW0Matched d) = true → s.home d = l → page + count ≤ s.winSize d * 512 →
    ∃ t, exec (.repairReq l vc) s = .next t ∧ s.received t l vc ∧ t.reqs = s.reqs ∧ t.dram = s.dram ∧
      (t.mirror.get l).repairs = (s.mirror.get l).repairs ++ (((List.range count).map (page + ·)).filter
        (fun p => (s.pageNow d p).state != .zero)).map (fun p => (s.eff (mirDomW0PeerDomain d), d, p)))

/-- Roles: a detached secondary whose partner is in PRI_RESYNC enters SEC_RESYNC (R314, Table 13.4); a primary that meets one of
a later grant yields (R313). SET_FP tells the partner's sets (R317). -/
def Obligations.MirrorRoles : Prop :=
  (∀ (s : State) (l : Half) (vc : Fin 8) (d e role mode c solo epoch mirEpoch : Nat) (cont dirtyOk : Bool), s.sound = true →
    d < 1024 → s.rxHead l vc = some (.role e d role mode mPriResync cont dirtyOk solo epoch mirEpoch, c) →
    (∀ x, x < 1024 → x ≠ d → s.eff (mirDomW0PeerDomain x) ≠ e) → s.mState d = mSecDetached →
    s.eff (mirDomW0Role d) = 2 → s.rolesMatch l d ⟨e, d, role, mode, mPriResync, cont, dirtyOk, epoch, mirEpoch⟩ = true →
    ∃ t, exec (.role l vc) s = .next t ∧ t.mState d = mSecResync ∧ t.flag (mirDomStateW0Matched d) = true ∧
      s.received t l vc ∧ t.reqs = s.reqs ∧ t.dram = s.dram) ∧
  (∀ (s : State) (l : Half) (vc : Fin 8) (d e mode st c solo epoch mirEpoch : Nat) (cont dirtyOk : Bool), s.sound = true →
    d < 1024 → s.rxHead l vc = some (.role e d 1 mode st cont dirtyOk solo epoch mirEpoch, c) →
    (∀ x, x < 1024 → x ≠ d → s.eff (mirDomW0PeerDomain x) ≠ e) → s.home d = l →
    (s.mState d = mPriSolo ∨ s.mState d = mPriResync ∨ s.mState d = mPriMirrored) → s.eff (mirDomW0Role d) = 1 →
    s.eff (mirDomW0PeerDomain d) = e → s.eff (mirDomW1GrantEpoch d) < epoch →
    ∃ t, exec (.role l vc) s = .next t ∧ t.mState d = mPriYielded ∧ t.flag (mirDomStateW0Matched d) = false ∧
      (t.mirror.get l).resyncs = (s.mirror.get l).resyncs.filter (fun r => r.dom != d) ∧ s.received t l vc ∧ t.dram = s.dram) ∧
  (∀ (s : State) (l : Half) (vc : Fin 8) (active c : Nat) (prints : List Nat), s.sound = true →
    s.rxHead l vc = some (.setFp active prints, c) →
    ∃ t, exec (.setFp l vc) s = .next t ∧ (t.mirror.get l).peerSets = some (active, prints) ∧ s.received t l vc ∧
      t.reqs = s.reqs ∧ t.dram = s.dram)

/-! ### Faults, pins, media commands and the mailbox (15_faults) -/

/-- Records: an open record closes (R338), FLT_ACK acknowledges (R338), a run of failed lines ends in one aggregate record
(R344); a unit of Table 15.7 that passes its test returns to service, and a channel's walk begins (R342; 03_domains R91).
ERR_N and ALARM_N: RELEASE waits for the end of the 2 ms phase, and DF locks ERR_N; SW_ASSERT holds the pin by itself
(R348, R349). -/
def Obligations.RecordsAndPins : Prop :=
  (∀ (s : State) (seq : BitVec 32) (q : FaultRec), s.sound = true → s.records.find? (fun x => x.seq == seq.toNat) = some q →
    (∀ x ∈ s.records, x.seq = q.seq → x = q) → s.closable q = true →
    ∃ t r', exec (.faultRecordClose seq) s = .next t ∧ t.records.find? (fun x => x.seq == seq.toNat) = some r' ∧
      r'.isOpen = false ∧ r'.name = q.name ∧ t.records.length = s.records.length ∧
      t.fld fltStatusOpen = s.fld fltStatusOpen - 1 ∧ t.dram = s.dram) ∧
  (∀ (s : State) (v : Word) (q : FaultRec), s.sound = true → s.takesWrite .ack false none = true → q ∈ s.records →
    (∀ x ∈ s.records, x.seq = q.seq → x = q) → (bitAt v.toNat 32 = true ∨ q.seq = v.toNat % 2 ^ 32) →
    ∃ t r', exec (.faultAck v) s = .next t ∧ t.records.find? (fun x => x.seq == q.seq) = some r' ∧ r'.acked = true ∧
      r'.name = q.name ∧ t.records.length = s.records.length ∧ t.dram = s.dram) ∧
  (∀ (s : State) (u : BitVec 16) (d first n dpa at_ name : Nat), s.sound = true →
    (s.unit u.toNat).openRun = some (d, first, n, dpa, at_) → (s.unit u.toNat).episode = some name →
    ∃ t q x, exec (.itemRunClose u) s = .next t ∧ q ∈ t.records ∧ q.name = cFltItemFailed ∧ q.aggregate = true ∧
      q.unit = u.toNat ∧ q.dom = some d ∧ q.addr = some (dpa, n) ∧ q.detail = name * 2 ^ 32 ∧
      t.units = cellPut {} s.units u.toNat x ∧ x.openRun = none ∧ t.dram = s.dram) ∧
  (∀ (s : State) (u : BitVec 16), s.sound = true → cellsWf (fun _ => ({} : UnitState)) s.units = true →
    u.toNat / 0x1000 = 3 → u.toNat % 0x1000 < 16 → (s.unit u.toNat).resetting = true → (s.unit u.toNat).fences < 3 →
    ∃ t, exec (.unitResetDone u true) s = .next t ∧ t.fenced u.toNat = false ∧
      t.bit (shgStatusCompFenced (u.toNat % 0x1000 / 8)) (u.toNat % 0x1000 % 8) = false ∧ t.dram = s.dram) ∧
  (∀ (s : State) (u : BitVec 16) (pass : Bool), s.sound = true → u.toNat / 0x1000 = 1 → (s.unit u.toNat).resetting = true →
    ∃ t, exec (.unitResetDone u pass) s = .next t ∧
      t.walks = s.walks ++ [{ channel := u.toNat % 0x1000, todo := s.walkList (chanHalf (u.toNat % 0x1000)) }] ∧
      t.regs = s.regs ∧ t.dram = s.dram) ∧
  (∀ s : State, s.sound = true → s.flag fltErrPinCtrlHwPhase = true →
    ∃ t, exec .errPhaseEnd s = .next t ∧ t.flag fltErrPinCtrlHwPhase = false ∧
      t.flag fltErrPinCtrlHwLatched = (s.flag fltErrPinCtrlHwLatched && !s.flag fltErrPinCtrlReleasePending) ∧
      t.flag fltErrPinCtrlReleasePending = false ∧ (s.flag fltErrPinCtrlReleasePending = true →
        t.flag fltErrPinCtrlPinAsserted = (s.flag fltErrPinCtrlSwAssert || s.pins.errHeld)) ∧
      (∀ f : Fld, f.key ≠ fltErrPinCtrl → t.fld f = s.fld f) ∧ t.dram = s.dram) ∧
  (∀ s : State, s.sound = true → s.takesWrite .ack false none = true →
    (s.flag fltErrPinCtrlDfLock = true → exec .errPinRelease s = .next s) ∧
    (s.flag fltErrPinCtrlDfLock = false → s.flag fltErrPinCtrlHwPhase = true →
      exec .errPinRelease s = .next (s.setFlag fltErrPinCtrlReleasePending true)) ∧
    (s.flag fltErrPinCtrlDfLock = false → s.flag fltErrPinCtrlHwPhase = false →
      ∃ t, exec .errPinRelease s = .next t ∧ t.flag fltErrPinCtrlHwLatched = false ∧
        t.flag fltErrPinCtrlPinAsserted = (s.flag fltErrPinCtrlSwAssert || s.pins.errHeld) ∧
        (∀ f : Fld, f.key ≠ fltErrPinCtrl → t.fld f = s.fld f) ∧ t.dram = s.dram)) ∧
  (∀ (s : State) (on : Bool), s.sound = true → s.takesWrite .ack false none = true →
    ∃ t, exec (.errPinSwAssert on) s = .next t ∧ t.flag fltErrPinCtrlSwAssert = on ∧
      t.flag fltErrPinCtrlPinAsserted = (s.flag fltErrPinCtrlHwLatched || on || s.pins.errHeld) ∧
      (∀ f : Fld, f.key ≠ fltErrPinCtrl → t.fld f = s.fld f) ∧ t.dram = s.dram) ∧
  (∀ s : State, s.sound = true → s.flag fltAlarmPinCtrlHwPhase = true →
    ∃ t, exec .alarmPhaseEnd s = .next t ∧ t.flag fltAlarmPinCtrlHwPhase = false ∧
      t.flag fltAlarmPinCtrlHwLatched = (s.flag fltAlarmPinCtrlHwLatched && !s.flag fltAlarmPinCtrlReleasePending) ∧
      t.flag fltAlarmPinCtrlReleasePending = false ∧ (s.flag fltAlarmPinCtrlReleasePending = true →
        t.flag fltAlarmPinCtrlPinAsserted = s.flag fltAlarmPinCtrlSwAssert) ∧
      (∀ f : Fld, f.key ≠ fltAlarmPinCtrl → t.fld f = s.fld f) ∧ t.dram = s.dram) ∧
  (∀ s : State, s.sound = true → s.takesWrite .ack false none = true →
    (s.flag fltAlarmPinCtrlHwPhase = true → exec .alarmPinRelease s = .next (s.setFlag fltAlarmPinCtrlReleasePending true)) ∧
    (s.flag fltAlarmPinCtrlHwPhase = false →
      ∃ t, exec .alarmPinRelease s = .next t ∧ t.flag fltAlarmPinCtrlHwLatched = false ∧
        t.flag fltAlarmPinCtrlPinAsserted = s.flag fltAlarmPinCtrlSwAssert ∧
        (∀ f : Fld, f.key ≠ fltAlarmPinCtrl → t.fld f = s.fld f) ∧ t.dram = s.dram))

/-- Media commands of an LD: Get Poison List replies the overflow times and the listed lines of the LD's domains; Scan Media
runs one scan at a time, finds lines of its range, and in pages that are all ZERO nothing, and its estimate is open; Clear
Poison writes the line; Inject Poison is not supported (R345). The model's choices that it rests on: logs 5, 66. -/
def Obligations.MediaCommands : Prop :=
  (∀ (s : State) (p ld : Fin 16) (a n : Nat), exec (.getPoisonList p ld a n) s =
    .next (s.emit (.reply "GET_POISON_LIST" ((b2n s.poisonOvf.a.isSome + b2n s.poisonOvf.b.isSome) ::
      ((s.poisonOvf.a.toList ++ s.poisonOvf.b.toList).map (·.1) ++
        (s.poisonList p ld a n).flatMap fun e => [e.1, e.2.1, e.2.2]))))) ∧
  (∀ (s : State) (p ld : Fin 16) (a n : Nat), s.sound = true →
    ((s.scan (fnOf p ld)).all (·.done) = true →
      ∃ t, exec (.scanMedia p ld a n) s = .next t ∧ t.out = .reply "SCAN_MEDIA" [] :: s.out ∧
        t.scans = cellPut none s.scans (fnOf p ld) (some ⟨a, n, false, []⟩) ∧ t.regs = s.regs ∧ t.dram = s.dram) ∧
    (∀ x : ScanMedia, s.scan (fnOf p ld) = some x → x.done = false →
      exec (.scanMedia p ld a n) s = .next (s.emit (.reply "SCAN_MEDIA_BUSY" [])))) ∧
  (∀ (s : State) (p ld : Fin 16) (errs : List Burst) (x : ScanMedia), s.sound = true → s.scan (fnOf p ld) = some x → x.done = false →
    (∃ t f, exec (.scanMediaDone p ld errs) s = .next t ∧ t.scans = cellPut none s.scans (fnOf p ld)
      (some { x with done := true, found := f }) ∧ (∀ l ∈ f, x.first ≤ l ∧ l < x.first + x.len) ∧ t.reqs = s.reqs ∧
      t.pages = s.pages) ∧
    ((∀ q ∈ s.scanPages p ld x.first x.len, (s.pageNow q.2.1 (q.2.2.1 / 64)).state = .zero) →
      ∃ t, exec (.scanMediaDone p ld errs) s = .next t ∧
        t.scans = cellPut none s.scans (fnOf p ld) (some { x with done := true, found := [] }) ∧ t.poison = s.poison ∧
        t.regs = s.regs ∧ t.dram = s.dram)) ∧
  (∀ (s : State) (p ld : Fin 16) (a n : Nat), s.sound = true →
    ∃ t, exec (.getScanMediaCapabilities p ld a n) s = .next t ∧ t.free = s.free + 1 ∧
      t.out = .reply "GET_SCAN_MEDIA_CAPABILITIES" [Config.freeNat s.free] :: s.out ∧ t.regs = s.regs ∧ t.dram = s.dram) ∧
  (∀ (s : State) (p ld : Fin 16) (x : ScanMedia), s.scan (fnOf p ld) = some x →
    exec (.getScanMediaResults p ld) s = .next (s.emit (.reply "GET_SCAN_MEDIA_RESULTS" (b2n x.done :: x.found)))) ∧
  (∀ (s : State) (p ld : Fin 16) (a d l : Nat) (data : Line), s.sound = true → d < 1024 →
    (s.ldToDpa p ld (a * 64)).bind s.domOfDpa = some (d, l) → s.ownerLd d p ld = true → s.df = false →
    s.fenced (uHalf (s.home d).idx) = false →
    ∃ t q, exec (.clearPoison p ld a data) s = .next t ∧ t.reqs = s.reqs ++ [q] ∧ q.kind = .wr ∧ q.dom = d ∧ q.line = l ∧
      q.data = data ∧ q.enables = allBytes ∧ q.poison = false ∧ Out.reply "CLEAR_POISON" [] ∈ t.out ∧ t.dram = s.dram) ∧
  (∀ (s : State) (p ld : Fin 16) (a : Nat) (data : Line), (s.ldToDpa p ld (a * 64)).bind s.domOfDpa = none →
    exec (.clearPoison p ld a data) s = .next (s.emit (.reply "INVALID_ADDRESS" []))) ∧
  (∀ (s : State) (p ld : Fin 16) (a : Nat), exec (.injectPoison p ld a) s = .next (s.emit (.reply "UNSUPPORTED" [])))

/-- Events and the vendor mailbox: the oldest records of a log are replied and stay (R350; 19_register_map R416); NOP ends OK,
GET_FAULT_RECORD ends with the host copy of a record that R350 would send, else NOT_FOUND, any other opcode UNSUPPORTED (R352). -/
def Obligations.EventsAndMailbox : Prop :=
  (∀ (s : State) (p : Fin 16) (ld : Fin 17) (log : Fin 4) (count : Nat), ld.val ≠ 16 →
    ∃ t, exec (.getEventRecords p ld log count) s = .next t ∧ t.events = s.events ∧ t.regs = s.regs ∧
      t.out.length = s.out.length + min count (cellGet [] s.events (fnOf p ld * 4 + log)).length ∧
      (∀ e ∈ (cellGet [] s.events (fnOf p ld * 4 + log)).reverse.take count, Out.reply "EVENT_RECORD" ([e.kind, e.name, e.time] ++
        (match e.addr with | some a => [a.1, a.2] | none => [])) ∈ t.out)) ∧
  (∀ (s : State) (p : Fin 16) (log : Fin 4) (count : Nat),
    ∃ t, exec (.getEventRecords p 16 log count) s = .next t ∧ t.fmLog = s.fmLog ∧ t.regs = s.regs ∧
      t.out.length = s.out.length + min count s.fmLog.length ∧
      (∀ e ∈ s.fmLog.reverse.take count, Out.reply e.1 e.2 ∈ t.out)) ∧
  (∀ (s : State) (p : Fin 16) (ld : Fin 17), s.sound = true → ld.val ≠ 16 → s.present p ld = true →
    (s.func (fnOf p ld)).flr = false → s.mboxFree (fnOf p ld) = true →
    ∃ t, exec (.nop p ld) s = .next t ∧ t.fld (uvMboxStatusResult (fnOf p ld)) = 0 ∧
      t.flag (uvMboxStatusDone (fnOf p ld)) = true ∧
      (∀ f : Fld, f.key ≠ uvMboxStatus (fnOf p ld) → t.fld f = s.fld f) ∧ t.dram = s.dram) ∧
  (∀ (s : State) (p : Fin 16) (ld : Fin 17) (op : BitVec 16), s.sound = true → ld.val ≠ 16 → s.present p ld = true →
    (s.func (fnOf p ld)).flr = false → s.mboxFree (fnOf p ld) = true → 2 ≤ op.toNat →
    ∃ t, exec (.mboxUnsupported p ld op) s = .next t ∧ t.fld (uvMboxStatusResult (fnOf p ld)) = 2 ∧
      t.flag (uvMboxStatusDone (fnOf p ld)) = true ∧
      (∀ f : Fld, f.key ≠ uvMboxStatus (fnOf p ld) → t.fld f = s.fld f) ∧ t.dram = s.dram) ∧
  (∀ (s : State) (p : Fin 16) (ld : Fin 17) (r : FaultRec) (la : Option Nat) (ev : Nat × Nat), s.sound = true → ld.val ≠ 16 →
    s.present p ld = true → (s.func (fnOf p ld)).flr = false → s.mboxFree (fnOf p ld) = true →
    s.records.find? (fun r => r.seq == (s.reg (uvMboxPayload (fnOf p ld) 0)).toNat % 2 ^ 32) = some r → s.tells r p ld = some la →
    eventOf r (s.flag fltCfgHostCeEn) = some ev →
    ∃ t, exec (.getFaultRecord p ld) s = .next t ∧ t.fld (uvMboxStatusResult (fnOf p ld)) = 0 ∧
      t.flag (uvMboxStatusDone (fnOf p ld)) = true ∧ t.dram = s.dram ∧
      ∀ i, i < 8 → t.reg (uvMboxPayload (fnOf p ld) i) = BitVec.ofNat 64 (nth 0 (r.hostWords la) i)) ∧
  (∀ (s : State) (p : Fin 16) (ld : Fin 17), s.sound = true → ld.val ≠ 16 → s.present p ld = true →
    (s.func (fnOf p ld)).flr = false → s.mboxFree (fnOf p ld) = true →
    (s.records.find? (fun r => r.seq == (s.reg (uvMboxPayload (fnOf p ld) 0)).toNat % 2 ^ 32)).all
      (fun r => (s.tells r p ld).isNone || (eventOf r (s.flag fltCfgHostCeEn)).isNone) = true →
    ∃ t, exec (.getFaultRecord p ld) s = .next t ∧ t.fld (uvMboxStatusResult (fnOf p ld)) = 1 ∧
      t.flag (uvMboxStatusDone (fnOf p ld)) = true ∧ t.dram = s.dram)

/-! ### Timed commits and the tide clock (11_tide_clock) -/

/-- Commits: SUBMIT queues an entry in the order of T, IMMEDIATE with the first whole microsecond at least 10 µs away as T
(R270), and refuses one whose time has passed (R269, R271, Table 11.5); CANCEL takes out the entry with its TAG whose time is
at least 5 µs away, unseals its groups, and leaves every shadow as written (R272); at its time the front entry applies, where
its groups pass their checks, or launches a snapshot or a mirror cut (R271, R274); the QoS group applies with the values that
its shadows held (R268). The model's choices that it rests on: logs 4, 74. -/
def Obligations.TimedCommits : Prop :=
  (∀ (s u : State) (v : Word) (t0 : Nat), s.sound = true → s.takesWrite .plain false none = true →
    t0 = (if bitAt v.toNat 11 = true then s.soonest else s.fld topCommitTimeTNs) → bitAt v.toNat 12 = false →
    bitsOf v.toNat 0 8 < 32 → bitsOf v.toNat 8 3 ≤ 2 → ((bitsOf v.toNat 0 8 = 0) ↔ (bitsOf v.toNat 8 3 ≠ 0)) →
    s.tide.master + 10000 * 2 ^ 40 ≤ t0 * 2 ^ 40 → t0 * 2 ^ 40 ≤ s.tide.master + 3600000000000 * 2 ^ 40 →
    s.fld topCommitStatusSealed &&& bitsOf v.toNat 0 8 = 0 → s.commits.length < 64 →
    s.checkGroups (bitsOf v.toNat 0 8) (s.commits.any (fun e => decide (t0 < e.t))) = (u, 0) → u.sound = true →
    u.commits = s.commits → (∀ e ∈ s.commits, e.tag ≠ bitsOf v.toNat 13 16) → u.powerBusy = false →
    ∃ t, exec (.commitSubmit v) s = .next t ∧
      t.commits = insertEntry ⟨t0, bitsOf v.toNat 0 8, bitsOf v.toNat 8 3, bitsOf v.toNat 13 16⟩ s.commits ∧
      (s.commits.Pairwise (fun a b => a.t ≤ b.t) → t.commits.Pairwise (fun a b => a.t ≤ b.t)) ∧
      t.fld topCommitResultResult = 0 ∧ t.fld topCommitResultTag = bitsOf v.toNat 13 16 ∧
      t.fld topCommitAppliedTNs = t0 % 2 ^ 64 ∧ t.flag topCommitResultDone = true ∧ t.dram = u.dram) ∧
  (∀ (s : State) (v : Word), s.sound = true → s.takesWrite .plain false none = true → bitAt v.toNat 11 = false →
    bitAt v.toNat 12 = false → bitsOf v.toNat 0 8 < 32 → bitsOf v.toNat 8 3 ≤ 2 →
    ((bitsOf v.toNat 0 8 = 0) ↔ (bitsOf v.toNat 8 3 ≠ 0)) →
    s.fld topCommitTimeTNs * 2 ^ 40 < s.tide.master + 10000 * 2 ^ 40 →
    ∃ t, exec (.commitSubmit v) s = .next t ∧ t.commits = s.commits ∧ t.fld topCommitResultResult = 3 ∧
      t.fld topCommitResultTag = bitsOf v.toNat 13 16 ∧ t.dram = s.dram) ∧
  (∀ (s : State) (v : Word) (e : CommitEntry), s.sound = true → s.takesWrite .plain false none = true → e ∈ s.commits →
    s.commits.Pairwise (fun a b => a.tag ≠ b.tag) → e.tag = bitsOf v.toNat 13 16 →
    ∃ t, exec (.commitCancel v) s = .next t ∧ t.fld topCommitResultTag = e.tag ∧ t.dram = s.dram ∧
      (∀ k, k ≠ topCommitResult → k ≠ topCommitApplied → k ≠ topCommitStatus → t.reg k = s.reg k) ∧
      (s.tide.master + 5000 * 2 ^ 40 ≤ e.t * 2 ^ 40 →
        t.commits = s.commits.filter (fun x => x.tag != e.tag) ∧ t.fld topCommitResultResult = 9 ∧
        ∀ g, g < 5 → bitAt (t.fld topCommitStatusSealed) g = (t.commits.any (fun x => bitAt x.groups g) ||
          (g == 2 && (List.range 26).any fun i => s.flag (ttStatusTakeoverPending i)))) ∧
      (e.t * 2 ^ 40 < s.tide.master + 5000 * 2 ^ 40 → t.commits = s.commits ∧ t.fld topCommitResultResult = 10)) ∧
  (∀ (s u : State) (e : CommitEntry) (rest : List CommitEntry), s.sound = true → s.commits = e :: rest → s.df = false →
    e.action = 0 → e.tag < 2 ^ 16 →
    ({ s with commits := rest } : State).checkGroups e.groups (!rest.isEmpty) = (u, 0) → u.sound = true →
    ∃ t, exec .commitApply s = .next t ∧ t.fld topCommitResultResult = 1 ∧ t.fld topCommitResultTag = e.tag ∧
      t.flag topCommitResultDone = true ∧ (e.groups = 2 → t.commits = rest ∧
        ∀ d, d < 1024 → t.eff (qosPolACir d) = u.fld (qosPolACir d) ∧ t.eff (qosPolACbs d) = u.fld (qosPolACbs d) ∧
          t.eff (qosPolBPir d) = u.fld (qosPolBPir d) ∧ t.eff (qosShpRate d) = u.fld (qosShpRate d))) ∧
  (∀ (s : State) (e : CommitEntry) (rest : List CommitEntry), s.sound = true → s.commits = e :: rest → s.df = false →
    e.action = 1 → e.tag < 2 ^ 16 →
    ∃ t, exec .snapshot s = .next t ∧ t.commits = rest ∧ t.fld topCommitResultResult = 1 ∧ t.fld topCommitResultTag = e.tag ∧
      (∀ k, k < 64 → t.fld (pmuSnapCount 0 k) = s.fld (pmuCntCount 0 k) ∧ t.fld (pmuSnapCount 1 k) = s.fld (pmuCntCount 1 k)) ∧
      t.reqs = s.reqs ∧ t.dram = s.dram) ∧
  (∀ (s : State) (e : CommitEntry) (rest : List CommitEntry), s.sound = true → s.commits = e :: rest → s.df = false →
    e.action = 2 → e.tag < 2 ^ 16 → s.isS = false →
    ∃ t, exec .mirrorCut s = .next t ∧ t.commits = rest ∧ t.fld topCommitResultResult = 1 ∧ t.fld topCommitResultTag = e.tag ∧
      t.fld (mirCutCut 0) = (s.fld (mirCutCut 0) + 1) % 2 ^ 64 ∧ t.fld (mirCutCut 1) = (s.fld (mirCutCut 1) + 1) % 2 ^ 64 ∧
      t.reqs = s.reqs ∧ t.dram = s.dram) ∧
  (∀ s : State, s.soonest % 1000 = 0 ∧ s.tide.master + 10000 * 2 ^ 40 ≤ s.soonest * 2 ^ 40 ∧
    s.soonest * 2 ^ 40 < s.tide.master + 11000 * 2 ^ 40)

/-- PTP (R262): two-step Sync is held for its Follow_Up; either gives a measurement of the offset where a master is heard; the
path delay comes from Delay_Req and Delay_Resp, or from the peer mechanism; a better master is heard by its Announce; the loss
of Sync or of the best master's Announce leaves PTP unqualified, and the clock in HOLDOVER where it was locked to PTP alone
(Table 11.1, Table 11.2). The model's choices that it rests on: logs 26, 72, 76. -/
def Obligations.PtpMessages : Prop :=
  (∀ (s : State) (seq t1 : Nat) (corr : Int), exec (.ptpSync seq true t1 corr) s = .next { s with
    tide := { s.tide with syncs := (seq, s.tns) :: s.tide.syncs.filter (fun q => q.1 != seq) } }) ∧
  (∀ (s : State) (seq t1 : Nat) (corr : Int), s.sound = true → s.tide.masters ≠ [] →
    (s.flag tbCfgStepEn = false ∨ s.flag tbStatusEverLocked = true) →
    ∃ t, exec (.ptpSync seq false t1 corr) s = .next t ∧ t.tide.ptp.lastAt = some s.now ∧ t.tide.master = s.tide.master ∧
      t.tide.ptp.offsets.head? = some ((t1 : Int) + corr + s.tide.pathDelay - s.tns) ∧
      t.tide.sync12 = some (((t1 : Int) + corr).toNat, s.tns) ∧ t.dram = s.dram) ∧
  (∀ (s : State) (seq t1 t2 : Nat) (corr : Int), s.sound = true → s.tide.masters ≠ [] →
    (s.flag tbCfgStepEn = false ∨ s.flag tbStatusEverLocked = true) →
    s.tide.syncs.find? (fun q => q.1 == seq) = some (seq, t2) →
    ∃ t, exec (.ptpFollowUp seq t1 corr) s = .next t ∧ t.tide.ptp.lastAt = some s.now ∧
      t.tide.syncs = s.tide.syncs.filter (fun q => q.1 != seq) ∧
      t.tide.ptp.offsets.head? = some ((t1 : Int) + corr + s.tide.pathDelay - t2) ∧ t.dram = s.dram) ∧
  (∀ s : State, s.sound = true → s.fld tbPtpCfgDelayMech = 0 →
    ∃ t, exec .ptpDelayReqSend s = .next t ∧ t.tide.delayReq = some (s.tide.seq, s.tns) ∧
      t.tide.seq = (s.tide.seq + 1) % 65536 ∧ t.out = .ptp "Delay_Req" s.tide.seq [s.tns] :: s.out ∧ t.regs = s.regs) ∧
  (∀ (s : State) (seq t1 t2 t3 t4 : Nat) (corr : Int), s.fld tbPtpCfgDelayMech = 0 → s.tide.delayReq = some (seq, t3) →
    s.tide.sync12 = some (t1, t2) → exec (.ptpDelayResp seq t4 corr) s = .next { s with
      tide := { s.tide with delayReq := none, pathDelay := (((t2 : Int) - t1) + ((t4 : Int) - corr - t3)) / 2 } }) ∧
  (∀ (s : State) (rank : List Nat) (ident : Word), exec (.ptpAnnounce rank ident) s = .next { s with
    tide := { s.tide with masters := ⟨rank, ident.toNat⟩ :: s.tide.masters.filter (fun m => m.ident != ident.toNat) } }) ∧
  (∀ (s : State) (seq : Nat), s.fld tbPtpCfgDelayMech = 1 → exec (.ptpPdelayReq seq) s =
    .next ((s.emit (.ptp "Pdelay_Resp" seq [s.tns])).emit (.ptp "Pdelay_Resp_Follow_Up" seq [s.tns]))) ∧
  (∀ (s : State) (seq t1 t2 : Nat) (corr : Int), s.sound = true →
    s.fld tbPtpCfgDelayMech = 1 → s.tide.pdelayReq = some (seq, t1) →
    ∃ t, exec (.ptpPdelayResp seq false t2 corr) s = .next t ∧ t.tide.pdelayReq = none ∧
      t.tide.pathDelay = ((s.tns : Int) - corr - t1) / 2 ∧ t.regs = s.regs ∧ t.dram = s.dram) ∧
  (∀ (s : State) (seq t1 t2 t3 t4 : Nat) (corr : Int), s.sound = true → s.tide.pdelayReq = some (seq, t1) →
    s.tide.pdelayResp = some (seq, t2, t4) →
    ∃ t, exec (.ptpPdelayRespFollowUp seq t3 corr) s = .next t ∧ t.tide.pdelayReq = none ∧ t.tide.pdelayResp = none ∧
      t.tide.pathDelay = ((t4 : Int) - corr - t1 - ((t3 : Int) - t2)) / 2 ∧ t.regs = s.regs ∧ t.dram = s.dram) ∧
  (∀ s : State, s.sound = true →
    ∃ t, exec .ptpSyncTimeout s = .next t ∧ t.tide.ptp = {} ∧ t.tide.pps = s.tide.pps ∧ t.tide.masters = s.tide.masters ∧
      t.tide.master = s.tide.master ∧ t.dram = s.dram ∧
      (s.fld tbStatusSource = 1 → s.ranked = [1] → s.fld tbStatusState = 2 → s.flag tbStatusEverLocked = true →
        s.fld tbCfgHoldoverLimitS ≠ 0 → t.fld tbStatusState = 3 ∧ t.fld tbStatusSource = 0)) ∧
  (∀ (s : State) (m : PtpMaster), s.sound = true → bestMaster s.tide.masters = some m →
    ∃ t, exec .ptpAnnounceTimeout s = .next t ∧ t.tide.ptp = {} ∧ t.tide.pps = s.tide.pps ∧
      t.tide.masters = s.tide.masters.filter (· != m) ∧ t.tide.master = s.tide.master ∧ t.dram = s.dram ∧
      (s.fld tbStatusSource = 1 → s.ranked = [1] → s.fld tbStatusState = 2 → s.flag tbStatusEverLocked = true →
        s.fld tbCfgHoldoverLimitS ≠ 0 → t.fld tbStatusState = 3 ∧ t.fld tbStatusSource = 0))

/-- PPS, holdover and steps: an edge measures the offset from the nearest second (R263, Table 11.1); no edge leaves PPS
unqualified; PPS_OUT rises at a second where it is enabled; HOLDOVER ends in FREE_RUN (Table 11.2); a step moves the master,
loads both local clocks from it (R34) and sets STEP, where it leaves no commit due (R267); TB_CFG is taken whole or refused
whole (R261). The model's choices that it rests on: logs 10, 24, 27. -/
def Obligations.ClockRegisters : Prop :=
  (∀ s : State, s.sound = true → s.tide.tod = none →
    (s.flag tbCfgStepEn = false ∨ s.flag tbStatusEverLocked = true) →
    ∃ t, exec .ppsInEdge s = .next t ∧ t.tide.pps.lastAt = some s.now ∧ t.tide.master = s.tide.master ∧
      t.tide.pps.offsets.head? = some ((((s.tns : Int) - s.fld tbPpsCfgInDelayNs) + 500000000) / 1000000000 * 1000000000
        - ((s.tns : Int) - s.fld tbPpsCfgInDelayNs)) ∧ t.dram = s.dram) ∧
  (∀ s : State, s.sound = true →
    ∃ t, exec .ppsInTimeout s = .next t ∧ t.tide.pps = {} ∧ t.tide.ptp = s.tide.ptp ∧ t.tide.master = s.tide.master ∧
      t.dram = s.dram) ∧
  (∀ s : State, exec .ppsOutPulse s = .next (if s.flag tbPpsCfgOutEn = true then
    ({ s with tide := { s.tide with ppsOut := some (s.now + s.fld tbPpsCfgOutWidthUs * 1000) } } : State).emit (.pin "PPS_OUT" true)
    else s)) ∧
  (∀ s : State, s.sound = true → s.fld tbStatusState = 3 →
    ∃ t, exec .holdoverExpiry s = .next t ∧ t.fld tbStatusState = 0 ∧ t.flag tbEvtHoldoverExpired = true ∧
      t.flag tbEvtStateChange = true ∧ (∀ f : Fld, f.key ≠ tbStatus → f.key ≠ tbEvt → t.fld f = s.fld f) ∧ t.dram = s.dram) ∧
  (∀ (s : State) (v : Word), s.sound = true → s.takesWrite .plain true none = true → v ≠ 0 →
    s.commits.head?.all (fun e => tideAdd s.tide.master (signedOf 64 v.toNat * (tideNs : Int)) / tideNs < e.t) = true →
    ∃ t, exec (.tideStep v) s = .next t ∧ t.tide.master = tideAdd s.tide.master (signedOf 64 v.toNat * (tideNs : Int)) ∧
      t.tide.localA = t.tide.master ∧
      t.tide.localB = t.tide.master ∧ t.flag tbEvtStep = true ∧ t.dram = s.dram) ∧
  (∀ (s : State) (v : Word), s.takesWrite .plain true none = true →
    exec (.todSet v) s = .next { s with tide := { s.tide with tod := some v.toNat } }) ∧
  (∀ (s : State) (v : Word), s.takesWrite .plain true none = true → s.tbCfgBad v.toNat = true →
    exec (.tbCfgWrite v) s = .next (s.setFlag tbEvtCfgReject true)) ∧
  (∀ (s : State) (v : Word), s.sound = true → s.takesWrite .plain true none = true → s.tbCfgBad v.toNat = false →
    ∃ t, exec (.tbCfgWrite v) s = .next t ∧ t.reg tbCfg = BitVec.ofNat 64 (v.toNat % 2 ^ 51) ∧
      t.tide.master = s.tide.master ∧ t.dram = s.dram) ∧
  (∀ s : State, s.sound = true → s.regReach true = true →
    ∃ t, exec .tbTimeRead s = .next t ∧ t.out = .reply "READ" [s.tide.master / 2 ^ 24 % 2 ^ 64] :: s.out ∧
      t.fld tbTimeHiNsHi = s.tide.master / 2 ^ 88 % 2 ^ 16 ∧ t.tide = s.tide ∧ t.dram = s.dram)

/-! ### The Strait link (12_strait) -/

/-- Frames sent (R279, R283): a resent frame goes out as first sent (R280); then NAK, INIT_ACK, TIME and new DATA, each built
with the next invocation value under the transmit key set, the acknowledge and a credit count (R282, R286); a new DATA frame
takes the next sequence number and stays in the replay buffer (R289); an ACK_ONLY follows a waiting acknowledge; a TIME
request falls due every 1 ms (R291); INIT is sent in INIT. The model's choices that it rests on: logs 82, 83. -/
def Obligations.StraitFramesSent : Prop :=
  (∀ (s : State) (l : Half) (f : StraitHeld) (rest : List StraitHeld), s.sound = true → s.straitUp l.idx = true →
    (s.strait.get l).resend = f :: rest → (s.strait.get l).inv - f.inv ≤ 16384 →
    ∃ t, exec (.straitFrameSend l) s = .next t ∧ t.out.head? = some (.strait l f.bytes) ∧ (t.strait.get l).resend = rest ∧
      (t.strait.get l).inv = (s.strait.get l).inv ∧ (t.strait.get l).replay = (s.strait.get l).replay ∧ t.dram = s.dram) ∧
  (∀ (s : State) (l : Half) (key : Bytes), s.sound = true → s.straitUp l.idx = true → (s.strait.get l).resend = [] →
    (s.strait.get l).nakDue = true → s.straitKey l.idx 0 (s.fld (twStatusKeySetTx l.idx)) = some key →
    (s.strait.get l).inv + 1 < 2 ^ 96 - 1 →
    ∃ t h, exec (.straitFrameSend l) s = .next t ∧ h.typ = 3 ∧ h.vc = 0 ∧ h.seq = 0 ∧
      h.ack = (s.fld (twSeqRxExpected l.idx) + 4095) % 4096 ∧ h.ackValid = (s.strait.get l).ackValid ∧
      t.out.head? = some (.strait l (toByteList (buildFrame key h (s.strait.get l).inv (List.replicate 224 0)))) ∧
      (t.strait.get l).nakDue = false ∧ (t.strait.get l).ackDue = false ∧
      (t.strait.get l).inv = (s.strait.get l).inv + 1 ∧
      t.fld (twCntReplayNakSent l.idx) = satAdd 16 (s.fld (twCntReplayNakSent l.idx)) 1 ∧ t.dram = s.dram) ∧
  (∀ (s : State) (l : Half) (key : Bytes) (xid a b : Nat) (rest : List (Nat × Nat × Nat × Nat)), s.sound = true →
    s.straitUp l.idx = true →
    (s.strait.get l).resend = [] → (s.strait.get l).nakDue = false → (s.strait.get l).initAckDue = false →
    (s.strait.get l).timeDue = (1, xid, a, b) :: rest →
    s.straitKey l.idx 0 (s.fld (twStatusKeySetTx l.idx)) = some key → (s.strait.get l).inv + 1 < 2 ^ 96 - 1 →
    ∃ t h, exec (.straitFrameSend l) s = .next t ∧ h.typ = 4 ∧ (t.strait.get l).timeDue = rest ∧
      (t.strait.get l).inv = (s.strait.get l).inv + 1 ∧
      t.out.head? = some (.strait l (toByteList (buildFrame key h (s.strait.get l).inv (s.timePayload 1 xid a b s.tide80)))) ∧
      t.dram = s.dram) ∧
  (∀ (s : State) (l : Half) (key : Bytes) (m : MirMsg) (n c : Nat), s.sound = true → s.straitUp l.idx = true →
    (s.strait.get l).resend = [] → (s.strait.get l).nakDue = false → (s.strait.get l).initAckDue = false →
    (s.strait.get l).timeDue = [] → (s.strait.get l).drain = none → (s.strait.get l).replay.length < 1023 →
    (s.strait.get l).head 0 = some (0, n, c, m) → (s.strait.get l).credits 0 ≠ 0 →
    s.straitKey l.idx 0 (s.fld (twStatusKeySetTx l.idx)) = some key → (s.strait.get l).inv + 1 < 2 ^ 96 - 1 →
    ∃ t f h, exec (.straitFrameSend l) s = .next t ∧ (t.strait.get l).queue = (takeFrame 0 n c 28 (s.strait.get l).queue).2 ∧
      (t.strait.get l).replay = (s.strait.get l).replay ++ [f] ∧ f.seq = s.fld (twSeqTxNext l.idx) ∧
      f.inv = (s.strait.get l).inv ∧ h.typ = 1 ∧ h.vc = 0 ∧ h.seq = f.seq ∧ h.color = 0 ∧
      f.bytes = toByteList (buildFrame key h f.inv (msgsPayload (takeFrame 0 n c 28 (s.strait.get l).queue).1)) ∧ t.out.head? = some (.strait l f.bytes) ∧
      t.fld (twSeqTxNext l.idx) = (s.fld (twSeqTxNext l.idx) + 1) % 4096 ∧
      t.fld (twSeqOutstanding l.idx) = (s.strait.get l).replay.length + 1 ∧ t.dram = s.dram) ∧
  (∀ (s : State) (l : Half) (key : Bytes), s.sound = true → s.straitUp l.idx = true → (s.strait.get l).ackDue = true →
    s.straitKey l.idx 0 (s.fld (twStatusKeySetTx l.idx)) = some key → (s.strait.get l).inv + 1 < 2 ^ 96 - 1 →
    ∃ t h, exec (.straitAckTimeout l) s = .next t ∧ h.typ = 2 ∧ h.ack = (s.fld (twSeqRxExpected l.idx) + 4095) % 4096 ∧
      t.out.head? = some (.strait l (toByteList (buildFrame key h (s.strait.get l).inv (List.replicate 224 0)))) ∧
      (t.strait.get l).ackDue = false ∧ (t.strait.get l).inv = (s.strait.get l).inv + 1 ∧ t.dram = s.dram) ∧
  (∀ (s : State) (l : Half), s.sound = true → s.straitUp l.idx = true →
    ∃ t, exec (.straitTimeTick l) s = .next t ∧ (t.strait.get l).timeReq = some ((s.strait.get l).xid, none) ∧
      (t.strait.get l).xid = ((s.strait.get l).xid + 1) % 65536 ∧
      (t.strait.get l).timeDue = (s.strait.get l).timeDue.filter (fun x => x.1 != 0) ++ [(0, (s.strait.get l).xid, 0, 0)] ∧
      (s.strait.get l).queue = (t.strait.get l).queue ∧ t.dram = s.dram) ∧
  (∀ (s : State) (l : Half), s.fld (twStatusState l.idx) = 3 →
    ((s.strait.get l).initAckSeen = false ∨ (s.strait.get l).initAckSent = false ∨ s.straitDomainsRun l.idx = false →
      exec (.straitInitTick l) s = .next (s.updLink l fun k => { k with initDue := true })) ∧
    (s.sound = true → s.straitMay l.idx = true → (s.strait.get l).initAckSeen = true → (s.strait.get l).initAckSent = true →
      s.straitDomainsRun l.idx = true →
      ∃ t, exec (.straitInitTick l) s = .next t ∧ t.fld (twStatusState l.idx) = 4 ∧ t.flag (twEvtLinkUp l.idx) = true ∧
        t.reg (twSeq l.idx) = 0 ∧ t.dram = s.dram)) ∧
  (∀ (s : State) (l : Half) (key : Bytes), s.sound = true → s.fld (twStatusState l.idx) = 3 → (s.strait.get l).initDue = true →
    s.straitKey l.idx 0 (s.fld (twStatusKeySetTx l.idx)) = some key → (s.strait.get l).inv + 1 < 2 ^ 96 - 1 →
    ∃ t h, exec (.straitFrameSend l) s = .next t ∧ h.typ = 5 ∧ (t.strait.get l).initDue = false ∧
      t.out.head? = some (.strait l (toByteList (buildFrame key h (s.strait.get l).inv (s.initPayload l)))) ∧ t.dram = s.dram)

/-- Frames received (R279, R280, R285 to R288): a DATA frame with the expected number is accepted and owed an acknowledge; one
ahead of it is answered with one NAK; an acknowledge frees the replay buffer; a NAK, or the replay timer, sends what is left
again; TIME requests are answered; a frame that fails FEC, CRC or header, and a first tag failure, are counted and answered
with a NAK; INIT and INIT_ACK name the partner or fail initialisation with their cause (R293). The model's choices that it
rests on: log 79. -/
def Obligations.StraitFramesReceived : Prop :=
  (∀ (s : State) (l : Half) (bytes : List Byte) (n v set : Nat) (h : FrameHead) (plain : Bytes), s.sound = true →
    s.straitUp l.idx = true → s.frameIn l bytes false = .good h v set plain →
    h.typ = 1 →
    (h.ackValid = true → (h.ack + 4096 - s.fld (twSeqTxOldest l.idx)) % 4096 < s.fld (twSeqOutstanding l.idx) ∨
      (s.fld (twSeqTxOldest l.idx) + 4095 - h.ack) % 4096 < 2048) →
    (h.seq = s.fld (twSeqRxExpected l.idx) → payloadMsgs plain ≠ [] →
      ((s.strait.get l).rx.filter (fun f => f.vc == h.vc && !f.old)).length < (s.strait.get l).bufOf h.vc →
      ∃ t, exec (.straitData l bytes n) s = .next t ∧
        (t.strait.get l).rx = (s.strait.get l).rx ++ [⟨h.vc, h.color, payloadMsgs plain, false⟩] ∧
        t.fld (twSeqRxExpected l.idx) = (s.fld (twSeqRxExpected l.idx) + 1) % 4096 ∧ (t.strait.get l).ackDue = true ∧
        (t.strait.get l).ackValid = true ∧ (t.strait.get l).nakOpen = false ∧
        (t.strait.get l).high = (if (s.strait.get l).oldSet = none ∨ (s.strait.get l).oldSet = some set
          then max (s.strait.get l).high v else v) ∧
        t.fld (twCntFecSymbols l.idx) = satAdd 48 (s.fld (twCntFecSymbols l.idx)) n ∧ t.dram = s.dram) ∧
    (0 < (h.seq + 4096 - s.fld (twSeqRxExpected l.idx)) % 4096 →
      (h.seq + 4096 - s.fld (twSeqRxExpected l.idx)) % 4096 < 2048 → (s.strait.get l).nakOpen = false →
      ∃ t, exec (.straitData l bytes n) s = .next t ∧ (t.strait.get l).rx = (s.strait.get l).rx ∧
        (t.strait.get l).nakDue = true ∧ t.fld (twSeqRxExpected l.idx) = s.fld (twSeqRxExpected l.idx) ∧ t.dram = s.dram)) ∧
  (∀ (s : State) (l : Half) (bytes : List Byte) (n v set : Nat) (h : FrameHead) (plain : Bytes), s.sound = true →
    s.straitUp l.idx = true → s.frameIn l bytes false = .good h v set plain →
    h.ackValid = true → (h.ack + 4096 - s.fld (twSeqTxOldest l.idx)) % 4096 < s.fld (twSeqOutstanding l.idx) →
    (h.typ = 2 → ∃ t, exec (.straitAckOnly l bytes n) s = .next t ∧
      (t.strait.get l).replay = (s.strait.get l).replay.drop ((h.ack + 4096 - s.fld (twSeqTxOldest l.idx)) % 4096 + 1) ∧
      t.fld (twSeqTxOldest l.idx) = (h.ack + 1) % 4096 ∧
      t.fld (twSeqOutstanding l.idx)
        = s.fld (twSeqOutstanding l.idx) - ((h.ack + 4096 - s.fld (twSeqTxOldest l.idx)) % 4096 + 1) ∧
      t.flag (twSeqStalled l.idx) = false ∧ t.dram = s.dram) ∧
    (h.typ = 3 → (∀ f ∈ (s.strait.get l).replay, (s.strait.get l).inv - f.inv ≤ 16384) →
      ∃ t, exec (.straitNak l bytes n) s = .next t ∧
        (t.strait.get l).replay = (s.strait.get l).replay.drop ((h.ack + 4096 - s.fld (twSeqTxOldest l.idx)) % 4096 + 1) ∧
        ((t.strait.get l).replay ≠ [] → (t.strait.get l).resend = (t.strait.get l).replay) ∧ t.dram = s.dram)) ∧
  (∀ (s : State) (l : Half) (bytes : List Byte) (n v set : Nat) (h : FrameHead) (plain : Bytes), s.sound = true →
    s.straitUp l.idx = true → s.frameIn l bytes false = .good h v set plain →
    h.typ = 4 → plain.headD 0 = 0 →
    (h.ackValid = true → (h.ack + 4096 - s.fld (twSeqTxOldest l.idx)) % 4096 < s.fld (twSeqOutstanding l.idx) ∨
      (s.fld (twSeqTxOldest l.idx) + 4095 - h.ack) % 4096 < 2048) →
    ∃ t, exec (.straitTime l bytes n) s = .next t ∧ t.dram = s.dram ∧ (t.strait.get l).timeDue = (s.strait.get l).timeDue ++
      [(1, ofLeB ((plain.drop 2).take 2), ofLeB ((plain.drop 4).take 10), s.tide80)]) ∧
  (∀ (s : State) (l : Half) (f : StraitHeld) (rest : List StraitHeld), s.sound = true → s.straitUp l.idx = true →
    (s.strait.get l).replay = f :: rest → (s.strait.get l).inv - f.inv ≤ 16384 →
    ∃ t, exec (.straitReplayTimeout l) s = .next t ∧ (t.strait.get l).resend = f :: rest ∧
      (t.strait.get l).replay = f :: rest ∧
      t.fld (twCntReplayOnTimeout l.idx) = satAdd 16 (s.fld (twCntReplayOnTimeout l.idx)) 1 ∧ t.dram = s.dram) ∧
  (∀ (s : State) (l : Half) (bytes : List Byte) (n : Nat), s.sound = true → s.straitUp l.idx = true →
    (s.strait.get l).badRun + 1 < 8192 →
    ∃ t, exec (.straitBadFrame l bytes true n) s = .next t ∧ ((s.strait.get l).nakOpen = false → (t.strait.get l).nakDue = true) ∧ (t.strait.get l).nakOpen = true ∧
      (t.strait.get l).badRun = (s.strait.get l).badRun + 1 ∧
      t.fld (twCntErrBadFrame l.idx) = satAdd 16 (s.fld (twCntErrBadFrame l.idx)) 1 ∧
      t.fld (twCntErrFecUncorr l.idx) = satAdd 16 (s.fld (twCntErrFecUncorr l.idx)) 1 ∧ t.dram = s.dram) ∧
  (∀ (s : State) (l : Half) (bytes : List Byte) (n v set : Nat) (h : FrameHead) (plain : Bytes), s.sound = true →
    s.fld (twStatusState l.idx) = 3 → s.frameIn l bytes false = .good h v set plain →
    (s.initCause l set plain = 0 → h.typ = 5 → ∃ t, exec (.straitInit l bytes n) s = .next t ∧
      (t.strait.get l).initAckDue = true ∧ t.fld (twStatusPartnerId l.idx) = ofLeB (plain.take 2) % 4096 ∧
      t.fld (twStatusPartnerPairId l.idx) = nth 0 plain 2 % 4 ∧ t.fld (twStatusState l.idx) = 3 ∧
      (t.strait.get l).peerBuf = (List.range 8).map (fun j => bitsOf (ofLeB ((plain.drop 4).take 8)) (7 * j) 7 * 16) ∧
      t.dram = s.dram) ∧
    (s.initCause l set plain = 0 → h.typ = 6 → (s.strait.get l).initAckSent = false →
      ∃ t, exec (.straitInitAck l bytes n) s = .next t ∧ (t.strait.get l).initAckSeen = true ∧
        t.fld (twStatusState l.idx) = 3 ∧ (t.strait.get l).high = v ∧ t.dram = s.dram) ∧
    (s.initCause l set plain ≠ 0 → h.typ = 5 → ∃ t, exec (.straitInit l bytes n) s = .next t ∧
      t.fld (twStatusState l.idx) = 1 ∧ (t.strait.get l).waitRetry = true ∧ t.flag (twEvtInitFail l.idx) = true ∧
      ((s.strait.get l).cfgOk = true → (s.strait.get l).cfg = s.reg (twCfg l.idx) →
        (s.strait.get l).vcBuf = s.reg (twVcBuf l.idx) → (s.strait.get l).vcMap = s.reg (twVcMap l.idx) →
        (s.strait.get l).configOk = true → t.fld (twStatusInitFail l.idx) = s.initCause l set plain) ∧ t.dram = s.dram))

/-- Link states (Table 12.8): signal leads from DETECT to TRAIN, lanes that pass to INIT at the widest group, or back to DETECT
with KEY_EMPTY; training and initialisation that take too long lead to DETECT (R293); the wait in DOWN ends in DETECT; TW_CFG is
refused whole outside its ranges, and ENABLE cleared leads to DISABLED. -/
def Obligations.StraitStates : Prop :=
  (∀ (s : State) (l : Half), s.straitMay l.idx = true → s.fld (twStatusState l.idx) = 1 → (s.strait.get l).cfgOk = true →
    (s.strait.get l).waitRetry = false → exec (.straitSignalDetect l) s = .next (s.setFld (twStatusState l.idx) 2)) ∧
  (∀ (s : State) (l : Half) (tx rx : BitVec 8) (a b : Nat), s.sound = true → s.straitMay l.idx = true →
    s.fld (twStatusState l.idx) = 2 → widest tx.toNat = some a → widest rx.toNat = some b →
    (s.straitKey l.idx 0 (s.fld (twStatusKeySetTx l.idx)) ≠ none →
      ∃ t, exec (.straitTrainDone l tx rx) s = .next t ∧ t.fld (twStatusState l.idx) = 3 ∧
        t.fld (twStatusTxWidth l.idx) = groupWidth a ∧ t.fld (twStatusRxWidth l.idx) = groupWidth b ∧
        t.fld (twStatusRxLocked l.idx) = groupLanes b ∧ (t.strait.get l).txGroup = some a ∧
        (t.strait.get l).rxGroup = some b ∧ (t.strait.get l).initDue = true ∧
        (∀ f : Fld, f.key ≠ twStatus l.idx → t.fld f = s.fld f) ∧ t.dram = s.dram) ∧
    (s.straitKey l.idx 0 (s.fld (twStatusKeySetTx l.idx)) = none →
      ∃ t, exec (.straitTrainDone l tx rx) s = .next t ∧ t.fld (twStatusState l.idx) = 1 ∧
        (t.strait.get l).waitRetry = true ∧ t.flag (twEvtInitFail l.idx) = true ∧ t.dram = s.dram)) ∧
  (∀ (s : State) (l : Half), s.sound = true → s.fld (twStatusState l.idx) = 2 →
    ∃ t, exec (.straitTrainTimeout l) s = .next t ∧ t.fld (twStatusState l.idx) = 1 ∧
      (t.strait.get l).cfg = s.reg (twCfg l.idx) ∧ (t.strait.get l).vcBuf = s.reg (twVcBuf l.idx) ∧
      (t.strait.get l).vcMap = s.reg (twVcMap l.idx) ∧ (t.strait.get l).cfgOk = (t.strait.get l).configOk ∧
      ((t.strait.get l).cfgOk = false → t.fld (twStatusInitFail l.idx) = 8) ∧ t.dram = s.dram) ∧
  (∀ (s : State) (l : Half), s.sound = true → s.fld (twStatusState l.idx) = 3 → (s.strait.get l).initAckSeen = false →
    ∃ t, exec (.straitInitTimeout l) s = .next t ∧ t.fld (twStatusState l.idx) = 1 ∧ (t.strait.get l).waitRetry = true ∧
      t.flag (twEvtInitFail l.idx) = true ∧ ((t.strait.get l).cfgOk = true → t.fld (twStatusInitFail l.idx) = 1) ∧
      t.dram = s.dram) ∧
  (∀ (s : State) (l : Half), s.sound = true → s.straitMay l.idx = true →
    (s.fld (twStatusState l.idx) = 6 ∨ (s.fld (twStatusState l.idx) = 1 ∧ (s.strait.get l).waitRetry = true)) →
    ∃ t, exec (.straitRetryTimer l) s = .next t ∧ t.fld (twStatusState l.idx) = 1 ∧ (t.strait.get l).waitRetry = false ∧
      (t.strait.get l).cfg = s.reg (twCfg l.idx) ∧ t.dram = s.dram) ∧
  (∀ (s : State) (l : Half), s.takesWrite .plain false (some l) = true → s.straitUp l.idx = true →
    exec (.straitRetrain l) s = .next ((s.straitDown l 9 1).enterDetect l)) ∧
  (∀ (s : State) (l : Half) (v : Word), s.takesWrite .plain false (some l) = true → s.isS = false →
    (twCfgOk v.toNat = false → s.boot.strait = true →
      exec (.twCfgWrite l v) s = .next (s.setFlag (twEvtCfgReject l.idx) true)) ∧
    (twCfgOk v.toNat = true → s.boot.strait = false →
      exec (.twCfgWrite l v) s = .next (s.setReg (twCfg l.idx) (BitVec.ofNat 64 (v.toNat % 2 ^ 63)))) ∧
    (twCfgOk v.toNat = true → s.boot.strait = true → v.getLsbD 0 = false → s.sound = true →
      s.fld (twStatusState l.idx) = 1 →
      ∃ t, exec (.twCfgWrite l v) s = .next t ∧ t.fld (twStatusState l.idx) = 0 ∧ t.flag (twCfgEnable l.idx) = false ∧
        (t.strait.get l).replay = [] ∧ t.dram = s.dram))

/-- Width, lock and keys (R294 to R296): lanes that lose lock make the receiver ask for the widest group left; WIDTH_REQ
changes the transmitter, WIDTH_MARK the receiver; lock that returns restores the lanes; a drained switch takes the new key set
with a fresh invocation counter; each cause of Table 12.11 takes the link down, which empties the replay buffer and reports
the cause. The model's choices that it rests on: logs 78, 80. -/
def Obligations.StraitWidthAndKeys : Prop :=
  (∀ (s : State) (l : Half) (lost : BitVec 8) (g : Nat), s.sound = true → s.straitUp l.idx = true →
    s.fld (twStatusRxLocked l.idx) &&& lost.toNat ≠ 0 →
    widest (s.fld (twStatusRxLocked l.idx) &&& (255 - lost.toNat)) = some g →
    ∃ t, exec (.straitLaneLoss l lost) s = .next t ∧ t.out.head? = some (.straitWidth l false g) ∧
      t.fld (twStatusRxLocked l.idx) = s.fld (twStatusRxLocked l.idx) &&& (255 - lost.toNat) ∧
      (t.strait.get l).rxWant = some g ∧ t.fld (twStatusState l.idx) = 5 ∧ t.dram = s.dram) ∧
  (∀ (s : State) (l : Half) (g : Fin 8), s.sound = true → s.straitUp l.idx = true → g.val < 7 →
    ∃ t, exec (.widthReq l g) s = .next t ∧ t.out = .straitWidth l true g.val :: s.out ∧
      t.fld (twStatusTxWidth l.idx) = groupWidth g.val ∧ t.fld (twStatusState l.idx) = 5 ∧
      (t.strait.get l).txGroup = some g.val ∧ t.flag (twEvtWidthChange l.idx) = true ∧
      (∀ f : Fld, f.key ≠ twStatus l.idx → f.key ≠ twEvt l.idx → t.fld f = s.fld f) ∧ t.dram = s.dram) ∧
  (∀ (s : State) (l : Half) (g : Fin 8), s.sound = true → (s.strait.get l).rxWant = some g.val →
    (s.strait.get l).markSent = false →
    ∃ t, exec (.widthMark l g) s = .next t ∧ t.fld (twStatusRxWidth l.idx) = groupWidth g.val ∧
      t.fld (twStatusRxLocked l.idx) = groupLanes g.val ∧ t.fld (twStatusState l.idx) = 4 ∧
      (t.strait.get l).rxGroup = some g.val ∧ (t.strait.get l).rxWant = none ∧
      (∀ f : Fld, f.key ≠ twStatus l.idx → f.key ≠ twEvt l.idx → t.fld f = s.fld f) ∧ t.dram = s.dram) ∧
  (∀ (s : State) (l : Half) (g : Nat), (s.strait.get l).rxGroup = some g → s.straitUp l.idx = true →
    widest (s.fld (twStatusRxLocked l.idx)) = none →
    exec (.straitLockReturn l) s = .next (s.setFld (twStatusRxLocked l.idx) (groupLanes g))) ∧
  (∀ (s : State) (l : Half) (set : Nat), s.sound = true → (s.strait.get l).drain = some set → set < 2 →
    s.fld (twSeqOutstanding l.idx) = 0 →
    ∃ t, exec (.straitKeyDrained l) s = .next t ∧ (t.strait.get l).drain = none ∧ (t.strait.get l).inv = 1 ∧
      t.fld (twStatusKeySetTx l.idx) = set ∧ ((s.strait.get l).oldSet = none → t.flag (twStatusSwitching l.idx) = false) ∧
      (∀ f : Fld, f.key ≠ twStatus l.idx → t.fld f = s.fld f) ∧ t.dram = s.dram) ∧
  (∀ (s : State) (l : Half) (set : Nat), (s.strait.get l).drain = some set → s.fld (twSeqOutstanding l.idx) ≠ 0 →
    exec (.straitKeyDrained l) s = .next s) ∧
  (∀ (s : State) (l : Half), s.sound = true → s.straitUp l.idx = true →
    (∃ t, exec (.straitLockLossTimeout l) s = .next t ∧ linkFell s t l 1) ∧
    ((s.strait.get l).replay ≠ [] → s.fld (twStatusRxLocked l.idx) ≠ 0 →
      ∃ t, exec (.straitNoProgress l) s = .next t ∧ linkFell s t l 2) ∧
    (∀ (f : StraitHeld) (rest : List StraitHeld), (s.strait.get l).replay = f :: rest → 16384 < (s.strait.get l).inv - f.inv →
      ∃ t, exec (.straitReplayTimeout l) s = .next t ∧ linkFell s t l 4) ∧
    ((s.strait.get l).drain ≠ none → ∃ t, exec (.straitKeySwitchTimeout l) s = .next t ∧ linkFell s t l 7))
end

