-- ==== Sys2Proof/Laws/Cells.lean ====
section
/-! SUPPORT. Laws of the sparse stores: every operation keeps the canonical form, and a read after a write gives what the
write left. -/

namespace Sys2Proof.Machine

variable {α : Type} [DecidableEq α]

/-- What the canonical form says of a first pair. -/
theorem cellsFrom_cons {d : Nat → α} {lo : Option Nat} {k : Nat} {v : α} {r : Cells α} :
    cellsFrom d lo ((k, v) :: r) = true ↔ (∀ l, lo = some l → l < k) ∧ v ≠ d k ∧ cellsFrom d (some k) r = true := by
  cases lo with
  | none => simp [cellsFrom]
  | some l => simp [cellsFrom, and_assoc]

/-- A store whose keys are above a bound has them above every lower bound. -/
theorem cellsFrom_mono {d : Nat → α} {lo : Nat} {c : Cells α} {lo' : Option Nat}
    (h : cellsFrom d (some lo) c = true) (hl : ∀ l, lo' = some l → l ≤ lo) : cellsFrom d lo' c = true := by
  cases c with
  | nil => rfl
  | cons q r =>
    obtain ⟨k, v⟩ := q
    rw [cellsFrom_cons] at h ⊢
    exact ⟨fun l e => Nat.lt_of_le_of_lt (hl l e) (h.1 lo rfl), h.2⟩

/-- Setting a key above the bound keeps the canonical form. -/
theorem cellsFrom_put {d : Nat → α} {lo : Option Nat} {c : Cells α} {k : Nat} (v : α)
    (h : cellsFrom d lo c = true) (hk : ∀ l, lo = some l → l < k) : cellsFrom d lo (cellPut (d k) c k v) = true := by
  induction c generalizing lo with
  | nil =>
    unfold cellPut
    split
    · rfl
    · exact cellsFrom_cons.2 ⟨hk, ‹_›, rfl⟩
  | cons q r ih =>
    obtain ⟨j, u⟩ := q
    have ⟨h1, h2, h3⟩ := cellsFrom_cons.1 h
    unfold cellPut
    split
    · subst_vars
      split
      · exact cellsFrom_mono h3 (fun l hl => Nat.le_of_lt (hk l hl))
      · exact cellsFrom_cons.2 ⟨hk, ‹_›, h3⟩
    · split
      · split
        · exact h
        · exact cellsFrom_cons.2 ⟨hk, ‹_›, cellsFrom_cons.2 ⟨fun l e => by cases e; assumption, h2, h3⟩⟩
      · exact cellsFrom_cons.2 ⟨h1, h2, ih h3 (fun l e => by cases e; omega)⟩

/-- Setting a key keeps the canonical form. -/
theorem cellPut_wf {d : Nat → α} {c : Cells α} (k : Nat) (v : α) (h : cellsWf d c = true) :
    cellsWf d (cellPut (d k) c k v) = true :=
  cellsFrom_put v h (by intro l hl; cases hl)

/-- A store filtered by its pairs keeps the canonical form. -/
theorem cellsFrom_filter {d : Nat → α} (p : Nat × α → Bool) {lo : Option Nat} {c : Cells α}
    (h : cellsFrom d lo c = true) : cellsFrom d lo (c.filter p) = true := by
  induction c generalizing lo with
  | nil => rfl
  | cons q r ih =>
    obtain ⟨k, v⟩ := q
    have ⟨h1, h2, h3⟩ := cellsFrom_cons.1 h
    rw [List.filter_cons]
    split
    · exact cellsFrom_cons.2 ⟨h1, h2, ih h3⟩
    · exact cellsFrom_mono (ih h3) (fun l e => Nat.le_of_lt (h1 l e))

/-- Dropping keys keeps the canonical form. -/
theorem cellDrop_wf {d : Nat → α} {c : Cells α} (p : Nat → Bool) (h : cellsWf d c = true) :
    cellsWf d (cellDrop p c) = true := cellsFrom_filter _ h

/-- A run of writes keeps the canonical form. -/
theorem cellPuts_wf {β : Type} {d : Nat → α} (key : β → Nat) (val : β → α) (xs : List β) {c : Cells α}
    (h : cellsWf d c = true) :
    cellsWf d (xs.foldl (fun c q => cellPut (d (key q)) c (key q) (val q)) c) = true := by
  induction xs generalizing c with
  | nil => exact h
  | cons x xs ih => exact ih (cellPut_wf _ _ h)

/-- A key at or below the bound reads as unlisted. -/
theorem cellGet_below {d : Nat → α} {lo k : Nat} {c : Cells α} (h : cellsFrom d (some lo) c = true) (hk : k ≤ lo) :
    cellGet (d k) c k = d k := by
  cases c with
  | nil => rfl
  | cons q r =>
    obtain ⟨j, u⟩ := q
    have hj := (cellsFrom_cons.1 h).1 lo rfl
    unfold cellGet
    rw [if_neg (by omega), if_pos (by omega)]

/-- The key that was set reads as it was set. -/
theorem cellGet_put_same {d : Nat → α} {lo : Option Nat} {c : Cells α} (k : Nat) (v : α) (h : cellsFrom d lo c = true) :
    cellGet (d k) (cellPut (d k) c k v) k = v := by
  induction c generalizing lo with
  | nil =>
    unfold cellPut
    split
    · subst_vars; rfl
    · simp [cellGet]
  | cons q r ih =>
    obtain ⟨j, u⟩ := q
    have ⟨h1, h2, h3⟩ := cellsFrom_cons.1 h
    unfold cellPut
    split
    · subst_vars
      split
      · subst_vars
        exact cellGet_below h3 (Nat.le_refl _)
      · simp [cellGet]
    · split
      · split
        · subst_vars
          unfold cellGet
          rw [if_neg ‹_›, if_pos ‹_›]
        · simp [cellGet]
      · unfold cellGet
        rw [if_neg ‹_›, if_neg ‹_›]
        exact ih h3

/-- Every other key reads as before. -/
theorem cellGet_put_ne {d : Nat → α} {lo : Option Nat} {c : Cells α} {k k' : Nat} (v : α) (h : cellsFrom d lo c = true)
    (hk : k' ≠ k) : cellGet (d k') (cellPut (d k) c k v) k' = cellGet (d k') c k' := by
  induction c generalizing lo with
  | nil =>
    unfold cellPut
    split
    · rfl
    · unfold cellGet
      rw [if_neg hk]
      simp [cellGet]
  | cons q r ih =>
    obtain ⟨j, u⟩ := q
    have ⟨h1, h2, h3⟩ := cellsFrom_cons.1 h
    unfold cellPut
    split
    · subst_vars
      have hr : cellGet (d k') ((j, u) :: r) k' = cellGet (d k') r k' := by
        rw [cellGet, if_neg hk]
        split
        · exact (cellGet_below h3 (by omega)).symm
        · rfl
      split
      · exact hr.symm
      · rw [hr, cellGet, if_neg hk]
        split
        · exact (cellGet_below h3 (by omega)).symm
        · rfl
    · split
      · split
        · rfl
        · rw [cellGet, if_neg hk]
          split
          · rw [cellGet, if_neg (by omega), if_pos (by omega)]
          · rfl
      · unfold cellGet
        split
        · rfl
        · split
          · rfl
          · exact ih h3

end Sys2Proof.Machine
end

