-- ==== Sys2Proof/Laws/Keeps.lean ====
section
/-! SUPPORT. What no operation breaks: the waiting commands stay as they are, fuses only burn, the register store and the DRAM
contents stay canonical, and the device keeps its ports, channels and schedulers. -/

namespace Sys2Proof.Machine

/-- No operation from `s` to `t` has broken anything. -/
structure Keeps (s t : State) : Prop where
  pending : t.pending = s.pending
  fuses : s.fuses.burnt t.fuses
  regs : s.regsWf = true → t.regsWf = true
  dram : Memory.wf s.dram = true → Memory.wf t.dram = true
  shape : s.shaped = true → t.shaped = true

/-- Fuses that do not change are burnt no further. -/
theorem Fuses.burnt_refl (f : Fuses) : f.burnt f := ⟨rfl, Nat.and_self _⟩

/-- Burning twice is burning. -/
theorem Fuses.burnt_trans {f g k : Fuses} (h : f.burnt g) (h' : g.burnt k) : f.burnt k := by
  obtain ⟨a, b⟩ := h
  obtain ⟨c, d⟩ := h'
  have e : ({ k with revoked := f.revoked } : Fuses) = { g with revoked := f.revoked } :=
    congrArg (fun (x : Fuses) => { x with revoked := f.revoked }) c
  refine ⟨e.trans a, ?_⟩
  rw [← b, Nat.and_assoc, d]

theorem Keeps.refl (s : State) : Keeps s s := ⟨rfl, s.fuses.burnt_refl, id, id, id⟩

theorem Keeps.trans {s t u : State} (h : Keeps s t) (h' : Keeps t u) : Keeps s u :=
  ⟨h'.pending.trans h.pending, Fuses.burnt_trans h.fuses h'.fuses, fun x => h'.regs (h.regs x), fun x => h'.dram (h.dram x),
    fun x => h'.shape (h.shape x)⟩

/-- A record update that leaves the parts in question as they are. -/
theorem Keeps.upd {s t t' : State} (h : Keeps s t) (hp : t'.pending = t.pending) (hf : t'.fuses = t.fuses)
    (hr : t'.regs = t.regs) (hd : t'.dram = t.dram) (h1 : t'.ports.length = t.ports.length)
    (h2 : t'.channels.length = t.channels.length) (h3 : t'.scheds.length = t.scheds.length) : Keeps s t' := by
  refine h.trans ⟨hp, by rw [hf]; exact t.fuses.burnt_refl, ?_, by rw [hd]; exact id, ?_⟩
  · simp only [State.regsWf, hr]; exact id
  · simp only [State.shaped, h1, h2, h3]; exact id

/-- What `Keeps` says of a state written out, in its parts. -/
def KeepsMk (s : State) (q : List Instr) (fu : Fuses) (re : Cells Word) (dr : Cells Burst) (po : List Port)
    (ch : List Channel) (sc : List Sched) : Prop :=
  Keeps s { s with pending := q, fuses := fu, regs := re, dram := dr, ports := po, channels := ch, scheds := sc }

theorem KeepsMk.of {s t : State} {po : List Port} {ch : List Channel} {sc : List Sched} (h : Keeps s t)
    (h1 : po.length = t.ports.length) (h2 : ch.length = t.channels.length) (h3 : sc.length = t.scheds.length) :
    KeepsMk s t.pending t.fuses t.regs t.dram po ch sc := by
  obtain ⟨a, b, c, d, e⟩ := h
  refine ⟨a, b, c, d, ?_⟩
  simp only [State.shaped, h1, h2, h3] at e ⊢
  exact e

/-- Revoke bits burnt. -/
theorem KeepsMk.ofBurn {s t : State} {po : List Port} {ch : List Channel} {sc : List Sched} {m : Nat}
    (h : Keeps s t) (h1 : po.length = t.ports.length) (h2 : ch.length = t.channels.length)
    (h3 : sc.length = t.scheds.length) :
    KeepsMk s t.pending { t.fuses with revoked := t.fuses.revoked ||| m } t.regs t.dram po ch sc := by
  have g := KeepsMk.of h h1 h2 h3
  have b : t.fuses.burnt { t.fuses with revoked := t.fuses.revoked ||| m } := by
    refine ⟨rfl, ?_⟩
    show t.fuses.revoked &&& (t.fuses.revoked ||| m) = t.fuses.revoked
    apply Nat.eq_of_testBit_eq
    intro i
    rw [Nat.testBit_and, Nat.testBit_or]
    cases t.fuses.revoked.testBit i <;> simp
  exact ⟨g.pending, Fuses.burnt_trans h.fuses b, g.regs, g.dram, g.shape⟩

theorem KeepsMk.ofDram {s t : State} {po : List Port} {ch : List Channel} {sc : List Sched} {k : Nat} {v : Burst}
    (h : Keeps s t) (h1 : po.length = t.ports.length) (h2 : ch.length = t.channels.length)
    (h3 : sc.length = t.scheds.length) : KeepsMk s t.pending t.fuses t.regs (cellPut 0 t.dram k v) po ch sc := by
  have g := KeepsMk.of h h1 h2 h3
  exact ⟨g.pending, g.fuses, g.regs, fun x => cellPut_wf k v (h.dram x), g.shape⟩

theorem KeepsMk.ofDrop {s t : State} {po : List Port} {ch : List Channel} {sc : List Sched} {p : Nat → Bool}
    (h : Keeps s t) (h1 : po.length = t.ports.length) (h2 : ch.length = t.channels.length)
    (h3 : sc.length = t.scheds.length) : KeepsMk s t.pending t.fuses (cellDrop p t.regs) t.dram po ch sc := by
  have g := KeepsMk.of h h1 h2 h3
  exact ⟨g.pending, g.fuses, fun x => cellDrop_wf p (h.regs x), g.dram, g.shape⟩

theorem KeepsMk.ofDramDrop {s t : State} {po : List Port} {ch : List Channel} {sc : List Sched} {p : Nat → Bool}
    (h : Keeps s t) (h1 : po.length = t.ports.length) (h2 : ch.length = t.channels.length)
    (h3 : sc.length = t.scheds.length) : KeepsMk s t.pending t.fuses t.regs (cellDrop p t.dram) po ch sc := by
  have g := KeepsMk.of h h1 h2 h3
  exact ⟨g.pending, g.fuses, g.regs, fun x => cellDrop_wf p (h.dram x), g.shape⟩

/-- A state written out, which is what an update of a record is. -/
theorem Keeps.mk_iff {s : State} {q} {a1} {a2} {re} {a4} {fu} {a6} {a7} {po} {a9} {a10} {a11} {a12} {a13} {a14} {a15}
    {a16} {a17} {a18} {a19} {a20} {a21} {a22} {a23} {a24} {a25} {a26} {ch} {dr} {a29} {a30} {a31} {a32} {a33} {a34}
    {a35} {a36} {a37} {a38} {a39} {a40} {a41} {a42} {a43} {a44} {sc} {a46} {a47} {a48} {a49} {a50} {a51} {a52} {a53}
    {a54} {a55} {a56} {a57} {a58} {a59} {a60} {a61} {a62} {a63} {a64} :
    Keeps s (State.mk q a1 a2 re a4 fu a6 a7 po a9 a10 a11 a12 a13 a14 a15 a16 a17 a18 a19 a20 a21 a22 a23 a24 a25 a26 ch
    dr a29 a30 a31 a32 a33 a34 a35 a36 a37 a38 a39 a40 a41 a42 a43 a44 sc a46 a47 a48 a49 a50 a51 a52 a53 a54 a55 a56
    a57 a58 a59 a60 a61 a62 a63 a64) = KeepsMk s q fu re dr po ch sc :=
  propext ⟨fun h => ⟨h.pending, h.fuses, h.regs, h.dram, h.shape⟩, fun h => ⟨h.pending, h.fuses, h.regs, h.dram, h.shape⟩⟩

/-- A record update of the registers. -/
theorem Keeps.updRegs {s t t' : State} (h : Keeps s t) (hr : t.regsWf = true → t'.regsWf = true) (hp : t'.pending = t.pending)
    (hf : t'.fuses = t.fuses) (hd : t'.dram = t.dram) (h1 : t'.ports.length = t.ports.length)
    (h2 : t'.channels.length = t.channels.length) (h3 : t'.scheds.length = t.scheds.length) : Keeps s t' := by
  refine h.trans ⟨hp, by rw [hf]; exact t.fuses.burnt_refl, hr, by rw [hd]; exact id, ?_⟩
  simp only [State.shaped, h1, h2, h3]; exact id

theorem Keeps.have {Q P : Prop} (val : Q) (rest : Q → P) : P := rest val

/-- A pair whose first part is a state breaks nothing. -/
structure Keeps1 {α : Type} (s : State) (p : State × α) : Prop where
  out : Keeps s p.1

theorem Keeps1.pair {α : Type} {s t : State} {x : α} : Keeps1 s (t, x) = Keeps s t :=
  propext ⟨fun h => h.out, fun h => ⟨h⟩⟩
theorem Keeps1.ite {α : Type} {c : Prop} [Decidable c] {s : State} {a b : State × α} (ha : c → Keeps1 s a) (hb : ¬c → Keeps1 s b) :
    Keeps1 s (if c then a else b) := by
  split
  · exact ha ‹_›
  · exact hb ‹_›
theorem Keeps1.eq {α : Type} {s t : State} {x : α} {p : State × α} (e : p = (t, x)) (h : Keeps1 s p) : Keeps s t := by
  have k := h.out
  rw [e] at k
  exact k

/-- A pair whose last part is a state breaks nothing. -/
structure Keeps2 {α : Type} (s : State) (p : α × State) : Prop where
  out : Keeps s p.2

theorem Keeps2.pair {α : Type} {s t : State} {x : α} : Keeps2 s (x, t) = Keeps s t :=
  propext ⟨fun h => h.out, fun h => ⟨h⟩⟩
theorem Keeps2.ite {α : Type} {c : Prop} [Decidable c] {s : State} {a b : α × State} (ha : c → Keeps2 s a) (hb : ¬c → Keeps2 s b) :
    Keeps2 s (if c then a else b) := by
  split
  · exact ha ‹_›
  · exact hb ‹_›
theorem Keeps2.eq {α : Type} {s t : State} {x : α} {p : α × State} (e : p = (x, t)) (h : Keeps2 s p) : Keeps s t := by
  have k := h.out
  rw [e] at k
  exact k

/-- Three parts, the last a state. -/
structure Keeps22 {α β : Type} (s : State) (p : α × β × State) : Prop where
  out : Keeps s p.2.2

theorem Keeps22.pair {α β : Type} {s t : State} {x : α} {y : β} : Keeps22 s (x, y, t) = Keeps s t :=
  propext ⟨fun h => h.out, fun h => ⟨h⟩⟩
theorem Keeps22.ite {α β : Type} {c : Prop} [Decidable c] {s : State} {a b : α × β × State} (ha : c → Keeps22 s a) (hb : ¬c → Keeps22 s b) :
    Keeps22 s (if c then a else b) := by
  split
  · exact ha ‹_›
  · exact hb ‹_›
theorem Keeps22.eq {α β : Type} {s t : State} {x : α} {y : β} {p : α × β × State} (e : p = (x, y, t)) (h : Keeps22 s p) : Keeps s t := by
  have k := h.out
  rw [e] at k
  exact k

/-- Four parts, the last a state. -/
structure Keeps222 {α β γ : Type} (s : State) (p : α × β × γ × State) : Prop where
  out : Keeps s p.2.2.2

theorem Keeps222.pair {α β γ : Type} {s t : State} {x : α} {y : β} {z : γ} : Keeps222 s (x, y, z, t) = Keeps s t :=
  propext ⟨fun h => h.out, fun h => ⟨h⟩⟩
theorem Keeps222.ite {α β γ : Type} {c : Prop} [Decidable c] {s : State} {a b : α × β × γ × State} (ha : c → Keeps222 s a) (hb : ¬c → Keeps222 s b) :
    Keeps222 s (if c then a else b) := by
  split
  · exact ha ‹_›
  · exact hb ‹_›
theorem Keeps222.eq {α β γ : Type} {s t : State} {x : α} {y : β} {z : γ} {p : α × β × γ × State} (e : p = (x, y, z, t)) (h : Keeps222 s p) : Keeps s t := by
  have k := h.out
  rw [e] at k
  exact k

/-- Where an outcome is a next state, it breaks nothing. -/
structure KeepsR (s : State) (o : Host.Outcome State Fault Refusal) : Prop where
  out : ∀ t, o = .next t → Keeps s t

theorem KeepsR.next {s t : State} (h : Keeps s t) : KeepsR s (.next t) := ⟨fun _ e => by injection e with e; exact e ▸ h⟩
theorem KeepsR.ite {c : Prop} [Decidable c] {s : State} {a b : Host.Outcome State Fault Refusal} (ha : c → KeepsR s a)
    (hb : ¬c → KeepsR s b) : KeepsR s (if c then a else b) := by
  split
  · exact ha ‹_›
  · exact hb ‹_›

/-- `c` is a list of channels: put in where it stands, too. -/
theorem Keeps.isChans {P : Prop} (_ : List Channel) (h : P) : P := h

/-- What a write that needs media comes to breaks nothing. -/
structure KeepsM (s : State) (m : Made) : Prop where
  near_ : ∀ t, m = .near t → Keeps s t
  refused_ : ∀ t, m = .refused t → Keeps s t

theorem KeepsM.near {s t : State} : KeepsM s (.near t) = Keeps s t :=
  propext ⟨fun h => h.near_ t rfl, fun h => ⟨fun _ e => by injection e with e; exact e ▸ h, fun _ e => nomatch e⟩⟩
theorem KeepsM.refused {s t : State} : KeepsM s (.refused t) = Keeps s t :=
  propext ⟨fun h => h.refused_ t rfl, fun h => ⟨fun _ e => (nomatch e), fun _ e => by injection e with e; exact e ▸ h⟩⟩
theorem KeepsM.eqNear {s t : State} {m : Made} (e : m = .near t) (h : KeepsM s m) : Keeps s t := h.near_ t e
theorem KeepsM.eqRefused {s t : State} {m : Made} (e : m = .refused t) (h : KeepsM s m) : Keeps s t := h.refused_ t e

/-- `f` is a function: a local definition of one is put in where it stands. -/
theorem Keeps.isFun {α β : Type} {P : Prop} (_ : α → β) (h : P) : P := h

theorem Keeps.ite {c : Prop} [Decidable c] {s a b : State} (ha : c → Keeps s a) (hb : ¬c → Keeps s b) :
    Keeps s (if c then a else b) := by
  split
  · exact ha ‹_›
  · exact hb ‹_›

/-- A state that may be there breaks nothing. -/
structure KeepsO (s : State) (o : Option State) : Prop where
  out : ∀ t, o = some t → Keeps s t

/-- A pair whose last part is a state, that may be there, breaks nothing. -/
structure KeepsP {α : Type} (s : State) (o : Option (α × State)) : Prop where
  out : ∀ t, o = some t → Keeps s t.2

theorem KeepsO.none {s : State} : KeepsO s none := ⟨fun _ e => nomatch e⟩
theorem KeepsO.some {s t : State} (h : Keeps s t) : KeepsO s (some t) := ⟨fun _ e => Option.some.inj e ▸ h⟩
theorem KeepsO.map {α : Type} {s : State} {o : Option α} {f : α → State}
    (h : ∀ x, o = Option.some x → Keeps s (f x)) : KeepsO s (o.map f) := by
  cases o
  · exact KeepsO.none
  · exact KeepsO.some (h _ rfl)
theorem KeepsO.bind {s : State} {o : Option State} {f : State → Option State} (k : KeepsO s o)
    (h : ∀ x, Keeps s x → KeepsO s (f x)) : KeepsO s (o.bind f) := by
  cases o
  · exact KeepsO.none
  · exact h _ (k.out _ rfl)
theorem KeepsO.ite {c : Prop} [Decidable c] {s : State} {a b : Option State} (ha : c → KeepsO s a) (hb : ¬c → KeepsO s b) :
    KeepsO s (if c then a else b) := by
  split
  · exact ha ‹_›
  · exact hb ‹_›
theorem KeepsP.bind {α : Type} {s : State} {o : Option State} {f : State → Option (α × State)} (k : KeepsO s o)
    (h : ∀ x, Keeps s x → KeepsP s (f x)) : KeepsP s (o.bind f) := by
  cases o
  · exact ⟨fun _ e => nomatch e⟩
  · exact h _ (k.out _ rfl)
theorem KeepsO.getD {s t : State} {o : Option State} (k : KeepsO s o) (h : Keeps s t) : Keeps s (o.getD t) := by
  cases o
  · exact h
  · exact k.out _ rfl
theorem KeepsP.none {α : Type} {s : State} : KeepsP s (none : Option (α × State)) := ⟨fun _ e => nomatch e⟩
theorem KeepsP.some {α : Type} {s : State} {t : α × State} (h : Keeps s t.2) : KeepsP s (some t) :=
  ⟨fun _ e => Option.some.inj e ▸ h⟩
theorem KeepsP.map {α β : Type} {s : State} {o : Option α} {f : α → β × State} (h : ∀ x, Keeps s (f x).2) :
    KeepsP s (o.map f) := by
  cases o
  · exact KeepsP.none
  · exact KeepsP.some (h _)
theorem KeepsP.ite {α : Type} {c : Prop} [Decidable c] {s : State} {a b : Option (α × State)} (ha : c → KeepsP s a)
    (hb : ¬c → KeepsP s b) : KeepsP s (if c then a else b) := by
  split
  · exact ha ‹_›
  · exact hb ‹_›

theorem Keeps.eqO {s t : State} {o : Option State} (e : o = Option.some t) (h : KeepsO s o) : Keeps s t := h.out t e

theorem Keeps.eqQ {α : Type} {s : State} {t : α × State} {o : Option (α × State)} (e : o = Option.some t) (h : KeepsP s o) :
    Keeps s t.2 := h.out _ e

theorem Keeps.eqP {α : Type} {s t : State} {x : α} {o : Option (α × State)} (e : o = Option.some (x, t)) (h : KeepsP s o) :
    Keeps s t := h.out _ e

theorem State.each_keeps {α : Type} {s t : State} {xs : List α} {f : State → α → State} (h : Keeps s t)
    (hf : ∀ u x, Keeps s u → Keeps s (f u x)) : Keeps s (t.each xs f) := by
  unfold State.each
  induction xs generalizing t with
  | nil => exact h
  | cons x xs ih => exact ih (hf t x h)

/-- A fold of states. -/
theorem Keeps.foldl {α : Type} {s t : State} {xs : List α} {f : State → α → State} (h : Keeps s t)
    (hf : ∀ u x, Keeps s u → Keeps s (f u x)) : Keeps s (xs.foldl f t) := State.each_keeps h hf

/-- A fold that carries a state in its first part. -/
theorem Keeps1.foldl {α β : Type} {s : State} {xs : List α} {f : State × β → α → State × β} {q : State × β}
    (h : Keeps1 s q) (hf : ∀ u x, Keeps1 s u → Keeps1 s (f u x)) : Keeps1 s (xs.foldl f q) := by
  induction xs generalizing q with
  | nil => exact h
  | cons x xs ih => exact ih (hf q x h)

/-- A fold that carries a state in its last part. -/
theorem Keeps2.foldl {α β : Type} {s : State} {xs : List α} {f : β × State → α → β × State} {q : β × State}
    (h : Keeps2 s q) (hf : ∀ u x, Keeps2 s u → Keeps2 s (f u x)) : Keeps2 s (xs.foldl f q) := by
  induction xs generalizing q with
  | nil => exact h
  | cons x xs ih => exact ih (hf q x h)

theorem Keeps22.foldl {α β γ : Type} {s : State} {xs : List α} {f : β × γ × State → α → β × γ × State} {q : β × γ × State}
    (h : Keeps22 s q) (hf : ∀ u x, Keeps22 s u → Keeps22 s (f u x)) : Keeps22 s (xs.foldl f q) := by
  induction xs generalizing q with
  | nil => exact h
  | cons x xs ih => exact ih (hf q x h)

/-- Memory, the register store and the lists are as they should be right after reset. -/
theorem State.reset_sound : State.reset.sound = true := by decide +kernel

end Sys2Proof.Machine
end

