-- ==== Sys2Proof/Laws/KeepOps.lean ====
section
/-! SUPPORT. The operations of Machine/Ops.lean break nothing (Laws/Keeps.lean). -/

namespace Sys2Proof.Machine

theorem State.setReg_keeps {s0 : State} {s : State} {k : Nat} {v : Word} (ks : Keeps s0 s) : Keeps s0 (State.setReg s k v) := by
  unfold State.setReg
  exact Keeps.updRegs ks (fun w => cellPut_wf k v w) rfl rfl rfl rfl rfl rfl

theorem State.setFld_keeps {s0 : State} {s : State} {f : Fld} {v : Nat} (ks : Keeps s0 s) : Keeps s0 (State.setFld s f v) := by
  unfold State.setFld
  with_reducible repeat' (first | assumption | apply State.setReg_keeps)

theorem State.setFlag_keeps {s0 : State} {s : State} {f : Fld} {b : Bool} (ks : Keeps s0 s) : Keeps s0 (State.setFlag s f b) := by
  unfold State.setFlag
  with_reducible repeat' (first | assumption | apply State.setFld_keeps)

theorem State.count_keeps {s0 : State} {s : State} {f : Fld} {n : Nat} (ks : Keeps s0 s) : Keeps s0 (State.count s f n) := by
  unfold State.count
  with_reducible repeat' (first | assumption | apply State.setFld_keeps)

theorem State.setBit_keeps {s0 : State} {s : State} {f : Fld} {i : Nat} {b : Bool} (ks : Keeps s0 s) : Keeps s0 (State.setBit s f i b) := by
  unfold State.setBit
  with_reducible repeat' (first | assumption | apply State.setFld_keeps)

theorem State.updPort_keeps {s0 : State} {s : State} {p : Nat} {f : Port → Port} (ks : Keeps s0 s) : Keeps s0 (State.updPort s p f) := by
  unfold State.updPort
  with_reducible repeat' (first | assumption | (simp -zeta -iota only [Keeps.mk_iff]; apply KeepsMk.of (h1 := by simp) (h2 := by simp) (h3 := by simp)))

theorem State.updChan_keeps {s0 : State} {s : State} {c : Nat} {f : Channel → Channel} (ks : Keeps s0 s) : Keeps s0 (State.updChan s c f) := by
  unfold State.updChan
  with_reducible repeat' (first | assumption | (simp -zeta -iota only [Keeps.mk_iff]; apply KeepsMk.of (h1 := by simp) (h2 := by simp) (h3 := by simp)))

theorem State.updSched_keeps {s0 : State} {s : State} {i : Nat} {f : Sched → Sched} (ks : Keeps s0 s) : Keeps s0 (State.updSched s i f) := by
  unfold State.updSched
  with_reducible repeat' (first | assumption | (simp -zeta -iota only [Keeps.mk_iff]; apply KeepsMk.of (h1 := by simp) (h2 := by simp) (h3 := by simp)))

theorem State.updFunc_keeps {s0 : State} {s : State} {fn : Nat} {f : Func → Func} (ks : Keeps s0 s) : Keeps s0 (State.updFunc s fn f) := by
  unfold State.updFunc
  with_reducible repeat' (first | assumption | (simp -zeta -iota only [Keeps.mk_iff]; apply KeepsMk.of (h1 := by simp) (h2 := by simp) (h3 := by simp)))

theorem State.updHalf_keeps {s0 : State} {s : State} {h : Half} {f : HalfCore → HalfCore} (ks : Keeps s0 s) : Keeps s0 (State.updHalf s h f) := by
  unfold State.updHalf
  with_reducible repeat' (first | assumption | (simp -zeta -iota only [Keeps.mk_iff]; apply KeepsMk.of (h1 := by simp) (h2 := by simp) (h3 := by simp)))

theorem State.updMirDom_keeps {s0 : State} {s : State} {d : Nat} {f : MirDom → MirDom} (ks : Keeps s0 s) : Keeps s0 (State.updMirDom s d f) := by
  unfold State.updMirDom
  with_reducible repeat' (first | assumption | (simp -zeta -iota only [Keeps.mk_iff]; apply KeepsMk.of (h1 := by simp) (h2 := by simp) (h3 := by simp)))

theorem State.updMap_keeps {s0 : State} {s : State} {d : Nat} {f : DomMap → DomMap} (ks : Keeps s0 s) : Keeps s0 (State.updMap s d f) := by
  unfold State.updMap
  with_reducible repeat' (first | assumption | (simp -zeta -iota only [Keeps.mk_iff]; apply KeepsMk.of (h1 := by simp) (h2 := by simp) (h3 := by simp)))

theorem State.setExt_keeps {s0 : State} {s : State} {d : Nat} {e00 : Nat} {x : Extent} (ks : Keeps s0 s) : Keeps s0 (State.setExt s d e00 x) := by
  unfold State.setExt
  with_reducible repeat' (first | assumption | (simp -zeta -iota only [Keeps.mk_iff]; apply KeepsMk.of (h1 := by simp) (h2 := by simp) (h3 := by simp)))

theorem State.setPage_keeps {s0 : State} {s : State} {d : Nat} {p : Nat} {x : Page} (ks : Keeps s0 s) : Keeps s0 (State.setPage s d p x) := by
  unfold State.setPage
  with_reducible repeat' (first | assumption | (simp -zeta -iota only [Keeps.mk_iff]; apply KeepsMk.of (h1 := by simp) (h2 := by simp) (h3 := by simp)))

theorem State.updUnit_keeps {s0 : State} {s : State} {u : Nat} {f : UnitState → UnitState} (ks : Keeps s0 s) : Keeps s0 (State.updUnit s u f) := by
  unfold State.updUnit
  with_reducible repeat' (first | assumption | (simp -zeta -iota only [Keeps.mk_iff]; apply KeepsMk.of (h1 := by simp) (h2 := by simp) (h3 := by simp)))

theorem State.emit_keeps {s0 : State} {s : State} {o : Out} (ks : Keeps s0 s) : Keeps s0 (State.emit s o) := by
  unfold State.emit
  with_reducible repeat' (first | assumption | (simp -zeta -iota only [Keeps.mk_iff]; apply KeepsMk.of (h1 := by simp) (h2 := by simp) (h3 := by simp)))

theorem State.freeLine_keeps {s0 : State} {s : State} (ks : Keeps s0 s) : Keeps2 s0 (State.freeLine s) := by
  unfold State.freeLine
  with_reducible repeat' (first | assumption | (simp -zeta -iota only [Keeps2.pair]) | (simp -zeta -iota only [Keeps.mk_iff]; apply KeepsMk.of (h1 := by simp) (h2 := by simp) (h3 := by simp)))

theorem State.freeNat_keeps {s0 : State} {s : State} (ks : Keeps s0 s) : Keeps2 s0 (State.freeNat s) := by
  unfold State.freeNat
  with_reducible repeat' (first | assumption | (simp -zeta -iota only [Keeps2.pair]) | (simp -zeta -iota only [Keeps.mk_iff]; apply KeepsMk.of (h1 := by simp) (h2 := by simp) (h3 := by simp)))

theorem State.toFm_keeps {s0 : State} {s : State} {e00 : String} {args : List Nat} (ks : Keeps s0 s) : Keeps s0 (State.toFm s e00 args) := by
  unfold State.toFm
  with_reducible repeat' (first | assumption | intro _ | (extract_lets +onlyGivenNames x; refine Keeps.have (Q := Keeps s0 x) ?_ ?_; dsimp -zeta -iota only [x]; clear x; rotate_left; clear_value x; revert x; intro _ _) | apply Keeps.ite | apply State.emit_keeps | (simp -zeta -iota only [Keeps.mk_iff]; apply KeepsMk.of (h1 := by simp) (h2 := by simp) (h3 := by simp)))

theorem State.msix_keeps {s0 : State} {s : State} {fn : Nat} {vec : Nat} (ks : Keeps s0 s) : Keeps s0 (State.msix s fn vec) := by
  unfold State.msix
  with_reducible repeat' (first | assumption | intro _ | apply Keeps.ite | apply State.setBit_keeps | apply State.emit_keeps)

theorem State.barWrite_keeps {s0 : State} {s : State} {p : Nat} {ld : Nat} {f : State → State} (ks : Keeps s0 s) (hff : ∀ u, Keeps s0 u → Keeps s0 (f u)) : Keeps s0 (State.barWrite s p ld f) := by
  unfold State.barWrite
  with_reducible repeat' (first | assumption | intro _ | apply Keeps.ite | apply hff)

theorem State.setFenced_keeps {s0 : State} {s : State} {u : Nat} {b : Bool} (ks : Keeps s0 s) : Keeps s0 (State.setFenced s u b) := by
  unfold State.setFenced
  with_reducible repeat' (first | assumption | apply State.setBit_keeps | split)

theorem State.enterPhase_keeps {s0 : State} {s : State} {n : Nat} (ks : Keeps s0 s) : Keeps s0 (State.enterPhase s n) := by
  unfold State.enterPhase
  with_reducible repeat' (first | assumption | intro _ | (extract_lets +onlyGivenNames x; refine Keeps.have (Q := Keeps s0 x) ?_ ?_; dsimp -zeta -iota only [x]; clear x; rotate_left; clear_value x; revert x; intro _ _) | apply Keeps.ite | apply State.setFld_keeps)

theorem State.write_keeps {s0 : State} {s : State} {kind : RegKind} {shore : Bool} {held : Option Half} {f : State → State} (ks : Keeps s0 s) (hff : ∀ u, Keeps s0 u → Keeps s0 (f u)) : Keeps s0 (State.write s kind shore held f) := by
  unfold State.write
  with_reducible repeat' (first | assumption | intro _ | apply Keeps.ite | apply hff)

theorem State.groupWrite_keeps {s0 : State} {s : State} {g : Nat} {f : State → State} (ks : Keeps s0 s) (hff : ∀ u, Keeps s0 u → Keeps s0 (f u)) : Keeps s0 (State.groupWrite s g f) := by
  unfold State.groupWrite
  with_reducible repeat' (first | assumption | intro _ | apply Keeps.ite | apply hff | apply State.setFlag_keeps | apply State.setBit_keeps)

end Sys2Proof.Machine
end

