-- ==== Sys2Proof/Laws/KeepRecords.lean ====
section
/-! SUPPORT. The operations of Machine/Records.lean break nothing (Laws/Keeps.lean). -/

namespace Sys2Proof.Machine

theorem State.errPin_keeps {s0 : State} {s : State} (ks : Keeps s0 s) : Keeps s0 (State.errPin s) := by
  unfold State.errPin
  with_reducible repeat' (first | assumption | intro _ | (extract_lets +onlyGivenNames x; clear_value x; revert x; intro _) | apply Keeps.ite | apply State.setFlag_keeps | apply State.emit_keeps)

theorem State.alarmPin_keeps {s0 : State} {s : State} (ks : Keeps s0 s) : Keeps s0 (State.alarmPin s) := by
  unfold State.alarmPin
  with_reducible repeat' (first | assumption | intro _ | (extract_lets +onlyGivenNames x; clear_value x; revert x; intro _) | apply Keeps.ite | apply State.setFlag_keeps | apply State.emit_keeps)

theorem State.assertErr_keeps {s0 : State} {s : State} (ks : Keeps s0 s) : Keeps s0 (State.assertErr s) := by
  unfold State.assertErr
  with_reducible repeat' (first | assumption | apply State.setFlag_keeps | apply State.errPin_keeps)

theorem State.assertAlarm_keeps {s0 : State} {s : State} (ks : Keeps s0 s) : Keeps s0 (State.assertAlarm s) := by
  unfold State.assertAlarm
  with_reducible repeat' (first | assumption | apply State.setFlag_keeps | apply State.alarmPin_keeps)

theorem State.logEvent_keeps {s0 : State} {s : State} {fn : Nat} {log : Nat} {e00 : EventRec} (ks : Keeps s0 s) : Keeps s0 (State.logEvent s fn log e00) := by
  unfold State.logEvent
  with_reducible repeat' (first | assumption | (simp -zeta -iota only [Keeps.mk_iff]; apply KeepsMk.of (h1 := by simp) (h2 := by simp) (h3 := by simp)))

theorem State.eventLog_keeps {s0 : State} {s : State} {name : Nat} {d : Nat} {dpa : Nat} {lines : Nat} (ks : Keeps s0 s) : Keeps s0 (State.eventLog s name d dpa lines) := by
  unfold State.eventLog
  with_reducible repeat' (first | assumption | intro _ | apply Keeps.ite | apply State.logEvent_keeps | apply State.each_keeps | split)

theorem State.eventRecord_keeps {s0 : State} {s : State} {name : Nat} {event : String} {d : Nat} {dpa : Nat} {lines : Nat} (ks : Keeps s0 s) : Keeps s0 (State.eventRecord s name event d dpa lines) := by
  unfold State.eventRecord
  with_reducible repeat' (first | assumption | apply State.toFm_keeps | apply State.eventLog_keeps)

theorem State.ringCopy_keeps {s0 : State} {s : State} {fn : Nat} {words : List Nat} (ks : Keeps s0 s) : Keeps s0 (State.ringCopy s fn words) := by
  unfold State.ringCopy
  with_reducible repeat' (first | assumption | intro _ | (extract_lets +onlyGivenNames x; refine Keeps.have (Q := Keeps s0 x) ?_ ?_; dsimp -zeta -iota only [x]; clear x; rotate_left; clear_value x; revert x; intro _ _) | (extract_lets +onlyGivenNames x; clear_value x; revert x; intro _) | (extract_lets +onlyGivenNames x; dsimp -zeta -iota only [x]; clear x) | apply Keeps.ite | apply State.setReg_keeps | apply State.setFlag_keeps | apply State.setFld_keeps | apply State.msix_keeps | apply State.each_keeps)

theorem State.tellHosts_keeps {s0 : State} {s : State} {r : FaultRec} (ks : Keeps s0 s) : Keeps s0 (State.tellHosts s r) := by
  unfold State.tellHosts
  with_reducible repeat' (first | assumption | intro _ | (extract_lets +onlyGivenNames x; refine Keeps.have (Q := Keeps s0 x) ?_ ?_; dsimp -zeta -iota only [x]; clear x; rotate_left; clear_value x; revert x; intro _ _) | (extract_lets +onlyGivenNames x; clear_value x; revert x; intro _) | apply Keeps.ite | apply State.ringCopy_keeps | apply State.logEvent_keeps | apply State.each_keeps | split)

theorem State.pushRecord_keeps {s0 : State} {s : State} {r : FaultRec} (ks : Keeps s0 s) : Keeps s0 (State.pushRecord s r) := by
  unfold State.pushRecord
  with_reducible repeat' (first | assumption | intro _ | apply Keeps.ite | apply State.emit_keeps)

theorem State.logRecord_keeps {s0 : State} {s : State} {r : FaultRec} (ks : Keeps s0 s) : Keeps s0 (State.logRecord s r) := by
  unfold State.logRecord
  with_reducible repeat' (first | assumption | intro _ | (extract_lets +onlyGivenNames x; clear_value x; revert x; intro _) | apply Keeps.ite | (simp -zeta -iota only [Keeps.mk_iff]; apply KeepsMk.of (h1 := by simp) (h2 := by simp) (h3 := by simp)))

theorem State.closeRecord_keeps {s0 : State} {s : State} {seq : Nat} (ks : Keeps s0 s) : Keeps s0 (State.closeRecord s seq) := by
  unfold State.closeRecord
  with_reducible repeat' (first | assumption | intro _ | (extract_lets +onlyGivenNames x; refine Keeps.have (Q := Keeps s0 x) ?_ ?_; dsimp -zeta -iota only [x]; clear x; rotate_left; clear_value x; revert x; intro _ _) | (extract_lets +onlyGivenNames x; clear_value x; revert x; intro _) | apply Keeps.ite | apply State.pushRecord_keeps | apply State.logRecord_keeps | apply State.setFld_keeps | (simp -zeta -iota only [Keeps.mk_iff]; apply KeepsMk.of (h1 := by simp) (h2 := by simp) (h3 := by simp)) | split)

theorem State.enter_keeps {s0 : State} {s : State} {d : Det} {agg : Bool} (ks : Keeps s0 s) : Keeps1 s0 (State.enter s d agg) := by
  unfold State.enter
  with_reducible repeat' (first | assumption | intro _ | (extract_lets +onlyGivenNames x; refine Keeps.have (Q := Keeps s0 x) ?_ ?_; dsimp -zeta -iota only [x]; clear x; rotate_left; clear_value x; revert x; intro _ _) | (extract_lets +onlyGivenNames x; clear_value x; revert x; intro _) | apply Keeps.ite | apply State.pushRecord_keeps | apply State.setFlag_keeps | apply State.tellHosts_keeps | apply State.logRecord_keeps | apply State.setFld_keeps | apply State.closeRecord_keeps | (simp -zeta -iota only [Keeps1.pair]) | (simp -zeta -iota only [Keeps.mk_iff]; apply KeepsMk.of (h1 := by simp) (h2 := by simp) (h3 := by simp)) | split)

theorem State.countClass_keeps {s0 : State} {s : State} {cls : Nat} (ks : Keeps s0 s) : Keeps s0 (State.countClass s cls) := by
  unfold State.countClass
  with_reducible repeat' (first | assumption | apply State.count_keeps | split)

theorem State.noteN_keeps {s0 : State} {a0 : Nat} {a1 : State} {a2 : Det} (ka1 : Keeps s0 a1) : Keeps1 s0 (State.noteN a0 a1 a2) := by
  induction a0 generalizing a1 a2 with
  | zero => exact ⟨ka1⟩
  | succ n ih =>
    unfold State.noteN
    with_reducible repeat' (first | apply ih | (refine (ih ?_).out) | assumption | intro _ | (extract_lets +onlyGivenNames x; refine Keeps.have (Q := Keeps s0 x) ?_ ?_; dsimp -zeta -iota only [x]; clear x; rotate_left; clear_value x; revert x; intro _ _) | (extract_lets +onlyGivenNames x; refine Keeps.isFun x ?_; dsimp -zeta -iota only [x]; clear x) | apply Keeps.ite | apply Keeps1.ite | (refine (State.enter_keeps ?_).out) | apply State.countClass_keeps | apply State.count_keeps | apply State.assertAlarm_keeps | (simp -zeta -iota only [Keeps1.pair]) | (simp -zeta -iota only [Keeps.mk_iff]; apply KeepsMk.of (h1 := by simp) (h2 := by simp) (h3 := by simp)) | split)

theorem State.noteR_keeps {s0 : State} {s : State} {d : Det} (ks : Keeps s0 s) : Keeps1 s0 (State.noteR s d) := by
  unfold State.noteR
  with_reducible repeat' (first | assumption | apply State.noteN_keeps)

theorem State.note_keeps {s0 : State} {s : State} {d : Det} (ks : Keeps s0 s) : Keeps s0 (State.note s d) := by
  unfold State.note
  with_reducible repeat' (first | assumption | (refine (State.noteR_keeps ?_).out))

theorem State.say_keeps {s0 : State} {s : State} {code : Nat} {cls : Nat} {unit : Nat} (ks : Keeps s0 s) : Keeps s0 (State.say s code cls unit) := by
  unfold State.say
  with_reducible repeat' (first | assumption | apply State.note_keeps)

theorem State.itemRecord_keeps {s0 : State} {s : State} {d : Det} {agg : Bool} (ks : Keeps s0 s) : Keeps s0 (State.itemRecord s d agg) := by
  unfold State.itemRecord
  with_reducible repeat' (first | assumption | intro _ | apply Keeps.ite | apply State.say_keeps | (refine (State.enter_keeps ?_).out))

theorem State.addPoison_keeps {s0 : State} {s : State} {h : Half} {dom : Nat} {line : Nat} {len : Nat} {external : Bool} (ks : Keeps s0 s) : Keeps s0 (State.addPoison s h dom line len external) := by
  unfold State.addPoison
  with_reducible repeat' (first | assumption | intro _ | (extract_lets +onlyGivenNames x; clear_value x; revert x; intro _) | apply Keeps.ite | (simp -zeta -iota only [Keeps.mk_iff]; apply KeepsMk.of (h1 := by simp) (h2 := by simp) (h3 := by simp)))

theorem State.dropPoison_keeps {s0 : State} {s : State} {h : Half} {dom : Nat} {line : Nat} {len : Nat} (ks : Keeps s0 s) : Keeps s0 (State.dropPoison s h dom line len) := by
  unfold State.dropPoison
  with_reducible repeat' (first | assumption | (extract_lets +onlyGivenNames x; clear_value x; revert x; intro _) | (simp -zeta -iota only [Keeps.mk_iff]; apply KeepsMk.of (h1 := by simp) (h2 := by simp) (h3 := by simp)))

end Sys2Proof.Machine
end

