-- ==== Sys2Proof/Laws/KeepPmuCore.lean ====
section
/-! SUPPORT. The operations of Machine/PmuCore.lean break nothing (Laws/Keeps.lean). -/

namespace Sys2Proof.Machine

theorem State.addCounter_keeps {s0 : State} {s : State} {f : Fld} {ovf : Fld} {bit : Nat} {n : Nat} (ks : Keeps s0 s) : Keeps s0 (State.addCounter s f ovf bit n) := by
  unfold State.addCounter
  with_reducible repeat' (first | assumption | intro _ | (extract_lets +onlyGivenNames x; refine Keeps.have (Q := Keeps s0 x) ?_ ?_; dsimp -zeta -iota only [x]; clear x; rotate_left; clear_value x; revert x; intro _ _) | (extract_lets +onlyGivenNames x; clear_value x; revert x; intro _) | apply Keeps.ite | apply State.setBit_keeps | apply State.setFld_keeps)

theorem State.pulses_keeps {s0 : State} {s : State} {h : Half} {block : Nat} {inst : Nat} {ev : Nat} {dom : Option Nat} {n : Nat} (ks : Keeps s0 s) : Keeps s0 (State.pulses s h block inst ev dom n) := by
  unfold State.pulses
  with_reducible repeat' (first | assumption | intro _ | (extract_lets +onlyGivenNames x; clear_value x; revert x; intro _) | apply Keeps.ite | apply State.addCounter_keeps | apply State.each_keeps)

theorem State.pulse_keeps {s0 : State} {s : State} {h : Half} {block : Nat} {inst : Nat} {ev : Nat} {dom : Option Nat} (ks : Keeps s0 s) : Keeps s0 (State.pulse s h block inst ev dom) := by
  unfold State.pulse
  with_reducible repeat' (first | assumption | apply State.pulses_keeps)

theorem State.fixed_keeps {s0 : State} {s : State} {h : Half} {k : Nat} {n : Nat} (ks : Keeps s0 s) : Keeps s0 (State.fixed s h k n) := by
  unfold State.fixed
  with_reducible repeat' (first | assumption | intro _ | apply Keeps.ite | apply State.addCounter_keeps)

theorem State.userCount_keeps {s0 : State} {s : State} {fn : Nat} {k : Nat} {n : Nat} (ks : Keeps s0 s) : Keeps s0 (State.userCount s fn k n) := by
  unfold State.userCount
  with_reducible repeat' (first | assumption | apply State.setFld_keeps)

theorem State.drawCount_keeps {s0 : State} {s : State} {h : Half} (ks : Keeps s0 s) : Keeps s0 (State.drawCount s h) := by
  unfold State.drawCount
  with_reducible repeat' (first | assumption | (extract_lets +onlyGivenNames x; clear_value x; revert x; intro _) | apply State.freeNat_keeps | (refine Keeps2.eq (by assumption) ?_) | (simp -zeta -iota only [Keeps.mk_iff]; apply KeepsMk.of (h1 := by simp) (h2 := by simp) (h3 := by simp)) | split)

theorem State.sampleAt2_keeps {s0 : State} {s : State} {r : Req} (ks : Keeps s0 s) : Keeps1 s0 (State.sampleAt2 s r) := by
  unfold State.sampleAt2
  with_reducible repeat' (first | assumption | intro _ | (extract_lets +onlyGivenNames x; refine Keeps.have (Q := Keeps s0 x) ?_ ?_; dsimp -zeta -iota only [x]; clear x; rotate_left; clear_value x; revert x; intro _ _) | (extract_lets +onlyGivenNames x; clear_value x; revert x; intro _) | apply Keeps1.ite | apply State.drawCount_keeps | apply State.count_keeps | (simp -zeta -iota only [Keeps1.pair]) | (simp -zeta -iota only [Keeps.mk_iff]; apply KeepsMk.of (h1 := by simp) (h2 := by simp) (h3 := by simp)))

theorem State.streamCopy_keeps {s0 : State} {s : State} {r : Req} {ws : List Nat} (ks : Keeps s0 s) : Keeps s0 (State.streamCopy s r ws) := by
  unfold State.streamCopy
  with_reducible repeat' (first | assumption | intro _ | (extract_lets +onlyGivenNames x; clear_value x; revert x; intro _) | apply Keeps.ite | apply State.setFld_keeps | apply State.count_keeps | apply State.emit_keeps)

theorem State.sampleDone_keeps {s0 : State} {s : State} {r : Req} {devLoad : Nat} (ks : Keeps s0 s) : Keeps s0 (State.sampleDone s r devLoad) := by
  unfold State.sampleDone
  with_reducible repeat' (first | assumption | intro _ | (extract_lets +onlyGivenNames x; refine Keeps.have (Q := Keeps s0 x) ?_ ?_; dsimp -zeta -iota only [x]; clear x; rotate_left; clear_value x; revert x; intro _ _) | (extract_lets +onlyGivenNames x; clear_value x; revert x; intro _) | apply Keeps.ite | apply State.setReg_keeps | apply State.setFld_keeps | apply State.streamCopy_keeps | apply State.each_keeps)

theorem State.snapHalf_keeps {s0 : State} {s : State} {h : Half} {t00 : Nat} (ks : Keeps s0 s) : Keeps s0 (State.snapHalf s h t00) := by
  unfold State.snapHalf
  with_reducible repeat' (first | assumption | intro _ | (extract_lets +onlyGivenNames x; refine Keeps.have (Q := Keeps s0 x) ?_ ?_; dsimp -zeta -iota only [x]; clear x; rotate_left; clear_value x; revert x; intro _ _) | (extract_lets +onlyGivenNames x; clear_value x; revert x; intro _) | apply State.setFld_keeps | apply State.each_keeps)

end Sys2Proof.Machine
end

