-- ==== Sys2Proof/Laws/KeepPowerCore.lean ====
section
/-! SUPPORT. The operations of Machine/PowerCore.lean break nothing (Laws/Keeps.lean). -/

namespace Sys2Proof.Machine

theorem State.startEntry_keeps {s0 : State} {s : State} {off : Bool} (ks : Keeps s0 s) : Keeps s0 (State.startEntry s off) := by
  unfold State.startEntry
  with_reducible repeat' (first | assumption | (extract_lets +onlyGivenNames x; refine Keeps.have (Q := Keeps s0 x) ?_ ?_; dsimp -zeta -iota only [x]; clear x; rotate_left; clear_value x; revert x; intro _ _) | (extract_lets +onlyGivenNames x; clear_value x; revert x; intro _) | apply State.setFld_keeps | (simp -zeta -iota only [Keeps.mk_iff]; apply KeepsMk.of (h1 := by simp) (h2 := by simp) (h3 := by simp)))

theorem State.startExit_keeps {s0 : State} {s : State} {src : Nat} (ks : Keeps s0 s) : Keeps s0 (State.startExit s src) := by
  unfold State.startExit
  with_reducible repeat' (first | assumption | apply State.setFld_keeps)

theorem State.placeSlot_keeps {s0 : State} {s : State} {req : Nat} {src : Nat} (ks : Keeps s0 s) : Keeps s0 (State.placeSlot s req src) := by
  unfold State.placeSlot
  with_reducible repeat' (first | assumption | intro _ | (extract_lets +onlyGivenNames x; refine Keeps.have (Q := Keeps s0 x) ?_ ?_; dsimp -zeta -iota only [x]; clear x; rotate_left; clear_value x; revert x; intro _ _) | (extract_lets +onlyGivenNames x; clear_value x; revert x; intro _) | apply Keeps.ite | apply State.setFlag_keeps | apply State.setFld_keeps | apply State.say_keeps | (simp -zeta -iota only [Keeps.mk_iff]; apply KeepsMk.of (h1 := by simp) (h2 := by simp) (h3 := by simp)))

theorem State.discardRequest_keeps {s0 : State} {s : State} (ks : Keeps s0 s) : Keeps s0 (State.discardRequest s) := by
  unfold State.discardRequest
  with_reducible repeat' (first | assumption | apply State.say_keeps)

theorem State.wake_keeps {s0 : State} {s : State} {src : Nat} (ks : Keeps s0 s) : Keeps s0 (State.wake s src) := by
  unfold State.wake
  with_reducible repeat' (first | assumption | apply State.startExit_keeps | apply State.placeSlot_keeps | split)

theorem State.dvfs_keeps {s0 : State} {s : State} {h : Half} (ks : Keeps s0 s) : Keeps s0 (State.dvfs s h) := by
  unfold State.dvfs
  with_reducible repeat' (first | assumption | intro _ | (extract_lets +onlyGivenNames x; refine Keeps.have (Q := Keeps s0 x) ?_ ?_; dsimp -zeta -iota only [x]; clear x; rotate_left; clear_value x; revert x; intro _ _) | (extract_lets +onlyGivenNames x; clear_value x; revert x; intro _) | apply Keeps.ite | apply State.setFld_keeps | apply State.emit_keeps | (simp -zeta -iota only [Keeps.mk_iff]; apply KeepsMk.of (h1 := by simp) (h2 := by simp) (h3 := by simp)))

theorem State.dvfsAll_keeps {s0 : State} {s : State} (ks : Keeps s0 s) : Keeps s0 (State.dvfsAll s) := by
  unfold State.dvfsAll
  with_reducible repeat' (first | assumption | apply State.dvfs_keeps)

end Sys2Proof.Machine
end

