-- ==== Sys2Proof/Laws/KeepTtCore.lean ====
section
/-! SUPPORT. The operations of Machine/TtCore.lean break nothing (Laws/Keeps.lean). -/

namespace Sys2Proof.Machine

theorem State.g0Channel_keeps {s0 : State} {s : State} {c : Nat} (ks : Keeps s0 s) : Keeps s0 (State.g0Channel s c) := by
  unfold State.g0Channel
  with_reducible repeat' (first | assumption | (extract_lets +onlyGivenNames x; refine Keeps.isFun x ?_; dsimp -zeta -iota only [x]; clear x) | (extract_lets +onlyGivenNames x; clear_value x; revert x; intro _) | apply State.setFlag_keeps | apply State.setFld_keeps)

theorem State.guarantee_keeps {s0 : State} {s : State} (ks : Keeps s0 s) : Keeps s0 (State.guarantee s) := by
  unfold State.guarantee
  with_reducible repeat' (first | assumption | intro _ | apply State.g0Channel_keeps | apply State.each_keeps)

theorem State.sealTally_keeps {s0 : State} {s : State} (ks : Keeps s0 s) : Keeps s0 (State.sealTally s) := by
  unfold State.sealTally
  with_reducible repeat' (first | assumption | (extract_lets +onlyGivenNames x; clear_value x; revert x; intro _) | apply State.setFld_keeps)

end Sys2Proof.Machine
end

