-- ==== Sys2Proof/Laws/KeepMedia.lean ====
section
/-! SUPPORT. The operations of Machine/Media.lean break nothing (Laws/Keeps.lean). -/

namespace Sys2Proof.Machine

theorem State.recap_keeps {s0 : State} {s : State} {h : Half} (ks : Keeps s0 s) : Keeps s0 (State.recap s h) := by
  unfold State.recap
  with_reducible repeat' (first | assumption | intro _ | (extract_lets +onlyGivenNames x; refine Keeps.have (Q := Keeps s0 x) ?_ ?_; dsimp -zeta -iota only [x]; clear x; rotate_left; clear_value x; revert x; intro _ _) | (extract_lets +onlyGivenNames x; refine Keeps.isFun x ?_; dsimp -zeta -iota only [x]; clear x) | (extract_lets +onlyGivenNames x; clear_value x; revert x; intro _) | apply Keeps.ite | apply State.setFlag_keeps | apply State.toFm_keeps | apply State.setFld_keeps)

theorem State.fixReserve_keeps {s0 : State} {s : State} (ks : Keeps s0 s) : Keeps s0 (State.fixReserve s) := by
  unfold State.fixReserve
  with_reducible repeat' (first | assumption | intro _ | apply State.setFld_keeps | apply State.each_keeps)

theorem State.recapAll_keeps {s0 : State} {s : State} (ks : Keeps s0 s) : Keeps s0 (State.recapAll s) := by
  unfold State.recapAll
  with_reducible repeat' (first | assumption | apply State.recap_keeps)

theorem State.alloc_keeps {s0 : State} {s : State} {h : Half} {len : Nat} {align : Nat} {owner : MediaOwner} {pick : Nat} {avoid : Option Nat} (ks : Keeps s0 s) : KeepsP s0 (State.alloc s h len align owner pick avoid) := by
  unfold State.alloc
  with_reducible repeat' (first | assumption | intro _ | (extract_lets +onlyGivenNames x; clear_value x; revert x; intro _) | apply KeepsP.ite | apply KeepsP.none | apply KeepsP.some | (simp -zeta -iota only [Keeps.mk_iff]; apply KeepsMk.of (h1 := by simp) (h2 := by simp) (h3 := by simp)) | split)

theorem State.allocArea_keeps {s0 : State} {s : State} {h : Half} {d : Nat} {e00 : Nat} {pick : Nat} (ks : Keeps s0 s) : KeepsP s0 (State.allocArea s h d e00 pick) := by
  unfold State.allocArea
  with_reducible repeat' (first | assumption | intro _ | (extract_lets +onlyGivenNames x; refine Keeps.isFun x ?_; dsimp -zeta -iota only [x]; clear x) | (extract_lets +onlyGivenNames x; clear_value x; revert x; intro _) | apply KeepsP.ite | apply KeepsP.none | apply KeepsP.some | apply KeepsP.map | (simp -zeta -iota only [Keeps.mk_iff]; apply KeepsMk.of (h1 := by simp) (h2 := by simp) (h3 := by simp)) | split)

theorem State.classRegs_keeps {s0 : State} {s : State} {h : Half} {k : Nat} (ks : Keeps s0 s) : Keeps s0 (State.classRegs s h k) := by
  unfold State.classRegs
  with_reducible repeat' (first | assumption | (extract_lets +onlyGivenNames x; clear_value x; revert x; intro _) | apply State.setFld_keeps)

theorem State.setUse_keeps {s0 : State} {s : State} {h : Half} {mark : Nat} {by_ : Int} (ks : Keeps s0 s) : Keeps s0 (State.setUse s h mark by_) := by
  unfold State.setUse
  with_reducible repeat' (first | assumption | (extract_lets +onlyGivenNames x; clear_value x; revert x; intro _) | apply State.setFld_keeps | split)

theorem State.useSlot_keeps {s0 : State} {s : State} {h : Half} {k : Nat} {base : Nat} {j : Nat} {mark : Nat} (ks : Keeps s0 s) : Keeps s0 (State.useSlot s h k base j mark) := by
  unfold State.useSlot
  with_reducible repeat' (first | assumption | (extract_lets +onlyGivenNames x; refine Keeps.have (Q := Keeps s0 x) ?_ ?_; dsimp -zeta -iota only [x]; clear x; rotate_left; clear_value x; revert x; intro _ _) | apply State.classRegs_keeps | apply State.setUse_keeps | (simp -zeta -iota only [Keeps.mk_iff]; apply KeepsMk.of (h1 := by simp) (h2 := by simp) (h3 := by simp)))

theorem State.takeSlot_keeps {s0 : State} {s : State} {h : Half} {k : Nat} {pick : Nat} {setNo : Option Nat} (ks : Keeps s0 s) : KeepsP s0 (State.takeSlot s h k pick setNo) := by
  unfold State.takeSlot
  with_reducible repeat' (first | assumption | intro _ | (extract_lets +onlyGivenNames x; refine Keeps.have (Q := Keeps s0 x) ?_ ?_; dsimp -zeta -iota only [x]; clear x; rotate_left; clear_value x; revert x; intro _ _) | (extract_lets +onlyGivenNames x; clear_value x; revert x; intro _) | apply KeepsP.ite | apply State.useSlot_keeps | apply KeepsP.none | apply KeepsP.some | (simp -zeta -iota only [Keeps.mk_iff]; apply KeepsMk.of (h1 := by simp) (h2 := by simp) (h3 := by simp)) | split)

theorem State.dropSlot_keeps {s0 : State} {s : State} {h : Half} {base : Nat} {k : Nat} (ks : Keeps s0 s) : Keeps s0 (State.dropSlot s h base k) := by
  unfold State.dropSlot
  with_reducible repeat' (first | assumption | intro _ | (extract_lets +onlyGivenNames x; refine Keeps.have (Q := Keeps s0 x) ?_ ?_; dsimp -zeta -iota only [x]; clear x; rotate_left; clear_value x; revert x; intro _ _) | (extract_lets +onlyGivenNames x; clear_value x; revert x; intro _) | apply Keeps.ite | apply State.updChan_keeps | apply State.classRegs_keeps | apply State.setUse_keeps | (simp -zeta -iota only [Keeps.mk_iff]; apply KeepsMk.of (h1 := by simp) (h2 := by simp) (h3 := by simp)) | split)

theorem State.release_keeps {s0 : State} {s : State} {h : Half} {d : Nat} {p : Nat} {n : Nat} {bases : List Nat} {slots : List (Nat × Nat)} {commit : Bool} (ks : Keeps s0 s) : Keeps s0 (State.release s h d p n bases slots commit) := by
  unfold State.release
  with_reducible repeat' (first | assumption | intro _ | (extract_lets +onlyGivenNames x; clear_value x; revert x; intro _) | apply Keeps.ite | (simp -zeta -iota only [Keeps.mk_iff]; apply KeepsMk.of (h1 := by simp) (h2 := by simp) (h3 := by simp)))

theorem State.dropWait_keeps {s0 : State} {s : State} {rid : Nat} (ks : Keeps s0 s) : Keeps s0 (State.dropWait s rid) := by
  unfold State.dropWait
  with_reducible repeat' (first | assumption | (simp -zeta -iota only [Keeps.mk_iff]; apply KeepsMk.of (h1 := by simp) (h2 := by simp) (h3 := by simp)))

theorem State.tally_keeps {s0 : State} {s : State} {d : Nat} (ks : Keeps s0 s) : Keeps s0 (State.tally s d) := by
  unfold State.tally
  with_reducible repeat' (first | assumption | (extract_lets +onlyGivenNames x; refine Keeps.have (Q := Keeps s0 x) ?_ ?_; dsimp -zeta -iota only [x]; clear x; rotate_left; clear_value x; revert x; intro _ _) | (extract_lets +onlyGivenNames x; refine Keeps.isFun x ?_; dsimp -zeta -iota only [x]; clear x) | (extract_lets +onlyGivenNames x; clear_value x; revert x; intro _) | apply State.setFlag_keeps | apply State.setFld_keeps)

theorem State.settle_keeps {s0 : State} {s : State} {d : Nat} (ks : Keeps s0 s) : Keeps s0 (State.settle s d) := by
  unfold State.settle
  with_reducible repeat' (first | assumption | intro _ | (extract_lets +onlyGivenNames x; refine Keeps.have (Q := Keeps s0 x) ?_ ?_; dsimp -zeta -iota only [x]; clear x; rotate_left; clear_value x; revert x; intro _ _) | apply Keeps.ite | apply State.tally_keeps | apply State.recap_keeps | apply State.guarantee_keeps)

theorem State.ceilingReached_keeps {s0 : State} {s : State} {d : Nat} (ks : Keeps s0 s) : Keeps s0 (State.ceilingReached s d) := by
  unfold State.ceilingReached
  with_reducible repeat' (first | assumption | intro _ | apply Keeps.ite | apply State.updMap_keeps | apply State.toFm_keeps | split)

theorem State.lostRecord_keeps {s0 : State} {s : State} {h : Half} {d : Nat} {page : Nat} {n : Nat} {agg : Bool} (ks : Keeps s0 s) : Keeps s0 (State.lostRecord s h d page n agg) := by
  unfold State.lostRecord
  with_reducible repeat' (first | assumption | intro _ | (extract_lets +onlyGivenNames x; clear_value x; revert x; intro _) | apply Keeps.ite | apply State.say_keeps | (refine (State.enter_keeps ?_).out) | apply State.countClass_keeps)

theorem State.closeFold_keeps {s0 : State} {s : State} {h : Half} {d : Nat} (ks : Keeps s0 s) : Keeps s0 (State.closeFold s h d) := by
  unfold State.closeFold
  with_reducible repeat' (first | assumption | (extract_lets +onlyGivenNames x; refine Keeps.have (Q := Keeps s0 x) ?_ ?_; dsimp -zeta -iota only [x]; clear x; rotate_left; clear_value x; revert x; intro _ _) | apply State.closeRecord_keeps | (simp -zeta -iota only [Keeps.mk_iff]; apply KeepsMk.of (h1 := by simp) (h2 := by simp) (h3 := by simp)) | split)

theorem State.lostWrite_keeps {s0 : State} {s : State} {d : Nat} {page : Nat} {n : Nat} (ks : Keeps s0 s) : Keeps s0 (State.lostWrite s d page n) := by
  unfold State.lostWrite
  with_reducible repeat' (first | assumption | intro _ | (extract_lets +onlyGivenNames x; refine Keeps.have (Q := Keeps s0 x) ?_ ?_; dsimp -zeta -iota only [x]; clear x; rotate_left; clear_value x; revert x; intro _ _) | (extract_lets +onlyGivenNames x; clear_value x; revert x; intro _) | apply Keeps.ite | apply State.lostRecord_keeps | apply State.closeFold_keeps | apply State.closeRecord_keeps | apply State.each_keeps | (simp -zeta -iota only [Keeps.mk_iff]; apply KeepsMk.of (h1 := by simp) (h2 := by simp) (h3 := by simp)) | split)

end Sys2Proof.Machine
end

