-- ==== Sys2Proof/Laws/KeepStore.lean ====
section
/-! SUPPORT. The operations of Machine/Store.lean break nothing (Laws/Keeps.lean). -/

namespace Sys2Proof.Machine

theorem State.updProt_keeps {s0 : State} {s : State} {d : Nat} {f : ProtDom → ProtDom} (ks : Keeps s0 s) : Keeps s0 (State.updProt s d f) := by
  unfold State.updProt
  with_reducible repeat' (first | assumption | (simp -zeta -iota only [Keeps.mk_iff]; apply KeepsMk.of (h1 := by simp) (h2 := by simp) (h3 := by simp)))

theorem State.setCtr_keeps {s0 : State} {s : State} {d : Nat} {page : Nat} {c : CtrBlock} (ks : Keeps s0 s) : Keeps s0 (State.setCtr s d page c) := by
  unfold State.setCtr
  with_reducible repeat' (first | assumption | (simp -zeta -iota only [Keeps.mk_iff]; apply KeepsMk.of (h1 := by simp) (h2 := by simp) (h3 := by simp)))

theorem State.retag_keeps {s0 : State} {a0 : Nat} {a1 : State} {a2 : Nat} {a3 : Nat} {a4 : Nat} (ka1 : Keeps s0 a1) : Keeps s0 (State.retag a0 a1 a2 a3 a4) := by
  induction a0 generalizing a1 a2 a3 a4 with
  | zero => exact ka1
  | succ n ih =>
    unfold State.retag
    with_reducible repeat' (first | apply ih | assumption | intro _ | (extract_lets +onlyGivenNames x; refine Keeps.have (Q := Keeps s0 x) ?_ ?_; dsimp -zeta -iota only [x]; clear x; rotate_left; clear_value x; revert x; intro _ _) | (extract_lets +onlyGivenNames x; clear_value x; revert x; intro _) | apply Keeps.ite | apply State.updProt_keeps | (simp -zeta -iota only [Keeps.mk_iff]; apply KeepsMk.of (h1 := by simp) (h2 := by simp) (h3 := by simp)))

theorem State.putCtr_keeps {s0 : State} {s : State} {d : Nat} {page : Nat} {c : CtrBlock} (ks : Keeps s0 s) : Keeps s0 (State.putCtr s d page c) := by
  unfold State.putCtr
  with_reducible repeat' (first | assumption | (extract_lets +onlyGivenNames x; refine Keeps.have (Q := Keeps s0 x) ?_ ?_; dsimp -zeta -iota only [x]; clear x; rotate_left; clear_value x; revert x; intro _ _) | apply State.retag_keeps | apply State.setCtr_keeps | apply State.updProt_keeps)

theorem State.putBurst_keeps {s0 : State} {s : State} {h : Half} {ma : Nat} {b : Burst} (ks : Keeps s0 s) : Keeps s0 (State.putBurst s h ma b) := by
  unfold State.putBurst
  with_reducible repeat' (first | assumption | intro _ | (extract_lets +onlyGivenNames x; refine Keeps.have (Q := Keeps s0 x) ?_ ?_; dsimp -zeta -iota only [x]; clear x; rotate_left; clear_value x; revert x; intro _ _) | (extract_lets +onlyGivenNames x; clear_value x; revert x; intro _) | apply Keeps.ite | apply State.updChan_keeps | apply State.setFlag_keeps | apply State.setFld_keeps | (simp -zeta -iota only [Keeps.mk_iff]; apply KeepsMk.ofDram (h1 := rfl) (h2 := rfl) (h3 := rfl)))

theorem State.putRaw_keeps {s0 : State} {s : State} {h : Half} {ma : Nat} {l : Line} {poison : Bool} (ks : Keeps s0 s) : Keeps s0 (State.putRaw s h ma l poison) := by
  unfold State.putRaw
  with_reducible repeat' (first | assumption | apply State.putBurst_keeps)

theorem State.seal_keeps {s0 : State} {s : State} {p : Place} {l : Line} {poison : Bool} (ks : Keeps s0 s) : Keeps s0 (State.seal s p l poison) := by
  unfold State.seal
  with_reducible repeat' (first | assumption | intro _ | (extract_lets +onlyGivenNames x; refine Keeps.have (Q := Keeps s0 x) ?_ ?_; dsimp -zeta -iota only [x]; clear x; rotate_left; clear_value x; revert x; intro _ _) | (extract_lets +onlyGivenNames x; clear_value x; revert x; intro _) | apply Keeps.ite | apply State.putRaw_keeps | (simp -zeta -iota only [Keeps.mk_iff]; apply KeepsMk.of (h1 := by simp) (h2 := by simp) (h3 := by simp)))

theorem State.writeNear_keeps {s0 : State} {s : State} {h : Half} {d : Nat} {line : Nat} {ma : Nat} {l : Line} {poison : Bool} {external : Bool} (ks : Keeps s0 s) : Keeps s0 (State.writeNear s h d line ma l poison external) := by
  unfold State.writeNear
  with_reducible repeat' (first | assumption | intro _ | (extract_lets +onlyGivenNames x; refine Keeps.have (Q := Keeps s0 x) ?_ ?_; dsimp -zeta -iota only [x]; clear x; rotate_left; clear_value x; revert x; intro _ _) | (extract_lets +onlyGivenNames x; clear_value x; revert x; intro _) | apply Keeps.ite | apply State.putCtr_keeps | apply State.seal_keeps | apply State.addPoison_keeps | apply State.dropPoison_keeps)

theorem State.writeSlot_keeps {s0 : State} {s : State} {h : Half} {base : Nat} {d : Nat} {page : Nat} {seq : Nat} {image : List Byte} (ks : Keeps s0 s) : Keeps s0 (State.writeSlot s h base d page seq image) := by
  unfold State.writeSlot
  with_reducible repeat' (first | assumption | intro _ | apply State.seal_keeps | apply State.each_keeps)

end Sys2Proof.Machine
end

