-- ==== Sys2Proof/Laws/KeepDramCore.lean ====
section
/-! SUPPORT. The operations of Machine/DramCore.lean break nothing (Laws/Keeps.lean). -/

namespace Sys2Proof.Machine

theorem State.stageReplay_keeps {s0 : State} {s : State} {h : Half} (ks : Keeps s0 s) : Keeps s0 (State.stageReplay s h) := by
  unfold State.stageReplay
  with_reducible repeat' (first | assumption | apply State.pulse_keeps | apply State.count_keeps)

theorem State.retireRow_keeps {s0 : State} {s : State} {c : Nat} {k : RowKey} (ks : Keeps s0 s) : Keeps s0 (State.retireRow s c k) := by
  unfold State.retireRow
  with_reducible repeat' (first | assumption | apply State.updChan_keeps)

theorem State.rowCe_keeps {s0 : State} {s : State} {c : Nat} {k : RowKey} (ks : Keeps s0 s) : Keeps s0 (State.rowCe s c k) := by
  unfold State.rowCe
  with_reducible repeat' (first | assumption | intro _ | (extract_lets +onlyGivenNames x; refine Keeps.have (Q := Keeps s0 x) ?_ ?_; dsimp -zeta -iota only [x]; clear x; rotate_left; clear_value x; revert x; intro _ _) | (extract_lets +onlyGivenNames x; clear_value x; revert x; intro _) | apply Keeps.ite | apply State.updChan_keeps | apply State.setFld_keeps | apply State.retireRow_keeps)

theorem State.eccLast_keeps {s0 : State} {s : State} {c : Nat} {ma : Nat} {dev : Nat} {kind : Nat} (ks : Keeps s0 s) : Keeps s0 (State.eccLast s c ma dev kind) := by
  unfold State.eccLast
  with_reducible repeat' (first | assumption | apply State.setFld_keeps)

theorem State.countRead_keeps {s0 : State} {s : State} {h : Half} {ma : Nat} (ks : Keeps s0 s) : Keeps s0 (State.countRead s h ma) := by
  unfold State.countRead
  with_reducible repeat' (first | assumption | apply State.pulse_keeps | apply State.fixed_keeps)

theorem State.countWrite_keeps {s0 : State} {s : State} {h : Half} {ma : Nat} (ks : Keeps s0 s) : Keeps s0 (State.countWrite s h ma) := by
  unfold State.countWrite
  with_reducible repeat' (first | assumption | apply State.pulse_keeps | apply State.fixed_keeps)

theorem State.readNote_keeps {s0 : State} {s : State} {base : Burst} {h : Half} {ma : Nat} {r : Decoded} {of_ : Option Of} {comber : Bool} {tell : Bool} (ks : Keeps s0 s) : Keeps s0 (State.readNote s base h ma r of_ comber tell) := by
  unfold State.readNote
  with_reducible repeat' (first | assumption | intro _ | (extract_lets +onlyGivenNames x; refine Keeps.have (Q := Keeps s0 x) ?_ ?_; dsimp -zeta -iota only [x]; clear x; rotate_left; clear_value x; revert x; intro _ _) | (extract_lets +onlyGivenNames x; refine Keeps.isFun x ?_; dsimp -zeta -iota only [x]; clear x) | (extract_lets +onlyGivenNames x; clear_value x; revert x; intro _) | apply Keeps.ite | apply State.pulse_keeps | apply State.updChan_keeps | apply State.note_keeps | apply State.addPoison_keeps | apply State.retireRow_keeps | apply State.rowCe_keeps | apply State.putBurst_keeps | apply State.count_keeps | apply State.eccLast_keeps | split)

theorem State.deviceRead_keeps {s0 : State} {s : State} {base : Burst} {h : Half} {ma : Nat} {errs : List Burst} {of_ : Option Of} {comber : Bool} {tell : Bool} (ks : Keeps s0 s) : Keeps22 s0 (State.deviceRead s base h ma errs of_ comber tell) := by
  unfold State.deviceRead
  with_reducible repeat' (first | assumption | intro _ | (extract_lets +onlyGivenNames x; refine Keeps.have (Q := Keeps s0 x) ?_ ?_; dsimp -zeta -iota only [x]; clear x; rotate_left; clear_value x; revert x; intro _ _) | (extract_lets +onlyGivenNames x; clear_value x; revert x; intro _) | apply Keeps22.ite | apply State.stageReplay_keeps | apply State.readNote_keeps | apply State.countRead_keeps | (simp -zeta -iota only [Keeps22.pair]))

end Sys2Proof.Machine
end

