-- ==== Sys2Proof/Laws/KeepMirCore.lean ====
section
/-! SUPPORT. The operations of Machine/MirCore.lean break nothing (Laws/Keeps.lean). -/

namespace Sys2Proof.Machine

theorem State.send_keeps {s0 : State} {s : State} {l : Half} {kind : Nat} {cls : Nat} {color : Nat} {m : MirMsg} (ks : Keeps s0 s) : Keeps s0 (State.send s l kind cls color m) := by
  unfold State.send
  with_reducible repeat' (first | assumption | intro _ | apply Keeps.ite | (simp -zeta -iota only [Keeps.mk_iff]; apply KeepsMk.of (h1 := by simp) (h2 := by simp) (h3 := by simp)))

theorem State.sendRole_keeps {s0 : State} {s : State} {d : Nat} (ks : Keeps s0 s) : Keeps s0 (State.sendRole s d) := by
  unfold State.sendRole
  with_reducible repeat' (first | assumption | intro _ | (extract_lets +onlyGivenNames x; clear_value x; revert x; intro _) | apply Keeps.ite | apply State.send_keeps)

theorem State.mirTally_keeps {s0 : State} {s : State} {h : Half} (ks : Keeps s0 s) : Keeps s0 (State.mirTally s h) := by
  unfold State.mirTally
  with_reducible repeat' (first | assumption | (extract_lets +onlyGivenNames x; clear_value x; revert x; intro _) | apply State.setFlag_keeps | apply State.setFld_keeps)

theorem State.setMState_keeps {s0 : State} {s : State} {d : Nat} {st : Nat} (ks : Keeps s0 s) : Keeps s0 (State.setMState s d st) := by
  unfold State.setMState
  with_reducible repeat' (first | assumption | apply State.setFld_keeps | apply State.mirTally_keeps | apply State.sendRole_keeps)

theorem State.setDirty_keeps {s0 : State} {s : State} {d : Nat} {e00 : Nat} {b : Bool} (ks : Keeps s0 s) : Keeps s0 (State.setDirty s d e00 b) := by
  unfold State.setDirty
  with_reducible repeat' (first | assumption | intro _ | (extract_lets +onlyGivenNames x; clear_value x; revert x; intro _) | apply Keeps.ite | apply State.setExt_keeps | apply State.setFld_keeps)

theorem State.mirSay_keeps {s0 : State} {s : State} {d : Nat} {code : Nat} {cls : Nat} {line : Option Nat} {detail : Nat} (ks : Keeps s0 s) : Keeps s0 (State.mirSay s d code cls line detail) := by
  unfold State.mirSay
  with_reducible repeat' (first | assumption | apply State.note_keeps)

theorem State.logExtent_keeps {s0 : State} {s : State} {h : Half} {d : Nat} {e00 : Nat} (ks : Keeps s0 s) : Keeps s0 (State.logExtent s h d e00) := by
  unfold State.logExtent
  with_reducible repeat' (first | assumption | intro _ | (extract_lets +onlyGivenNames x; refine Keeps.have (Q := Keeps s0 x) ?_ ?_; dsimp -zeta -iota only [x]; clear x; rotate_left; clear_value x; revert x; intro _ _) | (extract_lets +onlyGivenNames x; clear_value x; revert x; intro _) | apply Keeps.ite | apply State.setFld_keeps | (simp -zeta -iota only [Keeps.mk_iff]; apply KeepsMk.of (h1 := by simp) (h2 := by simp) (h3 := by simp)))

theorem State.lagStall_keeps {s0 : State} {s : State} {h : Half} (ks : Keeps s0 s) : Keeps s0 (State.lagStall s h) := by
  unfold State.lagStall
  with_reducible repeat' (first | assumption | intro _ | (extract_lets +onlyGivenNames x; refine Keeps.have (Q := Keeps s0 x) ?_ ?_; dsimp -zeta -iota only [x]; clear x; rotate_left; clear_value x; revert x; intro _ _) | (extract_lets +onlyGivenNames x; clear_value x; revert x; intro _) | apply Keeps.ite | apply State.setFlag_keeps)

theorem State.mirrorOut_keeps {s0 : State} {s : State} {d : Nat} {e00 : Nat} {cls : Nat} {color : Nat} {msg : Nat → MirMsg} (ks : Keeps s0 s) : Keeps1 s0 (State.mirrorOut s d e00 cls color msg) := by
  unfold State.mirrorOut
  with_reducible repeat' (first | assumption | intro _ | (extract_lets +onlyGivenNames x; refine Keeps.have (Q := Keeps s0 x) ?_ ?_; dsimp -zeta -iota only [x]; clear x; rotate_left; clear_value x; revert x; intro _ _) | (extract_lets +onlyGivenNames x; clear_value x; revert x; intro _) | apply Keeps1.ite | apply State.pulse_keeps | apply State.logExtent_keeps | apply State.lagStall_keeps | apply State.setDirty_keeps | apply State.send_keeps | (simp -zeta -iota only [Keeps1.pair]) | (simp -zeta -iota only [Keeps.mk_iff]; apply KeepsMk.of (h1 := by simp) (h2 := by simp) (h3 := by simp)))

theorem State.endHolds_keeps {s0 : State} {s : State} {count : Nat} (ks : Keeps s0 s) : Keeps s0 (State.endHolds s count) := by
  unfold State.endHolds
  with_reducible repeat' (first | assumption | (simp -zeta -iota only [Keeps.mk_iff]; apply KeepsMk.of (h1 := by simp) (h2 := by simp) (h3 := by simp)))

theorem State.dropPages_keeps {s0 : State} {s : State} {l : Half} {p : PageOut → Bool} (ks : Keeps s0 s) : Keeps s0 (State.dropPages s l p) := by
  unfold State.dropPages
  with_reducible repeat' (first | assumption | (extract_lets +onlyGivenNames x; refine Keeps.isFun x ?_; dsimp -zeta -iota only [x]; clear x) | (extract_lets +onlyGivenNames x; clear_value x; revert x; intro _) | (simp -zeta -iota only [Keeps.mk_iff]; apply KeepsMk.of (h1 := by simp) (h2 := by simp) (h3 := by simp)))

theorem State.enterSolo_keeps {s0 : State} {s : State} {d : Nat} {rec : Bool} (ks : Keeps s0 s) : Keeps s0 (State.enterSolo s d rec) := by
  unfold State.enterSolo
  with_reducible repeat' (first | assumption | intro _ | (extract_lets +onlyGivenNames x; refine Keeps.have (Q := Keeps s0 x) ?_ ?_; dsimp -zeta -iota only [x]; clear x; rotate_left; clear_value x; revert x; intro _ _) | (extract_lets +onlyGivenNames x; clear_value x; revert x; intro _) | apply Keeps.ite | apply State.setFlag_keeps | apply State.lagStall_keeps | apply State.updMirDom_keeps | apply State.setFld_keeps | apply State.mirSay_keeps | apply State.dropPages_keeps | apply State.setMState_keeps | apply State.setDirty_keeps | apply State.each_keeps | (simp -zeta -iota only [Keeps.mk_iff]; apply KeepsMk.of (h1 := by simp) (h2 := by simp) (h3 := by simp)))

theorem State.unmatch_keeps {s0 : State} {s : State} {d : Nat} (ks : Keeps s0 s) : Keeps s0 (State.unmatch s d) := by
  unfold State.unmatch
  with_reducible repeat' (first | assumption | intro _ | (extract_lets +onlyGivenNames x; clear_value x; revert x; intro _) | apply Keeps.ite | apply State.setFlag_keeps | apply State.enterSolo_keeps | apply State.setMState_keeps)

theorem State.mirrorDone_keeps {s0 : State} {s : State} {l : Half} {sync : Bool} {n : Nat} (ks : Keeps s0 s) : Keeps s0 (State.mirrorDone s l sync n) := by
  unfold State.mirrorDone
  with_reducible repeat' (first | assumption | (simp -zeta -iota only [Keeps.mk_iff]; apply KeepsMk.of (h1 := by simp) (h2 := by simp) (h3 := by simp)))

theorem State.dataLost_keeps {s0 : State} {s : State} {d : Nat} (ks : Keeps s0 s) : Keeps s0 (State.dataLost s d) := by
  unfold State.dataLost
  with_reducible repeat' (first | assumption | intro _ | apply Keeps.ite | apply State.setFlag_keeps | apply State.sendRole_keeps)

theorem State.mirDrop_keeps {s0 : State} {s : State} {d : Nat} (ks : Keeps s0 s) : KeepsO s0 (State.mirDrop s d) := by
  unfold State.mirDrop
  with_reducible repeat' (first | assumption | intro _ | (extract_lets +onlyGivenNames x; refine Keeps.have (Q := Keeps s0 x) ?_ ?_; dsimp -zeta -iota only [x]; clear x; rotate_left; clear_value x; revert x; intro _ _) | (extract_lets +onlyGivenNames x; clear_value x; revert x; intro _) | apply KeepsO.ite | apply State.updMirDom_keeps | apply State.mirSay_keeps | apply State.count_keeps | apply KeepsO.none | apply KeepsO.some)

end Sys2Proof.Machine
end

