-- ==== Sys2Proof/Laws/KeepReqCore.lean ====
section
/-! SUPPORT. The operations of Machine/ReqCore.lean break nothing (Laws/Keeps.lean). -/

namespace Sys2Proof.Machine

theorem State.updReq_keeps {s0 : State} {s : State} {rid : Nat} {f : Req → Req} (ks : Keeps s0 s) : Keeps s0 (State.updReq s rid f) := by
  unfold State.updReq
  with_reducible repeat' (first | assumption | (simp -zeta -iota only [Keeps.mk_iff]; apply KeepsMk.of (h1 := by simp) (h2 := by simp) (h3 := by simp)))

theorem State.setStage_keeps {s0 : State} {s : State} {rid : Nat} {st : Stage} (ks : Keeps s0 s) : Keeps s0 (State.setStage s rid st) := by
  unfold State.setStage
  with_reducible repeat' (first | assumption | apply State.updReq_keeps)

theorem State.reqTally_keeps {s0 : State} {s : State} (ks : Keeps s0 s) : Keeps s0 (State.reqTally s) := by
  unfold State.reqTally
  with_reducible repeat' (first | assumption | intro _ | (extract_lets +onlyGivenNames x; refine Keeps.have (Q := Keeps s0 x) ?_ ?_; dsimp -zeta -iota only [x]; clear x; rotate_left; clear_value x; revert x; intro _ _) | (extract_lets +onlyGivenNames x; clear_value x; revert x; intro _) | apply State.setFld_keeps | apply State.each_keeps)

theorem State.checkReserves_keeps {s0 : State} {s : State} {h : Half} (ks : Keeps s0 s) : Keeps s0 (State.checkReserves s h) := by
  unfold State.checkReserves
  with_reducible repeat' (first | assumption | intro _ | (extract_lets +onlyGivenNames x; clear_value x; revert x; intro _) | apply Keeps.ite | apply State.setFlag_keeps | apply State.say_keeps)

theorem State.enterReq_keeps {s0 : State} {s : State} {r : Req} {pool : Nat} {stage : Stage} (ks : Keeps s0 s) : Keeps s0 (State.enterReq s r pool stage) := by
  unfold State.enterReq
  with_reducible repeat' (first | assumption | (extract_lets +onlyGivenNames x; clear_value x; revert x; intro _) | apply State.reqTally_keeps | (refine (State.sampleAt2_keeps ?_).out) | (simp -zeta -iota only [Keeps.mk_iff]; apply KeepsMk.of (h1 := by simp) (h2 := by simp) (h3 := by simp)))

theorem State.admitReq_keeps {s0 : State} {s : State} {r : Req} (ks : Keeps s0 s) : Keeps s0 (State.admitReq s r) := by
  unfold State.admitReq
  with_reducible repeat' (first | assumption | (extract_lets +onlyGivenNames x; clear_value x; revert x; intro _) | apply State.reqTally_keeps | apply State.enterReq_keeps | (simp -zeta -iota only [Keeps.mk_iff]; apply KeepsMk.of (h1 := by simp) (h2 := by simp) (h3 := by simp)) | split)

theorem State.exclude_keeps {s0 : State} {s : State} {rid : Nat} {n : Nat} (ks : Keeps s0 s) : Keeps s0 (State.exclude s rid n) := by
  unfold State.exclude
  with_reducible repeat' (first | assumption | apply State.updReq_keeps)

theorem State.dropReq_keeps {s0 : State} {s : State} {rid : Nat} (ks : Keeps s0 s) : Keeps s0 (State.dropReq s rid) := by
  unfold State.dropReq
  with_reducible repeat' (first | assumption | (extract_lets +onlyGivenNames x; refine Keeps.isChans x ?_; dsimp -zeta -iota only [x]; clear x) | (extract_lets +onlyGivenNames x; refine Keeps.isFun x ?_; dsimp -zeta -iota only [x]; clear x) | (extract_lets +onlyGivenNames x; clear_value x; revert x; intro _) | apply State.dropWait_keeps | apply State.reqTally_keeps | (simp -zeta -iota only [Keeps.mk_iff]; apply KeepsMk.of (h1 := by simp) (h2 := by simp) (h3 := by simp)))

theorem State.jobLine_keeps {s0 : State} {s : State} {fn : Nat} {ring : Nat} {idx : Nat} {r : Req} (ks : Keeps s0 s) : Keeps s0 (State.jobLine s fn ring idx r) := by
  unfold State.jobLine
  with_reducible repeat' (first | assumption | (extract_lets +onlyGivenNames x; refine Keeps.isFun x ?_; dsimp -zeta -iota only [x]; clear x) | (simp -zeta -iota only [Keeps.mk_iff]; apply KeepsMk.of (h1 := by simp) (h2 := by simp) (h3 := by simp)))

theorem State.finishReq_keeps {s0 : State} {s : State} {r : Req} (ks : Keeps s0 s) : Keeps s0 (State.finishReq s r) := by
  unfold State.finishReq
  with_reducible repeat' (first | assumption | (extract_lets +onlyGivenNames x; refine Keeps.have (Q := Keeps s0 x) ?_ ?_; dsimp -zeta -iota only [x]; clear x; rotate_left; clear_value x; revert x; intro _ _) | (extract_lets +onlyGivenNames x; clear_value x; revert x; intro _) | apply State.dropReq_keeps | apply State.jobLine_keeps | apply State.updReq_keeps | apply State.mirrorDone_keeps | apply State.sampleDone_keeps | split)

theorem State.answer_keeps {s0 : State} {s : State} {rid : Nat} {data : Line} {poison : Bool} (ks : Keeps s0 s) : Keeps s0 (State.answer s rid data poison) := by
  unfold State.answer
  with_reducible repeat' (first | assumption | intro _ | (extract_lets +onlyGivenNames x; clear_value x; revert x; intro _) | apply Keeps.ite | apply State.finishReq_keeps | apply State.updReq_keeps | split)

theorem State.joinQueue_keeps {s0 : State} {s : State} {r : Req} (ks : Keeps s0 s) : Keeps s0 (State.joinQueue s r) := by
  unfold State.joinQueue
  with_reducible repeat' (first | assumption | (extract_lets +onlyGivenNames x; clear_value x; revert x; intro _) | (simp -zeta -iota only [Keeps.mk_iff]; apply KeepsMk.of (h1 := by simp) (h2 := by simp) (h3 := by simp)))

theorem State.carry_keeps {s0 : State} {s : State} {h : Half} {vc : Nat} {rid : Nat} (ks : Keeps s0 s) : Keeps s0 (State.carry s h vc rid) := by
  unfold State.carry
  with_reducible repeat' (first | assumption | intro _ | (extract_lets +onlyGivenNames x; clear_value x; revert x; intro _) | apply Keeps.ite | apply State.joinQueue_keeps | apply State.finishReq_keeps | split)

theorem State.answerRead_keeps {s0 : State} {s : State} {rid : Nat} {data : Line} {poison : Bool} (ks : Keeps s0 s) : Keeps s0 (State.answerRead s rid data poison) := by
  unfold State.answerRead
  with_reducible repeat' (first | assumption | apply State.answer_keeps)

theorem State.releaseSync_keeps {s0 : State} {s : State} {ok : Req → Bool} (ks : Keeps s0 s) : Keeps s0 (State.releaseSync s ok) := by
  unfold State.releaseSync
  with_reducible repeat' (first | assumption | intro _ | apply State.answer_keeps | apply State.updReq_keeps | apply State.each_keeps)

theorem State.goSolo_keeps {s0 : State} {s : State} {d : Nat} {rec : Bool} (ks : Keeps s0 s) : Keeps s0 (State.goSolo s d rec) := by
  unfold State.goSolo
  with_reducible repeat' (first | assumption | apply State.enterSolo_keeps | apply State.releaseSync_keeps)

theorem State.splitPair_keeps {s0 : State} {s : State} {d : Nat} (ks : Keeps s0 s) : Keeps s0 (State.splitPair s d) := by
  unfold State.splitPair
  with_reducible repeat' (first | assumption | apply State.releaseSync_keeps | apply State.unmatch_keeps)

theorem State.closeRun_keeps {s0 : State} {s : State} {u : Nat} (ks : Keeps s0 s) : Keeps s0 (State.closeRun s u) := by
  unfold State.closeRun
  with_reducible repeat' (first | assumption | (extract_lets +onlyGivenNames x; refine Keeps.have (Q := Keeps s0 x) ?_ ?_; dsimp -zeta -iota only [x]; clear x; rotate_left; clear_value x; revert x; intro _ _) | (extract_lets +onlyGivenNames x; clear_value x; revert x; intro _) | apply State.itemRecord_keeps | apply State.updUnit_keeps | split)

theorem State.itemFailed_keeps {s0 : State} {s : State} {u : Nat} {d : Nat} {line : Nat} (ks : Keeps s0 s) : Keeps s0 (State.itemFailed s u d line) := by
  unfold State.itemFailed
  with_reducible repeat' (first | assumption | intro _ | (extract_lets +onlyGivenNames x; refine Keeps.have (Q := Keeps s0 x) ?_ ?_; dsimp -zeta -iota only [x]; clear x; rotate_left; clear_value x; revert x; intro _ _) | (extract_lets +onlyGivenNames x; clear_value x; revert x; intro _) | apply Keeps.ite | apply State.itemRecord_keeps | apply State.updUnit_keeps | apply State.closeRun_keeps | (simp -zeta -iota only [Keeps.mk_iff]; apply KeepsMk.of (h1 := by simp) (h2 := by simp) (h3 := by simp)) | split)

theorem State.endEpisode_keeps {s0 : State} {s : State} {u : Nat} (ks : Keeps s0 s) : Keeps s0 (State.endEpisode s u) := by
  unfold State.endEpisode
  with_reducible repeat' (first | assumption | intro _ | (extract_lets +onlyGivenNames x; refine Keeps.have (Q := Keeps s0 x) ?_ ?_; dsimp -zeta -iota only [x]; clear x; rotate_left; clear_value x; revert x; intro _ _) | (extract_lets +onlyGivenNames x; clear_value x; revert x; intro _) | apply State.itemRecord_keeps | apply State.updUnit_keeps | apply State.closeRun_keeps | apply State.each_keeps)

theorem State.poisonLine_keeps {s0 : State} {s : State} {d : Nat} {line : Nat} (ks : Keeps s0 s) : Keeps s0 (State.poisonLine s d line) := by
  unfold State.poisonLine
  with_reducible repeat' (first | assumption | apply State.addPoison_keeps)

theorem State.buffer_keeps {s0 : State} {s : State} {c : Nat} {w : WbEntry} (ks : Keeps s0 s) : Keeps s0 (State.buffer s c w) := by
  unfold State.buffer
  with_reducible repeat' (first | assumption | apply State.updChan_keeps)

theorem State.poisonAt_keeps {s0 : State} {s : State} {d : Nat} {line : Nat} (ks : Keeps s0 s) : Keeps s0 (State.poisonAt s d line) := by
  unfold State.poisonAt
  with_reducible repeat' (first | assumption | intro _ | (extract_lets +onlyGivenNames x; clear_value x; revert x; intro _) | apply Keeps.ite | apply State.poisonLine_keeps | apply State.putRaw_keeps | apply State.addPoison_keeps | apply State.buffer_keeps)

theorem State.peerRefuse_keeps {s0 : State} {s : State} {l : Half} {sync : Bool} {peer : Nat} {line : Nat} {cause : Nat} (ks : Keeps s0 s) : Keeps s0 (State.peerRefuse s l sync peer line cause) := by
  unfold State.peerRefuse
  with_reducible repeat' (first | assumption | apply State.send_keeps)

theorem State.failReq_keeps {s0 : State} {s : State} {rid : Nat} {u : Nat} (ks : Keeps s0 s) : Keeps s0 (State.failReq s rid u) := by
  unfold State.failReq
  with_reducible repeat' (first | assumption | intro _ | (extract_lets +onlyGivenNames x; refine Keeps.have (Q := Keeps s0 x) ?_ ?_; dsimp -zeta -iota only [x]; clear x; rotate_left; clear_value x; revert x; intro _ _) | apply Keeps.ite | apply State.answer_keeps | apply State.peerRefuse_keeps | apply State.exclude_keeps | apply State.poisonAt_keeps | apply State.itemFailed_keeps | apply State.answerRead_keeps | split)

theorem State.alarm_keeps {s0 : State} {s : State} {cause : Nat} {unit : Nat} {d : Option Nat} {line : Option Nat} {port : Nat} {link : Nat} (ks : Keeps s0 s) : Keeps s0 (State.alarm s cause unit d line port link) := by
  unfold State.alarm
  with_reducible repeat' (first | assumption | (extract_lets +onlyGivenNames x; refine Keeps.have (Q := Keeps s0 x) ?_ ?_; dsimp -zeta -iota only [x]; clear x; rotate_left; clear_value x; revert x; intro _ _) | apply State.note_keeps | apply State.setFld_keeps)

theorem State.macFail_keeps {s0 : State} {s : State} {h : Half} {ma : Nat} {d : Nat} {line : Nat} (ks : Keeps s0 s) : Keeps s0 (State.macFail s h ma d line) := by
  unfold State.macFail
  with_reducible repeat' (first | assumption | (extract_lets +onlyGivenNames x; refine Keeps.have (Q := Keeps s0 x) ?_ ?_; dsimp -zeta -iota only [x]; clear x; rotate_left; clear_value x; revert x; intro _ _) | (extract_lets +onlyGivenNames x; clear_value x; revert x; intro _) | apply State.pulse_keeps | apply State.alarm_keeps | apply State.count_keeps)

theorem State.markNear_keeps {s0 : State} {s : State} {h : Half} {ma : Nat} {d : Nat} {line : Nat} (ks : Keeps s0 s) : Keeps s0 (State.markNear s h ma d line) := by
  unfold State.markNear
  with_reducible repeat' (first | assumption | intro _ | (extract_lets +onlyGivenNames x; clear_value x; revert x; intro _) | apply Keeps.ite | apply State.putRaw_keeps | apply State.addPoison_keeps)

end Sys2Proof.Machine
end

