-- ==== Sys2Proof/Laws/KeepMapCore.lean ====
section
/-! SUPPORT. The operations of Machine/MapCore.lean break nothing (Laws/Keeps.lean). -/

namespace Sys2Proof.Machine

theorem State.mcTouch_keeps {s0 : State} {s : State} {h : Half} {k : McKey} (ks : Keeps s0 s) : Keeps s0 (State.mcTouch s h k) := by
  unfold State.mcTouch
  with_reducible repeat' (first | assumption | (extract_lets +onlyGivenNames x; clear_value x; revert x; intro _) | (simp -zeta -iota only [Keeps.mk_iff]; apply KeepsMk.of (h1 := by simp) (h2 := by simp) (h3 := by simp)))

theorem State.putFlip_keeps {s0 : State} {s : State} {h : Half} {ma : Nat} (ks : Keeps s0 s) : Keeps s0 (State.putFlip s h ma) := by
  unfold State.putFlip
  with_reducible repeat' (first | assumption | intro _ | apply Keeps.ite | apply State.putBurst_keeps | apply State.countWrite_keeps)

theorem State.putMeta_keeps {s0 : State} {s : State} {h : Half} {k : McKey} (ks : Keeps s0 s) : Keeps s0 (State.putMeta s h k) := by
  unfold State.putMeta
  with_reducible repeat' (first | assumption | intro _ | apply State.putFlip_keeps | apply State.each_keeps)

theorem State.markDirty_keeps {s0 : State} {s : State} {h : Half} {k : McKey} (ks : Keeps s0 s) : Keeps s0 (State.markDirty s h k) := by
  unfold State.markDirty
  with_reducible repeat' (first | assumption | (simp -zeta -iota only [Keeps.mk_iff]; apply KeepsMk.of (h1 := by simp) (h2 := by simp) (h3 := by simp)))

theorem State.writeMeta_keeps {s0 : State} {a0 : Nat} {a1 : State} {a2 : Half} {a3 : McKey} (ka1 : Keeps s0 a1) : Keeps s0 (State.writeMeta a0 a1 a2 a3) := by
  induction a0 generalizing a1 a2 a3 with
  | zero => exact ka1
  | succ n ih =>
    unfold State.writeMeta
    with_reducible repeat' (first | apply ih | assumption | intro _ | (extract_lets +onlyGivenNames x; refine Keeps.have (Q := Keeps s0 x) ?_ ?_; dsimp -zeta -iota only [x]; clear x; rotate_left; clear_value x; revert x; intro _ _) | apply Keeps.ite | apply State.markDirty_keeps | apply State.putMeta_keeps | split)

theorem State.saveMeta_keeps {s0 : State} {s : State} {h : Half} {k : McKey} (ks : Keeps s0 s) : Keeps s0 (State.saveMeta s h k) := by
  unfold State.saveMeta
  with_reducible repeat' (first | assumption | intro _ | apply Keeps.ite | apply State.markDirty_keeps | apply State.writeMeta_keeps)

theorem State.savePage_keeps {s0 : State} {s : State} {d : Nat} {p : Nat} (ks : Keeps s0 s) : Keeps s0 (State.savePage s d p) := by
  unfold State.savePage
  with_reducible repeat' (first | assumption | intro _ | (extract_lets +onlyGivenNames x; clear_value x; revert x; intro _) | apply Keeps.ite | apply State.saveMeta_keeps)

theorem State.putTable_keeps {s0 : State} {s : State} {h : Half} {unit : Nat} {lines : Nat} (ks : Keeps s0 s) : Keeps s0 (State.putTable s h unit lines) := by
  unfold State.putTable
  with_reducible repeat' (first | assumption | intro _ | apply State.putFlip_keeps | apply State.each_keeps)

theorem State.mcFill_keeps {s0 : State} {s : State} {h : Half} {k : McKey} {victim : Nat} (ks : Keeps s0 s) : Keeps s0 (State.mcFill s h k victim) := by
  unfold State.mcFill
  with_reducible repeat' (first | assumption | intro _ | (extract_lets +onlyGivenNames x; refine Keeps.have (Q := Keeps s0 x) ?_ ?_; dsimp -zeta -iota only [x]; clear x; rotate_left; clear_value x; revert x; intro _ _) | (extract_lets +onlyGivenNames x; clear_value x; revert x; intro _) | apply Keeps.ite | apply State.mcTouch_keeps | apply State.writeMeta_keeps | (simp -zeta -iota only [Keeps.mk_iff]; apply KeepsMk.of (h1 := by simp) (h2 := by simp) (h3 := by simp)) | split)

theorem State.lock_keeps {s0 : State} {s : State} {h : Half} {d : Nat} {p : Nat} (ks : Keeps s0 s) : Keeps s0 (State.lock s h d p) := by
  unfold State.lock
  with_reducible repeat' (first | assumption | (simp -zeta -iota only [Keeps.mk_iff]; apply KeepsMk.of (h1 := by simp) (h2 := by simp) (h3 := by simp)))

theorem State.unlock_keeps {s0 : State} {s : State} {d : Nat} {p : Nat} (ks : Keeps s0 s) : Keeps s0 (State.unlock s d p) := by
  unfold State.unlock
  with_reducible repeat' (first | assumption | (simp -zeta -iota only [Keeps.mk_iff]; apply KeepsMk.of (h1 := by simp) (h2 := by simp) (h3 := by simp)))

theorem State.listPages_keeps {s0 : State} {s : State} {d : Nat} {p : Nat} {n : Nat} {retired : Bool} (ks : Keeps s0 s) : Keeps s0 (State.listPages s d p n retired) := by
  unfold State.listPages
  with_reducible repeat' (first | assumption | intro _ | (extract_lets +onlyGivenNames x; refine Keeps.have (Q := Keeps s0 x) ?_ ?_; dsimp -zeta -iota only [x]; clear x; rotate_left; clear_value x; revert x; intro _ _) | apply Keeps.ite | apply State.dataLost_keeps | apply State.addPoison_keeps)

theorem State.unlistPages_keeps {s0 : State} {s : State} {d : Nat} {p : Nat} {n : Nat} (ks : Keeps s0 s) : Keeps s0 (State.unlistPages s d p n) := by
  unfold State.unlistPages
  with_reducible repeat' (first | assumption | apply State.dropPoison_keeps)

theorem State.retireExt_keeps {s0 : State} {s : State} {d : Nat} {e00 : Nat} (ks : Keeps s0 s) : Keeps s0 (State.retireExt s d e00) := by
  unfold State.retireExt
  with_reducible repeat' (first | assumption | (extract_lets +onlyGivenNames x; clear_value x; revert x; intro _) | apply State.saveMeta_keeps | apply State.setExt_keeps | apply State.listPages_keeps)

theorem State.clearPages_keeps {s0 : State} {s : State} {d : Nat} {e00 : Nat} (ks : Keeps s0 s) : Keeps s0 (State.clearPages s d e00) := by
  unfold State.clearPages
  with_reducible repeat' (first | assumption | (simp -zeta -iota only [Keeps.mk_iff]; apply KeepsMk.of (h1 := by simp) (h2 := by simp) (h3 := by simp)))

theorem State.single_keeps {s0 : State} {s : State} {d : Nat} {unit : Nat} {page : Nat} {n : Nat} (ks : Keeps s0 s) : Keeps s0 (State.single s d unit page n) := by
  unfold State.single
  with_reducible repeat' (first | assumption | apply State.note_keeps)

theorem State.dropFlips_keeps {s0 : State} {s : State} {h : Half} {ma : Nat} {n : Nat} (ks : Keeps s0 s) : Keeps s0 (State.dropFlips s h ma n) := by
  unfold State.dropFlips
  rw [Keeps.mk_iff]
  exact KeepsMk.ofDramDrop ks rfl rfl rfl

theorem State.readTag_keeps {s0 : State} {s : State} {h : Half} {d : Nat} {line : Nat} {of_ : Option Of} {errs : List Burst} (ks : Keeps s0 s) : Keeps22 s0 (State.readTag s h d line of_ errs) := by
  unfold State.readTag
  with_reducible repeat' (first | assumption | intro _ | (extract_lets +onlyGivenNames x; clear_value x; revert x; intro _) | apply Keeps22.ite | apply State.mcFill_keeps | apply State.mcTouch_keeps | (refine (State.deviceRead_keeps ?_).out) | (simp -zeta -iota only [Keeps22.pair]) | split)

theorem State.fetchNear_keeps {s0 : State} {s : State} {h : Half} {d : Nat} {line : Nat} {ma : Nat} {errs : List Burst} (ks : Keeps s0 s) : Keeps222 s0 (State.fetchNear s h d line ma errs) := by
  unfold State.fetchNear
  with_reducible repeat' (first | assumption | intro _ | (extract_lets +onlyGivenNames x; refine Keeps.have (Q := Keeps s0 x) ?_ ?_; dsimp -zeta -iota only [x]; clear x; rotate_left; clear_value x; revert x; intro _ _) | apply Keeps222.ite | apply State.macFail_keeps | apply State.readTag_keeps | (refine (State.deviceRead_keeps ?_).out) | apply State.markNear_keeps | (simp -zeta -iota only [Keeps222.pair]) | (refine Keeps22.eq (by assumption) ?_) | split)

theorem State.giveTable_keeps {s0 : State} {s : State} {d : Nat} {e00 : Nat} {pick : Nat} {fill : Nat → Page} (ks : Keeps s0 s) : KeepsO s0 (State.giveTable s d e00 pick fill) := by
  unfold State.giveTable
  with_reducible repeat' (first | assumption | intro _ | (extract_lets +onlyGivenNames x; clear_value x; revert x; intro _) | apply State.single_keeps | apply State.saveMeta_keeps | apply State.setExt_keeps | apply State.setPage_keeps | apply State.putTable_keeps | apply State.alloc_keeps | apply KeepsO.none | apply KeepsO.some | apply State.each_keeps | (refine Keeps.eqQ (by assumption) ?_) | (refine Keeps.eqP (by assumption) ?_) | split)

theorem State.needArea_keeps {s0 : State} {s : State} {d : Nat} {e00 : Nat} (ks : Keeps s0 s) : KeepsO s0 (State.needArea s d e00) := by
  unfold State.needArea
  with_reducible repeat' (first | assumption | intro _ | (extract_lets +onlyGivenNames x; clear_value x; revert x; intro _) | apply KeepsO.ite | apply State.dropFlips_keeps | apply State.saveMeta_keeps | apply State.allocArea_keeps | apply KeepsO.some | apply KeepsO.map | (refine Keeps.eqQ (by assumption) ?_))

theorem State.saveCtr_keeps {s0 : State} {s : State} {h : Half} {d : Nat} {line : Nat} (ks : Keeps s0 s) : Keeps s0 (State.saveCtr s h d line) := by
  unfold State.saveCtr
  with_reducible repeat' (first | assumption | intro _ | apply Keeps.ite | apply State.saveMeta_keeps)

theorem State.storeNear_keeps {s0 : State} {s : State} {h : Half} {d : Nat} {line : Nat} {ma : Nat} {l : Line} {poison : Bool} {external : Bool} (ks : Keeps s0 s) : Keeps s0 (State.storeNear s h d line ma l poison external) := by
  unfold State.storeNear
  with_reducible repeat' (first | assumption | apply State.saveCtr_keeps | apply State.writeNear_keeps | apply State.countWrite_keeps)

theorem State.sealNear_keeps {s0 : State} {s : State} {h : Half} {d : Nat} {line : Nat} {ma : Nat} {l : Line} {poison : Bool} (ks : Keeps s0 s) : Keeps s0 (State.sealNear s h d line ma l poison) := by
  unfold State.sealNear
  with_reducible repeat' (first | assumption | intro _ | (extract_lets +onlyGivenNames x; refine Keeps.have (Q := Keeps s0 x) ?_ ?_; dsimp -zeta -iota only [x]; clear x; rotate_left; clear_value x; revert x; intro _ _) | apply Keeps.ite | apply State.seal_keeps | apply State.addPoison_keeps | apply State.saveCtr_keeps | apply State.dropPoison_keeps | apply State.countWrite_keeps)

theorem State.rollFresh_keeps {s0 : State} {s : State} {h : Half} {d : Nat} {page : Nat} {unit : Nat} (ks : Keeps s0 s) : Keeps1 s0 (State.rollFresh s h d page unit) := by
  unfold State.rollFresh
  with_reducible repeat' (first | assumption | intro _ | (extract_lets +onlyGivenNames x; clear_value x; revert x; intro _) | apply Keeps1.ite | apply State.pulse_keeps | apply State.note_keeps | apply State.putCtr_keeps | apply State.count_keeps | (simp -zeta -iota only [Keeps1.pair]))

theorem State.writePageLines_keeps {s0 : State} {s : State} {h : Half} {d : Nat} {page : Nat} {unit : Nat} {skip : Option Nat} {fill : Nat → Line × Bool} (ks : Keeps s0 s) : Keeps s0 (State.writePageLines s h d page unit skip fill) := by
  unfold State.writePageLines
  with_reducible repeat' (first | assumption | intro _ | (extract_lets +onlyGivenNames x; clear_value x; revert x; intro _) | apply Keeps.ite | (refine (State.rollFresh_keeps ?_).out) | apply State.sealNear_keeps | apply State.storeNear_keeps | apply State.each_keeps)

theorem State.writeFrameLines_keeps {s0 : State} {s : State} {h : Half} {d : Nat} {e00 : Nat} {unit : Nat} {skip : Option Nat} {fill : Nat → Line × Bool} (ks : Keeps s0 s) : Keeps s0 (State.writeFrameLines s h d e00 unit skip fill) := by
  unfold State.writeFrameLines
  with_reducible repeat' (first | assumption | intro _ | (extract_lets +onlyGivenNames x; clear_value x; revert x; intro _) | apply State.writePageLines_keeps | apply State.each_keeps)

theorem State.makeNear_keeps {s0 : State} {s : State} {d : Nat} {p : Nat} {pick : Nat} {skip : Option Nat} (ks : Keeps s0 s) : KeepsO s0 (State.makeNear s d p pick skip) := by
  unfold State.makeNear
  with_reducible repeat' (first | assumption | intro _ | (extract_lets +onlyGivenNames x; refine Keeps.have (Q := KeepsO s0 x) ?_ ?_; dsimp -zeta -iota only [x]; clear x; rotate_left; clear_value x; revert x; intro _ _) | (extract_lets +onlyGivenNames x; refine Keeps.isFun x ?_; dsimp -zeta -iota only [x]; clear x) | (extract_lets +onlyGivenNames x; clear_value x; revert x; intro _) | apply KeepsO.ite | apply State.writeFrameLines_keeps | apply State.saveMeta_keeps | apply State.setExt_keeps | apply State.writePageLines_keeps | apply State.unlistPages_keeps | apply State.setPage_keeps | apply State.needArea_keeps | apply State.alloc_keeps | apply State.giveTable_keeps | apply KeepsO.none | apply KeepsO.some | apply KeepsO.map | apply KeepsO.bind | (refine Keeps.eqQ (by assumption) ?_) | (refine Keeps.eqO (by assumption) ?_) | split)

theorem State.refusePage_keeps {s0 : State} {s : State} {d : Nat} {p : Nat} (ks : Keeps s0 s) : Keeps1 s0 (State.refusePage s d p) := by
  unfold State.refusePage
  with_reducible repeat' (first | assumption | intro _ | (extract_lets +onlyGivenNames x; clear_value x; revert x; intro _) | apply Keeps1.ite | apply State.retireExt_keeps | apply State.savePage_keeps | apply State.setPage_keeps | apply State.listPages_keeps | apply State.giveTable_keeps | (simp -zeta -iota only [Keeps1.pair]) | (refine Keeps.eqO (by assumption) ?_) | split)

theorem State.noMedia_keeps {s0 : State} {s : State} {d : Nat} {p : Nat} {how : Grant} (ks : Keeps s0 s) : Keeps s0 (State.noMedia s d p how) := by
  unfold State.noMedia
  with_reducible repeat' (first | assumption | intro _ | (extract_lets +onlyGivenNames x; refine Keeps.have (Q := Keeps s0 x) ?_ ?_; dsimp -zeta -iota only [x]; clear x; rotate_left; clear_value x; revert x; intro _ _) | (extract_lets +onlyGivenNames x; refine Keeps.have (Q := Keeps1 s0 x) ?_ ?_; dsimp -zeta -iota only [x]; clear x; rotate_left; clear_value x; revert x; intro _ _) | (extract_lets +onlyGivenNames x; clear_value x; revert x; intro _) | apply Keeps.ite | apply State.note_keeps | apply State.lostWrite_keeps | apply State.refusePage_keeps | apply State.settle_keeps | apply State.ceilingReached_keeps | apply State.eventLog_keeps | (exact Keeps1.out (by assumption)) | split)

theorem State.media__keeps {s0 : State} {s : State} {d : Nat} {p : Nat} {pick : Nat} {skip : Option Nat} (ks : Keeps s0 s) : KeepsM s0 (State.media_ s d p pick skip) := by
  unfold State.media_
  with_reducible repeat' (first | assumption | (extract_lets +onlyGivenNames x; clear_value x; revert x; intro _) | apply State.noMedia_keeps | apply State.makeNear_keeps | apply State.settle_keeps | (simp -zeta -iota only [KeepsM.near, KeepsM.refused]) | (refine Keeps.eqO (by assumption) ?_) | split)

theorem State.orphanPage_keeps {s0 : State} {s : State} {d : Nat} {p : Nat} (ks : Keeps s0 s) : Keeps s0 (State.orphanPage s d p) := by
  unfold State.orphanPage
  with_reducible repeat' (first | assumption | (extract_lets +onlyGivenNames x; clear_value x; revert x; intro _) | (simp -zeta -iota only [Keeps.mk_iff]; apply KeepsMk.of (h1 := by simp) (h2 := by simp) (h3 := by simp)) | split)

theorem State.loseDesc_keeps {s0 : State} {s : State} {d : Nat} {e00 : Nat} (ks : Keeps s0 s) : Keeps s0 (State.loseDesc s d e00) := by
  unfold State.loseDesc
  with_reducible repeat' (first | assumption | intro _ | (extract_lets +onlyGivenNames x; refine Keeps.have (Q := Keeps s0 x) ?_ ?_; dsimp -zeta -iota only [x]; clear x; rotate_left; clear_value x; revert x; intro _ _) | apply Keeps.ite | apply State.retireExt_keeps | apply State.orphanPage_keeps | apply State.clearPages_keeps | apply State.each_keeps | (simp -zeta -iota only [Keeps.mk_iff]; apply KeepsMk.of (h1 := by simp) (h2 := by simp) (h3 := by simp)))

theorem State.metaLost_keeps {s0 : State} {s : State} {k : McKey} {bad : List Nat} (ks : Keeps s0 s) : Keeps s0 (State.metaLost s k bad) := by
  unfold State.metaLost
  with_reducible repeat' (first | assumption | intro _ | (extract_lets +onlyGivenNames x; refine Keeps.have (Q := Keeps s0 x) ?_ ?_; dsimp -zeta -iota only [x]; clear x; rotate_left; clear_value x; revert x; intro _ _) | (extract_lets +onlyGivenNames x; clear_value x; revert x; intro _) | apply State.orphanPage_keeps | apply State.setFlag_keeps | apply State.loseDesc_keeps | apply State.note_keeps | apply State.saveMeta_keeps | apply State.dataLost_keeps | apply State.settle_keeps | apply State.setPage_keeps | apply State.listPages_keeps | apply State.count_keeps | apply State.each_keeps | split)

theorem State.readCopy_keeps {s0 : State} {s : State} {h : Half} {k : McKey} {ma : Nat} {errs : List Burst} {comber : Bool} (ks : Keeps s0 s) : Keeps2 s0 (State.readCopy s h k ma errs comber) := by
  unfold State.readCopy
  with_reducible repeat' (first | assumption | intro _ | (extract_lets +onlyGivenNames x; clear_value x; revert x; intro _) | apply Keeps2.ite | (refine (State.deviceRead_keeps ?_).out) | (simp -zeta -iota only [Keeps2.pair]))

theorem State.noteCopy_keeps {s0 : State} {s : State} {h : Half} {ma : Nat} {name : Nat} {comber : Bool} (ks : Keeps s0 s) : Keeps s0 (State.noteCopy s h ma name comber) := by
  unfold State.noteCopy
  with_reducible repeat' (first | assumption | apply State.note_keeps)

theorem State.readFrom_keeps {s0 : State} {s : State} {h : Half} {k : McKey} {a : Nat} {others : List Nat} {errs : List Burst} {comber : Bool} (ks : Keeps s0 s) : Keeps22 s0 (State.readFrom s h k a others errs comber) := by
  unfold State.readFrom
  with_reducible repeat' (first | assumption | intro _ | (extract_lets +onlyGivenNames x; refine Keeps.have (Q := Keeps s0 x) ?_ ?_; dsimp -zeta -iota only [x]; clear x; rotate_left; clear_value x; revert x; intro _ _) | apply Keeps.ite | apply Keeps22.ite | apply State.putFlip_keeps | apply State.noteCopy_keeps | apply State.note_keeps | apply State.metaLost_keeps | (refine (State.readCopy_keeps ?_).out) | apply State.count_keeps | (simp -zeta -iota only [Keeps22.pair]) | split)

theorem State.readMeta_keeps {s0 : State} {s : State} {h : Half} {k : McKey} {errs : List Burst} (ks : Keeps s0 s) : Keeps22 s0 (State.readMeta s h k errs) := by
  unfold State.readMeta
  with_reducible repeat' (first | assumption | apply State.metaLost_keeps | apply State.readFrom_keeps | (simp -zeta -iota only [Keeps22.pair]) | split)

end Sys2Proof.Machine
end

