-- ==== Sys2Proof/Laws/KeepDrainCore.lean ====
section
/-! SUPPORT. The operations of Machine/DrainCore.lean break nothing (Laws/Keeps.lean). -/

namespace Sys2Proof.Machine

theorem State.fenceDiscard_keeps {s0 : State} {s : State} {d : Nat} {line : Nat} (ks : Keeps s0 s) : Keeps s0 (State.fenceDiscard s d line) := by
  unfold State.fenceDiscard
  with_reducible repeat' (first | assumption | apply State.updProt_keeps)

theorem State.mergeEntry_keeps {s0 : State} {s : State} {h : Half} {w : WbEntry} {errs : List Burst} (ks : Keeps s0 s) : Keeps222 s0 (State.mergeEntry s h w errs) := by
  unfold State.mergeEntry
  with_reducible repeat' (first | assumption | intro _ | apply Keeps222.ite | apply State.freeLine_keeps | (refine (State.fetchNear_keeps ?_).out) | (simp -zeta -iota only [Keeps222.pair]) | (refine Keeps2.eq (by assumption) ?_) | split)

theorem State.rollover_keeps {s0 : State} {s : State} {h : Half} {w : WbEntry} {errs : List Burst} (ks : Keeps s0 s) : Keeps s0 (State.rollover s h w errs) := by
  unfold State.rollover
  with_reducible repeat' (first | assumption | intro _ | (extract_lets +onlyGivenNames x; refine Keeps.have (Q := Keeps s0 x) ?_ ?_; dsimp -zeta -iota only [x]; clear x; rotate_left; clear_value x; revert x; intro _ _) | (extract_lets +onlyGivenNames x; refine Keeps.have (Q := Keeps22 s0 x) ?_ ?_; dsimp -zeta -iota only [x]; clear x; rotate_left; clear_value x; revert x; intro _ _) | (extract_lets +onlyGivenNames x; refine Keeps.have (Q := Keeps222 s0 x) ?_ ?_; dsimp -zeta -iota only [x]; clear x; rotate_left; clear_value x; revert x; intro _ _) | (extract_lets +onlyGivenNames x; clear_value x; revert x; intro _) | apply Keeps22.ite | apply State.pulse_keeps | apply State.putCtr_keeps | apply State.sealNear_keeps | apply State.mergeEntry_keeps | apply State.fetchNear_keeps | apply State.count_keeps | (simp -zeta -iota only [Keeps22.pair]) | apply State.each_keeps | apply Keeps22.foldl | (exact Keeps22.out (by assumption)) | (exact Keeps222.out (by assumption)))

theorem State.drainEntry_keeps {s0 : State} {s : State} {h : Half} {w : WbEntry} {errs : List Burst} (ks : Keeps s0 s) : Keeps s0 (State.drainEntry s h w errs) := by
  unfold State.drainEntry
  with_reducible repeat' (first | assumption | intro _ | (extract_lets +onlyGivenNames x; refine Keeps.have (Q := Keeps s0 x) ?_ ?_; dsimp -zeta -iota only [x]; clear x; rotate_left; clear_value x; revert x; intro _ _) | (extract_lets +onlyGivenNames x; clear_value x; revert x; intro _) | apply Keeps.ite | apply State.pulse_keeps | apply State.updChan_keeps | apply State.note_keeps | apply State.fenceDiscard_keeps | apply State.seal_keeps | apply State.rollover_keeps | (refine (State.mergeEntry_keeps ?_).out) | apply State.countWrite_keeps | apply State.storeNear_keeps | split)

theorem State.flushAll_keeps {s0 : State} {s : State} (ks : Keeps s0 s) : Keeps s0 (State.flushAll s) := by
  unfold State.flushAll
  with_reducible repeat' (first | assumption | intro _ | apply State.drainEntry_keeps | apply State.each_keeps)

end Sys2Proof.Machine
end

