-- ==== Sys2Proof/Laws/KeepTideCore.lean ====
section
/-! SUPPORT. The operations of Machine/TideCore.lean break nothing (Laws/Keeps.lean). -/

namespace Sys2Proof.Machine

theorem State.qualTally_keeps {s0 : State} {s : State} (ks : Keeps s0 s) : Keeps s0 (State.qualTally s) := by
  unfold State.qualTally
  with_reducible repeat' (first | assumption | (extract_lets +onlyGivenNames x; refine Keeps.isFun x ?_; dsimp -zeta -iota only [x]; clear x) | apply State.setFld_keeps)

theorem State.setAdj_keeps {s0 : State} {s : State} {n : Int} (ks : Keeps s0 s) : Keeps s0 (State.setAdj s n) := by
  unfold State.setAdj
  with_reducible repeat' (first | assumption | apply State.setFld_keeps)

theorem State.slew_keeps {s0 : State} {s : State} {off : Int} (ks : Keeps s0 s) : Keeps s0 (State.slew s off) := by
  unfold State.slew
  with_reducible repeat' (first | assumption | intro _ | (extract_lets +onlyGivenNames x; clear_value x; revert x; intro _) | apply Keeps.ite | apply State.setAdj_keeps | (refine (State.freeNat_keeps ?_).out))

theorem State.tideState_keeps {s0 : State} {s : State} {new : Nat} (ks : Keeps s0 s) : Keeps s0 (State.tideState s new) := by
  unfold State.tideState
  with_reducible repeat' (first | assumption | intro _ | (extract_lets +onlyGivenNames x; refine Keeps.have (Q := Keeps s0 x) ?_ ?_; dsimp -zeta -iota only [x]; clear x; rotate_left; clear_value x; revert x; intro _ _) | (extract_lets +onlyGivenNames x; clear_value x; revert x; intro _) | apply Keeps.ite | apply State.setFlag_keeps | apply State.setAdj_keeps | apply State.toFm_keeps | apply State.setFld_keeps | (simp -zeta -iota only [Keeps.mk_iff]; apply KeepsMk.of (h1 := by simp) (h2 := by simp) (h3 := by simp)))

theorem State.holdoverEnd_keeps {s0 : State} {s : State} (ks : Keeps s0 s) : Keeps s0 (State.holdoverEnd s) := by
  unfold State.holdoverEnd
  with_reducible repeat' (first | assumption | intro _ | apply Keeps.ite | apply State.setFlag_keeps | apply State.tideState_keeps)

theorem State.useSource_keeps {s0 : State} {s : State} {k : Nat} (ks : Keeps s0 s) : Keeps s0 (State.useSource s k) := by
  unfold State.useSource
  with_reducible repeat' (first | assumption | (extract_lets +onlyGivenNames x; refine Keeps.have (Q := Keeps s0 x) ?_ ?_; dsimp -zeta -iota only [x]; clear x; rotate_left; clear_value x; revert x; intro _ _) | (extract_lets +onlyGivenNames x; clear_value x; revert x; intro _) | apply State.setFld_keeps | (simp -zeta -iota only [Keeps.mk_iff]; apply KeepsMk.of (h1 := by simp) (h2 := by simp) (h3 := by simp)))

theorem State.reselect_keeps {s0 : State} {s : State} {lost : Bool} (ks : Keeps s0 s) : Keeps s0 (State.reselect s lost) := by
  unfold State.reselect
  with_reducible repeat' (first | assumption | intro _ | (extract_lets +onlyGivenNames x; refine Keeps.have (Q := Keeps s0 x) ?_ ?_; dsimp -zeta -iota only [x]; clear x; rotate_left; clear_value x; revert x; intro _ _) | (extract_lets +onlyGivenNames x; clear_value x; revert x; intro _) | apply Keeps.ite | apply State.setFlag_keeps | apply State.tideState_keeps | apply State.setFld_keeps | apply State.holdoverEnd_keeps | apply State.useSource_keeps | split)

theorem State.loseSource_keeps {s0 : State} {s : State} {k : Nat} (ks : Keeps s0 s) : Keeps s0 (State.loseSource s k) := by
  unfold State.loseSource
  with_reducible repeat' (first | assumption | (extract_lets +onlyGivenNames x; refine Keeps.have (Q := Keeps s0 x) ?_ ?_; dsimp -zeta -iota only [x]; clear x; rotate_left; clear_value x; revert x; intro _ _) | apply State.reselect_keeps | apply State.qualTally_keeps | (simp -zeta -iota only [Keeps.mk_iff]; apply KeepsMk.of (h1 := by simp) (h2 := by simp) (h3 := by simp)))

end Sys2Proof.Machine
end

