-- ==== Sys2Proof/Laws/KeepLinkCore.lean ====
section
/-! SUPPORT. The operations of Machine/LinkCore.lean break nothing (Laws/Keeps.lean). -/

namespace Sys2Proof.Machine

theorem State.updSf_keeps {s0 : State} {s : State} {d : Nat} {line : Nat} {f : SfEntry → SfEntry} (ks : Keeps s0 s) : Keeps s0 (State.updSf s d line f) := by
  unfold State.updSf
  with_reducible repeat' (first | assumption | (extract_lets +onlyGivenNames x; clear_value x; revert x; intro _) | (simp -zeta -iota only [Keeps.mk_iff]; apply KeepsMk.of (h1 := by simp) (h2 := by simp) (h3 := by simp)))

theorem State.sfTally_keeps {s0 : State} {s : State} {h : Half} (ks : Keeps s0 s) : Keeps s0 (State.sfTally s h) := by
  unfold State.sfTally
  with_reducible repeat' (first | assumption | apply State.setFld_keeps)

theorem State.sfTouch_keeps {s0 : State} {s : State} {h : Half} {d : Nat} {line : Nat} (ks : Keeps s0 s) : Keeps s0 (State.sfTouch s h d line) := by
  unfold State.sfTouch
  with_reducible repeat' (first | assumption | (extract_lets +onlyGivenNames x; clear_value x; revert x; intro _) | (simp -zeta -iota only [Keeps.mk_iff]; apply KeepsMk.of (h1 := by simp) (h2 := by simp) (h3 := by simp)))

theorem State.invalidate_keeps {s0 : State} {s : State} {d : Nat} {line : Nat} {hosts : List Nat} {data : Bool} {evict : Bool} (ks : Keeps s0 s) : Keeps s0 (State.invalidate s d line hosts data evict) := by
  unfold State.invalidate
  with_reducible repeat' (first | assumption | apply State.updSf_keeps)

theorem State.sfTake_keeps {s0 : State} {s : State} {h : Half} {d : Nat} {line : Nat} {victim : Nat} {owned : Bool} {holder : Nat} (ks : Keeps s0 s) : Keeps1 s0 (State.sfTake s h d line victim owned holder) := by
  unfold State.sfTake
  with_reducible repeat' (first | assumption | intro _ | (extract_lets +onlyGivenNames x; refine Keeps.isFun x ?_; dsimp -zeta -iota only [x]; clear x) | (extract_lets +onlyGivenNames x; clear_value x; revert x; intro _) | apply Keeps1.ite | apply State.pulse_keeps | apply State.sfTally_keeps | apply State.invalidate_keeps | apply State.sfTouch_keeps | (simp -zeta -iota only [Keeps1.pair]) | (simp -zeta -iota only [Keeps.mk_iff]; apply KeepsMk.of (h1 := by simp) (h2 := by simp) (h3 := by simp)) | split)

theorem State.snoopStep_keeps {s0 : State} {s : State} {r : Req} {victim : Nat} (ks : Keeps s0 s) : Keeps1 s0 (State.snoopStep s r victim) := by
  unfold State.snoopStep
  with_reducible repeat' (first | assumption | intro _ | (extract_lets +onlyGivenNames x; refine Keeps.have (Q := Keeps s0 x) ?_ ?_; dsimp -zeta -iota only [x]; clear x; rotate_left; clear_value x; revert x; intro _ _) | (extract_lets +onlyGivenNames x; clear_value x; revert x; intro _) | apply Keeps.ite | apply Keeps1.ite | apply State.invalidate_keeps | apply State.updSf_keeps | apply State.sfTake_keeps | apply State.sfTouch_keeps | (simp -zeta -iota only [Keeps1.pair]) | (refine Keeps1.eq (by assumption) ?_) | split)

theorem State.biAnswer_keeps {s0 : State} {s : State} {d : Nat} {line : Nat} {host : Nat} {keeps : Bool} (ks : Keeps s0 s) : Keeps1 s0 (State.biAnswer s d line host keeps) := by
  unfold State.biAnswer
  with_reducible repeat' (first | assumption | intro _ | (extract_lets +onlyGivenNames x; refine Keeps.have (Q := Keeps s0 x) ?_ ?_; dsimp -zeta -iota only [x]; clear x; rotate_left; clear_value x; revert x; intro _ _) | (extract_lets +onlyGivenNames x; clear_value x; revert x; intro _) | apply Keeps1.ite | apply State.sfTally_keeps | apply State.updSf_keeps | (simp -zeta -iota only [Keeps1.pair]) | split)

theorem State.wakeLine_keeps {s0 : State} {s : State} {d : Nat} {line : Nat} (ks : Keeps s0 s) : Keeps s0 (State.wakeLine s d line) := by
  unfold State.wakeLine
  with_reducible repeat' (first | assumption | (simp -zeta -iota only [Keeps.mk_iff]; apply KeepsMk.of (h1 := by simp) (h2 := by simp) (h3 := by simp)))

theorem State.wakeEvict_keeps {s0 : State} {s : State} {h : Half} (ks : Keeps s0 s) : Keeps s0 (State.wakeEvict s h) := by
  unfold State.wakeEvict
  with_reducible repeat' (first | assumption | intro _ | apply Keeps.ite | (simp -zeta -iota only [Keeps.mk_iff]; apply KeepsMk.of (h1 := by simp) (h2 := by simp) (h3 := by simp)))

theorem State.logAbort_keeps {s0 : State} {s : State} {j : Job} {status : Nat} (ks : Keeps s0 s) : Keeps s0 (State.logAbort s j status) := by
  unfold State.logAbort
  with_reducible repeat' (first | assumption | (extract_lets +onlyGivenNames x; refine Keeps.have (Q := Keeps s0 x) ?_ ?_; dsimp -zeta -iota only [x]; clear x; rotate_left; clear_value x; revert x; intro _ _) | apply State.setFlag_keeps | apply State.setFld_keeps | split)

theorem State.abortJobs_keeps {s0 : State} {s : State} {fn : Nat} {status : Nat} (ks : Keeps s0 s) : Keeps s0 (State.abortJobs s fn status) := by
  unfold State.abortJobs
  with_reducible repeat' (first | assumption | intro _ | (extract_lets +onlyGivenNames x; refine Keeps.have (Q := Keeps s0 x) ?_ ?_; dsimp -zeta -iota only [x]; clear x; rotate_left; clear_value x; revert x; intro _ _) | (extract_lets +onlyGivenNames x; clear_value x; revert x; intro _) | apply State.pulse_keeps | apply State.setFld_keeps | apply State.logAbort_keeps | apply State.each_keeps | (simp -zeta -iota only [Keeps.mk_iff]; apply KeepsMk.of (h1 := by simp) (h2 := by simp) (h3 := by simp)))

theorem State.updRing_keeps {s0 : State} {s : State} {fn : Nat} {r : Nat} {f : Ring → Ring} (ks : Keeps s0 s) : Keeps s0 (State.updRing s fn r f) := by
  unfold State.updRing
  with_reducible repeat' (first | assumption | (simp -zeta -iota only [Keeps.mk_iff]; apply KeepsMk.of (h1 := by simp) (h2 := by simp) (h3 := by simp)))

theorem State.stopRings_keeps {s0 : State} {s : State} {fn : Nat} (ks : Keeps s0 s) : Keeps s0 (State.stopRings s fn) := by
  unfold State.stopRings
  with_reducible repeat' (first | assumption | intro _ | (extract_lets +onlyGivenNames x; refine Keeps.have (Q := Keeps s0 x) ?_ ?_; dsimp -zeta -iota only [x]; clear x; rotate_left; clear_value x; revert x; intro _ _) | (extract_lets +onlyGivenNames x; clear_value x; revert x; intro _) | apply State.setFld_keeps | apply State.abortJobs_keeps | apply State.updRing_keeps | apply State.each_keeps)

theorem State.clearBar0_keeps {s0 : State} {s : State} {fn : Nat} (ks : Keeps s0 s) : Keeps s0 (State.clearBar0 s fn) := by
  unfold State.clearBar0
  with_reducible repeat' (first | assumption | (extract_lets +onlyGivenNames x; clear_value x; revert x; intro _) | (simp -zeta -iota only [Keeps.mk_iff]; apply KeepsMk.ofDrop (h1 := by simp) (h2 := by simp) (h3 := by simp)))

theorem State.startFlr_keeps {s0 : State} {s : State} {fn : Nat} (ks : Keeps s0 s) : Keeps s0 (State.startFlr s fn) := by
  unfold State.startFlr
  with_reducible repeat' (first | assumption | (extract_lets +onlyGivenNames x; refine Keeps.have (Q := Keeps s0 x) ?_ ?_; dsimp -zeta -iota only [x]; clear x; rotate_left; clear_value x; revert x; intro _ _) | apply State.abortJobs_keeps | apply State.updFunc_keeps)

theorem State.resetFunc_keeps {s0 : State} {s : State} {fn : Nat} (ks : Keeps s0 s) : Keeps s0 (State.resetFunc s fn) := by
  unfold State.resetFunc
  with_reducible repeat' (first | assumption | (extract_lets +onlyGivenNames x; clear_value x; revert x; intro _) | apply State.clearBar0_keeps | (simp -zeta -iota only [Keeps.mk_iff]; apply KeepsMk.of (h1 := by simp) (h2 := by simp) (h3 := by simp)))

theorem State.dropHosts_keeps {s0 : State} {s : State} {p : Nat} {e00 : SfEntry} (ks : Keeps s0 s) : Keeps s0 (State.dropHosts s p e00) := by
  unfold State.dropHosts
  with_reducible repeat' (first | assumption | intro _ | (extract_lets +onlyGivenNames x; refine Keeps.have (Q := Keeps s0 x) ?_ ?_; dsimp -zeta -iota only [x]; clear x; rotate_left; clear_value x; revert x; intro _ _) | (extract_lets +onlyGivenNames x; refine Keeps.isFun x ?_; dsimp -zeta -iota only [x]; clear x) | (extract_lets +onlyGivenNames x; clear_value x; revert x; intro _) | apply Keeps.ite | apply State.updSf_keeps | apply State.wakeLine_keeps | apply State.poisonAt_keeps)

theorem State.linkLost_keeps {s0 : State} {s : State} {p : Nat} (ks : Keeps s0 s) : Keeps s0 (State.linkLost s p) := by
  unfold State.linkLost
  with_reducible repeat' (first | assumption | intro _ | (extract_lets +onlyGivenNames x; refine Keeps.have (Q := Keeps s0 x) ?_ ?_; dsimp -zeta -iota only [x]; clear x; rotate_left; clear_value x; revert x; intro _ _) | (extract_lets +onlyGivenNames x; clear_value x; revert x; intro _) | apply Keeps.ite | apply State.setFlag_keeps | apply State.sfTally_keeps | apply State.toFm_keeps | apply State.eventRecord_keeps | apply State.abortJobs_keeps | apply State.updFunc_keeps | apply State.reqTally_keeps | apply State.wakeEvict_keeps | apply State.dropHosts_keeps | apply State.resetFunc_keeps | apply State.updPort_keeps | apply State.each_keeps | (simp -zeta -iota only [Keeps.mk_iff]; apply KeepsMk.of (h1 := by simp) (h2 := by simp) (h3 := by simp)))

theorem State.lastAnswers_keeps {s0 : State} {s : State} {l : Half} (ks : Keeps s0 s) : Keeps s0 (State.lastAnswers s l) := by
  unfold State.lastAnswers
  with_reducible repeat' (first | assumption | intro _ | (extract_lets +onlyGivenNames x; refine Keeps.have (Q := Keeps s0 x) ?_ ?_; dsimp -zeta -iota only [x]; clear x; rotate_left; clear_value x; revert x; intro _ _) | (extract_lets +onlyGivenNames x; clear_value x; revert x; intro _) | apply Keeps.ite | apply State.setFld_keeps | apply State.mirSay_keeps | apply State.setDirty_keeps | apply State.count_keeps | apply State.each_keeps | (simp -zeta -iota only [Keeps.mk_iff]; apply KeepsMk.of (h1 := by simp) (h2 := by simp) (h3 := by simp)) | split)

theorem State.straitIdle_keeps {s0 : State} {s : State} {i : Nat} (ks : Keeps s0 s) : Keeps s0 (State.straitIdle s i) := by
  unfold State.straitIdle
  with_reducible repeat' (first | assumption | intro _ | (extract_lets +onlyGivenNames x; refine Keeps.have (Q := Keeps s0 x) ?_ ?_; dsimp -zeta -iota only [x]; clear x; rotate_left; clear_value x; revert x; intro _ _) | apply State.setReg_keeps | apply State.setFlag_keeps | apply State.setFld_keeps | apply State.each_keeps)

theorem State.straitDown_keeps {s0 : State} {s : State} {l : Half} {cause : Nat} {next : Nat} (ks : Keeps s0 s) : Keeps s0 (State.straitDown s l cause next) := by
  unfold State.straitDown
  with_reducible repeat' (first | assumption | intro _ | (extract_lets +onlyGivenNames x; refine Keeps.have (Q := Keeps s0 x) ?_ ?_; dsimp -zeta -iota only [x]; clear x; rotate_left; clear_value x; revert x; intro _ _) | (extract_lets +onlyGivenNames x; clear_value x; revert x; intro _) | apply Keeps.ite | apply State.setFlag_keeps | apply State.loseSource_keeps | apply State.note_keeps | apply State.straitIdle_keeps | apply State.lastAnswers_keeps | apply State.toFm_keeps | apply State.splitPair_keeps | apply State.setFld_keeps | apply State.dropPages_keeps | apply State.mirTally_keeps | apply State.count_keeps | apply State.updProt_keeps | apply State.each_keeps | (simp -zeta -iota only [Keeps.mk_iff]; apply KeepsMk.of (h1 := by simp) (h2 := by simp) (h3 := by simp)) | split)

end Sys2Proof.Machine
end

