-- ==== Sys2Proof/Laws/KeepFence.lean ====
section
/-! SUPPORT. The operations of Machine/Fence.lean break nothing (Laws/Keeps.lean). -/

namespace Sys2Proof.Machine

theorem State.fenceTally_keeps {s0 : State} {s : State} {h : Half} (ks : Keeps s0 s) : Keeps s0 (State.fenceTally s h) := by
  unfold State.fenceTally
  with_reducible repeat' (first | assumption | (extract_lets +onlyGivenNames x; clear_value x; revert x; intro _) | apply State.setFlag_keeps | apply State.setFld_keeps)

theorem State.updSubtree_keeps {s0 : State} {s : State} {d : Nat} {level : Nat} {idx : Nat} {f : Subtree → Subtree} (ks : Keeps s0 s) : Keeps s0 (State.updSubtree s d level idx f) := by
  unfold State.updSubtree
  with_reducible repeat' (first | assumption | apply State.updProt_keeps)

theorem State.fenceSubtree_keeps {s0 : State} {s : State} {d : Nat} {level : Nat} {idx : Nat} (ks : Keeps s0 s) : Keeps s0 (State.fenceSubtree s d level idx) := by
  unfold State.fenceSubtree
  with_reducible repeat' (first | assumption | intro _ | (extract_lets +onlyGivenNames x; refine Keeps.have (Q := Keeps s0 x) ?_ ?_; dsimp -zeta -iota only [x]; clear x; rotate_left; clear_value x; revert x; intro _ _) | (extract_lets +onlyGivenNames x; clear_value x; revert x; intro _) | apply Keeps.ite | apply State.fenceTally_keeps | apply State.note_keeps | apply State.updSubtree_keeps | apply State.answerRead_keeps | apply State.count_keeps | apply State.updProt_keeps | apply State.send_keeps | apply State.each_keeps)

theorem State.loseNode_keeps {s0 : State} {s : State} {d : Nat} {level : Nat} {idx : Nat} (ks : Keeps s0 s) : Keeps s0 (State.loseNode s d level idx) := by
  unfold State.loseNode
  with_reducible repeat' (first | assumption | apply State.updProt_keeps)

theorem State.nodeLost_keeps {s0 : State} {s : State} {d : Nat} {level : Nat} {idx : Nat} {badTag : Bool} (ks : Keeps s0 s) : Keeps s0 (State.nodeLost s d level idx badTag) := by
  unfold State.nodeLost
  with_reducible repeat' (first | assumption | intro _ | (extract_lets +onlyGivenNames x; refine Keeps.have (Q := Keeps s0 x) ?_ ?_; dsimp -zeta -iota only [x]; clear x; rotate_left; clear_value x; revert x; intro _ _) | (extract_lets +onlyGivenNames x; clear_value x; revert x; intro _) | apply Keeps.ite | apply State.loseNode_keeps | apply State.fenceSubtree_keeps | apply State.alarm_keeps | apply State.count_keeps)

theorem State.failAll_keeps {s0 : State} {s : State} {u : Nat} {p : Req → Bool} (ks : Keeps s0 s) : Keeps s0 (State.failAll s u p) := by
  unfold State.failAll
  with_reducible repeat' (first | assumption | intro _ | apply State.failReq_keeps | apply State.each_keeps)

theorem State.failCrossing_keeps {s0 : State} {s : State} {u : Nat} (ks : Keeps s0 s) : Keeps s0 (State.failCrossing s u) := by
  unfold State.failCrossing
  with_reducible repeat' (first | assumption | intro _ | apply Keeps.ite | apply State.finishReq_keeps | apply State.itemFailed_keeps | apply State.each_keeps)

theorem State.compBusy_keeps {s0 : State} {s : State} {h : Half} (ks : Keeps s0 s) : Keeps s0 (State.compBusy s h) := by
  unfold State.compBusy
  with_reducible repeat' (first | assumption | apply State.setFld_keeps)

theorem State.dropComp_keeps {s0 : State} {s : State} {h : Half} {j : CompJob} (ks : Keeps s0 s) : Keeps s0 (State.dropComp s h j) := by
  unfold State.dropComp
  with_reducible repeat' (first | assumption | (extract_lets +onlyGivenNames x; refine Keeps.have (Q := Keeps s0 x) ?_ ?_; dsimp -zeta -iota only [x]; clear x; rotate_left; clear_value x; revert x; intro _ _) | (extract_lets +onlyGivenNames x; clear_value x; revert x; intro _) | apply State.updChan_keeps | apply State.compBusy_keeps | apply State.count_keeps | apply State.dropSlot_keeps | (simp -zeta -iota only [Keeps.mk_iff]; apply KeepsMk.of (h1 := by simp) (h2 := by simp) (h3 := by simp)))

theorem State.loseBuffer_keeps {s0 : State} {s : State} {c : Nat} {u : Nat} (ks : Keeps s0 s) : Keeps s0 (State.loseBuffer s c u) := by
  unfold State.loseBuffer
  with_reducible repeat' (first | assumption | intro _ | (extract_lets +onlyGivenNames x; refine Keeps.have (Q := Keeps s0 x) ?_ ?_; dsimp -zeta -iota only [x]; clear x; rotate_left; clear_value x; revert x; intro _ _) | apply State.updChan_keeps | apply State.poisonLine_keeps | apply State.itemFailed_keeps | apply State.each_keeps)

theorem State.fenceCrypto_keeps {s0 : State} {s : State} {i : Nat} {u : Nat} (ks : Keeps s0 s) : Keeps s0 (State.fenceCrypto s i u) := by
  unfold State.fenceCrypto
  with_reducible repeat' (first | assumption | intro _ | (extract_lets +onlyGivenNames x; refine Keeps.have (Q := Keeps s0 x) ?_ ?_; dsimp -zeta -iota only [x]; clear x; rotate_left; clear_value x; revert x; intro _ _) | (extract_lets +onlyGivenNames x; clear_value x; revert x; intro _) | apply State.loseBuffer_keeps | apply State.failAll_keeps | apply State.each_keeps)

theorem State.fenceChannel_keeps {s0 : State} {s : State} {c : Nat} {u : Nat} (ks : Keeps s0 s) : Keeps s0 (State.fenceChannel s c u) := by
  unfold State.fenceChannel
  with_reducible repeat' (first | assumption | intro _ | (extract_lets +onlyGivenNames x; refine Keeps.have (Q := Keeps s0 x) ?_ ?_; dsimp -zeta -iota only [x]; clear x; rotate_left; clear_value x; revert x; intro _ _) | (extract_lets +onlyGivenNames x; refine Keeps.isFun x ?_; dsimp -zeta -iota only [x]; clear x) | (extract_lets +onlyGivenNames x; clear_value x; revert x; intro _) | apply State.updChan_keeps | apply State.setFlag_keeps | apply State.recapAll_keeps | apply State.loseBuffer_keeps | apply State.failAll_keeps | apply State.guarantee_keeps | apply State.dropComp_keeps | apply State.each_keeps)

theorem State.fenceComp_keeps {s0 : State} {s : State} {h : Half} {k : Nat} (ks : Keeps s0 s) : Keeps s0 (State.fenceComp s h k) := by
  unfold State.fenceComp
  with_reducible repeat' (first | assumption | intro _ | (extract_lets +onlyGivenNames x; refine Keeps.have (Q := Keeps s0 x) ?_ ?_; dsimp -zeta -iota only [x]; clear x; rotate_left; clear_value x; revert x; intro _ _) | (extract_lets +onlyGivenNames x; clear_value x; revert x; intro _) | apply State.setBit_keeps | apply State.recap_keeps | apply State.dropComp_keeps | apply State.each_keeps)

theorem State.fenceSnoop_keeps {s0 : State} {s : State} {h : Half} {g : Nat} (ks : Keeps s0 s) : Keeps s0 (State.fenceSnoop s h g) := by
  unfold State.fenceSnoop
  with_reducible repeat' (first | assumption | intro _ | (extract_lets +onlyGivenNames x; refine Keeps.have (Q := Keeps s0 x) ?_ ?_; dsimp -zeta -iota only [x]; clear x; rotate_left; clear_value x; revert x; intro _ _) | (extract_lets +onlyGivenNames x; clear_value x; revert x; intro _) | apply State.sfTally_keeps | apply State.invalidate_keeps | apply State.emit_keeps | apply State.each_keeps)

theorem State.loseLine_keeps {s0 : State} {s : State} {h : Half} {k : McKey} (ks : Keeps s0 s) : Keeps s0 (State.loseLine s h k) := by
  unfold State.loseLine
  with_reducible repeat' (first | assumption | apply State.nodeLost_keeps | apply State.writeMeta_keeps | split)

theorem State.shrinkCache_keeps {s0 : State} {s : State} {h : Half} {g : Nat} (ks : Keeps s0 s) : Keeps s0 (State.shrinkCache s h g) := by
  unfold State.shrinkCache
  with_reducible repeat' (first | assumption | intro _ | (extract_lets +onlyGivenNames x; refine Keeps.have (Q := Keeps s0 x) ?_ ?_; dsimp -zeta -iota only [x]; clear x; rotate_left; clear_value x; revert x; intro _ _) | (extract_lets +onlyGivenNames x; refine Keeps.isFun x ?_; dsimp -zeta -iota only [x]; clear x) | (extract_lets +onlyGivenNames x; clear_value x; revert x; intro _) | apply State.nodeLost_keeps | apply State.loseLine_keeps | apply State.writeMeta_keeps | apply State.each_keeps | (simp -zeta -iota only [Keeps.mk_iff]; apply KeepsMk.of (h1 := by simp) (h2 := by simp) (h3 := by simp)))

theorem State.ccTouch_keeps {s0 : State} {s : State} {h : Half} {slot : Nat} {chunk : Nat} (ks : Keeps s0 s) : Keeps s0 (State.ccTouch s h slot chunk) := by
  unfold State.ccTouch
  with_reducible repeat' (first | assumption | (extract_lets +onlyGivenNames x; clear_value x; revert x; intro _) | (simp -zeta -iota only [Keeps.mk_iff]; apply KeepsMk.of (h1 := by simp) (h2 := by simp) (h3 := by simp)))

theorem State.shrinkChunks_keeps {s0 : State} {s : State} {h : Half} {g : Nat} (ks : Keeps s0 s) : Keeps s0 (State.shrinkChunks s h g) := by
  unfold State.shrinkChunks
  with_reducible repeat' (first | assumption | (extract_lets +onlyGivenNames x; clear_value x; revert x; intro _) | (simp -zeta -iota only [Keeps.mk_iff]; apply KeepsMk.of (h1 := by simp) (h2 := by simp) (h3 := by simp)))

theorem State.fenceTable_keeps {s0 : State} {s : State} {h : Half} {g : Nat} {u : Nat} (ks : Keeps s0 s) : Keeps s0 (State.fenceTable s h g u) := by
  unfold State.fenceTable
  with_reducible repeat' (first | assumption | (extract_lets +onlyGivenNames x; refine Keeps.have (Q := Keeps s0 x) ?_ ?_; dsimp -zeta -iota only [x]; clear x; rotate_left; clear_value x; revert x; intro _ _) | apply State.checkReserves_keeps | apply State.setFld_keeps | apply State.failAll_keeps)

theorem State.enterDf_keeps {s0 : State} {s : State} (ks : Keeps s0 s) : Keeps s0 (State.enterDf s) := by
  unfold State.enterDf
  with_reducible repeat' (first | assumption | intro _ | (extract_lets +onlyGivenNames x; refine Keeps.have (Q := Keeps s0 x) ?_ ?_; dsimp -zeta -iota only [x]; clear x; rotate_left; clear_value x; revert x; intro _ _) | (extract_lets +onlyGivenNames x; clear_value x; revert x; intro _) | apply State.setFlag_keeps | apply State.straitDown_keeps | apply State.straitIdle_keeps | apply State.setFld_keeps | apply State.sealTally_keeps | apply State.linkLost_keeps | apply State.failAll_keeps | apply State.each_keeps | (simp -zeta -iota only [Keeps.mk_iff]; apply KeepsMk.of (h1 := by simp) (h2 := by simp) (h3 := by simp)))

theorem State.fenceHalf_keeps {s0 : State} {s : State} {h : Half} (ks : Keeps s0 s) : Keeps s0 (State.fenceHalf s h) := by
  unfold State.fenceHalf
  with_reducible repeat' (first | assumption | intro _ | (extract_lets +onlyGivenNames x; refine Keeps.have (Q := Keeps s0 x) ?_ ?_; dsimp -zeta -iota only [x]; clear x; rotate_left; clear_value x; revert x; intro _ _) | (extract_lets +onlyGivenNames x; clear_value x; revert x; intro _) | apply Keeps.ite | apply State.setFenced_keeps | apply State.setFlag_keeps | apply State.straitDown_keeps | apply State.setBit_keeps | apply State.fenceComp_keeps | apply State.setFld_keeps | apply State.recapAll_keeps | apply State.linkLost_keeps | apply State.failAll_keeps | apply State.failCrossing_keeps | apply State.fenceChannel_keeps | apply State.enterDf_keeps | apply State.each_keeps)

theorem State.fence_keeps {s0 : State} {s : State} {u : Nat} {name : Nat} (ks : Keeps s0 s) : Keeps s0 (State.fence s u name) := by
  unfold State.fence
  with_reducible repeat' (first | assumption | intro _ | (extract_lets +onlyGivenNames x; refine Keeps.have (Q := Keeps s0 x) ?_ ?_; dsimp -zeta -iota only [x]; clear x; rotate_left; clear_value x; revert x; intro _ _) | (extract_lets +onlyGivenNames x; clear_value x; revert x; intro _) | apply Keeps.ite | apply State.setFenced_keeps | apply State.straitDown_keeps | apply State.shrinkChunks_keeps | apply State.setBit_keeps | apply State.fenceComp_keeps | apply State.setFld_keeps | apply State.linkLost_keeps | apply State.fenceCrypto_keeps | apply State.fenceTable_keeps | apply State.fenceHalf_keeps | apply State.updUnit_keeps | apply State.fenceChannel_keeps | apply State.fenceSnoop_keeps | apply State.shrinkCache_keeps | split)

theorem State.raise_keeps {s0 : State} {s : State} {d : Det} (ks : Keeps s0 s) : Keeps s0 (State.raise s d) := by
  unfold State.raise
  with_reducible repeat' (first | assumption | intro _ | apply Keeps.ite | (refine (State.noteR_keeps ?_).out) | apply State.assertErr_keeps | apply State.fence_keeps | apply State.enterDf_keeps)

end Sys2Proof.Machine
end

