-- ==== Sys2Proof/Laws/KeepReset.lean ====
section
/-! SUPPORT. The operations of Machine/Reset.lean break nothing (Laws/Keeps.lean). -/

namespace Sys2Proof.Machine

theorem State.railStart_keeps {s0 : State} {s : State} {k : Nat} (ks : Keeps s0 s) : Keeps s0 (State.railStart s k) := by
  unfold State.railStart
  with_reducible repeat' (first | assumption | intro _ | (extract_lets +onlyGivenNames x; refine Keeps.have (Q := Keeps s0 x) ?_ ?_; dsimp -zeta -iota only [x]; clear x; rotate_left; clear_value x; revert x; intro _ _) | (extract_lets +onlyGivenNames x; clear_value x; revert x; intro _) | apply State.emit_keeps | apply State.each_keeps | (simp -zeta -iota only [Keeps.mk_iff]; apply KeepsMk.of (h1 := by simp) (h2 := by simp) (h3 := by simp)))

theorem State.railsDown_keeps {s0 : State} {s : State} (ks : Keeps s0 s) : Keeps s0 (State.railsDown s) := by
  unfold State.railsDown
  with_reducible repeat' (first | assumption | intro _ | (extract_lets +onlyGivenNames x; refine Keeps.have (Q := Keeps s0 x) ?_ ?_; dsimp -zeta -iota only [x]; clear x; rotate_left; clear_value x; revert x; intro _ _) | (extract_lets +onlyGivenNames x; clear_value x; revert x; intro _) | apply State.emit_keeps | apply State.each_keeps | (simp -zeta -iota only [Keeps.mk_iff]; apply KeepsMk.of (h1 := by simp) (h2 := by simp) (h3 := by simp)))

theorem State.loadFuses_keeps {s0 : State} {s : State} (ks : Keeps s0 s) : Keeps s0 (State.loadFuses s) := by
  unfold State.loadFuses
  with_reducible repeat' (first | assumption | (extract_lets +onlyGivenNames x; refine Keeps.have (Q := Keeps s0 x) ?_ ?_; dsimp -zeta -iota only [x]; clear x; rotate_left; clear_value x; revert x; intro _ _) | (extract_lets +onlyGivenNames x; clear_value x; revert x; intro _) | apply State.setFlag_keeps | apply State.setFld_keeps)

theorem State.deviceReset_keeps {s0 : State} {s : State} (ks : Keeps s0 s) : Keeps s0 (State.deviceReset s) := by
  unfold State.deviceReset
  refine State.errPin_keeps (State.loadFuses_keeps (ks.trans ⟨rfl, Fuses.burnt_refl _, fun w => ?_, fun _ => rfl, ?_⟩))
  · show cellsWf regReset (cellDrop (fun k => !survivesReset k) s.regs) = true
    exact cellDrop_wf _ w
  intro h
  simp only [State.shaped, List.length_map, List.length_replicate, Bool.and_eq_true] at h ⊢
  exact ⟨h.1, rfl⟩

theorem State.powerLost_keeps {s0 : State} {s : State} (ks : Keeps s0 s) : Keeps s0 (State.powerLost s) := by
  unfold State.powerLost
  with_reducible repeat' (first | assumption | (extract_lets +onlyGivenNames x; refine Keeps.have (Q := Keeps s0 x) ?_ ?_; dsimp -zeta -iota only [x]; clear x; rotate_left; clear_value x; revert x; intro _ _) | apply State.railsDown_keeps | apply State.setFld_keeps | apply State.deviceReset_keeps)

theorem State.powerDf_keeps {s0 : State} {s : State} {code : Nat} (ks : Keeps s0 s) : Keeps s0 (State.powerDf s code) := by
  unfold State.powerDf
  with_reducible repeat' (first | assumption | (extract_lets +onlyGivenNames x; refine Keeps.have (Q := Keeps s0 x) ?_ ?_; dsimp -zeta -iota only [x]; clear x; rotate_left; clear_value x; revert x; intro _ _) | (extract_lets +onlyGivenNames x; clear_value x; revert x; intro _) | apply State.logRecord_keeps | apply State.errPin_keeps | (simp -zeta -iota only [Keeps.mk_iff]; apply KeepsMk.of (h1 := by simp) (h2 := by simp) (h3 := by simp)))

end Sys2Proof.Machine
end

