-- ==== Sys2Proof/Laws/KeepPower.lean ====
section
/-! SUPPORT. The operations of Machine/Power.lean break nothing (Laws/Keeps.lean). -/

namespace Sys2Proof.Machine

theorem State.clearSlot_keeps {s0 : State} {s : State} (ks : Keeps s0 s) : Keeps s0 (State.clearSlot s) := by
  unfold State.clearSlot
  with_reducible repeat' (first | assumption | (extract_lets +onlyGivenNames x; refine Keeps.have (Q := Keeps s0 x) ?_ ?_; dsimp -zeta -iota only [x]; clear x; rotate_left; clear_value x; revert x; intro _ _) | (extract_lets +onlyGivenNames x; clear_value x; revert x; intro _) | apply State.setFld_keeps | (simp -zeta -iota only [Keeps.mk_iff]; apply KeepsMk.of (h1 := by simp) (h2 := by simp) (h3 := by simp)))

theorem State.mctpPower_keeps {s0 : State} {s : State} {off : Bool} (ks : Keeps s0 s) : Keeps s0 (State.mctpPower s off) := by
  unfold State.mctpPower
  with_reducible repeat' (first | assumption | intro _ | (extract_lets +onlyGivenNames x; clear_value x; revert x; intro _) | apply Keeps.ite | apply State.startEntry_keeps | apply State.placeSlot_keeps | apply State.emit_keeps | split)

theorem State.loseBank15_keeps {s0 : State} {s : State} (ks : Keeps s0 s) : Keeps s0 (State.loseBank15 s) := by
  unfold State.loseBank15
  with_reducible repeat' (first | assumption | intro _ | (extract_lets +onlyGivenNames x; refine Keeps.have (Q := Keeps s0 x) ?_ ?_; dsimp -zeta -iota only [x]; clear x; rotate_left; clear_value x; revert x; intro _ _) | (extract_lets +onlyGivenNames x; refine Keeps.isFun x ?_; dsimp -zeta -iota only [x]; clear x) | apply State.closeRecord_keeps | apply State.each_keeps | (simp -zeta -iota only [Keeps.mk_iff]; apply KeepsMk.ofDrop (h1 := by simp) (h2 := by simp) (h3 := by simp)))

theorem State.loseCounters_keeps {s0 : State} {s : State} (ks : Keeps s0 s) : Keeps s0 (State.loseCounters s) := by
  unfold State.loseCounters
  with_reducible repeat' (first | assumption | intro _ | (extract_lets +onlyGivenNames x; refine Keeps.have (Q := Keeps s0 x) ?_ ?_; dsimp -zeta -iota only [x]; clear x; rotate_left; clear_value x; revert x; intro _ _) | apply State.setFld_keeps | apply State.each_keeps)

theorem State.writeBackAll_keeps {s0 : State} {s : State} (ks : Keeps s0 s) : Keeps s0 (State.writeBackAll s) := by
  unfold State.writeBackAll
  with_reducible repeat' (first | assumption | intro _ | (extract_lets +onlyGivenNames x; refine Keeps.have (Q := Keeps s0 x) ?_ ?_; dsimp -zeta -iota only [x]; clear x; rotate_left; clear_value x; revert x; intro _ _) | apply State.writeMeta_keeps | apply State.updProt_keeps | apply State.each_keeps | (simp -zeta -iota only [Keeps.mk_iff]; apply KeepsMk.of (h1 := by simp) (h2 := by simp) (h3 := by simp)))

theorem State.sleepDone_keeps {s0 : State} {s : State} (ks : Keeps s0 s) : Keeps s0 (State.sleepDone s) := by
  unfold State.sleepDone
  with_reducible repeat' (first | assumption | intro _ | (extract_lets +onlyGivenNames x; refine Keeps.have (Q := Keeps s0 x) ?_ ?_; dsimp -zeta -iota only [x]; clear x; rotate_left; clear_value x; revert x; intro _ _) | (extract_lets +onlyGivenNames x; refine Keeps.isFun x ?_; dsimp -zeta -iota only [x]; clear x) | (extract_lets +onlyGivenNames x; clear_value x; revert x; intro _) | apply Keeps.ite | apply State.discardRequest_keeps | apply State.startEntry_keeps | apply State.writeBackAll_keeps | apply State.setFld_keeps | apply State.loseCounters_keeps | apply State.startExit_keeps | apply State.clearSlot_keeps | apply State.flushAll_keeps | apply State.loseBank15_keeps | (simp -zeta -iota only [Keeps.mk_iff]; apply KeepsMk.of (h1 := by simp) (h2 := by simp) (h3 := by simp)) | split)

theorem State.offDone_keeps {s0 : State} {s : State} (ks : Keeps s0 s) : Keeps s0 (State.offDone s) := by
  unfold State.offDone
  with_reducible repeat' (first | assumption | intro _ | (extract_lets +onlyGivenNames x; refine Keeps.have (Q := Keeps s0 x) ?_ ?_; dsimp -zeta -iota only [x]; clear x; rotate_left; clear_value x; revert x; intro _ _) | (extract_lets +onlyGivenNames x; clear_value x; revert x; intro _) | apply Keeps.ite | apply State.discardRequest_keeps | apply State.powerLost_keeps | apply State.flushAll_keeps | (simp -zeta -iota only [Keeps.mk_iff]; apply KeepsMk.of (h1 := by simp) (h2 := by simp) (h3 := by simp)) | split)

theorem State.wakePin_keeps {s0 : State} {s : State} (ks : Keeps s0 s) : Keeps s0 (State.wakePin s) := by
  unfold State.wakePin
  with_reducible repeat' (first | assumption | intro _ | (extract_lets +onlyGivenNames x; clear_value x; revert x; intro _) | apply Keeps.ite | apply State.wake_keeps | (simp -zeta -iota only [Keeps.mk_iff]; apply KeepsMk.of (h1 := by simp) (h2 := by simp) (h3 := by simp)))

theorem execDeepSleepEntryDone_keeps {s0 : State} {s : State} (ks : Keeps s0 s) : KeepsR s0 (execDeepSleepEntryDone s) := by
  unfold execDeepSleepEntryDone
  with_reducible repeat' (first | assumption | apply State.sleepDone_keeps | apply KeepsR.next)

theorem execOffEntryDone_keeps {s0 : State} {s : State} (ks : Keeps s0 s) : KeepsR s0 (execOffEntryDone s) := by
  unfold execOffEntryDone
  with_reducible repeat' (first | assumption | apply State.offDone_keeps | apply KeepsR.next)

theorem execMctpDeepSleep_keeps {s0 : State} {s : State} (ks : Keeps s0 s) : KeepsR s0 (execMctpDeepSleep s) := by
  unfold execMctpDeepSleep
  with_reducible repeat' (first | assumption | apply State.mctpPower_keeps | apply KeepsR.next)

theorem execMctpOff_keeps {s0 : State} {s : State} (ks : Keeps s0 s) : KeepsR s0 (execMctpOff s) := by
  unfold execMctpOff
  with_reducible repeat' (first | assumption | apply State.mctpPower_keeps | apply KeepsR.next)

theorem execMctpWake_keeps {s0 : State} {s : State} (ks : Keeps s0 s) : KeepsR s0 (execMctpWake s) := by
  unfold execMctpWake
  with_reducible repeat' (first | assumption | intro _ | apply Keeps.ite | apply State.wake_keeps | apply KeepsR.next)

theorem execWakeN_keeps {s0 : State} {s : State} (ks : Keeps s0 s) : KeepsR s0 (execWakeN s) := by
  unfold execWakeN
  with_reducible repeat' (first | assumption | apply State.wakePin_keeps | apply KeepsR.next)

theorem execWakeAtReached_keeps {s0 : State} {s : State} (ks : Keeps s0 s) : KeepsR s0 (execWakeAtReached s) := by
  unfold execWakeAtReached
  with_reducible repeat' (first | assumption | intro _ | apply Keeps.ite | apply State.wake_keeps | apply KeepsR.next)

theorem State.vrAck_keeps {s0 : State} {s : State} {h : Half} (ks : Keeps s0 s) : Keeps s0 (State.vrAck s h) := by
  unfold State.vrAck
  with_reducible repeat' (first | assumption | (extract_lets +onlyGivenNames x; clear_value x; revert x; intro _) | apply State.dvfs_keeps | (simp -zeta -iota only [Keeps.mk_iff]; apply KeepsMk.of (h1 := by simp) (h2 := by simp) (h3 := by simp)) | split)

theorem State.vrNoAck_keeps {s0 : State} {s : State} {h : Half} (ks : Keeps s0 s) : Keeps s0 (State.vrNoAck s h) := by
  unfold State.vrNoAck
  with_reducible repeat' (first | assumption | intro _ | (extract_lets +onlyGivenNames x; refine Keeps.have (Q := Keeps s0 x) ?_ ?_; dsimp -zeta -iota only [x]; clear x; rotate_left; clear_value x; revert x; intro _ _) | (extract_lets +onlyGivenNames x; clear_value x; revert x; intro _) | apply Keeps.ite | apply State.setFlag_keeps | apply State.say_keeps | apply State.dvfs_keeps | (simp -zeta -iota only [Keeps.mk_iff]; apply KeepsMk.of (h1 := by simp) (h2 := by simp) (h3 := by simp)))

theorem State.vrRetry_keeps {s0 : State} {s : State} {h : Half} (ks : Keeps s0 s) : Keeps s0 (State.vrRetry s h) := by
  unfold State.vrRetry
  with_reducible repeat' (first | assumption | intro _ | (extract_lets +onlyGivenNames x; clear_value x; revert x; intro _) | apply Keeps.ite | apply State.emit_keeps | (simp -zeta -iota only [Keeps.mk_iff]; apply KeepsMk.of (h1 := by simp) (h2 := by simp) (h3 := by simp)) | split)

theorem State.setCap_keeps {s0 : State} {s : State} {h : Half} {cap : Nat} (ks : Keeps s0 s) : Keeps s0 (State.setCap s h cap) := by
  unfold State.setCap
  with_reducible repeat' (first | assumption | intro _ | (extract_lets +onlyGivenNames x; refine Keeps.have (Q := Keeps s0 x) ?_ ?_; dsimp -zeta -iota only [x]; clear x; rotate_left; clear_value x; revert x; intro _ _) | apply Keeps.ite | apply State.setFlag_keeps | apply State.setFld_keeps | apply State.say_keeps | apply State.dvfs_keeps)

theorem State.halfTemp_keeps {s0 : State} {s : State} {h : Half} {t00 : Nat} (ks : Keeps s0 s) : Keeps s0 (State.halfTemp s h t00) := by
  unfold State.halfTemp
  with_reducible repeat' (first | assumption | intro _ | (extract_lets +onlyGivenNames x; refine Keeps.have (Q := Keeps s0 x) ?_ ?_; dsimp -zeta -iota only [x]; clear x; rotate_left; clear_value x; revert x; intro _ _) | (extract_lets +onlyGivenNames x; clear_value x; revert x; intro _) | apply Keeps.ite | apply State.setCap_keeps | (simp -zeta -iota only [Keeps.mk_iff]; apply KeepsMk.of (h1 := by simp) (h2 := by simp) (h3 := by simp)))

theorem State.thermal_keeps {s0 : State} {s : State} {a : Nat} {b : Nat} {sh : Nat} (ks : Keeps s0 s) : Keeps s0 (State.thermal s a b sh) := by
  unfold State.thermal
  with_reducible repeat' (first | assumption | intro _ | (extract_lets +onlyGivenNames x; refine Keeps.have (Q := Keeps s0 x) ?_ ?_; dsimp -zeta -iota only [x]; clear x; rotate_left; clear_value x; revert x; intro _ _) | (extract_lets +onlyGivenNames x; clear_value x; revert x; intro _) | apply Keeps.ite | apply State.setFld_keeps | apply State.powerLost_keeps | apply State.powerDf_keeps | apply State.halfTemp_keeps | apply State.emit_keeps | (simp -zeta -iota only [Keeps.mk_iff]; apply KeepsMk.of (h1 := by simp) (h2 := by simp) (h3 := by simp)))

theorem State.capRelease_keeps {s0 : State} {s : State} {h : Half} (ks : Keeps s0 s) : Keeps s0 (State.capRelease s h) := by
  unfold State.capRelease
  with_reducible repeat' (first | assumption | intro _ | apply Keeps.ite | apply State.setCap_keeps)

theorem execVrStepAck_keeps {s0 : State} {h : Half} {s : State} (ks : Keeps s0 s) : KeepsR s0 (execVrStepAck h s) := by
  unfold execVrStepAck
  with_reducible repeat' (first | assumption | apply State.vrAck_keeps | apply KeepsR.next)

theorem execPwrVrNoAck_keeps {s0 : State} {h : Half} {s : State} (ks : Keeps s0 s) : KeepsR s0 (execPwrVrNoAck h s) := by
  unfold execPwrVrNoAck
  with_reducible repeat' (first | assumption | apply State.vrNoAck_keeps | apply KeepsR.next)

theorem execVrStepRetry_keeps {s0 : State} {h : Half} {s : State} (ks : Keeps s0 s) : KeepsR s0 (execVrStepRetry h s) := by
  unfold execVrStepRetry
  with_reducible repeat' (first | assumption | apply State.vrRetry_keeps | apply KeepsR.next)

theorem execThermalSample_keeps {s0 : State} {a : BitVec 8} {b : BitVec 8} {sh : BitVec 8} {s : State} (ks : Keeps s0 s) : KeepsR s0 (execThermalSample a b sh s) := by
  unfold execThermalSample
  with_reducible repeat' (first | assumption | apply State.thermal_keeps | apply KeepsR.next)

theorem execThermalCapRelease_keeps {s0 : State} {h : Half} {s : State} (ks : Keeps s0 s) : KeepsR s0 (execThermalCapRelease h s) := by
  unfold execThermalCapRelease
  with_reducible repeat' (first | assumption | apply State.capRelease_keeps | apply KeepsR.next)

theorem State.supplyWarn_keeps {s0 : State} {s : State} (ks : Keeps s0 s) : Keeps s0 (State.supplyWarn s) := by
  unfold State.supplyWarn
  with_reducible repeat' (first | assumption | (extract_lets +onlyGivenNames x; refine Keeps.have (Q := Keeps s0 x) ?_ ?_; dsimp -zeta -iota only [x]; clear x; rotate_left; clear_value x; revert x; intro _ _) | (extract_lets +onlyGivenNames x; clear_value x; revert x; intro _) | apply State.setFlag_keeps | apply State.say_keeps | apply State.dvfsAll_keeps | (simp -zeta -iota only [Keeps.mk_iff]; apply KeepsMk.of (h1 := by simp) (h2 := by simp) (h3 := by simp)))

theorem State.supplyDip_keeps {s0 : State} {s : State} (ks : Keeps s0 s) : Keeps s0 (State.supplyDip s) := by
  unfold State.supplyDip
  with_reducible repeat' (first | assumption | intro _ | (extract_lets +onlyGivenNames x; refine Keeps.have (Q := Keeps s0 x) ?_ ?_; dsimp -zeta -iota only [x]; clear x; rotate_left; clear_value x; revert x; intro _ _) | (extract_lets +onlyGivenNames x; clear_value x; revert x; intro _) | apply Keeps.ite | apply State.setFlag_keeps | apply State.say_keeps | apply State.dvfsAll_keeps | (simp -zeta -iota only [Keeps.mk_iff]; apply KeepsMk.of (h1 := by simp) (h2 := by simp) (h3 := by simp)))

theorem State.supplyReset_keeps {s0 : State} {s : State} (ks : Keeps s0 s) : Keeps s0 (State.supplyReset s) := by
  unfold State.supplyReset
  with_reducible repeat' (first | assumption | (extract_lets +onlyGivenNames x; refine Keeps.have (Q := Keeps s0 x) ?_ ?_; dsimp -zeta -iota only [x]; clear x; rotate_left; clear_value x; revert x; intro _ _) | (extract_lets +onlyGivenNames x; clear_value x; revert x; intro _) | apply State.powerLost_keeps | apply State.powerDf_keeps | (simp -zeta -iota only [Keeps.mk_iff]; apply KeepsMk.of (h1 := by simp) (h2 := by simp) (h3 := by simp)))

theorem State.supplyReboot_keeps {s0 : State} {s : State} (ks : Keeps s0 s) : Keeps s0 (State.supplyReboot s) := by
  unfold State.supplyReboot
  with_reducible repeat' (first | assumption | intro _ | (extract_lets +onlyGivenNames x; clear_value x; revert x; intro _) | apply Keeps.ite | (simp -zeta -iota only [Keeps.mk_iff]; apply KeepsMk.of (h1 := by simp) (h2 := by simp) (h3 := by simp)))

theorem State.supplyRecover_keeps {s0 : State} {s : State} (ks : Keeps s0 s) : Keeps s0 (State.supplyRecover s) := by
  unfold State.supplyRecover
  with_reducible repeat' (first | assumption | intro _ | (extract_lets +onlyGivenNames x; clear_value x; revert x; intro _) | apply Keeps.ite | (simp -zeta -iota only [Keeps.mk_iff]; apply KeepsMk.of (h1 := by simp) (h2 := by simp) (h3 := by simp)))

theorem State.railFault_keeps {s0 : State} {s : State} {point : Nat} (ks : Keeps s0 s) : Keeps s0 (State.railFault s point) := by
  unfold State.railFault
  with_reducible repeat' (first | assumption | intro _ | (extract_lets +onlyGivenNames x; refine Keeps.have (Q := Keeps s0 x) ?_ ?_; dsimp -zeta -iota only [x]; clear x; rotate_left; clear_value x; revert x; intro _ _) | (extract_lets +onlyGivenNames x; refine Keeps.isFun x ?_; dsimp -zeta -iota only [x]; clear x) | apply Keeps.ite | apply State.setFlag_keeps | apply State.note_keeps | apply State.supplyReset_keeps | apply State.raise_keeps | split)

theorem execPwrSupplyWarn_keeps {s0 : State} {s : State} (ks : Keeps s0 s) : KeepsR s0 (execPwrSupplyWarn s) := by
  unfold execPwrSupplyWarn
  with_reducible repeat' (first | assumption | apply State.supplyWarn_keeps | apply KeepsR.next)

theorem execPwrSupplyDip_keeps {s0 : State} {s : State} (ks : Keeps s0 s) : KeepsR s0 (execPwrSupplyDip s) := by
  unfold execPwrSupplyDip
  with_reducible repeat' (first | assumption | apply State.supplyDip_keeps | apply KeepsR.next)

theorem execPwrSupplyReset_keeps {s0 : State} {s : State} (ks : Keeps s0 s) : KeepsR s0 (execPwrSupplyReset s) := by
  unfold execPwrSupplyReset
  with_reducible repeat' (first | assumption | apply State.supplyReset_keeps | apply KeepsR.next)

theorem execSupplyReboot_keeps {s0 : State} {s : State} (ks : Keeps s0 s) : KeepsR s0 (execSupplyReboot s) := by
  unfold execSupplyReboot
  with_reducible repeat' (first | assumption | apply State.supplyReboot_keeps | apply KeepsR.next)

theorem execSupplyRecovery_keeps {s0 : State} {s : State} (ks : Keeps s0 s) : KeepsR s0 (execSupplyRecovery s) := by
  unfold execSupplyRecovery
  with_reducible repeat' (first | assumption | apply State.supplyRecover_keeps | apply KeepsR.next)

theorem execPwrRailFault_keeps {s0 : State} {point : Fin 16} {s : State} (ks : Keeps s0 s) : KeepsR s0 (execPwrRailFault point s) := by
  unfold execPwrRailFault
  with_reducible repeat' (first | assumption | apply State.railFault_keeps | apply KeepsR.next)

theorem State.railGood_keeps {s0 : State} {s : State} {r : Nat} (ks : Keeps s0 s) : Keeps s0 (State.railGood s r) := by
  unfold State.railGood
  with_reducible repeat' (first | assumption | intro _ | (extract_lets +onlyGivenNames x; refine Keeps.have (Q := Keeps s0 x) ?_ ?_; dsimp -zeta -iota only [x]; clear x; rotate_left; clear_value x; revert x; intro _ _) | (extract_lets +onlyGivenNames x; clear_value x; revert x; intro _) | apply Keeps.ite | apply State.railStart_keeps | (simp -zeta -iota only [Keeps.mk_iff]; apply KeepsMk.of (h1 := by simp) (h2 := by simp) (h3 := by simp)))

theorem State.railTimeout_keeps {s0 : State} {s : State} (ks : Keeps s0 s) : Keeps s0 (State.railTimeout s) := by
  unfold State.railTimeout
  with_reducible repeat' (first | assumption | intro _ | (extract_lets +onlyGivenNames x; refine Keeps.have (Q := Keeps s0 x) ?_ ?_; dsimp -zeta -iota only [x]; clear x; rotate_left; clear_value x; revert x; intro _ _) | (extract_lets +onlyGivenNames x; clear_value x; revert x; intro _) | apply Keeps.ite | apply State.railsDown_keeps | apply State.logRecord_keeps | (simp -zeta -iota only [Keeps.mk_iff]; apply KeepsMk.of (h1 := by simp) (h2 := by simp) (h3 := by simp)))

theorem State.railRetry_keeps {s0 : State} {s : State} (ks : Keeps s0 s) : Keeps s0 (State.railRetry s) := by
  unfold State.railRetry
  with_reducible repeat' (first | assumption | intro _ | apply Keeps.ite | apply State.railStart_keeps)

theorem execRailPowerGood_keeps {s0 : State} {r : Fin 8} {s : State} (ks : Keeps s0 s) : KeepsR s0 (execRailPowerGood r s) := by
  unfold execRailPowerGood
  with_reducible repeat' (first | assumption | apply State.railGood_keeps | apply KeepsR.next)

theorem execRailPgTimeout_keeps {s0 : State} {s : State} (ks : Keeps s0 s) : KeepsR s0 (execRailPgTimeout s) := by
  unfold execRailPgTimeout
  with_reducible repeat' (first | assumption | apply State.railTimeout_keeps | apply KeepsR.next)

theorem execRailSequenceRetry_keeps {s0 : State} {s : State} (ks : Keeps s0 s) : KeepsR s0 (execRailSequenceRetry s) := by
  unfold execRailSequenceRetry
  with_reducible repeat' (first | assumption | apply State.railRetry_keeps | apply KeepsR.next)

theorem State.hswTry_keeps {s0 : State} {s : State} (ks : Keeps s0 s) : Keeps s0 (State.hswTry s) := by
  unfold State.hswTry
  with_reducible repeat' (first | assumption | intro _ | apply Keeps.ite | apply State.setFld_keeps)

theorem State.gatesOff_keeps {s0 : State} {s : State} (ks : Keeps s0 s) : Keeps s0 (State.gatesOff s) := by
  unfold State.gatesOff
  with_reducible repeat' (first | assumption | intro _ | (extract_lets +onlyGivenNames x; refine Keeps.have (Q := Keeps s0 x) ?_ ?_; dsimp -zeta -iota only [x]; clear x; rotate_left; clear_value x; revert x; intro _ _) | (extract_lets +onlyGivenNames x; clear_value x; revert x; intro _) | apply Keeps.ite | apply State.setFld_keeps | apply State.powerLost_keeps | (simp -zeta -iota only [Keeps.mk_iff]; apply KeepsMk.of (h1 := by simp) (h2 := by simp) (h3 := by simp)))

theorem State.seatChange_keeps {s0 : State} {s : State} {feedB : Bool} {low : Bool} (ks : Keeps s0 s) : Keeps s0 (State.seatChange s feedB low) := by
  unfold State.seatChange
  with_reducible repeat' (first | assumption | intro _ | (extract_lets +onlyGivenNames x; refine Keeps.have (Q := Keeps s0 x) ?_ ?_; dsimp -zeta -iota only [x]; clear x; rotate_left; clear_value x; revert x; intro _ _) | apply Keeps.ite | apply State.setFlag_keeps | apply State.hswTry_keeps | apply State.gatesOff_keeps)

theorem State.seatingDone_keeps {s0 : State} {s : State} (ks : Keeps s0 s) : Keeps s0 (State.seatingDone s) := by
  unfold State.seatingDone
  with_reducible repeat' (first | assumption | intro _ | (extract_lets +onlyGivenNames x; refine Keeps.have (Q := Keeps s0 x) ?_ ?_; dsimp -zeta -iota only [x]; clear x; rotate_left; clear_value x; revert x; intro _ _) | (extract_lets +onlyGivenNames x; clear_value x; revert x; intro _) | apply Keeps.ite | apply State.setFlag_keeps | apply State.setFld_keeps | (simp -zeta -iota only [Keeps.mk_iff]; apply KeepsMk.of (h1 := by simp) (h2 := by simp) (h3 := by simp)))

theorem State.rampDone_keeps {s0 : State} {s : State} (ks : Keeps s0 s) : Keeps s0 (State.rampDone s) := by
  unfold State.rampDone
  with_reducible repeat' (first | assumption | intro _ | apply Keeps.ite | apply State.setFld_keeps)

theorem State.latch_keeps {s0 : State} {s : State} {from_ : Nat} {cause : Nat} {code : Nat} (ks : Keeps s0 s) : Keeps s0 (State.latch s from_ cause code) := by
  unfold State.latch
  with_reducible repeat' (first | assumption | intro _ | (extract_lets +onlyGivenNames x; refine Keeps.have (Q := Keeps s0 x) ?_ ?_; dsimp -zeta -iota only [x]; clear x; rotate_left; clear_value x; revert x; intro _ _) | (extract_lets +onlyGivenNames x; clear_value x; revert x; intro _) | apply Keeps.ite | apply State.setFld_keeps | apply State.powerLost_keeps | apply State.powerDf_keeps | (simp -zeta -iota only [Keeps.mk_iff]; apply KeepsMk.of (h1 := by simp) (h2 := by simp) (h3 := by simp)))

theorem State.unlatch_keeps {s0 : State} {s : State} (ks : Keeps s0 s) : Keeps s0 (State.unlatch s) := by
  unfold State.unlatch
  with_reducible repeat' (first | assumption | apply State.setFld_keeps | apply State.hswTry_keeps)

theorem State.enPin_keeps {s0 : State} {s : State} {low : Bool} {highForMs : Bool} (ks : Keeps s0 s) : Keeps s0 (State.enPin s low highForMs) := by
  unfold State.enPin
  with_reducible repeat' (first | assumption | intro _ | (extract_lets +onlyGivenNames x; refine Keeps.have (Q := Keeps s0 x) ?_ ?_; dsimp -zeta -iota only [x]; clear x; rotate_left; clear_value x; revert x; intro _ _) | (extract_lets +onlyGivenNames x; dsimp -zeta -iota only [x]; clear x) | apply Keeps.ite | apply State.setFlag_keeps | apply State.hswTry_keeps | apply State.unlatch_keeps | apply State.gatesOff_keeps | apply State.emit_keeps | (simp -zeta -iota only [Keeps.mk_iff]; apply KeepsMk.of (h1 := by simp) (h2 := by simp) (h3 := by simp)))

theorem State.hswCtrlWrite_keeps {s0 : State} {s : State} {v : Nat} (ks : Keeps s0 s) : Keeps s0 (State.hswCtrlWrite s v) := by
  unfold State.hswCtrlWrite
  with_reducible repeat' (first | assumption | intro _ | (extract_lets +onlyGivenNames x; refine Keeps.have (Q := Keeps s0 x) ?_ ?_; dsimp -zeta -iota only [x]; clear x; rotate_left; clear_value x; revert x; intro _ _) | (extract_lets +onlyGivenNames x; clear_value x; revert x; intro _) | apply Keeps.ite | apply State.setFlag_keeps | apply State.hswTry_keeps | apply State.unlatch_keeps | apply State.gatesOff_keeps | (simp -zeta -iota only [Keeps.mk_iff]; apply KeepsMk.of (h1 := by simp) (h2 := by simp) (h3 := by simp)))

theorem execHswSeatChange_keeps {s0 : State} {feedB : Bool} {low : Bool} {s : State} (ks : Keeps s0 s) : KeepsR s0 (execHswSeatChange feedB low s) := by
  unfold execHswSeatChange
  with_reducible repeat' (first | assumption | apply State.seatChange_keeps | apply KeepsR.next)

theorem execHswSeatingDone_keeps {s0 : State} {s : State} (ks : Keeps s0 s) : KeepsR s0 (execHswSeatingDone s) := by
  unfold execHswSeatingDone
  with_reducible repeat' (first | assumption | apply State.seatingDone_keeps | apply KeepsR.next)

theorem execHswRampDone_keeps {s0 : State} {s : State} (ks : Keeps s0 s) : KeepsR s0 (execHswRampDone s) := by
  unfold execHswRampDone
  with_reducible repeat' (first | assumption | apply State.rampDone_keeps | apply KeepsR.next)

theorem execHswInrushShort_keeps {s0 : State} {s : State} (ks : Keeps s0 s) : KeepsR s0 (execHswInrushShort s) := by
  unfold execHswInrushShort
  with_reducible repeat' (first | assumption | apply State.latch_keeps | apply KeepsR.next)

theorem execHswSoaTimeout_keeps {s0 : State} {s : State} (ks : Keeps s0 s) : KeepsR s0 (execHswSoaTimeout s) := by
  unfold execHswSoaTimeout
  with_reducible repeat' (first | assumption | apply State.latch_keeps | apply KeepsR.next)

theorem execHswOvercurrent_keeps {s0 : State} {s : State} (ks : Keeps s0 s) : KeepsR s0 (execHswOvercurrent s) := by
  unfold execHswOvercurrent
  with_reducible repeat' (first | assumption | apply State.latch_keeps | apply KeepsR.next)

theorem execHswEnPinChange_keeps {s0 : State} {low : Bool} {highForMs : Bool} {s : State} (ks : Keeps s0 s) : KeepsR s0 (execHswEnPinChange low highForMs s) := by
  unfold execHswEnPinChange
  with_reducible repeat' (first | assumption | apply State.enPin_keeps | apply KeepsR.next)

theorem execHswCtrlWrite_keeps {s0 : State} {v : Word} {s : State} (ks : Keeps s0 s) : KeepsR s0 (execHswCtrlWrite v s) := by
  unfold execHswCtrlWrite
  with_reducible repeat' (first | assumption | intro _ | apply State.hswCtrlWrite_keeps | apply State.write_keeps | apply KeepsR.next)

theorem State.feedFail_keeps {s0 : State} {s : State} {feedB : Bool} (ks : Keeps s0 s) : Keeps s0 (State.feedFail s feedB) := by
  unfold State.feedFail
  with_reducible repeat' (first | assumption | intro _ | (extract_lets +onlyGivenNames x; refine Keeps.have (Q := Keeps s0 x) ?_ ?_; dsimp -zeta -iota only [x]; clear x; rotate_left; clear_value x; revert x; intro _ _) | (extract_lets +onlyGivenNames x; clear_value x; revert x; intro _) | apply Keeps.ite | apply State.setFlag_keeps | apply State.say_keeps | (simp -zeta -iota only [Keeps.mk_iff]; apply KeepsMk.of (h1 := by simp) (h2 := by simp) (h3 := by simp)))

theorem State.feedSwitched_keeps {s0 : State} {s : State} (ks : Keeps s0 s) : Keeps s0 (State.feedSwitched s) := by
  unfold State.feedSwitched
  with_reducible repeat' (first | assumption | (extract_lets +onlyGivenNames x; refine Keeps.have (Q := Keeps s0 x) ?_ ?_; dsimp -zeta -iota only [x]; clear x; rotate_left; clear_value x; revert x; intro _ _) | (extract_lets +onlyGivenNames x; clear_value x; revert x; intro _) | apply State.setFlag_keeps | apply State.say_keeps | (simp -zeta -iota only [Keeps.mk_iff]; apply KeepsMk.of (h1 := by simp) (h2 := by simp) (h3 := by simp)) | split)

theorem State.feedBack_keeps {s0 : State} {s : State} (ks : Keeps s0 s) : Keeps s0 (State.feedBack s) := by
  unfold State.feedBack
  with_reducible repeat' (first | assumption | intro _ | (extract_lets +onlyGivenNames x; clear_value x; revert x; intro _) | apply Keeps.ite | (simp -zeta -iota only [Keeps.mk_iff]; apply KeepsMk.of (h1 := by simp) (h2 := by simp) (h3 := by simp)))

theorem execFeedFail_keeps {s0 : State} {feedB : Bool} {s : State} (ks : Keeps s0 s) : KeepsR s0 (execFeedFail feedB s) := by
  unfold execFeedFail
  with_reducible repeat' (first | assumption | apply State.feedFail_keeps | apply KeepsR.next)

theorem execFeedDeadTimeEnd_keeps {s0 : State} {s : State} (ks : Keeps s0 s) : KeepsR s0 (execFeedDeadTimeEnd s) := by
  unfold execFeedDeadTimeEnd
  with_reducible repeat' (first | assumption | apply State.feedSwitched_keeps | apply KeepsR.next)

theorem execFeedSwitchBack_keeps {s0 : State} {s : State} (ks : Keeps s0 s) : KeepsR s0 (execFeedSwitchBack s) := by
  unfold execFeedSwitchBack
  with_reducible repeat' (first | assumption | apply State.feedBack_keeps | apply KeepsR.next)

theorem execFeedGood_keeps {s0 : State} {feedB : Bool} {s : State} (ks : Keeps s0 s) : KeepsR s0 (execFeedGood feedB s) := by
  unfold execFeedGood
  with_reducible repeat' (first | assumption | apply State.setFlag_keeps | apply KeepsR.next)

theorem State.slotTrip_keeps {s0 : State} {s : State} {slot : Nat} (ks : Keeps s0 s) : Keeps s0 (State.slotTrip s slot) := by
  unfold State.slotTrip
  with_reducible repeat' (first | assumption | intro _ | (extract_lets +onlyGivenNames x; refine Keeps.have (Q := Keeps s0 x) ?_ ?_; dsimp -zeta -iota only [x]; clear x; rotate_left; clear_value x; revert x; intro _ _) | (extract_lets +onlyGivenNames x; clear_value x; revert x; intro _) | apply Keeps.ite | apply State.setBit_keeps | apply State.raise_keeps | apply State.each_keeps | (simp -zeta -iota only [Keeps.mk_iff]; apply KeepsMk.of (h1 := by simp) (h2 := by simp) (h3 := by simp)))

theorem State.slotEnable_keeps {s0 : State} {s : State} {v : Nat} (ks : Keeps s0 s) : Keeps s0 (State.slotEnable s v) := by
  unfold State.slotEnable
  with_reducible repeat' (first | assumption | intro _ | (extract_lets +onlyGivenNames x; refine Keeps.have (Q := Keeps s0 x) ?_ ?_; dsimp -zeta -iota only [x]; clear x; rotate_left; clear_value x; revert x; intro _ _) | (extract_lets +onlyGivenNames x; clear_value x; revert x; intro _) | apply Keeps.ite | apply State.setBit_keeps | apply State.setFld_keeps | apply State.each_keeps | (simp -zeta -iota only [Keeps.mk_iff]; apply KeepsMk.of (h1 := by simp) (h2 := by simp) (h3 := by simp)))

theorem execHswSlotTrip_keeps {s0 : State} {slot : Fin 48} {s : State} (ks : Keeps s0 s) : KeepsR s0 (execHswSlotTrip slot s) := by
  unfold execHswSlotTrip
  with_reducible repeat' (first | assumption | apply State.slotTrip_keeps | apply KeepsR.next)

theorem execSlotEnableWrite_keeps {s0 : State} {v : Word} {s : State} (ks : Keeps s0 s) : KeepsR s0 (execSlotEnableWrite v s) := by
  unfold execSlotEnableWrite
  with_reducible repeat' (first | assumption | intro _ | apply State.write_keeps | apply State.slotEnable_keeps | apply KeepsR.next)

theorem State.telemPoint_keeps {s0 : State} {s : State} {n : Nat} {v : Nat} (ks : Keeps s0 s) : Keeps s0 (State.telemPoint s n v) := by
  unfold State.telemPoint
  with_reducible repeat' (first | assumption | (extract_lets +onlyGivenNames x; refine Keeps.have (Q := Keeps s0 x) ?_ ?_; dsimp -zeta -iota only [x]; clear x; rotate_left; clear_value x; revert x; intro _ _) | (extract_lets +onlyGivenNames x; clear_value x; revert x; intro _) | apply State.setFld_keeps | (simp -zeta -iota only [Keeps.mk_iff]; apply KeepsMk.of (h1 := by simp) (h2 := by simp) (h3 := by simp)))

theorem State.captureTake_keeps {s0 : State} {s : State} (ks : Keeps s0 s) : Keeps s0 (State.captureTake s) := by
  unfold State.captureTake
  with_reducible repeat' (first | assumption | intro _ | (extract_lets +onlyGivenNames x; refine Keeps.have (Q := Keeps s0 x) ?_ ?_; dsimp -zeta -iota only [x]; clear x; rotate_left; clear_value x; revert x; intro _ _) | (extract_lets +onlyGivenNames x; clear_value x; revert x; intro _) | apply Keeps.ite | apply State.setFlag_keeps | apply State.setFld_keeps | (simp -zeta -iota only [Keeps.mk_iff]; apply KeepsMk.of (h1 := by simp) (h2 := by simp) (h3 := by simp)) | split)

theorem State.telemetry_keeps {s0 : State} {s : State} {xs : List Nat} (ks : Keeps s0 s) : Keeps s0 (State.telemetry s xs) := by
  unfold State.telemetry
  with_reducible repeat' (first | assumption | intro _ | apply State.telemPoint_keeps | apply State.captureTake_keeps | apply State.each_keeps)

theorem State.captureArm_keeps {s0 : State} {s : State} {v : Nat} (ks : Keeps s0 s) : Keeps s0 (State.captureArm s v) := by
  unfold State.captureArm
  with_reducible repeat' (first | assumption | intro _ | (extract_lets +onlyGivenNames x; refine Keeps.have (Q := Keeps s0 x) ?_ ?_; dsimp -zeta -iota only [x]; clear x; rotate_left; clear_value x; revert x; intro _ _) | (extract_lets +onlyGivenNames x; clear_value x; revert x; intro _) | apply Keeps.ite | apply State.setFlag_keeps | apply State.setFld_keeps | (simp -zeta -iota only [Keeps.mk_iff]; apply KeepsMk.of (h1 := by simp) (h2 := by simp) (h3 := by simp)))

theorem execTelemetrySample_keeps {s0 : State} {xs : List Nat} {s : State} (ks : Keeps s0 s) : KeepsR s0 (execTelemetrySample xs s) := by
  unfold execTelemetrySample
  with_reducible repeat' (first | assumption | apply State.telemetry_keeps | apply KeepsR.next)

theorem execCaptureArm_keeps {s0 : State} {v : Word} {s : State} (ks : Keeps s0 s) : KeepsR s0 (execCaptureArm v s) := by
  unfold execCaptureArm
  with_reducible repeat' (first | assumption | intro _ | apply State.write_keeps | apply State.captureArm_keeps | apply KeepsR.next)

theorem State.logbookWrite_keeps {s0 : State} {s : State} {b : Nat} (ks : Keeps s0 s) : Keeps s0 (State.logbookWrite s b) := by
  unfold State.logbookWrite
  with_reducible repeat' (first | assumption | intro _ | (extract_lets +onlyGivenNames x; refine Keeps.have (Q := Keeps s0 x) ?_ ?_; dsimp -zeta -iota only [x]; clear x; rotate_left; clear_value x; revert x; intro _ _) | (extract_lets +onlyGivenNames x; clear_value x; revert x; intro _) | apply Keeps.ite | apply State.setFlag_keeps | apply State.setFld_keeps | apply State.say_keeps | (simp -zeta -iota only [Keeps.mk_iff]; apply KeepsMk.of (h1 := by simp) (h2 := by simp) (h3 := by simp)))

theorem execLogbookWrite_keeps {s0 : State} {b : Fin 1984} {s : State} (ks : Keeps s0 s) : KeepsR s0 (execLogbookWrite b s) := by
  unfold execLogbookWrite
  with_reducible repeat' (first | assumption | apply State.logbookWrite_keeps | apply KeepsR.next)

theorem State.auxFall_keeps {s0 : State} {s : State} (ks : Keeps s0 s) : Keeps s0 (State.auxFall s) := by
  unfold State.auxFall
  with_reducible repeat' (first | assumption | (extract_lets +onlyGivenNames x; refine Keeps.have (Q := Keeps s0 x) ?_ ?_; dsimp -zeta -iota only [x]; clear x; rotate_left; clear_value x; revert x; intro _ _) | (extract_lets +onlyGivenNames x; refine Keeps.isFun x ?_; dsimp -zeta -iota only [x]; clear x) | (extract_lets +onlyGivenNames x; clear_value x; revert x; intro _) | apply State.setReg_keeps | apply State.setFlag_keeps | apply State.powerLost_keeps | apply State.errPin_keeps | (simp -zeta -iota only [Keeps.mk_iff]; apply KeepsMk.ofDrop (h1 := by simp) (h2 := by simp) (h3 := by simp)))

theorem State.auxRise_keeps {s0 : State} {s : State} (ks : Keeps s0 s) : Keeps s0 (State.auxRise s) := by
  unfold State.auxRise
  with_reducible repeat' (first | assumption | (extract_lets +onlyGivenNames x; clear_value x; revert x; intro _) | apply State.hswTry_keeps | (simp -zeta -iota only [Keeps.mk_iff]; apply KeepsMk.of (h1 := by simp) (h2 := by simp) (h3 := by simp)))

theorem execAuxPowerFall_keeps {s0 : State} {s : State} (ks : Keeps s0 s) : KeepsR s0 (execAuxPowerFall s) := by
  unfold execAuxPowerFall
  with_reducible repeat' (first | assumption | apply State.auxFall_keeps | apply KeepsR.next)

theorem execAuxPowerRise_keeps {s0 : State} {s : State} (ks : Keeps s0 s) : KeepsR s0 (execAuxPowerRise s) := by
  unfold execAuxPowerRise
  with_reducible repeat' (first | assumption | apply State.auxRise_keeps | apply KeepsR.next)

end Sys2Proof.Machine
end

