-- ==== Sys2Proof/Laws/KeepQosCore.lean ====
section
/-! SUPPORT. The operations of Machine/QosCore.lean break nothing (Laws/Keeps.lean). -/

namespace Sys2Proof.Machine

theorem State.police_keeps {s0 : State} {s : State} {h : Half} {d : Nat} {pre : Nat} (ks : Keeps s0 s) : Keeps1 s0 (State.police s h d pre) := by
  unfold State.police
  with_reducible repeat' (first | assumption | intro _ | (extract_lets +onlyGivenNames x; refine Keeps.have (Q := Keeps s0 x) ?_ ?_; dsimp -zeta -iota only [x]; clear x; rotate_left; clear_value x; revert x; intro _ _) | (extract_lets +onlyGivenNames x; clear_value x; revert x; intro _) | apply Keeps.ite | apply Keeps1.ite | apply State.count_keeps | (simp -zeta -iota only [Keeps1.pair]) | (simp -zeta -iota only [Keeps.mk_iff]; apply KeepsMk.of (h1 := by simp) (h2 := by simp) (h3 := by simp)) | split)

theorem State.mark_keeps {s0 : State} {s : State} {h : Half} {r : Req} {pre : Nat} (ks : Keeps s0 s) : Keeps1 s0 (State.mark s h r pre) := by
  unfold State.mark
  with_reducible repeat' (first | assumption | intro _ | (extract_lets +onlyGivenNames x; refine Keeps.have (Q := Keeps s0 x) ?_ ?_; dsimp -zeta -iota only [x]; clear x; rotate_left; clear_value x; revert x; intro _ _) | (extract_lets +onlyGivenNames x; clear_value x; revert x; intro _) | apply Keeps.ite | apply State.pulse_keeps | apply State.userCount_keeps | apply State.police_keeps | (simp -zeta -iota only [Keeps1.pair]) | (refine Keeps1.eq (by assumption) ?_) | split)

theorem State.shape_keeps {s0 : State} {s : State} {d : Nat} (ks : Keeps s0 s) : KeepsO s0 (State.shape s d) := by
  unfold State.shape
  with_reducible repeat' (first | assumption | intro _ | (extract_lets +onlyGivenNames x; clear_value x; revert x; intro _) | apply KeepsO.ite | apply KeepsO.none | apply KeepsO.some | (simp -zeta -iota only [Keeps.mk_iff]; apply KeepsMk.of (h1 := by simp) (h2 := by simp) (h3 := by simp)))

theorem State.bucketsFull_keeps {s0 : State} {s : State} (ks : Keeps s0 s) : Keeps s0 (State.bucketsFull s) := by
  unfold State.bucketsFull
  with_reducible repeat' (first | assumption | intro _ | (extract_lets +onlyGivenNames x; refine Keeps.have (Q := Keeps s0 x) ?_ ?_; dsimp -zeta -iota only [x]; clear x; rotate_left; clear_value x; revert x; intro _ _) | (extract_lets +onlyGivenNames x; clear_value x; revert x; intro _) | apply State.each_keeps | (simp -zeta -iota only [Keeps.mk_iff]; apply KeepsMk.of (h1 := by simp) (h2 := by simp) (h3 := by simp)))

theorem State.noteQueue_keeps {s0 : State} {s : State} {r : Req} {wait : Nat} (ks : Keeps s0 s) : Keeps s0 (State.noteQueue s r wait) := by
  unfold State.noteQueue
  with_reducible repeat' (first | assumption | (simp -zeta -iota only [Keeps.mk_iff]; apply KeepsMk.of (h1 := by simp) (h2 := by simp) (h3 := by simp)))

theorem State.domTally_keeps {s0 : State} {s : State} {d : Nat} (ks : Keeps s0 s) : Keeps s0 (State.domTally s d) := by
  unfold State.domTally
  with_reducible repeat' (first | assumption | (extract_lets +onlyGivenNames x; clear_value x; revert x; intro _) | apply State.setFld_keeps)

end Sys2Proof.Machine
end

