-- ==== Sys2Proof/Laws/KeepReqPath.lean ====
section
/-! SUPPORT. The operations of Machine/ReqPath.lean break nothing (Laws/Keeps.lean). -/

namespace Sys2Proof.Machine

theorem State.parity_keeps {s0 : State} {s : State} {h : Half} {u : Nat} {stage : Nat} {n : Nat} {rid : Option Nat} {dom : Option Nat} (ks : Keeps s0 s) : Keeps1 s0 (State.parity s h u stage n rid dom) := by
  unfold State.parity
  with_reducible repeat' (first | assumption | intro _ | (extract_lets +onlyGivenNames x; refine Keeps.have (Q := Keeps s0 x) ?_ ?_; dsimp -zeta -iota only [x]; clear x; rotate_left; clear_value x; revert x; intro _ _) | (extract_lets +onlyGivenNames x; clear_value x; revert x; intro _) | apply Keeps1.ite | apply State.pulse_keeps | apply State.note_keeps | apply State.exclude_keeps | apply State.raise_keeps | apply State.count_keeps | apply State.updReq_keeps | (simp -zeta -iota only [Keeps1.pair]) | split)

theorem State.stageParity_keeps {s0 : State} {s : State} {rid : Nat} {stage : Nat} {n : Nat} {here : List Nat} (ks : Keeps s0 s) : Keeps1 s0 (State.stageParity s rid stage n here) := by
  unfold State.stageParity
  with_reducible repeat' (first | assumption | intro _ | (extract_lets +onlyGivenNames x; clear_value x; revert x; intro _) | apply Keeps1.ite | (refine (State.parity_keeps ?_).out) | apply State.failReq_keeps | (simp -zeta -iota only [Keeps1.pair]) | split)

theorem State.moveReq_keeps {s0 : State} {s : State} {rid : Nat} {st : Stage} (ks : Keeps s0 s) : Keeps s0 (State.moveReq s rid st) := by
  unfold State.moveReq
  with_reducible repeat' (first | assumption | apply State.domTally_keeps | apply State.setStage_keeps | split)

theorem State.toChannel_keeps {s0 : State} {s : State} {rid : Nat} {ma : Nat} (ks : Keeps s0 s) : Keeps s0 (State.toChannel s rid ma) := by
  unfold State.toChannel
  with_reducible repeat' (first | assumption | intro _ | (extract_lets +onlyGivenNames x; refine Keeps.have (Q := Keeps s0 x) ?_ ?_; dsimp -zeta -iota only [x]; clear x; rotate_left; clear_value x; revert x; intro _ _) | (extract_lets +onlyGivenNames x; clear_value x; revert x; intro _) | apply Keeps.ite | apply State.pulse_keeps | apply State.exclude_keeps | apply State.moveReq_keeps | apply State.updReq_keeps | apply State.failReq_keeps | split)

theorem State.excludeState_keeps {s0 : State} {s : State} {r : Req} (ks : Keeps s0 s) : Keeps s0 (State.excludeState s r) := by
  unfold State.excludeState
  with_reducible repeat' (first | assumption | intro _ | (extract_lets +onlyGivenNames x; refine Keeps.have (Q := Keeps s0 x) ?_ ?_; dsimp -zeta -iota only [x]; clear x; rotate_left; clear_value x; revert x; intro _ _) | (extract_lets +onlyGivenNames x; clear_value x; revert x; intro _) | apply Keeps.ite | apply State.exclude_keeps)

theorem State.access_keeps {s0 : State} {s : State} {d : Nat} {p : Nat} (ks : Keeps s0 s) : Keeps s0 (State.access s d p) := by
  unfold State.access
  with_reducible repeat' (first | assumption | intro _ | (extract_lets +onlyGivenNames x; refine Keeps.have (Q := Keeps s0 x) ?_ ?_; dsimp -zeta -iota only [x]; clear x; rotate_left; clear_value x; revert x; intro _ _) | (extract_lets +onlyGivenNames x; clear_value x; revert x; intro _) | apply Keeps.ite | apply State.setExt_keeps | apply State.savePage_keeps | apply State.setPage_keeps | split)

theorem State.warm_keeps {s0 : State} {s : State} {d : Nat} {p : Nat} (ks : Keeps s0 s) : Keeps s0 (State.warm s d p) := by
  unfold State.warm
  with_reducible repeat' (first | assumption | (extract_lets +onlyGivenNames x; clear_value x; revert x; intro _) | apply State.setPage_keeps | split)

theorem State.discardWrite_keeps {s0 : State} {s : State} {rid : Nat} {cause : Nat} (ks : Keeps s0 s) : Keeps s0 (State.discardWrite s rid cause) := by
  unfold State.discardWrite
  with_reducible repeat' (first | assumption | intro _ | apply Keeps.ite | apply State.answer_keeps | (refine (State.mirrorOut_keeps ?_).out) | apply State.peerRefuse_keeps | apply State.updReq_keeps | split)

theorem State.readPage_keeps {s0 : State} {s : State} {r : Req} {pg : Page} (ks : Keeps s0 s) : Keeps s0 (State.readPage s r pg) := by
  unfold State.readPage
  with_reducible repeat' (first | assumption | intro _ | (extract_lets +onlyGivenNames x; refine Keeps.have (Q := Keeps s0 x) ?_ ?_; dsimp -zeta -iota only [x]; clear x; rotate_left; clear_value x; revert x; intro _ _) | (extract_lets +onlyGivenNames x; refine Keeps.isFun x ?_; dsimp -zeta -iota only [x]; clear x) | (extract_lets +onlyGivenNames x; clear_value x; revert x; intro _) | apply Keeps.ite | apply State.pulse_keeps | apply State.ccTouch_keeps | apply State.toChannel_keeps | apply State.answerRead_keeps | apply State.access_keeps | apply State.count_keeps | apply State.updReq_keeps | apply State.noteQueue_keeps | split)

theorem State.toFrame_keeps {s0 : State} {s : State} {r : Req} {unit : Nat} (ks : Keeps s0 s) : Keeps s0 (State.toFrame s r unit) := by
  unfold State.toFrame
  with_reducible repeat' (first | assumption | intro _ | (extract_lets +onlyGivenNames x; refine Keeps.have (Q := Keeps s0 x) ?_ ?_; dsimp -zeta -iota only [x]; clear x; rotate_left; clear_value x; revert x; intro _ _) | (extract_lets +onlyGivenNames x; clear_value x; revert x; intro _) | apply Keeps.ite | apply State.moveReq_keeps | apply State.updReq_keeps | apply State.failReq_keeps)

theorem State.touchComp_keeps {s0 : State} {s : State} {h : Half} {d : Nat} {p : Nat} (ks : Keeps s0 s) : Keeps s0 (State.touchComp s h d p) := by
  unfold State.touchComp
  with_reducible repeat' (first | assumption | (simp -zeta -iota only [Keeps.mk_iff]; apply KeepsMk.of (h1 := by simp) (h2 := by simp) (h3 := by simp)))

theorem State.writePage_keeps {s0 : State} {s : State} {r : Req} {pg : Page} {pick : Nat} (ks : Keeps s0 s) : Keeps s0 (State.writePage s r pg pick) := by
  unfold State.writePage
  with_reducible repeat' (first | assumption | intro _ | (extract_lets +onlyGivenNames x; refine Keeps.have (Q := Keeps s0 x) ?_ ?_; dsimp -zeta -iota only [x]; clear x; rotate_left; clear_value x; revert x; intro _ _) | (extract_lets +onlyGivenNames x; clear_value x; revert x; intro _) | apply Keeps.ite | apply State.fenceDiscard_keeps | apply State.discardWrite_keeps | apply State.toFrame_keeps | apply State.exclude_keeps | apply State.moveReq_keeps | apply State.media__keeps | apply State.warm_keeps | apply State.touchComp_keeps | apply State.access_keeps | (refine KeepsM.eqNear (by assumption) ?_) | (refine KeepsM.eqRefused (by assumption) ?_) | split)

theorem State.orderFirst_keeps {s0 : State} {s : State} {r : Req} (ks : Keeps s0 s) : Keeps s0 (State.orderFirst s r) := by
  unfold State.orderFirst
  with_reducible repeat' (first | assumption | intro _ | (extract_lets +onlyGivenNames x; clear_value x; revert x; intro _) | apply Keeps.ite | (simp -zeta -iota only [Keeps.mk_iff]; apply KeepsMk.of (h1 := by simp) (h2 := by simp) (h3 := by simp)))

theorem State.mapOld_keeps {s0 : State} {s : State} {r : Req} (ks : Keeps s0 s) : Keeps s0 (State.mapOld s r) := by
  unfold State.mapOld
  with_reducible repeat' (first | assumption | intro _ | (extract_lets +onlyGivenNames x; refine Keeps.have (Q := Keeps s0 x) ?_ ?_; dsimp -zeta -iota only [x]; clear x; rotate_left; clear_value x; revert x; intro _ _) | (extract_lets +onlyGivenNames x; clear_value x; revert x; intro _) | apply Keeps.ite | apply State.answer_keeps | apply State.toChannel_keeps | apply State.answerRead_keeps | apply State.updReq_keeps | split)

theorem State.mapStage_keeps {s0 : State} {s : State} {rid : Nat} {pick : Nat} {victim : Nat} {look : Nat} (ks : Keeps s0 s) : Keeps s0 (State.mapStage s rid pick victim look) := by
  unfold State.mapStage
  with_reducible repeat' (first | assumption | intro _ | (extract_lets +onlyGivenNames x; refine Keeps.have (Q := Keeps s0 x) ?_ ?_; dsimp -zeta -iota only [x]; clear x; rotate_left; clear_value x; revert x; intro _ _) | (extract_lets +onlyGivenNames x; clear_value x; revert x; intro _) | apply Keeps.ite | apply Keeps1.ite | apply KeepsO.ite | apply State.pulse_keeps | apply State.answer_keeps | apply State.mirDrop_keeps | apply State.mapOld_keeps | apply State.orderFirst_keeps | apply State.exclude_keeps | apply State.moveReq_keeps | apply State.answerRead_keeps | apply State.excludeState_keeps | apply State.writePage_keeps | apply State.snoopStep_keeps | apply State.updReq_keeps | apply State.readPage_keeps | apply State.failReq_keeps | (simp -zeta -iota only [Keeps1.pair]) | apply KeepsO.none | (refine Keeps1.eq (by assumption) ?_) | (refine Keeps.eqO (by assumption) ?_) | split)

theorem State.wakeStage5_keeps {s0 : State} {s : State} {d : Nat} {p : Nat} (ks : Keeps s0 s) : Keeps s0 (State.wakeStage5 s d p) := by
  unfold State.wakeStage5
  with_reducible repeat' (first | assumption | intro _ | (extract_lets +onlyGivenNames x; clear_value x; revert x; intro _) | apply State.mapStage_keeps | apply State.each_keeps)

theorem State.insertWrite_keeps {s0 : State} {s : State} {rid : Nat} (ks : Keeps s0 s) : Keeps s0 (State.insertWrite s rid) := by
  unfold State.insertWrite
  with_reducible repeat' (first | assumption | intro _ | (extract_lets +onlyGivenNames x; refine Keeps.have (Q := Keeps s0 x) ?_ ?_; dsimp -zeta -iota only [x]; clear x; rotate_left; clear_value x; revert x; intro _ _) | (extract_lets +onlyGivenNames x; clear_value x; revert x; intro _) | apply Keeps.ite | apply State.answer_keeps | (refine (State.mirrorOut_keeps ?_).out) | apply State.exclude_keeps | apply State.moveReq_keeps | apply State.buffer_keeps | apply State.updReq_keeps | apply State.noteQueue_keeps | apply State.failReq_keeps | split)

end Sys2Proof.Machine
end

