-- ==== Sys2Proof/Laws/KeepRequest.lean ====
section
/-! SUPPORT. The operations of Machine/Request.lean break nothing (Laws/Keeps.lean). -/

namespace Sys2Proof.Machine

theorem State.heard_keeps {s0 : State} {s : State} {p : Nat} {id : Nat} (ks : Keeps s0 s) : Keeps s0 (State.heard s p id) := by
  unfold State.heard
  with_reducible repeat' (first | assumption | intro _ | apply Keeps.ite | (simp -zeta -iota only [Keeps.mk_iff]; apply KeepsMk.of (h1 := by simp) (h2 := by simp) (h3 := by simp)))

theorem State.answerEarly_keeps {s0 : State} {s : State} {r : Req} (ks : Keeps s0 s) : Keeps s0 (State.answerEarly s r) := by
  unfold State.answerEarly
  with_reducible repeat' (first | assumption | apply State.admitReq_keeps)

theorem State.creditBack_keeps {s0 : State} {s : State} {p : Nat} {ch : Nat} (ks : Keeps s0 s) : Keeps s0 (State.creditBack s p ch) := by
  unfold State.creditBack
  with_reducible repeat' (first | assumption | intro _ | apply Keeps.ite | apply State.updPort_keeps)

theorem State.creditsDue_keeps {s0 : State} {s : State} {p : Nat} (ks : Keeps s0 s) : Keeps s0 (State.creditsDue s p) := by
  unfold State.creditsDue
  with_reducible repeat' (first | assumption | intro _ | apply Keeps.ite | apply State.updPort_keeps)

theorem State.takeHostCredit_keeps {s0 : State} {s : State} {p : Nat} {ch : Nat} {returned : Nat} (ks : Keeps s0 s) : Keeps1 s0 (State.takeHostCredit s p ch returned) := by
  unfold State.takeHostCredit
  with_reducible repeat' (first | assumption | (extract_lets +onlyGivenNames x; clear_value x; revert x; intro _) | apply State.updPort_keeps | (simp -zeta -iota only [Keeps1.pair]))

theorem State.enterPath_keeps {s0 : State} {s : State} {p : Nat} {id : Nat} {r : Req} {failed : Option Nat} {replayed : Bool} (ks : Keeps s0 s) : Keeps s0 (State.enterPath s p id r failed replayed) := by
  unfold State.enterPath
  with_reducible repeat' (first | assumption | intro _ | (extract_lets +onlyGivenNames x; refine Keeps.have (Q := Keeps s0 x) ?_ ?_; dsimp -zeta -iota only [x]; clear x; rotate_left; clear_value x; revert x; intro _ _) | (extract_lets +onlyGivenNames x; clear_value x; revert x; intro _) | apply Keeps.ite | apply State.admitReq_keeps | apply State.domTally_keeps | apply State.answerEarly_keeps | apply State.mark_keeps | apply State.poisonAt_keeps | apply State.itemFailed_keeps | (refine Keeps1.eq (by assumption) ?_) | split)

theorem State.arrive_keeps {s0 : State} {s : State} {p : Nat} {id : Nat} {hpa : Nat} {r : Req} {stage : Nat} {parity : Nat} (ks : Keeps s0 s) : Keeps s0 (State.arrive s p id hpa r stage parity) := by
  unfold State.arrive
  with_reducible repeat' (first | assumption | intro _ | (extract_lets +onlyGivenNames x; refine Keeps.have (Q := Keeps s0 x) ?_ ?_; dsimp -zeta -iota only [x]; clear x; rotate_left; clear_value x; revert x; intro _ _) | (extract_lets +onlyGivenNames x; clear_value x; revert x; intro _) | apply Keeps.ite | apply State.pulse_keeps | apply State.creditBack_keeps | apply State.answerEarly_keeps | (refine (State.parity_keeps ?_).out) | apply State.heard_keeps | apply State.count_keeps | apply State.enterPath_keeps | split)

theorem execMemRd_keeps {s0 : State} {p : Fin 16} {id : Fin 4096} {hpa : Nat} {tag : BitVec 16} {want : Fin 3} {stage : Fin 11} {parity : Fin 5} {s : State} (ks : Keeps s0 s) : KeepsR s0 (execMemRd p id hpa tag want stage parity s) := by
  unfold execMemRd
  with_reducible repeat' (first | assumption | apply State.arrive_keeps | apply KeepsR.next)

theorem execMemInv_keeps {s0 : State} {p : Fin 16} {id : Fin 4096} {hpa : Nat} {tag : BitVec 16} {want : Fin 3} {s : State} (ks : Keeps s0 s) : KeepsR s0 (execMemInv p id hpa tag want s) := by
  unfold execMemInv
  with_reducible repeat' (first | assumption | apply State.arrive_keeps | apply KeepsR.next)

theorem execMemClnEvct_keeps {s0 : State} {p : Fin 16} {id : Fin 4096} {hpa : Nat} {tag : BitVec 16} {s : State} (ks : Keeps s0 s) : KeepsR s0 (execMemClnEvct p id hpa tag s) := by
  unfold execMemClnEvct
  with_reducible repeat' (first | assumption | apply State.arrive_keeps | apply KeepsR.next)

theorem execMemSpecRd_keeps {s0 : State} {p00 : Fin 16} {id00 : Fin 4096} {hpa00 : Nat} {tag00 : BitVec 16} {s : State} (ks : Keeps s0 s) : KeepsR s0 (execMemSpecRd p00 id00 hpa00 tag00 s) := by
  unfold execMemSpecRd
  with_reducible repeat' (first | assumption | apply KeepsR.next)

theorem execMemWr_keeps {s0 : State} {p : Fin 16} {id : Fin 4096} {hpa : Nat} {tag : BitVec 16} {want : Fin 3} {data : Line} {poison : Bool} {stage : Fin 11} {parity : Fin 5} {s : State} (ks : Keeps s0 s) : KeepsR s0 (execMemWr p id hpa tag want data poison stage parity s) := by
  unfold execMemWr
  with_reducible repeat' (first | assumption | (extract_lets +onlyGivenNames x; clear_value x; revert x; intro _) | apply State.arrive_keeps | apply KeepsR.next)

theorem execMemWrPtl_keeps {s0 : State} {p : Fin 16} {id : Fin 4096} {hpa : Nat} {tag : BitVec 16} {want : Fin 3} {data : Line} {enables : BitVec 64} {poison : Bool} {stage : Fin 11} {parity : Fin 5} {s : State} (ks : Keeps s0 s) : KeepsR s0 (execMemWrPtl p id hpa tag want data enables poison stage parity s) := by
  unfold execMemWrPtl
  with_reducible repeat' (first | assumption | (extract_lets +onlyGivenNames x; clear_value x; revert x; intro _) | apply State.arrive_keeps | apply KeepsR.next)

theorem State.unsupportedMsg_keeps {s0 : State} {s : State} {p : Nat} {id : Nat} {tag : Nat} {expectsData : Bool} (ks : Keeps s0 s) : Keeps s0 (State.unsupportedMsg s p id tag expectsData) := by
  unfold State.unsupportedMsg
  with_reducible repeat' (first | assumption | intro _ | (extract_lets +onlyGivenNames x; refine Keeps.have (Q := Keeps s0 x) ?_ ?_; dsimp -zeta -iota only [x]; clear x; rotate_left; clear_value x; revert x; intro _ _) | (extract_lets +onlyGivenNames x; clear_value x; revert x; intro _) | apply Keeps.ite | apply State.creditBack_keeps | apply State.answerEarly_keeps | apply State.heard_keeps | apply State.count_keeps)

theorem execUnsupportedMessage_keeps {s0 : State} {p : Fin 16} {id : Fin 4096} {tag : BitVec 16} {expectsData : Bool} {s : State} (ks : Keeps s0 s) : KeepsR s0 (execUnsupportedMessage p id tag expectsData s) := by
  unfold execUnsupportedMessage
  with_reducible repeat' (first | assumption | apply State.unsupportedMsg_keeps | apply KeepsR.next)

theorem State.grantEntry_keeps {s0 : State} {s : State} {h : Half} (ks : Keeps s0 s) : Keeps s0 (State.grantEntry s h) := by
  unfold State.grantEntry
  with_reducible repeat' (first | assumption | intro _ | (extract_lets +onlyGivenNames x; refine Keeps.have (Q := Keeps s0 x) ?_ ?_; dsimp -zeta -iota only [x]; clear x; rotate_left; clear_value x; revert x; intro _ _) | (extract_lets +onlyGivenNames x; clear_value x; revert x; intro _) | apply Keeps.ite | apply State.domTally_keeps | apply State.creditsDue_keeps | apply State.enterReq_keeps | (simp -zeta -iota only [Keeps.mk_iff]; apply KeepsMk.of (h1 := by simp) (h2 := by simp) (h3 := by simp)) | split)

theorem execRequestEntryGrant_keeps {s0 : State} {h : Half} {s : State} (ks : Keeps s0 s) : KeepsR s0 (execRequestEntryGrant h s) := by
  unfold execRequestEntryGrant
  with_reducible repeat' (first | assumption | apply State.grantEntry_keeps | apply KeepsR.next)

theorem State.releaseQueue_keeps {s0 : State} {s : State} {d : Nat} {pick : Nat} {victim : Nat} {stage : Nat} {parity : Nat} (ks : Keeps s0 s) : Keeps s0 (State.releaseQueue s d pick victim stage parity) := by
  unfold State.releaseQueue
  with_reducible repeat' (first | assumption | intro _ | (extract_lets +onlyGivenNames x; refine Keeps.have (Q := Keeps s0 x) ?_ ?_; dsimp -zeta -iota only [x]; clear x; rotate_left; clear_value x; revert x; intro _ _) | apply Keeps.ite | apply State.domTally_keeps | apply State.shape_keeps | (refine (State.stageParity_keeps ?_).out) | apply State.updReq_keeps | apply State.mapStage_keeps | (refine Keeps.eqO (by assumption) ?_) | split)

theorem execDomainQueueRelease_keeps {s0 : State} {d : Fin 1024} {pick : Nat} {victim : Nat} {stage : Fin 11} {parity : Fin 5} {s : State} (ks : Keeps s0 s) : KeepsR s0 (execDomainQueueRelease d pick victim stage parity s) := by
  unfold execDomainQueueRelease
  with_reducible repeat' (first | assumption | apply State.releaseQueue_keeps | apply KeepsR.next)

theorem State.metaFill_keeps {s0 : State} {s : State} {rid : Nat} {errs : List Burst} {victim : Nat} (ks : Keeps s0 s) : Keeps s0 (State.metaFill s rid errs victim) := by
  unfold State.metaFill
  with_reducible repeat' (first | assumption | intro _ | (extract_lets +onlyGivenNames x; refine Keeps.isFun x ?_; dsimp -zeta -iota only [x]; clear x) | (extract_lets +onlyGivenNames x; clear_value x; revert x; intro _) | apply Keeps.ite | (refine (State.readMeta_keeps ?_).out) | apply State.mcFill_keeps | apply State.setStage_keeps | apply State.answerRead_keeps | apply State.mapStage_keeps | split)

theorem execMetadataFill_keeps {s0 : State} {rid : Fin 65536} {errs : List Burst} {victim : Nat} {s : State} (ks : Keeps s0 s) : KeepsR s0 (execMetadataFill rid errs victim s) := by
  unfold execMetadataFill
  with_reducible repeat' (first | assumption | apply State.metaFill_keeps | apply KeepsR.next)

theorem State.lockGrant_keeps {s0 : State} {s : State} {rid : Nat} {pick : Nat} (ks : Keeps s0 s) : Keeps s0 (State.lockGrant s rid pick) := by
  unfold State.lockGrant
  with_reducible repeat' (first | assumption | intro _ | apply Keeps.ite | apply State.mapStage_keeps | split)

theorem execPageLockGrant_keeps {s0 : State} {rid : Fin 65536} {pick : Nat} {s : State} (ks : Keeps s0 s) : KeepsR s0 (execPageLockGrant rid pick s) := by
  unfold execPageLockGrant
  with_reducible repeat' (first | assumption | apply State.lockGrant_keeps | apply KeepsR.next)

theorem execWriteBufferInsert_keeps {s0 : State} {rid : Fin 65536} {s : State} (ks : Keeps s0 s) : KeepsR s0 (execWriteBufferInsert rid s) := by
  unfold execWriteBufferInsert
  with_reducible repeat' (first | assumption | apply State.insertWrite_keeps | apply KeepsR.next)

theorem State.reenter_keeps {s0 : State} {s : State} {c : Nat} (ks : Keeps s0 s) : Keeps s0 (State.reenter s c) := by
  unfold State.reenter
  with_reducible repeat' (first | assumption | intro _ | apply Keeps.ite | apply State.moveReq_keeps | apply State.insertWrite_keeps | apply State.failReq_keeps | split)

theorem execParkReentry_keeps {s0 : State} {c : Fin 24} {s : State} (ks : Keeps s0 s) : KeepsR s0 (execParkReentry c s) := by
  unfold execParkReentry
  with_reducible repeat' (first | assumption | apply State.reenter_keeps | apply KeepsR.next)

theorem State.endBi_keeps {s0 : State} {s : State} {h : Half} {d : Nat} {line : Nat} (ks : Keeps s0 s) : Keeps s0 (State.endBi s h d line) := by
  unfold State.endBi
  with_reducible repeat' (first | assumption | apply State.wakeStage5_keeps | apply State.wakeEvict_keeps | apply State.wakeLine_keeps)

theorem State.biLine_keeps {s0 : State} {s : State} {p : Nat} {id : Nat} {hpa : Nat} {keeps : Bool} (ks : Keeps s0 s) : Keeps s0 (State.biLine s p id hpa keeps) := by
  unfold State.biLine
  with_reducible repeat' (first | assumption | intro _ | apply Keeps.ite | (refine (State.biAnswer_keeps ?_).out) | apply State.endBi_keeps | split)

theorem State.biRsp_keeps {s0 : State} {s : State} {p : Nat} {id : Nat} {hpa : Nat} {keeps : Nat} (ks : Keeps s0 s) : Keeps s0 (State.biRsp s p id hpa keeps) := by
  unfold State.biRsp
  with_reducible repeat' (first | assumption | intro _ | apply Keeps.ite | apply State.biLine_keeps | apply State.each_keeps)

theorem execBiRsp_keeps {s0 : State} {p : Fin 16} {id : Fin 4096} {hpa : Nat} {keeps : Fin 6} {s : State} (ks : Keeps s0 s) : KeepsR s0 (execBiRsp p id hpa keeps s) := by
  unfold execBiRsp
  with_reducible repeat' (first | assumption | apply State.biRsp_keeps | apply KeepsR.next)

theorem State.sendBi_keeps {s0 : State} {s : State} {h : Half} {d : Nat} {line : Nat} {host : Nat} {returned : Nat} (ks : Keeps s0 s) : Keeps s0 (State.sendBi s h d line host returned) := by
  unfold State.sendBi
  with_reducible repeat' (first | assumption | intro _ | (extract_lets +onlyGivenNames x; refine Keeps.have (Q := Keeps s0 x) ?_ ?_; dsimp -zeta -iota only [x]; clear x; rotate_left; clear_value x; revert x; intro _ _) | apply Keeps.ite | apply State.pulse_keeps | (refine (State.takeHostCredit_keeps ?_).out) | apply State.updSf_keeps | apply State.emit_keeps | split)

theorem execBisnpSend_keeps {s0 : State} {h : Half} {d : Fin 1024} {line : Nat} {host : BiTarget} {s : State} (ks : Keeps s0 s) : KeepsR s0 (execBisnpSend h d line host s) := by
  unfold execBisnpSend
  with_reducible repeat' (first | assumption | apply State.sendBi_keeps | apply KeepsR.next)

theorem State.biTimeout_keeps {s0 : State} {s : State} {h : Half} {d : Nat} {line : Nat} {host : Nat} (ks : Keeps s0 s) : Keeps s0 (State.biTimeout s h d line host) := by
  unfold State.biTimeout
  with_reducible repeat' (first | assumption | intro _ | apply Keeps.ite | apply State.note_keeps | (refine (State.biAnswer_keeps ?_).out) | apply State.endBi_keeps | apply State.poisonAt_keeps | apply State.count_keeps | split)

theorem execRqBiTimeout_keeps {s0 : State} {h : Half} {d : Fin 1024} {line : Nat} {host : Nat} {s : State} (ks : Keeps s0 s) : KeepsR s0 (execRqBiTimeout h d line host s) := by
  unfold execRqBiTimeout
  with_reducible repeat' (first | assumption | apply State.biTimeout_keeps | apply KeepsR.next)

theorem State.monitor_keeps {s0 : State} {s : State} {r : Req} (ks : Keeps s0 s) : Keeps s0 (State.monitor s r) := by
  unfold State.monitor
  with_reducible repeat' (first | assumption | intro _ | (extract_lets +onlyGivenNames x; refine Keeps.have (Q := Keeps s0 x) ?_ ?_; dsimp -zeta -iota only [x]; clear x; rotate_left; clear_value x; revert x; intro _ _) | (extract_lets +onlyGivenNames x; clear_value x; revert x; intro _) | apply Keeps.ite | apply State.note_keeps | apply State.toFm_keeps | apply State.setFld_keeps | apply State.count_keeps)

theorem State.countResponse_keeps {s0 : State} {s : State} {r : Req} {load : Nat} (ks : Keeps s0 s) : Keeps s0 (State.countResponse s r load) := by
  unfold State.countResponse
  with_reducible repeat' (first | assumption | intro _ | (extract_lets +onlyGivenNames x; refine Keeps.have (Q := Keeps s0 x) ?_ ?_; dsimp -zeta -iota only [x]; clear x; rotate_left; clear_value x; revert x; intro _ _) | (extract_lets +onlyGivenNames x; clear_value x; revert x; intro _) | apply Keeps.ite | apply State.pulse_keeps | apply State.userCount_keeps | apply State.fixed_keeps | split)

theorem State.respond_keeps {s0 : State} {s : State} {rid : Nat} {returned : Nat} (ks : Keeps s0 s) : Keeps s0 (State.respond s rid returned) := by
  unfold State.respond
  with_reducible repeat' (first | assumption | intro _ | (extract_lets +onlyGivenNames x; refine Keeps.have (Q := Keeps s0 x) ?_ ?_; dsimp -zeta -iota only [x]; clear x; rotate_left; clear_value x; revert x; intro _ _) | (extract_lets +onlyGivenNames x; clear_value x; revert x; intro _) | apply Keeps.ite | apply State.dropReq_keeps | apply State.monitor_keeps | (refine (State.takeHostCredit_keeps ?_).out) | apply State.countResponse_keeps | apply State.emit_keeps | apply State.sampleDone_keeps | split)

theorem execResponseSend_keeps {s0 : State} {rid : ReadyResponse} {s : State} (ks : Keeps s0 s) : KeepsR s0 (execResponseSend rid s) := by
  unfold execResponseSend
  with_reducible repeat' (first | assumption | apply State.respond_keeps | apply KeepsR.next)

end Sys2Proof.Machine
end

