-- ==== Sys2Proof/Laws/KeepChannel.lean ====
section
/-! SUPPORT. The operations of Machine/Channel.lean break nothing (Laws/Keeps.lean). -/

namespace Sys2Proof.Machine

theorem State.caConfirm_keeps {s0 : State} {s : State} {c : Nat} (ks : Keeps s0 s) : Keeps s0 (State.caConfirm s c) := by
  unfold State.caConfirm
  with_reducible repeat' (first | assumption | intro _ | apply Keeps.ite | apply State.updChan_keeps | apply State.say_keeps)

theorem State.sweepNow_keeps {s0 : State} {s : State} {c : Nat} (ks : Keeps s0 s) : Keeps s0 (State.sweepNow s c) := by
  unfold State.sweepNow
  with_reducible repeat' (first | assumption | (extract_lets +onlyGivenNames x; refine Keeps.have (Q := Keeps s0 x) ?_ ?_; dsimp -zeta -iota only [x]; clear x; rotate_left; clear_value x; revert x; intro _ _) | apply State.pulse_keeps | apply State.updChan_keeps | apply State.setFld_keeps | apply State.caConfirm_keeps)

theorem State.writeBack_keeps {s0 : State} {s : State} {c : Nat} (ks : Keeps s0 s) : Keeps s0 (State.writeBack s c) := by
  unfold State.writeBack
  with_reducible repeat' (first | assumption | (extract_lets +onlyGivenNames x; refine Keeps.have (Q := Keeps s0 x) ?_ ?_; dsimp -zeta -iota only [x]; clear x; rotate_left; clear_value x; revert x; intro _ _) | (extract_lets +onlyGivenNames x; clear_value x; revert x; intro _) | apply State.updChan_keeps | apply State.caConfirm_keeps | apply State.putBurst_keeps | apply State.countWrite_keeps | split)

theorem State.combLag_keeps {s0 : State} {s : State} {c : Nat} (ks : Keeps s0 s) : Keeps s0 (State.combLag s c) := by
  unfold State.combLag
  with_reducible repeat' (first | assumption | (extract_lets +onlyGivenNames x; clear_value x; revert x; intro _) | apply State.setFlag_keeps)

theorem State.took_keeps {s0 : State} {s : State} {c : Nat} {who : Nat} (ks : Keeps s0 s) : Keeps s0 (State.took s c who) := by
  unfold State.took
  with_reducible repeat' (first | assumption | apply State.updChan_keeps)

theorem State.startRead_keeps {s0 : State} {s : State} {r : Req} (ks : Keeps s0 s) : Keeps s0 (State.startRead s r) := by
  unfold State.startRead
  with_reducible repeat' (first | assumption | (extract_lets +onlyGivenNames x; refine Keeps.have (Q := Keeps s0 x) ?_ ?_; dsimp -zeta -iota only [x]; clear x; rotate_left; clear_value x; revert x; intro _ _) | apply State.domTally_keeps | apply State.updReq_keeps | apply State.noteQueue_keeps)

theorem State.startWrite_keeps {s0 : State} {s : State} {c : Nat} {w : WbEntry} {errs : List Burst} (ks : Keeps s0 s) : Keeps s0 (State.startWrite s c w errs) := by
  unfold State.startWrite
  with_reducible repeat' (first | assumption | apply State.updChan_keeps | apply State.drainEntry_keeps)

theorem State.startOp_keeps {s0 : State} {s : State} {c : Nat} {errs : List Burst} {a3 : ChanOp} (ks : Keeps s0 s) : Keeps s0 (State.startOp s c errs a3) := by
  unfold State.startOp
  with_reducible repeat' (first | assumption | apply State.startWrite_keeps | apply State.startRead_keeps | split)

theorem State.bufferReads_keeps {s0 : State} {s : State} {c : Nat} (ks : Keeps s0 s) : Keeps s0 (State.bufferReads s c) := by
  unfold State.bufferReads
  with_reducible repeat' (first | assumption | intro _ | (extract_lets +onlyGivenNames x; refine Keeps.have (Q := Keeps s0 x) ?_ ?_; dsimp -zeta -iota only [x]; clear x; rotate_left; clear_value x; revert x; intro _ _) | apply Keeps.ite | apply State.answerRead_keeps | apply State.updReq_keeps | apply State.noteQueue_keeps | apply State.each_keeps | split)

theorem State.oversizeOp_keeps {s0 : State} {s : State} {c : Nat} {o : ChanOp} (ks : Keeps s0 s) : Keeps s0 (State.oversizeOp s c o) := by
  unfold State.oversizeOp
  with_reducible repeat' (first | assumption | (extract_lets +onlyGivenNames x; refine Keeps.have (Q := Keeps s0 x) ?_ ?_; dsimp -zeta -iota only [x]; clear x; rotate_left; clear_value x; revert x; intro _ _) | (extract_lets +onlyGivenNames x; clear_value x; revert x; intro _) | apply State.updChan_keeps | apply State.setFlag_keeps | (refine (State.freeLine_keeps ?_).out) | apply State.note_keeps | apply State.answerRead_keeps | apply State.count_keeps | split)

theorem State.clearOversize_keeps {s0 : State} {s : State} {c : Nat} (ks : Keeps s0 s) : Keeps s0 (State.clearOversize s c) := by
  unfold State.clearOversize
  with_reducible repeat' (first | assumption | intro _ | apply Keeps.ite | apply State.oversizeOp_keeps | apply State.each_keeps)

theorem State.nextClass_keeps {s0 : State} {s : State} {i : Nat} (ks : Keeps s0 s) : Keeps s0 (State.nextClass s i) := by
  unfold State.nextClass
  with_reducible repeat' (first | assumption | (extract_lets +onlyGivenNames x; clear_value x; revert x; intro _) | apply State.updSched_keeps)

theorem State.setDeficit_keeps {s0 : State} {s : State} {i : Nat} {v : Nat} (ks : Keeps s0 s) : Keeps s0 (State.setDeficit s i v) := by
  unfold State.setDeficit
  with_reducible repeat' (first | assumption | apply State.updSched_keeps)

theorem State.drr_keeps {s0 : State} {α : Type} {i : Nat} {ops : State → Nat → List α} {ok : State → Nat → α → Bool} {a4 : Nat} {a5 : State} (ka5 : Keeps s0 a5) : Keeps1 s0 (State.drr i ops ok a4 a5) := by
  induction a4 generalizing a5 with
  | zero => exact ⟨ka5⟩
  | succ n ih =>
    unfold State.drr
    with_reducible repeat' (first | apply ih | (refine (ih ?_).out) | assumption | intro _ | (extract_lets +onlyGivenNames x; clear_value x; revert x; intro _) | apply Keeps1.ite | apply State.setDeficit_keeps | apply State.nextClass_keeps | (simp -zeta -iota only [Keeps1.pair]) | split)

theorem State.sequence_keeps {s0 : State} {s : State} {c : Nat} {errs : List Burst} (ks : Keeps s0 s) : Keeps s0 (State.sequence s c errs) := by
  unfold State.sequence
  with_reducible repeat' (first | assumption | intro _ | (extract_lets +onlyGivenNames x; refine Keeps.have (Q := Keeps s0 x) ?_ ?_; dsimp -zeta -iota only [x]; clear x; rotate_left; clear_value x; revert x; intro _ _) | apply Keeps.ite | apply State.bufferReads_keeps | apply State.startWrite_keeps | apply State.drr_keeps | apply State.setDeficit_keeps | apply State.caConfirm_keeps | apply State.startOp_keeps | apply State.sweepNow_keeps | apply State.writeBack_keeps | apply State.clearOversize_keeps | (refine Keeps1.eq (by assumption) ?_) | split)

theorem execChannelSequenceStart_keeps {s0 : State} {c : Fin 24} {errs : List Burst} {s : State} (ks : Keeps s0 s) : KeepsR s0 (execChannelSequenceStart c errs s) := by
  unfold execChannelSequenceStart
  with_reducible repeat' (first | assumption | apply State.sequence_keeps | apply KeepsR.next)

end Sys2Proof.Machine
end

