-- ==== Sys2Proof/Laws/KeepDram.lean ====
section
/-! SUPPORT. The operations of Machine/Dram.lean break nothing (Laws/Keeps.lean). -/

namespace Sys2Proof.Machine

theorem State.replayed_keeps {s0 : State} {s : State} {rid : Nat} (ks : Keeps s0 s) : Keeps s0 (State.replayed s rid) := by
  unfold State.replayed
  with_reducible repeat' (first | assumption | apply State.exclude_keeps | apply State.updReq_keeps)

theorem State.finishNear_keeps {s0 : State} {s : State} {r : Req} {cipher : Line} (ks : Keeps s0 s) : Keeps s0 (State.finishNear s r cipher) := by
  unfold State.finishNear
  with_reducible repeat' (first | assumption | intro _ | (extract_lets +onlyGivenNames x; refine Keeps.have (Q := Keeps s0 x) ?_ ?_; dsimp -zeta -iota only [x]; clear x; rotate_left; clear_value x; revert x; intro _ _) | (extract_lets +onlyGivenNames x; clear_value x; revert x; intro _) | apply Keeps.ite | apply State.pulse_keeps | apply State.macFail_keeps | apply State.exclude_keeps | apply State.answerRead_keeps | apply State.updReq_keeps | apply State.markNear_keeps | split)

theorem State.waitCtr_keeps {s0 : State} {s : State} {r : Req} {lines : List Line} (ks : Keeps s0 s) : Keeps s0 (State.waitCtr s r lines) := by
  unfold State.waitCtr
  with_reducible repeat' (first | assumption | apply State.updReq_keeps)

theorem State.nearBack_keeps {s0 : State} {s : State} {r : Req} {d : Decoded} {errs : List Burst} (ks : Keeps s0 s) : Keeps s0 (State.nearBack s r d errs) := by
  unfold State.nearBack
  with_reducible repeat' (first | assumption | intro _ | apply Keeps.ite | apply State.macFail_keeps | apply State.finishNear_keeps | apply State.waitCtr_keeps | apply State.readTag_keeps | apply State.answerRead_keeps | apply State.markNear_keeps | (refine Keeps22.eq (by assumption) ?_) | split)

theorem State.noteAgain_keeps {s0 : State} {s : State} {r : Req} (ks : Keeps s0 s) : Keeps s0 (State.noteAgain s r) := by
  unfold State.noteAgain
  with_reducible repeat' (first | assumption | apply State.stageReplay_keeps | apply State.replayed_keeps | apply State.updReq_keeps)

theorem State.nearDone_keeps {s0 : State} {s : State} {r : Req} {errs : List Burst} (ks : Keeps s0 s) : Keeps s0 (State.nearDone s r errs) := by
  unfold State.nearDone
  with_reducible repeat' (first | assumption | intro _ | (extract_lets +onlyGivenNames x; refine Keeps.have (Q := Keeps s0 x) ?_ ?_; dsimp -zeta -iota only [x]; clear x; rotate_left; clear_value x; revert x; intro _ _) | (extract_lets +onlyGivenNames x; clear_value x; revert x; intro _) | apply Keeps.ite | apply State.noteAgain_keeps | apply State.readNote_keeps | apply State.nearBack_keeps | apply State.moveReq_keeps | apply State.countRead_keeps)

theorem State.takeSlotLine_keeps {s0 : State} {s : State} {h : Half} {base : Nat} {d : Nat} {page : Nat} {j : Nat} {seq : Nat} {errs : List Burst} {how : Again} (ks : Keeps s0 s) : Keeps2 s0 (State.takeSlotLine s h base d page j seq errs how) := by
  unfold State.takeSlotLine
  with_reducible repeat' (first | assumption | intro _ | (extract_lets +onlyGivenNames x; refine Keeps.have (Q := Keeps s0 x) ?_ ?_; dsimp -zeta -iota only [x]; clear x; rotate_left; clear_value x; revert x; intro _ _) | (extract_lets +onlyGivenNames x; clear_value x; revert x; intro _) | apply Keeps2.ite | apply State.macFail_keeps | apply State.readNote_keeps | apply State.readTag_keeps | (refine (State.deviceRead_keeps ?_).out) | apply State.countRead_keeps | (simp -zeta -iota only [Keeps2.pair]) | (refine Keeps22.eq (by assumption) ?_) | split)

theorem State.slotHead_keeps {s0 : State} {s : State} {h : Half} {base : Nat} {d : Nat} {page : Nat} {errs : List Burst} {how : Again} (ks : Keeps s0 s) : Keeps2 s0 (State.slotHead s h base d page errs how) := by
  unfold State.slotHead
  with_reducible repeat' (first | assumption | apply State.takeSlotLine_keeps | (simp -zeta -iota only [Keeps2.pair]) | (refine Keeps2.eq (by assumption) ?_) | split)

theorem State.readSlot_keeps {s0 : State} {s : State} {h : Half} {base : Nat} {k : Nat} {d : Nat} {page : Nat} {chunks : List Nat} {errs : List Burst} {how : Again} (ks : Keeps s0 s) : Keeps2 s0 (State.readSlot s h base k d page chunks errs how) := by
  unfold State.readSlot
  with_reducible repeat' (first | assumption | intro _ | (extract_lets +onlyGivenNames x; clear_value x; revert x; intro _) | apply State.slotHead_keeps | apply State.takeSlotLine_keeps | (simp -zeta -iota only [Keeps2.pair]) | apply Keeps2.foldl | (refine Keeps2.eq (by assumption) ?_) | (exact Keeps2.out (by assumption)) | split)

theorem State.wantPromote_keeps {s0 : State} {s : State} {h : Half} {d : Nat} {page : Nat} (ks : Keeps s0 s) : Keeps s0 (State.wantPromote s h d page) := by
  unfold State.wantPromote
  with_reducible repeat' (first | assumption | intro _ | apply Keeps.ite | (simp -zeta -iota only [Keeps.mk_iff]; apply KeepsMk.of (h1 := by simp) (h2 := by simp) (h3 := by simp)))

theorem State.ccFill_keeps {s0 : State} {s : State} {h : Half} {slot : Nat} {chunk : Nat} {lines : List Line} (ks : Keeps s0 s) : Keeps s0 (State.ccFill s h slot chunk lines) := by
  unfold State.ccFill
  with_reducible repeat' (first | assumption | intro _ | (extract_lets +onlyGivenNames x; clear_value x; revert x; intro _) | apply Keeps.ite | apply State.ccTouch_keeps | (simp -zeta -iota only [Keeps.mk_iff]; apply KeepsMk.of (h1 := by simp) (h2 := by simp) (h3 := by simp)))

theorem State.cacheChunk_keeps {s0 : State} {s : State} {h : Half} {slot : Nat} {chunk : Nat} {lines : List Line} {l0 : Line} (ks : Keeps s0 s) : Keeps s0 (State.cacheChunk s h slot chunk lines l0) := by
  unfold State.cacheChunk
  with_reducible repeat' (first | assumption | intro _ | (extract_lets +onlyGivenNames x; refine Keeps.have (Q := Keeps s0 x) ?_ ?_; dsimp -zeta -iota only [x]; clear x; rotate_left; clear_value x; revert x; intro _ _) | apply Keeps.ite | apply State.mcFill_keeps | apply State.ccFill_keeps | (simp -zeta -iota only [Keeps.mk_iff]; apply KeepsMk.of (h1 := by simp) (h2 := by simp) (h3 := by simp)))

theorem State.chunkErr_keeps {s0 : State} {s : State} {h : Half} {d : Nat} {page : Nat} {slot : Option Nat} {chunk : Nat} {e00 : Nat} (ks : Keeps s0 s) : Keeps s0 (State.chunkErr s h d page slot chunk e00) := by
  unfold State.chunkErr
  with_reducible repeat' (first | assumption | (extract_lets +onlyGivenNames x; refine Keeps.have (Q := Keeps s0 x) ?_ ?_; dsimp -zeta -iota only [x]; clear x; rotate_left; clear_value x; revert x; intro _ _) | apply State.pulse_keeps | apply State.note_keeps | apply State.setFld_keeps | apply State.count_keeps)

theorem State.chunkFailed_keeps {s0 : State} {s : State} {h : Half} {d : Nat} {page : Nat} {slot : Nat} {chunk : Nat} {e00 : Nat} (ks : Keeps s0 s) : Keeps s0 (State.chunkFailed s h d page slot chunk e00) := by
  unfold State.chunkFailed
  with_reducible repeat' (first | assumption | apply State.chunkErr_keeps | apply State.wantPromote_keeps)

theorem State.chunkEnd_keeps {s0 : State} {s : State} {h : Half} {d : Nat} {page : Nat} {slot : Nat} {chunk : Nat} {rid : Option Nat} {got : Option (List Line)} (ks : Keeps s0 s) : Keeps s0 (State.chunkEnd s h d page slot chunk rid got) := by
  unfold State.chunkEnd
  with_reducible repeat' (first | assumption | (extract_lets +onlyGivenNames x; refine Keeps.have (Q := Keeps s0 x) ?_ ?_; dsimp -zeta -iota only [x]; clear x; rotate_left; clear_value x; revert x; intro _ _) | (extract_lets +onlyGivenNames x; refine Keeps.isFun x ?_; dsimp -zeta -iota only [x]; clear x) | apply State.answerRead_keeps | apply State.updReq_keeps | (simp -zeta -iota only [Keeps.mk_iff]; apply KeepsMk.of (h1 := by simp) (h2 := by simp) (h3 := by simp)) | split)

theorem State.keepFailed_keeps {s0 : State} {s : State} {h : Half} {d : Nat} {page : Nat} {chunk : Nat} (ks : Keeps s0 s) : Keeps s0 (State.keepFailed s h d page chunk) := by
  unfold State.keepFailed
  with_reducible repeat' (first | assumption | (simp -zeta -iota only [Keeps.mk_iff]; apply KeepsMk.of (h1 := by simp) (h2 := by simp) (h3 := by simp)))

theorem State.slotDone_keeps {s0 : State} {s : State} {r : Req} {errs : List Burst} (ks : Keeps s0 s) : Keeps s0 (State.slotDone s r errs) := by
  unfold State.slotDone
  with_reducible repeat' (first | assumption | intro _ | (extract_lets +onlyGivenNames x; refine Keeps.have (Q := Keeps s0 x) ?_ ?_; dsimp -zeta -iota only [x]; clear x; rotate_left; clear_value x; revert x; intro _ _) | (extract_lets +onlyGivenNames x; clear_value x; revert x; intro _) | apply Keeps.ite | apply State.pulse_keeps | (refine (State.readSlot_keeps ?_).out) | apply State.noteAgain_keeps | apply State.cacheChunk_keeps | apply State.chunkFailed_keeps | apply State.wantPromote_keeps | apply State.waitCtr_keeps | apply State.chunkEnd_keeps | apply State.setStage_keeps | apply State.keepFailed_keeps | apply State.moveReq_keeps | apply State.answerRead_keeps | apply State.updReq_keeps | split)

theorem State.readDone_keeps {s0 : State} {s : State} {rid : Nat} {errs : List Burst} {stage : Nat} {parity : Nat} (ks : Keeps s0 s) : Keeps s0 (State.readDone s rid errs stage parity) := by
  unfold State.readDone
  with_reducible repeat' (first | assumption | intro _ | (extract_lets +onlyGivenNames x; clear_value x; revert x; intro _) | apply Keeps.ite | apply State.slotDone_keeps | apply State.caConfirm_keeps | (refine (State.stageParity_keeps ?_).out) | apply State.answerRead_keeps | apply State.nearDone_keeps | apply State.updReq_keeps | split)

theorem execDramReadDone_keeps {s0 : State} {rid : Fin 65536} {errs : List Burst} {stage : Fin 11} {parity : Fin 5} {s : State} (ks : Keeps s0 s) : KeepsR s0 (execDramReadDone rid errs stage parity s) := by
  unfold execDramReadDone
  with_reducible repeat' (first | assumption | apply State.readDone_keeps | apply KeepsR.next)

theorem State.repairTally_keeps {s0 : State} {s : State} {c : Nat} (ks : Keeps s0 s) : Keeps s0 (State.repairTally s c) := by
  unfold State.repairTally
  with_reducible repeat' (first | assumption | (extract_lets +onlyGivenNames x; clear_value x; revert x; intro _) | apply State.setFld_keeps)

theorem State.rangeRetired_keeps {s0 : State} {s : State} {c : Nat} {r : Nat} (ks : Keeps s0 s) : Keeps s0 (State.rangeRetired s c r) := by
  unfold State.rangeRetired
  with_reducible repeat' (first | assumption | intro _ | (extract_lets +onlyGivenNames x; refine Keeps.have (Q := Keeps s0 x) ?_ ?_; dsimp -zeta -iota only [x]; clear x; rotate_left; clear_value x; revert x; intro _ _) | apply Keeps.ite | apply State.updChan_keeps | apply State.say_keeps | apply State.recap_keeps | apply State.repairTally_keeps)

theorem State.bootRepair_keeps {s0 : State} {s : State} {c : Nat} (ks : Keeps s0 s) : Keeps s0 (State.bootRepair s c) := by
  unfold State.bootRepair
  with_reducible repeat' (first | assumption | intro _ | apply Keeps.ite | apply State.updChan_keeps | apply State.setFld_keeps | apply State.rangeRetired_keeps | apply State.repairTally_keeps | apply State.each_keeps)

theorem State.trainedOn_keeps {s0 : State} {s : State} {c : Nat} {ms : List Module} {m : Module} {key : List Nat} {full : Bool} (ks : Keeps s0 s) : Keeps s0 (State.trainedOn s c ms m key full) := by
  unfold State.trainedOn
  with_reducible repeat' (first | assumption | (extract_lets +onlyGivenNames x; refine Keeps.have (Q := Keeps s0 x) ?_ ?_; dsimp -zeta -iota only [x]; clear x; rotate_left; clear_value x; revert x; intro _ _) | apply State.updChan_keeps | apply State.setFlag_keeps | apply State.bootRepair_keeps | apply State.setFld_keeps | apply State.recap_keeps | apply State.guarantee_keeps)

theorem State.trainDone_keeps {s0 : State} {s : State} {c : Nat} {slot0 : Option Module} {slot1 : Option Module} {fast : Bool} {ok : Bool} (ks : Keeps s0 s) : Keeps s0 (State.trainDone s c slot0 slot1 fast ok) := by
  unfold State.trainDone
  with_reducible repeat' (first | assumption | intro _ | (extract_lets +onlyGivenNames x; refine Keeps.have (Q := Keeps s0 x) ?_ ?_; dsimp -zeta -iota only [x]; clear x; rotate_left; clear_value x; revert x; intro _ _) | (extract_lets +onlyGivenNames x; refine Keeps.isFun x ?_; dsimp -zeta -iota only [x]; clear x) | (extract_lets +onlyGivenNames x; clear_value x; revert x; intro _) | apply Keeps.ite | apply State.updChan_keeps | apply State.trainedOn_keeps | apply State.setFld_keeps | apply State.raise_keeps | split)

theorem execChannelTrainDone_keeps {s0 : State} {c : Fin 24} {slot0 : Option Module} {slot1 : Option Module} {fast : Bool} {ok : Bool} {s : State} (ks : Keeps s0 s) : KeepsR s0 (execChannelTrainDone c slot0 slot1 fast ok s) := by
  unfold execChannelTrainDone
  with_reducible repeat' (first | assumption | apply State.trainDone_keeps | apply KeepsR.next)

theorem State.hardRepair_keeps {s0 : State} {s : State} {c : Nat} {ok : Bool} (ks : Keeps s0 s) : Keeps s0 (State.hardRepair s c ok) := by
  unfold State.hardRepair
  with_reducible repeat' (first | assumption | intro _ | (extract_lets +onlyGivenNames x; refine Keeps.have (Q := Keeps s0 x) ?_ ?_; dsimp -zeta -iota only [x]; clear x; rotate_left; clear_value x; revert x; intro _ _) | apply Keeps.ite | apply State.updChan_keeps | apply State.setFld_keeps | apply State.say_keeps | apply State.repairTally_keeps | split)

theorem execHardRepair_keeps {s0 : State} {c : Fin 24} {ok : Bool} {s : State} (ks : Keeps s0 s) : KeepsR s0 (execHardRepair c ok s) := by
  unfold execHardRepair
  with_reducible repeat' (first | assumption | apply State.hardRepair_keeps | apply KeepsR.next)

theorem State.caAlert_keeps {s0 : State} {s : State} {c : Nat} (ks : Keeps s0 s) : Keeps s0 (State.caAlert s c) := by
  unfold State.caAlert
  with_reducible repeat' (first | assumption | intro _ | (extract_lets +onlyGivenNames x; refine Keeps.have (Q := Keeps s0 x) ?_ ?_; dsimp -zeta -iota only [x]; clear x; rotate_left; clear_value x; revert x; intro _ _) | (extract_lets +onlyGivenNames x; clear_value x; revert x; intro _) | apply Keeps.ite | apply State.stageReplay_keeps | apply State.updChan_keeps | apply State.replayed_keeps | apply State.raise_keeps | apply State.each_keeps)

theorem execCaParityAlert_keeps {s0 : State} {c : Fin 24} {s : State} (ks : Keeps s0 s) : KeepsR s0 (execCaParityAlert c s) := by
  unfold execCaParityAlert
  with_reducible repeat' (first | assumption | apply State.caAlert_keeps | apply KeepsR.next)

theorem State.injArm_keeps {s0 : State} {s : State} {c : Nat} {v : Nat} (ks : Keeps s0 s) : Keeps s0 (State.injArm s c v) := by
  unfold State.injArm
  with_reducible repeat' (first | assumption | intro _ | (extract_lets +onlyGivenNames x; refine Keeps.have (Q := Keeps s0 x) ?_ ?_; dsimp -zeta -iota only [x]; clear x; rotate_left; clear_value x; revert x; intro _ _) | apply Keeps.ite | apply State.setFlag_keeps)

theorem execInjectionArm_keeps {s0 : State} {c : Fin 24} {value : Word} {s : State} (ks : Keeps s0 s) : KeepsR s0 (execInjectionArm c value s) := by
  unfold execInjectionArm
  with_reducible repeat' (first | assumption | intro _ | apply State.write_keeps | apply State.injArm_keeps | apply KeepsR.next)

theorem State.debtTick_keeps {s0 : State} {s : State} {c : Nat} (ks : Keeps s0 s) : Keeps s0 (State.debtTick s c) := by
  unfold State.debtTick
  with_reducible repeat' (first | assumption | intro _ | (extract_lets +onlyGivenNames x; refine Keeps.have (Q := Keeps s0 x) ?_ ?_; dsimp -zeta -iota only [x]; clear x; rotate_left; clear_value x; revert x; intro _ _) | (extract_lets +onlyGivenNames x; clear_value x; revert x; intro _) | apply Keeps.ite | apply State.updChan_keeps | apply State.combLag_keeps | apply State.setFld_keeps | apply State.exclude_keeps | apply State.say_keeps | apply State.sweepNow_keeps | apply State.count_keeps | apply State.each_keeps)

theorem execRefreshDebtTick_keeps {s0 : State} {c : Fin 24} {s : State} (ks : Keeps s0 s) : KeepsR s0 (execRefreshDebtTick c s) := by
  unfold execRefreshDebtTick
  with_reducible repeat' (first | assumption | apply State.debtTick_keeps | apply KeepsR.next)

theorem execRefreshSweep_keeps {s0 : State} {c : Fin 24} {s : State} (ks : Keeps s0 s) : KeepsR s0 (execRefreshSweep c s) := by
  unfold execRefreshSweep
  with_reducible repeat' (first | assumption | intro _ | apply Keeps.ite | apply State.sweepNow_keeps | apply KeepsR.next)

theorem State.sideband_keeps {s0 : State} {s : State} {c : Nat} {temps : List Nat} {pg : List Bool} (ks : Keeps s0 s) : Keeps s0 (State.sideband s c temps pg) := by
  unfold State.sideband
  with_reducible repeat' (first | assumption | intro _ | (extract_lets +onlyGivenNames x; refine Keeps.have (Q := Keeps s0 x) ?_ ?_; dsimp -zeta -iota only [x]; clear x; rotate_left; clear_value x; revert x; intro _ _) | apply Keeps.ite | apply State.setFlag_keeps | apply State.slotTrip_keeps | apply State.each_keeps)

theorem execDimmSidebandPoll_keeps {s0 : State} {c : Fin 24} {temps : List Nat} {pgFault : List Bool} {s : State} (ks : Keeps s0 s) : KeepsR s0 (execDimmSidebandPoll c temps pgFault s) := by
  unfold execDimmSidebandPoll
  with_reducible repeat' (first | assumption | apply State.sideband_keeps | apply KeepsR.next)

theorem State.writeBackStep_keeps {s0 : State} {s : State} {c : Nat} (ks : Keeps s0 s) : Keeps s0 (State.writeBackStep s c) := by
  unfold State.writeBackStep
  with_reducible repeat' (first | assumption | intro _ | apply Keeps.ite | apply State.writeBack_keeps)

theorem execCorrectedWriteback_keeps {s0 : State} {c : Fin 24} {s : State} (ks : Keeps s0 s) : KeepsR s0 (execCorrectedWriteback c s) := by
  unfold execCorrectedWriteback
  with_reducible repeat' (first | assumption | apply State.writeBackStep_keeps | apply KeepsR.next)

theorem State.combPlain_keeps {s0 : State} {s : State} {h : Half} {ma : Nat} {use : LineUse} {errs : List Burst} (ks : Keeps s0 s) : Keeps2 s0 (State.combPlain s h ma use errs) := by
  unfold State.combPlain
  with_reducible repeat' (first | assumption | apply State.deviceRead_keeps | (simp -zeta -iota only [Keeps2.pair]) | (refine Keeps22.eq (by assumption) ?_) | split)

theorem State.combLine_keeps {s0 : State} {s : State} {h : Half} {ma : Nat} {errs : List Burst} (ks : Keeps s0 s) : Keeps2 s0 (State.combLine s h ma errs) := by
  unfold State.combLine
  with_reducible repeat' (first | assumption | intro _ | (extract_lets +onlyGivenNames x; clear_value x; revert x; intro _) | apply Keeps2.ite | apply State.readFrom_keeps | apply State.combPlain_keeps | (simp -zeta -iota only [Keeps2.pair]) | (refine Keeps22.eq (by assumption) ?_) | split)

theorem State.lapEnd_keeps {s0 : State} {s : State} {c : Nat} (ks : Keeps s0 s) : Keeps s0 (State.lapEnd s c) := by
  unfold State.lapEnd
  with_reducible repeat' (first | assumption | (extract_lets +onlyGivenNames x; refine Keeps.have (Q := Keeps s0 x) ?_ ?_; dsimp -zeta -iota only [x]; clear x; rotate_left; clear_value x; revert x; intro _ _) | (extract_lets +onlyGivenNames x; clear_value x; revert x; intro _) | apply State.updChan_keeps | apply State.setFld_keeps)

theorem State.combPlan_keeps {s0 : State} {s : State} {c : Nat} (ks : Keeps s0 s) : Keeps s0 (State.combPlan s c) := by
  unfold State.combPlan
  with_reducible repeat' (first | assumption | intro _ | (extract_lets +onlyGivenNames x; clear_value x; revert x; intro _) | apply Keeps.ite | apply State.updChan_keeps)

theorem State.combStep_keeps {s0 : State} {s : State} {c : Nat} {errs : List Burst} (ks : Keeps s0 s) : Keeps s0 (State.combStep s c errs) := by
  unfold State.combStep
  with_reducible repeat' (first | assumption | intro _ | (extract_lets +onlyGivenNames x; refine Keeps.have (Q := Keeps s0 x) ?_ ?_; dsimp -zeta -iota only [x]; clear x; rotate_left; clear_value x; revert x; intro _ _) | (extract_lets +onlyGivenNames x; clear_value x; revert x; intro _) | apply Keeps.ite | apply State.pulse_keeps | apply State.lapEnd_keeps | apply State.combLine_keeps | apply State.combLag_keeps | apply State.setFld_keeps | apply State.combPlan_keeps | apply State.caConfirm_keeps | (simp -zeta -iota only [Keeps2.pair]) | (refine (Keeps2.foldl ?_ ?_).out) | (exact Keeps2.out (by assumption)))

theorem execComberStep_keeps {s0 : State} {c : Fin 24} {errs : List Burst} {s : State} (ks : Keeps s0 s) : KeepsR s0 (execComberStep c errs s) := by
  unfold execComberStep
  with_reducible repeat' (first | assumption | apply State.combStep_keeps | apply KeepsR.next)

theorem State.softRead_keeps {s0 : State} {s : State} {h : Half} {ma : Nat} {errs : List Burst} (ks : Keeps s0 s) : Keeps22 s0 (State.softRead s h ma errs) := by
  unfold State.softRead
  with_reducible repeat' (first | assumption | (extract_lets +onlyGivenNames x; clear_value x; revert x; intro _) | apply State.deviceRead_keeps | (simp -zeta -iota only [Keeps22.pair]) | (refine Keeps22.eq (by assumption) ?_) | split)

theorem State.softStart_keeps {s0 : State} {s : State} {c : Nat} {errs : List Burst} (ks : Keeps s0 s) : Keeps s0 (State.softStart s c errs) := by
  unfold State.softStart
  with_reducible repeat' (first | assumption | intro _ | (extract_lets +onlyGivenNames x; refine Keeps.have (Q := Keeps s0 x) ?_ ?_; dsimp -zeta -iota only [x]; clear x; rotate_left; clear_value x; revert x; intro _ _) | (extract_lets +onlyGivenNames x; clear_value x; revert x; intro _) | apply Keeps.ite | apply State.updChan_keeps | apply State.caConfirm_keeps | apply State.softRead_keeps | (simp -zeta -iota only [Keeps22.pair]) | (refine (Keeps22.foldl ?_ ?_).out) | (refine Keeps22.eq (by assumption) ?_) | (exact Keeps22.out (by assumption)) | split)

theorem execSoftRepairStart_keeps {s0 : State} {c : Fin 24} {errs : List Burst} {s : State} (ks : Keeps s0 s) : KeepsR s0 (execSoftRepairStart c errs s) := by
  unfold execSoftRepairStart
  with_reducible repeat' (first | assumption | apply State.softStart_keeps | apply KeepsR.next)

theorem State.softSequence_keeps {s0 : State} {s : State} {c : Nat} (ks : Keeps s0 s) : Keeps s0 (State.softSequence s c) := by
  unfold State.softSequence
  with_reducible repeat' (first | assumption | intro _ | (extract_lets +onlyGivenNames x; refine Keeps.have (Q := Keeps s0 x) ?_ ?_; dsimp -zeta -iota only [x]; clear x; rotate_left; clear_value x; revert x; intro _ _) | (extract_lets +onlyGivenNames x; clear_value x; revert x; intro _) | apply Keeps.ite | apply State.updChan_keeps | apply State.caConfirm_keeps | apply State.putBurst_keeps | apply State.countWrite_keeps | apply State.each_keeps | split)

theorem execSoftRepairSequence_keeps {s0 : State} {c : Fin 24} {s : State} (ks : Keeps s0 s) : KeepsR s0 (execSoftRepairSequence c s) := by
  unfold execSoftRepairSequence
  with_reducible repeat' (first | assumption | apply State.softSequence_keeps | apply KeepsR.next)

theorem State.softVerify_keeps {s0 : State} {s : State} {c : Nat} {errs : List Burst} (ks : Keeps s0 s) : Keeps s0 (State.softVerify s c errs) := by
  unfold State.softVerify
  with_reducible repeat' (first | assumption | intro _ | (extract_lets +onlyGivenNames x; refine Keeps.have (Q := Keeps s0 x) ?_ ?_; dsimp -zeta -iota only [x]; clear x; rotate_left; clear_value x; revert x; intro _ _) | (extract_lets +onlyGivenNames x; clear_value x; revert x; intro _) | apply Keeps.ite | apply State.updChan_keeps | apply State.setFld_keeps | apply State.retireRow_keeps | apply State.caConfirm_keeps | apply State.say_keeps | apply State.countRead_keeps | apply State.repairTally_keeps | (simp -zeta -iota only [Keeps22.pair]) | (refine (Keeps22.foldl ?_ ?_).out) | (exact Keeps22.out (by assumption)) | split)

theorem execSoftRepairVerify_keeps {s0 : State} {c : Fin 24} {errs : List Burst} {s : State} (ks : Keeps s0 s) : KeepsR s0 (execSoftRepairVerify c errs s) := by
  unfold execSoftRepairVerify
  with_reducible repeat' (first | assumption | apply State.softVerify_keeps | apply KeepsR.next)

end Sys2Proof.Machine
end

