-- ==== Sys2Proof/Laws/KeepQos.lean ====
section
/-! SUPPORT. The operations of Machine/Qos.lean break nothing (Laws/Keeps.lean). -/

namespace Sys2Proof.Machine

theorem State.pendWrite_keeps {s0 : State} {s : State} {i : Nat} {reg : Option (Fin 64)} {v : Word} (ks : Keeps s0 s) : Keeps s0 (State.pendWrite s i reg v) := by
  unfold State.pendWrite
  with_reducible repeat' (first | assumption | intro _ | (extract_lets +onlyGivenNames x; refine Keeps.have (Q := Keeps s0 x) ?_ ?_; dsimp -zeta -iota only [x]; clear x; rotate_left; clear_value x; revert x; intro _ _) | apply Keeps.ite | apply State.setReg_keeps | apply State.setFlag_keeps | apply State.setFld_keeps | apply State.g0Channel_keeps | apply State.updSched_keeps | split)

theorem execTtPendWrite_keeps {s0 : State} {i : Fin 26} {reg : Option (Fin 64)} {value : Word} {s : State} (ks : Keeps s0 s) : KeepsR s0 (execTtPendWrite i reg value s) := by
  unfold execTtPendWrite
  with_reducible repeat' (first | assumption | intro _ | apply Keeps.ite | apply State.write_keeps | apply State.groupWrite_keeps | apply State.pendWrite_keeps | apply KeepsR.next)

theorem State.startCheck_keeps {s0 : State} {s : State} {i : Nat} (ks : Keeps s0 s) : Keeps s0 (State.startCheck s i) := by
  unfold State.startCheck
  with_reducible repeat' (first | assumption | intro _ | apply Keeps.ite | apply State.setFld_keeps | apply State.updSched_keeps)

theorem execTtCheck_keeps {s0 : State} {i : Fin 26} {s : State} (ks : Keeps s0 s) : KeepsR s0 (execTtCheck i s) := by
  unfold execTtCheck
  with_reducible repeat' (first | assumption | intro _ | apply State.write_keeps | apply State.startCheck_keeps | apply KeepsR.next)

theorem State.endCheck_keeps {s0 : State} {s : State} {i : Nat} (ks : Keeps s0 s) : Keeps s0 (State.endCheck s i) := by
  unfold State.endCheck
  with_reducible repeat' (first | assumption | intro _ | (extract_lets +onlyGivenNames x; refine Keeps.have (Q := Keeps s0 x) ?_ ?_; dsimp -zeta -iota only [x]; clear x; rotate_left; clear_value x; revert x; intro _ _) | (extract_lets +onlyGivenNames x; clear_value x; revert x; intro _) | apply Keeps.ite | apply State.setFlag_keeps | apply State.setFld_keeps | apply State.g0Channel_keeps | apply State.updSched_keeps)

theorem execTtCheckDone_keeps {s0 : State} {i : Fin 26} {s : State} (ks : Keeps s0 s) : KeepsR s0 (execTtCheckDone i s) := by
  unfold execTtCheckDone
  with_reducible repeat' (first | assumption | apply State.endCheck_keeps | apply KeepsR.next)

theorem State.gateNow_keeps {s0 : State} {s : State} {i : Nat} (ks : Keeps s0 s) : Keeps s0 (State.gateNow s i) := by
  unfold State.gateNow
  with_reducible repeat' (first | assumption | (extract_lets +onlyGivenNames x; clear_value x; revert x; intro _) | apply State.updSched_keeps)

theorem execTtGateChange_keeps {s0 : State} {i : Fin 26} {s : State} (ks : Keeps s0 s) : KeepsR s0 (execTtGateChange i s) := by
  unfold execTtGateChange
  with_reducible repeat' (first | assumption | intro _ | apply Keeps.ite | apply State.gateNow_keeps | apply KeepsR.next)

theorem State.takeover_keeps {s0 : State} {s : State} {i : Nat} (ks : Keeps s0 s) : Keeps s0 (State.takeover s i) := by
  unfold State.takeover
  with_reducible repeat' (first | assumption | intro _ | (extract_lets +onlyGivenNames x; refine Keeps.have (Q := Keeps s0 x) ?_ ?_; dsimp -zeta -iota only [x]; clear x; rotate_left; clear_value x; revert x; intro _ _) | (extract_lets +onlyGivenNames x; clear_value x; revert x; intro _) | apply Keeps.ite | apply State.setReg_keeps | apply State.setFlag_keeps | apply State.gateNow_keeps | apply State.setFld_keeps | apply State.sealTally_keeps | apply State.g0Channel_keeps | apply State.updSched_keeps | apply State.each_keeps)

theorem execTtTakeover_keeps {s0 : State} {i : Fin 26} {s : State} (ks : Keeps s0 s) : KeepsR s0 (execTtTakeover i s) := by
  unfold execTtTakeover
  with_reducible repeat' (first | assumption | apply State.takeover_keeps | apply KeepsR.next)

theorem State.binUp_keeps {s0 : State} {s : State} {lo : Nat → Fld} {hi : Nat → Fld} {bin : Nat} (ks : Keeps s0 s) : Keeps s0 (State.binUp s lo hi bin) := by
  unfold State.binUp
  with_reducible repeat' (first | assumption | (extract_lets +onlyGivenNames x; clear_value x; revert x; intro _) | apply State.count_keeps)

theorem State.sampleQueue_keeps {s0 : State} {s : State} {lo : Nat → Fld} {hi : Nat → Fld} {depth : Nat} {delay : Nat} (ks : Keeps s0 s) : Keeps s0 (State.sampleQueue s lo hi depth delay) := by
  unfold State.sampleQueue
  with_reducible repeat' (first | assumption | apply State.binUp_keeps)

theorem State.sampleDom_keeps {s0 : State} {s : State} {d : Nat} (ks : Keeps s0 s) : Keeps s0 (State.sampleDom s d) := by
  unfold State.sampleDom
  with_reducible repeat' (first | assumption | (extract_lets +onlyGivenNames x; refine Keeps.have (Q := Keeps s0 x) ?_ ?_; dsimp -zeta -iota only [x]; clear x; rotate_left; clear_value x; revert x; intro _ _) | (extract_lets +onlyGivenNames x; clear_value x; revert x; intro _) | apply State.sampleQueue_keeps | (simp -zeta -iota only [Keeps.mk_iff]; apply KeepsMk.of (h1 := by simp) (h2 := by simp) (h3 := by simp)))

theorem State.sampleClass_keeps {s0 : State} {s : State} {c : Nat} {k : Nat} (ks : Keeps s0 s) : Keeps s0 (State.sampleClass s c k) := by
  unfold State.sampleClass
  with_reducible repeat' (first | assumption | (extract_lets +onlyGivenNames x; clear_value x; revert x; intro _) | apply State.sampleQueue_keeps)

theorem State.telemSample_keeps {s0 : State} {s : State} {h : Half} (ks : Keeps s0 s) : Keeps s0 (State.telemSample s h) := by
  unfold State.telemSample
  with_reducible repeat' (first | assumption | intro _ | (extract_lets +onlyGivenNames x; refine Keeps.have (Q := Keeps s0 x) ?_ ?_; dsimp -zeta -iota only [x]; clear x; rotate_left; clear_value x; revert x; intro _ _) | apply Keeps.ite | apply State.sampleDom_keeps | apply State.sampleClass_keeps | apply State.each_keeps)

theorem execQosTelemSample_keeps {s0 : State} {h : Half} {s : State} (ks : Keeps s0 s) : KeepsR s0 (execQosTelemSample h s) := by
  unfold execQosTelemSample
  with_reducible repeat' (first | assumption | apply State.telemSample_keeps | apply KeepsR.next)

theorem State.telemClear_keeps {s0 : State} {s : State} (ks : Keeps s0 s) : Keeps s0 (State.telemClear s) := by
  unfold State.telemClear
  with_reducible repeat' (first | assumption | (extract_lets +onlyGivenNames x; refine Keeps.isFun x ?_; dsimp -zeta -iota only [x]; clear x) | (simp -zeta -iota only [Keeps.mk_iff]; apply KeepsMk.ofDrop (h1 := by simp) (h2 := by simp) (h3 := by simp)))

theorem execQosTelemClear_keeps {s0 : State} {s : State} (ks : Keeps s0 s) : KeepsR s0 (execQosTelemClear s) := by
  unfold execQosTelemClear
  with_reducible repeat' (first | assumption | intro _ | apply State.write_keeps | apply State.telemClear_keeps | apply KeepsR.next)

end Sys2Proof.Machine
end

