-- ==== Sys2Proof/Laws/KeepProt.lean ====
section
/-! SUPPORT. The operations of Machine/Prot.lean break nothing (Laws/Keeps.lean). -/

namespace Sys2Proof.Machine

theorem State.ctrArrived_keeps {s0 : State} {s : State} {d : Nat} {page : Nat} (ks : Keeps s0 s) : Keeps s0 (State.ctrArrived s d page) := by
  unfold State.ctrArrived
  with_reducible repeat' (first | assumption | intro _ | apply State.finishNear_keeps | apply State.setStage_keeps | apply State.each_keeps | split)

theorem State.readNode_keeps {s0 : State} {s : State} {h : Half} {d : Nat} {level : Nat} {idx : Nat} {ma : Nat} {errs : List Burst} (ks : Keeps s0 s) : Keeps22 s0 (State.readNode s h d level idx ma errs) := by
  unfold State.readNode
  with_reducible repeat' (first | assumption | intro _ | (extract_lets +onlyGivenNames x; clear_value x; revert x; intro _) | apply Keeps22.ite | (refine (State.deviceRead_keeps ?_).out) | (simp -zeta -iota only [Keeps22.pair]))

theorem State.fetchNode_keeps {s0 : State} {s : State} {h : Half} {d : Nat} {level : Nat} {idx : Nat} {errs : List Burst} (ks : Keeps s0 s) : Keeps2 s0 (State.fetchNode s h d level idx errs) := by
  unfold State.fetchNode
  with_reducible repeat' (first | assumption | intro _ | (extract_lets +onlyGivenNames x; refine Keeps.have (Q := Keeps s0 x) ?_ ?_; dsimp -zeta -iota only [x]; clear x; rotate_left; clear_value x; revert x; intro _ _) | apply Keeps2.ite | apply State.putFlip_keeps | apply State.note_keeps | apply State.readNode_keeps | (refine (State.readNode_keeps ?_).out) | apply State.count_keeps | (simp -zeta -iota only [Keeps2.pair]) | (refine Keeps22.eq (by assumption) ?_) | split)

theorem State.areaKnown_keeps {s0 : State} {s : State} {h : Half} {d : Nat} {e00 : Nat} {errs : List Burst} {victim : Nat} (ks : Keeps s0 s) : Keeps22 s0 (State.areaKnown s h d e00 errs victim) := by
  unfold State.areaKnown
  with_reducible repeat' (first | assumption | intro _ | (extract_lets +onlyGivenNames x; clear_value x; revert x; intro _) | apply Keeps.ite | apply Keeps22.ite | apply State.readMeta_keeps | apply State.mcFill_keeps | apply State.mcTouch_keeps | (simp -zeta -iota only [Keeps22.pair]) | (refine Keeps22.eq (by assumption) ?_) | split)

theorem State.ctrFetch_keeps {s0 : State} {s : State} {h : Half} {d : Nat} {level : Nat} {idx : Nat} {errs : List Burst} {victim : Nat} (ks : Keeps s0 s) : Keeps s0 (State.ctrFetch s h d level idx errs victim) := by
  unfold State.ctrFetch
  with_reducible repeat' (first | assumption | intro _ | (extract_lets +onlyGivenNames x; refine Keeps.have (Q := Keeps s0 x) ?_ ?_; dsimp -zeta -iota only [x]; clear x; rotate_left; clear_value x; revert x; intro _ _) | (extract_lets +onlyGivenNames x; refine Keeps.isFun x ?_; dsimp -zeta -iota only [x]; clear x) | (extract_lets +onlyGivenNames x; clear_value x; revert x; intro _) | apply Keeps.ite | apply State.pulse_keeps | apply State.fetchNode_keeps | apply State.mcFill_keeps | apply State.nodeLost_keeps | apply State.ctrArrived_keeps | (refine (State.areaKnown_keeps ?_).out) | (refine Keeps2.eq (by assumption) ?_) | split)

theorem execCounterFetchDone_keeps {s0 : State} {h : Half} {d : Fin 1024} {level : Nat} {idx : Nat} {errs : List Burst} {victim : Nat} {s : State} (ks : Keeps s0 s) : KeepsR s0 (execCounterFetchDone h d level idx errs victim s) := by
  unfold execCounterFetchDone
  with_reducible repeat' (first | assumption | apply State.ctrFetch_keeps | apply KeepsR.next)

theorem State.doRollover_keeps {s0 : State} {s : State} {h : Half} {d : Nat} {page : Nat} {errs : List Burst} (ks : Keeps s0 s) : Keeps s0 (State.doRollover s h d page errs) := by
  unfold State.doRollover
  with_reducible repeat' (first | assumption | intro _ | (extract_lets +onlyGivenNames x; clear_value x; revert x; intro _) | apply Keeps.ite | apply State.startWrite_keeps | split)

theorem execCounterRollover_keeps {s0 : State} {h : Half} {d : Fin 1024} {page : Nat} {errs : List Burst} {s : State} (ks : Keeps s0 s) : KeepsR s0 (execCounterRollover h d page errs s) := by
  unfold execCounterRollover
  with_reducible repeat' (first | assumption | apply State.doRollover_keeps | apply KeepsR.next)

theorem State.childRead_keeps {s0 : State} {s : State} {h : Half} {d : Nat} {level : Nat} {idx : Nat} {errs : List Burst} (ks : Keeps s0 s) : Keeps22 s0 (State.childRead s h d level idx errs) := by
  unfold State.childRead
  with_reducible repeat' (first | assumption | intro _ | (extract_lets +onlyGivenNames x; clear_value x; revert x; intro _) | apply Keeps22.ite | apply State.deviceRead_keeps | (simp -zeta -iota only [Keeps22.pair]) | (refine Keeps22.eq (by assumption) ?_) | split)

theorem State.summitCopy_keeps {s0 : State} {s : State} {h : Half} {d : Nat} {level : Nat} {idx : Nat} {errs : List Burst} (ks : Keeps s0 s) : Keeps2 s0 (State.summitCopy s h d level idx errs) := by
  unfold State.summitCopy
  with_reducible repeat' (first | assumption | intro _ | apply Keeps2.ite | apply State.fetchNode_keeps | (simp -zeta -iota only [Keeps2.pair]))

theorem State.childTags_keeps {s0 : State} {s : State} {h : Half} {d : Nat} {level : Nat} {idx : Nat} {sound : Bool} {errs : List Burst} (ks : Keeps s0 s) : Keeps22 s0 (State.childTags s h d level idx sound errs) := by
  unfold State.childTags
  with_reducible repeat' (first | assumption | intro _ | apply Keeps22.ite | apply State.childRead_keeps | (simp -zeta -iota only [Keeps22.pair]) | apply Keeps22.foldl | (refine Keeps22.eq (by assumption) ?_) | (exact Keeps22.out (by assumption)) | split)

theorem State.localRebuild_keeps {s0 : State} {s : State} {h : Half} {d : Nat} {level : Nat} {idx : Nat} {errs : List Burst} (ks : Keeps s0 s) : Keeps s0 (State.localRebuild s h d level idx errs) := by
  unfold State.localRebuild
  with_reducible repeat' (first | assumption | intro _ | (extract_lets +onlyGivenNames x; refine Keeps.have (Q := Keeps s0 x) ?_ ?_; dsimp -zeta -iota only [x]; clear x; rotate_left; clear_value x; revert x; intro _ _) | (extract_lets +onlyGivenNames x; clear_value x; revert x; intro _) | apply Keeps.ite | apply State.note_keeps | (refine (State.summitCopy_keeps ?_).out) | apply State.mcFill_keeps | apply State.fenceSubtree_keeps | apply State.count_keeps | apply State.updProt_keeps | (refine (State.childTags_keeps ?_).out) | split)

theorem execTreeLocalRebuild_keeps {s0 : State} {h : Half} {d : Fin 1024} {level : Nat} {idx : Nat} {errs : List Burst} {s : State} (ks : Keeps s0 s) : KeepsR s0 (execTreeLocalRebuild h d level idx errs s) := by
  unfold execTreeLocalRebuild
  with_reducible repeat' (first | assumption | apply State.localRebuild_keeps | apply KeepsR.next)

theorem State.rebuildPage_keeps {s0 : State} {s : State} {d : Nat} {f : Subtree} {page : Nat} {supply : Option (Nat → Line × Bool)} (ks : Keeps s0 s) : Keeps1 s0 (State.rebuildPage s d f page supply) := by
  unfold State.rebuildPage
  with_reducible repeat' (first | assumption | intro _ | (extract_lets +onlyGivenNames x; refine Keeps.have (Q := Keeps s0 x) ?_ ?_; dsimp -zeta -iota only [x]; clear x; rotate_left; clear_value x; revert x; intro _ _) | (extract_lets +onlyGivenNames x; refine Keeps.isFun x ?_; dsimp -zeta -iota only [x]; clear x) | (extract_lets +onlyGivenNames x; clear_value x; revert x; intro _) | apply Keeps1.ite | apply State.putCtr_keeps | apply State.sealNear_keeps | apply State.settle_keeps | apply State.savePage_keeps | apply State.wakeStage5_keeps | apply State.updSubtree_keeps | apply State.setPage_keeps | apply State.warm_keeps | apply State.alloc_keeps | apply State.listPages_keeps | apply State.count_keeps | apply State.release_keeps | (simp -zeta -iota only [Keeps1.pair]) | apply State.each_keeps | (refine Keeps1.eq (by assumption) ?_) | (refine Keeps.eqQ (by assumption) ?_) | split)

theorem State.rebuildAlone_keeps {s0 : State} {s : State} {h : Half} {d : Nat} {level : Nat} {idx : Nat} {page : Nat} (ks : Keeps s0 s) : Keeps s0 (State.rebuildAlone s h d level idx page) := by
  unfold State.rebuildAlone
  with_reducible repeat' (first | assumption | intro _ | apply Keeps.ite | (refine (State.rebuildPage_keeps ?_).out) | split)

theorem execSubtreeRebuild_keeps {s0 : State} {h : Half} {d : Fin 1024} {level : Nat} {idx : Nat} {page : Nat} {s : State} (ks : Keeps s0 s) : KeepsR s0 (execSubtreeRebuild h d level idx page s) := by
  unfold execSubtreeRebuild
  with_reducible repeat' (first | assumption | apply State.rebuildAlone_keeps | apply KeepsR.next)

theorem State.subtreeInstall_keeps {s0 : State} {s : State} {h : Half} {d : Nat} {level : Nat} {idx : Nat} (ks : Keeps s0 s) : Keeps s0 (State.subtreeInstall s h d level idx) := by
  unfold State.subtreeInstall
  with_reducible repeat' (first | assumption | intro _ | (extract_lets +onlyGivenNames x; refine Keeps.have (Q := Keeps s0 x) ?_ ?_; dsimp -zeta -iota only [x]; clear x; rotate_left; clear_value x; revert x; intro _ _) | (extract_lets +onlyGivenNames x; clear_value x; revert x; intro _) | apply Keeps.ite | apply State.fenceTally_keeps | apply State.putCtr_keeps | apply State.saveMeta_keeps | apply State.toFm_keeps | apply State.updProt_keeps | apply State.each_keeps | split)

theorem execSubtreeInstall_keeps {s0 : State} {h : Half} {d : Fin 1024} {level : Nat} {idx : Nat} {s : State} (ks : Keeps s0 s) : KeepsR s0 (execSubtreeInstall h d level idx s) := by
  unfold execSubtreeInstall
  with_reducible repeat' (first | assumption | apply State.subtreeInstall_keeps | apply KeepsR.next)

theorem State.rootParity_keeps {s0 : State} {s : State} {d : Nat} {errs : List Burst} (ks : Keeps s0 s) : Keeps s0 (State.rootParity s d errs) := by
  unfold State.rootParity
  with_reducible repeat' (first | assumption | intro _ | (extract_lets +onlyGivenNames x; refine Keeps.have (Q := Keeps s0 x) ?_ ?_; dsimp -zeta -iota only [x]; clear x; rotate_left; clear_value x; revert x; intro _ _) | (extract_lets +onlyGivenNames x; clear_value x; revert x; intro _) | apply Keeps.ite | apply State.note_keeps | apply State.fenceSubtree_keeps | apply State.updProt_keeps)

theorem execRootParityFail_keeps {s0 : State} {d : Fin 1024} {errs : List Burst} {s : State} (ks : Keeps s0 s) : KeepsR s0 (execRootParityFail d errs s) := by
  unfold execRootParityFail
  with_reducible repeat' (first | assumption | apply State.rootParity_keeps | apply KeepsR.next)

theorem State.keyResult_keeps {s0 : State} {s : State} {code : Nat} {slot : Nat} (ks : Keeps s0 s) : Keeps s0 (State.keyResult s code slot) := by
  unfold State.keyResult
  with_reducible repeat' (first | assumption | apply State.setFlag_keeps | apply State.setFld_keeps)

theorem State.keyLoad_keeps {s0 : State} {s : State} {slot : Nat} (ks : Keeps s0 s) : Keeps s0 (State.keyLoad s slot) := by
  unfold State.keyLoad
  with_reducible repeat' (first | assumption | intro _ | (extract_lets +onlyGivenNames x; refine Keeps.have (Q := Keeps s0 x) ?_ ?_; dsimp -zeta -iota only [x]; clear x; rotate_left; clear_value x; revert x; intro _ _) | (extract_lets +onlyGivenNames x; clear_value x; revert x; intro _) | apply Keeps.ite | apply State.setFlag_keeps | (simp -zeta -iota only [Keeps.mk_iff]; apply KeepsMk.of (h1 := by simp) (h2 := by simp) (h3 := by simp)))

theorem execKeyLoad_keeps {s0 : State} {slot : Nat} {s : State} (ks : Keeps s0 s) : KeepsR s0 (execKeyLoad slot s) := by
  unfold execKeyLoad
  with_reducible repeat' (first | assumption | intro _ | apply State.keyLoad_keeps | apply State.write_keeps | apply KeepsR.next)

theorem State.keyLoadDone_keeps {s0 : State} {s : State} (ks : Keeps s0 s) : Keeps s0 (State.keyLoadDone s) := by
  unfold State.keyLoadDone
  with_reducible repeat' (first | assumption | intro _ | (extract_lets +onlyGivenNames x; refine Keeps.have (Q := Keeps s0 x) ?_ ?_; dsimp -zeta -iota only [x]; clear x; rotate_left; clear_value x; revert x; intro _ _) | (extract_lets +onlyGivenNames x; clear_value x; revert x; intro _) | apply Keeps.ite | apply State.setFlag_keeps | apply State.setFld_keeps | apply State.say_keeps | apply State.keyResult_keeps | (simp -zeta -iota only [Keeps.mk_iff]; apply KeepsMk.of (h1 := by simp) (h2 := by simp) (h3 := by simp)) | split)

theorem State.nextBlob_keeps {s0 : State} {s : State} (ks : Keeps s0 s) : Keeps s0 (State.nextBlob s) := by
  unfold State.nextBlob
  with_reducible repeat' (first | assumption | (extract_lets +onlyGivenNames x; refine Keeps.have (Q := Keeps s0 x) ?_ ?_; dsimp -zeta -iota only [x]; clear x; rotate_left; clear_value x; revert x; intro _ _) | (extract_lets +onlyGivenNames x; clear_value x; revert x; intro _) | apply State.setFlag_keeps | (simp -zeta -iota only [Keeps.mk_iff]; apply KeepsMk.of (h1 := by simp) (h2 := by simp) (h3 := by simp)) | split)

theorem State.keyDone_keeps {s0 : State} {s : State} (ks : Keeps s0 s) : Keeps s0 (State.keyDone s) := by
  unfold State.keyDone
  with_reducible repeat' (first | assumption | intro _ | (extract_lets +onlyGivenNames x; refine Keeps.have (Q := Keeps s0 x) ?_ ?_; dsimp -zeta -iota only [x]; clear x; rotate_left; clear_value x; revert x; intro _ _) | (extract_lets +onlyGivenNames x; clear_value x; revert x; intro _) | apply Keeps.ite | apply State.nextBlob_keeps | apply State.keyLoadDone_keeps | apply State.say_keeps)

theorem execKeyLoadDone_keeps {s0 : State} {s : State} (ks : Keeps s0 s) : KeepsR s0 (execKeyLoadDone s) := by
  unfold execKeyLoadDone
  with_reducible repeat' (first | assumption | apply State.keyDone_keeps | apply KeepsR.next)

theorem State.keyEraseCmd_keeps {s0 : State} {s : State} {slot : Nat} (ks : Keeps s0 s) : Keeps s0 (State.keyEraseCmd s slot) := by
  unfold State.keyEraseCmd
  with_reducible repeat' (first | assumption | intro _ | (extract_lets +onlyGivenNames x; refine Keeps.have (Q := Keeps s0 x) ?_ ?_; dsimp -zeta -iota only [x]; clear x; rotate_left; clear_value x; revert x; intro _ _) | (extract_lets +onlyGivenNames x; clear_value x; revert x; intro _) | apply Keeps.ite | apply State.setFlag_keeps | apply State.setFld_keeps | apply State.keyResult_keeps | (simp -zeta -iota only [Keeps.mk_iff]; apply KeepsMk.of (h1 := by simp) (h2 := by simp) (h3 := by simp)))

theorem execKeyErase_keeps {s0 : State} {slot : Nat} {s : State} (ks : Keeps s0 s) : KeepsR s0 (execKeyErase slot s) := by
  unfold execKeyErase
  with_reducible repeat' (first | assumption | intro _ | apply State.write_keeps | apply State.keyEraseCmd_keeps | apply KeepsR.next)

theorem State.ideFail_keeps {s0 : State} {s : State} {p : Nat} {mem : Bool} {epoch : List (Fin 65536)} {stored : List (Fin 1024 × Nat)} (ks : Keeps s0 s) : Keeps s0 (State.ideFail s p mem epoch stored) := by
  unfold State.ideFail
  with_reducible repeat' (first | assumption | intro _ | (extract_lets +onlyGivenNames x; refine Keeps.have (Q := Keeps s0 x) ?_ ?_; dsimp -zeta -iota only [x]; clear x; rotate_left; clear_value x; revert x; intro _ _) | apply Keeps.ite | apply State.linkLost_keeps | apply State.poisonAt_keeps | apply State.answerRead_keeps | apply State.alarm_keeps | apply State.updReq_keeps | apply State.updPort_keeps | apply State.each_keeps | split)

theorem execIdeIntegrityFail_keeps {s0 : State} {p : Fin 16} {mem : Bool} {epoch : List (Fin 65536)} {stored : List (Fin 1024 × Nat)} {s : State} (ks : Keeps s0 s) : KeepsR s0 (execIdeIntegrityFail p mem epoch stored s) := by
  unfold execIdeIntegrityFail
  with_reducible repeat' (first | assumption | apply State.ideFail_keeps | apply KeepsR.next)

theorem State.retentionCheck_keeps {s0 : State} {s : State} {d : Nat} {errs : List (Nat × Burst)} (ks : Keeps s0 s) : Keeps s0 (State.retentionCheck s d errs) := by
  unfold State.retentionCheck
  with_reducible repeat' (first | assumption | intro _ | apply Keeps.ite | apply State.fenceSubtree_keeps | apply State.alarm_keeps)

theorem State.exitDone_keeps {s0 : State} {s : State} {bad : List (Fin 32)} {saveOk : Bool} {treeErrs : List (Fin 1024 × Nat × Burst)} (ks : Keeps s0 s) : Keeps s0 (State.exitDone s bad saveOk treeErrs) := by
  unfold State.exitDone
  with_reducible repeat' (first | assumption | intro _ | (extract_lets +onlyGivenNames x; refine Keeps.have (Q := Keeps s0 x) ?_ ?_; dsimp -zeta -iota only [x]; clear x; rotate_left; clear_value x; revert x; intro _ _) | (extract_lets +onlyGivenNames x; refine Keeps.isFun x ?_; dsimp -zeta -iota only [x]; clear x) | (extract_lets +onlyGivenNames x; clear_value x; revert x; intro _) | apply Keeps.ite | apply State.setFlag_keeps | apply State.retentionCheck_keeps | apply State.startEntry_keeps | apply State.setFld_keeps | apply State.clearSlot_keeps | apply State.bucketsFull_keeps | apply State.say_keeps | apply State.raise_keeps | apply State.emit_keeps | apply State.each_keeps | (simp -zeta -iota only [Keeps.mk_iff]; apply KeepsMk.of (h1 := by simp) (h2 := by simp) (h3 := by simp)))

theorem execDeepSleepExitDone_keeps {s0 : State} {bad : List (Fin 32)} {saveOk : Bool} {treeErrs : List (Fin 1024 × Nat × Burst)} {s : State} (ks : Keeps s0 s) : KeepsR s0 (execDeepSleepExitDone bad saveOk treeErrs s) := by
  unfold execDeepSleepExitDone
  with_reducible repeat' (first | assumption | apply State.exitDone_keeps | apply KeepsR.next)

theorem State.sramUe_keeps {s0 : State} {s : State} {h : Half} {g : Nat} (ks : Keeps s0 s) : Keeps s0 (State.sramUe s h g) := by
  unfold State.sramUe
  with_reducible repeat' (first | assumption | intro _ | (extract_lets +onlyGivenNames x; refine Keeps.have (Q := Keeps s0 x) ?_ ?_; dsimp -zeta -iota only [x]; clear x; rotate_left; clear_value x; revert x; intro _ _) | (extract_lets +onlyGivenNames x; clear_value x; revert x; intro _) | apply Keeps.ite | apply State.updHalf_keeps | apply State.note_keeps | apply State.raise_keeps)

theorem State.loseCached_keeps {s0 : State} {s : State} {h : Half} {l : McLine} (ks : Keeps s0 s) : Keeps s0 (State.loseCached s h l) := by
  unfold State.loseCached
  with_reducible repeat' (first | assumption | intro _ | (extract_lets +onlyGivenNames x; refine Keeps.have (Q := Keeps s0 x) ?_ ?_; dsimp -zeta -iota only [x]; clear x; rotate_left; clear_value x; revert x; intro _ _) | apply Keeps.ite | apply State.metaLost_keeps | apply State.nodeLost_keeps | apply State.poisonAt_keeps | apply State.each_keeps | (simp -zeta -iota only [Keeps.mk_iff]; apply KeepsMk.of (h1 := by simp) (h2 := by simp) (h3 := by simp)) | split)

theorem State.sramWord_keeps {s0 : State} {s : State} {h : Half} {g : Nat} {w : Nat} (ks : Keeps s0 s) : Keeps s0 (State.sramWord s h g w) := by
  unfold State.sramWord
  with_reducible repeat' (first | assumption | intro _ | (extract_lets +onlyGivenNames x; clear_value x; revert x; intro _) | apply Keeps.ite | apply State.loseCached_keeps | apply State.sfTally_keeps | apply State.invalidate_keeps | apply State.updReq_keeps | apply State.failReq_keeps | (simp -zeta -iota only [Keeps.mk_iff]; apply KeepsMk.of (h1 := by simp) (h2 := by simp) (h3 := by simp)) | split)

theorem State.scrubLap_keeps {s0 : State} {s : State} {h : Half} {bank : Nat} {corrected : Nat} {bad : List Nat} {lapUs : Nat} (ks : Keeps s0 s) : Keeps s0 (State.scrubLap s h bank corrected bad lapUs) := by
  unfold State.scrubLap
  with_reducible repeat' (first | assumption | intro _ | (extract_lets +onlyGivenNames x; refine Keeps.have (Q := Keeps s0 x) ?_ ?_; dsimp -zeta -iota only [x]; clear x; rotate_left; clear_value x; revert x; intro _ _) | (extract_lets +onlyGivenNames x; clear_value x; revert x; intro _) | apply Keeps.ite | apply State.updHalf_keeps | apply State.setFlag_keeps | apply State.toFm_keeps | apply State.sramWord_keeps | apply State.setFld_keeps | apply State.count_keeps | apply State.sramUe_keeps | apply State.each_keeps)

theorem execSramScrubLap_keeps {s0 : State} {h : Half} {group : Fin 256} {corrected : Nat} {uncorrectable : List Nat} {lapUs : Nat} {s : State} (ks : Keeps s0 s) : KeepsR s0 (execSramScrubLap h group corrected uncorrectable lapUs s) := by
  unfold execSramScrubLap
  with_reducible repeat' (first | assumption | apply State.scrubLap_keeps | apply KeepsR.next)

end Sys2Proof.Machine
end

