-- ==== Sys2Proof/Laws/KeepShingle.lean ====
section
/-! SUPPORT. The operations of Machine/Shingle.lean break nothing (Laws/Keeps.lean). -/

namespace Sys2Proof.Machine

theorem State.sendFp_keeps {s0 : State} {s : State} {l : Half} (ks : Keeps s0 s) : Keeps s0 (State.sendFp s l) := by
  unfold State.sendFp
  with_reducible repeat' (first | assumption | intro _ | (extract_lets +onlyGivenNames x; clear_value x; revert x; intro _) | apply Keeps.ite | apply State.send_keeps)

theorem State.setResult_keeps {s0 : State} {s : State} {set : Nat} {code : Nat} (ks : Keeps s0 s) : Keeps s0 (State.setResult s set code) := by
  unfold State.setResult
  with_reducible repeat' (first | assumption | apply State.setFlag_keeps | apply State.setFld_keeps)

theorem State.setActivate_keeps {s0 : State} {s : State} {set : Nat} (ks : Keeps s0 s) : Keeps s0 (State.setActivate s set) := by
  unfold State.setActivate
  with_reducible repeat' (first | assumption | intro _ | (extract_lets +onlyGivenNames x; refine Keeps.have (Q := Keeps s0 x) ?_ ?_; dsimp -zeta -iota only [x]; clear x; rotate_left; clear_value x; revert x; intro _ _) | (extract_lets +onlyGivenNames x; clear_value x; revert x; intro _) | apply Keeps.ite | apply State.setResult_keeps | apply State.setFld_keeps | apply State.sendFp_keeps)

theorem execSetActivate_keeps {s0 : State} {set : Fin 8} {s : State} (ks : Keeps s0 s) : KeepsR s0 (execSetActivate set s) := by
  unfold execSetActivate
  with_reducible repeat' (first | assumption | intro _ | apply State.write_keeps | apply State.setActivate_keeps | apply KeepsR.next)

theorem State.setClear_keeps {s0 : State} {s : State} {set : Nat} (ks : Keeps s0 s) : Keeps s0 (State.setClear s set) := by
  unfold State.setClear
  with_reducible repeat' (first | assumption | intro _ | (extract_lets +onlyGivenNames x; refine Keeps.have (Q := Keeps s0 x) ?_ ?_; dsimp -zeta -iota only [x]; clear x; rotate_left; clear_value x; revert x; intro _ _) | apply Keeps.ite | apply State.setResult_keeps | apply State.setFld_keeps | apply State.sendFp_keeps)

theorem execSetClear_keeps {s0 : State} {set : Fin 8} {s : State} (ks : Keeps s0 s) : KeepsR s0 (execSetClear set s) := by
  unfold execSetClear
  with_reducible repeat' (first | assumption | intro _ | apply State.write_keeps | apply State.setClear_keeps | apply KeepsR.next)

theorem State.histClear_keeps {s0 : State} {s : State} (ks : Keeps s0 s) : Keeps s0 (State.histClear s) := by
  unfold State.histClear
  with_reducible repeat' (first | assumption | intro _ | apply State.setReg_keeps | apply State.each_keeps)

theorem execHistClear_keeps {s0 : State} {s : State} (ks : Keeps s0 s) : KeepsR s0 (execHistClear s) := by
  unfold execHistClear
  with_reducible repeat' (first | assumption | intro _ | apply State.histClear_keeps | apply State.write_keeps | apply KeepsR.next)

theorem State.clusterErr_keeps {s0 : State} {s : State} {h : Half} {u : Nat} {code : Nat} (ks : Keeps s0 s) : Keeps s0 (State.clusterErr s h u code) := by
  unfold State.clusterErr
  with_reducible repeat' (first | assumption | intro _ | (extract_lets +onlyGivenNames x; refine Keeps.have (Q := Keeps s0 x) ?_ ?_; dsimp -zeta -iota only [x]; clear x; rotate_left; clear_value x; revert x; intro _ _) | (extract_lets +onlyGivenNames x; clear_value x; revert x; intro _) | apply Keeps.ite | apply State.raise_keeps | (simp -zeta -iota only [Keeps.mk_iff]; apply KeepsMk.of (h1 := by simp) (h2 := by simp) (h3 := by simp)))

theorem State.currentLine_keeps {s0 : State} {s : State} {h : Half} {d : Nat} {line : Nat} {ma : Nat} {errs : List Burst} (ks : Keeps s0 s) : Keeps22 s0 (State.currentLine s h d line ma errs) := by
  unfold State.currentLine
  with_reducible repeat' (first | assumption | intro _ | (extract_lets +onlyGivenNames x; refine Keeps.isFun x ?_; dsimp -zeta -iota only [x]; clear x) | (extract_lets +onlyGivenNames x; clear_value x; revert x; intro _) | apply Keeps22.ite | apply State.fetchNear_keeps | (simp -zeta -iota only [Keeps22.pair]) | (refine Keeps222.eq (by assumption) ?_) | split)

theorem State.readPageLines_keeps {s0 : State} {s : State} {h : Half} {d : Nat} {page : Nat} {unit : Nat} {errs : List Burst} (ks : Keeps s0 s) : Keeps22 s0 (State.readPageLines s h d page unit errs) := by
  unfold State.readPageLines
  with_reducible repeat' (first | assumption | intro _ | apply State.currentLine_keeps | (simp -zeta -iota only [Keeps22.pair]) | apply Keeps22.foldl | (refine Keeps22.eq (by assumption) ?_) | (exact Keeps22.out (by assumption)) | split)

theorem State.nextSeq_keeps {s0 : State} {s : State} {h : Half} (ks : Keeps s0 s) : Keeps2 s0 (State.nextSeq s h) := by
  unfold State.nextSeq
  with_reducible repeat' (first | assumption | (extract_lets +onlyGivenNames x; clear_value x; revert x; intro _) | apply State.setFld_keeps | (simp -zeta -iota only [Keeps2.pair]))

theorem State.bufferSlot_keeps {s0 : State} {s : State} {h : Half} {slot : Nat} {d : Nat} {page : Nat} {seq : Nat} {image : List Byte} (ks : Keeps s0 s) : KeepsO s0 (State.bufferSlot s h slot d page seq image) := by
  unfold State.bufferSlot
  with_reducible repeat' (first | assumption | intro _ | (extract_lets +onlyGivenNames x; clear_value x; revert x; intro _) | apply KeepsO.ite | apply State.buffer_keeps | apply KeepsO.none | apply KeepsO.some | apply State.each_keeps)

theorem State.histCount_keeps {s0 : State} {s : State} {syms : List Nat} (ks : Keeps s0 s) : Keeps s0 (State.histCount s syms) := by
  unfold State.histCount
  with_reducible repeat' (first | assumption | intro _ | apply State.count_keeps | apply State.each_keeps)

theorem State.takeOffer_keeps {s0 : State} {s : State} {h : Half} {d : Nat} {page : Nat} (ks : Keeps s0 s) : Keeps s0 (State.takeOffer s h d page) := by
  unfold State.takeOffer
  with_reducible repeat' (first | assumption | (simp -zeta -iota only [Keeps.mk_iff]; apply KeepsMk.of (h1 := by simp) (h2 := by simp) (h3 := by simp)))

theorem State.compAbort_keeps {s0 : State} {s : State} {h : Half} (ks : Keeps s0 s) : Keeps s0 (State.compAbort s h) := by
  unfold State.compAbort
  with_reducible repeat' (first | assumption | apply State.count_keeps)

theorem State.compress_keeps {s0 : State} {s : State} {h : Half} {d : Nat} {page : Nat} {errs : List Burst} {cluster : Nat} {streams : List (List Byte)} {recheckFail : Bool} {pick : Nat} (ks : Keeps s0 s) : Keeps s0 (State.compress s h d page errs cluster streams recheckFail pick) := by
  unfold State.compress
  with_reducible repeat' (first | assumption | intro _ | (extract_lets +onlyGivenNames x; refine Keeps.have (Q := Keeps s0 x) ?_ ?_; dsimp -zeta -iota only [x]; clear x; rotate_left; clear_value x; revert x; intro _ _) | (extract_lets +onlyGivenNames x; refine Keeps.isFun x ?_; dsimp -zeta -iota only [x]; clear x) | (extract_lets +onlyGivenNames x; clear_value x; revert x; intro _) | apply Keeps.ite | apply State.pulse_keeps | apply State.takeOffer_keeps | apply State.note_keeps | apply State.compAbort_keeps | (refine (State.readPageLines_keeps ?_).out) | apply State.settle_keeps | apply State.took_keeps | apply State.savePage_keeps | apply State.takeSlot_keeps | apply State.recap_keeps | apply State.setPage_keeps | (refine (State.nextSeq_keeps ?_).out) | apply State.clusterErr_keeps | apply State.compBusy_keeps | apply State.count_keeps | apply State.bufferSlot_keeps | apply State.histCount_keeps | (simp -zeta -iota only [Keeps22.pair]) | (refine Keeps.eqQ (by assumption) ?_) | (refine Keeps.eqO (by assumption) ?_) | (simp -zeta -iota only [Keeps.mk_iff]; apply KeepsMk.of (h1 := by simp) (h2 := by simp) (h3 := by simp)) | split)

theorem execPageCompress_keeps {s0 : State} {h : Half} {d : Fin 1024} {page : Nat} {errs : List Burst} {cluster : Fin 8} {streams : List (List Byte)} {recheckFail : Bool} {pick : Nat} {s : State} (ks : Keeps s0 s) : KeepsR s0 (execPageCompress h d page errs cluster streams recheckFail pick s) := by
  unfold execPageCompress
  with_reducible repeat' (first | assumption | apply State.compress_keeps | apply KeepsR.next)

theorem State.compressCommit_keeps {s0 : State} {s : State} {h : Half} {d : Nat} {page : Nat} (ks : Keeps s0 s) : Keeps s0 (State.compressCommit s h d page) := by
  unfold State.compressCommit
  with_reducible repeat' (first | assumption | intro _ | (extract_lets +onlyGivenNames x; refine Keeps.have (Q := Keeps s0 x) ?_ ?_; dsimp -zeta -iota only [x]; clear x; rotate_left; clear_value x; revert x; intro _ _) | (extract_lets +onlyGivenNames x; refine Keeps.isFun x ?_; dsimp -zeta -iota only [x]; clear x) | (extract_lets +onlyGivenNames x; clear_value x; revert x; intro _) | apply Keeps.ite | apply State.settle_keeps | apply State.savePage_keeps | apply State.wakeStage5_keeps | apply State.recap_keeps | apply State.setPage_keeps | apply State.dropComp_keeps | apply State.compBusy_keeps | apply State.count_keeps | apply State.bufferSlot_keeps | apply State.release_keeps | (refine Keeps.eqO (by assumption) ?_) | (simp -zeta -iota only [Keeps.mk_iff]; apply KeepsMk.of (h1 := by simp) (h2 := by simp) (h3 := by simp)) | split)

theorem execPageCompressCommit_keeps {s0 : State} {h : Half} {d : Fin 1024} {page : Nat} {s : State} (ks : Keeps s0 s) : KeepsR s0 (execPageCompressCommit h d page s) := by
  unfold execPageCompressCommit
  with_reducible repeat' (first | assumption | apply State.compressCommit_keeps | apply KeepsR.next)

theorem State.awaitSecond_keeps {s0 : State} {s : State} {h : Half} {x : Redecode} (ks : Keeps s0 s) : KeepsO s0 (State.awaitSecond s h x) := by
  unfold State.awaitSecond
  with_reducible repeat' (first | assumption | intro _ | apply KeepsO.ite | apply KeepsO.none | apply KeepsO.some | (simp -zeta -iota only [Keeps.mk_iff]; apply KeepsMk.of (h1 := by simp) (h2 := by simp) (h3 := by simp)))

theorem State.chunkLost_keeps {s0 : State} {s : State} {h : Half} {d : Nat} {page : Nat} {slot : Nat} {chunk : Nat} {rid : Option Nat} {e00 : Nat} (ks : Keeps s0 s) : Keeps s0 (State.chunkLost s h d page slot chunk rid e00) := by
  unfold State.chunkLost
  with_reducible repeat' (first | assumption | apply State.chunkFailed_keeps | apply State.chunkEnd_keeps | apply State.keepFailed_keeps)

theorem State.decodeParity_keeps {s0 : State} {s : State} {h : Half} {d : Nat} {rid : Option Nat} {cluster : Nat} {n : Nat} (ks : Keeps s0 s) : Keeps1 s0 (State.decodeParity s h d rid cluster n) := by
  unfold State.decodeParity
  with_reducible repeat' (first | assumption | intro _ | (extract_lets +onlyGivenNames x; clear_value x; revert x; intro _) | apply Keeps1.ite | (refine (State.parity_keeps ?_).out) | apply State.failReq_keeps | (simp -zeta -iota only [Keeps1.pair]) | split)

theorem State.chunkDecode_keeps {s0 : State} {s : State} {h : Half} {d : Nat} {page : Nat} {rid : Option Nat} {chunk : Nat} {cluster : Nat} {fails : Nat} (ks : Keeps s0 s) : Keeps s0 (State.chunkDecode s h d page rid chunk cluster fails) := by
  unfold State.chunkDecode
  with_reducible repeat' (first | assumption | intro _ | (extract_lets +onlyGivenNames x; refine Keeps.have (Q := Keeps s0 x) ?_ ?_; dsimp -zeta -iota only [x]; clear x; rotate_left; clear_value x; revert x; intro _ _) | (extract_lets +onlyGivenNames x; clear_value x; revert x; intro _) | apply Keeps.ite | apply State.pulse_keeps | apply State.cacheChunk_keeps | apply State.awaitSecond_keeps | apply State.chunkLost_keeps | apply State.chunkEnd_keeps | (refine (State.decodeParity_keeps ?_).out) | (refine Keeps.eqO (by assumption) ?_) | split)

theorem execChunkDecode_keeps {s0 : State} {h : Half} {d : Fin 1024} {page : Nat} {rid : Option (Fin 65536)} {chunk : Fin 4} {cluster : Fin 8} {fails : Fin 6} {s : State} (ks : Keeps s0 s) : KeepsR s0 (execChunkDecode h d page rid chunk cluster fails s) := by
  unfold execChunkDecode
  with_reducible repeat' (first | assumption | apply State.chunkDecode_keeps | apply KeepsR.next)

theorem State.chunkRedecode_keeps {s0 : State} {s : State} {h : Half} {d : Nat} {page : Nat} {rid : Option Nat} {chunk : Nat} {cluster : Nat} {fails : Nat} (ks : Keeps s0 s) : Keeps s0 (State.chunkRedecode s h d page rid chunk cluster fails) := by
  unfold State.chunkRedecode
  with_reducible repeat' (first | assumption | intro _ | (extract_lets +onlyGivenNames x; refine Keeps.have (Q := Keeps s0 x) ?_ ?_; dsimp -zeta -iota only [x]; clear x; rotate_left; clear_value x; revert x; intro _ _) | (extract_lets +onlyGivenNames x; refine Keeps.isFun x ?_; dsimp -zeta -iota only [x]; clear x) | (extract_lets +onlyGivenNames x; clear_value x; revert x; intro _) | apply Keeps.ite | apply State.pulse_keeps | apply State.cacheChunk_keeps | apply State.note_keeps | apply State.chunkLost_keeps | apply State.chunkEnd_keeps | (refine (State.decodeParity_keeps ?_).out) | apply State.clusterErr_keeps | (simp -zeta -iota only [Keeps.mk_iff]; apply KeepsMk.of (h1 := by simp) (h2 := by simp) (h3 := by simp)) | split)

theorem execChunkRedecode_keeps {s0 : State} {h : Half} {d : Fin 1024} {page : Nat} {rid : Option (Fin 65536)} {chunk : Fin 4} {cluster : Fin 8} {fails : Fin 6} {s : State} (ks : Keeps s0 s) : KeepsR s0 (execChunkRedecode h d page rid chunk cluster fails s) := by
  unfold execChunkRedecode
  with_reducible repeat' (first | assumption | apply State.chunkRedecode_keeps | apply KeepsR.next)

theorem State.startPromo_keeps {s0 : State} {s : State} {h : Half} {d : Nat} {page : Nat} {frame : Nat} {pg : Page} {rid : Option Nat} {error : Bool} {errs : List Burst} (ks : Keeps s0 s) : Keeps s0 (State.startPromo s h d page frame pg rid error errs) := by
  unfold State.startPromo
  with_reducible repeat' (first | assumption | intro _ | (extract_lets +onlyGivenNames x; refine Keeps.have (Q := Keeps s0 x) ?_ ?_; dsimp -zeta -iota only [x]; clear x; rotate_left; clear_value x; revert x; intro _ _) | (extract_lets +onlyGivenNames x; clear_value x; revert x; intro _) | apply Keeps2.ite | apply State.readSlot_keeps | apply State.lock_keeps | (simp -zeta -iota only [Keeps2.pair]) | (refine Keeps2.eq (by assumption) ?_) | (simp -zeta -iota only [Keeps.mk_iff]; apply KeepsMk.of (h1 := by simp) (h2 := by simp) (h3 := by simp)) | split)

theorem State.promote_keeps {s0 : State} {s : State} {rid : Nat} {errs : List Burst} {pick : Nat} (ks : Keeps s0 s) : Keeps s0 (State.promote s rid errs pick) := by
  unfold State.promote
  with_reducible repeat' (first | assumption | intro _ | (extract_lets +onlyGivenNames x; refine Keeps.have (Q := Keeps s0 x) ?_ ?_; dsimp -zeta -iota only [x]; clear x; rotate_left; clear_value x; revert x; intro _ _) | (extract_lets +onlyGivenNames x; clear_value x; revert x; intro _) | apply Keeps.ite | apply State.note_keeps | apply State.fenceDiscard_keeps | apply State.discardWrite_keeps | apply State.startPromo_keeps | apply State.toFrame_keeps | apply State.exclude_keeps | apply State.settle_keeps | apply State.savePage_keeps | apply State.wakeStage5_keeps | apply State.recap_keeps | apply State.setStage_keeps | apply State.setPage_keeps | apply State.alloc_keeps | apply State.writePage_keeps | apply State.listPages_keeps | apply State.release_keeps | apply State.failReq_keeps | (refine Keeps.eqQ (by assumption) ?_) | split)

theorem execPagePromote_keeps {s0 : State} {rid : Fin 65536} {errs : List Burst} {pick : Nat} {s : State} (ks : Keeps s0 s) : KeepsR s0 (execPagePromote rid errs pick s) := by
  unfold execPagePromote
  with_reducible repeat' (first | assumption | apply State.promote_keeps | apply KeepsR.next)

theorem State.finishWrite_keeps {s0 : State} {s : State} {r : Req} (ks : Keeps s0 s) : Keeps s0 (State.finishWrite s r) := by
  unfold State.finishWrite
  with_reducible repeat' (first | assumption | intro _ | (extract_lets +onlyGivenNames x; refine Keeps.have (Q := Keeps s0 x) ?_ ?_; dsimp -zeta -iota only [x]; clear x; rotate_left; clear_value x; revert x; intro _ _) | apply Keeps.ite | apply State.answer_keeps | (refine (State.mirrorOut_keeps ?_).out) | apply State.exclude_keeps | apply State.updReq_keeps | split)

theorem State.promoCut_keeps {s0 : State} {s : State} {h : Half} {p : Promo} (ks : Keeps s0 s) : Keeps s0 (State.promoCut s h p) := by
  unfold State.promoCut
  with_reducible repeat' (first | assumption | (extract_lets +onlyGivenNames x; refine Keeps.have (Q := Keeps s0 x) ?_ ?_; dsimp -zeta -iota only [x]; clear x; rotate_left; clear_value x; revert x; intro _ _) | (extract_lets +onlyGivenNames x; clear_value x; revert x; intro _) | apply State.settle_keeps | apply State.wakeStage5_keeps | apply State.recap_keeps | apply State.unlock_keeps | apply State.failReq_keeps | (simp -zeta -iota only [Keeps.mk_iff]; apply KeepsMk.of (h1 := by simp) (h2 := by simp) (h3 := by simp)) | split)

theorem State.promoteCommit_keeps {s0 : State} {s : State} {h : Half} {d : Nat} {page : Nat} (ks : Keeps s0 s) : Keeps s0 (State.promoteCommit s h d page) := by
  unfold State.promoteCommit
  with_reducible repeat' (first | assumption | intro _ | (extract_lets +onlyGivenNames x; refine Keeps.have (Q := Keeps s0 x) ?_ ?_; dsimp -zeta -iota only [x]; clear x; rotate_left; clear_value x; revert x; intro _ _) | (extract_lets +onlyGivenNames x; clear_value x; revert x; intro _) | apply Keeps.ite | apply State.pulse_keeps | (refine (State.rollFresh_keeps ?_).out) | apply State.settle_keeps | apply State.savePage_keeps | apply State.wakeStage5_keeps | apply State.recap_keeps | apply State.setPage_keeps | apply State.promoCut_keeps | apply State.warm_keeps | apply State.buffer_keeps | apply State.unlock_keeps | apply State.count_keeps | apply State.finishWrite_keeps | apply State.release_keeps | apply State.each_keeps | (simp -zeta -iota only [Keeps.mk_iff]; apply KeepsMk.of (h1 := by simp) (h2 := by simp) (h3 := by simp)) | split)

theorem execPagePromoteCommit_keeps {s0 : State} {h : Half} {d : Fin 1024} {page : Nat} {s : State} (ks : Keeps s0 s) : KeepsR s0 (execPagePromoteCommit h d page s) := by
  unfold execPagePromoteCommit
  with_reducible repeat' (first | assumption | apply State.promoteCommit_keeps | apply KeepsR.next)

theorem State.promoteAlone_keeps {s0 : State} {s : State} {h : Half} {d : Nat} {page : Nat} {errs : List Burst} {pick : Nat} (ks : Keeps s0 s) : Keeps s0 (State.promoteAlone s h d page errs pick) := by
  unfold State.promoteAlone
  with_reducible repeat' (first | assumption | intro _ | (extract_lets +onlyGivenNames x; refine Keeps.isFun x ?_; dsimp -zeta -iota only [x]; clear x) | (extract_lets +onlyGivenNames x; clear_value x; revert x; intro _) | apply Keeps.ite | apply State.startPromo_keeps | apply State.settle_keeps | apply State.took_keeps | apply State.recap_keeps | apply State.alloc_keeps | (refine Keeps.eqQ (by assumption) ?_) | (simp -zeta -iota only [Keeps.mk_iff]; apply KeepsMk.of (h1 := by simp) (h2 := by simp) (h3 := by simp)) | split)

theorem execErrorPromotion_keeps {s0 : State} {h : Half} {d : Fin 1024} {page : Nat} {errs : List Burst} {pick : Nat} {s : State} (ks : Keeps s0 s) : KeepsR s0 (execErrorPromotion h d page errs pick s) := by
  unfold execErrorPromotion
  with_reducible repeat' (first | assumption | apply State.promoteAlone_keeps | apply KeepsR.next)

end Sys2Proof.Machine
end

