-- ==== Sys2Proof/Laws/KeepMap.lean ====
section
/-! SUPPORT. The operations of Machine/Map.lean break nothing (Laws/Keeps.lean). -/

namespace Sys2Proof.Machine

theorem State.take_keeps {s0 : State} {s : State} {f : Fld} {v : Nat} (ks : Keeps s0 s) : Keeps s0 (State.take s f v) := by
  unfold State.take
  with_reducible repeat' (first | assumption | apply State.setFld_keeps)

theorem State.dropStaged_keeps {s0 : State} {s : State} {d : Nat} (ks : Keeps s0 s) : Keeps s0 (State.dropStaged s d) := by
  unfold State.dropStaged
  with_reducible repeat' (first | assumption | (extract_lets +onlyGivenNames x; refine Keeps.have (Q := Keeps s0 x) ?_ ?_; dsimp -zeta -iota only [x]; clear x; rotate_left; clear_value x; revert x; intro _ _) | (extract_lets +onlyGivenNames x; refine Keeps.isFun x ?_; dsimp -zeta -iota only [x]; clear x) | apply State.updMap_keeps | apply State.recap_keeps | (simp -zeta -iota only [Keeps.mk_iff]; apply KeepsMk.of (h1 := by simp) (h2 := by simp) (h3 := by simp)) | split)

theorem State.wantTable_keeps {s0 : State} {s : State} {d : Nat} (ks : Keeps s0 s) : Keeps s0 (State.wantTable s d) := by
  unfold State.wantTable
  with_reducible repeat' (first | assumption | intro _ | (extract_lets +onlyGivenNames x; refine Keeps.have (Q := Keeps s0 x) ?_ ?_; dsimp -zeta -iota only [x]; clear x; rotate_left; clear_value x; revert x; intro _ _) | (extract_lets +onlyGivenNames x; clear_value x; revert x; intro _) | apply Keeps.ite | apply State.setFlag_keeps | apply State.updMap_keeps | apply State.dropStaged_keeps)

theorem State.shadowWrite_keeps {s0 : State} {s : State} {d : Nat} {window : Bool} {v : Nat} (ks : Keeps s0 s) : Keeps s0 (State.shadowWrite s d window v) := by
  unfold State.shadowWrite
  with_reducible repeat' (first | assumption | intro _ | (extract_lets +onlyGivenNames x; refine Keeps.have (Q := Keeps s0 x) ?_ ?_; dsimp -zeta -iota only [x]; clear x; rotate_left; clear_value x; revert x; intro _ _) | apply Keeps.ite | apply State.take_keeps | apply State.wantTable_keeps)

theorem execDomShadowWrite_keeps {s0 : State} {d : Fin 1024} {window : Bool} {value : Word} {s : State} (ks : Keeps s0 s) : KeepsR s0 (execDomShadowWrite d window value s) := by
  unfold execDomShadowWrite
  with_reducible repeat' (first | assumption | intro _ | apply State.shadowWrite_keeps | apply State.write_keeps | apply State.groupWrite_keeps | apply KeepsR.next)

theorem State.stageTable_keeps {s0 : State} {s : State} {d : Nat} {pick1 : Nat} {pick2 : Nat} (ks : Keeps s0 s) : Keeps s0 (State.stageTable s d pick1 pick2) := by
  unfold State.stageTable
  with_reducible repeat' (first | assumption | (extract_lets +onlyGivenNames x; refine Keeps.have (Q := Keeps s0 x) ?_ ?_; dsimp -zeta -iota only [x]; clear x; rotate_left; clear_value x; revert x; intro _ _) | (extract_lets +onlyGivenNames x; refine Keeps.isFun x ?_; dsimp -zeta -iota only [x]; clear x) | (extract_lets +onlyGivenNames x; clear_value x; revert x; intro _) | apply State.setFlag_keeps | apply State.dropFlips_keeps | apply State.updMap_keeps | apply State.recap_keeps | apply State.alloc_keeps | (refine Keeps.eqQ (by assumption) ?_) | (refine Keeps.eqP (by assumption) ?_) | split)

theorem execExtentTableStaged_keeps {s0 : State} {d : Fin 1024} {pick1 : Nat} {pick2 : Nat} {s : State} (ks : Keeps s0 s) : KeepsR s0 (execExtentTableStaged d pick1 pick2 s) := by
  unfold execExtentTableStaged
  with_reducible repeat' (first | assumption | apply State.stageTable_keeps | apply KeepsR.next)

theorem State.readTable_keeps {s0 : State} {s : State} {h : Half} {d : Nat} {e00 : Nat} (ks : Keeps s0 s) : Keeps s0 (State.readTable s h d e00) := by
  unfold State.readTable
  with_reducible repeat' (first | assumption | intro _ | (extract_lets +onlyGivenNames x; refine Keeps.have (Q := Keeps s0 x) ?_ ?_; dsimp -zeta -iota only [x]; clear x; rotate_left; clear_value x; revert x; intro _ _) | (extract_lets +onlyGivenNames x; refine Keeps.isFun x ?_; dsimp -zeta -iota only [x]; clear x) | apply Keeps.ite | (refine (State.readMeta_keeps ?_).out) | apply State.each_keeps)

theorem State.splitExt_keeps {s0 : State} {s : State} {d : Nat} {e00 : Nat} {pick : Nat} (ks : Keeps s0 s) : KeepsO s0 (State.splitExt s d e00 pick) := by
  unfold State.splitExt
  with_reducible repeat' (first | assumption | intro _ | (extract_lets +onlyGivenNames x; clear_value x; revert x; intro _) | apply State.giveTable_keeps | apply KeepsO.map | (refine Keeps.eqO (by assumption) ?_) | (simp -zeta -iota only [Keeps.mk_iff]; apply KeepsMk.of (h1 := by simp) (h2 := by simp) (h3 := by simp)))

theorem State.joinExt_keeps {s0 : State} {s : State} {d : Nat} {e00 : Nat} {b : Nat} (ks : Keeps s0 s) : Keeps s0 (State.joinExt s d e00 b) := by
  unfold State.joinExt
  with_reducible repeat' (first | assumption | (extract_lets +onlyGivenNames x; refine Keeps.have (Q := Keeps s0 x) ?_ ?_; dsimp -zeta -iota only [x]; clear x; rotate_left; clear_value x; revert x; intro _ _) | (extract_lets +onlyGivenNames x; refine Keeps.isFun x ?_; dsimp -zeta -iota only [x]; clear x) | (extract_lets +onlyGivenNames x; clear_value x; revert x; intro _) | apply State.clearPages_keeps | apply State.saveMeta_keeps | apply State.setExt_keeps | apply State.settle_keeps | apply State.release_keeps | (simp -zeta -iota only [Keeps.mk_iff]; apply KeepsMk.of (h1 := by simp) (h2 := by simp) (h3 := by simp)))

theorem State.touchExt_keeps {s0 : State} {s : State} {d : Nat} {e00 : Nat} (ks : Keeps s0 s) : Keeps s0 (State.touchExt s d e00) := by
  unfold State.touchExt
  with_reducible repeat' (first | assumption | (simp -zeta -iota only [Keeps.mk_iff]; apply KeepsMk.of (h1 := by simp) (h2 := by simp) (h3 := by simp)))

theorem State.convert_keeps {s0 : State} {s : State} {d : Nat} {e00 : Nat} {pick : Nat} (ks : Keeps s0 s) : Keeps s0 (State.convert s d e00 pick) := by
  unfold State.convert
  with_reducible repeat' (first | assumption | intro _ | (extract_lets +onlyGivenNames x; clear_value x; revert x; intro _) | apply Keeps.ite | apply State.splitExt_keeps | apply State.joinExt_keeps | apply State.settle_keeps | apply State.took_keeps | (refine Keeps.eqO (by assumption) ?_) | split)

theorem execExtentConvert_keeps {s0 : State} {d : Fin 1024} {ext : Nat} {errs00 : List Burst} {picks : List Nat} {s : State} (ks : Keeps s0 s) : KeepsR s0 (execExtentConvert d ext errs00 picks s) := by
  unfold execExtentConvert
  with_reducible repeat' (first | assumption | apply State.convert_keeps | apply KeepsR.next)

theorem State.zeroStart_keeps {s0 : State} {s : State} (ks : Keeps s0 s) : Keeps s0 (State.zeroStart s) := by
  unfold State.zeroStart
  with_reducible repeat' (first | assumption | intro _ | (extract_lets +onlyGivenNames x; refine Keeps.have (Q := Keeps s0 x) ?_ ?_; dsimp -zeta -iota only [x]; clear x; rotate_left; clear_value x; revert x; intro _ _) | (extract_lets +onlyGivenNames x; refine Keeps.isFun x ?_; dsimp -zeta -iota only [x]; clear x) | (extract_lets +onlyGivenNames x; clear_value x; revert x; intro _) | apply Keeps.ite | apply State.setFld_keeps | (simp -zeta -iota only [Keeps.mk_iff]; apply KeepsMk.of (h1 := by simp) (h2 := by simp) (h3 := by simp)))

theorem execMapZeroStart_keeps {s0 : State} {s : State} (ks : Keeps s0 s) : KeepsR s0 (execMapZeroStart s) := by
  unfold execMapZeroStart
  with_reducible repeat' (first | assumption | intro _ | apply State.zeroStart_keeps | apply State.write_keeps | apply KeepsR.next)

theorem State.zeroLines_keeps {s0 : State} {s : State} {h : Half} {d : Nat} {p : Nat} {unit : Nat} (ks : Keeps s0 s) : Keeps s0 (State.zeroLines s h d p unit) := by
  unfold State.zeroLines
  with_reducible repeat' (first | assumption | apply State.writePageLines_keeps)

theorem State.zeroPaged_keeps {s0 : State} {s : State} {d : Nat} {p : Nat} (ks : Keeps s0 s) : Keeps s0 (State.zeroPaged s d p) := by
  unfold State.zeroPaged
  with_reducible repeat' (first | assumption | (extract_lets +onlyGivenNames x; refine Keeps.have (Q := Keeps s0 x) ?_ ?_; dsimp -zeta -iota only [x]; clear x; rotate_left; clear_value x; revert x; intro _ _) | (extract_lets +onlyGivenNames x; clear_value x; revert x; intro _) | apply State.savePage_keeps | apply State.unlistPages_keeps | apply State.setPage_keeps | apply State.release_keeps | split)

theorem State.zeroExt_keeps {s0 : State} {s : State} {d : Nat} {e00 : Nat} (ks : Keeps s0 s) : Keeps s0 (State.zeroExt s d e00) := by
  unfold State.zeroExt
  with_reducible repeat' (first | assumption | (extract_lets +onlyGivenNames x; clear_value x; revert x; intro _) | apply State.saveMeta_keeps | apply State.setExt_keeps | apply State.unlistPages_keeps)

theorem State.zeroStep_keeps {s0 : State} {s : State} {d : Nat} {p : Nat} {n : Nat} {pick : Nat} (ks : Keeps s0 s) : Keeps1 s0 (State.zeroStep s d p n pick) := by
  unfold State.zeroStep
  with_reducible repeat' (first | assumption | intro _ | (extract_lets +onlyGivenNames x; refine Keeps.have (Q := Keeps s0 x) ?_ ?_; dsimp -zeta -iota only [x]; clear x; rotate_left; clear_value x; revert x; intro _ _) | (extract_lets +onlyGivenNames x; clear_value x; revert x; intro _) | apply Keeps1.ite | apply State.splitExt_keeps | apply State.makeNear_keeps | apply State.zeroExt_keeps | apply State.touchExt_keeps | apply State.zeroPaged_keeps | apply State.giveTable_keeps | apply State.zeroLines_keeps | apply State.release_keeps | (simp -zeta -iota only [Keeps1.pair]) | (refine Keeps.eqO (by assumption) ?_) | split)

theorem State.zeroEnd_keeps {s0 : State} {s : State} {z : ZeroRun} (ks : Keeps s0 s) : Keeps s0 (State.zeroEnd s z) := by
  unfold State.zeroEnd
  with_reducible repeat' (first | assumption | intro _ | (extract_lets +onlyGivenNames x; refine Keeps.have (Q := Keeps s0 x) ?_ ?_; dsimp -zeta -iota only [x]; clear x; rotate_left; clear_value x; revert x; intro _ _) | apply Keeps.ite | apply State.eventRecord_keeps | apply State.setFld_keeps | apply State.each_keeps | (simp -zeta -iota only [Keeps.mk_iff]; apply KeepsMk.of (h1 := by simp) (h2 := by simp) (h3 := by simp)))

theorem State.zeroLock_keeps {s0 : State} {s : State} {d : Nat} {p : Nat} {n : Nat} (ks : Keeps s0 s) : Keeps s0 (State.zeroLock s d p n) := by
  unfold State.zeroLock
  with_reducible repeat' (first | assumption | intro _ | (extract_lets +onlyGivenNames x; clear_value x; revert x; intro _) | apply Keeps.ite | apply State.setExt_keeps | apply State.lock_keeps)

theorem State.zeroUnlock_keeps {s0 : State} {s : State} {d : Nat} {p : Nat} (ks : Keeps s0 s) : Keeps s0 (State.zeroUnlock s d p) := by
  unfold State.zeroUnlock
  with_reducible repeat' (first | assumption | intro _ | (extract_lets +onlyGivenNames x; clear_value x; revert x; intro _) | apply Keeps.ite | apply State.setExt_keeps | apply State.unlock_keeps)

theorem State.zeroNext_keeps {s0 : State} {s : State} {picks : List Nat} (ks : Keeps s0 s) : Keeps s0 (State.zeroNext s picks) := by
  unfold State.zeroNext
  with_reducible repeat' (first | assumption | intro _ | (extract_lets +onlyGivenNames x; refine Keeps.have (Q := Keeps s0 x) ?_ ?_; dsimp -zeta -iota only [x]; clear x; rotate_left; clear_value x; revert x; intro _ _) | (extract_lets +onlyGivenNames x; clear_value x; revert x; intro _) | apply Keeps.ite | apply State.zeroEnd_keeps | (refine (State.mirrorOut_keeps ?_).out) | apply State.zeroLock_keeps | apply State.settle_keeps | apply State.wakeStage5_keeps | apply State.zeroUnlock_keeps | (refine (State.zeroStep_keeps ?_).out) | apply State.each_keeps | (simp -zeta -iota only [Keeps.mk_iff]; apply KeepsMk.of (h1 := by simp) (h2 := by simp) (h3 := by simp)) | split)

theorem execMapZeroPage_keeps {s0 : State} {picks : List Nat} {s : State} (ks : Keeps s0 s) : KeepsR s0 (execMapZeroPage picks s) := by
  unfold execMapZeroPage
  with_reducible repeat' (first | assumption | apply State.zeroNext_keeps | apply KeepsR.next)

theorem State.drainDone_keeps {s0 : State} {s : State} {id : Nat} (ks : Keeps s0 s) : Keeps s0 (State.drainDone s id) := by
  unfold State.drainDone
  with_reducible repeat' (first | assumption | intro _ | (extract_lets +onlyGivenNames x; refine Keeps.have (Q := Keeps s0 x) ?_ ?_; dsimp -zeta -iota only [x]; clear x; rotate_left; clear_value x; revert x; intro _ _) | apply Keeps.ite | apply State.setFlag_keeps | apply State.settle_keeps | apply State.dropSlot_keeps | apply State.each_keeps | (simp -zeta -iota only [Keeps.mk_iff]; apply KeepsMk.of (h1 := by simp) (h2 := by simp) (h3 := by simp)) | split)

theorem execMediaDrainDone_keeps {s0 : State} {item : Nat} {s : State} (ks : Keeps s0 s) : KeepsR s0 (execMediaDrainDone item s) := by
  unfold execMediaDrainDone
  with_reducible repeat' (first | assumption | apply State.drainDone_keeps | apply KeepsR.next)

theorem State.forget_keeps {s0 : State} {s : State} {h : Half} {bases : List Nat} (ks : Keeps s0 s) : Keeps s0 (State.forget s h bases) := by
  unfold State.forget
  with_reducible repeat' (first | assumption | (simp -zeta -iota only [Keeps.mk_iff]; apply KeepsMk.of (h1 := by simp) (h2 := by simp) (h3 := by simp)))

theorem State.dropCopy_keeps {s0 : State} {s : State} {d : Nat} {e00 : Nat} {c : Nat} (ks : Keeps s0 s) : Keeps s0 (State.dropCopy s d e00 c) := by
  unfold State.dropCopy
  with_reducible repeat' (first | assumption | intro _ | (extract_lets +onlyGivenNames x; refine Keeps.isFun x ?_; dsimp -zeta -iota only [x]; clear x) | (extract_lets +onlyGivenNames x; clear_value x; revert x; intro _) | apply Keeps.ite | apply State.retireExt_keeps | apply State.metaLost_keeps | apply State.clearPages_keeps | apply State.saveMeta_keeps | apply State.setExt_keeps | apply State.forget_keeps | split)

theorem State.areaLost_keeps {s0 : State} {s : State} {d : Nat} {e00 : Nat} {c : Nat} {pick : Nat} (ks : Keeps s0 s) : Keeps s0 (State.areaLost s d e00 c pick) := by
  unfold State.areaLost
  with_reducible repeat' (first | assumption | intro _ | (extract_lets +onlyGivenNames x; refine Keeps.have (Q := Keeps s0 x) ?_ ?_; dsimp -zeta -iota only [x]; clear x; rotate_left; clear_value x; revert x; intro _ _) | (extract_lets +onlyGivenNames x; clear_value x; revert x; intro _) | apply Keeps.ite | apply State.dropFlips_keeps | apply State.saveMeta_keeps | apply State.forget_keeps | apply State.allocArea_keeps | apply State.fenceSubtree_keeps | (refine Keeps.eqQ (by assumption) ?_) | (simp -zeta -iota only [Keeps.mk_iff]; apply KeepsMk.of (h1 := by simp) (h2 := by simp) (h3 := by simp)) | split)

theorem State.walkNote_keeps {s0 : State} {s : State} {d : Nat} {e00 : Nat} (ks : Keeps s0 s) : Keeps s0 (State.walkNote s d e00) := by
  unfold State.walkNote
  with_reducible repeat' (first | assumption | apply State.eventRecord_keeps)

theorem State.walkPage_keeps {s0 : State} {s : State} {d : Nat} {p : Nat} (ks : Keeps s0 s) : Keeps s0 (State.walkPage s d p) := by
  unfold State.walkPage
  with_reducible repeat' (first | assumption | intro _ | (extract_lets +onlyGivenNames x; refine Keeps.have (Q := Keeps s0 x) ?_ ?_; dsimp -zeta -iota only [x]; clear x; rotate_left; clear_value x; revert x; intro _ _) | (extract_lets +onlyGivenNames x; clear_value x; revert x; intro _) | apply Keeps.ite | apply State.forget_keeps | apply State.savePage_keeps | apply State.setPage_keeps | apply State.listPages_keeps | apply State.dropSlot_keeps)

theorem State.walkExt_keeps {s0 : State} {s : State} {d : Nat} {e00 : Nat} {c : Nat} {pick : Nat} (ks : Keeps s0 s) : Keeps s0 (State.walkExt s d e00 c pick) := by
  unfold State.walkExt
  with_reducible repeat' (first | assumption | intro _ | (extract_lets +onlyGivenNames x; refine Keeps.have (Q := Keeps s0 x) ?_ ?_; dsimp -zeta -iota only [x]; clear x; rotate_left; clear_value x; revert x; intro _ _) | (extract_lets +onlyGivenNames x; clear_value x; revert x; intro _) | apply Keeps.ite | apply State.retireExt_keeps | apply State.readTable_keeps | apply State.areaLost_keeps | apply State.settle_keeps | apply State.walkPage_keeps | apply State.forget_keeps | apply State.dropCopy_keeps | apply State.walkNote_keeps | apply State.release_keeps | apply State.each_keeps | (simp -zeta -iota only [Keeps.mk_iff]; apply KeepsMk.of (h1 := by simp) (h2 := by simp) (h3 := by simp)) | split)

theorem State.walkStep_keeps {s0 : State} {s : State} {c : Nat} {pick : Nat} (ks : Keeps s0 s) : Keeps s0 (State.walkStep s c pick) := by
  unfold State.walkStep
  with_reducible repeat' (first | assumption | intro _ | (extract_lets +onlyGivenNames x; refine Keeps.have (Q := Keeps s0 x) ?_ ?_; dsimp -zeta -iota only [x]; clear x; rotate_left; clear_value x; revert x; intro _ _) | (extract_lets +onlyGivenNames x; refine Keeps.isFun x ?_; dsimp -zeta -iota only [x]; clear x) | apply Keeps.ite | apply State.endEpisode_keeps | apply State.toFm_keeps | apply State.took_keeps | apply State.walkExt_keeps | (simp -zeta -iota only [Keeps.mk_iff]; apply KeepsMk.of (h1 := by simp) (h2 := by simp) (h3 := by simp)) | split)

theorem execFenceWalkStep_keeps {s0 : State} {c : Fin 24} {picks : List Nat} {s : State} (ks : Keeps s0 s) : KeepsR s0 (execFenceWalkStep c picks s) := by
  unfold execFenceWalkStep
  with_reducible repeat' (first | assumption | apply State.walkStep_keeps | apply KeepsR.next)

theorem State.rebuildCopy_keeps {s0 : State} {s : State} {d : Nat} {ext : Option Nat} {pick : Nat} (ks : Keeps s0 s) : Keeps s0 (State.rebuildCopy s d ext pick) := by
  unfold State.rebuildCopy
  with_reducible repeat' (first | assumption | intro _ | (extract_lets +onlyGivenNames x; refine Keeps.have (Q := Keeps s0 x) ?_ ?_; dsimp -zeta -iota only [x]; clear x; rotate_left; clear_value x; revert x; intro _ _) | (extract_lets +onlyGivenNames x; clear_value x; revert x; intro _) | apply Keeps.ite | apply State.readTable_keeps | apply State.dropFlips_keeps | apply State.single_keeps | apply State.updMap_keeps | apply State.saveMeta_keeps | apply State.setExt_keeps | apply State.setFld_keeps | apply State.settle_keeps | apply State.took_keeps | apply State.forget_keeps | apply State.putTable_keeps | apply State.alloc_keeps | (refine Keeps.eqQ (by assumption) ?_) | split)

theorem execMetaCopyRebuild_keeps {s0 : State} {d : Fin 1024} {ext : Option Nat} {pick : Nat} {s : State} (ks : Keeps s0 s) : KeepsR s0 (execMetaCopyRebuild d ext pick s) := by
  unfold execMetaCopyRebuild
  with_reducible repeat' (first | assumption | apply State.rebuildCopy_keeps | apply KeepsR.next)

theorem State.pageContent_keeps {s0 : State} {s : State} {d : Nat} {p : Nat} {errs : List Burst} (ks : Keeps s0 s) : Keeps22 s0 (State.pageContent s d p errs) := by
  unfold State.pageContent
  with_reducible repeat' (first | assumption | intro _ | (extract_lets +onlyGivenNames x; refine Keeps.isFun x ?_; dsimp -zeta -iota only [x]; clear x) | (extract_lets +onlyGivenNames x; clear_value x; revert x; intro _) | apply Keeps22.ite | apply State.readSlot_keeps | apply State.readPageLines_keeps | (simp -zeta -iota only [Keeps22.pair]) | (refine Keeps2.eq (by assumption) ?_) | split)

theorem State.putPage_keeps {s0 : State} {s : State} {h : Half} {d : Nat} {p : Nat} {unit : Nat} {ls : List (Line × Bool)} (ks : Keeps s0 s) : Keeps s0 (State.putPage s h d p unit ls) := by
  unfold State.putPage
  with_reducible repeat' (first | assumption | apply State.writePageLines_keeps)

theorem State.materialise_keeps {s0 : State} {s : State} {d : Nat} {e00 : Nat} {pick : Nat} (ks : Keeps s0 s) : Keeps s0 (State.materialise s d e00 pick) := by
  unfold State.materialise
  with_reducible repeat' (first | assumption | intro _ | (extract_lets +onlyGivenNames x; refine Keeps.have (Q := Keeps s0 x) ?_ ?_; dsimp -zeta -iota only [x]; clear x; rotate_left; clear_value x; revert x; intro _ _) | (extract_lets +onlyGivenNames x; clear_value x; revert x; intro _) | apply Keeps.ite | apply State.clearPages_keeps | apply State.saveMeta_keeps | apply State.setExt_keeps | apply State.settle_keeps | apply State.took_keeps | apply State.touchExt_keeps | apply State.needArea_keeps | apply State.putPage_keeps | apply State.alloc_keeps | apply State.release_keeps | (refine (State.pageContent_keeps ?_).out) | apply KeepsP.bind | apply State.each_keeps | (refine Keeps.eqQ (by assumption) ?_) | split)

theorem execMaterialiseExtent_keeps {s0 : State} {d : Fin 1024} {ext : Nat} {pick : Nat} {s : State} (ks : Keeps s0 s) : KeepsR s0 (execMaterialiseExtent d ext pick s) := by
  unfold execMaterialiseExtent
  with_reducible repeat' (first | assumption | apply State.materialise_keeps | apply KeepsR.next)

theorem State.moveFrame_keeps {s0 : State} {s : State} {m : FrameMove} {errs : List Burst} (ks : Keeps s0 s) : Keeps s0 (State.moveFrame s m errs) := by
  unfold State.moveFrame
  with_reducible repeat' (first | assumption | intro _ | (extract_lets +onlyGivenNames x; refine Keeps.have (Q := Keeps s0 x) ?_ ?_; dsimp -zeta -iota only [x]; clear x; rotate_left; clear_value x; revert x; intro _ _) | (extract_lets +onlyGivenNames x; refine Keeps.isFun x ?_; dsimp -zeta -iota only [x]; clear x) | (extract_lets +onlyGivenNames x; clear_value x; revert x; intro _) | apply Keeps.ite | apply State.saveMeta_keeps | apply State.setExt_keeps | apply State.settle_keeps | apply State.putPage_keeps | apply State.release_keeps | (refine (State.pageContent_keeps ?_).out) | (simp -zeta -iota only [Keeps.mk_iff]; apply KeepsMk.of (h1 := by simp) (h2 := by simp) (h3 := by simp)))

theorem State.moveSlot_keeps {s0 : State} {s : State} {h : Half} {d : Nat} {p : Nat} {old : Nat} {new : Nat} {k : Nat} {errs : List Burst} (ks : Keeps s0 s) : Keeps s0 (State.moveSlot s h d p old new k errs) := by
  unfold State.moveSlot
  with_reducible repeat' (first | assumption | intro _ | (extract_lets +onlyGivenNames x; clear_value x; revert x; intro _) | (refine (State.readSlot_keeps ?_).out) | apply State.seal_keeps | apply State.settle_keeps | apply State.savePage_keeps | apply State.setPage_keeps | (refine (State.nextSeq_keeps ?_).out) | apply State.countWrite_keeps | apply State.release_keeps | apply State.each_keeps)

theorem State.moveBlock_keeps {s0 : State} {s : State} {h : Half} {b : MediaBlk} {errs : List Burst} {pick : Nat} (ks : Keeps s0 s) : KeepsO s0 (State.moveBlock s h b errs pick) := by
  unfold State.moveBlock
  with_reducible repeat' (first | assumption | intro _ | (extract_lets +onlyGivenNames x; refine Keeps.have (Q := Keeps s0 x) ?_ ?_; dsimp -zeta -iota only [x]; clear x; rotate_left; clear_value x; revert x; intro _ _) | (extract_lets +onlyGivenNames x; clear_value x; revert x; intro _) | (extract_lets +onlyGivenNames x; dsimp -zeta -iota only [x]; clear x) | apply Keeps.ite | apply State.readTable_keeps | apply State.dropFlips_keeps | apply State.updMap_keeps | apply State.saveMeta_keeps | apply State.setExt_keeps | apply State.setFld_keeps | apply State.settle_keeps | apply State.moveSlot_keeps | apply State.touchExt_keeps | apply State.forget_keeps | apply State.savePage_keeps | apply State.takeSlot_keeps | apply State.allocArea_keeps | apply State.recap_keeps | apply State.setPage_keeps | apply State.putPage_keeps | apply State.putTable_keeps | apply State.alloc_keeps | apply State.moveFrame_keeps | apply State.dropSlot_keeps | apply State.release_keeps | (refine (State.pageContent_keeps ?_).out) | apply KeepsO.none | apply KeepsO.some | apply KeepsO.map | (refine Keeps.eqQ (by assumption) ?_) | (simp -zeta -iota only [Keeps.mk_iff]; apply KeepsMk.of (h1 := by simp) (h2 := by simp) (h3 := by simp)) | split)

theorem State.retireStep_keeps {s0 : State} {s : State} {c : Nat} {errs : List Burst} {picks : List Nat} (ks : Keeps s0 s) : Keeps s0 (State.retireStep s c errs picks) := by
  unfold State.retireStep
  with_reducible repeat' (first | assumption | intro _ | (extract_lets +onlyGivenNames x; clear_value x; revert x; intro _) | apply Keeps.ite | apply State.updChan_keeps | apply State.took_keeps | apply State.say_keeps | apply State.rangeRetired_keeps | apply State.moveBlock_keeps | (refine Keeps.eqO (by assumption) ?_) | split)

theorem execRetirementMove_keeps {s0 : State} {c : Fin 24} {errs : List Burst} {picks : List Nat} {s : State} (ks : Keeps s0 s) : KeepsR s0 (execRetirementMove c errs picks s) := by
  unfold execRetirementMove
  with_reducible repeat' (first | assumption | apply State.retireStep_keeps | apply KeepsR.next)

theorem State.audit_keeps {s0 : State} {s : State} {h : Half} (ks : Keeps s0 s) : Keeps s0 (State.audit s h) := by
  unfold State.audit
  with_reducible repeat' (first | assumption | intro _ | (extract_lets +onlyGivenNames x; refine Keeps.have (Q := Keeps s0 x) ?_ ?_; dsimp -zeta -iota only [x]; clear x; rotate_left; clear_value x; revert x; intro _ _) | (extract_lets +onlyGivenNames x; clear_value x; revert x; intro _) | apply Keeps.ite | apply State.recap_keeps | apply State.dropSlot_keeps | apply State.each_keeps | (simp -zeta -iota only [Keeps.mk_iff]; apply KeepsMk.of (h1 := by simp) (h2 := by simp) (h3 := by simp)))

theorem execFrameAudit_keeps {s0 : State} {h : Half} {s : State} (ks : Keeps s0 s) : KeepsR s0 (execFrameAudit h s) := by
  unfold execFrameAudit
  with_reducible repeat' (first | assumption | apply State.audit_keeps | apply KeepsR.next)

end Sys2Proof.Machine
end

