-- ==== Sys2Proof/Laws/KeepTier.lean ====
section
/-! SUPPORT. The operations of Machine/Tier.lean break nothing (Laws/Keeps.lean). -/

namespace Sys2Proof.Machine

theorem State.mayMove_keeps {s0 : State} {s : State} {h : Half} (ks : Keeps s0 s) : Keeps2 s0 (State.mayMove s h) := by
  unfold State.mayMove
  with_reducible repeat' (first | assumption | intro _ | (extract_lets +onlyGivenNames x; clear_value x; revert x; intro _) | apply Keeps2.ite | (simp -zeta -iota only [Keeps2.pair]) | (simp -zeta -iota only [Keeps.mk_iff]; apply KeepsMk.of (h1 := by simp) (h2 := by simp) (h3 := by simp)))

theorem State.offerPage_keeps {s0 : State} {s : State} {h : Half} {d : Nat} {p : Nat} (ks : Keeps s0 s) : Keeps s0 (State.offerPage s h d p) := by
  unfold State.offerPage
  with_reducible repeat' (first | assumption | intro _ | (extract_lets +onlyGivenNames x; refine Keeps.have (Q := Keeps s0 x) ?_ ?_; dsimp -zeta -iota only [x]; clear x; rotate_left; clear_value x; revert x; intro _ _) | apply Keeps.ite | apply State.pulse_keeps | apply State.mayMove_keeps | apply State.count_keeps | (refine Keeps2.eq (by assumption) ?_) | (simp -zeta -iota only [Keeps.mk_iff]; apply KeepsMk.of (h1 := by simp) (h2 := by simp) (h3 := by simp)) | split)

theorem State.wantPage_keeps {s0 : State} {s : State} {h : Half} {d : Nat} {p : Nat} (ks : Keeps s0 s) : Keeps s0 (State.wantPage s h d p) := by
  unfold State.wantPage
  with_reducible repeat' (first | assumption | intro _ | (extract_lets +onlyGivenNames x; refine Keeps.have (Q := Keeps s0 x) ?_ ?_; dsimp -zeta -iota only [x]; clear x; rotate_left; clear_value x; revert x; intro _ _) | apply Keeps.ite | apply State.pulse_keeps | apply State.mayMove_keeps | apply State.count_keeps | (refine Keeps2.eq (by assumption) ?_) | (simp -zeta -iota only [Keeps.mk_iff]; apply KeepsMk.of (h1 := by simp) (h2 := by simp) (h3 := by simp)) | split)

theorem State.visitPage_keeps {s0 : State} {s : State} {h : Half} {d : Nat} {p : Nat} (ks : Keeps s0 s) : Keeps s0 (State.visitPage s h d p) := by
  unfold State.visitPage
  with_reducible repeat' (first | assumption | (extract_lets +onlyGivenNames x; refine Keeps.have (Q := Keeps s0 x) ?_ ?_; dsimp -zeta -iota only [x]; clear x; rotate_left; clear_value x; revert x; intro _ _) | (extract_lets +onlyGivenNames x; clear_value x; revert x; intro _) | apply State.wantPage_keeps | apply State.offerPage_keeps | apply State.setPage_keeps | split)

theorem State.visitPages_keeps {s0 : State} {s : State} {h : Half} {d : Nat} {e00 : Nat} (ks : Keeps s0 s) : Keeps s0 (State.visitPages s h d e00) := by
  unfold State.visitPages
  with_reducible repeat' (first | assumption | intro _ | (extract_lets +onlyGivenNames x; refine Keeps.have (Q := Keeps s0 x) ?_ ?_; dsimp -zeta -iota only [x]; clear x; rotate_left; clear_value x; revert x; intro _ _) | apply State.visitPage_keeps | apply State.savePage_keeps | apply State.each_keeps)

theorem State.tryJoin_keeps {s0 : State} {s : State} {h : Half} {d : Nat} {e00 : Nat} (ks : Keeps s0 s) : Keeps s0 (State.tryJoin s h d e00) := by
  unfold State.tryJoin
  with_reducible repeat' (first | assumption | intro _ | apply Keeps.ite | apply State.joinExt_keeps | split)

theorem State.visitFrame_keeps {s0 : State} {s : State} {h : Half} {d : Nat} {e00 : Nat} (ks : Keeps s0 s) : Keeps s0 (State.visitFrame s h d e00) := by
  unfold State.visitFrame
  with_reducible repeat' (first | assumption | intro _ | (extract_lets +onlyGivenNames x; refine Keeps.have (Q := Keeps s0 x) ?_ ?_; dsimp -zeta -iota only [x]; clear x; rotate_left; clear_value x; revert x; intro _ _) | (extract_lets +onlyGivenNames x; clear_value x; revert x; intro _) | apply Keeps.ite | apply State.splitExt_keeps | apply State.saveMeta_keeps | apply State.setExt_keeps | apply State.visitPages_keeps | apply State.settle_keeps | (refine Keeps.eqO (by assumption) ?_) | split)

theorem State.visit_keeps {s0 : State} {s : State} {h : Half} {d : Nat} {e00 : Nat} (ks : Keeps s0 s) : Keeps s0 (State.visit s h d e00) := by
  unfold State.visit
  with_reducible repeat' (first | assumption | intro _ | (extract_lets +onlyGivenNames x; refine Keeps.have (Q := Keeps s0 x) ?_ ?_; dsimp -zeta -iota only [x]; clear x; rotate_left; clear_value x; revert x; intro _ _) | (extract_lets +onlyGivenNames x; clear_value x; revert x; intro _) | apply Keeps.ite | apply State.pulse_keeps | apply State.readTable_keeps | apply State.visitFrame_keeps | apply State.visitPages_keeps | apply State.took_keeps | apply State.tryJoin_keeps | apply State.count_keeps | (simp -zeta -iota only [Keeps.mk_iff]; apply KeepsMk.of (h1 := by simp) (h2 := by simp) (h3 := by simp)) | split)

theorem execExtentVisit_keeps {s0 : State} {h : Half} {d : Fin 1024} {ext : Nat} {s : State} (ks : Keeps s0 s) : KeepsR s0 (execExtentVisit h d ext s) := by
  unfold execExtentVisit
  with_reducible repeat' (first | assumption | apply State.visit_keeps | apply KeepsR.next)

theorem State.moverLap_keeps {s0 : State} {s : State} {h : Half} (ks : Keeps s0 s) : Keeps s0 (State.moverLap s h) := by
  unfold State.moverLap
  with_reducible repeat' (first | assumption | intro _ | (extract_lets +onlyGivenNames x; refine Keeps.have (Q := Keeps s0 x) ?_ ?_; dsimp -zeta -iota only [x]; clear x; rotate_left; clear_value x; revert x; intro _ _) | (extract_lets +onlyGivenNames x; clear_value x; revert x; intro _) | apply Keeps.ite | apply State.setFlag_keeps | apply State.setFld_keeps | (simp -zeta -iota only [Keeps.mk_iff]; apply KeepsMk.of (h1 := by simp) (h2 := by simp) (h3 := by simp)))

theorem execTierLapEnd_keeps {s0 : State} {h : Half} {s : State} (ks : Keeps s0 s) : KeepsR s0 (execTierLapEnd h s) := by
  unfold execTierLapEnd
  with_reducible repeat' (first | assumption | apply State.moverLap_keeps | apply KeepsR.next)

theorem State.tierCfg_keeps {s0 : State} {s : State} {v : Nat} (ks : Keeps s0 s) : Keeps s0 (State.tierCfg s v) := by
  unfold State.tierCfg
  with_reducible repeat' (first | assumption | intro _ | (extract_lets +onlyGivenNames x; refine Keeps.isFun x ?_; dsimp -zeta -iota only [x]; clear x) | apply Keeps.ite | apply State.take_keeps)

theorem execTierCfgWrite_keeps {s0 : State} {value : Word} {s : State} (ks : Keeps s0 s) : KeepsR s0 (execTierCfgWrite value s) := by
  unfold execTierCfgWrite
  with_reducible repeat' (first | assumption | intro _ | apply State.tierCfg_keeps | apply State.write_keeps | apply KeepsR.next)

theorem State.tierCapCfg_keeps {s0 : State} {s : State} {v : Nat} (ks : Keeps s0 s) : Keeps s0 (State.tierCapCfg s v) := by
  unfold State.tierCapCfg
  with_reducible repeat' (first | assumption | intro _ | (extract_lets +onlyGivenNames x; clear_value x; revert x; intro _) | apply Keeps.ite | apply State.setFlag_keeps | apply State.recapAll_keeps | apply State.take_keeps | apply State.each_keeps)

theorem execTierCapCfgWrite_keeps {s0 : State} {value : Word} {s : State} (ks : Keeps s0 s) : KeepsR s0 (execTierCapCfgWrite value s) := by
  unfold execTierCapCfgWrite
  with_reducible repeat' (first | assumption | intro _ | apply State.write_keeps | apply State.tierCapCfg_keeps | apply KeepsR.next)

theorem State.tierDomSet_keeps {s0 : State} {s : State} {d : Nat} {v : Nat} (ks : Keeps s0 s) : Keeps s0 (State.tierDomSet s d v) := by
  unfold State.tierDomSet
  with_reducible repeat' (first | assumption | intro _ | apply Keeps.ite | apply State.setFlag_keeps | apply State.take_keeps)

theorem execTierDomWrite_keeps {s0 : State} {d : Fin 1024} {value : Word} {s : State} (ks : Keeps s0 s) : KeepsR s0 (execTierDomWrite d value s) := by
  unfold execTierDomWrite
  with_reducible repeat' (first | assumption | intro _ | apply State.write_keeps | apply State.tierDomSet_keeps | apply KeepsR.next)

theorem State.closeLostRun_keeps {s0 : State} {s : State} {h : Half} {d : Nat} (ks : Keeps s0 s) : Keeps s0 (State.closeLostRun s h d) := by
  unfold State.closeLostRun
  with_reducible repeat' (first | assumption | (extract_lets +onlyGivenNames x; refine Keeps.have (Q := Keeps s0 x) ?_ ?_; dsimp -zeta -iota only [x]; clear x; rotate_left; clear_value x; revert x; intro _ _) | apply State.closeFold_keeps | apply State.closeRecord_keeps | (simp -zeta -iota only [Keeps.mk_iff]; apply KeepsMk.of (h1 := by simp) (h2 := by simp) (h3 := by simp)) | split)

theorem execLostWriteRunClose_keeps {s0 : State} {h : Half} {d : Fin 1024} {s : State} (ks : Keeps s0 s) : KeepsR s0 (execLostWriteRunClose h d s) := by
  unfold execLostWriteRunClose
  with_reducible repeat' (first | assumption | apply State.closeLostRun_keeps | apply KeepsR.next)

end Sys2Proof.Machine
end

