-- ==== Sys2Proof/Laws/KeepOffload.lean ====
section
/-! SUPPORT. The operations of Machine/Offload.lean break nothing (Laws/Keeps.lean). -/

namespace Sys2Proof.Machine

theorem State.ringError_keeps {s0 : State} {s : State} {fn : Nat} {r : Nat} {reason : Nat} (ks : Keeps s0 s) : Keeps s0 (State.ringError s fn r reason) := by
  unfold State.ringError
  with_reducible repeat' (first | assumption | apply State.setFld_keeps)

theorem State.ringEnable_keeps {s0 : State} {s : State} {fn : Nat} {r : Nat} (ks : Keeps s0 s) : Keeps s0 (State.ringEnable s fn r) := by
  unfold State.ringEnable
  with_reducible repeat' (first | assumption | intro _ | (extract_lets +onlyGivenNames x; refine Keeps.have (Q := Keeps s0 x) ?_ ?_; dsimp -zeta -iota only [x]; clear x; rotate_left; clear_value x; revert x; intro _ _) | apply Keeps.ite | apply State.setFlag_keeps | apply State.ringError_keeps | apply State.setFld_keeps | apply State.updRing_keeps | (simp -zeta -iota only [Keeps.mk_iff]; apply KeepsMk.of (h1 := by simp) (h2 := by simp) (h3 := by simp)) | split)

theorem execRingEnable_keeps {s0 : State} {p : Fin 16} {ld : Fin 16} {r : Fin 4} {s : State} (ks : Keeps s0 s) : KeepsR s0 (execRingEnable p ld r s) := by
  unfold execRingEnable
  with_reducible repeat' (first | assumption | intro _ | apply State.ringEnable_keeps | apply State.barWrite_keeps | apply KeepsR.next)

theorem State.ringTally_keeps {s0 : State} {s : State} {fn : Nat} {r : Nat} (ks : Keeps s0 s) : Keeps s0 (State.ringTally s fn r) := by
  unfold State.ringTally
  with_reducible repeat' (first | assumption | intro _ | (extract_lets +onlyGivenNames x; refine Keeps.have (Q := Keeps s0 x) ?_ ?_; dsimp -zeta -iota only [x]; clear x; rotate_left; clear_value x; revert x; intro _ _) | (extract_lets +onlyGivenNames x; clear_value x; revert x; intro _) | apply Keeps.ite | apply State.setFld_keeps)

theorem State.ringDisable_keeps {s0 : State} {s : State} {fn : Nat} {r : Nat} (ks : Keeps s0 s) : Keeps s0 (State.ringDisable s fn r) := by
  unfold State.ringDisable
  with_reducible repeat' (first | assumption | apply State.setFlag_keeps | apply State.ringTally_keeps)

theorem execRingDisable_keeps {s0 : State} {p : Fin 16} {ld : Fin 16} {r : Fin 4} {s : State} (ks : Keeps s0 s) : KeepsR s0 (execRingDisable p ld r s) := by
  unfold execRingDisable
  with_reducible repeat' (first | assumption | intro _ | apply State.ringDisable_keeps | apply State.barWrite_keeps | apply KeepsR.next)

theorem State.ringTail_keeps {s0 : State} {s : State} {fn : Nat} {r : Nat} {v : Nat} (ks : Keeps s0 s) : Keeps s0 (State.ringTail s fn r v) := by
  unfold State.ringTail
  with_reducible repeat' (first | assumption | intro _ | (extract_lets +onlyGivenNames x; refine Keeps.have (Q := Keeps s0 x) ?_ ?_; dsimp -zeta -iota only [x]; clear x; rotate_left; clear_value x; revert x; intro _ _) | apply Keeps.ite | apply State.ringError_keeps | apply State.setFld_keeps)

theorem execRingTailWrite_keeps {s0 : State} {p : Fin 16} {ld : Fin 16} {r : Fin 4} {value : Word} {s : State} (ks : Keeps s0 s) : KeepsR s0 (execRingTailWrite p ld r value s) := by
  unfold execRingTailWrite
  with_reducible repeat' (first | assumption | intro _ | apply State.ringTail_keeps | apply State.barWrite_keeps | apply KeepsR.next)

theorem State.abortClear_keeps {s0 : State} {s : State} {fn : Nat} {r : Nat} (ks : Keeps s0 s) : Keeps s0 (State.abortClear s fn r) := by
  unfold State.abortClear
  with_reducible repeat' (first | assumption | intro _ | apply State.setFlag_keeps | apply State.each_keeps)

theorem execRingAbortClear_keeps {s0 : State} {p : Fin 16} {ld : Fin 16} {r : Fin 4} {s : State} (ks : Keeps s0 s) : KeepsR s0 (execRingAbortClear p ld r s) := by
  unfold execRingAbortClear
  with_reducible repeat' (first | assumption | intro _ | apply State.barWrite_keeps | apply State.abortClear_keeps | apply KeepsR.next)

theorem State.takeTag_keeps {s0 : State} {s : State} {j : Job} (ks : Keeps s0 s) : Keeps s0 (State.takeTag s j) := by
  unfold State.takeTag
  with_reducible repeat' (first | assumption | (extract_lets +onlyGivenNames x; refine Keeps.have (Q := Keeps s0 x) ?_ ?_; dsimp -zeta -iota only [x]; clear x; rotate_left; clear_value x; revert x; intro _ _) | apply State.updFunc_keeps | (simp -zeta -iota only [Keeps.mk_iff]; apply KeepsMk.of (h1 := by simp) (h2 := by simp) (h3 := by simp)) | split)

theorem State.endJob_keeps {s0 : State} {s : State} {j : Job} {status : Nat} {bytesOut : Nat} {consumed : Nat} {check : Nat} (ks : Keeps s0 s) : Keeps s0 (State.endJob s j status bytesOut consumed check) := by
  unfold State.endJob
  with_reducible repeat' (first | assumption | (extract_lets +onlyGivenNames x; refine Keeps.have (Q := Keeps s0 x) ?_ ?_; dsimp -zeta -iota only [x]; clear x; rotate_left; clear_value x; revert x; intro _ _) | apply State.updFunc_keeps | (simp -zeta -iota only [Keeps.mk_iff]; apply KeepsMk.of (h1 := by simp) (h2 := by simp) (h3 := by simp)) | split)

theorem State.endFree_keeps {s0 : State} {s : State} {j : Job} {status : Nat} {bytesOut : Nat} {consumed : Nat} (ks : Keeps s0 s) : Keeps s0 (State.endFree s j status bytesOut consumed) := by
  unfold State.endFree
  with_reducible repeat' (first | assumption | (refine (State.freeNat_keeps ?_).out) | apply State.endJob_keeps)

theorem State.fetchDesc_keeps {s0 : State} {s : State} {fn : Nat} {r : Nat} {desc : Option (BitVec 512)} (ks : Keeps s0 s) : Keeps s0 (State.fetchDesc s fn r desc) := by
  unfold State.fetchDesc
  with_reducible repeat' (first | assumption | intro _ | (extract_lets +onlyGivenNames x; refine Keeps.have (Q := Keeps s0 x) ?_ ?_; dsimp -zeta -iota only [x]; clear x; rotate_left; clear_value x; revert x; intro _ _) | (extract_lets +onlyGivenNames x; clear_value x; revert x; intro _) | apply Keeps.ite | apply State.pulse_keeps | apply State.ringError_keeps | apply State.ringTally_keeps | apply State.takeTag_keeps | apply State.updRing_keeps | apply State.endJob_keeps | apply State.emit_keeps | apply State.endFree_keeps | (simp -zeta -iota only [Keeps.mk_iff]; apply KeepsMk.of (h1 := by simp) (h2 := by simp) (h3 := by simp)) | split)

theorem execDescriptorFetch_keeps {s0 : State} {p : Fin 16} {ld : Fin 16} {r : Fin 4} {desc : Option (BitVec 512)} {s : State} (ks : Keeps s0 s) : KeepsR s0 (execDescriptorFetch p ld r desc s) := by
  unfold execDescriptorFetch
  with_reducible repeat' (first | assumption | apply State.fetchDesc_keeps | apply KeepsR.next)

theorem State.readSrc_keeps {s0 : State} {s : State} {j : Job} (ks : Keeps s0 s) : Keeps s0 (State.readSrc s j) := by
  unfold State.readSrc
  with_reducible repeat' (first | assumption | apply State.pulses_keeps | apply State.emit_keeps)

theorem State.writeDst_keeps {s0 : State} {s : State} {j : Job} {addr : Nat} {bs : List Byte} (ks : Keeps s0 s) : Keeps s0 (State.writeDst s j addr bs) := by
  unfold State.writeDst
  with_reducible repeat' (first | assumption | intro _ | apply Keeps.ite | apply State.pulses_keeps | apply State.emit_keeps)

theorem State.dmaFail_keeps {s0 : State} {s : State} {j : Job} (ks : Keeps s0 s) : Keeps s0 (State.dmaFail s j) := by
  unfold State.dmaFail
  with_reducible repeat' (first | assumption | (refine (State.freeNat_keeps ?_).out) | apply State.endFree_keeps)

theorem State.copyJob_keeps {s0 : State} {s : State} {fn : Nat} {r : Nat} {idx : Nat} {source : Option (List Byte)} {refused : Bool} (ks : Keeps s0 s) : Keeps s0 (State.copyJob s fn r idx source refused) := by
  unfold State.copyJob
  with_reducible repeat' (first | assumption | intro _ | (extract_lets +onlyGivenNames x; refine Keeps.have (Q := Keeps s0 x) ?_ ?_; dsimp -zeta -iota only [x]; clear x; rotate_left; clear_value x; revert x; intro _ _) | (extract_lets +onlyGivenNames x; clear_value x; revert x; intro _) | apply Keeps.ite | apply State.readSrc_keeps | apply State.writeDst_keeps | apply State.dmaFail_keeps | apply State.endJob_keeps | split)

theorem execCopy_keeps {s0 : State} {p : Fin 16} {ld : Fin 16} {r : Fin 4} {idx : Nat} {source : Option (List Byte)} {refused : Bool} {s : State} (ks : Keeps s0 s) : KeepsR s0 (execCopy p ld r idx source refused s) := by
  unfold execCopy
  with_reducible repeat' (first | assumption | apply State.copyJob_keeps | apply KeepsR.next)

theorem State.fillJob_keeps {s0 : State} {s : State} {fn : Nat} {r : Nat} {idx : Nat} {refused : Bool} (ks : Keeps s0 s) : Keeps s0 (State.fillJob s fn r idx refused) := by
  unfold State.fillJob
  with_reducible repeat' (first | assumption | intro _ | (extract_lets +onlyGivenNames x; refine Keeps.have (Q := Keeps s0 x) ?_ ?_; dsimp -zeta -iota only [x]; clear x; rotate_left; clear_value x; revert x; intro _ _) | (extract_lets +onlyGivenNames x; clear_value x; revert x; intro _) | apply Keeps.ite | apply State.writeDst_keeps | apply State.dmaFail_keeps | apply State.endJob_keeps | split)

theorem execFill_keeps {s0 : State} {p : Fin 16} {ld : Fin 16} {r : Fin 4} {idx : Nat} {refused : Bool} {s : State} (ks : Keeps s0 s) : KeepsR s0 (execFill p ld r idx refused s) := by
  unfold execFill
  with_reducible repeat' (first | assumption | apply State.fillJob_keeps | apply KeepsR.next)

theorem State.deflateJob_keeps {s0 : State} {s : State} {fn : Nat} {r : Nat} {idx : Nat} {source : Option (List Byte)} {raw : List Byte} {refused : Bool} (ks : Keeps s0 s) : Keeps s0 (State.deflateJob s fn r idx source raw refused) := by
  unfold State.deflateJob
  with_reducible repeat' (first | assumption | intro _ | (extract_lets +onlyGivenNames x; refine Keeps.have (Q := Keeps s0 x) ?_ ?_; dsimp -zeta -iota only [x]; clear x; rotate_left; clear_value x; revert x; intro _ _) | (extract_lets +onlyGivenNames x; clear_value x; revert x; intro _) | apply Keeps.ite | (refine (State.freeNat_keeps ?_).out) | apply State.readSrc_keeps | apply State.writeDst_keeps | apply State.dmaFail_keeps | apply State.endJob_keeps | apply State.endFree_keeps | split)

theorem execDeflate_keeps {s0 : State} {p : Fin 16} {ld : Fin 16} {r : Fin 4} {idx : Nat} {source : Option (List Byte)} {blocks : List Byte} {refused : Bool} {s : State} (ks : Keeps s0 s) : KeepsR s0 (execDeflate p ld r idx source blocks refused s) := by
  unfold execDeflate
  with_reducible repeat' (first | assumption | apply State.deflateJob_keeps | apply KeepsR.next)

theorem State.inflateJob_keeps {s0 : State} {s : State} {fn : Nat} {r : Nat} {idx : Nat} {source : Option (List Byte)} {refused : Bool} (ks : Keeps s0 s) : Keeps s0 (State.inflateJob s fn r idx source refused) := by
  unfold State.inflateJob
  with_reducible repeat' (first | assumption | intro _ | (extract_lets +onlyGivenNames x; refine Keeps.have (Q := Keeps s0 x) ?_ ?_; dsimp -zeta -iota only [x]; clear x; rotate_left; clear_value x; revert x; intro _ _) | (extract_lets +onlyGivenNames x; clear_value x; revert x; intro _) | apply Keeps.ite | apply State.readSrc_keeps | apply State.writeDst_keeps | apply State.dmaFail_keeps | apply State.endJob_keeps | apply State.endFree_keeps | split)

theorem execInflate_keeps {s0 : State} {p : Fin 16} {ld : Fin 16} {r : Fin 4} {idx : Nat} {source : Option (List Byte)} {refused : Bool} {s : State} (ks : Keeps s0 s) : KeepsR s0 (execInflate p ld r idx source refused s) := by
  unfold execInflate
  with_reducible repeat' (first | assumption | apply State.inflateJob_keeps | apply KeepsR.next)

theorem State.crcJob_keeps {s0 : State} {s : State} {fn : Nat} {r : Nat} {idx : Nat} {source : Option (List Byte)} (ks : Keeps s0 s) : Keeps s0 (State.crcJob s fn r idx source) := by
  unfold State.crcJob
  with_reducible repeat' (first | assumption | (extract_lets +onlyGivenNames x; refine Keeps.have (Q := Keeps s0 x) ?_ ?_; dsimp -zeta -iota only [x]; clear x; rotate_left; clear_value x; revert x; intro _ _) | (refine (State.freeNat_keeps ?_).out) | apply State.readSrc_keeps | apply State.endJob_keeps | apply State.endFree_keeps | split)

theorem execCrc_keeps {s0 : State} {p : Fin 16} {ld : Fin 16} {r : Fin 4} {idx : Nat} {source : Option (List Byte)} {s : State} (ks : Keeps s0 s) : KeepsR s0 (execCrc p ld r idx source s) := by
  unfold execCrc
  with_reducible repeat' (first | assumption | apply State.crcJob_keeps | apply KeepsR.next)

theorem State.jobReq_keeps {s0 : State} {s : State} {j : Job} {d : Nat} {line : Nat} {kind : ReqKind} {data : Line} {enables : BitVec 64} (ks : Keeps s0 s) : Keeps s0 (State.jobReq s j d line kind data enables) := by
  unfold State.jobReq
  with_reducible repeat' (first | assumption | intro _ | (extract_lets +onlyGivenNames x; refine Keeps.have (Q := Keeps s0 x) ?_ ?_; dsimp -zeta -iota only [x]; clear x; rotate_left; clear_value x; revert x; intro _ _) | (extract_lets +onlyGivenNames x; clear_value x; revert x; intro _) | apply Keeps.ite | apply State.admitReq_keeps | apply State.domTally_keeps | apply State.mark_keeps | apply State.failReq_keeps | (refine Keeps1.eq (by assumption) ?_) | split)

theorem State.updJob_keeps {s0 : State} {s : State} {j : Job} {f : Job → Job} (ks : Keeps s0 s) : Keeps s0 (State.updJob s j f) := by
  unfold State.updJob
  with_reducible repeat' (first | assumption | (simp -zeta -iota only [Keeps.mk_iff]; apply KeepsMk.of (h1 := by simp) (h2 := by simp) (h3 := by simp)))

theorem State.loadLine_keeps {s0 : State} {s : State} {fn : Nat} {r : Nat} {idx : Nat} {source : Option (List Byte)} (ks : Keeps s0 s) : Keeps s0 (State.loadLine s fn r idx source) := by
  unfold State.loadLine
  with_reducible repeat' (first | assumption | intro _ | (extract_lets +onlyGivenNames x; refine Keeps.have (Q := Keeps s0 x) ?_ ?_; dsimp -zeta -iota only [x]; clear x; rotate_left; clear_value x; revert x; intro _ _) | (extract_lets +onlyGivenNames x; clear_value x; revert x; intro _) | apply Keeps.ite | apply State.updJob_keeps | apply State.pulses_keeps | apply State.dmaFail_keeps | apply State.jobReq_keeps | apply State.emit_keeps | apply State.endFree_keeps | split)

theorem execLoadDomain_keeps {s0 : State} {p : Fin 16} {ld : Fin 16} {r : Fin 4} {idx : Nat} {source : Option (List Byte)} {s : State} (ks : Keeps s0 s) : KeepsR s0 (execLoadDomain p ld r idx source s) := by
  unfold execLoadDomain
  with_reducible repeat' (first | assumption | apply State.loadLine_keeps | apply KeepsR.next)

theorem State.deliver_keeps {s0 : State} {a0 : Nat} {a1 : State} {a2 : Nat} {a3 : Nat} {a4 : Nat} {a5 : Bool} (ka1 : Keeps s0 a1) : Keeps s0 (State.deliver a0 a1 a2 a3 a4 a5) := by
  induction a0 generalizing a1 a2 a3 a4 a5 with
  | zero => exact ka1
  | succ n ih =>
    unfold State.deliver
    with_reducible repeat' (first | apply ih | assumption | intro _ | (extract_lets +onlyGivenNames x; refine Keeps.have (Q := Keeps s0 x) ?_ ?_; dsimp -zeta -iota only [x]; clear x; rotate_left; clear_value x; revert x; intro _ _) | (extract_lets +onlyGivenNames x; clear_value x; revert x; intro _) | apply Keeps.ite | apply State.updJob_keeps | apply State.writeDst_keeps | apply State.dmaFail_keeps | apply State.endFree_keeps | split)

theorem State.storeLine_keeps {s0 : State} {s : State} {fn : Nat} {r : Nat} {idx : Nat} {refused : Bool} (ks : Keeps s0 s) : Keeps s0 (State.storeLine s fn r idx refused) := by
  unfold State.storeLine
  with_reducible repeat' (first | assumption | intro _ | (extract_lets +onlyGivenNames x; refine Keeps.have (Q := Keeps s0 x) ?_ ?_; dsimp -zeta -iota only [x]; clear x; rotate_left; clear_value x; revert x; intro _ _) | apply Keeps.ite | apply State.updJob_keeps | apply State.deliver_keeps | apply State.jobReq_keeps | apply State.endFree_keeps | split)

theorem execStoreDomain_keeps {s0 : State} {p : Fin 16} {ld : Fin 16} {r : Fin 4} {idx : Nat} {refused : Bool} {s : State} (ks : Keeps s0 s) : KeepsR s0 (execStoreDomain p ld r idx refused s) := by
  unfold execStoreDomain
  with_reducible repeat' (first | assumption | apply State.storeLine_keeps | apply KeepsR.next)

theorem State.passHead_keeps {s0 : State} {a0 : Nat} {a1 : State} {a2 : Nat} {a3 : Nat} (ka1 : Keeps s0 a1) : Keeps s0 (State.passHead a0 a1 a2 a3) := by
  induction a0 generalizing a1 a2 a3 with
  | zero => exact ka1
  | succ n ih =>
    unfold State.passHead
    with_reducible repeat' (first | apply ih | assumption | intro _ | (extract_lets +onlyGivenNames x; refine Keeps.have (Q := Keeps s0 x) ?_ ?_; dsimp -zeta -iota only [x]; clear x; rotate_left; clear_value x; revert x; intro _ _) | (extract_lets +onlyGivenNames x; clear_value x; revert x; intro _) | apply Keeps.ite | apply State.setFld_keeps | apply State.updRing_keeps | (simp -zeta -iota only [Keeps.mk_iff]; apply KeepsMk.of (h1 := by simp) (h2 := by simp) (h3 := by simp)) | split)

theorem State.completeJob_keeps {s0 : State} {s : State} {fn : Nat} {r : Nat} {idx : Nat} {refused : Bool} (ks : Keeps s0 s) : Keeps s0 (State.completeJob s fn r idx refused) := by
  unfold State.completeJob
  with_reducible repeat' (first | assumption | intro _ | (extract_lets +onlyGivenNames x; refine Keeps.have (Q := Keeps s0 x) ?_ ?_; dsimp -zeta -iota only [x]; clear x; rotate_left; clear_value x; revert x; intro _ _) | (extract_lets +onlyGivenNames x; clear_value x; revert x; intro _) | apply Keeps.ite | apply State.pulse_keeps | apply State.updJob_keeps | apply State.ringError_keeps | apply State.passHead_keeps | apply State.msix_keeps | apply State.ringTally_keeps | apply State.emit_keeps | (simp -zeta -iota only [Keeps.mk_iff]; apply KeepsMk.of (h1 := by simp) (h2 := by simp) (h3 := by simp)) | split)

theorem execJobComplete_keeps {s0 : State} {p : Fin 16} {ld : Fin 16} {r : Fin 4} {idx : Nat} {refused : Bool} {s : State} (ks : Keeps s0 s) : KeepsR s0 (execJobComplete p ld r idx refused s) := by
  unfold execJobComplete
  with_reducible repeat' (first | assumption | apply State.completeJob_keeps | apply KeepsR.next)

end Sys2Proof.Machine
end

