-- ==== Sys2Proof/Laws/KeepMirror.lean ====
section
/-! SUPPORT. The operations of Machine/Mirror.lean break nothing (Laws/Keeps.lean). -/

namespace Sys2Proof.Machine

theorem State.rxTally_keeps {s0 : State} {s : State} {l : Half} {vc : Nat} (ks : Keeps s0 s) : Keeps s0 (State.rxTally s l vc) := by
  unfold State.rxTally
  with_reducible repeat' (first | assumption | apply State.setFld_keeps)

theorem State.rxPop_keeps {s0 : State} {s : State} {l : Half} {vc : Nat} (ks : Keeps s0 s) : Keeps s0 (State.rxPop s l vc) := by
  unfold State.rxPop
  with_reducible repeat' (first | assumption | (extract_lets +onlyGivenNames x; clear_value x; revert x; intro _) | apply State.rxTally_keeps | (simp -zeta -iota only [Keeps.mk_iff]; apply KeepsMk.of (h1 := by simp) (h2 := by simp) (h3 := by simp)) | split)

theorem State.mirNumber_keeps {s0 : State} {s : State} {l : Half} {sync : Bool} {old : Bool} (ks : Keeps s0 s) : Keeps1 s0 (State.mirNumber s l sync old) := by
  unfold State.mirNumber
  with_reducible repeat' (first | assumption | intro _ | (extract_lets +onlyGivenNames x; clear_value x; revert x; intro _) | apply Keeps1.ite | (simp -zeta -iota only [Keeps1.pair]) | (simp -zeta -iota only [Keeps.mk_iff]; apply KeepsMk.of (h1 := by simp) (h2 := by simp) (h3 := by simp)))

theorem State.mirWrite_keeps {s0 : State} {s : State} {l : Half} {vc : Nat} {d : Nat} {line : Nat} {color : Nat} {kind : ReqKind} {data : Line} {enables : BitVec 64} {poison : Bool} (ks : Keeps s0 s) : Keeps s0 (State.mirWrite s l vc d line color kind data enables poison) := by
  unfold State.mirWrite
  with_reducible repeat' (first | assumption | intro _ | (extract_lets +onlyGivenNames x; refine Keeps.have (Q := Keeps s0 x) ?_ ?_; dsimp -zeta -iota only [x]; clear x; rotate_left; clear_value x; revert x; intro _ _) | (extract_lets +onlyGivenNames x; clear_value x; revert x; intro _) | apply Keeps.ite | apply State.admitReq_keeps | apply State.domTally_keeps | apply State.peerRefuse_keeps | apply State.mark_keeps | apply State.rxPop_keeps | (refine (State.mirNumber_keeps ?_).out) | apply State.mirrorDone_keeps | apply State.failReq_keeps | (refine Keeps1.eq (by assumption) ?_) | split)

theorem State.lineWr_keeps {s0 : State} {s : State} {l : Half} {vc : Nat} (ks : Keeps s0 s) : Keeps s0 (State.lineWr s l vc) := by
  unfold State.lineWr
  with_reducible repeat' (first | assumption | apply State.mirWrite_keeps | split)

theorem execLineWr_keeps {s0 : State} {l : Half} {vc : Fin 8} {s : State} (ks : Keeps s0 s) : KeepsR s0 (execLineWr l vc s) := by
  unfold execLineWr
  with_reducible repeat' (first | assumption | apply State.lineWr_keeps | apply KeepsR.next)

theorem State.lineWrPtl_keeps {s0 : State} {s : State} {l : Half} {vc : Nat} (ks : Keeps s0 s) : Keeps s0 (State.lineWrPtl s l vc) := by
  unfold State.lineWrPtl
  with_reducible repeat' (first | assumption | apply State.mirWrite_keeps | split)

theorem execLineWrPtl_keeps {s0 : State} {l : Half} {vc : Fin 8} {s : State} (ks : Keeps s0 s) : KeepsR s0 (execLineWrPtl l vc s) := by
  unfold execLineWrPtl
  with_reducible repeat' (first | assumption | apply State.lineWrPtl_keeps | apply KeepsR.next)

theorem State.linePoison_keeps {s0 : State} {s : State} {l : Half} {vc : Nat} (ks : Keeps s0 s) : Keeps s0 (State.linePoison s l vc) := by
  unfold State.linePoison
  with_reducible repeat' (first | assumption | apply State.mirWrite_keeps | split)

theorem execLinePoison_keeps {s0 : State} {l : Half} {vc : Fin 8} {s : State} (ks : Keeps s0 s) : KeepsR s0 (execLinePoison l vc s) := by
  unfold execLinePoison
  with_reducible repeat' (first | assumption | apply State.linePoison_keeps | apply KeepsR.next)

theorem State.zeroRunPages_keeps {s0 : State} {a0 : Nat} {a1 : State} {a2 : Nat} {a3 : Nat} {a4 : Nat} {a5 : List Nat} (ka1 : Keeps s0 a1) : Keeps1 s0 (State.zeroRunPages a0 a1 a2 a3 a4 a5) := by
  induction a0 generalizing a1 a2 a3 a4 a5 with
  | zero => exact ⟨ka1⟩
  | succ n ih =>
    unfold State.zeroRunPages
    with_reducible repeat' (first | apply ih | (refine (ih ?_).out) | assumption | intro _ | (extract_lets +onlyGivenNames x; clear_value x; revert x; intro _) | apply Keeps1.ite | apply State.zeroStep_keeps | (simp -zeta -iota only [Keeps1.pair]) | (refine Keeps1.eq (by assumption) ?_) | split)

theorem State.pageAckSend_keeps {s0 : State} {s : State} {l : Half} {kind : Nat} {d : Nat} {page : Nat} {result : Nat} (ks : Keeps s0 s) : Keeps s0 (State.pageAckSend s l kind d page result) := by
  unfold State.pageAckSend
  with_reducible repeat' (first | assumption | apply State.send_keeps)

theorem State.zeroRunIn_keeps {s0 : State} {s : State} {l : Half} {vc : Nat} {picks : List Nat} (ks : Keeps s0 s) : Keeps s0 (State.zeroRunIn s l vc picks) := by
  unfold State.zeroRunIn
  with_reducible repeat' (first | assumption | intro _ | (extract_lets +onlyGivenNames x; refine Keeps.have (Q := Keeps s0 x) ?_ ?_; dsimp -zeta -iota only [x]; clear x; rotate_left; clear_value x; revert x; intro _ _) | (extract_lets +onlyGivenNames x; clear_value x; revert x; intro _) | apply Keeps.ite | apply State.peerRefuse_keeps | (refine (State.zeroRunPages_keeps ?_).out) | apply State.settle_keeps | apply State.wakeStage5_keeps | apply State.rxPop_keeps | (refine (State.mirNumber_keeps ?_).out) | apply State.pageAckSend_keeps | apply State.mirrorDone_keeps | split)

theorem execZeroRun_keeps {s0 : State} {l : Half} {vc : Fin 8} {picks : List Nat} {s : State} (ks : Keeps s0 s) : KeepsR s0 (execZeroRun l vc picks s) := by
  unfold execZeroRun
  with_reducible repeat' (first | assumption | apply State.zeroRunIn_keeps | apply KeepsR.next)

theorem State.commitAckIn_keeps {s0 : State} {s : State} {l : Half} {vc : Nat} (ks : Keeps s0 s) : Keeps s0 (State.commitAckIn s l vc) := by
  unfold State.commitAckIn
  with_reducible repeat' (first | assumption | intro _ | (extract_lets +onlyGivenNames x; refine Keeps.have (Q := Keeps s0 x) ?_ ?_; dsimp -zeta -iota only [x]; clear x; rotate_left; clear_value x; revert x; intro _ _) | apply Keeps.ite | apply State.zeroEnd_keeps | apply State.endHolds_keeps | apply State.releaseSync_keeps | apply State.rxPop_keeps | (simp -zeta -iota only [Keeps.mk_iff]; apply KeepsMk.of (h1 := by simp) (h2 := by simp) (h3 := by simp)) | split)

theorem execCommitAck_keeps {s0 : State} {l : Half} {vc : Fin 8} {s : State} (ks : Keeps s0 s) : KeepsR s0 (execCommitAck l vc s) := by
  unfold execCommitAck
  with_reducible repeat' (first | assumption | apply State.commitAckIn_keeps | apply KeepsR.next)

theorem State.commitAckSend_keeps {s0 : State} {s : State} {l : Half} (ks : Keeps s0 s) : Keeps s0 (State.commitAckSend s l) := by
  unfold State.commitAckSend
  with_reducible repeat' (first | assumption | intro _ | (extract_lets +onlyGivenNames x; refine Keeps.have (Q := Keeps s0 x) ?_ ?_; dsimp -zeta -iota only [x]; clear x; rotate_left; clear_value x; revert x; intro _ _) | (extract_lets +onlyGivenNames x; clear_value x; revert x; intro _) | apply Keeps.ite | apply State.send_keeps | (simp -zeta -iota only [Keeps.mk_iff]; apply KeepsMk.of (h1 := by simp) (h2 := by simp) (h3 := by simp)))

theorem execCommitAckSend_keeps {s0 : State} {l : Half} {s : State} (ks : Keeps s0 s) : KeepsR s0 (execCommitAckSend l s) := by
  unfold execCommitAckSend
  with_reducible repeat' (first | assumption | apply State.commitAckSend_keeps | apply KeepsR.next)

theorem State.peerRefuseIn_keeps {s0 : State} {s : State} {l : Half} {vc : Nat} (ks : Keeps s0 s) : Keeps s0 (State.peerRefuseIn s l vc) := by
  unfold State.peerRefuseIn
  with_reducible repeat' (first | assumption | intro _ | (extract_lets +onlyGivenNames x; refine Keeps.have (Q := Keeps s0 x) ?_ ?_; dsimp -zeta -iota only [x]; clear x; rotate_left; clear_value x; revert x; intro _ _) | (extract_lets +onlyGivenNames x; clear_value x; revert x; intro _) | apply Keeps.ite | apply State.mirSay_keeps | apply State.setDirty_keeps | apply State.rxPop_keeps | apply State.count_keeps | apply State.updProt_keeps | split)

theorem execPeerRefuse_keeps {s0 : State} {l : Half} {vc : Fin 8} {s : State} (ks : Keeps s0 s) : KeepsR s0 (execPeerRefuse l vc s) := by
  unfold execPeerRefuse
  with_reducible repeat' (first | assumption | apply State.peerRefuseIn_keeps | apply KeepsR.next)

theorem State.ackTimeout_keeps {s0 : State} {s : State} {d : Nat} (ks : Keeps s0 s) : Keeps s0 (State.ackTimeout s d) := by
  unfold State.ackTimeout
  with_reducible repeat' (first | assumption | intro _ | (extract_lets +onlyGivenNames x; clear_value x; revert x; intro _) | apply Keeps.ite | apply State.goSolo_keeps | apply State.mirSay_keeps | apply State.count_keeps)

theorem execMirAckTimeout_keeps {s0 : State} {d : Fin 1024} {s : State} (ks : Keeps s0 s) : KeepsR s0 (execMirAckTimeout d s) := by
  unfold execMirAckTimeout
  with_reducible repeat' (first | assumption | apply State.ackTimeout_keeps | apply KeepsR.next)

theorem State.takeCut_keeps {s0 : State} {s : State} {h : Half} (ks : Keeps s0 s) : Keeps s0 (State.takeCut s h) := by
  unfold State.takeCut
  with_reducible repeat' (first | assumption | intro _ | (extract_lets +onlyGivenNames x; refine Keeps.have (Q := Keeps s0 x) ?_ ?_; dsimp -zeta -iota only [x]; clear x; rotate_left; clear_value x; revert x; intro _ _) | (extract_lets +onlyGivenNames x; clear_value x; revert x; intro _) | apply Keeps.ite | apply State.pulse_keeps | apply State.lagStall_keeps | apply State.setFld_keeps | apply State.send_keeps)

theorem State.cutTick_keeps {s0 : State} {s : State} {h : Half} (ks : Keeps s0 s) : Keeps s0 (State.cutTick s h) := by
  unfold State.cutTick
  with_reducible repeat' (first | assumption | intro _ | apply Keeps.ite | apply State.takeCut_keeps)

theorem execAsyncCutTick_keeps {s0 : State} {h : Half} {s : State} (ks : Keeps s0 s) : KeepsR s0 (execAsyncCutTick h s) := by
  unfold execAsyncCutTick
  with_reducible repeat' (first | assumption | apply State.cutTick_keeps | apply KeepsR.next)

theorem State.cutIn_keeps {s0 : State} {s : State} {l : Half} {vc : Nat} (ks : Keeps s0 s) : Keeps s0 (State.cutIn s l vc) := by
  unfold State.cutIn
  with_reducible repeat' (first | assumption | (extract_lets +onlyGivenNames x; refine Keeps.have (Q := Keeps s0 x) ?_ ?_; dsimp -zeta -iota only [x]; clear x; rotate_left; clear_value x; revert x; intro _ _) | apply State.rxPop_keeps | (simp -zeta -iota only [Keeps.mk_iff]; apply KeepsMk.of (h1 := by simp) (h2 := by simp) (h3 := by simp)) | split)

theorem execCut_keeps {s0 : State} {l : Half} {vc : Fin 8} {s : State} (ks : Keeps s0 s) : KeepsR s0 (execCut l vc s) := by
  unfold execCut
  with_reducible repeat' (first | assumption | apply State.cutIn_keeps | apply KeepsR.next)

theorem State.cutAckSend_keeps {s0 : State} {s : State} {l : Half} (ks : Keeps s0 s) : Keeps s0 (State.cutAckSend s l) := by
  unfold State.cutAckSend
  with_reducible repeat' (first | assumption | (extract_lets +onlyGivenNames x; refine Keeps.have (Q := Keeps s0 x) ?_ ?_; dsimp -zeta -iota only [x]; clear x; rotate_left; clear_value x; revert x; intro _ _) | apply State.send_keeps | (simp -zeta -iota only [Keeps.mk_iff]; apply KeepsMk.of (h1 := by simp) (h2 := by simp) (h3 := by simp)) | split)

theorem execCutAckSend_keeps {s0 : State} {l : Half} {s : State} (ks : Keeps s0 s) : KeepsR s0 (execCutAckSend l s) := by
  unfold execCutAckSend
  with_reducible repeat' (first | assumption | apply State.cutAckSend_keeps | apply KeepsR.next)

theorem State.cutAckIn_keeps {s0 : State} {s : State} {l : Half} {vc : Nat} (ks : Keeps s0 s) : Keeps s0 (State.cutAckIn s l vc) := by
  unfold State.cutAckIn
  with_reducible repeat' (first | assumption | intro _ | (extract_lets +onlyGivenNames x; refine Keeps.have (Q := Keeps s0 x) ?_ ?_; dsimp -zeta -iota only [x]; clear x; rotate_left; clear_value x; revert x; intro _ _) | (extract_lets +onlyGivenNames x; clear_value x; revert x; intro _) | apply Keeps.ite | apply State.lagStall_keeps | apply State.setFld_keeps | apply State.rxPop_keeps | (simp -zeta -iota only [Keeps.mk_iff]; apply KeepsMk.of (h1 := by simp) (h2 := by simp) (h3 := by simp)) | split)

theorem execCutAck_keeps {s0 : State} {l : Half} {vc : Fin 8} {s : State} (ks : Keeps s0 s) : KeepsR s0 (execCutAck l vc s) := by
  unfold execCutAck
  with_reducible repeat' (first | assumption | apply State.cutAckIn_keeps | apply KeepsR.next)

theorem State.cutBoth_keeps {s0 : State} {s : State} (ks : Keeps s0 s) : Keeps s0 (State.cutBoth s) := by
  unfold State.cutBoth
  with_reducible repeat' (first | assumption | apply State.takeCut_keeps)

theorem State.updPageIn_keeps {s0 : State} {s : State} {l : Half} {d : Nat} {page : Nat} {f : PageIn → PageIn} (ks : Keeps s0 s) : Keeps s0 (State.updPageIn s l d page f) := by
  unfold State.updPageIn
  with_reducible repeat' (first | assumption | (simp -zeta -iota only [Keeps.mk_iff]; apply KeepsMk.of (h1 := by simp) (h2 := by simp) (h3 := by simp)))

theorem State.pageRefuse_keeps {s0 : State} {s : State} {l : Half} {d : Nat} {line : Nat} {cause : Nat} (ks : Keeps s0 s) : Keeps s0 (State.pageRefuse s l d line cause) := by
  unfold State.pageRefuse
  with_reducible repeat' (first | assumption | (extract_lets +onlyGivenNames x; clear_value x; revert x; intro _) | apply State.send_keeps)

theorem State.rsLineIn_keeps {s0 : State} {s : State} {l : Half} {vc : Nat} (ks : Keeps s0 s) : Keeps s0 (State.rsLineIn s l vc) := by
  unfold State.rsLineIn
  with_reducible repeat' (first | assumption | intro _ | (extract_lets +onlyGivenNames x; refine Keeps.have (Q := Keeps s0 x) ?_ ?_; dsimp -zeta -iota only [x]; clear x; rotate_left; clear_value x; revert x; intro _ _) | apply Keeps.ite | apply State.pageRefuse_keeps | apply State.rxPop_keeps | apply State.updPageIn_keeps | split)

theorem execRsLine_keeps {s0 : State} {l : Half} {vc : Fin 8} {s : State} (ks : Keeps s0 s) : KeepsR s0 (execRsLine l vc s) := by
  unfold execRsLine
  with_reducible repeat' (first | assumption | apply State.rsLineIn_keeps | apply KeepsR.next)

theorem State.slotDataIn_keeps {s0 : State} {s : State} {l : Half} {vc : Nat} (ks : Keeps s0 s) : Keeps s0 (State.slotDataIn s l vc) := by
  unfold State.slotDataIn
  with_reducible repeat' (first | assumption | intro _ | (extract_lets +onlyGivenNames x; refine Keeps.have (Q := Keeps s0 x) ?_ ?_; dsimp -zeta -iota only [x]; clear x; rotate_left; clear_value x; revert x; intro _ _) | apply Keeps.ite | apply State.pageRefuse_keeps | apply State.rxPop_keeps | apply State.updPageIn_keeps | split)

theorem execSlotData_keeps {s0 : State} {l : Half} {vc : Fin 8} {s : State} (ks : Keeps s0 s) : KeepsR s0 (execSlotData l vc s) := by
  unfold execSlotData
  with_reducible repeat' (first | assumption | apply State.slotDataIn_keeps | apply KeepsR.next)

theorem State.placeLost_keeps {s0 : State} {s : State} {d : Nat} {p : Nat} (ks : Keeps s0 s) : Keeps s0 (State.placeLost s d p) := by
  unfold State.placeLost
  with_reducible repeat' (first | assumption | (extract_lets +onlyGivenNames x; refine Keeps.have (Q := Keeps s0 x) ?_ ?_; dsimp -zeta -iota only [x]; clear x; rotate_left; clear_value x; revert x; intro _ _) | (extract_lets +onlyGivenNames x; clear_value x; revert x; intro _) | apply State.savePage_keeps | apply State.setPage_keeps | apply State.listPages_keeps | apply State.release_keeps | split)

theorem State.placeLines_keeps {s0 : State} {s : State} {d : Nat} {p : Nat} {ls : List (Line × Bool)} {pick : Nat} (ks : Keeps s0 s) : Keeps1 s0 (State.placeLines s d p ls pick) := by
  unfold State.placeLines
  with_reducible repeat' (first | assumption | intro _ | (extract_lets +onlyGivenNames x; refine Keeps.have (Q := Keeps s0 x) ?_ ?_; dsimp -zeta -iota only [x]; clear x; rotate_left; clear_value x; revert x; intro _ _) | (extract_lets +onlyGivenNames x; clear_value x; revert x; intro _) | apply Keeps1.ite | apply State.placeLost_keeps | apply State.savePage_keeps | apply State.setPage_keeps | apply State.media__keeps | apply State.warm_keeps | apply State.touchComp_keeps | apply State.putPage_keeps | apply State.alloc_keeps | apply State.release_keeps | (simp -zeta -iota only [Keeps1.pair]) | (refine KeepsM.eqNear (by assumption) ?_) | (refine KeepsM.eqRefused (by assumption) ?_) | (refine Keeps.eqQ (by assumption) ?_) | split)

theorem State.pagedFor_keeps {s0 : State} {s : State} {d : Nat} {e00 : Nat} {pick : Nat} (ks : Keeps s0 s) : KeepsO s0 (State.pagedFor s d e00 pick) := by
  unfold State.pagedFor
  with_reducible repeat' (first | assumption | intro _ | apply State.splitExt_keeps | apply State.needArea_keeps | apply State.giveTable_keeps | apply KeepsO.some | apply KeepsO.bind | split)

theorem State.placeSlotImage_keeps {s0 : State} {s : State} {d : Nat} {p : Nat} {k : Nat} {hdr : SlotHdr} {image : List Byte} {picks : List Nat} (ks : Keeps s0 s) : Keeps1 s0 (State.placeSlotImage s d p k hdr image picks) := by
  unfold State.placeSlotImage
  with_reducible repeat' (first | assumption | intro _ | (extract_lets +onlyGivenNames x; refine Keeps.have (Q := Keeps s0 x) ?_ ?_; dsimp -zeta -iota only [x]; clear x; rotate_left; clear_value x; revert x; intro _ _) | (extract_lets +onlyGivenNames x; clear_value x; revert x; intro _) | apply Keeps1.ite | apply State.writeSlot_keeps | apply State.placeLost_keeps | (refine (State.refusePage_keeps ?_).out) | apply State.savePage_keeps | apply State.unlistPages_keeps | apply State.takeSlot_keeps | apply State.setPage_keeps | apply State.nextSeq_keeps | apply State.touchComp_keeps | apply State.pagedFor_keeps | apply State.bufferSlot_keeps | apply State.release_keeps | (simp -zeta -iota only [Keeps1.pair]) | (refine Keeps2.eq (by assumption) ?_) | (refine Keeps.eqQ (by assumption) ?_) | (refine Keeps.eqO (by assumption) ?_) | split)

theorem State.pageAnswer_keeps {s0 : State} {s : State} {l : Half} {d : Nat} {page : Nat} {a4 : Placed} (ks : Keeps s0 s) : Keeps s0 (State.pageAnswer s l d page a4) := by
  unfold State.pageAnswer
  with_reducible repeat' (first | assumption | apply State.pageRefuse_keeps | apply State.pageAckSend_keeps | split)

theorem State.resyncTook_keeps {s0 : State} {s : State} {d : Nat} {p : Nat} (ks : Keeps s0 s) : Keeps s0 (State.resyncTook s d p) := by
  unfold State.resyncTook
  with_reducible repeat' (first | assumption | intro _ | (extract_lets +onlyGivenNames x; clear_value x; revert x; intro _) | apply Keeps.ite | apply State.took_keeps)

theorem State.pageDoneIn_keeps {s0 : State} {s : State} {l : Half} {vc : Nat} {picks : List Nat} (ks : Keeps s0 s) : Keeps s0 (State.pageDoneIn s l vc picks) := by
  unfold State.pageDoneIn
  with_reducible repeat' (first | assumption | intro _ | (extract_lets +onlyGivenNames x; refine Keeps.have (Q := Keeps s0 x) ?_ ?_; dsimp -zeta -iota only [x]; clear x; rotate_left; clear_value x; revert x; intro _ _) | (extract_lets +onlyGivenNames x; refine Keeps.isFun x ?_; dsimp -zeta -iota only [x]; clear x) | (extract_lets +onlyGivenNames x; clear_value x; revert x; intro _) | apply Keeps.ite | apply State.pageRefuse_keeps | (refine (State.placeSlotImage_keeps ?_).out) | apply State.chunkErr_keeps | (refine (State.rebuildPage_keeps ?_).out) | apply State.settle_keeps | apply State.wakeStage5_keeps | apply State.recap_keeps | apply State.rxPop_keeps | (refine (State.placeLines_keeps ?_).out) | apply State.pageAckSend_keeps | apply State.pageAnswer_keeps | apply State.resyncTook_keeps | apply State.each_keeps | (simp -zeta -iota only [Keeps.mk_iff]; apply KeepsMk.of (h1 := by simp) (h2 := by simp) (h3 := by simp)) | split)

theorem execPageDone_keeps {s0 : State} {l : Half} {vc : Fin 8} {picks : List Nat} {s : State} (ks : Keeps s0 s) : KeepsR s0 (execPageDone l vc picks s) := by
  unfold execPageDone
  with_reducible repeat' (first | assumption | apply State.pageDoneIn_keeps | apply KeepsR.next)

theorem State.resyncEnd_keeps {s0 : State} {s : State} {d : Nat} (ks : Keeps s0 s) : Keeps s0 (State.resyncEnd s d) := by
  unfold State.resyncEnd
  with_reducible repeat' (first | assumption | (extract_lets +onlyGivenNames x; refine Keeps.have (Q := Keeps s0 x) ?_ ?_; dsimp -zeta -iota only [x]; clear x; rotate_left; clear_value x; revert x; intro _ _) | (extract_lets +onlyGivenNames x; clear_value x; revert x; intro _) | apply State.setFlag_keeps | apply State.updMirDom_keeps | apply State.setFld_keeps | apply State.setMState_keeps | (simp -zeta -iota only [Keeps.mk_iff]; apply KeepsMk.of (h1 := by simp) (h2 := by simp) (h3 := by simp)))

theorem State.resyncStart_keeps {s0 : State} {s : State} {d : Nat} {full : Bool} (ks : Keeps s0 s) : Keeps s0 (State.resyncStart s d full) := by
  unfold State.resyncStart
  with_reducible repeat' (first | assumption | intro _ | (extract_lets +onlyGivenNames x; refine Keeps.have (Q := Keeps s0 x) ?_ ?_; dsimp -zeta -iota only [x]; clear x; rotate_left; clear_value x; revert x; intro _ _) | (extract_lets +onlyGivenNames x; clear_value x; revert x; intro _) | apply Keeps.ite | apply State.setFlag_keeps | apply State.resyncEnd_keeps | apply State.setMState_keeps | apply State.mirTally_keeps | (simp -zeta -iota only [Keeps.mk_iff]; apply KeepsMk.of (h1 := by simp) (h2 := by simp) (h3 := by simp)))

theorem State.updResync_keeps {s0 : State} {s : State} {d : Nat} {f : Resync → Resync} (ks : Keeps s0 s) : Keeps s0 (State.updResync s d f) := by
  unfold State.updResync
  with_reducible repeat' (first | assumption | (simp -zeta -iota only [Keeps.mk_iff]; apply KeepsMk.of (h1 := by simp) (h2 := by simp) (h3 := by simp)))

theorem State.resyncTurn_keeps {s0 : State} {s : State} {d : Nat} (ks : Keeps s0 s) : Keeps s0 (State.resyncTurn s d) := by
  unfold State.resyncTurn
  with_reducible repeat' (first | assumption | intro _ | (extract_lets +onlyGivenNames x; refine Keeps.have (Q := Keeps s0 x) ?_ ?_; dsimp -zeta -iota only [x]; clear x; rotate_left; clear_value x; revert x; intro _ _) | (extract_lets +onlyGivenNames x; clear_value x; revert x; intro _) | apply Keeps.ite | apply State.resyncEnd_keeps | apply State.updResync_keeps | apply State.setDirty_keeps | split)

theorem State.slotTravels_keeps {s0 : State} {s : State} {d : Nat} {page : Nat} {errs : List Burst} (ks : Keeps s0 s) : Keeps22 s0 (State.slotTravels s d page errs) := by
  unfold State.slotTravels
  with_reducible repeat' (first | assumption | intro _ | (extract_lets +onlyGivenNames x; clear_value x; revert x; intro _) | apply Keeps22.ite | apply State.readSlot_keeps | (simp -zeta -iota only [Keeps22.pair]) | (refine Keeps2.eq (by assumption) ?_) | split)

theorem State.sendLines_keeps {s0 : State} {s : State} {l : Half} {kind : Nat} {d : Nat} {peer : Nat} {page : Nat} {repair : Bool} {errs : List Burst} (ks : Keeps s0 s) : Keeps s0 (State.sendLines s l kind d peer page repair errs) := by
  unfold State.sendLines
  with_reducible repeat' (first | assumption | intro _ | (extract_lets +onlyGivenNames x; clear_value x; revert x; intro _) | apply Keeps.ite | apply State.send_keeps | (refine (State.pageContent_keeps ?_).out) | apply State.each_keeps)

theorem State.pageOut_keeps {s0 : State} {s : State} {l : Half} {d : Nat} {page : Nat} {n : Nat} {repair : Bool} (ks : Keeps s0 s) : Keeps s0 (State.pageOut s l d page n repair) := by
  unfold State.pageOut
  with_reducible repeat' (first | assumption | intro _ | (extract_lets +onlyGivenNames x; refine Keeps.have (Q := Keeps s0 x) ?_ ?_; dsimp -zeta -iota only [x]; clear x; rotate_left; clear_value x; revert x; intro _ _) | apply State.lock_keeps | apply State.each_keeps | (simp -zeta -iota only [Keeps.mk_iff]; apply KeepsMk.of (h1 := by simp) (h2 := by simp) (h3 := by simp)))

theorem State.resyncSend_keeps {s0 : State} {s : State} {l : Half} {d : Nat} {r : Resync} {errs : List Burst} (ks : Keeps s0 s) : Keeps s0 (State.resyncSend s l d r errs) := by
  unfold State.resyncSend
  with_reducible repeat' (first | assumption | intro _ | (extract_lets +onlyGivenNames x; refine Keeps.have (Q := Keeps s0 x) ?_ ?_; dsimp -zeta -iota only [x]; clear x; rotate_left; clear_value x; revert x; intro _ _) | (extract_lets +onlyGivenNames x; refine Keeps.isFun x ?_; dsimp -zeta -iota only [x]; clear x) | (extract_lets +onlyGivenNames x; clear_value x; revert x; intro _) | apply Keeps.ite | apply State.pulse_keeps | apply State.pageOut_keeps | apply State.slotTravels_keeps | apply State.updResync_keeps | apply State.resyncTurn_keeps | apply State.send_keeps | apply State.resyncTook_keeps | apply State.sendLines_keeps | apply State.each_keeps | (refine Keeps22.eq (by assumption) ?_) | split)

theorem State.pageSend_keeps {s0 : State} {s : State} {h : Half} {d : Nat} {errs : List Burst} (ks : Keeps s0 s) : Keeps s0 (State.pageSend s h d errs) := by
  unfold State.pageSend
  with_reducible repeat' (first | assumption | intro _ | (extract_lets +onlyGivenNames x; clear_value x; revert x; intro _) | (extract_lets +onlyGivenNames x; dsimp -zeta -iota only [x]; clear x) | apply Keeps.ite | apply State.pageOut_keeps | apply State.resyncSend_keeps | apply State.mirTally_keeps | apply State.resyncTook_keeps | apply State.sendLines_keeps | (simp -zeta -iota only [Keeps.mk_iff]; apply KeepsMk.of (h1 := by simp) (h2 := by simp) (h3 := by simp)) | split)

theorem execResyncPageSend_keeps {s0 : State} {h : Half} {d : Fin 1024} {errs : List Burst} {s : State} (ks : Keeps s0 s) : KeepsR s0 (execResyncPageSend h d errs s) := by
  unfold execResyncPageSend
  with_reducible repeat' (first | assumption | apply State.pageSend_keeps | apply KeepsR.next)

theorem State.pageAckIn_keeps {s0 : State} {s : State} {l : Half} {vc : Nat} (ks : Keeps s0 s) : Keeps s0 (State.pageAckIn s l vc) := by
  unfold State.pageAckIn
  with_reducible repeat' (first | assumption | intro _ | (extract_lets +onlyGivenNames x; refine Keeps.have (Q := Keeps s0 x) ?_ ?_; dsimp -zeta -iota only [x]; clear x; rotate_left; clear_value x; revert x; intro _ _) | apply Keeps.ite | apply State.mirSay_keeps | apply State.dropPages_keeps | apply State.updResync_keeps | apply State.wakeStage5_keeps | apply State.rxPop_keeps | apply State.count_keeps | apply State.resyncTurn_keeps | apply State.each_keeps | split)

theorem execPageAck_keeps {s0 : State} {l : Half} {vc : Fin 8} {s : State} (ks : Keeps s0 s) : KeepsR s0 (execPageAck l vc s) := by
  unfold execPageAck
  with_reducible repeat' (first | assumption | apply State.pageAckIn_keeps | apply KeepsR.next)

theorem State.repairIn_keeps {s0 : State} {s : State} {l : Half} {vc : Nat} (ks : Keeps s0 s) : Keeps s0 (State.repairIn s l vc) := by
  unfold State.repairIn
  with_reducible repeat' (first | assumption | intro _ | (extract_lets +onlyGivenNames x; refine Keeps.have (Q := Keeps s0 x) ?_ ?_; dsimp -zeta -iota only [x]; clear x; rotate_left; clear_value x; revert x; intro _ _) | (extract_lets +onlyGivenNames x; clear_value x; revert x; intro _) | apply Keeps.ite | apply State.rxPop_keeps | apply State.mirTally_keeps | apply State.send_keeps | (simp -zeta -iota only [Keeps.mk_iff]; apply KeepsMk.of (h1 := by simp) (h2 := by simp) (h3 := by simp)) | split)

theorem execRepairReq_keeps {s0 : State} {l : Half} {vc : Fin 8} {s : State} (ks : Keeps s0 s) : KeepsR s0 (execRepairReq l vc s) := by
  unfold execRepairReq
  with_reducible repeat' (first | assumption | apply State.repairIn_keeps | apply KeepsR.next)

theorem State.yieldDomain_keeps {s0 : State} {s : State} {d : Nat} {tie : Bool} (ks : Keeps s0 s) : Keeps s0 (State.yieldDomain s d tie) := by
  unfold State.yieldDomain
  with_reducible repeat' (first | assumption | (extract_lets +onlyGivenNames x; refine Keeps.have (Q := Keeps s0 x) ?_ ?_; dsimp -zeta -iota only [x]; clear x; rotate_left; clear_value x; revert x; intro _ _) | (extract_lets +onlyGivenNames x; clear_value x; revert x; intro _) | apply State.setFlag_keeps | apply State.lagStall_keeps | apply State.updMirDom_keeps | apply State.toFm_keeps | apply State.setFld_keeps | apply State.mirSay_keeps | apply State.dropPages_keeps | apply State.setMState_keeps | apply State.releaseSync_keeps | (simp -zeta -iota only [Keeps.mk_iff]; apply KeepsMk.of (h1 := by simp) (h2 := by simp) (h3 := by simp)))

theorem State.matchMove_keeps {s0 : State} {s : State} {d : Nat} {p : PeerRole} (ks : Keeps s0 s) : Keeps s0 (State.matchMove s d p) := by
  unfold State.matchMove
  with_reducible repeat' (first | assumption | intro _ | (extract_lets +onlyGivenNames x; refine Keeps.have (Q := Keeps s0 x) ?_ ?_; dsimp -zeta -iota only [x]; clear x; rotate_left; clear_value x; revert x; intro _ _) | (extract_lets +onlyGivenNames x; clear_value x; revert x; intro _) | apply Keeps.ite | apply State.setFlag_keeps | apply State.updMirDom_keeps | apply State.setFld_keeps | apply State.mirSay_keeps | apply State.setMState_keeps | apply State.resyncStart_keeps | split)

theorem State.roleIn_keeps {s0 : State} {s : State} {l : Half} {vc : Nat} (ks : Keeps s0 s) : Keeps s0 (State.roleIn s l vc) := by
  unfold State.roleIn
  with_reducible repeat' (first | assumption | intro _ | (extract_lets +onlyGivenNames x; refine Keeps.have (Q := Keeps s0 x) ?_ ?_; dsimp -zeta -iota only [x]; clear x; rotate_left; clear_value x; revert x; intro _ _) | (extract_lets +onlyGivenNames x; refine Keeps.isFun x ?_; dsimp -zeta -iota only [x]; clear x) | (extract_lets +onlyGivenNames x; clear_value x; revert x; intro _) | apply Keeps.ite | apply State.setFlag_keeps | apply State.updMirDom_keeps | apply State.yieldDomain_keeps | apply State.splitPair_keeps | apply State.mirSay_keeps | apply State.rxPop_keeps | apply State.matchMove_keeps | apply State.each_keeps | split)

theorem execRole_keeps {s0 : State} {l : Half} {vc : Fin 8} {s : State} (ks : Keeps s0 s) : KeepsR s0 (execRole l vc s) := by
  unfold execRole
  with_reducible repeat' (first | assumption | apply State.roleIn_keeps | apply KeepsR.next)

theorem State.setFpIn_keeps {s0 : State} {s : State} {l : Half} {vc : Nat} (ks : Keeps s0 s) : Keeps s0 (State.setFpIn s l vc) := by
  unfold State.setFpIn
  with_reducible repeat' (first | assumption | (extract_lets +onlyGivenNames x; refine Keeps.have (Q := Keeps s0 x) ?_ ?_; dsimp -zeta -iota only [x]; clear x; rotate_left; clear_value x; revert x; intro _ _) | apply State.rxPop_keeps | (simp -zeta -iota only [Keeps.mk_iff]; apply KeepsMk.of (h1 := by simp) (h2 := by simp) (h3 := by simp)) | split)

theorem execSetFp_keeps {s0 : State} {l : Half} {vc : Fin 8} {s : State} (ks : Keeps s0 s) : KeepsR s0 (execSetFp l vc s) := by
  unfold execSetFp
  with_reducible repeat' (first | assumption | apply State.setFpIn_keeps | apply KeepsR.next)

end Sys2Proof.Machine
end

