-- ==== Sys2Proof/Laws/KeepFault.lean ====
section
/-! SUPPORT. The operations of Machine/Fault.lean break nothing (Laws/Keeps.lean). -/

namespace Sys2Proof.Machine

theorem State.recordClose_keeps {s0 : State} {s : State} {seq : Nat} (ks : Keeps s0 s) : Keeps s0 (State.recordClose s seq) := by
  unfold State.recordClose
  with_reducible repeat' (first | assumption | intro _ | apply Keeps.ite | apply State.closeRecord_keeps | split)

theorem execFaultRecordClose_keeps {s0 : State} {seq : BitVec 32} {s : State} (ks : Keeps s0 s) : KeepsR s0 (execFaultRecordClose seq s) := by
  unfold execFaultRecordClose
  with_reducible repeat' (first | assumption | apply State.recordClose_keeps | apply KeepsR.next)

theorem State.ackRecord_keeps {s0 : State} {s : State} {r : FaultRec} (ks : Keeps s0 s) : Keeps s0 (State.ackRecord s r) := by
  unfold State.ackRecord
  with_reducible repeat' (first | assumption | intro _ | (extract_lets +onlyGivenNames x; refine Keeps.have (Q := Keeps s0 x) ?_ ?_; dsimp -zeta -iota only [x]; clear x; rotate_left; clear_value x; revert x; intro _ _) | (extract_lets +onlyGivenNames x; clear_value x; revert x; intro _) | apply Keeps.ite | apply State.closeRecord_keeps | (simp -zeta -iota only [Keeps.mk_iff]; apply KeepsMk.of (h1 := by simp) (h2 := by simp) (h3 := by simp)))

theorem State.faultAck_keeps {s0 : State} {s : State} {v : Nat} (ks : Keeps s0 s) : Keeps s0 (State.faultAck s v) := by
  unfold State.faultAck
  with_reducible repeat' (first | assumption | intro _ | (extract_lets +onlyGivenNames x; clear_value x; revert x; intro _) | apply State.ackRecord_keeps | apply State.each_keeps)

theorem execFaultAck_keeps {s0 : State} {value : Word} {s : State} (ks : Keeps s0 s) : KeepsR s0 (execFaultAck value s) := by
  unfold execFaultAck
  with_reducible repeat' (first | assumption | intro _ | apply State.faultAck_keeps | apply State.write_keeps | apply KeepsR.next)

theorem execItemRunClose_keeps {s0 : State} {unit : BitVec 16} {s : State} (ks : Keeps s0 s) : KeepsR s0 (execItemRunClose unit s) := by
  unfold execItemRunClose
  with_reducible repeat' (first | assumption | apply State.closeRun_keeps | apply KeepsR.next)

theorem State.unitResetDone_keeps {s0 : State} {s : State} {u : Nat} {pass : Bool} (ks : Keeps s0 s) : Keeps s0 (State.unitResetDone s u pass) := by
  unfold State.unitResetDone
  with_reducible repeat' (first | assumption | intro _ | (extract_lets +onlyGivenNames x; refine Keeps.have (Q := Keeps s0 x) ?_ ?_; dsimp -zeta -iota only [x]; clear x; rotate_left; clear_value x; revert x; intro _ _) | (extract_lets +onlyGivenNames x; clear_value x; revert x; intro _) | apply Keeps.ite | apply State.setFenced_keeps | apply State.endEpisode_keeps | apply State.setBit_keeps | apply State.updUnit_keeps | (simp -zeta -iota only [Keeps.mk_iff]; apply KeepsMk.of (h1 := by simp) (h2 := by simp) (h3 := by simp)) | split)

theorem execUnitResetDone_keeps {s0 : State} {unit : BitVec 16} {pass : Bool} {s : State} (ks : Keeps s0 s) : KeepsR s0 (execUnitResetDone unit pass s) := by
  unfold execUnitResetDone
  with_reducible repeat' (first | assumption | apply State.unitResetDone_keeps | apply KeepsR.next)

theorem State.errPhaseEnd_keeps {s0 : State} {s : State} (ks : Keeps s0 s) : Keeps s0 (State.errPhaseEnd s) := by
  unfold State.errPhaseEnd
  with_reducible repeat' (first | assumption | intro _ | (extract_lets +onlyGivenNames x; refine Keeps.have (Q := Keeps s0 x) ?_ ?_; dsimp -zeta -iota only [x]; clear x; rotate_left; clear_value x; revert x; intro _ _) | apply Keeps.ite | apply State.setFlag_keeps | apply State.errPin_keeps)

theorem execErrPhaseEnd_keeps {s0 : State} {s : State} (ks : Keeps s0 s) : KeepsR s0 (execErrPhaseEnd s) := by
  unfold execErrPhaseEnd
  with_reducible repeat' (first | assumption | apply State.errPhaseEnd_keeps | apply KeepsR.next)

theorem State.errRelease_keeps {s0 : State} {s : State} (ks : Keeps s0 s) : Keeps s0 (State.errRelease s) := by
  unfold State.errRelease
  with_reducible repeat' (first | assumption | intro _ | apply Keeps.ite | apply State.setFlag_keeps | apply State.errPin_keeps)

theorem execErrPinRelease_keeps {s0 : State} {s : State} (ks : Keeps s0 s) : KeepsR s0 (execErrPinRelease s) := by
  unfold execErrPinRelease
  with_reducible repeat' (first | assumption | intro _ | apply State.errRelease_keeps | apply State.write_keeps | apply KeepsR.next)

theorem execErrPinSwAssert_keeps {s0 : State} {on : Bool} {s : State} (ks : Keeps s0 s) : KeepsR s0 (execErrPinSwAssert on s) := by
  unfold execErrPinSwAssert
  with_reducible repeat' (first | assumption | intro _ | apply State.setFlag_keeps | apply State.write_keeps | apply State.errPin_keeps | apply KeepsR.next)

theorem State.alarmPhaseEnd_keeps {s0 : State} {s : State} (ks : Keeps s0 s) : Keeps s0 (State.alarmPhaseEnd s) := by
  unfold State.alarmPhaseEnd
  with_reducible repeat' (first | assumption | intro _ | (extract_lets +onlyGivenNames x; refine Keeps.have (Q := Keeps s0 x) ?_ ?_; dsimp -zeta -iota only [x]; clear x; rotate_left; clear_value x; revert x; intro _ _) | apply Keeps.ite | apply State.setFlag_keeps | apply State.alarmPin_keeps)

theorem execAlarmPhaseEnd_keeps {s0 : State} {s : State} (ks : Keeps s0 s) : KeepsR s0 (execAlarmPhaseEnd s) := by
  unfold execAlarmPhaseEnd
  with_reducible repeat' (first | assumption | apply State.alarmPhaseEnd_keeps | apply KeepsR.next)

theorem State.alarmRelease_keeps {s0 : State} {s : State} (ks : Keeps s0 s) : Keeps s0 (State.alarmRelease s) := by
  unfold State.alarmRelease
  with_reducible repeat' (first | assumption | intro _ | apply Keeps.ite | apply State.setFlag_keeps | apply State.alarmPin_keeps)

theorem execAlarmPinRelease_keeps {s0 : State} {s : State} (ks : Keeps s0 s) : KeepsR s0 (execAlarmPinRelease s) := by
  unfold execAlarmPinRelease
  with_reducible repeat' (first | assumption | intro _ | apply State.write_keeps | apply State.alarmRelease_keeps | apply KeepsR.next)

theorem State.getPoison_keeps {s0 : State} {s : State} {p : Nat} {n : Nat} {first : Nat} {len : Nat} (ks : Keeps s0 s) : Keeps s0 (State.getPoison s p n first len) := by
  unfold State.getPoison
  with_reducible repeat' (first | assumption | (extract_lets +onlyGivenNames x; clear_value x; revert x; intro _) | apply State.emit_keeps)

theorem execGetPoisonList_keeps {s0 : State} {p : Fin 16} {ld : Fin 16} {lineAddr : Nat} {len : Nat} {s : State} (ks : Keeps s0 s) : KeepsR s0 (execGetPoisonList p ld lineAddr len s) := by
  unfold execGetPoisonList
  with_reducible repeat' (first | assumption | apply State.getPoison_keeps | apply KeepsR.next)

theorem State.scanStart_keeps {s0 : State} {s : State} {fn : Nat} {first : Nat} {len : Nat} (ks : Keeps s0 s) : Keeps s0 (State.scanStart s fn first len) := by
  unfold State.scanStart
  with_reducible repeat' (first | assumption | apply State.emit_keeps | (simp -zeta -iota only [Keeps.mk_iff]; apply KeepsMk.of (h1 := by simp) (h2 := by simp) (h3 := by simp)) | split)

theorem execScanMedia_keeps {s0 : State} {p : Fin 16} {ld : Fin 16} {lineAddr : Nat} {len : Nat} {s : State} (ks : Keeps s0 s) : KeepsR s0 (execScanMedia p ld lineAddr len s) := by
  unfold execScanMedia
  with_reducible repeat' (first | assumption | apply State.scanStart_keeps | apply KeepsR.next)

theorem State.scanEnd_keeps {s0 : State} {s : State} {p : Nat} {n : Nat} {errs : List Burst} (ks : Keeps s0 s) : Keeps s0 (State.scanEnd s p n errs) := by
  unfold State.scanEnd
  with_reducible repeat' (first | assumption | intro _ | (extract_lets +onlyGivenNames x; refine Keeps.have (Q := Keeps s0 x) ?_ ?_; dsimp -zeta -iota only [x]; clear x; rotate_left; clear_value x; revert x; intro _ _) | (extract_lets +onlyGivenNames x; refine Keeps.isFun x ?_; dsimp -zeta -iota only [x]; clear x) | (extract_lets +onlyGivenNames x; clear_value x; revert x; intro _) | apply Keeps.ite | apply Keeps1.ite | apply State.addPoison_keeps | apply State.pageContent_keeps | (simp -zeta -iota only [Keeps1.pair]) | apply State.each_keeps | (refine (Keeps1.foldl ?_ ?_).out) | (exact Keeps1.out (by assumption)) | (refine Keeps22.eq (by assumption) ?_) | (simp -zeta -iota only [Keeps.mk_iff]; apply KeepsMk.of (h1 := by simp) (h2 := by simp) (h3 := by simp)) | split)

theorem execScanMediaDone_keeps {s0 : State} {p : Fin 16} {ld : Fin 16} {errs : List Burst} {s : State} (ks : Keeps s0 s) : KeepsR s0 (execScanMediaDone p ld errs s) := by
  unfold execScanMediaDone
  with_reducible repeat' (first | assumption | apply State.scanEnd_keeps | apply KeepsR.next)

theorem State.scanCaps_keeps {s0 : State} {s : State} (ks : Keeps s0 s) : Keeps s0 (State.scanCaps s) := by
  unfold State.scanCaps
  with_reducible repeat' (first | assumption | (refine (State.freeNat_keeps ?_).out) | apply State.emit_keeps)

theorem execGetScanMediaCapabilities_keeps {s0 : State} {p00 : Fin 16} {ld00 : Fin 16} {lineAddr00 : Nat} {len00 : Nat} {s : State} (ks : Keeps s0 s) : KeepsR s0 (execGetScanMediaCapabilities p00 ld00 lineAddr00 len00 s) := by
  unfold execGetScanMediaCapabilities
  with_reducible repeat' (first | assumption | apply State.scanCaps_keeps | apply KeepsR.next)

theorem State.scanResults_keeps {s0 : State} {s : State} {fn : Nat} (ks : Keeps s0 s) : Keeps s0 (State.scanResults s fn) := by
  unfold State.scanResults
  with_reducible repeat' (first | assumption | apply State.emit_keeps | split)

theorem execGetScanMediaResults_keeps {s0 : State} {p : Fin 16} {ld : Fin 16} {s : State} (ks : Keeps s0 s) : KeepsR s0 (execGetScanMediaResults p ld s) := by
  unfold execGetScanMediaResults
  with_reducible repeat' (first | assumption | apply State.scanResults_keeps | apply KeepsR.next)

theorem State.clearPoison_keeps {s0 : State} {s : State} {p : Nat} {n : Nat} {line : Nat} {data : Line} (ks : Keeps s0 s) : Keeps s0 (State.clearPoison s p n line data) := by
  unfold State.clearPoison
  with_reducible repeat' (first | assumption | intro _ | (extract_lets +onlyGivenNames x; refine Keeps.have (Q := Keeps s0 x) ?_ ?_; dsimp -zeta -iota only [x]; clear x; rotate_left; clear_value x; revert x; intro _ _) | (extract_lets +onlyGivenNames x; clear_value x; revert x; intro _) | apply Keeps.ite | apply State.admitReq_keeps | apply State.domTally_keeps | apply State.mark_keeps | apply State.emit_keeps | apply State.failReq_keeps | (refine Keeps1.eq (by assumption) ?_) | split)

theorem execClearPoison_keeps {s0 : State} {p : Fin 16} {ld : Fin 16} {lineAddr : Nat} {data : Line} {s : State} (ks : Keeps s0 s) : KeepsR s0 (execClearPoison p ld lineAddr data s) := by
  unfold execClearPoison
  with_reducible repeat' (first | assumption | apply State.clearPoison_keeps | apply KeepsR.next)

theorem execInjectPoison_keeps {s0 : State} {p00 : Fin 16} {ld00 : Fin 16} {lineAddr00 : Nat} {s : State} (ks : Keeps s0 s) : KeepsR s0 (execInjectPoison p00 ld00 lineAddr00 s) := by
  unfold execInjectPoison
  with_reducible repeat' (first | assumption | apply State.emit_keeps | apply KeepsR.next)

theorem State.getEvents_keeps {s0 : State} {s : State} {p : Nat} {n : Nat} {log : Nat} {count : Nat} (ks : Keeps s0 s) : Keeps s0 (State.getEvents s p n log count) := by
  unfold State.getEvents
  with_reducible repeat' (first | assumption | intro _ | apply Keeps.ite | apply State.emit_keeps | apply Keeps.foldl)

theorem execGetEventRecords_keeps {s0 : State} {p : Fin 16} {ld : Fin 17} {log : Fin 4} {count : Nat} {s : State} (ks : Keeps s0 s) : KeepsR s0 (execGetEventRecords p ld log count s) := by
  unfold execGetEventRecords
  with_reducible repeat' (first | assumption | apply State.getEvents_keeps | apply KeepsR.next)

theorem State.mboxEnd_keeps {s0 : State} {s : State} {fn : Nat} {result : Nat} (ks : Keeps s0 s) : Keeps s0 (State.mboxEnd s fn result) := by
  unfold State.mboxEnd
  with_reducible repeat' (first | assumption | apply State.setFlag_keeps | apply State.setFld_keeps)

theorem State.mboxWrite_keeps {s0 : State} {s : State} {p : Nat} {ld : Nat} {f : State → State} (ks : Keeps s0 s) (hff : ∀ u, Keeps s0 u → Keeps s0 (f u)) : Keeps s0 (State.mboxWrite s p ld f) := by
  unfold State.mboxWrite
  with_reducible repeat' (first | assumption | intro _ | apply Keeps.ite | apply hff | apply State.barWrite_keeps)

theorem execNop_keeps {s0 : State} {p : Fin 16} {ld : Fin 17} {s : State} (ks : Keeps s0 s) : KeepsR s0 (execNop p ld s) := by
  unfold execNop
  with_reducible repeat' (first | assumption | intro _ | apply State.mboxEnd_keeps | apply State.mboxWrite_keeps | apply KeepsR.next)

theorem State.getRecord_keeps {s0 : State} {s : State} {p : Nat} {n : Nat} (ks : Keeps s0 s) : Keeps s0 (State.getRecord s p n) := by
  unfold State.getRecord
  with_reducible repeat' (first | assumption | intro _ | (extract_lets +onlyGivenNames x; clear_value x; revert x; intro _) | apply State.setReg_keeps | apply State.mboxEnd_keeps | apply State.each_keeps | split)

theorem execGetFaultRecord_keeps {s0 : State} {p : Fin 16} {ld : Fin 17} {s : State} (ks : Keeps s0 s) : KeepsR s0 (execGetFaultRecord p ld s) := by
  unfold execGetFaultRecord
  with_reducible repeat' (first | assumption | intro _ | apply State.getRecord_keeps | apply State.mboxWrite_keeps | apply KeepsR.next)

theorem execMboxUnsupported_keeps {s0 : State} {p : Fin 16} {ld : Fin 17} {opcode : BitVec 16} {s : State} (ks : Keeps s0 s) : KeepsR s0 (execMboxUnsupported p ld opcode s) := by
  unfold execMboxUnsupported
  with_reducible repeat' (first | assumption | intro _ | apply Keeps.ite | apply State.mboxEnd_keeps | apply State.mboxWrite_keeps | apply KeepsR.next)

end Sys2Proof.Machine
end

