-- ==== Sys2Proof/Laws/KeepAdmit.lean ====
section
/-! SUPPORT. The operations of Machine/Admit.lean break nothing (Laws/Keeps.lean). -/

namespace Sys2Proof.Machine

theorem State.adopt_keeps {s0 : State} {s : State} {g : Nat} (ks : Keeps s0 s) : Keeps s0 (State.adopt s g) := by
  unfold State.adopt
  exact Keeps.updRegs ks (fun w => cellPuts_wf _ _ _ (cellDrop_wf _ w)) rfl rfl rfl rfl rfl rfl

theorem State.disown_keeps {s0 : State} {s : State} {g : Nat} (ks : Keeps s0 s) : Keeps s0 (State.disown s g) := by
  unfold State.disown
  exact Keeps.updRegs ks (fun w => cellPuts_wf _ _ _ (cellDrop_wf _ w)) rfl rfl rfl rfl rfl rfl

theorem State.checkDecode_keeps {s0 : State} {s : State} (ks : Keeps s0 s) : Keeps1 s0 (State.checkDecode s) := by
  unfold State.checkDecode
  with_reducible repeat' (first | assumption | intro _ | (extract_lets +onlyGivenNames x; refine Keeps.have (Q := Keeps s0 x) ?_ ?_; dsimp -zeta -iota only [x]; clear x; rotate_left; clear_value x; revert x; intro _ _) | (extract_lets +onlyGivenNames x; clear_value x; revert x; intro _) | apply State.setFlag_keeps | apply State.setFld_keeps | (simp -zeta -iota only [Keeps1.pair]) | apply State.each_keeps | split)

theorem State.releaseCommit_keeps {s0 : State} {s : State} {h : Half} {d : Nat} {bases : List Nat} {slots : List (Nat × Nat)} (ks : Keeps s0 s) : Keeps s0 (State.releaseCommit s h d bases slots) := by
  unfold State.releaseCommit
  with_reducible repeat' (first | assumption | intro _ | (extract_lets +onlyGivenNames x; refine Keeps.have (Q := Keeps s0 x) ?_ ?_; dsimp -zeta -iota only [x]; clear x; rotate_left; clear_value x; revert x; intro _ _) | (extract_lets +onlyGivenNames x; clear_value x; revert x; intro _) | apply Keeps.ite | apply State.setFlag_keeps | (simp -zeta -iota only [Keeps.mk_iff]; apply KeepsMk.of (h1 := by simp) (h2 := by simp) (h3 := by simp)))

theorem State.dropPromos_keeps {s0 : State} {s : State} {h : Half} {d : Nat} {first : Nat} (ks : Keeps s0 s) : Keeps s0 (State.dropPromos s h d first) := by
  unfold State.dropPromos
  with_reducible repeat' (first | assumption | intro _ | (extract_lets +onlyGivenNames x; refine Keeps.have (Q := Keeps s0 x) ?_ ?_; dsimp -zeta -iota only [x]; clear x; rotate_left; clear_value x; revert x; intro _ _) | (extract_lets +onlyGivenNames x; clear_value x; revert x; intro _) | apply State.discardWrite_keeps | apply State.unlock_keeps | apply State.each_keeps | (simp -zeta -iota only [Keeps.mk_iff]; apply KeepsMk.of (h1 := by simp) (h2 := by simp) (h3 := by simp)) | split)

theorem State.flushFrom_keeps {s0 : State} {s : State} {d : Nat} {line0 : Nat} (ks : Keeps s0 s) : Keeps s0 (State.flushFrom s d line0) := by
  unfold State.flushFrom
  with_reducible repeat' (first | assumption | intro _ | apply State.startWrite_keeps | apply State.each_keeps)

theorem State.keepOld_keeps {s0 : State} {s : State} {d : Nat} {line0 : Nat} (ks : Keeps s0 s) : Keeps s0 (State.keepOld s d line0) := by
  unfold State.keepOld
  with_reducible repeat' (first | assumption | intro _ | (extract_lets +onlyGivenNames x; refine Keeps.have (Q := Keeps s0 x) ?_ ?_; dsimp -zeta -iota only [x]; clear x; rotate_left; clear_value x; revert x; intro _ _) | (extract_lets +onlyGivenNames x; refine Keeps.isFun x ?_; dsimp -zeta -iota only [x]; clear x) | (extract_lets +onlyGivenNames x; clear_value x; revert x; intro _) | apply State.discardWrite_keeps | apply State.insertWrite_keeps | apply State.each_keeps | (simp -zeta -iota only [Keeps.mk_iff]; apply KeepsMk.of (h1 := by simp) (h2 := by simp) (h3 := by simp)))

theorem State.dropCached_keeps {s0 : State} {s : State} {h : Half} {gone : McKey → Bool} (ks : Keeps s0 s) : Keeps s0 (State.dropCached s h gone) := by
  unfold State.dropCached
  with_reducible repeat' (first | assumption | (simp -zeta -iota only [Keeps.mk_iff]; apply KeepsMk.of (h1 := by simp) (h2 := by simp) (h3 := by simp)))

theorem State.freeFrom_keeps {s0 : State} {s : State} {d : Nat} {first : Nat} {areas : Bool} {table : Bool} (ks : Keeps s0 s) : Keeps s0 (State.freeFrom s d first areas table) := by
  unfold State.freeFrom
  with_reducible repeat' (first | assumption | (extract_lets +onlyGivenNames x; refine Keeps.have (Q := Keeps s0 x) ?_ ?_; dsimp -zeta -iota only [x]; clear x; rotate_left; clear_value x; revert x; intro _ _) | (extract_lets +onlyGivenNames x; refine Keeps.isFun x ?_; dsimp -zeta -iota only [x]; clear x) | (extract_lets +onlyGivenNames x; clear_value x; revert x; intro _) | apply State.flushFrom_keeps | apply State.dropPromos_keeps | apply State.releaseCommit_keeps | apply State.setFld_keeps | apply State.unlistPages_keeps | apply State.keepOld_keeps | apply State.dropCached_keeps | (simp -zeta -iota only [Keeps.mk_iff]; apply KeepsMk.of (h1 := by simp) (h2 := by simp) (h3 := by simp)))

theorem State.leaveHome_keeps {s0 : State} {s : State} {d : Nat} {dest : Half} (ks : Keeps s0 s) : Keeps s0 (State.leaveHome s d dest) := by
  unfold State.leaveHome
  with_reducible repeat' (first | assumption | (extract_lets +onlyGivenNames x; refine Keeps.have (Q := Keeps s0 x) ?_ ?_; dsimp -zeta -iota only [x]; clear x; rotate_left; clear_value x; revert x; intro _ _) | (extract_lets +onlyGivenNames x; refine Keeps.isFun x ?_; dsimp -zeta -iota only [x]; clear x) | (extract_lets +onlyGivenNames x; clear_value x; revert x; intro _) | apply State.releaseCommit_keeps | apply State.dropCached_keeps | (simp -zeta -iota only [Keeps.mk_iff]; apply KeepsMk.of (h1 := by simp) (h2 := by simp) (h3 := by simp)))

theorem State.enterHome_keeps {s0 : State} {s : State} {d : Nat} (ks : Keeps s0 s) : Keeps s0 (State.enterHome s d) := by
  unfold State.enterHome
  with_reducible repeat' (first | assumption | intro _ | (extract_lets +onlyGivenNames x; clear_value x; revert x; intro _) | apply State.dropFlips_keeps | apply State.saveMeta_keeps | apply State.allocArea_keeps | apply State.fenceSubtree_keeps | apply State.each_keeps | (refine Keeps.eqQ (by assumption) ?_) | (simp -zeta -iota only [Keeps.mk_iff]; apply KeepsMk.of (h1 := by simp) (h2 := by simp) (h3 := by simp)) | split)

theorem State.regrow_keeps {s0 : State} {s : State} {d : Nat} (ks : Keeps s0 s) : Keeps s0 (State.regrow s d) := by
  unfold State.regrow
  with_reducible repeat' (first | assumption | intro _ | (extract_lets +onlyGivenNames x; refine Keeps.have (Q := Keeps s0 x) ?_ ?_; dsimp -zeta -iota only [x]; clear x; rotate_left; clear_value x; revert x; intro _ _) | (extract_lets +onlyGivenNames x; clear_value x; revert x; intro _) | apply State.retag_keeps | apply State.updProt_keeps | apply State.dropCached_keeps | apply State.each_keeps | (simp -zeta -iota only [Keeps.mk_iff]; apply KeepsMk.of (h1 := by simp) (h2 := by simp) (h3 := by simp)))

theorem State.placeTable_keeps {s0 : State} {s : State} {d : Nat} {h : Half} {n : Nat} {size : Nat} (ks : Keeps s0 s) : Keeps s0 (State.placeTable s d h n size) := by
  unfold State.placeTable
  with_reducible repeat' (first | assumption | (extract_lets +onlyGivenNames x; refine Keeps.have (Q := Keeps s0 x) ?_ ?_; dsimp -zeta -iota only [x]; clear x; rotate_left; clear_value x; revert x; intro _ _) | apply State.setFlag_keeps | apply State.dropFlips_keeps | apply State.single_keeps | apply State.updMap_keeps | apply State.setFld_keeps | apply State.alloc_keeps | (refine Keeps.eqQ (by assumption) ?_) | split)

theorem State.takeTable_keeps {s0 : State} {s : State} {d : Nat} (ks : Keeps s0 s) : Keeps s0 (State.takeTable s d) := by
  unfold State.takeTable
  with_reducible repeat' (first | assumption | intro _ | (extract_lets +onlyGivenNames x; refine Keeps.have (Q := Keeps s0 x) ?_ ?_; dsimp -zeta -iota only [x]; clear x; rotate_left; clear_value x; revert x; intro _ _) | (extract_lets +onlyGivenNames x; clear_value x; revert x; intro _) | apply Keeps.ite | apply State.setFlag_keeps | apply State.updMap_keeps | apply State.setFld_keeps | apply State.placeTable_keeps | apply State.dropStaged_keeps | split)

theorem State.activate_keeps {s0 : State} {s : State} {d : Nat} (ks : Keeps s0 s) : Keeps s0 (State.activate s d) := by
  unfold State.activate
  with_reducible repeat' (first | assumption | (extract_lets +onlyGivenNames x; refine Keeps.have (Q := Keeps s0 x) ?_ ?_; dsimp -zeta -iota only [x]; clear x; rotate_left; clear_value x; revert x; intro _ _) | (extract_lets +onlyGivenNames x; clear_value x; revert x; intro _) | apply State.fenceTally_keeps | apply State.setFld_keeps | apply State.updProt_keeps | apply State.dropCached_keeps | (simp -zeta -iota only [Keeps.mk_iff]; apply KeepsMk.of (h1 := by simp) (h2 := by simp) (h3 := by simp)))

theorem State.zeroCut_keeps {s0 : State} {s : State} (ks : Keeps s0 s) : Keeps s0 (State.zeroCut s) := by
  unfold State.zeroCut
  with_reducible repeat' (first | assumption | intro _ | (extract_lets +onlyGivenNames x; refine Keeps.have (Q := Keeps s0 x) ?_ ?_; dsimp -zeta -iota only [x]; clear x; rotate_left; clear_value x; revert x; intro _ _) | (extract_lets +onlyGivenNames x; clear_value x; revert x; intro _) | apply Keeps.ite | apply State.zeroEnd_keeps | apply State.setFld_keeps | apply State.zeroUnlock_keeps | (simp -zeta -iota only [Keeps.mk_iff]; apply KeepsMk.of (h1 := by simp) (h2 := by simp) (h3 := by simp)) | split)

theorem State.admitTally_keeps {s0 : State} {s : State} (ks : Keeps s0 s) : Keeps s0 (State.admitTally s) := by
  unfold State.admitTally
  with_reducible repeat' (first | assumption | intro _ | apply State.setFld_keeps | apply State.each_keeps)

theorem State.freeOld_keeps {s0 : State} {s : State} {d : Nat} {a : DomView} {v : DomView} (ks : Keeps s0 s) : Keeps s0 (State.freeOld s d a v) := by
  unfold State.freeOld
  with_reducible repeat' (first | assumption | intro _ | (extract_lets +onlyGivenNames x; clear_value x; revert x; intro _) | apply Keeps.ite | apply State.freeFrom_keeps | apply State.leaveHome_keeps | apply State.keepOld_keeps)

theorem State.takeNew_keeps {s0 : State} {s : State} {d : Nat} {a : DomView} {v : DomView} (ks : Keeps s0 s) : Keeps s0 (State.takeNew s d a v) := by
  unfold State.takeNew
  with_reducible repeat' (first | assumption | intro _ | (extract_lets +onlyGivenNames x; refine Keeps.have (Q := Keeps s0 x) ?_ ?_; dsimp -zeta -iota only [x]; clear x; rotate_left; clear_value x; revert x; intro _ _) | (extract_lets +onlyGivenNames x; clear_value x; revert x; intro _) | apply Keeps.ite | apply State.setFlag_keeps | apply State.updMap_keeps | apply State.enterHome_keeps | apply State.setFld_keeps | apply State.takeTable_keeps | apply State.tally_keeps | apply State.activate_keeps | apply State.regrow_keeps)

theorem State.applyDecode_keeps {s0 : State} {s : State} (ks : Keeps s0 s) : Keeps s0 (State.applyDecode s) := by
  unfold State.applyDecode
  with_reducible repeat' (first | assumption | intro _ | (extract_lets +onlyGivenNames x; refine Keeps.have (Q := Keeps s0 x) ?_ ?_; dsimp -zeta -iota only [x]; clear x; rotate_left; clear_value x; revert x; intro _ _) | (extract_lets +onlyGivenNames x; clear_value x; revert x; intro _) | apply Keeps.ite | apply State.freeOld_keeps | apply State.takeNew_keeps | apply State.recapAll_keeps | apply State.admitTally_keeps | apply State.guarantee_keeps | apply State.adopt_keeps | apply State.zeroCut_keeps | apply State.emit_keeps | apply State.each_keeps | (simp -zeta -iota only [Keeps.mk_iff]; apply KeepsMk.of (h1 := by simp) (h2 := by simp) (h3 := by simp)))

end Sys2Proof.Machine
end

