-- ==== Sys2Proof/Laws/KeepHalf.lean ====
section
/-! SUPPORT. The operations of Machine/Half.lean break nothing (Laws/Keeps.lean). -/

namespace Sys2Proof.Machine

theorem State.updD2d_keeps {s0 : State} {s : State} {h : Half} {f : D2dEnd → D2dEnd} (ks : Keeps s0 s) : Keeps s0 (State.updD2d s h f) := by
  unfold State.updD2d
  with_reducible repeat' (first | assumption | apply State.updHalf_keeps)

theorem State.sendFlit_keeps {s0 : State} {s : State} {h : Half} {typ : Nat} {vc : Nat} {payload : List Word} (ks : Keeps s0 s) : Keeps s0 (State.sendFlit s h typ vc payload) := by
  unfold State.sendFlit
  with_reducible repeat' (first | assumption | (extract_lets +onlyGivenNames x; refine Keeps.have (Q := Keeps s0 x) ?_ ?_; dsimp -zeta -iota only [x]; clear x; rotate_left; clear_value x; revert x; intro _ _) | (extract_lets +onlyGivenNames x; clear_value x; revert x; intro _) | apply State.pulse_keeps | apply State.updD2d_keeps | apply State.emit_keeps)

theorem State.d2dReplay_keeps {s0 : State} {s : State} {h : Half} {touched : List (Fin 65536)} (ks : Keeps s0 s) : Keeps s0 (State.d2dReplay s h touched) := by
  unfold State.d2dReplay
  with_reducible repeat' (first | assumption | intro _ | (extract_lets +onlyGivenNames x; refine Keeps.have (Q := Keeps s0 x) ?_ ?_; dsimp -zeta -iota only [x]; clear x; rotate_left; clear_value x; revert x; intro _ _) | (extract_lets +onlyGivenNames x; clear_value x; revert x; intro _) | apply Keeps.ite | apply State.pulse_keeps | apply State.updD2d_keeps | apply State.replayed_keeps | apply State.raise_keeps | apply State.emit_keeps | apply State.each_keeps)

theorem State.d2dAcked_keeps {s0 : State} {s : State} {h : Half} {ack : Nat} (ks : Keeps s0 s) : Keeps s0 (State.d2dAcked s h ack) := by
  unfold State.d2dAcked
  with_reducible repeat' (first | assumption | intro _ | (extract_lets +onlyGivenNames x; refine Keeps.have (Q := Keeps s0 x) ?_ ?_; dsimp -zeta -iota only [x]; clear x; rotate_left; clear_value x; revert x; intro _ _) | (extract_lets +onlyGivenNames x; clear_value x; revert x; intro _) | apply Keeps.ite | apply State.updD2d_keeps | apply State.say_keeps | split)

theorem State.tallyOf_keeps {s0 : State} {s : State} {rid : Nat} (ks : Keeps s0 s) : Keeps s0 (State.tallyOf s rid) := by
  unfold State.tallyOf
  with_reducible repeat' (first | assumption | intro _ | apply Keeps.ite | apply State.domTally_keeps | split)

theorem State.takeFlit_keeps {s0 : State} {s : State} {h : Half} {ws : List Word} {touched : List (Fin 65536)} (ks : Keeps s0 s) : Keeps s0 (State.takeFlit s h ws touched) := by
  unfold State.takeFlit
  with_reducible repeat' (first | assumption | intro _ | (extract_lets +onlyGivenNames x; refine Keeps.have (Q := Keeps s0 x) ?_ ?_; dsimp -zeta -iota only [x]; clear x; rotate_left; clear_value x; revert x; intro _ _) | (extract_lets +onlyGivenNames x; refine Keeps.isFun x ?_; dsimp -zeta -iota only [x]; clear x) | (extract_lets +onlyGivenNames x; clear_value x; revert x; intro _) | apply Keeps.ite | apply State.pulse_keeps | apply State.carry_keeps | apply State.d2dReplay_keeps | apply State.updD2d_keeps | apply State.sendFlit_keeps | apply State.tallyOf_keeps | apply State.d2dAcked_keeps | apply State.each_keeps)

theorem execD2dFlitReceive_keeps {s0 : State} {h : Half} {words : List Word} {touched : List (Fin 65536)} {s : State} (ks : Keeps s0 s) : KeepsR s0 (execD2dFlitReceive h words touched s) := by
  unfold execD2dFlitReceive
  with_reducible repeat' (first | assumption | intro _ | apply Keeps.ite | apply State.sendFlit_keeps | apply State.takeFlit_keeps | apply KeepsR.next)

theorem execD2dFlitSend_keeps {s0 : State} {h : Half} {handshake : Bool} {vc : Fin 4} {payload : List Word} {s : State} (ks : Keeps s0 s) : KeepsR s0 (execD2dFlitSend h handshake vc payload s) := by
  unfold execD2dFlitSend
  with_reducible repeat' (first | assumption | intro _ | (extract_lets +onlyGivenNames x; clear_value x; revert x; intro _) | apply Keeps.ite | apply State.updD2d_keeps | apply State.sendFlit_keeps | apply KeepsR.next)

theorem execD2dAckOnlyTimeout_keeps {s0 : State} {h : Half} {s : State} (ks : Keeps s0 s) : KeepsR s0 (execD2dAckOnlyTimeout h s) := by
  unfold execD2dAckOnlyTimeout
  with_reducible repeat' (first | assumption | intro _ | apply Keeps.ite | apply State.sendFlit_keeps | apply KeepsR.next)

theorem execD2dReplayTimeout_keeps {s0 : State} {h : Half} {touched : List (Fin 65536)} {s : State} (ks : Keeps s0 s) : KeepsR s0 (execD2dReplayTimeout h touched s) := by
  unfold execD2dReplayTimeout
  with_reducible repeat' (first | assumption | intro _ | apply Keeps.ite | apply State.d2dReplay_keeps | apply KeepsR.next)

theorem State.updHs_keeps {s0 : State} {s : State} {h : Half} {f : HsHalf → HsHalf} (ks : Keeps s0 s) : Keeps s0 (State.updHs s h f) := by
  unfold State.updHs
  with_reducible repeat' (first | assumption | apply State.updHalf_keeps)

theorem State.sendClaim_keeps {s0 : State} {s : State} {h : Half} {round : Nat} (ks : Keeps s0 s) : Keeps s0 (State.sendClaim s h round) := by
  unfold State.sendClaim
  with_reducible repeat' (first | assumption | (extract_lets +onlyGivenNames x; refine Keeps.have (Q := Keeps s0 x) ?_ ?_; dsimp -zeta -iota only [x]; clear x; rotate_left; clear_value x; revert x; intro _ _) | apply State.updHs_keeps | apply State.emit_keeps)

theorem State.roundFailed_keeps {s0 : State} {s : State} {h : Half} (ks : Keeps s0 s) : Keeps s0 (State.roundFailed s h) := by
  unfold State.roundFailed
  with_reducible repeat' (first | assumption | apply State.updHs_keeps)

theorem State.bootHold_keeps {s0 : State} {s : State} (ks : Keeps s0 s) : Keeps s0 (State.bootHold s) := by
  unfold State.bootHold
  with_reducible repeat' (first | assumption | intro _ | (extract_lets +onlyGivenNames x; refine Keeps.have (Q := Keeps s0 x) ?_ ?_; dsimp -zeta -iota only [x]; clear x; rotate_left; clear_value x; revert x; intro _ _) | (extract_lets +onlyGivenNames x; clear_value x; revert x; intro _) | apply Keeps.ite | apply State.setFlag_keeps | apply State.logRecord_keeps | apply State.setFld_keeps | apply State.assertErr_keeps | apply State.enterPhase_keeps)

theorem State.handshakeDone_keeps {s0 : State} {s : State} {h : Half} {peer : ClaimMsg} {leader : BitVec 32} (ks : Keeps s0 s) : Keeps s0 (State.handshakeDone s h peer leader) := by
  unfold State.handshakeDone
  with_reducible repeat' (first | assumption | intro _ | (extract_lets +onlyGivenNames x; refine Keeps.have (Q := Keeps s0 x) ?_ ?_; dsimp -zeta -iota only [x]; clear x; rotate_left; clear_value x; revert x; intro _ _) | (extract_lets +onlyGivenNames x; clear_value x; revert x; intro _) | apply Keeps.ite | apply State.updHs_keeps | apply State.setFld_keeps | apply State.enterPhase_keeps | apply State.say_keeps)

theorem execClaim_keeps {s0 : State} {h : Half} {msg : ClaimMsg} {s : State} (ks : Keeps s0 s) : KeepsR s0 (execClaim h msg s) := by
  unfold execClaim
  with_reducible repeat' (first | assumption | intro _ | (extract_lets +onlyGivenNames x; refine Keeps.have (Q := Keeps s0 x) ?_ ?_; dsimp -zeta -iota only [x]; clear x; rotate_left; clear_value x; revert x; intro _ _) | apply Keeps.ite | apply State.updHs_keeps | apply State.roundFailed_keeps | apply State.emit_keeps | apply KeepsR.next)

theorem execEcho_keeps {s0 : State} {h : Half} {returned : ClaimMsg} {own : ClaimMsg} {s : State} (ks : Keeps s0 s) : KeepsR s0 (execEcho h returned own s) := by
  unfold execEcho
  with_reducible repeat' (first | assumption | intro _ | (extract_lets +onlyGivenNames x; refine Keeps.have (Q := Keeps s0 x) ?_ ?_; dsimp -zeta -iota only [x]; clear x; rotate_left; clear_value x; revert x; intro _ _) | (extract_lets +onlyGivenNames x; clear_value x; revert x; intro _) | apply Keeps.ite | apply State.updHs_keeps | apply State.roundFailed_keeps | apply State.emit_keeps | apply KeepsR.next | split)

theorem execConfirm_keeps {s0 : State} {h : Half} {leaderId : BitVec 32} {s : State} (ks : Keeps s0 s) : KeepsR s0 (execConfirm h leaderId s) := by
  unfold execConfirm
  with_reducible repeat' (first | assumption | intro _ | apply Keeps.ite | apply State.handshakeDone_keeps | apply State.roundFailed_keeps | apply KeepsR.next | split)

theorem execHandshakeTimeout_keeps {s0 : State} {h : Half} {s : State} (ks : Keeps s0 s) : KeepsR s0 (execHandshakeTimeout h s) := by
  unfold execHandshakeTimeout
  with_reducible repeat' (first | assumption | apply State.roundFailed_keeps | apply KeepsR.next | split)

theorem execHandshakeRetry_keeps {s0 : State} {h : Half} {s : State} (ks : Keeps s0 s) : KeepsR s0 (execHandshakeRetry h s) := by
  unfold execHandshakeRetry
  with_reducible repeat' (first | assumption | intro _ | apply Keeps.ite | apply State.updHs_keeps | apply State.bootHold_keeps | apply State.sendClaim_keeps | apply KeepsR.next)

theorem execD2dTrainDone_keeps {s0 : State} {failingA : List Nat} {failingB : List Nat} {creditsA : List Nat} {creditsB : List Nat} {s : State} (ks : Keeps s0 s) : KeepsR s0 (execD2dTrainDone failingA failingB creditsA creditsB s) := by
  unfold execD2dTrainDone
  with_reducible repeat' (first | assumption | intro _ | (extract_lets +onlyGivenNames x; refine Keeps.have (Q := Keeps s0 x) ?_ ?_; dsimp -zeta -iota only [x]; clear x; rotate_left; clear_value x; revert x; intro _ _) | (extract_lets +onlyGivenNames x; refine Keeps.isFun x ?_; dsimp -zeta -iota only [x]; clear x) | apply Keeps.ite | apply State.updD2d_keeps | apply State.sendClaim_keeps | apply KeepsR.next)

theorem execD2dTrainTimeout_keeps {s0 : State} {s : State} (ks : Keeps s0 s) : KeepsR s0 (execD2dTrainTimeout s) := by
  unfold execD2dTrainTimeout
  with_reducible repeat' (first | assumption | intro _ | apply Keeps.ite | apply State.updHs_keeps | apply State.roundFailed_keeps | apply KeepsR.next | apply State.each_keeps)

theorem execShorePortWord_keeps {s0 : State} {h : Half} {toShore : Bool} {word : ShoreWord} {parity : Bool} {s : State} (ks : Keeps s0 s) : KeepsR s0 (execShorePortWord h toShore word parity s) := by
  unfold execShorePortWord
  with_reducible repeat' (first | assumption | intro _ | (extract_lets +onlyGivenNames x; refine Keeps.isFun x ?_; dsimp -zeta -iota only [x]; clear x) | (extract_lets +onlyGivenNames x; clear_value x; revert x; intro _) | apply Keeps.ite | apply State.updHalf_keeps | apply State.raise_keeps | apply State.emit_keeps | apply KeepsR.next)

theorem State.alignHalf_keeps {s0 : State} {s : State} {h : Half} {drift : Int} (ks : Keeps s0 s) : Keeps s0 (State.alignHalf s h drift) := by
  unfold State.alignHalf
  with_reducible repeat' (first | assumption | intro _ | (extract_lets +onlyGivenNames x; refine Keeps.isFun x ?_; dsimp -zeta -iota only [x]; clear x) | (extract_lets +onlyGivenNames x; clear_value x; revert x; intro _) | apply Keeps.ite | apply State.setFlag_keeps | apply State.say_keeps | (simp -zeta -iota only [Keeps.mk_iff]; apply KeepsMk.of (h1 := by simp) (h2 := by simp) (h3 := by simp)))

theorem execTbAlignCheck_keeps {s0 : State} {driftA : Int} {driftB : Int} {s : State} (ks : Keeps s0 s) : KeepsR s0 (execTbAlignCheck driftA driftB s) := by
  unfold execTbAlignCheck
  with_reducible repeat' (first | assumption | apply State.alignHalf_keeps | apply KeepsR.next)

theorem State.releaseCores_keeps {s0 : State} {s : State} (ks : Keeps s0 s) : Keeps s0 (State.releaseCores s) := by
  unfold State.releaseCores
  with_reducible repeat' (first | assumption | intro _ | (extract_lets +onlyGivenNames x; refine Keeps.have (Q := Keeps s0 x) ?_ ?_; dsimp -zeta -iota only [x]; clear x; rotate_left; clear_value x; revert x; intro _ _) | (extract_lets +onlyGivenNames x; clear_value x; revert x; intro _) | apply Keeps.ite | apply State.setFlag_keeps | apply State.assertErr_keeps | apply State.enterPhase_keeps | (simp -zeta -iota only [Keeps.mk_iff]; apply KeepsMk.of (h1 := by simp) (h2 := by simp) (h3 := by simp)))

theorem execSramFillDone_keeps {s0 : State} {h : Half} {failed : List (Fin 16)} {s : State} (ks : Keeps s0 s) : KeepsR s0 (execSramFillDone h failed s) := by
  unfold execSramFillDone
  with_reducible repeat' (first | assumption | intro _ | (extract_lets +onlyGivenNames x; refine Keeps.have (Q := Keeps s0 x) ?_ ?_; dsimp -zeta -iota only [x]; clear x; rotate_left; clear_value x; revert x; intro _ _) | apply Keeps.ite | apply State.updHalf_keeps | apply State.raise_keeps | apply State.releaseCores_keeps | apply KeepsR.next | apply State.each_keeps)

theorem State.coreLoss_keeps {s0 : State} {s : State} {h : Half} (ks : Keeps s0 s) : Keeps s0 (State.coreLoss s h) := by
  unfold State.coreLoss
  with_reducible repeat' (first | assumption | intro _ | (extract_lets +onlyGivenNames x; refine Keeps.have (Q := Keeps s0 x) ?_ ?_; dsimp -zeta -iota only [x]; clear x; rotate_left; clear_value x; revert x; intro _ _) | apply Keeps.ite | apply State.updHalf_keeps | apply State.raise_keeps)

theorem execTcmUncorrectable_keeps {s0 : State} {h : Half} {s : State} (ks : Keeps s0 s) : KeepsR s0 (execTcmUncorrectable h s) := by
  unfold execTcmUncorrectable
  with_reducible repeat' (first | assumption | apply State.coreLoss_keeps | apply KeepsR.next)

theorem execWatchdogExpiry_keeps {s0 : State} {h : Half} {s : State} (ks : Keeps s0 s) : KeepsR s0 (execWatchdogExpiry h s) := by
  unfold execWatchdogExpiry
  with_reducible repeat' (first | assumption | apply State.coreLoss_keeps | apply KeepsR.next)

end Sys2Proof.Machine
end

