-- ==== Sys2Proof/Laws/KeepPorts.lean ====
section
/-! SUPPORT. The operations of Machine/Ports.lean break nothing (Laws/Keeps.lean). -/

namespace Sys2Proof.Machine

theorem State.config_keeps {s0 : State} {s : State} {p : Nat} {ld : Nat} {f : State → State} (ks : Keeps s0 s) (hff : ∀ u, Keeps s0 u → Keeps s0 (f u)) : Keeps s0 (State.config s p ld f) := by
  unfold State.config
  with_reducible repeat' (first | assumption | intro _ | apply Keeps.ite | apply hff | apply State.emit_keeps)

theorem State.portTrained_keeps {s0 : State} {s : State} {p : Nat} {rate : Nat} {width : Nat} {latOpt : Bool} (ks : Keeps s0 s) : Keeps s0 (State.portTrained s p rate width latOpt) := by
  unfold State.portTrained
  with_reducible repeat' (first | assumption | intro _ | (extract_lets +onlyGivenNames x; refine Keeps.have (Q := Keeps s0 x) ?_ ?_; dsimp -zeta -iota only [x]; clear x; rotate_left; clear_value x; revert x; intro _ _) | apply Keeps.ite | apply State.setFlag_keeps | apply State.setFld_keeps | apply State.say_keeps | apply State.updPort_keeps | split)

theorem State.portTrain_keeps {s0 : State} {s : State} {p : Nat} {flitMode : Bool} {latOpt : Bool} {hostRates : Nat} {eqOk : Nat} {goodLanes : Nat} (ks : Keeps s0 s) : Keeps s0 (State.portTrain s p flitMode latOpt hostRates eqOk goodLanes) := by
  unfold State.portTrain
  with_reducible repeat' (first | assumption | intro _ | (extract_lets +onlyGivenNames x; refine Keeps.have (Q := Keeps s0 x) ?_ ?_; dsimp -zeta -iota only [x]; clear x; rotate_left; clear_value x; revert x; intro _ _) | apply Keeps.ite | apply State.setFld_keeps | apply State.say_keeps | apply State.portTrained_keeps | apply State.updPort_keeps | split)

theorem execPortLinkTrain_keeps {s0 : State} {p : Fin 16} {flitMode : Bool} {latOpt : Bool} {hostRates : BitVec 7} {eqOk : BitVec 7} {goodLanes : BitVec 16} {s : State} (ks : Keeps s0 s) : KeepsR s0 (execPortLinkTrain p flitMode latOpt hostRates eqOk goodLanes s) := by
  unfold execPortLinkTrain
  with_reducible repeat' (first | assumption | apply State.portTrain_keeps | apply KeepsR.next)

theorem State.hostReplay_keeps {s0 : State} {s : State} {p : Nat} {touched : List (Fin 65536)} (ks : Keeps s0 s) : Keeps s0 (State.hostReplay s p touched) := by
  unfold State.hostReplay
  with_reducible repeat' (first | assumption | intro _ | apply Keeps.ite | apply State.replayed_keeps | apply State.count_keeps | apply State.each_keeps)

theorem execHostLinkReplay_keeps {s0 : State} {p : Fin 16} {touched : List (Fin 65536)} {s : State} (ks : Keeps s0 s) : KeepsR s0 (execHostLinkReplay p touched s) := by
  unfold execHostLinkReplay
  with_reducible repeat' (first | assumption | apply State.hostReplay_keeps | apply KeepsR.next)

theorem State.portLost_keeps {s0 : State} {s : State} {p : Nat} (ks : Keeps s0 s) : Keeps s0 (State.portLost s p) := by
  unfold State.portLost
  with_reducible repeat' (first | assumption | intro _ | apply Keeps.ite | apply State.linkLost_keeps)

theorem execLinkLoss_keeps {s0 : State} {p : Fin 16} {s : State} (ks : Keeps s0 s) : KeepsR s0 (execLinkLoss p s) := by
  unfold execLinkLoss
  with_reducible repeat' (first | assumption | apply State.portLost_keeps | apply KeepsR.next)

theorem State.linkState_keeps {s0 : State} {s : State} {p : Nat} {new : LinkState} (ks : Keeps s0 s) : Keeps s0 (State.linkState s p new) := by
  unfold State.linkState
  with_reducible repeat' (first | assumption | intro _ | apply Keeps.ite | apply State.portLost_keeps | apply State.updPort_keeps | split)

theorem execHostLinkStateChange_keeps {s0 : State} {p : Fin 16} {new : LinkState} {s : State} (ks : Keeps s0 s) : KeepsR s0 (execHostLinkStateChange p new s) := by
  unfold execHostLinkStateChange
  with_reducible repeat' (first | assumption | apply State.linkState_keeps | apply KeepsR.next)

theorem execPerstAssert_keeps {s0 : State} {p : Fin 16} {s : State} (ks : Keeps s0 s) : KeepsR s0 (execPerstAssert p s) := by
  unfold execPerstAssert
  with_reducible repeat' (first | assumption | (extract_lets +onlyGivenNames x; refine Keeps.have (Q := Keeps s0 x) ?_ ?_; dsimp -zeta -iota only [x]; clear x; rotate_left; clear_value x; revert x; intro _ _) | apply State.setFlag_keeps | apply State.portLost_keeps | apply State.updPort_keeps | apply KeepsR.next)

theorem execPerstRelease_keeps {s0 : State} {p : Fin 16} {s : State} (ks : Keeps s0 s) : KeepsR s0 (execPerstRelease p s) := by
  unfold execPerstRelease
  with_reducible repeat' (first | assumption | intro _ | (extract_lets +onlyGivenNames x; refine Keeps.have (Q := Keeps s0 x) ?_ ?_; dsimp -zeta -iota only [x]; clear x; rotate_left; clear_value x; revert x; intro _ _) | apply Keeps.ite | apply State.wake_keeps | apply State.updPort_keeps | apply KeepsR.next)

theorem execFlrStart_keeps {s0 : State} {p : Fin 16} {ld : Fin 17} {s : State} (ks : Keeps s0 s) : KeepsR s0 (execFlrStart p ld s) := by
  unfold execFlrStart
  with_reducible repeat' (first | assumption | intro _ | apply State.startFlr_keeps | apply State.config_keeps | apply KeepsR.next)

theorem State.flrDone_keeps {s0 : State} {s : State} {fn : Nat} (ks : Keeps s0 s) : Keeps s0 (State.flrDone s fn) := by
  unfold State.flrDone
  with_reducible repeat' (first | assumption | intro _ | apply Keeps.ite | apply State.setFlag_keeps | apply State.resetFunc_keeps)

theorem execFlrDone_keeps {s0 : State} {p : Fin 16} {ld : Fin 17} {s : State} (ks : Keeps s0 s) : KeepsR s0 (execFlrDone p ld s) := by
  unfold execFlrDone
  with_reducible repeat' (first | assumption | apply State.flrDone_keeps | apply KeepsR.next)

theorem State.bmeClear_keeps {s0 : State} {s : State} {fn : Nat} (ks : Keeps s0 s) : Keeps s0 (State.bmeClear s fn) := by
  unfold State.bmeClear
  with_reducible repeat' (first | assumption | (extract_lets +onlyGivenNames x; refine Keeps.have (Q := Keeps s0 x) ?_ ?_; dsimp -zeta -iota only [x]; clear x; rotate_left; clear_value x; revert x; intro _ _) | apply State.updFunc_keeps | apply State.stopRings_keeps)

theorem execBmeClear_keeps {s0 : State} {p : Fin 16} {ld : Fin 17} {s : State} (ks : Keeps s0 s) : KeepsR s0 (execBmeClear p ld s) := by
  unfold execBmeClear
  with_reducible repeat' (first | assumption | intro _ | apply State.config_keeps | apply State.bmeClear_keeps | apply KeepsR.next)

theorem State.bmeSet_keeps {s0 : State} {s : State} {fn : Nat} (ks : Keeps s0 s) : Keeps s0 (State.bmeSet s fn) := by
  unfold State.bmeSet
  with_reducible repeat' (first | assumption | intro _ | (extract_lets +onlyGivenNames x; refine Keeps.have (Q := Keeps s0 x) ?_ ?_; dsimp -zeta -iota only [x]; clear x; rotate_left; clear_value x; revert x; intro _ _) | apply Keeps.ite | apply State.setBit_keeps | apply State.updFunc_keeps | apply State.emit_keeps | apply State.each_keeps)

theorem execBmeSet_keeps {s0 : State} {p : Fin 16} {ld : Fin 17} {s : State} (ks : Keeps s0 s) : KeepsR s0 (execBmeSet p ld s) := by
  unfold execBmeSet
  with_reducible repeat' (first | assumption | intro _ | apply State.config_keeps | apply State.bmeSet_keeps | apply KeepsR.next)

theorem State.freeTag_keeps {s0 : State} {s : State} {fn : Nat} {tag : Nat} (ks : Keeps s0 s) : Keeps s0 (State.freeTag s fn tag) := by
  unfold State.freeTag
  with_reducible repeat' (first | assumption | apply State.updFunc_keeps)

theorem execCxlioCompletion_keeps {s0 : State} {p : Fin 16} {ld : Fin 17} {tag : Nat} {data00 : List Byte} {s : State} (ks : Keeps s0 s) : KeepsR s0 (execCxlioCompletion p ld tag data00 s) := by
  unfold execCxlioCompletion
  with_reducible repeat' (first | assumption | apply State.freeTag_keeps | apply KeepsR.next)

theorem execCxlioCompletionTimeout_keeps {s0 : State} {p : Fin 16} {ld : Fin 17} {tag : Nat} {s : State} (ks : Keeps s0 s) : KeepsR s0 (execCxlioCompletionTimeout p ld tag s) := by
  unfold execCxlioCompletionTimeout
  with_reducible repeat' (first | assumption | intro _ | (extract_lets +onlyGivenNames x; clear_value x; revert x; intro _) | apply Keeps.ite | apply State.freeTag_keeps | apply State.dmaFail_keeps | apply KeepsR.next | split)

theorem execBarSizingWrite_keeps {s0 : State} {p : Fin 16} {ld : Fin 17} {bar : Fin 6} {s : State} (ks : Keeps s0 s) : KeepsR s0 (execBarSizingWrite p ld bar s) := by
  unfold execBarSizingWrite
  with_reducible repeat' (first | assumption | intro _ | (extract_lets +onlyGivenNames x; clear_value x; revert x; intro _) | apply State.updFunc_keeps | apply State.config_keeps | apply State.emit_keeps | apply KeepsR.next)

theorem State.badAccess_keeps {s0 : State} {s : State} {p : Nat} {ld : Nat} {isRead : Bool} (ks : Keeps s0 s) : Keeps s0 (State.badAccess s p ld isRead) := by
  unfold State.badAccess
  with_reducible repeat' (first | assumption | intro _ | (extract_lets +onlyGivenNames x; refine Keeps.have (Q := Keeps s0 x) ?_ ?_; dsimp -zeta -iota only [x]; clear x; rotate_left; clear_value x; revert x; intro _ _) | apply Keeps.ite | apply State.count_keeps | apply State.emit_keeps)

theorem execBarBadAccess_keeps {s0 : State} {p : Fin 16} {ld : Fin 17} {isRead : Bool} {s : State} (ks : Keeps s0 s) : KeepsR s0 (execBarBadAccess p ld isRead s) := by
  unfold execBarBadAccess
  with_reducible repeat' (first | assumption | apply State.badAccess_keeps | apply KeepsR.next)

theorem State.featureLock_keeps {s0 : State} {s : State} {fn : Nat} (ks : Keeps s0 s) : Keeps s0 (State.featureLock s fn) := by
  unfold State.featureLock
  with_reducible repeat' (first | assumption | intro _ | (extract_lets +onlyGivenNames x; refine Keeps.have (Q := Keeps s0 x) ?_ ?_; dsimp -zeta -iota only [x]; clear x; rotate_left; clear_value x; revert x; intro _ _) | (extract_lets +onlyGivenNames x; clear_value x; revert x; intro _) | apply Keeps.ite | apply State.setFlag_keeps | apply State.setFld_keeps | apply State.updFunc_keeps | apply State.each_keeps)

theorem execFeatureLock_keeps {s0 : State} {p : Fin 16} {ld : Fin 17} {s : State} (ks : Keeps s0 s) : KeepsR s0 (execFeatureLock p ld s) := by
  unfold execFeatureLock
  with_reducible repeat' (first | assumption | intro _ | apply State.featureLock_keeps | apply State.barWrite_keeps | apply KeepsR.next)

theorem State.hdmCommit_keeps {s0 : State} {s : State} {p : Nat} {id : Nat} {i : Nat} {base : Nat} {size : Nat} {skip : Nat} {ways : Nat} {gran : Nat} {bi : Bool} (ks : Keeps s0 s) : Keeps s0 (State.hdmCommit s p id i base size skip ways gran bi) := by
  unfold State.hdmCommit
  with_reducible repeat' (first | assumption | intro _ | (extract_lets +onlyGivenNames x; clear_value x; revert x; intro _) | apply Keeps.ite | (simp -zeta -iota only [Keeps.mk_iff]; apply KeepsMk.of (h1 := by simp) (h2 := by simp) (h3 := by simp)))

theorem execHdmDecoderCommit_keeps {s0 : State} {p : Fin 16} {id : Fin 4096} {i : Fin 8} {base : Nat} {size : Nat} {skip : Nat} {ways : Nat} {granularity : Nat} {bi : Bool} {s : State} (ks : Keeps s0 s) : KeepsR s0 (execHdmDecoderCommit p id i base size skip ways granularity bi s) := by
  unfold execHdmDecoderCommit
  with_reducible repeat' (first | assumption | apply State.hdmCommit_keeps | apply KeepsR.next)

theorem execDoeDiscovery_keeps {s0 : State} {p : Fin 16} {ld : Fin 17} {index : BitVec 8} {s : State} (ks : Keeps s0 s) : KeepsR s0 (execDoeDiscovery p ld index s) := by
  unfold execDoeDiscovery
  with_reducible repeat' (first | assumption | intro _ | apply State.config_keeps | apply State.emit_keeps | apply KeepsR.next)

theorem execDoeCdatRead_keeps {s0 : State} {p : Fin 16} {ld : Fin 17} {s : State} (ks : Keeps s0 s) : KeepsR s0 (execDoeCdatRead p ld s) := by
  unfold execDoeCdatRead
  with_reducible repeat' (first | assumption | intro _ | apply State.config_keeps | apply State.emit_keeps | apply KeepsR.next)

theorem execIdeKmKeyProg_keeps {s0 : State} {p : Fin 16} {mem : Bool} {keySet : Bool} {tx : Bool} {skid : Bool} {key : BitVec 256} {s : State} (ks : Keeps s0 s) : KeepsR s0 (execIdeKmKeyProg p mem keySet tx skid key s) := by
  unfold execIdeKmKeyProg
  with_reducible repeat' (first | assumption | intro _ | (extract_lets +onlyGivenNames x; clear_value x; revert x; intro _) | apply State.config_keeps | apply State.updPort_keeps | apply KeepsR.next)

theorem execIdeKmKSetGo_keeps {s0 : State} {p : Fin 16} {mem : Bool} {keySet : Bool} {s : State} (ks : Keeps s0 s) : KeepsR s0 (execIdeKmKSetGo p mem keySet s) := by
  unfold execIdeKmKSetGo
  with_reducible repeat' (first | assumption | intro _ | (extract_lets +onlyGivenNames x; clear_value x; revert x; intro _) | apply Keeps.ite | apply State.config_keeps | apply State.updPort_keeps | apply KeepsR.next)

end Sys2Proof.Machine
end

