-- ==== Sys2Proof/Laws/KeepCommit.lean ====
section
/-! SUPPORT. The operations of Machine/Commit.lean break nothing (Laws/Keeps.lean). -/

namespace Sys2Proof.Machine

theorem State.checkQos_keeps {s0 : State} {s : State} (ks : Keeps s0 s) : Keeps1 s0 (State.checkQos s) := by
  unfold State.checkQos
  with_reducible repeat' (first | assumption | (extract_lets +onlyGivenNames x; clear_value x; revert x; intro _) | apply State.setFlag_keeps | apply State.setFld_keeps | (simp -zeta -iota only [Keeps1.pair]) | split)

theorem State.applyQos_keeps {s0 : State} {s : State} (ks : Keeps s0 s) : Keeps s0 (State.applyQos s) := by
  unfold State.applyQos
  with_reducible repeat' (first | assumption | (extract_lets +onlyGivenNames x; refine Keeps.have (Q := Keeps s0 x) ?_ ?_; dsimp -zeta -iota only [x]; clear x; rotate_left; clear_value x; revert x; intro _ _) | (extract_lets +onlyGivenNames x; refine Keeps.isFun x ?_; dsimp -zeta -iota only [x]; clear x) | apply State.guarantee_keeps | apply State.adopt_keeps | (simp -zeta -iota only [Keeps.mk_iff]; apply KeepsMk.of (h1 := by simp) (h2 := by simp) (h3 := by simp)))

theorem State.checkTables_keeps {s0 : State} {s : State} (ks : Keeps s0 s) : Keeps1 s0 (State.checkTables s) := by
  unfold State.checkTables
  with_reducible repeat' (first | assumption | apply State.setFlag_keeps | apply State.setFld_keeps | (simp -zeta -iota only [Keeps1.pair]) | split)

theorem State.applyTables_keeps {s0 : State} {s : State} {t00 : Nat} (ks : Keeps s0 s) : Keeps s0 (State.applyTables s t00) := by
  unfold State.applyTables
  with_reducible repeat' (first | assumption | intro _ | (extract_lets +onlyGivenNames x; clear_value x; revert x; intro _) | apply State.setFlag_keeps | apply State.setFld_keeps | apply State.sealTally_keeps | apply State.updSched_keeps | apply State.each_keeps)

theorem State.checkMirror_keeps {s0 : State} {s : State} (ks : Keeps s0 s) : Keeps1 s0 (State.checkMirror s) := by
  unfold State.checkMirror
  with_reducible repeat' (first | assumption | intro _ | (extract_lets +onlyGivenNames x; refine Keeps.have (Q := Keeps s0 x) ?_ ?_; dsimp -zeta -iota only [x]; clear x; rotate_left; clear_value x; revert x; intro _ _) | (extract_lets +onlyGivenNames x; clear_value x; revert x; intro _) | apply State.setFlag_keeps | apply State.setFld_keeps | (simp -zeta -iota only [Keeps1.pair]) | apply State.each_keeps | split)

theorem State.drainedKeys_keeps {s0 : State} {s : State} {l : Nat} (ks : Keeps s0 s) : Keeps s0 (State.drainedKeys s l) := by
  unfold State.drainedKeys
  with_reducible repeat' (first | assumption | intro _ | (extract_lets +onlyGivenNames x; refine Keeps.have (Q := Keeps s0 x) ?_ ?_; dsimp -zeta -iota only [x]; clear x; rotate_left; clear_value x; revert x; intro _ _) | (extract_lets +onlyGivenNames x; clear_value x; revert x; intro _) | apply Keeps.ite | apply State.setFlag_keeps | apply State.setFld_keeps | (simp -zeta -iota only [Keeps.mk_iff]; apply KeepsMk.of (h1 := by simp) (h2 := by simp) (h3 := by simp)) | split)

theorem State.switchKeys_keeps {s0 : State} {s : State} {l : Nat} {set : Nat} (ks : Keeps s0 s) : Keeps s0 (State.switchKeys s l set) := by
  unfold State.switchKeys
  with_reducible repeat' (first | assumption | intro _ | (extract_lets +onlyGivenNames x; refine Keeps.have (Q := Keeps s0 x) ?_ ?_; dsimp -zeta -iota only [x]; clear x; rotate_left; clear_value x; revert x; intro _ _) | (extract_lets +onlyGivenNames x; clear_value x; revert x; intro _) | apply Keeps.ite | apply State.setFlag_keeps | apply State.drainedKeys_keeps | apply State.setFld_keeps | (simp -zeta -iota only [Keeps.mk_iff]; apply KeepsMk.of (h1 := by simp) (h2 := by simp) (h3 := by simp)))

theorem State.leaveMirror_keeps {s0 : State} {s : State} {d : Nat} (ks : Keeps s0 s) : Keeps s0 (State.leaveMirror s d) := by
  unfold State.leaveMirror
  with_reducible repeat' (first | assumption | intro _ | (extract_lets +onlyGivenNames x; refine Keeps.have (Q := Keeps s0 x) ?_ ?_; dsimp -zeta -iota only [x]; clear x; rotate_left; clear_value x; revert x; intro _ _) | (extract_lets +onlyGivenNames x; clear_value x; revert x; intro _) | apply Keeps.ite | apply State.setFlag_keeps | apply State.goSolo_keeps | apply State.updMirDom_keeps | (simp -zeta -iota only [Keeps.mk_iff]; apply KeepsMk.of (h1 := by simp) (h2 := by simp) (h3 := by simp)))

theorem State.logGrant_keeps {s0 : State} {s : State} {d : Nat} (ks : Keeps s0 s) : Keeps s0 (State.logGrant s d) := by
  unfold State.logGrant
  with_reducible repeat' (first | assumption | intro _ | apply Keeps.ite | apply State.updMirDom_keeps)

theorem State.grantRole_keeps {s0 : State} {s : State} {d : Nat} (ks : Keeps s0 s) : Keeps s0 (State.grantRole s d) := by
  unfold State.grantRole
  with_reducible repeat' (first | assumption | intro _ | (extract_lets +onlyGivenNames x; refine Keeps.have (Q := Keeps s0 x) ?_ ?_; dsimp -zeta -iota only [x]; clear x; rotate_left; clear_value x; revert x; intro _ _) | (extract_lets +onlyGivenNames x; clear_value x; revert x; intro _) | apply Keeps.ite | apply State.setFlag_keeps | apply State.updMirDom_keeps | apply State.toFm_keeps | apply State.setFld_keeps | apply State.mirSay_keeps | apply State.setMState_keeps | split)

theorem State.modeSwitch_keeps {s0 : State} {s : State} {d : Nat} {was : Nat} (ks : Keeps s0 s) : Keeps s0 (State.modeSwitch s d was) := by
  unfold State.modeSwitch
  with_reducible repeat' (first | assumption | intro _ | (extract_lets +onlyGivenNames x; refine Keeps.have (Q := Keeps s0 x) ?_ ?_; dsimp -zeta -iota only [x]; clear x; rotate_left; clear_value x; revert x; intro _ _) | (extract_lets +onlyGivenNames x; clear_value x; revert x; intro _) | apply Keeps.ite | apply State.updMirDom_keeps | apply State.takeCut_keeps | split)

theorem State.tryMatch_keeps {s0 : State} {s : State} {d : Nat} (ks : Keeps s0 s) : Keeps s0 (State.tryMatch s d) := by
  unfold State.tryMatch
  with_reducible repeat' (first | assumption | intro _ | apply Keeps.ite | apply State.matchMove_keeps | split)

theorem State.switchDomain_keeps {s0 : State} {s : State} {d : Nat} {old : Nat × Nat × Nat × Nat} (ks : Keeps s0 s) : Keeps s0 (State.switchDomain s d old) := by
  unfold State.switchDomain
  with_reducible repeat' (first | assumption | intro _ | (extract_lets +onlyGivenNames x; refine Keeps.have (Q := Keeps s0 x) ?_ ?_; dsimp -zeta -iota only [x]; clear x; rotate_left; clear_value x; revert x; intro _ _) | (extract_lets +onlyGivenNames x; clear_value x; revert x; intro _) | apply Keeps.ite | apply State.logGrant_keeps | apply State.setFld_keeps | apply State.setMState_keeps | apply State.tryMatch_keeps | apply State.sendRole_keeps | apply State.grantRole_keeps | apply State.leaveMirror_keeps | apply State.modeSwitch_keeps)

theorem State.applyMirror_keeps {s0 : State} {s : State} (ks : Keeps s0 s) : Keeps s0 (State.applyMirror s) := by
  unfold State.applyMirror
  with_reducible repeat' (first | assumption | intro _ | (extract_lets +onlyGivenNames x; refine Keeps.have (Q := Keeps s0 x) ?_ ?_; dsimp -zeta -iota only [x]; clear x; rotate_left; clear_value x; revert x; intro _ _) | (extract_lets +onlyGivenNames x; clear_value x; revert x; intro _) | apply Keeps.ite | apply State.switchKeys_keeps | apply State.switchDomain_keeps | apply State.adopt_keeps | apply State.each_keeps)

theorem State.checkPower_keeps {s0 : State} {s : State} {later : Bool} (ks : Keeps s0 s) : Keeps1 s0 (State.checkPower s later) := by
  unfold State.checkPower
  with_reducible repeat' (first | assumption | intro _ | (extract_lets +onlyGivenNames x; clear_value x; revert x; intro _) | apply Keeps1.ite | apply State.setFlag_keeps | apply State.setFld_keeps | (simp -zeta -iota only [Keeps1.pair]))

theorem State.applyPower_keeps {s0 : State} {s : State} (ks : Keeps s0 s) : Keeps s0 (State.applyPower s) := by
  unfold State.applyPower
  with_reducible repeat' (first | assumption | (extract_lets +onlyGivenNames x; refine Keeps.have (Q := Keeps s0 x) ?_ ?_; dsimp -zeta -iota only [x]; clear x; rotate_left; clear_value x; revert x; intro _ _) | apply State.startEntry_keeps | apply State.adopt_keeps | apply State.dvfsAll_keeps | split)

theorem State.checkGroups_keeps {s0 : State} {s : State} {groups : Nat} {later : Bool} (ks : Keeps s0 s) : Keeps1 s0 (State.checkGroups s groups later) := by
  unfold State.checkGroups
  with_reducible repeat' (first | assumption | intro _ | (extract_lets +onlyGivenNames x; refine Keeps.isFun x ?_; dsimp -zeta -iota only [x]; clear x) | apply Keeps1.ite | apply State.checkQos_keeps | apply State.checkTables_keeps | apply State.checkMirror_keeps | apply State.checkPower_keeps | apply State.checkDecode_keeps | (simp -zeta -iota only [Keeps1.pair]) | apply Keeps1.foldl | (refine Keeps1.eq (by assumption) ?_) | (exact Keeps1.out (by assumption)) | split)

theorem State.commitResult_keeps {s0 : State} {s : State} {code : Nat} {tag : Nat} {t00 : Nat} {refused : Nat} (ks : Keeps s0 s) : Keeps s0 (State.commitResult s code tag t00 refused) := by
  unfold State.commitResult
  with_reducible repeat' (first | assumption | (extract_lets +onlyGivenNames x; refine Keeps.have (Q := Keeps s0 x) ?_ ?_; dsimp -zeta -iota only [x]; clear x; rotate_left; clear_value x; revert x; intro _ _) | apply State.setFlag_keeps | apply State.setFld_keeps)

theorem State.submit_keeps {s0 : State} {s : State} {v : Nat} (ks : Keeps s0 s) : Keeps s0 (State.submit s v) := by
  unfold State.submit
  with_reducible repeat' (first | assumption | intro _ | (extract_lets +onlyGivenNames x; clear_value x; revert x; intro _) | apply Keeps.ite | apply State.sealTally_keeps | apply State.commitResult_keeps | (refine (State.checkGroups_keeps ?_).out) | (simp -zeta -iota only [Keeps.mk_iff]; apply KeepsMk.of (h1 := by simp) (h2 := by simp) (h3 := by simp)))

theorem State.cancel_keeps {s0 : State} {s : State} {v : Nat} (ks : Keeps s0 s) : Keeps s0 (State.cancel s v) := by
  unfold State.cancel
  with_reducible repeat' (first | assumption | intro _ | (extract_lets +onlyGivenNames x; clear_value x; revert x; intro _) | apply Keeps.ite | apply State.sealTally_keeps | apply State.commitResult_keeps | (simp -zeta -iota only [Keeps.mk_iff]; apply KeepsMk.of (h1 := by simp) (h2 := by simp) (h3 := by simp)) | split)

theorem State.applyGroups_keeps {s0 : State} {s : State} {groups : Nat} {t00 : Nat} (ks : Keeps s0 s) : Keeps s0 (State.applyGroups s groups t00) := by
  unfold State.applyGroups
  with_reducible repeat' (first | assumption | intro _ | apply State.applyDecode_keeps | apply State.applyQos_keeps | apply State.applyTables_keeps | apply State.applyMirror_keeps | apply State.applyPower_keeps | apply State.each_keeps | split)

theorem State.commitDone_keeps {s0 : State} {s : State} {e00 : CommitEntry} {code : Nat} {refused : Nat} {at_ : Nat} (ks : Keeps s0 s) : Keeps s0 (State.commitDone s e00 code refused at_) := by
  unfold State.commitDone
  with_reducible repeat' (first | assumption | apply State.toFm_keeps | apply State.sealTally_keeps | apply State.commitResult_keeps)

theorem State.applyFront_keeps {s0 : State} {s : State} (ks : Keeps s0 s) : Keeps s0 (State.applyFront s) := by
  unfold State.applyFront
  with_reducible repeat' (first | assumption | intro _ | (extract_lets +onlyGivenNames x; refine Keeps.have (Q := Keeps s0 x) ?_ ?_; dsimp -zeta -iota only [x]; clear x; rotate_left; clear_value x; revert x; intro _ _) | (extract_lets +onlyGivenNames x; clear_value x; revert x; intro _) | apply Keeps.ite | apply State.cutBoth_keeps | apply State.applyGroups_keeps | apply State.setFld_keeps | apply State.sealTally_keeps | apply State.commitDone_keeps | (refine (State.checkGroups_keeps ?_).out) | apply State.snapHalf_keeps | (simp -zeta -iota only [Keeps.mk_iff]; apply KeepsMk.of (h1 := by simp) (h2 := by simp) (h3 := by simp)) | split)

theorem State.applyDue_keeps {s0 : State} {a0 : Nat} {a1 : State} (ka1 : Keeps s0 a1) : Keeps s0 (State.applyDue a0 a1) := by
  induction a0 generalizing a1 with
  | zero => exact ka1
  | succ n ih =>
    unfold State.applyDue
    with_reducible repeat' (first | apply ih | assumption | intro _ | apply Keeps.ite | apply State.applyFront_keeps | split)

theorem State.commitReq_keeps {s0 : State} {s : State} {v : Nat} (ks : Keeps s0 s) : Keeps s0 (State.commitReq s v) := by
  unfold State.commitReq
  with_reducible repeat' (first | assumption | apply State.commitResult_keeps | apply State.submit_keeps | apply State.cancel_keeps | split)

theorem execCommitSubmit_keeps {s0 : State} {value : Word} {s : State} (ks : Keeps s0 s) : KeepsR s0 (execCommitSubmit value s) := by
  unfold execCommitSubmit
  with_reducible repeat' (first | assumption | intro _ | apply State.write_keeps | apply State.submit_keeps | apply KeepsR.next)

theorem execCommitCancel_keeps {s0 : State} {value : Word} {s : State} (ks : Keeps s0 s) : KeepsR s0 (execCommitCancel value s) := by
  unfold execCommitCancel
  with_reducible repeat' (first | assumption | intro _ | apply State.write_keeps | apply State.cancel_keeps | apply KeepsR.next)

theorem execCommitApply_keeps {s0 : State} {s : State} (ks : Keeps s0 s) : KeepsR s0 (execCommitApply s) := by
  unfold execCommitApply
  with_reducible repeat' (first | assumption | intro _ | apply Keeps.ite | apply State.applyFront_keeps | apply KeepsR.next)

theorem execSnapshot_keeps {s0 : State} {s : State} (ks : Keeps s0 s) : KeepsR s0 (execSnapshot s) := by
  unfold execSnapshot
  with_reducible repeat' (first | assumption | intro _ | apply Keeps.ite | apply State.applyFront_keeps | apply KeepsR.next)

theorem execMirrorCut_keeps {s0 : State} {s : State} (ks : Keeps s0 s) : KeepsR s0 (execMirrorCut s) := by
  unfold execMirrorCut
  with_reducible repeat' (first | assumption | intro _ | apply Keeps.ite | apply State.applyFront_keeps | apply KeepsR.next)

end Sys2Proof.Machine
end

