-- ==== Sys2Proof/Laws/KeepTide.lean ====
section
/-! SUPPORT. The operations of Machine/Tide.lean break nothing (Laws/Keeps.lean). -/

namespace Sys2Proof.Machine

theorem State.stepSched_keeps {s0 : State} {s : State} {i : Nat} {ns : Int} (ks : Keeps s0 s) : Keeps s0 (State.stepSched s i ns) := by
  unfold State.stepSched
  with_reducible repeat' (first | assumption | intro _ | (extract_lets +onlyGivenNames x; refine Keeps.have (Q := Keeps s0 x) ?_ ?_; dsimp -zeta -iota only [x]; clear x; rotate_left; clear_value x; revert x; intro _ _) | (extract_lets +onlyGivenNames x; clear_value x; revert x; intro _) | apply Keeps.ite | apply State.gateNow_keeps | apply State.setFld_keeps | apply State.updSched_keeps)

theorem State.stepBy_keeps {s0 : State} {s : State} {n : Int} (ks : Keeps s0 s) : Keeps s0 (State.stepBy s n) := by
  unfold State.stepBy
  with_reducible repeat' (first | assumption | intro _ | (extract_lets +onlyGivenNames x; refine Keeps.have (Q := Keeps s0 x) ?_ ?_; dsimp -zeta -iota only [x]; clear x; rotate_left; clear_value x; revert x; intro _ _) | (extract_lets +onlyGivenNames x; clear_value x; revert x; intro _) | apply Keeps.ite | apply State.setFlag_keeps | apply State.applyDue_keeps | apply State.stepSched_keeps | apply State.toFm_keeps | apply State.each_keeps | (simp -zeta -iota only [Keeps.mk_iff]; apply KeepsMk.of (h1 := by simp) (h2 := by simp) (h3 := by simp)))

theorem State.servo_keeps {s0 : State} {s : State} {off : Int} {qualified : Bool} (ks : Keeps s0 s) : Keeps s0 (State.servo s off qualified) := by
  unfold State.servo
  with_reducible repeat' (first | assumption | intro _ | (extract_lets +onlyGivenNames x; refine Keeps.have (Q := Keeps s0 x) ?_ ?_; dsimp -zeta -iota only [x]; clear x; rotate_left; clear_value x; revert x; intro _ _) | (extract_lets +onlyGivenNames x; clear_value x; revert x; intro _) | apply Keeps.ite | apply State.tideState_keeps | apply State.setFld_keeps | apply State.slew_keeps | apply State.stepBy_keeps | (simp -zeta -iota only [Keeps.mk_iff]; apply KeepsMk.of (h1 := by simp) (h2 := by simp) (h3 := by simp)) | split)

theorem State.measure_keeps {s0 : State} {s : State} {k : Nat} {off : Int} {ok : Bool} (ks : Keeps s0 s) : Keeps s0 (State.measure s k off ok) := by
  unfold State.measure
  with_reducible repeat' (first | assumption | intro _ | (extract_lets +onlyGivenNames x; refine Keeps.have (Q := Keeps s0 x) ?_ ?_; dsimp -zeta -iota only [x]; clear x; rotate_left; clear_value x; revert x; intro _ _) | (extract_lets +onlyGivenNames x; clear_value x; revert x; intro _) | apply Keeps.ite | apply State.tideState_keeps | apply State.servo_keeps | apply State.useSource_keeps | apply State.reselect_keeps | apply State.qualTally_keeps | (simp -zeta -iota only [Keeps.mk_iff]; apply KeepsMk.of (h1 := by simp) (h2 := by simp) (h3 := by simp)) | split)

theorem State.syncDone_keeps {s0 : State} {s : State} {t1 : Nat} {corr : Int} {t2 : Nat} (ks : Keeps s0 s) : Keeps s0 (State.syncDone s t1 corr t2) := by
  unfold State.syncDone
  with_reducible repeat' (first | assumption | intro _ | (extract_lets +onlyGivenNames x; refine Keeps.have (Q := Keeps s0 x) ?_ ?_; dsimp -zeta -iota only [x]; clear x; rotate_left; clear_value x; revert x; intro _ _) | (extract_lets +onlyGivenNames x; clear_value x; revert x; intro _) | apply Keeps.ite | apply State.measure_keeps | (simp -zeta -iota only [Keeps.mk_iff]; apply KeepsMk.of (h1 := by simp) (h2 := by simp) (h3 := by simp)))

theorem State.ptpSync_keeps {s0 : State} {s : State} {seq : Nat} {two : Bool} {t1 : Nat} {corr : Int} (ks : Keeps s0 s) : Keeps s0 (State.ptpSync s seq two t1 corr) := by
  unfold State.ptpSync
  with_reducible repeat' (first | assumption | intro _ | (extract_lets +onlyGivenNames x; clear_value x; revert x; intro _) | apply Keeps.ite | apply State.syncDone_keeps | (simp -zeta -iota only [Keeps.mk_iff]; apply KeepsMk.of (h1 := by simp) (h2 := by simp) (h3 := by simp)))

theorem State.ptpFollowUp_keeps {s0 : State} {s : State} {seq : Nat} {t1 : Nat} {corr : Int} (ks : Keeps s0 s) : Keeps s0 (State.ptpFollowUp s seq t1 corr) := by
  unfold State.ptpFollowUp
  with_reducible repeat' (first | assumption | (extract_lets +onlyGivenNames x; clear_value x; revert x; intro _) | apply State.syncDone_keeps | (simp -zeta -iota only [Keeps.mk_iff]; apply KeepsMk.of (h1 := by simp) (h2 := by simp) (h3 := by simp)) | split)

theorem State.ptpDelayReq_keeps {s0 : State} {s : State} (ks : Keeps s0 s) : Keeps s0 (State.ptpDelayReq s) := by
  unfold State.ptpDelayReq
  with_reducible repeat' (first | assumption | (extract_lets +onlyGivenNames x; refine Keeps.have (Q := Keeps s0 x) ?_ ?_; dsimp -zeta -iota only [x]; clear x; rotate_left; clear_value x; revert x; intro _ _) | (extract_lets +onlyGivenNames x; clear_value x; revert x; intro _) | (extract_lets +onlyGivenNames x; dsimp -zeta -iota only [x]; clear x) | apply State.emit_keeps | (simp -zeta -iota only [Keeps.mk_iff]; apply KeepsMk.of (h1 := by simp) (h2 := by simp) (h3 := by simp)))

theorem State.ptpDelayResp_keeps {s0 : State} {s : State} {seq : Nat} {t4 : Nat} {corr : Int} (ks : Keeps s0 s) : Keeps s0 (State.ptpDelayResp s seq t4 corr) := by
  unfold State.ptpDelayResp
  with_reducible repeat' (first | assumption | intro _ | (extract_lets +onlyGivenNames x; clear_value x; revert x; intro _) | apply Keeps.ite | (simp -zeta -iota only [Keeps.mk_iff]; apply KeepsMk.of (h1 := by simp) (h2 := by simp) (h3 := by simp)) | split)

theorem State.ptpPdelayReq_keeps {s0 : State} {s : State} {seq : Nat} (ks : Keeps s0 s) : Keeps s0 (State.ptpPdelayReq s seq) := by
  unfold State.ptpPdelayReq
  with_reducible repeat' (first | assumption | intro _ | apply Keeps.ite | apply State.emit_keeps)

theorem State.peerDelay_keeps {s0 : State} {s : State} {t1 : Nat} {t2 : Nat} {t3 : Nat} {t4 : Int} (ks : Keeps s0 s) : Keeps s0 (State.peerDelay s t1 t2 t3 t4) := by
  unfold State.peerDelay
  with_reducible repeat' (first | assumption | (extract_lets +onlyGivenNames x; clear_value x; revert x; intro _) | (simp -zeta -iota only [Keeps.mk_iff]; apply KeepsMk.of (h1 := by simp) (h2 := by simp) (h3 := by simp)))

theorem State.ptpPdelayResp_keeps {s0 : State} {s : State} {seq : Nat} {two : Bool} {t2 : Nat} {corr : Int} (ks : Keeps s0 s) : Keeps s0 (State.ptpPdelayResp s seq two t2 corr) := by
  unfold State.ptpPdelayResp
  with_reducible repeat' (first | assumption | intro _ | (extract_lets +onlyGivenNames x; clear_value x; revert x; intro _) | apply Keeps.ite | apply State.peerDelay_keeps | (simp -zeta -iota only [Keeps.mk_iff]; apply KeepsMk.of (h1 := by simp) (h2 := by simp) (h3 := by simp)) | split)

theorem State.ptpPdelayFollow_keeps {s0 : State} {s : State} {seq : Nat} {t3 : Nat} {corr : Int} (ks : Keeps s0 s) : Keeps s0 (State.ptpPdelayFollow s seq t3 corr) := by
  unfold State.ptpPdelayFollow
  with_reducible repeat' (first | assumption | intro _ | apply Keeps.ite | apply State.peerDelay_keeps | split)

theorem State.ptpAnnounce_keeps {s0 : State} {s : State} {rank : List Nat} {ident : Nat} (ks : Keeps s0 s) : Keeps s0 (State.ptpAnnounce s rank ident) := by
  unfold State.ptpAnnounce
  with_reducible repeat' (first | assumption | (extract_lets +onlyGivenNames x; clear_value x; revert x; intro _) | (simp -zeta -iota only [Keeps.mk_iff]; apply KeepsMk.of (h1 := by simp) (h2 := by simp) (h3 := by simp)))

theorem State.announceLost_keeps {s0 : State} {s : State} (ks : Keeps s0 s) : Keeps s0 (State.announceLost s) := by
  unfold State.announceLost
  with_reducible repeat' (first | assumption | (extract_lets +onlyGivenNames x; clear_value x; revert x; intro _) | apply State.loseSource_keeps | (simp -zeta -iota only [Keeps.mk_iff]; apply KeepsMk.of (h1 := by simp) (h2 := by simp) (h3 := by simp)))

theorem execPtpSync_keeps {s0 : State} {seq : Nat} {twoStep : Bool} {t1 : Nat} {correction : Int} {s : State} (ks : Keeps s0 s) : KeepsR s0 (execPtpSync seq twoStep t1 correction s) := by
  unfold execPtpSync
  with_reducible repeat' (first | assumption | apply State.ptpSync_keeps | apply KeepsR.next)

theorem execPtpFollowUp_keeps {s0 : State} {seq : Nat} {t1 : Nat} {correction : Int} {s : State} (ks : Keeps s0 s) : KeepsR s0 (execPtpFollowUp seq t1 correction s) := by
  unfold execPtpFollowUp
  with_reducible repeat' (first | assumption | apply State.ptpFollowUp_keeps | apply KeepsR.next)

theorem execPtpDelayReqSend_keeps {s0 : State} {s : State} (ks : Keeps s0 s) : KeepsR s0 (execPtpDelayReqSend s) := by
  unfold execPtpDelayReqSend
  with_reducible repeat' (first | assumption | apply State.ptpDelayReq_keeps | apply KeepsR.next)

theorem execPtpDelayResp_keeps {s0 : State} {seq : Nat} {t4 : Nat} {correction : Int} {s : State} (ks : Keeps s0 s) : KeepsR s0 (execPtpDelayResp seq t4 correction s) := by
  unfold execPtpDelayResp
  with_reducible repeat' (first | assumption | apply State.ptpDelayResp_keeps | apply KeepsR.next)

theorem execPtpAnnounce_keeps {s0 : State} {rank : List Nat} {ident : Word} {s : State} (ks : Keeps s0 s) : KeepsR s0 (execPtpAnnounce rank ident s) := by
  unfold execPtpAnnounce
  with_reducible repeat' (first | assumption | apply State.ptpAnnounce_keeps | apply KeepsR.next)

theorem execPtpPdelayReq_keeps {s0 : State} {seq : Nat} {s : State} (ks : Keeps s0 s) : KeepsR s0 (execPtpPdelayReq seq s) := by
  unfold execPtpPdelayReq
  with_reducible repeat' (first | assumption | apply State.ptpPdelayReq_keeps | apply KeepsR.next)

theorem execPtpPdelayResp_keeps {s0 : State} {seq : Nat} {twoStep : Bool} {t2 : Nat} {correction : Int} {s : State} (ks : Keeps s0 s) : KeepsR s0 (execPtpPdelayResp seq twoStep t2 correction s) := by
  unfold execPtpPdelayResp
  with_reducible repeat' (first | assumption | apply State.ptpPdelayResp_keeps | apply KeepsR.next)

theorem execPtpPdelayRespFollowUp_keeps {s0 : State} {seq : Nat} {t3 : Nat} {correction : Int} {s : State} (ks : Keeps s0 s) : KeepsR s0 (execPtpPdelayRespFollowUp seq t3 correction s) := by
  unfold execPtpPdelayRespFollowUp
  with_reducible repeat' (first | assumption | apply State.ptpPdelayFollow_keeps | apply KeepsR.next)

theorem execPtpSyncTimeout_keeps {s0 : State} {s : State} (ks : Keeps s0 s) : KeepsR s0 (execPtpSyncTimeout s) := by
  unfold execPtpSyncTimeout
  with_reducible repeat' (first | assumption | apply State.loseSource_keeps | apply KeepsR.next)

theorem execPtpAnnounceTimeout_keeps {s0 : State} {s : State} (ks : Keeps s0 s) : KeepsR s0 (execPtpAnnounceTimeout s) := by
  unfold execPtpAnnounceTimeout
  with_reducible repeat' (first | assumption | apply State.announceLost_keeps | apply KeepsR.next)

theorem State.loadTod_keeps {s0 : State} {s : State} (ks : Keeps s0 s) : Keeps s0 (State.loadTod s) := by
  unfold State.loadTod
  with_reducible repeat' (first | assumption | (extract_lets +onlyGivenNames x; clear_value x; revert x; intro _) | apply State.stepBy_keeps | (simp -zeta -iota only [Keeps.mk_iff]; apply KeepsMk.of (h1 := by simp) (h2 := by simp) (h3 := by simp)) | split)

theorem State.ppsEdge_keeps {s0 : State} {s : State} (ks : Keeps s0 s) : Keeps s0 (State.ppsEdge s) := by
  unfold State.ppsEdge
  with_reducible repeat' (first | assumption | intro _ | (extract_lets +onlyGivenNames x; refine Keeps.have (Q := Keeps s0 x) ?_ ?_; dsimp -zeta -iota only [x]; clear x; rotate_left; clear_value x; revert x; intro _ _) | (extract_lets +onlyGivenNames x; clear_value x; revert x; intro _) | apply Keeps.ite | apply State.loseSource_keeps | apply State.loadTod_keeps | apply State.measure_keeps)

theorem State.ppsPulse_keeps {s0 : State} {s : State} (ks : Keeps s0 s) : Keeps s0 (State.ppsPulse s) := by
  unfold State.ppsPulse
  with_reducible repeat' (first | assumption | intro _ | (extract_lets +onlyGivenNames x; clear_value x; revert x; intro _) | apply Keeps.ite | apply State.emit_keeps | (simp -zeta -iota only [Keeps.mk_iff]; apply KeepsMk.of (h1 := by simp) (h2 := by simp) (h3 := by simp)))

theorem execPpsInEdge_keeps {s0 : State} {s : State} (ks : Keeps s0 s) : KeepsR s0 (execPpsInEdge s) := by
  unfold execPpsInEdge
  with_reducible repeat' (first | assumption | apply State.ppsEdge_keeps | apply KeepsR.next)

theorem execPpsInTimeout_keeps {s0 : State} {s : State} (ks : Keeps s0 s) : KeepsR s0 (execPpsInTimeout s) := by
  unfold execPpsInTimeout
  with_reducible repeat' (first | assumption | apply State.loseSource_keeps | apply KeepsR.next)

theorem execPpsOutPulse_keeps {s0 : State} {s : State} (ks : Keeps s0 s) : KeepsR s0 (execPpsOutPulse s) := by
  unfold execPpsOutPulse
  with_reducible repeat' (first | assumption | apply State.ppsPulse_keeps | apply KeepsR.next)

theorem execHoldoverExpiry_keeps {s0 : State} {s : State} (ks : Keeps s0 s) : KeepsR s0 (execHoldoverExpiry s) := by
  unfold execHoldoverExpiry
  with_reducible repeat' (first | assumption | apply State.holdoverEnd_keeps | apply KeepsR.next)

theorem State.tbStep_keeps {s0 : State} {s : State} {v : Nat} (ks : Keeps s0 s) : Keeps s0 (State.tbStep s v) := by
  unfold State.tbStep
  with_reducible repeat' (first | assumption | apply State.stepBy_keeps)

theorem State.tbTod_keeps {s0 : State} {s : State} {v : Nat} (ks : Keeps s0 s) : Keeps s0 (State.tbTod s v) := by
  unfold State.tbTod
  with_reducible repeat' (first | assumption | (extract_lets +onlyGivenNames x; clear_value x; revert x; intro _) | (simp -zeta -iota only [Keeps.mk_iff]; apply KeepsMk.of (h1 := by simp) (h2 := by simp) (h3 := by simp)))

theorem State.tbCfgWrite_keeps {s0 : State} {s : State} {v : Nat} (ks : Keeps s0 s) : Keeps s0 (State.tbCfgWrite s v) := by
  unfold State.tbCfgWrite
  with_reducible repeat' (first | assumption | intro _ | apply Keeps.ite | apply State.setReg_keeps | apply State.setFlag_keeps | apply State.reselect_keeps)

theorem State.timeRead_keeps {s0 : State} {s : State} (ks : Keeps s0 s) : Keeps1 s0 (State.timeRead s) := by
  unfold State.timeRead
  with_reducible repeat' (first | assumption | (extract_lets +onlyGivenNames x; refine Keeps.have (Q := Keeps s0 x) ?_ ?_; dsimp -zeta -iota only [x]; clear x; rotate_left; clear_value x; revert x; intro _ _) | (extract_lets +onlyGivenNames x; clear_value x; revert x; intro _) | apply State.setReg_keeps | apply State.setFld_keeps | (simp -zeta -iota only [Keeps1.pair]))

theorem execTideStep_keeps {s0 : State} {stepNs : Word} {s : State} (ks : Keeps s0 s) : KeepsR s0 (execTideStep stepNs s) := by
  unfold execTideStep
  with_reducible repeat' (first | assumption | intro _ | apply State.write_keeps | apply State.tbStep_keeps | apply KeepsR.next)

theorem execTodSet_keeps {s0 : State} {ns : Word} {s : State} (ks : Keeps s0 s) : KeepsR s0 (execTodSet ns s) := by
  unfold execTodSet
  with_reducible repeat' (first | assumption | intro _ | apply State.tbTod_keeps | apply State.write_keeps | apply KeepsR.next)

theorem execTbCfgWrite_keeps {s0 : State} {value : Word} {s : State} (ks : Keeps s0 s) : KeepsR s0 (execTbCfgWrite value s) := by
  unfold execTbCfgWrite
  with_reducible repeat' (first | assumption | intro _ | apply State.write_keeps | apply State.tbCfgWrite_keeps | apply KeepsR.next)

theorem execTbTimeRead_keeps {s0 : State} {s : State} (ks : Keeps s0 s) : KeepsR s0 (execTbTimeRead s) := by
  unfold execTbTimeRead
  with_reducible repeat' (first | assumption | intro _ | apply KeepsR.ite | (refine (State.timeRead_keeps ?_).out) | apply State.emit_keeps | apply KeepsR.next)

end Sys2Proof.Machine
end

