-- ==== Sys2Proof/Laws/KeepStrait.lean ====
section
/-! SUPPORT. The operations of Machine/Strait.lean break nothing (Laws/Keeps.lean). -/

namespace Sys2Proof.Machine

theorem State.updLink_keeps {s0 : State} {s : State} {l : Half} {f : StraitLink → StraitLink} (ks : Keeps s0 s) : Keeps s0 (State.updLink s l f) := by
  unfold State.updLink
  with_reducible repeat' (first | assumption | (simp -zeta -iota only [Keeps.mk_iff]; apply KeepsMk.of (h1 := by simp) (h2 := by simp) (h3 := by simp)))

theorem State.creditTally_keeps {s0 : State} {s : State} {l : Half} (ks : Keeps s0 s) : Keeps s0 (State.creditTally s l) := by
  unfold State.creditTally
  with_reducible repeat' (first | assumption | intro _ | apply State.setFld_keeps | apply State.each_keeps)

theorem State.initFails_keeps {s0 : State} {s : State} {l : Half} {cause : Nat} (ks : Keeps s0 s) : Keeps s0 (State.initFails s l cause) := by
  unfold State.initFails
  with_reducible repeat' (first | assumption | (extract_lets +onlyGivenNames x; refine Keeps.have (Q := Keeps s0 x) ?_ ?_; dsimp -zeta -iota only [x]; clear x; rotate_left; clear_value x; revert x; intro _ _) | apply State.setFlag_keeps | apply State.note_keeps | apply State.setFld_keeps)

theorem State.enterDetect_keeps {s0 : State} {s : State} {l : Half} (ks : Keeps s0 s) : Keeps s0 (State.enterDetect s l) := by
  unfold State.enterDetect
  with_reducible repeat' (first | assumption | intro _ | (extract_lets +onlyGivenNames x; refine Keeps.have (Q := Keeps s0 x) ?_ ?_; dsimp -zeta -iota only [x]; clear x; rotate_left; clear_value x; revert x; intro _ _) | (extract_lets +onlyGivenNames x; clear_value x; revert x; intro _) | apply Keeps.ite | apply State.straitIdle_keeps | apply State.setFld_keeps | apply State.initFails_keeps | apply State.updLink_keeps)

theorem State.initAbort_keeps {s0 : State} {s : State} {l : Half} {cause : Nat} (ks : Keeps s0 s) : Keeps s0 (State.initAbort s l cause) := by
  unfold State.initAbort
  with_reducible repeat' (first | assumption | apply State.enterDetect_keeps | apply State.initFails_keeps | apply State.updLink_keeps)

theorem State.straitPaired_keeps {s0 : State} {s : State} (ks : Keeps s0 s) : Keeps s0 (State.straitPaired s) := by
  unfold State.straitPaired
  with_reducible repeat' (first | assumption | intro _ | apply Keeps.ite | apply State.enterPhase_keeps)

theorem State.tryActive_keeps {s0 : State} {s : State} {l : Half} (ks : Keeps s0 s) : Keeps s0 (State.tryActive s l) := by
  unfold State.tryActive
  with_reducible repeat' (first | assumption | intro _ | (extract_lets +onlyGivenNames x; refine Keeps.have (Q := Keeps s0 x) ?_ ?_; dsimp -zeta -iota only [x]; clear x; rotate_left; clear_value x; revert x; intro _ _) | (extract_lets +onlyGivenNames x; clear_value x; revert x; intro _) | apply Keeps.ite | apply State.setReg_keeps | apply State.setFlag_keeps | apply State.lagStall_keeps | apply State.setFld_keeps | apply State.sendFp_keeps | apply State.straitPaired_keeps | apply State.updLink_keeps | apply State.creditTally_keeps | apply State.sendRole_keeps | apply State.each_keeps | (simp -zeta -iota only [Keeps.mk_iff]; apply KeepsMk.of (h1 := by simp) (h2 := by simp) (h3 := by simp)))

theorem State.launch_keeps {s0 : State} {s : State} {l : Half} {typ : Nat} {vc : Nat} {seq : Nat} {color : Nat} {plain : Bytes} (ks : Keeps s0 s) : Keeps1 s0 (State.launch s l typ vc seq color plain) := by
  unfold State.launch
  with_reducible repeat' (first | assumption | intro _ | (extract_lets +onlyGivenNames x; refine Keeps.have (Q := Keeps s0 x) ?_ ?_; dsimp -zeta -iota only [x]; clear x; rotate_left; clear_value x; revert x; intro _ _) | (extract_lets +onlyGivenNames x; clear_value x; revert x; intro _) | apply Keeps.ite | apply State.pulse_keeps | apply State.raise_keeps | apply State.updLink_keeps | apply State.emit_keeps | (simp -zeta -iota only [Keeps1.pair]) | split)

theorem State.sendData_keeps {s0 : State} {s : State} {l : Half} {n : Nat} (ks : Keeps s0 s) : Keeps s0 (State.sendData s l n) := by
  unfold State.sendData
  with_reducible repeat' (first | assumption | intro _ | (extract_lets +onlyGivenNames x; refine Keeps.have (Q := Keeps s0 x) ?_ ?_; dsimp -zeta -iota only [x]; clear x; rotate_left; clear_value x; revert x; intro _ _) | (extract_lets +onlyGivenNames x; clear_value x; revert x; intro _) | apply Keeps.ite | apply State.setFlag_keeps | (refine (State.launch_keeps ?_).out) | apply State.setFld_keeps | apply State.count_keeps | apply State.updLink_keeps | apply State.creditTally_keeps | split)

theorem State.nextData_keeps {s0 : State} {s : State} {l : Half} (ks : Keeps s0 s) : Keeps s0 (State.nextData s l) := by
  unfold State.nextData
  with_reducible repeat' (first | assumption | intro _ | (extract_lets +onlyGivenNames x; refine Keeps.have (Q := Keeps s0 x) ?_ ?_; dsimp -zeta -iota only [x]; clear x; rotate_left; clear_value x; revert x; intro _ _) | (extract_lets +onlyGivenNames x; refine Keeps.isFun x ?_; dsimp -zeta -iota only [x]; clear x) | (extract_lets +onlyGivenNames x; clear_value x; revert x; intro _) | apply Keeps.ite | apply State.sendData_keeps | apply State.drr_keeps | apply State.setDeficit_keeps | (refine Keeps1.eq (by assumption) ?_) | split)

theorem State.frameSend_keeps {s0 : State} {s : State} {l : Half} (ks : Keeps s0 s) : Keeps s0 (State.frameSend s l) := by
  unfold State.frameSend
  with_reducible repeat' (first | assumption | intro _ | (extract_lets +onlyGivenNames x; refine Keeps.have (Q := Keeps s0 x) ?_ ?_; dsimp -zeta -iota only [x]; clear x; rotate_left; clear_value x; revert x; intro _ _) | (extract_lets +onlyGivenNames x; clear_value x; revert x; intro _) | apply Keeps.ite | apply State.pulse_keeps | apply State.straitDown_keeps | (refine (State.launch_keeps ?_).out) | apply State.count_keeps | apply State.updLink_keeps | apply State.nextData_keeps | apply State.tryActive_keeps | apply State.emit_keeps | split)

theorem execStraitFrameSend_keeps {s0 : State} {l : Half} {s : State} (ks : Keeps s0 s) : KeepsR s0 (execStraitFrameSend l s) := by
  unfold execStraitFrameSend
  with_reducible repeat' (first | assumption | apply State.frameSend_keeps | apply KeepsR.next)

theorem State.ackTimeoutSend_keeps {s0 : State} {s : State} {l : Half} (ks : Keeps s0 s) : Keeps s0 (State.ackTimeoutSend s l) := by
  unfold State.ackTimeoutSend
  with_reducible repeat' (first | assumption | intro _ | (extract_lets +onlyGivenNames x; clear_value x; revert x; intro _) | apply Keeps.ite | (refine (State.launch_keeps ?_).out))

theorem execStraitAckTimeout_keeps {s0 : State} {l : Half} {s : State} (ks : Keeps s0 s) : KeepsR s0 (execStraitAckTimeout l s) := by
  unfold execStraitAckTimeout
  with_reducible repeat' (first | assumption | apply State.ackTimeoutSend_keeps | apply KeepsR.next)

theorem State.frameGood_keeps {s0 : State} {s : State} {l : Half} {v : Nat} {set : Nat} (ks : Keeps s0 s) : Keeps s0 (State.frameGood s l v set) := by
  unfold State.frameGood
  with_reducible repeat' (first | assumption | intro _ | (extract_lets +onlyGivenNames x; refine Keeps.have (Q := Keeps s0 x) ?_ ?_; dsimp -zeta -iota only [x]; clear x; rotate_left; clear_value x; revert x; intro _ _) | (extract_lets +onlyGivenNames x; clear_value x; revert x; intro _) | apply Keeps.ite | apply State.pulse_keeps | apply State.setFlag_keeps | apply State.setFld_keeps | apply State.updLink_keeps)

theorem State.oweNak_keeps {s0 : State} {s : State} {l : Half} (ks : Keeps s0 s) : Keeps s0 (State.oweNak s l) := by
  unfold State.oweNak
  with_reducible repeat' (first | assumption | intro _ | apply Keeps.ite | apply State.updLink_keeps)

theorem State.takeAck_keeps {s0 : State} {s : State} {l : Half} {h : FrameHead} (ks : Keeps s0 s) : Keeps s0 (State.takeAck s l h) := by
  unfold State.takeAck
  with_reducible repeat' (first | assumption | intro _ | (extract_lets +onlyGivenNames x; refine Keeps.have (Q := Keeps s0 x) ?_ ?_; dsimp -zeta -iota only [x]; clear x; rotate_left; clear_value x; revert x; intro _ _) | (extract_lets +onlyGivenNames x; clear_value x; revert x; intro _) | apply Keeps.ite | apply State.setFlag_keeps | apply State.straitDown_keeps | apply State.setFld_keeps | apply State.updLink_keeps)

theorem State.takeBoth_keeps {s0 : State} {s : State} {l : Half} {h : FrameHead} (ks : Keeps s0 s) : Keeps s0 (State.takeBoth s l h) := by
  unfold State.takeBoth
  with_reducible repeat' (first | assumption | intro _ | (extract_lets +onlyGivenNames x; refine Keeps.have (Q := Keeps s0 x) ?_ ?_; dsimp -zeta -iota only [x]; clear x; rotate_left; clear_value x; revert x; intro _ _) | apply Keeps.ite | apply State.takeAck_keeps | apply State.updLink_keeps | apply State.creditTally_keeps)

theorem State.acceptData_keeps {s0 : State} {s : State} {l : Half} {h : FrameHead} {plain : Bytes} (ks : Keeps s0 s) : Keeps s0 (State.acceptData s l h plain) := by
  unfold State.acceptData
  with_reducible repeat' (first | assumption | intro _ | (extract_lets +onlyGivenNames x; refine Keeps.have (Q := Keeps s0 x) ?_ ?_; dsimp -zeta -iota only [x]; clear x; rotate_left; clear_value x; revert x; intro _ _) | (extract_lets +onlyGivenNames x; clear_value x; revert x; intro _) | apply Keeps.ite | apply State.rxTally_keeps | apply State.straitDown_keeps | apply State.setFld_keeps | apply State.takeBoth_keeps | apply State.oweNak_keeps | apply State.updLink_keeps)

theorem State.startReplay_keeps {s0 : State} {s : State} {l : Half} {cnt : Fld} (ks : Keeps s0 s) : Keeps s0 (State.startReplay s l cnt) := by
  unfold State.startReplay
  with_reducible repeat' (first | assumption | intro _ | (extract_lets +onlyGivenNames x; clear_value x; revert x; intro _) | apply Keeps.ite | apply State.straitDown_keeps | apply State.note_keeps | apply State.count_keeps | apply State.updLink_keeps | split)

theorem State.fecCount_keeps {s0 : State} {s : State} {l : Half} {corrected : Nat} (ks : Keeps s0 s) : Keeps s0 (State.fecCount s l corrected) := by
  unfold State.fecCount
  with_reducible repeat' (first | assumption | apply State.count_keeps)

theorem State.takeFrameOf_keeps {s0 : State} {s : State} {l : Half} {typ : Nat} {bytes : List Byte} {corrected : Nat} {f : State → FrameHead → Bytes → State} (ks : Keeps s0 s) (hff : ∀ u x0 x1, Keeps s0 u → Keeps s0 (f u x0 x1)) : Keeps s0 (State.takeFrameOf s l typ bytes corrected f) := by
  unfold State.takeFrameOf
  with_reducible repeat' (first | assumption | intro _ | apply Keeps.ite | apply hff | apply State.frameGood_keeps | apply State.fecCount_keeps | split)

theorem State.straitDataIn_keeps {s0 : State} {s : State} {l : Half} {bytes : List Byte} {corrected : Nat} (ks : Keeps s0 s) : Keeps s0 (State.straitDataIn s l bytes corrected) := by
  unfold State.straitDataIn
  with_reducible repeat' (first | assumption | intro _ | apply State.acceptData_keeps | apply State.takeFrameOf_keeps)

theorem execStraitData_keeps {s0 : State} {l : Half} {bytes : List Byte} {corrected : Nat} {s : State} (ks : Keeps s0 s) : KeepsR s0 (execStraitData l bytes corrected s) := by
  unfold execStraitData
  with_reducible repeat' (first | assumption | apply State.straitDataIn_keeps | apply KeepsR.next)

theorem State.straitAckIn_keeps {s0 : State} {s : State} {l : Half} {bytes : List Byte} {corrected : Nat} (ks : Keeps s0 s) : Keeps s0 (State.straitAckIn s l bytes corrected) := by
  unfold State.straitAckIn
  with_reducible repeat' (first | assumption | intro _ | apply State.takeBoth_keeps | apply State.takeFrameOf_keeps)

theorem execStraitAckOnly_keeps {s0 : State} {l : Half} {bytes : List Byte} {corrected : Nat} {s : State} (ks : Keeps s0 s) : KeepsR s0 (execStraitAckOnly l bytes corrected s) := by
  unfold execStraitAckOnly
  with_reducible repeat' (first | assumption | apply State.straitAckIn_keeps | apply KeepsR.next)

theorem State.straitNakIn_keeps {s0 : State} {s : State} {l : Half} {bytes : List Byte} {corrected : Nat} (ks : Keeps s0 s) : Keeps s0 (State.straitNakIn s l bytes corrected) := by
  unfold State.straitNakIn
  with_reducible repeat' (first | assumption | intro _ | (extract_lets +onlyGivenNames x; refine Keeps.have (Q := Keeps s0 x) ?_ ?_; dsimp -zeta -iota only [x]; clear x; rotate_left; clear_value x; revert x; intro _ _) | apply Keeps.ite | apply State.pulse_keeps | apply State.startReplay_keeps | apply State.takeBoth_keeps | apply State.takeFrameOf_keeps)

theorem execStraitNak_keeps {s0 : State} {l : Half} {bytes : List Byte} {corrected : Nat} {s : State} (ks : Keeps s0 s) : KeepsR s0 (execStraitNak l bytes corrected s) := by
  unfold execStraitNak
  with_reducible repeat' (first | assumption | apply State.straitNakIn_keeps | apply KeepsR.next)

theorem State.exchangeLost_keeps {s0 : State} {s : State} (ks : Keeps s0 s) : Keeps s0 (State.exchangeLost s) := by
  unfold State.exchangeLost
  with_reducible repeat' (first | assumption | intro _ | (extract_lets +onlyGivenNames x; clear_value x; revert x; intro _) | apply Keeps.ite | apply State.loseSource_keeps | (simp -zeta -iota only [Keeps.mk_iff]; apply KeepsMk.of (h1 := by simp) (h2 := by simp) (h3 := by simp)))

theorem State.timeContent_keeps {s0 : State} {s : State} {l : Half} {plain : Bytes} (ks : Keeps s0 s) : Keeps s0 (State.timeContent s l plain) := by
  unfold State.timeContent
  with_reducible repeat' (first | assumption | intro _ | (extract_lets +onlyGivenNames x; refine Keeps.have (Q := Keeps s0 x) ?_ ?_; dsimp -zeta -iota only [x]; clear x; rotate_left; clear_value x; revert x; intro _ _) | (extract_lets +onlyGivenNames x; clear_value x; revert x; intro _) | apply Keeps.ite | apply State.loseSource_keeps | apply State.measure_keeps | apply State.updLink_keeps | split)

theorem State.straitTimeIn_keeps {s0 : State} {s : State} {l : Half} {bytes : List Byte} {corrected : Nat} (ks : Keeps s0 s) : Keeps s0 (State.straitTimeIn s l bytes corrected) := by
  unfold State.straitTimeIn
  with_reducible repeat' (first | assumption | intro _ | (extract_lets +onlyGivenNames x; refine Keeps.have (Q := Keeps s0 x) ?_ ?_; dsimp -zeta -iota only [x]; clear x; rotate_left; clear_value x; revert x; intro _ _) | apply Keeps.ite | apply State.timeContent_keeps | apply State.takeBoth_keeps | apply State.takeFrameOf_keeps)

theorem execStraitTime_keeps {s0 : State} {l : Half} {bytes : List Byte} {corrected : Nat} {s : State} (ks : Keeps s0 s) : KeepsR s0 (execStraitTime l bytes corrected s) := by
  unfold execStraitTime
  with_reducible repeat' (first | assumption | apply State.straitTimeIn_keeps | apply KeepsR.next)

theorem State.timeTick_keeps {s0 : State} {s : State} {l : Half} (ks : Keeps s0 s) : Keeps s0 (State.timeTick s l) := by
  unfold State.timeTick
  with_reducible repeat' (first | assumption | intro _ | (extract_lets +onlyGivenNames x; refine Keeps.have (Q := Keeps s0 x) ?_ ?_; dsimp -zeta -iota only [x]; clear x; rotate_left; clear_value x; revert x; intro _ _) | apply Keeps.ite | apply State.exchangeLost_keeps | apply State.updLink_keeps)

theorem execStraitTimeTick_keeps {s0 : State} {l : Half} {s : State} (ks : Keeps s0 s) : KeepsR s0 (execStraitTimeTick l s) := by
  unfold execStraitTimeTick
  with_reducible repeat' (first | assumption | apply State.timeTick_keeps | apply KeepsR.next)

theorem State.tagFailed_keeps {s0 : State} {s : State} {l : Half} (ks : Keeps s0 s) : Keeps s0 (State.tagFailed s l) := by
  unfold State.tagFailed
  with_reducible repeat' (first | assumption | apply State.alarm_keeps | apply State.count_keeps)

theorem State.initIn_keeps {s0 : State} {s : State} {l : Half} {typ : Nat} {bytes : List Byte} {corrected : Nat} (ks : Keeps s0 s) : Keeps s0 (State.initIn s l typ bytes corrected) := by
  unfold State.initIn
  with_reducible repeat' (first | assumption | intro _ | (extract_lets +onlyGivenNames x; refine Keeps.have (Q := Keeps s0 x) ?_ ?_; dsimp -zeta -iota only [x]; clear x; rotate_left; clear_value x; revert x; intro _ _) | (extract_lets +onlyGivenNames x; clear_value x; revert x; intro _) | apply Keeps.ite | apply State.pulse_keeps | apply State.setFld_keeps | apply State.initAbort_keeps | apply State.updLink_keeps | apply State.tagFailed_keeps | apply State.fecCount_keeps | apply State.tryActive_keeps | split)

theorem State.straitInitIn_keeps {s0 : State} {s : State} {l : Half} {bytes : List Byte} {corrected : Nat} (ks : Keeps s0 s) : Keeps s0 (State.straitInitIn s l bytes corrected) := by
  unfold State.straitInitIn
  with_reducible repeat' (first | assumption | apply State.initIn_keeps)

theorem execStraitInit_keeps {s0 : State} {l : Half} {bytes : List Byte} {corrected : Nat} {s : State} (ks : Keeps s0 s) : KeepsR s0 (execStraitInit l bytes corrected s) := by
  unfold execStraitInit
  with_reducible repeat' (first | assumption | apply State.straitInitIn_keeps | apply KeepsR.next)

theorem State.straitInitAckIn_keeps {s0 : State} {s : State} {l : Half} {bytes : List Byte} {corrected : Nat} (ks : Keeps s0 s) : Keeps s0 (State.straitInitAckIn s l bytes corrected) := by
  unfold State.straitInitAckIn
  with_reducible repeat' (first | assumption | apply State.initIn_keeps)

theorem execStraitInitAck_keeps {s0 : State} {l : Half} {bytes : List Byte} {corrected : Nat} {s : State} (ks : Keeps s0 s) : KeepsR s0 (execStraitInitAck l bytes corrected s) := by
  unfold execStraitInitAck
  with_reducible repeat' (first | assumption | apply State.straitInitAckIn_keeps | apply KeepsR.next)

theorem State.badFrame_keeps {s0 : State} {s : State} {l : Half} (ks : Keeps s0 s) : Keeps s0 (State.badFrame s l) := by
  unfold State.badFrame
  with_reducible repeat' (first | assumption | intro _ | (extract_lets +onlyGivenNames x; refine Keeps.have (Q := Keeps s0 x) ?_ ?_; dsimp -zeta -iota only [x]; clear x; rotate_left; clear_value x; revert x; intro _ _) | apply Keeps.ite | apply State.straitDown_keeps | apply State.oweNak_keeps | apply State.updLink_keeps)

theorem State.straitBad_keeps {s0 : State} {s : State} {l : Half} {bytes : List Byte} {fecFail : Bool} {corrected : Nat} (ks : Keeps s0 s) : Keeps s0 (State.straitBad s l bytes fecFail corrected) := by
  unfold State.straitBad
  with_reducible repeat' (first | assumption | intro _ | (extract_lets +onlyGivenNames x; refine Keeps.have (Q := Keeps s0 x) ?_ ?_; dsimp -zeta -iota only [x]; clear x; rotate_left; clear_value x; revert x; intro _ _) | (extract_lets +onlyGivenNames x; clear_value x; revert x; intro _) | apply Keeps.ite | apply State.straitDown_keeps | apply State.badFrame_keeps | apply State.initAbort_keeps | apply State.count_keeps | apply State.updLink_keeps | apply State.tagFailed_keeps | apply State.fecCount_keeps | split)

theorem execStraitBadFrame_keeps {s0 : State} {l : Half} {bytes : List Byte} {fecFail : Bool} {corrected : Nat} {s : State} (ks : Keeps s0 s) : KeepsR s0 (execStraitBadFrame l bytes fecFail corrected s) := by
  unfold execStraitBadFrame
  with_reducible repeat' (first | assumption | apply State.straitBad_keeps | apply KeepsR.next)

theorem State.replayTimeout_keeps {s0 : State} {s : State} {l : Half} (ks : Keeps s0 s) : Keeps s0 (State.replayTimeout s l) := by
  unfold State.replayTimeout
  with_reducible repeat' (first | assumption | intro _ | apply Keeps.ite | apply State.startReplay_keeps)

theorem execStraitReplayTimeout_keeps {s0 : State} {l : Half} {s : State} (ks : Keeps s0 s) : KeepsR s0 (execStraitReplayTimeout l s) := by
  unfold execStraitReplayTimeout
  with_reducible repeat' (first | assumption | apply State.replayTimeout_keeps | apply KeepsR.next)

theorem State.noProgress_keeps {s0 : State} {s : State} {l : Half} (ks : Keeps s0 s) : Keeps s0 (State.noProgress s l) := by
  unfold State.noProgress
  with_reducible repeat' (first | assumption | intro _ | apply Keeps.ite | apply State.straitDown_keeps)

theorem execStraitNoProgress_keeps {s0 : State} {l : Half} {s : State} (ks : Keeps s0 s) : KeepsR s0 (execStraitNoProgress l s) := by
  unfold execStraitNoProgress
  with_reducible repeat' (first | assumption | apply State.noProgress_keeps | apply KeepsR.next)

theorem State.signalDetect_keeps {s0 : State} {s : State} {l : Half} (ks : Keeps s0 s) : Keeps s0 (State.signalDetect s l) := by
  unfold State.signalDetect
  with_reducible repeat' (first | assumption | intro _ | (extract_lets +onlyGivenNames x; clear_value x; revert x; intro _) | apply Keeps.ite | apply State.setFld_keeps)

theorem execStraitSignalDetect_keeps {s0 : State} {l : Half} {s : State} (ks : Keeps s0 s) : KeepsR s0 (execStraitSignalDetect l s) := by
  unfold execStraitSignalDetect
  with_reducible repeat' (first | assumption | apply State.signalDetect_keeps | apply KeepsR.next)

theorem State.straitTrained_keeps {s0 : State} {s : State} {l : Half} {tx : Nat} {rx : Nat} (ks : Keeps s0 s) : Keeps s0 (State.straitTrained s l tx rx) := by
  unfold State.straitTrained
  with_reducible repeat' (first | assumption | intro _ | (extract_lets +onlyGivenNames x; refine Keeps.have (Q := Keeps s0 x) ?_ ?_; dsimp -zeta -iota only [x]; clear x; rotate_left; clear_value x; revert x; intro _ _) | (extract_lets +onlyGivenNames x; clear_value x; revert x; intro _) | apply Keeps.ite | apply State.setFld_keeps | apply State.initAbort_keeps | apply State.updLink_keeps | split)

theorem execStraitTrainDone_keeps {s0 : State} {l : Half} {txLanes : BitVec 8} {rxLanes : BitVec 8} {s : State} (ks : Keeps s0 s) : KeepsR s0 (execStraitTrainDone l txLanes rxLanes s) := by
  unfold execStraitTrainDone
  with_reducible repeat' (first | assumption | apply State.straitTrained_keeps | apply KeepsR.next)

theorem State.trainTimeout_keeps {s0 : State} {s : State} {l : Half} (ks : Keeps s0 s) : Keeps s0 (State.trainTimeout s l) := by
  unfold State.trainTimeout
  with_reducible repeat' (first | assumption | intro _ | apply Keeps.ite | apply State.enterDetect_keeps)

theorem execStraitTrainTimeout_keeps {s0 : State} {l : Half} {s : State} (ks : Keeps s0 s) : KeepsR s0 (execStraitTrainTimeout l s) := by
  unfold execStraitTrainTimeout
  with_reducible repeat' (first | assumption | apply State.trainTimeout_keeps | apply KeepsR.next)

theorem State.initTick_keeps {s0 : State} {s : State} {l : Half} (ks : Keeps s0 s) : Keeps s0 (State.initTick s l) := by
  unfold State.initTick
  with_reducible repeat' (first | assumption | intro _ | apply Keeps.ite | apply State.updLink_keeps | apply State.tryActive_keeps)

theorem execStraitInitTick_keeps {s0 : State} {l : Half} {s : State} (ks : Keeps s0 s) : KeepsR s0 (execStraitInitTick l s) := by
  unfold execStraitInitTick
  with_reducible repeat' (first | assumption | apply State.initTick_keeps | apply KeepsR.next)

theorem State.initTimeout_keeps {s0 : State} {s : State} {l : Half} (ks : Keeps s0 s) : Keeps s0 (State.initTimeout s l) := by
  unfold State.initTimeout
  with_reducible repeat' (first | assumption | intro _ | apply Keeps.ite | apply State.initAbort_keeps)

theorem execStraitInitTimeout_keeps {s0 : State} {l : Half} {s : State} (ks : Keeps s0 s) : KeepsR s0 (execStraitInitTimeout l s) := by
  unfold execStraitInitTimeout
  with_reducible repeat' (first | assumption | apply State.initTimeout_keeps | apply KeepsR.next)

theorem State.retryTimer_keeps {s0 : State} {s : State} {l : Half} (ks : Keeps s0 s) : Keeps s0 (State.retryTimer s l) := by
  unfold State.retryTimer
  with_reducible repeat' (first | assumption | intro _ | (extract_lets +onlyGivenNames x; clear_value x; revert x; intro _) | apply Keeps.ite | apply State.enterDetect_keeps)

theorem execStraitRetryTimer_keeps {s0 : State} {l : Half} {s : State} (ks : Keeps s0 s) : KeepsR s0 (execStraitRetryTimer l s) := by
  unfold execStraitRetryTimer
  with_reducible repeat' (first | assumption | apply State.retryTimer_keeps | apply KeepsR.next)

theorem State.retrain_keeps {s0 : State} {s : State} {l : Half} (ks : Keeps s0 s) : Keeps s0 (State.retrain s l) := by
  unfold State.retrain
  with_reducible repeat' (first | assumption | intro _ | apply Keeps.ite | apply State.straitDown_keeps | apply State.enterDetect_keeps)

theorem execStraitRetrain_keeps {s0 : State} {l : Half} {s : State} (ks : Keeps s0 s) : KeepsR s0 (execStraitRetrain l s) := by
  unfold execStraitRetrain
  with_reducible repeat' (first | assumption | intro _ | apply State.write_keeps | apply State.retrain_keeps | apply KeepsR.next)

theorem State.twCfgWrite_keeps {s0 : State} {s : State} {l : Half} {v : Nat} (ks : Keeps s0 s) : Keeps s0 (State.twCfgWrite s l v) := by
  unfold State.twCfgWrite
  with_reducible repeat' (first | assumption | intro _ | (extract_lets +onlyGivenNames x; refine Keeps.have (Q := Keeps s0 x) ?_ ?_; dsimp -zeta -iota only [x]; clear x; rotate_left; clear_value x; revert x; intro _ _) | (extract_lets +onlyGivenNames x; clear_value x; revert x; intro _) | apply Keeps.ite | apply State.setReg_keeps | apply State.setFlag_keeps | apply State.straitDown_keeps | apply State.straitIdle_keeps | apply State.enterDetect_keeps | apply State.setFld_keeps | apply State.updLink_keeps)

theorem execTwCfgWrite_keeps {s0 : State} {l : Half} {value : Word} {s : State} (ks : Keeps s0 s) : KeepsR s0 (execTwCfgWrite l value s) := by
  unfold execTwCfgWrite
  with_reducible repeat' (first | assumption | intro _ | apply State.write_keeps | apply State.twCfgWrite_keeps | apply KeepsR.next)

theorem State.laneLoss_keeps {s0 : State} {s : State} {l : Half} {lost : Nat} (ks : Keeps s0 s) : Keeps s0 (State.laneLoss s l lost) := by
  unfold State.laneLoss
  with_reducible repeat' (first | assumption | intro _ | (extract_lets +onlyGivenNames x; refine Keeps.have (Q := Keeps s0 x) ?_ ?_; dsimp -zeta -iota only [x]; clear x; rotate_left; clear_value x; revert x; intro _ _) | (extract_lets +onlyGivenNames x; clear_value x; revert x; intro _) | apply Keeps.ite | apply State.note_keeps | apply State.setFld_keeps | apply State.updLink_keeps | apply State.emit_keeps | split)

theorem execStraitLaneLoss_keeps {s0 : State} {l : Half} {lost : BitVec 8} {s : State} (ks : Keeps s0 s) : KeepsR s0 (execStraitLaneLoss l lost s) := by
  unfold execStraitLaneLoss
  with_reducible repeat' (first | assumption | apply State.laneLoss_keeps | apply KeepsR.next)

theorem State.widthReqIn_keeps {s0 : State} {s : State} {l : Half} {g : Nat} (ks : Keeps s0 s) : Keeps s0 (State.widthReqIn s l g) := by
  unfold State.widthReqIn
  with_reducible repeat' (first | assumption | intro _ | (extract_lets +onlyGivenNames x; refine Keeps.have (Q := Keeps s0 x) ?_ ?_; dsimp -zeta -iota only [x]; clear x; rotate_left; clear_value x; revert x; intro _ _) | (extract_lets +onlyGivenNames x; clear_value x; revert x; intro _) | apply Keeps.ite | apply State.setFlag_keeps | apply State.setFld_keeps | apply State.updLink_keeps | apply State.emit_keeps)

theorem execWidthReq_keeps {s0 : State} {l : Half} {group : Fin 8} {s : State} (ks : Keeps s0 s) : KeepsR s0 (execWidthReq l group s) := by
  unfold execWidthReq
  with_reducible repeat' (first | assumption | apply State.widthReqIn_keeps | apply KeepsR.next)

theorem State.widthMarkIn_keeps {s0 : State} {s : State} {l : Half} {g : Nat} (ks : Keeps s0 s) : Keeps s0 (State.widthMarkIn s l g) := by
  unfold State.widthMarkIn
  with_reducible repeat' (first | assumption | intro _ | (extract_lets +onlyGivenNames x; refine Keeps.have (Q := Keeps s0 x) ?_ ?_; dsimp -zeta -iota only [x]; clear x; rotate_left; clear_value x; revert x; intro _ _) | (extract_lets +onlyGivenNames x; clear_value x; revert x; intro _) | apply Keeps.ite | apply State.setFlag_keeps | apply State.setFld_keeps | apply State.updLink_keeps)

theorem execWidthMark_keeps {s0 : State} {l : Half} {group : Fin 8} {s : State} (ks : Keeps s0 s) : KeepsR s0 (execWidthMark l group s) := by
  unfold execWidthMark
  with_reducible repeat' (first | assumption | apply State.widthMarkIn_keeps | apply KeepsR.next)

theorem State.lockLost_keeps {s0 : State} {s : State} {l : Half} (ks : Keeps s0 s) : Keeps s0 (State.lockLost s l) := by
  unfold State.lockLost
  with_reducible repeat' (first | assumption | apply State.straitDown_keeps)

theorem execStraitLockLossTimeout_keeps {s0 : State} {l : Half} {s : State} (ks : Keeps s0 s) : KeepsR s0 (execStraitLockLossTimeout l s) := by
  unfold execStraitLockLossTimeout
  with_reducible repeat' (first | assumption | apply State.lockLost_keeps | apply KeepsR.next)

theorem State.lockReturn_keeps {s0 : State} {s : State} {l : Half} (ks : Keeps s0 s) : Keeps s0 (State.lockReturn s l) := by
  unfold State.lockReturn
  with_reducible repeat' (first | assumption | intro _ | apply Keeps.ite | apply State.setFld_keeps | split)

theorem execStraitLockReturn_keeps {s0 : State} {l : Half} {s : State} (ks : Keeps s0 s) : KeepsR s0 (execStraitLockReturn l s) := by
  unfold execStraitLockReturn
  with_reducible repeat' (first | assumption | apply State.lockReturn_keeps | apply KeepsR.next)

theorem execStraitKeyDrained_keeps {s0 : State} {l : Half} {s : State} (ks : Keeps s0 s) : KeepsR s0 (execStraitKeyDrained l s) := by
  unfold execStraitKeyDrained
  with_reducible repeat' (first | assumption | apply State.drainedKeys_keeps | apply KeepsR.next)

theorem State.keySwitchTimeout_keeps {s0 : State} {s : State} {l : Half} (ks : Keeps s0 s) : Keeps s0 (State.keySwitchTimeout s l) := by
  unfold State.keySwitchTimeout
  with_reducible repeat' (first | assumption | intro _ | apply Keeps.ite | apply State.straitDown_keeps)

theorem execStraitKeySwitchTimeout_keeps {s0 : State} {l : Half} {s : State} (ks : Keeps s0 s) : KeepsR s0 (execStraitKeySwitchTimeout l s) := by
  unfold execStraitKeySwitchTimeout
  with_reducible repeat' (first | assumption | apply State.keySwitchTimeout_keeps | apply KeepsR.next)

end Sys2Proof.Machine
end

