-- ==== Sys2Proof/Laws/KeepVotes.lean ====
section
/-! SUPPORT. The operations of Machine/Votes.lean break nothing (Laws/Keeps.lean). -/

namespace Sys2Proof.Machine

theorem State.domainDrop_keeps {s0 : State} {s : State} {n : Nat} (ks : Keeps s0 s) : Keeps s0 (State.domainDrop s n) := by
  unfold State.domainDrop
  with_reducible repeat' (first | assumption | intro _ | (extract_lets +onlyGivenNames x; clear_value x; revert x; intro _) | apply Keeps.ite | (simp -zeta -iota only [Keeps.mk_iff]; apply KeepsMk.of (h1 := by simp) (h2 := by simp) (h3 := by simp)))

theorem State.levelDone_keeps {s0 : State} {s : State} {n : Nat} (ks : Keeps s0 s) : Keeps s0 (State.levelDone s n) := by
  unfold State.levelDone
  with_reducible repeat' (first | assumption | intro _ | (extract_lets +onlyGivenNames x; refine Keeps.have (Q := Keeps s0 x) ?_ ?_; dsimp -zeta -iota only [x]; clear x; rotate_left; clear_value x; revert x; intro _ _) | (extract_lets +onlyGivenNames x; clear_value x; revert x; intro _) | apply Keeps.ite | apply State.setFld_keeps | (simp -zeta -iota only [Keeps.mk_iff]; apply KeepsMk.of (h1 := by simp) (h2 := by simp) (h3 := by simp)))

theorem execDomainDropTimeout_keeps {s0 : State} {n : Fin 33} {s : State} (ks : Keeps s0 s) : KeepsR s0 (execDomainDropTimeout n s) := by
  unfold execDomainDropTimeout
  with_reducible repeat' (first | assumption | apply State.domainDrop_keeps | apply KeepsR.next)

theorem execDomainLevelChangeDone_keeps {s0 : State} {n : Fin 33} {s : State} (ks : Keeps s0 s) : KeepsR s0 (execDomainLevelChangeDone n s) := by
  unfold execDomainLevelChangeDone
  with_reducible repeat' (first | assumption | apply State.levelDone_keeps | apply KeepsR.next)

end Sys2Proof.Machine
end

