-- ==== Sys2Proof/Laws/KeepFlash.lean ====
section
/-! SUPPORT. The operations of Machine/Flash.lean break nothing (Laws/Keeps.lean). -/

namespace Sys2Proof.Machine

theorem State.flashEnd_keeps {s0 : State} {s : State} {result : Nat} {reason : Nat} (ks : Keeps s0 s) : Keeps s0 (State.flashEnd s result reason) := by
  unfold State.flashEnd
  with_reducible repeat' (first | assumption | (extract_lets +onlyGivenNames x; refine Keeps.have (Q := Keeps s0 x) ?_ ?_; dsimp -zeta -iota only [x]; clear x; rotate_left; clear_value x; revert x; intro _ _) | (extract_lets +onlyGivenNames x; clear_value x; revert x; intro _) | apply State.setFlag_keeps | apply State.setFld_keeps | (simp -zeta -iota only [Keeps.mk_iff]; apply KeepsMk.of (h1 := by simp) (h2 := by simp) (h3 := by simp)))

theorem State.flashStart_keeps {s0 : State} {s : State} {op : Nat} {slot : Nat} {block : Nat} (ks : Keeps s0 s) : Keeps s0 (State.flashStart s op slot block) := by
  unfold State.flashStart
  with_reducible repeat' (first | assumption | intro _ | (extract_lets +onlyGivenNames x; refine Keeps.have (Q := Keeps s0 x) ?_ ?_; dsimp -zeta -iota only [x]; clear x; rotate_left; clear_value x; revert x; intro _ _) | (extract_lets +onlyGivenNames x; clear_value x; revert x; intro _) | apply Keeps.ite | apply State.setFlag_keeps | apply State.flashEnd_keeps | (simp -zeta -iota only [Keeps.mk_iff]; apply KeepsMk.of (h1 := by simp) (h2 := by simp) (h3 := by simp)))

theorem execEraseSlot_keeps {s0 : State} {slotB : Bool} {s : State} (ks : Keeps s0 s) : KeepsR s0 (execEraseSlot slotB s) := by
  unfold execEraseSlot
  with_reducible repeat' (first | assumption | apply State.flashStart_keeps | apply KeepsR.next)

theorem execProgram_keeps {s0 : State} {slotB : Bool} {block : Fin 8192} {s : State} (ks : Keeps s0 s) : KeepsR s0 (execProgram slotB block s) := by
  unfold execProgram
  with_reducible repeat' (first | assumption | apply State.flashStart_keeps | apply KeepsR.next)

theorem execVerify_keeps {s0 : State} {slotB : Bool} {s : State} (ks : Keeps s0 s) : KeepsR s0 (execVerify slotB s) := by
  unfold execVerify
  with_reducible repeat' (first | assumption | apply State.flashStart_keeps | apply KeepsR.next)

theorem State.putFlash_keeps {s0 : State} {s : State} {k : Nat} {v : Word} (ks : Keeps s0 s) : Keeps s0 (State.putFlash s k v) := by
  unfold State.putFlash
  with_reducible repeat' (first | assumption | (extract_lets +onlyGivenNames x; clear_value x; revert x; intro _) | (simp -zeta -iota only [Keeps.mk_iff]; apply KeepsMk.of (h1 := by simp) (h2 := by simp) (h3 := by simp)))

theorem State.freeFlash_keeps {s0 : State} {s : State} {k : Nat} (ks : Keeps s0 s) : Keeps s0 (State.freeFlash s k) := by
  unfold State.freeFlash
  with_reducible repeat' (first | assumption | apply State.putFlash_keeps | (refine (State.freeNat_keeps ?_).out))

theorem State.flashDone_keeps {s0 : State} {s : State} {err : Bool} (ks : Keeps s0 s) : Keeps s0 (State.flashDone s err) := by
  unfold State.flashDone
  with_reducible repeat' (first | assumption | intro _ | (extract_lets +onlyGivenNames x; refine Keeps.have (Q := Keeps s0 x) ?_ ?_; dsimp -zeta -iota only [x]; clear x; rotate_left; clear_value x; revert x; intro _ _) | (extract_lets +onlyGivenNames x; clear_value x; revert x; intro _) | apply Keeps.ite | apply State.putFlash_keeps | apply State.say_keeps | apply State.freeFlash_keeps | apply State.flashEnd_keeps | apply State.each_keeps | (simp -zeta -iota only [Keeps.mk_iff]; apply KeepsMk.of (h1 := by simp) (h2 := by simp) (h3 := by simp)) | split)

theorem execFlashOpDone_keeps {s0 : State} {err : Bool} {s : State} (ks : Keeps s0 s) : KeepsR s0 (execFlashOpDone err s) := by
  unfold execFlashOpDone
  with_reducible repeat' (first | assumption | apply State.flashDone_keeps | apply KeepsR.next)

end Sys2Proof.Machine
end

