-- ==== Sys2Proof/Laws/KeepPmu.lean ====
section
/-! SUPPORT. The operations of Machine/Pmu.lean break nothing (Laws/Keeps.lean). -/

namespace Sys2Proof.Machine

theorem State.clockTick_keeps {s0 : State} {s : State} {h : Half} {clk : Nat} (ks : Keeps s0 s) : Keeps1 s0 (State.clockTick s h clk) := by
  unfold State.clockTick
  with_reducible repeat' (first | assumption | (extract_lets +onlyGivenNames x; clear_value x; revert x; intro _) | (simp -zeta -iota only [Keeps1.pair]) | (simp -zeta -iota only [Keeps.mk_iff]; apply KeepsMk.of (h1 := by simp) (h2 := by simp) (h3 := by simp)))

theorem State.valueTick_keeps {s0 : State} {s : State} {h : Half} {cycles : List Nat} {n : Nat} (ks : Keeps s0 s) : Keeps s0 (State.valueTick s h cycles n) := by
  unfold State.valueTick
  with_reducible repeat' (first | assumption | intro _ | (extract_lets +onlyGivenNames x; refine Keeps.have (Q := Keeps s0 x) ?_ ?_; dsimp -zeta -iota only [x]; clear x; rotate_left; clear_value x; revert x; intro _ _) | (extract_lets +onlyGivenNames x; clear_value x; revert x; intro _) | apply Keeps.ite | apply State.addCounter_keeps | (simp -zeta -iota only [Keeps.mk_iff]; apply KeepsMk.of (h1 := by simp) (h2 := by simp) (h3 := by simp)))

theorem State.pmuTick_keeps {s0 : State} {s : State} {h : Half} (ks : Keeps s0 s) : Keeps s0 (State.pmuTick s h) := by
  unfold State.pmuTick
  with_reducible repeat' (first | assumption | intro _ | apply Keeps.ite | apply State.clockTick_keeps | apply State.valueTick_keeps | apply State.fixed_keeps | (simp -zeta -iota only [Keeps1.pair]) | apply State.each_keeps | (refine (Keeps1.foldl ?_ ?_).out) | (refine Keeps1.eq (by assumption) ?_) | (exact Keeps1.out (by assumption)) | split)

theorem State.freezeWrite_keeps {s0 : State} {s : State} {v : Nat} (ks : Keeps s0 s) : Keeps s0 (State.freezeWrite s v) := by
  unfold State.freezeWrite
  with_reducible repeat' (first | assumption | apply State.setFlag_keeps)

theorem execPmuFreezeWrite_keeps {s0 : State} {value : Word} {s : State} (ks : Keeps s0 s) : KeepsR s0 (execPmuFreezeWrite value s) := by
  unfold execPmuFreezeWrite
  with_reducible repeat' (first | assumption | intro _ | apply State.freezeWrite_keeps | apply State.write_keeps | apply KeepsR.next)

theorem State.ctlWrite_keeps {s0 : State} {s : State} {h : Half} {n : Nat} {v : Nat} (ks : Keeps s0 s) : Keeps s0 (State.ctlWrite s h n v) := by
  unfold State.ctlWrite
  with_reducible repeat' (first | assumption | apply State.setReg_keeps)

theorem execPmuCtlWrite_keeps {s0 : State} {h : Half} {n : Fin 64} {value : Word} {s : State} (ks : Keeps s0 s) : KeepsR s0 (execPmuCtlWrite h n value s) := by
  unfold execPmuCtlWrite
  with_reducible repeat' (first | assumption | intro _ | apply State.write_keeps | apply State.ctlWrite_keeps | apply KeepsR.next)

theorem State.counterWrite_keeps {s0 : State} {s : State} {h : Half} {fixed : Bool} {n : Nat} {v : Nat} (ks : Keeps s0 s) : Keeps s0 (State.counterWrite s h fixed n v) := by
  unfold State.counterWrite
  with_reducible repeat' (first | assumption | intro _ | apply Keeps.ite | apply State.setFld_keeps)

theorem execPmuCounterWrite_keeps {s0 : State} {h : Half} {fixed : Bool} {n : Fin 64} {value : Word} {s : State} (ks : Keeps s0 s) : KeepsR s0 (execPmuCounterWrite h fixed n value s) := by
  unfold execPmuCounterWrite
  with_reducible repeat' (first | assumption | intro _ | apply State.write_keeps | apply State.counterWrite_keeps | apply KeepsR.next)

theorem State.samplingWrite_keeps {s0 : State} {s : State} {h : Half} {v : Nat} (ks : Keeps s0 s) : Keeps s0 (State.samplingWrite s h v) := by
  unfold State.samplingWrite
  with_reducible repeat' (first | assumption | intro _ | (extract_lets +onlyGivenNames x; refine Keeps.have (Q := Keeps s0 x) ?_ ?_; dsimp -zeta -iota only [x]; clear x; rotate_left; clear_value x; revert x; intro _ _) | (extract_lets +onlyGivenNames x; clear_value x; revert x; intro _) | apply Keeps.ite | apply State.setReg_keeps | apply State.drawCount_keeps)

theorem execSamplingEnable_keeps {s0 : State} {h : Half} {value : Word} {s : State} (ks : Keeps s0 s) : KeepsR s0 (execSamplingEnable h value s) := by
  unfold execSamplingEnable
  with_reducible repeat' (first | assumption | intro _ | apply State.write_keeps | apply State.samplingWrite_keeps | apply KeepsR.next)

end Sys2Proof.Machine
end

