-- ==== Sys2Proof/Laws/KeepRegAccess.lean ====
section
/-! SUPPORT. The operations of Machine/RegAccess.lean break nothing (Laws/Keeps.lean). -/

namespace Sys2Proof.Machine

theorem State.fmLock_keeps {s0 : State} {s : State} {path : RegPath} (ks : Keeps s0 s) : Keeps s0 (State.fmLock s path) := by
  unfold State.fmLock
  with_reducible repeat' (first | assumption | intro _ | (extract_lets +onlyGivenNames x; refine Keeps.have (Q := Keeps s0 x) ?_ ?_; dsimp -zeta -iota only [x]; clear x; rotate_left; clear_value x; revert x; intro _ _) | (extract_lets +onlyGivenNames x; clear_value x; revert x; intro _) | apply Keeps.ite | apply State.setFlag_keeps | apply State.setFld_keeps | apply State.each_keeps | (simp -zeta -iota only [Keeps.mk_iff]; apply KeepsMk.of (h1 := by simp) (h2 := by simp) (h3 := by simp)))

theorem execFmFeatureLock_keeps {s0 : State} {path : RegPath} {s : State} (ks : Keeps s0 s) : KeepsR s0 (execFmFeatureLock path s) := by
  unfold execFmFeatureLock
  with_reducible repeat' (first | assumption | intro _ | apply Keeps.ite | apply State.write_keeps | apply State.fmLock_keeps | apply KeepsR.next)

theorem State.revertGroup_keeps {s0 : State} {s : State} {g : Nat} (ks : Keeps s0 s) : Keeps s0 (State.revertGroup s g) := by
  unfold State.revertGroup
  with_reducible repeat' (first | assumption | intro _ | (extract_lets +onlyGivenNames x; refine Keeps.have (Q := Keeps s0 x) ?_ ?_; dsimp -zeta -iota only [x]; clear x; rotate_left; clear_value x; revert x; intro _ _) | apply Keeps.ite | apply State.setFlag_keeps | apply State.updMap_keeps | apply State.setBit_keeps | apply State.setFld_keeps | apply State.dropStaged_keeps | apply State.disown_keeps | apply State.each_keeps | (simp -zeta -iota only [Keeps.mk_iff]; apply KeepsMk.of (h1 := by simp) (h2 := by simp) (h3 := by simp)) | split)

theorem State.revert_keeps {s0 : State} {s : State} {v : Nat} (ks : Keeps s0 s) : Keeps s0 (State.revert s v) := by
  unfold State.revert
  with_reducible repeat' (first | assumption | intro _ | apply Keeps.ite | apply State.revertGroup_keeps | apply State.each_keeps)

theorem execShadowRevert_keeps {s0 : State} {value : Word} {s : State} (ks : Keeps s0 s) : KeepsR s0 (execShadowRevert value s) := by
  unfold execShadowRevert
  with_reducible repeat' (first | assumption | intro _ | apply State.write_keeps | apply State.revert_keeps | apply KeepsR.next)

theorem State.shadowSet_keeps {s0 : State} {s : State} {r : RegName} {i : Nat} {off : Nat} {new : Nat} (ks : Keeps s0 s) : Keeps s0 (State.shadowSet s r i off new) := by
  unfold State.shadowSet
  with_reducible repeat' (first | assumption | (extract_lets +onlyGivenNames x; refine Keeps.have (Q := Keeps s0 x) ?_ ?_; dsimp -zeta -iota only [x]; clear x; rotate_left; clear_value x; revert x; intro _ _) | (extract_lets +onlyGivenNames x; clear_value x; revert x; intro _) | apply State.setReg_keeps | apply State.shadowWrite_keeps | apply State.wantTable_keeps | apply State.pendWrite_keeps | (simp -zeta -iota only [Keeps.mk_iff]; apply KeepsMk.of (h1 := by simp) (h2 := by simp) (h3 := by simp)) | split)

theorem State.pinCtrl_keeps {s0 : State} {s : State} {alarm : Bool} {new : Nat} {act : Nat} (ks : Keeps s0 s) : Keeps s0 (State.pinCtrl s alarm new act) := by
  unfold State.pinCtrl
  with_reducible repeat' (first | assumption | intro _ | (extract_lets +onlyGivenNames x; refine Keeps.have (Q := Keeps s0 x) ?_ ?_; dsimp -zeta -iota only [x]; clear x; rotate_left; clear_value x; revert x; intro _ _) | apply Keeps.ite | apply State.errRelease_keeps | apply State.setFlag_keeps | apply State.alarmPin_keeps | apply State.errPin_keeps | apply State.alarmRelease_keeps)

theorem State.plainSet_keeps {s0 : State} {s : State} {path : RegPath} {r : RegName} {i : Nat} {j : Nat} {off : Nat} {new : Nat} {act : Nat} {whole : Bool} (ks : Keeps s0 s) : Keeps s0 (State.plainSet s path r i j off new act whole) := by
  unfold State.plainSet
  with_reducible repeat' (first | assumption | intro _ | (extract_lets +onlyGivenNames x; refine Keeps.have (Q := Keeps s0 x) ?_ ?_; dsimp -zeta -iota only [x]; clear x; rotate_left; clear_value x; revert x; intro _ _) | (extract_lets +onlyGivenNames x; clear_value x; revert x; intro _) | apply Keeps.ite | apply State.histClear_keeps | apply State.zeroStart_keeps | apply State.setReg_keeps | apply State.setFlag_keeps | apply State.pinCtrl_keeps | apply State.tbTod_keeps | apply State.faultAck_keeps | apply State.checkReserves_keeps | apply State.commitReq_keeps | apply State.keyLoad_keeps | apply State.tierCfg_keeps | apply State.hswCtrlWrite_keeps | apply State.captureArm_keeps | apply State.setClear_keeps | apply State.injArm_keeps | apply State.keyEraseCmd_keeps | apply State.tbStep_keeps | apply State.samplingWrite_keeps | apply State.counterWrite_keeps | apply State.slotEnable_keeps | apply State.telemClear_keeps | apply State.tierDomSet_keeps | apply State.startCheck_keeps | apply State.flashStart_keeps | apply State.revert_keeps | apply State.retrain_keeps | apply State.tierCapCfg_keeps | apply State.fmLock_keeps | apply State.setActivate_keeps | apply State.twCfgWrite_keeps | apply State.tbCfgWrite_keeps | (simp -zeta -iota only [Keeps.mk_iff]; apply KeepsMk.of (h1 := by simp) (h2 := by simp) (h3 := by simp)) | split)

theorem State.setPriv_keeps {s0 : State} {s : State} {path : RegPath} {off : Nat} {v : Nat} {lanes : Lanes} (ks : Keeps s0 s) : Keeps s0 (State.setPriv s path off v lanes) := by
  unfold State.setPriv
  with_reducible repeat' (first | assumption | intro _ | (extract_lets +onlyGivenNames x; clear_value x; revert x; intro _) | apply Keeps.ite | apply State.shadowSet_keeps | apply State.plainSet_keeps | apply State.groupWrite_keeps | split)

theorem State.writePriv_keeps {s0 : State} {s : State} {path : RegPath} {off : Nat} {v : Nat} {lanes : Lanes} (ks : Keeps s0 s) : Keeps s0 (State.writePriv s path off v lanes) := by
  unfold State.writePriv
  with_reducible repeat' (first | assumption | intro _ | (extract_lets +onlyGivenNames x; clear_value x; revert x; intro _) | apply Keeps.ite | apply State.write_keeps | apply State.setPriv_keeps | split)

theorem State.clearRc_keeps {s0 : State} {s : State} {r : RegRow} {i : Nat} {k : Nat} (ks : Keeps s0 s) : Keeps s0 (State.clearRc s r i k) := by
  unfold State.clearRc
  with_reducible repeat' (first | assumption | intro _ | apply Keeps.ite | apply State.setReg_keeps)

theorem State.readPriv_keeps {s0 : State} {s : State} {off : Nat} {lanes : Lanes} (ks : Keeps s0 s) : Keeps1 s0 (State.readPriv s off lanes) := by
  unfold State.readPriv
  with_reducible repeat' (first | assumption | intro _ | (extract_lets +onlyGivenNames x; clear_value x; revert x; intro _) | apply Keeps1.ite | apply State.clearRc_keeps | apply State.timeRead_keeps | (simp -zeta -iota only [Keeps1.pair]) | (refine Keeps1.eq (by assumption) ?_) | split)

theorem State.setBar0_keeps {s0 : State} {s : State} {fn : Nat} {off : Nat} {v : Nat} {lanes : Lanes} (ks : Keeps s0 s) : Keeps s0 (State.setBar0 s fn off v lanes) := by
  unfold State.setBar0
  with_reducible repeat' (first | assumption | intro _ | (extract_lets +onlyGivenNames x; refine Keeps.have (Q := Keeps s0 x) ?_ ?_; dsimp -zeta -iota only [x]; clear x; rotate_left; clear_value x; revert x; intro _ _) | (extract_lets +onlyGivenNames x; clear_value x; revert x; intro _) | apply Keeps.ite | apply State.setReg_keeps | apply State.getRecord_keeps | apply State.ringTail_keeps | apply State.setBit_keeps | apply State.featureLock_keeps | apply State.mboxEnd_keeps | apply State.ringEnable_keeps | apply State.ringDisable_keeps | apply State.mboxWrite_keeps | apply State.emit_keeps | apply State.abortClear_keeps | split)

theorem State.writeBar0_keeps {s0 : State} {s : State} {p : Nat} {ld : Nat} {off : Nat} {v : Nat} {lanes : Lanes} (ks : Keeps s0 s) : Keeps s0 (State.writeBar0 s p ld off v lanes) := by
  unfold State.writeBar0
  with_reducible repeat' (first | assumption | intro _ | apply Keeps.ite | apply State.setBar0_keeps | apply State.barWrite_keeps)

theorem State.readBar0_keeps {s0 : State} {s : State} {fn : Nat} {off : Nat} {lanes : Lanes} (ks : Keeps s0 s) : Keeps1 s0 (State.readBar0 s fn off lanes) := by
  unfold State.readBar0
  with_reducible repeat' (first | assumption | intro _ | (extract_lets +onlyGivenNames x; clear_value x; revert x; intro _) | apply Keeps1.ite | apply State.clearRc_keeps | (simp -zeta -iota only [Keeps1.pair]) | split)

theorem State.accessWrite_keeps {s0 : State} {s : State} {view : RegView} {off : Nat} {v : Nat} {lanes : Lanes} (ks : Keeps s0 s) : Keeps s0 (State.accessWrite s view off v lanes) := by
  unfold State.accessWrite
  with_reducible repeat' (first | assumption | intro _ | apply Keeps.ite | apply State.badAccess_keeps | apply State.writeBar0_keeps | apply State.writePriv_keeps | split)

theorem execRegisterWrite_keeps {s0 : State} {view : RegView} {offset : Nat} {value : Word} {lanes : Lanes} {s : State} (ks : Keeps s0 s) : KeepsR s0 (execRegisterWrite view offset value lanes s) := by
  unfold execRegisterWrite
  with_reducible repeat' (first | assumption | apply State.accessWrite_keeps | apply KeepsR.next)

theorem State.accessRead_keeps {s0 : State} {s : State} {view : RegView} {off : Nat} {lanes : Lanes} (ks : Keeps s0 s) : Keeps s0 (State.accessRead s view off lanes) := by
  unfold State.accessRead
  with_reducible repeat' (first | assumption | intro _ | (extract_lets +onlyGivenNames x; clear_value x; revert x; intro _) | apply Keeps.ite | (refine (State.readPriv_keeps ?_).out) | apply State.badAccess_keeps | (refine (State.readBar0_keeps ?_).out) | apply State.emit_keeps | split)

theorem execReadClear_keeps {s0 : State} {view : RegView} {offset : Nat} {lanes : Lanes} {s : State} (ks : Keeps s0 s) : KeepsR s0 (execReadClear view offset lanes s) := by
  unfold execReadClear
  with_reducible repeat' (first | assumption | apply State.accessRead_keeps | apply KeepsR.next)

theorem State.regCommand_keeps {s0 : State} {s : State} {path : RegPath} {off : Nat} {count : Nat} {argsOk : Bool} {f : State → State} (ks : Keeps s0 s) (hff : ∀ u, Keeps s0 u → Keeps s0 (f u)) : Keeps s0 (State.regCommand s path off count argsOk f) := by
  unfold State.regCommand
  with_reducible repeat' (first | assumption | intro _ | apply Keeps.ite | apply hff | apply State.emit_keeps)

theorem execRegRead_keeps {s0 : State} {path : RegPath} {offset : Nat} {count : Nat} {s : State} (ks : Keeps s0 s) : KeepsR s0 (execRegRead path offset count s) := by
  unfold execRegRead
  with_reducible repeat' (first | assumption | intro _ | apply State.readPriv_keeps | apply State.regCommand_keeps | apply State.emit_keeps | (simp -zeta -iota only [Keeps1.pair]) | apply KeepsR.next | (refine (Keeps1.foldl ?_ ?_).out) | (refine Keeps1.eq (by assumption) ?_) | (exact Keeps1.out (by assumption)) | split)

theorem execRegWrite_keeps {s0 : State} {path : RegPath} {offset : Nat} {count : Nat} {values : List Word} {s : State} (ks : Keeps s0 s) : KeepsR s0 (execRegWrite path offset count values s) := by
  unfold execRegWrite
  with_reducible repeat' (first | assumption | intro _ | apply State.writePriv_keeps | apply State.regCommand_keeps | apply State.emit_keeps | apply KeepsR.next | apply State.each_keeps)

end Sys2Proof.Machine
end

