-- ==== Sys2Proof/Laws/KeepBoot.lean ====
section
/-! SUPPORT. The operations of Machine/Boot.lean break nothing (Laws/Keeps.lean). -/

namespace Sys2Proof.Machine

theorem execColdReset_keeps {s0 : State} {s : State} (ks : Keeps s0 s) : KeepsR s0 (execColdReset s) := by
  unfold execColdReset
  with_reducible repeat' (first | assumption | apply State.railsDown_keeps | apply State.deviceReset_keeps | apply KeepsR.next)

theorem State.cleanCheck_keeps {s0 : State} {s : State} (ks : Keeps s0 s) : Keeps s0 (State.cleanCheck s) := by
  unfold State.cleanCheck
  with_reducible repeat' (first | assumption | intro _ | (extract_lets +onlyGivenNames x; refine Keeps.have (Q := Keeps s0 x) ?_ ?_; dsimp -zeta -iota only [x]; clear x; rotate_left; clear_value x; revert x; intro _ _) | (extract_lets +onlyGivenNames x; clear_value x; revert x; intro _) | apply Keeps.ite | apply State.logRecord_keeps | (simp -zeta -iota only [Keeps.mk_iff]; apply KeepsMk.of (h1 := by simp) (h2 := by simp) (h3 := by simp)))

theorem State.latchStraps_keeps {s0 : State} {s : State} {selA : Bool} {selB : Bool} {pair : Nat} {dev : Nat} (ks : Keeps s0 s) : Keeps s0 (State.latchStraps s selA selB pair dev) := by
  unfold State.latchStraps
  with_reducible repeat' (first | assumption | (extract_lets +onlyGivenNames x; refine Keeps.have (Q := Keeps s0 x) ?_ ?_; dsimp -zeta -iota only [x]; clear x; rotate_left; clear_value x; revert x; intro _ _) | (extract_lets +onlyGivenNames x; clear_value x; revert x; intro _) | apply State.setFlag_keeps | apply State.setFld_keeps | (simp -zeta -iota only [Keeps.mk_iff]; apply KeepsMk.of (h1 := by simp) (h2 := by simp) (h3 := by simp)))

theorem State.bootBegin_keeps {s0 : State} {s : State} {selA : Bool} {selB : Bool} {pair : Nat} {dev : Nat} (ks : Keeps s0 s) : Keeps s0 (State.bootBegin s selA selB pair dev) := by
  unfold State.bootBegin
  with_reducible repeat' (first | assumption | (extract_lets +onlyGivenNames x; clear_value x; revert x; intro _) | (refine (State.freeNat_keeps ?_).out) | apply State.railStart_keeps | apply State.latchStraps_keeps | apply State.cleanCheck_keeps | (simp -zeta -iota only [Keeps.mk_iff]; apply KeepsMk.of (h1 := by simp) (h2 := by simp) (h3 := by simp)))

theorem execBootStart_keeps {s0 : State} {leaderSelA : Bool} {leaderSelB : Bool} {pairId : BitVec 2} {deviceId : BitVec 12} {s : State} (ks : Keeps s0 s) : KeepsR s0 (execBootStart leaderSelA leaderSelB pairId deviceId s) := by
  unfold execBootStart
  with_reducible repeat' (first | assumption | intro _ | apply Keeps.ite | apply State.bootBegin_keeps | apply KeepsR.next)

theorem State.enablePort_keeps {s0 : State} {s : State} {p : Nat} (ks : Keeps s0 s) : Keeps s0 (State.enablePort s p) := by
  unfold State.enablePort
  with_reducible repeat' (first | assumption | intro _ | (extract_lets +onlyGivenNames x; refine Keeps.have (Q := Keeps s0 x) ?_ ?_; dsimp -zeta -iota only [x]; clear x; rotate_left; clear_value x; revert x; intro _ _) | (extract_lets +onlyGivenNames x; refine Keeps.isFun x ?_; dsimp -zeta -iota only [x]; clear x) | apply Keeps.ite | apply State.setFlag_keeps | apply State.say_keeps | apply State.resetFunc_keeps | apply State.updPort_keeps | apply State.each_keeps)

theorem State.enablePorts_keeps {s0 : State} {s : State} (ks : Keeps s0 s) : Keeps s0 (State.enablePorts s) := by
  unfold State.enablePorts
  with_reducible repeat' (first | assumption | intro _ | (extract_lets +onlyGivenNames x; refine Keeps.have (Q := Keeps s0 x) ?_ ?_; dsimp -zeta -iota only [x]; clear x; rotate_left; clear_value x; revert x; intro _ _) | (extract_lets +onlyGivenNames x; clear_value x; revert x; intro _) | apply State.enablePort_keeps | apply State.checkReserves_keeps | apply State.each_keeps | (simp -zeta -iota only [Keeps.mk_iff]; apply KeepsMk.of (h1 := by simp) (h2 := by simp) (h3 := by simp)))

theorem State.setLocks_keeps {s0 : State} {s : State} (ks : Keeps s0 s) : Keeps s0 (State.setLocks s) := by
  unfold State.setLocks
  with_reducible repeat' (first | assumption | intro _ | (extract_lets +onlyGivenNames x; clear_value x; revert x; intro _) | apply State.setFlag_keeps | apply State.each_keeps)

theorem State.recordIgnored_keeps {s0 : State} {s : State} (ks : Keeps s0 s) : Keeps s0 (State.recordIgnored s) := by
  unfold State.recordIgnored
  with_reducible repeat' (first | assumption | intro _ | (extract_lets +onlyGivenNames x; refine Keeps.have (Q := Keeps s0 x) ?_ ?_; dsimp -zeta -iota only [x]; clear x; rotate_left; clear_value x; revert x; intro _ _) | (extract_lets +onlyGivenNames x; clear_value x; revert x; intro _) | apply Keeps.ite | apply State.setFld_keeps | apply State.say_keeps | (simp -zeta -iota only [Keeps.mk_iff]; apply KeepsMk.of (h1 := by simp) (h2 := by simp) (h3 := by simp)))

theorem State.applyRecord_keeps {s0 : State} {s : State} {r : Nat × Nat} (ks : Keeps s0 s) : Keeps s0 (State.applyRecord s r) := by
  unfold State.applyRecord
  with_reducible repeat' (first | assumption | intro _ | (extract_lets +onlyGivenNames x; refine Keeps.have (Q := Keeps s0 x) ?_ ?_; dsimp -zeta -iota only [x]; clear x; rotate_left; clear_value x; revert x; intro _ _) | (extract_lets +onlyGivenNames x; clear_value x; revert x; intro _) | apply Keeps.ite | apply State.recordIgnored_keeps | apply State.setPriv_keeps | (simp -zeta -iota only [Keeps.mk_iff]; apply KeepsMk.of (h1 := by simp) (h2 := by simp) (h3 := by simp)) | split)

theorem State.applyRecords_keeps {s0 : State} {s : State} {typ : Nat} (ks : Keeps s0 s) : Keeps s0 (State.applyRecords s typ) := by
  unfold State.applyRecords
  with_reducible repeat' (first | assumption | intro _ | apply State.applyRecord_keeps | apply State.each_keeps)

theorem State.bootCommit_keeps {s0 : State} {s : State} {g : Nat} (ks : Keeps s0 s) : Keeps s0 (State.bootCommit s g) := by
  unfold State.bootCommit
  with_reducible repeat' (first | assumption | intro _ | (extract_lets +onlyGivenNames x; refine Keeps.have (Q := Keeps s0 x) ?_ ?_; dsimp -zeta -iota only [x]; clear x; rotate_left; clear_value x; revert x; intro _ _) | apply Keeps.ite | apply State.applyGroups_keeps | apply State.setBit_keeps | (refine (State.freeNat_keeps ?_).out) | apply State.commitResult_keeps | apply State.say_keeps | apply State.commitDone_keeps | (refine (State.checkGroups_keeps ?_).out))

theorem State.loadPatches_keeps {s0 : State} {s : State} (ks : Keeps s0 s) : Keeps s0 (State.loadPatches s) := by
  unfold State.loadPatches
  with_reducible repeat' (first | assumption | intro _ | (extract_lets +onlyGivenNames x; clear_value x; revert x; intro _) | apply Keeps.ite | apply State.setFlag_keeps | apply State.setFld_keeps | apply State.say_keeps | (simp -zeta -iota only [Keeps.mk_iff]; apply KeepsMk.of (h1 := by simp) (h2 := by simp) (h3 := by simp)))

theorem State.describe_keeps {s0 : State} {s : State} {slotB : Bool} (ks : Keeps s0 s) : Keeps s0 (State.describe s slotB) := by
  unfold State.describe
  with_reducible repeat' (first | assumption | (extract_lets +onlyGivenNames x; refine Keeps.have (Q := Keeps s0 x) ?_ ?_; dsimp -zeta -iota only [x]; clear x; rotate_left; clear_value x; revert x; intro _ _) | (extract_lets +onlyGivenNames x; clear_value x; revert x; intro _) | apply State.setFlag_keeps | apply State.setFld_keeps)

theorem State.fixIdentity_keeps {s0 : State} {s : State} (ks : Keeps s0 s) : Keeps s0 (State.fixIdentity s) := by
  unfold State.fixIdentity
  with_reducible repeat' (first | assumption | (extract_lets +onlyGivenNames x; clear_value x; revert x; intro _) | apply State.setFld_keeps)

theorem State.powerSlots_keeps {s0 : State} {s : State} (ks : Keeps s0 s) : Keeps s0 (State.powerSlots s) := by
  unfold State.powerSlots
  with_reducible repeat' (first | assumption | intro _ | apply State.setBit_keeps | apply State.each_keeps)

theorem State.loadSets_keeps {s0 : State} {s : State} (ks : Keeps s0 s) : Keeps s0 (State.loadSets s) := by
  unfold State.loadSets
  with_reducible repeat' (first | assumption | intro _ | (extract_lets +onlyGivenNames x; refine Keeps.have (Q := Keeps s0 x) ?_ ?_; dsimp -zeta -iota only [x]; clear x; rotate_left; clear_value x; revert x; intro _ _) | (extract_lets +onlyGivenNames x; clear_value x; revert x; intro _) | apply Keeps.ite | apply State.setReg_keeps | apply State.say_keeps | apply State.setActivate_keeps | apply State.each_keeps)

theorem State.early_keeps {s0 : State} {s : State} {slotB : Bool} (ks : Keeps s0 s) : Keeps s0 (State.early s slotB) := by
  unfold State.early
  with_reducible repeat' (first | assumption | (extract_lets +onlyGivenNames x; refine Keeps.have (Q := Keeps s0 x) ?_ ?_; dsimp -zeta -iota only [x]; clear x; rotate_left; clear_value x; revert x; intro _ _) | (extract_lets +onlyGivenNames x; clear_value x; revert x; intro _) | apply State.applyRecords_keeps | apply State.enablePorts_keeps | apply State.setLocks_keeps | apply State.nextBlob_keeps | apply State.loadPatches_keeps | apply State.enterPhase_keeps | apply State.describe_keeps | apply State.bootCommit_keeps | apply State.loadSets_keeps | apply State.fixIdentity_keeps | apply State.powerSlots_keeps | (simp -zeta -iota only [Keeps.mk_iff]; apply KeepsMk.of (h1 := by simp) (h2 := by simp) (h3 := by simp)))

theorem State.recovery_keeps {s0 : State} {s : State} (ks : Keeps s0 s) : Keeps s0 (State.recovery s) := by
  unfold State.recovery
  with_reducible repeat' (first | assumption | intro _ | (extract_lets +onlyGivenNames x; refine Keeps.have (Q := Keeps s0 x) ?_ ?_; dsimp -zeta -iota only [x]; clear x; rotate_left; clear_value x; revert x; intro _ _) | apply State.enablePorts_keeps | apply State.setFlag_keeps | apply State.setFld_keeps | apply State.setLocks_keeps | apply State.enterPhase_keeps | apply State.errPin_keeps | apply State.say_keeps | apply State.each_keeps)

theorem State.imageDone_keeps {s0 : State} {s : State} {readFail : Bool} (ks : Keeps s0 s) : Keeps s0 (State.imageDone s readFail) := by
  unfold State.imageDone
  with_reducible repeat' (first | assumption | intro _ | (extract_lets +onlyGivenNames x; refine Keeps.have (Q := Keeps s0 x) ?_ ?_; dsimp -zeta -iota only [x]; clear x; rotate_left; clear_value x; revert x; intro _ _) | (extract_lets +onlyGivenNames x; clear_value x; revert x; intro _) | apply Keeps.ite | apply State.setFld_keeps | apply State.say_keeps | apply State.recovery_keeps | apply State.early_keeps | (simp -zeta -iota only [Keeps.mk_iff]; apply KeepsMk.of (h1 := by simp) (h2 := by simp) (h3 := by simp)))

theorem execImageCheckDone_keeps {s0 : State} {readFail : Bool} {s : State} (ks : Keeps s0 s) : KeepsR s0 (execImageCheckDone readFail s) := by
  unfold execImageCheckDone
  with_reducible repeat' (first | assumption | apply State.imageDone_keeps | apply KeepsR.next)

theorem State.restoreGrants_keeps {s0 : State} {s : State} (ks : Keeps s0 s) : Keeps s0 (State.restoreGrants s) := by
  unfold State.restoreGrants
  with_reducible repeat' (first | assumption | intro _ | apply Keeps.ite | apply State.setFld_keeps | apply State.each_keeps | split)

theorem State.apply_keeps {s0 : State} {s : State} (ks : Keeps s0 s) : Keeps s0 (State.apply s) := by
  unfold State.apply
  with_reducible repeat' (first | assumption | intro _ | (extract_lets +onlyGivenNames x; refine Keeps.have (Q := Keeps s0 x) ?_ ?_; dsimp -zeta -iota only [x]; clear x; rotate_left; clear_value x; revert x; intro _ _) | apply State.applyRecords_keeps | apply State.endCheck_keeps | apply State.stageTable_keeps | apply State.restoreGrants_keeps | apply State.enterPhase_keeps | apply State.recapAll_keeps | apply State.bootCommit_keeps | apply State.fixReserve_keeps | apply State.startCheck_keeps | apply State.each_keeps)

theorem execBootTrainDone_keeps {s0 : State} {s : State} (ks : Keeps s0 s) : KeepsR s0 (execBootTrainDone s) := by
  unfold execBootTrainDone
  with_reducible repeat' (first | assumption | intro _ | apply Keeps.ite | apply State.apply_keeps | apply KeepsR.next)

theorem State.burnRevoked_keeps {s0 : State} {s : State} {mask : Nat} (ks : Keeps s0 s) : Keeps s0 (State.burnRevoked s mask) := by
  unfold State.burnRevoked
  rw [Keeps.mk_iff]
  exact KeepsMk.ofBurn ks rfl rfl rfl

theorem State.rollbackAdvance_keeps {s0 : State} {s : State} (ks : Keeps s0 s) : Keeps s0 (State.rollbackAdvance s) := by
  unfold State.rollbackAdvance
  with_reducible repeat' (first | assumption | intro _ | (extract_lets +onlyGivenNames x; refine Keeps.have (Q := Keeps s0 x) ?_ ?_; dsimp -zeta -iota only [x]; clear x; rotate_left; clear_value x; revert x; intro _ _) | (extract_lets +onlyGivenNames x; clear_value x; revert x; intro _) | apply Keeps.ite | apply State.burnRevoked_keeps | apply State.setFlag_keeps | apply State.setFld_keeps | apply State.say_keeps)

theorem State.memoryOn_keeps {s0 : State} {s : State} (ks : Keeps s0 s) : Keeps s0 (State.memoryOn s) := by
  unfold State.memoryOn
  with_reducible repeat' (first | assumption | intro _ | (extract_lets +onlyGivenNames x; refine Keeps.have (Q := Keeps s0 x) ?_ ?_; dsimp -zeta -iota only [x]; clear x; rotate_left; clear_value x; revert x; intro _ _) | (extract_lets +onlyGivenNames x; clear_value x; revert x; intro _) | apply Keeps.ite | apply State.enterDetect_keeps | apply State.enterPhase_keeps | apply State.rollbackAdvance_keeps | apply State.straitPaired_keeps | apply State.each_keeps | (simp -zeta -iota only [Keeps.mk_iff]; apply KeepsMk.of (h1 := by simp) (h2 := by simp) (h3 := by simp)))

theorem State.timeWaitEnd_keeps {s0 : State} {s : State} {elapsed : Bool} (ks : Keeps s0 s) : Keeps s0 (State.timeWaitEnd s elapsed) := by
  unfold State.timeWaitEnd
  with_reducible repeat' (first | assumption | intro _ | apply Keeps.ite | apply State.memoryOn_keeps | apply State.setFlag_keeps | apply State.say_keeps)

theorem execBootTimeWaitEnd_keeps {s0 : State} {elapsed : Bool} {s : State} (ks : Keeps s0 s) : KeepsR s0 (execBootTimeWaitEnd elapsed s) := by
  unfold execBootTimeWaitEnd
  with_reducible repeat' (first | assumption | apply State.timeWaitEnd_keeps | apply KeepsR.next)

theorem State.applyOver_keeps {s0 : State} {s : State} (ks : Keeps s0 s) : Keeps s0 (State.applyOver s) := by
  unfold State.applyOver
  with_reducible repeat' (first | assumption | intro _ | (extract_lets +onlyGivenNames x; refine Keeps.have (Q := Keeps s0 x) ?_ ?_; dsimp -zeta -iota only [x]; clear x; rotate_left; clear_value x; revert x; intro _ _) | (extract_lets +onlyGivenNames x; clear_value x; revert x; intro _) | apply Keeps.ite | apply State.enterPhase_keeps | apply State.timeWaitEnd_keeps | apply State.tbCfgWrite_keeps)

theorem execBootApplyDone_keeps {s0 : State} {s : State} (ks : Keeps s0 s) : KeepsR s0 (execBootApplyDone s) := by
  unfold execBootApplyDone
  with_reducible repeat' (first | assumption | apply State.applyOver_keeps | apply KeepsR.next)

end Sys2Proof.Machine
end

