-- ==== Sys2Proof/Laws/KeepTick.lean ====
section
/-! SUPPORT. The operations of Machine/Tick.lean break nothing (Laws/Keeps.lean). -/

namespace Sys2Proof.Machine

theorem State.tideTick_keeps {s0 : State} {s : State} (ks : Keeps s0 s) : Keeps s0 (State.tideTick s) := by
  unfold State.tideTick
  with_reducible repeat' (first | assumption | intro _ | (extract_lets +onlyGivenNames x; clear_value x; revert x; intro _) | apply Keeps.ite | (simp -zeta -iota only [Keeps.mk_iff]; apply KeepsMk.of (h1 := by simp) (h2 := by simp) (h3 := by simp)))

theorem State.ppsFall_keeps {s0 : State} {s : State} (ks : Keeps s0 s) : Keeps s0 (State.ppsFall s) := by
  unfold State.ppsFall
  with_reducible repeat' (first | assumption | intro _ | (extract_lets +onlyGivenNames x; clear_value x; revert x; intro _) | apply Keeps.ite | apply State.emit_keeps | (simp -zeta -iota only [Keeps.mk_iff]; apply KeepsMk.of (h1 := by simp) (h2 := by simp) (h3 := by simp)) | split)

theorem State.idle_keeps {s0 : State} {s : State} (ks : Keeps s0 s) : Keeps s0 (State.idle s) := by
  unfold State.idle
  with_reducible repeat' (first | assumption | (extract_lets +onlyGivenNames x; refine Keeps.have (Q := Keeps s0 x) ?_ ?_; dsimp -zeta -iota only [x]; clear x; rotate_left; clear_value x; revert x; intro _ _) | apply State.tideTick_keeps | apply State.pmuTick_keeps | apply State.ppsFall_keeps | (simp -zeta -iota only [Keeps.mk_iff]; apply KeepsMk.of (h1 := by simp) (h2 := by simp) (h3 := by simp)))

end Sys2Proof.Machine
end

