-- ==== Sys2Proof/Laws/State.lean ====
section
/-! SUPPORT. What each update of a named operation leaves as it was: one lemma per field and update. -/

namespace Sys2Proof.Machine

variable (s : State)

@[simp] theorem State.setReg_pending (k : Nat) (v : Word) : (s.setReg k v).pending = s.pending := rfl
@[simp] theorem State.setReg_now (k : Nat) (v : Word) : (s.setReg k v).now = s.now := rfl
@[simp] theorem State.setReg_free (k : Nat) (v : Word) : (s.setReg k v).free = s.free := rfl
@[simp] theorem State.setReg_out (k : Nat) (v : Word) : (s.setReg k v).out = s.out := rfl
@[simp] theorem State.setReg_fuses (k : Nat) (v : Word) : (s.setReg k v).fuses = s.fuses := rfl
@[simp] theorem State.setReg_pins (k : Nat) (v : Word) : (s.setReg k v).pins = s.pins := rfl
@[simp] theorem State.setReg_halves (k : Nat) (v : Word) : (s.setReg k v).halves = s.halves := rfl
@[simp] theorem State.setReg_ports (k : Nat) (v : Word) : (s.setReg k v).ports = s.ports := rfl
@[simp] theorem State.setReg_funcs (k : Nat) (v : Word) : (s.setReg k v).funcs = s.funcs := rfl
@[simp] theorem State.setReg_hdm (k : Nat) (v : Word) : (s.setReg k v).hdm = s.hdm := rfl
@[simp] theorem State.setReg_maps (k : Nat) (v : Word) : (s.setReg k v).maps = s.maps := rfl
@[simp] theorem State.setReg_extents (k : Nat) (v : Word) : (s.setReg k v).extents = s.extents := rfl
@[simp] theorem State.setReg_pages (k : Nat) (v : Word) : (s.setReg k v).pages = s.pages := rfl
@[simp] theorem State.setReg_media (k : Nat) (v : Word) : (s.setReg k v).media = s.media := rfl
@[simp] theorem State.setReg_mcache (k : Nat) (v : Word) : (s.setReg k v).mcache = s.mcache := rfl
@[simp] theorem State.setReg_frameMoves (k : Nat) (v : Word) : (s.setReg k v).frameMoves = s.frameMoves := rfl
@[simp] theorem State.setReg_locks (k : Nat) (v : Word) : (s.setReg k v).locks = s.locks := rfl
@[simp] theorem State.setReg_zero (k : Nat) (v : Word) : (s.setReg k v).zero = s.zero := rfl
@[simp] theorem State.setReg_drains (k : Nat) (v : Word) : (s.setReg k v).drains = s.drains := rfl
@[simp] theorem State.setReg_drainNext (k : Nat) (v : Word) : (s.setReg k v).drainNext = s.drainNext := rfl
@[simp] theorem State.setReg_walks (k : Nat) (v : Word) : (s.setReg k v).walks = s.walks := rfl
@[simp] theorem State.setReg_reqs (k : Nat) (v : Word) : (s.setReg k v).reqs = s.reqs := rfl
@[simp] theorem State.setReg_nextRid (k : Nat) (v : Word) : (s.setReg k v).nextRid = s.nextRid := rfl
@[simp] theorem State.setReg_queueTimes (k : Nat) (v : Word) : (s.setReg k v).queueTimes = s.queueTimes := rfl
@[simp] theorem State.setReg_spidPort (k : Nat) (v : Word) : (s.setReg k v).spidPort = s.spidPort := rfl
@[simp] theorem State.setReg_snoop (k : Nat) (v : Word) : (s.setReg k v).snoop = s.snoop := rfl
@[simp] theorem State.setReg_channels (k : Nat) (v : Word) : (s.setReg k v).channels = s.channels := rfl
@[simp] theorem State.setReg_dram (k : Nat) (v : Word) : (s.setReg k v).dram = s.dram := rfl
@[simp] theorem State.setReg_shg (k : Nat) (v : Word) : (s.setReg k v).shg = s.shg := rfl
@[simp] theorem State.setReg_mover (k : Nat) (v : Word) : (s.setReg k v).mover = s.mover := rfl
@[simp] theorem State.setReg_lostRuns (k : Nat) (v : Word) : (s.setReg k v).lostRuns = s.lostRuns := rfl
@[simp] theorem State.setReg_lostSecs (k : Nat) (v : Word) : (s.setReg k v).lostSecs = s.lostSecs := rfl
@[simp] theorem State.setReg_keys (k : Nat) (v : Word) : (s.setReg k v).keys = s.keys := rfl
@[simp] theorem State.setReg_keyCmd (k : Nat) (v : Word) : (s.setReg k v).keyCmd = s.keyCmd := rfl
@[simp] theorem State.setReg_wrap (k : Nat) (v : Word) : (s.setReg k v).wrap = s.wrap := rfl
@[simp] theorem State.setReg_prot (k : Nat) (v : Word) : (s.setReg k v).prot = s.prot := rfl
@[simp] theorem State.setReg_ctrs (k : Nat) (v : Word) : (s.setReg k v).ctrs = s.ctrs := rfl
@[simp] theorem State.setReg_nodes (k : Nat) (v : Word) : (s.setReg k v).nodes = s.nodes := rfl
@[simp] theorem State.setReg_tags (k : Nat) (v : Word) : (s.setReg k v).tags = s.tags := rfl
@[simp] theorem State.setReg_areas (k : Nat) (v : Word) : (s.setReg k v).areas = s.areas := rfl
@[simp] theorem State.setReg_nonce (k : Nat) (v : Word) : (s.setReg k v).nonce = s.nonce := rfl
@[simp] theorem State.setReg_actCount (k : Nat) (v : Word) : (s.setReg k v).actCount = s.actCount := rfl
@[simp] theorem State.setReg_buckets (k : Nat) (v : Word) : (s.setReg k v).buckets = s.buckets := rfl
@[simp] theorem State.setReg_shapers (k : Nat) (v : Word) : (s.setReg k v).shapers = s.shapers := rfl
@[simp] theorem State.setReg_scheds (k : Nat) (v : Word) : (s.setReg k v).scheds = s.scheds := rfl
@[simp] theorem State.setReg_telemLast (k : Nat) (v : Word) : (s.setReg k v).telemLast = s.telemLast := rfl
@[simp] theorem State.setReg_tide (k : Nat) (v : Word) : (s.setReg k v).tide = s.tide := rfl
@[simp] theorem State.setReg_commits (k : Nat) (v : Word) : (s.setReg k v).commits = s.commits := rfl
@[simp] theorem State.setReg_strait (k : Nat) (v : Word) : (s.setReg k v).strait = s.strait := rfl
@[simp] theorem State.setReg_mirror (k : Nat) (v : Word) : (s.setReg k v).mirror = s.mirror := rfl
@[simp] theorem State.setReg_mirDoms (k : Nat) (v : Word) : (s.setReg k v).mirDoms = s.mirDoms := rfl
@[simp] theorem State.setReg_jobs (k : Nat) (v : Word) : (s.setReg k v).jobs = s.jobs := rfl
@[simp] theorem State.setReg_rings (k : Nat) (v : Word) : (s.setReg k v).rings = s.rings := rfl
@[simp] theorem State.setReg_records (k : Nat) (v : Word) : (s.setReg k v).records = s.records := rfl
@[simp] theorem State.setReg_units (k : Nat) (v : Word) : (s.setReg k v).units = s.units := rfl
@[simp] theorem State.setReg_poison (k : Nat) (v : Word) : (s.setReg k v).poison = s.poison := rfl
@[simp] theorem State.setReg_poisonOvf (k : Nat) (v : Word) : (s.setReg k v).poisonOvf = s.poisonOvf := rfl
@[simp] theorem State.setReg_events (k : Nat) (v : Word) : (s.setReg k v).events = s.events := rfl
@[simp] theorem State.setReg_fmLog (k : Nat) (v : Word) : (s.setReg k v).fmLog = s.fmLog := rfl
@[simp] theorem State.setReg_fmPath (k : Nat) (v : Word) : (s.setReg k v).fmPath = s.fmPath := rfl
@[simp] theorem State.setReg_scans (k : Nat) (v : Word) : (s.setReg k v).scans = s.scans := rfl
@[simp] theorem State.setReg_power (k : Nat) (v : Word) : (s.setReg k v).power = s.power := rfl
@[simp] theorem State.setReg_boot (k : Nat) (v : Word) : (s.setReg k v).boot = s.boot := rfl
@[simp] theorem State.setReg_pmu (k : Nat) (v : Word) : (s.setReg k v).pmu = s.pmu := rfl

@[simp] theorem State.setFld_pending (f : Fld) (v : Nat) : (s.setFld f v).pending = s.pending := rfl
@[simp] theorem State.setFld_now (f : Fld) (v : Nat) : (s.setFld f v).now = s.now := rfl
@[simp] theorem State.setFld_free (f : Fld) (v : Nat) : (s.setFld f v).free = s.free := rfl
@[simp] theorem State.setFld_out (f : Fld) (v : Nat) : (s.setFld f v).out = s.out := rfl
@[simp] theorem State.setFld_fuses (f : Fld) (v : Nat) : (s.setFld f v).fuses = s.fuses := rfl
@[simp] theorem State.setFld_pins (f : Fld) (v : Nat) : (s.setFld f v).pins = s.pins := rfl
@[simp] theorem State.setFld_halves (f : Fld) (v : Nat) : (s.setFld f v).halves = s.halves := rfl
@[simp] theorem State.setFld_ports (f : Fld) (v : Nat) : (s.setFld f v).ports = s.ports := rfl
@[simp] theorem State.setFld_funcs (f : Fld) (v : Nat) : (s.setFld f v).funcs = s.funcs := rfl
@[simp] theorem State.setFld_hdm (f : Fld) (v : Nat) : (s.setFld f v).hdm = s.hdm := rfl
@[simp] theorem State.setFld_maps (f : Fld) (v : Nat) : (s.setFld f v).maps = s.maps := rfl
@[simp] theorem State.setFld_extents (f : Fld) (v : Nat) : (s.setFld f v).extents = s.extents := rfl
@[simp] theorem State.setFld_pages (f : Fld) (v : Nat) : (s.setFld f v).pages = s.pages := rfl
@[simp] theorem State.setFld_media (f : Fld) (v : Nat) : (s.setFld f v).media = s.media := rfl
@[simp] theorem State.setFld_mcache (f : Fld) (v : Nat) : (s.setFld f v).mcache = s.mcache := rfl
@[simp] theorem State.setFld_frameMoves (f : Fld) (v : Nat) : (s.setFld f v).frameMoves = s.frameMoves := rfl
@[simp] theorem State.setFld_locks (f : Fld) (v : Nat) : (s.setFld f v).locks = s.locks := rfl
@[simp] theorem State.setFld_zero (f : Fld) (v : Nat) : (s.setFld f v).zero = s.zero := rfl
@[simp] theorem State.setFld_drains (f : Fld) (v : Nat) : (s.setFld f v).drains = s.drains := rfl
@[simp] theorem State.setFld_drainNext (f : Fld) (v : Nat) : (s.setFld f v).drainNext = s.drainNext := rfl
@[simp] theorem State.setFld_walks (f : Fld) (v : Nat) : (s.setFld f v).walks = s.walks := rfl
@[simp] theorem State.setFld_reqs (f : Fld) (v : Nat) : (s.setFld f v).reqs = s.reqs := rfl
@[simp] theorem State.setFld_nextRid (f : Fld) (v : Nat) : (s.setFld f v).nextRid = s.nextRid := rfl
@[simp] theorem State.setFld_queueTimes (f : Fld) (v : Nat) : (s.setFld f v).queueTimes = s.queueTimes := rfl
@[simp] theorem State.setFld_spidPort (f : Fld) (v : Nat) : (s.setFld f v).spidPort = s.spidPort := rfl
@[simp] theorem State.setFld_snoop (f : Fld) (v : Nat) : (s.setFld f v).snoop = s.snoop := rfl
@[simp] theorem State.setFld_channels (f : Fld) (v : Nat) : (s.setFld f v).channels = s.channels := rfl
@[simp] theorem State.setFld_dram (f : Fld) (v : Nat) : (s.setFld f v).dram = s.dram := rfl
@[simp] theorem State.setFld_shg (f : Fld) (v : Nat) : (s.setFld f v).shg = s.shg := rfl
@[simp] theorem State.setFld_mover (f : Fld) (v : Nat) : (s.setFld f v).mover = s.mover := rfl
@[simp] theorem State.setFld_lostRuns (f : Fld) (v : Nat) : (s.setFld f v).lostRuns = s.lostRuns := rfl
@[simp] theorem State.setFld_lostSecs (f : Fld) (v : Nat) : (s.setFld f v).lostSecs = s.lostSecs := rfl
@[simp] theorem State.setFld_keys (f : Fld) (v : Nat) : (s.setFld f v).keys = s.keys := rfl
@[simp] theorem State.setFld_keyCmd (f : Fld) (v : Nat) : (s.setFld f v).keyCmd = s.keyCmd := rfl
@[simp] theorem State.setFld_wrap (f : Fld) (v : Nat) : (s.setFld f v).wrap = s.wrap := rfl
@[simp] theorem State.setFld_prot (f : Fld) (v : Nat) : (s.setFld f v).prot = s.prot := rfl
@[simp] theorem State.setFld_ctrs (f : Fld) (v : Nat) : (s.setFld f v).ctrs = s.ctrs := rfl
@[simp] theorem State.setFld_nodes (f : Fld) (v : Nat) : (s.setFld f v).nodes = s.nodes := rfl
@[simp] theorem State.setFld_tags (f : Fld) (v : Nat) : (s.setFld f v).tags = s.tags := rfl
@[simp] theorem State.setFld_areas (f : Fld) (v : Nat) : (s.setFld f v).areas = s.areas := rfl
@[simp] theorem State.setFld_nonce (f : Fld) (v : Nat) : (s.setFld f v).nonce = s.nonce := rfl
@[simp] theorem State.setFld_actCount (f : Fld) (v : Nat) : (s.setFld f v).actCount = s.actCount := rfl
@[simp] theorem State.setFld_buckets (f : Fld) (v : Nat) : (s.setFld f v).buckets = s.buckets := rfl
@[simp] theorem State.setFld_shapers (f : Fld) (v : Nat) : (s.setFld f v).shapers = s.shapers := rfl
@[simp] theorem State.setFld_scheds (f : Fld) (v : Nat) : (s.setFld f v).scheds = s.scheds := rfl
@[simp] theorem State.setFld_telemLast (f : Fld) (v : Nat) : (s.setFld f v).telemLast = s.telemLast := rfl
@[simp] theorem State.setFld_tide (f : Fld) (v : Nat) : (s.setFld f v).tide = s.tide := rfl
@[simp] theorem State.setFld_commits (f : Fld) (v : Nat) : (s.setFld f v).commits = s.commits := rfl
@[simp] theorem State.setFld_strait (f : Fld) (v : Nat) : (s.setFld f v).strait = s.strait := rfl
@[simp] theorem State.setFld_mirror (f : Fld) (v : Nat) : (s.setFld f v).mirror = s.mirror := rfl
@[simp] theorem State.setFld_mirDoms (f : Fld) (v : Nat) : (s.setFld f v).mirDoms = s.mirDoms := rfl
@[simp] theorem State.setFld_jobs (f : Fld) (v : Nat) : (s.setFld f v).jobs = s.jobs := rfl
@[simp] theorem State.setFld_rings (f : Fld) (v : Nat) : (s.setFld f v).rings = s.rings := rfl
@[simp] theorem State.setFld_records (f : Fld) (v : Nat) : (s.setFld f v).records = s.records := rfl
@[simp] theorem State.setFld_units (f : Fld) (v : Nat) : (s.setFld f v).units = s.units := rfl
@[simp] theorem State.setFld_poison (f : Fld) (v : Nat) : (s.setFld f v).poison = s.poison := rfl
@[simp] theorem State.setFld_poisonOvf (f : Fld) (v : Nat) : (s.setFld f v).poisonOvf = s.poisonOvf := rfl
@[simp] theorem State.setFld_events (f : Fld) (v : Nat) : (s.setFld f v).events = s.events := rfl
@[simp] theorem State.setFld_fmLog (f : Fld) (v : Nat) : (s.setFld f v).fmLog = s.fmLog := rfl
@[simp] theorem State.setFld_fmPath (f : Fld) (v : Nat) : (s.setFld f v).fmPath = s.fmPath := rfl
@[simp] theorem State.setFld_scans (f : Fld) (v : Nat) : (s.setFld f v).scans = s.scans := rfl
@[simp] theorem State.setFld_power (f : Fld) (v : Nat) : (s.setFld f v).power = s.power := rfl
@[simp] theorem State.setFld_boot (f : Fld) (v : Nat) : (s.setFld f v).boot = s.boot := rfl
@[simp] theorem State.setFld_pmu (f : Fld) (v : Nat) : (s.setFld f v).pmu = s.pmu := rfl

@[simp] theorem State.setFlag_pending (f : Fld) (b : Bool) : (s.setFlag f b).pending = s.pending := rfl
@[simp] theorem State.setFlag_now (f : Fld) (b : Bool) : (s.setFlag f b).now = s.now := rfl
@[simp] theorem State.setFlag_free (f : Fld) (b : Bool) : (s.setFlag f b).free = s.free := rfl
@[simp] theorem State.setFlag_out (f : Fld) (b : Bool) : (s.setFlag f b).out = s.out := rfl
@[simp] theorem State.setFlag_fuses (f : Fld) (b : Bool) : (s.setFlag f b).fuses = s.fuses := rfl
@[simp] theorem State.setFlag_pins (f : Fld) (b : Bool) : (s.setFlag f b).pins = s.pins := rfl
@[simp] theorem State.setFlag_halves (f : Fld) (b : Bool) : (s.setFlag f b).halves = s.halves := rfl
@[simp] theorem State.setFlag_ports (f : Fld) (b : Bool) : (s.setFlag f b).ports = s.ports := rfl
@[simp] theorem State.setFlag_funcs (f : Fld) (b : Bool) : (s.setFlag f b).funcs = s.funcs := rfl
@[simp] theorem State.setFlag_hdm (f : Fld) (b : Bool) : (s.setFlag f b).hdm = s.hdm := rfl
@[simp] theorem State.setFlag_maps (f : Fld) (b : Bool) : (s.setFlag f b).maps = s.maps := rfl
@[simp] theorem State.setFlag_extents (f : Fld) (b : Bool) : (s.setFlag f b).extents = s.extents := rfl
@[simp] theorem State.setFlag_pages (f : Fld) (b : Bool) : (s.setFlag f b).pages = s.pages := rfl
@[simp] theorem State.setFlag_media (f : Fld) (b : Bool) : (s.setFlag f b).media = s.media := rfl
@[simp] theorem State.setFlag_mcache (f : Fld) (b : Bool) : (s.setFlag f b).mcache = s.mcache := rfl
@[simp] theorem State.setFlag_frameMoves (f : Fld) (b : Bool) : (s.setFlag f b).frameMoves = s.frameMoves := rfl
@[simp] theorem State.setFlag_locks (f : Fld) (b : Bool) : (s.setFlag f b).locks = s.locks := rfl
@[simp] theorem State.setFlag_zero (f : Fld) (b : Bool) : (s.setFlag f b).zero = s.zero := rfl
@[simp] theorem State.setFlag_drains (f : Fld) (b : Bool) : (s.setFlag f b).drains = s.drains := rfl
@[simp] theorem State.setFlag_drainNext (f : Fld) (b : Bool) : (s.setFlag f b).drainNext = s.drainNext := rfl
@[simp] theorem State.setFlag_walks (f : Fld) (b : Bool) : (s.setFlag f b).walks = s.walks := rfl
@[simp] theorem State.setFlag_reqs (f : Fld) (b : Bool) : (s.setFlag f b).reqs = s.reqs := rfl
@[simp] theorem State.setFlag_nextRid (f : Fld) (b : Bool) : (s.setFlag f b).nextRid = s.nextRid := rfl
@[simp] theorem State.setFlag_queueTimes (f : Fld) (b : Bool) : (s.setFlag f b).queueTimes = s.queueTimes := rfl
@[simp] theorem State.setFlag_spidPort (f : Fld) (b : Bool) : (s.setFlag f b).spidPort = s.spidPort := rfl
@[simp] theorem State.setFlag_snoop (f : Fld) (b : Bool) : (s.setFlag f b).snoop = s.snoop := rfl
@[simp] theorem State.setFlag_channels (f : Fld) (b : Bool) : (s.setFlag f b).channels = s.channels := rfl
@[simp] theorem State.setFlag_dram (f : Fld) (b : Bool) : (s.setFlag f b).dram = s.dram := rfl
@[simp] theorem State.setFlag_shg (f : Fld) (b : Bool) : (s.setFlag f b).shg = s.shg := rfl
@[simp] theorem State.setFlag_mover (f : Fld) (b : Bool) : (s.setFlag f b).mover = s.mover := rfl
@[simp] theorem State.setFlag_lostRuns (f : Fld) (b : Bool) : (s.setFlag f b).lostRuns = s.lostRuns := rfl
@[simp] theorem State.setFlag_lostSecs (f : Fld) (b : Bool) : (s.setFlag f b).lostSecs = s.lostSecs := rfl
@[simp] theorem State.setFlag_keys (f : Fld) (b : Bool) : (s.setFlag f b).keys = s.keys := rfl
@[simp] theorem State.setFlag_keyCmd (f : Fld) (b : Bool) : (s.setFlag f b).keyCmd = s.keyCmd := rfl
@[simp] theorem State.setFlag_wrap (f : Fld) (b : Bool) : (s.setFlag f b).wrap = s.wrap := rfl
@[simp] theorem State.setFlag_prot (f : Fld) (b : Bool) : (s.setFlag f b).prot = s.prot := rfl
@[simp] theorem State.setFlag_ctrs (f : Fld) (b : Bool) : (s.setFlag f b).ctrs = s.ctrs := rfl
@[simp] theorem State.setFlag_nodes (f : Fld) (b : Bool) : (s.setFlag f b).nodes = s.nodes := rfl
@[simp] theorem State.setFlag_tags (f : Fld) (b : Bool) : (s.setFlag f b).tags = s.tags := rfl
@[simp] theorem State.setFlag_areas (f : Fld) (b : Bool) : (s.setFlag f b).areas = s.areas := rfl
@[simp] theorem State.setFlag_nonce (f : Fld) (b : Bool) : (s.setFlag f b).nonce = s.nonce := rfl
@[simp] theorem State.setFlag_actCount (f : Fld) (b : Bool) : (s.setFlag f b).actCount = s.actCount := rfl
@[simp] theorem State.setFlag_buckets (f : Fld) (b : Bool) : (s.setFlag f b).buckets = s.buckets := rfl
@[simp] theorem State.setFlag_shapers (f : Fld) (b : Bool) : (s.setFlag f b).shapers = s.shapers := rfl
@[simp] theorem State.setFlag_scheds (f : Fld) (b : Bool) : (s.setFlag f b).scheds = s.scheds := rfl
@[simp] theorem State.setFlag_telemLast (f : Fld) (b : Bool) : (s.setFlag f b).telemLast = s.telemLast := rfl
@[simp] theorem State.setFlag_tide (f : Fld) (b : Bool) : (s.setFlag f b).tide = s.tide := rfl
@[simp] theorem State.setFlag_commits (f : Fld) (b : Bool) : (s.setFlag f b).commits = s.commits := rfl
@[simp] theorem State.setFlag_strait (f : Fld) (b : Bool) : (s.setFlag f b).strait = s.strait := rfl
@[simp] theorem State.setFlag_mirror (f : Fld) (b : Bool) : (s.setFlag f b).mirror = s.mirror := rfl
@[simp] theorem State.setFlag_mirDoms (f : Fld) (b : Bool) : (s.setFlag f b).mirDoms = s.mirDoms := rfl
@[simp] theorem State.setFlag_jobs (f : Fld) (b : Bool) : (s.setFlag f b).jobs = s.jobs := rfl
@[simp] theorem State.setFlag_rings (f : Fld) (b : Bool) : (s.setFlag f b).rings = s.rings := rfl
@[simp] theorem State.setFlag_records (f : Fld) (b : Bool) : (s.setFlag f b).records = s.records := rfl
@[simp] theorem State.setFlag_units (f : Fld) (b : Bool) : (s.setFlag f b).units = s.units := rfl
@[simp] theorem State.setFlag_poison (f : Fld) (b : Bool) : (s.setFlag f b).poison = s.poison := rfl
@[simp] theorem State.setFlag_poisonOvf (f : Fld) (b : Bool) : (s.setFlag f b).poisonOvf = s.poisonOvf := rfl
@[simp] theorem State.setFlag_events (f : Fld) (b : Bool) : (s.setFlag f b).events = s.events := rfl
@[simp] theorem State.setFlag_fmLog (f : Fld) (b : Bool) : (s.setFlag f b).fmLog = s.fmLog := rfl
@[simp] theorem State.setFlag_fmPath (f : Fld) (b : Bool) : (s.setFlag f b).fmPath = s.fmPath := rfl
@[simp] theorem State.setFlag_scans (f : Fld) (b : Bool) : (s.setFlag f b).scans = s.scans := rfl
@[simp] theorem State.setFlag_power (f : Fld) (b : Bool) : (s.setFlag f b).power = s.power := rfl
@[simp] theorem State.setFlag_boot (f : Fld) (b : Bool) : (s.setFlag f b).boot = s.boot := rfl
@[simp] theorem State.setFlag_pmu (f : Fld) (b : Bool) : (s.setFlag f b).pmu = s.pmu := rfl

@[simp] theorem State.setBit_pending (f : Fld) (i : Nat) (b : Bool) : (s.setBit f i b).pending = s.pending := rfl
@[simp] theorem State.setBit_now (f : Fld) (i : Nat) (b : Bool) : (s.setBit f i b).now = s.now := rfl
@[simp] theorem State.setBit_free (f : Fld) (i : Nat) (b : Bool) : (s.setBit f i b).free = s.free := rfl
@[simp] theorem State.setBit_out (f : Fld) (i : Nat) (b : Bool) : (s.setBit f i b).out = s.out := rfl
@[simp] theorem State.setBit_fuses (f : Fld) (i : Nat) (b : Bool) : (s.setBit f i b).fuses = s.fuses := rfl
@[simp] theorem State.setBit_pins (f : Fld) (i : Nat) (b : Bool) : (s.setBit f i b).pins = s.pins := rfl
@[simp] theorem State.setBit_halves (f : Fld) (i : Nat) (b : Bool) : (s.setBit f i b).halves = s.halves := rfl
@[simp] theorem State.setBit_ports (f : Fld) (i : Nat) (b : Bool) : (s.setBit f i b).ports = s.ports := rfl
@[simp] theorem State.setBit_funcs (f : Fld) (i : Nat) (b : Bool) : (s.setBit f i b).funcs = s.funcs := rfl
@[simp] theorem State.setBit_hdm (f : Fld) (i : Nat) (b : Bool) : (s.setBit f i b).hdm = s.hdm := rfl
@[simp] theorem State.setBit_maps (f : Fld) (i : Nat) (b : Bool) : (s.setBit f i b).maps = s.maps := rfl
@[simp] theorem State.setBit_extents (f : Fld) (i : Nat) (b : Bool) : (s.setBit f i b).extents = s.extents := rfl
@[simp] theorem State.setBit_pages (f : Fld) (i : Nat) (b : Bool) : (s.setBit f i b).pages = s.pages := rfl
@[simp] theorem State.setBit_media (f : Fld) (i : Nat) (b : Bool) : (s.setBit f i b).media = s.media := rfl
@[simp] theorem State.setBit_mcache (f : Fld) (i : Nat) (b : Bool) : (s.setBit f i b).mcache = s.mcache := rfl
@[simp] theorem State.setBit_frameMoves (f : Fld) (i : Nat) (b : Bool) : (s.setBit f i b).frameMoves = s.frameMoves := rfl
@[simp] theorem State.setBit_locks (f : Fld) (i : Nat) (b : Bool) : (s.setBit f i b).locks = s.locks := rfl
@[simp] theorem State.setBit_zero (f : Fld) (i : Nat) (b : Bool) : (s.setBit f i b).zero = s.zero := rfl
@[simp] theorem State.setBit_drains (f : Fld) (i : Nat) (b : Bool) : (s.setBit f i b).drains = s.drains := rfl
@[simp] theorem State.setBit_drainNext (f : Fld) (i : Nat) (b : Bool) : (s.setBit f i b).drainNext = s.drainNext := rfl
@[simp] theorem State.setBit_walks (f : Fld) (i : Nat) (b : Bool) : (s.setBit f i b).walks = s.walks := rfl
@[simp] theorem State.setBit_reqs (f : Fld) (i : Nat) (b : Bool) : (s.setBit f i b).reqs = s.reqs := rfl
@[simp] theorem State.setBit_nextRid (f : Fld) (i : Nat) (b : Bool) : (s.setBit f i b).nextRid = s.nextRid := rfl
@[simp] theorem State.setBit_queueTimes (f : Fld) (i : Nat) (b : Bool) : (s.setBit f i b).queueTimes = s.queueTimes := rfl
@[simp] theorem State.setBit_spidPort (f : Fld) (i : Nat) (b : Bool) : (s.setBit f i b).spidPort = s.spidPort := rfl
@[simp] theorem State.setBit_snoop (f : Fld) (i : Nat) (b : Bool) : (s.setBit f i b).snoop = s.snoop := rfl
@[simp] theorem State.setBit_channels (f : Fld) (i : Nat) (b : Bool) : (s.setBit f i b).channels = s.channels := rfl
@[simp] theorem State.setBit_dram (f : Fld) (i : Nat) (b : Bool) : (s.setBit f i b).dram = s.dram := rfl
@[simp] theorem State.setBit_shg (f : Fld) (i : Nat) (b : Bool) : (s.setBit f i b).shg = s.shg := rfl
@[simp] theorem State.setBit_mover (f : Fld) (i : Nat) (b : Bool) : (s.setBit f i b).mover = s.mover := rfl
@[simp] theorem State.setBit_lostRuns (f : Fld) (i : Nat) (b : Bool) : (s.setBit f i b).lostRuns = s.lostRuns := rfl
@[simp] theorem State.setBit_lostSecs (f : Fld) (i : Nat) (b : Bool) : (s.setBit f i b).lostSecs = s.lostSecs := rfl
@[simp] theorem State.setBit_keys (f : Fld) (i : Nat) (b : Bool) : (s.setBit f i b).keys = s.keys := rfl
@[simp] theorem State.setBit_keyCmd (f : Fld) (i : Nat) (b : Bool) : (s.setBit f i b).keyCmd = s.keyCmd := rfl
@[simp] theorem State.setBit_wrap (f : Fld) (i : Nat) (b : Bool) : (s.setBit f i b).wrap = s.wrap := rfl
@[simp] theorem State.setBit_prot (f : Fld) (i : Nat) (b : Bool) : (s.setBit f i b).prot = s.prot := rfl
@[simp] theorem State.setBit_ctrs (f : Fld) (i : Nat) (b : Bool) : (s.setBit f i b).ctrs = s.ctrs := rfl
@[simp] theorem State.setBit_nodes (f : Fld) (i : Nat) (b : Bool) : (s.setBit f i b).nodes = s.nodes := rfl
@[simp] theorem State.setBit_tags (f : Fld) (i : Nat) (b : Bool) : (s.setBit f i b).tags = s.tags := rfl
@[simp] theorem State.setBit_areas (f : Fld) (i : Nat) (b : Bool) : (s.setBit f i b).areas = s.areas := rfl
@[simp] theorem State.setBit_nonce (f : Fld) (i : Nat) (b : Bool) : (s.setBit f i b).nonce = s.nonce := rfl
@[simp] theorem State.setBit_actCount (f : Fld) (i : Nat) (b : Bool) : (s.setBit f i b).actCount = s.actCount := rfl
@[simp] theorem State.setBit_buckets (f : Fld) (i : Nat) (b : Bool) : (s.setBit f i b).buckets = s.buckets := rfl
@[simp] theorem State.setBit_shapers (f : Fld) (i : Nat) (b : Bool) : (s.setBit f i b).shapers = s.shapers := rfl
@[simp] theorem State.setBit_scheds (f : Fld) (i : Nat) (b : Bool) : (s.setBit f i b).scheds = s.scheds := rfl
@[simp] theorem State.setBit_telemLast (f : Fld) (i : Nat) (b : Bool) : (s.setBit f i b).telemLast = s.telemLast := rfl
@[simp] theorem State.setBit_tide (f : Fld) (i : Nat) (b : Bool) : (s.setBit f i b).tide = s.tide := rfl
@[simp] theorem State.setBit_commits (f : Fld) (i : Nat) (b : Bool) : (s.setBit f i b).commits = s.commits := rfl
@[simp] theorem State.setBit_strait (f : Fld) (i : Nat) (b : Bool) : (s.setBit f i b).strait = s.strait := rfl
@[simp] theorem State.setBit_mirror (f : Fld) (i : Nat) (b : Bool) : (s.setBit f i b).mirror = s.mirror := rfl
@[simp] theorem State.setBit_mirDoms (f : Fld) (i : Nat) (b : Bool) : (s.setBit f i b).mirDoms = s.mirDoms := rfl
@[simp] theorem State.setBit_jobs (f : Fld) (i : Nat) (b : Bool) : (s.setBit f i b).jobs = s.jobs := rfl
@[simp] theorem State.setBit_rings (f : Fld) (i : Nat) (b : Bool) : (s.setBit f i b).rings = s.rings := rfl
@[simp] theorem State.setBit_records (f : Fld) (i : Nat) (b : Bool) : (s.setBit f i b).records = s.records := rfl
@[simp] theorem State.setBit_units (f : Fld) (i : Nat) (b : Bool) : (s.setBit f i b).units = s.units := rfl
@[simp] theorem State.setBit_poison (f : Fld) (i : Nat) (b : Bool) : (s.setBit f i b).poison = s.poison := rfl
@[simp] theorem State.setBit_poisonOvf (f : Fld) (i : Nat) (b : Bool) : (s.setBit f i b).poisonOvf = s.poisonOvf := rfl
@[simp] theorem State.setBit_events (f : Fld) (i : Nat) (b : Bool) : (s.setBit f i b).events = s.events := rfl
@[simp] theorem State.setBit_fmLog (f : Fld) (i : Nat) (b : Bool) : (s.setBit f i b).fmLog = s.fmLog := rfl
@[simp] theorem State.setBit_fmPath (f : Fld) (i : Nat) (b : Bool) : (s.setBit f i b).fmPath = s.fmPath := rfl
@[simp] theorem State.setBit_scans (f : Fld) (i : Nat) (b : Bool) : (s.setBit f i b).scans = s.scans := rfl
@[simp] theorem State.setBit_power (f : Fld) (i : Nat) (b : Bool) : (s.setBit f i b).power = s.power := rfl
@[simp] theorem State.setBit_boot (f : Fld) (i : Nat) (b : Bool) : (s.setBit f i b).boot = s.boot := rfl
@[simp] theorem State.setBit_pmu (f : Fld) (i : Nat) (b : Bool) : (s.setBit f i b).pmu = s.pmu := rfl

@[simp] theorem State.count_pending (f : Fld) (n : Nat) : (s.count f n).pending = s.pending := rfl
@[simp] theorem State.count_now (f : Fld) (n : Nat) : (s.count f n).now = s.now := rfl
@[simp] theorem State.count_free (f : Fld) (n : Nat) : (s.count f n).free = s.free := rfl
@[simp] theorem State.count_out (f : Fld) (n : Nat) : (s.count f n).out = s.out := rfl
@[simp] theorem State.count_fuses (f : Fld) (n : Nat) : (s.count f n).fuses = s.fuses := rfl
@[simp] theorem State.count_pins (f : Fld) (n : Nat) : (s.count f n).pins = s.pins := rfl
@[simp] theorem State.count_halves (f : Fld) (n : Nat) : (s.count f n).halves = s.halves := rfl
@[simp] theorem State.count_ports (f : Fld) (n : Nat) : (s.count f n).ports = s.ports := rfl
@[simp] theorem State.count_funcs (f : Fld) (n : Nat) : (s.count f n).funcs = s.funcs := rfl
@[simp] theorem State.count_hdm (f : Fld) (n : Nat) : (s.count f n).hdm = s.hdm := rfl
@[simp] theorem State.count_maps (f : Fld) (n : Nat) : (s.count f n).maps = s.maps := rfl
@[simp] theorem State.count_extents (f : Fld) (n : Nat) : (s.count f n).extents = s.extents := rfl
@[simp] theorem State.count_pages (f : Fld) (n : Nat) : (s.count f n).pages = s.pages := rfl
@[simp] theorem State.count_media (f : Fld) (n : Nat) : (s.count f n).media = s.media := rfl
@[simp] theorem State.count_mcache (f : Fld) (n : Nat) : (s.count f n).mcache = s.mcache := rfl
@[simp] theorem State.count_frameMoves (f : Fld) (n : Nat) : (s.count f n).frameMoves = s.frameMoves := rfl
@[simp] theorem State.count_locks (f : Fld) (n : Nat) : (s.count f n).locks = s.locks := rfl
@[simp] theorem State.count_zero (f : Fld) (n : Nat) : (s.count f n).zero = s.zero := rfl
@[simp] theorem State.count_drains (f : Fld) (n : Nat) : (s.count f n).drains = s.drains := rfl
@[simp] theorem State.count_drainNext (f : Fld) (n : Nat) : (s.count f n).drainNext = s.drainNext := rfl
@[simp] theorem State.count_walks (f : Fld) (n : Nat) : (s.count f n).walks = s.walks := rfl
@[simp] theorem State.count_reqs (f : Fld) (n : Nat) : (s.count f n).reqs = s.reqs := rfl
@[simp] theorem State.count_nextRid (f : Fld) (n : Nat) : (s.count f n).nextRid = s.nextRid := rfl
@[simp] theorem State.count_queueTimes (f : Fld) (n : Nat) : (s.count f n).queueTimes = s.queueTimes := rfl
@[simp] theorem State.count_spidPort (f : Fld) (n : Nat) : (s.count f n).spidPort = s.spidPort := rfl
@[simp] theorem State.count_snoop (f : Fld) (n : Nat) : (s.count f n).snoop = s.snoop := rfl
@[simp] theorem State.count_channels (f : Fld) (n : Nat) : (s.count f n).channels = s.channels := rfl
@[simp] theorem State.count_dram (f : Fld) (n : Nat) : (s.count f n).dram = s.dram := rfl
@[simp] theorem State.count_shg (f : Fld) (n : Nat) : (s.count f n).shg = s.shg := rfl
@[simp] theorem State.count_mover (f : Fld) (n : Nat) : (s.count f n).mover = s.mover := rfl
@[simp] theorem State.count_lostRuns (f : Fld) (n : Nat) : (s.count f n).lostRuns = s.lostRuns := rfl
@[simp] theorem State.count_lostSecs (f : Fld) (n : Nat) : (s.count f n).lostSecs = s.lostSecs := rfl
@[simp] theorem State.count_keys (f : Fld) (n : Nat) : (s.count f n).keys = s.keys := rfl
@[simp] theorem State.count_keyCmd (f : Fld) (n : Nat) : (s.count f n).keyCmd = s.keyCmd := rfl
@[simp] theorem State.count_wrap (f : Fld) (n : Nat) : (s.count f n).wrap = s.wrap := rfl
@[simp] theorem State.count_prot (f : Fld) (n : Nat) : (s.count f n).prot = s.prot := rfl
@[simp] theorem State.count_ctrs (f : Fld) (n : Nat) : (s.count f n).ctrs = s.ctrs := rfl
@[simp] theorem State.count_nodes (f : Fld) (n : Nat) : (s.count f n).nodes = s.nodes := rfl
@[simp] theorem State.count_tags (f : Fld) (n : Nat) : (s.count f n).tags = s.tags := rfl
@[simp] theorem State.count_areas (f : Fld) (n : Nat) : (s.count f n).areas = s.areas := rfl
@[simp] theorem State.count_nonce (f : Fld) (n : Nat) : (s.count f n).nonce = s.nonce := rfl
@[simp] theorem State.count_actCount (f : Fld) (n : Nat) : (s.count f n).actCount = s.actCount := rfl
@[simp] theorem State.count_buckets (f : Fld) (n : Nat) : (s.count f n).buckets = s.buckets := rfl
@[simp] theorem State.count_shapers (f : Fld) (n : Nat) : (s.count f n).shapers = s.shapers := rfl
@[simp] theorem State.count_scheds (f : Fld) (n : Nat) : (s.count f n).scheds = s.scheds := rfl
@[simp] theorem State.count_telemLast (f : Fld) (n : Nat) : (s.count f n).telemLast = s.telemLast := rfl
@[simp] theorem State.count_tide (f : Fld) (n : Nat) : (s.count f n).tide = s.tide := rfl
@[simp] theorem State.count_commits (f : Fld) (n : Nat) : (s.count f n).commits = s.commits := rfl
@[simp] theorem State.count_strait (f : Fld) (n : Nat) : (s.count f n).strait = s.strait := rfl
@[simp] theorem State.count_mirror (f : Fld) (n : Nat) : (s.count f n).mirror = s.mirror := rfl
@[simp] theorem State.count_mirDoms (f : Fld) (n : Nat) : (s.count f n).mirDoms = s.mirDoms := rfl
@[simp] theorem State.count_jobs (f : Fld) (n : Nat) : (s.count f n).jobs = s.jobs := rfl
@[simp] theorem State.count_rings (f : Fld) (n : Nat) : (s.count f n).rings = s.rings := rfl
@[simp] theorem State.count_records (f : Fld) (n : Nat) : (s.count f n).records = s.records := rfl
@[simp] theorem State.count_units (f : Fld) (n : Nat) : (s.count f n).units = s.units := rfl
@[simp] theorem State.count_poison (f : Fld) (n : Nat) : (s.count f n).poison = s.poison := rfl
@[simp] theorem State.count_poisonOvf (f : Fld) (n : Nat) : (s.count f n).poisonOvf = s.poisonOvf := rfl
@[simp] theorem State.count_events (f : Fld) (n : Nat) : (s.count f n).events = s.events := rfl
@[simp] theorem State.count_fmLog (f : Fld) (n : Nat) : (s.count f n).fmLog = s.fmLog := rfl
@[simp] theorem State.count_fmPath (f : Fld) (n : Nat) : (s.count f n).fmPath = s.fmPath := rfl
@[simp] theorem State.count_scans (f : Fld) (n : Nat) : (s.count f n).scans = s.scans := rfl
@[simp] theorem State.count_power (f : Fld) (n : Nat) : (s.count f n).power = s.power := rfl
@[simp] theorem State.count_boot (f : Fld) (n : Nat) : (s.count f n).boot = s.boot := rfl
@[simp] theorem State.count_pmu (f : Fld) (n : Nat) : (s.count f n).pmu = s.pmu := rfl

@[simp] theorem State.emit_pending (o : Out) : (s.emit o).pending = s.pending := rfl
@[simp] theorem State.emit_now (o : Out) : (s.emit o).now = s.now := rfl
@[simp] theorem State.emit_free (o : Out) : (s.emit o).free = s.free := rfl
@[simp] theorem State.emit_regs (o : Out) : (s.emit o).regs = s.regs := rfl
@[simp] theorem State.emit_fuses (o : Out) : (s.emit o).fuses = s.fuses := rfl
@[simp] theorem State.emit_pins (o : Out) : (s.emit o).pins = s.pins := rfl
@[simp] theorem State.emit_halves (o : Out) : (s.emit o).halves = s.halves := rfl
@[simp] theorem State.emit_ports (o : Out) : (s.emit o).ports = s.ports := rfl
@[simp] theorem State.emit_funcs (o : Out) : (s.emit o).funcs = s.funcs := rfl
@[simp] theorem State.emit_hdm (o : Out) : (s.emit o).hdm = s.hdm := rfl
@[simp] theorem State.emit_maps (o : Out) : (s.emit o).maps = s.maps := rfl
@[simp] theorem State.emit_extents (o : Out) : (s.emit o).extents = s.extents := rfl
@[simp] theorem State.emit_pages (o : Out) : (s.emit o).pages = s.pages := rfl
@[simp] theorem State.emit_media (o : Out) : (s.emit o).media = s.media := rfl
@[simp] theorem State.emit_mcache (o : Out) : (s.emit o).mcache = s.mcache := rfl
@[simp] theorem State.emit_frameMoves (o : Out) : (s.emit o).frameMoves = s.frameMoves := rfl
@[simp] theorem State.emit_locks (o : Out) : (s.emit o).locks = s.locks := rfl
@[simp] theorem State.emit_zero (o : Out) : (s.emit o).zero = s.zero := rfl
@[simp] theorem State.emit_drains (o : Out) : (s.emit o).drains = s.drains := rfl
@[simp] theorem State.emit_drainNext (o : Out) : (s.emit o).drainNext = s.drainNext := rfl
@[simp] theorem State.emit_walks (o : Out) : (s.emit o).walks = s.walks := rfl
@[simp] theorem State.emit_reqs (o : Out) : (s.emit o).reqs = s.reqs := rfl
@[simp] theorem State.emit_nextRid (o : Out) : (s.emit o).nextRid = s.nextRid := rfl
@[simp] theorem State.emit_queueTimes (o : Out) : (s.emit o).queueTimes = s.queueTimes := rfl
@[simp] theorem State.emit_spidPort (o : Out) : (s.emit o).spidPort = s.spidPort := rfl
@[simp] theorem State.emit_snoop (o : Out) : (s.emit o).snoop = s.snoop := rfl
@[simp] theorem State.emit_channels (o : Out) : (s.emit o).channels = s.channels := rfl
@[simp] theorem State.emit_dram (o : Out) : (s.emit o).dram = s.dram := rfl
@[simp] theorem State.emit_shg (o : Out) : (s.emit o).shg = s.shg := rfl
@[simp] theorem State.emit_mover (o : Out) : (s.emit o).mover = s.mover := rfl
@[simp] theorem State.emit_lostRuns (o : Out) : (s.emit o).lostRuns = s.lostRuns := rfl
@[simp] theorem State.emit_lostSecs (o : Out) : (s.emit o).lostSecs = s.lostSecs := rfl
@[simp] theorem State.emit_keys (o : Out) : (s.emit o).keys = s.keys := rfl
@[simp] theorem State.emit_keyCmd (o : Out) : (s.emit o).keyCmd = s.keyCmd := rfl
@[simp] theorem State.emit_wrap (o : Out) : (s.emit o).wrap = s.wrap := rfl
@[simp] theorem State.emit_prot (o : Out) : (s.emit o).prot = s.prot := rfl
@[simp] theorem State.emit_ctrs (o : Out) : (s.emit o).ctrs = s.ctrs := rfl
@[simp] theorem State.emit_nodes (o : Out) : (s.emit o).nodes = s.nodes := rfl
@[simp] theorem State.emit_tags (o : Out) : (s.emit o).tags = s.tags := rfl
@[simp] theorem State.emit_areas (o : Out) : (s.emit o).areas = s.areas := rfl
@[simp] theorem State.emit_nonce (o : Out) : (s.emit o).nonce = s.nonce := rfl
@[simp] theorem State.emit_actCount (o : Out) : (s.emit o).actCount = s.actCount := rfl
@[simp] theorem State.emit_buckets (o : Out) : (s.emit o).buckets = s.buckets := rfl
@[simp] theorem State.emit_shapers (o : Out) : (s.emit o).shapers = s.shapers := rfl
@[simp] theorem State.emit_scheds (o : Out) : (s.emit o).scheds = s.scheds := rfl
@[simp] theorem State.emit_telemLast (o : Out) : (s.emit o).telemLast = s.telemLast := rfl
@[simp] theorem State.emit_tide (o : Out) : (s.emit o).tide = s.tide := rfl
@[simp] theorem State.emit_commits (o : Out) : (s.emit o).commits = s.commits := rfl
@[simp] theorem State.emit_strait (o : Out) : (s.emit o).strait = s.strait := rfl
@[simp] theorem State.emit_mirror (o : Out) : (s.emit o).mirror = s.mirror := rfl
@[simp] theorem State.emit_mirDoms (o : Out) : (s.emit o).mirDoms = s.mirDoms := rfl
@[simp] theorem State.emit_jobs (o : Out) : (s.emit o).jobs = s.jobs := rfl
@[simp] theorem State.emit_rings (o : Out) : (s.emit o).rings = s.rings := rfl
@[simp] theorem State.emit_records (o : Out) : (s.emit o).records = s.records := rfl
@[simp] theorem State.emit_units (o : Out) : (s.emit o).units = s.units := rfl
@[simp] theorem State.emit_poison (o : Out) : (s.emit o).poison = s.poison := rfl
@[simp] theorem State.emit_poisonOvf (o : Out) : (s.emit o).poisonOvf = s.poisonOvf := rfl
@[simp] theorem State.emit_events (o : Out) : (s.emit o).events = s.events := rfl
@[simp] theorem State.emit_fmLog (o : Out) : (s.emit o).fmLog = s.fmLog := rfl
@[simp] theorem State.emit_fmPath (o : Out) : (s.emit o).fmPath = s.fmPath := rfl
@[simp] theorem State.emit_scans (o : Out) : (s.emit o).scans = s.scans := rfl
@[simp] theorem State.emit_power (o : Out) : (s.emit o).power = s.power := rfl
@[simp] theorem State.emit_boot (o : Out) : (s.emit o).boot = s.boot := rfl
@[simp] theorem State.emit_pmu (o : Out) : (s.emit o).pmu = s.pmu := rfl

@[simp] theorem State.updPort_pending (p : Nat) (f : Port → Port) : (s.updPort p f).pending = s.pending := rfl
@[simp] theorem State.updPort_now (p : Nat) (f : Port → Port) : (s.updPort p f).now = s.now := rfl
@[simp] theorem State.updPort_free (p : Nat) (f : Port → Port) : (s.updPort p f).free = s.free := rfl
@[simp] theorem State.updPort_regs (p : Nat) (f : Port → Port) : (s.updPort p f).regs = s.regs := rfl
@[simp] theorem State.updPort_out (p : Nat) (f : Port → Port) : (s.updPort p f).out = s.out := rfl
@[simp] theorem State.updPort_fuses (p : Nat) (f : Port → Port) : (s.updPort p f).fuses = s.fuses := rfl
@[simp] theorem State.updPort_pins (p : Nat) (f : Port → Port) : (s.updPort p f).pins = s.pins := rfl
@[simp] theorem State.updPort_halves (p : Nat) (f : Port → Port) : (s.updPort p f).halves = s.halves := rfl
@[simp] theorem State.updPort_funcs (p : Nat) (f : Port → Port) : (s.updPort p f).funcs = s.funcs := rfl
@[simp] theorem State.updPort_hdm (p : Nat) (f : Port → Port) : (s.updPort p f).hdm = s.hdm := rfl
@[simp] theorem State.updPort_maps (p : Nat) (f : Port → Port) : (s.updPort p f).maps = s.maps := rfl
@[simp] theorem State.updPort_extents (p : Nat) (f : Port → Port) : (s.updPort p f).extents = s.extents := rfl
@[simp] theorem State.updPort_pages (p : Nat) (f : Port → Port) : (s.updPort p f).pages = s.pages := rfl
@[simp] theorem State.updPort_media (p : Nat) (f : Port → Port) : (s.updPort p f).media = s.media := rfl
@[simp] theorem State.updPort_mcache (p : Nat) (f : Port → Port) : (s.updPort p f).mcache = s.mcache := rfl
@[simp] theorem State.updPort_frameMoves (p : Nat) (f : Port → Port) : (s.updPort p f).frameMoves = s.frameMoves := rfl
@[simp] theorem State.updPort_locks (p : Nat) (f : Port → Port) : (s.updPort p f).locks = s.locks := rfl
@[simp] theorem State.updPort_zero (p : Nat) (f : Port → Port) : (s.updPort p f).zero = s.zero := rfl
@[simp] theorem State.updPort_drains (p : Nat) (f : Port → Port) : (s.updPort p f).drains = s.drains := rfl
@[simp] theorem State.updPort_drainNext (p : Nat) (f : Port → Port) : (s.updPort p f).drainNext = s.drainNext := rfl
@[simp] theorem State.updPort_walks (p : Nat) (f : Port → Port) : (s.updPort p f).walks = s.walks := rfl
@[simp] theorem State.updPort_reqs (p : Nat) (f : Port → Port) : (s.updPort p f).reqs = s.reqs := rfl
@[simp] theorem State.updPort_nextRid (p : Nat) (f : Port → Port) : (s.updPort p f).nextRid = s.nextRid := rfl
@[simp] theorem State.updPort_queueTimes (p : Nat) (f : Port → Port) : (s.updPort p f).queueTimes = s.queueTimes := rfl
@[simp] theorem State.updPort_spidPort (p : Nat) (f : Port → Port) : (s.updPort p f).spidPort = s.spidPort := rfl
@[simp] theorem State.updPort_snoop (p : Nat) (f : Port → Port) : (s.updPort p f).snoop = s.snoop := rfl
@[simp] theorem State.updPort_channels (p : Nat) (f : Port → Port) : (s.updPort p f).channels = s.channels := rfl
@[simp] theorem State.updPort_dram (p : Nat) (f : Port → Port) : (s.updPort p f).dram = s.dram := rfl
@[simp] theorem State.updPort_shg (p : Nat) (f : Port → Port) : (s.updPort p f).shg = s.shg := rfl
@[simp] theorem State.updPort_mover (p : Nat) (f : Port → Port) : (s.updPort p f).mover = s.mover := rfl
@[simp] theorem State.updPort_lostRuns (p : Nat) (f : Port → Port) : (s.updPort p f).lostRuns = s.lostRuns := rfl
@[simp] theorem State.updPort_lostSecs (p : Nat) (f : Port → Port) : (s.updPort p f).lostSecs = s.lostSecs := rfl
@[simp] theorem State.updPort_keys (p : Nat) (f : Port → Port) : (s.updPort p f).keys = s.keys := rfl
@[simp] theorem State.updPort_keyCmd (p : Nat) (f : Port → Port) : (s.updPort p f).keyCmd = s.keyCmd := rfl
@[simp] theorem State.updPort_wrap (p : Nat) (f : Port → Port) : (s.updPort p f).wrap = s.wrap := rfl
@[simp] theorem State.updPort_prot (p : Nat) (f : Port → Port) : (s.updPort p f).prot = s.prot := rfl
@[simp] theorem State.updPort_ctrs (p : Nat) (f : Port → Port) : (s.updPort p f).ctrs = s.ctrs := rfl
@[simp] theorem State.updPort_nodes (p : Nat) (f : Port → Port) : (s.updPort p f).nodes = s.nodes := rfl
@[simp] theorem State.updPort_tags (p : Nat) (f : Port → Port) : (s.updPort p f).tags = s.tags := rfl
@[simp] theorem State.updPort_areas (p : Nat) (f : Port → Port) : (s.updPort p f).areas = s.areas := rfl
@[simp] theorem State.updPort_nonce (p : Nat) (f : Port → Port) : (s.updPort p f).nonce = s.nonce := rfl
@[simp] theorem State.updPort_actCount (p : Nat) (f : Port → Port) : (s.updPort p f).actCount = s.actCount := rfl
@[simp] theorem State.updPort_buckets (p : Nat) (f : Port → Port) : (s.updPort p f).buckets = s.buckets := rfl
@[simp] theorem State.updPort_shapers (p : Nat) (f : Port → Port) : (s.updPort p f).shapers = s.shapers := rfl
@[simp] theorem State.updPort_scheds (p : Nat) (f : Port → Port) : (s.updPort p f).scheds = s.scheds := rfl
@[simp] theorem State.updPort_telemLast (p : Nat) (f : Port → Port) : (s.updPort p f).telemLast = s.telemLast := rfl
@[simp] theorem State.updPort_tide (p : Nat) (f : Port → Port) : (s.updPort p f).tide = s.tide := rfl
@[simp] theorem State.updPort_commits (p : Nat) (f : Port → Port) : (s.updPort p f).commits = s.commits := rfl
@[simp] theorem State.updPort_strait (p : Nat) (f : Port → Port) : (s.updPort p f).strait = s.strait := rfl
@[simp] theorem State.updPort_mirror (p : Nat) (f : Port → Port) : (s.updPort p f).mirror = s.mirror := rfl
@[simp] theorem State.updPort_mirDoms (p : Nat) (f : Port → Port) : (s.updPort p f).mirDoms = s.mirDoms := rfl
@[simp] theorem State.updPort_jobs (p : Nat) (f : Port → Port) : (s.updPort p f).jobs = s.jobs := rfl
@[simp] theorem State.updPort_rings (p : Nat) (f : Port → Port) : (s.updPort p f).rings = s.rings := rfl
@[simp] theorem State.updPort_records (p : Nat) (f : Port → Port) : (s.updPort p f).records = s.records := rfl
@[simp] theorem State.updPort_units (p : Nat) (f : Port → Port) : (s.updPort p f).units = s.units := rfl
@[simp] theorem State.updPort_poison (p : Nat) (f : Port → Port) : (s.updPort p f).poison = s.poison := rfl
@[simp] theorem State.updPort_poisonOvf (p : Nat) (f : Port → Port) : (s.updPort p f).poisonOvf = s.poisonOvf := rfl
@[simp] theorem State.updPort_events (p : Nat) (f : Port → Port) : (s.updPort p f).events = s.events := rfl
@[simp] theorem State.updPort_fmLog (p : Nat) (f : Port → Port) : (s.updPort p f).fmLog = s.fmLog := rfl
@[simp] theorem State.updPort_fmPath (p : Nat) (f : Port → Port) : (s.updPort p f).fmPath = s.fmPath := rfl
@[simp] theorem State.updPort_scans (p : Nat) (f : Port → Port) : (s.updPort p f).scans = s.scans := rfl
@[simp] theorem State.updPort_power (p : Nat) (f : Port → Port) : (s.updPort p f).power = s.power := rfl
@[simp] theorem State.updPort_boot (p : Nat) (f : Port → Port) : (s.updPort p f).boot = s.boot := rfl
@[simp] theorem State.updPort_pmu (p : Nat) (f : Port → Port) : (s.updPort p f).pmu = s.pmu := rfl

@[simp] theorem State.updChan_pending (c : Nat) (f : Channel → Channel) : (s.updChan c f).pending = s.pending := rfl
@[simp] theorem State.updChan_now (c : Nat) (f : Channel → Channel) : (s.updChan c f).now = s.now := rfl
@[simp] theorem State.updChan_free (c : Nat) (f : Channel → Channel) : (s.updChan c f).free = s.free := rfl
@[simp] theorem State.updChan_regs (c : Nat) (f : Channel → Channel) : (s.updChan c f).regs = s.regs := rfl
@[simp] theorem State.updChan_out (c : Nat) (f : Channel → Channel) : (s.updChan c f).out = s.out := rfl
@[simp] theorem State.updChan_fuses (c : Nat) (f : Channel → Channel) : (s.updChan c f).fuses = s.fuses := rfl
@[simp] theorem State.updChan_pins (c : Nat) (f : Channel → Channel) : (s.updChan c f).pins = s.pins := rfl
@[simp] theorem State.updChan_halves (c : Nat) (f : Channel → Channel) : (s.updChan c f).halves = s.halves := rfl
@[simp] theorem State.updChan_ports (c : Nat) (f : Channel → Channel) : (s.updChan c f).ports = s.ports := rfl
@[simp] theorem State.updChan_funcs (c : Nat) (f : Channel → Channel) : (s.updChan c f).funcs = s.funcs := rfl
@[simp] theorem State.updChan_hdm (c : Nat) (f : Channel → Channel) : (s.updChan c f).hdm = s.hdm := rfl
@[simp] theorem State.updChan_maps (c : Nat) (f : Channel → Channel) : (s.updChan c f).maps = s.maps := rfl
@[simp] theorem State.updChan_extents (c : Nat) (f : Channel → Channel) : (s.updChan c f).extents = s.extents := rfl
@[simp] theorem State.updChan_pages (c : Nat) (f : Channel → Channel) : (s.updChan c f).pages = s.pages := rfl
@[simp] theorem State.updChan_media (c : Nat) (f : Channel → Channel) : (s.updChan c f).media = s.media := rfl
@[simp] theorem State.updChan_mcache (c : Nat) (f : Channel → Channel) : (s.updChan c f).mcache = s.mcache := rfl
@[simp] theorem State.updChan_frameMoves (c : Nat) (f : Channel → Channel) : (s.updChan c f).frameMoves = s.frameMoves := rfl
@[simp] theorem State.updChan_locks (c : Nat) (f : Channel → Channel) : (s.updChan c f).locks = s.locks := rfl
@[simp] theorem State.updChan_zero (c : Nat) (f : Channel → Channel) : (s.updChan c f).zero = s.zero := rfl
@[simp] theorem State.updChan_drains (c : Nat) (f : Channel → Channel) : (s.updChan c f).drains = s.drains := rfl
@[simp] theorem State.updChan_drainNext (c : Nat) (f : Channel → Channel) : (s.updChan c f).drainNext = s.drainNext := rfl
@[simp] theorem State.updChan_walks (c : Nat) (f : Channel → Channel) : (s.updChan c f).walks = s.walks := rfl
@[simp] theorem State.updChan_reqs (c : Nat) (f : Channel → Channel) : (s.updChan c f).reqs = s.reqs := rfl
@[simp] theorem State.updChan_nextRid (c : Nat) (f : Channel → Channel) : (s.updChan c f).nextRid = s.nextRid := rfl
@[simp] theorem State.updChan_queueTimes (c : Nat) (f : Channel → Channel) : (s.updChan c f).queueTimes = s.queueTimes := rfl
@[simp] theorem State.updChan_spidPort (c : Nat) (f : Channel → Channel) : (s.updChan c f).spidPort = s.spidPort := rfl
@[simp] theorem State.updChan_snoop (c : Nat) (f : Channel → Channel) : (s.updChan c f).snoop = s.snoop := rfl
@[simp] theorem State.updChan_dram (c : Nat) (f : Channel → Channel) : (s.updChan c f).dram = s.dram := rfl
@[simp] theorem State.updChan_shg (c : Nat) (f : Channel → Channel) : (s.updChan c f).shg = s.shg := rfl
@[simp] theorem State.updChan_mover (c : Nat) (f : Channel → Channel) : (s.updChan c f).mover = s.mover := rfl
@[simp] theorem State.updChan_lostRuns (c : Nat) (f : Channel → Channel) : (s.updChan c f).lostRuns = s.lostRuns := rfl
@[simp] theorem State.updChan_lostSecs (c : Nat) (f : Channel → Channel) : (s.updChan c f).lostSecs = s.lostSecs := rfl
@[simp] theorem State.updChan_keys (c : Nat) (f : Channel → Channel) : (s.updChan c f).keys = s.keys := rfl
@[simp] theorem State.updChan_keyCmd (c : Nat) (f : Channel → Channel) : (s.updChan c f).keyCmd = s.keyCmd := rfl
@[simp] theorem State.updChan_wrap (c : Nat) (f : Channel → Channel) : (s.updChan c f).wrap = s.wrap := rfl
@[simp] theorem State.updChan_prot (c : Nat) (f : Channel → Channel) : (s.updChan c f).prot = s.prot := rfl
@[simp] theorem State.updChan_ctrs (c : Nat) (f : Channel → Channel) : (s.updChan c f).ctrs = s.ctrs := rfl
@[simp] theorem State.updChan_nodes (c : Nat) (f : Channel → Channel) : (s.updChan c f).nodes = s.nodes := rfl
@[simp] theorem State.updChan_tags (c : Nat) (f : Channel → Channel) : (s.updChan c f).tags = s.tags := rfl
@[simp] theorem State.updChan_areas (c : Nat) (f : Channel → Channel) : (s.updChan c f).areas = s.areas := rfl
@[simp] theorem State.updChan_nonce (c : Nat) (f : Channel → Channel) : (s.updChan c f).nonce = s.nonce := rfl
@[simp] theorem State.updChan_actCount (c : Nat) (f : Channel → Channel) : (s.updChan c f).actCount = s.actCount := rfl
@[simp] theorem State.updChan_buckets (c : Nat) (f : Channel → Channel) : (s.updChan c f).buckets = s.buckets := rfl
@[simp] theorem State.updChan_shapers (c : Nat) (f : Channel → Channel) : (s.updChan c f).shapers = s.shapers := rfl
@[simp] theorem State.updChan_scheds (c : Nat) (f : Channel → Channel) : (s.updChan c f).scheds = s.scheds := rfl
@[simp] theorem State.updChan_telemLast (c : Nat) (f : Channel → Channel) : (s.updChan c f).telemLast = s.telemLast := rfl
@[simp] theorem State.updChan_tide (c : Nat) (f : Channel → Channel) : (s.updChan c f).tide = s.tide := rfl
@[simp] theorem State.updChan_commits (c : Nat) (f : Channel → Channel) : (s.updChan c f).commits = s.commits := rfl
@[simp] theorem State.updChan_strait (c : Nat) (f : Channel → Channel) : (s.updChan c f).strait = s.strait := rfl
@[simp] theorem State.updChan_mirror (c : Nat) (f : Channel → Channel) : (s.updChan c f).mirror = s.mirror := rfl
@[simp] theorem State.updChan_mirDoms (c : Nat) (f : Channel → Channel) : (s.updChan c f).mirDoms = s.mirDoms := rfl
@[simp] theorem State.updChan_jobs (c : Nat) (f : Channel → Channel) : (s.updChan c f).jobs = s.jobs := rfl
@[simp] theorem State.updChan_rings (c : Nat) (f : Channel → Channel) : (s.updChan c f).rings = s.rings := rfl
@[simp] theorem State.updChan_records (c : Nat) (f : Channel → Channel) : (s.updChan c f).records = s.records := rfl
@[simp] theorem State.updChan_units (c : Nat) (f : Channel → Channel) : (s.updChan c f).units = s.units := rfl
@[simp] theorem State.updChan_poison (c : Nat) (f : Channel → Channel) : (s.updChan c f).poison = s.poison := rfl
@[simp] theorem State.updChan_poisonOvf (c : Nat) (f : Channel → Channel) : (s.updChan c f).poisonOvf = s.poisonOvf := rfl
@[simp] theorem State.updChan_events (c : Nat) (f : Channel → Channel) : (s.updChan c f).events = s.events := rfl
@[simp] theorem State.updChan_fmLog (c : Nat) (f : Channel → Channel) : (s.updChan c f).fmLog = s.fmLog := rfl
@[simp] theorem State.updChan_fmPath (c : Nat) (f : Channel → Channel) : (s.updChan c f).fmPath = s.fmPath := rfl
@[simp] theorem State.updChan_scans (c : Nat) (f : Channel → Channel) : (s.updChan c f).scans = s.scans := rfl
@[simp] theorem State.updChan_power (c : Nat) (f : Channel → Channel) : (s.updChan c f).power = s.power := rfl
@[simp] theorem State.updChan_boot (c : Nat) (f : Channel → Channel) : (s.updChan c f).boot = s.boot := rfl
@[simp] theorem State.updChan_pmu (c : Nat) (f : Channel → Channel) : (s.updChan c f).pmu = s.pmu := rfl

@[simp] theorem State.updSched_pending (i : Nat) (f : Sched → Sched) : (s.updSched i f).pending = s.pending := rfl
@[simp] theorem State.updSched_now (i : Nat) (f : Sched → Sched) : (s.updSched i f).now = s.now := rfl
@[simp] theorem State.updSched_free (i : Nat) (f : Sched → Sched) : (s.updSched i f).free = s.free := rfl
@[simp] theorem State.updSched_regs (i : Nat) (f : Sched → Sched) : (s.updSched i f).regs = s.regs := rfl
@[simp] theorem State.updSched_out (i : Nat) (f : Sched → Sched) : (s.updSched i f).out = s.out := rfl
@[simp] theorem State.updSched_fuses (i : Nat) (f : Sched → Sched) : (s.updSched i f).fuses = s.fuses := rfl
@[simp] theorem State.updSched_pins (i : Nat) (f : Sched → Sched) : (s.updSched i f).pins = s.pins := rfl
@[simp] theorem State.updSched_halves (i : Nat) (f : Sched → Sched) : (s.updSched i f).halves = s.halves := rfl
@[simp] theorem State.updSched_ports (i : Nat) (f : Sched → Sched) : (s.updSched i f).ports = s.ports := rfl
@[simp] theorem State.updSched_funcs (i : Nat) (f : Sched → Sched) : (s.updSched i f).funcs = s.funcs := rfl
@[simp] theorem State.updSched_hdm (i : Nat) (f : Sched → Sched) : (s.updSched i f).hdm = s.hdm := rfl
@[simp] theorem State.updSched_maps (i : Nat) (f : Sched → Sched) : (s.updSched i f).maps = s.maps := rfl
@[simp] theorem State.updSched_extents (i : Nat) (f : Sched → Sched) : (s.updSched i f).extents = s.extents := rfl
@[simp] theorem State.updSched_pages (i : Nat) (f : Sched → Sched) : (s.updSched i f).pages = s.pages := rfl
@[simp] theorem State.updSched_media (i : Nat) (f : Sched → Sched) : (s.updSched i f).media = s.media := rfl
@[simp] theorem State.updSched_mcache (i : Nat) (f : Sched → Sched) : (s.updSched i f).mcache = s.mcache := rfl
@[simp] theorem State.updSched_frameMoves (i : Nat) (f : Sched → Sched) : (s.updSched i f).frameMoves = s.frameMoves := rfl
@[simp] theorem State.updSched_locks (i : Nat) (f : Sched → Sched) : (s.updSched i f).locks = s.locks := rfl
@[simp] theorem State.updSched_zero (i : Nat) (f : Sched → Sched) : (s.updSched i f).zero = s.zero := rfl
@[simp] theorem State.updSched_drains (i : Nat) (f : Sched → Sched) : (s.updSched i f).drains = s.drains := rfl
@[simp] theorem State.updSched_drainNext (i : Nat) (f : Sched → Sched) : (s.updSched i f).drainNext = s.drainNext := rfl
@[simp] theorem State.updSched_walks (i : Nat) (f : Sched → Sched) : (s.updSched i f).walks = s.walks := rfl
@[simp] theorem State.updSched_reqs (i : Nat) (f : Sched → Sched) : (s.updSched i f).reqs = s.reqs := rfl
@[simp] theorem State.updSched_nextRid (i : Nat) (f : Sched → Sched) : (s.updSched i f).nextRid = s.nextRid := rfl
@[simp] theorem State.updSched_queueTimes (i : Nat) (f : Sched → Sched) : (s.updSched i f).queueTimes = s.queueTimes := rfl
@[simp] theorem State.updSched_spidPort (i : Nat) (f : Sched → Sched) : (s.updSched i f).spidPort = s.spidPort := rfl
@[simp] theorem State.updSched_snoop (i : Nat) (f : Sched → Sched) : (s.updSched i f).snoop = s.snoop := rfl
@[simp] theorem State.updSched_channels (i : Nat) (f : Sched → Sched) : (s.updSched i f).channels = s.channels := rfl
@[simp] theorem State.updSched_dram (i : Nat) (f : Sched → Sched) : (s.updSched i f).dram = s.dram := rfl
@[simp] theorem State.updSched_shg (i : Nat) (f : Sched → Sched) : (s.updSched i f).shg = s.shg := rfl
@[simp] theorem State.updSched_mover (i : Nat) (f : Sched → Sched) : (s.updSched i f).mover = s.mover := rfl
@[simp] theorem State.updSched_lostRuns (i : Nat) (f : Sched → Sched) : (s.updSched i f).lostRuns = s.lostRuns := rfl
@[simp] theorem State.updSched_lostSecs (i : Nat) (f : Sched → Sched) : (s.updSched i f).lostSecs = s.lostSecs := rfl
@[simp] theorem State.updSched_keys (i : Nat) (f : Sched → Sched) : (s.updSched i f).keys = s.keys := rfl
@[simp] theorem State.updSched_keyCmd (i : Nat) (f : Sched → Sched) : (s.updSched i f).keyCmd = s.keyCmd := rfl
@[simp] theorem State.updSched_wrap (i : Nat) (f : Sched → Sched) : (s.updSched i f).wrap = s.wrap := rfl
@[simp] theorem State.updSched_prot (i : Nat) (f : Sched → Sched) : (s.updSched i f).prot = s.prot := rfl
@[simp] theorem State.updSched_ctrs (i : Nat) (f : Sched → Sched) : (s.updSched i f).ctrs = s.ctrs := rfl
@[simp] theorem State.updSched_nodes (i : Nat) (f : Sched → Sched) : (s.updSched i f).nodes = s.nodes := rfl
@[simp] theorem State.updSched_tags (i : Nat) (f : Sched → Sched) : (s.updSched i f).tags = s.tags := rfl
@[simp] theorem State.updSched_areas (i : Nat) (f : Sched → Sched) : (s.updSched i f).areas = s.areas := rfl
@[simp] theorem State.updSched_nonce (i : Nat) (f : Sched → Sched) : (s.updSched i f).nonce = s.nonce := rfl
@[simp] theorem State.updSched_actCount (i : Nat) (f : Sched → Sched) : (s.updSched i f).actCount = s.actCount := rfl
@[simp] theorem State.updSched_buckets (i : Nat) (f : Sched → Sched) : (s.updSched i f).buckets = s.buckets := rfl
@[simp] theorem State.updSched_shapers (i : Nat) (f : Sched → Sched) : (s.updSched i f).shapers = s.shapers := rfl
@[simp] theorem State.updSched_telemLast (i : Nat) (f : Sched → Sched) : (s.updSched i f).telemLast = s.telemLast := rfl
@[simp] theorem State.updSched_tide (i : Nat) (f : Sched → Sched) : (s.updSched i f).tide = s.tide := rfl
@[simp] theorem State.updSched_commits (i : Nat) (f : Sched → Sched) : (s.updSched i f).commits = s.commits := rfl
@[simp] theorem State.updSched_strait (i : Nat) (f : Sched → Sched) : (s.updSched i f).strait = s.strait := rfl
@[simp] theorem State.updSched_mirror (i : Nat) (f : Sched → Sched) : (s.updSched i f).mirror = s.mirror := rfl
@[simp] theorem State.updSched_mirDoms (i : Nat) (f : Sched → Sched) : (s.updSched i f).mirDoms = s.mirDoms := rfl
@[simp] theorem State.updSched_jobs (i : Nat) (f : Sched → Sched) : (s.updSched i f).jobs = s.jobs := rfl
@[simp] theorem State.updSched_rings (i : Nat) (f : Sched → Sched) : (s.updSched i f).rings = s.rings := rfl
@[simp] theorem State.updSched_records (i : Nat) (f : Sched → Sched) : (s.updSched i f).records = s.records := rfl
@[simp] theorem State.updSched_units (i : Nat) (f : Sched → Sched) : (s.updSched i f).units = s.units := rfl
@[simp] theorem State.updSched_poison (i : Nat) (f : Sched → Sched) : (s.updSched i f).poison = s.poison := rfl
@[simp] theorem State.updSched_poisonOvf (i : Nat) (f : Sched → Sched) : (s.updSched i f).poisonOvf = s.poisonOvf := rfl
@[simp] theorem State.updSched_events (i : Nat) (f : Sched → Sched) : (s.updSched i f).events = s.events := rfl
@[simp] theorem State.updSched_fmLog (i : Nat) (f : Sched → Sched) : (s.updSched i f).fmLog = s.fmLog := rfl
@[simp] theorem State.updSched_fmPath (i : Nat) (f : Sched → Sched) : (s.updSched i f).fmPath = s.fmPath := rfl
@[simp] theorem State.updSched_scans (i : Nat) (f : Sched → Sched) : (s.updSched i f).scans = s.scans := rfl
@[simp] theorem State.updSched_power (i : Nat) (f : Sched → Sched) : (s.updSched i f).power = s.power := rfl
@[simp] theorem State.updSched_boot (i : Nat) (f : Sched → Sched) : (s.updSched i f).boot = s.boot := rfl
@[simp] theorem State.updSched_pmu (i : Nat) (f : Sched → Sched) : (s.updSched i f).pmu = s.pmu := rfl

@[simp] theorem State.updFunc_pending (n : Nat) (f : Func → Func) : (s.updFunc n f).pending = s.pending := rfl
@[simp] theorem State.updFunc_now (n : Nat) (f : Func → Func) : (s.updFunc n f).now = s.now := rfl
@[simp] theorem State.updFunc_free (n : Nat) (f : Func → Func) : (s.updFunc n f).free = s.free := rfl
@[simp] theorem State.updFunc_regs (n : Nat) (f : Func → Func) : (s.updFunc n f).regs = s.regs := rfl
@[simp] theorem State.updFunc_out (n : Nat) (f : Func → Func) : (s.updFunc n f).out = s.out := rfl
@[simp] theorem State.updFunc_fuses (n : Nat) (f : Func → Func) : (s.updFunc n f).fuses = s.fuses := rfl
@[simp] theorem State.updFunc_pins (n : Nat) (f : Func → Func) : (s.updFunc n f).pins = s.pins := rfl
@[simp] theorem State.updFunc_halves (n : Nat) (f : Func → Func) : (s.updFunc n f).halves = s.halves := rfl
@[simp] theorem State.updFunc_ports (n : Nat) (f : Func → Func) : (s.updFunc n f).ports = s.ports := rfl
@[simp] theorem State.updFunc_hdm (n : Nat) (f : Func → Func) : (s.updFunc n f).hdm = s.hdm := rfl
@[simp] theorem State.updFunc_maps (n : Nat) (f : Func → Func) : (s.updFunc n f).maps = s.maps := rfl
@[simp] theorem State.updFunc_extents (n : Nat) (f : Func → Func) : (s.updFunc n f).extents = s.extents := rfl
@[simp] theorem State.updFunc_pages (n : Nat) (f : Func → Func) : (s.updFunc n f).pages = s.pages := rfl
@[simp] theorem State.updFunc_media (n : Nat) (f : Func → Func) : (s.updFunc n f).media = s.media := rfl
@[simp] theorem State.updFunc_mcache (n : Nat) (f : Func → Func) : (s.updFunc n f).mcache = s.mcache := rfl
@[simp] theorem State.updFunc_frameMoves (n : Nat) (f : Func → Func) : (s.updFunc n f).frameMoves = s.frameMoves := rfl
@[simp] theorem State.updFunc_locks (n : Nat) (f : Func → Func) : (s.updFunc n f).locks = s.locks := rfl
@[simp] theorem State.updFunc_zero (n : Nat) (f : Func → Func) : (s.updFunc n f).zero = s.zero := rfl
@[simp] theorem State.updFunc_drains (n : Nat) (f : Func → Func) : (s.updFunc n f).drains = s.drains := rfl
@[simp] theorem State.updFunc_drainNext (n : Nat) (f : Func → Func) : (s.updFunc n f).drainNext = s.drainNext := rfl
@[simp] theorem State.updFunc_walks (n : Nat) (f : Func → Func) : (s.updFunc n f).walks = s.walks := rfl
@[simp] theorem State.updFunc_reqs (n : Nat) (f : Func → Func) : (s.updFunc n f).reqs = s.reqs := rfl
@[simp] theorem State.updFunc_nextRid (n : Nat) (f : Func → Func) : (s.updFunc n f).nextRid = s.nextRid := rfl
@[simp] theorem State.updFunc_queueTimes (n : Nat) (f : Func → Func) : (s.updFunc n f).queueTimes = s.queueTimes := rfl
@[simp] theorem State.updFunc_spidPort (n : Nat) (f : Func → Func) : (s.updFunc n f).spidPort = s.spidPort := rfl
@[simp] theorem State.updFunc_snoop (n : Nat) (f : Func → Func) : (s.updFunc n f).snoop = s.snoop := rfl
@[simp] theorem State.updFunc_channels (n : Nat) (f : Func → Func) : (s.updFunc n f).channels = s.channels := rfl
@[simp] theorem State.updFunc_dram (n : Nat) (f : Func → Func) : (s.updFunc n f).dram = s.dram := rfl
@[simp] theorem State.updFunc_shg (n : Nat) (f : Func → Func) : (s.updFunc n f).shg = s.shg := rfl
@[simp] theorem State.updFunc_mover (n : Nat) (f : Func → Func) : (s.updFunc n f).mover = s.mover := rfl
@[simp] theorem State.updFunc_lostRuns (n : Nat) (f : Func → Func) : (s.updFunc n f).lostRuns = s.lostRuns := rfl
@[simp] theorem State.updFunc_lostSecs (n : Nat) (f : Func → Func) : (s.updFunc n f).lostSecs = s.lostSecs := rfl
@[simp] theorem State.updFunc_keys (n : Nat) (f : Func → Func) : (s.updFunc n f).keys = s.keys := rfl
@[simp] theorem State.updFunc_keyCmd (n : Nat) (f : Func → Func) : (s.updFunc n f).keyCmd = s.keyCmd := rfl
@[simp] theorem State.updFunc_wrap (n : Nat) (f : Func → Func) : (s.updFunc n f).wrap = s.wrap := rfl
@[simp] theorem State.updFunc_prot (n : Nat) (f : Func → Func) : (s.updFunc n f).prot = s.prot := rfl
@[simp] theorem State.updFunc_ctrs (n : Nat) (f : Func → Func) : (s.updFunc n f).ctrs = s.ctrs := rfl
@[simp] theorem State.updFunc_nodes (n : Nat) (f : Func → Func) : (s.updFunc n f).nodes = s.nodes := rfl
@[simp] theorem State.updFunc_tags (n : Nat) (f : Func → Func) : (s.updFunc n f).tags = s.tags := rfl
@[simp] theorem State.updFunc_areas (n : Nat) (f : Func → Func) : (s.updFunc n f).areas = s.areas := rfl
@[simp] theorem State.updFunc_nonce (n : Nat) (f : Func → Func) : (s.updFunc n f).nonce = s.nonce := rfl
@[simp] theorem State.updFunc_actCount (n : Nat) (f : Func → Func) : (s.updFunc n f).actCount = s.actCount := rfl
@[simp] theorem State.updFunc_buckets (n : Nat) (f : Func → Func) : (s.updFunc n f).buckets = s.buckets := rfl
@[simp] theorem State.updFunc_shapers (n : Nat) (f : Func → Func) : (s.updFunc n f).shapers = s.shapers := rfl
@[simp] theorem State.updFunc_scheds (n : Nat) (f : Func → Func) : (s.updFunc n f).scheds = s.scheds := rfl
@[simp] theorem State.updFunc_telemLast (n : Nat) (f : Func → Func) : (s.updFunc n f).telemLast = s.telemLast := rfl
@[simp] theorem State.updFunc_tide (n : Nat) (f : Func → Func) : (s.updFunc n f).tide = s.tide := rfl
@[simp] theorem State.updFunc_commits (n : Nat) (f : Func → Func) : (s.updFunc n f).commits = s.commits := rfl
@[simp] theorem State.updFunc_strait (n : Nat) (f : Func → Func) : (s.updFunc n f).strait = s.strait := rfl
@[simp] theorem State.updFunc_mirror (n : Nat) (f : Func → Func) : (s.updFunc n f).mirror = s.mirror := rfl
@[simp] theorem State.updFunc_mirDoms (n : Nat) (f : Func → Func) : (s.updFunc n f).mirDoms = s.mirDoms := rfl
@[simp] theorem State.updFunc_jobs (n : Nat) (f : Func → Func) : (s.updFunc n f).jobs = s.jobs := rfl
@[simp] theorem State.updFunc_rings (n : Nat) (f : Func → Func) : (s.updFunc n f).rings = s.rings := rfl
@[simp] theorem State.updFunc_records (n : Nat) (f : Func → Func) : (s.updFunc n f).records = s.records := rfl
@[simp] theorem State.updFunc_units (n : Nat) (f : Func → Func) : (s.updFunc n f).units = s.units := rfl
@[simp] theorem State.updFunc_poison (n : Nat) (f : Func → Func) : (s.updFunc n f).poison = s.poison := rfl
@[simp] theorem State.updFunc_poisonOvf (n : Nat) (f : Func → Func) : (s.updFunc n f).poisonOvf = s.poisonOvf := rfl
@[simp] theorem State.updFunc_events (n : Nat) (f : Func → Func) : (s.updFunc n f).events = s.events := rfl
@[simp] theorem State.updFunc_fmLog (n : Nat) (f : Func → Func) : (s.updFunc n f).fmLog = s.fmLog := rfl
@[simp] theorem State.updFunc_fmPath (n : Nat) (f : Func → Func) : (s.updFunc n f).fmPath = s.fmPath := rfl
@[simp] theorem State.updFunc_scans (n : Nat) (f : Func → Func) : (s.updFunc n f).scans = s.scans := rfl
@[simp] theorem State.updFunc_power (n : Nat) (f : Func → Func) : (s.updFunc n f).power = s.power := rfl
@[simp] theorem State.updFunc_boot (n : Nat) (f : Func → Func) : (s.updFunc n f).boot = s.boot := rfl
@[simp] theorem State.updFunc_pmu (n : Nat) (f : Func → Func) : (s.updFunc n f).pmu = s.pmu := rfl

@[simp] theorem State.updHalf_pending (h : Half) (f : HalfCore → HalfCore) : (s.updHalf h f).pending = s.pending := rfl
@[simp] theorem State.updHalf_now (h : Half) (f : HalfCore → HalfCore) : (s.updHalf h f).now = s.now := rfl
@[simp] theorem State.updHalf_free (h : Half) (f : HalfCore → HalfCore) : (s.updHalf h f).free = s.free := rfl
@[simp] theorem State.updHalf_regs (h : Half) (f : HalfCore → HalfCore) : (s.updHalf h f).regs = s.regs := rfl
@[simp] theorem State.updHalf_out (h : Half) (f : HalfCore → HalfCore) : (s.updHalf h f).out = s.out := rfl
@[simp] theorem State.updHalf_fuses (h : Half) (f : HalfCore → HalfCore) : (s.updHalf h f).fuses = s.fuses := rfl
@[simp] theorem State.updHalf_pins (h : Half) (f : HalfCore → HalfCore) : (s.updHalf h f).pins = s.pins := rfl
@[simp] theorem State.updHalf_ports (h : Half) (f : HalfCore → HalfCore) : (s.updHalf h f).ports = s.ports := rfl
@[simp] theorem State.updHalf_funcs (h : Half) (f : HalfCore → HalfCore) : (s.updHalf h f).funcs = s.funcs := rfl
@[simp] theorem State.updHalf_hdm (h : Half) (f : HalfCore → HalfCore) : (s.updHalf h f).hdm = s.hdm := rfl
@[simp] theorem State.updHalf_maps (h : Half) (f : HalfCore → HalfCore) : (s.updHalf h f).maps = s.maps := rfl
@[simp] theorem State.updHalf_extents (h : Half) (f : HalfCore → HalfCore) : (s.updHalf h f).extents = s.extents := rfl
@[simp] theorem State.updHalf_pages (h : Half) (f : HalfCore → HalfCore) : (s.updHalf h f).pages = s.pages := rfl
@[simp] theorem State.updHalf_media (h : Half) (f : HalfCore → HalfCore) : (s.updHalf h f).media = s.media := rfl
@[simp] theorem State.updHalf_mcache (h : Half) (f : HalfCore → HalfCore) : (s.updHalf h f).mcache = s.mcache := rfl
@[simp] theorem State.updHalf_frameMoves (h : Half) (f : HalfCore → HalfCore) : (s.updHalf h f).frameMoves = s.frameMoves := rfl
@[simp] theorem State.updHalf_locks (h : Half) (f : HalfCore → HalfCore) : (s.updHalf h f).locks = s.locks := rfl
@[simp] theorem State.updHalf_zero (h : Half) (f : HalfCore → HalfCore) : (s.updHalf h f).zero = s.zero := rfl
@[simp] theorem State.updHalf_drains (h : Half) (f : HalfCore → HalfCore) : (s.updHalf h f).drains = s.drains := rfl
@[simp] theorem State.updHalf_drainNext (h : Half) (f : HalfCore → HalfCore) : (s.updHalf h f).drainNext = s.drainNext := rfl
@[simp] theorem State.updHalf_walks (h : Half) (f : HalfCore → HalfCore) : (s.updHalf h f).walks = s.walks := rfl
@[simp] theorem State.updHalf_reqs (h : Half) (f : HalfCore → HalfCore) : (s.updHalf h f).reqs = s.reqs := rfl
@[simp] theorem State.updHalf_nextRid (h : Half) (f : HalfCore → HalfCore) : (s.updHalf h f).nextRid = s.nextRid := rfl
@[simp] theorem State.updHalf_queueTimes (h : Half) (f : HalfCore → HalfCore) : (s.updHalf h f).queueTimes = s.queueTimes := rfl
@[simp] theorem State.updHalf_spidPort (h : Half) (f : HalfCore → HalfCore) : (s.updHalf h f).spidPort = s.spidPort := rfl
@[simp] theorem State.updHalf_snoop (h : Half) (f : HalfCore → HalfCore) : (s.updHalf h f).snoop = s.snoop := rfl
@[simp] theorem State.updHalf_channels (h : Half) (f : HalfCore → HalfCore) : (s.updHalf h f).channels = s.channels := rfl
@[simp] theorem State.updHalf_dram (h : Half) (f : HalfCore → HalfCore) : (s.updHalf h f).dram = s.dram := rfl
@[simp] theorem State.updHalf_shg (h : Half) (f : HalfCore → HalfCore) : (s.updHalf h f).shg = s.shg := rfl
@[simp] theorem State.updHalf_mover (h : Half) (f : HalfCore → HalfCore) : (s.updHalf h f).mover = s.mover := rfl
@[simp] theorem State.updHalf_lostRuns (h : Half) (f : HalfCore → HalfCore) : (s.updHalf h f).lostRuns = s.lostRuns := rfl
@[simp] theorem State.updHalf_lostSecs (h : Half) (f : HalfCore → HalfCore) : (s.updHalf h f).lostSecs = s.lostSecs := rfl
@[simp] theorem State.updHalf_keys (h : Half) (f : HalfCore → HalfCore) : (s.updHalf h f).keys = s.keys := rfl
@[simp] theorem State.updHalf_keyCmd (h : Half) (f : HalfCore → HalfCore) : (s.updHalf h f).keyCmd = s.keyCmd := rfl
@[simp] theorem State.updHalf_wrap (h : Half) (f : HalfCore → HalfCore) : (s.updHalf h f).wrap = s.wrap := rfl
@[simp] theorem State.updHalf_prot (h : Half) (f : HalfCore → HalfCore) : (s.updHalf h f).prot = s.prot := rfl
@[simp] theorem State.updHalf_ctrs (h : Half) (f : HalfCore → HalfCore) : (s.updHalf h f).ctrs = s.ctrs := rfl
@[simp] theorem State.updHalf_nodes (h : Half) (f : HalfCore → HalfCore) : (s.updHalf h f).nodes = s.nodes := rfl
@[simp] theorem State.updHalf_tags (h : Half) (f : HalfCore → HalfCore) : (s.updHalf h f).tags = s.tags := rfl
@[simp] theorem State.updHalf_areas (h : Half) (f : HalfCore → HalfCore) : (s.updHalf h f).areas = s.areas := rfl
@[simp] theorem State.updHalf_nonce (h : Half) (f : HalfCore → HalfCore) : (s.updHalf h f).nonce = s.nonce := rfl
@[simp] theorem State.updHalf_actCount (h : Half) (f : HalfCore → HalfCore) : (s.updHalf h f).actCount = s.actCount := rfl
@[simp] theorem State.updHalf_buckets (h : Half) (f : HalfCore → HalfCore) : (s.updHalf h f).buckets = s.buckets := rfl
@[simp] theorem State.updHalf_shapers (h : Half) (f : HalfCore → HalfCore) : (s.updHalf h f).shapers = s.shapers := rfl
@[simp] theorem State.updHalf_scheds (h : Half) (f : HalfCore → HalfCore) : (s.updHalf h f).scheds = s.scheds := rfl
@[simp] theorem State.updHalf_telemLast (h : Half) (f : HalfCore → HalfCore) : (s.updHalf h f).telemLast = s.telemLast := rfl
@[simp] theorem State.updHalf_tide (h : Half) (f : HalfCore → HalfCore) : (s.updHalf h f).tide = s.tide := rfl
@[simp] theorem State.updHalf_commits (h : Half) (f : HalfCore → HalfCore) : (s.updHalf h f).commits = s.commits := rfl
@[simp] theorem State.updHalf_strait (h : Half) (f : HalfCore → HalfCore) : (s.updHalf h f).strait = s.strait := rfl
@[simp] theorem State.updHalf_mirror (h : Half) (f : HalfCore → HalfCore) : (s.updHalf h f).mirror = s.mirror := rfl
@[simp] theorem State.updHalf_mirDoms (h : Half) (f : HalfCore → HalfCore) : (s.updHalf h f).mirDoms = s.mirDoms := rfl
@[simp] theorem State.updHalf_jobs (h : Half) (f : HalfCore → HalfCore) : (s.updHalf h f).jobs = s.jobs := rfl
@[simp] theorem State.updHalf_rings (h : Half) (f : HalfCore → HalfCore) : (s.updHalf h f).rings = s.rings := rfl
@[simp] theorem State.updHalf_records (h : Half) (f : HalfCore → HalfCore) : (s.updHalf h f).records = s.records := rfl
@[simp] theorem State.updHalf_units (h : Half) (f : HalfCore → HalfCore) : (s.updHalf h f).units = s.units := rfl
@[simp] theorem State.updHalf_poison (h : Half) (f : HalfCore → HalfCore) : (s.updHalf h f).poison = s.poison := rfl
@[simp] theorem State.updHalf_poisonOvf (h : Half) (f : HalfCore → HalfCore) : (s.updHalf h f).poisonOvf = s.poisonOvf := rfl
@[simp] theorem State.updHalf_events (h : Half) (f : HalfCore → HalfCore) : (s.updHalf h f).events = s.events := rfl
@[simp] theorem State.updHalf_fmLog (h : Half) (f : HalfCore → HalfCore) : (s.updHalf h f).fmLog = s.fmLog := rfl
@[simp] theorem State.updHalf_fmPath (h : Half) (f : HalfCore → HalfCore) : (s.updHalf h f).fmPath = s.fmPath := rfl
@[simp] theorem State.updHalf_scans (h : Half) (f : HalfCore → HalfCore) : (s.updHalf h f).scans = s.scans := rfl
@[simp] theorem State.updHalf_power (h : Half) (f : HalfCore → HalfCore) : (s.updHalf h f).power = s.power := rfl
@[simp] theorem State.updHalf_boot (h : Half) (f : HalfCore → HalfCore) : (s.updHalf h f).boot = s.boot := rfl
@[simp] theorem State.updHalf_pmu (h : Half) (f : HalfCore → HalfCore) : (s.updHalf h f).pmu = s.pmu := rfl

@[simp] theorem State.updMirDom_pending (d : Nat) (f : MirDom → MirDom) : (s.updMirDom d f).pending = s.pending := rfl
@[simp] theorem State.updMirDom_now (d : Nat) (f : MirDom → MirDom) : (s.updMirDom d f).now = s.now := rfl
@[simp] theorem State.updMirDom_free (d : Nat) (f : MirDom → MirDom) : (s.updMirDom d f).free = s.free := rfl
@[simp] theorem State.updMirDom_regs (d : Nat) (f : MirDom → MirDom) : (s.updMirDom d f).regs = s.regs := rfl
@[simp] theorem State.updMirDom_out (d : Nat) (f : MirDom → MirDom) : (s.updMirDom d f).out = s.out := rfl
@[simp] theorem State.updMirDom_fuses (d : Nat) (f : MirDom → MirDom) : (s.updMirDom d f).fuses = s.fuses := rfl
@[simp] theorem State.updMirDom_pins (d : Nat) (f : MirDom → MirDom) : (s.updMirDom d f).pins = s.pins := rfl
@[simp] theorem State.updMirDom_halves (d : Nat) (f : MirDom → MirDom) : (s.updMirDom d f).halves = s.halves := rfl
@[simp] theorem State.updMirDom_ports (d : Nat) (f : MirDom → MirDom) : (s.updMirDom d f).ports = s.ports := rfl
@[simp] theorem State.updMirDom_funcs (d : Nat) (f : MirDom → MirDom) : (s.updMirDom d f).funcs = s.funcs := rfl
@[simp] theorem State.updMirDom_hdm (d : Nat) (f : MirDom → MirDom) : (s.updMirDom d f).hdm = s.hdm := rfl
@[simp] theorem State.updMirDom_maps (d : Nat) (f : MirDom → MirDom) : (s.updMirDom d f).maps = s.maps := rfl
@[simp] theorem State.updMirDom_extents (d : Nat) (f : MirDom → MirDom) : (s.updMirDom d f).extents = s.extents := rfl
@[simp] theorem State.updMirDom_pages (d : Nat) (f : MirDom → MirDom) : (s.updMirDom d f).pages = s.pages := rfl
@[simp] theorem State.updMirDom_media (d : Nat) (f : MirDom → MirDom) : (s.updMirDom d f).media = s.media := rfl
@[simp] theorem State.updMirDom_mcache (d : Nat) (f : MirDom → MirDom) : (s.updMirDom d f).mcache = s.mcache := rfl
@[simp] theorem State.updMirDom_frameMoves (d : Nat) (f : MirDom → MirDom) : (s.updMirDom d f).frameMoves = s.frameMoves := rfl
@[simp] theorem State.updMirDom_locks (d : Nat) (f : MirDom → MirDom) : (s.updMirDom d f).locks = s.locks := rfl
@[simp] theorem State.updMirDom_zero (d : Nat) (f : MirDom → MirDom) : (s.updMirDom d f).zero = s.zero := rfl
@[simp] theorem State.updMirDom_drains (d : Nat) (f : MirDom → MirDom) : (s.updMirDom d f).drains = s.drains := rfl
@[simp] theorem State.updMirDom_drainNext (d : Nat) (f : MirDom → MirDom) : (s.updMirDom d f).drainNext = s.drainNext := rfl
@[simp] theorem State.updMirDom_walks (d : Nat) (f : MirDom → MirDom) : (s.updMirDom d f).walks = s.walks := rfl
@[simp] theorem State.updMirDom_reqs (d : Nat) (f : MirDom → MirDom) : (s.updMirDom d f).reqs = s.reqs := rfl
@[simp] theorem State.updMirDom_nextRid (d : Nat) (f : MirDom → MirDom) : (s.updMirDom d f).nextRid = s.nextRid := rfl
@[simp] theorem State.updMirDom_queueTimes (d : Nat) (f : MirDom → MirDom) : (s.updMirDom d f).queueTimes = s.queueTimes := rfl
@[simp] theorem State.updMirDom_spidPort (d : Nat) (f : MirDom → MirDom) : (s.updMirDom d f).spidPort = s.spidPort := rfl
@[simp] theorem State.updMirDom_snoop (d : Nat) (f : MirDom → MirDom) : (s.updMirDom d f).snoop = s.snoop := rfl
@[simp] theorem State.updMirDom_channels (d : Nat) (f : MirDom → MirDom) : (s.updMirDom d f).channels = s.channels := rfl
@[simp] theorem State.updMirDom_dram (d : Nat) (f : MirDom → MirDom) : (s.updMirDom d f).dram = s.dram := rfl
@[simp] theorem State.updMirDom_shg (d : Nat) (f : MirDom → MirDom) : (s.updMirDom d f).shg = s.shg := rfl
@[simp] theorem State.updMirDom_mover (d : Nat) (f : MirDom → MirDom) : (s.updMirDom d f).mover = s.mover := rfl
@[simp] theorem State.updMirDom_lostRuns (d : Nat) (f : MirDom → MirDom) : (s.updMirDom d f).lostRuns = s.lostRuns := rfl
@[simp] theorem State.updMirDom_lostSecs (d : Nat) (f : MirDom → MirDom) : (s.updMirDom d f).lostSecs = s.lostSecs := rfl
@[simp] theorem State.updMirDom_keys (d : Nat) (f : MirDom → MirDom) : (s.updMirDom d f).keys = s.keys := rfl
@[simp] theorem State.updMirDom_keyCmd (d : Nat) (f : MirDom → MirDom) : (s.updMirDom d f).keyCmd = s.keyCmd := rfl
@[simp] theorem State.updMirDom_wrap (d : Nat) (f : MirDom → MirDom) : (s.updMirDom d f).wrap = s.wrap := rfl
@[simp] theorem State.updMirDom_prot (d : Nat) (f : MirDom → MirDom) : (s.updMirDom d f).prot = s.prot := rfl
@[simp] theorem State.updMirDom_ctrs (d : Nat) (f : MirDom → MirDom) : (s.updMirDom d f).ctrs = s.ctrs := rfl
@[simp] theorem State.updMirDom_nodes (d : Nat) (f : MirDom → MirDom) : (s.updMirDom d f).nodes = s.nodes := rfl
@[simp] theorem State.updMirDom_tags (d : Nat) (f : MirDom → MirDom) : (s.updMirDom d f).tags = s.tags := rfl
@[simp] theorem State.updMirDom_areas (d : Nat) (f : MirDom → MirDom) : (s.updMirDom d f).areas = s.areas := rfl
@[simp] theorem State.updMirDom_nonce (d : Nat) (f : MirDom → MirDom) : (s.updMirDom d f).nonce = s.nonce := rfl
@[simp] theorem State.updMirDom_actCount (d : Nat) (f : MirDom → MirDom) : (s.updMirDom d f).actCount = s.actCount := rfl
@[simp] theorem State.updMirDom_buckets (d : Nat) (f : MirDom → MirDom) : (s.updMirDom d f).buckets = s.buckets := rfl
@[simp] theorem State.updMirDom_shapers (d : Nat) (f : MirDom → MirDom) : (s.updMirDom d f).shapers = s.shapers := rfl
@[simp] theorem State.updMirDom_scheds (d : Nat) (f : MirDom → MirDom) : (s.updMirDom d f).scheds = s.scheds := rfl
@[simp] theorem State.updMirDom_telemLast (d : Nat) (f : MirDom → MirDom) : (s.updMirDom d f).telemLast = s.telemLast := rfl
@[simp] theorem State.updMirDom_tide (d : Nat) (f : MirDom → MirDom) : (s.updMirDom d f).tide = s.tide := rfl
@[simp] theorem State.updMirDom_commits (d : Nat) (f : MirDom → MirDom) : (s.updMirDom d f).commits = s.commits := rfl
@[simp] theorem State.updMirDom_strait (d : Nat) (f : MirDom → MirDom) : (s.updMirDom d f).strait = s.strait := rfl
@[simp] theorem State.updMirDom_mirror (d : Nat) (f : MirDom → MirDom) : (s.updMirDom d f).mirror = s.mirror := rfl
@[simp] theorem State.updMirDom_jobs (d : Nat) (f : MirDom → MirDom) : (s.updMirDom d f).jobs = s.jobs := rfl
@[simp] theorem State.updMirDom_rings (d : Nat) (f : MirDom → MirDom) : (s.updMirDom d f).rings = s.rings := rfl
@[simp] theorem State.updMirDom_records (d : Nat) (f : MirDom → MirDom) : (s.updMirDom d f).records = s.records := rfl
@[simp] theorem State.updMirDom_units (d : Nat) (f : MirDom → MirDom) : (s.updMirDom d f).units = s.units := rfl
@[simp] theorem State.updMirDom_poison (d : Nat) (f : MirDom → MirDom) : (s.updMirDom d f).poison = s.poison := rfl
@[simp] theorem State.updMirDom_poisonOvf (d : Nat) (f : MirDom → MirDom) : (s.updMirDom d f).poisonOvf = s.poisonOvf := rfl
@[simp] theorem State.updMirDom_events (d : Nat) (f : MirDom → MirDom) : (s.updMirDom d f).events = s.events := rfl
@[simp] theorem State.updMirDom_fmLog (d : Nat) (f : MirDom → MirDom) : (s.updMirDom d f).fmLog = s.fmLog := rfl
@[simp] theorem State.updMirDom_fmPath (d : Nat) (f : MirDom → MirDom) : (s.updMirDom d f).fmPath = s.fmPath := rfl
@[simp] theorem State.updMirDom_scans (d : Nat) (f : MirDom → MirDom) : (s.updMirDom d f).scans = s.scans := rfl
@[simp] theorem State.updMirDom_power (d : Nat) (f : MirDom → MirDom) : (s.updMirDom d f).power = s.power := rfl
@[simp] theorem State.updMirDom_boot (d : Nat) (f : MirDom → MirDom) : (s.updMirDom d f).boot = s.boot := rfl
@[simp] theorem State.updMirDom_pmu (d : Nat) (f : MirDom → MirDom) : (s.updMirDom d f).pmu = s.pmu := rfl

@[simp] theorem State.updMap_pending (d : Nat) (f : DomMap → DomMap) : (s.updMap d f).pending = s.pending := rfl
@[simp] theorem State.updMap_now (d : Nat) (f : DomMap → DomMap) : (s.updMap d f).now = s.now := rfl
@[simp] theorem State.updMap_free (d : Nat) (f : DomMap → DomMap) : (s.updMap d f).free = s.free := rfl
@[simp] theorem State.updMap_regs (d : Nat) (f : DomMap → DomMap) : (s.updMap d f).regs = s.regs := rfl
@[simp] theorem State.updMap_out (d : Nat) (f : DomMap → DomMap) : (s.updMap d f).out = s.out := rfl
@[simp] theorem State.updMap_fuses (d : Nat) (f : DomMap → DomMap) : (s.updMap d f).fuses = s.fuses := rfl
@[simp] theorem State.updMap_pins (d : Nat) (f : DomMap → DomMap) : (s.updMap d f).pins = s.pins := rfl
@[simp] theorem State.updMap_halves (d : Nat) (f : DomMap → DomMap) : (s.updMap d f).halves = s.halves := rfl
@[simp] theorem State.updMap_ports (d : Nat) (f : DomMap → DomMap) : (s.updMap d f).ports = s.ports := rfl
@[simp] theorem State.updMap_funcs (d : Nat) (f : DomMap → DomMap) : (s.updMap d f).funcs = s.funcs := rfl
@[simp] theorem State.updMap_hdm (d : Nat) (f : DomMap → DomMap) : (s.updMap d f).hdm = s.hdm := rfl
@[simp] theorem State.updMap_extents (d : Nat) (f : DomMap → DomMap) : (s.updMap d f).extents = s.extents := rfl
@[simp] theorem State.updMap_pages (d : Nat) (f : DomMap → DomMap) : (s.updMap d f).pages = s.pages := rfl
@[simp] theorem State.updMap_media (d : Nat) (f : DomMap → DomMap) : (s.updMap d f).media = s.media := rfl
@[simp] theorem State.updMap_mcache (d : Nat) (f : DomMap → DomMap) : (s.updMap d f).mcache = s.mcache := rfl
@[simp] theorem State.updMap_frameMoves (d : Nat) (f : DomMap → DomMap) : (s.updMap d f).frameMoves = s.frameMoves := rfl
@[simp] theorem State.updMap_locks (d : Nat) (f : DomMap → DomMap) : (s.updMap d f).locks = s.locks := rfl
@[simp] theorem State.updMap_zero (d : Nat) (f : DomMap → DomMap) : (s.updMap d f).zero = s.zero := rfl
@[simp] theorem State.updMap_drains (d : Nat) (f : DomMap → DomMap) : (s.updMap d f).drains = s.drains := rfl
@[simp] theorem State.updMap_drainNext (d : Nat) (f : DomMap → DomMap) : (s.updMap d f).drainNext = s.drainNext := rfl
@[simp] theorem State.updMap_walks (d : Nat) (f : DomMap → DomMap) : (s.updMap d f).walks = s.walks := rfl
@[simp] theorem State.updMap_reqs (d : Nat) (f : DomMap → DomMap) : (s.updMap d f).reqs = s.reqs := rfl
@[simp] theorem State.updMap_nextRid (d : Nat) (f : DomMap → DomMap) : (s.updMap d f).nextRid = s.nextRid := rfl
@[simp] theorem State.updMap_queueTimes (d : Nat) (f : DomMap → DomMap) : (s.updMap d f).queueTimes = s.queueTimes := rfl
@[simp] theorem State.updMap_spidPort (d : Nat) (f : DomMap → DomMap) : (s.updMap d f).spidPort = s.spidPort := rfl
@[simp] theorem State.updMap_snoop (d : Nat) (f : DomMap → DomMap) : (s.updMap d f).snoop = s.snoop := rfl
@[simp] theorem State.updMap_channels (d : Nat) (f : DomMap → DomMap) : (s.updMap d f).channels = s.channels := rfl
@[simp] theorem State.updMap_dram (d : Nat) (f : DomMap → DomMap) : (s.updMap d f).dram = s.dram := rfl
@[simp] theorem State.updMap_shg (d : Nat) (f : DomMap → DomMap) : (s.updMap d f).shg = s.shg := rfl
@[simp] theorem State.updMap_mover (d : Nat) (f : DomMap → DomMap) : (s.updMap d f).mover = s.mover := rfl
@[simp] theorem State.updMap_lostRuns (d : Nat) (f : DomMap → DomMap) : (s.updMap d f).lostRuns = s.lostRuns := rfl
@[simp] theorem State.updMap_lostSecs (d : Nat) (f : DomMap → DomMap) : (s.updMap d f).lostSecs = s.lostSecs := rfl
@[simp] theorem State.updMap_keys (d : Nat) (f : DomMap → DomMap) : (s.updMap d f).keys = s.keys := rfl
@[simp] theorem State.updMap_keyCmd (d : Nat) (f : DomMap → DomMap) : (s.updMap d f).keyCmd = s.keyCmd := rfl
@[simp] theorem State.updMap_wrap (d : Nat) (f : DomMap → DomMap) : (s.updMap d f).wrap = s.wrap := rfl
@[simp] theorem State.updMap_prot (d : Nat) (f : DomMap → DomMap) : (s.updMap d f).prot = s.prot := rfl
@[simp] theorem State.updMap_ctrs (d : Nat) (f : DomMap → DomMap) : (s.updMap d f).ctrs = s.ctrs := rfl
@[simp] theorem State.updMap_nodes (d : Nat) (f : DomMap → DomMap) : (s.updMap d f).nodes = s.nodes := rfl
@[simp] theorem State.updMap_tags (d : Nat) (f : DomMap → DomMap) : (s.updMap d f).tags = s.tags := rfl
@[simp] theorem State.updMap_areas (d : Nat) (f : DomMap → DomMap) : (s.updMap d f).areas = s.areas := rfl
@[simp] theorem State.updMap_nonce (d : Nat) (f : DomMap → DomMap) : (s.updMap d f).nonce = s.nonce := rfl
@[simp] theorem State.updMap_actCount (d : Nat) (f : DomMap → DomMap) : (s.updMap d f).actCount = s.actCount := rfl
@[simp] theorem State.updMap_buckets (d : Nat) (f : DomMap → DomMap) : (s.updMap d f).buckets = s.buckets := rfl
@[simp] theorem State.updMap_shapers (d : Nat) (f : DomMap → DomMap) : (s.updMap d f).shapers = s.shapers := rfl
@[simp] theorem State.updMap_scheds (d : Nat) (f : DomMap → DomMap) : (s.updMap d f).scheds = s.scheds := rfl
@[simp] theorem State.updMap_telemLast (d : Nat) (f : DomMap → DomMap) : (s.updMap d f).telemLast = s.telemLast := rfl
@[simp] theorem State.updMap_tide (d : Nat) (f : DomMap → DomMap) : (s.updMap d f).tide = s.tide := rfl
@[simp] theorem State.updMap_commits (d : Nat) (f : DomMap → DomMap) : (s.updMap d f).commits = s.commits := rfl
@[simp] theorem State.updMap_strait (d : Nat) (f : DomMap → DomMap) : (s.updMap d f).strait = s.strait := rfl
@[simp] theorem State.updMap_mirror (d : Nat) (f : DomMap → DomMap) : (s.updMap d f).mirror = s.mirror := rfl
@[simp] theorem State.updMap_mirDoms (d : Nat) (f : DomMap → DomMap) : (s.updMap d f).mirDoms = s.mirDoms := rfl
@[simp] theorem State.updMap_jobs (d : Nat) (f : DomMap → DomMap) : (s.updMap d f).jobs = s.jobs := rfl
@[simp] theorem State.updMap_rings (d : Nat) (f : DomMap → DomMap) : (s.updMap d f).rings = s.rings := rfl
@[simp] theorem State.updMap_records (d : Nat) (f : DomMap → DomMap) : (s.updMap d f).records = s.records := rfl
@[simp] theorem State.updMap_units (d : Nat) (f : DomMap → DomMap) : (s.updMap d f).units = s.units := rfl
@[simp] theorem State.updMap_poison (d : Nat) (f : DomMap → DomMap) : (s.updMap d f).poison = s.poison := rfl
@[simp] theorem State.updMap_poisonOvf (d : Nat) (f : DomMap → DomMap) : (s.updMap d f).poisonOvf = s.poisonOvf := rfl
@[simp] theorem State.updMap_events (d : Nat) (f : DomMap → DomMap) : (s.updMap d f).events = s.events := rfl
@[simp] theorem State.updMap_fmLog (d : Nat) (f : DomMap → DomMap) : (s.updMap d f).fmLog = s.fmLog := rfl
@[simp] theorem State.updMap_fmPath (d : Nat) (f : DomMap → DomMap) : (s.updMap d f).fmPath = s.fmPath := rfl
@[simp] theorem State.updMap_scans (d : Nat) (f : DomMap → DomMap) : (s.updMap d f).scans = s.scans := rfl
@[simp] theorem State.updMap_power (d : Nat) (f : DomMap → DomMap) : (s.updMap d f).power = s.power := rfl
@[simp] theorem State.updMap_boot (d : Nat) (f : DomMap → DomMap) : (s.updMap d f).boot = s.boot := rfl
@[simp] theorem State.updMap_pmu (d : Nat) (f : DomMap → DomMap) : (s.updMap d f).pmu = s.pmu := rfl

@[simp] theorem State.setExt_pending (d e : Nat) (x : Extent) : (s.setExt d e x).pending = s.pending := rfl
@[simp] theorem State.setExt_now (d e : Nat) (x : Extent) : (s.setExt d e x).now = s.now := rfl
@[simp] theorem State.setExt_free (d e : Nat) (x : Extent) : (s.setExt d e x).free = s.free := rfl
@[simp] theorem State.setExt_regs (d e : Nat) (x : Extent) : (s.setExt d e x).regs = s.regs := rfl
@[simp] theorem State.setExt_out (d e : Nat) (x : Extent) : (s.setExt d e x).out = s.out := rfl
@[simp] theorem State.setExt_fuses (d e : Nat) (x : Extent) : (s.setExt d e x).fuses = s.fuses := rfl
@[simp] theorem State.setExt_pins (d e : Nat) (x : Extent) : (s.setExt d e x).pins = s.pins := rfl
@[simp] theorem State.setExt_halves (d e : Nat) (x : Extent) : (s.setExt d e x).halves = s.halves := rfl
@[simp] theorem State.setExt_ports (d e : Nat) (x : Extent) : (s.setExt d e x).ports = s.ports := rfl
@[simp] theorem State.setExt_funcs (d e : Nat) (x : Extent) : (s.setExt d e x).funcs = s.funcs := rfl
@[simp] theorem State.setExt_hdm (d e : Nat) (x : Extent) : (s.setExt d e x).hdm = s.hdm := rfl
@[simp] theorem State.setExt_maps (d e : Nat) (x : Extent) : (s.setExt d e x).maps = s.maps := rfl
@[simp] theorem State.setExt_pages (d e : Nat) (x : Extent) : (s.setExt d e x).pages = s.pages := rfl
@[simp] theorem State.setExt_media (d e : Nat) (x : Extent) : (s.setExt d e x).media = s.media := rfl
@[simp] theorem State.setExt_mcache (d e : Nat) (x : Extent) : (s.setExt d e x).mcache = s.mcache := rfl
@[simp] theorem State.setExt_frameMoves (d e : Nat) (x : Extent) : (s.setExt d e x).frameMoves = s.frameMoves := rfl
@[simp] theorem State.setExt_locks (d e : Nat) (x : Extent) : (s.setExt d e x).locks = s.locks := rfl
@[simp] theorem State.setExt_zero (d e : Nat) (x : Extent) : (s.setExt d e x).zero = s.zero := rfl
@[simp] theorem State.setExt_drains (d e : Nat) (x : Extent) : (s.setExt d e x).drains = s.drains := rfl
@[simp] theorem State.setExt_drainNext (d e : Nat) (x : Extent) : (s.setExt d e x).drainNext = s.drainNext := rfl
@[simp] theorem State.setExt_walks (d e : Nat) (x : Extent) : (s.setExt d e x).walks = s.walks := rfl
@[simp] theorem State.setExt_reqs (d e : Nat) (x : Extent) : (s.setExt d e x).reqs = s.reqs := rfl
@[simp] theorem State.setExt_nextRid (d e : Nat) (x : Extent) : (s.setExt d e x).nextRid = s.nextRid := rfl
@[simp] theorem State.setExt_queueTimes (d e : Nat) (x : Extent) : (s.setExt d e x).queueTimes = s.queueTimes := rfl
@[simp] theorem State.setExt_spidPort (d e : Nat) (x : Extent) : (s.setExt d e x).spidPort = s.spidPort := rfl
@[simp] theorem State.setExt_snoop (d e : Nat) (x : Extent) : (s.setExt d e x).snoop = s.snoop := rfl
@[simp] theorem State.setExt_channels (d e : Nat) (x : Extent) : (s.setExt d e x).channels = s.channels := rfl
@[simp] theorem State.setExt_dram (d e : Nat) (x : Extent) : (s.setExt d e x).dram = s.dram := rfl
@[simp] theorem State.setExt_shg (d e : Nat) (x : Extent) : (s.setExt d e x).shg = s.shg := rfl
@[simp] theorem State.setExt_mover (d e : Nat) (x : Extent) : (s.setExt d e x).mover = s.mover := rfl
@[simp] theorem State.setExt_lostRuns (d e : Nat) (x : Extent) : (s.setExt d e x).lostRuns = s.lostRuns := rfl
@[simp] theorem State.setExt_lostSecs (d e : Nat) (x : Extent) : (s.setExt d e x).lostSecs = s.lostSecs := rfl
@[simp] theorem State.setExt_keys (d e : Nat) (x : Extent) : (s.setExt d e x).keys = s.keys := rfl
@[simp] theorem State.setExt_keyCmd (d e : Nat) (x : Extent) : (s.setExt d e x).keyCmd = s.keyCmd := rfl
@[simp] theorem State.setExt_wrap (d e : Nat) (x : Extent) : (s.setExt d e x).wrap = s.wrap := rfl
@[simp] theorem State.setExt_prot (d e : Nat) (x : Extent) : (s.setExt d e x).prot = s.prot := rfl
@[simp] theorem State.setExt_ctrs (d e : Nat) (x : Extent) : (s.setExt d e x).ctrs = s.ctrs := rfl
@[simp] theorem State.setExt_nodes (d e : Nat) (x : Extent) : (s.setExt d e x).nodes = s.nodes := rfl
@[simp] theorem State.setExt_tags (d e : Nat) (x : Extent) : (s.setExt d e x).tags = s.tags := rfl
@[simp] theorem State.setExt_areas (d e : Nat) (x : Extent) : (s.setExt d e x).areas = s.areas := rfl
@[simp] theorem State.setExt_nonce (d e : Nat) (x : Extent) : (s.setExt d e x).nonce = s.nonce := rfl
@[simp] theorem State.setExt_actCount (d e : Nat) (x : Extent) : (s.setExt d e x).actCount = s.actCount := rfl
@[simp] theorem State.setExt_buckets (d e : Nat) (x : Extent) : (s.setExt d e x).buckets = s.buckets := rfl
@[simp] theorem State.setExt_shapers (d e : Nat) (x : Extent) : (s.setExt d e x).shapers = s.shapers := rfl
@[simp] theorem State.setExt_scheds (d e : Nat) (x : Extent) : (s.setExt d e x).scheds = s.scheds := rfl
@[simp] theorem State.setExt_telemLast (d e : Nat) (x : Extent) : (s.setExt d e x).telemLast = s.telemLast := rfl
@[simp] theorem State.setExt_tide (d e : Nat) (x : Extent) : (s.setExt d e x).tide = s.tide := rfl
@[simp] theorem State.setExt_commits (d e : Nat) (x : Extent) : (s.setExt d e x).commits = s.commits := rfl
@[simp] theorem State.setExt_strait (d e : Nat) (x : Extent) : (s.setExt d e x).strait = s.strait := rfl
@[simp] theorem State.setExt_mirror (d e : Nat) (x : Extent) : (s.setExt d e x).mirror = s.mirror := rfl
@[simp] theorem State.setExt_mirDoms (d e : Nat) (x : Extent) : (s.setExt d e x).mirDoms = s.mirDoms := rfl
@[simp] theorem State.setExt_jobs (d e : Nat) (x : Extent) : (s.setExt d e x).jobs = s.jobs := rfl
@[simp] theorem State.setExt_rings (d e : Nat) (x : Extent) : (s.setExt d e x).rings = s.rings := rfl
@[simp] theorem State.setExt_records (d e : Nat) (x : Extent) : (s.setExt d e x).records = s.records := rfl
@[simp] theorem State.setExt_units (d e : Nat) (x : Extent) : (s.setExt d e x).units = s.units := rfl
@[simp] theorem State.setExt_poison (d e : Nat) (x : Extent) : (s.setExt d e x).poison = s.poison := rfl
@[simp] theorem State.setExt_poisonOvf (d e : Nat) (x : Extent) : (s.setExt d e x).poisonOvf = s.poisonOvf := rfl
@[simp] theorem State.setExt_events (d e : Nat) (x : Extent) : (s.setExt d e x).events = s.events := rfl
@[simp] theorem State.setExt_fmLog (d e : Nat) (x : Extent) : (s.setExt d e x).fmLog = s.fmLog := rfl
@[simp] theorem State.setExt_fmPath (d e : Nat) (x : Extent) : (s.setExt d e x).fmPath = s.fmPath := rfl
@[simp] theorem State.setExt_scans (d e : Nat) (x : Extent) : (s.setExt d e x).scans = s.scans := rfl
@[simp] theorem State.setExt_power (d e : Nat) (x : Extent) : (s.setExt d e x).power = s.power := rfl
@[simp] theorem State.setExt_boot (d e : Nat) (x : Extent) : (s.setExt d e x).boot = s.boot := rfl
@[simp] theorem State.setExt_pmu (d e : Nat) (x : Extent) : (s.setExt d e x).pmu = s.pmu := rfl

@[simp] theorem State.setPage_pending (d p : Nat) (x : Page) : (s.setPage d p x).pending = s.pending := rfl
@[simp] theorem State.setPage_now (d p : Nat) (x : Page) : (s.setPage d p x).now = s.now := rfl
@[simp] theorem State.setPage_free (d p : Nat) (x : Page) : (s.setPage d p x).free = s.free := rfl
@[simp] theorem State.setPage_regs (d p : Nat) (x : Page) : (s.setPage d p x).regs = s.regs := rfl
@[simp] theorem State.setPage_out (d p : Nat) (x : Page) : (s.setPage d p x).out = s.out := rfl
@[simp] theorem State.setPage_fuses (d p : Nat) (x : Page) : (s.setPage d p x).fuses = s.fuses := rfl
@[simp] theorem State.setPage_pins (d p : Nat) (x : Page) : (s.setPage d p x).pins = s.pins := rfl
@[simp] theorem State.setPage_halves (d p : Nat) (x : Page) : (s.setPage d p x).halves = s.halves := rfl
@[simp] theorem State.setPage_ports (d p : Nat) (x : Page) : (s.setPage d p x).ports = s.ports := rfl
@[simp] theorem State.setPage_funcs (d p : Nat) (x : Page) : (s.setPage d p x).funcs = s.funcs := rfl
@[simp] theorem State.setPage_hdm (d p : Nat) (x : Page) : (s.setPage d p x).hdm = s.hdm := rfl
@[simp] theorem State.setPage_maps (d p : Nat) (x : Page) : (s.setPage d p x).maps = s.maps := rfl
@[simp] theorem State.setPage_extents (d p : Nat) (x : Page) : (s.setPage d p x).extents = s.extents := rfl
@[simp] theorem State.setPage_media (d p : Nat) (x : Page) : (s.setPage d p x).media = s.media := rfl
@[simp] theorem State.setPage_mcache (d p : Nat) (x : Page) : (s.setPage d p x).mcache = s.mcache := rfl
@[simp] theorem State.setPage_frameMoves (d p : Nat) (x : Page) : (s.setPage d p x).frameMoves = s.frameMoves := rfl
@[simp] theorem State.setPage_locks (d p : Nat) (x : Page) : (s.setPage d p x).locks = s.locks := rfl
@[simp] theorem State.setPage_zero (d p : Nat) (x : Page) : (s.setPage d p x).zero = s.zero := rfl
@[simp] theorem State.setPage_drains (d p : Nat) (x : Page) : (s.setPage d p x).drains = s.drains := rfl
@[simp] theorem State.setPage_drainNext (d p : Nat) (x : Page) : (s.setPage d p x).drainNext = s.drainNext := rfl
@[simp] theorem State.setPage_walks (d p : Nat) (x : Page) : (s.setPage d p x).walks = s.walks := rfl
@[simp] theorem State.setPage_reqs (d p : Nat) (x : Page) : (s.setPage d p x).reqs = s.reqs := rfl
@[simp] theorem State.setPage_nextRid (d p : Nat) (x : Page) : (s.setPage d p x).nextRid = s.nextRid := rfl
@[simp] theorem State.setPage_queueTimes (d p : Nat) (x : Page) : (s.setPage d p x).queueTimes = s.queueTimes := rfl
@[simp] theorem State.setPage_spidPort (d p : Nat) (x : Page) : (s.setPage d p x).spidPort = s.spidPort := rfl
@[simp] theorem State.setPage_snoop (d p : Nat) (x : Page) : (s.setPage d p x).snoop = s.snoop := rfl
@[simp] theorem State.setPage_channels (d p : Nat) (x : Page) : (s.setPage d p x).channels = s.channels := rfl
@[simp] theorem State.setPage_dram (d p : Nat) (x : Page) : (s.setPage d p x).dram = s.dram := rfl
@[simp] theorem State.setPage_shg (d p : Nat) (x : Page) : (s.setPage d p x).shg = s.shg := rfl
@[simp] theorem State.setPage_mover (d p : Nat) (x : Page) : (s.setPage d p x).mover = s.mover := rfl
@[simp] theorem State.setPage_lostRuns (d p : Nat) (x : Page) : (s.setPage d p x).lostRuns = s.lostRuns := rfl
@[simp] theorem State.setPage_lostSecs (d p : Nat) (x : Page) : (s.setPage d p x).lostSecs = s.lostSecs := rfl
@[simp] theorem State.setPage_keys (d p : Nat) (x : Page) : (s.setPage d p x).keys = s.keys := rfl
@[simp] theorem State.setPage_keyCmd (d p : Nat) (x : Page) : (s.setPage d p x).keyCmd = s.keyCmd := rfl
@[simp] theorem State.setPage_wrap (d p : Nat) (x : Page) : (s.setPage d p x).wrap = s.wrap := rfl
@[simp] theorem State.setPage_prot (d p : Nat) (x : Page) : (s.setPage d p x).prot = s.prot := rfl
@[simp] theorem State.setPage_ctrs (d p : Nat) (x : Page) : (s.setPage d p x).ctrs = s.ctrs := rfl
@[simp] theorem State.setPage_nodes (d p : Nat) (x : Page) : (s.setPage d p x).nodes = s.nodes := rfl
@[simp] theorem State.setPage_tags (d p : Nat) (x : Page) : (s.setPage d p x).tags = s.tags := rfl
@[simp] theorem State.setPage_areas (d p : Nat) (x : Page) : (s.setPage d p x).areas = s.areas := rfl
@[simp] theorem State.setPage_nonce (d p : Nat) (x : Page) : (s.setPage d p x).nonce = s.nonce := rfl
@[simp] theorem State.setPage_actCount (d p : Nat) (x : Page) : (s.setPage d p x).actCount = s.actCount := rfl
@[simp] theorem State.setPage_buckets (d p : Nat) (x : Page) : (s.setPage d p x).buckets = s.buckets := rfl
@[simp] theorem State.setPage_shapers (d p : Nat) (x : Page) : (s.setPage d p x).shapers = s.shapers := rfl
@[simp] theorem State.setPage_scheds (d p : Nat) (x : Page) : (s.setPage d p x).scheds = s.scheds := rfl
@[simp] theorem State.setPage_telemLast (d p : Nat) (x : Page) : (s.setPage d p x).telemLast = s.telemLast := rfl
@[simp] theorem State.setPage_tide (d p : Nat) (x : Page) : (s.setPage d p x).tide = s.tide := rfl
@[simp] theorem State.setPage_commits (d p : Nat) (x : Page) : (s.setPage d p x).commits = s.commits := rfl
@[simp] theorem State.setPage_strait (d p : Nat) (x : Page) : (s.setPage d p x).strait = s.strait := rfl
@[simp] theorem State.setPage_mirror (d p : Nat) (x : Page) : (s.setPage d p x).mirror = s.mirror := rfl
@[simp] theorem State.setPage_mirDoms (d p : Nat) (x : Page) : (s.setPage d p x).mirDoms = s.mirDoms := rfl
@[simp] theorem State.setPage_jobs (d p : Nat) (x : Page) : (s.setPage d p x).jobs = s.jobs := rfl
@[simp] theorem State.setPage_rings (d p : Nat) (x : Page) : (s.setPage d p x).rings = s.rings := rfl
@[simp] theorem State.setPage_records (d p : Nat) (x : Page) : (s.setPage d p x).records = s.records := rfl
@[simp] theorem State.setPage_units (d p : Nat) (x : Page) : (s.setPage d p x).units = s.units := rfl
@[simp] theorem State.setPage_poison (d p : Nat) (x : Page) : (s.setPage d p x).poison = s.poison := rfl
@[simp] theorem State.setPage_poisonOvf (d p : Nat) (x : Page) : (s.setPage d p x).poisonOvf = s.poisonOvf := rfl
@[simp] theorem State.setPage_events (d p : Nat) (x : Page) : (s.setPage d p x).events = s.events := rfl
@[simp] theorem State.setPage_fmLog (d p : Nat) (x : Page) : (s.setPage d p x).fmLog = s.fmLog := rfl
@[simp] theorem State.setPage_fmPath (d p : Nat) (x : Page) : (s.setPage d p x).fmPath = s.fmPath := rfl
@[simp] theorem State.setPage_scans (d p : Nat) (x : Page) : (s.setPage d p x).scans = s.scans := rfl
@[simp] theorem State.setPage_power (d p : Nat) (x : Page) : (s.setPage d p x).power = s.power := rfl
@[simp] theorem State.setPage_boot (d p : Nat) (x : Page) : (s.setPage d p x).boot = s.boot := rfl
@[simp] theorem State.setPage_pmu (d p : Nat) (x : Page) : (s.setPage d p x).pmu = s.pmu := rfl

@[simp] theorem State.updUnit_pending (u : Nat) (f : UnitState → UnitState) : (s.updUnit u f).pending = s.pending := rfl
@[simp] theorem State.updUnit_now (u : Nat) (f : UnitState → UnitState) : (s.updUnit u f).now = s.now := rfl
@[simp] theorem State.updUnit_free (u : Nat) (f : UnitState → UnitState) : (s.updUnit u f).free = s.free := rfl
@[simp] theorem State.updUnit_regs (u : Nat) (f : UnitState → UnitState) : (s.updUnit u f).regs = s.regs := rfl
@[simp] theorem State.updUnit_out (u : Nat) (f : UnitState → UnitState) : (s.updUnit u f).out = s.out := rfl
@[simp] theorem State.updUnit_fuses (u : Nat) (f : UnitState → UnitState) : (s.updUnit u f).fuses = s.fuses := rfl
@[simp] theorem State.updUnit_pins (u : Nat) (f : UnitState → UnitState) : (s.updUnit u f).pins = s.pins := rfl
@[simp] theorem State.updUnit_halves (u : Nat) (f : UnitState → UnitState) : (s.updUnit u f).halves = s.halves := rfl
@[simp] theorem State.updUnit_ports (u : Nat) (f : UnitState → UnitState) : (s.updUnit u f).ports = s.ports := rfl
@[simp] theorem State.updUnit_funcs (u : Nat) (f : UnitState → UnitState) : (s.updUnit u f).funcs = s.funcs := rfl
@[simp] theorem State.updUnit_hdm (u : Nat) (f : UnitState → UnitState) : (s.updUnit u f).hdm = s.hdm := rfl
@[simp] theorem State.updUnit_maps (u : Nat) (f : UnitState → UnitState) : (s.updUnit u f).maps = s.maps := rfl
@[simp] theorem State.updUnit_extents (u : Nat) (f : UnitState → UnitState) : (s.updUnit u f).extents = s.extents := rfl
@[simp] theorem State.updUnit_pages (u : Nat) (f : UnitState → UnitState) : (s.updUnit u f).pages = s.pages := rfl
@[simp] theorem State.updUnit_media (u : Nat) (f : UnitState → UnitState) : (s.updUnit u f).media = s.media := rfl
@[simp] theorem State.updUnit_mcache (u : Nat) (f : UnitState → UnitState) : (s.updUnit u f).mcache = s.mcache := rfl
@[simp] theorem State.updUnit_frameMoves (u : Nat) (f : UnitState → UnitState) : (s.updUnit u f).frameMoves = s.frameMoves := rfl
@[simp] theorem State.updUnit_locks (u : Nat) (f : UnitState → UnitState) : (s.updUnit u f).locks = s.locks := rfl
@[simp] theorem State.updUnit_zero (u : Nat) (f : UnitState → UnitState) : (s.updUnit u f).zero = s.zero := rfl
@[simp] theorem State.updUnit_drains (u : Nat) (f : UnitState → UnitState) : (s.updUnit u f).drains = s.drains := rfl
@[simp] theorem State.updUnit_drainNext (u : Nat) (f : UnitState → UnitState) : (s.updUnit u f).drainNext = s.drainNext := rfl
@[simp] theorem State.updUnit_walks (u : Nat) (f : UnitState → UnitState) : (s.updUnit u f).walks = s.walks := rfl
@[simp] theorem State.updUnit_reqs (u : Nat) (f : UnitState → UnitState) : (s.updUnit u f).reqs = s.reqs := rfl
@[simp] theorem State.updUnit_nextRid (u : Nat) (f : UnitState → UnitState) : (s.updUnit u f).nextRid = s.nextRid := rfl
@[simp] theorem State.updUnit_queueTimes (u : Nat) (f : UnitState → UnitState) : (s.updUnit u f).queueTimes = s.queueTimes := rfl
@[simp] theorem State.updUnit_spidPort (u : Nat) (f : UnitState → UnitState) : (s.updUnit u f).spidPort = s.spidPort := rfl
@[simp] theorem State.updUnit_snoop (u : Nat) (f : UnitState → UnitState) : (s.updUnit u f).snoop = s.snoop := rfl
@[simp] theorem State.updUnit_channels (u : Nat) (f : UnitState → UnitState) : (s.updUnit u f).channels = s.channels := rfl
@[simp] theorem State.updUnit_dram (u : Nat) (f : UnitState → UnitState) : (s.updUnit u f).dram = s.dram := rfl
@[simp] theorem State.updUnit_shg (u : Nat) (f : UnitState → UnitState) : (s.updUnit u f).shg = s.shg := rfl
@[simp] theorem State.updUnit_mover (u : Nat) (f : UnitState → UnitState) : (s.updUnit u f).mover = s.mover := rfl
@[simp] theorem State.updUnit_lostRuns (u : Nat) (f : UnitState → UnitState) : (s.updUnit u f).lostRuns = s.lostRuns := rfl
@[simp] theorem State.updUnit_lostSecs (u : Nat) (f : UnitState → UnitState) : (s.updUnit u f).lostSecs = s.lostSecs := rfl
@[simp] theorem State.updUnit_keys (u : Nat) (f : UnitState → UnitState) : (s.updUnit u f).keys = s.keys := rfl
@[simp] theorem State.updUnit_keyCmd (u : Nat) (f : UnitState → UnitState) : (s.updUnit u f).keyCmd = s.keyCmd := rfl
@[simp] theorem State.updUnit_wrap (u : Nat) (f : UnitState → UnitState) : (s.updUnit u f).wrap = s.wrap := rfl
@[simp] theorem State.updUnit_prot (u : Nat) (f : UnitState → UnitState) : (s.updUnit u f).prot = s.prot := rfl
@[simp] theorem State.updUnit_ctrs (u : Nat) (f : UnitState → UnitState) : (s.updUnit u f).ctrs = s.ctrs := rfl
@[simp] theorem State.updUnit_nodes (u : Nat) (f : UnitState → UnitState) : (s.updUnit u f).nodes = s.nodes := rfl
@[simp] theorem State.updUnit_tags (u : Nat) (f : UnitState → UnitState) : (s.updUnit u f).tags = s.tags := rfl
@[simp] theorem State.updUnit_areas (u : Nat) (f : UnitState → UnitState) : (s.updUnit u f).areas = s.areas := rfl
@[simp] theorem State.updUnit_nonce (u : Nat) (f : UnitState → UnitState) : (s.updUnit u f).nonce = s.nonce := rfl
@[simp] theorem State.updUnit_actCount (u : Nat) (f : UnitState → UnitState) : (s.updUnit u f).actCount = s.actCount := rfl
@[simp] theorem State.updUnit_buckets (u : Nat) (f : UnitState → UnitState) : (s.updUnit u f).buckets = s.buckets := rfl
@[simp] theorem State.updUnit_shapers (u : Nat) (f : UnitState → UnitState) : (s.updUnit u f).shapers = s.shapers := rfl
@[simp] theorem State.updUnit_scheds (u : Nat) (f : UnitState → UnitState) : (s.updUnit u f).scheds = s.scheds := rfl
@[simp] theorem State.updUnit_telemLast (u : Nat) (f : UnitState → UnitState) : (s.updUnit u f).telemLast = s.telemLast := rfl
@[simp] theorem State.updUnit_tide (u : Nat) (f : UnitState → UnitState) : (s.updUnit u f).tide = s.tide := rfl
@[simp] theorem State.updUnit_commits (u : Nat) (f : UnitState → UnitState) : (s.updUnit u f).commits = s.commits := rfl
@[simp] theorem State.updUnit_strait (u : Nat) (f : UnitState → UnitState) : (s.updUnit u f).strait = s.strait := rfl
@[simp] theorem State.updUnit_mirror (u : Nat) (f : UnitState → UnitState) : (s.updUnit u f).mirror = s.mirror := rfl
@[simp] theorem State.updUnit_mirDoms (u : Nat) (f : UnitState → UnitState) : (s.updUnit u f).mirDoms = s.mirDoms := rfl
@[simp] theorem State.updUnit_jobs (u : Nat) (f : UnitState → UnitState) : (s.updUnit u f).jobs = s.jobs := rfl
@[simp] theorem State.updUnit_rings (u : Nat) (f : UnitState → UnitState) : (s.updUnit u f).rings = s.rings := rfl
@[simp] theorem State.updUnit_records (u : Nat) (f : UnitState → UnitState) : (s.updUnit u f).records = s.records := rfl
@[simp] theorem State.updUnit_poison (u : Nat) (f : UnitState → UnitState) : (s.updUnit u f).poison = s.poison := rfl
@[simp] theorem State.updUnit_poisonOvf (u : Nat) (f : UnitState → UnitState) : (s.updUnit u f).poisonOvf = s.poisonOvf := rfl
@[simp] theorem State.updUnit_events (u : Nat) (f : UnitState → UnitState) : (s.updUnit u f).events = s.events := rfl
@[simp] theorem State.updUnit_fmLog (u : Nat) (f : UnitState → UnitState) : (s.updUnit u f).fmLog = s.fmLog := rfl
@[simp] theorem State.updUnit_fmPath (u : Nat) (f : UnitState → UnitState) : (s.updUnit u f).fmPath = s.fmPath := rfl
@[simp] theorem State.updUnit_scans (u : Nat) (f : UnitState → UnitState) : (s.updUnit u f).scans = s.scans := rfl
@[simp] theorem State.updUnit_power (u : Nat) (f : UnitState → UnitState) : (s.updUnit u f).power = s.power := rfl
@[simp] theorem State.updUnit_boot (u : Nat) (f : UnitState → UnitState) : (s.updUnit u f).boot = s.boot := rfl
@[simp] theorem State.updUnit_pmu (u : Nat) (f : UnitState → UnitState) : (s.updUnit u f).pmu = s.pmu := rfl

/-! What the update changes. -/

@[simp] theorem State.setReg_regs (k : Nat) (v : Word) : (s.setReg k v).regs = cellPut (regReset k) s.regs k v := rfl
@[simp] theorem State.emit_out (o : Out) : (s.emit o).out = o :: s.out := rfl

end Sys2Proof.Machine
end

