-- ==== Sys2Proof/Laws/Regs.lean ====
section
/-! SUPPORT. A read of a register or of a field after a write: what the write left, and what it left alone. -/

namespace Sys2Proof.Machine

variable {s : State}

/-- A register reads what was written to it. -/
theorem State.reg_setReg_same (h : s.regsWf = true) (k : Nat) (v : Word) : (s.setReg k v).reg k = v :=
  cellGet_put_same k v h

/-- A write leaves every other register alone. -/
theorem State.reg_setReg_ne (h : s.regsWf = true) {k j : Nat} (v : Word) (hk : j ≠ k) : (s.setReg k v).reg j = s.reg j :=
  cellGet_put_ne v h hk

/-- A write of a register keeps the store canonical. -/
theorem State.setReg_regsWf (h : s.regsWf = true) (k : Nat) (v : Word) : (s.setReg k v).regsWf = true :=
  cellPut_wf k v h

theorem State.setFld_regsWf (h : s.regsWf = true) (f : Fld) (v : Nat) : (s.setFld f v).regsWf = true :=
  State.setReg_regsWf h _ _

/-- The bits of a number replaced. -/
theorem withBits_lt {n lsb width v : Nat} (h : n < 2 ^ 64) (hw : lsb + width ≤ 64) : withBits n lsb width v < 2 ^ 64 := by
  unfold withBits
  have e : (2 : Nat) ^ 64 = 2 ^ (lsb + width) * 2 ^ (64 - (lsb + width)) := by rw [← Nat.pow_add]; congr 1; omega
  have hq : n / 2 ^ (lsb + width) < 2 ^ (64 - (lsb + width)) := Nat.div_lt_of_lt_mul (by omega)
  have a : n % 2 ^ lsb < 2 ^ lsb := Nat.mod_lt _ (Nat.two_pow_pos _)
  have b : v % 2 ^ width + 1 ≤ 2 ^ width := Nat.mod_lt _ (Nat.two_pow_pos _)
  have c : (v % 2 ^ width + 1) * 2 ^ lsb ≤ 2 ^ width * 2 ^ lsb := Nat.mul_le_mul_right _ b
  have d : (n / 2 ^ (lsb + width) + 1) * 2 ^ (lsb + width) ≤ 2 ^ (64 - (lsb + width)) * 2 ^ (lsb + width) :=
    Nat.mul_le_mul_right _ hq
  rw [Nat.add_mul, Nat.one_mul] at c d
  have p : 2 ^ width * 2 ^ lsb = 2 ^ (lsb + width) := by rw [← Nat.pow_add, Nat.add_comm]
  have q : 2 ^ (64 - (lsb + width)) * 2 ^ (lsb + width) = 2 ^ 64 := by rw [← Nat.pow_add]; congr 1; omega
  omega

/-- The replaced bits read what was put there. -/
theorem bitsOf_withBits_same {n lsb width v : Nat} : bitsOf (withBits n lsb width v) lsb width = v % 2 ^ width := by
  unfold bitsOf withBits
  have e : n % 2 ^ lsb + v % 2 ^ width * 2 ^ lsb + n / 2 ^ (lsb + width) * 2 ^ (lsb + width)
      = n % 2 ^ lsb + (v % 2 ^ width + n / 2 ^ (lsb + width) * 2 ^ width) * 2 ^ lsb := by
    rw [Nat.add_mul, Nat.mul_assoc (n / 2 ^ (lsb + width)), ← Nat.pow_add, Nat.add_comm width lsb, Nat.add_assoc]
  rw [e, Nat.add_mul_div_right _ _ (Nat.two_pow_pos _), Nat.div_eq_of_lt (Nat.mod_lt _ (Nat.two_pow_pos _)), Nat.zero_add,
    Nat.add_mul_mod_self_right, Nat.mod_mod]

/-- Bit by bit: a replaced bit is the value's, any other is as it was. -/
theorem testBit_withBits (n lsb width v i : Nat) :
    (withBits n lsb width v).testBit i =
      if lsb ≤ i ∧ i < lsb + width then v.testBit (i - lsb) else n.testBit i := by
  have e : withBits n lsb width v
      = 2 ^ (lsb + width) * (n / 2 ^ (lsb + width)) + (2 ^ lsb * (v % 2 ^ width) + n % 2 ^ lsb) := by
    unfold withBits
    rw [Nat.mul_comm (v % 2 ^ width), Nat.mul_comm (n / 2 ^ (lsb + width))]
    omega
  have lo : 2 ^ lsb * (v % 2 ^ width) + n % 2 ^ lsb < 2 ^ (lsb + width) := by
    have a : n % 2 ^ lsb < 2 ^ lsb := Nat.mod_lt _ (Nat.two_pow_pos _)
    have b : v % 2 ^ width + 1 ≤ 2 ^ width := Nat.mod_lt _ (Nat.two_pow_pos _)
    have c : 2 ^ lsb * (v % 2 ^ width + 1) ≤ 2 ^ lsb * 2 ^ width := Nat.mul_le_mul_left _ b
    rw [Nat.mul_add, Nat.mul_one] at c
    rw [Nat.pow_add]
    omega
  rw [e, Nat.testBit_two_pow_mul_add _ lo]
  by_cases h1 : i < lsb + width
  · rw [if_pos h1, Nat.testBit_two_pow_mul_add _ (Nat.mod_lt _ (Nat.two_pow_pos _))]
    by_cases h2 : i < lsb
    · rw [if_pos h2, if_neg (by omega), Nat.testBit_mod_two_pow]
      simp [h2]
    · rw [if_neg h2, if_pos ⟨by omega, h1⟩, Nat.testBit_mod_two_pow]
      simp [show i - lsb < width by omega]
  · rw [if_neg h1, if_neg (by omega), Nat.testBit_div_two_pow]
    congr 1
    omega

/-- Bits beside the replaced ones read as before. -/
theorem bitsOf_withBits_ne {n lsb width v l w : Nat} (h : l + w ≤ lsb ∨ lsb + width ≤ l) :
    bitsOf (withBits n lsb width v) l w = bitsOf n l w := by
  apply Nat.eq_of_testBit_eq
  intro i
  unfold bitsOf
  rw [Nat.testBit_mod_two_pow, Nat.testBit_mod_two_pow, Nat.testBit_div_two_pow, Nat.testBit_div_two_pow, testBit_withBits]
  by_cases hi : i < w
  · rw [if_neg (by omega)]
  · simp [hi]

/-- A field reads what was written to it, modulo its width. -/
theorem State.fld_setFld_same (h : s.regsWf = true) {f : Fld} (v : Nat) (hf : f.lsb + f.width ≤ 64) :
    (s.setFld f v).fld f = v % 2 ^ f.width := by
  unfold State.fld State.setFld
  rw [State.reg_setReg_same h, BitVec.toNat_ofNat, Nat.mod_eq_of_lt (withBits_lt (s.reg f.key).isLt hf), bitsOf_withBits_same]

/-- A write of a field leaves the fields of other registers alone. -/
theorem State.fld_setFld_ne (h : s.regsWf = true) {f g : Fld} (v : Nat) (hk : g.key ≠ f.key) :
    (s.setFld f v).fld g = s.fld g := by
  unfold State.fld State.setFld
  rw [State.reg_setReg_ne h _ hk]

/-- A write of a field leaves the other fields of its register alone. -/
theorem State.fld_setFld_beside (h : s.regsWf = true) {f g : Fld} (v : Nat) (hf : f.lsb + f.width ≤ 64)
    (hb : g.lsb + g.width ≤ f.lsb ∨ f.lsb + f.width ≤ g.lsb) : (s.setFld f v).fld g = s.fld g := by
  by_cases hk : g.key = f.key
  · unfold State.fld State.setFld
    rw [hk, State.reg_setReg_same h, BitVec.toNat_ofNat, Nat.mod_eq_of_lt (withBits_lt (s.reg f.key).isLt hf),
      bitsOf_withBits_ne hb]
  · exact State.fld_setFld_ne h v hk

/-- A flag reads what was written to it. -/
theorem State.flag_setFlag_same (h : s.regsWf = true) {f : Fld} (b : Bool) (hf : f.lsb + f.width ≤ 64) (hw : f.width = 1) :
    (s.setFlag f b).flag f = b := by
  unfold State.flag State.setFlag
  rw [State.fld_setFld_same h _ hf, hw]
  cases b <;> rfl

/-- A channel reads what was written to it. -/
theorem State.chan_updChan_same {c : Nat} (hc : c < s.channels.length) (f : Channel → Channel) :
    (s.updChan c f).chan c = f (s.chan c) := by
  simp [State.chan, State.updChan, nth, List.getElem?_eq_getElem hc]

theorem State.chan_updChan_ne {c d : Nat} (h : d ≠ c) (f : Channel → Channel) : (s.updChan c f).chan d = s.chan d := by
  simp [State.chan, State.updChan, nth, Ne.symm h]

/-- A port reads what was written to it. -/
theorem State.port_updPort_same {p : Nat} (hp : p < s.ports.length) (f : Port → Port) :
    (s.updPort p f).port p = f (s.port p) := by
  simp [State.port, State.updPort, nth, List.getElem?_eq_getElem hp]

theorem State.port_updPort_ne {p q : Nat} (h : q ≠ p) (f : Port → Port) : (s.updPort p f).port q = s.port q := by
  simp [State.port, State.updPort, nth, Ne.symm h]

end Sys2Proof.Machine
end

