-- ==== Sys2Proof/WellFormed.lean ====
section
/-! DEFINITION. Well-formed commands: operands within the widths that the spec gives them and that their types do not
already bound. -/

namespace Sys2Proof

/-- A number fits in `w` bits. -/
def fitsBits (w n : Nat) : Bool := decide (n < 2 ^ w)

/-- A D2D flit is 256 B: 32 words at most (01_architecture R24). -/
def flitOk (words : List Word) : Bool := decide (words.length ≤ 32)

/-- A Strait frame is 256 B (12_strait R276). -/
def frameOk (bytes : List Byte) : Bool := decide (bytes.length ≤ 256)

/-- The widths of a command's operands: host addresses of 64 bits (03_domains R75), lines of 42 bits within a domain (03_domains
R75), pages of 36 bits and extents of 27 bits (03_domains Tables 3.4, 3.6), Nat-valued register words of 64 bits, offsets in
the privileged view of 28 bits and REG counts of 64 (19_register_map R407, R408). -/
def Instr.wellFormed : Instr → Bool
  | .d2dFlitReceive _ words _ => flitOk words
  | .d2dFlitSend _ _ _ payload => flitOk payload
  | .hdmDecoderCommit _ _ _ base size skip _ _ _ => fitsBits 64 base && fitsBits 64 size && fitsBits 64 skip
  | .memRd _ _ hpa _ _ _ _ => fitsBits 64 hpa
  | .memInv _ _ hpa _ _ => fitsBits 64 hpa
  | .memClnEvct _ _ hpa _ => fitsBits 64 hpa
  | .memSpecRd _ _ hpa _ => fitsBits 64 hpa
  | .memWr _ _ hpa _ _ _ _ _ _ => fitsBits 64 hpa
  | .memWrPtl _ _ hpa _ _ _ _ _ _ _ => fitsBits 64 hpa
  | .biRsp _ _ hpa _ => fitsBits 64 hpa
  | .bisnpSend _ _ line _ => fitsBits 42 line
  | .rqBiTimeout _ _ line _ => fitsBits 42 line
  | .materialiseExtent _ ext _ => fitsBits 27 ext
  | .extentConvert _ ext _ _ => fitsBits 27 ext
  | .extentVisit _ _ ext => fitsBits 27 ext
  | .pageCompress _ _ page _ _ _ _ _ => fitsBits 36 page
  | .pageCompressCommit _ _ page => fitsBits 36 page
  | .chunkDecode _ _ page _ _ _ _ => fitsBits 36 page
  | .chunkRedecode _ _ page _ _ _ _ => fitsBits 36 page
  | .pagePromoteCommit _ _ page => fitsBits 36 page
  | .errorPromotion _ _ page _ _ => fitsBits 36 page
  | .counterRollover _ _ page _ => fitsBits 36 page
  | .subtreeRebuild _ _ _ _ page => fitsBits 36 page
  | .keyLoad slot => fitsBits 12 slot
  | .keyErase slot => fitsBits 12 slot
  | .straitData _ bytes _ => frameOk bytes
  | .straitAckOnly _ bytes _ => frameOk bytes
  | .straitNak _ bytes _ => frameOk bytes
  | .straitTime _ bytes _ => frameOk bytes
  | .straitInit _ bytes _ => frameOk bytes
  | .straitInitAck _ bytes _ => frameOk bytes
  | .straitBadFrame _ bytes _ _ => frameOk bytes
  | .copy _ _ _ idx _ _ => fitsBits 16 idx
  | .fill _ _ _ idx _ => fitsBits 16 idx
  | .deflate _ _ _ idx _ _ _ => fitsBits 16 idx
  | .inflate _ _ _ idx _ _ => fitsBits 16 idx
  | .crc _ _ _ idx _ => fitsBits 16 idx
  | .loadDomain _ _ _ idx _ => fitsBits 16 idx
  | .storeDomain _ _ _ idx _ => fitsBits 16 idx
  | .jobComplete _ _ _ idx _ => fitsBits 16 idx
  | .regRead _ offset count => fitsBits 28 offset && fitsBits 16 count
  | .regWrite _ offset count _ => fitsBits 28 offset && fitsBits 16 count
  | .readClear _ offset _ => fitsBits 28 offset
  | .registerWrite _ offset _ _ => fitsBits 28 offset
  | _ => true

end Sys2Proof
end

