-- ==== Sys2Proof/Tests/Slice0.lean ====
section
/-! SUPPORT. Tests: ill-formed commands, worked examples of the spec, and for each statement of Obligations.lean a state and
operands that meet its hypotheses (a merged statement has one theorem for each of its parts). -/

open Sys2Proof Sys2Proof.Machine

namespace Sys2Proof.Tests

set_option Elab.async false

/-! ### Ill-formed commands: one for each operand that a check bounds -/

theorem test_ill_formed_1 : ([
    .d2dFlitReceive .a (List.replicate 33 0) [],
    .d2dFlitSend .a false 0 (List.replicate 33 0),
    .hdmDecoderCommit 0 0 0 (2 ^ 64) 0 0 0 0 false,
    .hdmDecoderCommit 0 0 0 0 (2 ^ 64) 0 0 0 false,
    .hdmDecoderCommit 0 0 0 0 0 (2 ^ 64) 0 0 false,
    .memRd 0 0 (2 ^ 64) 0 0 0 0,
    .memInv 0 0 (2 ^ 64) 0 0,
    .memClnEvct 0 0 (2 ^ 64) 0,
    .memSpecRd 0 0 (2 ^ 64) 0,
    .memWr 0 0 (2 ^ 64) 0 0 0 false 0 0,
    .memWrPtl 0 0 (2 ^ 64) 0 0 0 0 false 0 0,
    .biRsp 0 0 (2 ^ 64) 0] : List Instr).all (fun c => !c.wellFormed) = true := by
  decide +kernel

theorem test_ill_formed_2 : ([
    .bisnpSend .a 0 (2 ^ 42) ⟨0, 0⟩,
    .rqBiTimeout .a 0 (2 ^ 42) 0,
    .materialiseExtent 0 (2 ^ 27) 0,
    .extentConvert 0 (2 ^ 27) [] [],
    .extentVisit .a 0 (2 ^ 27),
    .pageCompress .a 0 (2 ^ 36) [] 0 [] false 0,
    .pageCompressCommit .a 0 (2 ^ 36),
    .chunkDecode .a 0 (2 ^ 36) none 0 0 0,
    .chunkRedecode .a 0 (2 ^ 36) none 0 0 0,
    .pagePromoteCommit .a 0 (2 ^ 36),
    .errorPromotion .a 0 (2 ^ 36) [] 0,
    .counterRollover .a 0 (2 ^ 36) []] : List Instr).all (fun c => !c.wellFormed) = true := by
  decide +kernel

theorem test_ill_formed_3 : ([
    .subtreeRebuild .a 0 0 0 (2 ^ 36),
    .keyLoad (2 ^ 12),
    .keyErase (2 ^ 12),
    .straitData .a (List.replicate 257 0) 0,
    .straitAckOnly .a (List.replicate 257 0) 0,
    .straitNak .a (List.replicate 257 0) 0,
    .straitTime .a (List.replicate 257 0) 0,
    .straitInit .a (List.replicate 257 0) 0,
    .straitInitAck .a (List.replicate 257 0) 0,
    .straitBadFrame .a (List.replicate 257 0) false 0,
    .copy 0 0 0 (2 ^ 16) none false,
    .fill 0 0 0 (2 ^ 16) false] : List Instr).all (fun c => !c.wellFormed) = true := by
  decide +kernel

theorem test_ill_formed_4 : ([
    .deflate 0 0 0 (2 ^ 16) none [] false,
    .inflate 0 0 0 (2 ^ 16) none false,
    .crc 0 0 0 (2 ^ 16) none,
    .loadDomain 0 0 0 (2 ^ 16) none,
    .storeDomain 0 0 0 (2 ^ 16) false,
    .jobComplete 0 0 0 (2 ^ 16) false,
    .regRead (.bar2Fm 0) (2 ^ 28) 0,
    .regRead (.bar2Fm 0) 0 (2 ^ 16),
    .regWrite (.bar2Fm 0) (2 ^ 28) 0 [],
    .regWrite (.bar2Fm 0) 0 (2 ^ 16) [],
    .readClear (.priv (.bar2Fm 0)) (2 ^ 28) .qword,
    .registerWrite (.priv (.bar2Fm 0)) (2 ^ 28) 0 .qword] : List Instr).all (fun c => !c.wellFormed) = true := by
  decide +kernel

/-! ### Tests on values that the spec states -/

/-- The front command is taken, whatever waits behind it. -/
theorem test_step_takes_front : step { State.reset with pending := [.ptpDelayReqSend, .ppsInEdge] } =
    exec .ptpDelayReqSend { State.reset with pending := [.ppsInEdge] } := rfl

/-- No row of the table has bits, so no word spells a command. -/
theorem test_no_words : decodeTableWord 32 5 = none := rfl

/-- 00_scope, worked example: the DOM entry of domain 0x12A; 02_host_ports, worked example: HP_LD_CFG of LD 2 of port 3. -/
theorem test_offsets : domCtrl 0x12A = 0x612A00 ∧ hpLdCfg 3 2 = 0x530110 := by decide

/-- 01_architecture, worked example: both halves claim, and the lower die identity leads (Table 1.11: CONFLICT_BOTH). -/
theorem test_leader :
    leaderOf ⟨0x3A170C42, false, false, true, 1⟩ ⟨0x3A170C43, true, true, true, 1⟩ = 0x3A170C42 ∧
      resultOf ⟨0x3A170C42, false, false, true, 1⟩ ⟨0x3A170C43, true, true, true, 1⟩ = 2 := by decide

/-- 02_host_ports, worked example: bits 0, 1 and 5 accepted without bit 4 leave bits 0 and 1. -/
theorem test_features : effectiveSet 0x23 0x7F = 3 := by decide

/-- 05_dram, worked example: MA 0x3_C4D5_E640 of Half B lies on device channel 12, row 0x789A. -/
theorem test_address : chanOf .b (0x3C4D5E640 / 256) = 12 ∧ (rowOf (0x3C4D5E640 / 64)).range = 0x789A := by decide +kernel

/-- 06_shingle, Table 6.11: the packed stream decodes to the four bytes repeated 256 times. -/
theorem test_chunk :
    (decodeChunk (slotImage ⟨1, 0x10, 1, [0x2B, 0x2B, 0x2B, 0x2B], [0, 0, 0, 0], 0⟩
        [[0xFE, 0xAE, 0x01, 0x5E, 0x4C, 0x66, 0x32, 0x93, 0x19, 0x93, 0x01]]) 1 0 (fun _ => true)
          (fun _ => romLens)).toOption =
      some (List.replicate 256 [0x4B, 0x41, 0x4C, 0x46]).flatten := by decide +kernel

/-! ### States that the witnesses start from -/

/-- The state right after reset with fields set. -/
def wit (fs : List (Fld × Nat)) : State := fs.foldl (fun s f => s.setFld f.1 f.2) State.reset

/-- A device that runs, with fields set. -/
def act (fs : List (Fld × Nat)) : State :=
  { wit ((bootStatusPhase, 7) :: fs) with boot := { running := true, filled := true, infoValid := true, memActive := true, strait := true } }

/-- Port `p` with its link up in L0 and one LD. -/
def up (p : Nat) (s : State) : State :=
  ((s.updPort p fun q => { q with active := true, link := .l0, perst := false }).setFlag (hpPortStatusLinkUp p) true).setFld
    (hpPortCfgLdCount p) 1

/-- A job of LD 0 of port 0, ring 1, index 2: operation, length, source, destination. -/
def job (op len src dst : Nat) : Job :=
  { fn := 0, ring := 1, idx := 2, desc := op + len * 2 ^ 32 + src * 2 ^ 64 + dst * 2 ^ 128, phase := true, rtag := none, status := none
    check := 0, bytesOut := 0, consumed := 0, written := false, next := 0, lines := [] }

/-- Domain 0 active on half A, 8 MiB from DPA 0, that LD 0 of port 0 owns and reaches through decoder 0; fields set. -/
def dev (fs : List (Fld × Nat)) : State :=
  { up 0 (act ([((domCtrlValid 0).eff, 1), ((domWindowSize 0).eff, 4), ((domOwnerLdLdMask 0 0).eff, 1), ((mapLdrW0Valid 0 0).eff, 1),
      ((mapLdrW1Length 0 0).eff, 4)] ++ fs)) with
    hdm := [(hdmKey 0 0 0, { committed := true, size := 2 ^ 23 })] }

/-- A request of LD 0 of port 0 for line 70 of domain 0. -/
def rq (kind : ReqKind) (stage : Stage) : Req :=
  { rid := 7, org := .host 0 0, tag := 5, kind, want := .any, data := 3, enables := allBytes, poison := false, dom := 0, line := 70
    home := .a, cls := 0, color := 0, stage, gen := 0 }

/-- A wrapped key blob (R221, Table 8.5) for slot 5, type 2, version 3, under the device key 1. -/
def blob : List Byte :=
  let head := leBytes 2 1 ++ leBytes 2 5 ++ leBytes 1 2 ++ leBytes 3 0 ++ leBytes 8 3 ++ beBytes 48 p384G.1 ++ beBytes 48 p384G.2 ++
    leBytes 12 0x1234
  let hd := ofByteList head
  let kek := (ofByteList (sha384 (toByteList (beB 48 p384G.1 ++ [0x4B, 0x46, 0x2D, 0x4B, 0x45, 0x4B] ++ hd.take 16)))).take 32
  let cipher := gcmText kek ((hd.drop 112).take 12) (List.range 64)
  head ++ toByteList cipher ++ toByteList (gcmTag kek ((hd.drop 112).take 12) (hd.take 112) cipher) ++ List.replicate 52 0

/-- A write waits in channel 0 for a page of P2 domain 0 whose first line's minor counter is at its end. -/
def roll : State :=
  { (dev [((domPolicyProt 0).eff, 2), (dmcStatusTrained 0, 1)]).updChan 0 fun c =>
      { c with wb := [{ ma := 0, dom := 0, line := 0, data := 77, enables := allBytes, poison := false, cls := 0, color := 0, external := false, after := [], since := 0 }] } with
    extents := [(0, { kind := .frame })], ctrs := [(0, { minors := 127 })], mcache :=
      ⟨[{ key := .ctr 0 0, used := false, dirty := false }], []⟩ }

/-- Channels 0 and 1 are trained, with 64 GiB each. -/
def med (fs : List (Fld × Nat)) : State :=
  dev ([(dmcStatusTrained 0, 1), (dmcStatusCapGib 0, 64), (dmcStatusTrained 1, 1), (dmcStatusCapGib 1, 64)] ++ fs)

/-- Page 1 of domain 0, in PAGED extent 0 and in a state, at unit 16 with its block. -/
def paged (st : PgState) (fs : List (Fld × Nat)) : State :=
  { med fs with
    extents := [(0, { kind := .paged, addr := 4096, copy2 := some (chanUnits + 16) })]
    pages := [(1, { state := st, cls := if st = .shingle then 1 else 0, addr := 16 })]
    media := [⟨.a, 16, 16, .frame 0 1⟩, ⟨.a, 4096, 16, .pageTable 0 0 0⟩, ⟨.a, chanUnits + 16, 16, .pageTable 0 0 1⟩] }

/-- What an allocation leaves, and where it is. -/
def gotState (s : State) (q : Option (Nat × State)) : State := match q with | some x => x.2 | none => s
def gotUnit (q : Option (Nat × State)) : Nat := match q with | some x => x.1 | none => 0

/-- The lines of a slot whose four chunks are zeros (R157, R160). -/
def zeroSlot : List Line :=
  let img := slotImage ⟨1, 0, 1, [32, 32, 32, 32], [0, 0, 0, 0], 0⟩ []
  (List.range 4).map fun i => bytesLine ((img.drop (64 * i)).take 64)

/-- A read of line 70 that waits for its chunk. -/
def chunkRq : Req := { rq .rd .chunkWait with ma := 64, slotLines := zeroSlot }

/-- A compression of page 1 of domain 0 whose slot lines are in the write buffer. -/
def cjob : CompJob :=
  { dom := 0, page := 1, frame := 16, slot := 512, k := 1, image := [], setNo := none, dirtied := false, cluster := 0, seq := 1, placed := true }

/-- A NEAR page on offer; a write that waits for a promotion; an error promotion. -/
def comp0 : State := { paged .near [((domPolicyShgTableMode 0).eff, 1)] with mover := ⟨{ offers := [(0, 1)] }, {}⟩ }
def prom0 : State := { paged .shingle [] with reqs := [rq .wr .promoteWait] }
def prom1 : State := { paged .shingle [] with mover := ⟨{ errPromotes := [(0, 1)] }, {}⟩ }

/-- A table to stage; a page table and an extent table with one copy; an extent to materialise; one to split and one to join. -/
def stg : State := { med [] with maps := [(0, { staging := some 4 })] }
def reb : State := { med [] with extents := [(0, { kind := .paged, addr := 4096 })], media := [⟨.a, 4096, 16, .pageTable 0 0 0⟩] }
def ret : State := { med [] with maps := [(0, { table1 := some 16, extents := 4 })], media := [⟨.a, 16, 16, .extTable 0 0⟩] }
def mat : State := med [((domPolicyTclass 0).eff, 0), ((domSizesCommitted 0).eff, 4)]
def spl : State :=
  { med [((domPolicyTclass 0).eff, 1), ((domPolicyTier 0).eff, 2)] with
    extents := [(0, { kind := .frame, addr := 8192 })], media := [⟨.a, 8192, 8192, .bigFrame 0 0⟩] }
def joi : State :=
  { med [((domPolicyTclass 0).eff, 1)] with
    extents := [(0, { kind := .paged, addr := 4096, copy2 := some (chanUnits + 16) })]
    pages := (List.range 512).map fun i => (i, { state := .near, addr := 16384 + 16 * i })
    media := (List.range 512).map fun i => ⟨.a, 16384 + 16 * i, 16, .frame 0 i⟩ }

/-- Range 0 of channel 0 is to be retired, with one frame in it. -/
def mov : State := (paged .near []).updChan 0 fun c => { c with retiring := [0] }

/-- A walk after the fence of channel 0, whose next extent is a FRAME there. -/
def wlk : State :=
  { med [] with
    extents := [(0, { kind := .frame })], walks := [⟨5, []⟩, ⟨0, [(0, 0), (0, 3)]⟩], media := [⟨.a, 0, 8192,
      .bigFrame 0 0⟩, ⟨.a, 8208, 16, .extTable 0 0⟩]
    maps := [(0, { table1 := some 8208, extents := 4 })] }

/-- Extent 0 of domain 0, PAGED or FRAME, whose map lines are in the metadata cache, for the page mover. -/
def visP : State :=
  { paged .near [((domPolicyTclass 0).eff, 1), (tierStatusLevel 0, 1)] with
    mcache := ⟨{ key := .desc 0 0, used := false, dirty := false } ::
      (List.range 64).map fun i => { key := .pte 0 i, used := false, dirty := true }, []⟩ }
def visF : State :=
  { med [((domPolicyTclass 0).eff, 1), ((domPolicyTier 0).eff, 0)] with
    extents := [(0, { kind := .frame, access := 9 })], mcache := ⟨[{ key := .desc 0 0, used := false, dirty := false }], []⟩ }

/-- An open record. -/
def frec (seq : Nat) : FaultRec :=
  { seq, cls := clsUcr, maxCls := clsUcr, isOpen := true, acked := false, logged := false, aggregate := false, unit := uDevice
    name := cFltItemFailed, secCount := 0, lastName := 0, lastUnit := 0, time := 0, timeLast := 0, dom := none,
      addr := none, ma := none
    req := none, detail := 0, openedAt := 0 }

/-- A function of LD 0 of port 0 that may use the offload engine, fields set. -/
def ofl (fs : List (Fld × Nat)) : State := (up 0 (act fs)).updFunc 0 fun f => { f with bme := true, features := 7 }

/-- A domain whose host may use it through LD 0 of port 0, and the offload engine on it. -/
def odom (fs : List (Fld × Nat)) : State := (dev fs).updFunc 0 fun f => { f with bme := true, features := 7 }

/-- The halves' link is trained; end A and the handshake of half A as given. -/
def lnk (e : D2dEnd) (x : HsHalf) : State :=
  { act [] with halves := ⟨{ coreRunning := true, d2d := { e with trained := true }, hs := x },
      { coreRunning := true, d2d := { trained := true } }⟩ }

/-- A data flit with SEQ 3 in sequence and 5 credits for virtual channel 2. -/
def flit3 : List Word := flitOf 1 0 3 0 false 2 5 [0xABCD]

/-- A claim of the other die; half A's own claim. -/
def claimB : ClaimMsg := { dieId := 0x77, diePos := true, leaderSel := false, claim := false, round := 1 }

/-- A mirrored state: domain 0 SYNC with peer domain 9, in a state of Table 13.4, the link of half A up, a message waiting. -/
def mirFlds (st role : Nat) : List (Fld × Nat) :=
  [((domMirrorMode 0).eff, 1), ((mirDomW0PeerDomain 0).eff, 9), ((mirDomW0Role 0).eff, role), (mirDomStateW0State 0, st),
    (mirDomStateW0Matched 0, 1), (twStatusState 0, 4)]
def recv (m : MirMsg) (s : State) : State :=
  { s with strait := s.strait.upd .a fun k => { k with rx := [⟨1, 0, [.cut 5], false⟩, ⟨2, 0, [m, .cut 6], false⟩] } }
def mirror (f : Mirror → Mirror) (s : State) : State := { s with mirror := s.mirror.upd .a f }

/-- A Strait link of half A in a state, with one key in its four slots, fields set and its own parts given. -/
def stra (st : Nat) (f : StraitLink → StraitLink) (fs : List (Fld × Nat)) : State :=
  let s := act ([(twStatusState 0, st), (twCfgEnable 0, 1), (twStatusRxLocked 0, 255), (bootIdCfgDeviceId, 9),
    (bootIdCfgPairId, 1)] ++ fs)
  { s with
    keys := (List.range 4).map fun i => (1024 + i, ({ key := 0x1234, loaded := true } : KeySlot))
    strait := s.strait.upd .a fun k => f { k with
      cfg := s.reg (twCfg 0), vcBuf := s.reg (twVcBuf 0), vcMap := s.reg (twVcMap 0), cfgOk := true
      peerBuf := [16, 16, 16, 16, 16, 16, 16, 16] } }
def straKey : Bytes := ((stra 4 id []).straitKey 0 0 0).getD []

/-- Headers and frames of the partner. -/
def hd (typ seq ack : Nat) (ackValid : Bool) (inv : Nat) : FrameHead := ⟨typ, 0, seq, ack, ackValid, 0, 0, 0, inv⟩
def frm (h : FrameHead) (inv : Nat) (plain : Bytes) : List Byte := toByteList (buildFrame straKey h inv plain)

/-- The header of the last frame sent. -/
def sentHead (t : State) : FrameHead :=
  match t.out.head? with | some (.strait _ b) => headOf (ofLeB ((ofByteList b).take 8)) | _ => hd 0 0 0 false 0

/-- An INIT payload of device 12 of pair 1. -/
def initPlain (dev : Nat) : Bytes := padTo 212 0 (leB 2 dev ++ [1, (stra 3 id []).strait.a.vcCount] ++ leB 8 (stra 3 id
  []).strait.a.vcBuf.toNat)

theorem some_getD {α : Type} (o : Option α) (d : α) (h : o.isSome = true) : o = some (o.getD d) := by
  cases o with
  | none => cases h
  | some a => rfl

/-- A registered DIMM of 64 GiB within Table 5.1, and one that is not. -/
def dimm : Module := { kind := 0, subBits := 40, devBits := 4, gbit := 16, stack := 1, ranks := 1, gib := 64, mts := 8800, part := 7, serial := 1 }
def dimmX : Module := { dimm with devBits := 8 }

/-- A write in channel 0's buffer, of class 0 or of class 1. -/
def wbe (k : Nat) : WbEntry :=
  { ma := k, dom := 0, line := 70 + k, data := 77, enables := allBytes, poison := true, cls := k, color := 0, external := true, after := [], since := 0 }

/-- P2 domain 0 with a protection area for extent 0 on channel 0,
  whose page 0 has been written; its directory line is on die. -/
def tree0 : State :=
  ({ med [((domPolicyProt 0).eff, 2)] with
    areas := [(0, 8193)], media := [⟨.a, 8192, 8192, .p2 0 0⟩]
    mcache := ⟨[{ key := .dir 0 0, used := false, dirty := false }], []⟩ } : State).putCtr 0 0 { major := 1, minors := 0 }

/-- The node of level 2 over page 0, as stored. -/
def node2 : Line := BitVec.ofNat 512 (ofLeB (tree0.nodeBytes 0 2 0))

/-- The reads of page 1 of `comp0` for the compressor. -/
def read0 : List (Line × Bool) × List Burst × State :=
  ((comp0.takeOffer .a (0 : Fin 1024).val 1).took (chanOf .a (comp0.pageNow (0 : Fin 1024).val 1).addr) 1).readPageLines .a
    (0 : Fin 1024).val 1 (comp0.pageNow (0 : Fin 1024).val 1).addr []

theorem eta3 {α β γ : Type} (x : α × β × γ) : x = (x.1, x.2.1, x.2.2) := rfl
theorem read0_eta : read0 = (read0.1, read0.2.1, read0.2.2) := eta3 read0
theorem read0_clean : read0.1.any (·.2) = false := by decide +kernel
theorem read0_mode : read0.2.2.eff (domPolicyShgTableMode (0 : Fin 1024).val) ≠ 0 := by decide +kernel
theorem read0_recheck : read0.2.2.effFlag (domPolicyVerifyRecheck (0 : Fin 1024).val) = false := by decide +kernel
theorem read0_hist : read0.2.2.flag shgHistCtrlEnable = false := by decide +kernel
theorem read0_class : slotClass (chunkStreams (pageBytes read0.1) [[], [], [],
  []]).flatten.length = some 1 := by decide +kernel
theorem read0_slot : (read0.2.2.takeSlot .a 1 0 none).isSome = true := by decide +kernel

/-- TIME_WAIT as it follows from APPLY. -/
def phase6 (s : State) : State :=
  (s.enterPhase 6).tbCfgWrite (withBits ((s.enterPhase 6).reg tbCfg).toNat tbCfgStepEn.lsb 1 (b2n s.boot.stepEn))

/-- Port 3 is up, and its LD 0 has BAR2. -/
def ownr (s : State) : State := (up 3 s).updFunc (fnOf 3 0) fun f => { f with bar2 := true }


/-- Channel 15 of the worked example of 10_latency: its modules and its tide table, and domain 0x0A4 on it. -/
def g15 : State :=
  let tab := [(760, 0xFF), (100, 1), (300, 0x101), (940, 0xFF), (100, 1), (300, 0x101)]
  let s := act [((domCtrlValid 0xA4).eff, 1), ((domCtrlHomeHalf 0xA4).eff, 1), ((domPolicyTclass 0xA4).eff, 0),
    ((domPolicyProt 0xA4).eff, 1), ((qosPolAEn 0xA4).eff, 1), ((qosPolACir 0xA4).eff, 150), ((qosPolACbs 0xA4).eff, 1),
    (dmcStatusTrained 15, 1), (dmcStatusCapGib 15, 1024), (dmcStatusRate 15, 2), (dmcStatusRankBits 15, 3),
      (dmcStatusPop 15, 2),
    (dmcStatusDensity 15, 1), (rqCfgQc0WbReserve, 64), (ttStatusActLen 15, 6)]
  let s := tab.zipIdx.foldl (fun s e => (s.setFld (ttActDuration 15 e.2) e.1.1).setFld (ttActGate 15 e.2) e.1.2) s
  { s with media := [⟨.b, 3 * chanUnits, 16, .frame 0xA4 0⟩] }

/-- 10_latency, worked example: the bound of 457.25 ns, N 0, the profile, the contract and the guarantee, CIR_LIMIT 173. -/
theorem test_bound :
    [qosG0ChBound10ps 15, qosG0ChN 15, qosG0ChProfileOk 15, qosG0ChContractOk 15, qosG0ChGuaranteed 15,
      qosG0ChCirLimit 15].map
      (g15.g0Channel 15).fld = [45725, 0, 1, 1, 1, 173] := by decide +kernel

/-! ### Witnesses -/

/-- StepRunsFrontCommand, IdleStepIsOneTclk: a queue with a command, and an empty one. -/
theorem witness_StepRunsFrontCommand : ∃ (s : State) (c : Instr) (rest : List Instr), s.pending = c :: rest :=
  ⟨{ State.reset with pending := [.ppsInEdge] }, .ppsInEdge, [], rfl⟩
theorem witness_IdleStepIsOneTclk : ∃ s : State, s.pending = [] := ⟨State.reset, rfl⟩

/-- EveryCommandAnswers: a command that answers a next state. -/
theorem witness_EveryCommandAnswers : ∃ (s t : State) (c : Instr), exec c s = .next t :=
  ⟨State.reset, _, .ptpDelayReqSend, rfl⟩

/-- StepKeepsStateSound: a sound state, and its step. -/
theorem witness_StepKeepsStateSound : ∃ s t : State, s.sound = true ∧ step s = .next t :=
  ⟨{ State.reset with pending := [.ptpDelayReqSend] }, _, by decide +kernel, rfl⟩

/-- RunsKeepFormsAndFuses: a run of one step from a sound state. -/
theorem witness_RunsKeepFormsAndFuses : ∃ (k : Nat) (s t : State), runs k s t ∧ s.sound = true ∧ k = 1 :=
  ⟨1, { State.reset with pending := [.ptpDelayReqSend] }, _, ⟨_, rfl, rfl⟩, by decide +kernel, rfl⟩

/-- Hypotheses of Obligations.LevelsAndTemperatures, part PowerDomainLevels met. -/
theorem witness_PowerDomainLevels :
    (∃ (s : State) (n : Fin 33),
      s.domainDown n = false ∧ n.val ≠ 32 ∧ (nth {} s.power.doms n).changing = none ∧ s.level n < s.voted n) ∧
    (∃ (s : State) (n : Fin 33) (l : Nat),
      s.sound = true ∧ s.domainDown n = false ∧ n.val ≠ 32 ∧ l < 4 ∧ (nth {} s.power.doms n).changing = some l) :=
  ⟨⟨act [], 3, by decide +kernel⟩,
    ⟨{ act [] with power := { doms := ({} : Power).doms.set 3 { changing := some 1 } } }, 3, 1, by decide +kernel⟩⟩

/-- Hypotheses of Obligations.DeviceStates, part DeviceStateRequests met. -/
theorem witness_DeviceStateRequests :
    (∃ (s : State),
      s.sound = true ∧ s.power.off = false ∧ s.phase ≠ 9 ∧ s.fld pwrStatusDeviceState = 0 ∧
      s.powerReason (!s.commits.isEmpty) false = 0) ∧
    (∃ (s : State),
      s.power.off = false ∧ s.phase ≠ 9 ∧ s.fld pwrStatusDeviceState = 0 ∧ s.powerReason (!s.commits.isEmpty) false ≠ 0) ∧
    (∃ (s : State),
      s.sound = true ∧ s.power.off = false ∧ s.fld pwrStatusDeviceState = 2 ∧ s.flag pwrCfgWakeMctpEn = true ∧ s.phase ≠ 9) ∧
    (∃ (s : State),
      s.sound = true ∧ s.power.off = false ∧ s.fld pwrStatusDeviceState = 2) ∧
    (∃ (s : State),
      s.sound = true ∧ s.power.off = false ∧ s.fld pwrStatusDeviceState = 2 ∧ s.fld pwrWakeAtAtNs ≠ 0 ∧
      s.fld pwrWakeAtAtNs ≤ s.tns) ∧
    (∃ (s : State),
      s.phase = 9) ∧
    (∃ (s : State),
      s.power.off = true) :=
  ⟨⟨act [], by decide +kernel⟩,
    ⟨{ act [] with commits := [⟨5, 1, 0, 7⟩] }, by decide +kernel⟩,
    ⟨act [(pwrStatusDeviceState, 2), (pwrCfgWakeMctpEn, 1)], by decide +kernel⟩,
    ⟨act [(pwrStatusDeviceState, 2)], by decide +kernel⟩,
    ⟨{ act [(pwrStatusDeviceState, 2), (pwrWakeAtAtNs, 5)] with tide := { master := 6 * 2 ^ 40 } }, by decide +kernel⟩,
    ⟨act [(bootStatusPhase, 9)], by decide +kernel⟩,
    ⟨{ act [] with power := { off := true } }, by decide +kernel⟩⟩

/-- Hypotheses of Obligations.DeviceStates, part DeviceStateEntriesAndExits met. -/
theorem witness_DeviceStateEntriesAndExits :
    (∃ (s : State),
      s.sound = true ∧ s.fld pwrStatusDeviceState = 1 ∧ s.power.entering = some false ∧
      s.flushAll.loseBank15.loseCounters.fld pwrStatusSlot = 0) ∧
    (∃ (s : State),
      s.sound = true ∧ s.fld pwrStatusDeviceState = 1 ∧ s.power.entering = some true ∧ s.fld pwrStatusSlot = 0) ∧
    (∃ (s : State),
      s.sound = true ∧ s.fld pwrStatusDeviceState = 3 ∧ s.fld pwrStatusSlot = 0 ∧
      (s.halves.a.coreRunning && s.halves.a.d2d.trained && s.halves.b.coreRunning && s.halves.b.d2d.trained) = true) :=
  ⟨⟨{ act [(pwrStatusDeviceState, 1)] with power := { entering := some false } }, by decide +kernel⟩,
    ⟨{ act [(pwrStatusDeviceState, 1)] with power := { entering := some true } }, by decide +kernel⟩,
    ⟨{ act [(pwrStatusDeviceState, 3), (qosPolAEn 5, 1), ((qosPolAEn 5).eff, 1), ((qosPolACbs 5).eff, 77)] with power := { saved := true }, halves := ⟨{ coreRunning := true, d2d := { trained := true } }, { coreRunning := true, d2d := { trained := true } }⟩ },
      by decide +kernel⟩⟩

/-- Hypotheses of Obligations.VoltageSteps met. -/
theorem witness_VoltageSteps :
    (∃ (s : State) (h : Half) (p : Nat),
      (s.power.dvfs.get h).step = some p) ∧
    (∃ (s : State) (h : Half) (p : Nat),
      (s.power.dvfs.get h).step = some p ∧ (s.power.dvfs.get h).noAck = false) ∧
    (∃ (s : State) (h : Half) (p : Nat),
      s.sound = true ∧ (s.power.dvfs.get h).step = some p ∧ (s.power.dvfs.get h).noAck = true) ∧
    (∃ (s : State) (h : Half),
      (s.power.dvfs.get h).coolFrom.isSome = true ∧ s.fld (thermCap h) ≠ 0) :=
  ⟨⟨{ act [] with power := { dvfs := ⟨{ step := some 1 }, {}⟩ } }, .a, 1, by decide +kernel⟩,
    ⟨{ act [] with power := { dvfs := ⟨{ step := some 1 }, {}⟩ } }, .a, 1, by decide +kernel⟩,
    ⟨{ act [] with power := { dvfs := ⟨{ step := some 1, noAck := true }, {}⟩ } }, .a, 1, by decide +kernel⟩,
    ⟨{ act [(thermCap .b, 1)] with power := { dvfs := ⟨{}, { coolFrom := some 4 }⟩ } }, .b, by decide +kernel⟩⟩

/-- Hypotheses of Obligations.LevelsAndTemperatures, part Temperatures met. -/
theorem witness_Temperatures :
    (∃ (s : State) (a b sh : BitVec 8),
      s.sound = true ∧ a.toNat < 125 ∧ b.toNat < 125 ∧ sh.toNat < 125 ∧ a.toNat < s.fld pwrThermCfgThrottleC ∧
      b.toNat < s.fld pwrThermCfgThrottleC) ∧
    (∃ (s : State) (a b sh : BitVec 8),
      s.sound = true ∧ (125 ≤ a.toNat ∨ 125 ≤ b.toNat ∨ 125 ≤ sh.toNat)) :=
  ⟨⟨act [], 94, 20, 124, by decide +kernel⟩,
    ⟨act [], 124, 125, 0, by decide +kernel⟩⟩

/-- Hypotheses of Obligations.SupplyAndRails, part SupplySupervision met. -/
theorem witness_SupplySupervision :
    (∃ (s : State),
      (s.flag pwrStatusSupplyWarn = true ∨ s.power.heldReset = true)) ∧
    (∃ (s : State),
      s.flag pwrStatusSupplyWarn = true ∧ s.power.recovFrom.isSome = true) ∧
    (∃ (s : State),
      s.sound = true) ∧
    (∃ (s : State),
      s.power.heldReset = true ∧ s.power.recovFrom.isSome = true) :=
  ⟨⟨act [(pwrStatusSupplyWarn, 1)], by decide +kernel⟩,
    ⟨{ act [(pwrStatusSupplyWarn, 1)] with power := { recovFrom := some 0 } }, by decide +kernel⟩,
    ⟨act [], by decide +kernel⟩,
    ⟨{ act [] with power := { heldReset := true, recovFrom := some 0 } }, by decide +kernel⟩⟩

/-- Hypotheses of Obligations.SupplyAndRails, part RailSequence met. -/
theorem witness_RailSequence :
    (∃ (s : State) (r : Fin 8),
      s.sound = true ∧ (s.railsOf s.power.railStep).contains r.val = true ∧ s.power.railGood.contains r.val = false ∧
      (s.railsOf s.power.railStep).all (fun x => (r.val :: s.power.railGood).contains x) = true ∧ s.power.railStep < 4) ∧
    (∃ (s : State),
      s.sound = true ∧ 1 ≤ s.power.railStep ∧ s.power.railStep ≤ 4) ∧
    (∃ (s : State),
      s.sound = true ∧ s.power.railStep = 0 ∧ s.power.railFails ≠ 0 ∧ s.power.railsLatched = false ∧
        s.fld hswStatusState = 3) ∧
    (∃ (s : State) (point : Fin 16),
      s.supervised point = true ∧ (point.val = 5 ∨ point.val = 6 ∨ point.val = 9 ∨ point.val = 11)) ∧
    (∃ (s : State) (point : Fin 16),
      s.supervised point = true ∧ (point.val = 7 ∨ point.val = 8 ∨ point.val = 10 ∨ point.val = 12)) :=
  ⟨⟨{ wit [] with power := { railStep := 3, railGood := [3, 4] } }, 5, by decide +kernel⟩,
    ⟨{ wit [] with power := { railStep := 4, railFails := 2 } }, by decide +kernel⟩,
    ⟨{ wit [(hswStatusState, 3)] with power := { railFails := 1 } }, by decide +kernel⟩,
    ⟨{ act [] with power := { railStep := 5 } }, 11, by decide +kernel⟩,
    ⟨{ act [] with power := { railStep := 5 } }, 12, by decide +kernel⟩⟩

/-- Hypotheses of Obligations.HotSwap, part HotSwapController met. -/
theorem witness_HotSwapController :
    (∃ (s : State),
      s.sound = true ∧ s.fld hswStatusState = 0 ∧ s.power.auxGood = true ∧ s.pins.hswEn = true ∧
        s.flag hswCtrlEnable = true) ∧
    (∃ (s : State),
      s.sound = true ∧ s.fld hswStatusState = 1 ∧ s.flag hswStatusSeatA = true ∧ s.flag hswStatusSeatB = true) ∧
    (∃ (s : State),
      s.fld hswStatusState = 2) ∧
    (∃ (s : State),
      s.sound = true ∧ s.fld hswStatusState = 2) ∧
    (∃ (s : State),
      s.sound = true ∧ s.fld hswStatusState = 3) :=
  ⟨⟨{ wit [(hswCtrlEnable, 1), (hswStatusSeatA, 1)] with pins := { hswEn := true } }, by decide +kernel⟩,
    ⟨wit [(hswStatusState, 1), (hswStatusSeatA, 1), (hswStatusSeatB, 1), (hswStatusFeedBGood, 1)], by decide +kernel⟩,
    ⟨wit [(hswStatusState, 2)], by decide +kernel⟩,
    ⟨wit [(hswStatusState, 2)], by decide +kernel⟩,
    ⟨act [(hswStatusState, 3)], by decide +kernel⟩⟩

/-- Hypotheses of Obligations.HotSwap, part HotSwapControls met. -/
theorem witness_HotSwapControls :
    (∃ (s : State),
      s.sound = true ∧ s.fld hswStatusState = 0) ∧
    (∃ (s : State),
      s.sound = true ∧ s.fld hswStatusState = 3) ∧
    (∃ (s : State) (v : Word),
      s.sound = true ∧ s.takesWrite .plain true none = true ∧ v.toNat % 2 = 0 ∧ s.fld hswStatusState = 0) ∧
    (∃ (s : State) (slot : Fin 48),
      s.bit hswSlotPwrPwr slot = false) ∧
    (∃ (s : State) (slot : Fin 48),
      s.bit hswSlotPwrPwr slot = true) :=
  ⟨⟨{ wit [] with pins := { hswEn := true } }, by decide +kernel⟩,
    ⟨{ act [(hswStatusState, 3)] with pins := { hswEn := true } }, by decide +kernel⟩,
    ⟨act [(hswCtrlEnable, 1)], 0, by decide +kernel⟩,
    ⟨wit [], 47, by decide +kernel⟩,
    ⟨act [(hswSlotPwrPwr, 0xFFFFFFFFFFFF)], 47, by decide +kernel⟩⟩

/-- Hypotheses of Obligations.FeedsSlotsAndLogbook, part FeedSwitching met. -/
theorem witness_FeedSwitching :
    (∃ (s : State) (b : Bool),
      s.sound = true ∧ s.fld hswStatusState = 3 ∧ s.flag hswStatusActiveFeed = b ∧ s.power.switching = none ∧
      s.flag (feedGoodFld !b) = true) ∧
    (∃ (s : State) (f : Bool),
      s.power.switching = some f) ∧
    (∃ (s : State),
      s.fld hswStatusState = 3 ∧ s.flag hswStatusActiveFeed = (!s.flag hswFeedCfgPrefer) ∧
      s.flag (feedGoodFld (s.flag hswFeedCfgPrefer)) = true ∧ s.power.switching = none) :=
  ⟨⟨wit [(hswStatusState, 3), (hswStatusFeedAGood, 1), (hswStatusFeedBGood, 1)], false, by decide +kernel⟩,
    ⟨{ act [(hswStatusState, 3)] with power := { switching := some true } }, true, by decide +kernel⟩,
    ⟨wit [(hswStatusState, 3), (hswStatusActiveFeed, 1), (hswStatusFeedAGood, 1)], by decide +kernel⟩⟩

/-- Hypotheses of Obligations.FeedsSlotsAndLogbook, part SlotsAndTelemetry met. -/
theorem witness_SlotsAndTelemetry :
    (∃ (s : State) (v : Word) (i : Nat),
      s.sound = true ∧ s.takesWrite .plain true none = true ∧ v.toNat < 2 ^ 48 ∧ i < 48 ∧ bitAt v.toNat i = false) ∧
    (∃ (s : State) (v : Word),
      s.sound = true ∧ s.takesWrite .plain true none = true ∧ bitAt v.toNat 6 = true ∧ s.flag pwrCapCfgArm = false) ∧
    (∃ (s : State) (n : Nat),
      s.sound = true ∧ n < 64 ∧ (n ≠ 13 ∨ s.isS = false)) :=
  ⟨⟨act [(hswSlotPwrPwr, 0xFFFFFFFFFFFF)], 0x7FFFFFFFFFFF, 47, by decide +kernel⟩,
    ⟨act [], 0x45, by decide +kernel⟩,
    ⟨act [], 2, by decide +kernel⟩⟩

/-- Hypotheses of Obligations.FeedsSlotsAndLogbook, part LogbookAndAuxPower met. -/
theorem witness_LogbookAndAuxPower :
    (∃ (s : State) (b : Fin 1984),
      s.flag fltStatusLogbookRo = false ∧ cellGet 0 s.power.wear b + 1 < wearMax) ∧
    (∃ (s : State),
      s.flag fltStatusLogbookRo = true) ∧
    (∃ (s : State),
      s.sound = true) :=
  ⟨⟨act [], 1983, by decide +kernel⟩,
    ⟨act [(fltStatusLogbookRo, 1)], by decide +kernel⟩,
    ⟨act [], by decide +kernel⟩⟩

/-- Hypotheses of Obligations.ResetAndStraps met. -/
theorem witness_ResetAndStraps :
    (∃ (s : State),
      s.sound = true) ∧
    (∃ (s : State),
      s.sound = true ∧ s.mayBoot = true) :=
  ⟨⟨{ act [(hswCtrlEnable, 1)] with reqs := [] }, by decide +kernel⟩,
    ⟨wit [(hswStatusState, 3)], by decide +kernel⟩⟩

/-- Hypotheses of Obligations.BootImageAndApply, part BootImageSelection met. -/
theorem witness_BootImageSelection :
    (∃ (s : State) (rf : Bool),
      s.phase = 2 ∧ s.df = false ∧ s.boot.slotB = false ∧ s.slotCheck false rf ≠ 0) ∧
    (∃ (s : State) (rf : Bool),
      s.sound = true ∧ s.phase = 2 ∧ s.df = false ∧ s.boot.slotB = true ∧ s.slotCheck true rf ≠ 0) ∧
    (∃ (s : State) (rf : Bool),
      s.sound = true ∧ s.phase = 2 ∧ s.df = false ∧ (s.boot.slotB = true ∨ s.slotCheck false rf = 0)) :=
  ⟨⟨wit [(bootStatusPhase, 2)], false, by decide +kernel⟩,
    ⟨{ wit [(bootStatusPhase, 2)] with boot := { running := true, slotB := true } }, false, by decide +kernel⟩,
    ⟨{ wit [(bootStatusPhase, 2)] with boot := { running := true, slotB := true } }, true, by decide +kernel⟩⟩

/-- Hypotheses of Obligations.BootImageAndApply, part BootApplyOrder met. -/
theorem witness_BootApplyOrder :
    (∃ (s : State),
      s.phase = 4 ∧ s.df = false ∧ s.trainOver = true) ∧
    (∃ (s : State),
      s.phase = 4 ∧ s.trainOver = false) :=
  ⟨⟨{ wit ((bootStatusPhase, 4) :: (List.range 24).map fun c => (dmcCfgChannelDisable c, 1)) with boot := { running := true } },
      by decide +kernel⟩,
    ⟨{ wit [(bootStatusPhase, 4)] with boot := { running := true } }, by decide +kernel⟩⟩

/-- Hypotheses of Obligations.BootReachesActive met. -/
theorem witness_BootReachesActive :
    (∃ (s u : State),
      s.phase = 5 ∧ s.df = false ∧ (List.range 26).any (fun i => s.flag (ttStatusTakeoverPending i)) = false ∧
      (s.enterPhase 6).tbCfgWrite (withBits ((s.enterPhase 6).reg tbCfg).toNat tbCfgStepEn.lsb 1 (b2n s.boot.stepEn)) = u ∧
      (s.flag tbCfgStepEn = false ∨ u.fld tbStatusState ≠ 2)) ∧
    (∃ (s u : State),
      s.phase = 5 ∧ s.df = false ∧ (List.range 26).any (fun i => s.flag (ttStatusTakeoverPending i)) = false ∧
      (s.enterPhase 6).tbCfgWrite (withBits ((s.enterPhase 6).reg tbCfg).toNat tbCfgStepEn.lsb 1 (b2n s.boot.stepEn)) = u ∧
      s.sound = true ∧ s.flag tbCfgStepEn = true ∧ u.fld tbStatusState = 2) ∧
    (∃ (s : State) (e : Bool),
      s.sound = true ∧ s.phase = 6 ∧ s.df = false ∧ (e || s.tide.stepped || s.fld tbStatusState == 2) = true) ∧
    (∃ (s : State) (e : Bool),
      (s.phase ≠ 6 ∨ (e || s.tide.stepped || s.fld tbStatusState == 2) = false)) :=
  ⟨⟨{ wit [(bootStatusPhase, 5), (tbCfgStepEn, 0)] with boot := { running := true, stepEn := true } },
      phase6 { wit [(bootStatusPhase, 5), (tbCfgStepEn, 0)] with boot := { running := true, stepEn := true } },
      by decide +kernel⟩,
    ⟨{ wit [(bootStatusPhase, 5), (tbStatusState, 2), (tbStatusSource, 1)] with boot := { running := true, stepEn := true } },
      phase6 { wit [(bootStatusPhase, 5), (tbStatusState, 2), (tbStatusSource, 1)] with boot := { running := true, stepEn := true } },
      by decide +kernel⟩,
    ⟨{ wit [(bootStatusPhase, 6)] with boot := { running := true } }, true, by decide +kernel⟩,
    ⟨{ wit [(bootStatusPhase, 6)] with boot := { running := true } }, false, by decide +kernel⟩⟩

/-- Hypotheses of Obligations.FlashCommands, part FlashCommandsStart met. -/
theorem witness_FlashCommandsStart :
    (∃ (s : State),
      s.regReach false = true ∧ s.flag bootFlashStatusBusy = false ∧ s.takesWrite .flash false none = true) ∧
    (∃ (s : State) (b : Bool) (k : Fin 8192) (c : Instr),
      s.sound = true ∧ s.regReach false = true ∧ s.flag bootFlashStatusBusy = false ∧ s.takesWrite .flash false none = false ∧
      c ∈ [Instr.eraseSlot b, Instr.program b k, Instr.verify b]) ∧
    (∃ (s : State) (b : Bool) (k : Fin 8192) (c : Instr),
      s.flag bootFlashStatusBusy = true ∧ c ∈ [Instr.eraseSlot b, Instr.program b k, Instr.verify b]) :=
  ⟨⟨act [], by decide +kernel⟩,
    ⟨{ wit [(bootStatusPhase, 6)] with boot := { running := true } }, false, 3, .program false 3, by decide +kernel⟩,
    ⟨act [(bootFlashStatusBusy, 1)], true, 0, .eraseSlot true, by decide +kernel⟩⟩

/-- Hypotheses of Obligations.FlashCommands, part FlashCommandsEnd met. -/
theorem witness_FlashCommandsEnd :
    (∃ (s : State) (slot blk : Nat),
      s.sound = true ∧ s.boot.flashCmd = some (1, slot, blk)) ∧
    (∃ (s : State) (slot blk : Nat),
      s.sound = true ∧ s.boot.flashCmd = some (2, slot, blk)) ∧
    (∃ (s : State) (slot blk : Nat),
      s.sound = true ∧ s.boot.flashCmd = some (3, slot, blk)) :=
  ⟨⟨{ act [(bootFlashStatusBusy, 1)] with boot := { running := true, flashCmd := some (1, 0, 0), flash := [(5, 1), (slotWords, 2)] } },
      0, 0, by decide +kernel⟩,
    ⟨{ act [(bootFlashStatusBusy, 1), (⟨bootFlashBuf 511, 0, 64⟩, 77)] with boot := { running := true, flashCmd := some (2, 1, 8191) } },
      1, 8191, by decide +kernel⟩,
    ⟨{ act [(bootFlashStatusBusy, 1)] with boot := { running := true, flashCmd := some (3, 1, 0) } }, 1, 0,
      by decide +kernel⟩⟩

/-- Hypotheses of Obligations.RegisterReadsAndCommands, part RegisterReads met. -/
theorem witness_RegisterReads :
    (∃ (s : State) (path : RegPath) (off : Nat),
      s.sound = true ∧ s.pathOpen path = true ∧ s.regReach (shoreOff off) = true ∧ off % 8 = 0 ∧ off ≠ tbTimeLo) ∧
    (∃ (s : State) (path : RegPath) (p : Fin 16),
      s.sound = true ∧ s.pathOpen path = true ∧ s.regReach false = true ∧ s.heldAway (some (portHalf p)) = false) ∧
    (∃ (s : State) (path : RegPath) (lanes : Lanes) (off : Nat),
      pathForm path lanes = true ∧ lanes ≠ .qword ∧ s.pathOpen path = true ∧ s.regReach (shoreOff off) = true ∧ off % 8 = 0 ∧
      off ≠ tbTimeLo) ∧
    (∃ (s : State) (p : Fin 16) (ld : Fin 17) (off : Nat),
      s.sound = true ∧ s.present p ld = true ∧ (s.func (fnOf p ld)).flr = false ∧ off % 8 = 0) ∧
    (∃ (s : State) (p : Fin 16) (ld : Fin 17) (off : Nat),
      (s.present p ld = false ∨ (s.func (fnOf p ld)).flr = true) ∧ off % 8 = 0) ∧
    (∃ (s : State) (p n : Fin 16) (off : Nat),
      off % 8 = 0 ∧ s.pathServed (.bar2Owner p n) = false) ∧
    (∃ (view : RegView) (p ld off : Nat),
      off % 8 ≠ 0 ∧ viewFunction view = some (p, ld)) ∧
    (∃ (s : State) (path : RegPath),
      s.sound = true ∧ s.pathOpen path = true ∧ s.regReach true = true) :=
  ⟨⟨act [(mapCfgPinMib, 9)], .mctpEth, mapCfg, by decide +kernel⟩,
    ⟨act [(hpReqOccInflight 15, 3), (hpReqOccPeak 15, 9)], .mctpEth, 15, by decide +kernel⟩,
    ⟨ownr (act [(hpReqOccInflight 15, 3), (hpReqOccPeak 15, 9)]), .bar2Owner 3 0, .low, hpReqOcc 15, by decide +kernel⟩,
    ⟨up 15 (act []), 15, 0, 0, by decide +kernel⟩,
    ⟨act [], 0, 0, 0, by decide +kernel⟩,
    ⟨act [], 3, 0, mapCfg, by decide +kernel⟩,
    ⟨.priv (.bar2Owner 3 0), 3, 0, mapCfg + 4, by decide +kernel⟩,
    ⟨ownr (act []), .bar2Fm 3, by decide +kernel⟩⟩

/-- Hypotheses of Obligations.RegisterReadsAndCommands, part RegisterCommands met. -/
theorem witness_RegisterCommands :
    (∃ (s : State) (path : RegPath) (off : Nat),
      s.sound = true ∧ regPath path = true ∧ s.pathOpen path = true ∧ s.regsShut = false ∧ s.phase ≠ 9 ∧
      s.regArgsOk off 1 = true ∧ off ≠ tbTimeLo) ∧
    (∃ (s : State) (path : RegPath) (off : Nat),
      regPath path = true ∧ s.pathOpen path = true ∧ s.regsShut = false ∧ s.phase ≠ 9 ∧ s.regArgsOk off 1 = true) ∧
    (∃ (s : State) (path : RegPath) (off n : Nat),
      s.sound = true ∧ regPath path = true ∧ s.pathOpen path = true ∧ s.regsShut = false ∧ s.phase ≠ 9 ∧
      s.regArgsOk off n = true) ∧
    (∃ (s : State) (path : RegPath) (off n : Nat),
      regPath path = true ∧ s.pathOpen path = true ∧ s.regsShut = false ∧ s.phase ≠ 9 ∧ s.regArgsOk off n = false) ∧
    (∃ (s : State) (off : Nat),
      s.regsShut = true ∧ s.power.auxGood = true ∧ s.regArgsOk off 1 = true ∧ shoreOff off = false) :=
  ⟨⟨act [], .mctpEth, mapCfg, by decide +kernel⟩,
    ⟨act [], .mctpEth, mapCfg, by decide +kernel⟩,
    ⟨act [], .mctpEth, mapCfg, 1, by decide +kernel⟩,
    ⟨act [], .mctpEth, 4, 1, by decide +kernel⟩,
    ⟨wit [], mapCfg, by decide +kernel⟩⟩

/-- Hypotheses of Obligations.RegisterWrites, part AccessCodes met. -/
theorem witness_AccessCodes :
    (∃ (s : State) (path : RegPath),
      s.sound = true ∧ s.pathOpen path = true ∧ s.takesWrite .plain false none = true) ∧
    (∃ (s : State) (path : RegPath),
      s.sound = true ∧ s.pathOpen path = true ∧ s.takesWrite .plain true none = true) :=
  ⟨⟨act [], .mctpEth, by decide +kernel⟩,
    ⟨act [(pwrEvtSupplyWarn, 1), (pwrEvtRailFault, 1)], .mctpEth, by decide +kernel⟩⟩

/-- Hypotheses of Obligations.RegisterWrites, part IgnoredWrites met. -/
theorem witness_IgnoredWrites :
    (∃ (s : State) (off : Nat),
      s.regsShut = true ∧ shoreOff off = false ∧ off % 8 = 0) ∧
    (∃ (s : State) (off : Nat) (r : RegRow) (i : Nat),
      privRow off = some (r, i) ∧ off % 8 = 0 ∧ regKind r.name = .plain ∧ s.regsShut = false ∧ s.phase ≠ 7 ∧ s.phase ≠ 8) ∧
    (∃ (s : State) (path : RegPath) (off g : Nat) (r : RegRow) (i : Nat),
      privRow off = some (r, i) ∧ off % 8 = 0 ∧ r.name ≠ .bootFlashCtrl ∧ (s.isS && pairReg off) = false ∧
      s.pathOpen path = true ∧ s.takesWrite (regKind r.name) (shoreOff off) (heldIn r.name i) = true ∧ groupOf off = some g ∧
      s.bit topCommitStatusSealed g = true) ∧
    (∃ (s : State) (p : Fin 16) (ld : Fin 17) (off : Nat),
      off % 8 = 0 ∧ (s.present p ld = false ∨ (s.func (fnOf p ld)).flr = true)) :=
  ⟨⟨wit [], mapCfg, by decide +kernel⟩,
    ⟨{ wit [(bootStatusPhase, 6)] with boot := { running := true } }, mapCfg,
      ((privRow mapCfg).map (·.1)).getD ⟨.uvId, true, 0, 1, 0, 1, 0, none, []⟩, 0, by decide +kernel⟩,
    ⟨act [(topCommitStatusSealed, 1)], .mctpEth, domWindow 0, 0,
      ((privRow (domWindow 0)).map (·.1)).getD ⟨.uvId, true, 0, 1, 0, 1, 0, none, []⟩, 0, by decide +kernel⟩,
    ⟨act [], 3, 16, 0, by decide +kernel⟩⟩

/-- Hypotheses of Obligations.ManagerFeaturesAndShadows, part ManagerFeatures met. -/
theorem witness_ManagerFeatures :
    (∃ (s : State) (path : RegPath),
      s.sound = true ∧ s.pathOpen path = true ∧ s.takesWrite .plain false none = true ∧ ownerPath path = false ∧
      s.flag topFmFeatureCtrlLock = false) ∧
    (∃ (s : State) (path : RegPath),
      (ownerPath path = true ∨ s.flag topFmFeatureCtrlLock = true)) :=
  ⟨⟨act [((topFmFeatureAcceptedAccepted 0), 7), ((topFmFeatureOfferedOffered 0), 6)], .mctpEth, by decide +kernel⟩,
    ⟨act [(topFmFeatureCtrlLock, 1)], .mctpEth, by decide +kernel⟩⟩

/-- Hypotheses of Obligations.ManagerFeaturesAndShadows, part ShadowRevertByGroup met. -/
theorem witness_ShadowRevertByGroup :
    (∃ (s : State) (g : Nat),
      s.sound = true ∧ s.takesWrite .plain false none = true ∧ (g = 1 ∨ g = 3) ∧ s.bit topCommitStatusSealed g = false) ∧
    (∃ (s : State),
      s.sound = true ∧ s.takesWrite .plain false none = true ∧ s.bit topCommitStatusSealed 4 = false) ∧
    (∃ (s : State),
      s.sound = true ∧ s.takesWrite .plain false none = true ∧ s.bit topCommitStatusSealed 0 = false ∧
      (∀ q ∈ s.maps, q.1 < 1024)) ∧
    (∃ (s : State) (g : Nat),
      s.takesWrite .plain false none = true ∧ g < 5 ∧ (g = 2 ∨ s.bit topCommitStatusSealed g = true)) :=
  ⟨⟨act [(topShadowStatusDirty, 31), (qosShpRate 1023, 5)], 1, by decide +kernel⟩,
    ⟨act [(topShadowStatusDirty, 31), (⟨pwrFmVote0, 0, 64⟩, 5), (pwrTargetDevice, 1)], by decide +kernel⟩,
    ⟨act [(topShadowStatusDirty, 31), (domWindowBase 1023, 5)], by decide +kernel⟩,
    ⟨act [(topCommitStatusSealed, 16)], 4, by decide +kernel⟩⟩

/-- Hypotheses of Obligations.CounterUnitRegisters met. -/
theorem witness_CounterUnitRegisters :
    (∃ (s : State),
      s.sound = true ∧ s.takesWrite .plain false none = true) ∧
    (∃ (s : State) (h : Half),
      s.sound = true ∧ s.takesWrite .plain false (some h) = true) ∧
    (∃ (s : State) (h : Half) (n : Fin 64),
      s.sound = true ∧ s.takesWrite .plain false (some h) = true ∧ n.val < 8) :=
  ⟨⟨act [], by decide +kernel⟩,
    ⟨act [], .b, by decide +kernel⟩,
    ⟨act [], .a, 7, by decide +kernel⟩⟩

/-- Hypotheses of Obligations.PortLinks, part PortTraining met. -/
theorem witness_PortTraining :
    (∃ (s : State) (p : Fin 16) (hr eq : BitVec 7) (gl : BitVec 16) (r w : Nat),
      s.sound = true ∧ s.mayTrain p = true ∧ s.portRate p hr.toNat eq.toNat = some r ∧
      widestPort (cfgLanes (s.fld (hpPortCfgWidth p))) gl.toNat = some w ∧
      (s.updPort p fun q => { q with link := .recovery }).portDomainsRun p = true) ∧
    (∃ (s : State) (p : Fin 16),
      s.mayTrain p = true) ∧
    (∃ (s : State) (p : Fin 16) (hr eq : BitVec 7) (gl : BitVec 16),
      s.mayTrain p = true ∧
      (s.portRate p hr.toNat eq.toNat = none ∨ widestPort (cfgLanes (s.fld (hpPortCfgWidth p))) gl.toNat = none)) :=
  ⟨⟨{ act [(hpPortCfgWidth 0, 2)] with ports := { active := true, perst := false } :: List.replicate 15 {} }, 0, 0x7F, 0x3F,
      0xFFFF, 5, 4, by decide +kernel⟩,
    ⟨{ act [(hpPortCfgWidth 0, 2)] with ports := { active := true, perst := false } :: List.replicate 15 {} }, 0,
      by decide +kernel⟩,
    ⟨{ act [(hpPortCfgWidth 0, 2)] with ports := { active := true, perst := false } :: List.replicate 15 {} }, 0, 0x7F, 0x3F,
      0x7FFE, by decide +kernel⟩⟩

/-- Hypotheses of Obligations.PortLinks, part LinkEvents met. -/
theorem witness_LinkEvents :
    (∃ (s : State) (p : Fin 16),
      s.sound = true ∧ s.flag (hpPortStatusLinkUp p) = true) ∧
    (∃ (s : State) (p : Fin 16),
      s.sound = true ∧ s.portOn p = true) ∧
    (∃ (s : State) (p : Fin 16) (new : LinkState),
      s.portOn p = true ∧ s.flag (hpPortStatusLinkUp p) = true ∧
      (new = .recovery ∨ new = .l1 ∨ new = .l2 ∨ ((new = .l0 ∨ new = .l0p) ∧ (s.portDomainsRun p = true ∨
        (s.port p).link = .l0 ∨ (s.port p).link = .l0p)))) ∧
    (∃ (s : State) (p : Fin 16) (new : LinkState),
      s.portOn p = true ∧ s.flag (hpPortStatusLinkUp p) = true ∧ (new = .l0 ∨ new = .l0p) ∧ s.portDomainsRun p = false ∧
      (s.port p).link ≠ .l0 ∧ (s.port p).link ≠ .l0p) ∧
    (∃ (s : State),
      s.sound = true) ∧
    (∃ (s : State) (p : Fin 16),
      s.sound = true ∧ (s.port p).perst = true) :=
  ⟨⟨up 15 (act [(hpReplayCntReplays 15, 0xFFFFFFFF)]), 15, by decide +kernel⟩,
    ⟨up 15 (act []), 15, by decide +kernel⟩,
    ⟨up 15 (act []), 15, .l0p, by decide +kernel⟩,
    ⟨({ (up 15 (act [(pwrDomState 0, 1), (pwrDomState 1, 1), (pwrDomState 2, 1), (pwrDomState 3, 1), (pwrDomState 4, 1), (pwrDomState 5, 1), (pwrDomState 6, 1), (pwrDomState 7, 1), (pwrDomState 8, 1), (pwrDomState 9, 1), (pwrDomState 10, 1), (pwrDomState 11, 1), (pwrDomState 12, 1), (pwrDomState 13, 1)])) with power := {} }).updPort 15 (fun q => { q with link := .l1 }),
      15, .l0, by decide +kernel⟩,
    ⟨up 15 (act []), by decide +kernel⟩,
    ⟨{ act [(pwrStatusDeviceState, 2), (pwrCfgWakePerstEn, 1)] with ports := { active := true } :: List.replicate 15 {} }, 0,
      by decide +kernel⟩⟩

/-- Hypotheses of Obligations.FunctionResets met. -/
theorem witness_FunctionResets :
    (∃ (s : State) (p : Fin 16) (ld : Fin 17),
      s.present p ld = true ∧ (s.func (fnOf p ld)).flr = false) ∧
    (∃ (s : State) (p : Fin 16) (ld : Fin 17),
      s.sound = true ∧ (s.func (fnOf p ld)).flr = true) :=
  ⟨⟨{ up 0 (act []) with jobs := [job 1 64 0 0], funcs := [(0, { bme := true, tags := [3], quarantined := [2] })] }, 0, 0,
      by decide +kernel⟩,
    ⟨{ up 15 (act [(oflRingCtrlEnable (fnOf 15 16) 3, 1)]) with funcs := [(271, { flr := true, bme := true })] }, 15, 16,
      by decide +kernel⟩⟩

/-- Hypotheses of Obligations.CompletionsAndConfiguration, part ReadCompletions met. -/
theorem witness_ReadCompletions :
    (∃ (s : State) (p : Fin 16) (ld : Fin 17) (tag : Nat),
      (s.func (fnOf p ld)).quarantined.contains tag = true) ∧
    (∃ (s : State) (p : Fin 16) (ld : Fin 17) (tag : Nat) (j : Job),
      s.sound = true ∧ (s.func (fnOf p ld)).quarantined.contains tag = false ∧
      s.jobs.find? (fun j => j.fn == fnOf p ld && j.rtag == some tag && j.status.isNone) = some j) :=
  ⟨⟨{ act [] with funcs := [(0, { quarantined := [2, 3] })] }, 0, 0, 3, by decide +kernel⟩,
    ⟨{ act [] with jobs := [{ job 1 64 0 0 with rtag := some 3 }] }, 0, 0, 3, { job 1 64 0 0 with rtag := some 3 },
      by decide +kernel⟩⟩

/-- Hypotheses of Obligations.CompletionsAndConfiguration, part ConfigurationSpace met. -/
theorem witness_ConfigurationSpace :
    (∃ (s : State) (p : Fin 16) (ld : Fin 17),
      s.present p ld = true ∧ (s.func (fnOf p ld)).flr = false) ∧
    (∃ (s : State) (p : Fin 16) (ld : Fin 17),
      s.present p ld = true) ∧
    (∃ (s : State) (p : Fin 16) (ld : Fin 17) (bar : Fin 6) (i : BitVec 8) (c : Instr),
      s.present p ld = true ∧ (s.func (fnOf p ld)).flr = true ∧
      c ∈ [Instr.flrStart p ld, .bmeClear p ld, .bmeSet p ld, .barSizingWrite p ld bar, .doeDiscovery p ld i,
        .doeCdatRead p ld]) :=
  ⟨⟨up 15 (act []), 15, 16, by decide +kernel⟩,
    ⟨up 15 (act []), 15, 0, by decide +kernel⟩,
    ⟨{ up 15 (act []) with funcs := [(271, { flr := true })] }, 15, 16, 0, 0, .doeCdatRead 15 16, by decide +kernel⟩⟩

/-- Hypotheses of Obligations.IdeFeaturesAndDecoders, part IdeAndFeatures met. -/
theorem witness_IdeAndFeatures :
    (∃ (s : State) (p : Fin 16),
      s.present p 16 = true ∧ (s.func (fnOf p 16)).flr = false) ∧
    (∃ (s : State) (p : Fin 16) (mem set : Bool),
      s.sound = true ∧ s.present p 16 = true ∧ (s.func (fnOf p 16)).flr = false ∧ (s.port p).ideState.length = 2 ∧
      (s.port p).ideSet.length = 2 ∧
      (∀ tx : Bool, (s.port p).ideKeys.any (fun k => k.1 == 4 * b2n mem + 2 * b2n set + b2n tx) = true)) ∧
    (∃ (s : State) (p : Fin 16) (ld : Fin 17),
      s.sound = true ∧ s.present p ld = true ∧ (s.func (fnOf p ld)).flr = false ∧ s.flag (featureCtrlLock
        (fnOf p ld)) = false) :=
  ⟨⟨up 15 (act []), 15, by decide +kernel⟩,
    ⟨{ act [(⟨hpPortStatus 0, hpPortStatusLinkUp 0 |>.lsb, 1⟩, 1)] with ports := { active := true, link := .l0, ideKeys := [(4, 1), (5, 2)] } :: List.replicate 15 {} },
      0, true, false, by decide +kernel⟩,
    ⟨up 0 (act [((featureAcceptedAccepted 0 0), 0x7F)]), 0, 0, by decide +kernel⟩⟩

/-- Hypotheses of Obligations.IdeFeaturesAndDecoders, part HdmDecoders met. -/
theorem witness_HdmDecoders :
    (∃ (s : State) (p : Fin 16) (id : Fin 4096) (w g : Nat),
      s.gfam p = false ∧ id.val < s.fld (hpPortCfgLdCount p) ∧ s.present p (id.val % 17) = true ∧
      (s.func (fnOf p id)).flr = false ∧ w ∈ [1, 2, 3, 4, 6, 8, 12, 16] ∧ g ∈ [256, 512, 1024, 2048, 4096, 8192, 16384]) ∧
    (∃ (s : State) (p : Fin 16) (id : Fin 4096) (w g : Nat),
      s.gfam p = true ∧ id.val ≠ 0xFFF ∧ s.present p 16 = true ∧ w ∈ [1, 2, 3, 4, 6, 8, 12, 16] ∧
      g ∈ [256, 512, 1024, 2048, 4096, 8192, 16384]) ∧
    (∃ (s : State) (p : Fin 16) (id : Fin 4096) (w g : Nat),
      s.gfam p = false ∧ id.val < s.fld (hpPortCfgLdCount p) ∧ s.present p (id.val % 17) = true ∧
      (s.func (fnOf p id)).flr = false ∧ (w ∉ [1, 2, 3, 4, 6, 8, 12, 16] ∨ g ∉ [256, 512, 1024, 2048, 4096, 8192, 16384])) ∧
    (∃ (s : State) (p : Fin 16) (id : Fin 4096) (w g : Nat),
      s.gfam p = true ∧ id.val ≠ 0xFFF ∧ s.present p 16 = true ∧
      (w ∉ [1, 2, 3, 4, 6, 8, 12, 16] ∨ g ∉ [256, 512, 1024, 2048, 4096, 8192, 16384])) :=
  ⟨⟨up 15 (act []), 15, 0, 16, 16384, by decide +kernel⟩,
    ⟨up 15 (act [(hpPortCfgMode 15, 1)]), 15, 4094, 1, 256, by decide +kernel⟩,
    ⟨up 15 (act []), 15, 0, 5, 256, by decide +kernel⟩,
    ⟨up 15 (act [(hpPortCfgMode 15, 1)]), 15, 4094, 16, 128, by decide +kernel⟩⟩

/-- Hypotheses of Obligations.RequestArrival met. -/
theorem witness_RequestArrival :
    (∃ (s : State) (p : Fin 16) (id : Fin 4096) (hpa d line dpa : Nat) (parity : Fin 5),
      s.sound = true ∧ d < 1024 ∧ s.portUp p = true ∧ s.fenced (uHalf (portHalf p).idx) = false ∧ s.hasCredit p 0 = true ∧
      s.hasCredit p 1 = true ∧ (s.gfam p = true → s.knownSpid p id = true) ∧ s.decodeHpa p id hpa = .ok d line dpa ∧
      s.df = false ∧ s.fenced (uHalf (s.home d).idx) = false ∧ parity.val ≤ 3) :=
  ⟨dev [], 0, 0, 2 ^ 23 - 64, 0, 131071, 2 ^ 23 - 64, 0, by decide +kernel⟩

/-- Hypotheses of Obligations.MessagesAndEntries, part MessagesWithoutDomain met. -/
theorem witness_MessagesWithoutDomain :
    (∃ (s : State) (p : Fin 16) (id : Fin 4096),
      s.sound = true ∧ s.portUp p = true ∧ s.hasCredit p 0 = true ∧ (s.gfam p = true → s.knownSpid p id = true)) ∧
    (∃ (s : State) (p : Fin 16) (id : Fin 4096),
      s.portUp p = true ∧ s.hasCredit p 0 = true ∧ s.gfam p = true ∧ s.knownSpid p id = false) ∧
    (∃ (s : State) (p : Fin 16) (id : Fin 4096) (hpa : Nat),
      s.sound = true ∧ s.portUp p = true ∧ s.fenced (uHalf (portHalf p).idx) = false ∧ s.hasCredit p 0 = true ∧
      (s.gfam p = true → s.knownSpid p id = true) ∧ s.decodeHpa p id hpa = .undecoded) ∧
    (∃ (s : State) (p : Fin 16) (id : Fin 4096),
      s.portUp p = true ∧ s.fenced (uHalf (portHalf p).idx) = false ∧ s.hasCredit p 0 = true ∧ s.gfam p = true ∧
      s.knownSpid p id = false) ∧
    (∃ (s : State) (p : Fin 16),
      s.portUp p = false) :=
  ⟨⟨dev [], 0, 0, by decide +kernel⟩,
    ⟨up 1 (act [(hpPortCfgMode 1, 1)]), 1, 0xFFF, by decide +kernel⟩,
    ⟨dev [], 0, 0, 2 ^ 23, by decide +kernel⟩,
    ⟨up 1 (act [(hpPortCfgMode 1, 1)]), 1, 0xFFF, by decide +kernel⟩,
    ⟨act [], 1, by decide +kernel⟩⟩

/-- Hypotheses of Obligations.MessagesAndEntries, part RequestEntries met. -/
theorem witness_RequestEntries :
    (∃ (s : State) (h : Half) (r : Req) (pool : Nat),
      s.sound = true ∧ (r.hasDom = true → r.dom < 1024) ∧
      s.reqs.find? (fun q => q.stage == .waitEntry && q.ingress == h) = some r ∧ s.poolFor r = some pool) :=
  ⟨{ dev [] with reqs := [rq .wr .cross, rq .rd .waitEntry] }, .a, rq .rd .waitEntry,
      (dev []).poolFor (rq .rd .waitEntry) |>.getD 9, by decide +kernel⟩

/-- Hypotheses of Obligations.MapStageAndWriteBuffer, part MapStage met. -/
theorem witness_MapStage :
    (∃ (s u : State) (d : Fin 1024) (r : Req) (p id : Nat),
      s.sound = true ∧ s.reqs.find? (fun q => q.hasDom && q.dom == d.val && q.stage == .queued) = some r ∧
      s.req r.rid = some r ∧ r.kind = .rd ∧ r.org = .host p id ∧ s.shape d = some u ∧ s.df = false ∧
      s.fenced (uHalf r.home.idx) = false ∧ r.oldPage = none ∧ s.stage5Before r = false ∧ s.locked d (r.line / 64) = false ∧
      s.cached r.home (.desc d (r.line / 64 / 2048)) = true ∧
      ((s.ext d (r.line / 64 / 512)).kind = .unmapped ∨ (s.ext d (r.line / 64 / 512)).kind = .zero) ∧
      s.effFlag (domCtrlCoherence d) = false ∧ s.mirReads d = true ∧ s.listedLine d r.line = false) ∧
    (∃ (s : State) (rid : Fin 65536) (r : Req) (p id : Nat),
      s.sound = true ∧ s.req rid = some r ∧ r.hasDom = true ∧ r.dom < 1024 ∧ r.stage = .lockWait ∧ r.kind = .rd ∧
      r.org = .host p id ∧ s.df = false ∧ s.fenced (uHalf r.home.idx) = false ∧ r.oldPage = none ∧ s.stage5Before r = false ∧
      s.locked r.dom (r.line / 64) = false ∧ s.cached r.home (.desc r.dom (r.line / 64 / 2048)) = true ∧
      (s.ext r.dom (r.line / 64 / 512)).kind = .frame ∧ s.effFlag (domCtrlCoherence r.dom) = false ∧ s.mirReads r.dom = true ∧
      s.treeFenced r.dom r.line = false ∧ s.serves (chanOf r.home (s.pageNow r.dom (r.line / 64)).addr) = true ∧
      s.readRoom (chanOf r.home (s.pageNow r.dom (r.line / 64)).addr) r = true) ∧
    (∃ (s : State) (c : Fin 24) (r : Req),
      s.sound = true ∧
      s.reqs.find? (fun q => q.stage == .parked && q.home == chanHalf c && chanOf q.home (q.ma / 4) == c.val &&
        (if q.isRead then s.readRoom c q else s.wbRoom c q)) = some r ∧
      s.req r.rid = some r ∧ r.kind = .rd ∧ r.dom < 1024 ∧ s.serves c = true) ∧
    (∃ (s : State) (rid : Fin 65536) (r : Req),
      s.sound = true ∧ s.req rid = some r ∧ r.dom < 1024 ∧ r.hasDom = true ∧ r.stage = .metaWait ∧ r.kind = .rd ∧
      s.mcSets r.home ≠ 0 ∧ s.cached r.home (.desc r.dom (r.line / 64 / 2048)) = false) :=
  ⟨⟨{ dev [((domPolicyTclass 0).eff, 0)] with reqs := [{ rq .wr .channel with rid := 9 }, rq .rd .queued] },
      { dev [((domPolicyTclass 0).eff, 0)] with reqs := [{ rq .wr .channel with rid := 9 }, rq .rd .queued] }, 0,
      rq .rd .queued, 0, 0, by decide +kernel⟩,
    ⟨{ dev (((domPolicyTclass 0).eff, 0) :: (List.range 24).map fun c => (dmcStatusTrained c, 1)) with reqs := [{ rq .wr .channel with rid := 9 }, rq .rd .lockWait], extents := [(0, { kind := .frame, addr := 48 })] },
      7, rq .rd .lockWait, 0, 0, by decide +kernel⟩,
    ⟨{ dev [(dmcStatusTrained 0, 1)] with reqs := [{ rq .rd .channel with rid := 9 }, { rq .rd .parked with ma := 0 }] }, 0,
      { rq .rd .parked with ma := 0 }, by decide +kernel⟩,
    ⟨{ dev [((domPolicyTclass 0).eff, 1)] with reqs := [{ rq .rd .channel with rid := 9 }, rq .rd .metaWait] }, 7,
      rq .rd .metaWait, by decide +kernel⟩⟩

/-- Hypotheses of Obligations.MapStageAndWriteBuffer, part WriteBufferEntry met. -/
theorem witness_WriteBufferEntry :
    (∃ (s : State) (rid : Fin 65536) (c : Fin 24) (r : Req) (p id : Nat),
      s.sound = true ∧ s.req rid = some r ∧ r.stage = .wbWait ∧ r.org = .host p id ∧ chanOf r.home (r.ma / 4) = c ∧
      s.serves c = true ∧ s.mirroring r.dom = false ∧ s.mState r.dom ≠ mPriSolo ∧ s.writeBefore r = false ∧
      s.wbRoom c r = true) :=
  ⟨{ dev [(dmcStatusTrained 0, 1)] with reqs := [{ rq .rd .channel with rid := 9, line := 70 }, { rq .wr .wbWait with ma := 0 }] },
      7, 0, { rq .wr .wbWait with ma := 0 }, 0, 0, by decide +kernel⟩

/-- Hypotheses of Obligations.BackInvalidationAndResponses, part BackInvalidation met. -/
theorem witness_BackInvalidation :
    (∃ (s : State) (h : Half) (d : Fin 1024) (line : Nat) (to_ : BiTarget) (e : SfEntry),
      s.sound = true ∧ s.sfEntry d line = some e ∧ e.half = h ∧ e.unsent.contains to_.host = true ∧ e.await ≠ [] ∧
      0 < nth 0 (s.port (s.hostPort to_.host)).hostCredits 2 + to_.credits) ∧
    (∃ (s : State) (h : Half) (d : Fin 1024) (line : Nat) (to_ : BiTarget) (e : SfEntry),
      s.sound = true ∧ s.sfEntry d line = some e ∧ e.half = h ∧ e.unsent.contains to_.host = true ∧ e.await ≠ [] ∧
      nth 0 (s.port (s.hostPort to_.host)).hostCredits 2 + to_.credits = 0) ∧
    (∃ (s : State) (p : Fin 16) (id : Fin 4096) (hpa d line dpa : Nat) (keeps : Fin 6) (e : SfEntry),
      s.sound = true ∧ s.portUp p = true ∧ keeps.val < 3 ∧ s.decodeHpa p id hpa = .ok d line dpa ∧ s.sfEntry d line = some e ∧
      e.await.contains (s.hostNum p id) = true ∧
      (e.await.filter (· != s.hostNum p id) ≠ [] ∨ ∀ r ∈ s.reqs, ¬ r.waitsAt5 (s.home d) d (line / 64))) ∧
    (∃ (s : State) (p : Fin 16) (id : Fin 4096) (hpa d line dpa pt ident : Nat) (keeps : Fin 6) (e : SfEntry) (r : Req),
      s.sound = true ∧ s.portUp p = true ∧ keeps.val < 3 ∧ s.decodeHpa p id hpa = .ok d line dpa ∧ s.sfEntry d line = some e ∧
      e.await.contains (s.hostNum p id) = true ∧ e.await.filter (· != s.hostNum p id) = [] ∧
      (e.biData = true ∨ e.owned = false) ∧ s.req r.rid = some r ∧ r.hasDom = true ∧ r.dom = d ∧ d < 1024 ∧ r.line = line ∧
      r.home = s.home d ∧ r.stage = .biWait ∧ r.kind = .rd ∧ r.want = .none ∧ r.org = .host pt ident ∧
      (∀ y ∈ s.reqs, y.waitsAt5 (s.home d) d (line / 64) → y = r) ∧ s.df = false ∧ s.fenced (uHalf r.home.idx) = false ∧
      r.oldPage = none ∧ s.stage5Before r = false ∧ s.locked d (line / 64) = false ∧
      s.cached r.home (.desc d (line / 64 / 2048)) = true ∧ (s.ext d (line / 64 / 512)).kind = .frame ∧ s.mirReads d = true ∧
      s.treeFenced d line = false ∧ s.serves (chanOf r.home (s.pageNow d (line / 64)).addr) = true ∧
      s.readRoom (chanOf r.home (s.pageNow d (line / 64)).addr) r = true) ∧
    (∃ (s : State) (h : Half) (d : Fin 1024) (line host : Nat) (e : SfEntry),
      s.sound = true ∧ s.sfEntry d line = some e ∧ e.half = h ∧ e.await.contains host = true ∧
      (e.await.filter (· != host) ≠ [] ∨ ∀ r ∈ s.reqs, ¬ r.waitsAt5 h d (line / 64))) :=
  ⟨⟨{ dev [] with reqs := [rq .rd .biWait], snoop := [⟨.a, 0, 70, true, false, [16], [16], [16], true, false, false⟩] }, .a,
      0, 70, ⟨16, 1⟩, ⟨.a, 0, 70, true, false, [16], [16], [16], true, false, false⟩, by decide +kernel⟩,
    ⟨{ dev [] with reqs := [rq .rd .biWait], snoop := [⟨.a, 0, 70, true, false, [16], [16], [16], true, false, false⟩] }, .a,
      0, 70, ⟨16, 0⟩, ⟨.a, 0, 70, true, false, [16], [16], [16], true, false, false⟩, by decide +kernel⟩,
    ⟨{ dev [] with reqs := [rq .rd .biWait], snoop := [⟨.a, 0, 70, false, false, [0, 16], [0, 16], [], true, false, false⟩] },
      0, 0, 70 * 64, 0, 70, 70 * 64, 1, ⟨.a, 0, 70, false, false, [0, 16], [0, 16], [], true, false, false⟩,
        by decide +kernel⟩,
    ⟨{ dev (((domPolicyTclass 0).eff, 0) :: ((domCtrlCoherence 0).eff, 1) :: (List.range 24).map fun c => (dmcStatusTrained c, 1)) with hdm := [(hdmKey 0 0 0, { committed := true, size := 2 ^ 23, bi := true })], reqs := [{ rq .wr .channel with rid := 9 }, { rq .rd .biWait with want := .none }], snoop := [⟨.a, 0, 70, true, false, [0], [0], [], true, false, false⟩], extents := [(0, { kind := .frame, addr := 48 })] },
      0, 0, 70 * 64, 0, 70, 70 * 64, 0, 0, 0, ⟨.a, 0, 70, true, false, [0], [0], [], true, false, false⟩,
      { rq .rd .biWait with want := .none }, by decide +kernel⟩,
    ⟨{ dev [] with reqs := [rq .rd .biWait], snoop := [⟨.a, 0, 70, true, false, [0, 16], [0, 16], [], true, false, false⟩] },
      .a, 0, 70, 16, ⟨.a, 0, 70, true, false, [0, 16], [0, 16], [], true, false, false⟩, by decide +kernel⟩⟩

/-- Hypotheses of Obligations.BackInvalidationAndResponses, part Responses met. -/
theorem witness_Responses :
    (∃ (s : State) (x : ReadyResponse) (r : Req) (p id : Nat),
      s.sound = true ∧ s.req x.rid = some r ∧ r.stage = .respond ∧ r.org = .host p id ∧ r.mute = false ∧
      0 < nth 0 (s.port p).hostCredits r.respChannel + x.credits) ∧
    (∃ (s : State) (x : ReadyResponse) (r : Req) (p id : Nat),
      s.sound = true ∧ s.req x.rid = some r ∧ r.stage = .respond ∧ r.org = .host p id ∧ r.mute = false ∧
      nth 0 (s.port p).hostCredits r.respChannel + x.credits = 0) ∧
    (∃ (s : State) (x : ReadyResponse) (r : Req) (p id : Nat),
      s.sound = true ∧ s.req x.rid = some r ∧ r.stage = .respond ∧ r.org = .host p id ∧ r.mute = true) ∧
    (∃ (s : State) (x : ReadyResponse),
      s.req x.rid = none) :=
  ⟨⟨{ dev [] with reqs := [rq .rd .queued, { rq .rd .respond with rid := 8, rpoison := true }] }, ⟨8, 1⟩,
      { rq .rd .respond with rid := 8, rpoison := true }, 0, 0, by decide +kernel⟩,
    ⟨{ dev [] with reqs := [rq .rd .queued, { rq .rd .respond with rid := 8, rpoison := true }] }, ⟨8, 0⟩,
      { rq .rd .respond with rid := 8, rpoison := true }, 0, 0, by decide +kernel⟩,
    ⟨{ dev [] with reqs := [rq .rd .queued, { rq .rd .respond with rid := 8, mute := true }] }, ⟨8, 0⟩,
      { rq .rd .respond with rid := 8, mute := true }, 0, 0, by decide +kernel⟩,
    ⟨dev [], ⟨7, 1⟩, by decide +kernel⟩⟩

/-- Hypotheses of Obligations.DramReadsAndOrder, part DramReads met. -/
theorem witness_DramReads :
    (∃ (s : State) (rid : Fin 65536) (r : Req) (p id : Nat) (errs : List Burst) (l : Line),
      s.sound = true ∧ s.req rid = some r ∧ r.stage = .dram ∧ r.kind = .rd ∧ r.org = .host p id ∧ r.dom < 1024 ∧
      r.pstate ≠ 2 ∧ s.treeFenced r.dom r.line = false ∧ s.eff (domPolicyProt r.dom) ≠ 2 ∧
      ((s.readBurst r.home r.ma (errs.headD 0)).outcome = 1 ∨ (s.readBurst r.home r.ma (errs.headD 0)).outcome = 3) ∧
      s.unseal ⟨r.home, r.ma, r.dom, r.line, false, 0⟩ (s.readBurst r.home r.ma (errs.headD 0)).line = some l) ∧
    (∃ (s : State) (rid : Fin 65536) (r : Req) (p id : Nat) (errs : List Burst),
      s.sound = true ∧ s.req rid = some r ∧ r.stage = .dram ∧ r.kind = .rd ∧ r.org = .host p id ∧ r.dom < 1024 ∧
      r.pstate ≠ 2 ∧ s.treeFenced r.dom r.line = false ∧ s.eff (domPolicyProt r.dom) ≠ 2 ∧
      ((s.readBurst r.home r.ma (errs.headD 0)).outcome = 2 ∨ (s.readBurst r.home r.ma (errs.headD 0)).outcome = 4 ∨
        ((s.readBurst r.home r.ma (errs.headD 0)).outcome = 5 ∧ r.reread = true))) ∧
    (∃ (s : State) (rid : Fin 65536) (r : Req) (p id : Nat) (errs : List Burst),
      s.sound = true ∧ s.req rid = some r ∧ r.stage = .dram ∧ r.kind = .rd ∧ r.org = .host p id ∧ r.dom < 1024 ∧
      r.pstate ≠ 2 ∧ s.treeFenced r.dom r.line = false ∧ s.eff (domPolicyProt r.dom) ≠ 2 ∧
      (s.readBurst r.home r.ma (errs.headD 0)).outcome = 5 ∧ r.reread = false ∧
      s.againNow r (chanOf r.home (r.ma / 4)) = false) ∧
    (∃ (s : State) (rid : Fin 65536) (r : Req) (p id : Nat),
      s.sound = true ∧ s.req rid = some r ∧ r.stage = .dram ∧ r.kind = .rd ∧ r.org = .host p id ∧ r.dom < 1024 ∧
      r.pstate = 2 ∧ s.treeFenced r.dom r.line = false ∧ s.ctrReady r.dom r.line = true) :=
  ⟨⟨{ dev [] with reqs := [rq .wr .queued, { rq .rd .dram with rid := 8, ma := 0 }] }, 8,
      { rq .rd .dram with rid := 8, ma := 0 }, 0, 0, [1], ((dev []).unseal ⟨.a, 0, 0, 70, false, 0⟩ 0).getD 0,
      by decide +kernel⟩,
    ⟨{ dev [] with reqs := [rq .wr .queued, { rq .rd .dram with rid := 8, ma := 0, reread := true }] }, 8,
      { rq .rd .dram with rid := 8, ma := 0, reread := true }, 0, 0, [BitVec.ofNat 640 (1 + 2 ^ 70)], by decide +kernel⟩,
    ⟨{ dev [] with reqs := [rq .wr .queued, { rq .rd .dram with rid := 8, ma := 0, cls := 1 }] }, 8,
      { rq .rd .dram with rid := 8, ma := 0, cls := 1 }, 0, 0, [BitVec.ofNat 640 (1 + 2 ^ 70)], by decide +kernel⟩,
    ⟨{ dev [] with reqs := [rq .wr .queued, { rq .rd .dram with rid := 8, ma := 64, pstate := 2 }] }, 8,
      { rq .rd .dram with rid := 8, ma := 64, pstate := 2 }, 0, 0, by decide +kernel⟩⟩

/-- Hypotheses of Obligations.DramReadsAndOrder, part ChannelOrder met. -/
theorem witness_ChannelOrder :
    (∃ (s : State) (c : Fin 24),
      s.sound = true ∧ s.sweepDue c = true) ∧
    (∃ (s : State) (c : Fin 24) (r : Req),
      s.sound = true ∧ s.sweepDue c = false ∧ (∀ q ∈ s.readQueue c, s.bufferHit q = none) ∧
      (∀ k, k < 8 → ∀ o ∈ s.classOps c k, s.oversize c k (o.occ (s.chanRate c)) = false) ∧
      (s.subQueue c 0 0).find? (s.opEligible c 0) = some (.read r) ∧ s.req r.rid = some r) ∧
    (∃ (s : State) (c : Fin 24) (w : WbEntry),
      s.sound = true ∧ s.sweepDue c = false ∧ (∀ q ∈ s.readQueue c, s.bufferHit q = none) ∧
      (∀ k, k < 8 → ∀ o ∈ s.classOps c k, s.oversize c k (o.occ (s.chanRate c)) = false) ∧
      (s.subQueue c 0 0).find? (s.opEligible c 0) = some (.write w) ∧ w.enables = allBytes ∧ w.slot = none ∧
      chanOf (chanHalf c) (w.ma / 4) = c ∧ s.eff (domPolicyProt w.dom) ≠ 2 ∧ s.treeFenced w.dom w.line = false ∧
      s.flag (dmcInjCtrlArm c) = false) ∧
    (∃ (s : State) (c : Fin 24) (w : Writeback) (rest : List Writeback),
      s.sound = true ∧ s.sweepDue c = false ∧ (∀ q ∈ s.readQueue c, s.bufferHit q = none) ∧
      (∀ k, k < 8 → ∀ o ∈ s.classOps c k, s.oversize c k (o.occ (s.chanRate c)) = false) ∧ s.green0Op c = none ∧
      (s.chan c).backs = w :: rest ∧ s.maintFits c (occWrite10 (s.chanRate c)) = true ∧ chanOf (chanHalf c) (w.ma / 4) = c ∧
      s.flag (dmcInjCtrlArm c) = false) :=
  ⟨⟨{ (dev [(dmcStatusTrained 23, 1)]).updChan 23 (fun c => { c with debt := 1 }) with reqs := [{ rq .rd .channel with home := .b, ma := 11 * chanUnits * 4 }] },
      23, by decide +kernel⟩,
    ⟨{ dev [(dmcStatusTrained 23, 1)] with reqs := [rq .wr .queued, { rq .rd .channel with rid := 8, home := .b, ma := 11 * chanUnits * 4 }] },
      23, { rq .rd .channel with rid := 8, home := .b, ma := 11 * chanUnits * 4 }, by decide +kernel⟩,
    ⟨{ (dev [(dmcStatusTrained 0, 1)]).updChan 0 (fun c => { c with wb := [wbe 1, wbe 0] }) with reqs := [rq .wr .queued] },
      0, wbe 0, by decide +kernel⟩,
    ⟨{ (dev [(dmcStatusTrained 0, 1)]).updChan 0 (fun c => { c with backs := [⟨0, 5, 0⟩, ⟨1, 6, 0⟩] }) with reqs := [rq .wr .queued] },
      0, ⟨0, 5, 0⟩, [⟨1, 6, 0⟩], by decide +kernel⟩⟩

/-- Hypotheses of Obligations.RefreshAndTraining, part Refresh met. -/
theorem witness_Refresh :
    (∃ (s : State) (c : Fin 24),
      s.sound = true ∧ s.chanUp c = true ∧ (s.chan c).debt + 1 < 4) ∧
    (∃ (s : State) (c : Fin 24),
      s.sound = true ∧ s.chanUp c = true ∧ (s.chan c).debt = 3 ∧ s.mcFits c (s.sweep10 c) = false) ∧
    (∃ (s : State) (c : Fin 24),
      s.sound = true ∧ s.sweepDue c = true) ∧
    (∃ (temps : List Nat),
      temps.any (· > 85) = true) ∧
    (∃ (temps : List Nat),
      temps.all (· ≤ 83) = true) ∧
    (∃ (s : State) (c : Fin 24),
      s.sound = true ∧ s.bit hswSlotPwrPwr (2 * c.val) = true) :=
  ⟨⟨(dev [(dmcStatusTrained 23, 1)]).updChan 23 fun c => { c with debt := 2 }, 23, by decide +kernel⟩,
    ⟨((dev [(dmcStatusTrained 23, 1)]).updChan 23 fun c => { c with debt := 3 }).updSched 23 fun x => { x with gate := 0xFF },
      23, by decide +kernel⟩,
    ⟨(dev [(dmcStatusTrained 23, 1)]).updChan 23 fun c => { c with debt := 4 }, 23, by decide +kernel⟩,
    ⟨[20, 86], by decide +kernel⟩,
    ⟨[83], by decide +kernel⟩,
    ⟨dev [(dmcStatusTrained 23, 1), (hswSlotPwrPwr, 2 ^ 46)], 23, by decide +kernel⟩⟩

/-- Hypotheses of Obligations.RefreshAndTraining, part ChannelTraining met. -/
theorem witness_ChannelTraining :
    (∃ (s : State) (c : Fin 24) (m : Module),
      s.sound = true ∧ within 4 8 s.phase = true ∧ s.bit hswSlotPwrPwr (2 * c.val) = true ∧
      s.flag (dmcCfgChannelDisable c) = false ∧ s.flag (dmcStatusTrained c) = false ∧ s.fencedIn (uChannel c) = false ∧
      modSupported m = true) ∧
    (∃ (s : State) (c : Fin 24) (m n : Module),
      s.sound = true ∧ within 4 8 s.phase = true ∧ s.bit hswSlotPwrPwr (2 * c.val) = true ∧
      s.bit hswSlotPwrPwr (2 * c.val + 1) = true ∧ s.flag (dmcCfgChannelDisable c) = false ∧
      s.flag (dmcStatusTrained c) = false ∧ s.fencedIn (uChannel c) = false ∧ modSupported m = true ∧ modSupported n = true ∧
      pairOk m n = true) ∧
    (∃ (s : State) (c : Fin 24) (m n : Module),
      s.sound = true ∧ within 4 8 s.phase = true ∧ s.bit hswSlotPwrPwr (2 * c.val) = true ∧
      s.bit hswSlotPwrPwr (2 * c.val + 1) = true ∧ s.flag (dmcCfgChannelDisable c) = false ∧
      s.flag (dmcStatusTrained c) = false ∧ s.fencedIn (uChannel c) = false ∧ modSupported m = true ∧ modSupported n = true ∧
      pairOk m n = false) ∧
    (∃ (s : State) (c : Fin 24) (m : Module),
      within 4 8 s.phase = true ∧ s.bit hswSlotPwrPwr (2 * c.val) = true ∧ s.flag (dmcCfgChannelDisable c) = false ∧
      s.flag (dmcStatusTrained c) = false ∧ s.fencedIn (uChannel c) = false ∧ modSupported m = false) ∧
    (∃ (s : State),
      within 4 8 s.phase = true) ∧
    (∃ (s : State) (c : Fin 24) (k : RowKey) (rest : List RowKey),
      s.sound = true ∧ (s.chan c).pendingHard = k :: rest ∧ s.boot.memActive = false ∧ s.flag (dmcStatusTrainPath c) = true ∧
      s.flag (dmcRepairCfgHpprEn c) = true ∧ s.chanUp c = true ∧ (s.chan c).hardTried = false) :=
  ⟨⟨{ wit [(bootStatusPhase, 4), (hswSlotPwrPwr, 2 ^ 46)] with boot := { running := true } }, 23, dimm, by decide +kernel⟩,
    ⟨{ wit [(bootStatusPhase, 4), (hswSlotPwrPwr, 2 ^ 46 + 2 ^ 47)] with boot := { running := true } }, 23, dimm,
      { dimm with gib := 32, serial := 2 }, by decide +kernel⟩,
    ⟨{ wit [(bootStatusPhase, 4), (hswSlotPwrPwr, 2 ^ 46 + 2 ^ 47)] with boot := { running := true } }, 23, dimm,
      { dimm with part := 8 }, by decide +kernel⟩,
    ⟨{ wit [(bootStatusPhase, 4), (hswSlotPwrPwr, 2 ^ 46)] with boot := { running := true } }, 23, dimmX, by decide +kernel⟩,
    ⟨{ wit [(bootStatusPhase, 8), (hswSlotPwrPwr, 2 ^ 46)] with boot := { running := true } }, by decide +kernel⟩,
    ⟨{ (dev [(dmcStatusTrained 0, 1), (dmcStatusTrainPath 0, 1), (dmcRepairCfgHpprEn 0, 1)]).updChan 0 (fun c => { c with mods := [some dimm, none], pendingHard := [⟨0, 0⟩] }) with boot := { running := true } },
      0, ⟨0, 0⟩, [], by decide +kernel⟩⟩

/-- Hypotheses of Obligations.ParityAndInjection met. -/
theorem witness_ParityAndInjection :
    (∃ (s : State) (c : Fin 24),
      s.sound = true ∧ s.chanUp c = true ∧ (s.chan c).caTries < 3) ∧
    (∃ (s : State) (c : Fin 24),
      s.chanUp c = true ∧ 3 ≤ (s.chan c).caTries) ∧
    (∃ (s : State) (c : Fin 24),
      s.sound = true ∧ s.takesWrite .plain false (some (chanHalf c)) = true) :=
  ⟨⟨(dev [(dmcStatusTrained 0, 1)]).updChan 0 fun c => { c with caTries := 2 }, 0, by decide +kernel⟩,
    ⟨(dev [(dmcStatusTrained 0, 1)]).updChan 0 fun c => { c with caTries := 3 }, 0, by decide +kernel⟩,
    ⟨dev [], 23, by decide +kernel⟩⟩

/-- Hypotheses of Obligations.ScrubbingAndRepair, part ComberAndSoftRepair met. -/
theorem witness_ComberAndSoftRepair :
    (∃ (s : State) (c : Fin 24),
      s.sound = true ∧ s.combMay c = true ∧ s.combTime c (s.fld (dmcCombStatusPosition c)) ≤ s.now ∧
      s.fld (dmcCombStatusPosition c) + 1 < 2 ^ 30 ∧ s.fld (dmcCombStatusPosition c) + 1 < s.combSteps c) ∧
    (∃ (s : State) (c : Fin 24),
      s.sound = true ∧ s.combMay c = true ∧ s.combTime c (s.fld (dmcCombStatusPosition c)) ≤ s.now ∧
      s.fld (dmcCombStatusPosition c) + 1 < 2 ^ 30 ∧ s.combSteps c ≤ s.fld (dmcCombStatusPosition c) + 1) ∧
    (∃ (s : State) (c : Fin 24) (w : Writeback) (rest : List Writeback),
      s.sound = true ∧ (s.chan c).backs = w :: rest ∧ s.maintFits c (occWrite10 (s.chanRate c)) = true ∧
      chanOf (chanHalf c) (w.ma / 4) = c ∧ s.flag (dmcInjCtrlArm c) = false) ∧
    (∃ (s : State) (c : Fin 24) (k : RowKey) (rest : List RowKey),
      s.sound = true ∧ (s.chan c).softWait = k :: rest ∧ (s.chan c).soft = none ∧
      s.softRoom c (s.rowLines c k).length = true ∧ s.repairMay c = true) ∧
    (∃ (s : State) (c : Fin 24) (r : SoftRepair),
      s.sound = true ∧ (s.chan c).soft = some r ∧ r.phase = 0 ∧ s.repairMay c = true) ∧
    (∃ (s : State) (c : Fin 24) (r : SoftRepair),
      s.sound = true ∧ (s.chan c).soft = some r ∧ r.phase = 1 ∧ s.repairMay c = true ∧
      (∀ q ∈ r.lines, s.lineUse (chanHalf c) q.1 ≠ .unheld → (s.readOn (s.lineBase (s.lineUse (chanHalf c) q.1))
        (chanHalf c) q.1 0).outcome ≤ 2)) ∧
    (∃ (s : State) (c : Fin 24) (r : SoftRepair) (q : Nat × Burst),
      s.sound = true ∧ (s.chan c).soft = some r ∧ r.phase = 1 ∧ s.repairMay c = true ∧ q ∈ r.lines ∧
      s.lineUse (chanHalf c) q.1 ≠ .unheld ∧
      2 < (s.readOn (s.lineBase (s.lineUse (chanHalf c) q.1)) (chanHalf c) q.1 0).outcome) :=
  ⟨⟨{ paged .near [(dmcCombCfgEnable 0, 1)] with now := 1000 }, 0, by decide +kernel⟩,
    ⟨{ paged .near [(dmcCombCfgEnable 0, 1), (dmcCombStatusPosition 0, 64 * 2 ^ 20 - 1), (dmcCombStatusLaps 0, 2 ^ 32 - 1)] with now := 1000 },
      0, by decide +kernel⟩,
    ⟨(dev [(dmcStatusTrained 0, 1)]).updChan 0 fun c => { c with backs := [⟨0, 5, 0⟩, ⟨1, 6, 0⟩] }, 0, ⟨0, 5, 0⟩,
      [⟨1, 6, 0⟩], by decide +kernel⟩,
    ⟨(paged .near []).updChan 0 fun c => { c with softWait := [⟨0, 0⟩] }, 0, ⟨0, 0⟩, [], by decide +kernel⟩,
    ⟨(paged .near []).updChan 0 fun c => { c with soft := some ⟨⟨0, 0⟩, 0, [(64, 9), (65, 8)], 0⟩ }, 0,
      ⟨⟨0, 0⟩, 0, [(64, 9), (65, 8)], 0⟩, by decide +kernel⟩,
    ⟨(paged .near []).updChan 0 fun c => { c with soft := some ⟨⟨0, 0⟩, 1, [(64, 0), (66, 0)], 0⟩ }, 0,
      ⟨⟨0, 0⟩, 1, [(64, 0), (66, 0)], 0⟩, by decide +kernel⟩,
    ⟨{ (paged .near []).updChan 0 (fun c => { c with soft := some ⟨⟨0, 0⟩, 1, [(64, 0), (66, 0)], 0⟩ }) with dram := [(burstKey .a 64, 1)] },
      0, ⟨⟨0, 0⟩, 1, [(64, 0), (66, 0)], 0⟩, (64, 0), by decide +kernel⟩⟩

/-- Hypotheses of Obligations.ScrubbingAndRepair, part SramScrubbing met. -/
theorem witness_SramScrubbing :
    (∃ (s : State) (h : Half) (bank : Fin 256) (us longest : Nat),
      s.sound = true ∧ us < 2 ^ 32 ∧
      longest = ((s.halves.get h).laps.filter (fun q => q.1 != bank.val)).foldl (fun m q => max m q.2) us ∧ longest < 2 ^ 32 ∧
      longest ≤ s.fld dmcSramScrubCfgLapLimitUs) ∧
    (∃ (s : State) (h : Half) (bank : Fin 256) (us longest : Nat),
      s.sound = true ∧ us < 2 ^ 32 ∧
      longest = ((s.halves.get h).laps.filter (fun q => q.1 != bank.val)).foldl (fun m q => max m q.2) us ∧ longest < 2 ^ 32 ∧
      s.fld dmcSramScrubCfgLapLimitUs < longest) ∧
    (∃ (s : State),
      s.sound = true) :=
  ⟨⟨dev [], .b, 255, 1, 1, by decide +kernel⟩,
    ⟨dev [], .b, 15, 2 ^ 31, 2 ^ 31, by decide +kernel⟩,
    ⟨dev [], by decide +kernel⟩⟩

/-- Hypotheses of Obligations.TideTablesAndTelemetry, part TideTables met. -/
theorem witness_TideTables :
    (∃ (s : State) (i : Fin 26),
      s.sound = true ∧ s.takesWrite .plain false none = true ∧ s.schedOn i = true ∧ s.bit topCommitStatusSealed 2 = false ∧
      s.flag (ttStatusTakeoverPending i) = false) ∧
    (∃ (s : State) (i : Fin 26),
      s.sound = true ∧ s.takesWrite .plain false none = true ∧ s.schedOn i = true ∧ s.fld (ttStatusPendState i) ≠ 1) ∧
    (∃ (s : State) (i : Fin 26),
      s.sound = true ∧ (s.sched i).checking = true) ∧
    (∃ (s : State) (i : Fin 26),
      s.sound = true ∧ s.schedOn i = true) ∧
    (∃ (s : State) (i : Fin 26),
      s.sound = true ∧ s.flag (ttStatusTakeoverPending i) = true) :=
  ⟨⟨act [], 25, by decide +kernel⟩,
    ⟨act [], 0, by decide +kernel⟩,
    ⟨(act [(ttPendLenLen 0, 65)]).updSched 0 fun x => { x with checking := true }, 0, by decide +kernel⟩,
    ⟨act [(ttStatusActLen 3, 2), (ttActDuration 3 0, 100), (ttActGate 3 0, 1), (ttActDuration 3 1, 100), (ttActGate 3 1, 2)],
      3, by decide +kernel⟩,
    ⟨act [(ttStatusTakeoverPending 3, 1), (ttPendLenLen 3, 1), (ttPendDuration 3 0, 100), (ttPendGate 3 0, 0x1FF),
      (ttStatusDirty 3, 1)],
      3, by decide +kernel⟩⟩

/-- Hypotheses of Obligations.TideTablesAndTelemetry, part QueueTelemetry met. -/
theorem witness_QueueTelemetry :
    (∃ (s : State) (h : Half) (d : Fin 1024) (q : List Req) (n : Nat),
      s.sound = true ∧ s.flag qosTelemCfgEnable = true ∧ s.home d = h ∧
      q = s.reqs.filter (fun r => r.hasDom && r.dom == d.val && (r.stage == .queued || r.stage == .parked)) ∧ n = q.length) ∧
    (∃ (s : State),
      s.flag qosTelemCfgEnable = false) ∧
    (∃ (s : State),
      s.sound = true ∧ s.takesWrite .plain false none = true) :=
  ⟨⟨{ dev [(qosTelemCfgEnable, 1), (qosHistDomBinLo 0 8, 2 ^ 32 - 1)] with reqs := [rq .rd .channel, rq .rd .queued] }, .a,
      0, [rq .rd .queued], 1, by decide +kernel⟩,
    ⟨act [(qosTelemCfgEnable, 0)], by decide +kernel⟩,
    ⟨act [(qosHistDomBinLo 1023 0, 2 ^ 32 - 1)], by decide +kernel⟩⟩

/-- Hypotheses of Obligations.KeySlotsAndIde, part KeySlots met. -/
theorem witness_KeySlots :
    (∃ (s : State),
      s.sound = true ∧ s.takesWrite .plain false none = true ∧ s.flag protKeyResultBusy = false) ∧
    (∃ (s : State),
      s.takesWrite .plain false none = true ∧ s.flag protKeyResultBusy = true) ∧
    (∃ (s : State) (k : KeyCmd),
      s.sound = true ∧ (s.phase = 4 → s.boot.blobs = []) ∧ s.keyCmd = some k ∧ (s.loadResult k.slot k.blob).1 ≠ 0) ∧
    (∃ (s : State) (k : KeyCmd),
      s.sound = true ∧ (s.phase = 4 → s.boot.blobs = []) ∧ s.keyCmd = some k ∧ (s.loadResult k.slot k.blob).1 = 0) ∧
    (∃ (s : State) (slot : Nat),
      s.sound = true ∧ s.takesWrite .plain false none = true ∧ s.flag protKeyResultBusy = false ∧ slot ≤ 1031 ∧
      s.slotInUse slot = false) ∧
    (∃ (s : State) (slot : Nat),
      s.sound = true ∧ s.takesWrite .plain false none = true ∧ s.flag protKeyResultBusy = false ∧ slot ≤ 1031 ∧
      s.slotInUse slot = true) :=
  ⟨⟨{ act [] with wrap := [(31, 9)] }, by decide +kernel⟩,
    ⟨act [(protKeyResultBusy, 1)], by decide +kernel⟩,
    ⟨{ act [(protKeyResultBusy, 1)] with keyCmd := some ⟨1, 5, []⟩ }, ⟨1, 5, []⟩, by decide +kernel⟩,
    ⟨{ act [(protKeyResultBusy, 1)] with fuses := { devKey := 1 }, keyCmd := some ⟨1, 5, blob⟩ }, ⟨1, 5, blob⟩,
      by decide +kernel⟩,
    ⟨{ act [] with keys := [(1023, { loaded := true, version := 6 })] }, 1023, by decide +kernel⟩,
    ⟨act [], 1028, by decide +kernel⟩⟩

/-- Hypotheses of Obligations.CountersAndTrees, part CounterTree met. -/
theorem witness_CounterTree :
    (∃ (s : State) (h : Half) (d : Fin 1024) (level idx e : Nat),
      s.sound = true ∧ s.eff (domPolicyProt d) = 2 ∧ s.home d = h ∧ level + 1 < s.top d ∧
      s.trusted h d (level + 1) (idx / 8) = true ∧ s.mcSets h ≠ 0 ∧ e = idx * 8 ^ level / 512 ∧
      (level ≤ 3 → s.inCache h (.dir d (e / 8)) = true ∧ (s.area d e).isSome = true) ∧
      childTag (s.node d (level + 1) (idx / 8)) (idx % 8) = 0) ∧
    (∃ (s : State) (h : Half) (d : Fin 1024) (level idx e ma : Nat) (errs : List Burst) (line : Line),
      s.sound = true ∧ s.eff (domPolicyProt d) = 2 ∧ s.home d = h ∧ 0 < level ∧ level ≤ 3 ∧ level + 1 < s.top d ∧
      s.trusted h d (level + 1) (idx / 8) = true ∧ s.trusted h d level idx = false ∧ s.mcSets h ≠ 0 ∧
      e = idx * 8 ^ level / 512 ∧ s.inCache h (.dir d (e / 8)) = true ∧ (s.area d e).isSome = true ∧
      childTag (s.node d (level + 1) (idx / 8)) (idx % 8) ≠ 0 ∧ s.metaPlaces (nodeName d level idx) = [ma] ∧
      s.mediaLost h (ma / 4) = false ∧ s.subtree d level idx = none ∧
      (s.readOn (encodeLine (BitVec.ofNat 512 (ofLeB (s.nodeBytes d level idx))) false) h ma (errs.headD 0)).outcome = 1 ∧
      (s.readOn (encodeLine (BitVec.ofNat 512 (ofLeB (s.nodeBytes d level idx))) false) h ma (errs.headD 0)).line = line ∧
      s.nodeTag d level idx (leB 64 line.toNat) = childTag (s.node d (level + 1) (idx / 8)) (idx % 8)) ∧
    (∃ (s : State) (h : Half) (d : Fin 1024) (level idx e ma : Nat) (errs : List Burst) (line : Line),
      s.sound = true ∧ s.eff (domPolicyProt d) = 2 ∧ s.home d = h ∧ 0 < level ∧ level ≤ 3 ∧ level + 1 < s.top d ∧
      s.trusted h d (level + 1) (idx / 8) = true ∧ s.trusted h d level idx = false ∧ s.mcSets h ≠ 0 ∧
      e = idx * 8 ^ level / 512 ∧ s.inCache h (.dir d (e / 8)) = true ∧ (s.area d e).isSome = true ∧
      childTag (s.node d (level + 1) (idx / 8)) (idx % 8) ≠ 0 ∧ s.metaPlaces (nodeName d level idx) = [ma] ∧
      s.mediaLost h (ma / 4) = false ∧ s.subtree d level idx = none ∧
      (s.readOn (encodeLine (BitVec.ofNat 512 (ofLeB (s.nodeBytes d level idx))) false) h ma (errs.headD 0)).outcome = 1 ∧
      (s.readOn (encodeLine (BitVec.ofNat 512 (ofLeB (s.nodeBytes d level idx))) false) h ma (errs.headD 0)).line = line ∧
      s.nodeTag d level idx (leB 64 line.toNat) ≠ childTag (s.node d (level + 1) (idx / 8)) (idx % 8)) ∧
    (∃ (s : State) (h : Half) (d : Fin 1024) (level idx e ma : Nat) (errs : List Burst),
      s.sound = true ∧ s.eff (domPolicyProt d) = 2 ∧ s.home d = h ∧ 0 < level ∧ level ≤ 3 ∧ level + 1 < s.top d ∧
      s.trusted h d (level + 1) (idx / 8) = true ∧ s.trusted h d level idx = false ∧ s.mcSets h ≠ 0 ∧
      e = idx * 8 ^ level / 512 ∧ s.inCache h (.dir d (e / 8)) = true ∧ (s.area d e).isSome = true ∧
      childTag (s.node d (level + 1) (idx / 8)) (idx % 8) ≠ 0 ∧ s.metaPlaces (nodeName d level idx) = [ma] ∧
      s.mediaLost h (ma / 4) = false ∧ s.subtree d level idx = none ∧
      (s.readOn (encodeLine (BitVec.ofNat 512 (ofLeB (s.nodeBytes d level idx))) false) h ma (errs.headD 0)).outcome = 5 ∧
      (s.readOn (encodeLine (BitVec.ofNat 512 (ofLeB (s.nodeBytes d level idx))) false) h ma
        (errs.tail.headD 0)).outcome = 5) ∧
    (∃ (s : State) (h : Half) (d : Fin 1024) (page : Nat) (w : WbEntry),
      s.sound = true ∧ s.home d = h ∧ s.locked d page = false ∧
      (s.chan (chanOf h (s.pageNow d page).addr)).wb.find?
        (fun w => w.dom == d.val && w.line / 64 == page && w.slot.isNone) = some w ∧
      chanOf h (w.ma / 4) = chanOf h (s.pageNow d page).addr ∧ chanOf h (w.ma / 4) < 24 ∧ s.atRollover d w.line = true ∧
      s.rollMay (chanOf h (w.ma / 4)) w = true ∧ s.treeFenced d w.line = false ∧ (s.ctr d page).major < 2 ^ 64 - 2 ∧
      chanHalf (chanOf h (w.ma / 4)) = h) ∧
    (∃ (s : State) (d : Fin 1024) (errs : List Burst),
      s.sound = true ∧ s.top d ≠ 0 ∧
      (decodeBurst (encodeLine (s.node d (s.top d) 0) false ^^^ errs.headD 0)).outcome = 1 ∨ (decodeBurst (encodeLine
        (s.node d (s.top d) 0) false ^^^ errs.headD 0)).outcome = 3) ∧
    (∃ (s : State) (d : Fin 1024) (errs : List Burst),
      s.sound = true ∧ s.top d ≠ 0 ∧ (decodeBurst (encodeLine (s.node d (s.top d) 0) false ^^^ errs.headD 0)).outcome = 5) :=
  ⟨⟨{ tree0 with mcache := ⟨[{ key := .dir 0 0, used := false, dirty := false }, { key := .node 0 1 0, used := false, dirty := false }], []⟩, reqs := [{ rq .rd .ctrWait with line := 70 }] },
      .a, 0, 0, 1, 0, by decide +kernel⟩,
    ⟨{ tree0 with reqs := [rq .rd .ctrWait] }, .a, 0, 2, 0, 0, 8192 * 4 + 4672, [], node2, by decide +kernel⟩,
    ⟨{ tree0 with reqs := [rq .rd .ctrWait] }, .a, 0, 2, 0, 0, 8192 * 4 + 4672, [encodeLine 1 false], node2 ^^^ 1,
      by decide +kernel⟩,
    ⟨{ tree0 with reqs := [rq .rd .ctrWait] }, .a, 0, 2, 0, 0, 8192 * 4 + 4672,
      [BitVec.ofNat 640 (1 + 2 ^ 70), BitVec.ofNat 640 (1 + 2 ^ 70)], by decide +kernel⟩,
    ⟨{ roll with reqs := [rq .rd .channel] }, .a, 0, 0,
      { ma := 0, dom := 0, line := 0, data := 77, enables := allBytes, poison := false, cls := 0, color := 0, external := false, after := [], since := 0 },
      by decide +kernel⟩,
    ⟨{ dev [((domPolicyProt 0).eff, 2)] with reqs := [rq .rd .ctrWait] }, 0, [], by decide +kernel⟩,
    ⟨{ dev [((domPolicyProt 0).eff, 2)] with reqs := [rq .rd .ctrWait] }, 0, [BitVec.ofNat 640 (1 + 2 ^ 70)],
      by decide +kernel⟩⟩

/-- Hypotheses of Obligations.CountersAndTrees, part LostSubtrees met. -/
theorem witness_LostSubtrees :
    (∃ (s : State) (h : Half) (d : Fin 1024) (level idx : Nat) (f : Subtree),
      s.sound = true ∧ s.subtree d level idx = some f ∧ f.phase = 0 ∧ s.home d = h ∧ 0 < level ∧
      s.treeMay h d level idx = true) ∧
    (∃ (s : State) (h : Half) (d : Fin 1024) (level idx page : Nat) (f : Subtree),
      s.sound = true ∧ s.subtree d level idx = some f ∧ f.phase ≠ 0 ∧ s.home d = h ∧ f.covers page = true ∧
      f.done.contains page = false ∧ s.locked d page = false ∧ s.treeMay h d 0 page = true ∧
        (s.pageNow d page).state = .near) ∧
    (∃ (s : State) (h : Half) (d : Fin 1024) (level idx : Nat) (f : Subtree),
      s.sound = true ∧ s.subtree d level idx = some f ∧ f.phase ≠ 0 ∧ s.home d = h ∧ s.treeMay h d level idx = true ∧
      (∀ q ∈ s.pagesOf d, f.covers q.1 = true → q.2.state = .zero ∨ f.done.contains q.1 = true) ∧
      (∀ q ∈ s.extsOf d, q.2.kind = .frame → ∀ i, i < 512 → f.covers (q.1 * 512 + i) = true → f.done.contains
        (q.1 * 512 + i) = true)) :=
  ⟨⟨{ dev [((domPolicyProt 0).eff, 2)] with reqs := [rq .rd .lockWait], prot := [(0, { fences := [{ level := 1, idx := 0, phase := 0, done := [], major := 1 }] })] },
      .a, 0, 1, 0, { level := 1, idx := 0, phase := 0, done := [], major := 1 }, by decide +kernel⟩,
    ⟨{ dev [((domPolicyProt 0).eff, 2)] with reqs := [rq .rd .lockWait], prot := [(0, { fences := [{ level := 1, idx := 0, phase := 1, done := [], major := 1 }] })], extents := [(0, { kind := .frame })] },
      .a, 0, 1, 0, 7, { level := 1, idx := 0, phase := 1, done := [], major := 1 }, by decide +kernel⟩,
    ⟨{ dev [((domPolicyProt 0).eff, 2)] with reqs := [rq .rd .lockWait], prot := [(0, { fences := [{ level := 1, idx := 0, phase := 1, done := [7], major := 1 }] })], ctrs := [(7, { major := 2 })] },
      .a, 0, 1, 0, { level := 1, idx := 0, phase := 1, done := [7], major := 1 }, by decide +kernel⟩⟩

/-- Hypotheses of Obligations.KeySlotsAndIde, part IdeIntegrity met. -/
theorem witness_IdeIntegrity :
    (∃ (s : State),
      s.sound = true) :=
  ⟨{ up 15 (act []) with reqs := [rq .rd .channel] }, by decide +kernel⟩

/-- Hypotheses of Obligations.StaticSets met. -/
theorem witness_StaticSets :
    (∃ (s : State),
      s.sound = true ∧ s.takesWrite .plain false none = true) :=
  ⟨act [], by decide +kernel⟩

/-- Hypotheses of Obligations.CompressionAndChunks, part PageCompression met. -/
theorem witness_PageCompression :
    (∃ (s u : State) (h : Half) (d : Fin 1024) (page : Nat) (errs rest : List Burst) (cluster : Fin 8) (streams : List
      (List Byte)) (pick k : Nat) (ls : List (Line × Bool)),
      s.sound = true ∧ s.mayCompress h d page cluster ∧
      ((s.takeOffer h d page).took (chanOf h (s.pageNow d page).addr) 1).readPageLines h d page
        (s.pageNow d page).addr errs = (ls, rest, u) ∧
      ls.any (·.2) = false ∧ u.eff (domPolicyShgTableMode d) ≠ 0 ∧ u.effFlag (domPolicyVerifyRecheck d) = false ∧
      u.flag shgHistCtrlEnable = false ∧ s.effFlag (domPolicyVerifyRecheck d) = false ∧
      slotClass (chunkStreams (pageBytes ls) streams).flatten.length = some k ∧ (u.takeSlot h k pick none).isSome = true) ∧
    (∃ (s : State) (h : Half) (d : Fin 1024) (page : Nat) (j : CompJob),
      s.sound = true ∧ (s.shg.get h).comps.find? (fun j => j.dom == d.val && j.page == page) = some j ∧
      s.locked d page = false ∧ j.dirtied = false ∧ (s.ext d (page / 512)).kind = .paged ∧ (s.page d page).state = .near ∧
      (s.page d page).addr = j.frame ∧ j.placed = true ∧ s.writesPast d page = false ∧ s.lockFree h = true ∧
      (∀ x ∈ s.reqs, ¬ x.waitsAt5 h d page)) ∧
    (∃ (s : State) (h : Half) (d : Fin 1024) (page : Nat) (j : CompJob),
      s.sound = true ∧ (s.shg.get h).comps.find? (fun j => j.dom == d.val && j.page == page) = some j ∧
      s.locked d page = false ∧ j.dirtied = true) :=
  ⟨⟨comp0, read0.2.2, .a, 0, 1, [], read0.2.1, 0, [[], [], [], []], 0, 1, read0.1, by decide +kernel, by decide +kernel,
      read0_eta, read0_clean, read0_mode, read0_recheck, read0_hist, by decide +kernel, read0_class, read0_slot⟩,
    ⟨{ paged .near [] with shg := ⟨{ comps := [{ cjob with dom := 1 }, cjob] }, {}⟩ }, .a, 0, 1, cjob, by decide +kernel⟩,
    ⟨{ paged .near [] with shg := ⟨{ comps := [{ cjob with dom := 1 }, { cjob with dirtied := true }] }, {}⟩ }, .a, 0, 1,
      { cjob with dirtied := true }, by decide +kernel⟩⟩

/-- Hypotheses of Obligations.CompressionAndChunks, part ChunkDecodes met. -/
theorem witness_ChunkDecodes :
    (∃ (s : State) (h : Half) (d : Fin 1024) (page : Nat) (chunk : Fin 4) (cluster : Fin 8) (r : Req) (p id : Nat)
      (rid : Fin 65536) (ls : List Line),
      s.sound = true ∧ s.req rid = some r ∧ r.org = .host p id ∧ r.waitsChunk h d page chunk ∧
      (s.shg.get h).redecodes.any (fun x => x.dom == d.val && x.page == page && x.rid == some rid.val && x.chunk == chunk.val) = false ∧
      s.otherCluster h none = true ∧ s.fenced (uDecomp h.idx cluster) = false ∧
      s.granted h d page (some rid.val) chunk = true ∧ (s.decode r.slotLines chunk false).toOption = some ls) ∧
    (∃ (s : State) (h : Half) (d : Fin 1024) (page : Nat) (chunk : Fin 4) (cluster : Fin 8) (r : Req) (p id : Nat)
      (rid : Fin 65536),
      s.sound = true ∧ s.req rid = some r ∧ r.org = .host p id ∧ r.waitsChunk h d page chunk ∧
      (s.shg.get h).redecodes.any (fun x => x.dom == d.val && x.page == page && x.rid == some rid.val && x.chunk == chunk.val) = false ∧
      s.otherCluster h none = true ∧ s.fenced (uDecomp h.idx cluster) = false ∧
      s.granted h d page (some rid.val) chunk = true ∧ s.flag shgCfgRedecodeEn = true ∧
      s.otherCluster h (some cluster.val) = true) ∧
    (∃ (s : State) (h : Half) (d : Fin 1024) (page : Nat) (chunk : Fin 4) (cluster : Fin 8) (r : Req) (p id : Nat)
      (rid : Fin 65536),
      s.sound = true ∧ s.req rid = some r ∧ r.org = .host p id ∧ r.waitsChunk h d page chunk ∧
      (s.shg.get h).redecodes.any (fun x => x.dom == d.val && x.page == page && x.rid == some rid.val && x.chunk == chunk.val) = false ∧
      s.otherCluster h none = true ∧ s.fenced (uDecomp h.idx cluster) = false ∧
      s.granted h d page (some rid.val) chunk = true ∧ s.flag shgCfgRedecodeEn = false) ∧
    (∃ (s : State) (h : Half) (d : Fin 1024) (page : Nat) (chunk : Fin 4) (cluster : Fin 8) (r : Req) (p id : Nat)
      (rid : Fin 65536) (x : Redecode) (ls : List Line),
      s.sound = true ∧ s.req rid = some r ∧ r.org = .host p id ∧ r.waitsChunk h d page chunk ∧
      (s.shg.get h).redecodes.find? (fun x => x.dom == d.val && x.page == page && x.rid == some rid.val && x.chunk == chunk.val) = some x ∧
      x.cluster ≠ cluster ∧ s.otherCluster h (some x.cluster) = true ∧ s.fenced (uDecomp h.idx cluster) = false ∧
      s.granted h d page (some rid.val) chunk = true ∧ (s.decode r.slotLines chunk false).toOption = some ls ∧
      ((s.shg.get h).faults.filter (fun q => q.1 == uDecomp h.idx x.cluster)).length < 2) ∧
    (∃ (s : State) (h : Half) (d : Fin 1024) (page : Nat) (chunk : Fin 4) (cluster : Fin 8) (r : Req) (p id : Nat)
      (rid : Fin 65536) (x : Redecode),
      s.sound = true ∧ s.req rid = some r ∧ r.org = .host p id ∧ r.waitsChunk h d page chunk ∧
      (s.shg.get h).redecodes.find? (fun x => x.dom == d.val && x.page == page && x.rid == some rid.val && x.chunk == chunk.val) = some x ∧
      x.cluster ≠ cluster ∧ s.otherCluster h (some x.cluster) = true ∧ s.fenced (uDecomp h.idx cluster) = false ∧
      s.granted h d page (some rid.val) chunk = true) :=
  ⟨⟨{ paged .shingle [(shgCfgRedecodeEn, 1)] with reqs := [rq .rd .lockWait, { chunkRq with rid := 9 }] }, .a, 0, 1, 0, 7,
      { chunkRq with rid := 9 }, 0, 0, 9, List.replicate 16 0, by decide +kernel⟩,
    ⟨{ paged .shingle [(shgCfgRedecodeEn, 1)] with reqs := [rq .rd .lockWait, { chunkRq with rid := 9 }] }, .a, 0, 1, 0, 7,
      { chunkRq with rid := 9 }, 0, 0, 9, by decide +kernel⟩,
    ⟨{ paged .shingle [(shgCfgRedecodeEn, 0)] with reqs := [rq .rd .lockWait, { chunkRq with rid := 9 }] }, .a, 0, 1, 0, 7,
      { chunkRq with rid := 9 }, 0, 0, 9, by decide +kernel⟩,
    ⟨{ paged .shingle [(shgCfgRedecodeEn, 1)] with reqs := [rq .rd .lockWait, { chunkRq with rid := 9 }], shg := ⟨{ redecodes := [⟨0, 2, 16, some 9, 0, eIllegal, 7⟩, ⟨0, 1, 16, some 9, 0, eIllegal, 7⟩] }, {}⟩ },
      .a, 0, 1, 0, 0, { chunkRq with rid := 9 }, 0, 0, 9, ⟨0, 1, 16, some 9, 0, eIllegal, 7⟩, List.replicate 16 0,
      by decide +kernel⟩,
    ⟨{ paged .shingle [(shgCfgRedecodeEn, 1)] with reqs := [rq .rd .lockWait, { chunkRq with rid := 9 }], shg := ⟨{ redecodes := [⟨0, 2, 16, some 9, 0, eIllegal, 7⟩, ⟨0, 1, 16, some 9, 0, eIllegal, 7⟩] }, {}⟩ },
      .a, 0, 1, 0, 0, { chunkRq with rid := 9 }, 0, 0, 9, ⟨0, 1, 16, some 9, 0, eIllegal, 7⟩, by decide +kernel⟩⟩

/-- Hypotheses of Obligations.Promotions met. -/
theorem witness_Promotions :
    (∃ (s u : State) (r : Req) (rid : Fin 65536) (pick a : Nat),
      s.sound = true ∧ s.req rid = some r ∧ r.stage = .promoteWait ∧ s.locked r.dom (r.line / 64) = false ∧
      (s.pageNow r.dom (r.line / 64)).state = .shingle ∧ s.treeFenced r.dom r.line = false ∧
      s.serves (chanOf r.home (s.pageNow r.dom (r.line / 64)).addr) = true ∧ s.lockFree r.home = true ∧
      s.ctrReady r.dom r.line = true ∧ s.alloc r.home 16 16 (.frame r.dom (r.line / 64)) pick none = some (a, u)) ∧
    (∃ (s : State) (r : Req) (p id : Nat) (rid : Fin 65536) (pick : Nat),
      s.sound = true ∧ s.req rid = some r ∧ r.org = .host p id ∧ r.stage = .promoteWait ∧
      s.locked r.dom (r.line / 64) = false ∧ (s.pageNow r.dom (r.line / 64)).state = .shingle ∧
      s.treeFenced r.dom r.line = false ∧ s.serves (chanOf r.home (s.pageNow r.dom (r.line / 64)).addr) = true ∧
      s.lockFree r.home = true ∧ s.ctrReady r.dom r.line = true ∧
      s.alloc r.home 16 16 (.frame r.dom (r.line / 64)) pick none = none ∧ s.mirroring r.dom = false ∧
      s.mState r.dom ≠ mPriSolo ∧ (∀ x ∈ s.reqs, ¬ x.waitsAt5 r.home r.dom (r.line / 64))) ∧
    (∃ (s u : State) (h : Half) (d : Fin 1024) (page pick a : Nat),
      s.sound = true ∧
      ((s.mover.get h).errPromotes.contains (d.val, page) || (s.mover.get h).promotes.contains (d.val, page)) = true ∧
      s.locked d page = false ∧ (s.pageNow d page).state = .shingle ∧ s.serves (chanOf h (s.pageNow d page).addr) = true ∧
      s.treeFenced d (page * 64) = false ∧ s.ctrReady d (page * 64) = true ∧ s.lockFree h = true ∧
      s.moverMay h (chanOf h (s.pageNow d page).addr) (if (s.mover.get h).errPromotes.contains (d.val,
        page) then 2 else 5) = true ∧
      s.alloc h 16 16 (.frame d page) pick none = some (a, u)) ∧
    (∃ (s : State) (h : Half) (d : Fin 1024) (page : Nat) (p : Promo),
      s.sound = true ∧ (s.shg.get h).promos.find? (fun p => p.dom == d.val && p.page == page) = some p ∧ p.rid = none ∧
      p.chunks.any Option.isNone = false ∧ s.serves (chanOf h p.frame) = true ∧ s.softRoom (chanOf h p.frame) 64 = true ∧
      (s.eff (domPolicyProt d) = 2 → s.slotReads d page = false) ∧ (s.ext d (page / 512)).kind = .paged ∧
      (∀ x ∈ s.reqs, ¬ x.waitsAt5 h d page)) ∧
    (∃ (s : State) (h : Half) (d : Fin 1024) (page : Nat) (p : Promo) (r : Req) (port id : Nat),
      s.sound = true ∧ (s.shg.get h).promos.find? (fun p => p.dom == d.val && p.page == page) = some p ∧ p.rid = some r.rid ∧
      p.chunks.any Option.isNone = false ∧ s.req r.rid = some r ∧ r.org = .host port id ∧ r.dom = d ∧ r.stage = .promoting ∧
      s.serves (chanOf h p.frame) = true ∧
      (s.chan (chanOf h p.frame)).wb.length + 64 ≤ (if r.green0 then 512 else 512 - s.fld rqCfgQc0WbReserve) ∧
      (s.eff (domPolicyProt d) = 2 → s.slotReads d page = false) ∧ s.mirHeld d = false ∧ s.mirroring d = false ∧
      s.mState d ≠ mPriSolo ∧ (∀ x ∈ s.reqs, ¬ x.waitsAt5 h d page)) :=
  ⟨⟨prom0, gotState prom0 (prom0.alloc .a 16 16 (.frame 0 1) 64 none), rq .wr .promoteWait, 7, 64,
      gotUnit (prom0.alloc .a 16 16 (.frame 0 1) 64 none), by decide +kernel⟩,
    ⟨{ dev [(dmcStatusTrained 0, 1)] with reqs := [{ rq .rd .channel with rid := 9 }, rq .wr .promoteWait], extents := [(0, { kind := .paged })], pages := [(1, { state := .shingle, cls := 1, addr := 16 })] },
      rq .wr .promoteWait, 0, 0, 7, 64, by decide +kernel⟩,
    ⟨prom1, gotState prom1 (prom1.alloc .a 16 16 (.frame 0 1) 64 none), .a, 0, 1, 64,
      gotUnit (prom1.alloc .a 16 16 (.frame 0 1) 64 none), by decide +kernel⟩,
    ⟨{ paged .shingle [] with shg := ⟨{ promos := [⟨0, 2, none, 32, 1, 80, zeroSlot, List.replicate 4 none, true⟩, ⟨0, 1, none, 16, 1, 64, zeroSlot, List.replicate 4 (some none), true⟩] }, {}⟩, locks := [⟨.a, 0, 1⟩] },
      .a, 0, 1, ⟨0, 1, none, 16, 1, 64, zeroSlot, List.replicate 4 (some none), true⟩, by decide +kernel⟩,
    ⟨{ paged .shingle [] with reqs := [{ rq .rd .channel with rid := 9 }, rq .wr .promoting], shg := ⟨{ promos := [⟨0, 1, some 7, 16, 1, 64, zeroSlot, List.replicate 4 (some (some (List.replicate 16 0))), false⟩] }, {}⟩, locks := [⟨.a, 0, 1⟩] },
      .a, 0, 1, ⟨0, 1, some 7, 16, 1, 64, zeroSlot, List.replicate 4 (some (some (List.replicate 16 0))), false⟩,
      rq .wr .promoting, 0, 0, by decide +kernel⟩⟩

/-- Hypotheses of Obligations.ExtentTablesAndZero, part ExtentTables met. -/
theorem witness_ExtentTables :
    (∃ (s : State),
      s.sound = true ∧ s.takesWrite .plain false none = true ∧ s.bit topCommitStatusSealed 0 = false) ∧
    (∃ (s : State),
      s.takesWrite .plain false none = true ∧ s.bit topCommitStatusSealed 0 = true) ∧
    (∃ (s u v : State) (d : Fin 1024) (h : Half) (size n pick1 pick2 a b : Nat),
      s.sound = true ∧ (s.map d).staging = some size ∧ h = halfOf (s.fld (domCtrlHomeHalf d)) ∧
      n = tableUnits size (s.fld (domPolicyProt d)) ∧ s.alloc h n 16 (.extTable d 0) pick1 none = some (a, u) ∧
      u.alloc h n 16 (.extTable d 1) pick2 (some (chanOf h a)) = some (b, v)) ∧
    (∃ (s : State) (d : Fin 1024) (size pick1 : Nat),
      (s.map d).staging = some size ∧
      s.alloc (halfOf (s.fld (domCtrlHomeHalf d))) (tableUnits size (s.fld (domPolicyProt d))) 16
        (.extTable d 0) pick1 none = none) :=
  ⟨⟨act [], by decide +kernel⟩,
    ⟨act [(topCommitStatusSealed, 1)], by decide +kernel⟩,
    ⟨stg, gotState stg (stg.alloc .a (tableUnits 4 1) 16 (.extTable 0 0) 0 none),
      gotState stg ((gotState stg (stg.alloc .a (tableUnits 4 1) 16 (.extTable 0 0) 0 none)).alloc .a (tableUnits 4 1) 16
        (.extTable 0 1) 0 (some 0)),
      0, .a, 4, tableUnits 4 1, 0, 0, gotUnit (stg.alloc .a (tableUnits 4 1) 16 (.extTable 0 0) 0 none),
      gotUnit ((gotState stg (stg.alloc .a (tableUnits 4 1) 16 (.extTable 0 0) 0 none)).alloc .a (tableUnits 4 1) 16
        (.extTable 0 1) 0 (some 0)),
      by decide +kernel⟩,
    ⟨{ dev [] with maps := [(0, { staging := some 4 })] }, 0, 4, 0, by decide +kernel⟩⟩

/-- Hypotheses of Obligations.ExtentTablesAndZero, part MapZero met. -/
theorem witness_MapZero :
    (∃ (s : State),
      s.sound = true ∧ s.takesWrite .plain false none = true ∧ s.fld mapZeroStatusState ≠ 1) ∧
    (∃ (s : State) (z : ZeroRun),
      s.sound = true ∧ s.zero = some z ∧ z.dom < 1024 ∧ z.next < z.stop ∧
      (z.held = true ∨ s.zeroWaits z.dom z.next 1 = false) ∧ s.linesBusy z.dom (z.next * 64) 64 = false ∧
      s.mirHeld z.dom = false ∧ s.mirroring z.dom = false ∧ s.mState z.dom ≠ mPriSolo ∧
      (∀ x ∈ s.reqs, ¬ x.waitsAt5 (s.home z.dom) z.dom z.next) ∧ (s.ext z.dom (z.next / 512)).kind = .paged ∧
      (s.ext z.dom (z.next / 512)).moving = false ∧ (s.page z.dom z.next).state = .near) ∧
    (∃ (s : State) (i : DrainItem) (item : Nat),
      s.sound = true ∧ s.drains.find? (fun i => i.id == item) = some i ∧ i.waits = [] ∧ i.slots = [] ∧ i.dom < 1024) :=
  ⟨⟨dev [(mapZeroArg0Domain, 0), (mapZeroArg0FirstPage, 2047), (mapZeroArg1Count, 1)], by decide +kernel⟩,
    ⟨{ paged .near [] with zero := some ⟨0, 1, 3, [], false, none, false⟩, reqs := [{ rq .rd .queued with line := 7 }] },
      ⟨0, 1, 3, [], false, none, false⟩, by decide +kernel⟩,
    ⟨{ med [(domStatusDraining 0, 1)] with drains := [⟨3, .a, 0, [], true, []⟩, ⟨4, .a, 0, [], false, []⟩], media := [⟨.a, 16, 16, .draining 4⟩] },
      ⟨4, .a, 0, [], false, []⟩, 4, by decide +kernel⟩⟩

/-- Hypotheses of Obligations.MapAndTierSettings, part MapStructures met. -/
theorem witness_MapStructures :
    (∃ (s u : State) (c : Fin 24) (d e : Nat) (rest : List (Nat × Nat)),
      s.sound = true ∧ d < 1024 ∧
      s.walks.find? (fun w => w.channel == c.val) = some { channel := c, todo := (d, e) :: rest } ∧ s.walkMay c d e = true ∧
      s.area d e = none ∧ (s.ext d e).kind = .frame ∧ (s.frameMoves.any fun m => m.dom == d && m.ext == e) = false ∧
      chanOf (s.home d) (s.ext d e).addr = c ∧
      (match s.tableChan d with | some k => s.took k 1 | none => s).readTable (s.home d) d e = u ∧
        (u.ext d e).kind = .frame) ∧
    (∃ (s u v : State) (d : Fin 1024) (e pick b : Nat) (x : Extent),
      s.sound = true ∧ s.ext d e = x ∧ x.kind = .paged ∧ s.mediaLost (s.home d) x.addr = false ∧ x.copy2 = none ∧
      s.extMoving d e = false ∧ s.copyMay (s.home d) x.addr = true ∧
      (s.took (chanOf (s.home d) x.addr) 1).readTable (s.home d) d e = u ∧
      u.alloc (s.home d) 16 16 (.pageTable d e 1) pick (some (chanOf (s.home d) x.addr)) = some (b, v)) ∧
    (∃ (s u : State) (d : Fin 1024) (pick a b : Nat),
      s.sound = true ∧ (s.map d).table1 = some a ∧ (s.map d).table2 = none ∧ a < 2 ^ 40 ∧ s.mediaLost (s.home d) a = false ∧
      s.copyMay (s.home d) a = true ∧
      ((s.took (chanOf (s.home d) a) 1).forget (s.home d) []).alloc (s.home d) (tableUnits (s.map d).extents (s.eff
        (domPolicyProt d))) 16 (.extTable d 1) pick (some (chanOf (s.home d) a)) = some (b, u)) ∧
    (∃ (s u : State) (d : Fin 1024) (e pick a : Nat),
      s.sound = true ∧ s.unmade d e = true ∧ s.extLocked d e = false ∧ s.extBusy d e = false ∧
      ((s.ext d e).kind = .unmapped ∨ (s.ext d e).kind = .zero) ∧
      (s.needArea d e).bind (fun w => w.alloc (s.home d) extUnits extUnits (.bigFrame d e) pick none) = some (a, u) ∧
      s.moverMay (s.home d) (chanOf (s.home d) a) 3 = true) ∧
    (∃ (s : State) (h : Half),
      s.sound = true ∧ s.reqs.any (fun r => r.pastMap && r.home == h && !r.answered) = false) :=
  ⟨⟨wlk, (wlk.took 0 1).readTable .a 0 0, 0, 0, 0, [(0, 3)], by decide +kernel, by decide +kernel, by decide +kernel,
      by decide +kernel, by decide +kernel, by decide +kernel, by decide +kernel, by decide +kernel, rfl, by decide +kernel⟩,
    ⟨reb, (reb.took 0 1).readTable .a 0 0,
      gotState reb (((reb.took 0 1).readTable .a 0 0).alloc .a 16 16 (.pageTable 0 0 1) 0 (some 0)), 0, 0, 0,
      gotUnit (((reb.took 0 1).readTable .a 0 0).alloc .a 16 16 (.pageTable 0 0 1) 0 (some 0)),
      { kind := .paged, addr := 4096 }, by decide +kernel, by decide +kernel, by decide +kernel, by decide +kernel,
      by decide +kernel, by decide +kernel, by decide +kernel, rfl, by decide +kernel⟩,
    ⟨ret, gotState ret (((ret.took 0 1).forget .a []).alloc .a (tableUnits 4 1) 16 (.extTable 0 1) 0 (some 0)), 0, 0, 16,
      gotUnit (((ret.took 0 1).forget .a []).alloc .a (tableUnits 4 1) 16 (.extTable 0 1) 0 (some 0)), by decide +kernel⟩,
    ⟨mat, gotState mat (mat.alloc .a extUnits extUnits (.bigFrame 0 1) 0 none), 0, 1, 0,
      gotUnit (mat.alloc .a extUnits extUnits (.bigFrame 0 1) 0 none), by decide +kernel⟩,
    ⟨{ med [] with media := [⟨.b, 16, 16, .orphan⟩, ⟨.a, 16, 16, .frame 0 1⟩], reqs := [rq .rd .channel] }, .b,
      by decide +kernel⟩⟩

/-- Hypotheses of Obligations.ConversionsMovesAndVisits, part ConversionsAndMoves met. -/
theorem witness_ConversionsAndMoves :
    (∃ (s u : State) (d : Fin 1024) (e pick : Nat),
      s.sound = true ∧ cellsWf (fun _ => ({} : Page)) s.pages = true ∧ s.domOn d = true ∧ s.eff (domPolicyTclass d) ≠ 0 ∧
      s.extLocked d e = false ∧ (s.ext d e).kind = .frame ∧ s.eff (domPolicyTier d) = 2 ∧
      s.moverMay (s.home d) (chanOf (s.home d) (s.ext d e).addr) 7 = true ∧ s.splitExt d e pick = some u) ∧
    (∃ (s : State) (d : Fin 1024) (e b : Nat),
      s.sound = true ∧ s.domOn d = true ∧ s.eff (domPolicyTclass d) ≠ 0 ∧ s.joinBase d e = some b ∧
      s.fld (tierStatusLevel (s.home d).idx) = 0 ∧ s.mediaLost (s.home d) b = false ∧
      s.moverMay (s.home d) (chanOf (s.home d) b) 7 = true) ∧
    (∃ (s : State) (c : Fin 24) (r : Nat) (rest : List Nat),
      s.sound = true ∧ (s.chan c).retiring = r :: rest ∧ (s.chan c).retired.contains r = false ∧
      s.media.filter (fun b => b.half == chanHalf c && overlaps b.base b.len
        (c % 12 * chanUnits + r * rangeUnits) rangeUnits) = []) ∧
    (∃ (s u : State) (c : Fin 24) (r d p pick a : Nat) (rest : List Nat) (b : MediaBlk),
      s.sound = true ∧ (s.chan c).retiring = r :: rest ∧ b.owner = .frame d p ∧ d < 1024 ∧ s.home d = chanHalf c ∧
      (s.media.filter (fun b => b.half == chanHalf c && overlaps b.base b.len
        (c % 12 * chanUnits + r * rangeUnits) rangeUnits)).find? (fun b => !s.blockHeld (chanHalf c) b) = some b ∧
      s.moverMay (chanHalf c) c 1 = true ∧ (s.ext d (p / 512)).kind = .paged ∧ (s.page d p).state = .near ∧
      (s.page d p).addr = b.base ∧ (s.took c 1).alloc (chanHalf c) 16 16 b.owner pick none = some (a, u)) :=
  ⟨⟨spl, (spl.splitExt 0 0 16384).getD spl, 0, 0, 16384, by decide +kernel, by decide +kernel, by decide +kernel,
      by decide +kernel, by decide +kernel, by decide +kernel, by decide +kernel, by decide +kernel,
      some_getD _ _ (by decide +kernel)⟩,
    ⟨joi, 0, 0, 16384, by decide +kernel⟩,
    ⟨(med []).updChan 0 fun c => { c with retiring := [5] }, 0, 5, [], by decide +kernel⟩,
    ⟨mov, gotState mov ((mov.took 0 1).alloc .a 16 16 (.frame 0 1) 4096 none), 0, 0, 0, 1, 4096,
      gotUnit ((mov.took 0 1).alloc .a 16 16 (.frame 0 1) 4096 none), [], ⟨.a, 16, 16, .frame 0 1⟩, by decide +kernel⟩⟩

/-- Hypotheses of Obligations.ConversionsMovesAndVisits, part MoverVisits met. -/
theorem witness_MoverVisits :
    (∃ (s : State) (h : Half) (d : Fin 1024) (e : Nat),
      s.sound = true ∧ cellsWf (fun _ => ({} : Page)) s.pages = true ∧ s.domOn d = true ∧ s.home d = h ∧
      s.eff (domPolicyTclass d) ≠ 0 ∧ e < s.winSize d ∧ (s.mover.get h).visited.contains (d.val, e) = false ∧
      s.visitMay h d e = true ∧ s.cached h (.desc d (e / 4)) = true ∧
      (∀ i, i < 64 → s.cached h (.pte d (e * 64 + i)) = true) ∧ s.extMoving d e = false ∧ (s.ext d e).kind = .paged ∧
      s.fld (tierStatusLevel h.idx) ≠ 0) ∧
    (∃ (s : State) (h : Half) (d : Fin 1024) (e : Nat),
      s.sound = true ∧ s.domOn d = true ∧ s.home d = h ∧ s.eff (domPolicyTclass d) ≠ 0 ∧ e < s.winSize d ∧
      (s.mover.get h).visited.contains (d.val, e) = false ∧ s.visitMay h d e = true ∧ s.cached h (.desc d (e / 4)) = true ∧
      s.extMoving d e = false ∧ (s.ext d e).kind = .frame ∧ s.eff (domPolicyTier d) = 0) ∧
    (∃ (s : State) (h : Half),
      s.sound = true ∧ s.lapDone h = true ∧ (s.mover.get h).lapStart + s.fld tierCfgEpochS * 1000000000 ≤ s.now) :=
  ⟨⟨visP, .a, 0, 0, by decide +kernel⟩,
    ⟨visF, .a, 0, 0, by decide +kernel⟩,
    ⟨{ act [(tierStatusLaps 1, 2 ^ 32 - 1)] with now := 4000000000000 }, .b, by decide +kernel⟩⟩

/-- Hypotheses of Obligations.MapAndTierSettings, part TierSettings met. -/
theorem witness_TierSettings :
    (∃ (s : State),
      s.sound = true ∧ s.takesWrite .plain false none = true) ∧
    (∃ (s : State) (v : Word),
      s.sound = true ∧ s.takesWrite .plain false none = true ∧
      bitsOf v.toNat 20 10 < bitsOf v.toNat 10 10 ∧ bitsOf v.toNat 10 10 < bitsOf v.toNat 0 10 ∧
        bitsOf v.toNat 0 10 ≤ 1000 ∧ bitsOf v.toNat 30 10 ≤ 1000) ∧
    (∃ (s : State) (v : Word),
      s.sound = true ∧ s.takesWrite .plain false none = true ∧
      ¬ (bitsOf v.toNat 20 10 < bitsOf v.toNat 10 10 ∧ bitsOf v.toNat 10 10 < bitsOf v.toNat 0 10 ∧
        bitsOf v.toNat 0 10 ≤ 1000 ∧ bitsOf v.toNat 30 10 ≤ 1000)) ∧
    (∃ (s : State) (v : Word),
      s.sound = true ∧ s.takesWrite .plain false none = true ∧ bitsOf v.toNat 0 8 < bitsOf v.toNat 8 8) ∧
    (∃ (s : State) (v : Word),
      s.sound = true ∧ s.takesWrite .plain false none = true ∧ bitsOf v.toNat 8 8 ≤ bitsOf v.toNat 0 8) ∧
    (∃ (s : State) (h : Half) (d : Fin 1024) (r : LostRun) (q : FaultRec),
      s.sound = true ∧ (s.lostSecs.get h).any (fun x => x.dom == d.val && decide (x.start + 1000000000 ≤ s.now)) = false ∧
      (s.lostRuns.get h).find? (fun x => x.dom == d.val) = some r ∧
      s.records.find? (fun q => q.seq == r.seq && q.isOpen) = some q ∧ (∀ x ∈ s.records, x.seq = r.seq → x = q)) :=
  ⟨⟨act [], by decide +kernel⟩,
    ⟨act [], 3 + 2 * 2 ^ 10 + 1 * 2 ^ 20 + 1000 * 2 ^ 30, by decide +kernel⟩,
    ⟨act [], 1001 + 2 * 2 ^ 10 + 1 * 2 ^ 20, by decide +kernel⟩,
    ⟨act [], 0xFFFE, by decide +kernel⟩,
    ⟨act [], 0xFFFF, by decide +kernel⟩,
    ⟨{ act [(fltStatusOpen, 2)] with lostRuns := ⟨[⟨3, 7, 1, 4, 0⟩, ⟨0, 1, 1, 5, 0⟩], []⟩, records := [frec 4, frec 5] }, .a,
      0, ⟨0, 1, 1, 5, 0⟩, frec 5, by decide +kernel⟩⟩

/-- Hypotheses of Obligations.RingsAndJobs, part OffloadRings met. -/
theorem witness_OffloadRings :
    (∃ (s : State) (p ld : Fin 16) (r : Fin 4),
      s.sound = true ∧ s.present p ld = true ∧ (s.func (fnOf p ld)).flr = false ∧ s.feature (fnOf p ld) 0 = true ∧
      s.fld (oflRingStatusState (fnOf p ld) r) ≠ 1) ∧
    (∃ (s : State) (p ld : Fin 16) (r : Fin 4),
      s.sound = true ∧ s.present p ld = true ∧ (s.func (fnOf p ld)).flr = false ∧ (s.inFlight (fnOf p ld) r).length < 32) ∧
    (∃ (s : State) (p ld : Fin 16),
      s.sound = true ∧ s.present p ld = true ∧ (s.func (fnOf p ld)).flr = false) :=
  ⟨⟨ofl [(oflRingCfgSize 0 1, 16)], 0, 0, 1, by decide +kernel⟩,
    ⟨{ ofl [(oflRingCfgSize 0 1, 16), (oflRingStatusState 0 1, 1), (oflRingCtrlEnable 0 1, 1)] with jobs := [job 5 64 0 0] },
      0, 0, 1, by decide +kernel⟩,
    ⟨ofl [(oflRingCfgSize 0 1, 16), (oflRingStatusState 0 1, 1)], 0, 0, by decide +kernel⟩⟩

/-- Hypotheses of Obligations.RingsAndJobs, part OffloadJobs met. -/
theorem witness_OffloadJobs :
    (∃ (s : State) (p ld : Fin 16) (r : Fin 4) (w : BitVec 512),
      s.sound = true ∧ s.mayFetch (fnOf p ld) r ∧
      (s.inFlight (fnOf p ld) r).any (fun x => x.idx == (s.ring (fnOf p ld) r).next) = false ∧
      (s.inFlight (fnOf p ld) r = [] ∨ bitAt w.toNat 8 = false)) ∧
    (∃ (s : State) (p ld : Fin 16) (r : Fin 4),
      s.sound = true ∧ s.mayFetch (fnOf p ld) r) ∧
    (∃ (s : State) (p ld : Fin 16) (r : Fin 4) (idx status : Nat) (j : Job),
      s.sound = true ∧ s.jobs.find? (fun x => x.fn == fnOf p ld && x.ring == r.val && x.idx == idx && !x.written) = some j ∧
      s.jobs.find? (fun x => x.fn == fnOf p ld && x.ring == r.val) = some j ∧ j.ended = some status ∧
      s.jobs.any (fun x => x.fn == fnOf p ld && x.ring == r.val && x.written) = false ∧
      s.fld (oflRingHeadHead (fnOf p ld) r) = idx ∧ idx < s.fld (oflRingCfgSize (fnOf p ld) r) ∧ idx + 1 < 2 ^ 15) ∧
    (∃ (s : State) (p ld : Fin 16) (r : Fin 4) (idx status : Nat) (j : Job),
      s.sound = true ∧ s.jobs.find? (fun x => x.fn == fnOf p ld && x.ring == r.val && x.idx == idx && !x.written) = some j ∧
      j.ended = some status) :=
  ⟨⟨{ ofl [(oflRingCfgSize 0 1, 16), (oflRingStatusState 0 1, 1), (oflRingCtrlEnable 0 1, 1), (oflRingTailTail 0 1, 1)] with jobs := [{ job 5 64 0 0 with ring := 2 }] },
      0, 0, 1, 5, by decide +kernel⟩,
    ⟨{ ofl [(oflRingCfgSize 0 1, 16), (oflRingStatusState 0 1, 1), (oflRingCtrlEnable 0 1, 1), (oflRingTailTail 0 1, 1)] with jobs := [{ job 5 64 0 0 with ring := 2 }] },
      0, 0, 1, by decide +kernel⟩,
    ⟨{ ofl [(oflRingCfgSize 0 1, 16), (oflRingHeadHead 0 1, 2), (oflRingStatusState 0 1, 1)] with jobs := [{ job 5 64 0 0 with ring := 2 }, { job 1 64 0 4096 with status := some 0 }] },
      0, 0, 1, 2, 0, { job 1 64 0 4096 with status := some 0 }, by decide +kernel⟩,
    ⟨{ ofl [(oflRingCfgSize 0 1, 16), (oflRingHeadHead 0 1, 2), (oflRingStatusState 0 1, 1)] with jobs := [{ job 5 64 0 0 with ring := 2 }, { job 1 64 0 4096 with status := some 0 }] },
      0, 0, 1, 2, 0, { job 1 64 0 4096 with status := some 0 }, by decide +kernel⟩⟩

/-- Hypotheses of Obligations.JobEffects, part OffloadHostJobs met. -/
theorem witness_OffloadHostJobs :
    (∃ (s : State) (p ld : Fin 16) (r : Fin 4) (idx : Nat) (bs : List Byte) (j : Job),
      s.sound = true ∧ s.running (fnOf p ld) r idx 1 = some j ∧ bs.length = j.len ∧ 0 < j.len) ∧
    (∃ (s : State) (p ld : Fin 16) (r : Fin 4) (idx : Nat) (j : Job),
      s.sound = true ∧ s.running (fnOf p ld) r idx 1 = some j) ∧
    (∃ (s : State) (p ld : Fin 16) (r : Fin 4) (idx : Nat) (j : Job) (bs : List Byte),
      s.sound = true ∧ s.running (fnOf p ld) r idx 2 = some j ∧ bs.length = j.len ∧ 0 < j.len ∧
      (∀ i, i < j.len → nth 0 bs i = nth 0 (leBytes 8 (j.word 4)) (i % 8))) ∧
    (∃ (s : State) (p ld : Fin 16) (r : Fin 4) (idx : Nat) (bs raw : List Byte) (j : Job),
      s.sound = true ∧ s.running (fnOf p ld) r idx 3 = some j ∧ bs.length = j.len ∧
      s.anyComp (portHalf (fnOf p ld / 17)) = true ∧ s.compFree (portHalf (fnOf p ld / 17)) j = true ∧
      deflateValid bs raw = true ∧ (deflateWrap j.format bs raw).length ≤ j.cap ∧ deflateWrap j.format bs raw ≠ []) ∧
    (∃ (s : State) (p ld : Fin 16) (r : Fin 4) (idx : Nat) (bs : List Byte) (j : Job),
      s.sound = true ∧ s.running (fnOf p ld) r idx 4 = some j ∧ bs.length = j.len ∧
      s.anyDecomp (portHalf (fnOf p ld / 17)) = true ∧ s.decompFree (portHalf (fnOf p ld / 17)) j = true) ∧
    (∃ (s : State) (p ld : Fin 16) (r : Fin 4) (idx : Nat) (bs : List Byte) (j : Job),
      s.sound = true ∧ s.running (fnOf p ld) r idx 5 = some j ∧ bs.length = j.len) :=
  ⟨⟨{ ofl [] with jobs := [{ job 5 64 0 0 with ring := 2 }, job 1 3 0 4096] }, 0, 0, 1, 2, [1, 2, 3], job 1 3 0 4096,
      by decide +kernel⟩,
    ⟨{ ofl [] with jobs := [{ job 5 64 0 0 with ring := 2 }, job 1 3 0 4096] }, 0, 0, 1, 2, job 1 3 0 4096,
      by decide +kernel⟩,
    ⟨{ ofl [] with jobs := [{ job 5 64 0 0 with ring := 2 }, job 2 3 0 4096] }, 0, 0, 1, 2, job 2 3 0 4096, [0, 0, 0],
      by decide +kernel⟩,
    ⟨{ ofl [(oflCfgCompMax, 1)] with jobs := [{ job 5 64 0 0 with ring := 2 }, job 3 1 0 (4096 + 100 * 2 ^ 64)] }, 0, 0, 1,
      2, [97], [1, 1, 0, 0xFE, 0xFF, 97], job 3 1 0 (4096 + 100 * 2 ^ 64), by decide +kernel⟩,
    ⟨{ ofl [(shgCfgOflDecompMax, 1)] with jobs := [{ job 5 64 0 0 with ring := 2 }, job 4 6 0 (4096 + 100 * 2 ^ 64)] }, 0, 0,
      1, 2, [1, 1, 0, 0xFE, 0xFF, 97], job 4 6 0 (4096 + 100 * 2 ^ 64), by decide +kernel⟩,
    ⟨{ ofl [] with jobs := [{ job 5 64 0 0 with ring := 2 }, job (5 + 2 ^ 12) 3 0 0] }, 0, 0, 1, 2, [1, 2, 3],
      job (5 + 2 ^ 12) 3 0 0, by decide +kernel⟩⟩

/-- Hypotheses of Obligations.JobEffects, part OffloadDomainJobs met. -/
theorem witness_OffloadDomainJobs :
    (∃ (s : State) (p ld : Fin 16) (r : Fin 4) (idx d off : Nat) (bs : List Byte) (j : Job),
      s.sound = true ∧ s.runs (fnOf p ld) r idx 6 j ∧ (s.domSide (fnOf p ld) j.dst j.len).toOption = some (d, off) ∧
      j.next < j.total off ∧ bs.length = (j.piece off j.next).2.2 ∧ s.df = false ∧ s.fenced (uHalf (s.home d).idx) = false) ∧
    (∃ (s : State) (p ld : Fin 16) (r : Fin 4) (idx d off : Nat) (j : Job),
      s.sound = true ∧ s.runs (fnOf p ld) r idx 7 j ∧ (s.domSide (fnOf p ld) j.src j.len).toOption = some (d, off) ∧
      j.lines.find? (fun x => x.1 == off / 64 + j.due off) = none ∧ j.next < j.total off ∧ s.df = false ∧
      s.fenced (uHalf (s.home d).idx) = false) ∧
    (∃ (s : State) (p ld : Fin 16) (r : Fin 4) (idx d off : Nat) (l : Line) (n k : Nat) (j : Job),
      s.sound = true ∧ s.runs (fnOf p ld) r idx 7 j ∧ 0 < j.len ∧
      (s.domSide (fnOf p ld) j.src j.len).toOption = some (d, off) ∧ k = j.due off ∧ n = (j.piece off k).2.2 ∧ 0 < n ∧
      j.total off ≤ j.next ∧ j.lines.find? (fun x => x.1 == off / 64 + k) = some (off / 64 + k, l, false) ∧
      (j.lines.erase (off / 64 + k, l, false)).find?
        (fun x => x.1 == off / 64 + ({ j with bytesOut := j.bytesOut + n } : Job).due off) = none) :=
  ⟨⟨{ odom [] with jobs := [{ job 5 64 0 0 with ring := 2 }, job 6 64 0 4096], reqs := [rq .rd .lockWait] }, 0, 0, 1, 2, 0,
      4096, List.replicate 64 7, job 6 64 0 4096, by decide +kernel⟩,
    ⟨{ odom [] with jobs := [{ job 5 64 0 0 with ring := 2 }, job 7 64 4096 0], reqs := [rq .rd .lockWait] }, 0, 0, 1, 2, 0,
      4096, job 7 64 4096 0, by decide +kernel⟩,
    ⟨{ odom [] with jobs := [{ job 5 64 0 0 with ring := 2 }, { job 7 64 4096 0 with next := 1, lines := [(64, 9, false)] }], reqs := [rq .rd .lockWait] },
      0, 0, 1, 2, 0, 4096, 9, 64, 0, { job 7 64 4096 0 with next := 1, lines := [(64, 9, false)] }, by decide +kernel⟩⟩

/-- Hypotheses of Obligations.DieToDieFlits met. -/
theorem witness_DieToDieFlits :
    (∃ (s : State) (h : Half) (hand : Bool) (vc : Fin 4) (payload : List Word),
      s.sound = true ∧ s.d2dOn h = true ∧ payload.length ≤ 30 ∧ (s.d2d h).replay.length < 256 ∧
      flitUnits payload.length ≤ nth 0 (s.d2d h).credits (if hand then 0 else vc.val)) ∧
    (∃ (s : State) (h : Half) (ws : List Word),
      s.sound = true ∧ s.d2dOn h = true ∧ flitGood ws = true ∧ bitsOf (nth 0 ws 0).toNat 26 1 = 0 ∧
      (bitsOf (nth 0 ws 0).toNat 0 4 = 1 ∨ bitsOf (nth 0 ws 0).toNat 0 4 = 4) ∧
      bitsOf (nth 0 ws 0).toNat 6 10 = (s.d2d h).rxNext) ∧
    (∃ (s : State) (h : Half) (ws : List Word) (rid : Fin 65536) (r : Req) (p id : Nat),
      s.sound = true ∧ s.d2dOn h = true ∧ flitGood ws = true ∧ bitsOf (nth 0 ws 0).toNat 26 1 = 0 ∧
      bitsOf (nth 0 ws 0).toNat 0 4 = 1 ∧ bitsOf (nth 0 ws 0).toNat 6 10 = (s.d2d h).rxNext ∧ s.req rid = some r ∧
      r.org = .host p id ∧ r.dom < 1024 ∧ bitsOf (nth 0 ws 0).toNat 4 2 = 1 ∧ r.stage = .cross ∧ r.home = h ∧ s.df = false ∧
      (s.reqs.takeWhile (fun q => q.rid != rid.val || q.stage == .waitEntry)).any
        (fun q => q.stage == .cross && q.ingress == r.ingress && q.port == r.port) = false) ∧
    (∃ (s : State) (h : Half) (ws : List Word) (rid : Fin 65536) (r : Req) (p id : Nat),
      s.sound = true ∧ s.d2dOn h = true ∧ flitGood ws = true ∧ bitsOf (nth 0 ws 0).toNat 26 1 = 0 ∧
      bitsOf (nth 0 ws 0).toNat 0 4 = 1 ∧ bitsOf (nth 0 ws 0).toNat 6 10 = (s.d2d h).rxNext ∧ s.req rid = some r ∧
      r.org = .host p id ∧ r.dom < 1024 ∧ bitsOf (nth 0 ws 0).toNat 4 2 = 2 ∧ r.stage = .crossBack ∧ r.ingress = h) ∧
    (∃ (s : State) (h : Half) (ws : List Word),
      s.sound = true ∧ s.d2dOn h = true ∧ flitGood ws = false) ∧
    (∃ (s : State) (h : Half),
      s.sound = true ∧ s.d2dOn h = true ∧ (s.d2d h).ackDue = true) ∧
    (∃ (s : State) (h : Half) (f : D2dHeld) (rest : List D2dHeld),
      s.sound = true ∧ s.d2dOn h = true ∧ (s.d2d h).replay = f :: rest ∧ f.replays < 3) :=
  ⟨⟨lnk { credits := [3, 3, 3, 3], txSeq := 1023, ackDue := true } {}, .a, false, 2, List.replicate 24 5, by decide +kernel⟩,
    ⟨lnk { rxNext := 3, credits := [3, 3, 3, 3] } {}, .a, flit3, by decide +kernel⟩,
    ⟨{ lnk {} {} with reqs := [{ rq .rd .channel with rid := 9 }, { rq .wr .cross with home := .b }] }, .b,
      flitOf 1 1 0 0 false 2 5 [0xABCD], 7, { rq .wr .cross with home := .b }, 0, 0, by decide +kernel⟩,
    ⟨{ lnk { rxNext := 3 } {} with reqs := [{ rq .rd .channel with rid := 9 }, { rq .rd .crossBack with home := .b, rdata := 7 }] },
      .a, flitOf 1 2 3 0 false 2 5 [0xABCD], 7, { rq .rd .crossBack with home := .b, rdata := 7 }, 0, 0, by decide +kernel⟩,
    ⟨lnk { rxNext := 3 } {}, .a, setAt flit3 1 4, by decide +kernel⟩,
    ⟨lnk { ackDue := true } {}, .a, by decide +kernel⟩,
    ⟨lnk { replay := [⟨3, flit3, 2⟩, ⟨4, flit3, 0⟩] } {}, .a, ⟨3, flit3, 2⟩, [⟨4, flit3, 0⟩], by decide +kernel⟩⟩

/-- Hypotheses of Obligations.LeaderHandshake met. -/
theorem witness_LeaderHandshake :
    (∃ (s : State) (h : Half) (msg : ClaimMsg),
      s.d2dOn h = true ∧ (s.hs h).phase = .claim ∧ msg.dieId ≠ s.fuses.dieId.get h) ∧
    (∃ (s : State) (h : Half) (msg : ClaimMsg),
      s.d2dOn h = true ∧ (s.hs h).phase = .claim ∧ msg.dieId = s.fuses.dieId.get h) ∧
    (∃ (s : State) (h : Half) (peer returned own : ClaimMsg),
      s.d2dOn h = true ∧ (s.hs h).phase = .echo ∧ (s.hs h).peer = some peer ∧ returned = s.ownClaim h ∧
      own.dieId ≠ s.fuses.dieId.get h) ∧
    (∃ (s : State) (h : Half) (peer returned own : ClaimMsg),
      s.d2dOn h = true ∧ (s.hs h).phase = .echo ∧ (s.hs h).peer = some peer ∧ returned = s.ownClaim h ∧
      own.dieId = s.fuses.dieId.get h) ∧
    (∃ (s : State) (h : Half) (returned : ClaimMsg),
      s.d2dOn h = true ∧ (s.hs h).phase.inRound = true ∧ returned ≠ s.ownClaim h) ∧
    (∃ (s : State) (h : Half) (peer : ClaimMsg) (l : BitVec 32),
      s.sound = true ∧ s.d2dOn h = true ∧ (s.hs h).phase = .confirm ∧ (s.hs h).peer = some peer ∧
        (s.hs h).resolved = some l) ∧
    (∃ (s : State) (h : Half) (peer : ClaimMsg) (l m : BitVec 32),
      s.sound = true ∧ s.d2dOn h = true ∧ (s.hs h).phase = .confirm ∧ (s.hs h).peer = some peer ∧ (s.hs h).resolved = some l ∧
      m ≠ l) ∧
    (∃ (s : State) (h : Half),
      ((s.hs h).phase = .claim ∨ (s.hs h).phase = .echo ∨ (s.hs h).phase = .confirm)) ∧
    (∃ (s : State) (h : Half),
      s.sound = true ∧ (s.hs h).phase = .wait ∧ (s.hs h).failed < 3) ∧
    (∃ (s : State) (h : Half),
      s.sound = true ∧ (s.hs h).phase = .wait ∧ 3 ≤ (s.hs h).failed ∧ s.phase ≠ 9) :=
  ⟨⟨lnk {} { phase := .claim, round := 1 }, .a, claimB, by decide +kernel⟩,
    ⟨lnk {} { phase := .claim, round := 1 }, .a, { claimB with dieId := State.reset.fuses.dieId.get .a }, by decide +kernel⟩,
    ⟨lnk {} { phase := .echo, round := 1, peer := some claimB }, .a, claimB,
      (lnk {} { phase := .echo, round := 1 }).ownClaim .a, claimB, by decide +kernel⟩,
    ⟨lnk {} { phase := .echo, round := 1, peer := some claimB }, .a, claimB,
      (lnk {} { phase := .echo, round := 1 }).ownClaim .a, (lnk {} { phase := .echo, round := 1 }).ownClaim .a,
      by decide +kernel⟩,
    ⟨lnk {} { phase := .claim, round := 1 }, .a, claimB, by decide +kernel⟩,
    ⟨lnk {} { phase := .confirm, round := 1, peer := some claimB, resolved := some 0x77 }, .a, claimB, 0x77,
      by decide +kernel⟩,
    ⟨lnk {} { phase := .confirm, round := 1, peer := some claimB, resolved := some 0x77 }, .a, claimB, 0x77, 0x78,
      by decide +kernel⟩,
    ⟨lnk {} { phase := .confirm, round := 1 }, .a, by decide +kernel⟩,
    ⟨lnk {} { phase := .wait, round := 1, failed := 2 }, .a, by decide +kernel⟩,
    ⟨lnk {} { phase := .wait, round := 1, failed := 3 }, .a, by decide +kernel⟩⟩

/-- Hypotheses of Obligations.CoresShoreAndCounters, part CoresAndTraining met. -/
theorem witness_CoresAndTraining :
    (∃ (s : State) (h : Half),
      s.power.railStep = 5 ∧ (s.halves.get h).coreRunning = false ∧ s.fld pwrStatusDeviceState ≠ 2 ∧
      ((s.halves.get h.other).coreRunning = false ∨ s.boot.running = true)) ∧
    (∃ (s : State) (h : Half),
      s.sound = true ∧ s.power.railStep = 5 ∧ (s.halves.get h).coreRunning = false ∧ s.fld pwrStatusDeviceState ≠ 2 ∧
      (s.halves.get h.other).coreRunning = true ∧ s.boot.running = false) ∧
    (∃ (s : State) (fa fb : List Nat),
      s.sound = true ∧ s.halves.a.coreRunning = true ∧ s.halves.b.coreRunning = true ∧ s.halves.a.d2d.trained = false ∧
      (padTo 8 0 fa).any (· > 4) = false ∧ (padTo 8 0 fb).any (· > 4) = false ∧ s.halves.a.hs.phase = .idle ∧
      s.halves.b.hs.phase = .idle) ∧
    (∃ (fa fb : List Nat),
      (padTo 8 0 fa ++ padTo 8 0 fb).any (· > 4) = true) ∧
    (∃ (s : State),
      s.sound = true ∧ s.halves.a.coreRunning = true ∧ s.halves.b.coreRunning = true ∧ s.halves.a.d2d.trained = false ∧
      s.halves.a.hs.phase = .idle ∧ s.halves.b.hs.phase = .idle) :=
  ⟨⟨{ State.reset with power := { State.reset.power with railStep := 5 } }, .b, by decide +kernel⟩,
    ⟨{ State.reset with power := { State.reset.power with railStep := 5 }, halves := ⟨{ coreRunning := true }, {}⟩ }, .b,
      by decide +kernel⟩,
    ⟨{ act [] with halves := ⟨{ coreRunning := true }, { coreRunning := true }⟩ }, [4], [], by decide +kernel⟩,
    ⟨[], [5], by decide +kernel⟩,
    ⟨{ act [] with halves := ⟨{ coreRunning := true }, { coreRunning := true }⟩ }, by decide +kernel⟩⟩

/-- Hypotheses of Obligations.CoresShoreAndCounters, part ShorePortsAndCounters met. -/
theorem witness_ShorePortsAndCounters :
    (∃ (s : State) (h : Half) (w : ShoreWord) (parity : Bool),
      s.shoreCarries h w.kind = true ∧ (ones 64 w.bits.toNat + b2n parity) % 2 = 0) ∧
    (∃ (s : State) (h : Half) (out : Bool) (w : ShoreWord) (parity : Bool),
      s.shoreCarries h w.kind = true ∧ (ones 64 w.bits.toNat + b2n parity) % 2 = 1 ∧
      nth 0 (s.halves.get h).shoreResend (b2n out) < 3) ∧
    (∃ (s : State) (h : Half) (w : ShoreWord),
      h ≠ s.leader ∧ (w.kind = .management ∨ w.kind = .register)) ∧
    (∃ (s : State),
      s.sound = true) ∧
    (∃ (s : State) (h : Half),
      (s.halves.get h).coreRunning = true ∧ (s.halves.get h).coreLost = false) :=
  ⟨⟨act [], .a, ⟨.management, 3⟩, false, by decide +kernel⟩,
    ⟨act [], .a, true, ⟨.register, 3⟩, true, by decide +kernel⟩,
    ⟨act [], .b, ⟨.register, 3⟩, by decide +kernel⟩,
    ⟨act [], by decide +kernel⟩,
    ⟨lnk {} {}, .a, by decide +kernel⟩⟩

/-- Hypotheses of Obligations.MirrorWrites met. -/
theorem witness_MirrorWrites :
    (∃ (s : State) (l : Half) (vc : Fin 8) (d line c : Nat) (m : MirMsg) (data : Line) (en : BitVec 64) (poison : Bool),
      s.sound = true ∧ d < 1024 ∧ s.receives l vc m c ∧ s.takesFrom l d false = true ∧ line < s.winSize d * extLines ∧
      s.treeFenced d line = false ∧ s.df = false ∧ s.fenced (uHalf l.idx) = false ∧
      ((m = .lineWr d line data ∧ en = allBytes ∧ poison = false) ∨ (m = .lineWrPtl d line en data ∧ poison = false) ∨
        (m = .linePoison d line ∧ data = 0 ∧ en = allBytes ∧ poison = true))) ∧
    (∃ (s : State) (l : Half) (vc : Fin 8) (d line c : Nat) (data : Line),
      s.sound = true ∧ d < 1024 ∧ s.receives l vc (.lineWr d line data) c ∧ s.takesFrom l d false = false ∧
      s.straitUp l.idx = true) ∧
    (∃ (s : State) (l : Half) (vc : Fin 8) (d page c : Nat),
      s.sound = true ∧ d < 1024 ∧ s.receives l vc (.zeroRun d page 1) c ∧ s.takesFrom l d false = true ∧
      s.runWaits d page 1 = false ∧ s.mState d = mSecMirrored ∧ s.mMode d = 1 ∧ page + 1 ≤ s.winSize d * 512 ∧
      (s.ext d (page / 512)).kind = .paged ∧ (s.page d page).state = .near ∧ (∀ x ∈ s.reqs, ¬ x.waitsAt5
        (s.home d) d page)) :=
  ⟨⟨recv (.lineWrPtl 0 70 3 9) (dev (mirFlds 7 2)), .a, 2, 0, 70, 0, .lineWrPtl 0 70 3 9, 9, 3, false, by decide +kernel⟩,
    ⟨recv (.lineWr 0 70 9) (dev (mirFlds 5 2)), .a, 2, 0, 70, 0, 9, by decide +kernel⟩,
    ⟨recv (.zeroRun 0 1 1) (paged .near (mirFlds 7 2)), .a, 2, 0, 1, 0, by decide +kernel⟩⟩

/-- Hypotheses of Obligations.MirrorAnswersAndCuts, part MirrorAcknowledgements met. -/
theorem witness_MirrorAcknowledgements :
    (∃ (s : State) (l : Half) (vc : Fin 8) (n k c p id : Nat) (r : Req),
      s.sound = true ∧ s.rxHead l vc = some (.commitAck n, c) ∧ s.req r.rid = some r ∧ r.org = .host p id ∧
      r.stage = .mirrorWait ∧ r.home = l ∧ r.await = some k ∧ covers32 n k = true) ∧
    (∃ (s : State) (l : Half),
      s.sound = true ∧ s.straitUp l.idx = true ∧ (s.mirror.get l).committed ≠ (s.mirror.get l).ackedTo) ∧
    (∃ (s : State) (l : Half) (vc : Fin 8) (d line cause c : Nat) (x : Det),
      s.sound = true ∧ d < 1024 ∧ s.rxHead l vc = some (.peerRefuse d line cause, c) ∧ 1 ≤ cause ∧ cause ≤ 3 ∧ s.home d = l ∧
      s.mirroring d = true ∧ (s.ext d (line / extLines)).dirty = false ∧
      x = { code := cMirPeerRefuse, cls := clsCe, unit := uHalf l.idx, dom := some d, addr := some (s.dpaOf d line, 1), detail := cause } ∧
      s.masked x = false ∧ s.mergeTarget x = none) ∧
    (∃ (s : State) (d : Fin 1024) (r : Req) (p id : Nat),
      s.sound = true ∧ s.req r.rid = some r ∧ r.org = .host p id ∧ r.hasDom = true ∧ r.dom = d.val ∧ r.stage = .mirrorWait ∧
      s.mirroring d = true ∧ s.mMode d = 1) :=
  ⟨⟨mirror (fun m => { m with unacked := [⟨4, 0, 0⟩, ⟨6, 0, 1⟩] }) (recv (.commitAck 5)
    { dev (mirFlds 3 1) with reqs := [{ rq .rd .channel with rid := 9 }, { rq .wr .mirrorWait with await := some 4 }] }),
      .a, 2, 5, 4, 0, 0, 0, { rq .wr .mirrorWait with await := some 4 }, by decide +kernel⟩,
    ⟨mirror (fun m => { m with syncRecv := 6, uncommitted := [6] }) (dev (mirFlds 7 2)), .a, by decide +kernel⟩,
    ⟨recv (.peerRefuse 0 70 2) (dev (mirFlds 3 1)), .a, 2, 0, 70, 2, 0,
      { code := cMirPeerRefuse, cls := clsCe, unit := uHalf 0, dom := some 0, addr := some ((dev (mirFlds 3 1)).dpaOf 0 70, 1), detail := 2 },
      by decide +kernel⟩,
    ⟨{ dev (mirFlds 3 1) with reqs := [{ rq .rd .channel with rid := 9 }, { rq .wr .mirrorWait with await := some 4 }] }, 0,
      { rq .wr .mirrorWait with await := some 4 }, 0, 0, by decide +kernel⟩⟩

/-- Hypotheses of Obligations.MirrorAnswersAndCuts, part MirrorCuts met. -/
theorem witness_MirrorCuts :
    (∃ (s : State) (h : Half),
      s.sound = true ∧ s.boot.memActive = true ∧ s.isS = false ∧ s.straitUp h.idx = true) ∧
    (∃ (s : State) (l : Half) (vc : Fin 8) (n c : Nat),
      s.sound = true ∧ s.rxHead l vc = some (.cut n, c)) ∧
    (∃ (s : State) (l : Half) (n : Nat) (rest : List (Nat × List Nat)),
      s.sound = true ∧ (s.mirror.get l).cuts = (n, []) :: rest ∧ s.straitUp l.idx = true) ∧
    (∃ (s : State) (l : Half) (vc : Fin 8) (n c : Nat),
      s.sound = true ∧ s.rxHead l vc = some (.cutAck n, c) ∧ s.fld (mirHwmHwm l.idx) < n ∧ n ≤ s.fld (mirCutCut l.idx)) :=
  ⟨⟨dev (mirFlds 3 1), .a, by decide +kernel⟩,
    ⟨mirror (fun m => { m with asyncOpen := [4, 5] }) (recv (.cut 8) (dev (mirFlds 3 1))), .a, 2, 8, 0, by decide +kernel⟩,
    ⟨mirror (fun m => { m with cuts := [(8, []), (9, [1])] }) (dev (mirFlds 3 1)), .a, 8, [(9, [1])], by decide +kernel⟩,
    ⟨mirror (fun m => { m with log := [(7, 0, 0), (8, 0, 1)] }) (recv (.cutAck 8) (dev ((mirCutCut 0, 9) :: mirFlds 3 1))),
      .a, 2, 8, 0, by decide +kernel⟩⟩

/-- Hypotheses of Obligations.MirrorPages met. -/
theorem witness_MirrorPages :
    (∃ (s : State) (h : Half) (d : Fin 1024) (r : Resync) (e : Nat) (rest : List Nat),
      s.sound = true ∧ s.home d = h ∧ s.straitUp h.idx = true ∧ s.flag (mirDomStateW0Matched d) = true ∧
      (s.mirror.get h).pagesOut.length < s.fld mirCfgResyncInflight ∧
      (s.mirror.get h).repairs.find? (fun x => x.2.1 == d.val) = none ∧
      (s.mirror.get h).resyncs.find? (fun r => r.dom == d.val) = some r ∧ s.mState d = mPriResync ∧ r.again = [] ∧
      r.todo = e :: rest ∧ e < s.winSize d ∧ r.next = 0 ∧ (s.ext d e).kind = .zero ∧ s.extLocked d e = false ∧
      s.locksLeft h 512 = true) ∧
    (∃ (s : State) (h : Half) (d : Fin 1024) (r : Resync) (e : Nat) (rest : List Nat),
      s.sound = true ∧ s.home d = h ∧ s.straitUp h.idx = true ∧ s.flag (mirDomStateW0Matched d) = true ∧
      (s.mirror.get h).pagesOut.length < s.fld mirCfgResyncInflight ∧
      (s.mirror.get h).repairs.find? (fun x => x.2.1 == d.val) = none ∧
      (s.mirror.get h).resyncs.find? (fun r => r.dom == d.val) = some r ∧ s.mState d = mPriResync ∧ r.again = [] ∧
      r.todo = e :: rest ∧ e < s.winSize d ∧ r.next < 512 ∧ (s.ext d e).kind = .paged ∧
      (s.page d (e * 512 + r.next)).state = .near ∧ s.sendWaits d (e * 512 + r.next) = false) ∧
    (∃ (s : State) (l : Half) (vc : Fin 8) (d line c : Nat) (data : Line),
      s.sound = true ∧ d < 1024 ∧ s.rxHead l vc = some (.rsLine d line data, c) ∧ s.takesPage l d (line / 64) = true ∧
      line < s.winSize d * extLines) ∧
    (∃ (s : State) (l : Half) (vc : Fin 8) (d page offset c : Nat) (words : List (BitVec 64)),
      s.sound = true ∧ d < 1024 ∧ s.rxHead l vc = some (.slotData d page offset words, c) ∧ s.takesPage l d page = true ∧
      page < s.winSize d * 512) ∧
    (∃ (s : State) (l : Half) (vc : Fin 8) (d page body c : Nat),
      s.sound = true ∧ d < 1024 ∧ s.rxHead l vc = some (.pageDone d page 0 false body, c) ∧ s.takesPage l d page = true ∧
      page < s.winSize d * 512 ∧ s.pageWaits d page false = false ∧ s.treeFenced d (page * 64) = false ∧
      (s.pageNow d page).state = .near ∧ s.mediaLost l (s.pageNow d page).addr = false ∧ s.straitUp l.idx = true ∧
      (∀ x ∈ s.reqs, ¬ x.waitsAt5 l d page)) ∧
    (∃ (s : State) (l : Half) (vc : Fin 8) (d page e c : Nat) (r : Resync),
      s.sound = true ∧ d < 1024 ∧ s.home d = l ∧ s.rxHead l vc = some (.pageAck d page 0, c) ∧ page / 512 = e ∧
      (s.mirror.get l).pagesOut.find? (fun o => o.dom == d && o.page == page) = some ⟨d, page, 1, false⟩ ∧
      (s.mirror.get l).pagesOut.any (fun o => o != ⟨d, page, 1,
        false⟩ && o.dom == d && !o.repair && o.page / 512 == e) = false ∧
      (s.mirror.get l).resyncs.find? (fun r => r.dom == d) = some r ∧ r.todo = [e] ∧ r.next = 512 ∧ r.again = [] ∧
      r.noMedia = false ∧ (s.ext d e).dirty = true ∧ (∀ x ∈ s.reqs, ¬ x.waitsAt5 l d page)) ∧
    (∃ (s : State) (l : Half) (vc : Fin 8) (d page count c : Nat),
      s.sound = true ∧ d < 1024 ∧ s.rxHead l vc = some (.repairReq d page count, c) ∧ s.flag (mirDomStateW0Matched d) = true ∧
      s.home d = l ∧ page + count ≤ s.winSize d * 512) :=
  ⟨⟨mirror (fun m => { m with resyncs := [⟨3, false, [], 0, false, []⟩, ⟨0, false, [2, 3], 0, false, []⟩], repairs := [(9, 3, 4)], pagesOut := [⟨3, 1, 1, false⟩] }) { dev ((mirCfgResyncInflight, 4) :: mirFlds 2 1) with extents := [(2, { kind := .zero })] },
      .a, 0, ⟨0, false, [2, 3], 0, false, []⟩, 2, [3], by decide +kernel⟩,
    ⟨mirror (fun m => { m with resyncs := [⟨3, false, [], 0, false, []⟩, ⟨0, false, [0], 1, false, []⟩] }) (paged .near
      ((mirCfgResyncInflight, 4) :: mirFlds 2 1)),
      .a, 0, ⟨0, false, [0], 1, false, []⟩, 0, [], by decide +kernel⟩,
    ⟨mirror (fun m => { m with pagesIn := [⟨0, 1, [(5, 4)], []⟩] }) (recv (.rsLine 0 70 9) (dev (mirFlds 6 2))), .a, 2, 0,
      70, 0, 9, by decide +kernel⟩,
    ⟨recv (.slotData 0 1 27 [5, 6]) (dev (mirFlds 6 2)), .a, 2, 0, 1, 27, 0, [5, 6], by decide +kernel⟩,
    ⟨recv (.pageDone 0 1 0 false 4) (paged .near (mirFlds 6 2)), .a, 2, 0, 1, 4, 0, by decide +kernel⟩,
    ⟨mirror (fun m => { m with resyncs := [⟨3, false, [], 0, false, []⟩, ⟨0, false, [0], 512, false, []⟩], pagesOut := [⟨0, 513, 1, false⟩, ⟨0, 1, 1, false⟩] }) (recv (.pageAck 0 1 0) { dev (mirFlds 2 1) with extents := [(0, { dirty := true })], locks := [⟨.a, 0, 1⟩] }),
      .a, 2, 0, 1, 0, 0, ⟨0, false, [0], 512, false, []⟩, by decide +kernel⟩,
    ⟨recv (.repairReq 0 0 3) (paged .near (mirFlds 3 1)), .a, 2, 0, 0, 3, 0, by decide +kernel⟩⟩

/-- Hypotheses of Obligations.MirrorRoles met. -/
theorem witness_MirrorRoles :
    (∃ (s : State) (l : Half) (vc : Fin 8) (d e role mode c solo epoch mirEpoch : Nat) (cont dirtyOk : Bool),
      s.sound = true ∧ d < 1024 ∧ s.rxHead l vc = some (.role e d role mode mPriResync cont dirtyOk solo epoch mirEpoch, c) ∧
      (∀ x, x < 1024 → x ≠ d → s.eff (mirDomW0PeerDomain x) ≠ e) ∧ s.mState d = mSecDetached ∧ s.eff (mirDomW0Role d) = 2 ∧
      s.rolesMatch l d ⟨e, d, role, mode, mPriResync, cont, dirtyOk, epoch, mirEpoch⟩ = true) ∧
    (∃ (s : State) (l : Half) (vc : Fin 8) (d e mode st c solo epoch mirEpoch : Nat) (cont dirtyOk : Bool),
      s.sound = true ∧ d < 1024 ∧ s.rxHead l vc = some (.role e d 1 mode st cont dirtyOk solo epoch mirEpoch, c) ∧
      (∀ x, x < 1024 → x ≠ d → s.eff (mirDomW0PeerDomain x) ≠ e) ∧ s.home d = l ∧
      (s.mState d = mPriSolo ∨ s.mState d = mPriResync ∨ s.mState d = mPriMirrored) ∧ s.eff (mirDomW0Role d) = 1 ∧
      s.eff (mirDomW0PeerDomain d) = e ∧ s.eff (mirDomW1GrantEpoch d) < epoch) ∧
    (∃ (s : State) (l : Half) (vc : Fin 8) (active c : Nat) (prints : List Nat),
      s.sound = true ∧ s.rxHead l vc = some (.setFp active prints, c)) :=
  ⟨⟨recv (.role 9 0 1 1 2 true true 0 4 5) (dev ([((mirDomW1GrantEpoch 0).eff, 4)] ++ mirFlds 5 2)), .a, 2, 0, 9, 1, 1, 0,
      0, 4, 5, true, true, by decide +kernel⟩,
    ⟨recv (.role 9 0 1 1 3 true true 0 4 5) (dev ([((mirDomW1GrantEpoch 0).eff, 3)] ++ mirFlds 3 1)), .a, 2, 0, 9, 1, 3, 0,
      0, 4, 5, true, true, by decide +kernel⟩,
    ⟨recv (.setFp 3 [7, 8]) (dev []), .a, 2, 3, 0, [7, 8], by decide +kernel⟩⟩

/-- Hypotheses of Obligations.RecordsAndPins, part FaultRecords met. -/
theorem witness_FaultRecords :
    (∃ (s : State) (seq : BitVec 32) (q : FaultRec),
      s.sound = true ∧ s.records.find? (fun x => x.seq == seq.toNat) = some q ∧ (∀ x ∈ s.records, x.seq = q.seq → x = q) ∧
      s.closable q = true) ∧
    (∃ (s : State) (v : Word) (q : FaultRec),
      s.sound = true ∧ s.takesWrite .ack false none = true ∧ q ∈ s.records ∧ (∀ x ∈ s.records, x.seq = q.seq → x = q) ∧
      (bitAt v.toNat 32 = true ∨ q.seq = v.toNat % 2 ^ 32)) ∧
    (∃ (s : State) (u : BitVec 16) (d first n dpa at_ name : Nat),
      s.sound = true ∧ (s.unit u.toNat).openRun = some (d, first, n, dpa, at_) ∧ (s.unit u.toNat).episode = some name) ∧
    (∃ (s : State) (u : BitVec 16),
      s.sound = true ∧ cellsWf (fun _ => ({} : UnitState)) s.units = true ∧ u.toNat / 0x1000 = 3 ∧ u.toNat % 0x1000 < 16 ∧
      (s.unit u.toNat).resetting = true ∧ (s.unit u.toNat).fences < 3) ∧
    (∃ (s : State) (u : BitVec 16),
      s.sound = true ∧ u.toNat / 0x1000 = 1 ∧ (s.unit u.toNat).resetting = true) :=
  ⟨⟨{ act [(fltStatusOpen, 2)] with records := [frec 4, frec 5] }, 5, frec 5, by decide +kernel⟩,
    ⟨{ act [(fltStatusOpen, 2)] with records := [frec 4, frec 5] }, 5, frec 5, by decide +kernel⟩,
    ⟨({ dev [(fltStatusNextSeq, 6)] with records := [frec 4, frec 5] }).updUnit 0x3001 fun x =>
      { x with episode := some 77, openRun := some (0, 70, 3, 4480, 0) },
      0x3001, 0, 70, 3, 4480, 0, 77, by decide +kernel⟩,
    ⟨(act [(shgStatusCompFenced 0, 3)]).updUnit 0x3001 fun x => { x with resetting := true, fences := 2 }, 0x3001,
      by decide +kernel⟩,
    ⟨({ dev [] with extents := [(3, { kind := .frame })] }).updUnit 0x1002 fun x => { x with resetting := true, fences := 2 },
      0x1002, by decide +kernel⟩⟩

/-- Hypotheses of Obligations.RecordsAndPins, part StatusPins met. -/
theorem witness_StatusPins :
    (∃ (s : State),
      s.sound = true ∧ s.flag fltErrPinCtrlHwPhase = true) ∧
    (∃ (s : State),
      s.sound = true ∧ s.takesWrite .ack false none = true ∧ s.flag fltErrPinCtrlDfLock = true) ∧
    (∃ (s : State),
      s.sound = true ∧ s.takesWrite .ack false none = true ∧ s.flag fltErrPinCtrlDfLock = false ∧
      s.flag fltErrPinCtrlHwPhase = true) ∧
    (∃ (s : State),
      s.sound = true ∧ s.takesWrite .ack false none = true ∧ s.flag fltErrPinCtrlDfLock = false ∧
      s.flag fltErrPinCtrlHwPhase = false) ∧
    (∃ (s : State),
      s.sound = true ∧ s.takesWrite .ack false none = true) ∧
    (∃ (s : State),
      s.sound = true ∧ s.flag fltAlarmPinCtrlHwPhase = true) ∧
    (∃ (s : State),
      s.sound = true ∧ s.takesWrite .ack false none = true ∧ s.flag fltAlarmPinCtrlHwPhase = true) ∧
    (∃ (s : State),
      s.sound = true ∧ s.takesWrite .ack false none = true ∧ s.flag fltAlarmPinCtrlHwPhase = false) :=
  ⟨⟨act [(fltErrPinCtrlHwPhase, 1), (fltErrPinCtrlHwLatched, 1), (fltErrPinCtrlReleasePending, 1),
    (fltErrPinCtrlPinAsserted, 1)],
      by decide +kernel⟩,
    ⟨act [(fltErrPinCtrlDfLock, 1)], by decide +kernel⟩,
    ⟨act [(fltErrPinCtrlHwPhase, 1)], by decide +kernel⟩,
    ⟨act [(fltErrPinCtrlHwLatched, 1), (fltErrPinCtrlPinAsserted, 1)], by decide +kernel⟩,
    ⟨act [], by decide +kernel⟩,
    ⟨act [(fltAlarmPinCtrlHwPhase, 1), (fltAlarmPinCtrlHwLatched, 1), (fltAlarmPinCtrlReleasePending, 1),
      (fltAlarmPinCtrlPinAsserted, 1)],
      by decide +kernel⟩,
    ⟨act [(fltAlarmPinCtrlHwPhase, 1)], by decide +kernel⟩,
    ⟨act [(fltAlarmPinCtrlHwLatched, 1), (fltAlarmPinCtrlPinAsserted, 1), (fltAlarmPinCtrlSwAssert, 1)], by decide +kernel⟩⟩

/-- Hypotheses of Obligations.MediaCommands met. -/
theorem witness_MediaCommands :
    (∃ (s : State) (p ld : Fin 16),
      s.sound = true ∧ (s.scan (fnOf p ld)).all (·.done) = true) ∧
    (∃ (s : State) (p ld : Fin 16) (x : ScanMedia),
      s.sound = true ∧ s.scan (fnOf p ld) = some x ∧ x.done = false) ∧
    (∃ (s : State) (p ld : Fin 16) (x : ScanMedia),
      s.sound = true ∧ s.scan (fnOf p ld) = some x ∧ x.done = false ∧
      (∀ q ∈ s.scanPages p ld x.first x.len, (s.pageNow q.2.1 (q.2.2.1 / 64)).state = .zero)) ∧
    (∃ (s : State),
      s.sound = true) ∧
    (∃ (s : State) (p ld : Fin 16) (x : ScanMedia),
      s.scan (fnOf p ld) = some x) ∧
    (∃ (s : State) (p ld : Fin 16) (a d l : Nat),
      s.sound = true ∧ d < 1024 ∧ (s.ldToDpa p ld (a * 64)).bind s.domOfDpa = some (d, l) ∧ s.ownerLd d p ld = true ∧
      s.df = false ∧ s.fenced (uHalf (s.home d).idx) = false) ∧
    (∃ (s : State) (p ld : Fin 16) (a : Nat),
      (s.ldToDpa p ld (a * 64)).bind s.domOfDpa = none) :=
  ⟨⟨dev [], 0, 0, by decide +kernel⟩,
    ⟨{ dev [] with scans := [(0, some ⟨0, 72, false, []⟩)] }, 0, 0, ⟨0, 72, false, []⟩, by decide +kernel⟩,
    ⟨{ dev [] with scans := [(0, some ⟨0, 72, false, []⟩)], extents := [(0, { kind := .zero })] }, 0, 0, ⟨0, 72, false, []⟩,
      by decide +kernel⟩,
    ⟨dev [], by decide +kernel⟩,
    ⟨{ dev [] with scans := [(0, some ⟨0, 72, true, [5]⟩)] }, 0, 0, ⟨0, 72, true, [5]⟩, by decide +kernel⟩,
    ⟨{ dev [] with reqs := [{ rq .rd .channel with rid := 9 }] }, 0, 0, 70, 0, 70, by decide +kernel⟩,
    ⟨dev [], 0, 0, 2 ^ 30, by decide +kernel⟩⟩

/-- Hypotheses of Obligations.EventsAndMailbox met. -/
theorem witness_EventsAndMailbox :
    (∃ (ld : Fin 17),
      ld.val ≠ 16) ∧
    (∃ (s : State) (p : Fin 16) (ld : Fin 17),
      s.sound = true ∧ ld.val ≠ 16 ∧ s.present p ld = true ∧ (s.func (fnOf p ld)).flr = false ∧ s.mboxFree
        (fnOf p ld) = true) ∧
    (∃ (s : State) (p : Fin 16) (ld : Fin 17) (op : BitVec 16),
      s.sound = true ∧ ld.val ≠ 16 ∧ s.present p ld = true ∧ (s.func (fnOf p ld)).flr = false ∧
      s.mboxFree (fnOf p ld) = true ∧ 2 ≤ op.toNat) ∧
    (∃ (s : State) (p : Fin 16) (ld : Fin 17) (r : FaultRec) (la : Option Nat) (ev : Nat × Nat),
      s.sound = true ∧ ld.val ≠ 16 ∧ s.present p ld = true ∧ (s.func (fnOf p ld)).flr = false ∧
      s.mboxFree (fnOf p ld) = true ∧
      s.records.find? (fun r => r.seq == (s.reg (uvMboxPayload (fnOf p ld) 0)).toNat % 2 ^ 32) = some r ∧
      s.tells r p ld = some la ∧ eventOf r (s.flag fltCfgHostCeEn) = some ev) ∧
    (∃ (s : State) (p : Fin 16) (ld : Fin 17),
      s.sound = true ∧ ld.val ≠ 16 ∧ s.present p ld = true ∧ (s.func (fnOf p ld)).flr = false ∧
      s.mboxFree (fnOf p ld) = true ∧
      (s.records.find? (fun r => r.seq == (s.reg (uvMboxPayload (fnOf p ld) 0)).toNat % 2 ^ 32)).all (fun r =>
        (s.tells r p ld).isNone || (eventOf r (s.flag fltCfgHostCeEn)).isNone) = true) :=
  ⟨⟨0, by decide +kernel⟩,
    ⟨dev [(uvMboxStatusResult 0, 3)], 0, 0, by decide +kernel⟩,
    ⟨dev [(uvMboxStatusResult 0, 3)], 0, 0, 9, by decide +kernel⟩,
    ⟨({ dev [] with records := [frec 4, { frec 5 with dom := some 0, addr := some (4480, 1) }] }).setReg
      (uvMboxPayload 0 0) 5,
      0, 0, { frec 5 with dom := some 0, addr := some (4480, 1) }, some 4480, (2, 0), by decide +kernel⟩,
    ⟨({ dev [] with records := [frec 4] }).setReg (uvMboxPayload 0 0) 5, 0, 0, by decide +kernel⟩⟩

/-- Hypotheses of Obligations.TimedCommits met. -/
theorem witness_TimedCommits :
    (∃ (s u : State) (v : Word) (t0 : Nat),
      s.sound = true ∧ s.takesWrite .plain false none = true ∧
      t0 = (if bitAt v.toNat 11 = true then s.soonest else s.fld topCommitTimeTNs) ∧ bitAt v.toNat 12 = false ∧
      bitsOf v.toNat 0 8 < 32 ∧ bitsOf v.toNat 8 3 ≤ 2 ∧ ((bitsOf v.toNat 0 8 = 0) ↔ (bitsOf v.toNat 8 3 ≠ 0)) ∧
      s.tide.master + 10000 * 2 ^ 40 ≤ t0 * 2 ^ 40 ∧ t0 * 2 ^ 40 ≤ s.tide.master + 3600000000000 * 2 ^ 40 ∧
      s.fld topCommitStatusSealed &&& bitsOf v.toNat 0 8 = 0 ∧ s.commits.length < 64 ∧
      s.checkGroups (bitsOf v.toNat 0 8) (s.commits.any (fun e => decide (t0 < e.t))) = (u, 0) ∧ u.sound = true ∧
      u.commits = s.commits ∧ (∀ e ∈ s.commits, e.tag ≠ bitsOf v.toNat 13 16) ∧ u.powerBusy = false) ∧
    (∃ (s : State) (v : Word),
      s.sound = true ∧ s.takesWrite .plain false none = true ∧ bitAt v.toNat 11 = false ∧ bitAt v.toNat 12 = false ∧
      bitsOf v.toNat 0 8 < 32 ∧ bitsOf v.toNat 8 3 ≤ 2 ∧ ((bitsOf v.toNat 0 8 = 0) ↔ (bitsOf v.toNat 8 3 ≠ 0)) ∧
      s.fld topCommitTimeTNs * 2 ^ 40 < s.tide.master + 10000 * 2 ^ 40) ∧
    (∃ (s : State) (v : Word) (e : CommitEntry),
      s.sound = true ∧ s.takesWrite .plain false none = true ∧ e ∈ s.commits ∧ s.commits.Pairwise (fun a b => a.tag ≠ b.tag) ∧
      e.tag = bitsOf v.toNat 13 16) ∧
    (∃ (s u : State) (e : CommitEntry) (rest : List CommitEntry),
      s.sound = true ∧ s.commits = e :: rest ∧ s.df = false ∧ e.action = 0 ∧ e.tag < 2 ^ 16 ∧
      ({ s with commits := rest } : State).checkGroups e.groups (!rest.isEmpty) = (u, 0) ∧ u.sound = true) ∧
    (∃ (s : State) (e : CommitEntry) (rest : List CommitEntry),
      s.sound = true ∧ s.commits = e :: rest ∧ s.df = false ∧ e.action = 1 ∧ e.tag < 2 ^ 16) ∧
    (∃ (s : State) (e : CommitEntry) (rest : List CommitEntry),
      s.sound = true ∧ s.commits = e :: rest ∧ s.df = false ∧ e.action = 2 ∧ e.tag < 2 ^ 16 ∧ s.isS = false) :=
  ⟨⟨act [(topCommitTimeTNs, 1000000)], act [(topCommitTimeTNs, 1000000)], 16 + 7 * 2 ^ 13, 1000000, by decide +kernel⟩,
    ⟨act [(topCommitTimeTNs, 5000)], 2 + 7 * 2 ^ 13, by decide +kernel⟩,
    ⟨{ act [] with commits := [⟨900000, 1, 0, 6⟩, ⟨1000000, 2, 0, 7⟩] }, 7 * 2 ^ 13, ⟨1000000, 2, 0, 7⟩, by decide +kernel⟩,
    ⟨{ act [(qosPolACir 3, 50)] with commits := [⟨0, 2, 0, 7⟩] }, act [(qosPolACir 3, 50)], ⟨0, 2, 0, 7⟩, [],
      by decide +kernel⟩,
    ⟨{ act [(pmuCntCount 0 3, 50)] with commits := [⟨0, 0, 1, 7⟩, ⟨5, 0, 2, 8⟩] }, ⟨0, 0, 1, 7⟩, [⟨5, 0, 2, 8⟩],
      by decide +kernel⟩,
    ⟨{ act [] with commits := [⟨0, 0, 2, 7⟩, ⟨5, 1, 0, 8⟩] }, ⟨0, 0, 2, 7⟩, [⟨5, 1, 0, 8⟩], by decide +kernel⟩⟩

/-- Hypotheses of Obligations.PtpMessages met. -/
theorem witness_PtpMessages :
    (∃ (s : State),
      s.sound = true ∧ s.tide.masters ≠ [] ∧ (s.flag tbCfgStepEn = false ∨ s.flag tbStatusEverLocked = true)) ∧
    (∃ (s : State) (seq t2 : Nat),
      s.sound = true ∧ s.tide.masters ≠ [] ∧ (s.flag tbCfgStepEn = false ∨ s.flag tbStatusEverLocked = true) ∧
      s.tide.syncs.find? (fun q => q.1 == seq) = some (seq, t2)) ∧
    (∃ (s : State),
      s.sound = true ∧ s.fld tbPtpCfgDelayMech = 0) ∧
    (∃ (s : State) (seq t1 t2 t3 : Nat),
      s.fld tbPtpCfgDelayMech = 0 ∧ s.tide.delayReq = some (seq, t3) ∧ s.tide.sync12 = some (t1, t2)) ∧
    (∃ (s : State),
      s.fld tbPtpCfgDelayMech = 1) ∧
    (∃ (s : State) (seq t1 : Nat),
      s.sound = true ∧ s.fld tbPtpCfgDelayMech = 1 ∧ s.tide.pdelayReq = some (seq, t1)) ∧
    (∃ (s : State) (seq t1 t2 t4 : Nat),
      s.sound = true ∧ s.tide.pdelayReq = some (seq, t1) ∧ s.tide.pdelayResp = some (seq, t2, t4)) ∧
    (∃ (s : State),
      s.sound = true) ∧
    (∃ (s : State) (m : PtpMaster),
      s.sound = true ∧ bestMaster s.tide.masters = some m) :=
  ⟨⟨{ act [(tbCfgPri0, 1), (tbCfgStepEn, 0)] with tide := { masters := [⟨[1], 2⟩] } }, by decide +kernel⟩,
    ⟨{ act [(tbCfgPri0, 1), (tbCfgStepEn, 0)] with tide := { masters := [⟨[1], 2⟩], syncs := [(3, 900)] } }, 3, 900,
      by decide +kernel⟩,
    ⟨act [], by decide +kernel⟩,
    ⟨{ act [] with tide := { delayReq := some (3, 500), sync12 := some (100, 300) } }, 3, 100, 300, 500, by decide +kernel⟩,
    ⟨act [(tbPtpCfgDelayMech, 1)], by decide +kernel⟩,
    ⟨{ act [(tbPtpCfgDelayMech, 1)] with tide := { pdelayReq := some (3, 100) } }, 3, 100, by decide +kernel⟩,
    ⟨{ act [(tbPtpCfgDelayMech, 1)] with tide := { pdelayReq := some (3, 100), pdelayResp := some (3, 300, 500) } }, 3, 100,
      300, 500, by decide +kernel⟩,
    ⟨{ act [(tbStatusSource, 1), (tbStatusState, 2), (tbStatusEverLocked, 1), (tbCfgPri0, 1), (tbCfgPri1, 0), (tbCfgPri2, 0), (tbCfgHoldoverLimitS, 9)] with tide := { ptp := { qualified := true }, masters := [⟨[1], 2⟩] } },
      by decide +kernel⟩,
    ⟨{ act [(tbStatusSource, 1), (tbStatusState, 2), (tbStatusEverLocked, 1), (tbCfgPri0, 1), (tbCfgPri1, 0), (tbCfgPri2, 0), (tbCfgHoldoverLimitS, 9)] with tide := { ptp := { qualified := true }, masters := [⟨[1], 2⟩] } },
      ⟨[1], 2⟩, by decide +kernel⟩⟩

/-- Hypotheses of Obligations.ClockRegisters met. -/
theorem witness_ClockRegisters :
    (∃ (s : State),
      s.sound = true ∧ s.tide.tod = none ∧ (s.flag tbCfgStepEn = false ∨ s.flag tbStatusEverLocked = true)) ∧
    (∃ (s : State),
      s.sound = true) ∧
    (∃ (s : State),
      s.sound = true ∧ s.fld tbStatusState = 3) ∧
    (∃ (s : State) (v : Word),
      s.sound = true ∧ s.takesWrite .plain true none = true ∧ v ≠ 0 ∧
      s.commits.head?.all (fun e => tideAdd s.tide.master (signedOf 64 v.toNat * (tideNs : Int)) / tideNs < e.t) = true) ∧
    (∃ (s : State),
      s.takesWrite .plain true none = true) ∧
    (∃ (s : State) (v : Word),
      s.takesWrite .plain true none = true ∧ s.tbCfgBad v.toNat = true) ∧
    (∃ (s : State) (v : Word),
      s.sound = true ∧ s.takesWrite .plain true none = true ∧ s.tbCfgBad v.toNat = false) ∧
    (∃ (s : State),
      s.sound = true ∧ s.regReach true = true) :=
  ⟨⟨act [(tbCfgPri0, 2), (tbCfgStepEn, 0)], by decide +kernel⟩,
    ⟨act [], by decide +kernel⟩,
    ⟨act [(tbStatusState, 3), (tbStatusSource, 0)], by decide +kernel⟩,
    ⟨act [], 0xFFFFFFFFFFFFFFFE, by decide +kernel⟩,
    ⟨act [], by decide +kernel⟩,
    ⟨act [], 1, by decide +kernel⟩,
    ⟨act [], 0x0000020000104043, by decide +kernel⟩,
    ⟨{ act [] with tide := { master := 2 ^ 100 + 2 ^ 88 * 9 + 2 ^ 30 } }, by decide +kernel⟩⟩

/-- Hypotheses of Obligations.StraitFramesSent met. -/
theorem witness_StraitFramesSent :
    (∃ (s : State) (l : Half) (f : StraitHeld) (rest : List StraitHeld),
      s.sound = true ∧ s.straitUp l.idx = true ∧ (s.strait.get l).resend = f :: rest ∧ (s.strait.get l).inv - f.inv ≤ 16384) ∧
    (∃ (s : State) (l : Half) (key : Bytes),
      s.sound = true ∧ s.straitUp l.idx = true ∧ (s.strait.get l).resend = [] ∧ (s.strait.get l).nakDue = true ∧
      s.straitKey l.idx 0 (s.fld (twStatusKeySetTx l.idx)) = some key ∧ (s.strait.get l).inv + 1 < 2 ^ 96 - 1) ∧
    (∃ (s : State) (l : Half) (key : Bytes) (xid a b : Nat) (rest : List (Nat × Nat × Nat × Nat)),
      s.sound = true ∧ s.straitUp l.idx = true ∧ (s.strait.get l).resend = [] ∧ (s.strait.get l).nakDue = false ∧
      (s.strait.get l).initAckDue = false ∧ (s.strait.get l).timeDue = (1, xid, a, b) :: rest ∧
      s.straitKey l.idx 0 (s.fld (twStatusKeySetTx l.idx)) = some key ∧ (s.strait.get l).inv + 1 < 2 ^ 96 - 1) ∧
    (∃ (s : State) (l : Half) (key : Bytes) (m : MirMsg) (n c : Nat),
      s.sound = true ∧ s.straitUp l.idx = true ∧ (s.strait.get l).resend = [] ∧ (s.strait.get l).nakDue = false ∧
      (s.strait.get l).initAckDue = false ∧ (s.strait.get l).timeDue = [] ∧ (s.strait.get l).drain = none ∧
      (s.strait.get l).replay.length < 1023 ∧ (s.strait.get l).head 0 = some (0, n, c, m) ∧ (s.strait.get l).credits 0 ≠ 0 ∧
      s.straitKey l.idx 0 (s.fld (twStatusKeySetTx l.idx)) = some key ∧ (s.strait.get l).inv + 1 < 2 ^ 96 - 1) ∧
    (∃ (s : State) (l : Half) (key : Bytes),
      s.sound = true ∧ s.straitUp l.idx = true ∧ (s.strait.get l).ackDue = true ∧
      s.straitKey l.idx 0 (s.fld (twStatusKeySetTx l.idx)) = some key ∧ (s.strait.get l).inv + 1 < 2 ^ 96 - 1) ∧
    (∃ (s : State) (l : Half),
      s.sound = true ∧ s.straitUp l.idx = true) ∧
    (∃ (s : State) (l : Half),
      s.fld (twStatusState l.idx) = 3 ∧
      (s.strait.get l).initAckSeen = false ∨ (s.strait.get l).initAckSent = false ∨ s.straitDomainsRun l.idx = false) ∧
    (∃ (s : State) (l : Half),
      s.fld (twStatusState l.idx) = 3 ∧ s.sound = true ∧ s.straitMay l.idx = true ∧ (s.strait.get l).initAckSeen = true ∧
      (s.strait.get l).initAckSent = true ∧ s.straitDomainsRun l.idx = true) ∧
    (∃ (s : State) (l : Half) (key : Bytes),
      s.sound = true ∧ s.fld (twStatusState l.idx) = 3 ∧ (s.strait.get l).initDue = true ∧
      s.straitKey l.idx 0 (s.fld (twStatusKeySetTx l.idx)) = some key ∧ (s.strait.get l).inv + 1 < 2 ^ 96 - 1) :=
  ⟨⟨stra 4 (fun k => { k with inv := 9, resend := [⟨3, 5, [1, 2]⟩, ⟨4, 6, [3]⟩] }) [], .a, ⟨3, 5, [1, 2]⟩, [⟨4, 6, [3]⟩],
      by decide +kernel⟩,
    ⟨stra 4 (fun k => { k with nakDue := true, ackDue := true, ackValid := true }) [(twSeqRxExpected 0, 7)], .a, straKey,
      by decide +kernel⟩,
    ⟨stra 4 (fun k => { k with timeDue := [(1, 3, 44, 55)] }) [], .a, straKey, 3, 44, 55, [], by decide +kernel⟩,
    ⟨stra 4 (fun k => { k with queue := [(1, 0, 0, .cut 4), (0, 2, 1, .cut 5), (0, 2, 1, .cut 6), (0, 3, 1, .cut 7)] })
      [(twSeqTxNext 0, 4095)],
      .a, straKey, .cut 5, 2, 1, by decide +kernel⟩,
    ⟨stra 4 (fun k => { k with ackDue := true }) [(twSeqRxExpected 0, 7)], .a, straKey, by decide +kernel⟩,
    ⟨stra 4 (fun k => { k with xid := 65535, timeReq := some (65534, none) }) [], .a, by decide +kernel⟩,
    ⟨stra 3 id [], .a, by decide +kernel⟩,
    ⟨stra 3 (fun k => { k with initAckSeen := true, initAckSent := true }) [], .a, by decide +kernel⟩,
    ⟨stra 3 (fun k => { k with initDue := true }) [], .a, straKey, by decide +kernel⟩⟩

/-- Hypotheses of Obligations.StraitFramesReceived met. -/
theorem witness_StraitFramesReceived_0 :
    (∃ (s : State) (l : Half) (bytes : List Byte) (v set : Nat) (h : FrameHead) (plain : Bytes),
      s.sound = true ∧ s.straitUp l.idx = true ∧ s.frameIn l bytes false = .good h v set plain ∧ h.typ = 1 ∧
      (h.ackValid = true → (h.ack + 4096 - s.fld (twSeqTxOldest l.idx)) % 4096 < s.fld (twSeqOutstanding l.idx) ∨ (s.fld
        (twSeqTxOldest l.idx) + 4095 - h.ack) % 4096 < 2048) ∧
      h.seq = s.fld (twSeqRxExpected l.idx) ∧ payloadMsgs plain ≠ [] ∧
      ((s.strait.get l).rx.filter (fun f => f.vc == h.vc && !f.old)).length < (s.strait.get l).bufOf h.vc) :=
  ⟨stra 4 id [(twSeqRxExpected 0, 4095)], .a, frm (hd 1 4095 0 false 3) 3 (msgsPayload [.cut 5]), 3, 0,
      hd 1 4095 0 false 3, msgsPayload [.cut 5], by decide +kernel⟩

/-- Hypotheses of Obligations.StraitFramesReceived met. -/
theorem witness_StraitFramesReceived_1 :
    (∃ (s : State) (l : Half) (bytes : List Byte) (v set : Nat) (h : FrameHead) (plain : Bytes),
      s.sound = true ∧ s.straitUp l.idx = true ∧ s.frameIn l bytes false = .good h v set plain ∧ h.typ = 1 ∧
      (h.ackValid = true → (h.ack + 4096 - s.fld (twSeqTxOldest l.idx)) % 4096 < s.fld (twSeqOutstanding l.idx) ∨ (s.fld
        (twSeqTxOldest l.idx) + 4095 - h.ack) % 4096 < 2048) ∧
      0 < (h.seq + 4096 - s.fld (twSeqRxExpected l.idx)) % 4096 ∧
      (h.seq + 4096 - s.fld (twSeqRxExpected l.idx)) % 4096 < 2048 ∧ (s.strait.get l).nakOpen = false) :=
  ⟨stra 4 id [(twSeqRxExpected 0, 4095)], .a, frm (hd 1 1 0 false 3) 3 (msgsPayload [.cut 5]), 3, 0, hd 1 1 0 false 3,
      msgsPayload [.cut 5], by decide +kernel⟩

/-- Hypotheses of Obligations.StraitFramesReceived met. -/
theorem witness_StraitFramesReceived_2 :
    (∃ (s : State) (l : Half) (bytes : List Byte) (v set : Nat) (h : FrameHead) (plain : Bytes),
      s.sound = true ∧ s.straitUp l.idx = true ∧ s.frameIn l bytes false = .good h v set plain ∧ h.ackValid = true ∧
      (h.ack + 4096 - s.fld (twSeqTxOldest l.idx)) % 4096 < s.fld (twSeqOutstanding l.idx) ∧ h.typ = 2) :=
  ⟨stra 4 (fun k => { k with inv := 9, replay := [⟨4, 5, []⟩, ⟨5, 6, []⟩] }) [(twSeqTxOldest 0, 4), (twSeqOutstanding 0, 2)],
      .a, frm (hd 2 0 4 true 3) 3 (List.replicate 224 0), 3, 0, hd 2 0 4 true 3, List.replicate 224 0, by decide +kernel⟩

/-- Hypotheses of Obligations.StraitFramesReceived met. -/
theorem witness_StraitFramesReceived_3 :
    (∃ (s : State) (l : Half) (bytes : List Byte) (v set : Nat) (h : FrameHead) (plain : Bytes),
      s.sound = true ∧ s.straitUp l.idx = true ∧ s.frameIn l bytes false = .good h v set plain ∧ h.ackValid = true ∧
      (h.ack + 4096 - s.fld (twSeqTxOldest l.idx)) % 4096 < s.fld (twSeqOutstanding l.idx) ∧ h.typ = 3 ∧
      (∀ f ∈ (s.strait.get l).replay, (s.strait.get l).inv - f.inv ≤ 16384)) :=
  ⟨stra 4 (fun k => { k with inv := 9, replay := [⟨4, 5, []⟩, ⟨5, 6, []⟩] }) [(twSeqTxOldest 0, 4), (twSeqOutstanding 0, 2)],
      .a, frm (hd 3 0 4 true 3) 3 (List.replicate 224 0), 3, 0, hd 3 0 4 true 3, List.replicate 224 0, by decide +kernel⟩

/-- Hypotheses of Obligations.StraitFramesReceived met. -/
theorem witness_StraitFramesReceived_4 :
    (∃ (s : State) (l : Half) (bytes : List Byte) (v set : Nat) (h : FrameHead) (plain : Bytes),
      s.sound = true ∧ s.straitUp l.idx = true ∧ s.frameIn l bytes false = .good h v set plain ∧ h.typ = 4 ∧
      plain.headD 0 = 0 ∧
      (h.ackValid = true → (h.ack + 4096 - s.fld (twSeqTxOldest l.idx)) % 4096 < s.fld (twSeqOutstanding l.idx) ∨ (s.fld
        (twSeqTxOldest l.idx) + 4095 - h.ack) % 4096 < 2048)) :=
  ⟨stra 4 id [], .a, frm (hd 4 0 0 false 3) 3 (padTo 224 0 [0, 2, 9]), 3, 0, hd 4 0 0 false 3, padTo 224 0 [0, 2, 9],
      by decide +kernel⟩

/-- Hypotheses of Obligations.StraitFramesReceived met. -/
theorem witness_StraitFramesReceived_7 :
    (∃ (s : State) (l : Half) (bytes : List Byte) (v set : Nat) (h : FrameHead) (plain : Bytes),
      s.sound = true ∧ s.fld (twStatusState l.idx) = 3 ∧ s.frameIn l bytes false = .good h v set plain ∧
      s.initCause l set plain = 0 ∧ h.typ = 5) :=
  ⟨stra 3 id [], .a, frm (hd 5 0 0 false 3) 3 (initPlain 12), 3, 0, hd 5 0 0 false 3, initPlain 12, by decide +kernel⟩

/-- Hypotheses of Obligations.StraitFramesReceived met. -/
theorem witness_StraitFramesReceived_8 :
    (∃ (s : State) (l : Half) (bytes : List Byte) (v set : Nat) (h : FrameHead) (plain : Bytes),
      s.sound = true ∧ s.fld (twStatusState l.idx) = 3 ∧ s.frameIn l bytes false = .good h v set plain ∧
      s.initCause l set plain = 0 ∧ h.typ = 6 ∧ (s.strait.get l).initAckSent = false) :=
  ⟨stra 3 id [], .a, frm (hd 6 0 0 false 3) 3 (initPlain 12), 3, 0, hd 6 0 0 false 3, initPlain 12, by decide +kernel⟩

/-- Hypotheses of Obligations.StraitFramesReceived met. -/
theorem witness_StraitFramesReceived_9 :
    (∃ (s : State) (l : Half) (bytes : List Byte) (v set : Nat) (h : FrameHead) (plain : Bytes),
      s.sound = true ∧ s.fld (twStatusState l.idx) = 3 ∧ s.frameIn l bytes false = .good h v set plain ∧
      s.initCause l set plain ≠ 0 ∧ h.typ = 5) :=
  ⟨stra 3 id [], .a, frm (hd 5 0 0 false 3) 3 (initPlain 9), 3, 0, hd 5 0 0 false 3, initPlain 9, by decide +kernel⟩

/-- Hypotheses of Obligations.StraitFramesReceived met. -/
theorem witness_StraitFramesReceived :
    (∃ (s : State) (l : Half) (f : StraitHeld) (rest : List StraitHeld),
      s.sound = true ∧ s.straitUp l.idx = true ∧ (s.strait.get l).replay = f :: rest ∧ (s.strait.get l).inv - f.inv ≤ 16384) ∧
    (∃ (s : State) (l : Half),
      s.sound = true ∧ s.straitUp l.idx = true ∧ (s.strait.get l).badRun + 1 < 8192) :=
  ⟨⟨stra 4 (fun k => { k with inv := 9, replay := [⟨4, 5, []⟩] }) [], .a, ⟨4, 5, []⟩, [], by decide +kernel⟩,
    ⟨stra 4 id [], .a, by decide +kernel⟩⟩

/-- Hypotheses of Obligations.StraitStates met. -/
theorem witness_StraitStates :
    (∃ (s : State) (l : Half),
      s.straitMay l.idx = true ∧ s.fld (twStatusState l.idx) = 1 ∧ (s.strait.get l).cfgOk = true ∧
      (s.strait.get l).waitRetry = false) ∧
    (∃ (s : State) (l : Half) (tx rx : BitVec 8) (a b : Nat),
      s.sound = true ∧ s.straitMay l.idx = true ∧ s.fld (twStatusState l.idx) = 2 ∧ widest tx.toNat = some a ∧
      widest rx.toNat = some b ∧ s.straitKey l.idx 0 (s.fld (twStatusKeySetTx l.idx)) ≠ none) ∧
    (∃ (s : State) (l : Half) (tx rx : BitVec 8) (a b : Nat),
      s.sound = true ∧ s.straitMay l.idx = true ∧ s.fld (twStatusState l.idx) = 2 ∧ widest tx.toNat = some a ∧
      widest rx.toNat = some b ∧ s.straitKey l.idx 0 (s.fld (twStatusKeySetTx l.idx)) = none) ∧
    (∃ (s : State) (l : Half),
      s.sound = true ∧ s.fld (twStatusState l.idx) = 2) ∧
    (∃ (s : State) (l : Half),
      s.sound = true ∧ s.fld (twStatusState l.idx) = 3 ∧ (s.strait.get l).initAckSeen = false) ∧
    (∃ (s : State) (l : Half),
      s.sound = true ∧ s.straitMay l.idx = true ∧
      (s.fld (twStatusState l.idx) = 6 ∨ (s.fld (twStatusState l.idx) = 1 ∧ (s.strait.get l).waitRetry = true))) ∧
    (∃ (s : State) (l : Half),
      s.takesWrite .plain false (some l) = true ∧ s.straitUp l.idx = true) ∧
    (∃ (s : State) (l : Half) (v : Word),
      s.takesWrite .plain false (some l) = true ∧ s.isS = false ∧ twCfgOk v.toNat = false ∧ s.boot.strait = true) ∧
    (∃ (s : State) (l : Half) (v : Word),
      s.takesWrite .plain false (some l) = true ∧ s.isS = false ∧ twCfgOk v.toNat = true ∧ s.boot.strait = false) ∧
    (∃ (s : State) (l : Half) (v : Word),
      s.takesWrite .plain false (some l) = true ∧ s.isS = false ∧ twCfgOk v.toNat = true ∧ s.boot.strait = true ∧
      v.getLsbD 0 = false ∧ s.sound = true ∧ s.fld (twStatusState l.idx) = 1) :=
  ⟨⟨stra 1 id [], .a, by decide +kernel⟩,
    ⟨stra 2 id [], .a, 0xFF, 0x3F, 0, 1, by decide +kernel⟩,
    ⟨{ stra 2 id [] with keys := [] }, .a, 0xFF, 0x3F, 0, 1, by decide +kernel⟩,
    ⟨stra 2 id [], .a, by decide +kernel⟩,
    ⟨stra 3 id [], .a, by decide +kernel⟩,
    ⟨stra 6 id [], .a, by decide +kernel⟩,
    ⟨stra 4 id [], .a, by decide +kernel⟩,
    ⟨stra 1 id [], .a, 0, by decide +kernel⟩,
    ⟨{ stra 0 id [] with boot := { State.reset.boot with running := true, filled := true } }, .a,
      (stra 0 id []).reg (twCfg 0), by decide +kernel⟩,
    ⟨stra 1 id [], .a, (stra 0 id []).reg (twCfg 0) - 1, by decide +kernel⟩⟩

/-- Hypotheses of Obligations.StraitWidthAndKeys met. -/
theorem witness_StraitWidthAndKeys :
    (∃ (s : State) (l : Half) (lost : BitVec 8) (g : Nat),
      s.sound = true ∧ s.straitUp l.idx = true ∧ s.fld (twStatusRxLocked l.idx) &&& lost.toNat ≠ 0 ∧
      widest (s.fld (twStatusRxLocked l.idx) &&& (255 - lost.toNat)) = some g) ∧
    (∃ (s : State) (l : Half) (g : Fin 8),
      s.sound = true ∧ s.straitUp l.idx = true ∧ g.val < 7) ∧
    (∃ (s : State) (l : Half) (g : Fin 8),
      s.sound = true ∧ (s.strait.get l).rxWant = some g.val ∧ (s.strait.get l).markSent = false) ∧
    (∃ (s : State) (l : Half) (g : Nat),
      (s.strait.get l).rxGroup = some g ∧ s.straitUp l.idx = true ∧ widest (s.fld (twStatusRxLocked l.idx)) = none) ∧
    (∃ (s : State) (l : Half) (set : Nat),
      s.sound = true ∧ (s.strait.get l).drain = some set ∧ set < 2 ∧ s.fld (twSeqOutstanding l.idx) = 0) ∧
    (∃ (s : State) (l : Half) (set : Nat),
      (s.strait.get l).drain = some set ∧ s.fld (twSeqOutstanding l.idx) ≠ 0) ∧
    (∃ (s : State) (l : Half),
      s.sound = true ∧ s.straitUp l.idx = true) ∧
    (∃ (s : State) (l : Half),
      s.sound = true ∧ s.straitUp l.idx = true ∧ (s.strait.get l).replay ≠ [] ∧ s.fld (twStatusRxLocked l.idx) ≠ 0) ∧
    (∃ (s : State) (l : Half) (f : StraitHeld) (rest : List StraitHeld),
      s.sound = true ∧ s.straitUp l.idx = true ∧ (s.strait.get l).replay = f :: rest ∧ 16384 < (s.strait.get l).inv - f.inv) ∧
    (∃ (s : State) (l : Half),
      s.sound = true ∧ s.straitUp l.idx = true ∧ (s.strait.get l).drain ≠ none) :=
  ⟨⟨stra 4 id [], .a, 0x10, 1, by decide +kernel⟩,
    ⟨stra 4 id [], .a, 3, by decide +kernel⟩,
    ⟨stra 5 (fun k => { k with rxWant := some 3 }) [], .a, 3, by decide +kernel⟩,
    ⟨stra 5 (fun k => { k with rxGroup := some 1 }) [(twStatusRxLocked 0, 0)], .a, 1, by decide +kernel⟩,
    ⟨stra 4 (fun k => { k with inv := 77, drain := some 1 }) [], .a, 1, by decide +kernel⟩,
    ⟨stra 4 (fun k => { k with inv := 77, drain := some 1 }) [(twSeqOutstanding 0, 1)], .a, 1, by decide +kernel⟩,
    ⟨stra 4 (fun k => { k with inv := 90000, high := 5, rx := [⟨0, 0, [.commitAck 3, .cutAck 0, .peerRefuse 0 70000 1], false⟩], replay := [⟨4, 5, []⟩], drain := some 1 }) [(twSeqOutstanding 0, 1), (mirDomStateW0State 0, mPriMirrored), (mirDomW0Role 0, 1), (domCtrlValid 0, 1)],
      .a, by decide +kernel⟩,
    ⟨stra 4 (fun k => { k with inv := 90000, high := 5, replay := [⟨4, 5, []⟩], drain := some 1 }) [(twSeqOutstanding 0, 1)],
      .a, by decide +kernel⟩,
    ⟨stra 4 (fun k => { k with inv := 90000, high := 5, replay := [⟨4, 5, []⟩], drain := some 1 }) [(twSeqOutstanding 0, 1)],
      .a, ⟨4, 5, []⟩, [], by decide +kernel⟩,
    ⟨stra 4 (fun k => { k with inv := 90000, high := 5, replay := [⟨4, 5, []⟩], drain := some 1 }) [(twSeqOutstanding 0, 1)],
      .a, by decide +kernel⟩⟩

end Sys2Proof.Tests
end

section
/-! PROOF. Writes of the privileged view and of BAR0: a field after a write by its access code (00_scope Table 0.6), the
writes that are ignored, and the registers that hold what is written to them. -/

namespace Sys2Proof.Machine

/-! ### Fields by access code (00_scope R14, Table 0.6) -/

/-- What a field of value `o` holds after a whole-register write of `x` to it. -/
def RegField.after (f : RegField) (r : RegName) (locked : Bool) (o x : Nat) : Nat :=
  match f.acc with
  | .rw | .rwt => if keeps r f.lsb x then o else x
  | .rwl => if locked then o else if keeps r f.lsb x then o else x
  | .rw1c => o &&& (x ^^^ (2 ^ f.width - 1))
  | .rw1s => o ||| x
  | .ro | .wo | .rc => o

/-- The fields of a row stand in rising order within 64 bits, none over another. -/
abbrev RegRow.apart (r : RegRow) : Prop :=
  r.fields.Pairwise (fun f g => f.lsb + f.width ≤ g.lsb) ∧ ∀ f ∈ r.fields, f.lsb + f.width ≤ 64

theorem bitsOf_lt (n lsb width : Nat) : bitsOf n lsb width < 2 ^ width := Nat.mod_lt _ (Nat.two_pow_pos _)

/-- The mask of an 8-byte access covers the whole word. -/
theorem and_laneMask_qword {v : Nat} (hv : v < 2 ^ 64) : v &&& laneMask .qword = v :=
  Nat.and_two_pow_sub_one_of_lt_two_pow hv

/-- The mask of an 8-byte access covers every bit of a field. -/
theorem bitsOf_laneMask_qword {lsb width : Nat} (h : lsb + width ≤ 64) :
    bitsOf (laneMask .qword) lsb width = 2 ^ width - 1 := by
  apply Nat.eq_of_testBit_eq
  intro i
  simp only [bitsOf, laneMask, Nat.testBit_mod_two_pow, Nat.testBit_div_two_pow, Nat.testBit_two_pow_sub_one]
  by_cases hi : i < width
  · have hin : i + lsb < 64 := by omega
    simp only [hi, hin, decide_true, Bool.and_self]
  · simp only [hi, decide_false, Bool.false_and]

/-- A field that keeps its value, or takes the one written. -/
theorem bitsOf_ite_withBits {c : Bool} {w lsb width o x : Nat} (hw : bitsOf w lsb width = o) (hx : x < 2 ^ width) :
    bitsOf (if c then w else withBits w lsb width x) lsb width = if c then o else x := by
  cases c
  · exact bitsOf_withBits_same.trans (Nat.mod_eq_of_lt hx)
  · exact hw

section Fold
/-! Steps over the fields of a row, each of which leaves the word as it is or puts something into its field. -/

variable {g : Nat → RegField → Nat}
  (step : ∀ w f, g w f = w ∨ ∃ x, g w f = withBits w f.lsb f.width x)
include step

/-- A step leaves the bits beside its field alone. -/
theorem bitsOf_step_beside {f : RegField} {l n : Nat} (w : Nat) (h : l + n ≤ f.lsb ∨ f.lsb + f.width ≤ l) :
    bitsOf (g w f) l n = bitsOf w l n := by
  obtain e | ⟨x, e⟩ := step w f <;> rw [e]
  exact bitsOf_withBits_ne h

/-- Steps over fields that lie above some bits leave those bits alone. -/
theorem bitsOf_foldl_below {fs : List RegField} {l n : Nat} (above : ∀ f ∈ fs, l + n ≤ f.lsb) (w : Nat) :
    bitsOf (fs.foldl g w) l n = bitsOf w l n := by
  induction fs generalizing w with
  | nil => rfl
  | cons f fs ih =>
    rw [List.forall_mem_cons] at above
    rw [List.foldl_cons, ih above.2, bitsOf_step_beside step w (.inl above.1)]

/-- Where fields are apart, each reads what its own step puts there, for no other step touches it. -/
theorem bitsOf_foldl_fields {val : RegField → Nat} {old : Nat} {fs : List RegField}
    (own : ∀ f ∈ fs, ∀ w, bitsOf w f.lsb f.width = bitsOf old f.lsb f.width → bitsOf (g w f) f.lsb f.width = val f)
    (apart : fs.Pairwise fun f h => f.lsb + f.width ≤ h.lsb)
    (w : Nat) (hw : ∀ f ∈ fs, bitsOf w f.lsb f.width = bitsOf old f.lsb f.width) :
    ∀ f ∈ fs, bitsOf (fs.foldl g w) f.lsb f.width = val f := by
  induction fs generalizing w with
  | nil => simp
  | cons f fs ih =>
    rw [List.forall_mem_cons] at own hw
    rw [List.pairwise_cons] at apart
    rw [List.forall_mem_cons, List.foldl_cons]
    constructor
    · rw [bitsOf_foldl_below step apart.1]
      exact own.1 w hw.1
    · refine ih own.2 apart.2 (g w f) fun h hh => ?_
      rw [bitsOf_step_beside step w (.inr (apart.1 h hh)), hw.2 h hh]

/-- Steps within 64 bits leave a word of 64 bits. -/
theorem foldl_fields_lt {fs : List RegField} (fits : ∀ f ∈ fs, f.lsb + f.width ≤ 64) {w : Nat} (hw : w < 2 ^ 64) :
    fs.foldl g w < 2 ^ 64 := by
  refine List.foldlRecOn fs g (motive := (· < 2 ^ 64)) hw fun w hw f hf => ?_
  obtain e | ⟨x, e⟩ := step w f <;> rw [e]
  · exact hw
  · exact withBits_lt hw (fits f hf)

end Fold

/-- A whole-register write leaves a word of 64 bits, and each field as its access code says. -/
theorem wordAfter_qword {r : RegRow} (ha : r.apart) {locked : Bool} {old v : Nat} (ho : old < 2 ^ 64) (hv : v < 2 ^ 64) :
    wordAfter r locked old v (laneMask .qword) < 2 ^ 64 ∧
    ∀ f ∈ r.fields, bitsOf (wordAfter r locked old v (laneMask .qword)) f.lsb f.width
      = f.after r.name locked (bitsOf old f.lsb f.width) (bitsOf v f.lsb f.width) := by
  obtain ⟨apart, fits⟩ := ha
  unfold wordAfter
  refine have step := ?step; ⟨foldl_fields_lt step fits ho, bitsOf_foldl_fields step ?own apart old fun _ _ => rfl⟩
  case step =>
    intro w f
    have keep (c : Bool) (n : Nat) : (if c then w else withBits w f.lsb f.width n) = w ∨
        ∃ x, (if c then w else withBits w f.lsb f.width n) = withBits w f.lsb f.width x := by
      cases c
      · exact .inr ⟨n, rfl⟩
      · exact .inl rfl
    cases f.acc with
    | ro | wo | rc => exact .inl rfl
    | rw1c | rw1s => exact .inr ⟨_, rfl⟩
    | rw | rwt => exact keep _ _
    | rwl =>
      dsimp only
      split
      · exact .inl rfl
      · exact keep _ _
  case own =>
    intro f hf w hw
    have hb := bitsOf_lt old f.lsb f.width
    have hx := bitsOf_lt v f.lsb f.width
    unfold RegField.after
    simp only [and_laneMask_qword hv, bitsOf_laneMask_qword (fits f hf), Nat.xor_self, Nat.and_zero, Nat.zero_or]
    cases f.acc with
    | ro | wo | rc => exact hw
    | rw1c => exact bitsOf_withBits_same.trans (Nat.mod_eq_of_lt (Nat.lt_of_le_of_lt Nat.and_le_left hb))
    | rw1s => exact bitsOf_withBits_same.trans (Nat.mod_eq_of_lt (Nat.or_lt_two_pow hb hx))
    | rw | rwt => exact bitsOf_ite_withBits hw hx
    | rwl =>
      cases locked
      · exact bitsOf_ite_withBits hw hx
      · exact hw

/-! ### What a write comes to -/

section Paths
variable {s : State} {path : RegPath} {off v : Nat} {lanes : Lanes} {r : RegRow} {i : Nat}

/-- An aligned write over a path is that of the register, in the forms that the path has (Table 19.1). -/
theorem exec_registerWrite_priv (s : State) (path : RegPath) {off : Nat} (v : Word) (lanes : Lanes) (h8 : off % 8 = 0) :
    exec (.registerWrite (.priv path) off v lanes) s
      = .next (if pathForm path lanes then s.writePriv path off v.toNat lanes else s) := by
  simp only [exec, execRegisterWrite, State.accessWrite, h8, ne_eq, not_true_eq_false, if_false]

/-- An 8-byte write is a form of every path. -/
theorem exec_registerWrite_priv_qword (s : State) (path : RegPath) {off : Nat} (v : Word) (h8 : off % 8 = 0) :
    exec (.registerWrite (.priv path) off v .qword) s = .next (s.writePriv path off v.toNat .qword) := by
  rw [exec_registerWrite_priv s path v .qword h8]
  cases path <;> rfl

/-- A row at an offset of the privileged view is the row of the map there, with the index of its copy. -/
theorem privRow_eq_some :
    privRow off = some (r, i) ↔
      regRow off = some r ∧ r.bar0 = false ∧ ∃ q, r.index off = some q ∧ (if r.n1 = 1 then q.2 else q.1) = i := by
  unfold privRow
  cases hr : regRow off with
  | none => simp
  | some r' =>
    constructor
    · intro h
      cases hb : r'.bar0
      · simp only [hb, Bool.false_eq_true, if_false, Option.map_eq_some_iff, Prod.mk.injEq] at h
        obtain ⟨q, hq, rfl, rfl⟩ := h
        exact ⟨rfl, hb, q, hq, rfl⟩
      · simp [hb] at h
    · rintro ⟨⟨⟩, hb, q, hq, rfl⟩
      simp [hb, hq]

/-- The path reaches the register, and the write is taken: the register takes it by its own rules. -/
theorem State.writePriv_taken (hrow : privRow off = some (r, i)) (hflash : r.name ≠ .bootFlashCtrl)
    (hopen : s.pathOpen path = true) (htake : s.takesWrite (regKind r.name) (shoreOff off) (heldIn r.name i) = true) :
    s.writePriv path off v lanes = s.setPriv path off v lanes := by
  simp only [State.writePriv, hrow, hopen, hflash, State.write, htake, Bool.not_true, Bool.false_eq_true, if_true, if_false]

/-- A write that is not taken changes nothing, and neither does a flash command that the registers are shut to. -/
theorem State.writePriv_ignored
    (h : ∀ r i, privRow off = some (r, i) →
      if r.name = .bootFlashCtrl then s.regReach false = false
      else s.takesWrite (regKind r.name) (shoreOff off) (heldIn r.name i) = false) :
    s.writePriv path off v lanes = s := by
  unfold State.writePriv
  split
  · rfl
  next r i hrow =>
    have hnot := h r i hrow
    by_cases hflash : r.name = .bootFlashCtrl
    · rw [if_pos hflash] at hnot
      simp [hflash, hnot]
    · rw [if_neg hflash] at hnot
      simp [hflash, hnot, State.write]

/-- An aligned write to a function's BAR0 is that of the function. -/
theorem exec_registerWrite_bar0 (s : State) (p : Fin 16) (ld : Fin 17) {off : Nat} (v : Word) (lanes : Lanes)
    (h8 : off % 8 = 0) :
    exec (.registerWrite (.bar0 p ld) off v lanes) s = .next (s.writeBar0 p ld off v.toNat lanes) := by
  simp only [exec, execRegisterWrite, State.accessWrite, h8, ne_eq, not_true_eq_false, if_false]

/-- A function that is absent, or in an FLR, takes no write (02_host_ports R64). -/
theorem State.writeBar0_absent {p ld : Nat} (h : s.present p ld = false ∨ (s.func (fnOf p ld)).flr = true) :
    s.writeBar0 p ld off v lanes = s := by
  obtain h | h := h <;> simp [State.writeBar0, State.barWrite, h]

/-- While the registers are shut, none outside the PWR, HSW and TB blocks takes a write (R412). -/
theorem State.takesWrite_of_regsShut (hshut : s.regsShut = true) (kind : RegKind) (held : Option Half) :
    s.takesWrite kind false held = false := by
  simp [State.takesWrite, State.regReach, hshut]

/-- Outside ACTIVE and DONE an ordinary register takes no write (17_boot R380). -/
theorem State.takesWrite_plain_of_phase (hshut : s.regsShut = false) (h7 : s.phase ≠ 7) (h8 : s.phase ≠ 8)
    (shore : Bool) (held : Option Half) : s.takesWrite .plain shore held = false := by
  simp [State.takesWrite, hshut, h7, h8]

/-- The lock of a copy of a register is set, the copy named by its outer index. -/
def State.rowLocked (s : State) (r : RegRow) (i : Nat) : Bool :=
  match r.lock with
  | some l => bitAt (s.reg (l + i * r.s1)).toNat 0
  | none => false

/-- A register of a commit group takes the word that its access codes give as its group does (R271, R414). -/
theorem State.setPriv_group {q : Nat × Nat} {g : Nat} (hr : regRow off = some r) (hb : r.bar0 = false)
    (hq : r.index off = some q) (hpair : (s.isS && pairReg off) = false) (hg : groupOf off = some g) :
    s.setPriv path off v lanes = s.groupWrite g fun u =>
      u.shadowSet r.name (if r.n1 = 1 then q.2 else q.1) off
        (wordAfter r (s.rowLocked r q.1) (s.reg off).toNat v (laneMask lanes)) := by
  simp only [State.setPriv, hr, hb, hq, hpair, hg, Bool.false_eq_true, if_false] <;> rfl

/-- A sealed group ignores a write, and shows it in SEALED_WRITE (11_tide_clock R271). -/
theorem State.setPriv_sealed {g : Nat} (hrow : privRow off = some (r, i)) (hpair : (s.isS && pairReg off) = false)
    (hg : groupOf off = some g) (hsealed : s.bit topCommitStatusSealed g = true) :
    s.setPriv path off v lanes = s.setFlag topCommitStatusSealedWrite true := by
  obtain ⟨hr, hb, q, hq, -⟩ := privRow_eq_some.1 hrow
  rw [State.setPriv_group hr hb hq hpair hg, State.groupWrite, if_pos hsealed]

/-- A register outside the commit groups takes the word that its access codes give. -/
theorem State.setPriv_plain {q : Nat × Nat} (hr : regRow off = some r) (hb : r.bar0 = false) (hq : r.index off = some q)
    (hpair : (s.isS && pairReg off) = false) (hg : groupOf off = none) :
    s.setPriv path off v lanes =
      s.plainSet path r.name (if r.n1 = 1 then q.2 else q.1) q.2 off
        (wordAfter r (s.rowLocked r q.1) (s.reg off).toNat v (laneMask lanes)) (v &&& laneMask lanes) (lanes == .qword) := by
  simp only [State.setPriv, hr, hb, hq, hpair, hg, Bool.false_eq_true, if_false] <;> rfl

end Paths

/-! ### Registers that hold what is written to them -/

/-- An ordinary register of one copy, of no commit group and held in neither half, that stores the word of a write. -/
structure StoredReg (off : Nat) (r : RegRow) : Prop where
  row : regRow off = some r
  priv : r.bar0 = false
  index : r.index off = some (0, 0)
  aligned : off % 8 = 0
  kind : regKind r.name = .plain
  held : heldIn r.name 0 = none
  group : groupOf off = none
  pair : pairReg off = false
  apart : r.apart
  stores : ∀ (s : State) (path : RegPath) (new act : Nat) (whole : Bool),
    s.plainSet path r.name 0 0 off new act whole = s.setReg off (BitVec.ofNat 64 new)

section Stored
variable {s : State} {path : RegPath} {off : Nat} {r : RegRow}

theorem State.regsWf_of_sound (hs : s.sound = true) : s.regsWf = true := by
  simp only [State.sound, Bool.and_eq_true] at hs
  exact hs.1.1

theorem StoredReg.privRow (h : StoredReg off r) : privRow off = some (r, 0) :=
  privRow_eq_some.2 ⟨h.row, h.priv, _, h.index, ite_self 0⟩

/-- The register takes a write whole. -/
theorem StoredReg.setPriv (h : StoredReg off r) (v : Nat) :
    s.setPriv path off v .qword =
      s.setReg off (BitVec.ofNat 64 (wordAfter r (s.rowLocked r 0) (s.reg off).toNat v (laneMask .qword))) := by
  rw [State.setPriv_plain h.row h.priv h.index (by rw [h.pair, Bool.and_false]) h.group, ite_self, h.stores]

/-- An 8-byte write that is taken leaves each field as its access code says, and changes no other register. -/
theorem StoredReg.write (h : StoredReg off r) (v : Word) (hs : s.sound = true) (hopen : s.pathOpen path = true)
    (htake : s.takesWrite .plain (shoreOff off) none = true) :
    ∃ t, exec (.registerWrite (.priv path) off v .qword) s = .next t ∧
      (∀ f ∈ r.fields, t.fld ⟨off, f.lsb, f.width⟩ =
        f.after r.name (s.rowLocked r 0) (s.fld ⟨off, f.lsb, f.width⟩) (bitsOf v.toNat f.lsb f.width)) ∧
      (∀ k, k ≠ off → t.reg k = s.reg k) ∧ t.dram = s.dram := by
  have hwf : s.regsWf = true := State.regsWf_of_sound hs
  have hflash : r.name ≠ .bootFlashCtrl := fun e => by
    have hkind := h.kind
    rw [e] at hkind
    cases hkind
  obtain ⟨hlt, hfld⟩ := wordAfter_qword h.apart (locked := s.rowLocked r 0) (s.reg off).isLt v.isLt
  refine ⟨_, (exec_registerWrite_priv_qword s path v h.aligned).trans (congrArg _
    ((State.writePriv_taken h.privRow hflash hopen (by rw [h.kind, h.held]; exact htake)).trans (h.setPriv v.toNat))),
    fun f hf => ?_, fun k hk => State.reg_setReg_ne hwf _ hk, rfl⟩
  rw [State.fld, State.reg_setReg_same hwf, BitVec.toNat_ofNat, Nat.mod_eq_of_lt hlt]
  exact hfld f hf

end Stored

/-- The row of BOOT_LOCK (17_boot R388). -/
def bootLockRow : RegRow := ⟨.bootLock, false, 0x1000F8, 1, 0x0, 1, 0x0, none, [⟨0, 1, .rw1s, 0⟩]⟩

/-- The row of MAP_CFG. -/
def mapCfgRow : RegRow := ⟨.mapCfg, false, 0x700000, 1, 0x0, 1, 0x0, some 0x7000F8, [⟨0, 5, .rwl, 8⟩]⟩

/-- The row of PWR_EVT: nine events. -/
def pwrEvtRow : RegRow :=
  ⟨.pwrEvt, false, 0x300030, 1, 0x0, 1, 0x0, none, (List.range 9).map fun i => ⟨i, 1, .rw1c, 0⟩⟩

theorem bootLock_stored : StoredReg bootLock bootLockRow :=
  ⟨by decide, rfl, rfl, rfl, rfl, rfl, by decide, by decide, by decide, fun _ _ _ _ _ => rfl⟩

theorem mapCfg_stored : StoredReg mapCfg mapCfgRow :=
  ⟨by decide, rfl, rfl, rfl, rfl, rfl, by decide, by decide, by decide, fun _ _ _ _ _ => rfl⟩

theorem pwrEvt_stored : StoredReg pwrEvt pwrEvtRow :=
  ⟨by decide, rfl, rfl, rfl, rfl, rfl, by decide, by decide, by decide, fun _ _ _ _ _ => rfl⟩

/-! ### One-bit fields -/

/-- A bit of a number is its field of width 1. -/
theorem bitsOf_one_eq (n i : Nat) : bitsOf n i 1 = b2n (bitAt n i) := by
  unfold bitsOf bitAt
  obtain h | h := Nat.mod_two_eq_zero_or_one (n / 2 ^ i) <;> rw [Nat.pow_one, h] <;> rfl

/-- A flag is a bit of its register. -/
theorem State.flag_one_eq (s : State) (k i : Nat) : s.flag ⟨k, i, 1⟩ = bitAt (s.reg k).toNat i := rfl

/-- A field of width 1 is its flag. -/
theorem State.fld_one_eq (s : State) (k i : Nat) : s.fld ⟨k, i, 1⟩ = b2n (s.flag ⟨k, i, 1⟩) := by
  rw [State.flag_one_eq]
  exact bitsOf_one_eq _ _

/-- A lock is set by 1 and cleared by nothing (00_scope Table 0.6, RW1S). -/
theorem b2n_or_eq_one (o x : Bool) : (b2n o ||| b2n x == 1) = (o || x) := by cases o <;> cases x <;> rfl

/-- An event is cleared by 1 and kept by 0 (00_scope Table 0.6, RW1C). -/
theorem b2n_clear_eq_one (o x : Bool) : (b2n o &&& (b2n x ^^^ (2 ^ 1 - 1)) == 1) = (o && !x) := by
  cases o <;> cases x <;> rfl

/-! ### A lock, a locked field, events -/

section AccessCodes
variable {s : State} {path : RegPath}

/-- BOOT_LOCK is set by 1 and by nothing cleared. -/
theorem write_bootLock (v : Word) (hs : s.sound = true) (hopen : s.pathOpen path = true)
    (htake : s.takesWrite .plain false none = true) :
    ∃ t, exec (.registerWrite (.priv path) bootLock v .qword) s = .next t ∧
      t.flag bootLockLock = (s.flag bootLockLock || bitAt v.toNat 0) ∧ (∀ k, k ≠ bootLock → t.reg k = s.reg k) ∧
      t.dram = s.dram := by
  obtain ⟨t, ht, hfld, hregs, hdram⟩ := bootLock_stored.write v hs hopen htake
  refine ⟨t, ht, ?_, hregs, hdram⟩
  have hlock := hfld ⟨0, 1, .rw1s, 0⟩ (by decide)
  rw [State.fld_one_eq s, bitsOf_one_eq] at hlock
  exact (congrArg (· == 1) hlock).trans (b2n_or_eq_one _ _)

/-- MAP_CFG.PIN_MIB keeps its value under MAP_LOCK and at a reserved encoding, and else takes the one written. -/
theorem write_mapCfg (v : Word) (hs : s.sound = true) (hopen : s.pathOpen path = true)
    (htake : s.takesWrite .plain false none = true) :
    ∃ t, exec (.registerWrite (.priv path) mapCfg v .qword) s = .next t ∧
      t.fld mapCfgPinMib =
        (if s.flag mapLockLock then s.fld mapCfgPinMib
          else if 16 < v.toNat % 32 then s.fld mapCfgPinMib else v.toNat % 32) ∧
      (∀ k, k ≠ mapCfg → t.reg k = s.reg k) := by
  obtain ⟨t, ht, hfld, hregs, -⟩ := mapCfg_stored.write v hs hopen htake
  refine ⟨t, ht, ?_, hregs⟩
  have hlocked : s.rowLocked mapCfgRow 0 = s.flag mapLockLock := (s.flag_one_eq mapLock 0).symm
  have hpin := hfld ⟨0, 5, .rwl, 8⟩ (by decide)
  have hnew : bitsOf v.toNat 0 5 = v.toNat % 32 := by simp [bitsOf]
  rw [hlocked, hnew] at hpin
  refine hpin.trans ?_
  simp only [RegField.after, mapCfgRow, keeps, gt_iff_lt, decide_eq_true_eq, mapCfgPinMib]

/-- An event of PWR_EVT is cleared by 1. -/
theorem write_pwrEvt (v : Word) (hs : s.sound = true) (hopen : s.pathOpen path = true)
    (htake : s.takesWrite .plain true none = true) :
    ∃ t, exec (.registerWrite (.priv path) pwrEvt v .qword) s = .next t ∧
      (∀ f ∈ [pwrEvtSupplyWarn, pwrEvtSupplyDip, pwrEvtVrNoAck, pwrEvtRailFault],
        t.flag f = (s.flag f && !bitAt v.toNat f.lsb)) ∧
      (∀ k, k ≠ pwrEvt → t.reg k = s.reg k) := by
  obtain ⟨t, ht, hfld, hregs, -⟩ := pwrEvt_stored.write v hs hopen htake
  refine ⟨t, ht, fun f hf => ?_, hregs⟩
  obtain ⟨hrow, hkey⟩ : ⟨f.lsb, 1, .rw1c, 0⟩ ∈ pwrEvtRow.fields ∧ f = ⟨pwrEvt, f.lsb, 1⟩ := by
    revert f; decide
  have hevt := hfld _ hrow
  rw [State.fld_one_eq s, bitsOf_one_eq] at hevt
  rw [hkey]
  exact (congrArg (· == 1) hevt).trans (b2n_clear_eq_one _ _)

end AccessCodes

/-- Settles O18: three registers that store what is written to them, by `StoredReg.write`; the writes that are not taken, by
`State.writePriv_ignored`; a sealed group, by `State.setPriv_sealed`; an absent function, by the guard of BAR0. -/
theorem registerWrites : Obligations.RegisterWrites := by
  refine ⟨fun _ _ => write_bootLock, fun _ _ => write_mapCfg, fun _ _ => write_pwrEvt, ?shut, ?phase, ?sealed, ?absent⟩
  case shut =>
    intro s path off v lanes hshut hshore h8
    have hreach : s.regReach false = false := by simp [State.regReach, hshut]
    rw [exec_registerWrite_priv s path v lanes h8, State.writePriv_ignored, ite_self]
    intro r i _
    rw [hshore, State.takesWrite_of_regsShut hshut, hreach, ite_self]
  case phase =>
    intro s path off r i v hrow h8 hkind hshut h7 h8'
    have hflash : r.name ≠ .bootFlashCtrl := fun e => by rw [e] at hkind; cases hkind
    rw [exec_registerWrite_priv_qword s path v h8, State.writePriv_ignored]
    intro r' i' hrow'
    obtain ⟨rfl, rfl⟩ : r = r' ∧ i = i' := by simpa [hrow] using hrow'
    rw [if_neg hflash, hkind, State.takesWrite_plain_of_phase hshut h7 h8']
  case sealed =>
    intro s path off g r i v hrow h8 hflash hpair hopen htake hg hsealed
    rw [exec_registerWrite_priv_qword s path v h8, State.writePriv_taken hrow hflash hopen htake,
      State.setPriv_sealed hrow hpair hg hsealed]
  case absent =>
    intro s p ld off v lanes h8 habsent
    rw [exec_registerWrite_bar0 s p ld v lanes h8, State.writeBar0_absent habsent]

end Sys2Proof.Machine
end

section
/-! PROOF. What counting, recording and sampling leave alone: the requests, the DRAM contents, and the registers that decide
whether a request on its way in is failed. -/

namespace Sys2Proof.Machine

/-- The registers that tell whether a request on its way in is failed: TOP_DEVICE with DF, and FLT_FENCED with the halves. -/
def gateRegs : List Nat := [topDevice, fltFenced0]

/-- A key that none of the gate registers has. -/
abbrev Ungated (k : Nat) : Prop := ∀ g ∈ gateRegs, g ≠ k

/-- FLT_FENCED is the last gate register. -/
theorem ungated_of_lt {k : Nat} (h : fltFenced0 < k) : Ungated k := by
  simp only [Ungated, gateRegs, List.mem_cons, List.not_mem_nil, or_false, forall_eq_or_imp, forall_eq]
  simp only [topDevice, fltFenced0] at *
  omega

/-- A register of a block that begins above FLT_FENCED. -/
theorem ungated_add {a n : Nat} (h : fltFenced0 < a) : Ungated (a + n) :=
  ungated_of_lt (Nat.lt_of_lt_of_le h (Nat.le_add_right a n))

/-- A register of a function's BAR0. -/
theorem ungated_bar0 (fn o : Nat) : Ungated (bar0Base * (1 + fn) + o) :=
  ungated_of_lt (by simp only [fltFenced0, bar0Base]; omega)

theorem ungated_fltStatus : Ungated fltStatus := by decide
theorem ungated_fltCnt : Ungated fltCnt := by decide

/-- From `s` to `t` the device has only counted, recorded and sent: the requests, the DRAM contents and the gate registers are
as they were. -/
structure KeepsPath (s t : State) : Prop where
  reqs : t.reqs = s.reqs
  dram : t.dram = s.dram
  regsWf : s.regsWf = true → t.regsWf = true
  gate : s.regsWf = true → ∀ k ∈ gateRegs, t.reg k = s.reg k

namespace KeepsPath

variable {s t : State}

theorem refl (s : State) : KeepsPath s s := ⟨rfl, rfl, id, fun _ _ _ => rfl⟩

theorem trans {u : State} (h : KeepsPath s t) (h' : KeepsPath t u) : KeepsPath s u :=
  ⟨h'.reqs.trans h.reqs, h'.dram.trans h.dram, fun w => h'.regsWf (h.regsWf w),
    fun w k hk => (h'.gate (h.regsWf w) k hk).trans (h.gate w k hk)⟩

/-- An update of other parts than the requests, the DRAM contents and the registers. -/
theorem upd {t' : State} (h : KeepsPath s t) (hq : t'.reqs = t.reqs) (hd : t'.dram = t.dram) (hr : t'.regs = t.regs) :
    KeepsPath s t' := by
  refine h.trans ⟨hq, hd, fun w => ?_, fun _ k _ => ?_⟩
  · rwa [State.regsWf, hr]
  · rw [State.reg, hr, State.reg]

theorem ite {c : Prop} [Decidable c] {t' : State} (h : c → KeepsPath s t) (h' : ¬c → KeepsPath s t') :
    KeepsPath s (if c then t else t') := by
  split
  · exact h ‹_›
  · exact h' ‹_›

/-- A step that is taken or not. -/
theorem opt {c : Prop} [Decidable c] {t' : State} (h : KeepsPath s t) (h' : KeepsPath t t') :
    KeepsPath s (if c then t' else t) := .ite (fun _ => h.trans h') fun _ => h

theorem each {α : Type} {xs : List α} {f : State → α → State} (h : KeepsPath s t) (hf : ∀ u x, KeepsPath u (f u x)) :
    KeepsPath s (t.each xs f) := by
  unfold State.each
  induction xs generalizing t with
  | nil => exact h
  | cons x xs ih => exact ih (h.trans (hf t x))

theorem setReg {k : Nat} {v : Word} (h : KeepsPath s t) (hk : Ungated k) : KeepsPath s (t.setReg k v) :=
  h.trans ⟨rfl, rfl, fun w => State.setReg_regsWf w k v, fun w j hj => State.reg_setReg_ne w v (hk j hj)⟩

theorem setFld {f : Fld} {v : Nat} (h : KeepsPath s t) (hf : Ungated f.key) : KeepsPath s (t.setFld f v) := h.setReg hf
theorem setFlag {f : Fld} {b : Bool} (h : KeepsPath s t) (hf : Ungated f.key) : KeepsPath s (t.setFlag f b) := h.setFld hf
theorem setBit {f : Fld} {i : Nat} {b : Bool} (h : KeepsPath s t) (hf : Ungated f.key) : KeepsPath s (t.setBit f i b) :=
  h.setFld hf
theorem count {f : Fld} {n : Nat} (h : KeepsPath s t) (hf : Ungated f.key) : KeepsPath s (t.count f n) := h.setFld hf

theorem emit {o : Out} (h : KeepsPath s t) : KeepsPath s (t.emit o) := h.upd rfl rfl rfl

/-! ### Fault records (15_faults R336 to R341, R349 to R351) -/

theorem msix {fn vec : Nat} (h : KeepsPath s t) : KeepsPath s (t.msix fn vec) :=
  .ite (fun _ => h.emit) fun _ => h.setBit (ungated_bar0 fn 0xD000)

theorem ringCopy {fn : Nat} {words : List Nat} (h : KeepsPath s t) : KeepsPath s (t.ringCopy fn words) := by
  unfold State.ringCopy
  extract_lets prod s1 full s2 s3
  have h1 : KeepsPath s s1 := h.each fun u i => (refl u).setReg (by
    rw [uvEvt, Nat.add_assoc]; exact ungated_bar0 fn _)
  have h2 : KeepsPath s s2 := h1.setFld (ungated_bar0 fn 0x7000)
  have h3 : KeepsPath s s3 := h2.opt ((refl s2).setFlag (ungated_bar0 fn 0x7010))
  exact h3.opt (refl s3).msix

theorem logEvent {fn log : Nat} {e : EventRec} (h : KeepsPath s t) : KeepsPath s (t.logEvent fn log e) := h.upd rfl rfl rfl

theorem tellHosts {r : FaultRec} (h : KeepsPath s t) : KeepsPath s (t.tellHosts r) := by
  unfold State.tellHosts
  extract_lets ev ce
  refine h.each fun u pn => ?_
  extract_lets fn
  split
  · exact refl u
  · extract_lets s1
    have h1 : KeepsPath u s1 := by
      unfold s1 ev
      split
      · exact (refl u).logEvent
      · exact refl u
    exact h1.opt (refl s1).ringCopy

theorem pushRecord {r : FaultRec} (h : KeepsPath s t) : KeepsPath s (t.pushRecord r) := h.opt (refl t).emit

theorem logRecord {r : FaultRec} (h : KeepsPath s t) : KeepsPath s (t.logRecord r) :=
  .ite (fun _ => h) fun _ => h.upd rfl rfl rfl

theorem closeRecord {seq : Nat} (h : KeepsPath s t) : KeepsPath s (t.closeRecord seq) := by
  unfold State.closeRecord
  split
  · exact h
  · rename_i r _
    extract_lets log r' s1 s2 s3
    have h2 : KeepsPath s s2 := .setFld (h.upd rfl rfl rfl) ungated_fltStatus
    have h3 : KeepsPath s s3 := h2.opt (refl s2).logRecord
    exact h3.pushRecord

theorem enter {d : Det} {agg : Bool} (h : KeepsPath s t) : KeepsPath s (t.enter d agg).1 := by
  unfold State.enter
  extract_lets r0 occ s1 early r s2 s3 s4 s5 wrap
  have h1 : KeepsPath s s1 := by
    unfold s1 occ
    split
    · exact h.opt (refl t).closeRecord
    · exact h
  have h3 : KeepsPath s s3 := .setFld (.setFld (h1.upd rfl rfl rfl) ungated_fltStatus) ungated_fltStatus
  have h4 : KeepsPath s s4 := h3.opt (refl s3).logRecord
  have h5 : KeepsPath s s5 := h4.tellHosts.pushRecord
  exact h5.opt ((refl s5).setFlag ungated_fltStatus)

theorem countClass {cls : Nat} (h : KeepsPath s t) : KeepsPath s (t.countClass cls) := by
  unfold State.countClass
  split
  iterate 3 exact h.count ungated_fltCnt
  exact h

theorem assertAlarm (h : KeepsPath s t) : KeepsPath s t.assertAlarm := by
  have hk : Ungated fltAlarmPinCtrl := by decide
  have h' := ((h.setFlag (f := fltAlarmPinCtrlHwPhase) (b := true) hk).setFlag (f := fltAlarmPinCtrlHwLatched) (b := true)
    hk).setFlag (f := fltAlarmPinCtrlReleasePending) (b := false) hk
  exact .ite (fun _ => h') fun _ => (h'.setFlag hk).emit

theorem noteN {d : Det} (n : Nat) (h : KeepsPath s t) : KeepsPath s (State.noteN n t d).1 := by
  induction n generalizing t d with
  | zero => exact h
  | succ n ih =>
    unfold State.noteN
    split
    · exact h.count ungated_fltCnt
    · extract_lets s1 s2
      have h2 : KeepsPath s s2 := h.countClass.opt (refl s1).assertAlarm
      split
      · exact .count (h2.upd rfl rfl rfl) ungated_fltCnt
      · have h3 := h2.enter (d := d) (agg := false)
        split
        rename_i s3 wrap he
        rw [he] at h3
        split
        · exact ih h3
        · exact h3

theorem note {d : Det} (h : KeepsPath s t) : KeepsPath s (t.note d) := h.noteN 3

/-! ### Counters (18_pmu R396 to R400) -/

theorem addCounter {f ovf : Fld} {b n : Nat} (h : KeepsPath s t) (hf : Ungated f.key) (ho : Ungated ovf.key) :
    KeepsPath s (t.addCounter f ovf b n) := by
  unfold State.addCounter
  extract_lets v s1
  have h1 : KeepsPath s s1 := h.setFld hf
  exact h1.opt ((refl s1).setBit ho)

theorem pulse {k : Half} {block inst ev : Nat} {dom : Option Nat} (h : KeepsPath s t) :
    KeepsPath s (t.pulse k block inst ev dom) := by
  unfold State.pulse State.pulses
  refine .ite (fun _ => h) fun _ => h.each fun u n => ?_
  refine (refl u).opt ((refl u).addCounter ?_ (ungated_add (by decide)))
  rw [pmuCntCount, pmuCnt, Nat.add_assoc]
  exact ungated_add (by decide)

theorem userCount {fn k n : Nat} (h : KeepsPath s t) : KeepsPath s (t.userCount fn k n) :=
  h.setFld (by rw [uvPmuCount, uvPmu, Nat.add_assoc]; exact ungated_bar0 fn _)

/-! ### What a request on its way in comes to (09_qos R228 to R230; 04_request R113, R119; 18_pmu R401) -/

theorem police {k : Half} {d pre : Nat} (h : KeepsPath s t) : KeepsPath s (t.police k d pre).1 := by
  unfold State.police
  split
  · exact h
  · extract_lets b sh dt tc tp aware
    split
    extract_lets s1
    have h1 : KeepsPath s s1 := h.upd rfl rfl rfl
    have hk : Ungated (qosPolCnt d) := ungated_add (by decide)
    exact .ite (fun _ => h1.count hk) fun _ => h1.opt ((refl s1).count hk)

theorem mark {k : Half} {r : Req} {pre : Nat} (h : KeepsPath s t) : KeepsPath s (t.mark k r pre).1 := by
  unfold State.mark
  have h1 := h.police (k := k) (d := r.dom) (pre := pre)
  split
  rename_i s1 color he
  rw [he] at h1
  extract_lets dc s2 s3
  have h2 : KeepsPath s s2 := h1.pulse
  show KeepsPath s s3
  unfold s3
  split
  · exact .ite (fun _ => h2) fun _ => h2.userCount
  · exact h2

/-- Parity errors before the request has an entry, that a replay repairs, are counted and recorded. -/
theorem parity {k : Half} {u stage n : Nat} {dom : Option Nat} (h : KeepsPath s t) (hn : n ≤ 3) :
    KeepsPath s (t.parity k u stage n none dom).1 ∧ (t.parity k u stage n none dom).2 = false := by
  unfold State.parity
  split
  · exact ⟨h, rfl⟩
  · exact ⟨((h.count (by decide)).pulse).note, rfl⟩

theorem sampleAt2 {r : Req} (h : KeepsPath s t) : KeepsPath s (t.sampleAt2 r).1 := by
  unfold State.sampleAt2
  extract_lets k i c s1 used
  have h1 : KeepsPath s s1 := h.upd rfl rfl rfl
  split
  · exact h
  · split
    · exact h.upd rfl rfl rfl
    · split
      · exact h1.count (ungated_add (by decide))
      · exact h1

theorem reqTally (h : KeepsPath s t) : KeepsPath s t.reqTally := by
  unfold State.reqTally
  refine .each (.each h fun u k => ?_) fun u p => ?_
  · have hk : Ungated (rqStatus k.idx) := ungated_add (by decide)
    exact ((refl u).setFld hk).setFld hk
  · have hk : Ungated (hpReqOcc p) := ungated_add (by decide)
    exact (((refl u).setFld hk).setFld hk).setFld hk

theorem domTally {d : Nat} (h : KeepsPath s t) : KeepsPath s (t.domTally d) := by
  have hk : Ungated (qosDomState d) := ungated_add (by decide)
  exact (h.setFld hk).setFld hk

theorem creditBack {p ch : Nat} (h : KeepsPath s t) : KeepsPath s (t.creditBack p ch) :=
  .ite (fun _ => h) fun _ => h.upd rfl rfl rfl

theorem heard {p id : Nat} (h : KeepsPath s t) : KeepsPath s (t.heard p id) :=
  .ite (fun _ => h.upd rfl rfl rfl) fun _ => h

/-- The gate stands as it stood. -/
theorem df (h : KeepsPath s t) (hs : s.regsWf = true) : t.df = s.df := by
  have e : t.reg topDevice = s.reg topDevice := h.gate hs _ (by decide)
  exact congrArg (fun w : Word => bitsOf w.toNat topDeviceDf.lsb topDeviceDf.width == 1) e

theorem fenced_half (h : KeepsPath s t) (hs : s.regsWf = true) (k : Half) :
    t.fenced (uHalf k.idx) = s.fenced (uHalf k.idx) := by
  have e : t.reg fltFenced0 = s.reg fltFenced0 := h.gate hs _ (by decide)
  have hb : fencedBit (uHalf k.idx) = some (fltFenced0Half, k.idx) := by cases k <;> rfl
  simp only [State.fenced, hb]
  exact congrArg (fun w : Word => bitAt (bitsOf w.toNat fltFenced0Half.lsb fltFenced0Half.width) k.idx) e

end KeepsPath

end Sys2Proof.Machine
end

section
/-! PROOF. A host's request that decodes takes an entry of the request table or waits for one (03_domains R75; 04_request R104,
R106, R115, R119). -/

namespace Sys2Proof.Machine

/-! ### A request that enters the table or waits -/

/-- A request carries what another does: its source, its message, and where it goes. -/
structure Req.SameMessage (q r : Req) : Prop where
  org : q.org = r.org
  tag : q.tag = r.tag
  kind : q.kind = r.kind
  data : q.data = r.data
  enables : q.enables = r.enables
  poison : q.poison = r.poison
  hasDom : q.hasDom = r.hasDom
  dom : q.dom = r.dom
  line : q.line = r.line
  home : q.home = r.home
  answered : q.answered = r.answered

namespace Req.SameMessage

theorem refl (r : Req) : SameMessage r r := by constructor <;> rfl

theorem trans {p q r : Req} (h : SameMessage p q) (h' : SameMessage q r) : SameMessage p r :=
  ⟨h.org.trans h'.org, h.tag.trans h'.tag, h.kind.trans h'.kind, h.data.trans h'.data, h.enables.trans h'.enables,
    h.poison.trans h'.poison, h.hasDom.trans h'.hasDom, h.dom.trans h'.dom, h.line.trans h'.line, h.home.trans h'.home,
    h.answered.trans h'.answered⟩

theorem first {q r : Req} (h : SameMessage q r) : q.first = r.first := by
  have hi : q.ingress = r.ingress := by rw [Req.ingress, Req.ingress, h.org, h.home]
  rw [Req.first, Req.first, Req.crosses, Req.crosses, hi, h.home, h.answered]

end Req.SameMessage

theorem Req.exclude_sameMessage (r : Req) (n : Nat) : (r.exclude n).SameMessage r := by
  unfold Req.exclude
  split
  · constructor <;> rfl
  · exact .refl r

theorem State.sampleAt2_sameMessage (s : State) (r : Req) : (s.sampleAt2 r).2.SameMessage r := by
  unfold State.sampleAt2
  extract_lets k i c s1 used
  repeat' split
  · exact .refl r
  · exact .refl r
  · exact .refl r
  · constructor <;> rfl

theorem State.mark_sameMessage (s : State) (h : Half) (r : Req) (pre : Nat) : (s.mark h r pre).2.SameMessage r := by
  constructor <;> rfl

/-- `t` is `s` with a request behind the others that carries what `r` carries and stands at its first stage or waits for an
entry (R115). -/
structure State.Joins (s t : State) (r : Req) : Prop where
  dram : t.dram = s.dram
  last : ∃ q, t.reqs = s.reqs ++ [q] ∧ q.SameMessage r ∧ (q.stage = .waitEntry ∨ q.stage = r.first)

namespace State.Joins

variable {s t u : State} {r q : Req}

theorem after (h : KeepsPath s t) (j : t.Joins u r) : s.Joins u r := ⟨j.dram.trans h.dram, h.reqs ▸ j.last⟩

theorem thenKeeps (j : s.Joins t r) (h : KeepsPath t u) : s.Joins u r := ⟨h.dram.trans j.dram, h.reqs ▸ j.last⟩

theorem congr (j : s.Joins t q) (h : q.SameMessage r) : s.Joins t r := by
  obtain ⟨hd, x, hx, hm, hst⟩ := j
  exact ⟨hd, x, hx, hm.trans h, h.first ▸ hst⟩

end State.Joins

theorem State.enterReq_joins (s : State) (r : Req) (pool : Nat) : s.Joins (s.enterReq r pool r.first) r := by
  unfold State.enterReq
  have hk := (KeepsPath.refl s).sampleAt2 (r := r)
  have hm := s.sampleAt2_sameMessage r
  extract_lets k i
  split
  rename_i s1 r1 he
  rw [he] at hk hm
  extract_lets st r2
  have h2 : r2.SameMessage r := .trans (by constructor <;> rfl) hm
  refine .after hk (.thenKeeps (t := { s1 with reqs := s1.reqs ++ [r2], nextRid := _ }) ?_ (KeepsPath.refl _).reqTally)
  exact ⟨rfl, r2, rfl, h2, .inr rfl⟩

theorem State.admitReq_joins (s : State) (r : Req) : s.Joins (s.admitReq r) r := by
  unfold State.admitReq
  extract_lets blocked
  split
  · exact s.enterReq_joins r _
  · refine .thenKeeps (t := { s with reqs := s.reqs ++ [{ r.exclude 4 with stage := .waitEntry }] }) ?_
      (KeepsPath.refl _).reqTally
    exact ⟨rfl, _, rfl, .trans (q := r.exclude 4) (by constructor <;> rfl) (r.exclude_sameMessage 4), .inl rfl⟩

/-! ### Arrival (03_domains R75; 04_request R104, R106, R115) -/

/-- A decode depends on the decoders, on Memory_Active, on the port's mode, and on values in effect. -/
theorem State.decodeHpa_congr {s t : State} {p id hpa : Nat} (hd : t.hdm = s.hdm) (hb : t.boot = s.boot)
    (hg : t.gfam p = s.gfam p) (he : ∀ f, t.eff f = s.eff f) : t.decodeHpa p id hpa = s.decodeHpa p id hpa := by
  have heff : t.eff = s.eff := funext he
  unfold State.decodeHpa State.hdmOf State.ldToDpa State.ldRanges State.domOfDpa State.domOn State.winBase State.winSize
    State.ownerLd State.ownerSpid State.effFlag
  rw [hd, hb, hg, heff]

/-- The state with which a host's message is decoded. -/
def State.taken (s : State) (p id : Nat) (poison : Bool) : State :=
  if poison then (s.heard p id).count rqErrCntPoisonIn 1 else s.heard p id

section Taken

variable {s : State} {p id : Nat} {poison : Bool}

theorem State.heard_regs : (s.heard p id).regs = s.regs := by unfold State.heard; split <;> rfl
theorem State.heard_hdm : (s.heard p id).hdm = s.hdm := by unfold State.heard; split <;> rfl
theorem State.heard_boot : (s.heard p id).boot = s.boot := by unfold State.heard; split <;> rfl

/-- What a host is heard over has no part in the registers. -/
theorem State.heard_fld (f : Fld) : (s.heard p id).fld f = s.fld f := by
  rw [State.fld, State.reg, State.heard_regs, State.fld, State.reg]

/-- The count of poisoned writes, RQ_ERR_CNT, is the only register that may change. -/
theorem State.taken_fld (hs : s.regsWf = true) {f : Fld} (hf : f.key ≠ rqErrCnt) :
    (s.taken p id poison).fld f = s.fld f := by
  have hs' : (s.heard p id).regsWf = true := by rwa [State.regsWf, State.heard_regs]
  unfold State.taken
  split
  · exact (State.fld_setFld_ne hs' _ hf).trans (State.heard_fld f)
  · exact State.heard_fld f

theorem State.taken_eff (hs : s.regsWf = true) (f : Fld) : (s.taken p id poison).eff f = s.eff f :=
  State.taken_fld hs (by simp only [Fld.eff, effBase, rqErrCnt]; omega)

theorem State.taken_home (hs : s.regsWf = true) (d : Nat) : (s.taken p id poison).home d = s.home d := by
  rw [State.home, State.taken_eff hs, State.home]

theorem State.taken_decodeHpa (hs : s.regsWf = true) (hpa : Nat) :
    (s.taken p id poison).decodeHpa p id hpa = s.decodeHpa p id hpa := by
  refine State.decodeHpa_congr ?_ ?_ ?_ (State.taken_eff hs)
  · unfold State.taken; split <;> exact State.heard_hdm
  · unfold State.taken; split <;> exact State.heard_boot
  · have hk : (hpPortCfgMode p).key ≠ rqErrCnt := by simp only [hpPortCfgMode, hpPortCfg, rqErrCnt]; omega
    rw [State.gfam, State.taken_fld hs hk, State.gfam]

theorem KeepsPath.taken : KeepsPath s (s.taken p id poison) :=
  .ite (fun _ => (KeepsPath.heard (.refl s)).count (by decide)) fun _ => .heard (.refl s)

end Taken

/-- With no DF and its home half not fenced, a decoded request takes an entry or waits. -/
theorem State.enterPath_joins {s : State} {p id : Nat} {r : Req} {replayed : Bool} (hs : s.regsWf = true)
    (hdf : s.df = false) (hfence : s.fenced (uHalf r.home.idx) = false) :
    s.Joins (s.enterPath p id r none replayed) r := by
  unfold State.enterPath
  have hk := (KeepsPath.refl s).mark (k := portHalf p) (r := r) (pre := s.preColour p id)
  have hm := s.mark_sameMessage (portHalf p) r (s.preColour p id)
  extract_lets d
  split
  rename_i s1 r1 he
  rw [he] at hk hm
  extract_lets r2 why
  have h2 : r2.SameMessage r := by
    unfold r2
    split
    · exact (r1.exclude_sameMessage 1).trans hm
    · exact hm
  have hwhy : why = none := by
    have hdf1 : s1.df = false := (hk.df hs).trans hdf
    have hfence1 : s1.fenced (uHalf r2.home.idx) = false := by rw [h2.home]; exact (hk.fenced_half hs _).trans hfence
    simp only [why, hdf1, hfence1, Bool.false_eq_true, if_false]
  rw [hwhy]
  exact .after hk (((s1.admitReq_joins r2).congr h2).thenKeeps (KeepsPath.refl _).domTally)

/-- What a host's message that decodes becomes. -/
def State.decoded (s : State) (r : Req) (d line : Nat) : Req := { r with hasDom := true, dom := d, line, home := s.home d }

/-- A message that decodes to a domain whose half serves, on a link that is up and against a credit, stands behind the other
requests; a parity error that a replay repairs changes nothing of that (R119). -/
theorem State.arrive_joins {s : State} {p id hpa d line dpa stage parity : Nat} {r : Req} (hs : s.regsWf = true)
    (hup : s.portUp p = true) (hhalf : s.fenced (uHalf (portHalf p).idx) = false)
    (hcredit : s.hasCredit p r.kind.channel = true) (hknown : s.gfam p = true → s.knownSpid p id = true)
    (hdec : s.decodeHpa p id hpa = .ok d line dpa) (hdf : s.df = false)
    (hhome : s.fenced (uHalf (s.home d).idx) = false) (hpar : parity ≤ 3) :
    s.Joins (s.arrive p id hpa r stage parity) (s.decoded r d line) := by
  have hspid : ¬(s.gfam p && !s.knownSpid p id) = true := by
    cases hg : s.gfam p with
    | false => simp
    | true => simp [hknown hg]
  unfold State.arrive
  rw [if_neg (by simp [hup, hhalf, hcredit]), if_neg hspid]
  extract_lets s0 ev s1 found r1 r2 u again
  have h1 : KeepsPath s s1 := .taken
  have hfound : found = .ok d line dpa := (State.taken_decodeHpa hs hpa).trans hdec
  have hr2 : r2.SameMessage (s.decoded r d line) := by
    simp only [r2, r1, hfound]
    exact ⟨rfl, rfl, rfl, rfl, rfl, rfl, rfl, rfl, rfl, State.taken_home hs d, rfl⟩
  clear_value found r1 r2 u s1 again
  subst hfound
  split
  rename_i s2 bad he
  obtain ⟨h2, rfl⟩ : KeepsPath s s2 ∧ bad = false := by
    cases u with
    | none => cases he; exact ⟨h1, rfl⟩
    | some u =>
      have hp := h1.parity (k := portHalf p) (u := u) (stage := stage) (dom := none) hpar
      dsimp only at he
      rwa [he] at hp
  extract_lets r3 s3
  have hr3 : r3.SameMessage (s.decoded r d line) := .trans (by constructor <;> rfl) hr2
  have h3 : KeepsPath s (s2.pulse (portHalf p) bHp (p % 8) ev (some d)) := h2.pulse
  refine .thenKeeps (.after h3 (.congr (State.enterPath_joins (h3.regsWf hs) ?_ ?_) hr3)) (KeepsPath.refl _).creditBack
  · exact (h3.df hs).trans hdf
  · rw [hr3.home]
    exact (h3.fenced_half hs _).trans hhome

/-- A host's request goes from stage 2 to its home half, or into its domain's queue there. -/
theorem Req.first_of_host {r : Req} {p id : Nat} (ho : r.org = .host p id) (ha : r.answered = false) :
    r.first = if r.home = portHalf p then .queued else .cross := by
  have hi : r.ingress = portHalf p := by rw [Req.ingress, ho]
  rw [Req.first, Req.crosses, hi, ha, if_neg Bool.false_ne_true]
  by_cases h : r.home = portHalf p
  · simp [h]
  · simp [h, Ne.symm h]

/-- Settles O25: each of the five messages arrives as `State.arrive_joins` says, and what it carries is what `State.hostReq` puts
into it. -/
theorem requestArrival : Obligations.RequestArrival := by
  unfold Obligations.RequestArrival
  intro s p id hpa d line dpa tag want stage parity hs hd hup hhalf hcr hcw hknown hdec hdf hhome hpar
  have hregs : s.regsWf = true := State.regsWf_of_sound hs
  have enters (r : Req) (stage parity : Nat) (hp : parity ≤ 3) (ho : r.org = .host p id) (ha : r.answered = false) :
      ∃ q, (s.arrive p id hpa r stage parity).reqs = s.reqs ++ [q] ∧ q.SameMessage (s.decoded r d line) ∧
        (q.stage = .waitEntry ∨ q.stage = if s.home d = portHalf p then .queued else .cross) ∧
        (s.arrive p id hpa r stage parity).dram = s.dram := by
    have hcredit : s.hasCredit p r.kind.channel = true := by cases r.kind <;> assumption
    obtain ⟨hdram, q, hq, hm, hst⟩ := State.arrive_joins (stage := stage) hregs hup hhalf hcredit hknown hdec hdf hhome hp
    rw [Req.first_of_host (r := s.decoded r d line) ho ha] at hst
    exact ⟨q, hq, hm, hst, hdram⟩
  refine ⟨?memRd, ?memInv, ?memClnEvct, ?memWr, ?memWrPtl⟩
  case memRd =>
    obtain ⟨q, hq, hm, hst, hdram⟩ := enters (s.hostReq p id tag.toNat .rd (wantOf want)) stage parity hpar rfl rfl
    exact ⟨_, q, rfl, hq, hm.org, hm.tag, hm.kind, hm.hasDom, hm.dom, hm.line, hm.home, hst, hdram⟩
  case memInv =>
    obtain ⟨q, hq, hm, hst, hdram⟩ := enters (s.hostReq p id tag.toNat .inv (wantOf want)) 0 0 (by decide) rfl rfl
    exact ⟨_, q, rfl, hq, hm.org, hm.tag, hm.kind, hm.dom, hm.line, hst, hdram⟩
  case memClnEvct =>
    obtain ⟨q, hq, hm, hst, hdram⟩ := enters (s.hostReq p id tag.toNat .clnEvct .none) 0 0 (by decide) rfl rfl
    exact ⟨_, q, rfl, hq, hm.org, hm.tag, hm.kind, hm.dom, hm.line, hst, hdram⟩
  case memWr =>
    intro data poison
    obtain ⟨q, hq, hm, hst, hdram⟩ := enters
      { s.hostReq p id tag.toNat .wr (wantAfter want) with data, enables := allBytes, poison } stage parity hpar rfl rfl
    exact ⟨_, q, rfl, hq, hm.org, hm.tag, hm.kind, hm.data, hm.enables, hm.poison, hm.dom, hm.line, hst, hdram⟩
  case memWrPtl =>
    intro data enables poison
    obtain ⟨q, hq, hm, hst, hdram⟩ := enters
      { s.hostReq p id tag.toNat .wrPtl (wantAfter want) with data, enables, poison } stage parity hpar rfl rfl
    exact ⟨_, q, rfl, hq, hm.org, hm.tag, hm.kind, hm.data, hm.enables, hm.poison, hm.dom, hm.line, hst, hdram⟩

end Sys2Proof.Machine
end

section
/-! PROOF. Back-invalidation (04_request R125): a state whose snoop filter lists one line twice, in which the read that waited for
the last answer to the line's entry waits on. -/

namespace Sys2Proof.Machine

/-- An entry for line 70 of domain 0 that one host holds OWNED and has yet to answer for. -/
def SfEntry.awaiting (host : Nat) : SfEntry :=
  { half := .a, dom := 0, line := 70, owned := true, group := false, holders := [host], await := [host], unsent := []
    biData := true, evicting := false, used := false }

/-- A read of line 70 of domain 0 that waits for the hosts' answers. -/
def Req.biWaiter : Req :=
  { rid := 7, org := .host 0 0, tag := 5, kind := .rd, want := .none, data := 0, enables := 0, poison := false, dom := 0
    line := 70, home := .a, cls := 0, color := 0, stage := .biWait }

/-- Registers of a device whose domain 0, coherent, of class 0 and of 8 MiB at DPA 0, is reached by LD 0 of port 0, with channel
0 trained. -/
def State.coherentRegs : Cells Word :=
  ([((domCtrlValid 0).eff, 1), ((domCtrlCoherence 0).eff, 1), ((domPolicyTclass 0).eff, 0), ((domWindowSize 0).eff, 4),
    ((domOwnerLdLdMask 0 0).eff, 1), ((mapLdrW0Valid 0 0).eff, 1), ((mapLdrW1Length 0 0).eff, 4), (dmcStatusTrained 0, 1)].foldl
    (fun (s : State) x => s.setFld x.1 x.2) State.reset).regs

/-- The filter lists line 70 twice, awaiting LD 0 of port 0 in the first entry and LD 1 in the second; the line's page is NEAR. -/
def State.listedTwice : State :=
  { State.reset with
    regs := State.coherentRegs
    boot := { memActive := true }
    ports := { active := true, link := .l0 } :: List.replicate 15 {}
    hdm := [(hdmKey 0 0 0, { committed := true, size := 2 ^ 23, bi := true })]
    extents := [(0, { kind := .frame })]
    reqs := [.biWaiter]
    snoop := [.awaiting 0, .awaiting 1] }

/-- LD 0 of port 0 answers for byte address 70 × 64, which is line 70, and its entry awaits nobody else. -/
theorem State.listedTwice_answers :
    State.listedTwice.sound = true ∧ State.listedTwice.portUp 0 = true ∧
      State.listedTwice.decodeHpa 0 0 4480 = .ok 0 70 4480 ∧ State.listedTwice.sfEntry 0 70 = some (.awaiting 0) := by
  decide +kernel

/-- The read is the only one that waits for the line, and the device is whole. -/
theorem State.listedTwice_waiter :
    State.listedTwice.req 7 = some .biWaiter ∧ Half.a = State.listedTwice.home 0 ∧
      (∀ y ∈ State.listedTwice.reqs, y.waitsAt5 (State.listedTwice.home 0) 0 (70 / 64) → y = .biWaiter) ∧
      State.listedTwice.df = false ∧ State.listedTwice.fenced (uHalf Half.a.idx) = false := by
  decide +kernel

/-- Nothing of the page, its map or its channel holds the read. -/
theorem State.listedTwice_page :
    State.listedTwice.stage5Before .biWaiter = false ∧ State.listedTwice.locked 0 (70 / 64) = false ∧
      State.listedTwice.cached .a (.desc 0 (70 / 64 / 2048)) = true ∧ (State.listedTwice.ext 0 (70 / 64 / 512)).kind = .frame ∧
      State.listedTwice.mirReads 0 = true ∧ State.listedTwice.treeFenced 0 70 = false ∧
      State.listedTwice.serves (chanOf .a (State.listedTwice.pageNow 0 (70 / 64)).addr) = true ∧
      State.listedTwice.readRoom (chanOf .a (State.listedTwice.pageNow 0 (70 / 64)).addr) .biWaiter = true := by
  decide +kernel

/-- The answer takes the first entry out of the filter; the second is then the line's, and the read waits for its host. -/
theorem State.listedTwice_waits_on :
    ((State.listedTwice.biRsp 0 0 4480 0).req 7).map (·.stage) = some .biWait := by
  decide +kernel

/-- Refutes O28 in its clause on a read that waited for the last answer alone: the clause speaks of the line's first entry in the
filter, and neither its hypotheses nor `State.sound` exclude a second one. -/
theorem not_backInvalidationAndResponses : ¬ Obligations.BackInvalidationAndResponses := by
  unfold Obligations.BackInvalidationAndResponses
  rintro ⟨-, -, lastAnswer, -⟩
  obtain ⟨hsound, hup, hdec, hentry⟩ := State.listedTwice_answers
  obtain ⟨hreq, hhome, honly, hdf, hhalf⟩ := State.listedTwice_waiter
  obtain ⟨hbefore, hlock, hcached, hframe, hmir, htree, hserves, hroom⟩ := State.listedTwice_page
  obtain ⟨t, q, ht, hq, -, hstage, -⟩ := lastAnswer .listedTwice 0 0 4480 0 70 4480 0 0 0 (.awaiting 0) .biWaiter hsound hup
    (by decide) hdec hentry rfl rfl (.inl rfl) hreq rfl rfl (by decide) rfl hhome rfl rfl rfl rfl honly hdf hhalf rfl hbefore
    hlock hcached hframe hmir htree hserves hroom
  have hnext : t = State.listedTwice.biRsp 0 0 4480 0 := (Host.Outcome.next.inj ht).symm
  have hwaits := State.listedTwice_waits_on
  rw [← hnext] at hwaits
  rw [show t.req 7 = some q from hq] at hwaits
  simp [hstage] at hwaits

end Sys2Proof.Machine
end

section
/-! PROOF. The static sets and the histogram (06_shingle R168 to R171): what ACTIVATE and CLEAR answer, and what they leave
alone. -/

namespace Sys2Proof.Machine

/-! ### The check and the fingerprint of a set (06_shingle R169, R171) -/

/-- A code of the check fits SHG_SET_RESULT.RESULT. -/
theorem checkLens_lt (lens : List Nat) : checkLens lens < 2 ^ 4 := by
  unfold checkLens
  repeat' split
  all_goals decide

/-- A fingerprint fits SHG_SET_STATE.FP. -/
theorem fingerprint_lt (lens : List Nat) : fingerprint lens < 2 ^ 32 := BitVec.isLt _

/-! ### The partner is told (13_pairing R317) -/

section Told
variable {s : State} {l : Half}

theorem State.sendFp_regs : (s.sendFp l).regs = s.regs := by
  unfold State.sendFp State.send
  repeat' split
  all_goals rfl

theorem State.sendFp_dram : (s.sendFp l).dram = s.dram := by
  unfold State.sendFp State.send
  repeat' split
  all_goals rfl

/-- A field depends on the registers alone. -/
theorem State.fld_congr {t : State} (h : t.regs = s.regs) (f : Fld) : t.fld f = s.fld f := by
  rw [State.fld, State.reg, h, State.fld, State.reg]

end Told

/-! ### A set operation ends (06_shingle R169) -/

/-- From `s` to `t` a set operation has answered `code`, and has changed no register but SHG_SET_RESULT. -/
structure State.SetAnswers (s t : State) (set code : Nat) : Prop where
  set : t.fld shgSetResultSet = set
  done : t.flag shgSetResultDone = true
  result : t.fld shgSetResultResult = code
  others : ∀ f : Fld, f.key ≠ shgSetResult → t.fld f = s.fld f
  dram : t.dram = s.dram

section SetOps
variable {s t : State} {set code : Nat}

theorem State.setResult_answers (hs : s.regsWf = true) (hset : set < 2 ^ 3) (hcode : code < 2 ^ 4) :
    s.SetAnswers (s.setResult set code) set code := by
  have h1 := State.setFld_regsWf hs shgSetResultResult code
  have h2 := State.setFld_regsWf h1 shgSetResultSet set
  refine ⟨?_, ?_, ?_, fun f hf => ?_, rfl⟩
  · refine (State.fld_setFld_beside h2 _ (by decide) (.inl (by decide))).trans ?_
    exact (State.fld_setFld_same h1 _ (by decide)).trans (Nat.mod_eq_of_lt hset)
  · exact State.flag_setFlag_same h2 true (by decide) rfl
  · refine (State.fld_setFld_beside h2 _ (by decide) (.inl (by decide))).trans ?_
    refine (State.fld_setFld_beside h1 _ (by decide) (.inl (by decide))).trans ?_
    exact (State.fld_setFld_same hs _ (by decide)).trans (Nat.mod_eq_of_lt hcode)
  · exact (State.fld_setFld_ne h2 _ hf).trans ((State.fld_setFld_ne h1 _ hf).trans (State.fld_setFld_ne hs _ hf))

/-- Telling the partner changes nothing of the answer. -/
theorem State.SetAnswers.told (h : s.SetAnswers t set code) : s.SetAnswers ((t.sendFp .a).sendFp .b) set code := by
  have hf (f : Fld) : ((t.sendFp .a).sendFp .b).fld f = t.fld f :=
    State.fld_congr (State.sendFp_regs.trans State.sendFp_regs) f
  exact ⟨(hf _).trans h.set, (congrArg (· == 1) (hf _)).trans h.done, (hf _).trans h.result,
    fun f hk => (hf f).trans (h.others f hk), (State.sendFp_dram.trans State.sendFp_dram).trans h.dram⟩

/-- SHG_SET_STATE of a set written: whether it is ACTIVE, and its fingerprint. -/
def State.putSetState (s : State) (set state fp : Nat) : State :=
  (s.setFld (shgSetStateState set) state).setFld (shgSetStateFp set) fp

theorem State.putSetState_state {state fp : Nat} (hs : s.regsWf = true) (h : state < 2 ^ 2) :
    (s.putSetState set state fp).fld (shgSetStateState set) = state := by
  refine (State.fld_setFld_beside (State.setFld_regsWf hs _ _) _ (by simp [shgSetStateFp])
    (.inl (by simp [shgSetStateState, shgSetStateFp]))).trans ?_
  exact (State.fld_setFld_same hs _ (by simp [shgSetStateState])).trans (Nat.mod_eq_of_lt h)

theorem State.putSetState_fp {state fp : Nat} (hs : s.regsWf = true) (h : fp < 2 ^ 32) :
    (s.putSetState set state fp).fld (shgSetStateFp set) = fp :=
  (State.fld_setFld_same (State.setFld_regsWf hs _ _) _ (by simp [shgSetStateFp])).trans (Nat.mod_eq_of_lt h)

theorem State.putSetState_ne {state fp : Nat} (hs : s.regsWf = true) {f : Fld} (hf : f.key ≠ shgSetState set) :
    (s.putSetState set state fp).fld f = s.fld f :=
  (State.fld_setFld_ne (State.setFld_regsWf hs _ _) _ hf).trans (State.fld_setFld_ne hs _ hf)

/-- The registers of the sets stand apart from SHG_SET_RESULT. -/
theorem shgSetState_ne_result (h : set < 2 ^ 3) : shgSetState set ≠ shgSetResult := by
  simp only [shgSetState, shgSetResult]
  omega

/-- From `s` to `t` a set has taken a state and a fingerprint, and the operation has answered 0. -/
structure State.SetChanges (s t : State) (set state fp : Nat) : Prop where
  answer : (s.putSetState set state fp).SetAnswers t set 0
  state : t.fld (shgSetStateState set) = state
  fp : t.fld (shgSetStateFp set) = fp
  others : ∀ f : Fld, f.key ≠ shgSetResult → f.key ≠ shgSetState set → t.fld f = s.fld f

theorem State.setResult_changes {state fp : Nat} (hs : s.regsWf = true) (hset : set < 2 ^ 3) (hstate : state < 2 ^ 2)
    (hfp : fp < 2 ^ 32) :
    s.SetChanges ((((s.putSetState set state fp).setResult set 0).sendFp .a).sendFp .b) set state fp := by
  have hwf : (s.putSetState set state fp).regsWf = true := State.setFld_regsWf (State.setFld_regsWf hs _ _) _ _
  have ha := (State.setResult_answers hwf hset (code := 0) (by decide)).told
  have hne := shgSetState_ne_result hset
  exact ⟨ha, (ha.others _ hne).trans (State.putSetState_state hs hstate), (ha.others _ hne).trans (State.putSetState_fp hs hfp),
    fun f hr hk => (ha.others f hr).trans (State.putSetState_ne hs hk)⟩

/-- What ACTIVATE comes to: an answer other than 0 that changes nothing else, or the set ACTIVE. -/
theorem State.setActivate_cases (hs : s.regsWf = true) (hset : set < 2 ^ 3) {code : Nat}
    (hcode : code = if set = 0 then 1 else if s.setActive set = true then 2 else checkLens (s.setLens set)) :
    (code ≠ 0 ∧ s.SetAnswers (s.setActivate set) set code) ∨
      (code = 0 ∧ s.SetChanges (s.setActivate set) set 1 (fingerprint (s.setLens set))) := by
  unfold State.setActivate
  split at hcode
  case isTrue h0 =>
    rw [if_pos h0]
    subst hcode
    exact .inl ⟨by decide, State.setResult_answers hs hset (by decide)⟩
  case isFalse h0 =>
    rw [if_neg h0]
    split at hcode
    case isTrue hactive =>
      rw [if_pos hactive]
      subst hcode
      exact .inl ⟨by decide, State.setResult_answers hs hset (by decide)⟩
    case isFalse hactive =>
      rw [if_neg hactive]
      subst hcode
      dsimp only
      split
      case isTrue hbad => exact .inl ⟨hbad, State.setResult_answers hs hset (checkLens_lt _)⟩
      case isFalse hgood =>
        exact .inr ⟨Decidable.not_not.1 hgood, State.setResult_changes hs hset (by decide) (fingerprint_lt _)⟩

/-- What CLEAR comes to: an answer that changes nothing else, 0 only for a set that is not active, or the set inactive. -/
theorem State.setClear_cases (hs : s.regsWf = true) (hset : set < 2 ^ 3) {code : Nat}
    (hcode : code = if set = 0 then 1 else if s.setActive set = false then 0
      else if s.fld (shgSetUseUseA set) + s.fld (shgSetUseUseB set) ≠ 0 then 3 else 0) :
    ((code = 0 → s.setActive set = false) ∧ s.SetAnswers (s.setClear set) set code) ∨
      (code = 0 ∧ s.SetChanges (s.setClear set) set 0 0) := by
  unfold State.setClear
  split at hcode
  case isTrue h0 =>
    rw [if_pos h0]
    subst hcode
    exact .inl ⟨nofun, State.setResult_answers hs hset (by decide)⟩
  case isFalse h0 =>
    rw [if_neg h0]
    split at hcode
    case isTrue hidle =>
      rw [if_pos (by rw [hidle]; rfl)]
      subst hcode
      exact .inl ⟨fun _ => hidle, State.setResult_answers hs hset (by decide)⟩
    case isFalse hactive =>
      rw [if_neg (by simpa using hactive)]
      split at hcode
      case isTrue hused =>
        rw [if_pos hused]
        subst hcode
        exact .inl ⟨nofun, State.setResult_answers hs hset (by decide)⟩
      case isFalse hfree =>
        rw [if_neg hfree]
        exact .inr ⟨hcode, State.setResult_changes hs hset (by decide) (by decide)⟩

end SetOps

/-! ### CLEAR of the histogram -/

/-- Registers set to 0 one after another: each of them reads 0, and any other register as before. -/
theorem State.reg_each_setReg_zero {key : Nat → Nat} (xs : List Nat) (k : Nat) {s : State} (hs : s.regsWf = true) :
    (s.each xs fun s i => s.setReg (key i) 0).reg k = if ∃ i ∈ xs, k = key i then 0 else s.reg k := by
  unfold State.each
  induction xs generalizing s with
  | nil => simp
  | cons x xs ih =>
    rw [List.foldl_cons, ih (State.setReg_regsWf hs _ _)]
    by_cases hk : k = key x
    · have hx : (s.setReg (key x) 0).reg k = 0 := hk ▸ State.reg_setReg_same hs _ _
      rw [hx, ite_self, if_pos ⟨x, List.mem_cons_self, hk⟩]
    · rw [State.reg_setReg_ne hs 0 hk]
      simp [hk]

/-- Setting registers leaves the DRAM contents alone. -/
theorem State.dram_each_setReg {key : Nat → Nat} (xs : List Nat) {s : State} :
    (s.each xs fun s i => s.setReg (key i) 0).dram = s.dram := by
  unfold State.each
  induction xs generalizing s with
  | nil => rfl
  | cons x xs ih => exact ih

theorem State.histClear_reg {s : State} (hs : s.regsWf = true) (k : Nat) :
    s.histClear.reg k = if ∃ i ∈ List.range 153, k = shgHist i then 0 else s.reg k :=
  State.reg_each_setReg_zero _ k hs

/-! ### The statement -/

/-- A write of the privileged view that is taken does what it does. -/
theorem State.write_taken {s : State} {kind : RegKind} {shore : Bool} {held : Option Half} {f : State → State}
    (h : s.takesWrite kind shore held = true) : s.write kind shore held f = f s := by
  rw [State.write, if_pos h]

/-- Settles O36: `State.setActivate_cases` and `State.setClear_cases` say what the operations come to, and the histogram is
cleared register by register. -/
theorem staticSets : Obligations.StaticSets := by
  refine ⟨?activate, ?clear, ?hist⟩
  case activate =>
    intro s set hs htake
    refine ⟨s.setActivate set, congrArg Host.Outcome.next (State.write_taken htake), ?_⟩
    obtain ⟨hbad, h⟩ | ⟨hgood, h⟩ := State.setActivate_cases (State.regsWf_of_sound hs) set.isLt rfl
    · exact ⟨h.set, h.done, h.result, fun _ => h.others, fun hr => absurd (h.result.symm.trans hr) hbad, h.dram⟩
    · exact ⟨h.answer.set, h.answer.done, h.answer.result.trans hgood.symm, fun hr => absurd h.answer.result hr,
        fun _ => ⟨h.state, h.fp, h.others⟩, h.answer.dram⟩
  case clear =>
    intro s set hs htake
    refine ⟨s.setClear set, congrArg Host.Outcome.next (State.write_taken htake), ?_⟩
    obtain ⟨hidle, h⟩ | ⟨hgood, h⟩ := State.setClear_cases (State.regsWf_of_sound hs) set.isLt rfl
    · refine ⟨h.set, h.done, h.result, fun hr hactive => ?_, fun f hr _ => h.others f hr, h.dram⟩
      exact absurd (hidle (h.result.symm.trans hr)) (by rw [hactive]; decide)
    · exact ⟨h.answer.set, h.answer.done, h.answer.result.trans hgood.symm, fun _ _ => ⟨h.state, h.fp⟩, h.others,
        h.answer.dram⟩
  case hist =>
    intro s hs htake
    have hreg := State.histClear_reg (State.regsWf_of_sound hs)
    refine ⟨s.histClear, congrArg Host.Outcome.next (State.write_taken htake), fun i hi => ?_, fun f hf => ?_,
      State.dram_each_setReg _⟩
    · have hzero : s.histClear.reg (shgHist i) = 0 := by rw [hreg, if_pos ⟨i, List.mem_range.2 hi, rfl⟩]
      simp [State.fld, shgHistCountEven, shgHistCountOdd, hzero, bitsOf]
    · have hsame : s.histClear.reg f.key = s.reg f.key := by
        rw [hreg, if_neg (by rintro ⟨i, hi, e⟩; exact hf i (List.mem_range.1 hi) e)]
      rw [State.fld, State.fld, hsame]

end Sys2Proof.Machine
end

section
/-! PROOF. Chunk decodes (06_shingle R180, R181; 03_domains R93): a state in which the header of the decoded slot takes the place
of a metadata line that differs from its copies, which is written back to DRAM. -/

namespace Sys2Proof.Machine

/-- The lines of a slot of class 1 with its own tables, whose four chunks are zeros (06_shingle R157, R158, R160). -/
def zeroSlotLines : List Line :=
  let image := slotImage { format := 1, flags := 1, sizeClass := 1, ends := [32, 32, 32, 32], crcs := [], seq := 1 } []
  (List.range 4).map fun i => bytesLine ((image.drop (64 * i)).take 64)

/-- A read of line 0 of domain 0, whose slot is at unit 0, that waits for its chunk. -/
def Req.chunkWaiter : Req :=
  { rid := 7, org := .host 0 0, tag := 5, kind := .rd, want := .none, data := 0, enables := 0, poison := false, dom := 0
    line := 0, home := .a, cls := 1, color := 0, stage := .chunkWait, slotLines := zeroSlotLines }

/-- A full set of the metadata cache: the first descriptors of domain 0, which differ from their copy, and the headers of 15
slots. -/
def McLine.fullSet : List McLine :=
  { key := .desc 0 0, used := false, dirty := true } ::
    (List.range 15).map fun i => { key := .hdr .a (32768 * (i + 1)), used := false, dirty := false }

/-- Channel 0 is trained; domain 0 has its extent table at unit 256, of whose first line a bit stands flipped in DRAM; the read
waits for its chunk, and the set of its slot's header is full. -/
def State.fullHeaderSet : State :=
  { (State.reset.setFld (dmcStatusTrained 0) 1) with
    maps := [(0, { table1 := some 256, extents := 4 })]
    mcache := ⟨McLine.fullSet, []⟩
    dram := [(burstKey .a 1024, 1)]
    reqs := [.chunkWaiter] }

/-- The read is the only request, and its decode on cluster 0 is granted. -/
theorem State.fullHeaderSet_waits :
    State.fullHeaderSet.sound = true ∧ State.fullHeaderSet.req 7 = some .chunkWaiter ∧
      State.fullHeaderSet.otherCluster .a none = true ∧ State.fullHeaderSet.fenced (uDecomp Half.a.idx 0) = false ∧
      State.fullHeaderSet.granted .a 0 0 (some 7) 0 = true := by
  decide +kernel

/-- The chunk decodes to zeros. -/
theorem State.fullHeaderSet_decodes :
    (State.fullHeaderSet.decode zeroSlotLines 0 false).toOption = some (List.replicate 16 0) := by
  decide +kernel

/-- The write-back of the descriptors leaves their line as it should be: no burst differs any more. -/
theorem State.fullHeaderSet_writes_back : (State.fullHeaderSet.chunkDecode .a 0 0 (some 7) 0 0 0).dram = [] := by
  decide +kernel

/-- Refutes O37 in its clause on a chunk that decodes: the clause has the DRAM contents unchanged, but the slot's header enters the
metadata cache (R180), and a full set gives up a line that is written back where it differs from its copies (03_domains R93). -/
theorem not_compressionAndChunks : ¬ Obligations.CompressionAndChunks := by
  unfold Obligations.CompressionAndChunks
  rintro ⟨-, -, -, chunks, -⟩
  obtain ⟨hsound, hreq, hother, hfence, hgranted⟩ := State.fullHeaderSet_waits
  obtain ⟨decodes, -⟩ := chunks .fullHeaderSet .a 0 0 0 0 .chunkWaiter 0 0 7 hsound hreq rfl ⟨rfl, rfl, rfl, rfl, rfl⟩ rfl hother
    hfence hgranted
  obtain ⟨t, -, ht, -, -, -, -, -, -, -, hdram⟩ := decodes _ State.fullHeaderSet_decodes
  have hnext : t = State.fullHeaderSet.chunkDecode .a 0 0 (some 7) 0 0 0 := (Host.Outcome.next.inj ht).symm
  rw [hnext, State.fullHeaderSet_writes_back] at hdram
  exact absurd hdram (by decide)

end Sys2Proof.Machine
end

section
/-! PROOF. Promotions (06_shingle R183): a promotion whose frame lies on a channel that the device does not have. -/

namespace Sys2Proof.Machine

theorem State.shaped_of_sound {s : State} (hs : s.sound = true) : s.shaped = true := by
  simp only [State.sound, Bool.and_eq_true] at hs
  exact hs.2

/-- A device of 24 channels has nothing in a channel past its 24. -/
theorem State.chan_of_le {s : State} (hs : s.shaped = true) {c : Nat} (hc : 24 ≤ c) : s.chan c = {} := by
  simp only [State.shaped, Bool.and_eq_true, beq_iff_eq] at hs
  obtain ⟨⟨-, hlen⟩, -⟩ := hs
  rw [State.chan, nth, List.getElem?_eq_none (by omega), Option.getD_none]

/-- An error promotion of page 0 of domain 0, with every chunk failed, into a frame of channel 24. -/
def Promo.offDevice : Promo :=
  { dom := 0, page := 0, rid := none, slot := 0, k := 1, frame := 24 * chanUnits, slotLines := []
    chunks := List.replicate 4 (some none), error := true }

/-- The promotion is under way, its page SHINGLE and locked, and the register that would be DMC_STATUS of channel 24 says TRAINED. -/
def State.offDevicePromo : State :=
  { (State.reset.setFld (dmcStatusTrained 24) 1) with
    extents := [(0, { kind := .paged })]
    pages := [(0, { state := .shingle, cls := 1 })]
    locks := [{ half := .a, dom := 0, page := 0 }]
    shg := ⟨{ promos := [.offDevice] }, {}⟩ }

/-- The frame's channel seems to serve, with room in its write buffer. -/
theorem State.offDevicePromo_ready :
    State.offDevicePromo.sound = true ∧ State.offDevicePromo.serves (chanOf .a Promo.offDevice.frame) = true ∧
      State.offDevicePromo.softRoom (chanOf .a Promo.offDevice.frame) 64 = true := by
  decide +kernel

/-- Refutes O38 in its clause on the end of a promotion that no write asked for: neither its hypotheses nor `State.sound` bound the
promotion's frame, and lines for a channel past the last are in no write buffer. -/
theorem not_promotions : ¬ Obligations.Promotions := by
  unfold Obligations.Promotions
  rintro ⟨-, -, -, commits, -⟩
  obtain ⟨hsound, hserves, hroom⟩ := State.offDevicePromo_ready
  obtain ⟨t, -, ht, -, -, -, -, -, -, -, hbuffered⟩ := commits .offDevicePromo .a 0 0 .offDevice hsound rfl rfl rfl hserves hroom
    (fun _ => rfl) rfl fun _ hx => absurd hx List.not_mem_nil
  have hshaped : t.shaped = true :=
    ((execPagePromoteCommit_keeps (Keeps.refl _)).out t ht).shape (State.shaped_of_sound hsound)
  have hline := hbuffered 0 (by decide)
  rw [State.chan_of_le hshaped (by decide)] at hline
  exact absurd hline (by decide)

end Sys2Proof.Machine
end
